-- ==== Sys2Proof/Word.lean ====
section
/-! DEFINITION. The words of the T9: bytes, 32-bit lane and memory words, 64-bit uniform words (00 R4, R5, R12). -/

namespace Sys2Proof

/-- One byte of memory (R5). -/
abbrev Byte := BitVec 8

/-- One 32-bit word: a lane register, an instruction word, a word of global memory (R12, R54, R211). -/
abbrev Word := BitVec 32

/-- One 64-bit word: a uniform register, an address (R12, R65). -/
abbrev DWord := BitVec 64

/-- A set of threads of one group, bit t for the thread with %tid t (R28, R38). -/
abbrev Mask := BitVec 256

end Sys2Proof
end

