-- ==== Sys2Proof/Config.lean ====
section
/-! DEFINITION. What is fixed for the machine and what the manual leaves open: constants without a body, which no
proof can see through. Each one is named in a row of notes/assumptions. -/

namespace Sys2Proof.Config

/-- The unspecified choices of the manual whose outcomes the schedule does not fix (R8; log 2): the value of a register that a
W = 0 read returns (R73) and of a shared control register (R117), the order of the atomics of one instruction (R30) and of
`.any` (R149), near or far (R226), a dual-mode alias (R210), what an engine reads of an issuer's word (R232), the index of a
fragment slot (R40) and the resident-group slots of a block (R304), the granules of a window (R201) and the bytes left in it
(R202), the entries of a walk (R328) and of a group of sixteen (R326), the counts of the sampled sets (R206), the empty queue that
loses its slot (R287), and the sectors that a core holds again after a launch (R229, R387). -/
inductive Choice
  | register | shared | atomics | combination | near | dualMode | engine | fragSlot | groupSlot | granules | leftBytes | entry | leaf
  | abCounts | unbind | refill
  deriving DecidableEq, Repr

/-- A choice of the `n`-th step, the one that `x` names among those of its kind. -/
opaque freeNat (c : Choice) (n x : Nat) : Nat

/-- The earlier contents of a word that is reached in both address modes (R210; log 2). -/
opaque earlierWord (n word : Nat) : Word

/-- Fresh key number `n` of the device's random source, a pair of AES-256 keys (R335; log 20). -/
opaque freshKey (n : Nat) : BitVec 512

/-- The key that the package behind a fabric window holds under a key id (R324, R374; log 21). -/
opaque remoteKey (window id : Nat) : BitVec 512

/-- The payload of an acknowledge flit that answers the flit of a sequence, or asks for it again (R373; log 23). -/
opaque ackPayload (seq : Nat) (again : Bool) : List Byte

/-- The SLH-DSA signature of the device key over the measurement registers and a request (R378; log 24). -/
opaque spdmSign (registers request : List Byte) : List Byte

/-- The hash of the public key of the firmware's signer, held in fuses (R378; log 24). -/
opaque fuseHash : List Byte

/-- The byte that a read completing with poison delivers (R369, R381; log 22). -/
opaque poisonByte (n : Nat) : Byte

/-- The core's stepping id (the card of STEPID: 3 for every T9 shipped). -/
def stepId : Nat := 3

end Sys2Proof.Config
end

