-- ==== Sys2Proof/Syntax.lean ====
section
/-! DEFINITION. The instructions and events of the opcode table as data: one constructor of `Instr` per row of
spec/opcode_table.json. Encodings stand in Decode; meanings in Machine. -/

namespace Sys2Proof

/-! ### Operand parts -/

/-- A guard on a lane predicate (R58, R59). -/
structure GuardQ where
  neg : Bool
  q : BitVec 3
  deriving DecidableEq, Repr

/-- A guard on a uniform predicate (R58, R59). -/
structure GuardK where
  neg : Bool
  k : BitVec 2
  deriving DecidableEq, Repr

/-- The integer types (R61, R126). -/
inductive IntTy | i8 | i16 | i32 | i64 | n8 | n16 | n32 | n64
  deriving DecidableEq, Repr

/-- The IEEE binary types (R61, R128). -/
inductive FTy | f16 | bf16 | f32 | f64
  deriving DecidableEq, Repr

/-- The block formats (R138). -/
inductive BTy | bq8 | bq4
  deriving DecidableEq, Repr

/-- A type of one element: integer or floating (R237). -/
inductive ElemTy | int (t : IntTy) | flt (t : FTy)
  deriving DecidableEq, Repr

/-- The types of BFX and BFI (R158). -/
inductive BfTy | i32 | n32 | i64 | n64
  deriving DecidableEq, Repr

/-- The index types of LEA (R162). -/
inductive IdxTy | i8 | i16 | i32 | n8 | n16 | n32
  deriving DecidableEq, Repr

/-- The types of PACK and UNPK (R175). -/
inductive PackTy | f16 | bf16 | i16 | n16 | i8 | n8 | bq8 | bq4
  deriving DecidableEq, Repr

/-- The operand types of matrix instructions (R261). -/
inductive MatTy | f64 | f32 | bf16 | f16 | i8 | bq8 | bq4
  deriving DecidableEq, Repr

/-- The operand types of MMAS and SPK (R261). -/
inductive SpTy | bf16 | f16 | i8 | bq8 | bq4
  deriving DecidableEq, Repr

/-- The sparsity patterns 2:4 and 4:8 (R266). -/
inductive SpPat | sp24 | sp48
  deriving DecidableEq, Repr

/-- Rounding modes (R60, R132). -/
inductive Rnd | rn | rz | rd | ru | rna
  deriving DecidableEq, Repr

/-- Scopes (R62, R218). -/
inductive Scope | thread | blk | die | pkg | sys (n : BitVec 4)
  deriving DecidableEq, Repr

/-- A second source: a register or an 8-bit immediate (R152). -/
inductive Src | reg (v : BitVec 8) | imm (i : BitVec 8)
  deriving DecidableEq, Repr

/-- The conditions of ICMP (R164). -/
inductive ICond | eq | ne | lt | le | gt | ge
  deriving DecidableEq, Repr

/-- The conditions of FCMP (R164). -/
inductive FCond | eq | ne | lt | le | gt | ge | un | ord | ltu | leu | gtu | geu
  deriving DecidableEq, Repr

/-- The functions of QOP (R166). -/
inductive QFn | and | or | xor | andn | orn | nand | nor | xnor
  deriving DecidableEq, Repr

/-- The special registers a lane instruction reads (R114). -/
inductive SpecialReg | tid | pass | fflags | grant
  deriving DecidableEq, Repr

/-- How IMUL ends (R156). -/
inductive MulMode | wrap | sat | hi
  deriving DecidableEq, Repr

/-! ### Lane arithmetic operands -/

structure MovOp where (w : Bool) (vd va : BitVec 8)
  deriving DecidableEq, Repr
structure SpecialMovOp where (w : Bool) (vd : BitVec 8) (sel : SpecialReg)
  deriving DecidableEq, Repr
structure MoviOp where (w : Bool) (vd : BitVec 8) (imm : BitVec 16)
  deriving DecidableEq, Repr
structure MoviwOp where (w : Bool) (vd : BitVec 8) (imm : BitVec 32)
  deriving DecidableEq, Repr
structure IaddiOp where (w : Bool) (vd va imm : BitVec 8)
  deriving DecidableEq, Repr
structure LeaOp where (w : Bool) (g : Option GuardQ) (t : IdxTy) (vd va vb : BitVec 8) (sh : BitVec 3) (disp : BitVec 8)
  deriving DecidableEq, Repr
/-- IADD, ISUB with `.sat` (R156). -/
structure IntSatOp where (w : Bool) (g : Option GuardQ) (t : IntTy) (sat : Bool) (vd va : BitVec 8) (b : Src)
  deriving DecidableEq, Repr
structure ImulOp where (w : Bool) (g : Option GuardQ) (t : IntTy) (mode : MulMode) (vd va : BitVec 8) (b : Src)
  deriving DecidableEq, Repr
structure ImadOp where (w : Bool) (g : Option GuardQ) (t : IntTy) (sat : Bool) (vd va : BitVec 8) (b : Src) (vc : BitVec 8)
  deriving DecidableEq, Repr
/-- IMIN, IMAX, shifts and logic: two sources, no saturation (R156, R158). -/
structure IntBinOp where (w : Bool) (g : Option GuardQ) (t : IntTy) (vd va : BitVec 8) (b : Src)
  deriving DecidableEq, Repr
structure IabsOp where (w : Bool) (g : Option GuardQ) (t : IntTy) (sat : Bool) (vd va : BitVec 8)
  deriving DecidableEq, Repr
/-- POPC, CLZ (R158). -/
structure IntCountOp where (w : Bool) (g : Option GuardQ) (t : IntTy) (vd va : BitVec 8)
  deriving DecidableEq, Repr
/-- A bit field's place: in a register, or position and length in the word (R158, R161). -/
inductive BitField | reg (v : BitVec 8) | imm (pos len : BitVec 8)
  deriving DecidableEq, Repr
structure BfxOp where (w : Bool) (g : Option GuardQ) (t : BfTy) (vd va : BitVec 8) (f : BitField)
  deriving DecidableEq, Repr
structure BfiOp where (w : Bool) (g : Option GuardQ) (t : BfTy) (vd va : BitVec 8) (f : BitField) (vc : BitVec 8)
  deriving DecidableEq, Repr
structure IcmpOp where (w : Bool) (g : Option GuardQ) (t : IntTy) (c : ICond) (qd : BitVec 3) (va : BitVec 8) (b : Src)
  deriving DecidableEq, Repr
structure FcmpOp where (w : Bool) (g : Option GuardQ) (t : FTy) (c : FCond) (ftz : Bool) (qd : BitVec 3) (va vb : BitVec 8)
  deriving DecidableEq, Repr
structure FclassOp where (w : Bool) (g : Option GuardQ) (t : FTy) (qd : BitVec 3) (va : BitVec 8) (mask : BitVec 10)
  deriving DecidableEq, Repr
/-- What QSET writes (R163, R166). -/
inductive QsetFn | clr | set | nz (t : IntTy) (va : BitVec 8) | bit (t : IntTy) (va : BitVec 8) (n : BitVec 6)
  deriving DecidableEq, Repr
structure QsetOp where (w : Bool) (g : Option GuardQ) (qd : BitVec 3) (fn : QsetFn)
  deriving DecidableEq, Repr
structure QopOp where (w : Bool) (fn : QFn) (qd qa qb : BitVec 3)
  deriving DecidableEq, Repr
structure SelOp where (w : Bool) (g : Option GuardQ) (wide neg : Bool) (qs : BitVec 3) (vd va : BitVec 8) (b : Src)
  deriving DecidableEq, Repr
/-- FADD, FSUB, FMUL (R168). -/
structure FBinOp where (w : Bool) (g : Option GuardQ) (t : FTy) (m : Rnd) (ftz : Bool) (vd va vb : BitVec 8)
  deriving DecidableEq, Repr
structure FfmaOp where (w : Bool) (g : Option GuardQ) (t : FTy) (m : Rnd) (ftz : Bool) (vd va vb vc : BitVec 8)
  deriving DecidableEq, Repr
/-- FMIN, FMAX (R168). -/
structure FSelOp where (w : Bool) (g : Option GuardQ) (t : FTy) (ftz : Bool) (vd va vb : BitVec 8)
  deriving DecidableEq, Repr
/-- FRCP, FSQRT, FRSQ, FEXP2, FLOG2 (R168). -/
structure FUnOp where (w : Bool) (g : Option GuardQ) (t : FTy) (m : Rnd) (ftz : Bool) (vd va : BitVec 8)
  deriving DecidableEq, Repr
/-- The floating types a block format converts from and to (R172). -/
inductive BSide | f16 | bf16 | f32
  deriving DecidableEq, Repr
/-- The accepted conversions of one value (R171 to R173). -/
inductive CvtPair
  | intInt (s d : IntTy) (m : Rnd) (sat : Bool)
  | intFlt (s : IntTy) (d : FTy) (m : Rnd) (ftz : Bool)
  | fltFlt (s d : FTy) (m : Rnd) (ftz : Bool)
  | fltInt (s : FTy) (d : IntTy) (m : Rnd) (ftz : Bool)
  deriving DecidableEq, Repr
/-- The accepted conversions of the lane form (R172, R174). -/
inductive CvtKind
  | one (p : CvtPair)
  | quant (s : BSide) (d : BTy) (vc : BitVec 8)
  | dequant (s : BTy) (d : BSide) (m : Rnd) (vc : BitVec 8)
  deriving DecidableEq, Repr
structure CvtOp where (w : Bool) (g : Option GuardQ) (kind : CvtKind) (vd va : BitVec 8)
  deriving DecidableEq, Repr
structure PackOp where (w : Bool) (g : Option GuardQ) (t : PackTy) (sat : Bool) (vd va vb : BitVec 8)
  deriving DecidableEq, Repr
structure UnpkOp where (w : Bool) (g : Option GuardQ) (t : PackTy) (vd va : BitVec 8) (h : Bool)
  deriving DecidableEq, Repr

/-! ### Cross-lane and divergence operands -/

/-- Segments (R180). -/
inductive Seg | win | quad | oct
  deriving DecidableEq, Repr
inductive ShflMode | idx | up | down | xor
  deriving DecidableEq, Repr
structure ShflOp where (w : Bool) (g : Option GuardQ) (mode : ShflMode) (seg : Seg) (wide : Bool) (vd va : BitVec 8) (b : Src)
  deriving DecidableEq, Repr
/-- VOTE's operation with its destination: only `any` and `all` may write a predicate (R183). -/
inductive VoteFn
  | anyV (vd : BitVec 8) | allV (vd : BitVec 8) | ballot (vd : BitVec 8) | count (vd : BitVec 8)
  | anyQ (qd : BitVec 3) | allQ (qd : BitVec 3)
  deriving DecidableEq, Repr
structure VoteOp where (w : Bool) (g : Option GuardQ) (seg : Seg) (fn : VoteFn) (qa : BitVec 3)
  deriving DecidableEq, Repr
/-- Reduction orders (R146 to R149). -/
inductive Order | fix | win | any
  deriving DecidableEq, Repr
inductive RedIntFn | add | min | max | and | or | xor
  deriving DecidableEq, Repr
/-- What a combining step does (R184, R185). -/
inductive RedFn
  | int (t : IntTy) (f : RedIntFn)
  | fadd (t : FTy) (m : Rnd) (ftz : Bool)
  | fmin (t : FTy) (ftz : Bool)
  | fmax (t : FTy) (ftz : Bool)
  deriving DecidableEq, Repr
structure RedOp where (w : Bool) (g : Option GuardQ) (order : Order) (fn : RedFn) (vd va : BitVec 8)
  deriving DecidableEq, Repr
structure ScanOp where (w : Bool) (g : Option GuardQ) (order : Order) (ex : Bool) (fn : RedFn) (vd va : BitVec 8)
  deriving DecidableEq, Repr
structure BrdOp where (w : Bool) (q : BitVec 3) (neg : Bool) (tok : BitVec 4) (off : BitVec 16)
  deriving DecidableEq, Repr
structure JoinOp where (w : Bool) (tok : BitVec 4)
  deriving DecidableEq, Repr

/-! ### Lane memory operands -/

/-- The index term of a memory operand (R65). -/
inductive Index | none | zext (v : BitVec 8) | sext (v : BitVec 8) | pair (v : BitVec 8)
  deriving DecidableEq, Repr
/-- The memory operand of R65; `disp` counts access sizes. -/
structure Addr where
  sb : BitVec 6
  idx : Index
  disp : BitVec 8
  deriving DecidableEq, Repr
/-- Element count of an access (R237). -/
inductive Count | x1 | x2 | x4
  deriving DecidableEq, Repr
/-- LD, ST and the per-core forms (R242, R245). -/
structure MemOp where (w : Bool) (g : Option GuardQ) (t : ElemTy) (c : Count) (vt : BitVec 8) (a : Addr)
  deriving DecidableEq, Repr
/-- LDL, STL with the pooled bit (R245). -/
structure LsOp where (w : Bool) (g : Option GuardQ) (pool : Bool) (t : ElemTy) (c : Count) (vt : BitVec 8) (a : Addr)
  deriving DecidableEq, Repr
/-- The index operand of gathers and scatters (R66). -/
inductive GWidth | w8 | w16 | w32
  deriving DecidableEq, Repr
structure GIndex where (sb : BitVec 6) (va : BitVec 8) (width : GWidth) (signed : Bool) (sh : BitVec 3) (disp : BitVec 8)
  deriving DecidableEq, Repr
/-- LDG, STG (R242). -/
structure GatherOp where (w : Bool) (g : Option GuardQ) (t : ElemTy) (vt : BitVec 8) (x : GIndex)
  deriving DecidableEq, Repr
/-- LDG.row; `vc` only for block types (R273). -/
inductive RowTy | f64 | f32 | bf16 | f16 | i8 | bq8 (vc : BitVec 8) | bq4 (vc : BitVec 8)
  deriving DecidableEq, Repr
structure RowOp where (w : Bool) (g : Option GuardQ) (t : RowTy) (vt : BitVec 8) (x : GIndex)
  deriving DecidableEq, Repr
/-- The integer types of an atomic (R243). -/
inductive AtomTy | i32 | n32 | i64 | n64
  deriving DecidableEq, Repr
inductive AtomFn | add | min | max | and | or | xor | exch | cas
  deriving DecidableEq, Repr
/-- Operation and type of an atomic: `.fadd` takes f32 and f64 only (R243). -/
inductive AtomKind | int (f : AtomFn) (t : AtomTy) | fadd32 | fadd64
  deriving DecidableEq, Repr
structure AtomOp where (w : Bool) (g : Option GuardQ) (rel : Bool) (kind : AtomKind) (scope : Scope) (vt : BitVec 8) (a : Addr)
  deriving DecidableEq, Repr
structure PftOp where (w : Bool) (g : Option GuardQ) (a : Addr)
  deriving DecidableEq, Repr
/-- Chunk sizes of FILL, 4 × 2^k bytes (R248). -/
inductive Chunk | b4 | b8 | b16 | b32 | b64 | b128
  deriving DecidableEq, Repr
inductive FillSpace | wb | ab | ls
  deriving DecidableEq, Repr
structure FillOp where (w : Bool) (g : Option GuardQ) (size : Chunk) (space : FillSpace) (vt : BitVec 8) (mbar : Option (BitVec 8)) (a : Addr)
  deriving DecidableEq, Repr

/-! ### Matrix operands -/

structure MmaOp where (w : Bool) (g : Option GuardQ) (t : MatTy) (ru z : Bool) (va : BitVec 8) (sw sc : BitVec 6)
  deriving DecidableEq, Repr
structure MmasOp where (w : Bool) (g : Option GuardQ) (t : SpTy) (pat : SpPat) (ru z : Bool) (va : BitVec 8) (sw sc : BitVec 6) (vm : BitVec 8)
  deriving DecidableEq, Repr
structure SpkOp where (w : Bool) (g : Option GuardQ) (t : SpTy) (pat : SpPat) (vm : BitVec 8) (sw sc : BitVec 6)
  deriving DecidableEq, Repr
structure MzeroOp where (w : Bool) (g : Option GuardQ) (t : MatTy) (lc : BitVec 2) (sc : BitVec 6)
  deriving DecidableEq, Repr
/-- Destination types of a drain; rounding only where it narrows, the exponent register only for blocks (R277). -/
inductive DrainTy
  | f64 | f32 | f32of64 (m : Rnd) | f32ofi32 (m : Rnd) | bf16 (m : Rnd) | f16 (m : Rnd) | i32
  | bq8 (vc : BitVec 8) | bq4 (vc : BitVec 8)
  deriving DecidableEq, Repr
structure MdrnOp where (w : Bool) (g : Option GuardQ) (dt : DrainTy) (st : MatTy) (clr : Bool) (lc : BitVec 2) (va : BitVec 8) (sc : BitVec 6)
  deriving DecidableEq, Repr
structure MdrnMemOp where (w : Bool) (g : Option GuardQ) (dt : DrainTy) (st : MatTy) (clr : Bool) (va : BitVec 8) (sc : BitVec 6)
  deriving DecidableEq, Repr
structure MdrnPeerOp where (w : Bool) (g : Option GuardQ) (ord clr : Bool) (st : MatTy) (sw sc : BitVec 6)
  deriving DecidableEq, Repr

/-! ### Uniform operands -/

structure SBin where (w : Bool) (sd sa sb : BitVec 6)
  deriving DecidableEq, Repr
structure SUn where (w : Bool) (sd sa : BitVec 6)
  deriving DecidableEq, Repr
structure SImm where (w : Bool) (sd sa imm : BitVec 6)
  deriving DecidableEq, Repr
structure SMovi where (w : Bool) (sd imm : BitVec 6)
  deriving DecidableEq, Repr
structure SWide where (w : Bool) (sd sa : BitVec 6) (imm : BitVec 32)
  deriving DecidableEq, Repr
structure SMoviw where (w : Bool) (sd : BitVec 6) (imm : BitVec 32)
  deriving DecidableEq, Repr
structure FopBin where (w : Bool) (g : Option GuardK) (t : FTy) (m : Rnd) (ftz : Bool) (sd sa sb : BitVec 6)
  deriving DecidableEq, Repr
structure FopFma where (w : Bool) (g : Option GuardK) (t : FTy) (m : Rnd) (ftz : Bool) (sd sa sb sc : BitVec 6)
  deriving DecidableEq, Repr
structure FopSel where (w : Bool) (g : Option GuardK) (t : FTy) (ftz : Bool) (sd sa sb : BitVec 6)
  deriving DecidableEq, Repr
structure FopUn where (w : Bool) (g : Option GuardK) (t : FTy) (m : Rnd) (ftz : Bool) (sd sa : BitVec 6)
  deriving DecidableEq, Repr
structure FopCvt where (w : Bool) (g : Option GuardK) (p : CvtPair) (sd sa : BitVec 6)
  deriving DecidableEq, Repr
structure KIcmp where (w : Bool) (g : Option GuardK) (t : IntTy) (c : ICond) (kd : BitVec 2) (sa sb : BitVec 6)
  deriving DecidableEq, Repr
structure KFcmp where (w : Bool) (g : Option GuardK) (t : FTy) (c : FCond) (ftz : Bool) (kd : BitVec 2) (sa sb : BitVec 6)
  deriving DecidableEq, Repr
structure KFclass where (w : Bool) (g : Option GuardK) (t : FTy) (kd : BitVec 2) (sa : BitVec 6) (mask : BitVec 10)
  deriving DecidableEq, Repr
structure KQop where (w : Bool) (fn : QFn) (kd ka kb : BitVec 2)
  deriving DecidableEq, Repr
/-- What the uniform QSET writes (R191). -/
inductive KQsetFn | clr | set | nz (sa : BitVec 6)
  deriving DecidableEq, Repr
structure KQset where (w : Bool) (kd : BitVec 2) (fn : KQsetFn)
  deriving DecidableEq, Repr

/-- Access sizes of SLD (R57). -/
inductive SldSz | n8 | n16 | n32 | d64 | i8 | i16 | i32
  deriving DecidableEq, Repr
/-- Access sizes of SST (R246). -/
inductive SstSz | n8 | n16 | n32 | d64
  deriving DecidableEq, Repr
structure SldOp where (w : Bool) (st sb : BitVec 6) (sz : SldSz) (off : BitVec 9)
  deriving DecidableEq, Repr
structure SstOp where (w : Bool) (st sb : BitVec 6) (sz : SstSz) (off : BitVec 9)
  deriving DecidableEq, Repr
structure SatomOp where (w : Bool) (g : Option GuardK) (rel : Bool) (kind : AtomKind) (scope : Scope) (sd sa sb : BitVec 6) (disp : BitVec 8)
  deriving DecidableEq, Repr
structure AcqOp where (w : Bool) (scope : Scope) (mask : BitVec 16)
  deriving DecidableEq, Repr
structure ScopeOp where (w : Bool) (scope : Scope)
  deriving DecidableEq, Repr
/-- The levels of CLN, INV and CIV (R255). -/
inductive MntLevel | l1 | home | mem
  deriving DecidableEq, Repr
structure MntOp where (w : Bool) (g : Option GuardK) (lvl : MntLevel) (sa sb : BitVec 6)
  deriving DecidableEq, Repr
structure RgnOp where (w : Bool) (idx : BitVec 4) (sa sb : BitVec 6)
  deriving DecidableEq, Repr
structure JumpOp where (w : Bool) (off : BitVec 24)
  deriving DecidableEq, Repr
structure BrcOp where (w : Bool) (k : BitVec 2) (neg : Bool) (off : BitVec 21)
  deriving DecidableEq, Repr
structure SrcOp where (w : Bool) (sa : BitVec 6)
  deriving DecidableEq, Repr
structure WOp where (w : Bool)
  deriving DecidableEq, Repr
structure SetwImmOp where (w : Bool) (n : BitVec 32)
  deriving DecidableEq, Repr
structure BarOp where (w : Bool) (b : BitVec 4)
  deriving DecidableEq, Repr
/-- MBAR.INIT, MBAR.ARM (R362). -/
structure MbarOp where (w : Bool) (g : Option GuardK) (sa sb : BitVec 6)
  deriving DecidableEq, Repr
structure MbarArrOp where (w : Bool) (g : Option GuardK) (scope : Scope) (sa : BitVec 6)
  deriving DecidableEq, Repr
structure MbarWaitOp where (w : Bool) (g : Option GuardK) (scope : Scope) (sd sa sb : BitVec 6)
  deriving DecidableEq, Repr
structure BwaitImmOp where (w : Bool) (n : BitVec 16)
  deriving DecidableEq, Repr
/-- The completion scope of an engine instruction: pkg or sys(n) (R256). -/
inductive WideScope | pkg | sys (n : BitVec 4)
  deriving DecidableEq, Repr
structure EngineOp where (w : Bool) (g : Option GuardK) (scope : WideScope) (sd sa : BitVec 6)
  deriving DecidableEq, Repr
structure SpawnOp where (w : Bool) (g : Option GuardK) (sa sb sc : BitVec 6)
  deriving DecidableEq, Repr
/-- ENQ, DEQ; the length is `len + 1` units of 8 bytes (R291). -/
structure QueueOp where (w : Bool) (g : Option GuardK) (scope : Scope) (sd sa sb : BitVec 6) (len : BitVec 3)
  deriving DecidableEq, Repr
/-- CDEC, CINC (R351). -/
structure CountOp where (w : Bool) (g : Option GuardK) (rel : Bool) (scope : Scope) (sd sa sb : BitVec 6)
  deriving DecidableEq, Repr
structure TdefOp where (w : Bool) (g : Option GuardK) (sd sa sb : BitVec 6)
  deriving DecidableEq, Repr
structure TrapOp where (w : Bool) (n : BitVec 16)
  deriving DecidableEq, Repr
structure CsrOp where (w : Bool) (s : BitVec 6) (csr : BitVec 12)
  deriving DecidableEq, Repr
structure PairOp where (w : Bool) (sa sb : BitVec 6)
  deriving DecidableEq, Repr
structure KeyLoadOp where (w : Bool) (g : Option GuardK) (sd sa sb : BitVec 6)
  deriving DecidableEq, Repr
structure KeyOp where (w : Bool) (g : Option GuardK) (sd sa : BitVec 6)
  deriving DecidableEq, Repr

/-! ### Arguments of events -/

/-- Agents that hold registration (R215). A compute group keeps its number across a save; its packed id of R215
follows from its core and slot. -/
inductive Agent
  | group (id : Nat)
  | control (cc : Nat)
  | engine (iod n : Nat)
  | host (iod : Nat)
  | remote (pkg : BitVec 20) (n : Nat)
  deriving DecidableEq, Repr
/-- A context as KBIND and %ctx name it: ASID, page-table root, owner key id (R122, R323). -/
structure Ctx where
  asid : BitVec 16
  root : BitVec 56
  key : BitVec 10
  deriving DecidableEq, Repr
/-- The three CSRW functions (R87). -/
inductive CsrwFn | write | set | clr
  deriving DecidableEq, Repr
/-- Ways of one access at its home (R224). -/
inductive HomeKind
  | load
  | store (v : Word)
  | atomic (near : Bool) (f : AtomFn) (cmp v : Word)
  | release
  deriving DecidableEq, Repr
/-- A write to a control register or to a host BAR register without a behaviour of its own (R124, R371). -/
inductive RegWrite
  | csr (cc : Nat) (csr : BitVec 12) (fn : CsrwFn) (v : DWord)
  | bar (iod off : Nat) (v : DWord)
  deriving DecidableEq, Repr
/-- Where an uncorrectable error lies (R381): a unit of memory, a line of an SRAM, the local state of a compute core or of a
control core. -/
inductive ErrorPlace
  | memory (pa : Nat)
  | sram (line : Nat)
  | core (n : Nat)
  | control (cc : Nat)
  deriving DecidableEq, Repr
/-- A flit of a Lamral port as it arrives (R373). -/
structure Flit where
  slot : Bool
  seq : BitVec 48
  type : BitVec 8
  tag : Nat
  payload : List Byte
  deriving DecidableEq, Repr
/-- The command of a member of a collective on another package, as the fabric brings it (R260): its m, its member table, and
its contribution before quantisation, whose length is its len. -/
structure Contribution where
  m : Nat
  table : List Nat
  ys : List Word
  deriving DecidableEq, Repr
/-- The L1 that a word leaves (R208): a compute core's, or a control core's data cache. -/
inductive EvictedFrom
  | core (n : Nat)
  | control (cc : Nat)
  deriving DecidableEq, Repr
/-- What a registration message, or a flit with its data, asks of the home of a word (R374): one access of a remote agent. -/
structure RemoteAccess where
  agent : Agent
  kind : HomeKind
  pa : Nat
  deriving DecidableEq, Repr
/-- A registration or data flit on a port (R373): one arrives, with what its payload says where it asks for an access, or the port
sends one with a payload. -/
inductive FlitStep
  | arrives (f : Flit) (access : Option RemoteAccess)
  | sends (payload : List Byte)
  deriving DecidableEq, Repr
/-- An acknowledge flit (R373): which flit it acknowledges, and from which on it asks for the flits again. -/
structure AckFlit where
  flit : Flit
  seq : BitVec 48
  again : Option (BitVec 48)
  deriving DecidableEq, Repr
/-- Steps about key slots (R376): a key-control flit arrives, or the old key slot is retired. -/
inductive KeyStep
  | arrives (f : Flit)
  | retires (slot : Bool)
  deriving DecidableEq, Repr
/-- The key that firmware loads into a port's slot not in use (R376). -/
structure NewKey where
  port : Nat
  key : BitVec 256
  deriving DecidableEq, Repr
/-- A die to be admitted again, and whether its links could be retrained (R380). -/
structure Retraining where
  die : Nat
  succeeds : Bool
  deriving DecidableEq, Repr
/-- What the boot ROM finds at a start (R378, R379): the firmware image with its public key and signature, and the context
that firmware binds for the host (R369). -/
structure Boot where
  image : List Byte
  publicKey : List Byte
  signature : List Byte
  host : Ctx
  deriving DecidableEq, Repr
/-- A scope table (R333): the entries below L and the windows firmware writes before it (R375). -/
structure ScopeTable where
  entries : List (BitVec 20 × BitVec 20)
  windows : List (BitVec 20 × Bool × Bool)
  deriving DecidableEq, Repr

/-- The T9's steps: one constructor per row of spec/opcode_table.json, instruction rows first, in the table's
order, and then the events that no word encodes, with the arguments the outside or the hardware chooses. -/
inductive Instr
  -- lane arithmetic (08), divergence (09)
  | mov (o : MovOp) | specialMov (o : SpecialMovOp) | movi (o : MoviOp) | moviw (o : MoviwOp) | iaddi (o : IaddiOp)
  | lea (o : LeaOp) | brd (o : BrdOp) | join (o : JoinOp)
  | iadd (o : IntSatOp) | isub (o : IntSatOp) | imul (o : ImulOp) | imad (o : ImadOp) | imin (o : IntBinOp)
  | imax (o : IntBinOp) | iabs (o : IabsOp) | icmp (o : IcmpOp) | sel (o : SelOp)
  | fadd (o : FBinOp) | fsub (o : FBinOp) | ffma (o : FfmaOp) | fmul (o : FBinOp) | fmin (o : FSelOp) | fmax (o : FSelOp)
  | fcmp (o : FcmpOp) | fclass (o : FclassOp) | ldgRow (o : RowOp)
  | shl (o : IntBinOp) | shr (o : IntBinOp) | sha (o : IntBinOp) | and (o : IntBinOp) | or (o : IntBinOp) | xor (o : IntBinOp)
  | bfx (o : BfxOp) | bfi (o : BfiOp) | popc (o : IntCountOp) | clz (o : IntCountOp)
  | frcp (o : FUnOp) | fsqrt (o : FUnOp) | frsq (o : FUnOp) | fexp2 (o : FUnOp) | flog2 (o : FUnOp) | cvt (o : CvtOp)
  | pack (o : PackOp) | unpk (o : UnpkOp) | qset (o : QsetOp) | qop (o : QopOp)
  | shfl (o : ShflOp) | vote (o : VoteOp) | red (o : RedOp) | scan (o : ScanOp)
  -- lane memory (12), tiles (17), matrix (13)
  | ld (o : MemOp) | st (o : MemOp) | ldg (o : GatherOp) | stg (o : GatherOp) | atom (o : AtomOp) | pft (o : PftOp)
  | lda (o : MemOp) | sta (o : MemOp) | ldaTile (o : MemOp) | staTile (o : MemOp) | ldl (o : LsOp) | stl (o : LsOp)
  | fill (o : FillOp) | mma (o : MmaOp) | mmas (o : MmasOp) | spk (o : SpkOp) | mdrn (o : MdrnOp) | mdrnMem (o : MdrnMemOp)
  | mdrnPeer (o : MdrnPeerOp) | mzero (o : MzeroOp)
  -- uniform integer (09)
  | iopIadd (o : SBin) | iopIsub (o : SBin) | iopImul (o : SBin) | iopIminI64 (o : SBin) | iopImaxI64 (o : SBin)
  | iopIminN64 (o : SBin) | iopImaxN64 (o : SBin) | iopIabs (o : SUn) | iopAnd (o : SBin) | iopOr (o : SBin) | iopXor (o : SBin)
  | iopShl (o : SBin) | iopShr (o : SBin) | iopSha (o : SBin) | iopPopc (o : SUn) | iopClz (o : SUn) | iopMov (o : SUn)
  | iopiIadd (o : SImm) | iopiIsub (o : SImm) | iopiImul (o : SImm) | iopiIminI64 (o : SImm) | iopiImaxI64 (o : SImm)
  | iopiIminN64 (o : SImm) | iopiImaxN64 (o : SImm) | iopiAnd (o : SImm) | iopiOr (o : SImm) | iopiXor (o : SImm)
  | iopiShl (o : SImm) | iopiShr (o : SImm) | iopiSha (o : SImm) | iopiMovi (o : SMovi)
  | iopwIadd (o : SWide) | iopwIsub (o : SWide) | iopwImul (o : SWide) | iopwIminI64 (o : SWide) | iopwImaxI64 (o : SWide)
  | iopwIminN64 (o : SWide) | iopwImaxN64 (o : SWide) | iopwAnd (o : SWide) | iopwOr (o : SWide) | iopwXor (o : SWide)
  | iopwShl (o : SWide) | iopwShr (o : SWide) | iopwSha (o : SWide) | iopwMovi (o : SMoviw)
  -- uniform floating, compares, predicates (09)
  | fopFadd (o : FopBin) | fopFsub (o : FopBin) | fopFmul (o : FopBin) | fopFfma (o : FopFma) | fopFmin (o : FopSel)
  | fopFmax (o : FopSel) | fopFrcp (o : FopUn) | fopFsqrt (o : FopUn) | fopFrsq (o : FopUn) | fopFexp2 (o : FopUn)
  | fopFlog2 (o : FopUn) | fopCvt (o : FopCvt) | cmpkIcmp (o : KIcmp) | cmpkFcmp (o : KFcmp) | cmpkFclass (o : KFclass)
  | prkQop (o : KQop) | prkQset (o : KQset)
  -- uniform memory and ordering (12)
  | sld (o : SldOp) | sst (o : SstOp) | satom (o : SatomOp) | acq (o : AcqOp) | acqAll (o : ScopeOp) | rel (o : ScopeOp)
  | cln (o : MntOp) | inv (o : MntOp) | civ (o : MntOp) | rgn (o : RgnOp)
  -- control flow, width regions, barriers, batches
  | bra (o : JumpOp) | call (o : JumpOp) | brc (o : BrcOp) | braRegister (o : SrcOp) | callRegister (o : SrcOp) | ret (o : SrcOp)
  | exit (o : WOp) | yieldSlot (o : WOp) | setwImmediate (o : SetwImmOp) | setwRImmediate (o : SetwImmOp)
  | setwRegister (o : SrcOp) | setwRRegister (o : SrcOp) | endw (o : WOp)
  | bar (o : BarOp) | barArr (o : BarOp) | barWait (o : BarOp) | gbar (o : WOp)
  | mbarInit (o : MbarOp) | mbarArm (o : MbarOp) | mbarArr (o : MbarArrOp) | mbarWait (o : MbarWaitOp)
  | bclose (o : WOp) | bwaitImmediate (o : BwaitImmOp) | bwaitRegister (o : SrcOp)
  -- engines, queues, counters, tiles
  | ecpy (o : EngineOp) | epub (o : EngineOp) | ecoll (o : EngineOp) | spawn (o : SpawnOp) | enq (o : QueueOp) | deq (o : QueueOp)
  | cdec (o : CountOp) | cinc (o : CountOp) | tdef (o : TdefOp) | tseal (o : SUn) | tdrop (o : SUn) | thold (o : SUn) | tfree (o : SUn)
  -- traps, control registers, privileged
  | tfence (o : WOp) | trap (o : TrapOp) | trapBreak (o : TrapOp) | rte (o : WOp)
  | csrr (o : CsrOp) | csrw (o : CsrOp) | csrwSet (o : CsrOp) | csrwClr (o : CsrOp)
  | svc (o : TrapOp) | eret (o : WOp) | tlbiPage (o : PairOp) | tlbiAsid (o : SrcOp) | tlbiAll (o : WOp) | ctxi (o : SrcOp)
  | keysetLoad (o : KeyLoadOp) | keysetGen (o : KeyOp) | keysetErase (o : KeyOp) | halt (o : WOp)
  -- events of the control cores and of the memory system
  | kbindWrite (cc : Nat) (v : DWord) | ilckWrite (cc : Nat) (fn : CsrwFn) (v : DWord) | kpendWrite (cc : Nat) (fn : CsrwFn) (v : DWord)
  | registerWrite (r : RegWrite) | interrupt (cc : Nat) | trapDelivery (g : Nat)
  | homeAccess (a : Agent) (k : HomeKind) (pa : Nat) | eviction (site : EvictedFrom) (word : Nat) | monitorWake (line : Nat) | walkRetry (g id : Nat)
  -- events of dispatch and queues
  | switchOut (block : Nat) | dispatch (die : Nat) (cores : List Nat) | priorityAging (die slot idx : Nat) | blockStart (core : Nat)
  | steal (thief victim : Nat) | urgent (g f : Nat) | timerExpiry (core bin : Nat) | binClose (core bin : Nat)
  | spawnedGroupStart (core : Nat) | taskCompletion (task : Nat) | foldRetry (core : Nat) | unbind (die slot : Nat)
  | overflowAppend (die : Nat) | chunkLanding (id : Nat) | mbarTimeout (g f : Nat) | peerAddLanding (id : Nat)
  | gangBarrierPass (gang : Nat)
  -- events of the copy engines
  | copyCommand (iod n : Nat) | upload (iod n : Nat) | epubCommand (iod n : Nat) | ecollCommand (iod n : Nat)
  | collectiveMatch (iod n : Nat) (others : List Contribution) | publish (iod n : Nat)
  -- tiles, boundary, requests
  | recipeRun (block tile : Nat) | abIntervalEnd (core a l g : Nat) | runRequest (c : Ctx) | preemptRequest (c : Ctx)
  | saveRequest (c : Ctx) | abortRequest (c : Ctx) | resumeRequest (c : Ctx) | unassignedRequest (c : Ctx)
  | drainlimExpiry (block : Nat) | save (gang : Nat) | restore (gang : Nat) (cores : List Nat) | statusWrite (c : Ctx)
  -- host, fabric, start-up, background
  | doorbell (iod : Nat) | cxlMemRead (iod off : Nat) | cxlMemWrite (iod off : Nat) (bytes : List Byte)
  | registrationFlit (port : Nat) (f : FlitStep) | dataFlit (port : Nat) (f : FlitStep)
  | acknowledge (port : Nat) (a : AckFlit)
  | keyControl (port : Nat) (k : KeyStep) | rollover (k : NewKey)
  | portDown (port : Nat) | scopeTableInstall (t : ScopeTable)
  | uncorrectableError (place : ErrorPlace) | coldStart | warmStart | warmReset (die : Nat)
  | reAdmission (r : Retraining) | timeBaseTick
  | thermalLimit (entered : Bool) | portUp (port : Nat) | spdmRequest (iod : Nat) (request : List Byte)
  deriving DecidableEq, Repr

end Sys2Proof
end

