-- ==== Sys2Proof/Machine/State.lean ====
section
/-! DEFINITION. The state of the T9: every piece of state that the manual names, as plain data, the state after a cold
start, and the two ways a step can stop. INVENTORY.md lists the fields with the rules that name them. -/

namespace Sys2Proof.Machine

/-- A sparse table: keys strictly rising; what an unlisted key reads as is said by the operation that reads it. -/
abbrev Tab (α : Type) := List (Nat × α)

/-! ### Who moves -/

/-- A party that issues instructions (R217): a fragment of a compute group or a control core. -/
inductive Party
  | frag (g f : Nat) | control (cc : Nat) | idle
  deriving DecidableEq, Repr

/-- One entry of the schedule: a party issues, the `k`-th hardware step that is due takes place, or something happens
from outside. -/
inductive Sched
  | party (p : Party) | due (k : Nat) | outside (e : Instr)
  deriving DecidableEq, Repr

/-! ### Memory system -/

/-- A place that holds copies of words or of translations: a compute core's L1, a control core's data cache, a copy
engine's side of an I/O die (R208, R18, R328). -/
inductive Site
  | core (n : Nat) | ctl (n : Nat) | iod (n : Nat)
  deriving DecidableEq, Repr

/-- Registration of one 32-bit word (R211); a word that is not listed is in V. `last` is the last released value that
the home keeps beside an unreleased one (R225); `va` is the address the owner registered it under (R208). -/
inductive Reg
  | owned (a : Agent) (last : Word) (va : DWord)
  | released (a : Agent) (va : DWord)
  | claimed (n : Agent) (prev : Option (Agent × DWord))
  | frozen (count : Nat)
  deriving DecidableEq, Repr

/-- An unregistered copy of a word in an L1 or a control core's data cache (R208, R221). `barred` holds the address ranges
of acquires at a control core since the fill, under which its copy, tagged by physical address, is dropped. -/
structure Copy where
  site : Site
  asid : BitVec 16
  va : DWord
  word : Nat
  val : Word
  barred : List (BitVec 16 × Nat × Nat)
  deriving DecidableEq, Repr

/-- A word that an L1 holds registered in a unit whose tag has gone to another key since: the key and the plaintext of its
line (R213, R214). -/
structure HeldLine where
  word : Nat
  key : Nat
  val : Word
  deriving DecidableEq, Repr

/-- The tag of a 64-byte unit (R214): the number of the key it was written under, and the words of it that L1 lines hold under
others. -/
structure UnitTag where
  key : Nat
  lines : List HeldLine
  deriving DecidableEq, Repr

/-- A TLB or walk-cache entry (R328): the page-table entry read for `index` = VA above the level's offset; `whole` says that a
level-0 entry stands for its 64 KiB page (R326). -/
structure XEntry where
  cluster : Nat
  asid : BitVec 16
  level : Nat
  index : Nat
  entry : DWord
  whole : Bool
  deriving DecidableEq, Repr

/-- What a monitor wakes (R314, R290, R296, R258): a queue stands for its waiting refill and its waiting records. -/
inductive Waiter
  | group (g : Nat) | fetch (g f : Nat) | queue (pa : Nat) | task (t : Nat) | command (iod n : Nat)
  deriving DecidableEq, Repr

/-- A monitor on a page-table line that a walk found invalid (R314). -/
structure Monitor where
  line : Nat
  waiter : Waiter
  woken : Bool
  deriving DecidableEq, Repr

/-- ASID-table entry (R329). -/
structure AsidEntry where
  presence : BitVec 6
  busy : Bool
  deriving DecidableEq, Repr

/-! ### Requests of memory instructions -/

/-- One access with its captured sources (R239, R313): thread, address, size, data to store or combine. -/
structure Acc where
  tid : Nat
  va : DWord
  n : Nat
  data : List Byte
  deriving DecidableEq, Repr

/-- What an instruction with checked addresses does when it is performed, now or at its replay (R313, R315). -/
inductive ReqKind
  | load (t : ElemTy) (c : Count) (vt : BitVec 8)
  | store
  | row (t : RowTy) (vt : BitVec 8)
  | atom (rel : Bool) (kind : AtomKind) (scope : Scope) (vt : BitVec 8)
  | sld (st : BitVec 6) (sz : SldSz)
  | sst
  | satom (rel : Bool) (kind : AtomKind) (scope : Scope) (sd : BitVec 6)
  | drain (st : MatTy) (dt : DrainTy) (clr : Bool) (bases : Tab Nat)
  | fill (size : Nat) (space : FillSpace) (offs : Tab (Nat × Option Nat))
  | count (dec rel : Bool) (scope : Scope) (sd : BitVec 6) (amount : DWord)
  | enq (scope : Scope) (sd : BitVec 6) (len : Nat)
  | deq (scope : Scope) (sd : BitVec 6) (len : Nat)
  | engine (op : Nat) (scope : WideScope) (sd : BitVec 6)
  | spawn (arg0 arg1 : DWord)
  | tdef (sd : BitVec 6) (tile : Nat)
  | keyset (sd : BitVec 6) (id : Nat)
  deriving DecidableEq, Repr

/-- An instruction ready to be performed: its effect and its accesses. -/
structure Req where
  kind : ReqKind
  accs : List Acc
  deriving DecidableEq, Repr

/-! ### Threads and groups -/

/-- The name of one register of a group: lane register or predicate of a thread, uniform register or predicate. -/
inductive RegKey
  | v (t n : Nat) | q (t n : Nat) | s (n : Nat) | k (n : Nat)
  deriving DecidableEq, Repr

/-- A value that a read with W = 0 may still return (R71, R73): the value before an outstanding write of `frag`. -/
structure Older where
  frag : Nat
  key : RegKey
  val : DWord
  deriving DecidableEq, Repr

/-- A value of %fmask (0), %tvec (1) or %prog (2) that fragment `frag` may still read although `writer` has replaced it, until
both have passed a block barrier or merged (R117). -/
structure SharedOld where
  which : Nat
  frag : Nat
  writer : Nat
  val : DWord
  fragPassed : Bool
  writerPassed : Bool
  deriving DecidableEq, Repr

/-- Why a fragment or control core does not issue. `retry` stands for every wait of an instruction that is issued
again when what it waits for may have come (R71, R240, R250, R256, R302, R308, R342); `barWait` is that of a BAR.wait, `bar` that of a BAR which has arrived; `home` is the one on dies that are offline, since a time (R236, R316), `drop` that of a TDROP whose status is decided (R342). -/
inductive Wait
  | run | retry
  | home (dies : List Nat) (since : Nat)
  | join (tok : Nat)
  | bar (b : Nat) (phase : Bool)
  | barWait (b : Nat) (phase : Bool)
  | gbar (phase : Bool)
  | mbar (off n start timeout : Nat)
  | mbarEnd (status seq : Nat)
  | batch (n c : BitVec 16) (acquire : Bool)
  | fetch (va : DWord) (since : Nat)
  | miss (tile : Nat)
  | missEnd
  | key (sd : BitVec 6)
  | drop (tile : Nat)
  | halted
  deriving DecidableEq, Repr

/-- A fragment (R38, R40). `slot = none` is a fragment on the fragment stack. `arr` holds the arrival phase at each
block barrier (0 to 15) and at the gang barrier (16) it has arrived at (R355, R358). -/
structure Frag where
  id : Nat
  slot : Option Nat
  mask : Mask
  pc : DWord
  toks : Tab Nat
  arr : Tab Bool
  wait : Wait
  since : Nat
  passed : Nat
  urgent : Bool
  spilled : Nat
  deriving DecidableEq, Repr

/-- The record of an open width region (R177); `mark` tells what was parked before it from what was parked inside. -/
structure Region where
  setwPc : DWord
  request : Nat
  restartable : Bool
  mask : Mask
  toks : Tab Nat
  mark : Nat
  deriving DecidableEq, Repr

/-- A trap-queue entry (R307); `rpc = none` is fixed at delivery (R308). -/
structure TrapEntry where
  cause : Nat
  frag : Nat
  slot : Nat
  ipc : DWord
  addr : DWord
  aux : DWord
  rpc : Option DWord
  deriving DecidableEq, Repr

/-- A detected race whose trap is not queued yet (R228), by which FILL, and whether a handler's instruction raised it. -/
structure LateTrap where
  entry : TrapEntry
  byHandler : Bool
  fill : Option Nat
  deriving DecidableEq, Repr

/-- The in-handler state (R308, R311): the handled fragment and its mask at delivery less the threads that exited. -/
structure Handler where
  frag : Nat
  mask : Mask
  deriving DecidableEq, Repr

/-- An operand-log entry (R313): the parked instruction of a fragment with its words and active mask, and the pages and
offline dies it waits on; `heirs` are fragments split off since, whose program order it precedes (R217); `begun` names
the descriptor of a queue operation that waits on its galley (R290). -/
structure LogEntry where
  id : Nat
  frag : Nat
  heirs : List Nat
  words : List Nat
  mask : Mask
  ipc : DWord
  req : Req
  pages : List DWord
  dies : List Nat
  since : Nat
  byHandler : Bool
  begun : Option Nat
  deriving DecidableEq, Repr

/-- What a batch holds (R250): a FILL or an engine command. -/
inductive BatchItem
  | fill (id : Nat) | cmd (iod n : Nat)
  deriving DecidableEq, Repr

/-- A closed batch with its number (R250). -/
structure Batch where
  num : BitVec 16
  items : List BatchItem
  deriving DecidableEq, Repr

/-- A recipe run (R344): the tile it produces, its slot depth, the chain it belongs to and its private CB window with its
size. -/
structure RunInfo where
  tile : Nat
  depth : Nat
  chain : Nat
  cbLen : Nat
  cb : Tab Byte
  deriving DecidableEq, Repr

/-- The life of a group. -/
inductive Life | live | stopped | ended | gone
  deriving DecidableEq, Repr

/-- A compute group (R26, R28, the cards of 06): `place` is its core id (R11), `rslot` its resident-group slot (R304),
`size` is T. `v` is keyed by thread × 256 + index, `q` by thread × 8 + index; every
register that is not listed holds 0 (R111). -/
structure Group where
  life : Life
  ctx : Ctx
  block : Nat
  gid : Nat
  place : Nat
  rslot : Nat
  size : Nat
  vcount : Nat
  born : Mask
  grant : Nat
  region : Option Region
  interlocked : Bool
  v : Tab Word
  q : Tab Bool
  s : Tab DWord
  k : Tab Bool
  fflags : Tab (BitVec 5)
  fmask : BitVec 5
  tvec : DWord
  prog : BitVec 8
  shared : List SharedOld
  older : List Older
  frags : List Frag
  nextFrag : Nat
  nextSplit : Nat
  trapQ : List TrapEntry
  late : List LateTrap
  handler : Option Handler
  log : List LogEntry
  batch : BitVec 16
  openB : List BatchItem
  closedB : List Batch
  run : Option RunInfo
  deriving DecidableEq, Repr

/-! ### Blocks, gangs, tasks -/

/-- The fields of an entry descriptor (R99), quotas in bytes, carve limits in KiB. -/
structure Entry where
  recipe : Bool
  lgt : Nat
  block : Nat
  gang : Nat
  vcount : Nat
  bars : Nat
  wb : Nat
  cb : Nat
  ab : Nat
  ls : Nat
  carveMin : Nat
  carveMax : Nat
  timer : Nat
  stepping : Nat
  deriving DecidableEq, Repr

/-- A block barrier, or the local stage of a gang barrier (R354, R358): phase, a mark and the arrival phase of each
group. -/
structure Barrier where
  phase : Bool
  marks : BitVec 16
  phases : BitVec 16
  deriving DecidableEq, Repr

/-- Tile states (R338). -/
inductive TileState | free | defined | opened | running | resident
  deriving DecidableEq, Repr

/-- A source of a recipe record (R340). -/
inductive TileSource
  | none | tile (t : Nat) | range (va : DWord) (len : Nat)
  deriving DecidableEq, Repr

/-- A tile record (R340, the recipe-table card): `words` are the frozen words of its ranges, `place` the number of its frame
in the activation buffer where it has one, `frame` the frame's bytes, 0 where nothing is listed; `lost` says that an eviction
took its last frame (R206). -/
structure Tile where
  state : TileState
  entry : DWord
  args : List DWord
  outsize : Nat
  depth : Nat
  sources : List TileSource
  words : List Nat
  hold : Nat
  place : Nat
  frame : Tab Byte
  lost : Bool
  deriving DecidableEq, Repr

/-- Life of a block: on a local deque, running, draining to its end, saved or switched out, ended, discarded. -/
inductive BlockLife | deque | running | saved | switchedOut | ended | gone
  deriving DecidableEq, Repr

/-- A block (R42) with its windows (R201), barriers and tiles; `grans` are the granules of WB, AB, CB and LS that its windows
lie in, in the order of the window (log 8). While it is saved this record is its image (R320), and `ready` says that it may be
restored. -/
structure Block where
  life : BlockLife
  ctx : Ctx
  task : Option Nat
  gang : Nat
  gangIdx : Nat
  member : Nat
  core : Nat
  entryVa : DWord
  entry : Entry
  groups : List Nat
  spawned : Bool
  grans : List (List Nat)
  wb : Tab Byte
  ab : Tab Byte
  cb : Tab Byte
  ls : Tab Byte
  bars : List Barrier
  gbar : Barrier
  tiles : List Tile
  clean : Bool
  ending : Bool
  drainFrom : Option Nat
  image : Nat
  missing : Nat
  missKeys : List Nat
  savedAt : Nat
  ready : Bool
  deriving DecidableEq, Repr

/-- A gang (R44) and its barrier (R358): the phase and the marks of its members; `saving` while it is on its way into its
images (R320), `some true` for a switch-out (R316). -/
structure Gang where
  ctx : Ctx
  task : Option Nat
  index : Nat
  blocks : List Nat
  phase : Bool
  marks : BitVec 16
  saving : Option Bool
  deriving DecidableEq, Repr

/-- How far the completion of a task is (R299). -/
inductive TaskLife | placing | running | wordPending | donePending | complete | gone
  deriving DecidableEq, Repr

/-- A task with placed gangs (R46, R297): the eight words of its record, the address of the queue descriptor it came
through, its place in the order of R47, whether its completion waits on a page. -/
structure Task where
  life : TaskLife
  ctx : Ctx
  die : Nat
  desc : DWord
  words : List DWord
  entry : Entry
  ended : Nat
  seq : Nat
  aged : Nat
  posted : Bool
  deriving DecidableEq, Repr

/-- A record in the hardware part of a queue slot (R287, R47): its own number, payload, its place in enqueue order, clk waited
eligible, agings taken, the partition under which it was found unfit, whether a SHAPE_UNFIT entry for a failed walk is posted,
the page posted of a walk that has not succeeded since, the task it became. -/
structure QRecord where
  id : Nat
  bytes : List Byte
  seq : Nat
  waited : Nat
  aged : Nat
  unfit : Option Nat
  access : Bool
  page : Option DWord
  task : Option Nat
  deriving DecidableEq, Repr

/-- Who posts an entry (R304, R305): the die on which, the origin kind and the origin. -/
structure Poster where
  die : Nat
  kind : Nat
  origin : DWord
  deriving DecidableEq, Repr

/-- A bound queue slot (R287, R289). Galley records before `mark` were enqueued before the binding, which came as number
`bindSeq` of the enqueue order; `later` are the numbers of those behind it. `waiting` says
that a refill waits, `page` names the page it has posted, `poster` the agent that began it, or the queue's own (R290). -/
structure Slot where
  die : Nat
  desc : DWord
  pa : Nat
  ctx : Ctx
  mode : Nat
  base : DWord
  lsz : Nat
  head : DWord
  tail : DWord
  count : DWord
  lost : DWord
  recs : List QRecord
  mark : DWord
  bindSeq : Nat
  later : List Nat
  idleSince : Nat
  waiting : Bool
  page : Option DWord
  poster : Poster
  deriving DecidableEq, Repr

/-- An unbound dispatch queue that has been named and holds records (R288). -/
structure Named where
  die : Nat
  desc : DWord
  pa : Nat
  ctx : Ctx
  deriving DecidableEq, Repr

/-- A spawn bin (R302). -/
structure Bin where
  ctx : Ctx
  entryVa : DWord
  entry : Entry
  threads : List (DWord × DWord)
  start : Nat
  closing : Bool
  deriving DecidableEq, Repr

/-- A record of the spawn save area (R320): its core, its bin, whether the bin was open, its size in bytes. -/
structure SpawnRec where
  core : Nat
  bin : Bin
  isOpen : Bool
  size : Nat
  deriving DecidableEq, Repr

/-- What belongs to a compute core that has ever held a block: spawn bins, spawn list, local deque, AB boundary in KiB, the
bytes that a context left last in each granule of its buffers (R202), exception counts by context (NV, OF, UF, SAT), the contexts
with the counts of which a fold found the word held (R366), the
boundary intervals that have ended, the tile-window accesses of this one that hit and that missed (R206), the hits with fewer
than four frames free, the misses of tiles that an eviction took their frame, the party that issued last there (R49). -/
structure Core where
  bins : List (Option Bin)
  spawnList : List Bin
  deque : List Nat
  carve : Nat
  left : Tab (Ctx × Tab Byte)
  counts : List (Ctx × List Nat)
  held : List (Ctx × List Bool)
  interval : Nat
  tileHits : Nat
  tileMisses : Nat
  tightHits : Nat
  lostMisses : Nat
  turn : Party
  deriving DecidableEq, Repr

/-- A FILL chunk in flight (R249), its source already translated: to an address and a key, with the key's id where its leaf
names one; `heirs` are fragments split off its own since (R217); `data` once the source is read; `wins` until a thread with a
higher %tid has put its bytes in the same place. -/
structure Chunk where
  id : Nat
  fill : Nat
  g : Nat
  f : Nat
  heirs : List Nat
  tid : Nat
  ipc : DWord
  va : DWord
  pa : Nat
  key : Nat
  keyId : Nat
  n : Nat
  space : FillSpace
  dst : Nat
  mbar : Option Nat
  byHandler : Bool
  wins : Bool
  data : Option (List Byte)
  deriving DecidableEq, Repr

/-- A peer add in flight (R280): the rows of one octet, of a whole instruction for an ordered add (R281), each with its
offset in the target's CB window. -/
structure PeerAdd where
  id : Nat
  src : Nat
  member : Nat
  dst : Nat
  desc : Option Nat
  st : MatTy
  rows : List (Nat × List Byte)
  counted : Bool
  deriving DecidableEq, Repr

/-- A chain of recipe misses (R343): its root instruction and its pending resolutions, innermost first, each a tile,
its depth and its stage: the sources already resolved, 5 once its frame is taken; `posted` are the pages of entry descriptors
for which it has a PAGE entry (R99). -/
structure Chain where
  id : Nat
  block : Nat
  g : Nat
  f : Nat
  addr : DWord
  limit : Nat
  stack : List (Nat × Nat × Nat)
  pins : List Nat
  posted : List DWord
  deriving DecidableEq, Repr

/-- Stages of an engine command (R258). -/
inductive CmdLife | issued | matching | built | finishing
  deriving DecidableEq, Repr

/-- A part of a range within one page: its address, physical address, key and length in bytes. -/
structure Piece where
  va : DWord
  pa : Nat
  key : Nat
  n : Nat
  deriving DecidableEq, Repr

/-- What an ECOLL command has read of its collective (R260). -/
structure Coll where
  handle : Nat
  step : Nat
  m : Nat
  r : Nat
  table : List Nat
  fresh : Bool
  residual : List Piece
  deriving DecidableEq, Repr

/-- An engine command (R256 to R260): `src` are its source ranges, `claims` its claimed words with the addresses they
were claimed under, `out` is the proof copy and `window` that of a window destination; `status` is final once it is
`finishing`; `raced` once its RACE is queued (R228); `posted` are the pages of its ENGINE_WAIT entries. -/
structure Command where
  iod : Nat
  n : Nat
  op : Nat
  party : Party
  agent : Agent
  ctx : Ctx
  blk : Option Nat
  descVa : DWord
  desc : List Byte
  scope : WideScope
  life : CmdLife
  src : List Piece
  claims : List (Nat × DWord)
  out : List (Piece × List Byte)
  window : List Byte
  coll : Option Coll
  status : Nat
  published : Bool
  raced : Bool
  posted : List DWord
  ipc : DWord
  byHandler : Bool
  deriving DecidableEq, Repr

/-! ### Queues of faults -/

/-- A fault-queue entry (R304) with the context it belongs to. -/
structure FaultEntry where
  ctx : Ctx
  kind : Nat
  access : Nat
  addr : DWord
  originKind : Nat
  origin : DWord
  time : DWord
  deriving DecidableEq, Repr

/-- The overflow buffer of a die (R305): entries waiting for room, entries held by their posters, dropped entries
counted for each context. -/
structure Overflow where
  entries : List FaultEntry
  held : List FaultEntry
  dropped : List (Ctx × Nat)
  deriving DecidableEq, Repr

/-! ### Control cores -/

/-- A control core (R18, R120 to R122, the cards of 06); `queue` is the descriptor of a queue operation of its that waits on its
galley, with the page it has posted (R290). -/
structure Ctl where
  s : Tab DWord
  k : Tab Bool
  pc : DWord
  depth : Nat
  ab : Bool
  ie : Bool
  pv : Bool
  karea : DWord
  ktbl : DWord
  kpend : BitVec 8
  kmask : BitVec 8
  kbind : DWord
  bound : Bool
  stopped : Bool
  wait : Wait
  batch : BitVec 16
  openB : List BatchItem
  closedB : List Batch
  deferred : List TrapEntry
  queue : Option (Nat × DWord)
  source7 : Nat
  deriving DecidableEq, Repr

/-! ### Host, fabric, life cycle -/

/-- A Lamral port (R373, R376): up, its two keys, the key slot in use, whether the other one is being retired, the sequences of
the next flit sent and received, the sequence with which the key in use began, the replay buffer, the flits put on the link, how
often a flit was asked for again. -/
structure Port where
  up : Bool
  keys : List (BitVec 256)
  slot : Bool
  retiring : Bool
  sent : Nat
  received : Nat
  begun : Nat
  replay : List Flit
  out : List Flit
  again : Nat
  deriving DecidableEq, Repr

/-- A fabric window (R374, R375). -/
structure Window where
  pkg : BitVec 20
  set : Bool
  reachable : Bool
  deriving DecidableEq, Repr

/-- The BAR of an I/O die's function (R371), what its hardware remembers of the command page (R372), and what it has given
the host: MSI-X messages sent, SPDM answers, the data of the last read and its poison mark. -/
structure Bar where
  mailbox : DWord
  msix : List Byte
  lastSeq : Nat
  sent : List Nat
  spdm : List (List Byte)
  reply : List Byte
  poisoned : Bool
  deriving DecidableEq, Repr

/-- The state of a context's request word as the device has taken it (R317, R319). -/
structure Request where
  ctx : Ctx
  code : Nat
  seq : Nat
  answered : Bool
  result : Nat
  rcslot : Option Nat
  deriving DecidableEq, Repr

/-! ### The machine -/

/-- The state of one package. `cur`, `agenda` and `free` are the model's own: whose turn it is, what the schedule
brings next, and the counter the unspecified choices are drawn with. -/
structure State where
  cur : Party
  agenda : List Sched
  free : Nat
  time : DWord
  -- memory system
  mem : Tab Byte
  reg : Tab Reg
  tags : Tab UnitTag
  poison : List Nat
  sramPoison : List Nat
  hostLines : List Nat
  copies : List Copy
  xlat : List XEntry
  monitors : List Monitor
  asids : Tab AsidEntry
  keys : Tab Nat
  erased : List Nat
  nextKey : Nat
  -- compute
  groups : List Group
  blocks : List Block
  gangs : List Gang
  tasks : List Task
  cores : Tab Core
  chunks : List Chunk
  adds : List PeerAdd
  chains : List Chain
  nextId : Nat
  -- queues
  slots : List Slot
  named : List Named
  overflow : List Overflow
  requests : List Request
  spawnSaved : List SpawnRec
  -- engines
  commands : List Command
  nextCmd : List Nat
  -- control cores
  ctls : List Ctl
  -- configuration
  cfgCore : List (BitVec 96)
  cfgOct : List (BitVec 16)
  cfgCtl : List (BitVec 24)
  cfgHbm : List (BitVec 32)
  cfgLink : List (BitVec 8)
  -- host, fabric, life cycle
  hostState : BitVec 8
  bars : List Bar
  ports : List Port
  windows : Tab Window
  scopes : List (BitVec 20 × BitVec 20)
  scopeGen : Nat
  pkgId : BitVec 20
  offline : List Nat
  thermal : Bool
  measures : List (List Byte)
  hostCtx : Ctx
  firmware : Boot
  deriving DecidableEq, Repr

/-- Where the machine stops with a fault of the model. -/
inductive Fault
  /-- Raised by a meaning whose acting party (`cur`) names no live fragment and no control core: no state that the
  machine reaches has an instruction issued by nobody. Safe: nothing is claimed of such a state. -/
  | noParty
  deriving DecidableEq, Repr

/-- Where the model has no meaning. -/
inductive Refusal
  /-- An instruction of the opcode table that has no meaning yet, by its mnemonic. Safe. -/
  | notModelled (mnemonic : String)
  deriving DecidableEq, Repr

/-! ### Reset -/

/-- A control core after reset (R120, R121, the card of KSTATE): privileged, interrupts off, KMASK = 0x7E. The
registers that the manual calls unpredictable, the pc and s, k hold 0 (logs 3, 4). -/
def Ctl.reset : Ctl :=
  { s := [], k := [], pc := 0, depth := 0, ab := false, ie := false, pv := true, karea := 0, ktbl := 0, kpend := 0,
    kmask := 0x7E, kbind := 0, bound := false, stopped := false, wait := .run, batch := 0, openB := [], closedB := [],
    deferred := [], queue := none, source7 := 0 }

/-- A port after start-up (log 23). -/
def Port.reset : Port :=
  { up := true, keys := List.replicate 2 0, slot := false, retiring := false, sent := 0, received := 0, begun := 0, replay := [], out := [],
    again := 0 }

/-- The BAR registers after start-up (log 22). -/
def Bar.reset : Bar :=
  { mailbox := 0, msix := List.replicate 256 0, lastSeq := 0, sent := [], spdm := [], reply := [], poisoned := false }

/-- An empty overflow buffer (R305). -/
def Overflow.empty : Overflow := { entries := [], held := [], dropped := [] }

/-- The package after a cold start (R379): every card at its reset value; the values the manual does not give are those
of logs 1, 3, 4, 5, 20 to 24. The first instruction is fetched by control core 0 of CD0 (log 4). -/
def State.reset : State :=
  { cur := .control 0, agenda := [], free := 0, time := 0,
    mem := [], reg := [], tags := [], poison := [], sramPoison := [], hostLines := [], copies := [], xlat := [], monitors := [],
    asids := [], keys := [], erased := [], nextKey := 1024,
    groups := [], blocks := [], gangs := [], tasks := [], cores := [], chunks := [], adds := [], chains := [],
    nextId := 0, slots := [], named := [], overflow := List.replicate 6 Overflow.empty, requests := [], spawnSaved := [],
    commands := [], nextCmd := [0, 0], ctls := List.replicate 96 Ctl.reset,
    cfgCore := List.replicate 4 (BitVec.allOnes 96), cfgOct := List.replicate 384 (BitVec.allOnes 16),
    cfgCtl := List.replicate 4 (BitVec.allOnes 24), cfgHbm := List.replicate 12 (BitVec.allOnes 32),
    cfgLink := List.replicate 8 (BitVec.allOnes 8),
    hostState := 2, bars := List.replicate 2 Bar.reset, ports := List.replicate 32 Port.reset, windows := [],
    scopes := [], scopeGen := 0, pkgId := 0, offline := [], thermal := false,
    measures := [List.replicate 32 0], hostCtx := ⟨0, 0, 0⟩,
    firmware := { image := [], publicKey := [], signature := [], host := ⟨0, 0, 0⟩ } }

end Sys2Proof.Machine
end

