-- ==== Sys2Proof/Machine/Tab.lean ====
section
/-! DEFINITION. Sparse tables: look-up, insertion in key order, removal, and the canonical form of a table whose
unlisted keys read as a default. Memory is such a table. -/

namespace Sys2Proof.Machine

/-- What key `k` holds, if it is listed. -/
def tabFind {α : Type} : Tab α → Nat → Option α
  | [], _ => none
  | (j, v) :: t, k => if k = j then some v else tabFind t k

/-- What key `k` reads as, `d` where it is not listed. -/
def tabGet {α : Type} (d : α) (t : Tab α) (k : Nat) : α := (tabFind t k).getD d

/-- Put `v` at key `k`, keeping the keys rising. -/
def tabSet {α : Type} : Tab α → Nat → α → Tab α
  | [], k, v => [(k, v)]
  | (j, u) :: t, k, v => if k < j then (k, v) :: (j, u) :: t else if k = j then (k, v) :: t else (j, u) :: tabSet t k v

/-- Unlist key `k`. -/
def tabDel {α : Type} (t : Tab α) (k : Nat) : Tab α := t.filter (fun p => p.1 != k)

/-- Put `v` at key `k` of a table whose unlisted keys read as `d`. -/
def tabPut {α : Type} [DecidableEq α] (d : α) (t : Tab α) (k : Nat) (v : α) : Tab α :=
  if v = d then tabDel t k else tabSet t k v

/-- The canonical form: keys strictly rising from `lo` on, and no entry equal to what an unlisted key reads as. -/
def tabWfFrom {α : Type} [DecidableEq α] (d : α) : Nat → Tab α → Bool
  | _, [] => true
  | lo, (k, v) :: t => decide (lo ≤ k) && decide (v ≠ d) && tabWfFrom d (k + 1) t

/-- The canonical form of a whole table. -/
def tabWf {α : Type} [DecidableEq α] (d : α) (t : Tab α) : Bool := tabWfFrom d 0 t

/-! ### Bytes of a table of bytes -/

/-- `n` bytes from `a` on, each as `f` reads it. -/
def bytesOf (f : Nat → Byte) : Nat → Nat → List Byte
  | _, 0 => []
  | a, n + 1 => f a :: bytesOf f (a + 1) n

/-- Put bytes one after another through `put`. -/
def putBytes {σ : Type} (put : σ → Nat → Byte → σ) : σ → Nat → List Byte → σ
  | s, _, [] => s
  | s, a, b :: bs => putBytes put (put s a b) (a + 1) bs

/-- The element of a list at an index, changed. -/
def modAt {α : Type} (l : List α) (n : Nat) (f : α → α) : List α := l.modify n f

end Sys2Proof.Machine
end

