-- ==== Sys2Proof/WellFormed.lean ====
section
/-! DEFINITION. Which instructions of the syntax a word can stand for: the combinations of types, counts and modes
that the instruction chapters accept (R67). The register rules of R63 depend on the group's declared count and stand
in Decode (`Instr.regsOk`). Events have no encoding and are never well formed. -/

namespace Sys2Proof

/-- The width of an integer type in bits (R126). -/
def IntTy.width : IntTy → Nat
  | .i8 | .n8 => 8
  | .i16 | .n16 => 16
  | .i32 | .n32 => 32
  | .i64 | .n64 => 64

/-- The width of a floating type in bits (R128). -/
def FTy.width : FTy → Nat
  | .f16 | .bf16 => 16
  | .f32 => 32
  | .f64 => 64

/-- The width of an element type in bits. -/
def ElemTy.width : ElemTy → Nat
  | .int t => t.width
  | .flt t => t.width

/-- The i types are signed (R126). -/
def IntTy.signed : IntTy → Bool
  | .i8 | .i16 | .i32 | .i64 => true
  | .n8 | .n16 | .n32 | .n64 => false

/-- Number of elements (R237). -/
def Count.num : Count → Nat
  | .x1 => 1
  | .x2 => 2
  | .x4 => 4

/-- R237: more than one element only from 32 bits up, and at most 16 bytes. -/
def elemCountOk (t : ElemTy) (c : Count) : Bool :=
  (c == .x1 || 32 ≤ t.width) && t.width / 8 * c.num ≤ 16

/-- The pair of types of a conversion of one value differ; `.ftz` stands for a floating type (R171, R172). -/
def CvtPair.ok : CvtPair → Bool
  | .intInt s d _ _ => s != d
  | .intFlt .. => true
  | .fltFlt s d _ _ => s != d
  | .fltInt .. => true

/-- `.sat` only for the integer types of PACK (R175). -/
def PackTy.satOk : PackTy → Bool
  | .i16 | .n16 | .i8 | .n8 => true
  | .f16 | .bf16 | .bq8 | .bq4 => false

/-- The accumulator types of R261. -/
inductive AccTy | f64 | f32 | i32
  deriving DecidableEq, Repr

/-- R261. -/
def MatTy.acc : MatTy → AccTy
  | .f64 => .f64
  | .f32 | .bf16 | .f16 | .bq8 | .bq4 => .f32
  | .i8 => .i32

/-- Columns of a tile (R261). -/
def MatTy.n : MatTy → Nat
  | .f64 | .f32 => 8
  | .bf16 | .f16 | .i8 | .bq8 | .bq4 => 16

/-- Destination types that a drain to registers accepts (R277). -/
def drainRegOk (dt : DrainTy) (st : MatTy) (lc : Nat) : Bool :=
  match st.acc, dt with
  | .f64, .f64 | .f64, .f32of64 _ => true
  | .f32, .f32 | .f32, .bf16 _ | .f32, .f16 _ => true
  | .f32, .bq8 _ => 2 ^ lc * st.n == 32
  | .f32, .bq4 _ => 2 ^ lc * st.n == 64
  | .i32, .i32 | .i32, .f32ofi32 _ => true
  | _, _ => false

/-- Destination types that a drain to memory accepts (R277). -/
def drainMemOk (dt : DrainTy) (st : MatTy) : Bool :=
  match st.acc, dt with
  | .f64, .f64 | .f64, .f32of64 _ => true
  | .f32, .f32 | .f32, .bf16 _ | .f32, .f16 _ => true
  | .i32, .i32 | .i32, .f32ofi32 _ => true
  | _, _ => false

/-- Some word encodes this instruction. -/
def Instr.wf : Instr → Bool
  | .qset o => match o.fn with
    | .bit t _ n => n.toNat < t.width
    | _ => true
  | .cvt o => match o.kind with
    | .one p => p.ok
    | _ => true
  | .fopCvt o => o.p.ok
  | .iabs o => o.t.signed
  | .pack o => !o.sat || o.t.satOk
  | .ld o | .st o | .lda o | .sta o | .ldaTile o | .staTile o => elemCountOk o.t o.c
  | .ldl o | .stl o => elemCountOk o.t o.c
  | .mdrn o => drainRegOk o.dt o.st o.lc.toNat
  | .mdrnMem o => drainMemOk o.dt o.st
  | .setwImmediate o | .setwRImmediate o => 1 ≤ o.n.toNat && o.n.toNat ≤ 128
  | .kbindWrite .. | .ilckWrite .. | .kpendWrite .. | .registerWrite .. | .interrupt .. | .trapDelivery ..
  | .homeAccess .. | .eviction .. | .monitorWake .. | .walkRetry .. | .switchOut .. | .dispatch .. | .priorityAging ..
  | .blockStart .. | .steal .. | .urgent .. | .timerExpiry .. | .binClose .. | .spawnedGroupStart .. | .taskCompletion ..
  | .foldRetry .. | .unbind .. | .overflowAppend .. | .chunkLanding .. | .mbarTimeout .. | .peerAddLanding ..
  | .gangBarrierPass .. | .copyCommand .. | .upload .. | .epubCommand .. | .ecollCommand .. | .collectiveMatch ..
  | .publish .. | .recipeRun .. | .abIntervalEnd .. | .runRequest .. | .preemptRequest .. | .saveRequest ..
  | .abortRequest .. | .resumeRequest .. | .unassignedRequest .. | .drainlimExpiry .. | .save .. | .restore ..
  | .statusWrite .. | .doorbell .. | .cxlMemRead .. | .cxlMemWrite .. | .registrationFlit .. | .dataFlit ..
  | .acknowledge .. | .keyControl .. | .rollover .. | .portDown .. | .scopeTableInstall .. | .uncorrectableError ..
  | .coldStart .. | .warmStart .. | .warmReset .. | .reAdmission .. | .timeBaseTick | .thermalLimit .. | .portUp ..
  | .spdmRequest .. => false
  | _ => true

end Sys2Proof
end

