-- ==== Sys2Proof/Machine/Flags.lean ====
section
/-! DEFINITION. Floating arithmetic with its flags (07, 08): exact values as dyadic numbers, one rounding (R132), the
conditions of R133, conversions (R134), block formats (R138 to R141), matrix sums (R144, R145). -/

namespace Sys2Proof.Machine

/-! ### Flags (R113) -/

abbrev Fl := BitVec 5
def flNV : Fl := 16
def flDZ : Fl := 8
def flOF : Fl := 4
def flUF : Fl := 2
def flNX : Fl := 1

/-- A flag if a condition holds. -/
def flIf (b : Bool) (f : Fl) : Fl := if b then f else 0

/-! ### Formats (R128) -/

/-- Bits of the fraction. -/
def fracBits : FTy → Nat
  | .f16 => 10 | .bf16 => 7 | .f32 => 23 | .f64 => 52
/-- Bits of the exponent. -/
def expBits : FTy → Nat
  | .f16 => 5 | .bf16 => 8 | .f32 => 8 | .f64 => 11
/-- The bias. -/
def fBias (t : FTy) : Nat := 2 ^ (expBits t - 1) - 1
/-- The all-ones exponent field. -/
def expMax (t : FTy) : Nat := 2 ^ expBits t - 1
/-- The sign bit, as a number. -/
def signWeight (t : FTy) : Nat := 2 ^ (fracBits t + expBits t)
/-- The canonical NaN. -/
def fNaN (t : FTy) : Nat := expMax t * 2 ^ fracBits t + 2 ^ (fracBits t - 1)
/-- An infinity. -/
def fInf (t : FTy) (neg : Bool) : Nat := (if neg then signWeight t else 0) + expMax t * 2 ^ fracBits t
/-- The largest finite number. -/
def fHuge (t : FTy) (neg : Bool) : Nat := (if neg then signWeight t else 0) + expMax t * 2 ^ fracBits t - 1
/-- A zero. -/
def fZero (t : FTy) (neg : Bool) : Nat := if neg then signWeight t else 0

/-- The value of an encoding: NaN (signalling or quiet), infinity, or ± m × 2^e. -/
inductive FVal
  | nan (sig : Bool)
  | inf (neg : Bool)
  | fin (neg : Bool) (m : Nat) (e : Int)
  deriving DecidableEq, Repr

/-- R128. -/
def fDecode (t : FTy) (x : Nat) : FVal :=
  let fb := fracBits t
  let f := x % 2 ^ fb
  let ex := x / 2 ^ fb % 2 ^ expBits t
  let neg := x / signWeight t % 2 == 1
  if ex = expMax t then (if f = 0 then .inf neg else .nan (f < 2 ^ (fb - 1)))
  else if ex = 0 then .fin neg f (1 - (fBias t : Int) - fb)
  else .fin neg (2 ^ fb + f) ((ex : Int) - fBias t - fb)

/-- A subnormal encoding. -/
def fSubnormal (t : FTy) (x : Nat) : Bool :=
  x / 2 ^ fracBits t % 2 ^ expBits t == 0 && x % 2 ^ fracBits t != 0

/-- `.ftz` of an input (R131). -/
def fFlush (ftz : Bool) (t : FTy) (x : Nat) : Nat :=
  if ftz && fSubnormal t x then fZero t (x / signWeight t % 2 == 1) else x

def FVal.isNan : FVal → Bool
  | .nan _ => true
  | _ => false
def FVal.isSig : FVal → Bool
  | .nan b => b
  | _ => false

/-! ### Rounding (R132, R133) -/

/-- m / 2^k rounded to an integer; `neg` is the sign of the number. -/
def roundShift (md : Rnd) (neg : Bool) (m k : Nat) : Nat :=
  let q := m / 2 ^ k
  let r := m % 2 ^ k
  if r = 0 then q else
  match md with
  | .rz => q
  | .rd => if neg then q + 1 else q
  | .ru => if neg then q else q + 1
  | .rn => if 2 * r < 2 ^ k then q else if 2 ^ k < 2 * r then q + 1 else q + q % 2
  | .rna => if 2 * r < 2 ^ k then q else q + 1

/-- m × 2^e rounded to a multiple of 2^g, in units of 2^g. -/
def roundGrid (md : Rnd) (neg : Bool) (m : Nat) (e g : Int) : Nat :=
  if g ≤ e then m * 2 ^ (e - g).toNat else roundShift md neg m (g - e).toNat

/-- The overflow result (R132). -/
def overflowTo (md : Rnd) (t : FTy) (neg : Bool) : Nat :=
  match md with
  | .rn | .rna => fInf t neg
  | .rz => fHuge t neg
  | .rd => if neg then fInf t neg else fHuge t neg
  | .ru => if neg then fHuge t neg else fInf t neg

/-- ± m × 2^e, m > 0, rounded to the format, with OF, UF and NX (R132, R133); `.ftz` flushes a subnormal result (R131). -/
def roundTo (t : FTy) (md : Rnd) (ftz neg : Bool) (m : Nat) (e : Int) : Nat × Fl :=
  let fb := fracBits t
  let sg := if neg then signWeight t else 0
  let ex : Int := Nat.log2 m + e
  let emin : Int := 1 - (fBias t : Int)
  let g : Int := max (ex - fb) (emin - fb)
  let q := roundGrid md neg m e g
  let exact : Bool := g ≤ e || q * 2 ^ (g - e).toNat == m
  let bits := (g - (emin - fb)).toNat * 2 ^ fb + q
  let qu := roundGrid md neg m e (ex - fb)
  let tiny : Bool := ex < emin && !(ex + 1 == emin && qu == 2 ^ (fb + 1))
  if expMax t * 2 ^ fb ≤ bits then (overflowTo md t neg, flOF ||| flNX)
  else if ftz && 0 < bits && bits < 2 ^ fb then (sg, flUF ||| flNX)
  else (sg + bits, flIf (tiny && !exact) flUF ||| flIf (!exact) flNX)

/-- A value delivered in a format: NaN canonical (R130), zeros and infinities with their sign. -/
def deliver (t : FTy) (md : Rnd) (ftz : Bool) (v : FVal) (fl : Fl) : Nat × Fl :=
  match v with
  | .nan _ => (fNaN t, fl)
  | .inf n => (fInf t n, fl)
  | .fin n m e => if m = 0 then (fZero t n, fl) else
    let r := roundTo t md ftz n m e
    (r.1, r.2 ||| fl)

/-! ### Exact operations -/

/-- The signed number of a finite value in units of 2^g, g at most its exponent. -/
def toUnits (neg : Bool) (m : Nat) (e g : Int) : Int :=
  let x : Int := m * 2 ^ (e - g).toNat
  if neg then -x else x

/-- The sum of two values (R132, R133): the sign of an exact zero follows the rounding mode. -/
def addV (md : Rnd) (a b : FVal) : FVal × Fl :=
  match a, b with
  | .nan x, .nan y => (.nan false, flIf (x || y) flNV)
  | .nan x, _ => (.nan false, flIf x flNV)
  | _, .nan y => (.nan false, flIf y flNV)
  | .inf x, .inf y => if x = y then (.inf x, 0) else (.nan false, flNV)
  | .inf x, .fin .. => (.inf x, 0)
  | .fin .., .inf y => (.inf y, 0)
  | .fin n m e, .fin n' m' e' =>
    let g := min e e'
    let x := toUnits n m e g + toUnits n' m' e' g
    if x = 0 then (.fin (if n = n' && m = 0 then n else md == .rd) 0 0, 0)
    else (.fin (x < 0) x.natAbs g, 0)

/-- The negated value. -/
def negV : FVal → FVal
  | .nan x => .nan x
  | .inf n => .inf (!n)
  | .fin n m e => .fin (!n) m e

/-- The product of two values. -/
def mulV (a b : FVal) : FVal × Fl :=
  match a, b with
  | .nan x, .nan y => (.nan false, flIf (x || y) flNV)
  | .nan x, _ => (.nan false, flIf x flNV)
  | _, .nan y => (.nan false, flIf y flNV)
  | .inf x, .inf y => (.inf (xor x y), 0)
  | .inf x, .fin y m _ => if m = 0 then (.nan false, flNV) else (.inf (xor x y), 0)
  | .fin x m _, .inf y => if m = 0 then (.nan false, flNV) else (.inf (xor x y), 0)
  | .fin x m e, .fin y m' e' => (.fin (xor x y) (m * m') (e + e'), 0)

/-- a × b + c with the product exact (R169): 0 × ∞ sets NV whatever c is. -/
def fmaV (md : Rnd) (a b c : FVal) : FVal × Fl :=
  let p := mulV a b
  match p.1 with
  | .nan _ => (.nan false, p.2 ||| flIf c.isSig flNV)
  | v => let r := addV md v c; (r.1, r.2 ||| p.2)

/-- Integer square root of `m`, by bits `n - 1` to 0. -/
def isqrtBits (m : Nat) : Nat → Nat → Nat
  | 0, r => r
  | n + 1, r => if (r + 2 ^ n) * (r + 2 ^ n) ≤ m then isqrtBits m n (r + 2 ^ n) else isqrtBits m n r

/-- The integer square root. -/
def isqrt (m : Nat) : Nat := isqrtBits m (Nat.log2 m / 2 + 1) 0

/-- q × 2^e, or a number strictly between q × 2^e and (q + 1) × 2^e where `inexact`: q has more bits than any format,
so that every mode rounds it as the exact value. -/
def sticky (neg : Bool) (q : Nat) (e : Int) (inexact : Bool) : FVal :=
  if inexact then .fin neg (2 * q + 1) (e - 1) else .fin neg q e

/-- 1 / a (R169). -/
def rcpV : FVal → FVal × Fl
  | .nan x => (.nan false, flIf x flNV)
  | .inf n => (.fin n 0 0, 0)
  | .fin n m e =>
    if m = 0 then (.inf n, flDZ) else
    let k := Nat.log2 m + 64
    (sticky n (2 ^ k / m) (-(k : Int) - e) (2 ^ k % m != 0), 0)

/-- sqrt(a) (R169). -/
def sqrtV : FVal → FVal × Fl
  | .nan x => (.nan false, flIf x flNV)
  | .inf n => if n then (.nan false, flNV) else (.inf false, 0)
  | .fin n m e =>
    if m = 0 then (.fin n 0 0, 0)
    else if n then (.nan false, flNV)
    else
      let m1 := if e % 2 = 0 then m else 2 * m
      let e1 := if e % 2 = 0 then e else e - 1
      let m2 := m1 * 2 ^ 128
      let r := isqrt m2
      (sticky false r (e1 / 2 - 64) (r * r != m2), 0)

/-- 1 / sqrt(a) (R169). -/
def rsqV : FVal → FVal × Fl
  | .nan x => (.nan false, flIf x flNV)
  | .inf n => if n then (.nan false, flNV) else (.fin false 0 0, 0)
  | .fin n m e =>
    if m = 0 then (.inf n, flDZ)
    else if n then (.nan false, flNV)
    else
      let m1 := if e % 2 = 0 then m else 2 * m
      let e1 := if e % 2 = 0 then e else e - 1
      let k := Nat.log2 m1 / 2 + 66
      let r := isqrt (2 ^ (2 * k) / m1)
      (sticky false r (-(k : Int) - e1 / 2) (r * r * m1 != 2 ^ (2 * k)), 0)

/-! ### 2^a and log2(a) in fixed point with `fxQ` fraction bits (log 26) -/

/-- Fraction bits of the fixed-point series. -/
def fxQ : Nat := 400

/-- The series of ln 2 = Σ 1 / (k × 2^k), from term k on. -/
def ln2Sum : Nat → Nat → Nat
  | 0, _ => 0
  | n + 1, k => 2 ^ fxQ / (k * 2 ^ k) + ln2Sum n (k + 1)

/-- ln 2 in fixed point. -/
def fxLn2 : Nat := ln2Sum 400 1

/-- The exponential series from a term on: Σ x^k / k!. -/
def expSum (x : Nat) : Nat → Nat → Nat → Nat
  | 0, _, _ => 0
  | n + 1, k, term => term + expSum x n (k + 1) (term * x / 2 ^ fxQ / (k + 1))

/-- 2^f for a fixed-point fraction f. -/
def fxExp2 (f : Nat) : Nat := expSum (f * fxLn2 / 2 ^ fxQ) 110 0 (2 ^ fxQ)

/-- The series of atanh z from a power on: Σ z^(2k+1) / (2k+1). -/
def atanhSum (z2 : Nat) : Nat → Nat → Nat → Nat
  | 0, _, _ => 0
  | n + 1, k, pw => pw / (2 * k + 1) + atanhSum z2 n (k + 1) (pw * z2 / 2 ^ fxQ)

/-- log2 of x = m / 2^l, 1 ≤ x < 2, in fixed point. -/
def fxLog2 (m l : Nat) : Nat :=
  let z := (m - 2 ^ l) * 2 ^ fxQ / (m + 2 ^ l)
  2 * atanhSum (z * z / 2 ^ fxQ) 130 0 z * 2 ^ fxQ / fxLn2

/-- 2^a (R169): an integer a gives an exact power; every other value is irrational and never a tie. -/
def exp2V : FVal → FVal × Fl
  | .nan x => (.nan false, flIf x flNV)
  | .inf n => if n then (.fin false 0 0, 0) else (.inf false, 0)
  | .fin n m e =>
    if m = 0 then (.fin false 1 0, 0) else
    let ex : Int := Nat.log2 m + e
    if 15 < ex then (.fin false 1 (if n then -40000 else 40000), 0)
    else if ex < -200 then
      (if n then sticky false (2 ^ 257 - 1) (-257) true else sticky false (2 ^ 256) (-256) true, 0)
    else if 0 ≤ e then
      let k : Int := m * 2 ^ e.toNat
      (.fin false 1 (if n then -k else k), 0)
    else
      let d := (-e).toNat
      let whole := m / 2 ^ d
      let part := m % 2 ^ d
      if part = 0 then (.fin false 1 (if n then -(whole : Int) else whole), 0)
      else
        let part' := if n then 2 ^ d - part else part
        let ip : Int := if n then -(whole : Int) - 1 else whole
        let f := part' * 2 ^ fxQ / 2 ^ d
        (sticky false (fxExp2 f / 2 ^ 140) (ip - fxQ + 140) true, 0)

/-- log2(a) (R169): a power of two gives an exact integer; every other value is irrational. -/
def log2V : FVal → FVal × Fl
  | .nan x => (.nan false, flIf x flNV)
  | .inf n => if n then (.nan false, flNV) else (.inf false, 0)
  | .fin n m e =>
    if m = 0 then (.inf true, flDZ)
    else if n then (.nan false, flNV)
    else
      let l := Nat.log2 m
      let ex : Int := l + e
      if m = 2 ^ l then (.fin (ex < 0) ex.natAbs 0, 0)
      else
        let r : Int := ex * 2 ^ fxQ + fxLog2 m l
        (sticky (r < 0) (r.natAbs / 2 ^ 40) (40 - fxQ) true, 0)

/-! ### Instructions' results on encodings: bits and flags (R169, R170, R164, R165) -/

/-- FADD. -/
def fAdd (t : FTy) (md : Rnd) (ftz : Bool) (a b : Nat) : Nat × Fl :=
  let r := addV md (fDecode t (fFlush ftz t a)) (fDecode t (fFlush ftz t b))
  deliver t md ftz r.1 r.2
/-- FSUB. -/
def fSub (t : FTy) (md : Rnd) (ftz : Bool) (a b : Nat) : Nat × Fl :=
  let r := addV md (fDecode t (fFlush ftz t a)) (negV (fDecode t (fFlush ftz t b)))
  deliver t md ftz r.1 r.2
/-- FMUL. -/
def fMul (t : FTy) (md : Rnd) (ftz : Bool) (a b : Nat) : Nat × Fl :=
  let r := mulV (fDecode t (fFlush ftz t a)) (fDecode t (fFlush ftz t b))
  deliver t md ftz r.1 r.2
/-- FFMA. -/
def fFma (t : FTy) (md : Rnd) (ftz : Bool) (a b c : Nat) : Nat × Fl :=
  let r := fmaV md (fDecode t (fFlush ftz t a)) (fDecode t (fFlush ftz t b)) (fDecode t (fFlush ftz t c))
  deliver t md ftz r.1 r.2

/-- The unary functions of R169. -/
inductive FUn | rcp | sqrt | rsq | exp2 | log2
  deriving DecidableEq, Repr

/-- FRCP, FSQRT, FRSQ, FEXP2, FLOG2. -/
def fUnary (f : FUn) (t : FTy) (md : Rnd) (ftz : Bool) (a : Nat) : Nat × Fl :=
  let v := fDecode t (fFlush ftz t a)
  let r := match f with
    | .rcp => rcpV v | .sqrt => sqrtV v | .rsq => rsqV v | .exp2 => exp2V v | .log2 => log2V v
  deliver t md ftz r.1 r.2

/-- a < b of two values that are not NaN; −0 and +0 are equal. -/
def ltV (a b : FVal) : Bool :=
  match a, b with
  | .inf x, .inf y => x && !y
  | .inf x, .fin .. => x
  | .fin .., .inf y => !y
  | .fin n m e, .fin n' m' e' => let g := min e e'; toUnits n m e g < toUnits n' m' e' g
  | _, _ => false

/-- The order of R170 with −0 below +0. -/
def minKeyLt (t : FTy) (a b : Nat) : Bool :=
  let va := fDecode t a
  let vb := fDecode t b
  ltV va vb || (!ltV vb va && a / signWeight t % 2 == 1 && b / signWeight t % 2 == 0)

/-- FMIN, FMAX (R170). -/
def fSelect (mx : Bool) (t : FTy) (ftz : Bool) (a b : Nat) : Nat × Fl :=
  let a := fFlush ftz t (a % 2 ^ t.width)
  let b := fFlush ftz t (b % 2 ^ t.width)
  let va := fDecode t a
  let vb := fDecode t b
  let fl := flIf (va.isSig || vb.isSig) flNV
  if va.isNan && vb.isNan then (fNaN t, fl)
  else if va.isNan then (b, fl)
  else if vb.isNan then (a, fl)
  else if mx then (if minKeyLt t a b then b else a, fl) else (if minKeyLt t b a then b else a, fl)

/-- FCMP (R164). -/
def fCompare (c : FCond) (t : FTy) (ftz : Bool) (a b : Nat) : Bool × Fl :=
  let va := fDecode t (fFlush ftz t a)
  let vb := fDecode t (fFlush ftz t b)
  let un := va.isNan || vb.isNan
  let lt := !un && ltV va vb
  let gt := !un && ltV vb va
  let eq := !un && !lt && !gt
  let r := match c with
    | .eq => eq | .ne => !eq | .lt => lt | .le => lt || eq | .gt => gt | .ge => gt || eq
    | .un => un | .ord => !un | .ltu => un || lt | .leu => un || lt || eq | .gtu => un || gt | .geu => un || gt || eq
  (r, flIf (va.isSig || vb.isSig) flNV)

/-- The class bit of R165. -/
def fClassBit (t : FTy) (x : Nat) : Nat :=
  let neg := x / signWeight t % 2 == 1
  match fDecode t x with
  | .nan sig => if sig then 8 else 9
  | .inf _ => if neg then 0 else 7
  | .fin _ m _ => if m = 0 then (if neg then 3 else 4) else if fSubnormal t x then (if neg then 2 else 5) else if neg then 1 else 6

/-! ### Conversions (R134, R173) -/

/-- The signed or unsigned number of a pattern (R126). -/
def intVal (t : IntTy) (x : Nat) : Int :=
  let w := t.width
  let y := x % 2 ^ w
  if t.signed && 2 ^ (w - 1) ≤ y then (y : Int) - 2 ^ w else y

/-- The least and the greatest number of a type. -/
def intMin (t : IntTy) : Int := if t.signed then -(2 ^ (t.width - 1)) else 0
def intMax (t : IntTy) : Int := if t.signed then 2 ^ (t.width - 1) - 1 else 2 ^ t.width - 1

/-- `.sat` (R127). -/
def clampTo (t : IntTy) (x : Int) : Int := max (intMin t) (min x (intMax t))

/-- A number modulo 2^w, as a pattern (R127). -/
def wrapNat (w : Nat) (x : Int) : Nat := (x % (2 ^ w : Int)).toNat

/-- Integer to floating. -/
def cvtIntFlt (s : IntTy) (d : FTy) (md : Rnd) (ftz : Bool) (x : Nat) : Nat × Fl :=
  let v := intVal s x
  if v = 0 then (0, 0) else roundTo d md ftz (v < 0) v.natAbs 0

/-- Floating to floating. -/
def cvtFltFlt (s d : FTy) (md : Rnd) (ftz : Bool) (x : Nat) : Nat × Fl :=
  let v := fDecode s (fFlush ftz s x)
  deliver d md ftz v (flIf v.isSig flNV)

/-- Floating to integer: the pattern of the result. -/
def cvtFltInt (s : FTy) (d : IntTy) (md : Rnd) (ftz : Bool) (x : Nat) : Nat × Fl :=
  match fDecode s (fFlush ftz s x) with
  | .nan _ => (0, flNV)
  | .inf n => (wrapNat d.width (if n then intMin d else intMax d), flNV)
  | .fin n m e =>
    let q := roundGrid md n m e 0
    let exact : Bool := 0 ≤ e || q * 2 ^ (-e).toNat == m
    let y : Int := if n then -(q : Int) else q
    if y < intMin d then (wrapNat d.width (intMin d), flNV)
    else if intMax d < y then (wrapNat d.width (intMax d), flNV)
    else (wrapNat d.width y, flIf (!exact) flNX)

/-- Integer to integer. -/
def cvtIntInt (s d : IntTy) (sat : Bool) (x : Nat) : Nat :=
  let v := intVal s x
  wrapNat d.width (if sat then clampTo d v else v)

/-! ### Block formats (R138 to R141) -/

/-- Width of an element, of its magnitude, and the magnitude's fraction bits. -/
def bBits : BTy → Nat
  | .bq8 => 8 | .bq4 => 4
def bMagBits : BTy → Nat
  | .bq8 => 6 | .bq4 => 2
def bFrac : BTy → Nat
  | .bq8 => 5 | .bq4 => 1
def bMax : BTy → Nat
  | .bq8 => 63 | .bq4 => 3
def bStep : BTy → Nat
  | .bq8 => 3 | .bq4 => 2

/-- The value of an element (R138). -/
def blockVal (t : BTy) (e0 e1 el : Nat) : FVal :=
  let mb := bMagBits t
  let m := el % 2 ^ mb
  let sg := el / 2 ^ mb % 2 == 1
  let e := if el / 2 ^ (mb + 1) % 2 = 1 then e1 else e0
  if e = 255 then .nan false else .fin sg m ((e : Int) - 127 - bFrac t)

/-- An element from its selector, sign and magnitude. -/
def blockElem (t : BTy) (sel sg : Bool) (m : Nat) : Nat :=
  m + (if sg then 2 ^ bMagBits t else 0) + (if sel then 2 ^ (bMagBits t + 1) else 0)

/-- floor(log2 |x|) of the values that set the block's exponent: infinities count as 128 (R140). -/
def topOf : FVal → Option Int
  | .inf _ => some 128
  | .fin _ m e => if m = 0 then none else some (Nat.log2 m + e)
  | .nan _ => none

def maxOpt : Option Int → Option Int → Option Int
  | none, x => x
  | x, none => x
  | some a, some b => some (max a b)

/-- A finite magnitude at one exponent: the clamped magnitude field and whether it clamped (R140). -/
def quantAt (t : BTy) (m : Nat) (e : Int) (E : Nat) : Nat :=
  min (roundGrid .rn false m e ((E : Int) - 127 - bFrac t)) (bMax t)

/-- |m × 2^e − q × 2^(E − 127 − f)| in units of 2^g. -/
def quantErr (t : BTy) (m : Nat) (e : Int) (q E : Nat) (g : Int) : Nat :=
  (toUnits false m e g - toUnits false q ((E : Int) - 127 - bFrac t) g).natAbs

/-- What one element of a block meets, for the flags and counters of R141. -/
structure QuantInfo where
  nan : Bool
  sig : Bool
  ov : Bool
  uf : Bool
  nx : Bool
  sat : Bool
  deriving DecidableEq, Repr

/-- One element of R140. -/
def quantElem (t : BTy) (e0 e1 : Nat) (x : FVal) : Nat × QuantInfo :=
  match x with
  | .nan sig => (blockElem t true false 0, { nan := true, sig, ov := false, uf := false, nx := false, sat := false })
  | .inf n => (blockElem t false n (bMax t), { nan := false, sig := false, ov := true, uf := false, nx := false, sat := true })
  | .fin n m e =>
    let m0 := quantAt t m e e0
    let m1 := quantAt t m e e1
    let g0 : Int := (e0 : Int) - 127 - bFrac t
    let g1 : Int := (e1 : Int) - 127 - bFrac t
    let g := min e (min g0 g1)
    let er0 := quantErr t m e m0 e0 g
    let er1 := quantErr t m e m1 e1 g
    let sel : Bool := e1 != 255 && er1 < er0
    let q := if sel then m1 else m0
    let er := if sel then er1 else er0
    let raw := roundGrid .rn false m e (if sel then g1 else g0)
    (blockElem t sel n q,
      { nan := false, sig := false, ov := m != 0 && 254 < Nat.log2 m + e + 127, uf := m != 0 && q == 0, nx := er != 0,
        sat := bMax t < raw })

/-- quantise_block (R140): elements, E0, E1, and what each element met. -/
def quantise (t : BTy) (xs : List FVal) : List Nat × Nat × Nat × List QuantInfo :=
  let top := xs.foldl (fun a x => maxOpt a (topOf x)) none
  let e0 : Nat := match top with
    | none => 0
    | some k => (max 0 (min (k + 127) 254)).toNat
  let e1 := if xs.any FVal.isNan then 255 else e0 - bStep t
  let r := xs.map (quantElem t e0 e1)
  (r.map (·.1), e0, e1, r.map (·.2))

/-- The CVT flags of a quantised block (R141). -/
def quantFlags (l : List QuantInfo) : Fl :=
  flIf (l.any (·.sig)) flNV ||| flIf (l.any (·.ov)) flOF ||| flIf (l.any (·.uf)) (flUF ||| flNX) ||| flIf (l.any (·.nx)) flNX

/-! ### Matrix sums (R144, R145) -/

/-- The exact sum of finite values, as units of 2^g. -/
def sumUnits (g : Int) : List FVal → Int
  | [] => 0
  | .fin n m e :: l => toUnits n m e g + sumUnits g l
  | _ :: l => sumUnits g l

/-- The least exponent of a list of values. -/
def minExp : List FVal → Int → Int
  | [], g => g
  | .fin _ _ e :: l, g => minExp l (min e g)
  | _ :: l, g => minExp l g

/-- c + Σ terms with one rounding rn (R144, R145), with NV, OF, UF as the counters take them (R143). -/
def matrixSum (t : FTy) (c : FVal) (terms : List FVal) : Nat × Fl :=
  let all := c :: terms
  let pos := all.any (fun v => v == .inf false)
  let neg := all.any (fun v => v == .inf true)
  if all.any FVal.isNan || (pos && neg) then (fNaN t, flNV)
  else if pos then (fInf t false, 0)
  else if neg then (fInf t true, 0)
  else
    let g := minExp all 0
    let x := sumUnits g all
    if x = 0 then
      (fZero t (all.all (fun v => match v with | .fin n m _ => n && m == 0 | _ => false)), 0)
    else roundTo t .rn false (x < 0) x.natAbs g

end Sys2Proof.Machine
end

