-- ==== Sys2Proof/Decode.lean ====
section
/-! DEFINITION. Instruction words (03, 04): fields, the decoder from the words to `Instr` (total; `none` is a word that
raises ILLEGAL under R67), the register rules of R63, and the encoder. -/

namespace Sys2Proof

/-! ### Fields -/

/-- Bits `lo + n - 1` down to `lo` of `w` as a number (R4). -/
def bits (w lo n : Nat) : Nat := w / 2 ^ lo % 2 ^ n

/-- Bit `i` of `w`. -/
def bitAt (w i : Nat) : Bool := w / 2 ^ i % 2 == 1

/-- The layout of E that most two-word majors share (R58). -/
structure Ext where
  gen : Bool
  gneg : Bool
  gidx : Nat
  rnd : Nat
  ty : Nat
  md : Nat
  vc : Nat
  imm : Nat
  deriving DecidableEq, Repr

/-- R58. -/
def Ext.of (e : Nat) : Ext :=
  { gen := bitAt e 31, gneg := bitAt e 30, gidx := bits e 27 3, rnd := bits e 24 3, ty := bits e 20 4,
    md := bits e 16 4, vc := bits e 8 8, imm := bits e 0 8 }

/-- Bits 19, 18, 17 and 16 of E: F, S, I and V of R152. -/
def Ext.f (x : Ext) : Bool := bitAt x.md 3
def Ext.s (x : Ext) : Bool := bitAt x.md 2
def Ext.i (x : Ext) : Bool := bitAt x.md 1
def Ext.v (x : Ext) : Bool := bitAt x.md 0

/-- A condition of a decoder. -/
def need (b : Bool) : Option Unit := if b then some () else none

/-- R59: with the enable bit 0 the rest of the guard is zero. -/
def Ext.guardQ (x : Ext) : Option (Option GuardQ) :=
  if x.gen then some (some ⟨x.gneg, BitVec.ofNat 3 x.gidx⟩)
  else if !x.gneg && x.gidx == 0 then some none else none

/-- R58, R59: in the uniform set bit 29 is zero and [28:27] is the k index. -/
def Ext.guardK (x : Ext) : Option (Option GuardK) :=
  if x.gen then (if x.gidx < 4 then some (some ⟨x.gneg, BitVec.ofNat 2 x.gidx⟩) else none)
  else if !x.gneg && x.gidx == 0 then some none else none

/-! ### Codes (R60 to R62, and the tables of the instruction chapters) -/

def IntTy.code : IntTy → Nat
  | .i8 => 0 | .i16 => 1 | .i32 => 2 | .i64 => 3 | .n8 => 4 | .n16 => 5 | .n32 => 6 | .n64 => 7
def IntTy.ofCode : Nat → Option IntTy
  | 0 => some .i8 | 1 => some .i16 | 2 => some .i32 | 3 => some .i64
  | 4 => some .n8 | 5 => some .n16 | 6 => some .n32 | 7 => some .n64 | _ => none
def FTy.code : FTy → Nat
  | .f16 => 8 | .bf16 => 9 | .f32 => 10 | .f64 => 11
def FTy.ofCode : Nat → Option FTy
  | 8 => some .f16 | 9 => some .bf16 | 10 => some .f32 | 11 => some .f64 | _ => none
def BTy.code : BTy → Nat
  | .bq8 => 12 | .bq4 => 13
def BTy.ofCode : Nat → Option BTy
  | 12 => some .bq8 | 13 => some .bq4 | _ => none
def ElemTy.code : ElemTy → Nat
  | .int t => t.code
  | .flt t => t.code
def ElemTy.ofCode (n : Nat) : Option ElemTy :=
  match IntTy.ofCode n with
  | some t => some (.int t)
  | none => (FTy.ofCode n).map .flt
def BfTy.code : BfTy → Nat
  | .i32 => 2 | .i64 => 3 | .n32 => 6 | .n64 => 7
def BfTy.ofCode : Nat → Option BfTy
  | 2 => some .i32 | 3 => some .i64 | 6 => some .n32 | 7 => some .n64 | _ => none
def IdxTy.code : IdxTy → Nat
  | .i8 => 0 | .i16 => 1 | .i32 => 2 | .n8 => 4 | .n16 => 5 | .n32 => 6
def IdxTy.ofCode : Nat → Option IdxTy
  | 0 => some .i8 | 1 => some .i16 | 2 => some .i32 | 4 => some .n8 | 5 => some .n16 | 6 => some .n32 | _ => none
def PackTy.code : PackTy → Nat
  | .i8 => 0 | .i16 => 1 | .n8 => 4 | .n16 => 5 | .f16 => 8 | .bf16 => 9 | .bq8 => 12 | .bq4 => 13
def PackTy.ofCode : Nat → Option PackTy
  | 0 => some .i8 | 1 => some .i16 | 4 => some .n8 | 5 => some .n16 | 8 => some .f16 | 9 => some .bf16
  | 12 => some .bq8 | 13 => some .bq4 | _ => none
def MatTy.code : MatTy → Nat
  | .f64 => 11 | .f32 => 10 | .bf16 => 9 | .f16 => 8 | .i8 => 0 | .bq8 => 12 | .bq4 => 13
def MatTy.ofCode : Nat → Option MatTy
  | 11 => some .f64 | 10 => some .f32 | 9 => some .bf16 | 8 => some .f16 | 0 => some .i8 | 12 => some .bq8
  | 13 => some .bq4 | _ => none
def SpTy.code : SpTy → Nat
  | .bf16 => 9 | .f16 => 8 | .i8 => 0 | .bq8 => 12 | .bq4 => 13
def SpTy.ofCode : Nat → Option SpTy
  | 9 => some .bf16 | 8 => some .f16 | 0 => some .i8 | 12 => some .bq8 | 13 => some .bq4 | _ => none
def AtomTy.code : AtomTy → Nat
  | .i32 => 2 | .i64 => 3 | .n32 => 6 | .n64 => 7
def AtomTy.ofCode : Nat → Option AtomTy
  | 2 => some .i32 | 3 => some .i64 | 6 => some .n32 | 7 => some .n64 | _ => none
def Rnd.code : Rnd → Nat
  | .rn => 0 | .rz => 1 | .rd => 2 | .ru => 3 | .rna => 4
def Rnd.ofCode : Nat → Option Rnd
  | 0 => some .rn | 1 => some .rz | 2 => some .rd | 3 => some .ru | 4 => some .rna | _ => none
def ICond.code : ICond → Nat
  | .eq => 0 | .ne => 1 | .lt => 2 | .le => 3 | .gt => 4 | .ge => 5
def ICond.ofCode : Nat → Option ICond
  | 0 => some .eq | 1 => some .ne | 2 => some .lt | 3 => some .le | 4 => some .gt | 5 => some .ge | _ => none
def FCond.code : FCond → Nat
  | .eq => 0 | .ne => 1 | .lt => 2 | .le => 3 | .gt => 4 | .ge => 5 | .un => 6 | .ord => 7 | .ltu => 8 | .leu => 9
  | .gtu => 10 | .geu => 11
def FCond.ofCode : Nat → Option FCond
  | 0 => some .eq | 1 => some .ne | 2 => some .lt | 3 => some .le | 4 => some .gt | 5 => some .ge | 6 => some .un
  | 7 => some .ord | 8 => some .ltu | 9 => some .leu | 10 => some .gtu | 11 => some .geu | _ => none
def QFn.code : QFn → Nat
  | .and => 0 | .or => 1 | .xor => 2 | .andn => 3 | .orn => 4 | .nand => 5 | .nor => 6 | .xnor => 7
def QFn.ofCode : Nat → Option QFn
  | 0 => some .and | 1 => some .or | 2 => some .xor | 3 => some .andn | 4 => some .orn | 5 => some .nand
  | 6 => some .nor | 7 => some .xnor | _ => none
def SpecialReg.code : SpecialReg → Nat
  | .tid => 1 | .pass => 2 | .fflags => 3 | .grant => 4
def SpecialReg.ofCode : Nat → Option SpecialReg
  | 1 => some .tid | 2 => some .pass | 3 => some .fflags | 4 => some .grant | _ => none
def Seg.code : Seg → Nat
  | .win => 0 | .quad => 1 | .oct => 2
def Seg.ofCode : Nat → Option Seg
  | 0 => some .win | 1 => some .quad | 2 => some .oct | _ => none
def ShflMode.code : ShflMode → Nat
  | .idx => 0 | .up => 1 | .down => 2 | .xor => 3
def ShflMode.ofCode : Nat → Option ShflMode
  | 0 => some .idx | 1 => some .up | 2 => some .down | 3 => some .xor | _ => none
def Order.code : Order → Nat
  | .fix => 0 | .win => 1 | .any => 2
def Order.ofCode : Nat → Option Order
  | 0 => some .fix | 1 => some .win | 2 => some .any | _ => none
def RedIntFn.code : RedIntFn → Nat
  | .add => 0 | .min => 1 | .max => 2 | .and => 3 | .or => 4 | .xor => 5
def RedIntFn.ofCode : Nat → Option RedIntFn
  | 0 => some .add | 1 => some .min | 2 => some .max | 3 => some .and | 4 => some .or | 5 => some .xor | _ => none
def Count.code : Count → Nat
  | .x1 => 0 | .x2 => 1 | .x4 => 2
def Count.ofCode : Nat → Option Count
  | 0 => some .x1 | 1 => some .x2 | 2 => some .x4 | _ => none
def GWidth.code : GWidth → Nat
  | .w8 => 0 | .w16 => 1 | .w32 => 2
def GWidth.ofCode : Nat → Option GWidth
  | 0 => some .w8 | 1 => some .w16 | 2 => some .w32 | _ => none
def AtomFn.code : AtomFn → Nat
  | .add => 0 | .min => 1 | .max => 2 | .and => 3 | .or => 4 | .xor => 5 | .exch => 6 | .cas => 7
def AtomFn.ofCode : Nat → Option AtomFn
  | 0 => some .add | 1 => some .min | 2 => some .max | 3 => some .and | 4 => some .or | 5 => some .xor
  | 6 => some .exch | 7 => some .cas | _ => none
def Chunk.code : Chunk → Nat
  | .b4 => 0 | .b8 => 1 | .b16 => 2 | .b32 => 3 | .b64 => 4 | .b128 => 5
def Chunk.ofCode : Nat → Option Chunk
  | 0 => some .b4 | 1 => some .b8 | 2 => some .b16 | 3 => some .b32 | 4 => some .b64 | 5 => some .b128 | _ => none
def FillSpace.code : FillSpace → Nat
  | .wb => 0 | .ab => 1 | .ls => 2
def FillSpace.ofCode : Nat → Option FillSpace
  | 0 => some .wb | 1 => some .ab | 2 => some .ls | _ => none
def SldSz.code : SldSz → Nat
  | .n8 => 0 | .n16 => 1 | .n32 => 2 | .d64 => 3 | .i8 => 4 | .i16 => 5 | .i32 => 6
def SldSz.ofCode : Nat → Option SldSz
  | 0 => some .n8 | 1 => some .n16 | 2 => some .n32 | 3 => some .d64 | 4 => some .i8 | 5 => some .i16 | 6 => some .i32
  | _ => none
def SstSz.code : SstSz → Nat
  | .n8 => 0 | .n16 => 1 | .n32 => 2 | .d64 => 3
def SstSz.ofCode : Nat → Option SstSz
  | 0 => some .n8 | 1 => some .n16 | 2 => some .n32 | 3 => some .d64 | _ => none
def MntLevel.code : MntLevel → Nat
  | .l1 => 0 | .home => 1 | .mem => 2
def MntLevel.ofCode : Nat → Option MntLevel
  | 0 => some .l1 | 1 => some .home | 2 => some .mem | _ => none

/-- Scope code and hop (R62): with codes 0 to 3 the hop is zero. -/
def Scope.ofCode (c hop : Nat) : Option Scope :=
  match c, hop with
  | 0, 0 => some .thread
  | 1, 0 => some .blk
  | 2, 0 => some .die
  | 3, 0 => some .pkg
  | 4, h => some (.sys (BitVec.ofNat 4 h))
  | _, _ => none
def Scope.code : Scope → Nat
  | .thread => 0 | .blk => 1 | .die => 2 | .pkg => 3 | .sys _ => 4
def Scope.hop : Scope → Nat
  | .sys n => n.toNat
  | .thread | .blk | .die | .pkg => 0

/-- E[15:8] as a scope: code [15:13], hop [12:9], [8] zero (R58, R62). -/
def Ext.scope (x : Ext) : Option Scope :=
  if bits x.vc 0 1 == 0 then Scope.ofCode (bits x.vc 5 3) (bits x.vc 1 4) else none

/-- The completion scope of R256. -/
def Ext.wideScope (x : Ext) : Option WideScope :=
  match x.scope with
  | some .pkg => some .pkg
  | some (.sys n) => some (.sys n)
  | _ => none

/-! ### Operand fields of word 0 (R56, R57) -/

def l8 (w lo : Nat) : BitVec 8 := BitVec.ofNat 8 (bits w lo 8)
def wVd (w : Nat) : BitVec 8 := l8 w 16
def wVa (w : Nat) : BitVec 8 := l8 w 8
def wVb (w : Nat) : BitVec 8 := l8 w 0
def wW (w : Nat) : Bool := bitAt w 30
def wQd (w : Nat) : BitVec 3 := BitVec.ofNat 3 (bits w 21 3)
def wCond (w : Nat) : Nat := bits w 16 5
def s6 (w lo : Nat) : BitVec 6 := BitVec.ofNat 6 (bits w lo 6)
def wSd (w : Nat) : BitVec 6 := s6 w 18
def wSa (w : Nat) : BitVec 6 := s6 w 12
def wSb (w : Nat) : BitVec 6 := s6 w 6
def wFn (w : Nat) : Nat := bits w 0 6
def wMajor (w : Nat) : Nat := bits w 24 6
def wSet (w : Nat) : Bool := bitAt w 31

/-- The second source of R152: with I the vb field is zero, without it E[7:0] is. -/
def srcB (w : Nat) (x : Ext) : Option Src :=
  if x.i then (if bits w 0 8 == 0 then some (.imm (BitVec.ofNat 8 x.imm)) else none)
  else (if x.imm == 0 then some (.reg (wVb w)) else none)

/-! ### Decoders of the lane set -/

def decMov (w : Nat) : Option Instr :=
  if bits w 0 8 == 0 then some (.mov ⟨wW w, wVd w, wVa w⟩)
  else if bits w 8 8 == 0 then (SpecialReg.ofCode (bits w 0 8)).map fun r => .specialMov ⟨wW w, wVd w, r⟩
  else none
def decMovi (w : Nat) : Option Instr := some (.movi ⟨wW w, wVd w, BitVec.ofNat 16 (bits w 0 16)⟩)
def decMoviw (w e : Nat) : Option Instr :=
  if bits w 0 16 == 0 then some (.moviw ⟨wW w, wVd w, BitVec.ofNat 32 e⟩) else none
def decIaddi (w : Nat) : Option Instr := some (.iaddi ⟨wW w, wVd w, wVa w, wVb w⟩)
def decLea (w e : Nat) : Option Instr := do
  let x := Ext.of e
  let g ← x.guardQ
  let t ← IdxTy.ofCode x.ty
  need (x.md == 0 && x.vc == 0)
  return .lea ⟨wW w, g, t, wVd w, wVa w, wVb w, BitVec.ofNat 3 x.rnd, BitVec.ofNat 8 x.imm⟩
def decBrd (w : Nat) : Option Instr :=
  some (.brd ⟨wW w, wQd w, bitAt w 20, BitVec.ofNat 4 (bits w 16 4), BitVec.ofNat 16 (bits w 0 16)⟩)
def decJoin (w : Nat) : Option Instr :=
  if bits w 20 4 == 0 && bits w 0 16 == 0 then some (.join ⟨wW w, BitVec.ofNat 4 (bits w 16 4)⟩) else none

/-- IADD and ISUB: S and I, no vc, no rounding (R156). -/
def decIntSat (mk : IntSatOp → Instr) (w e : Nat) : Option Instr := do
  let x := Ext.of e
  let g ← x.guardQ
  let t ← IntTy.ofCode x.ty
  let b ← srcB w x
  need (x.rnd == 0 && !x.f && !x.v && x.vc == 0)
  return mk ⟨wW w, g, t, x.s, wVd w, wVa w, b⟩
def decImul (w e : Nat) : Option Instr := do
  let x := Ext.of e
  let g ← x.guardQ
  let t ← IntTy.ofCode x.ty
  let b ← srcB w x
  need (x.rnd == 0 && !x.f && x.vc == 0 && !(x.s && x.v))
  return .imul ⟨wW w, g, t, if x.v then .hi else if x.s then .sat else .wrap, wVd w, wVa w, b⟩
def decImad (w e : Nat) : Option Instr := do
  let x := Ext.of e
  let g ← x.guardQ
  let t ← IntTy.ofCode x.ty
  let b ← srcB w x
  need (x.rnd == 0 && !x.f && !x.v)
  return .imad ⟨wW w, g, t, x.s, wVd w, wVa w, b, BitVec.ofNat 8 x.vc⟩
/-- Shifts and logic: I only (R158). -/
def decIntBin (mk : IntBinOp → Instr) (w e : Nat) : Option Instr := do
  let x := Ext.of e
  let g ← x.guardQ
  let t ← IntTy.ofCode x.ty
  let b ← srcB w x
  need (x.rnd == 0 && !x.f && !x.s && !x.v && x.vc == 0)
  return mk ⟨wW w, g, t, wVd w, wVa w, b⟩
/-- IMIN and IMAX: V selects (R81, R156). -/
def decIminmax (w e : Nat) : Option Instr := do
  let x := Ext.of e
  let g ← x.guardQ
  let t ← IntTy.ofCode x.ty
  let b ← srcB w x
  need (x.rnd == 0 && !x.f && !x.s && x.vc == 0)
  let o : IntBinOp := ⟨wW w, g, t, wVd w, wVa w, b⟩
  return if x.v then .imax o else .imin o
def decIabs (w e : Nat) : Option Instr := do
  let x := Ext.of e
  let g ← x.guardQ
  let t ← IntTy.ofCode x.ty
  need (t.signed && bits w 0 8 == 0 && x.rnd == 0 && !x.f && !x.i && !x.v && x.vc == 0 && x.imm == 0)
  return .iabs ⟨wW w, g, t, x.s, wVd w, wVa w⟩
def decIcmp (w e : Nat) : Option Instr := do
  let x := Ext.of e
  let g ← x.guardQ
  let t ← IntTy.ofCode x.ty
  let c ← ICond.ofCode (wCond w)
  let b ← srcB w x
  need (x.rnd == 0 && !x.f && !x.s && !x.v && x.vc == 0)
  return .icmp ⟨wW w, g, t, c, wQd w, wVa w, b⟩
def decSel (w e : Nat) : Option Instr := do
  let x := Ext.of e
  let g ← x.guardQ
  need (x.ty == 6 || x.ty == 7)
  let b ← srcB w x
  need (!x.f && !x.s && x.vc == 0)
  return .sel ⟨wW w, g, x.ty == 7, x.v, BitVec.ofNat 3 x.rnd, wVd w, wVa w, b⟩
/-- FADD, FSUB, FMUL (R168). -/
def decFBin (mk : FBinOp → Instr) (w e : Nat) : Option Instr := do
  let x := Ext.of e
  let g ← x.guardQ
  let t ← FTy.ofCode x.ty
  let m ← Rnd.ofCode x.rnd
  need (!x.s && !x.i && !x.v && x.vc == 0 && x.imm == 0)
  return mk ⟨wW w, g, t, m, x.f, wVd w, wVa w, wVb w⟩
def decFfma (w e : Nat) : Option Instr := do
  let x := Ext.of e
  let g ← x.guardQ
  let t ← FTy.ofCode x.ty
  let m ← Rnd.ofCode x.rnd
  need (!x.s && !x.i && !x.v && x.imm == 0)
  return .ffma ⟨wW w, g, t, m, x.f, wVd w, wVa w, wVb w, BitVec.ofNat 8 x.vc⟩
def decFminmax (w e : Nat) : Option Instr := do
  let x := Ext.of e
  let g ← x.guardQ
  let t ← FTy.ofCode x.ty
  need (x.rnd == 0 && !x.s && !x.i && x.vc == 0 && x.imm == 0)
  let o : FSelOp := ⟨wW w, g, t, x.f, wVd w, wVa w, wVb w⟩
  return if x.v then .fmax o else .fmin o
def decFcmp (w e : Nat) : Option Instr := do
  let x := Ext.of e
  let g ← x.guardQ
  let t ← FTy.ofCode x.ty
  let c ← FCond.ofCode (wCond w)
  need (x.rnd == 0 && !x.s && !x.i && !x.v && x.vc == 0 && x.imm == 0)
  return .fcmp ⟨wW w, g, t, c, x.f, wQd w, wVa w, wVb w⟩
def decFclass (w e : Nat) : Option Instr := do
  let x := Ext.of e
  let g ← x.guardQ
  let t ← FTy.ofCode x.ty
  need (wCond w < 4 && bits w 0 8 == 0 && x.rnd == 0 && x.md == 0 && x.vc == 0)
  return .fclass ⟨wW w, g, t, wQd w, wVa w, BitVec.ofNat 10 (wCond w * 256 + x.imm)⟩
/-- The index operand of gathers (R66). -/
def gIndex (w : Nat) (x : Ext) : Option GIndex := do
  let wd ← GWidth.ofCode (bits x.md 2 2)
  need (bits w 0 2 == 2 && !x.v)
  return ⟨s6 w 2, wVa w, wd, x.i, BitVec.ofNat 3 x.rnd, BitVec.ofNat 8 x.imm⟩
def RowTy.of (c vc : Nat) : Option RowTy :=
  match c with
  | 12 => some (.bq8 (BitVec.ofNat 8 vc))
  | 13 => some (.bq4 (BitVec.ofNat 8 vc))
  | 11 => if vc == 0 then some .f64 else none
  | 10 => if vc == 0 then some .f32 else none
  | 9 => if vc == 0 then some .bf16 else none
  | 8 => if vc == 0 then some .f16 else none
  | 0 => if vc == 0 then some .i8 else none
  | _ => none
def decLdgRow (w e : Nat) : Option Instr := do
  let x := Ext.of e
  let g ← x.guardQ
  let t ← RowTy.of x.ty x.vc
  let ix ← gIndex w x
  return .ldgRow ⟨wW w, g, t, wVd w, ix⟩
/-- BFX and BFI: with I, vb is the length and E[7:0] the position (R158). -/
def bitField (w : Nat) (x : Ext) : Option BitField :=
  if x.i then some (.imm (BitVec.ofNat 8 x.imm) (wVb w))
  else if x.imm == 0 then some (.reg (wVb w)) else none
def decBfx (w e : Nat) : Option Instr := do
  let x := Ext.of e
  let g ← x.guardQ
  let t ← BfTy.ofCode x.ty
  let f ← bitField w x
  need (x.rnd == 0 && !x.f && !x.s && !x.v && x.vc == 0)
  return .bfx ⟨wW w, g, t, wVd w, wVa w, f⟩
def decBfi (w e : Nat) : Option Instr := do
  let x := Ext.of e
  let g ← x.guardQ
  let t ← BfTy.ofCode x.ty
  let f ← bitField w x
  need (x.rnd == 0 && !x.f && !x.s && !x.v)
  return .bfi ⟨wW w, g, t, wVd w, wVa w, f, BitVec.ofNat 8 x.vc⟩
/-- POPC and CLZ (R158). -/
def decIntCount (mk : IntCountOp → Instr) (w e : Nat) : Option Instr := do
  let x := Ext.of e
  let g ← x.guardQ
  let t ← IntTy.ofCode x.ty
  need (bits w 0 8 == 0 && x.rnd == 0 && x.md == 0 && x.vc == 0 && x.imm == 0)
  return mk ⟨wW w, g, t, wVd w, wVa w⟩
/-- The unary floating forms (R168). -/
def decFUn (mk : FUnOp → Instr) (w e : Nat) : Option Instr := do
  let x := Ext.of e
  let g ← x.guardQ
  let t ← FTy.ofCode x.ty
  let m ← Rnd.ofCode x.rnd
  need (bits w 0 8 == 0 && !x.s && !x.i && !x.v && x.vc == 0 && x.imm == 0)
  return mk ⟨wW w, g, t, m, x.f, wVd w, wVa w⟩
/-- A conversion of one value from type code `s` to `d` (R171, R172); `f` and `sat` are the modifier bits. -/
def cvtPair (s d : Nat) (m : Rnd) (f sat : Bool) : Option CvtPair :=
  match IntTy.ofCode s, IntTy.ofCode d, FTy.ofCode s, FTy.ofCode d with
  | some a, some b, _, _ => if a != b && !f then some (.intInt a b m sat) else none
  | some a, none, _, some b => if sat then none else some (.intFlt a b m f)
  | none, some b, some a, _ => if sat then none else some (.fltInt a b m f)
  | none, none, some a, some b => if a != b && !sat then some (.fltFlt a b m f) else none
  | _, _, _, _ => none
def BSide.ofCode : Nat → Option BSide
  | 8 => some .f16 | 9 => some .bf16 | 10 => some .f32 | _ => none
def BSide.code : BSide → Nat
  | .f16 => 8 | .bf16 => 9 | .f32 => 10
def decCvt (w e : Nat) : Option Instr := do
  let x := Ext.of e
  let g ← x.guardQ
  let s := bits w 0 4
  need (bits w 4 4 == 0 && !x.i && !x.v && x.imm == 0)
  match BTy.ofCode s, BTy.ofCode x.ty with
  | none, none =>
    let m ← Rnd.ofCode x.rnd
    let p ← cvtPair s x.ty m x.f x.s
    need (x.vc == 0)
    return .cvt ⟨wW w, g, .one p, wVd w, wVa w⟩
  | none, some d =>
    let a ← BSide.ofCode s
    need (x.rnd == 0 && !x.f && !x.s)
    return .cvt ⟨wW w, g, .quant a d (BitVec.ofNat 8 x.vc), wVd w, wVa w⟩
  | some a, none =>
    let d ← BSide.ofCode x.ty
    let m ← Rnd.ofCode x.rnd
    need (!x.f && !x.s)
    return .cvt ⟨wW w, g, .dequant a d m (BitVec.ofNat 8 x.vc), wVd w, wVa w⟩
  | some _, some _ => none
def decPack (w e : Nat) : Option Instr := do
  let x := Ext.of e
  let g ← x.guardQ
  let t ← PackTy.ofCode x.ty
  need (x.rnd == 0 && !x.f && !x.i && !x.v && (!x.s || t.satOk) && x.vc == 0 && x.imm == 0)
  return .pack ⟨wW w, g, t, x.s, wVd w, wVa w, wVb w⟩
def decUnpk (w e : Nat) : Option Instr := do
  let x := Ext.of e
  let g ← x.guardQ
  let t ← PackTy.ofCode x.ty
  need (bits w 0 8 == 0 && x.rnd == 0 && x.md == 0 && x.vc == 0 && x.imm < 2)
  return .unpk ⟨wW w, g, t, wVd w, wVa w, x.imm == 1⟩
def decQset (w e : Nat) : Option Instr := do
  let x := Ext.of e
  let g ← x.guardQ
  need (bits w 0 8 == 0 && x.rnd == 0 && x.md == 0 && x.vc == 0)
  match wCond w with
  | 0 =>
    need (x.ty == 0 && bits w 8 8 == 0 && x.imm == 0)
    return .qset ⟨wW w, g, wQd w, .clr⟩
  | 1 =>
    need (x.ty == 0 && bits w 8 8 == 0 && x.imm == 0)
    return .qset ⟨wW w, g, wQd w, .set⟩
  | 2 =>
    let t ← IntTy.ofCode x.ty
    need (x.imm == 0)
    return .qset ⟨wW w, g, wQd w, .nz t (wVa w)⟩
  | 3 =>
    let t ← IntTy.ofCode x.ty
    need (x.imm < t.width)
    return .qset ⟨wW w, g, wQd w, .bit t (wVa w) (BitVec.ofNat 6 x.imm)⟩
  | _ => none
def decQop (w : Nat) : Option Instr := do
  let f ← QFn.ofCode (bits w 12 3)
  need (bits w 0 12 == 0)
  return .qop ⟨wW w, f, wQd w, BitVec.ofNat 3 (bits w 18 3), BitVec.ofNat 3 (bits w 15 3)⟩
def decShfl (w e : Nat) : Option Instr := do
  let x := Ext.of e
  let g ← x.guardQ
  let md ← ShflMode.ofCode x.rnd
  let sg ← Seg.ofCode (bits x.md 2 2)
  need ((x.ty == 6 || x.ty == 7) && !x.v && x.vc == 0)
  let b ← srcB w x
  return .shfl ⟨wW w, g, md, sg, x.ty == 7, wVd w, wVa w, b⟩
def voteFn (d : Bool) (op vd : Nat) : Option VoteFn :=
  match d, op with
  | false, 0 => some (.anyV (BitVec.ofNat 8 vd))
  | false, 1 => some (.allV (BitVec.ofNat 8 vd))
  | false, 2 => some (.ballot (BitVec.ofNat 8 vd))
  | false, 3 => some (.count (BitVec.ofNat 8 vd))
  | true, 0 => if vd < 8 then some (.anyQ (BitVec.ofNat 3 vd)) else none
  | true, 1 => if vd < 8 then some (.allQ (BitVec.ofNat 3 vd)) else none
  | _, _ => none
def decVote (w e : Nat) : Option Instr := do
  let x := Ext.of e
  let g ← x.guardQ
  let sg ← Seg.ofCode (bits x.md 2 2)
  let f ← voteFn x.v x.rnd (bits w 16 8)
  need (x.ty == 0 && !x.i && x.vc == 0 && x.imm == 0 && bits w 0 8 == 0 && bits w 11 5 == 0)
  return .vote ⟨wW w, g, sg, f, BitVec.ofNat 3 (bits w 8 3)⟩
/-- The combining step of RED and SCAN (R184). -/
def redFn (ty op rnd : Nat) (ftz : Bool) : Option RedFn :=
  match IntTy.ofCode ty, FTy.ofCode ty with
  | some t, _ => if rnd == 0 && !ftz then (RedIntFn.ofCode op).map (.int t) else none
  | none, some t =>
    match op with
    | 0 => (Rnd.ofCode rnd).map fun m => .fadd t m ftz
    | 1 => if rnd == 0 then some (.fmin t ftz) else none
    | 2 => if rnd == 0 then some (.fmax t ftz) else none
    | _ => none
  | none, none => none
def decRed (w e : Nat) : Option Instr := do
  let x := Ext.of e
  let g ← x.guardQ
  let o ← Order.ofCode (bits x.md 0 2)
  let f ← redFn x.ty x.imm x.rnd x.f
  need (!x.s && x.vc == 0 && bits w 0 8 == 0)
  return .red ⟨wW w, g, o, f, wVd w, wVa w⟩
def decScan (w e : Nat) : Option Instr := do
  let x := Ext.of e
  let g ← x.guardQ
  let o ← Order.ofCode (bits x.md 0 2)
  let f ← redFn x.ty x.imm x.rnd x.f
  need (x.vc == 0 && bits w 0 8 == 0)
  return .scan ⟨wW w, g, o, x.s, f, wVd w, wVa w⟩

/-- The LM memory operand (R65): with am 0, va is zero. -/
def memAddr (w : Nat) (x : Ext) : Option Addr :=
  let a := fun i => some (⟨s6 w 2, i, BitVec.ofNat 8 x.imm⟩ : Addr)
  match bits w 0 2 with
  | 0 => if bits w 8 8 == 0 then a .none else none
  | 1 => a (.zext (wVa w))
  | 2 => a (.sext (wVa w))
  | _ => a (.pair (wVa w))
/-- The plain lane accesses (R237, R242, R245); `tile` is the T bit. -/
def decMem (mk : MemOp → Instr) (tile : Bool) (w e : Nat) : Option Instr := do
  let x := Ext.of e
  let g ← x.guardQ
  let t ← ElemTy.ofCode x.ty
  let c ← Count.ofCode (bits x.md 0 2)
  let a ← memAddr w x
  need (x.rnd == 0 && x.f == tile && !x.s && x.vc == 0 && elemCountOk t c)
  return mk ⟨wW w, g, t, c, wVd w, a⟩
/-- LDL and STL with the P bit (R245). -/
def decLs (mk : LsOp → Instr) (w e : Nat) : Option Instr := do
  let x := Ext.of e
  let g ← x.guardQ
  let t ← ElemTy.ofCode x.ty
  let c ← Count.ofCode (bits x.md 0 2)
  let a ← memAddr w x
  need (x.rnd == 0 && !x.f && x.vc == 0 && elemCountOk t c)
  return mk ⟨wW w, g, x.s, t, c, wVd w, a⟩
/-- LDG and STG (R242). -/
def decGather (mk : GatherOp → Instr) (w e : Nat) : Option Instr := do
  let x := Ext.of e
  let g ← x.guardQ
  let t ← ElemTy.ofCode x.ty
  let ix ← gIndex w x
  need (x.vc == 0)
  return mk ⟨wW w, g, t, wVd w, ix⟩
/-- Operation and type of an atomic (R243, R247). -/
def atomKind (op ty : Nat) : Option AtomKind :=
  match op with
  | 8 => match ty with
    | 10 => some .fadd32
    | 11 => some .fadd64
    | _ => none
  | _ => do
    let f ← AtomFn.ofCode op
    let t ← AtomTy.ofCode ty
    return .int f t
def decAtom (w e : Nat) : Option Instr := do
  let x := Ext.of e
  let g ← x.guardQ
  let k ← atomKind x.md x.ty
  let sc ← x.scope
  let a ← memAddr w x
  need (x.rnd < 2)
  return .atom ⟨wW w, g, x.rnd == 1, k, sc, wVd w, a⟩
def decPft (w e : Nat) : Option Instr := do
  let x := Ext.of e
  let g ← x.guardQ
  let a ← memAddr w x
  need (bits w 16 8 == 0 && x.rnd == 0 && x.ty == 0 && x.md == 0 && x.vc == 0)
  return .pft ⟨wW w, g, a⟩
def decFill (w e : Nat) : Option Instr := do
  let x := Ext.of e
  let g ← x.guardQ
  let sz ← Chunk.ofCode x.rnd
  let sp ← FillSpace.ofCode (bits x.md 0 2)
  let a ← memAddr w x
  need (x.ty == 0 && !x.s && (x.f || x.vc == 0))
  return .fill ⟨wW w, g, sz, sp, wVd w, if x.f then some (BitVec.ofNat 8 x.vc) else none, a⟩

/-! Matrix forms (R265, R266, R272, R275, R276). -/

def xVa (w : Nat) : BitVec 8 := l8 w 16
def xSw (w : Nat) : BitVec 6 := s6 w 10
def xSc (w : Nat) : BitVec 6 := s6 w 4

def decMma (w e : Nat) : Option Instr := do
  let x := Ext.of e
  let g ← x.guardQ
  let t ← MatTy.ofCode x.ty
  need (bits w 0 2 == 0 && x.rnd == 0 && x.md == 0 && x.vc == 0 && x.imm == 0)
  return .mma ⟨wW w, g, t, bitAt w 3, bitAt w 2, xVa w, xSw w, xSc w⟩
def spPat (v : Bool) : SpPat := if v then .sp48 else .sp24
def decMmas (w e : Nat) : Option Instr := do
  let x := Ext.of e
  let g ← x.guardQ
  let t ← SpTy.ofCode x.ty
  need (bits w 0 2 == 0 && x.rnd == 0 && x.md < 2 && x.imm == 0)
  return .mmas ⟨wW w, g, t, spPat x.v, bitAt w 3, bitAt w 2, xVa w, xSw w, xSc w, BitVec.ofNat 8 x.vc⟩
def decSpk (w e : Nat) : Option Instr := do
  let x := Ext.of e
  let g ← x.guardQ
  let t ← SpTy.ofCode x.ty
  need (bits w 0 4 == 0 && x.rnd == 0 && x.md < 2 && x.vc == 0 && x.imm == 0)
  return .spk ⟨wW w, g, t, spPat x.v, xVa w, xSw w, xSc w⟩
def decMzero (w e : Nat) : Option Instr := do
  let x := Ext.of e
  let g ← x.guardQ
  let t ← MatTy.ofCode x.ty
  need (bits w 0 4 == 0 && bits w 10 14 == 0 && x.rnd == 0 && x.md < 4 && x.vc == 0 && x.imm == 0)
  return .mzero ⟨wW w, g, t, BitVec.ofNat 2 x.md, xSc w⟩
/-- A destination type with its rounding and exponent register (R276, R277). -/
def drainTy (acc : AccTy) (ty rnd vc : Nat) : Option DrainTy :=
  let z := rnd == 0 && vc == 0
  match acc, ty with
  | .f64, 11 => if z then some .f64 else none
  | .f64, 10 => if vc == 0 then (Rnd.ofCode rnd).map .f32of64 else none
  | .f32, 10 => if z then some .f32 else none
  | .f32, 9 => if vc == 0 then (Rnd.ofCode rnd).map .bf16 else none
  | .f32, 8 => if vc == 0 then (Rnd.ofCode rnd).map .f16 else none
  | .f32, 12 => if rnd == 0 then some (.bq8 (BitVec.ofNat 8 vc)) else none
  | .f32, 13 => if rnd == 0 then some (.bq4 (BitVec.ofNat 8 vc)) else none
  | .i32, 2 => if z then some .i32 else none
  | .i32, 10 => if vc == 0 then (Rnd.ofCode rnd).map .f32ofi32 else none
  | _, _ => none
/-- The one destination type of a peer add (R276, R277). -/
def accCode : AccTy → Nat
  | .f64 => 11 | .f32 => 10 | .i32 => 2
def decMdrn (w e : Nat) : Option Instr := do
  let x := Ext.of e
  let g ← x.guardQ
  let st ← MatTy.ofCode (bits x.imm 0 4)
  need (bits x.imm 4 4 == 0 && bits w 0 2 == 0)
  match bits x.md 2 2 with
  | 0 =>
    let dt ← drainTy st.acc x.ty x.rnd x.vc
    need (bits w 10 6 == 0 && !bitAt w 3 && drainRegOk dt st (bits x.md 0 2))
    return .mdrn ⟨wW w, g, dt, st, bitAt w 2, BitVec.ofNat 2 (bits x.md 0 2), xVa w, xSc w⟩
  | 1 =>
    let dt ← drainTy st.acc x.ty x.rnd x.vc
    need (bits w 10 6 == 0 && !bitAt w 3 && drainMemOk dt st && bits x.md 0 2 == 0)
    return .mdrnMem ⟨wW w, g, dt, st, bitAt w 2, xVa w, xSc w⟩
  | 2 =>
    need (bits w 16 8 == 0 && bits x.md 0 2 == 0 && x.rnd == 0 && x.vc == 0 && x.ty == accCode st.acc)
    return .mdrnPeer ⟨wW w, g, bitAt w 3, bitAt w 2, st, xSw w, xSc w⟩
  | _ => none

/-- The lane set by major (R80); `e` is the extension word of a two-word major. -/
def decodeLane (w e : Nat) : Option Instr :=
  match wMajor w with
  | 0x01 => decMov w
  | 0x02 => decMovi w
  | 0x03 => decMoviw w e
  | 0x04 => decIaddi w
  | 0x05 => decLea w e
  | 0x06 => decBrd w
  | 0x07 => decJoin w
  | 0x08 => decIntSat .iadd w e
  | 0x09 => decIntSat .isub w e
  | 0x0A => decImul w e
  | 0x0B => decImad w e
  | 0x0C => decIminmax w e
  | 0x0D => decIabs w e
  | 0x0E => decIcmp w e
  | 0x0F => decSel w e
  | 0x10 => decFBin .fadd w e
  | 0x11 => decFBin .fsub w e
  | 0x12 => decFfma w e
  | 0x13 => decFBin .fmul w e
  | 0x14 => decFminmax w e
  | 0x15 => decFcmp w e
  | 0x16 => decFclass w e
  | 0x17 => decLdgRow w e
  | 0x18 => decIntBin .shl w e
  | 0x19 => decIntBin .shr w e
  | 0x1A => decIntBin .sha w e
  | 0x1B => decIntBin .and w e
  | 0x1C => decIntBin .or w e
  | 0x1D => decIntBin .xor w e
  | 0x1E => decBfx w e
  | 0x1F => decBfi w e
  | 0x20 => decIntCount .popc w e
  | 0x21 => decIntCount .clz w e
  | 0x22 => decFUn .frcp w e
  | 0x23 => decFUn .fsqrt w e
  | 0x24 => decFUn .frsq w e
  | 0x25 => decFUn .fexp2 w e
  | 0x26 => decFUn .flog2 w e
  | 0x27 => decCvt w e
  | 0x28 => decPack w e
  | 0x29 => decUnpk w e
  | 0x2A => decQset w e
  | 0x2B => decQop w
  | 0x2C => decShfl w e
  | 0x2D => decVote w e
  | 0x2E => decRed w e
  | 0x2F => decScan w e
  | 0x30 => decMem .ld false w e
  | 0x31 => decMem .st false w e
  | 0x32 => decGather .ldg w e
  | 0x33 => decGather .stg w e
  | 0x34 => decAtom w e
  | 0x35 => decPft w e
  | 0x36 => if (Ext.of e).f then decMem .ldaTile true w e else decMem .lda false w e
  | 0x37 => if (Ext.of e).f then decMem .staTile true w e else decMem .sta false w e
  | 0x38 => decLs .ldl w e
  | 0x39 => decLs .stl w e
  | 0x3A => decFill w e
  | 0x3B => decMma w e
  | 0x3C => decMmas w e
  | 0x3D => decSpk w e
  | 0x3E => decMdrn w e
  | 0x3F => decMzero w e
  | _ => none

/-! ### Decoders of the uniform set -/

/-- IOP (R86, R188). -/
def decIop (w : Nat) : Option Instr :=
  let b : SBin := ⟨wW w, wSd w, wSa w, wSb w⟩
  let u : SUn := ⟨wW w, wSd w, wSa w⟩
  let z := bits w 6 6 == 0
  match wFn w with
  | 0 => some (.iopIadd b)
  | 1 => some (.iopIsub b)
  | 2 => some (.iopImul b)
  | 3 => some (.iopIminI64 b)
  | 4 => some (.iopImaxI64 b)
  | 5 => some (.iopIminN64 b)
  | 6 => some (.iopImaxN64 b)
  | 7 => if z then some (.iopIabs u) else none
  | 8 => some (.iopAnd b)
  | 9 => some (.iopOr b)
  | 10 => some (.iopXor b)
  | 11 => some (.iopShl b)
  | 12 => some (.iopShr b)
  | 13 => some (.iopSha b)
  | 14 => if z then some (.iopPopc u) else none
  | 15 => if z then some (.iopClz u) else none
  | 16 => if z then some (.iopMov u) else none
  | _ => none
/-- IOPI (R86, R188). -/
def decIopi (w : Nat) : Option Instr :=
  let b : SImm := ⟨wW w, wSd w, wSa w, wSb w⟩
  match wFn w with
  | 0 => some (.iopiIadd b)
  | 1 => some (.iopiIsub b)
  | 2 => some (.iopiImul b)
  | 3 => some (.iopiIminI64 b)
  | 4 => some (.iopiImaxI64 b)
  | 5 => some (.iopiIminN64 b)
  | 6 => some (.iopiImaxN64 b)
  | 8 => some (.iopiAnd b)
  | 9 => some (.iopiOr b)
  | 10 => some (.iopiXor b)
  | 11 => some (.iopiShl b)
  | 12 => some (.iopiShr b)
  | 13 => some (.iopiSha b)
  | 16 => if bits w 12 6 == 0 then some (.iopiMovi ⟨wW w, wSd w, wSb w⟩) else none
  | _ => none
/-- IOPW (R86, R188): sb is zero and E is the immediate. -/
def decIopw (w e : Nat) : Option Instr :=
  let b : SWide := ⟨wW w, wSd w, wSa w, BitVec.ofNat 32 e⟩
  if bits w 6 6 != 0 then none else
  match wFn w with
  | 0 => some (.iopwIadd b)
  | 1 => some (.iopwIsub b)
  | 2 => some (.iopwImul b)
  | 3 => some (.iopwIminI64 b)
  | 4 => some (.iopwImaxI64 b)
  | 5 => some (.iopwIminN64 b)
  | 6 => some (.iopwImaxN64 b)
  | 8 => some (.iopwAnd b)
  | 9 => some (.iopwOr b)
  | 10 => some (.iopwXor b)
  | 11 => some (.iopwShl b)
  | 12 => some (.iopwShr b)
  | 13 => some (.iopwSha b)
  | 16 => if bits w 12 6 == 0 then some (.iopwMovi ⟨wW w, wSd w, BitVec.ofNat 32 e⟩) else none
  | _ => none
def decFopBin (mk : FopBin → Instr) (w : Nat) (x : Ext) : Option Instr := do
  let g ← x.guardK
  let t ← FTy.ofCode x.ty
  let m ← Rnd.ofCode x.rnd
  need (!x.s && !x.i && !x.v && x.vc == 0 && x.imm == 0)
  return mk ⟨wW w, g, t, m, x.f, wSd w, wSa w, wSb w⟩
def decFopSel (mk : FopSel → Instr) (w : Nat) (x : Ext) : Option Instr := do
  let g ← x.guardK
  let t ← FTy.ofCode x.ty
  need (x.rnd == 0 && !x.s && !x.i && !x.v && x.vc == 0 && x.imm == 0)
  return mk ⟨wW w, g, t, x.f, wSd w, wSa w, wSb w⟩
def decFopUn (mk : FopUn → Instr) (w : Nat) (x : Ext) : Option Instr := do
  let g ← x.guardK
  let t ← FTy.ofCode x.ty
  let m ← Rnd.ofCode x.rnd
  need (bits w 6 6 == 0 && !x.s && !x.i && !x.v && x.vc == 0 && x.imm == 0)
  return mk ⟨wW w, g, t, m, x.f, wSd w, wSa w⟩
def decFopFma (w : Nat) (x : Ext) : Option Instr := do
  let g ← x.guardK
  let t ← FTy.ofCode x.ty
  let m ← Rnd.ofCode x.rnd
  need (!x.s && !x.i && !x.v && x.vc < 64 && x.imm == 0)
  return .fopFfma ⟨wW w, g, t, m, x.f, wSd w, wSa w, wSb w, BitVec.ofNat 6 x.vc⟩
def decFopCvt (w : Nat) (x : Ext) : Option Instr := do
  let g ← x.guardK
  let m ← Rnd.ofCode x.rnd
  let p ← cvtPair (bits w 6 4) x.ty m x.f x.s
  need (bits w 10 2 == 0 && !x.i && !x.v && x.vc == 0 && x.imm == 0)
  return .fopCvt ⟨wW w, g, p, wSd w, wSa w⟩
/-- FOP (R87, R189). -/
def decFop (w e : Nat) : Option Instr :=
  let x := Ext.of e
  match wFn w with
  | 0 => decFopBin .fopFadd w x
  | 1 => decFopBin .fopFsub w x
  | 2 => decFopBin .fopFmul w x
  | 3 => decFopFma w x
  | 4 => decFopSel .fopFmin w x
  | 5 => decFopSel .fopFmax w x
  | 6 => decFopUn .fopFrcp w x
  | 7 => decFopUn .fopFsqrt w x
  | 8 => decFopUn .fopFrsq w x
  | 9 => decFopUn .fopFexp2 w x
  | 10 => decFopUn .fopFlog2 w x
  | 11 => decFopCvt w x
  | _ => none
/-- CMPK (R87, R190). -/
def decCmpk (w e : Nat) : Option Instr := do
  let x := Ext.of e
  let g ← x.guardK
  let kd := BitVec.ofNat 2 (bits w 18 2)
  need (bits w 20 4 == 0 && x.rnd == 0 && x.vc == 0)
  match wFn w with
  | 0 =>
    let t ← IntTy.ofCode x.ty
    let c ← ICond.ofCode x.imm
    need (x.md == 0)
    return .cmpkIcmp ⟨wW w, g, t, c, kd, wSa w, wSb w⟩
  | 1 =>
    let t ← FTy.ofCode x.ty
    let c ← FCond.ofCode x.imm
    need (!x.s && !x.i && !x.v)
    return .cmpkFcmp ⟨wW w, g, t, c, x.f, kd, wSa w, wSb w⟩
  | 2 =>
    let t ← FTy.ofCode x.ty
    need (x.md == 0 && bits w 8 4 == 0)
    return .cmpkFclass ⟨wW w, g, t, kd, wSa w, BitVec.ofNat 10 (bits w 6 2 * 256 + x.imm)⟩
  | _ => none
/-- PRK (R87, R191). -/
def decPrk (w : Nat) : Option Instr := do
  let kd := BitVec.ofNat 2 (bits w 18 2)
  need (bits w 20 4 == 0)
  if wFn w == 8 then
    match bits w 6 6 with
    | 0 => need (bits w 12 6 == 0); return .prkQset ⟨wW w, kd, .clr⟩
    | 1 => need (bits w 12 6 == 0); return .prkQset ⟨wW w, kd, .set⟩
    | 2 => return .prkQset ⟨wW w, kd, .nz (wSa w)⟩
    | _ => none
  else
    let f ← QFn.ofCode (wFn w)
    need (bits w 14 4 == 0 && bits w 8 4 == 0)
    return .prkQop ⟨wW w, f, kd, BitVec.ofNat 2 (bits w 12 2), BitVec.ofNat 2 (bits w 6 2)⟩
def decSld (w : Nat) : Option Instr :=
  (SldSz.ofCode (bits w 9 3)).map fun z => .sld ⟨wW w, wSd w, wSa w, z, BitVec.ofNat 9 (bits w 0 9)⟩
def decSst (w : Nat) : Option Instr :=
  (SstSz.ofCode (bits w 9 3)).map fun z => .sst ⟨wW w, wSd w, wSa w, z, BitVec.ofNat 9 (bits w 0 9)⟩
def decSatom (w e : Nat) : Option Instr := do
  let x := Ext.of e
  let g ← x.guardK
  let k ← atomKind (wFn w) x.ty
  let sc ← x.scope
  need (x.rnd < 2 && x.md == 0)
  return .satom ⟨wW w, g, x.rnd == 1, k, sc, wSd w, wSa w, wSb w, BitVec.ofNat 8 x.imm⟩
/-- ACQ (R252). -/
def decAcq (w : Nat) : Option Instr := do
  let sc ← Scope.ofCode (bits w 21 3) (bits w 17 4)
  if bitAt w 16 then
    need (bits w 0 16 == 0)
    return .acqAll ⟨wW w, sc⟩
  else return .acq ⟨wW w, sc, BitVec.ofNat 16 (bits w 0 16)⟩
/-- REL (R252). -/
def decRel (w : Nat) : Option Instr := do
  let sc ← Scope.ofCode (bits w 21 3) (bits w 17 4)
  need (bits w 0 17 == 0)
  return .rel ⟨wW w, sc⟩
/-- CLN, INV, CIV (R255). -/
def decMnt (w e : Nat) : Option Instr := do
  let x := Ext.of e
  let g ← x.guardK
  let l ← MntLevel.ofCode x.rnd
  need (bits w 18 6 == 0 && x.ty == 0 && x.md == 0 && x.vc == 0 && x.imm == 0)
  let o : MntOp := ⟨wW w, g, l, wSa w, wSb w⟩
  match wFn w with
  | 0 => return .cln o
  | 1 => return .inv o
  | 2 => return .civ o
  | _ => none
def decRgn (w : Nat) : Option Instr :=
  if wFn w == 0 && bits w 22 2 == 0 then some (.rgn ⟨wW w, BitVec.ofNat 4 (bits w 18 4), wSa w, wSb w⟩) else none
def decBrx (w : Nat) : Option Instr :=
  if bits w 18 6 != 0 || bits w 6 6 != 0 then none else
  match wFn w with
  | 0 => some (.braRegister ⟨wW w, wSa w⟩)
  | 1 => some (.callRegister ⟨wW w, wSa w⟩)
  | 2 => some (.ret ⟨wW w, wSa w⟩)
  | _ => none
/-- A major of format SC without operands: code24 is zero. -/
def decPlain (mk : WOp → Instr) (w : Nat) : Option Instr :=
  if bits w 0 24 == 0 then some (mk ⟨wW w⟩) else none
/-- SETW (R87, R176). -/
def decSetw (w e : Nat) : Option Instr := do
  need (bits w 18 6 == 0 && bits w 6 6 == 0)
  let immOk := 1 ≤ e && e ≤ 128 && bits w 12 6 == 0
  match wFn w with
  | 0 => need immOk; return .setwImmediate ⟨wW w, BitVec.ofNat 32 e⟩
  | 1 => need immOk; return .setwRImmediate ⟨wW w, BitVec.ofNat 32 e⟩
  | 2 => need (e == 0); return .setwRegister ⟨wW w, wSa w⟩
  | 3 => need (e == 0); return .setwRRegister ⟨wW w, wSa w⟩
  | _ => none
/-- BAR (R356). -/
def decBar (w : Nat) : Option Instr :=
  if bits w 12 12 != 0 || bits w 10 2 != 0 then none else
  let o : BarOp := ⟨wW w, BitVec.ofNat 4 (bits w 6 4)⟩
  match wFn w with
  | 0 => some (.bar o)
  | 1 => some (.barArr o)
  | 2 => some (.barWait o)
  | _ => none
/-- MBAR (R362). -/
def decMbar (w e : Nat) : Option Instr := do
  let x := Ext.of e
  let g ← x.guardK
  need (x.rnd == 0 && x.ty == 0 && x.md == 0 && x.imm == 0)
  match wFn w with
  | 0 => need (bits w 18 6 == 0 && x.vc == 0); return .mbarInit ⟨wW w, g, wSa w, wSb w⟩
  | 1 => need (bits w 18 6 == 0 && x.vc == 0); return .mbarArm ⟨wW w, g, wSa w, wSb w⟩
  | 2 =>
    let sc ← x.scope
    need (bits w 18 6 == 0 && bits w 6 6 == 0)
    return .mbarArr ⟨wW w, g, sc, wSa w⟩
  | 3 =>
    let sc ← x.scope
    return .mbarWait ⟨wW w, g, sc, wSd w, wSa w, wSb w⟩
  | _ => none
/-- BWAIT (R251): sd and sb are zero, and so is sa where function 0 assigns it nothing (R8; log 9). -/
def decBwait (w e : Nat) : Option Instr := do
  need (bits w 18 6 == 0 && bits w 6 6 == 0)
  match wFn w with
  | 0 => need (bits w 12 6 == 0 && e < 65536); return .bwaitImmediate ⟨wW w, BitVec.ofNat 16 e⟩
  | 1 => need (e == 0); return .bwaitRegister ⟨wW w, wSa w⟩
  | _ => none
/-- ECPY, EPUB, ECOLL (R256). -/
def decEngine (mk : EngineOp → Instr) (w e : Nat) : Option Instr := do
  let x := Ext.of e
  let g ← x.guardK
  let sc ← x.wideScope
  need (bits w 0 12 == 0 && x.rnd == 0 && x.ty == 0 && x.md == 0 && x.imm == 0)
  return mk ⟨wW w, g, sc, wSd w, wSa w⟩
/-- SPAWN (R300). -/
def decSpawn (w e : Nat) : Option Instr := do
  let x := Ext.of e
  let g ← x.guardK
  need (bits w 18 6 == 0 && wFn w == 0 && x.rnd == 0 && x.ty == 0 && x.md == 0 && x.vc < 64 && x.imm == 0)
  return .spawn ⟨wW w, g, wSa w, wSb w, BitVec.ofNat 6 x.vc⟩
/-- ENQ, DEQ (R291). -/
def decQueue (mk : QueueOp → Instr) (w e : Nat) : Option Instr := do
  let x := Ext.of e
  let g ← x.guardK
  let sc ← x.scope
  need (wFn w == 0 && x.rnd == 0 && x.ty == 0 && x.md == 0 && 1 ≤ x.imm && x.imm ≤ 8)
  return mk ⟨wW w, g, sc, wSd w, wSa w, wSb w, BitVec.ofNat 3 (x.imm - 1)⟩
/-- CDEC, CINC (R351). -/
def decCount (mk : CountOp → Instr) (w e : Nat) : Option Instr := do
  let x := Ext.of e
  let g ← x.guardK
  let sc ← x.scope
  need (wFn w == 0 && x.rnd < 2 && x.ty == 0 && x.md == 0 && x.imm == 0)
  return mk ⟨wW w, g, x.rnd == 1, sc, wSd w, wSa w, wSb w⟩
/-- TDEF (R342). -/
def decTdef (w e : Nat) : Option Instr := do
  let x := Ext.of e
  let g ← x.guardK
  need (wFn w == 0 && x.rnd == 0 && x.ty == 0 && x.md == 0 && x.vc == 0 && x.imm == 0)
  return .tdef ⟨wW w, g, wSd w, wSa w, wSb w⟩
/-- TSEAL, TDROP, THOLD, TFREE (R342). -/
def decTile (mk : SUn → Instr) (w : Nat) : Option Instr :=
  if bits w 0 12 == 0 then some (mk ⟨wW w, wSd w, wSa w⟩) else none
/-- TRAP (R311). -/
def decTrap (w : Nat) : Option Instr :=
  if bits w 16 7 != 0 then none else
  let o : TrapOp := ⟨wW w, BitVec.ofNat 16 (bits w 0 16)⟩
  some (if bitAt w 23 then .trapBreak o else .trap o)
def decCsrr (w : Nat) : Option Instr :=
  if wFn w == 0 then some (.csrr ⟨wW w, wSd w, BitVec.ofNat 12 (bits w 6 12)⟩) else none
def decCsrw (w : Nat) : Option Instr :=
  let o : CsrOp := ⟨wW w, wSd w, BitVec.ofNat 12 (bits w 6 12)⟩
  match wFn w with
  | 0 => some (.csrw o)
  | 1 => some (.csrwSet o)
  | 2 => some (.csrwClr o)
  | _ => none
def decSvc (w : Nat) : Option Instr :=
  if bits w 16 8 == 0 then some (.svc ⟨wW w, BitVec.ofNat 16 (bits w 0 16)⟩) else none
/-- TLBI (R330): the kind stands in the sd field. -/
def decTlbi (w : Nat) : Option Instr :=
  if wFn w != 0 then none else
  match bits w 18 6 with
  | 0 => some (.tlbiPage ⟨wW w, wSa w, wSb w⟩)
  | 1 => if bits w 6 6 == 0 then some (.tlbiAsid ⟨wW w, wSa w⟩) else none
  | 2 => if bits w 6 12 == 0 then some (.tlbiAll ⟨wW w⟩) else none
  | _ => none
def decCtxi (w : Nat) : Option Instr :=
  if bits w 18 6 == 0 && bits w 0 12 == 0 then some (.ctxi ⟨wW w, wSa w⟩) else none
/-- KEYSET (R336). -/
def decKeyset (w e : Nat) : Option Instr := do
  let x := Ext.of e
  let g ← x.guardK
  need (wFn w == 0 && x.rnd == 0 && x.ty == 0 && x.vc == 0 && x.imm == 0)
  match x.md with
  | 0 => return .keysetLoad ⟨wW w, g, wSd w, wSa w, wSb w⟩
  | 1 => need (bits w 6 6 == 0); return .keysetGen ⟨wW w, g, wSd w, wSa w⟩
  | 2 => need (bits w 6 6 == 0); return .keysetErase ⟨wW w, g, wSd w, wSa w⟩
  | _ => none

/-- The uniform set by major (R82). -/
def decodeUniform (w e : Nat) : Option Instr :=
  match wMajor w with
  | 0x00 => decIop w
  | 0x01 => decIopi w
  | 0x02 => decIopw w e
  | 0x03 => decFop w e
  | 0x04 => decCmpk w e
  | 0x05 => decPrk w
  | 0x08 => decSld w
  | 0x09 => decSst w
  | 0x0A => decSatom w e
  | 0x0B => decAcq w
  | 0x0C => decRel w
  | 0x0D => decMnt w e
  | 0x0E => decRgn w
  | 0x10 => some (.bra ⟨wW w, BitVec.ofNat 24 (bits w 0 24)⟩)
  | 0x11 => some (.call ⟨wW w, BitVec.ofNat 24 (bits w 0 24)⟩)
  | 0x12 => some (.brc ⟨wW w, BitVec.ofNat 2 (bits w 22 2), bitAt w 21, BitVec.ofNat 21 (bits w 0 21)⟩)
  | 0x13 => decBrx w
  | 0x14 => decPlain .exit w
  | 0x15 => decPlain .yieldSlot w
  | 0x16 => decSetw w e
  | 0x17 => decPlain .endw w
  | 0x18 => decBar w
  | 0x19 => decPlain .gbar w
  | 0x1A => decMbar w e
  | 0x1B => decPlain .bclose w
  | 0x1C => decBwait w e
  | 0x20 => decEngine .ecpy w e
  | 0x21 => decEngine .epub w e
  | 0x22 => decEngine .ecoll w e
  | 0x23 => decSpawn w e
  | 0x24 => decQueue .enq w e
  | 0x25 => decQueue .deq w e
  | 0x26 => decCount .cdec w e
  | 0x27 => decCount .cinc w e
  | 0x28 => decTdef w e
  | 0x29 => decTile .tseal w
  | 0x2A => decTile .tdrop w
  | 0x2B => decTile .thold w
  | 0x2C => decTile .tfree w
  | 0x2D => decPlain .tfence w
  | 0x2E => decTrap w
  | 0x2F => decPlain .rte w
  | 0x30 => decCsrr w
  | 0x31 => decCsrw w
  | 0x32 => decSvc w
  | 0x33 => decPlain .eret w
  | 0x34 => decTlbi w
  | 0x35 => decCtxi w
  | 0x36 => decKeyset w e
  | 0x37 => decPlain .halt w
  | _ => none

/-- The instruction of word 0 `w` and extension word `e` (ignored by a one-word major); `none` is ILLEGAL (R67). -/
def decode (w e : Nat) : Option Instr := if wSet w then decodeUniform w e else decodeLane w e

/-! ### Lengths and the checks of word 0 alone -/

/-- Words of a lane major; `none` is a reserved cell (R79, R80). -/
def laneLength (major : Nat) : Option Nat :=
  match major with
  | 0x00 => none
  | 0x01 | 0x02 | 0x04 | 0x06 | 0x07 | 0x2B => some 1
  | _ => some 2

/-- Words of a uniform major; `none` is a reserved cell (R79, R82). -/
def uniformLength (major : Nat) : Option Nat :=
  match major with
  | 0x02 | 0x03 | 0x04 | 0x0A | 0x0D | 0x16 | 0x1A | 0x1C | 0x20 | 0x21 | 0x22 | 0x23 | 0x24 | 0x25 | 0x26 | 0x27
  | 0x28 | 0x36 => some 2
  | 0x00 | 0x01 | 0x05 | 0x08 | 0x09 | 0x0B | 0x0C | 0x0E | 0x10 | 0x11 | 0x12 | 0x13 | 0x14 | 0x15 | 0x17 | 0x18
  | 0x19 | 0x1B | 0x29 | 0x2A | 0x2B | 0x2C | 0x2D | 0x2E | 0x2F | 0x30 | 0x31 | 0x32 | 0x33 | 0x34 | 0x35 | 0x37 => some 1
  | _ => none

/-- The cell's length in words; `none` is reserved (R55, R79). -/
def lengthOf (w : Nat) : Option Nat := if wSet w then uniformLength (wMajor w) else laneLength (wMajor w)

/-- Registers of the source of a CVT as far as its type, which word 0 holds, fixes them (R171): a pair of 64 bits, the elements of a
block (R174). -/
def cvtSrcRegs (s : Nat) : Nat :=
  if s = 3 ∨ s = 7 ∨ s = 11 then 2 else if s = 12 then 8 else if s = 13 then 4 else 1

/-- Word 0 of a two-word lane major breaks no rule that it decides alone: reserved codes, fields that must be zero, and
register indices below the declared count `n`, with the alignment that no field of E fixes (R88). R88 does not say whether a field
whose role E selects is a register index of word 0: vb of a form L3, which I makes an immediate, and va of MDRN, which has to be 0 in
a peer add, are held against the count here, before E is fetched; vd of VOTE, a register only under D, is not (DESIGN CHOICE,
log 48). -/
def laneWord0Ok (n w : Nat) : Bool :=
  let vd := bits w 16 8
  let va := bits w 8 8
  let vb := bits w 0 8
  let lm := va < n && (bits w 0 2 != 0 || va == 0) && (bits w 0 2 != 3 || va % 2 == 0 && va + 1 < n)
  match wMajor w with
  | 0x03 => vd < n && bits w 0 16 == 0
  | 0x0D | 0x20 | 0x21 | 0x22 | 0x23 | 0x24 | 0x25 | 0x26 | 0x29 | 0x2E | 0x2F => vd < n && va < n && vb == 0
  | 0x05 => vd % 2 == 0 && vd + 1 < n && va % 2 == 0 && va + 1 < n && vb < n
  | 0x0E => va < n && vb < n && wCond w < 6
  | 0x15 => va < n && vb < n && wCond w < 12
  | 0x16 => va < n && vb == 0 && wCond w < 4
  | 0x17 => vd % 8 == 0 && vd + 8 ≤ n && va < n && bits w 0 2 == 2
  | 0x32 | 0x33 => vd < n && va < n && bits w 0 2 == 2
  | 0x30 | 0x31 | 0x34 | 0x36 | 0x37 | 0x38 | 0x39 | 0x3A => vd < n && lm
  | 0x35 => vd == 0 && lm
  | 0x1E | 0x1F => vd < n && va < n
  | 0x27 => vd < n && va < n && bits w 4 4 == 0 && bits w 0 4 < 14 && va % cvtSrcRegs (bits w 0 4) == 0 && va + cvtSrcRegs (bits w 0 4) ≤ n
  | 0x2A => va < n && vb == 0 && wCond w < 4 && (2 ≤ wCond w || va == 0)
  | 0x2D => bits w 11 5 == 0 && vb == 0
  | 0x3B => vd % 8 == 0 && vd + 8 ≤ n && bits w 0 2 == 0
  | 0x3C => vd % 16 == 0 && vd + 16 ≤ n && bits w 0 2 == 0
  | 0x3D => vd < n && bits w 0 4 == 0
  | 0x3E => vd < n && bits w 0 2 == 0
  | 0x3F => bits w 10 14 == 0 && bits w 0 4 == 0
  | _ => vd < n && va < n && vb < n

/-- The same for a two-word uniform major (R88). -/
def uniformWord0Ok (w : Nat) : Bool :=
  let sd := bits w 18 6
  let sa := bits w 12 6
  let sb := bits w 6 6
  let fn := wFn w
  match wMajor w with
  | 0x02 => sb == 0 && (fn < 14 && fn != 7 || fn == 16 && sa == 0)
  | 0x03 => fn < 12 && (!(6 ≤ fn && fn ≤ 10) || sb == 0) && (fn != 11 || sb < 12)
  | 0x04 => fn < 3 && sd < 4 && (fn != 2 || sb < 4)
  | 0x0A => fn < 9
  | 0x0D => fn < 3 && sd == 0
  | 0x16 => fn < 4 && sd == 0 && sb == 0 && (2 ≤ fn || sa == 0)
  | 0x1A => fn < 4 && (fn == 3 || sd == 0) && (fn != 2 || sb == 0)
  | 0x1C => fn < 2 && sd == 0 && sb == 0 && (fn == 1 || sa == 0)
  | 0x20 | 0x21 | 0x22 => fn == 0 && sb == 0
  | 0x23 => fn == 0 && sd == 0
  | _ => fn == 0

/-- `word0_fields_illegal` of R88, negated, for a two-word cell. -/
def word0Ok (n w : Nat) : Bool := if wSet w then uniformWord0Ok w else laneWord0Ok n w

/-! ### Register rules (R63) -/

/-- One lane register below the count. -/
def rOne (n : Nat) (r : BitVec 8) : Bool := r.toNat < n
/-- An even pair below the count. -/
def rPair (n : Nat) (r : BitVec 8) : Bool := r.toNat % 2 == 0 && r.toNat + 1 < n
/-- `k` registers from a multiple of `a`. -/
def rGroup (n : Nat) (r : BitVec 8) (k a : Nat) : Bool := r.toNat % a == 0 && r.toNat + k ≤ n
/-- The register or pair of a value of `width` bits. -/
def rVal (n width : Nat) (r : BitVec 8) : Bool := if width == 64 then rPair n r else rOne n r
def Src.regOk (n width : Nat) : Src → Bool
  | .reg v => rVal n width v
  | .imm _ => true
def BfTy.width : BfTy → Nat
  | .i32 | .n32 => 32
  | .i64 | .n64 => 64
def BitField.regOk (n : Nat) : BitField → Bool
  | .reg v => rOne n v
  | .imm _ _ => true
def Addr.regOk (n : Nat) (a : Addr) : Bool :=
  match a.idx with
  | .none => true
  | .zext v | .sext v => rOne n v
  | .pair v => rPair n v
/-- Registers of `c` elements (R237). -/
def elemRegs (t : ElemTy) (c : Count) : Nat := if t.width == 64 then 2 * c.num else c.num
def elemRegOk (n : Nat) (t : ElemTy) (c : Count) (vt : BitVec 8) : Bool :=
  rGroup n vt (elemRegs t c) (elemRegs t c)
/-- `r` lies outside the `k` registers from `b`. -/
def rOutside (r b : BitVec 8) (k : Nat) : Bool := r.toNat < b.toNat || b.toNat + k ≤ r.toNat
def BTy.elemRegs : BTy → Nat
  | .bq8 => 8
  | .bq4 => 4
def BSide.regs : BSide → Nat
  | .f32 => 32
  | .f16 | .bf16 => 16
def AtomKind.wide : AtomKind → Bool
  | .int _ .i64 | .int _ .n64 | .fadd64 => true
  | .int _ .i32 | .int _ .n32 | .fadd32 => false
def AtomKind.isCas : AtomKind → Bool
  | .int .cas _ => true
  | _ => false
def AtomKind.regs (k : AtomKind) : Nat := (if k.wide then 2 else 1) * (if k.isCas then 2 else 1)
/-- Registers of one MMAS or SPK metadata group (R267). -/
def metaRegs (t : SpTy) (p : SpPat) : Nat :=
  match t, p with
  | .bf16, .sp24 | .f16, .sp24 => 2
  | .bf16, .sp48 | .f16, .sp48 => 3
  | .i8, .sp24 | .bq8, .sp24 => 4
  | .i8, .sp48 | .bq8, .sp48 => 6
  | .bq4, .sp24 => 8
  | .bq4, .sp48 => 12
/-- The smallest power of two not below the group's size (R267). -/
def metaAlign (t : SpTy) (p : SpPat) : Nat :=
  match metaRegs t p with
  | 2 => 2
  | 3 | 4 => 4
  | 6 | 8 => 8
  | _ => 16
def SpTy.block : SpTy → Bool
  | .bq8 | .bq4 => true
  | .bf16 | .f16 | .i8 => false
def MatTy.block : MatTy → Bool
  | .bq8 | .bq4 => true
  | .f64 | .f32 | .bf16 | .f16 | .i8 => false
/-- Bits of one element of a drain's destination (R278). -/
def DrainTy.bits : DrainTy → Nat
  | .f64 => 64
  | .f32 | .f32of64 _ | .f32ofi32 _ | .i32 => 32
  | .bf16 _ | .f16 _ => 16
  | .bq8 _ => 8
  | .bq4 _ => 4
/-- The registers of a drain (R278): the group and, for block types, the exponent register outside it. -/
def drainRegsOk (n : Nat) (dt : DrainTy) (st : MatTy) (lc : Nat) (va : BitVec 8) : Bool :=
  let k := 2 ^ lc * st.n * dt.bits / 32
  match dt with
  | .bq8 vc | .bq4 vc => rGroup n va 8 8 && rOne n vc && rOutside vc va 8
  | _ => rGroup n va k (if k ≤ 8 then k else 8)
def RowTy.regOk (n : Nat) (vt : BitVec 8) (sb : BitVec 6) : RowTy → Bool
  | .bq8 vc | .bq4 vc => rOne n vc && rOutside vc vt 8 && sb.toNat % 2 == 0
  | _ => true
def CvtPair.srcWidth : CvtPair → Nat
  | .intInt s _ _ _ | .intFlt s _ _ _ => s.width
  | .fltFlt s _ _ _ | .fltInt s _ _ _ => s.width
def CvtPair.dstWidth : CvtPair → Nat
  | .intInt _ d _ _ | .fltInt _ d _ _ => d.width
  | .intFlt _ d _ _ | .fltFlt _ d _ _ => d.width
def RedFn.width : RedFn → Nat
  | .int t _ => t.width
  | .fadd t _ _ | .fmin t _ | .fmax t _ => t.width
def VoteFn.regOk (n : Nat) : VoteFn → Bool
  | .anyV v | .allV v | .ballot v | .count v => rOne n v
  | .anyQ _ | .allQ _ => true
def QsetFn.regOk (n : Nat) : QsetFn → Bool
  | .clr | .set => true
  | .nz t v | .bit t v _ => rVal n t.width v

/-- Every lane-register operand is below the declared count `n` and aligned (R63). -/
def Instr.regsOk (n : Nat) : Instr → Bool
  | .mov o => rOne n o.vd && rOne n o.va
  | .specialMov o => rOne n o.vd
  | .movi o => rOne n o.vd
  | .moviw o => rOne n o.vd
  | .iaddi o => rOne n o.vd && rOne n o.va
  | .lea o => rPair n o.vd && rPair n o.va && rOne n o.vb
  | .iadd o | .isub o => rVal n o.t.width o.vd && rVal n o.t.width o.va && o.b.regOk n o.t.width
  | .imul o => rVal n o.t.width o.vd && rVal n o.t.width o.va && o.b.regOk n o.t.width
  | .imad o => rVal n o.t.width o.vd && rVal n o.t.width o.va && o.b.regOk n o.t.width && rVal n o.t.width o.vc
  | .imin o | .imax o | .and o | .or o | .xor o =>
    rVal n o.t.width o.vd && rVal n o.t.width o.va && o.b.regOk n o.t.width
  | .shl o | .shr o | .sha o => rVal n o.t.width o.vd && rVal n o.t.width o.va && o.b.regOk n 32
  | .iabs o => rVal n o.t.width o.vd && rVal n o.t.width o.va
  | .popc o | .clz o => rOne n o.vd && rVal n o.t.width o.va
  | .bfx o => rVal n o.t.width o.vd && rVal n o.t.width o.va && o.f.regOk n
  | .bfi o => rVal n o.t.width o.vd && rVal n o.t.width o.va && o.f.regOk n && rVal n o.t.width o.vc
  | .icmp o => rVal n o.t.width o.va && o.b.regOk n o.t.width
  | .fcmp o => rVal n o.t.width o.va && rVal n o.t.width o.vb
  | .fclass o => rVal n o.t.width o.va
  | .qset o => o.fn.regOk n
  | .sel o => rVal n (if o.wide then 64 else 32) o.vd && rVal n (if o.wide then 64 else 32) o.va &&
      o.b.regOk n (if o.wide then 64 else 32)
  | .fadd o | .fsub o | .fmul o => rVal n o.t.width o.vd && rVal n o.t.width o.va && rVal n o.t.width o.vb
  | .ffma o => rVal n o.t.width o.vd && rVal n o.t.width o.va && rVal n o.t.width o.vb && rVal n o.t.width o.vc
  | .fmin o | .fmax o => rVal n o.t.width o.vd && rVal n o.t.width o.va && rVal n o.t.width o.vb
  | .frcp o | .fsqrt o | .frsq o | .fexp2 o | .flog2 o => rVal n o.t.width o.vd && rVal n o.t.width o.va
  | .cvt o => match o.kind with
    | .one p => rVal n p.srcWidth o.va && rVal n p.dstWidth o.vd
    | .quant s d vc => rGroup n o.va s.regs s.regs && rGroup n o.vd d.elemRegs d.elemRegs && rOne n vc &&
        rOutside vc o.vd d.elemRegs
    | .dequant s d _ vc => rGroup n o.va s.elemRegs s.elemRegs && rGroup n o.vd d.regs d.regs && rOne n vc
  | .pack o => rOne n o.vd && rOne n o.va && rOne n o.vb
  | .unpk o => rOne n o.vd && rOne n o.va
  | .shfl o => rVal n (if o.wide then 64 else 32) o.vd && rVal n (if o.wide then 64 else 32) o.va && o.b.regOk n 32
  | .vote o => o.fn.regOk n
  | .red o => rVal n o.fn.width o.vd && rVal n o.fn.width o.va
  | .scan o => rVal n o.fn.width o.vd && rVal n o.fn.width o.va
  | .ldgRow o => rGroup n o.vt 8 8 && rOne n o.x.va && o.t.regOk n o.vt o.x.sb
  | .ld o | .st o | .lda o | .sta o | .ldaTile o | .staTile o => elemRegOk n o.t o.c o.vt && o.a.regOk n
  | .ldl o | .stl o => elemRegOk n o.t o.c o.vt && o.a.regOk n
  | .ldg o | .stg o => elemRegOk n o.t .x1 o.vt && rOne n o.x.va
  | .atom o => rGroup n o.vt o.kind.regs o.kind.regs && o.a.regOk n
  | .pft o => o.a.regOk n
  | .fill o => rOne n o.vt && o.a.regOk n && (match o.mbar with | some v => rOne n v | none => true)
  | .mma o => rGroup n o.va (if o.t.block then 9 else 8) 8
  | .mmas o => rGroup n o.va (if o.t.block then 18 else 16) 16 && rGroup n o.vm (metaRegs o.t o.pat) (metaAlign o.t o.pat)
  | .spk o => rGroup n o.vm (metaRegs o.t o.pat) (metaAlign o.t o.pat)
  | .mdrn o => drainRegsOk n o.dt o.st o.lc.toNat o.va
  | .mdrnMem o => rPair n o.va
  | _ => true

/-! ### The encoder -/

def nb (b : Bool) : Nat := if b then 1 else 0

/-- Word 0 of the lane set: major, W and a 24-bit body (R54). -/
def encL (w : Bool) (major body : Nat) : Nat := body + major * 2 ^ 24 + nb w * 2 ^ 30
/-- Word 0 of the uniform set (R54). -/
def encS (w : Bool) (major body : Nat) : Nat := body + major * 2 ^ 24 + nb w * 2 ^ 30 + 2 ^ 31
/-- Format L3 (R56). -/
def bodyL3 (vd va vb : Nat) : Nat := vb + va * 2 ^ 8 + vd * 2 ^ 16
/-- Format LC (R56). -/
def bodyLC (qd cond va vb : Nat) : Nat := vb + va * 2 ^ 8 + cond * 2 ^ 16 + qd * 2 ^ 21
/-- Format LM (R56). -/
def bodyLM (vt va sb am : Nat) : Nat := am + sb * 2 ^ 2 + va * 2 ^ 8 + vt * 2 ^ 16
/-- Format LX (R56). -/
def bodyLX (va sw sc fl : Nat) : Nat := fl + sc * 2 ^ 4 + sw * 2 ^ 10 + va * 2 ^ 16
/-- Formats S3 and S3E (R57). -/
def bodyS3 (sd sa sb fn : Nat) : Nat := fn + sb * 2 ^ 6 + sa * 2 ^ 12 + sd * 2 ^ 18
/-- The guard bits [31:27] of E (R58). -/
def gq : Option GuardQ → Nat
  | none => 0
  | some g => (g.q.toNat + nb g.neg * 8 + 16) * 2 ^ 27
def gk : Option GuardK → Nat
  | none => 0
  | some g => (g.k.toNat + nb g.neg * 8 + 16) * 2 ^ 27
/-- E without its guard (R58). -/
def ext (rnd ty md vc imm : Nat) : Nat := imm + vc * 2 ^ 8 + md * 2 ^ 16 + ty * 2 ^ 20 + rnd * 2 ^ 24
/-- E[15:8] of a scope (R62). -/
def scopeBits (s : Scope) : Nat := s.hop * 2 + s.code * 32
def WideScope.toScope : WideScope → Scope
  | .pkg => .pkg
  | .sys n => .sys n
def Src.vb : Src → Nat
  | .reg v => v.toNat
  | .imm _ => 0
def Src.isImm : Src → Bool
  | .reg _ => false
  | .imm _ => true
def Src.imm8 : Src → Nat
  | .reg _ => 0
  | .imm i => i.toNat
/-- The modifier bits F, S, I, V (R152). -/
def mdBits (f s i v : Bool) : Nat := nb v + nb i * 2 + nb s * 4 + nb f * 8
def Addr.am (a : Addr) : Nat :=
  match a.idx with
  | .none => 0
  | .zext _ => 1
  | .sext _ => 2
  | .pair _ => 3
def Addr.va (a : Addr) : Nat :=
  match a.idx with
  | .none => 0
  | .zext v | .sext v | .pair v => v.toNat
def CvtPair.src : CvtPair → Nat
  | .intInt s _ _ _ | .intFlt s _ _ _ => s.code
  | .fltFlt s _ _ _ | .fltInt s _ _ _ => s.code
def CvtPair.dst : CvtPair → Nat
  | .intInt _ d _ _ | .fltInt _ d _ _ => d.code
  | .intFlt _ d _ _ | .fltFlt _ d _ _ => d.code
def CvtPair.rnd : CvtPair → Nat
  | .intInt _ _ m _ | .intFlt _ _ m _ | .fltFlt _ _ m _ | .fltInt _ _ m _ => m.code
def CvtPair.md : CvtPair → Nat
  | .intInt _ _ _ s => mdBits false s false false
  | .intFlt _ _ _ f | .fltFlt _ _ _ f | .fltInt _ _ _ f => mdBits f false false false
def AtomKind.op : AtomKind → Nat
  | .int f _ => f.code
  | .fadd32 | .fadd64 => 8
def AtomKind.ty : AtomKind → Nat
  | .int _ t => t.code
  | .fadd32 => 10
  | .fadd64 => 11
def RedFn.ty : RedFn → Nat
  | .int t _ => t.code
  | .fadd t _ _ | .fmin t _ | .fmax t _ => t.code
def RedFn.op : RedFn → Nat
  | .int _ f => f.code
  | .fadd .. => 0
  | .fmin .. => 1
  | .fmax .. => 2
def RedFn.rnd : RedFn → Nat
  | .fadd _ m _ => m.code
  | .int .. | .fmin .. | .fmax .. => 0
def RedFn.ftz : RedFn → Bool
  | .int .. => false
  | .fadd _ _ z | .fmin _ z | .fmax _ z => z
def VoteFn.dest : VoteFn → Nat
  | .anyV v | .allV v | .ballot v | .count v => v.toNat
  | .anyQ q | .allQ q => q.toNat
def VoteFn.op : VoteFn → Nat
  | .anyV _ | .anyQ _ => 0
  | .allV _ | .allQ _ => 1
  | .ballot _ => 2
  | .count _ => 3
def VoteFn.d : VoteFn → Bool
  | .anyQ _ | .allQ _ => true
  | .anyV _ | .allV _ | .ballot _ | .count _ => false
def RowTy.code : RowTy → Nat
  | .f64 => 11 | .f32 => 10 | .bf16 => 9 | .f16 => 8 | .i8 => 0 | .bq8 _ => 12 | .bq4 _ => 13
def RowTy.vc : RowTy → Nat
  | .bq8 v | .bq4 v => v.toNat
  | _ => 0
def DrainTy.code : DrainTy → Nat
  | .f64 => 11 | .f32 | .f32of64 _ | .f32ofi32 _ => 10 | .bf16 _ => 9 | .f16 _ => 8 | .i32 => 2 | .bq8 _ => 12 | .bq4 _ => 13
def DrainTy.rnd : DrainTy → Nat
  | .f32of64 m | .f32ofi32 m | .bf16 m | .f16 m => m.code
  | .f64 | .f32 | .i32 | .bq8 _ | .bq4 _ => 0
def DrainTy.vc : DrainTy → Nat
  | .bq8 v | .bq4 v => v.toNat
  | _ => 0
def SpPat.bit : SpPat → Nat
  | .sp24 => 0
  | .sp48 => 1
def SpecialMovOp.sel8 (o : SpecialMovOp) : Nat := o.sel.code

def encIntSat (mj : Nat) (o : IntSatOp) : Nat × Option Nat :=
  (encL o.w mj (bodyL3 o.vd.toNat o.va.toNat o.b.vb),
   some (gq o.g + ext 0 o.t.code (mdBits false o.sat o.b.isImm false) 0 o.b.imm8))
def encIntBin (mj : Nat) (v : Bool) (o : IntBinOp) : Nat × Option Nat :=
  (encL o.w mj (bodyL3 o.vd.toNat o.va.toNat o.b.vb),
   some (gq o.g + ext 0 o.t.code (mdBits false false o.b.isImm v) 0 o.b.imm8))
def encIntCount (mj : Nat) (o : IntCountOp) : Nat × Option Nat :=
  (encL o.w mj (bodyL3 o.vd.toNat o.va.toNat 0), some (gq o.g + ext 0 o.t.code 0 0 0))
def encFBin (mj : Nat) (o : FBinOp) : Nat × Option Nat :=
  (encL o.w mj (bodyL3 o.vd.toNat o.va.toNat o.vb.toNat),
   some (gq o.g + ext o.m.code o.t.code (mdBits o.ftz false false false) 0 0))
def encFSel (v : Bool) (o : FSelOp) : Nat × Option Nat :=
  (encL o.w 0x14 (bodyL3 o.vd.toNat o.va.toNat o.vb.toNat),
   some (gq o.g + ext 0 o.t.code (mdBits o.ftz false false v) 0 0))
def encFUn (mj : Nat) (o : FUnOp) : Nat × Option Nat :=
  (encL o.w mj (bodyL3 o.vd.toNat o.va.toNat 0),
   some (gq o.g + ext o.m.code o.t.code (mdBits o.ftz false false false) 0 0))
def encMem (mj : Nat) (tile : Bool) (o : MemOp) : Nat × Option Nat :=
  (encL o.w mj (bodyLM o.vt.toNat o.a.va o.a.sb.toNat o.a.am),
   some (gq o.g + ext 0 o.t.code (o.c.code + nb tile * 8) 0 o.a.disp.toNat))
def encLs (mj : Nat) (o : LsOp) : Nat × Option Nat :=
  (encL o.w mj (bodyLM o.vt.toNat o.a.va o.a.sb.toNat o.a.am),
   some (gq o.g + ext 0 o.t.code (o.c.code + nb o.pool * 4) 0 o.a.disp.toNat))
def gMd (x : GIndex) : Nat := nb x.signed * 2 + x.width.code * 4
def encGather (mj : Nat) (o : GatherOp) : Nat × Option Nat :=
  (encL o.w mj (bodyLM o.vt.toNat o.x.va.toNat o.x.sb.toNat 2),
   some (gq o.g + ext o.x.sh.toNat o.t.code (gMd o.x) 0 o.x.disp.toNat))
def encS3 (mj fn : Nat) (o : SBin) : Nat × Option Nat := (encS o.w mj (bodyS3 o.sd.toNat o.sa.toNat o.sb.toNat fn), none)
def encS2 (mj fn : Nat) (o : SUn) : Nat × Option Nat := (encS o.w mj (bodyS3 o.sd.toNat o.sa.toNat 0 fn), none)
def encSI (fn : Nat) (o : SImm) : Nat × Option Nat := (encS o.w 1 (bodyS3 o.sd.toNat o.sa.toNat o.imm.toNat fn), none)
def encSW (fn : Nat) (o : SWide) : Nat × Option Nat :=
  (encS o.w 2 (bodyS3 o.sd.toNat o.sa.toNat 0 fn), some o.imm.toNat)
def encFopBin (fn : Nat) (o : FopBin) : Nat × Option Nat :=
  (encS o.w 3 (bodyS3 o.sd.toNat o.sa.toNat o.sb.toNat fn),
   some (gk o.g + ext o.m.code o.t.code (mdBits o.ftz false false false) 0 0))
def encFopSel (fn : Nat) (o : FopSel) : Nat × Option Nat :=
  (encS o.w 3 (bodyS3 o.sd.toNat o.sa.toNat o.sb.toNat fn),
   some (gk o.g + ext 0 o.t.code (mdBits o.ftz false false false) 0 0))
def encFopUn (fn : Nat) (o : FopUn) : Nat × Option Nat :=
  (encS o.w 3 (bodyS3 o.sd.toNat o.sa.toNat 0 fn),
   some (gk o.g + ext o.m.code o.t.code (mdBits o.ftz false false false) 0 0))
def encMnt (fn : Nat) (o : MntOp) : Nat × Option Nat :=
  (encS o.w 0x0D (bodyS3 0 o.sa.toNat o.sb.toNat fn), some (gk o.g + ext o.lvl.code 0 0 0 0))
def encEngine (mj : Nat) (o : EngineOp) : Nat × Option Nat :=
  (encS o.w mj (bodyS3 o.sd.toNat o.sa.toNat 0 0), some (gk o.g + ext 0 0 0 (scopeBits o.scope.toScope) 0))
def encQueue (mj : Nat) (o : QueueOp) : Nat × Option Nat :=
  (encS o.w mj (bodyS3 o.sd.toNat o.sa.toNat o.sb.toNat 0),
   some (gk o.g + ext 0 0 0 (scopeBits o.scope) (o.len.toNat + 1)))
def encCount (mj : Nat) (o : CountOp) : Nat × Option Nat :=
  (encS o.w mj (bodyS3 o.sd.toNat o.sa.toNat o.sb.toNat 0), some (gk o.g + ext (nb o.rel) 0 0 (scopeBits o.scope) 0))
def encPlain (mj : Nat) (o : WOp) : Nat × Option Nat := (encS o.w mj 0, none)
def encCsr (mj fn : Nat) (o : CsrOp) : Nat × Option Nat :=
  (encS o.w mj (fn + o.csr.toNat * 2 ^ 6 + o.s.toNat * 2 ^ 18), none)
def encSrc (mj kind fn : Nat) (o : SrcOp) : Nat × Option Nat := (encS o.w mj (bodyS3 kind o.sa.toNat 0 fn), none)

/-- The words of an instruction (R54 to R66 and the instruction chapters): word 0 and, for a two-word major, E.
Events have none. -/
def encode : Instr → Option (Nat × Option Nat)
  | .mov o => some (encL o.w 0x01 (bodyL3 o.vd.toNat o.va.toNat 0), none)
  | .specialMov o => some (encL o.w 0x01 (bodyL3 o.vd.toNat 0 o.sel.code), none)
  | .movi o => some (encL o.w 0x02 (o.imm.toNat + o.vd.toNat * 2 ^ 16), none)
  | .moviw o => some (encL o.w 0x03 (o.vd.toNat * 2 ^ 16), some o.imm.toNat)
  | .iaddi o => some (encL o.w 0x04 (bodyL3 o.vd.toNat o.va.toNat o.imm.toNat), none)
  | .lea o => some (encL o.w 0x05 (bodyL3 o.vd.toNat o.va.toNat o.vb.toNat),
      some (gq o.g + ext o.sh.toNat o.t.code 0 0 o.disp.toNat))
  | .brd o => some (encL o.w 0x06 (o.off.toNat + o.tok.toNat * 2 ^ 16 + nb o.neg * 2 ^ 20 + o.q.toNat * 2 ^ 21), none)
  | .join o => some (encL o.w 0x07 (o.tok.toNat * 2 ^ 16), none)
  | .iadd o => some (encIntSat 0x08 o)
  | .isub o => some (encIntSat 0x09 o)
  | .imul o => some (encL o.w 0x0A (bodyL3 o.vd.toNat o.va.toNat o.b.vb),
      some (gq o.g + ext 0 o.t.code (mdBits false (o.mode == .sat) o.b.isImm (o.mode == .hi)) 0 o.b.imm8))
  | .imad o => some (encL o.w 0x0B (bodyL3 o.vd.toNat o.va.toNat o.b.vb),
      some (gq o.g + ext 0 o.t.code (mdBits false o.sat o.b.isImm false) o.vc.toNat o.b.imm8))
  | .imin o => some (encIntBin 0x0C false o)
  | .imax o => some (encIntBin 0x0C true o)
  | .iabs o => some (encL o.w 0x0D (bodyL3 o.vd.toNat o.va.toNat 0),
      some (gq o.g + ext 0 o.t.code (mdBits false o.sat false false) 0 0))
  | .icmp o => some (encL o.w 0x0E (bodyLC o.qd.toNat o.c.code o.va.toNat o.b.vb),
      some (gq o.g + ext 0 o.t.code (mdBits false false o.b.isImm false) 0 o.b.imm8))
  | .sel o => some (encL o.w 0x0F (bodyL3 o.vd.toNat o.va.toNat o.b.vb),
      some (gq o.g + ext o.qs.toNat (if o.wide then 7 else 6) (mdBits false false o.b.isImm o.neg) 0 o.b.imm8))
  | .fadd o => some (encFBin 0x10 o)
  | .fsub o => some (encFBin 0x11 o)
  | .ffma o => some (encL o.w 0x12 (bodyL3 o.vd.toNat o.va.toNat o.vb.toNat),
      some (gq o.g + ext o.m.code o.t.code (mdBits o.ftz false false false) o.vc.toNat 0))
  | .fmul o => some (encFBin 0x13 o)
  | .fmin o => some (encFSel false o)
  | .fmax o => some (encFSel true o)
  | .fcmp o => some (encL o.w 0x15 (bodyLC o.qd.toNat o.c.code o.va.toNat o.vb.toNat),
      some (gq o.g + ext 0 o.t.code (mdBits o.ftz false false false) 0 0))
  | .fclass o => some (encL o.w 0x16 (bodyLC o.qd.toNat (o.mask.toNat / 256) o.va.toNat 0),
      some (gq o.g + ext 0 o.t.code 0 0 (o.mask.toNat % 256)))
  | .ldgRow o => some (encL o.w 0x17 (bodyLM o.vt.toNat o.x.va.toNat o.x.sb.toNat 2),
      some (gq o.g + ext o.x.sh.toNat o.t.code (gMd o.x) o.t.vc o.x.disp.toNat))
  | .shl o => some (encIntBin 0x18 false o)
  | .shr o => some (encIntBin 0x19 false o)
  | .sha o => some (encIntBin 0x1A false o)
  | .and o => some (encIntBin 0x1B false o)
  | .or o => some (encIntBin 0x1C false o)
  | .xor o => some (encIntBin 0x1D false o)
  | .bfx o => some (match o.f with
      | .reg v => (encL o.w 0x1E (bodyL3 o.vd.toNat o.va.toNat v.toNat), some (gq o.g + ext 0 o.t.code 0 0 0))
      | .imm p l => (encL o.w 0x1E (bodyL3 o.vd.toNat o.va.toNat l.toNat), some (gq o.g + ext 0 o.t.code 2 0 p.toNat)))
  | .bfi o => some (match o.f with
      | .reg v => (encL o.w 0x1F (bodyL3 o.vd.toNat o.va.toNat v.toNat), some (gq o.g + ext 0 o.t.code 0 o.vc.toNat 0))
      | .imm p l => (encL o.w 0x1F (bodyL3 o.vd.toNat o.va.toNat l.toNat),
          some (gq o.g + ext 0 o.t.code 2 o.vc.toNat p.toNat)))
  | .popc o => some (encIntCount 0x20 o)
  | .clz o => some (encIntCount 0x21 o)
  | .frcp o => some (encFUn 0x22 o)
  | .fsqrt o => some (encFUn 0x23 o)
  | .frsq o => some (encFUn 0x24 o)
  | .fexp2 o => some (encFUn 0x25 o)
  | .flog2 o => some (encFUn 0x26 o)
  | .cvt o => some (match o.kind with
      | .one p => (encL o.w 0x27 (bodyL3 o.vd.toNat o.va.toNat p.src), some (gq o.g + ext p.rnd p.dst p.md 0 0))
      | .quant s d vc => (encL o.w 0x27 (bodyL3 o.vd.toNat o.va.toNat s.code), some (gq o.g + ext 0 d.code 0 vc.toNat 0))
      | .dequant s d m vc => (encL o.w 0x27 (bodyL3 o.vd.toNat o.va.toNat s.code),
          some (gq o.g + ext m.code d.code 0 vc.toNat 0)))
  | .pack o => some (encL o.w 0x28 (bodyL3 o.vd.toNat o.va.toNat o.vb.toNat),
      some (gq o.g + ext 0 o.t.code (mdBits false o.sat false false) 0 0))
  | .unpk o => some (encL o.w 0x29 (bodyL3 o.vd.toNat o.va.toNat 0), some (gq o.g + ext 0 o.t.code 0 0 (nb o.h)))
  | .qset o => some (match o.fn with
      | .clr => (encL o.w 0x2A (bodyLC o.qd.toNat 0 0 0), some (gq o.g + ext 0 0 0 0 0))
      | .set => (encL o.w 0x2A (bodyLC o.qd.toNat 1 0 0), some (gq o.g + ext 0 0 0 0 0))
      | .nz t v => (encL o.w 0x2A (bodyLC o.qd.toNat 2 v.toNat 0), some (gq o.g + ext 0 t.code 0 0 0))
      | .bit t v k => (encL o.w 0x2A (bodyLC o.qd.toNat 3 v.toNat 0), some (gq o.g + ext 0 t.code 0 0 k.toNat)))
  | .qop o => some (encL o.w 0x2B (o.fn.code * 2 ^ 12 + o.qb.toNat * 2 ^ 15 + o.qa.toNat * 2 ^ 18 + o.qd.toNat * 2 ^ 21), none)
  | .shfl o => some (encL o.w 0x2C (bodyL3 o.vd.toNat o.va.toNat o.b.vb),
      some (gq o.g + ext o.mode.code (if o.wide then 7 else 6) (nb o.b.isImm * 2 + o.seg.code * 4) 0 o.b.imm8))
  | .vote o => some (encL o.w 0x2D (bodyL3 o.fn.dest o.qa.toNat 0),
      some (gq o.g + ext o.fn.op 0 (nb o.fn.d + o.seg.code * 4) 0 0))
  | .red o => some (encL o.w 0x2E (bodyL3 o.vd.toNat o.va.toNat 0),
      some (gq o.g + ext o.fn.rnd o.fn.ty (o.order.code + nb o.fn.ftz * 8) 0 o.fn.op))
  | .scan o => some (encL o.w 0x2F (bodyL3 o.vd.toNat o.va.toNat 0),
      some (gq o.g + ext o.fn.rnd o.fn.ty (o.order.code + nb o.ex * 4 + nb o.fn.ftz * 8) 0 o.fn.op))
  | .ld o => some (encMem 0x30 false o)
  | .st o => some (encMem 0x31 false o)
  | .ldg o => some (encGather 0x32 o)
  | .stg o => some (encGather 0x33 o)
  | .atom o => some (encL o.w 0x34 (bodyLM o.vt.toNat o.a.va o.a.sb.toNat o.a.am),
      some (gq o.g + ext (nb o.rel) o.kind.ty o.kind.op (scopeBits o.scope) o.a.disp.toNat))
  | .pft o => some (encL o.w 0x35 (bodyLM 0 o.a.va o.a.sb.toNat o.a.am), some (gq o.g + ext 0 0 0 0 o.a.disp.toNat))
  | .lda o => some (encMem 0x36 false o)
  | .sta o => some (encMem 0x37 false o)
  | .ldaTile o => some (encMem 0x36 true o)
  | .staTile o => some (encMem 0x37 true o)
  | .ldl o => some (encLs 0x38 o)
  | .stl o => some (encLs 0x39 o)
  | .fill o => some (encL o.w 0x3A (bodyLM o.vt.toNat o.a.va o.a.sb.toNat o.a.am),
      some (gq o.g + ext o.size.code 0 (o.space.code + nb o.mbar.isSome * 8)
        (match o.mbar with | some v => v.toNat | none => 0) o.a.disp.toNat))
  | .mma o => some (encL o.w 0x3B (bodyLX o.va.toNat o.sw.toNat o.sc.toNat (nb o.z * 4 + nb o.ru * 8)),
      some (gq o.g + ext 0 o.t.code 0 0 0))
  | .mmas o => some (encL o.w 0x3C (bodyLX o.va.toNat o.sw.toNat o.sc.toNat (nb o.z * 4 + nb o.ru * 8)),
      some (gq o.g + ext 0 o.t.code o.pat.bit o.vm.toNat 0))
  | .spk o => some (encL o.w 0x3D (bodyLX o.vm.toNat o.sw.toNat o.sc.toNat 0), some (gq o.g + ext 0 o.t.code o.pat.bit 0 0))
  | .mdrn o => some (encL o.w 0x3E (bodyLX o.va.toNat 0 o.sc.toNat (nb o.clr * 4)),
      some (gq o.g + ext o.dt.rnd o.dt.code o.lc.toNat o.dt.vc o.st.code))
  | .mdrnMem o => some (encL o.w 0x3E (bodyLX o.va.toNat 0 o.sc.toNat (nb o.clr * 4)),
      some (gq o.g + ext o.dt.rnd o.dt.code 4 0 o.st.code))
  | .mdrnPeer o => some (encL o.w 0x3E (bodyLX 0 o.sw.toNat o.sc.toNat (nb o.clr * 4 + nb o.ord * 8)),
      some (gq o.g + ext 0 (accCode o.st.acc) 8 0 o.st.code))
  | .mzero o => some (encL o.w 0x3F (bodyLX 0 0 o.sc.toNat 0), some (gq o.g + ext 0 o.t.code o.lc.toNat 0 0))
  | .iopIadd o => some (encS3 0 0 o)
  | .iopIsub o => some (encS3 0 1 o)
  | .iopImul o => some (encS3 0 2 o)
  | .iopIminI64 o => some (encS3 0 3 o)
  | .iopImaxI64 o => some (encS3 0 4 o)
  | .iopIminN64 o => some (encS3 0 5 o)
  | .iopImaxN64 o => some (encS3 0 6 o)
  | .iopIabs o => some (encS2 0 7 o)
  | .iopAnd o => some (encS3 0 8 o)
  | .iopOr o => some (encS3 0 9 o)
  | .iopXor o => some (encS3 0 10 o)
  | .iopShl o => some (encS3 0 11 o)
  | .iopShr o => some (encS3 0 12 o)
  | .iopSha o => some (encS3 0 13 o)
  | .iopPopc o => some (encS2 0 14 o)
  | .iopClz o => some (encS2 0 15 o)
  | .iopMov o => some (encS2 0 16 o)
  | .iopiIadd o => some (encSI 0 o)
  | .iopiIsub o => some (encSI 1 o)
  | .iopiImul o => some (encSI 2 o)
  | .iopiIminI64 o => some (encSI 3 o)
  | .iopiImaxI64 o => some (encSI 4 o)
  | .iopiIminN64 o => some (encSI 5 o)
  | .iopiImaxN64 o => some (encSI 6 o)
  | .iopiAnd o => some (encSI 8 o)
  | .iopiOr o => some (encSI 9 o)
  | .iopiXor o => some (encSI 10 o)
  | .iopiShl o => some (encSI 11 o)
  | .iopiShr o => some (encSI 12 o)
  | .iopiSha o => some (encSI 13 o)
  | .iopiMovi o => some (encS o.w 1 (bodyS3 o.sd.toNat 0 o.imm.toNat 16), none)
  | .iopwIadd o => some (encSW 0 o)
  | .iopwIsub o => some (encSW 1 o)
  | .iopwImul o => some (encSW 2 o)
  | .iopwIminI64 o => some (encSW 3 o)
  | .iopwImaxI64 o => some (encSW 4 o)
  | .iopwIminN64 o => some (encSW 5 o)
  | .iopwImaxN64 o => some (encSW 6 o)
  | .iopwAnd o => some (encSW 8 o)
  | .iopwOr o => some (encSW 9 o)
  | .iopwXor o => some (encSW 10 o)
  | .iopwShl o => some (encSW 11 o)
  | .iopwShr o => some (encSW 12 o)
  | .iopwSha o => some (encSW 13 o)
  | .iopwMovi o => some (encS o.w 2 (bodyS3 o.sd.toNat 0 0 16), some o.imm.toNat)
  | .fopFadd o => some (encFopBin 0 o)
  | .fopFsub o => some (encFopBin 1 o)
  | .fopFmul o => some (encFopBin 2 o)
  | .fopFfma o => some (encS o.w 3 (bodyS3 o.sd.toNat o.sa.toNat o.sb.toNat 3),
      some (gk o.g + ext o.m.code o.t.code (mdBits o.ftz false false false) o.sc.toNat 0))
  | .fopFmin o => some (encFopSel 4 o)
  | .fopFmax o => some (encFopSel 5 o)
  | .fopFrcp o => some (encFopUn 6 o)
  | .fopFsqrt o => some (encFopUn 7 o)
  | .fopFrsq o => some (encFopUn 8 o)
  | .fopFexp2 o => some (encFopUn 9 o)
  | .fopFlog2 o => some (encFopUn 10 o)
  | .fopCvt o => some (encS o.w 3 (bodyS3 o.sd.toNat o.sa.toNat o.p.src 11), some (gk o.g + ext o.p.rnd o.p.dst o.p.md 0 0))
  | .cmpkIcmp o => some (encS o.w 4 (bodyS3 o.kd.toNat o.sa.toNat o.sb.toNat 0), some (gk o.g + ext 0 o.t.code 0 0 o.c.code))
  | .cmpkFcmp o => some (encS o.w 4 (bodyS3 o.kd.toNat o.sa.toNat o.sb.toNat 1),
      some (gk o.g + ext 0 o.t.code (mdBits o.ftz false false false) 0 o.c.code))
  | .cmpkFclass o => some (encS o.w 4 (bodyS3 o.kd.toNat o.sa.toNat (o.mask.toNat / 256) 2),
      some (gk o.g + ext 0 o.t.code 0 0 (o.mask.toNat % 256)))
  | .prkQop o => some (encS o.w 5 (bodyS3 o.kd.toNat o.ka.toNat o.kb.toNat o.fn.code), none)
  | .prkQset o => some (match o.fn with
      | .clr => (encS o.w 5 (bodyS3 o.kd.toNat 0 0 8), none)
      | .set => (encS o.w 5 (bodyS3 o.kd.toNat 0 1 8), none)
      | .nz a => (encS o.w 5 (bodyS3 o.kd.toNat a.toNat 2 8), none))
  | .sld o => some (encS o.w 8 (o.off.toNat + o.sz.code * 2 ^ 9 + o.sb.toNat * 2 ^ 12 + o.st.toNat * 2 ^ 18), none)
  | .sst o => some (encS o.w 9 (o.off.toNat + o.sz.code * 2 ^ 9 + o.sb.toNat * 2 ^ 12 + o.st.toNat * 2 ^ 18), none)
  | .satom o => some (encS o.w 0x0A (bodyS3 o.sd.toNat o.sa.toNat o.sb.toNat o.kind.op),
      some (gk o.g + ext (nb o.rel) o.kind.ty 0 (scopeBits o.scope) o.disp.toNat))
  | .acq o => some (encS o.w 0x0B (o.mask.toNat + o.scope.hop * 2 ^ 17 + o.scope.code * 2 ^ 21), none)
  | .acqAll o => some (encS o.w 0x0B (2 ^ 16 + o.scope.hop * 2 ^ 17 + o.scope.code * 2 ^ 21), none)
  | .rel o => some (encS o.w 0x0C (o.scope.hop * 2 ^ 17 + o.scope.code * 2 ^ 21), none)
  | .cln o => some (encMnt 0 o)
  | .inv o => some (encMnt 1 o)
  | .civ o => some (encMnt 2 o)
  | .rgn o => some (encS o.w 0x0E (bodyS3 o.idx.toNat o.sa.toNat o.sb.toNat 0), none)
  | .bra o => some (encS o.w 0x10 o.off.toNat, none)
  | .call o => some (encS o.w 0x11 o.off.toNat, none)
  | .brc o => some (encS o.w 0x12 (o.off.toNat + nb o.neg * 2 ^ 21 + o.k.toNat * 2 ^ 22), none)
  | .braRegister o => some (encSrc 0x13 0 0 o)
  | .callRegister o => some (encSrc 0x13 0 1 o)
  | .ret o => some (encSrc 0x13 0 2 o)
  | .exit o => some (encPlain 0x14 o)
  | .yieldSlot o => some (encPlain 0x15 o)
  | .setwImmediate o => some (encS o.w 0x16 0, some o.n.toNat)
  | .setwRImmediate o => some (encS o.w 0x16 1, some o.n.toNat)
  | .setwRegister o => some (encS o.w 0x16 (bodyS3 0 o.sa.toNat 0 2), some 0)
  | .setwRRegister o => some (encS o.w 0x16 (bodyS3 0 o.sa.toNat 0 3), some 0)
  | .endw o => some (encPlain 0x17 o)
  | .bar o => some (encS o.w 0x18 (o.b.toNat * 2 ^ 6), none)
  | .barArr o => some (encS o.w 0x18 (1 + o.b.toNat * 2 ^ 6), none)
  | .barWait o => some (encS o.w 0x18 (2 + o.b.toNat * 2 ^ 6), none)
  | .gbar o => some (encPlain 0x19 o)
  | .mbarInit o => some (encS o.w 0x1A (bodyS3 0 o.sa.toNat o.sb.toNat 0), some (gk o.g))
  | .mbarArm o => some (encS o.w 0x1A (bodyS3 0 o.sa.toNat o.sb.toNat 1), some (gk o.g))
  | .mbarArr o => some (encS o.w 0x1A (bodyS3 0 o.sa.toNat 0 2), some (gk o.g + ext 0 0 0 (scopeBits o.scope) 0))
  | .mbarWait o => some (encS o.w 0x1A (bodyS3 o.sd.toNat o.sa.toNat o.sb.toNat 3),
      some (gk o.g + ext 0 0 0 (scopeBits o.scope) 0))
  | .bclose o => some (encPlain 0x1B o)
  | .bwaitImmediate o => some (encS o.w 0x1C 0, some o.n.toNat)
  | .bwaitRegister o => some (encS o.w 0x1C (bodyS3 0 o.sa.toNat 0 1), some 0)
  | .ecpy o => some (encEngine 0x20 o)
  | .epub o => some (encEngine 0x21 o)
  | .ecoll o => some (encEngine 0x22 o)
  | .spawn o => some (encS o.w 0x23 (bodyS3 0 o.sa.toNat o.sb.toNat 0), some (gk o.g + ext 0 0 0 o.sc.toNat 0))
  | .enq o => some (encQueue 0x24 o)
  | .deq o => some (encQueue 0x25 o)
  | .cdec o => some (encCount 0x26 o)
  | .cinc o => some (encCount 0x27 o)
  | .tdef o => some (encS o.w 0x28 (bodyS3 o.sd.toNat o.sa.toNat o.sb.toNat 0), some (gk o.g))
  | .tseal o => some (encS2 0x29 0 o)
  | .tdrop o => some (encS2 0x2A 0 o)
  | .thold o => some (encS2 0x2B 0 o)
  | .tfree o => some (encS2 0x2C 0 o)
  | .tfence o => some (encPlain 0x2D o)
  | .trap o => some (encS o.w 0x2E o.n.toNat, none)
  | .trapBreak o => some (encS o.w 0x2E (o.n.toNat + 2 ^ 23), none)
  | .rte o => some (encPlain 0x2F o)
  | .csrr o => some (encCsr 0x30 0 o)
  | .csrw o => some (encCsr 0x31 0 o)
  | .csrwSet o => some (encCsr 0x31 1 o)
  | .csrwClr o => some (encCsr 0x31 2 o)
  | .svc o => some (encS o.w 0x32 o.n.toNat, none)
  | .eret o => some (encPlain 0x33 o)
  | .tlbiPage o => some (encS o.w 0x34 (bodyS3 0 o.sa.toNat o.sb.toNat 0), none)
  | .tlbiAsid o => some (encSrc 0x34 1 0 o)
  | .tlbiAll o => some (encS o.w 0x34 (2 * 2 ^ 18), none)
  | .ctxi o => some (encSrc 0x35 0 0 o)
  | .keysetLoad o => some (encS o.w 0x36 (bodyS3 o.sd.toNat o.sa.toNat o.sb.toNat 0), some (gk o.g))
  | .keysetGen o => some (encS o.w 0x36 (bodyS3 o.sd.toNat o.sa.toNat 0 0), some (gk o.g + ext 0 0 1 0 0))
  | .keysetErase o => some (encS o.w 0x36 (bodyS3 o.sd.toNat o.sa.toNat 0 0), some (gk o.g + ext 0 0 2 0 0))
  | .halt o => some (encPlain 0x37 o)
  | _ => none

/-- The instruction of encoded words. -/
def decodePair (p : Nat × Option Nat) : Option Instr := decode p.1 (p.2.getD 0)

/-! ### Bytes -/

/-- The number of little-endian bytes (R5). -/
def leNat : List Byte → Nat
  | [] => 0
  | b :: bs => b.toNat + 256 * leNat bs

/-- The `n` little-endian bytes of a number (R5). -/
def leBytes : Nat → Nat → List Byte
  | 0, _ => []
  | n + 1, v => BitVec.ofNat 8 v :: leBytes n (v / 256)

/-- Why a decoder refuses bytes. -/
inductive DecodeError
  /-- Fewer bytes than the instruction has. -/
  | short
  /-- A reserved cell (R79). -/
  | reservedCell
  /-- The words break a rule of R67. -/
  | illegal
  deriving DecidableEq, Repr

/-- The instruction at the head of a list of bytes, and the rest (R54, R55). -/
def decodeBytes (bs : List Byte) : Except DecodeError (Instr × List Byte) :=
  if bs.length < 4 then .error .short else
  let w := leNat (bs.take 4)
  match lengthOf w with
  | none => .error .reservedCell
  | some n =>
    if bs.length < 4 * n then .error .short else
    match decode w (if n == 2 then leNat ((bs.drop 4).take 4) else 0) with
    | some i => .ok (i, bs.drop (4 * n))
    | none => .error .illegal

/-- The instruction whose bits are `w`, numbered as the opcode table numbers them (word 0 in bits 31..0, E in bits
63..32; bits above `nbits` are zero), for a group that declares 256 lane registers. -/
def decodeTableWord (nbits w : Nat) : Option Instr :=
  match decodeBytes (leBytes 8 (w % 2 ^ nbits)) with
  | .ok (i, _) => if i.regsOk 256 then some i else none
  | .error _ => none

end Sys2Proof
end

