-- ==== Sys2Proof/Machine/Crypto.lean ====
section
/-! DEFINITION. The cryptography that the manual names by its standards: SHA-256 (FIPS 180-4: R107, R378), AES-256 (FIPS 197)
with the modes XTS (IEEE 1619: R213) and GCM (NIST SP 800-38D: R373). The constants of a standard are written as the
standard prints them. -/

namespace Sys2Proof.Machine

/-! ### Bytes -/

/-- A number of big-endian bytes. -/
def beNat (bs : List Byte) : Nat := leNat bs.reverse

/-- The `n` big-endian bytes of a number. -/
def beBytes (n v : Nat) : List Byte := (leBytes n v).reverse

/-- Byte by byte exclusive or. -/
def xorBytes (a b : List Byte) : List Byte := List.zipWith (fun x y => x ^^^ y) a b

/-- A list cut into pieces of `k` elements, at most `fuel` of them. -/
def chop {α : Type} (k : Nat) : Nat → List α → List (List α)
  | 0, _ => []
  | fuel + 1, l => if l.isEmpty then [] else l.take k :: chop k fuel (l.drop k)

/-! ### SHA-256 -/

/-- The round constants. -/
def shaK : List Word :=
  [0x428A2F98, 0x71374491, 0xB5C0FBCF, 0xE9B5DBA5, 0x3956C25B, 0x59F111F1, 0x923F82A4, 0xAB1C5ED5,
   0xD807AA98, 0x12835B01, 0x243185BE, 0x550C7DC3, 0x72BE5D74, 0x80DEB1FE, 0x9BDC06A7, 0xC19BF174] ++
  [0xE49B69C1, 0xEFBE4786, 0x0FC19DC6, 0x240CA1CC, 0x2DE92C6F, 0x4A7484AA, 0x5CB0A9DC, 0x76F988DA,
   0x983E5152, 0xA831C66D, 0xB00327C8, 0xBF597FC7, 0xC6E00BF3, 0xD5A79147, 0x06CA6351, 0x14292967] ++
  [0x27B70A85, 0x2E1B2138, 0x4D2C6DFC, 0x53380D13, 0x650A7354, 0x766A0ABB, 0x81C2C92E, 0x92722C85,
   0xA2BFE8A1, 0xA81A664B, 0xC24B8B70, 0xC76C51A3, 0xD192E819, 0xD6990624, 0xF40E3585, 0x106AA070] ++
  [0x19A4C116, 0x1E376C08, 0x2748774C, 0x34B0BCB5, 0x391C0CB3, 0x4ED8AA4A, 0x5B9CCA4F, 0x682E6FF3,
   0x748F82EE, 0x78A5636F, 0x84C87814, 0x8CC70208, 0x90BEFFFA, 0xA4506CEB, 0xBEF9A3F7, 0xC67178F2]

/-- The initial hash value. -/
def shaInit : List Word :=
  [0x6A09E667, 0xBB67AE85, 0x3C6EF372, 0xA54FF53A, 0x510E527F, 0x9B05688C, 0x1F83D9AB, 0x5BE0CD19]

/-- The message schedule, newest word first, `n` words longer. -/
def shaSchedule : Nat → List Word → List Word
  | 0, w => w
  | n + 1, w =>
    let a := w.getD 14 0
    let b := w.getD 1 0
    let s0 := a.rotateRight 7 ^^^ a.rotateRight 18 ^^^ a >>> 3
    let s1 := b.rotateRight 17 ^^^ b.rotateRight 19 ^^^ b >>> 10
    shaSchedule n ((w.getD 15 0 + s0 + w.getD 6 0 + s1) :: w)

/-- One round on the eight working words. -/
def shaRound (h : List Word) (kw : Word) : List Word :=
  match h with
  | [a, b, c, d, e, f, g, x] =>
    let t1 := x + (e.rotateRight 6 ^^^ e.rotateRight 11 ^^^ e.rotateRight 25) + ((e &&& f) ^^^ (~~~e &&& g)) + kw
    let t2 := (a.rotateRight 2 ^^^ a.rotateRight 13 ^^^ a.rotateRight 22) + ((a &&& b) ^^^ (a &&& c) ^^^ (b &&& c))
    [t1 + t2, a, b, c, d + t1, e, f, g]
  | _ => h

/-- One block of 64 bytes. -/
def shaBlock (h : List Word) (block : List Byte) : List Word :=
  let m := (chop 4 16 block).map (fun w => BitVec.ofNat 32 (beNat w))
  let w := (shaSchedule 48 m.reverse).reverse
  List.zipWith (fun x y => x + y) h ((List.zipWith (fun x y => x + y) shaK w).foldl shaRound h)

/-- SHA-256. -/
def sha256 (bs : List Byte) : List Byte :=
  let n := bs.length
  let padded := bs ++ [0x80] ++ List.replicate ((119 - n % 64) % 64) 0 ++ beBytes 8 (8 * n)
  ((chop 64 (n / 64 + 2) padded).foldl shaBlock shaInit).flatMap (fun w => beBytes 4 w.toNat)

/-! ### AES-256 -/

/-- The S-box, sixteen entries to a number, the entry of the lowest index in the lowest byte. -/
def aesBoxRows : List Nat :=
  [0x76ABD7FE2B670130C56F6BF27B777C63, 0xC072A49CAFA2D4ADF04759FA7DC982CA, 0x1531D871F1E5A534CCF73F362693FDB7,
   0x75B227EBE28012079A059618C323C704, 0x842FE329B3D63B52A05A6E1B1A2C8309, 0xCF584C4A39BECB6A5BB1FC20ED00D153,
   0xA89F3C507F02F94585334D43FBAAEFD0, 0xD2F3FF1021DAB6BCF5389D928F40A351, 0x73195D643D7EA7C41744975FEC130CCD,
   0xDB0B5EDE14B8EE4688902A22DC4F8160, 0x79E4959162ACD3C25C2406490A3A32E0, 0x08AE7A65EAF4566CA94ED58D6D37C8E7,
   0x8A8BBD4B1F74DDE8C6B4A61C2E2578BA, 0x9E1DC186B95735610EF6034866B53E70, 0xDF2855CEE9871E9B948ED9691198F8E1,
   0x16BB54B00F2D99416842E6BF0D89A18C]

/-- The inverse S-box. -/
def aesInvRows : List Nat :=
  [0xFBD7F3819EA340BF38A53630D56A0952, 0xCBE9DEC444438E3487FF2F9B8239E37C, 0x4EC3FA420B954CEE3D23C2A632947B54,
   0x25D18B6D49A25B76B224D92866A12E08, 0x92B6655DCC5CA4D41698688664F6F872, 0x849D8DA75746155EDAB9EDFD5048706C,
   0x0645B3B80558E4F70AD3BC8C00ABD890, 0x6B8A130103BDAFC1020F3FCA8F1E2CD0, 0x73E6B4F0CECFF297EADC674F4111913A,
   0x6EDF751CE837F9E28535ADE72274AC96, 0x1BBE18AA0E62B76F89C5291D711AF147, 0xF45ACD78FEC0DB9A2079D2C64B3E56FC,
   0x5FEC8027591012B131C7078833A8DD1F, 0xEF9CC9939F7AE52D0D4AB519A97F5160, 0x619953833CBBEBC8B0F52AAE4D3BE0A0,
   0x7D0C2155631469E126D677BA7E042B17]

/-- An entry of a box. -/
def boxAt (rows : List Nat) (x : Byte) : Byte :=
  BitVec.ofNat 8 (rows.getD (x.toNat / 16) 0 / 2 ^ (8 * (x.toNat % 16)))

def subByte (x : Byte) : Byte := boxAt aesBoxRows x
def invSubByte (x : Byte) : Byte := boxAt aesInvRows x

/-- Multiplication by x in the field of AES. -/
def xtime (a : Byte) : Byte := if a.getLsbD 7 then (a <<< 1) ^^^ 0x1B else a <<< 1

/-- Multiplication by a small number in the field of AES. -/
def gfMul (n : Nat) (a : Byte) : Byte :=
  let p (i : Nat) (x : Byte) : Byte := if bitAt n i then x else 0
  p 0 a ^^^ p 1 (xtime a) ^^^ p 2 (xtime (xtime a)) ^^^ p 3 (xtime (xtime (xtime a)))

/-- The key schedule of 60 words, the newest word first: `n` more words after `i` of them. -/
def aesExpand : Nat → Nat → Byte → List (List Byte) → List (List Byte)
  | 0, _, _, w => w
  | n + 1, i, rcon, w =>
    let last := w.headD []
    let t := if i % 8 = 0 then xorBytes ((last.drop 1 ++ last.take 1).map subByte) [rcon, 0, 0, 0]
      else if i % 8 = 4 then last.map subByte else last
    aesExpand n (i + 1) (if i % 8 = 0 then xtime rcon else rcon) (xorBytes (w.getD 7 []) t :: w)

/-- The fifteen round keys of a 32-byte key. -/
def roundKeys (key : List Byte) : List (List Byte) :=
  (chop 4 15 (aesExpand 52 8 1 (chop 4 8 key).reverse).reverse).map (fun ws => ws.flatMap (fun x => x))

/-- The state permuted: byte `i` of the result comes from where row `i % 4` is shifted by `k` times its number. -/
def shiftRows (k : Nat) (b : List Byte) : List Byte :=
  (List.range 16).map (fun i => b.getD ((i + 4 * k * (i % 4)) % 16) 0)

/-- Each column multiplied by a circulant matrix with first row `m`. -/
def mixColumns (m : List Nat) (b : List Byte) : List Byte :=
  (List.range 16).map (fun i =>
    (List.range 4).foldl (fun x j => x ^^^ gfMul (m.getD ((j + 4 - i % 4) % 4) 0) (b.getD (i / 4 * 4 + j) 0)) 0)

/-- One block enciphered. -/
def aesEncrypt (ks : List (List Byte)) (b : List Byte) : List Byte :=
  let mid := (ks.drop 1).take 13
  let x := mid.foldl (fun x k => xorBytes (mixColumns [2, 3, 1, 1] (shiftRows 1 (x.map subByte))) k) (xorBytes b (ks.headD []))
  xorBytes (shiftRows 1 (x.map subByte)) (ks.getD 14 [])

/-- One block deciphered. -/
def aesDecrypt (ks : List (List Byte)) (b : List Byte) : List Byte :=
  let mid := ((ks.drop 1).take 13).reverse
  let x := mid.foldl (fun x k => mixColumns [14, 11, 13, 9] (xorBytes ((shiftRows 3 x).map invSubByte) k)) (xorBytes b (ks.getD 14 []))
  xorBytes ((shiftRows 3 x).map invSubByte) (ks.headD [])

/-! ### XTS -/

/-- A tweak multiplied by x. -/
def xtsDouble (t : List Byte) : List Byte :=
  let n := leNat t
  leBytes 16 (Nat.xor (2 * n % 2 ^ 128) (if 2 ^ 127 ≤ n then 0x87 else 0))

/-- The blocks of a data unit, one tweak after another. -/
def xtsBlocks (f : List Byte → List Byte) : List Byte → List (List Byte) → List Byte
  | _, [] => []
  | t, b :: l => xorBytes (f (xorBytes b t)) t ++ xtsBlocks f (xtsDouble t) l

/-- The 64-byte unit number `unit` under a 64-byte key pair, by a cipher on the first key. -/
def xtsUnit (f : List (List Byte) → List Byte → List Byte) (key : List Byte) (unit : Nat) (bs : List Byte) : List Byte :=
  xtsBlocks (f (roundKeys (key.take 32))) (aesEncrypt (roundKeys (key.drop 32)) (leBytes 16 unit)) (chop 16 4 bs)

/-- A unit enciphered and deciphered (R213). -/
def xtsEncrypt (key : List Byte) (unit : Nat) (bs : List Byte) : List Byte := xtsUnit aesEncrypt key unit bs
def xtsDecrypt (key : List Byte) (unit : Nat) (bs : List Byte) : List Byte := xtsUnit aesDecrypt key unit bs

/-! ### GCM -/

/-- The product in the field of GCM: `z` gathers, `v` is the multiple of `y` for bit `i - 1` of `x`. -/
def ghashMul (x : Nat) : Nat → Nat → Nat → Nat
  | 0, z, _ => z
  | i + 1, z, v =>
    ghashMul x i (if bitAt x i then Nat.xor z v else z) (if v % 2 = 1 then Nat.xor (v / 2) (0xE1 * 2 ^ 120) else v / 2)

/-- GHASH of blocks under the hash key. -/
def ghash (h : Nat) (blocks : List (List Byte)) : Nat := blocks.foldl (fun y b => ghashMul (Nat.xor y (beNat b)) 128 0 h) 0

/-- Bytes in blocks of sixteen, the last one filled with zeros. -/
def blocks16 (bs : List Byte) : List (List Byte) :=
  (chop 16 (bs.length / 16 + 1) bs).map (fun b => b ++ List.replicate (16 - b.length) 0)

/-- The key stream on data, from counter `n` on. -/
def gcmStream (ks : List (List Byte)) (iv : List Byte) : Nat → List (List Byte) → List Byte
  | _, [] => []
  | n, b :: l => xorBytes (aesEncrypt ks (iv ++ beBytes 4 n)) b ++ gcmStream ks iv (n + 1) l

/-- Data enciphered, or deciphered, under a 12-byte nonce. -/
def gcmCrypt (key iv bs : List Byte) : List Byte := gcmStream (roundKeys key) iv 2 (chop 16 (bs.length / 16 + 1) bs)

/-- The tag of additional data and ciphertext. -/
def gcmTag (key iv aad ct : List Byte) : List Byte :=
  let ks := roundKeys key
  let h := beNat (aesEncrypt ks (List.replicate 16 0))
  let y := ghash h (blocks16 aad ++ blocks16 ct ++ [beBytes 8 (8 * aad.length) ++ beBytes 8 (8 * ct.length)])
  xorBytes (aesEncrypt ks (iv ++ beBytes 4 1)) (beBytes 16 y)

end Sys2Proof.Machine
end

