-- ==== Sys2Proof/Machine/Mem.lean ====
section
/-! DEFINITION. Physical memory: bytes, homes, keys, registration of words, races, copies (10, 11). -/

namespace Sys2Proof.Machine

/-! ### Bytes and keys -/

/-- A byte of memory under the key its unit was written with; an unlisted byte reads 0 (log 1). -/
def memGet (m : Tab Byte) (a : Nat) : Byte := tabGet 0 m a

/-- Memory with one byte replaced, in canonical form. -/
def memSet (m : Tab Byte) (a : Nat) (b : Byte) : Tab Byte := tabPut 0 m a b

/-- The canonical form of memory: addresses strictly rising, and no byte listed that an unlisted address reads as. -/
def Memory.wf (m : Tab Byte) : Bool := tabWf 0 m

/-- PA[55:47]: 0 device memory, 1 host memory, 2 to 511 fabric windows (R209, R368). -/
def paTop (pa : Nat) : Nat := pa / 2 ^ 47 % 512

/-- Whether a physical address lies in this package's device memory. -/
def isDevice (pa : Nat) : Bool := paTop pa == 0

/-- The home die of a device address (R209). -/
def homeDie (pa : Nat) : Nat := if bitAt pa 46 then bits pa 12 2 else bits pa 44 2

/-- The offset of a device address within its die's memory (R209). -/
def dieOffset (pa : Nat) : Nat := if bitAt pa 46 then bits pa 14 32 * 4096 + bits pa 0 12 else bits pa 0 44

/-- Number of one bits among the lowest `n`. -/
def popNat : Nat → Nat → Nat
  | 0, _ => 0
  | n + 1, x => x % 2 + popNat n (x / 2)

/-- Bytes of memory of a compute die: its active channels × 1.5 GiB (R20, R25, R209). -/
def dieBytes (s : State) (d : Nat) : Nat :=
  (popNat 32 ((s.cfgHbm.getD (3 * d) 0).toNat) + popNat 32 ((s.cfgHbm.getD (3 * d + 1) 0).toNat)
    + popNat 32 ((s.cfgHbm.getD (3 * d + 2) 0).toNat)) * (3 * 2 ^ 29)

/-- Whether an address exists (R209, R368): absent, present, or present on a die or package that is offline now. -/
inductive Presence | absent | present | offline (d : Nat)
  deriving DecidableEq, Repr

/-- R209, R236, R368, R374, R377: an unset fabric window is absent, a set one whose package is unreachable is offline
(as number 16 + window; log 21). -/
def presence (s : State) (pa : Nat) : Presence :=
  if paTop pa = 0 then
    if dieOffset pa < dieBytes s (homeDie pa) then
      if s.offline.contains (homeDie pa) then .offline (homeDie pa) else .present
    else .absent
  else if paTop pa = 1 then .present
  else match tabFind s.windows (paTop pa - 2) with
    | none => .absent
    | some w => if !w.set then .absent else if w.reachable && s.ports.any (·.up) then .present else .offline (16 + (paTop pa - 2))

/-- The key that a key-table entry holds, by its number, `none` for an empty entry (R335; log 20). -/
def keyOf (s : State) (id : Nat) : Option Nat := if s.erased.contains id then none else some (tabGet id s.keys id)

/-- The number of a key that KEYSET.load gives entry `id`, and of the key that the package behind a fabric window holds under an
id; lower numbers are fresh keys. No two entries share a number. -/
def loadedKey (id v : Nat) : Nat := 2 ^ 32 + (v * 1024 + id)
def remoteKeyNo (window id : Nat) : Nat := 2 ^ 32 + 2 ^ 522 + (window * 1024 + id)

/-- The key pair that a key number stands for (R335, R336, R374). -/
def keyBytes (n : Nat) : List Byte :=
  if n < 2 ^ 32 then leBytes 64 (Config.freshKey n).toNat
  else if n < 2 ^ 32 + 2 ^ 522 then leBytes 64 ((n - 2 ^ 32) / 1024)
  else leBytes 64 (Config.remoteKey ((n - 2 ^ 32 - 2 ^ 522) / 1024) ((n - 2 ^ 32 - 2 ^ 522) % 1024)).toNat

/-- The key that applies to a physical address under a key id: none at all in host memory, whose number is 0; this package's
entry; the entry of the package behind a fabric window (R324, R374). -/
def keyFor (s : State) (pa id : Nat) : Option Nat :=
  if paTop pa = 1 then some 0 else if paTop pa = 0 then keyOf s id else some (remoteKeyNo (paTop pa - 2) id)

/-- The 64-byte unit of an address, as stored. -/
def unitBytes (m : Tab Byte) (u : Nat) : List Byte := bytesOf (memGet m) (u * 64) 64

/-- A unit written under one key as it reads under another (R213, R214): ciphertext of the first, deciphered with the
second. The tweak is bits 55 to 6 of the address, which is the unit's number. -/
def recode (old new u : Nat) (bs : List Byte) : List Byte :=
  (xtsDecrypt (keyBytes new) u (xtsEncrypt (keyBytes old) u bs) ++ List.replicate 64 0).take 64

/-- The plaintext that an L1 line keeps of a word of a unit, if its key is `key`. -/
def UnitTag.line? (t : UnitTag) (key w : Nat) : Option HeldLine := t.lines.find? (fun l => l.word == w && l.key == key)

/-- A unit as it reads under a key that is not its tag's (R214): noise, but for the words that lines under that key keep. -/
def unitAs (m : Tab Byte) (t : UnitTag) (key u : Nat) : List Byte :=
  let r := recode t.key key u (unitBytes m u)
  (List.range 64).map (fun i => match t.line? key (u * 16 + i / 4) with
    | some l => (leBytes 4 l.val.toNat).getD (i % 4) 0
    | none => r.getD i 0)

/-- The byte at a physical address as an access under key `key` reads it (R213, R214); the key id of a frame in host memory
is ignored (R324). -/
def readByte (s : State) (key pa : Nat) : Byte :=
  if paTop pa = 1 then memGet s.mem pa else
  match tabFind s.tags (pa / 64) with
  | some t => if t.key = key then memGet s.mem pa else (unitAs s.mem t key (pa / 64)).getD (pa % 64) 0
  | none => memGet s.mem pa

/-- The place whose cache an agent's words are registered in (R208, R215). -/
def agentSite (s : State) : Agent → Option Site
  | .group g => (s.groups[g]?).map (fun gr => .core gr.place)
  | .control cc => some (.ctl cc)
  | _ => none

/-- The address that a registered word's line has once the line has been evicted (R224, R330): no word's own address, so that
no access hits it (R17). -/
def evictedVa : DWord := 1

/-- Whether the agent that holds a word registered has its line in an L1 or in a control core's data cache. -/
def heldInCache (s : State) : Reg → Bool
  | .owned a _ va => va != evictedVa && (agentSite s a).isSome
  | .released a va => va != evictedVa && (agentSite s a).isSome
  | .claimed _ _ => false
  | .frozen _ => false

/-- The words of a unit that lines hold in plaintext when the unit goes to another key (R214): those registered in a cache. -/
def heldLines (s : State) (t : UnitTag) (u : Nat) : List HeldLine :=
  (s.reg.filter (fun p => p.1 / 16 == u && heldInCache s p.2 && !t.lines.any (fun l => l.word == p.1))).map
    (fun p => { word := p.1, key := t.key, val := BitVec.ofNat 32 (leNat (bytesOf (memGet s.mem) (4 * p.1) 4)) })

/-- The unit of `pa` filled under `key` (R214): under another key it holds what it reads as. -/
def retag (s : State) (key pa : Nat) : State :=
  if paTop pa = 1 then s else
  match tabFind s.tags (pa / 64) with
  | some t => if t.key = key then s
    else
      let u := pa / 64
      { s with mem := putBytes memSet s.mem (u * 64) (unitAs s.mem t key u),
               tags := tabSet s.tags u { key, lines := t.lines.filter (fun l => l.key != key) ++ heldLines s t u } }
  | none => { s with tags := tabSet s.tags (pa / 64) { key, lines := [] } }

/-- One byte written under a key. -/
def writeByte (s : State) (key pa : Nat) (b : Byte) : State :=
  let s := retag s key pa
  { s with mem := memSet s.mem pa b }

/-- `n` bytes read under a key. -/
def readBytes (s : State) (key pa n : Nat) : List Byte := bytesOf (readByte s key) pa n

/-- Every monitor on a 256-byte line that holds one of `n` bytes wakes (R314, R327), and host copies of their units are
invalidated (R370). -/
def noteWrite (s : State) (pa n : Nat) : State :=
  { s with monitors := s.monitors.map (fun m => if pa / 256 ≤ m.line ∧ m.line ≤ (pa + n - 1) / 256 then { m with woken := true } else m),
           hostLines := s.hostLines.filter (fun u => !(pa / 64 ≤ u && u ≤ (pa + n - 1) / 64)) }

/-- The lines of words that a write has replaced, under whatever key they were held. -/
def dropLines (s : State) (pa n : Nat) : State :=
  match tabFind s.tags (pa / 64), tabFind s.tags ((pa + n - 1) / 64) with
  | some t, some t' =>
    if t.lines.isEmpty && t'.lines.isEmpty && n ≤ 64 then s else
    { s with tags := s.tags.map (fun p =>
        (p.1, { p.2 with lines := p.2.lines.filter (fun l => !(pa / 4 ≤ l.word && l.word ≤ (pa + n - 1) / 4)) })) }
  | _, _ => s

/-- Bytes written under a key, with what a write performed at a home brings about. -/
def writeBytes (s : State) (key pa : Nat) (bs : List Byte) : State :=
  if bs.isEmpty then s
  else noteWrite (dropLines (putBytes (fun s a b => writeByte s key a b) s pa bs) pa bs.length) pa bs.length

/-- The 32-bit word number `w` as read under a key. -/
def readWord (s : State) (key w : Nat) : Word := BitVec.ofNat 32 (leNat (readBytes s key (4 * w) 4))

/-! ### Registration (R211, R224, R225) -/

/-- Registration of a word; `none` is V. -/
def regOf (s : State) (w : Nat) : Option Reg := tabFind s.reg w

/-- The word moves to a registered state. -/
def setReg (s : State) (w : Nat) (r : Reg) : State := { s with reg := tabSet s.reg w r }

/-- The word moves to V. -/
def clearReg (s : State) (w : Nat) : State := { s with reg := tabDel s.reg w }

/-- The key under which a word's line is held: that of an L1 line which another owner's write has not reached, else its
unit's tag (R214). -/
def lineKey (s : State) (w : Nat) : Option Nat :=
  (tabFind s.tags (w / 16)).map (fun t => ((t.lines.find? (fun l => l.word == w)).map (·.key)).getD t.key)

/-- A unit at its last released values (R225), under a key. -/
def releasedUnit (s : State) (key u : Nat) : List Byte :=
  (List.range 16).flatMap (fun i => leBytes 4 (match regOf s (u * 16 + i) with
    | some (.owned _ last _) => last
    | _ => readWord s key (u * 16 + i)).toNat)

/-- The last released value of a word (R225); under another key than its own it is noise (R214). -/
def lastReleased (s : State) (key w : Nat) : Word :=
  match regOf s w with
  | some (.owned _ last _) =>
    (match lineKey s w with
     | some k => if k = key then last
       else BitVec.ofNat 32 (leNat ((recode k key (w / 16) (releasedUnit s k (w / 16))).extract (4 * (w % 16)) (4 * (w % 16) + 4)))
     | none => last)
  | _ => readWord s key w

/-- The address that names the same byte of a die's memory in the other mode (R209, R210). -/
def aliasOf (pa : Nat) : Nat :=
  if bitAt pa 46 then bits pa 12 2 * 2 ^ 44 + (bits pa 14 32 * 4096 + bits pa 0 12)
  else 2 ^ 46 + bits pa 12 32 * 2 ^ 14 + bits pa 44 2 * 4096 + bits pa 0 12

/-- R210: where a word's alias has been written too, a load returns a value written through either address, or the
memory's earlier contents. That a load of the agent's own O(c) word, a copy, and a word whose alias has never been written take
the address's own value is the model's choice (log 2). -/
def aliasChoice (s : State) (key w : Nat) (x : Word) : Word :=
  if paTop (4 * w) ≠ 0 then x else
  let v := aliasOf (4 * w)
  match tabFind s.tags (v / 64) with
  | none => x
  | some _ => match Config.freeNat .dualMode s.free w % 3 with
    | 0 => x
    | 1 => readWord s key (v / 4)
    | _ => Config.earlierWord s.free w

/-- How a detected race is reported (R227, R228). -/
inductive Race | race | frozen
  deriving DecidableEq, Repr

/-- A plain load of a word by an agent (R224, R227): its value, and whether it races. -/
def loadWord (s : State) (a : Option Agent) (key w : Nat) : Word × Bool :=
  match regOf s w with
  | some (.owned c _ _) => if a = some c then (readWord s key w, false) else (lastReleased s key w, true)
  | some (.claimed n _) => (readWord s key w, a ≠ some n)
  | _ => (aliasChoice s key w (readWord s key w), false)

/-- Whether a plain store or an atomic by an agent races on a word (R224, R233). -/
def writeRace (s : State) (a : Option Agent) (w : Nat) : Option Race :=
  match regOf s w with
  | some (.owned c _ _) => if a = some c then none else some .race
  | some (.claimed n _) => if a = some n then none else some .race
  | some (.frozen _) => some .frozen
  | some (.released _ _) => none
  | none => none

/-- Host memory carries no registration (R368). -/
def registers (w : Nat) : Bool := paTop (4 * w) != 1

/-- Registration after a plain store by `a` that does not race (R224). -/
def regStore (s : State) (a : Agent) (key w : Nat) (va : DWord) : State :=
  if !registers w then s else
  match regOf s w with
  | some (.owned _ _ _) => s
  | some (.claimed _ _) => s
  | _ => setReg s w (.owned a (readWord s key w) va)

/-- Registration after an atomic by `a` that does not race (R224, R226): near registers the word to the issuer, far
leaves it in V; a word of the issuer's own agent stays. -/
def regAtomic (s : State) (a : Agent) (near : Bool) (w : Nat) (va : DWord) : State :=
  if !registers w then s else
  match regOf s w with
  | some (.owned _ _ _) => s
  | some (.claimed _ _) => s
  | _ => if near then setReg s w (.released a va) else clearReg s w

/-- The line of a registered word under another address (R208: a fill under a second address moves it). -/
def moveLine (s : State) (w : Nat) (va : DWord) : State :=
  match regOf s w with
  | some (.owned a l v) => if v = va then s else setReg s w (.owned a l va)
  | some (.released a v) => if v = va then s else setReg s w (.released a va)
  | _ => s

/-- The release of an agent (R220): every word in O(c) moves to S(c), and its line's monitors wake (R327). -/
def releaseReg (c : Agent) : Tab Reg → Tab Reg
  | [] => []
  | (w, .owned a l va) :: t => (w, if a = c then .released a va else .owned a l va) :: releaseReg c t
  | (w, r) :: t => (w, r) :: releaseReg c t

/-- Words in O(c). -/
def ownedBy (c : Agent) : Tab Reg → List Nat
  | [] => []
  | (w, .owned a _ _) :: t => if a = c then w :: ownedBy c t else ownedBy c t
  | _ :: t => ownedBy c t

/-- The release of an agent, with the monitors that it wakes. -/
def releaseAgent (s : State) (c : Agent) : State :=
  let ws := ownedBy c s.reg
  if ws.isEmpty then s else
  { s with reg := releaseReg c s.reg,
           monitors := s.monitors.map (fun m => if ws.any (fun w => 4 * w / 256 == m.line) then { m with woken := true } else m) }

/-- The save of an agent (R224): its words go to V. -/
def settleReg (c : Agent) : Tab Reg → Tab Reg
  | [] => []
  | (w, .owned a l va) :: t => if a = c then settleReg c t else (w, .owned a l va) :: settleReg c t
  | (w, .released a va) :: t => if a = c then settleReg c t else (w, .released a va) :: settleReg c t
  | (w, r) :: t => (w, r) :: settleReg c t

/-- The save of an agent (R224, R320 step 5). -/
def settleAgent (s : State) (c : Agent) : State :=
  let s := releaseAgent s c
  { s with reg := settleReg c s.reg }

/-- The offline dies that are homes of words that an agent owns (R236). A package that can no longer be reached counts as
complete for a release (R334; log 21). -/
def offlineOf (s : State) (c : Agent) : List Nat :=
  ((ownedBy c s.reg).filterMap (fun w => match presence s (4 * w) with
    | .offline d => if d < 4 then some d else none
    | .present => none
    | .absent => none)).eraseDups

/-- Whether a word that an agent owns is homed on a die that is offline (R236). -/
def ownsOffline (s : State) (c : Agent) : Bool := !(offlineOf s c).isEmpty

/-! ### Copies (R208, R221, R225, R231) -/

/-- Whether an acquire of a control core has covered the copy under this address (R221). -/
def Copy.isBarred (c : Copy) (asid : BitVec 16) (va : DWord) : Bool :=
  c.barred.any (fun r => r.1 == asid && r.2.1 ≤ va.toNat && va.toNat < r.2.2)

/-- The unregistered copy of a word that a load at `site` hits: a compute core's L1 is tagged by ASID and address (R208), a
control core's cache by physical address (R18). -/
def copyAt (s : State) (site : Site) (asid : BitVec 16) (va : DWord) (w : Nat) : Option Copy :=
  match s.copies with
  | [] => none
  | l => l.find? (fun c => c.site == site && c.word == w &&
      (match site with | .core _ => c.asid == asid && c.va == va | _ => !c.isBarred asid va))

/-- The value of that copy. -/
def copyHit (s : State) (site : Site) (asid : BitVec 16) (va : DWord) (w : Nat) : Option Word :=
  (copyAt s site asid va w).map (·.val)

/-- Two compute cores of one cluster, whose L1s hold at most one copy of a word under different addresses (R208). -/
def sameCluster (a b : Site) : Bool :=
  match a, b with
  | .core m, .core n => m / 8 == n / 8
  | .ctl m, .ctl n => m == n
  | _, _ => false

/-- The copies of a word other than those that a line under this address at `site` leaves (R208): none at the site itself, and
none under another address in its cluster. -/
def otherCopies (l : List Copy) (site : Site) (asid : BitVec 16) (va : DWord) (w : Nat) : List Copy :=
  l.filter (fun c => !(c.word == w && (c.site == site || (sameCluster c.site site && (c.va != va || c.asid != asid)))))

/-- The context of an agent's lines in its L1. -/
def agentAsid (s : State) : Agent → Option (BitVec 16)
  | .group g => (s.groups[g]?).map (·.ctx.asid)
  | _ => none

/-- Whether an agent's registered line of a word lies in the L1 of another core of the cluster under another address than the
one that `site` fills (R208). -/
def synonymLine (s : State) (site : Site) (asid : BitVec 16) (va : DWord) (a : Agent) (v : DWord) : Bool :=
  match agentSite s a with
  | some x => x != site && sameCluster x site && (v != va || agentAsid s a != some asid)
  | none => false

/-- The registered line of a word leaves the L1 in which it lies under another address than one that `site` fills (R208: the
word moves to the new line). Its registration stays (log 14). -/
def leaveLine (s : State) (site : Site) (asid : BitVec 16) (va : DWord) (w : Nat) : State :=
  match regOf s w with
  | some (.owned a _ v) => if synonymLine s site asid va a v then moveLine s w evictedVa else s
  | some (.released a v) => if synonymLine s site asid va a v then moveLine s w evictedVa else s
  | _ => s

/-- A copy of a word is filled; a line under another virtual address in the cluster moves to the new one (R208). -/
def fillCopy (s : State) (site : Site) (asid : BitVec 16) (va : DWord) (w : Nat) (v : Word) : State :=
  leaveLine { s with copies := { site, asid, va, word := w, val := v, barred := [] } :: otherCopies s.copies site asid va w }
    site asid va w

/-- The copies that go when a store or an atomic of an agent at `site` acts on a word: those at the site, which it makes
registered (R221), and synonyms in the cluster (R208). -/
def dropWord (s : State) (site : Site) (asid : BitVec 16) (va : DWord) (w : Nat) : State :=
  match s.copies with
  | [] => s
  | l => { s with copies := otherCopies l site asid va w }

/-- The copies at a place whose words an agent there comes to hold otherwise than by a store (R221, R229). -/
def dropAt (s : State) (site : Site) (w : Nat) : State :=
  match s.copies with
  | [] => s
  | l => { s with copies := l.filter (fun c => !(c.site == site && c.word == w)) }

/-- Whether an agent of the place holds the word, so that its copy there is no unregistered one (R221). -/
def heldAt (s : State) (site : Site) (w : Nat) : Bool :=
  match regOf s w with
  | some (.owned a _ _) => agentSite s a == some site
  | some (.released a _) => agentSite s a == some site
  | _ => false

/-- Whether a word is in O or E (R211). -/
def heldWord (s : State) (w : Nat) : Bool :=
  match regOf s w with
  | some (.owned _ _ _) | some (.claimed _ _) => true
  | some (.released _ _) | some (.frozen _) | none => false

/-- Unregistered copies of the 64-byte sector of `pa` that a load that misses, or a prefetch, brings in (R230, R231, R16): all
its words at one time, at their last released values under the address itself, whatever its alias holds (R210: unspecified; DESIGN
CHOICE, log 2); a word in O or E only for a prefetch (R231). -/
def fillSector (s : State) (site : Site) (asid : BitVec 16) (va : DWord) (key pa : Nat) (prefetch : Bool) : State :=
  if paTop pa = 1 then s else
  let u := pa / 64
  let vb := va.toNat / 64 * 64
  let s := { s with copies := s.copies.filter (fun c => !(c.site == site && c.word / 16 == u)) }
  (List.range 16).foldl (fun s i =>
    let w := u * 16 + i
    if heldAt s site w || (!prefetch && heldWord s w) then s
    else fillCopy s site asid (BitVec.ofNat 64 (vb + 4 * i)) w (lastReleased s key w)) s

end Sys2Proof.Machine
end

