-- ==== Sys2Proof/Machine/Walk.lean ====
section
/-! DEFINITION. Translation (16 R323 to R329): page-table entries, the walk, permission, presence; the choice between a
cached entry and the table (R328) and among a disagreeing group of sixteen (R326). -/

namespace Sys2Proof.Machine

/-- What an access needs of a leaf (R324, R325, R400). -/
inductive Use | load | store | atomic | fetch
  deriving DecidableEq, Repr

/-- The access code of a fault-queue entry (R304). -/
def Use.code : Use → Nat
  | .load => 0 | .store => 1 | .atomic => 2 | .fetch => 3

/-- The place in translation hardware: cluster 0 to 47, I/O die TLB 48 or 49 (R17, R328). A core id is die × 128 + core
(R11). -/
def Site.cluster : Site → Nat
  | .core n => n / 128 * 12 + n % 128 / 8
  | .ctl n => n / 24 * 12 + n % 24 / 2
  | .iod n => 48 + n

/-- The die as the ASID table numbers it: 0 to 3, I/O dies 4 and 5 (R329). -/
def Site.die : Site → Nat
  | .core n => n / 128
  | .ctl n => n / 24
  | .iod n => 4 + n

/-- Bits 63 to 55 of an address agree (R239, R323). -/
def canonical (va : DWord) : Bool := va.toNat / 2 ^ 55 == 0 || va.toNat / 2 ^ 55 == 2 ^ 9 - 1

/-! ### Entries (R324) -/

def pteV (e : DWord) : Bool := e.getLsbD 0
def pteL (e : DWord) : Bool := e.getLsbD 1
def pteR (e : DWord) : Bool := e.getLsbD 2
def pteW (e : DWord) : Bool := e.getLsbD 3
def pteX (e : DWord) : Bool := e.getLsbD 4
def pteU (e : DWord) : Bool := e.getLsbD 5
def pteC (e : DWord) : Bool := e.getLsbD 6
/-- Physical address bits 55 to 12. -/
def pteFrame (e : DWord) : Nat := bits e.toNat 12 44 * 4096
/-- The owner key id of a leaf. -/
def pteKey (e : DWord) : Nat := bits e.toNat 58 6 * 16 + bits e.toNat 8 4

/-- A valid entry of level `l` that breaks R324. -/
def pteMalformed (l : Nat) (e : DWord) : Bool :=
  let n := e.toNat
  if !pteL e then l == 0 || bits n 56 8 != 0 || bits n 2 10 != 0
  else l == 4 || l == 3 || bits n 56 2 != 0 || bitAt n 7 || (pteC e && l != 0) || (pteW e && !pteR e)
    || (l == 1 && bits n 12 9 != 0) || (l == 2 && bits n 12 18 != 0)

/-- What a walk ends at (R325): a leaf with the address it gives, an invalid entry with its address, an entry whose home is
offline (R236), or a failure. -/
inductive WalkEnd
  | leaf (e : DWord) (pa : Nat)
  | invalid (pte : Nat)
  | offline (d : Nat)
  | failed
  deriving DecidableEq, Repr

/-- A page-table entry at its last released value, under the context's key (R323, R327); `none` where its address is
absent, its unit poisoned (R381) or the key empty. -/
def readEntry (s : State) (c : Ctx) (pa : Nat) : Option DWord :=
  if s.poison.contains (pa / 64) then none else
  match keyFor s pa c.key.toNat, presence s pa with
  | some k, .present =>
    some (BitVec.ofNat 64 ((lastReleased s k (pa / 4)).toNat + (lastReleased s k (pa / 4 + 1)).toNat * 2 ^ 32))
  | _, _ => none

/-- The entry a walk uses: the cached one where it differs from the table only by choice (R328). -/
def pickEntry (s : State) (site : Site) (c : Ctx) (l index : Nat) (e : DWord) : DWord :=
  match s.xlat.find? (fun x => x.cluster == site.cluster && x.asid == c.asid && x.level == l && x.index == index) with
  | none => e
  | some x => if x.entry = e then e else if Config.freeNat .entry s.free (8 * index + l) % 2 = 0 then x.entry else e

/-- The entries that a walk reads for the TLB and the walk cache: level, index, entry, whether it stands for its 64 KiB page. -/
abbrev Fills := List (Nat × Nat × DWord × Bool)

/-- The address that a level-0 entry gives, alone for its 4 KiB or, as number `j` of its sixteen, for its 64 KiB (R326). -/
def leafEnd (e : DWord) (whole : Bool) (j va : Nat) : WalkEnd :=
  if pteMalformed 0 e then .failed
  else if whole then .leaf e ((pteFrame e + 2 ^ 56 - 4096 * j + va % 65536) % 2 ^ 56)
  else .leaf e (pteFrame e + va % 4096)

/-- The address a 4 KiB entry gives, or one of its group of sixteen (R326), with what the TLB keeps of it. -/
def smallLeaf (s : State) (c : Ctx) (va : Nat) (pa index : Nat) (e : DWord) : WalkEnd × Fills :=
  if !pteC e then (leafEnd e false 0 va, [(0, index, e, false)]) else
  let base := pa / 128 * 128
  let es := (List.range 16).map (fun j => (readEntry s c (base + 8 * j)).getD 0)
  let i := pa / 8 % 16
  if !(es.all (fun x => pteV x && pteC x)) then (leafEnd e false 0 va, [(0, index, e, false)])
  else
    let same := (List.range 16).all (fun j =>
      let x := es.getD j 0
      x.toNat % 4096 == e.toNat % 4096 && bits x.toNat 56 8 == bits e.toNat 56 8
        && pteFrame x + 4096 * i == pteFrame e + 4096 * j)
    let j := if same then i else Config.freeNat .leaf s.free (va / 65536) % 16
    let x := if same then e else es.getD j 0
    (leafEnd x true j va, [(0, index / 16 * 16 + j, x, true)])

/-- The walk from a table of level `l` (R323), with the entries it fills into the TLB and the walk cache. -/
def walkFrom (s : State) (site : Option Site) (c : Ctx) (va : Nat) : (l : Nat) → (tbl : Nat) → WalkEnd × Fills
  | l, tbl =>
    let shift := 12 + 9 * l
    let idx := va / 2 ^ shift % 512
    let pa := tbl + 8 * (if l = 4 then idx % 256 else idx)
    match presence s pa, readEntry s c pa with
    | .offline d, _ => (.offline d, [])
    | _, none => (.failed, [])
    | _, some t =>
      let index := va % 2 ^ 56 / 2 ^ shift
      let e := match site with
        | some p => pickEntry s p c l index t
        | none => t
      if !pteV e then (.invalid pa, [])
      else match l with
        | 0 => if !pteL e then (.failed, []) else smallLeaf s c va pa index e
        | n + 1 =>
          if pteMalformed (n + 1) e then (.failed, [])
          else if pteL e then (.leaf e (pteFrame e + va % 2 ^ shift), [(n + 1, index, e, false)])
          else
            let r := walkFrom s site c va n (pteFrame e)
            (r.1, (n + 1, index, e, false) :: r.2)

/-- What an access to an address meets (R239 steps 2 and 3, R325). -/
inductive Xlat
  | ok (pa key : Nat)
  | page (pte : Nat)
  | access
  | offline (d : Nat)
  deriving DecidableEq, Repr

/-- R325: the permission bits that a use needs; only a privileged control core ignores U. -/
def permits (priv : Bool) (u : Use) (e : DWord) : Bool :=
  (priv || pteU e) && (match u with
    | .load => pteR e
    | .store => pteW e
    | .atomic => pteR e && pteW e
    | .fetch => pteX e)

/-- What a walk's end means for an access (R325, R209, R336). -/
def walkOutcome (s : State) (priv : Bool) (u : Use) : WalkEnd → Xlat
  | .failed => .access
  | .offline d => .offline d
  | .invalid pte => .page pte
  | .leaf e pa =>
    if !permits priv u e then .access
    else match keyFor s pa (pteKey e), presence s pa with
      | none, _ => .access
      | some _, .absent => .access
      | some k, .present => .ok pa k
      | some _, .offline d => .offline d

/-- The outcome of one address without a TLB: the device's own accesses for a context (R400). -/
def deviceXlat (s : State) (c : Ctx) (u : Use) (va : DWord) : Xlat :=
  if !canonical va then .access
  else walkOutcome s false u (walkFrom s none c va.toNat 4 c.root.toNat).1

/-- Entries of a walk enter the TLB and the walk cache, and presence is noted (R328, R329). -/
def fillXlat (s : State) (site : Site) (asid : BitVec 16) (es : Fills) : State :=
  if es.isEmpty then s else
  let cl := site.cluster
  let old := s.xlat.filter (fun x => !(x.cluster == cl && x.asid == asid && es.any (fun e => e.1 == x.level && e.2.1 == x.index)))
  let a := tabGet { presence := 0, busy := false } s.asids asid.toNat
  { s with
    xlat := es.map (fun e => { cluster := cl, asid, level := e.1, index := e.2.1, entry := e.2.2.1, whole := e.2.2.2 }) ++ old,
    asids := tabSet s.asids asid.toNat { a with presence := a.presence ||| BitVec.ofNat 6 (2 ^ site.die) } }

/-- Whether a cached entry holds an address or lies on its walk's path; a 64 KiB page is held whole (R326, R330). -/
def entryCovers (x : XEntry) (va : Nat) : Bool :=
  let i := va % 2 ^ 56 / 2 ^ (12 + 9 * x.level)
  x.index == i || (x.whole && x.index / 16 == i / 16)

/-- Where an access goes that uses a cached leaf. -/
def cachedEnd (va : Nat) (x : XEntry) : WalkEnd :=
  if x.level = 0 then leafEnd x.entry x.whole (x.index % 16) va else .leaf x.entry (pteFrame x.entry + va % 2 ^ (12 + 9 * x.level))

/-- What an access through a TLB translates by: the table as it stands, or a leaf cached for its address where that differs,
by choice (R328). -/
def walkCached (s : State) (site : Site) (c : Ctx) (va : Nat) : WalkEnd × Fills :=
  let r := walkFrom s (some site) c va 4 c.root.toNat
  let hits := (s.xlat.filter (fun x => x.cluster == site.cluster && x.asid == c.asid && pteL x.entry && entryCovers x va)).map (cachedEnd va)
  match hits.filter (fun e => !(e == r.1)) with
  | [] => r
  | l => match l[Config.freeNat .entry s.free (8 * (va / 4096) + 5) % (l.length + 1)]? with
    | none => r
    | some e => (e, [])

/-- The outcome of one address of an instruction, and the machine with what the walk filled. -/
def translate (s : State) (site : Site) (c : Ctx) (priv : Bool) (u : Use) (va : DWord) : Xlat × State :=
  if !canonical va then (.access, s)
  else
    let r := walkCached s site c va.toNat
    (walkOutcome s priv u r.1, fillXlat s site c.asid r.2)

/-- Arm a monitor on the line of an invalid entry (R314). -/
def armMonitor (s : State) (pte : Nat) (w : Waiter) : State :=
  if s.monitors.any (fun m => m.line == pte / 256 && m.waiter == w && !m.woken) then s
  else { s with monitors := s.monitors ++ [{ line := pte / 256, waiter := w, woken := false }] }

end Sys2Proof.Machine
end

