-- ==== Sys2Proof/Machine/Galley.lean ====
section
/-! DEFINITION. The device's own accesses for a context (R400), queue descriptors and galleys (R284 to R286), the
context record (R317) and the posting of fault-queue entries (R304, R305). -/

namespace Sys2Proof.Machine

/-! ### Device accesses -/

/-- The outcome of a device read or write: done, a page that is not valid, any other failure, an offline home. -/
inductive Dev (α : Type)
  | ok (x : α)
  | page (va : DWord) (pte : Nat)
  | fail (va : DWord)
  | offline (d : Nat)
  deriving DecidableEq, Repr

/-- `n` words of memory read by the device for a context, at their last released values. -/
def devRead (s : State) (c : Ctx) : DWord → Nat → Dev (List Byte)
  | _, 0 => .ok []
  | va, n + 1 =>
    match deviceXlat s c .load va with
    | .page p => .page va p
    | .access => .fail va
    | .offline d => .offline d
    | .ok pa k =>
      match devRead s c (va + 4) n with
      | .ok bs => .ok (leBytes 4 (lastReleased s k (pa / 4)).toNat ++ bs)
      | e => e

/-- Where `n` words of a range lie, each with its key. -/
def devPlan (s : State) (c : Ctx) (u : Use) : DWord → Nat → Dev (List (Nat × Nat))
  | _, 0 => .ok []
  | va, n + 1 =>
    match deviceXlat s c u va with
    | .page p => .page va p
    | .access => .fail va
    | .offline d => .offline d
    | .ok pa k =>
      match devPlan s c u (va + 4) n with
      | .ok l => .ok ((pa, k) :: l)
      | e => e

/-- A word put at a place by the device; a word in F is never written (R233, R346; log 39). -/
def putWord (s : State) (k pa : Nat) (bs : List Byte) : State :=
  match regOf s (pa / 4) with
  | some (.frozen _) => s
  | _ => writeBytes s k pa bs

/-- Bytes put at planned words. -/
def writePlan (s : State) : List (Nat × Nat) → List Byte → State
  | [], _ => s
  | (pa, k) :: l, bs => writePlan (putWord s k pa (bs.take 4)) l (bs.drop 4)

/-- Words of memory written by the device for a context, which leave their registration as it is. -/
def devWrite (s : State) (c : Ctx) (va : DWord) (bs : List Byte) : Dev State :=
  match devPlan s c .store va (bs.length / 4) with
  | .ok l => .ok (writePlan s l bs)
  | .page v p => .page v p
  | .fail v => .fail v
  | .offline d => .offline d

/-- Where a fixed physical address of a context lies, if its home and the context's key are there (R400). -/
inductive Fixed | at (key : Nat) | gone | offline (d : Nat)
  deriving DecidableEq, Repr

/-- A fixed physical address of a context (R400, R119). -/
def fixedAt (s : State) (c : Ctx) (pa : Nat) : Fixed :=
  match keyFor s pa c.key.toNat, presence s pa with
  | none, _ => .gone
  | some _, .absent => .gone
  | some k, .present => .at k
  | some _, .offline d => .offline d

/-- A word as an agent reads it that never races: its own unreleased value, else the last released one (R225, R254). -/
def ownReleased (s : State) (a : Option Agent) (key w : Nat) : Word :=
  match regOf s w with
  | some (.owned c last _) => if a = some c then readWord s key w else last
  | _ => readWord s key w

/-- Bytes at a fixed physical address, read so on behalf of an agent or of the device. -/
def fixedBytes (s : State) (a : Option Agent) (key pa n : Nat) : List Byte :=
  bytesOf (fun i => (leBytes 4 (ownReleased s a key (i / 4)).toNat).getD (i % 4) 0) pa n

/-- Bytes `off` to `off + n - 1` behind the page-table root, read with the context's key (R323, R317, R332, R366). -/
def rootRead (s : State) (c : Ctx) (off n : Nat) : Option (List Byte) :=
  let pa := c.root.toNat + off
  match fixedAt s c pa with
  | .at k => some (fixedBytes s none k pa n)
  | .gone => none
  | .offline _ => none

/-- A field of the context record (R317). -/
def recordField (s : State) (c : Ctx) (off n : Nat) : Nat := leNat ((rootRead s c (0x1000 + off) n).getD [])

/-! ### Queue descriptors (R284) -/

/-- The fields of a well-formed queue descriptor. -/
structure QDesc where
  mode : Nat
  die : Nat
  base : DWord
  lsz : Nat
  head : DWord
  tail : DWord
  count : DWord
  lost : DWord
  deriving DecidableEq, Repr

/-- Bytes `off` to `off + n - 1` of a list as a number. -/
def field (bs : List Byte) (off n : Nat) : Nat := leNat ((bs.drop off).take n)

/-- R284: `none` for a malformed descriptor. -/
def QDesc.parse (bs : List Byte) : Option QDesc :=
  let lsz := field bs 16 1
  let base := field bs 8 8
  if field bs 0 2 = 0x5144 ∧ field bs 2 1 ≤ 2 ∧ field bs 3 1 = 0 ∧ field bs 4 1 ≤ 3 ∧ field bs 5 3 = 0 ∧
      8 ≤ lsz ∧ lsz ≤ 32 ∧ base % 2 ^ lsz = 0 ∧ field bs 17 7 = 0 ∧ field bs 56 8 = 0 ∧
      (field bs 2 1 = 2 ∨ field bs 48 8 = 0) then
    some { mode := field bs 2 1, die := field bs 4 1, base := BitVec.ofNat 64 base, lsz,
           head := BitVec.ofNat 64 (field bs 24 8), tail := BitVec.ofNat 64 (field bs 32 8),
           count := BitVec.ofNat 64 (field bs 40 8), lost := BitVec.ofNat 64 (field bs 48 8) }
  else none

/-- The bytes 24 to 55 of a descriptor. -/
def QDesc.counters (d : QDesc) : List Byte :=
  leBytes 8 d.head.toNat ++ leBytes 8 d.tail.toNat ++ leBytes 8 d.count.toNat ++ leBytes 8 d.lost.toNat

/-! ### Galleys (R285) -/

/-- Where a record of `len` payload bytes goes: the skip record's length if one is needed, the record's position and
the tail after it; `none` when the galley is full. -/
def galleyPlan (lsz : Nat) (head tail : DWord) (len : Nat) : Option (Option Nat × Nat × DWord) :=
  let z := 2 ^ lsz
  let p := tail.toNat % z
  let rest := z - p
  let fits := 8 + len ≤ rest
  let tail' := tail + BitVec.ofNat 64 (if fits then 8 + len else rest + 8 + len)
  if (tail' - head).toNat ≤ z then some (if fits then none else some (rest - 8), if fits then p else 0, tail') else none

/-- A galley operation that could not be performed. -/
inductive Galley (α : Type)
  | ok (x : α)
  | full | empty | corrupt
  | page (va : DWord) (pte : Nat)
  | offline (d : Nat)
  deriving DecidableEq, Repr

/-- R290: a galley page that fails as ACCESS or is absent makes the galley corrupt. -/
def Dev.galley {α : Type} : Dev α → Galley α
  | .ok x => .ok x
  | .page v p => .page v p
  | .fail _ => .corrupt
  | .offline d => .offline d

/-- Append a record at the tail (R285, R290). -/
def galleyAppend (s : State) (c : Ctx) (base : DWord) (lsz : Nat) (head tail : DWord) (payload : List Byte) :
    Galley (State × DWord) :=
  match galleyPlan lsz head tail payload.length with
  | none => .full
  | some (skip, pos, tail') =>
    let rec8 := leBytes 8 (payload.length + 2 ^ 16) ++ payload
    let s1 := match skip with
      | none => Dev.ok s
      | some n => devWrite s c (base + BitVec.ofNat 64 (tail.toNat % 2 ^ lsz)) (leBytes 8 n)
    match s1 with
    | .ok s1 =>
      match devWrite s1 c (base + BitVec.ofNat 64 pos) rec8 with
      | .ok s2 => .ok (s2, tail')
      | .page v p => .page v p
      | .fail _ => .corrupt
      | .offline d => .offline d
    | .page v p => .page v p
    | .fail _ => .corrupt
    | .offline d => .offline d

/-- The oldest record of a galley and the head behind it, passing skips (R285). -/
def galleyTake (s : State) (c : Ctx) (base : DWord) (lsz : Nat) (tail : DWord) : Nat → DWord → Galley (List Byte × DWord)
  | 0, _ => .corrupt
  | fuel + 1, head =>
    if head = tail then .empty else
    let pos := head.toNat % 2 ^ lsz
    match devRead s c (base + BitVec.ofNat 64 pos) 2 with
    | .page v p => .page v p
    | .fail _ => .corrupt
    | .offline d => .offline d
    | .ok hb =>
      let h := leNat hb
      let len := h % 2 ^ 16
      let kind := h / 2 ^ 16 % 256
      let head' := head + BitVec.ofNat 64 (8 + len)
      if h / 2 ^ 24 ≠ 0 ∨ 1 < kind ∨ len % 8 ≠ 0 ∨ (tail - head).toNat < 8 + len ∨ 2 ^ lsz < pos + 8 + len then .corrupt
      else if kind = 0 then galleyTake s c base lsz tail fuel head'
      else if len < 8 ∨ 64 < len then .corrupt
      else match devRead s c (base + BitVec.ofNat 64 (pos + 8)) (len / 4) with
        | .ok bs => .ok (bs, head')
        | .page v p => .page v p
        | .fail _ => .corrupt
        | .offline d => .offline d

/-- The oldest record between head and tail. -/
def galleyOldest (s : State) (c : Ctx) (base : DWord) (lsz : Nat) (head tail : DWord) : Galley (List Byte × DWord) :=
  galleyTake s c base lsz tail ((tail - head).toNat / 8 + 1) head

/-! ### Fault-queue entries (R304, R305) -/

/-- The 32-byte payload. -/
def FaultEntry.bytes (e : FaultEntry) : List Byte :=
  leBytes 8 (e.kind + e.access * 2 ^ 8 + e.ctx.asid.toNat * 2 ^ 16 + e.originKind * 2 ^ 32)
    ++ leBytes 8 e.addr.toNat ++ leBytes 8 e.origin.toNat ++ leBytes 8 e.time.toNat

/-- Counted drops of a context in a die's buffer. -/
def Overflow.dropsOf (o : Overflow) (c : Ctx) : Nat := ((o.dropped.find? (fun p => p.1 == c)).map (·.2)).getD 0

/-- Whether an operation on the queue with a descriptor, other than one of control core `me`, has begun and waits on its galley
(R290). -/
def opWaits (s : State) (pa : Nat) (me : Option Nat) : Bool :=
  s.groups.any (fun gr => gr.life != .gone && gr.log.any (fun e => e.begun == some pa))
    || s.ctls.zipIdx.any (fun p => p.1.queue.any (fun q => q.1 == pa) && me != some p.2)

/-- Whether a DEQ of the fault queue with a descriptor waits on its galley, so that no posting is performed (R290, R304). -/
def faultBusy (s : State) (c : Ctx) (desc : DWord) : Bool :=
  match deviceXlat s c .load desc with
  | .ok pa _ => opWaits s pa none
  | .page _ => false
  | .access => false
  | .offline _ => false

/-- Append an entry to its context's fault queue: `none` where it counts as full (R305). `drops` are added to lost. -/
def faultAppend (s : State) (e : FaultEntry) (drops : Nat) : Option State :=
  let q := BitVec.ofNat 64 (recordField s e.ctx 16 8)
  if q.toNat % 64 ≠ 0 ∨ faultBusy s e.ctx q then none else
  match devRead s e.ctx q 16 with
  | .ok bs =>
    match QDesc.parse bs with
    | none => none
    | some d =>
      if d.mode ≠ 2 then none else
      match galleyAppend s e.ctx d.base d.lsz d.head d.tail e.bytes with
      | .ok (s1, tail') =>
        let lost := BitVec.ofNat 64 (min (d.lost.toNat + drops) (2 ^ 64 - 1))
        match devWrite s1 e.ctx (q + 24) ({ d with tail := tail', count := d.count + 1, lost } : QDesc).counters with
        | .ok s2 => some s2
        | _ => none
      | _ => none
  | _ => none

/-- Kinds that a full buffer drops: SHAPE_UNFIT, COUNTER_UNDER, HOST_RACE, COMPLETION_RACE, COMPLETION_FAULT (R305). -/
def droppable (kind : Nat) : Bool := kind == 3 || kind == 4 || kind == 5 || kind == 6 || kind == 8

/-- An entry posted on die `d` (0 to 3 compute, 4 and 5 I/O): into the galley, else into the die's buffer, else dropped
and counted or held by its poster (R305). -/
def post (s : State) (d : Nat) (e : FaultEntry) : State :=
  let o := s.overflow.getD d Overflow.empty
  let direct := if o.entries.any (fun x => x.ctx == e.ctx) then none else faultAppend s e (o.dropsOf e.ctx)
  match direct with
  | some s' => { s' with overflow := modAt s'.overflow d (fun o => { o with dropped := o.dropped.filter (fun p => p.1 != e.ctx) }) }
  | none =>
    { s with overflow := modAt s.overflow d (fun o =>
        if o.entries.length < 64 then { o with entries := o.entries ++ [e] }
        else if droppable e.kind then
          { o with dropped := (e.ctx, o.dropsOf e.ctx + 1) :: o.dropped.filter (fun p => p.1 != e.ctx) }
        else { o with held := o.held ++ [e] }) }

end Sys2Proof.Machine
end

