-- ==== Sys2Proof/Machine/Ops.lean ====
section
/-! DEFINITION. The named operations that meanings share: groups and fragments, register reads and writes with the W
rules (R71 to R75), taking an exception on either kind of core and returning from one (R120, R307 to R311), checked
accesses (R239), loads, stores and atomics at homes (R224 to R231), release and acquire (R220, R221), issue (R88). -/

namespace Sys2Proof.Machine

/-- The outcome of a meaning. -/
abbrev Out := Host.Outcome State Fault Refusal

/-! ### Time -/

/-- clk since package start: 17 clk in 10 ns (R3, R7). -/
def clk (s : State) : Nat := s.time.toNat * 17 / 10

/-! ### Groups and fragments -/

/-- A group changed in place. -/
def modGroup (s : State) (g : Nat) (f : Group → Group) : State := { s with groups := modAt s.groups g f }

/-- A block changed in place. -/
def modBlock (s : State) (b : Nat) (f : Block → Block) : State := { s with blocks := modAt s.blocks b f }

/-- Whether a group is on a core: its block is resident there. -/
def groupHere (s : State) (gr : Group) (core : Nat) : Bool :=
  gr.place == core && (match s.blocks[gr.block]? with
    | some b => b.life == .running
    | none => false)

/-- A control core changed in place. -/
def modCtl (s : State) (cc : Nat) (f : Ctl → Ctl) : State := { s with ctls := modAt s.ctls cc f }

/-- The fragment with a given id. -/
def Group.frag? (gr : Group) (f : Nat) : Option Frag := gr.frags.find? (fun x => x.id == f)

/-- A fragment of a group changed. -/
def Group.modFrag (gr : Group) (f : Nat) (h : Frag → Frag) : Group :=
  { gr with frags := gr.frags.map (fun x => if x.id == f then h x else x) }

/-- A fragment changed in place. -/
def modFrag (s : State) (g f : Nat) (h : Frag → Frag) : State := modGroup s g (fun gr => gr.modFrag f h)

/-- Threads of a mask in ascending order. -/
def threadsOf (m : Mask) (n : Nat) : List Nat := (List.range n).filter (fun t => m.getLsbD t)

/-- The lowest %tid of a mask, 256 for none. -/
def lowestTid (m : Mask) : Nat := ((threadsOf m 256).head?).getD 256

/-- Whether a party waits to issue its instruction again. -/
def Wait.again : Wait → Bool
  | .retry | .home _ _ => true
  | _ => false

/-- The issuing fragment with its group. -/
structure Cx where
  g : Nat
  f : Nat
  gr : Group
  fr : Frag
  deriving DecidableEq, Repr

/-- The fragment's lowest %tid, which a trap of a check that concerns no single thread records (R306). -/
def Cx.lowTid (c : Cx) : Nat := lowestTid c.fr.mask
def Cx.low (c : Cx) : DWord := BitVec.ofNat 64 c.lowTid

/-- The fragment's pc moved on by `n` bytes (R54). -/
def advance (s : State) (c : Cx) (n : Nat) : State :=
  modFrag s c.g c.f (fun fr => { fr with pc := c.fr.pc + BitVec.ofNat 64 n })

/-- The fragment's pc set. -/
def jump (s : State) (c : Cx) (pc : DWord) : State := modFrag s c.g c.f (fun fr => { fr with pc := pc })

/-- The fragment waits, with its pc where it is; `since` is when its wait began (R40). -/
def park (s : State) (c : Cx) (w : Wait) : State :=
  modFrag s c.g c.f (fun fr => { fr with wait := w, since := if c.fr.wait = .run then clk s else c.fr.since })

/-- The fragment waits on homes that are offline, since the first try of this instruction (R236, R316). -/
def parkHome (s : State) (c : Cx) (dies : List Nat) : State :=
  park s c (.home dies (match c.fr.wait with | .home _ t => t | _ => clk s))

/-! ### Registers of a group -/

/-- What a register holds, by its name. -/
def Group.read (gr : Group) : RegKey → DWord
  | .v t n => (tabGet 0 gr.v (t * 256 + n)).setWidth 64
  | .q t n => if tabGet false gr.q (t * 8 + n) then 1 else 0
  | .s n => tabGet 0 gr.s n
  | .k n => if tabGet false gr.k n then 1 else 0

/-- A register set, without a trace of the value before. -/
def Group.put (gr : Group) (key : RegKey) (x : DWord) : Group :=
  match key with
  | .v t n => { gr with v := tabPut 0 gr.v (t * 256 + n) (x.setWidth 32) }
  | .q t n => { gr with q := tabPut false gr.q (t * 8 + n) (x.getLsbD 0) }
  | .s n => { gr with s := tabPut 0 gr.s n x }
  | .k n => { gr with k := tabPut false gr.k n (x.getLsbD 0) }

/-- Whether a key names a uniform register or predicate. -/
def RegKey.uniform : RegKey → Bool
  | .s _ | .k _ => true
  | .v _ _ | .q _ _ => false

/-- What other reads may still return once fragment `f` has written a register: of a uniform register, every fragment sees
the write of another one that has issued (R187). -/
def Group.staying (gr : Group) (f : Nat) (key : RegKey) : List Older :=
  if key.uniform then gr.older.filter (fun o => !(o.key == key && o.frag != f)) else gr.older

/-- A register written by fragment `f`: unless the group runs interlocked, the value before stays one that a read with
W = 0 may return (R71, R73, R75). -/
def Group.write (gr : Group) (f : Nat) (key : RegKey) (x : DWord) : Group :=
  let o : Older := { frag := f, key, val := gr.read key }
  let l := gr.staying f key
  { gr.put key x with older := if gr.interlocked || l.contains o then l else l ++ [o] }

/-- Several registers written by a fragment. -/
def Group.writes (gr : Group) (f : Nat) : List (RegKey × DWord) → Group
  | [] => gr
  | (k, x) :: l => (gr.write f k x).writes f l

/-- A number that tells one operand read of an instruction from another, for the choice of R73. -/
def RegKey.salt : RegKey → Nat
  | .v t n => 4 * (t * 256 + n)
  | .q t n => 4 * (t * 256 + n) + 1
  | .s n => 4 * n + 2
  | .k n => 4 * n + 3

/-- A register read by fragment `f` as operand number `op` (R73): the newest value, or one that an outstanding write
of the fragment has not replaced yet. -/
def Group.get (gr : Group) (free f op : Nat) (key : RegKey) : DWord :=
  match gr.older.filter (fun o => o.frag == f && o.key == key) with
  | [] => gr.read key
  | l => ((l.map (·.val)) ++ [gr.read key]).getD (Config.freeNat .register free (key.salt * 8 + op) % (l.length + 1)) (gr.read key)

/-- Lane register `n` of thread `t`. -/
def Cx.v (c : Cx) (free op t n : Nat) : Word := (c.gr.get free c.f op (.v t n)).setWidth 32
/-- Predicate `n` of thread `t`. -/
def Cx.q (c : Cx) (free op t n : Nat) : Bool := (c.gr.get free c.f op (.q t n)).getLsbD 0
/-- Uniform register `n`. -/
def Cx.s (c : Cx) (free op n : Nat) : DWord := c.gr.get free c.f op (.s n)
/-- Uniform register `n` as thread `t` of a lane instruction reads it, each thread for itself (R73). -/
def Cx.st (c : Cx) (free op t n : Nat) : DWord := c.gr.get free c.f (op + 2 ^ 50 * (t + 1)) (.s n)
/-- Uniform predicate `n`. -/
def Cx.k (c : Cx) (free op n : Nat) : Bool := (c.gr.get free c.f op (.k n)).getLsbD 0

/-- Registers written by the issuing fragment. -/
def putRegs (s : State) (c : Cx) (l : List (RegKey × DWord)) : State := modGroup s c.g (fun gr => gr.writes c.f l)

/-- Threads a lane instruction acts on: active in the fragment and let through by the guard (R59). -/
def Cx.active (c : Cx) (free : Nat) (g : Option GuardQ) : List Nat :=
  let ts := threadsOf c.fr.mask c.gr.size
  match g with
  | none => ts
  | some gq => ts.filter (fun t => xor (c.q free 7 t gq.q.toNat) gq.neg)

/-- Whether a guarded uniform instruction of a fragment runs (R59). -/
def Cx.runs (c : Cx) (free : Nat) (g : Option GuardK) : Bool :=
  match g with
  | none => true
  | some gk => xor (c.k free 7 gk.k.toNat) gk.neg

/-- IEEE flags ORed into threads' %fflags (R133, R135); recipe code sets none (R345). -/
def Group.orFlags (gr : Group) (l : List (Nat × BitVec 5)) : Group :=
  if gr.run.isSome then gr else
  { gr with fflags := l.foldl (fun t p => if p.2 = 0 then t else tabPut 0 t p.1 (tabGet 0 t p.1 ||| p.2)) gr.fflags }

/-- The OR of %fflags over a fragment's threads (R115, R124, R136). -/
def Cx.fflags (c : Cx) : BitVec 5 := (threadsOf c.fr.mask c.gr.size).foldl (fun x t => x ||| tabGet 0 c.gr.fflags t) 0

/-! ### Control cores -/

/-- The context a control core is bound to (R122). -/
def Ctl.ctx (c : Ctl) : Ctx :=
  { asid := c.kbind.setWidth 16, root := (c.kbind &&& 0x00FFFFFFC0000000).setWidth 56, key := (c.kbind >>> 16).setWidth 10 }

/-- KSTATE as software reads it (R120). -/
def Ctl.kstate (c : Ctl) : Nat :=
  c.depth * 16 + (if c.ab then 8 else 0) + (if c.ie then 2 else 0) + (if c.pv then 1 else 0)

/-- KREC (R120). -/
def Ctl.krec (c : Ctl) : DWord := if c.depth = 0 then 0 else c.karea + BitVec.ofNat 64 (128 * (c.depth - 1))

def Ctl.sreg (c : Ctl) (n : Nat) : DWord := tabGet 0 c.s n
def Ctl.kreg (c : Ctl) (n : Nat) : Bool := tabGet false c.k n
def Ctl.setS (c : Ctl) (n : Nat) (x : DWord) : Ctl := { c with s := tabPut 0 c.s n x }
def Ctl.setK (c : Ctl) (n : Nat) (x : Bool) : Ctl := { c with k := tabPut false c.k n x }

/-- Whether a guarded uniform instruction of a control core runs (R59). -/
def Ctl.runs (c : Ctl) (g : Option GuardK) : Bool :=
  match g with
  | none => true
  | some gk => xor (c.kreg gk.k.toNat) gk.neg

/-- KCORE of a control core: die in [6:5], index in [4:0] (the card of KCORE). -/
def kcore (cc : Nat) : Nat := cc / 24 * 32 + cc % 24

/-- Whether a control core is active (R25). -/
def ctlEnabled (s : State) (cc : Nat) : Bool := (s.cfgCtl.getD (cc / 24) 0).getLsbD (cc % 24)

/-- A control core waits. -/
def parkCtl (s : State) (cc : Nat) (w : Wait) : State := modCtl s cc (fun c => { c with wait := w })

/-- The list with every element changed by its position. -/
def mapIdx {α : Type} (f : Nat → α → α) : Nat → List α → List α
  | _, [] => []
  | i, x :: l => f i x :: mapIdx f (i + 1) l

/-- INTERRUPT raised: bit `src` of KPEND is set on the enabled control cores that `dest` names (R121, R371). For source 7 the core
keeps the KCORE last given as the interrupt's aux: R121 and R306 do not say which one a merged raise, or a bit that software set,
leaves (DESIGN CHOICE, log 49). -/
def raiseSource (s : State) (src : Nat) (dest : Nat → Bool) (aux : Nat) : State :=
  { s with ctls := mapIdx (fun cc c =>
      if dest cc && ctlEnabled s cc then
        { c with kpend := c.kpend ||| BitVec.ofNat 8 (2 ^ src), source7 := if src = 7 then aux else c.source7 }
      else c) 0 s.ctls }

/-! ### Checked accesses (R239) -/

/-- On whose behalf an access is made; `home` for a recipe run, whose loads are performed at their homes (R344). -/
structure Who where
  site : Site
  ctx : Ctx
  priv : Bool
  agent : Agent
  home : Bool
  deriving DecidableEq, Repr

/-- A fragment of a group accesses as the group's agent (R215). -/
def Cx.who (c : Cx) : Who :=
  { site := .core c.gr.place, ctx := c.gr.ctx, priv := false, agent := .group c.g, home := c.gr.run.isSome }
/-- A control core (R215, R325). -/
def Ctl.who (c : Ctl) (cc : Nat) : Who := { site := .ctl cc, ctx := c.ctx, priv := c.pv, agent := .control cc, home := false }

/-- The outcome of the checks of R239. -/
inductive Checked
  | ok (l : List (Acc × Nat × Nat))
  | misalign (a : Acc)
  | access (a : Acc)
  | park (pages : List (DWord × Nat)) (dies : List Nat)
  deriving DecidableEq, Repr

/-- The number of words that `n` bytes at an aligned address lie in. -/
def wordCount (n : Nat) : Nat := (n + 3) / 4

/-- The address of the word that an address lies in. -/
def wordVa (va : DWord) : DWord := va &&& ~~~(3 : DWord)

/-- Whether an agent's registered words under an address have their line where an access is made (R208). -/
def ownLine (s : State) (w : Who) (a : Agent) : Bool := agentSite s a == some w.site && agentAsid s a == some w.ctx.asid

/-- The word that a compute core's L1 holds under an address of a context (R208): for a load, a word that an agent there has
registered or a copy; for a store or an atomic, an unreleased word of the agent itself. -/
def l1Word (s : State) (w : Who) (u : Use) (va : DWord) : Option Nat :=
  match s.reg.find? (fun p => match p.2 with
      | .owned a _ v => v == va && ownLine s w a && (u == .load || a == w.agent)
      | .released a v => v == va && u == .load && ownLine s w a
      | .claimed _ _ | .frozen _ => false) with
  | some p => some p.1
  | none => if u == .load then (s.copies.find? (fun c => c.site == w.site && c.asid == w.ctx.asid && c.va == va)).map (·.word)
    else none

/-- Whether the `k` words from an address on are the words from `n` on in the L1. -/
def l1Run (s : State) (w : Who) (u : Use) : DWord → Nat → Nat → Bool
  | _, _, 0 => true
  | va, n, k + 1 => l1Word s w u va == some n && l1Run s w u (va + 4) (n + 1) k

/-- An access that hits its core's L1 with every word: the lines are tagged by ASID and virtual address, and only misses are
translated (R17, R208). -/
def l1Hit (s : State) (w : Who) (u : Use) (a : Acc) : Option Nat :=
  match w.site with
  | .core _ =>
    if w.home || u == .fetch then none else
    (match l1Word s w u (wordVa a.va) with
     | none => none
     | some n => if l1Run s w u (wordVa a.va) n (wordCount a.n) then some (4 * n + a.va.toNat % 4) else none)
  | .ctl _ => none
  | .iod _ => none

/-- The key under which a unit of memory was last written. -/
def unitKey (s : State) (pa : Nat) : Nat := ((tabFind s.tags (pa / 64)).map (·.key)).getD 0

/-- One access: a hit in the L1, or its translation. -/
def xlatOne (s : State) (w : Who) (u : Use) (a : Acc) : Xlat × State :=
  match l1Hit s w u a with
  | some pa => (.ok pa ((lineKey s (pa / 4)).getD 0), s)
  | none => translate s w.site w.ctx w.priv u a.va

/-- Translate accesses one after another. -/
def xlatAll (s : State) (w : Who) (u : Use) : List Acc → List (Acc × Xlat) × State
  | [] => ([], s)
  | a :: l =>
    let r := xlatOne s w u a
    let rest := xlatAll r.2 w u l
    ((a, r.1) :: rest.1, rest.2)

/-- Whether accesses together cover a 64-byte unit (R381). -/
def covers (l : List (Acc × Nat × Nat)) (u : Nat) : Bool :=
  (List.range 64).all (fun i => l.any (fun p => p.2.1 ≤ u * 64 + i && u * 64 + i < p.2.1 + p.1.n))

/-- Whether an access meets a poisoned unit that the instruction does not store whole (R381). -/
def poisoned (s : State) (u : Use) (l : List (Acc × Nat × Nat)) (p : Acc × Nat × Nat) : Bool :=
  s.poison.any (fun x => x == p.2.1 / 64 && !(u == .store && covers l x))

/-- The translated accesses of a list. -/
def okAccs : List (Acc × Xlat) → List (Acc × Nat × Nat)
  | [] => []
  | (a, .ok pa k) :: l => (a, pa, k) :: okAccs l
  | _ :: l => okAccs l

/-- The pages that accesses wait on, each at the first access that faults on it (R304, R314). -/
def pagesOf : List (Acc × Xlat) → List (DWord × Nat) → List (DWord × Nat)
  | [], acc => acc
  | (a, .page pte) :: l, acc =>
    pagesOf l (if acc.any (fun p => p.1.toNat / 4096 == a.va.toNat / 4096) then acc else acc ++ [(a.va, pte)])
  | _ :: l, acc => pagesOf l acc

/-- The offline dies that accesses wait on. -/
def diesOf : List (Acc × Xlat) → List Nat
  | [] => []
  | (_, .offline d) :: l => if (diesOf l).contains d then diesOf l else d :: diesOf l
  | _ :: l => diesOf l

/-- R239: alignment of every access, then permission and presence, then validity, each in ascending thread order. -/
def checkAccs (s : State) (w : Who) (u : Use) (accs : List Acc) : Checked × State :=
  match accs.find? (fun a => a.va.toNat % a.n != 0) with
  | some a => (.misalign a, s)
  | none =>
    let r := xlatAll s w u accs
    match r.1.find? (fun p => p.2 == .access) with
    | some p => (.access p.1, r.2)
    | none =>
      let ok := okAccs r.1
      match ok.find? (fun p => poisoned s u ok p) with
      | some p => (.access p.1, r.2)
      | none =>
        if ok.length = accs.length then (.ok ok, r.2) else (.park (pagesOf r.1 []) (diesOf r.1), r.2)

/-! ### Loads, stores and atomics (R224 to R231, R241) -/

/-- The lower of two detected races, by word address (R228). -/
def worse : Option (Race × DWord) → Option (Race × DWord) → Option (Race × DWord)
  | none, r => r
  | r, none => r
  | some a, some b => if b.2.toNat < a.2.toNat then some b else some a

/-- The line of a registered word that is read under an address moves to it, out of the way of its own context's address where
the reader's context is another, and copies of it under other addresses in the cluster go (R208). -/
def readLine (s : State) (w : Who) (va : DWord) (n : Nat) : State :=
  let s := dropWord s w.site w.ctx.asid va n
  match regOf s n with
  | some (.owned a _ _) => moveLine s n (if ownLine s w a then va else evictedVa)
  | some (.released a _) => moveLine s n (if ownLine s w a then va else evictedVa)
  | _ => s

/-- One word of a load: from the agent's own registration, an unregistered copy, or the home (R225); a recipe run reads at
the home (R344). -/
def loadOne (s : State) (w : Who) (va : DWord) (key n : Nat) : Word × Bool × State :=
  if !registers n then (readWord s key n, false, s) else
  if w.home then
    let r := loadWord s (some w.agent) key n
    (r.1, r.2, s)
  else if heldAt s w.site n then
    let r := loadWord s (some w.agent) key n
    (r.1, r.2, readLine s w va n)
  else match copyHit s w.site w.ctx.asid va n with
    | some x => (x, false, s)
    | none =>
      let r := loadWord s (some w.agent) key n
      (r.1, r.2, fillSector s w.site w.ctx.asid va key (4 * n) false)

/-- The words of one access, each with its value; the first racing word. -/
def loadWords (s : State) (w : Who) (va : DWord) (key : Nat) : Nat → Nat → List Word × Option (Race × DWord) × State
  | _, 0 => ([], none, s)
  | n, k + 1 =>
    let r := loadOne s w va key n
    let rest := loadWords r.2.2 w (va + 4) key (n + 1) k
    (r.1 :: rest.1, worse (if r.2.1 then some (.race, va) else none) rest.2.1, rest.2.2)

/-- One access read: its bytes (R230, R238), the lowest race. -/
def loadAcc (s : State) (w : Who) (p : Acc × Nat × Nat) : List Byte × Option (Race × DWord) × State :=
  let r := loadWords s w (wordVa p.1.va) p.2.2 (p.2.1 / 4) (wordCount p.1.n)
  (((r.1.flatMap (fun x => leBytes 4 x.toNat)).drop (p.2.1 % 4)).take p.1.n, r.2.1, r.2.2)

/-- Accesses read one after another. -/
def loadEach (s : State) (w : Who) : List (Acc × Nat × Nat) → List (Acc × List Byte) × Option (Race × DWord) × State
  | [] => ([], none, s)
  | p :: l =>
    let r := loadAcc s w p
    let rest := loadEach r.2.2 w l
    ((p.1, r.1) :: rest.1, worse r.2.1 rest.2.1, rest.2.2)

/-- The sectors in which a load of `k` words misses one. -/
def sectorMisses (s : State) (w : Who) (va : DWord) : Nat → Nat → List Nat
  | _, 0 => []
  | n, k + 1 =>
    (if registers n && !w.home && !heldAt s w.site n && (copyHit s w.site w.ctx.asid va n).isNone then [n / 16] else [])
      ++ sectorMisses s w (va + 4) (n + 1) k

/-- R230: a load that misses a word of a sector reads all its words there at their home, so that it meets the words of
one store all old or all new. -/
def freshSectors (s : State) (w : Who) (l : List (Acc × Nat × Nat)) : State :=
  let us := l.flatMap (fun p => sectorMisses s w (wordVa p.1.va) (p.2.1 / 4) (wordCount p.1.n))
  { s with copies := s.copies.filter (fun c => !(c.site == w.site && us.contains (c.word / 16))) }

/-- The accesses of a load. -/
def loadAccs (s : State) (w : Who) (l : List (Acc × Nat × Nat)) : List (Acc × List Byte) × Option (Race × DWord) × State :=
  loadEach (freshSectors s w l) w l

/-- The first race that a write by an agent meets on `k` words from `n` on (R227: an access races whole). -/
def raceWords (s : State) (a : Agent) (va : DWord) : Nat → Nat → Option (Race × DWord)
  | _, 0 => none
  | n, k + 1 =>
    match (if registers n then writeRace s (some a) n else none) with
    | some r => some (r, va)
    | none => raceWords s a (va + 4) (n + 1) k

/-- Registration of `k` words by a plain store. -/
def regStores (s : State) (w : Who) (key : Nat) (va : DWord) : Nat → Nat → State
  | _, 0 => s
  | n, k + 1 => regStores (dropWord (regStore s w.agent key n va) w.site w.ctx.asid va n) w key (va + 4) (n + 1) k

/-- Registration of `k` words by an atomic. -/
def regAtomics (s : State) (w : Who) (near : Bool) (va : DWord) : Nat → Nat → State
  | _, 0 => s
  | n, k + 1 => regAtomics (dropWord (regAtomic s w.agent near n va) w.site w.ctx.asid va n) w near (va + 4) (n + 1) k

/-- R230: an access that registers a word with bytes its home held meets the other words of that sector at their homes too, so
that no load sees part of an earlier store. -/
def joinSector (s : State) (site : Site) (n : Nat) : State :=
  match s.copies with
  | [] => s
  | l => { s with copies := l.filter (fun c => !(c.site == site && c.word / 16 == n / 16)) }

/-- One store of an access's data (R224, R227, R238): discarded whole when any of its words races. -/
def storeAcc (s : State) (w : Who) (p : Acc × Nat × Nat) : Option (Race × DWord) × State :=
  let n := p.2.1 / 4
  let k := wordCount p.1.n
  match raceWords s w.agent (wordVa p.1.va) n k with
  | some r => (some r, s)
  | none =>
    let s := if p.1.n < 4 then joinSector s w.site n else s
    (none, writeBytes (regStores s w p.2.2 (wordVa p.1.va) n k) p.2.2 p.2.1 (p.1.data.take p.1.n))

/-- Stores one after another, in ascending thread order, so that the highest %tid wins (R30). -/
def storeAccs (s : State) (w : Who) : List (Acc × Nat × Nat) → Option (Race × DWord) × State
  | [] => (none, s)
  | p :: l =>
    let r := storeAcc s w p
    let rest := storeAccs r.2 w l
    (worse r.1 rest.1, rest.2)

/-- Poison marks that a store of whole units clears (R381). -/
def clearPoison (s : State) (l : List (Acc × Nat × Nat)) : State :=
  if s.poison.isEmpty then s else { s with poison := s.poison.filter (fun u => !covers l u) }

/-- The last released bytes of words (R227). -/
def releasedWords (s : State) (key : Nat) : Nat → Nat → List Byte
  | _, 0 => []
  | n, k + 1 => leBytes 4 (lastReleased s key n).toNat ++ releasedWords s key (n + 1) k

/-- One atomic of 4 or 8 bytes (R226, R227, R243): the old number, a race, the machine after it. -/
def atomAcc (s : State) (w : Who) (near : Bool) (f : Nat → Nat) (p : Acc × Nat × Nat) :
    Nat × Option (Race × DWord) × State :=
  let n := p.2.1 / 4
  let k := wordCount p.1.n
  match raceWords s w.agent p.1.va n k with
  | some r => (leNat (releasedWords s p.2.2 n k), some r, s)
  | none =>
    let old := leNat (readBytes s p.2.2 p.2.1 p.1.n)
    (old, none, writeBytes (regAtomics (joinSector s w.site n) w near p.1.va n k) p.2.2 p.2.1 (leBytes p.1.n (f old)))

/-! ### Release and acquire (R218 to R221) -/

/-- Scopes other than thread. -/
def scopeOrders : Scope → Bool
  | .thread => false
  | _ => true

/-- Scopes at which an acquire drops copies (R221). -/
def scopeDrops : Scope → Bool
  | .thread | .blk => false
  | .die | .pkg | .sys _ => true

/-- The host-interrupt word of an I/O die's command page is read, and its MSI-X message sent once (R372). -/
def msiRead (s : State) (iod : Nat) : State :=
  match s.bars[iod]? with
  | none => s
  | some b =>
    let pa := 2 ^ 47 + b.mailbox.toNat % 2 ^ 47
    let h := leNat (bytesOf (memGet s.mem) pa 8)
    if b.mailbox = 0 ∨ h / 2 ^ 16 = b.lastSeq then s
    else { s with bars := modAt s.bars iod (fun b => { b with lastSeq := h / 2 ^ 16, sent := b.sent ++ [h % 32] }) }

/-- A release of an agent at a scope (R220); a control core's release may send a host interrupt (R372). -/
def release (s : State) (a : Agent) (sc : Scope) : State :=
  if !scopeOrders sc then s else
  let s := releaseAgent s a
  match a with
  | .control _ => msiRead (msiRead s 0) 1
  | _ => s

/-- What an acquire covers (R221): every address, or ranges of addresses of its issuer's context. -/
abbrev Cover := Option (List (Nat × Nat))

/-- Whether a range list holds an address. -/
def inRanges (l : List (Nat × Nat)) (va : DWord) : Bool := l.any (fun r => r.1 ≤ va.toNat && va.toNat < r.2)

/-- A copy after an acquire of its place (R221): dropped where it is covered. A control core's copy under another address or
context may still be one of a covered word, so that a load at a covered address no longer hits it. -/
def Copy.acquired (c : Copy) (asid : BitVec 16) : Cover → Option Copy
  | none => none
  | some l =>
    if c.asid == asid && inRanges l c.va then none
    else match c.site with
      | .ctl _ => some { c with barred := c.barred ++ (l.map (fun r => (asid, r))).filter (fun r => !c.barred.contains r) }
      | .core _ => some c
      | .iod _ => some c

/-- An acquire at a scope with a coverage (R221): unregistered copies at the issuer's place are dropped. -/
def acquire (s : State) (site : Site) (asid : BitVec 16) (sc : Scope) (cover : Cover) : State :=
  if !scopeDrops sc then s else
  match s.copies with
  | [] => s
  | l => { s with copies := l.filterMap (fun c => if c.site == site then c.acquired asid cover else some c) }

/-- An acquire that covers every address. -/
def acquireAll (s : State) (site : Site) (sc : Scope) : State := acquire s site 0 sc none

/-! ### FILL sources (R249) and detected races that are not queued yet (R228) -/

/-- The number of a race as a trap cause (R306). -/
def Race.cause : Race → Nat
  | .race => 6
  | .frozen => 7

/-- A race that a group's instruction has detected: it is queued some time before the fragment's next REL, ACQ, TFENCE or
EXIT (R228). The chunks of one FILL make one entry, for the lowest word. -/
def Group.noteLate (gr : Group) (x : LateTrap) : Group :=
  if x.fill.isSome && gr.late.any (fun y => y.fill == x.fill) then
    { gr with late := gr.late.map (fun y => if y.fill == x.fill && x.entry.addr.toNat < y.entry.addr.toNat then x else y) }
  else { gr with late := gr.late ++ [x] }

/-- Whether what fragment `f` has issued, or inherited at a split (R217), holds what `frag` and `heirs` say. -/
def precedes (f frag : Nat) (heirs : List Nat) : Bool := frag == f || heirs.contains f

/-- The key that a chunk's source is read under: its id's key as it is now (R336); where that entry is erased since, the
transfer does not trap (R249), and the bytes are what a key nobody chose makes of them (log 20). -/
def chunkKey (s : State) (k : Chunk) : Nat := if k.keyId = 0 then k.key else (keyFor s k.pa k.keyId).getD 0

/-- The source of a FILL chunk is read, as a plain load of the fragment that issued it (R249, R227), under its key as it is
now (R336); a home that is offline makes it wait. -/
def readChunk (s : State) (k : Chunk) : State :=
  match s.groups[k.g]? with
  | none => s
  | some gr =>
    if k.data.isSome || presence s k.pa != .present then s else
    let w : Who := { site := .core gr.place, ctx := gr.ctx, priv := false, agent := .group k.g, home := false }
    let r := loadAccs s w [({ tid := k.tid, va := k.va, n := k.n, data := [] }, k.pa, chunkKey s k)]
    let s1 := { r.2.2 with chunks := r.2.2.chunks.map (fun x => if x.id == k.id then { x with data := some (r.1.flatMap (·.2)) } else x) }
    match r.2.1 with
    | none => s1
    | some (kind, va) =>
      modGroup s1 k.g (fun gr => gr.noteLate
        { entry := { cause := kind.cause, frag := k.f, slot := ((gr.frag? k.f).bind (·.slot)).getD 0, ipc := k.ipc, addr := va,
                     aux := 0, rpc := none },
          byHandler := k.byHandler, fill := some k.fill })

/-- The outstanding chunk sources of a fragment are read, before what has to wait for them (R249, R220, R228). -/
def readChunks (s : State) (g f : Nat) : State :=
  (s.chunks.filter (fun k => k.g == g && precedes f k.f k.heirs)).foldl readChunk s

/-- The sources of a FILL that has raced are read, so that its one trap names the lowest word. -/
def readFill (s : State) (g : Nat) (fill : Nat) : State :=
  (s.chunks.filter (fun k => k.g == g && k.fill == fill)).foldl readChunk s

/-- Whether every source of a FILL has been read. -/
def fillRead (s : State) (fill : Nat) : Bool := s.chunks.all (fun k => k.fill != fill || k.data.isSome)

/-! ### Taking an exception (R120, R307 to R309) -/

/-- The origin word of a compute group (R304). -/
def groupOrigin (gr : Group) : DWord := BitVec.ofNat 64 (gr.place + gr.rslot * 512)

/-- CONTEXT_FAULT (R309): the group stops, its queue stays, and one entry with the trapping pc is posted, once. -/
def stopGroup (s : State) (g : Nat) (pc : DWord) : State :=
  match s.groups[g]? with
  | none => s
  | some gr =>
    if gr.life == .stopped then s else
    post (modGroup s g (fun gr => { gr with life := .stopped })) (gr.place / 128)
      { ctx := gr.ctx, kind := 7, access := 6, addr := pc, originKind := 0, origin := groupOrigin gr, time := s.time }

/-- Abandon a chain of recipe misses (R338, R343): its run stops and the tile loses its frame, its pins go. The head of
the stack owns a frame or a run when it has come to stage 5. -/
def dropChain (s : State) (id : Nat) : State :=
  match s.chains.find? (fun c => c.id == id) with
  | none => s
  | some ch =>
    let s := { s with
      chains := s.chains.filter (fun c => c.id != id),
      groups := s.groups.map (fun gr => match gr.run with
        | some r => if r.chain == id && gr.life == .live then { gr with life := .gone, frags := [] } else gr
        | none => gr) }
    match ch.stack with
    | (y, _, 5) :: _ => modBlock s ch.block (fun b =>
        { b with tiles := modAt b.tiles y (fun t => { t with state := .defined, place := 0, frame := [] }) })
    | _ => s

/-- A trap in a recipe run (R345): its chain is abandoned and the root requester's group stops with the run's pc. -/
def runTrap (s : State) (r : RunInfo) (pc : DWord) : State :=
  match s.chains.find? (fun c => c.id == r.chain) with
  | none => s
  | some c => stopGroup (dropChain s c.id) c.g pc

/-- Whether a fragment runs a handler: its threads are among those the trap was delivered to (R308, R309). -/
def Group.inHandler (gr : Group) (fr : Frag) : Bool :=
  match gr.handler with
  | none => false
  | some h => fr.mask &&& h.mask != 0

/-- A trap put into a group's queue (R307, R309): a ninth entry, or a trap of an instruction that a handler issued, stops the
group. -/
def appendTrap (s : State) (g : Nat) (e : TrapEntry) (byHandler : Bool) : State :=
  match s.groups[g]? with
  | none => s
  | some gr =>
    match gr.run with
    | some r => runTrap s r e.ipc
    | none =>
      if byHandler || 8 ≤ gr.trapQ.length then stopGroup s g e.ipc
      else modGroup s g (fun gr => { gr with trapQ := gr.trapQ ++ [e] })

/-- The detected races that a group has not queued yet are queued, in the order they were raised (R228, R307); that of a FILL
waits for its last source. -/
def settleLate (s : State) (g : Nat) : State :=
  match s.groups[g]? with
  | none => s
  | some gr =>
    if gr.late.isEmpty then s else
    let s1 := (gr.late.filterMap (·.fill)).foldl (fun s f => readFill s g f) s
    let l := ((s1.groups[g]?).map (·.late)).getD []
    let done (x : LateTrap) : Bool := (x.fill.map (fillRead s1)).getD true
    (l.filter done).foldl (fun s x => appendTrap s g x.entry x.byHandler)
      (modGroup s1 g (fun gr => { gr with late := gr.late.filter (fun x => !done x) }))

/-- A trap queued to a group, behind what it has raised before (R307). -/
def enqueueTrap (s : State) (g : Nat) (e : TrapEntry) (byHandler : Bool) : State := appendTrap (settleLate s g) g e byHandler

/-- A compute-core exception of the issuing fragment: exact with its resume address, or deferred (R306 to R308). -/
def raiseFrag (s : State) (c : Cx) (cause : Nat) (addr aux : DWord) (rpc : Option DWord) : State :=
  enqueueTrap s c.g
    { cause, frag := c.f, slot := c.fr.slot.getD 0, ipc := c.fr.pc, addr, aux, rpc } (c.gr.inHandler c.fr)

/-- The 128 bytes of a trap record (R120). -/
def trapRecord (c : Ctl) (causeField : Nat) (addr aux rpc : DWord) : List Byte :=
  leBytes 8 rpc.toNat ++ leBytes 8 c.kstate ++ leBytes 8 causeField ++ leBytes 8 addr.toNat ++ leBytes 8 aux.toNat
    ++ leBytes 8 (c.sreg 60).toNat ++ leBytes 8 (c.sreg 61).toNat ++ leBytes 8 (c.sreg 62).toNat
    ++ leBytes 8 (c.sreg 63).toNat ++ List.replicate 56 0

/-- The accesses of 8 bytes that a range of data is stored with. -/
def accs8 (tid : Nat) (va : DWord) : List Byte → Nat → List Acc
  | _, 0 => []
  | bs, n + 1 => { tid, va, n := 8, data := bs.take 8 } :: accs8 tid (va + 8) (bs.drop 8) n

/-- The core stops for lack of a trap record; source 7 goes to the other enabled control cores of its die (R120,
R371). -/
def stopCtl (s : State) (cc : Nat) : State :=
  raiseSource (modCtl s cc (fun c => { c with stopped := true })) 7 (fun x => x / 24 == cc / 24 && x != cc) (kcore cc)

/-- A control-core trap, SVC or interrupt taken (R120): the record, s60, s61, DEPTH, PV, IE and pc in one step. A home
that is offline makes the core wait. KAREA and KTBL are used as written, aligned or not (DESIGN CHOICE, log 45). R120's table names
only a trap where DEPTH is 4; an SVC or an interrupt then stops the core in the same way (DESIGN CHOICE, log 49). -/
def ctlTrap (s : State) (cc cause source : Nat) (addr aux rpc : DWord) : State :=
  match s.ctls[cc]? with
  | none => s
  | some c =>
    if 4 ≤ c.depth then stopCtl s cc else
    let r := c.karea + BitVec.ofNat 64 (128 * c.depth)
    let causeField := cause + source * 256
    match checkAccs s { c.who cc with priv := true } .store (accs8 0 r (trapRecord c causeField addr aux rpc) 16) with
    | (.ok l, s1) =>
      let st := storeAccs s1 (c.who cc) l
      let s2 := clearPoison st.2 l
      let s3 := modCtl s2 cc (fun c =>
        { (c.setS 60 r).setS 61 (BitVec.ofNat 64 causeField) with
          depth := c.depth + 1, pv := true, ie := false, pc := c.ktbl + BitVec.ofNat 64 (64 * cause), wait := .run })
      match st.1 with
      | none => s3
      | some (k, va) => modCtl s3 cc (fun c => { c with deferred := c.deferred ++
          [{ cause := if k == .race then 6 else 7, frag := 0, slot := 0, ipc := rpc, addr := va, aux := 0, rpc := none }] })
    | (.park [] _, _) => modCtl s cc (fun c => { c with wait := .retry })
    | (_, s1) => stopCtl s1 cc

/-- A trap of the instruction at a control core's pc. -/
def raiseCtl (s : State) (cc cause : Nat) (addr aux : DWord) : State :=
  match s.ctls[cc]? with
  | none => s
  | some c => ctlTrap s cc cause 0 addr aux c.pc

/-- A deferred trap kept for a control core (R306). -/
def deferCtl (s : State) (cc cause : Nat) (ipc addr aux : DWord) : State :=
  modCtl s cc (fun c => { c with deferred := c.deferred ++ [{ cause, frag := 0, slot := 0, ipc, addr, aux, rpc := none }] })

/-- The first deferred trap of a control core is taken, rpc being the first instruction not performed (R306); it stays while
the core waits on the home of its record. -/
def takeDeferred (s : State) (cc : Nat) : State :=
  match s.ctls[cc]? with
  | none => s
  | some c =>
    match c.deferred with
    | [] => s
    | e :: l =>
      let t := ctlTrap (modCtl s cc (fun c => { c with deferred := l })) cc e.cause 0 e.addr e.aux c.pc
      if (t.ctls[cc]?).any (fun d => d.depth == c.depth && !d.stopped) then parkCtl s cc .retry else t

/-- A detected race of the issuing fragment, which is queued later (R228). -/
def queueRace (s : State) (c : Cx) (r : Option (Race × DWord)) : State :=
  match r with
  | none => s
  | some (k, va) => modGroup s c.g (fun gr => gr.noteLate
      { entry := { cause := k.cause, frag := c.f, slot := c.fr.slot.getD 0, ipc := c.fr.pc, addr := va, aux := 0, rpc := none },
        byHandler := c.gr.inHandler c.fr, fill := none })

/-- A detected race of a control core is kept until its boundary (R228, R306). -/
def queueRaceCtl (s : State) (cc : Nat) (ipc : DWord) (r : Option (Race × DWord)) : State :=
  match r with
  | none => s
  | some (k, va) => deferCtl s cc k.cause ipc va 0

/-- ERET (R120): the innermost record is read back with plain loads; DEPTH 0 raises ILLEGAL. -/
def eretCtl (s : State) (cc : Nat) (word : DWord) : State :=
  match s.ctls[cc]? with
  | none => s
  | some c =>
    if c.depth = 0 then ctlTrap s cc 1 0 0 word c.pc else
    let r := c.krec
    match checkAccs s (c.who cc) .load (accs8 0 r [] 9) with
    | (.ok l, s1) =>
      let ld := loadAccs s1 (c.who cc) l
      let x (i : Nat) : DWord := BitVec.ofNat 64 (leNat ((ld.1.getD i ({ tid := 0, va := 0, n := 0, data := [] }, [])).2))
      let s2 := modCtl ld.2.2 cc (fun c =>
        { (((c.setS 60 (x 5)).setS 61 (x 6)).setS 62 (x 7)).setS 63 (x 8) with
          depth := c.depth - 1, pc := x 0, ie := (x 1).getLsbD 1, pv := (x 1).getLsbD 0, wait := .run })
      queueRaceCtl s2 cc c.pc ld.2.1
    | (.misalign a, s1) => ctlTrap s1 cc 3 0 a.va 0 c.pc
    | (.access a, s1) => ctlTrap s1 cc 4 0 a.va 0 c.pc
    | (.park ((va, _) :: _) _, s1) => ctlTrap s1 cc 5 0 va 0 c.pc
    | (.park [] _, s1) => modCtl s1 cc (fun c => { c with wait := .retry })

/-- A shared control register as fragment `f` reads it (R117): its value, or one that another fragment has replaced. -/
def Group.sharedRead (gr : Group) (free which f : Nat) (x : DWord) : DWord :=
  match gr.shared.filter (fun o => o.which == which && o.frag == f) with
  | [] => x
  | l => ((l.map (·.val)) ++ [x]).getD (Config.freeNat .shared free which % (l.length + 1)) x

/-- The head entry of a trap queue delivered to its fragment (R308, R116): a deferred entry gets its resume address,
the group is marked in handler and the fragment's pc becomes %tvec; a bad %tvec stops the group (R309). -/
def deliverTrap (s : State) (g : Nat) : State :=
  match s.groups[g]? with
  | none => s
  | some gr =>
    match gr.trapQ with
    | [] => s
    | e :: l =>
      match gr.frag? e.frag with
      | none => s
      | some fr =>
        let tvec := gr.sharedRead s.free 1 e.frag gr.tvec
        if tvec.toNat % 4 ≠ 0 ∨ tvec = 0 then stopGroup s g e.ipc
        else modGroup { s with chains := s.chains.filter (fun k => !(k.g == g && k.f == e.frag && k.stack.isEmpty)) } g (fun gr =>
          { gr with
            trapQ := { e with rpc := some (e.rpc.getD fr.pc) } :: l,
            handler := some { frag := e.frag, mask := fr.mask },
            older := gr.older.filter (fun o => o.frag != e.frag),
            frags := gr.frags.map (fun x => if x.id == e.frag then { x with pc := tvec, wait := .run } else x) })

/-- The return from a handler (R311 RTE): the fragment resumes at TQRPC and the head entry goes. A misaligned TQRPC
raises MISALIGN, which escalates (R310). -/
def returnTrap (s : State) (c : Cx) (word : DWord) : State :=
  match c.gr.handler, c.gr.trapQ with
  | some h, e :: l =>
    if c.fr.mask != h.mask then raiseFrag s c 1 0 word (some c.fr.pc)
    else
      let rpc := e.rpc.getD 0
      if rpc.toNat % 4 ≠ 0 then raiseFrag s c 3 rpc c.low (some c.fr.pc)
      else modFrag (modGroup s c.g (fun gr => { gr with trapQ := l, handler := none })) c.g c.f (fun fr => { fr with pc := rpc })
  | _, _ => raiseFrag s c 1 0 word (some c.fr.pc)

/-! ### Parking on pages and offline homes (R240, R304, R313, R314) -/

/-- A PAGE entry of a group (R304). -/
def postGroupPage (s : State) (gr : Group) (access : Nat) (va : DWord) : State :=
  post s (gr.place / 128)
    { ctx := gr.ctx, kind := 1, access, addr := va, originKind := 0, origin := groupOrigin gr, time := s.time }

/-- Pages that a group's parked instructions and fetches already wait on (R314, R70): each has its one PAGE entry. -/
def Group.pages (gr : Group) : List DWord :=
  gr.log.flatMap (·.pages) ++ gr.frags.filterMap (fun x => match x.wait with
    | .fetch va _ => some va
    | _ => none)

/-- Same page. -/
def samePage (a b : DWord) : Bool := a.toNat / 4096 == b.toNat / 4096

/-- The entries in the operand logs of a core (R313). -/
def logCount (s : State) (core : Nat) : Nat :=
  s.groups.foldl (fun n gr => if groupHere s gr core then n + gr.log.length else n) 0

/-- The instruction words at a pc, as an operand-log entry keeps them (R313). -/
def wordsAt (s : State) (w : Who) : DWord → Nat → List Nat
  | _, 0 => []
  | va, n + 1 =>
    (match deviceXlat s w.ctx .fetch va with
     | .ok pa k => (readWord s k (pa / 4)).toNat
     | .page _ => 0
     | .access => 0
     | .offline _ => 0) :: wordsAt s w (va + 4) n

/-- Whether a page that a queue operation waits on is the context's fault queue's own, for which no PAGE entry is posted (R305): a page
of its galley, or that of its descriptor. -/
def ownFaultPage (s : State) (c : Ctx) (r : Req) (galley : Bool) (va : DWord) : Bool :=
  match r.kind with
  | .enq .. | .deq .. =>
    let desc := ((r.accs.head?).map (·.va)).getD 0
    desc.toNat == recordField s c 16 8 && (galley || samePage desc va)
  | _ => false

/-- PAGE or HOME_OFFLINE (R313, R314, R236): the instruction parks whole with its sources and the fragment goes on; with
no free entry it is not issued and has no effect, so that the machine is as it was before it, `s0`. `access` is the code of
R304 for each page. -/
def parkReq (s0 s : State) (c : Cx) (req : Req) (access : DWord → Nat) (len : Nat) (pages : List (DWord × Nat)) (dies : List Nat)
    (begun : Option Nat) : State :=
  if 4 ≤ c.gr.log.length || 64 ≤ logCount s c.gr.place then park s0 c .retry else
  let fresh := pages.filter (fun p => !(c.gr.pages.any (samePage p.1)) && !ownFaultPage s c.gr.ctx req begun.isSome p.1)
  let s := fresh.foldl (fun s p => postGroupPage s c.gr (access p.1) p.1) s
  let s := pages.foldl (fun s p => armMonitor s p.2 (.group c.g)) s
  let e : LogEntry :=
    { id := s.nextId, frag := c.f, heirs := [], words := wordsAt s c.who c.fr.pc (len / 4), mask := c.fr.mask, ipc := c.fr.pc, req,
      pages := pages.map (·.1), dies, since := clk s, byHandler := c.gr.inHandler c.fr, begun }
  advance { modGroup s c.g (fun gr => { gr with log := gr.log ++ [e] }) with nextId := s.nextId + 1 } c len

/-! ### Issue (R67, R69, R71, R72, R83, R88, R240) -/

/-- Run classes (R83), with the lane set as a class of its own. -/
inductive Cls | lane | both | compute | priv
  deriving DecidableEq, Repr

/-- Word 0 of an instruction, as an ILLEGAL trap records it (R306). -/
def wordOf (i : Instr) : DWord :=
  match encode i with
  | some (w, _) => BitVec.ofNat 64 w
  | none => 0

/-- What a recipe run may not issue, by the instruction alone (R345). -/
inductive RunRule | ok | illegal | access
  deriving DecidableEq, Repr

/-- R345: ILLEGAL for what depends on the grant, ACCESS for what reaches outside R344. -/
def runRule : Instr → RunRule
  | .shfl o => if o.seg == .win then .illegal else .ok
  | .vote o => if o.seg == .win then .illegal else .ok
  | .red o => if o.order == .fix then .ok else .illegal
  | .scan o => if o.order == .fix then .ok else .illegal
  | .specialMov o => if o.sel == .pass || o.sel == .grant then .illegal else .ok
  | .csrr o => if o.csr == 2 then .illegal else .ok
  | .mdrnPeer o => if o.ord then .ok else .illegal
  | .st _ | .stg _ | .atom _ | .satom _ | .sst _ | .mdrnMem _ | .fill _ | .spk _ | .lda _ | .sta _ | .ldl _ | .stl _
  | .ecpy _ | .epub _ | .ecoll _ | .spawn _ | .enq _ | .deq _ | .cdec _ | .cinc _
  | .bar _ | .barArr _ | .barWait _ | .gbar _ | .mbarInit _ | .mbarArm _ | .mbarArr _ | .mbarWait _ | .rgn _
  | .csrw _ | .csrwSet _ | .csrwClr _ | .trap _ | .trapBreak _
  | .tdef _ | .tseal _ | .tdrop _ | .thold _ | .tfree _ => .access
  | _ => .ok

/-- Whether the guard of a form that `runRule` bars leaves it nothing to do (R59, R239). -/
def Cx.idle (c : Cx) (free : Nat) : Instr → Bool
  | .st o | .lda o | .sta o => (c.active free o.g).isEmpty
  | .stg o => (c.active free o.g).isEmpty
  | .atom o => (c.active free o.g).isEmpty
  | .ldl o | .stl o => (c.active free o.g).isEmpty
  | .fill o => (c.active free o.g).isEmpty
  | .mdrnMem o => (c.active free o.g).isEmpty
  | .spk o => (c.active free o.g).isEmpty
  | .satom o => !c.runs free o.g
  | .ecpy o | .epub o | .ecoll o => !c.runs free o.g
  | .spawn o => !c.runs free o.g
  | .enq o | .deq o => !c.runs free o.g
  | .cdec o | .cinc o => !c.runs free o.g
  | .mbarInit o | .mbarArm o => !c.runs free o.g
  | .mbarArr o => !c.runs free o.g
  | .mbarWait o => !c.runs free o.g
  | .tdef o => !c.runs free o.g
  | _ => false

/-- Registers that a parked request will write: lane registers, uniform registers (R71). -/
def ReqKind.dests : ReqKind → List Nat × List Nat
  | .load t c vt => ((List.range (wordCount (t.width / 8 * c.num))).map (· + vt.toNat), [])
  | .store => ([], [])
  | .row t vt => (match t with
      | .bq8 vc => vc.toNat :: (List.range 8).map (· + vt.toNat)
      | .bq4 vc => vc.toNat :: (List.range 8).map (· + vt.toNat)
      | _ => (List.range 8).map (· + vt.toNat), [])
  | .atom _ kind _ vt => ((List.range (if kind.wide then 2 else 1)).map (· + vt.toNat), [])
  | .sld st _ => ([], [st.toNat])
  | .sst => ([], [])
  | .satom _ _ _ sd => ([], [sd.toNat])
  | .drain .. => ([], [])
  | .fill .. => ([], [])
  | .count _ _ _ sd _ => ([], [sd.toNat])
  | .enq _ sd _ => ([], [sd.toNat])
  | .deq _ sd _ => ([], [sd.toNat])
  | .engine _ _ sd => ([], [sd.toNat])
  | .spawn .. => ([], [])
  | .tdef sd _ => ([], [sd.toNat])
  | .keyset sd _ => ([], [sd.toNat])

/-- The `k` registers from v[r] on. -/
def vGroup (k : Nat) (r : BitVec 8) : List Nat := (List.range k).map (· + r.toNat)

/-- The register, or the pair, of a value of `width` bits (R63). -/
def vVal (width : Nat) (r : BitVec 8) : List Nat := vGroup (if width == 64 then 2 else 1) r

/-- The lane registers of a second source (R152). -/
def Src.uses (width : Nat) : Src → List Nat
  | .reg v => vVal width v
  | .imm _ => []

/-- The lane registers of a bit field's place (R161). -/
def BitField.uses : BitField → List Nat
  | .reg v => vGroup 1 v
  | .imm .. => []

/-- The lane registers of VOTE's destination (R183). -/
def VoteFn.uses : VoteFn → List Nat
  | .anyV v | .allV v | .ballot v | .count v => vGroup 1 v
  | .anyQ _ | .allQ _ => []

/-- The lane registers that QSET reads (R166). -/
def QsetFn.uses : QsetFn → List Nat
  | .clr | .set => []
  | .nz t v | .bit t v _ => vVal t.width v

/-- The lane registers that an instruction reads or writes, the forms aside that touch what R240 lists, which wait whatever they
name. -/
def laneUses : Instr → List Nat
  | .mov o => vGroup 1 o.vd ++ vGroup 1 o.va
  | .specialMov o => vGroup 1 o.vd
  | .movi o => vGroup 1 o.vd
  | .moviw o => vGroup 1 o.vd
  | .iaddi o => vGroup 1 o.vd ++ vGroup 1 o.va
  | .lea o => vGroup 2 o.vd ++ vGroup 2 o.va ++ vGroup 1 o.vb
  | .iadd o | .isub o => vVal o.t.width o.vd ++ vVal o.t.width o.va ++ Src.uses o.t.width o.b
  | .imul o => vVal o.t.width o.vd ++ vVal o.t.width o.va ++ Src.uses o.t.width o.b
  | .imad o => vVal o.t.width o.vd ++ vVal o.t.width o.va ++ Src.uses o.t.width o.b ++ vVal o.t.width o.vc
  | .imin o | .imax o | .and o | .or o | .xor o => vVal o.t.width o.vd ++ vVal o.t.width o.va ++ Src.uses o.t.width o.b
  | .shl o | .shr o | .sha o => vVal o.t.width o.vd ++ vVal o.t.width o.va ++ Src.uses 32 o.b
  | .iabs o => vVal o.t.width o.vd ++ vVal o.t.width o.va
  | .popc o | .clz o => vGroup 1 o.vd ++ vVal o.t.width o.va
  | .bfx o => vVal o.t.width o.vd ++ vVal o.t.width o.va ++ BitField.uses o.f
  | .bfi o => vVal o.t.width o.vd ++ vVal o.t.width o.va ++ BitField.uses o.f ++ vVal o.t.width o.vc
  | .icmp o => vVal o.t.width o.va ++ Src.uses o.t.width o.b
  | .fcmp o => vVal o.t.width o.va ++ vVal o.t.width o.vb
  | .fclass o => vVal o.t.width o.va
  | .qset o => QsetFn.uses o.fn
  | .sel o => vVal (if o.wide then 64 else 32) o.vd ++ vVal (if o.wide then 64 else 32) o.va ++
      Src.uses (if o.wide then 64 else 32) o.b
  | .fadd o | .fsub o | .fmul o => vVal o.t.width o.vd ++ vVal o.t.width o.va ++ vVal o.t.width o.vb
  | .ffma o => vVal o.t.width o.vd ++ vVal o.t.width o.va ++ vVal o.t.width o.vb ++ vVal o.t.width o.vc
  | .fmin o | .fmax o => vVal o.t.width o.vd ++ vVal o.t.width o.va ++ vVal o.t.width o.vb
  | .frcp o | .fsqrt o | .frsq o | .fexp2 o | .flog2 o => vVal o.t.width o.vd ++ vVal o.t.width o.va
  | .cvt o => match o.kind with
    | .one p => vVal p.srcWidth o.va ++ vVal p.dstWidth o.vd
    | .quant s d vc => vGroup s.regs o.va ++ vGroup d.elemRegs o.vd ++ vGroup 1 vc
    | .dequant s d _ vc => vGroup s.elemRegs o.va ++ vGroup d.regs o.vd ++ vGroup 1 vc
  | .pack o => vGroup 1 o.vd ++ vGroup 1 o.va ++ vGroup 1 o.vb
  | .unpk o => vGroup 1 o.vd ++ vGroup 1 o.va
  | .shfl o => vVal (if o.wide then 64 else 32) o.vd ++ vVal (if o.wide then 64 else 32) o.va ++ Src.uses 32 o.b
  | .vote o => VoteFn.uses o.fn
  | .red o => vVal o.fn.width o.vd ++ vVal o.fn.width o.va
  | .scan o => vVal o.fn.width o.vd ++ vVal o.fn.width o.va
  | _ => []

/-- The uniform registers that an instruction reads or writes, with the same exception. -/
def uniUses : Instr → List Nat
  | .iopIadd o | .iopIsub o | .iopImul o | .iopIminI64 o | .iopImaxI64 o | .iopIminN64 o | .iopImaxN64 o | .iopAnd o | .iopOr o
  | .iopXor o | .iopShl o | .iopShr o | .iopSha o => [o.sd.toNat, o.sa.toNat, o.sb.toNat]
  | .iopIabs o | .iopPopc o | .iopClz o | .iopMov o => [o.sd.toNat, o.sa.toNat]
  | .iopiIadd o | .iopiIsub o | .iopiImul o | .iopiIminI64 o | .iopiImaxI64 o | .iopiIminN64 o | .iopiImaxN64 o | .iopiAnd o
  | .iopiOr o | .iopiXor o | .iopiShl o | .iopiShr o | .iopiSha o => [o.sd.toNat, o.sa.toNat]
  | .iopiMovi o => [o.sd.toNat]
  | .iopwIadd o | .iopwIsub o | .iopwImul o | .iopwIminI64 o | .iopwImaxI64 o | .iopwIminN64 o | .iopwImaxN64 o | .iopwAnd o
  | .iopwOr o | .iopwXor o | .iopwShl o | .iopwShr o | .iopwSha o => [o.sd.toNat, o.sa.toNat]
  | .iopwMovi o => [o.sd.toNat]
  | .fopFadd o | .fopFsub o | .fopFmul o => [o.sd.toNat, o.sa.toNat, o.sb.toNat]
  | .fopFfma o => [o.sd.toNat, o.sa.toNat, o.sb.toNat, o.sc.toNat]
  | .fopFmin o | .fopFmax o => [o.sd.toNat, o.sa.toNat, o.sb.toNat]
  | .fopFrcp o | .fopFsqrt o | .fopFrsq o | .fopFexp2 o | .fopFlog2 o => [o.sd.toNat, o.sa.toNat]
  | .fopCvt o => [o.sd.toNat, o.sa.toNat]
  | .cmpkIcmp o => [o.sa.toNat, o.sb.toNat]
  | .cmpkFcmp o => [o.sa.toNat, o.sb.toNat]
  | .cmpkFclass o => [o.sa.toNat]
  | .prkQset o => (match o.fn with
      | .nz sa => [sa.toNat]
      | .clr | .set => [])
  | .call _ => [63]
  | .callRegister o => [o.sa.toNat, 63]
  | .braRegister o | .ret o | .setwRegister o | .setwRRegister o => [o.sa.toNat]
  | _ => []

/-- Whether an instruction reads or writes one of the registers that a parked one writes (R240). -/
def mayUse (i : Instr) (d : List Nat × List Nat) : Bool :=
  (laneUses i).any (fun r => d.1.contains r) || (uniUses i).any (fun r => d.2.contains r)

/-- How an instruction issues: its class, its W bit or R72, whether it touches what R240 lists, whether it is one of
REL, ACQ, TFENCE and EXIT (R308), whether it releases. -/
structure IssueInfo where
  cls : Cls
  w : Bool
  touch : Bool
  fence : Bool
  rel : Bool
  deriving DecidableEq, Repr

/-- Whether the fragment must wait before it issues (R71, R228, R240, R249, R308). -/
def mustWait (s : State) (c : Cx) (i : Instr) (x : IssueInfo) : Bool :=
  let mine := c.gr.log.filter (fun e => precedes c.f e.frag e.heirs)
  (!mine.isEmpty && (x.touch || mine.any (fun e => mayUse i e.req.kind.dests)
    || (x.w && !c.gr.interlocked && mine.any (fun e => !(e.req.kind.dests.1.isEmpty && e.req.kind.dests.2.isEmpty)))))
  || (x.fence && !c.gr.inHandler c.fr && c.gr.trapQ.any (fun e => e.frag == c.f))
  || (x.fence && c.gr.late.any (fun e => e.entry.frag == c.f))
  || (x.rel && ownsOffline s (.group c.g))
  || ((x.fence || x.rel) && s.chunks.any (fun k => k.g == c.g && precedes c.f k.f k.heirs && k.data.isNone))

/-- How the fragment waits: the reads of its FILLs are performed and its races queued before what waits for them (R228, R249);
a release waits on the offline homes of its agent's words (R236). -/
def waitToIssue (s : State) (c : Cx) (x : IssueInfo) : State :=
  let s := if x.fence || x.rel then readChunks s c.g c.f else s
  let s := if x.fence then settleLate s c.g else s
  if x.rel && ownsOffline s (.group c.g) then parkHome s c (offlineOf s (.group c.g)) else park s c .retry

/-- The fragment issues: its wait ends, its waiting time and urgency start afresh (R49), and with W = 1 no earlier
write is outstanding any more (R71). -/
def started (s : State) (c : Cx) (w : Bool) : State :=
  modGroup s c.g (fun gr =>
    { gr with
      older := if w then gr.older.filter (fun o => o.frag != c.f) else gr.older,
      frags := gr.frags.map (fun x => if x.id == c.f then { x with wait := .run, since := clk s, passed := 0, urgent := false } else x) })

/-- The issuing fragment as `started` leaves its registers. -/
def Cx.begun (c : Cx) (w : Bool) : Cx :=
  if w then { c with gr := { c.gr with older := c.gr.older.filter (fun o => o.frag != c.f) } } else c

/-- Issue by the current party (R88 from ILLEGAL on): the checks that come before any effect, the waits, and then the
instruction's own effect on a compute core or on a control core. -/
def issue (i : Instr) (x : IssueInfo) (s : State) (onFrag : Cx → State → State) (onCtl : Nat → Ctl → State → State) : Out :=
  match s.cur with
  | .idle => .fault .noParty
  | .control cc =>
    match s.ctls[cc]? with
    | none => .fault .noParty
    | some c =>
      if !i.wf || x.cls == .lane then .next (raiseCtl s cc 1 0 (wordOf i))
      else if x.cls == .compute then .next (raiseCtl s cc 4 0 0)
      else .next (onCtl cc c s)
  | .frag g f =>
    match s.groups[g]? with
    | none => .fault .noParty
    | some gr =>
      match gr.frag? f with
      | none => .fault .noParty
      | some fr =>
        let c : Cx := { g, f, gr, fr }
        if !i.wf || !i.regsOk gr.vcount || x.cls == .priv then .next (raiseFrag s c 1 0 (wordOf i) (some fr.pc))
        else if gr.run.isSome && runRule i == .illegal then .next (raiseFrag s c 1 0 (wordOf i) (some fr.pc))
        else if gr.run.isSome && runRule i == .access && !(c.begun x.w).idle s.free i then
          .next (raiseFrag s c 4 0 c.low (some fr.pc))
        else if mustWait s c i x then .next (waitToIssue s c x)
        else .next (onFrag (c.begun x.w) (started s c x.w))

/-- A privileged instruction on a control core (R69): PRIV outside privileged mode. -/
def privileged (cc : Nat) (c : Ctl) (s : State) (body : State → State) : State :=
  if c.pv then body s else raiseCtl s cc 2 0 0

/-- A control core's pc moved on. -/
def advanceCtl (s : State) (cc n : Nat) : State := modCtl s cc (fun c => { c with pc := c.pc + BitVec.ofNat 64 n })

/-- What does not concern control cores. -/
def noCtl (_ : Nat) (_ : Ctl) (s : State) : State := s
/-- What does not concern compute cores. -/
def noFrag (_ : Cx) (s : State) : State := s

end Sys2Proof.Machine
end

