-- ==== Sys2Proof/Machine/Operands.lean ====
section
/-! DEFINITION. Every operand form (R63 to R66, R126, R129, R137, R152, R153): lane values and pairs, immediates, results
with their extension, uniform values, memory addresses, gather indexes, typed elements of memory. -/

namespace Sys2Proof.Machine

/-! ### Lane operands -/

/-- `operand(n, t)` of R153: the low `w` bits of v[n], or of the pair v[n+1]:v[n] for w = 64. -/
def Cx.lane (c : Cx) (free op t w n : Nat) : Nat :=
  if w = 64 then (c.v free op t n).toNat + (c.v free op t (n + 1)).toNat * 2 ^ 32
  else (c.v free op t n).toNat % 2 ^ w

/-- An 8-bit immediate sign-extended to `w` bits (R64, R152). -/
def immBits (w : Nat) (i : BitVec 8) : Nat := wrapNat w i.toInt

/-- The second source of R152. -/
def Cx.src (c : Cx) (free op t w : Nat) : Src → Nat
  | .reg v => c.lane free op t w v.toNat
  | .imm i => immBits w i

/-- Writes of a pattern of `w` bits to v[n] or to a pair, the upper bits as given. -/
def outPair (t n : Nat) (x : Nat) : List (RegKey × DWord) :=
  [(.v t n, BitVec.ofNat 64 (x % 2 ^ 32)), (.v t (n + 1), BitVec.ofNat 64 (x / 2 ^ 32 % 2 ^ 32))]

/-- `write(n, t, x)` of an integer type: sign or zero extended to 32 bits (R126). -/
def outInt (ty : IntTy) (t n x : Nat) : List (RegKey × DWord) :=
  if ty.width = 64 then outPair t n x else [(.v t n, BitVec.ofNat 64 (wrapNat 32 (intVal ty x)))]

/-- `write(n, t, x)` of a floating type: bits above the value cleared (R129). -/
def outFlt (ty : FTy) (t n x : Nat) : List (RegKey × DWord) :=
  if ty.width = 64 then outPair t n x else [(.v t n, BitVec.ofNat 64 (x % 2 ^ ty.width))]

/-- A count written as n32 to one register (R160). -/
def outWord (t n x : Nat) : List (RegKey × DWord) := [(.v t n, BitVec.ofNat 64 (x % 2 ^ 32))]

/-- A predicate written. -/
def outPred (t n : Nat) (b : Bool) : List (RegKey × DWord) := [(.q t n, if b then 1 else 0)]

/-- The element `i` of size `e` of a register (R137). -/
def packed (x e i : Nat) : Nat := x / 2 ^ (e * i) % 2 ^ e

/-- Elements of size `e` put together from element 0 up. -/
def packList (e : Nat) : List Nat → Nat
  | [] => 0
  | x :: l => x % 2 ^ e + 2 ^ e * packList e l

/-- `k` registers of a thread from v[n] on. -/
def Cx.regs (c : Cx) (free op t n k : Nat) : List Nat := (List.range k).map (fun i => (c.v free op t (n + i)).toNat)

/-- Elements of size `e` held in a register group, in element order. -/
def unpackRegs (e : Nat) (l : List Nat) : List Nat := l.flatMap (fun x => (List.range (32 / e)).map (packed x e))

/-- Numbers cut into chunks of `k`. -/
def chunksOf {α : Type} (k : Nat) : Nat → List α → List (List α)
  | 0, _ => []
  | n + 1, l => if l.isEmpty then [] else l.take k :: chunksOf k n (l.drop k)

/-- Elements of size `e` packed into registers from v[n] on. -/
def outPacked (e t n : Nat) (els : List Nat) : List (RegKey × DWord) :=
  let regs := (chunksOf (32 / e) els.length els).map (packList e)
  (List.range regs.length).map (fun i => (.v t (n + i), BitVec.ofNat 64 (regs.getD i 0)))

/-! ### Memory operands (R65, R66) -/

/-- A number sign-extended from `w` bits to 64. -/
def sext64 (w x : Nat) : DWord := BitVec.ofInt 64 (if 2 ^ (w - 1) ≤ x % 2 ^ w then (x % 2 ^ w : Int) - 2 ^ w else (x % 2 ^ w : Nat))

/-- The index term of R65. -/
def Cx.index (c : Cx) (free t : Nat) : Index → DWord
  | .none => 0
  | .zext v => (c.v free 1 t v.toNat).setWidth 64
  | .sext v => (c.v free 1 t v.toNat).signExtend 64
  | .pair v => BitVec.ofNat 64 (c.lane free 1 t 64 v.toNat)

/-- The address of a thread (R65), `size` bytes to a unit of displacement. -/
def Cx.addr (c : Cx) (free t size : Nat) (a : Addr) : DWord :=
  c.st free 0 t a.sb.toNat + c.index free t a.idx + a.disp.signExtend 64 * BitVec.ofNat 64 size

/-- The address of a gather or scatter (R66). -/
def Cx.gaddr (c : Cx) (free t size : Nat) (x : GIndex) : DWord :=
  let w := match x.width with
    | .w8 => 8 | .w16 => 16 | .w32 => 32
  let i := (c.v free 1 t x.va.toNat).toNat % 2 ^ w
  let ix := if x.signed then sext64 w i else BitVec.ofNat 64 i
  c.st free 0 t x.sb.toNat + ix <<< x.sh.toNat + x.disp.signExtend 64 * BitVec.ofNat 64 size

/-! ### Elements of memory (R237, R238) -/

/-- The access size in bytes. -/
def accSize (t : ElemTy) (c : Count) : Nat := t.width / 8 * c.num

/-- The registers that a load writes from the bytes of one thread's access (R238). -/
def loadOut (t : ElemTy) (tid vt : Nat) (bs : List Byte) : List (RegKey × DWord) :=
  if t.width < 32 then
    match t with
    | .int ty => outInt ty tid vt (leNat bs)
    | .flt ty => outFlt ty tid vt (leNat bs)
  else (List.range (bs.length / 4)).map (fun i => (.v tid (vt + i), BitVec.ofNat 64 (leNat ((bs.drop (4 * i)).take 4))))

/-- The bytes that a store takes from a thread's registers (R238). -/
def Cx.storeData (c : Cx) (free t vt n : Nat) : List Byte :=
  ((c.regs free 2 t vt (wordCount n)).flatMap (leBytes 4)).take n

/-! ### Uniform operands (R126, R129) -/

/-- The value of a uniform register that an integer type writes: extended to 64 bits (R126). -/
def uniInt (t : IntTy) (x : Nat) : DWord := BitVec.ofNat 64 (wrapNat 64 (intVal t x))
/-- The value of a uniform register that a floating type writes: bits above cleared (R129). -/
def uniFlt (t : FTy) (x : Nat) : DWord := BitVec.ofNat 64 (x % 2 ^ t.width)
/-- The low bits of a uniform register. -/
def uniBits (w : Nat) (x : DWord) : Nat := x.toNat % 2 ^ w

/-- SLD's access size in bytes and its extension (R57, R246). -/
def sldSize : SldSz → Nat
  | .n8 | .i8 => 1 | .n16 | .i16 => 2 | .n32 | .i32 => 4 | .d64 => 8
def sldValue (sz : SldSz) (x : Nat) : DWord :=
  match sz with
  | .i8 => sext64 8 x | .i16 => sext64 16 x | .i32 => sext64 32 x
  | .n8 | .n16 | .n32 | .d64 => BitVec.ofNat 64 x
def sstSize : SstSz → Nat
  | .n8 => 1 | .n16 => 2 | .n32 => 4 | .d64 => 8

/-- The integer comparison of R164. -/
def intCompare (c : ICond) (a b : Int) : Bool :=
  match c with
  | .eq => a == b | .ne => a != b | .lt => a < b | .le => a ≤ b | .gt => b < a | .ge => b ≤ a

/-- The predicate functions of R166. -/
def qfun (f : QFn) (a b : Bool) : Bool :=
  match f with
  | .and => a && b | .or => a || b | .xor => xor a b | .andn => a && !b | .orn => a || !b
  | .nand => !(a && b) | .nor => !(a || b) | .xnor => !(xor a b)

/-! ### Atomics (R243) -/

/-- The number type of an atomic's integer types. -/
def AtomTy.intTy : AtomTy → IntTy
  | .i32 => .i32 | .n32 => .n32 | .i64 => .i64 | .n64 => .n64

/-- Bytes of an atomic's word. -/
def atomBytes : AtomKind → Nat
  | .int _ t => (AtomTy.intTy t).width / 8
  | .fadd32 => 4
  | .fadd64 => 8

/-- What an atomic puts in place of `old`: `d` the operand, `cmp` the compare value of cas. -/
def atomNew (k : AtomKind) (cmp d old : Nat) : Nat :=
  match k with
  | .fadd32 => (fAdd .f32 .rn false old d).1
  | .fadd64 => (fAdd .f64 .rn false old d).1
  | .int f ty =>
    let t := AtomTy.intTy ty
    let a := intVal t old
    let b := intVal t d
    match f with
    | .add => (old + d) % 2 ^ t.width
    | .min => if a ≤ b then old else d
    | .max => if a < b then d else old
    | .and => old &&& d
    | .or => old ||| d
    | .xor => old ^^^ d
    | .exch => d
    | .cas => if old = cmp then d else old

end Sys2Proof.Machine
end

