-- ==== Sys2Proof/Machine/Windows.lean ====
section
/-! DEFINITION. The per-core windows of a block (10 R199 to R202, R45): reads and writes at offsets, the pooled LS window,
and the checks of R239 that per-core accesses share. -/

namespace Sys2Proof.Machine

/-- The per-core spaces (R199). -/
inductive Space | wb | ab | cb | ls
  deriving DecidableEq, Repr

/-- A number that tells the spaces apart. -/
def Space.code : Space → Nat
  | .wb => 0 | .ab => 1 | .cb => 2 | .ls => 3

/-- The size of the granules in which a window's quota is declared (R99). -/
def Space.granule : Space → Nat
  | .wb => 65536 | .ab => 65536 | .cb => 16384 | .ls => 4096

/-- The granules of a core's buffer (R199). -/
def Space.granules : Space → Nat
  | .wb => 16 | .ab => 24 | .cb => 32 | .ls => 64

/-- The window's bytes. -/
def winTab (b : Block) : Space → Tab Byte
  | .wb => b.wb | .ab => b.ab | .cb => b.cb | .ls => b.ls

/-- The window's bytes replaced. -/
def setWinTab (b : Block) (sp : Space) (t : Tab Byte) : Block :=
  match sp with
  | .wb => { b with wb := t } | .ab => { b with ab := t } | .cb => { b with cb := t } | .ls => { b with ls := t }

/-- The declared quota (R201). -/
def winQuota (b : Block) : Space → Nat
  | .wb => b.entry.wb | .ab => b.entry.ab | .cb => b.entry.cb | .ls => b.entry.ls

/-- A byte of a block's window; an unlisted one reads 0. -/
def winByte (b : Block) (sp : Space) (off : Nat) : Byte := tabGet 0 (winTab b sp) off

/-- A byte put into a window, which stays in canonical form. -/
def putWin (b : Block) (sp : Space) (off : Nat) (x : Byte) : Block := setWinTab b sp (tabPut 0 (winTab b sp) off x)

/-- `n` bytes of a window from `off` on. -/
def winRead (s : State) (blk : Nat) (sp : Space) (off n : Nat) : List Byte :=
  match s.blocks[blk]? with
  | none => List.replicate n 0
  | some b => bytesOf (winByte b sp) off n

/-- Bytes put into a window from `off` on. -/
def winWrite (s : State) (blk : Nat) (sp : Space) (off : Nat) (bs : List Byte) : State :=
  modBlock s blk (fun b => putBytes (fun b o x => putWin b sp o x) b off bs)

/-! ### Checks (R239, R201) -/

/-- The outcome of the checks of per-core accesses. -/
inductive WinCheck
  | ok
  | misalign (a : Acc)
  | access (a : Acc)
  deriving DecidableEq, Repr

/-- R239 for per-core offsets: alignment of every access, then that every access is inside. -/
def checkWin (accs : List Acc) (inside : Acc → Bool) : WinCheck :=
  match accs.find? (fun a => a.va.toNat % a.n != 0) with
  | some a => .misalign a
  | none => match accs.find? (fun a => !inside a) with
    | some a => .access a
    | none => .ok

/-- An exact trap for a failed access: its address or offset and its thread (R306). -/
def raiseAcc (s : State) (c : Cx) (cause : Nat) (a : Acc) : State :=
  raiseFrag s c cause a.va (BitVec.ofNat 64 a.tid) (some c.fr.pc)

/-! ### The pooled LS window (R45) -/

/-- The dies of a gang in ascending order, each once. -/
def gangDies (s : State) (g : Gang) : List Nat :=
  (List.range 4).filter (fun d => g.blocks.any (fun b => match s.blocks[b]? with
    | some bl => bl.core / 128 == d
    | none => false))

/-- The blocks of a gang on one die, in ascending block id. -/
def gangOnDie (s : State) (g : Gang) (d : Nat) : List Nat :=
  g.blocks.filter (fun b => match s.blocks[b]? with
    | some bl => bl.core / 128 == d
    | none => false)

/-- The gang that block `b` belongs to. -/
def gangOf (s : State) (b : Nat) : Option Gang := (s.blocks[b]?).bind (fun bl => s.gangs[bl.gang]?)

/-- The block and the offset that a pooled offset names (R45); `none` where a field is not valid. -/
def poolTarget (s : State) (b : Nat) (off : Nat) : Option (Nat × Nat) :=
  if 2 ^ 24 ≤ off then none else
  match gangOf s b with
  | none => if off < 2 ^ 18 then some (b, off) else none
  | some g =>
    match (gangDies s g)[off / 2 ^ 23]? with
    | none => none
    | some d => match (gangOnDie s g d)[off / 2 ^ 18 % 32]? with
      | none => none
      | some m => some (m, off % 2 ^ 18)

/-- Whether a pooled access is valid. A member that has ended still counts, with its quota, until its gang is restored on other
cores; the manual says of no member that it stops existing before its gang does (log 40). -/
def poolInside (s : State) (b : Nat) (a : Acc) : Bool :=
  match poolTarget s b a.va.toNat with
  | none => false
  | some (m, off) => match s.blocks[m]? with
    | some bl => off + a.n ≤ bl.entry.ls
    | none => false

end Sys2Proof.Machine
end

