-- ==== Sys2Proof/Machine/Launch.lean ====
section
/-! DEFINITION. A compute group and a block as they start (R34, R51, R75, R111, R202, R298, R354), shared by block start,
spawned groups, recipe runs and the program load of `State.withFetchWord`. -/

namespace Sys2Proof.Machine

/-- The mask of threads 0 to `n - 1`. -/
def firstThreads (n : Nat) : Mask := BitVec.ofNat 256 (2 ^ n - 1)

/-- The one fragment that a group starts with (R38). -/
def Frag.start (mask : Mask) (pc : DWord) (now : Nat) : Frag :=
  { id := 0, slot := some 0, mask, pc, toks := [], arr := [], wait := .run, since := now, passed := 0, urgent := false,
    spilled := 0 }

/-- The largest power of two not above `n`, for `n` of at least 4; at least 4 (R34). -/
def grantFloor (n : Nat) : Nat :=
  if 128 ≤ n then 128 else if 64 ≤ n then 64 else if 32 ≤ n then 32 else if 16 ≤ n then 16 else if 8 ≤ n then 8 else 4

/-- Lane octets that are active on a core (R25, CFGOCT). -/
def laneOctets (s : State) (core : Nat) : Nat := popNat 16 ((s.cfgOct.getD (core / 128 * 96 + core % 128) 0).toNat)

/-- Whether a compute core is active (R25); one without an active lane octet counts as disabled (R24). -/
def coreActive (s : State) (core : Nat) : Bool :=
  (s.cfgCore.getD (core / 128) 0).getLsbD (core % 128) && laneOctets s core != 0

/-- The active cores of a die, by their core ids (R11, R25). -/
def activeCores (s : State) (d : Nat) : List Nat :=
  ((List.range 96).map (fun i => d * 128 + i)).filter (coreActive s)

/-- CFGCORE of a die (R25). -/
def cfgCoreWord (s : State) (d : Nat) : Nat :=
  ((List.range 96).map (fun i => if coreActive s (d * 128 + i) then 2 ^ i else 0)).sum

/-- The lane cap of a context's partition (R317, R33); a record without one of its six values caps nothing. -/
def laneCap (s : State) (c : Ctx) : Nat :=
  let n := recordField s c 62 2
  if n = 4 ∨ n = 8 ∨ n = 16 ∨ n = 32 ∨ n = 64 ∨ n = 128 then n else 128

/-- R33: lane capacity L of a core for a context. -/
def laneCapacity (s : State) (core : Nat) (c : Ctx) : Nat := min (8 * laneOctets s core) (laneCap s c)

/-- R33: lanes held by the width regions of other groups on the core. -/
def lanesHeld (s : State) (core : Nat) (except : Nat) : Nat :=
  ((List.range s.groups.length).map (fun g => match s.groups[g]? with
    | some gr => if g != except && groupHere s gr core && gr.region.isSome && (gr.life == .live || gr.life == .stopped)
        then gr.grant else 0
    | none => 0)).sum

/-- R33: a group's offer. -/
def offer (s : State) (core g : Nat) (c : Ctx) : Nat := max 4 (laneCapacity s core c - lanesHeld s core g)

/-- R34: the grant outside width regions. -/
def plainGrant (s : State) (core g size : Nat) (c : Ctx) : Nat := min (min size 32) (grantFloor (offer s core g c))

/-- R75: a group that is launched now runs interlocked when the steppings differ or the force bit of its context's
record is set. -/
def launchInterlocked (s : State) (c : Ctx) (stepping : Nat) : Bool :=
  stepping != Config.stepId || recordField s c 72 1 % 2 == 1

/-- R99: the entry descriptor in the 32 bytes that end at an entry address; `none` for a wrong tag, a field out of range or
a nonzero field that must be 0. -/
def Entry.parse (bs : List Byte) : Option Entry :=
  let f := field bs
  if f 0 2 = 0x4E44 ∧ f 2 1 ≤ 1 ∧ 3 ≤ f 3 1 ∧ f 3 1 ≤ 8 ∧ 1 ≤ f 4 1 ∧ f 4 1 ≤ 16 ∧ 1 ≤ f 5 1 ∧ f 5 1 ≤ 16 ∧
      1 ≤ f 6 1 ∧ f 6 1 ≤ 32 ∧ f 7 1 ≤ 16 ∧ f 8 2 ≤ 16 ∧ f 10 1 ≤ 32 ∧ f 11 1 ≤ 24 ∧ f 12 2 ≤ 64 ∧ f 14 1 ≤ 24 ∧
      f 15 1 ≤ 24 ∧ f 16 4 ≤ 65535 ∧ f 22 2 = 0 ∧ f 24 8 = 0 then
    some { recipe := f 2 1 == 1, lgt := f 3 1, block := f 4 1, gang := f 5 1, vcount := 8 * f 6 1, bars := f 7 1,
           wb := 65536 * f 8 2, cb := 16384 * f 10 1, ab := 65536 * f 11 1, ls := 4096 * f 12 2, carveMin := 64 * f 14 1,
           carveMax := 64 * f 15 1, timer := if f 16 4 = 0 then 2048 else f 16 4, stepping := f 20 2 }
  else none

/-- The entry descriptor of an entry address as the device reads it for a context (R99, R400). -/
def readEntryDesc (s : State) (c : Ctx) (entry : DWord) : Dev (Option Entry) :=
  if entry.toNat % 32 ≠ 0 then .ok none else
  match devRead s c (entry - 32) 8 with
  | .ok bs => .ok (Entry.parse bs)
  | .page v p => .page v p
  | .fail v => .fail v
  | .offline d => .offline d

/-- T of an entry. -/
def Entry.size (e : Entry) : Nat := 2 ^ e.lgt

/-- R320: sizes of the parts of a block image, each area 64-byte aligned, without the frames of saved tiles. -/
def align64 (n : Nat) : Nat := (n + 63) / 64 * 64
def imageBase (e : Entry) (fstack : Nat) : Nat :=
  512 + e.block * (4096 + fstack * 64 + align64 (4 * (32 + 40 * e.size)) + align64 (e.vcount * e.size * 4 + 2 * e.size))
    + (e.wb + e.ab + e.cb + e.ls) + (64 * 128 + 128)

/-- A slot of a context's image area in bytes, and its fragment-stack entries (R317). -/
def slotBytes (s : State) (c : Ctx) : Nat := recordField s c 36 4 * 65536
def fstackOf (s : State) (c : Ctx) : Nat := recordField s c 56 4

/-- A new group (R111: every register reads 0). -/
def Group.start (ctx : Ctx) (block gid place rslot size vcount : Nat) (born : Mask) (grant : Nat) (interlocked : Bool)
    (pc : DWord) (now : Nat) : Group :=
  { life := .live, ctx, block, gid, place, rslot, size, vcount, born, grant, region := none, interlocked,
    v := [], q := [], s := [], k := [], fflags := [], fmask := 0, tvec := 0, prog := 0, shared := [], older := [],
    frags := [Frag.start born pc now], nextFrag := 1, nextSplit := 0, trapQ := [], late := [], handler := none, log := [],
    batch := 0, openB := [], closedB := [], run := none }

/-- A barrier at block start (R354). -/
def Barrier.start : Barrier := { phase := false, marks := 0, phases := 0 }

/-- A free tile (R338). -/
def Tile.empty : Tile :=
  { state := .free, entry := 0, args := [], outsize := 0, depth := 0, sources := [], words := [], hold := 0,
    place := 0, frame := [], lost := false }

/-- A block that has not started. -/
def Block.start (ctx : Ctx) (task : Option Nat) (gang gangIdx member core : Nat) (entryVa : DWord) (entry : Entry)
    (image : Nat) : Block :=
  { life := .running, ctx, task, gang, gangIdx, member, core, entryVa, entry, groups := [], spawned := false,
    grans := [], wb := [], ab := [], cb := [], ls := [], bars := List.replicate 16 Barrier.start,
    gbar := Barrier.start, tiles := List.replicate 64 Tile.empty, clean := true, ending := false, drainFrom := none,
    image, missing := 0, missKeys := [], savedAt := 0, ready := false }

/-- A compute core that has held nothing (R203, R302). -/
def Core.empty : Core :=
  { bins := List.replicate 16 none, spawnList := [], deque := [], carve := 1536, left := [], counts := [], held := [], interval := 0,
    tileHits := 0, tileMisses := 0, tightHits := 0, lostMisses := 0, turn := .idle }

/-- A compute core. -/
def coreOf (s : State) (n : Nat) : Core := tabGet Core.empty s.cores n

/-- A compute core changed. -/
def modCore (s : State) (n : Nat) (f : Core → Core) : State := { s with cores := tabSet s.cores n (f (coreOf s n)) }

/-! ### Windows in a core's buffers (R201, R202) -/

/-- The four windows of a block. -/
def spaces : List Space := [.wb, .ab, .cb, .ls]

/-- The key of a granule of a core's buffers. -/
def granKey (sp : Space) (g : Nat) : Nat := sp.code * 64 + g

/-- The granules of a space that no block resident on the core lies in. -/
def freeGrans (s : State) (core : Nat) (sp : Space) : List Nat :=
  (List.range sp.granules).filter (fun g => !(s.blocks.any (fun b => b.core == core && b.life == .running && (b.grans.getD sp.code []).contains g)))

/-- The blocks that are placed on a core, started or not. -/
def residents (s : State) (core : Nat) : List Block :=
  s.blocks.filter (fun b => b.core == core && (b.life == .running || b.life == .deque))

/-- Bmin of a set of blocks, in KiB (R203). -/
def abMin (l : List Block) : Nat :=
  max ((l.map (fun b => b.entry.ab / 1024)).sum) (l.foldl (fun m b => max m b.entry.carveMin) 0)

/-- Bmax of a set of blocks, in KiB (R203). -/
def abMax (l : List Block) : Nat :=
  if l.isEmpty then 1536 else max (abMin l) (l.foldl (fun m b => min m b.entry.carveMax) 1536)

/-- The granules that a window of a space may lie in: in the activation buffer those below Bmin (R204). -/
def roomGrans (s : State) (core : Nat) (sp : Space) : List Nat :=
  (freeGrans s core sp).filter (fun g => sp != .ab || g < abMin (residents s core) / 64)

/-- Where the windows of a block of the core go: the lowest granules of each buffer that they may lie in, counted from one that
the core chooses (R201, R204). -/
def chooseGrans (s : State) (core : Nat) (e : Block) : List (List Nat) :=
  spaces.map (fun sp =>
    let l := roomGrans s core sp
    let n := (winQuota e sp + sp.granule - 1) / sp.granule
    let i := Config.freeNat .granules s.free sp.code % (l.length + 1 - n)
    (l.drop i).take n)

/-- The bytes with which a window begins (R202): where a granule's bytes belonged last to another context, zeros; where to the
same context, each byte is 0 or what was left there. -/
def initialWin (s : State) (core : Nat) (c : Ctx) (sp : Space) : Nat → List Nat → Tab Byte
  | _, [] => []
  | i, g :: l =>
    (match tabFind (coreOf s core).left (granKey sp g) with
     | none => []
     | some x => if x.1 != c then [] else
        (x.2.filter (fun p => Config.freeNat .leftBytes s.free (granKey sp g * 65536 + p.1) % 2 == 1)).map
          (fun p => (i * sp.granule + p.1, p.2))) ++ initialWin s core c sp (i + 1) l

/-- A block that starts on its core takes its windows (R201, R202); bytes beyond a quota belong to no window. -/
def takeWindows (s : State) (blk : Nat) : State :=
  match s.blocks[blk]? with
  | none => s
  | some b =>
    let gs := chooseGrans s b.core b
    let win (b : Block) (sp : Space) : Block :=
      setWinTab b sp ((initialWin s b.core b.ctx sp 0 (gs.getD sp.code [])).filter (fun p => p.1 < winQuota b sp))
    modBlock s blk (fun b => spaces.foldl win { b with grans := gs })

/-- What a window leaves in its granules, in the order of the window. -/
def leftBy (b : Block) (sp : Space) : Nat → List Nat → List (Nat × Ctx × Tab Byte)
  | _, [] => []
  | i, g :: l =>
    (granKey sp g, b.ctx, ((winTab b sp).filter (fun p => i * sp.granule ≤ p.1 && p.1 < (i + 1) * sp.granule)).map
      (fun p => (p.1 - i * sp.granule, p.2))) :: leftBy b sp (i + 1) l

/-- A block's windows leave their granules, where their bytes stay as its context's last ones (R202). -/
def leaveWindows (s : State) (blk : Nat) : State :=
  match s.blocks[blk]? with
  | none => s
  | some b =>
    let l := spaces.flatMap (fun sp => leftBy b sp 0 (b.grans.getD sp.code []))
    modBlock (modCore s b.core (fun k => { k with left := l.foldl (fun t p => tabSet t p.1 p.2) k.left })) blk
      (fun b => { b with grans := [] })

/-- The lowest resident-group slots of a core that hold no group (R11, R42: 64 of them). -/
def freeSlots (s : State) (core : Nat) : List Nat :=
  (List.range 64).filter (fun i => !(s.groups.any (fun gr =>
    groupHere s gr core && gr.rslot == i && gr.run.isNone && (gr.life == .live || gr.life == .stopped))))

end Sys2Proof.Machine
end

