-- ==== Sys2Proof/Machine/Frags.lean ====
section
/-! DEFINITION. Fragments of a group: slots and the fragment stack (R40), splits (R196), families and merges (R197). -/

namespace Sys2Proof.Machine

/-! ### Slots (R40) -/

/-- Slots of a core that hold a fragment; recipe runs have slots of their own (R341). -/
def slotsUsed (s : State) (core : Nat) : Nat :=
  s.groups.foldl (fun n gr => if groupHere s gr core && gr.run.isNone then n + (gr.frags.filter (·.slot.isSome)).length else n) 0

/-- Fragment slots promised to blocks that have not started (R42). -/
def slotsReserved (s : State) (core : Nat) : Nat :=
  ((s.blocks.filter (fun b => b.core == core && b.life == .deque)).map (fun b => b.entry.block)).sum

/-- Free slot indices of a group; a recipe run has the one slot of its depth (R341). -/
def Group.freeIndices (gr : Group) : List Nat :=
  (List.range (if gr.run.isSome then 1 else 8)).filter (fun i => !(gr.frags.any (fun x => x.slot == some i)))

/-- Whether a fragment of a group can take a slot: one of the group's 8 and one of the core's 256, of which 248 are for blocks
and some promised to blocks placed there (R40, R42, R341). -/
def slotFree (s : State) (gr : Group) : Bool :=
  !gr.freeIndices.isEmpty && (gr.run.isSome || slotsUsed s gr.place + slotsReserved s gr.place < 248)

/-- A free index, any one (R40). -/
def Group.takeIndex (gr : Group) (free salt : Nat) : Nat :=
  match gr.freeIndices with
  | [] => 0
  | [i] => i
  | l => l.getD (Config.freeNat .fragSlot free salt % l.length) 0

/-- The oldest spilled fragment of the groups on a core that could take a slot now. -/
def oldestSpilled (s : State) (core : Nat) : Option (Nat × Frag) :=
  (s.groups.zipIdx.flatMap (fun p => if groupHere s p.1 core && p.1.life == .live && slotFree s p.1
      then (p.1.frags.filter (·.slot.isNone)).map (fun x => (p.2, x)) else [])).foldl
    (fun b x => match b with
      | none => some x
      | some y => if x.2.spilled < y.2.spilled then some x else some y) none

/-- FRAGMENT_RETURN: spilled fragments take slots that are free, the oldest spilled first. -/
def returnSpilled : Nat → State → Nat → State
  | 0, s, _ => s
  | n + 1, s, core =>
    match oldestSpilled s core with
    | none => s
    | some (g, fr) =>
      returnSpilled n (modGroup s g (fun gr =>
        gr.modFrag fr.id (fun x => { x with slot := some (gr.takeIndex s.free (g * 16 + n)) }))) core

/-- Fragments return while slots are free. -/
def refillSlots (s : State) (core : Nat) : State := returnSpilled 256 s core

/-- The fragment that a split spills: of the other fragments in slots, the one whose wait began first, the lower slot
on equal ages. Every fragment but the one that splits waits while that one issues. -/
def victim (gr : Group) (f : Nat) : Option Frag :=
  (gr.frags.filter (fun x => x.id != f && x.slot.isSome)).foldl
    (fun b x => match b with
      | none => some x
      | some y => if x.since < y.since || (x.since == y.since && x.slot.getD 0 < y.slot.getD 0) then some x else some y) none

/-- Spilled fragments of a group. -/
def Group.spilledCount (gr : Group) : Nat := (gr.frags.filter (·.slot.isNone)).length

/-! ### Merging (R197, R355, R308) -/

/-- The members of a JOIN family: fragments for which a token names one split. -/
def family (gr : Group) (tok id : Nat) : List Frag := gr.frags.filter (fun x => tabFind x.toks tok == some id)

/-- The member that holds the lowest %tid. -/
def lowestMember : List Frag → Option Frag
  | [] => none
  | x :: l => match lowestMember l with
    | none => some x
    | some y => if lowestTid x.mask ≤ lowestTid y.mask then some x else some y

/-- Everything that names a member of a family names the merged fragment; what one member could read of another's old values
of a shared register is past (R117). -/
def Group.rename (gr : Group) (old : List Nat) (new : Nat) : Group :=
  let h (f : Nat) : Nat := if old.contains f then new else f
  { gr with
    trapQ := gr.trapQ.map (fun e => { e with frag := h e.frag }),
    late := gr.late.map (fun x => { x with entry := { x.entry with frag := h x.entry.frag } }),
    handler := gr.handler.map (fun x => { x with frag := h x.frag }),
    log := gr.log.map (fun e => { e with frag := h e.frag, heirs := e.heirs.map h }),
    older := gr.older.map (fun o => { o with frag := h o.frag }),
    shared := (gr.shared.map (fun o => { o with frag := h o.frag, writer := h o.writer })).filter (fun o => o.frag != o.writer) }

/-- A party of the group renamed. -/
def renameParty (g : Nat) (old : List Nat) (new : Nat) : Party → Party
  | .frag g' f => if g' == g && old.contains f then .frag g new else .frag g' f
  | .control cc => .control cc
  | .idle => .idle

/-- The family merges behind the JOIN of the member with the lowest %tid. -/
def mergeFamily (s : State) (g tok : Nat) (fam : List Frag) : State :=
  match lowestMember fam with
  | none => s
  | some low =>
    let old := (fam.map (·.id)).filter (· != low.id)
    let merged : Frag := { low with
      mask := fam.foldl (fun m x => m ||| x.mask) 0, toks := tabDel low.toks tok, pc := low.pc + 4, wait := .run,
      since := clk s }
    let s := modGroup s g (fun gr =>
      (({ gr with frags := (gr.frags.filter (fun x => !old.contains x.id)).map (fun x => if x.id == low.id then merged else x) }
        : Group)).rename old low.id)
    { s with
      cur := renameParty g old low.id s.cur,
      cores := s.cores.map (fun k => (k.1, { k.2 with turn := renameParty g old low.id k.2.turn })),
      chunks := s.chunks.map (fun k => if k.g != g then k else
        { k with f := if old.contains k.f then low.id else k.f, heirs := k.heirs.map (fun x => if old.contains x then low.id else x) }),
      chains := s.chains.map (fun k => if k.g == g && old.contains k.f then { k with f := low.id } else k),
      commands := s.commands.map (fun k => { k with party := renameParty g old low.id k.party }) }

/-- The family merges when every member is parked at a JOIN with the token. -/
def tryMerge (s : State) (g tok id : Nat) : State :=
  match s.groups[g]? with
  | none => s
  | some gr =>
    let fam := family gr tok id
    if !fam.isEmpty && fam.all (fun x => x.wait == .join tok) then refillSlots (mergeFamily s g tok fam) gr.place else s

/-- Every family that a fragment with these open tokens belonged to. -/
def tryMerges (s : State) (g : Nat) : List (Nat × Nat) → State
  | [] => s
  | (tok, id) :: l => tryMerges (tryMerge s g tok id) g l

end Sys2Proof.Machine
end

