-- ==== Sys2Proof/Machine/Access.lean ====
section
/-! DEFINITION. Memory instructions on either kind of core: who acts, what performing an instruction can end in, the exact
traps and the parking at issue (R239, R240, R313), and the traps of a control core (R306). -/

namespace Sys2Proof.Machine

/-- Who performs an instruction of class B. -/
inductive Actor
  | frag (c : Cx)
  | ctl (cc : Nat) (c : Ctl)

/-- On whose behalf it accesses. -/
def Actor.who : Actor → Who
  | .frag c => c.who
  | .ctl cc c => c.who cc

/-- The thread that a trap of an S form records (R306): the fragment's lowest; 0 on a control core. -/
def Actor.lowTid : Actor → Nat
  | .frag c => c.lowTid
  | .ctl _ _ => 0
def Actor.low (a : Actor) : DWord := BitVec.ofNat 64 a.lowTid

/-- A uniform register written. -/
def Actor.putS (a : Actor) (s : State) (n : Nat) (x : DWord) : State :=
  match a with
  | .frag c => putRegs s c [(.s n, x)]
  | .ctl cc _ => modCtl s cc (fun k => k.setS n x)

/-- A uniform register read as operand `op`. -/
def Actor.getS (a : Actor) (free op n : Nat) : DWord :=
  match a with
  | .frag c => c.s free op n
  | .ctl _ c => c.sreg n

/-- A detected race queued to the party (R228). -/
def Actor.race (a : Actor) (s : State) (r : Option (Race × DWord)) : State :=
  match a with
  | .frag c => queueRace s c r
  | .ctl cc c => queueRaceCtl s cc c.pc r

/-- The block of the actor is no longer clean (R319). -/
def Actor.dirty (a : Actor) (s : State) : State :=
  match a with
  | .frag c => modBlock s c.gr.block (fun b => { b with clean := false })
  | .ctl _ _ => s

/-- What performing an instruction ends in, after its addresses have passed R239. -/
inductive Perf
  /-- Performed. -/
  | done (s : State)
  /-- An ACCESS or another exact trap, by cause, address and auxiliary. -/
  | trap (cause : Nat) (addr aux : DWord) (s : State)
  /-- Pages or homes that further accesses wait on. -/
  | park (pages : List (DWord × Nat)) (dies : List Nat) (s : State)
  /-- It has to be tried again later. -/
  | again (s : State)

/-- Whether a range of a recipe record holds an address (R340). -/
def TileSource.covers (x : TileSource) (va : Nat) : Bool :=
  match x with
  | .range b len => b.toNat ≤ va && va < b.toNat + len
  | .none | .tile _ => false

/-- Whether a run may load the bytes of an access: its record's frozen ranges hold every one of them (R344, R345). -/
def runMayLoad (s : State) (c : Cx) (a : Acc) : Bool :=
  match c.gr.run with
  | none => true
  | some r => match (s.blocks[c.gr.block]?).bind (fun b => b.tiles[r.tile]?) with
    | none => false
    | some t => (List.range a.n).all (fun i => t.sources.any (fun x => x.covers (a.va.toNat + i)))

/-- The first access of a list with a word that is not frozen. -/
def unfrozen (s : State) (l : List (Acc × Nat × Nat)) : Option Acc :=
  (l.find? (fun p => (List.range (wordCount (p.2.1 % 4 + p.1.n))).any (fun i => match regOf s (p.2.1 / 4 + i) with
    | some (.frozen _) => false
    | _ => true))).map (·.1)

/-- The access of a load that a recipe run may not make: one of a word that is not frozen (R344, R345). -/
def Cx.barred (c : Cx) (s : State) (l : List (Acc × Nat × Nat)) : Option Acc := if c.gr.run.isSome then unfrozen s l else none
def Actor.barred (a : Actor) (s : State) (l : List (Acc × Nat × Nat)) : Option Acc :=
  match a with
  | .frag c => c.barred s l
  | .ctl _ _ => none

/-- A load, unless one of its accesses is barred: ACCESS, before any effect (R345). -/
def unlessBarred (x : Option Acc) (s : State) (load : Perf) : Perf :=
  match x with
  | some a => .trap 4 a.va (BitVec.ofNat 64 a.tid) s
  | none => load

/-- A memory instruction of a fragment: checks, then its effect, exact traps, parking. -/
def issueReq (c : Cx) (s : State) (len : Nat) (u : Use) (req : Req) (perform : State → List (Acc × Nat × Nat) → Perf) :
    State :=
  if req.accs.isEmpty then advance s c len else
  if c.gr.run.isSome && req.accs.all (fun a => a.va.toNat % a.n == 0) && !req.accs.all (runMayLoad s c) then
    raiseAcc s c 4 ((req.accs.find? (fun a => !runMayLoad s c a)).getD { tid := 0, va := 0, n := 1, data := [] })
  else
  match checkAccs s c.who u req.accs with
  | (.misalign a, s1) => raiseAcc s1 c 3 a
  | (.access a, s1) => raiseAcc s1 c 4 a
  | (.park pages dies, s1) => parkReq s s1 c req (fun _ => u.code) len pages dies none
  | (.ok l, s1) =>
    match perform s1 l with
    | .done s2 => advance s2 c len
    | .trap cause addr aux s2 => raiseFrag s2 c cause addr aux (some c.fr.pc)
    | .park pages dies s2 => parkReq s s2 c req (fun _ => u.code) len pages dies none
    | .again s2 => park s2 c .retry

/-- A memory instruction of a control core: PAGE is taken exactly, an offline home makes it wait (R306). -/
def issueReqCtl (cc : Nat) (c : Ctl) (s : State) (len : Nat) (u : Use) (req : Req)
    (perform : State → List (Acc × Nat × Nat) → Perf) : State :=
  match checkAccs s (c.who cc) u req.accs with
  | (.misalign a, s1) => raiseCtl s1 cc 3 a.va 0
  | (.access a, s1) => raiseCtl s1 cc 4 a.va 0
  | (.park ((va, _) :: _) _, s1) => raiseCtl s1 cc 5 va (BitVec.ofNat 64 u.code)
  | (.park [] _, s1) => parkCtl s1 cc .retry
  | (.ok l, s1) =>
    match perform s1 l with
    | .done s2 => advanceCtl (parkCtl s2 cc .run) cc len
    | .trap cause addr aux s2 => raiseCtl s2 cc cause addr aux
    | .park ((va, _) :: _) _ s2 => raiseCtl s2 cc 5 va (BitVec.ofNat 64 u.code)
    | .park [] _ s2 => parkCtl s2 cc .retry
    | .again s2 => parkCtl s2 cc .retry

/-- How a lane memory instruction issues (R240). -/
def laneMemInfo (w : Bool) : IssueInfo := { cls := .lane, w, touch := true, fence := false, rel := false }
/-- How a uniform memory instruction of class B issues. -/
def uniMemInfo (w rel : Bool) : IssueInfo := { cls := .both, w, touch := true, fence := false, rel }
/-- How an instruction of class C that touches what R240 lists issues. -/
def compInfo (w rel : Bool) : IssueInfo := { cls := .compute, w, touch := true, fence := false, rel }

/-- A lane memory instruction. -/
def laneMemOp (i : Instr) (w : Bool) (body : Cx → State → State) (s : State) : Out := issue i (laneMemInfo w) s body noCtl

/-- The order in which threads' atomics of one instruction take effect (R30): any, where two of them share a word. -/
def shuffle {α : Type} (free : Nat) : Nat → List α → List α
  | 0, l => l
  | n + 1, l =>
    match l[Config.freeNat .atomics free n % l.length]? with
    | none => l
    | some x => x :: shuffle free n (l.eraseIdx (Config.freeNat .atomics free n % l.length))

/-- Whether two accesses of a list start in one word. -/
def sharesWord : List (Acc × Nat × Nat) → Bool
  | [] => false
  | p :: l => l.any (fun q => q.2.1 / 4 == p.2.1 / 4 || q.2.1 / 4 == p.2.1 / 4 + 1 || q.2.1 / 4 + 1 == p.2.1 / 4) || sharesWord l

/-- A predictor's choice for an atomic and its line (R226): near or far. -/
def nearChoice (s : State) (pa : Nat) : Bool := Config.freeNat .near s.free (pa / 256) % 2 == 1

end Sys2Proof.Machine
end

