-- ==== Sys2Proof/Machine/LaneMem.lean ====
section
/-! DEFINITION. The meanings of the lane memory instructions LD, ST, LDG, STG, ATOM, PFT, FILL and the per-core accesses
LDA, STA, LDL, STL (12 R237 to R249). -/

namespace Sys2Proof.Machine

/-! ### Loads and stores of global memory (R242) -/

/-- One access per active thread. -/
def laneAccs (c : Cx) (free : Nat) (g : Option GuardQ) (n : Nat) (addr : Nat → DWord) (data : Nat → List Byte) : List Acc :=
  (c.active free g).map (fun t => { tid := t, va := addr t, n, data := data t })

/-- No data: a load. -/
def noData (_ : Nat) : List Byte := []

/-- Loads performed: registers, and one trap for a detected race (R227, R228, R238). -/
def performLoad (t : ElemTy) (vt : BitVec 8) (c : Cx) (s : State) (l : List (Acc × Nat × Nat)) : Perf :=
  unlessBarred (c.barred s l) s (
    let r := loadAccs s c.who l
    .done (queueRace (putRegs r.2.2 c (r.1.flatMap (fun p => loadOut t p.1.tid vt.toNat p.2))) c r.2.1))

/-- Stores performed (R224, R227, R241). -/
def performStore (a : Actor) (s : State) (l : List (Acc × Nat × Nat)) : Perf :=
  let r := storeAccs s a.who l
  .done (a.race (clearPoison (a.dirty r.2) l) r.1)

def ldBody (o : MemOp) (c : Cx) (s : State) : State :=
  let n := accSize o.t o.c
  let accs := laneAccs c s.free o.g n (fun t => c.addr s.free t n o.a) noData
  issueReq c s 8 .load { kind := .load o.t o.c o.vt, accs } (performLoad o.t o.vt c)

def execLd (o : MemOp) (s : State) : Out := laneMemOp (.ld o) o.w (ldBody o) s

def stBody (o : MemOp) (c : Cx) (s : State) : State :=
  let n := accSize o.t o.c
  let accs := laneAccs c s.free o.g n (fun t => c.addr s.free t n o.a) (fun t => c.storeData s.free t o.vt.toNat n)
  issueReq c s 8 .store { kind := .store, accs } (performStore (.frag c))

def execSt (o : MemOp) (s : State) : Out := laneMemOp (.st o) o.w (stBody o) s

def ldgBody (o : GatherOp) (c : Cx) (s : State) : State :=
  let n := accSize o.t .x1
  let accs := laneAccs c s.free o.g n (fun t => c.gaddr s.free t n o.x) noData
  issueReq c s 8 .load { kind := .load o.t .x1 o.vt, accs } (performLoad o.t o.vt c)

def execLdg (o : GatherOp) (s : State) : Out := laneMemOp (.ldg o) o.w (ldgBody o) s

def stgBody (o : GatherOp) (c : Cx) (s : State) : State :=
  let n := accSize o.t .x1
  let accs := laneAccs c s.free o.g n (fun t => c.gaddr s.free t n o.x) (fun t => c.storeData s.free t o.vt.toNat n)
  issueReq c s 8 .store { kind := .store, accs } (performStore (.frag c))

def execStg (o : GatherOp) (s : State) : Out := laneMemOp (.stg o) o.w (stgBody o) s

/-! ### ATOM (R243) -/

/-- Atomics one after another: each thread's old number and the lowest race. -/
def atomAccs (s : State) (w : Who) (k : AtomKind) :
    List (Acc × Nat × Nat) → List (Nat × Nat) × Option (Race × DWord) × State
  | [] => ([], none, s)
  | p :: l =>
    let d := leNat (p.1.data.take p.1.n)
    let cmp := leNat (p.1.data.drop p.1.n)
    let r := atomAcc s w (nearChoice s p.2.1) (atomNew k cmp d) p
    let rest := atomAccs r.2.2 w k l
    ((p.1.tid, r.1) :: rest.1, worse r.2.1 rest.2.1, rest.2.2)

/-- The threads of an atomic in the order they act (R30). -/
def atomOrder (s : State) (l : List (Acc × Nat × Nat)) : List (Acc × Nat × Nat) :=
  if sharesWord l then shuffle s.free l.length l else l

/-- The old value of an atomic in a lane register or pair. -/
def atomOut (k : AtomKind) (t vt x : Nat) : List (RegKey × DWord) :=
  if atomBytes k = 8 then outPair t vt x else outWord t vt x

def performAtom (rel : Bool) (k : AtomKind) (sc : Scope) (vt : BitVec 8) (c : Cx) (s : State)
    (l : List (Acc × Nat × Nat)) : Perf :=
  let s := modBlock s c.gr.block (fun b => { b with clean := false })
  let s := if rel then release s (.group c.g) sc else s
  let r := atomAccs s c.who k (atomOrder s l)
  .done (queueRace (putRegs r.2.2 c (r.1.flatMap (fun p => atomOut k p.1 vt.toNat p.2))) c r.2.1)

/-- The operand of a thread, and for cas the new value before the compare value. -/
def Cx.atomData (c : Cx) (free t vt : Nat) (k : AtomKind) : List Byte :=
  let n := atomBytes k
  match k with
  | .int .cas _ => c.storeData free t (vt + n / 4) n ++ c.storeData free t vt n
  | .int _ _ | .fadd32 | .fadd64 => c.storeData free t vt n

def atomBody (o : AtomOp) (c : Cx) (s : State) : State :=
  let n := atomBytes o.kind
  let accs := laneAccs c s.free o.g n (fun t => c.addr s.free t n o.a) (fun t => c.atomData s.free t o.vt.toNat o.kind)
  issueReq c s 8 .atomic { kind := .atom o.rel o.kind o.scope o.vt, accs } (performAtom o.rel o.kind o.scope o.vt c)

def execAtom (o : AtomOp) (s : State) : Out :=
  issue (.atom o) { cls := .lane, w := o.w, touch := true, fence := false, rel := o.rel && scopeOrders o.scope } s
    (atomBody o) noCtl

/-! ### PFT (R244, R231) -/

/-- The sector of one address, if the L1 does not hold it (R17) and it passes R239; a recipe run fetches nothing that R344 does
not name. -/
def prefetchOne (s : State) (w : Who) (va : DWord) : State :=
  if w.home || (l1Hit s w .load { tid := 0, va, n := 1, data := [] }).isSome then s else
  match translate s w.site w.ctx w.priv .load va with
  | (.ok pa key, s1) => fillSector s1 w.site w.ctx.asid va key pa true
  | (_, s1) => s1

def pftBody (o : PftOp) (c : Cx) (s : State) : State :=
  advance ((c.active s.free o.g).foldl (fun x t => prefetchOne x c.who (c.addr s.free t 1 o.a)) s) c 8

def execPft (o : PftOp) (s : State) : Out := laneMemOp (.pft o) o.w (pftBody o) s

/-! ### Per-core accesses (R245) -/

/-- A load of per-core offsets: `read` gives the bytes at an access. -/
def coreLoad (c : Cx) (s : State) (t : ElemTy) (vt : BitVec 8) (accs : List Acc) (inside : Acc → Bool)
    (read : Acc → List Byte) : State :=
  match checkWin accs inside with
  | .misalign a => raiseAcc s c 3 a
  | .access a => raiseAcc s c 4 a
  | .ok => advance (putRegs s c (accs.flatMap (fun a => loadOut t a.tid vt.toNat (read a)))) c 8

/-- A store to per-core offsets, the highest thread last (R30). -/
def coreStore (c : Cx) (s : State) (accs : List Acc) (inside : Acc → Bool) (write : State → Acc → State) : State :=
  match checkWin accs inside with
  | .misalign a => raiseAcc s c 3 a
  | .access a => raiseAcc s c 4 a
  | .ok => advance (accs.foldl write s) c 8

/-- Whether an access lies in the block's own window. -/
def winInside (s : State) (blk : Nat) (sp : Space) (a : Acc) : Bool :=
  match s.blocks[blk]? with
  | none => false
  | some b => a.va.toNat + a.n ≤ winQuota b sp

def ldaBody (o : MemOp) (c : Cx) (s : State) : State :=
  let n := accSize o.t o.c
  coreLoad c s o.t o.vt (laneAccs c s.free o.g n (fun t => c.addr s.free t n o.a) noData)
    (if c.gr.run.isSome then fun _ => false else winInside s c.gr.block .ab)
    (fun a => winRead s c.gr.block .ab a.va.toNat a.n)

def execLda (o : MemOp) (s : State) : Out := laneMemOp (.lda o) o.w (ldaBody o) s

def staBody (o : MemOp) (c : Cx) (s : State) : State :=
  let n := accSize o.t o.c
  coreStore c s (laneAccs c s.free o.g n (fun t => c.addr s.free t n o.a) (fun t => c.storeData s.free t o.vt.toNat n))
    (winInside s c.gr.block .ab) (fun s a => winWrite s c.gr.block .ab a.va.toNat a.data)

def execSta (o : MemOp) (s : State) : Out := laneMemOp (.sta o) o.w (staBody o) s

/-- Whether an LS access is inside: the own window, or the pooled one. -/
def lsInside (s : State) (blk : Nat) (pool : Bool) (a : Acc) : Bool :=
  if pool then poolInside s blk a else winInside s blk .ls a

/-- The block and the offset of a valid LS access. -/
def lsPlace (s : State) (blk : Nat) (pool : Bool) (a : Acc) : Nat × Nat :=
  if pool then (poolTarget s blk a.va.toNat).getD (blk, 0) else (blk, a.va.toNat)

def ldlBody (o : LsOp) (c : Cx) (s : State) : State :=
  let n := accSize o.t o.c
  coreLoad c s o.t o.vt (laneAccs c s.free o.g n (fun t => c.addr s.free t n o.a) noData)
    (lsInside s c.gr.block o.pool)
    (fun a => let p := lsPlace s c.gr.block o.pool a; winRead s p.1 .ls p.2 a.n)

def execLdl (o : LsOp) (s : State) : Out := laneMemOp (.ldl o) o.w (ldlBody o) s

def stlBody (o : LsOp) (c : Cx) (s : State) : State :=
  let n := accSize o.t o.c
  coreStore c s (laneAccs c s.free o.g n (fun t => c.addr s.free t n o.a) (fun t => c.storeData s.free t o.vt.toNat n))
    (lsInside s c.gr.block o.pool)
    (fun s a => let p := lsPlace s c.gr.block o.pool a; winWrite s p.1 .ls p.2 a.data)

def execStl (o : LsOp) (s : State) : Out := laneMemOp (.stl o) o.w (stlBody o) s

/-! ### FILL (R248, R249) -/

/-- Bytes of a chunk. -/
def chunkSize : Sys2Proof.Chunk → Nat
  | .b4 => 4 | .b8 => 8 | .b16 => 16 | .b32 => 32 | .b64 => 64 | .b128 => 128

/-- The window a FILL writes. -/
def fillSpace : FillSpace → Space
  | .wb => .wb | .ab => .ab | .ls => .ls

/-- The destination and barrier offsets of a thread, by thread. -/
abbrev FillOffs := Tab (Nat × Option Nat)

/-- A destination range as an access of the checks. -/
def destAcc (size : Nat) (p : Nat × Nat × Option Nat) : Acc := { tid := p.1, va := BitVec.ofNat 64 p.2.1, n := size, data := [] }

/-- A stage-barrier offset as an access of the checks. -/
def mbarAcc (p : Nat × Nat × Option Nat) : Option Acc :=
  p.2.2.map (fun m => { tid := p.1, va := BitVec.ofNat 64 m, n := 16, data := [] })

/-- The key id of the leaf that an address translates by, 0 for none and for a hit in the L1, which takes no walk (R17). -/
def leafKeyId (s : State) (w : Who) (a : Acc) : Nat :=
  if (l1Hit s w .load a).isSome then 0 else
  let va := a.va
  match (walkCached s w.site w.ctx va.toNat).1 with
  | .leaf e _ => pteKey e
  | .invalid _ => 0
  | .offline _ => 0
  | .failed => 0

/-- What a FILL checks for one thread, in the order of R249: source, destination range, stage barrier. -/
def fillAccs (size : Nat) (offs : FillOffs) (a : Acc) : List Acc :=
  let o := tabGet (0, none) offs a.tid
  a :: destAcc size (a.tid, o) :: (mbarAcc (a.tid, o)).toList

/-- Whether a thread's source address fails as ACCESS (R239, R381). -/
def sourceFails (s : State) (w : Who) (accs : List Acc) (a : Acc) : Bool :=
  let r := (xlatAll s w .load accs).1
  let ok := okAccs r
  r.any (fun p => p.1 == a && p.2 == .access) || ok.any (fun p => p.1 == a && poisoned s .load ok p)

/-- What fails as ACCESS of a FILL's checks, source, destination or barrier, of the lowest thread (R239, R249). -/
def fillDenied (s : State) (c : Cx) (size : Nat) (sp : FillSpace) (offs : FillOffs) (accs : List Acc) : Option Acc :=
  accs.findSome? (fun a =>
    if sourceFails s c.who accs a then some a else
    ((fillAccs size offs a).drop 1).zipIdx.findSome? (fun p =>
      if winInside s c.gr.block (if p.2 = 0 then fillSpace sp else .ls) p.1 then none else some p.1))

/-- Chunks in flight, each with its source already translated, and the open batch that holds them (R249, R250). -/
def performFill (size : Nat) (sp : FillSpace) (offs : FillOffs) (c : Cx) (s : State) (l : List (Acc × Nat × Nat)) : Perf :=
  let id := s.nextId
  let ks : List Chunk := l.zipIdx.map (fun p =>
    let o := tabGet (0, none) offs p.1.1.tid
    { id := id + 1 + p.2, fill := id, g := c.g, f := c.f, heirs := [], tid := p.1.1.tid, ipc := c.fr.pc, va := p.1.1.va, pa := p.1.2.1,
      key := p.1.2.2, keyId := leafKeyId s c.who p.1.1, n := size, space := sp, dst := o.1, mbar := o.2,
      byHandler := c.gr.inHandler c.fr, wins := true, data := none })
  .done (modGroup { s with chunks := s.chunks ++ ks, nextId := id + 1 + ks.length } c.g
    (fun gr => { gr with openB := gr.openB ++ [.fill id] }))

def fillBody (o : FillOp) (c : Cx) (s : State) : State :=
  let n := chunkSize o.size
  let accs := laneAccs c s.free o.g n (fun t => c.addr s.free t n o.a) noData
  let offs : FillOffs := accs.map (fun a => (a.tid, (c.v s.free 2 a.tid o.vt.toNat).toNat,
    o.mbar.map (fun vc => (c.v s.free 3 a.tid vc.toNat).toNat)))
  match (accs.flatMap (fillAccs n offs)).find? (fun a => a.va.toNat % a.n != 0) with
  | some a => raiseAcc s c 3 a
  | none =>
    match fillDenied s c n o.space offs accs with
    | some a => raiseAcc s c 4 a
    | none => issueReq c s 8 .load { kind := .fill n o.space offs, accs } (performFill n o.space offs c)

def execFill (o : FillOp) (s : State) : Out := laneMemOp (.fill o) o.w (fillBody o) s

end Sys2Proof.Machine
end

