-- ==== Sys2Proof/Machine/UniMem.lean ====
section
/-! DEFINITION. The meanings of the uniform memory instructions: SLD, SST, SATOM (12 R246, R247), ACQ and REL (R252, R253),
RGN (R254, R332), CLN, INV and CIV (R255, R234). -/

namespace Sys2Proof.Machine

/-! ### SLD, SST, SATOM -/

/-- The one access of an S form. -/
def oneAcc (tid : Nat) (va : DWord) (n : Nat) (data : List Byte) : List Acc := [{ tid, va, n, data }]

/-- An S form on either kind of core. -/
def uniReq (a : Actor) (s : State) (len : Nat) (u : Use) (req : Req) (perform : State → List (Acc × Nat × Nat) → Perf) : State :=
  match a with
  | .frag c => issueReq c s len u req perform
  | .ctl cc c => issueReqCtl cc c s len u req perform

/-- R246: the address of SLD and SST. -/
def sldAddr (a : Actor) (free : Nat) (sb : BitVec 6) (off : BitVec 9) (n : Nat) : DWord :=
  a.getS free 0 sb.toNat + off.signExtend 64 * BitVec.ofNat 64 n

def performSld (st : BitVec 6) (sz : SldSz) (a : Actor) (s : State) (l : List (Acc × Nat × Nat)) : Perf :=
  unlessBarred (a.barred s l) s (
    let r := loadAccs s a.who l
    .done (a.race (a.putS r.2.2 st.toNat (sldValue sz (leNat (r.1.flatMap (·.2))))) r.2.1))

def sldBody (o : SldOp) (a : Actor) (s : State) : State :=
  let n := sldSize o.sz
  uniReq a s 4 .load { kind := .sld o.st o.sz, accs := oneAcc a.lowTid (sldAddr a s.free o.sb o.off n) n [] } (performSld o.st o.sz a)

def execSld (o : SldOp) (s : State) : Out :=
  issue (.sld o) (uniMemInfo o.w false) s (fun c s => sldBody o (.frag c) s) (fun cc c s => sldBody o (.ctl cc c) s)

def sstBody (o : SstOp) (a : Actor) (s : State) : State :=
  let n := sstSize o.sz
  let accs := oneAcc a.lowTid (sldAddr a s.free o.sb o.off n) n (leBytes n (a.getS s.free 1 o.st.toNat).toNat)
  uniReq a s 4 .store { kind := .sst, accs } (performStore a)

def execSst (o : SstOp) (s : State) : Out :=
  issue (.sst o) (uniMemInfo o.w false) s (fun c s => sstBody o (.frag c) s) (fun cc c s => sstBody o (.ctl cc c) s)

/-- The old value of an atomic in a uniform register (R247, R126, R129). -/
def satomValue (k : AtomKind) (x : Nat) : DWord :=
  match k with
  | .int _ t => uniInt (AtomTy.intTy t) x
  | .fadd32 => uniFlt .f32 x
  | .fadd64 => uniFlt .f64 x

/-- The agent's release before an atomic in release form. -/
def relBefore (rel : Bool) (sc : Scope) (a : Actor) (s : State) : State := if rel then release s a.who.agent sc else s

def performSatom (rel : Bool) (k : AtomKind) (sc : Scope) (sd : BitVec 6) (a : Actor) (s : State)
    (l : List (Acc × Nat × Nat)) : Perf :=
  let r := atomAccs (relBefore rel sc a (a.dirty s)) a.who k l
  .done (a.race (a.putS r.2.2 sd.toNat (satomValue k ((r.1.head?).map (·.2) |>.getD 0))) r.2.1)

def satomBody (o : SatomOp) (a : Actor) (s : State) : State :=
  let n := atomBytes o.kind
  let va := a.getS s.free 0 o.sa.toNat + o.disp.signExtend 64 * BitVec.ofNat 64 n
  let accs := oneAcc a.lowTid va n
    (leBytes n (a.getS s.free 1 o.sb.toNat).toNat ++ leBytes n (a.getS s.free 2 o.sd.toNat).toNat)
  uniReq a s 8 .atomic { kind := .satom o.rel o.kind o.scope o.sd, accs }
    (performSatom o.rel o.kind o.scope o.sd a)

/-- A control core's release waits on a home that is offline (R236). -/
def ctlMayRelease (s : State) (cc : Nat) : Bool := !ownsOffline s (.control cc)

/-- A guarded uniform instruction of `len` bytes: nothing but the pc where its guard fails. -/
def guardedFrag (g : Option GuardK) (len : Nat) (body : Cx → State → State) (c : Cx) (s : State) : State :=
  if c.runs s.free g then body c s else advance s c len
def guardedCtl (g : Option GuardK) (len : Nat) (body : Nat → Ctl → State → State) (cc : Nat) (c : Ctl) (s : State) : State :=
  if c.runs g then body cc c s else advanceCtl s cc len

/-- A guarded instruction of class B on either kind of core; `rel` for one that releases. -/
def bothGuarded (i : Instr) (w : Bool) (g : Option GuardK) (rel : Bool) (body : Actor → State → State) (s : State) : Out :=
  issue i (uniMemInfo w rel) s (guardedFrag g 8 (fun c s => body (.frag c) s))
    (guardedCtl g 8 (fun cc c s => if rel && !ctlMayRelease s cc then parkCtl s cc .retry else body (.ctl cc c) s))

def execSatom (o : SatomOp) (s : State) : Out :=
  bothGuarded (.satom o) o.w o.g (o.rel && scopeOrders o.scope) (satomBody o) s

/-! ### REL and ACQ -/

/-- How REL and ACQ issue: as if W = 1 (R72), behind the fragment's undelivered traps (R308). -/
def fenceInfo (rel : Bool) : IssueInfo := { cls := .both, w := true, touch := true, fence := true, rel }

def execRel (o : ScopeOp) (s : State) : Out :=
  issue (.rel o) (fenceInfo (scopeOrders o.scope)) s
    (fun c s => advance (release s (.group c.g) o.scope) c 4)
    (fun cc _ s => if scopeOrders o.scope && !ctlMayRelease s cc then parkCtl s cc .retry
      else advanceCtl (parkCtl (release s (.control cc) o.scope) cc .run) cc 4)

/-- Whether a range of virtual addresses lies in one canonical half (R254, R255, R332). -/
def oneHalf (base size : Nat) : Bool := size == 0 || base + size ≤ 2 ^ 55 || (2 ^ 64 - 2 ^ 55 ≤ base && base + size ≤ 2 ^ 64)

/-- The range that a region-table entry covers (R332); nothing where it is disabled or not valid. -/
def regionRange (bs : List Byte) : List (Nat × Nat) :=
  let base := field bs 0 8
  let size := field bs 8 8
  if size = 0 ∨ base % 256 ≠ 0 ∨ size % 256 ≠ 0 ∨ oneHalf base size = false then [] else [(base, base + size)]

/-- What reading a region-table entry at its home ends in. -/
inductive RegionRead | range (l : List (Nat × Nat)) | offline (d : Nat)
  deriving DecidableEq, Repr

/-- Region `i` of a context as an agent reads it (R332, R254): its own newer value, else the last released one. An entry whose physical
address is absent, or whose context has an empty key entry, covers nothing: the spec gives no outcome (DESIGN CHOICE, log 50). -/
def region (s : State) (c : Ctx) (a : Agent) (i : Nat) : RegionRead :=
  let pa := c.root.toNat + 0x1080 + 16 * i
  match fixedAt s c pa with
  | .gone => .range []
  | .at k => .range (regionRange (fixedBytes s (some a) k pa 16))
  | .offline d => .offline d

/-- The coverage of a region mask (R221, R253). -/
def maskRanges (s : State) (c : Ctx) (a : Agent) (mask : BitVec 16) : List (Nat × Nat) :=
  (List.range 16).flatMap (fun i => if mask.getLsbD i then (match region s c a i with
    | .range l => l
    | .offline _ => []) else [])

/-- The offline homes of the entries that a mask names, on which the acquire waits (R236). -/
def maskDies (s : State) (c : Ctx) (a : Agent) (mask : BitVec 16) : List Nat :=
  ((List.range 16).flatMap (fun i => if mask.getLsbD i then (match region s c a i with
    | .range _ => []
    | .offline d => [d]) else [])).eraseDups

def execAcq (o : AcqOp) (s : State) : Out :=
  issue (.acq o) (fenceInfo false) s
    (fun c s =>
      if (maskDies s c.gr.ctx (.group c.g) o.mask).isEmpty then
        advance (acquire s c.who.site c.gr.ctx.asid o.scope (some (maskRanges s c.gr.ctx (.group c.g) o.mask))) c 4
      else parkHome s c (maskDies s c.gr.ctx (.group c.g) o.mask))
    (fun cc c s =>
      if (maskDies s c.ctx (.control cc) o.mask).isEmpty then
        advanceCtl (parkCtl (acquire s (.ctl cc) c.ctx.asid o.scope (some (maskRanges s c.ctx (.control cc) o.mask))) cc .run) cc 4
      else parkCtl s cc .retry)

def execAcqAll (o : ScopeOp) (s : State) : Out :=
  issue (.acqAll o) (fenceInfo false) s
    (fun c s => advance (acquireAll s c.who.site o.scope) c 4)
    (fun cc _ s => advanceCtl (acquireAll s (.ctl cc) o.scope) cc 4)

/-! ### Far steps at fixed physical addresses (R254, R119) -/

/-- The first race that a far step of an agent meets on `k` words at a physical address, with the word's address. -/
def farRace (s : State) (a : Agent) : Nat → Nat → Option (Race × DWord)
  | _, 0 => none
  | n, k + 1 => match writeRace s (some a) n with
    | some r => some (r, BitVec.ofNat 64 (4 * n))
    | none => farRace s a (n + 1) k

/-- The words of a far step end in V, but a word of the issuer's own agent stays (R224). -/
def farRegs (s : State) (a : Agent) : Nat → Nat → State
  | _, 0 => s
  | n, k + 1 => farRegs (regAtomic s a false n 0) a (n + 1) k

/-- A far atomic store of bytes at a physical address under a key: a detected race has no effect. -/
def farStore (s : State) (a : Agent) (site : Site) (key pa : Nat) (bs : List Byte) : Option (Race × DWord) × State :=
  let n := pa / 4
  let k := wordCount (pa % 4 + bs.length)
  match farRace s a n k with
  | some r => (some r, s)
  | none => (none, writeBytes ((List.range k).foldl (fun s i => dropAt s site (n + i)) (farRegs s a n k)) key pa bs)

/-! ### RGN -/

/-- RGN's effect (R254). The spec gives no outcome where the region table's physical address is absent or the context's key entry is
empty; it raises ACCESS with the base as the address, as a refused value does (DESIGN CHOICE, log 50). -/
def rgnBody (o : RgnOp) (a : Actor) (ctx : Ctx) (trap : State → DWord → State) (wait : State → Nat → State)
    (go : State → State) (s : State) : State :=
  let base := a.getS s.free 0 o.sa.toNat
  let size := a.getS s.free 1 o.sb.toNat
  let pa := ctx.root.toNat + 0x1080 + 16 * o.idx.toNat
  if base.toNat % 256 ≠ 0 ∨ size.toNat % 256 ≠ 0 ∨ oneHalf base.toNat size.toNat = false then trap s base
  else match fixedAt s ctx pa with
    | .gone => trap s base
    | .offline d => wait s d
    | .at k =>
      let r := farStore s a.who.agent a.who.site k pa (leBytes 8 base.toNat ++ leBytes 8 size.toNat)
      go (a.race (if r.1.isSome then r.2 else a.dirty r.2) r.1)

def execRgn (o : RgnOp) (s : State) : Out :=
  issue (.rgn o) (uniMemInfo o.w false) s
    (fun c s => rgnBody o (.frag c) c.gr.ctx (fun s va => raiseFrag s c 4 va c.low (some c.fr.pc))
      (fun s d => parkHome s c [d]) (fun s => advance s c 4) s)
    (fun cc c s => rgnBody o (.ctl cc c) c.ctx (fun s va => raiseCtl s cc 4 va 0) (fun s _ => parkCtl s cc .retry)
      (fun s => advanceCtl (parkCtl s cc .run) cc 4) s)

/-! ### CLN, INV, CIV (R255, R234) -/

/-- What maintenance finds of a page: a physical address to act on, nothing, or a table entry whose home is offline. -/
inductive Maint | acts (pa : Nat) | skips | offline (d : Nat)
  deriving DecidableEq, Repr

/-- One page of a maintained range (R255), and what its walk fills. -/
def maintPage (s : State) (w : Who) (va : Nat) : Maint × State :=
  let r := walkCached s w.site w.ctx va
  let s1 := fillXlat s w.site w.ctx.asid r.2
  match r.1 with
  | .leaf e pa =>
    (if (keyFor s pa (pteKey e)).isSome && presence s pa != .absent then .acts (pa / 4096 * 4096) else .skips, s1)
  | .invalid _ => (.skips, s1)
  | .offline d => (.offline d, s1)
  | .failed => (.skips, s1)

/-- The part of a piece that lies in the range: only words of the range change (R255). -/
def clipPiece (base size i : Nat) (p : Nat × Nat) : Nat × Nat :=
  let va := base / 4096 * 4096 + 4096 * i
  (p.1 + (base - va), p.1 + (min (base + size) (va + 4096) - va))

/-- The physical pieces of a virtual range, one for each page that maintenance acts on, and the offline dies that its walks
meet. -/
def maintRange (s : State) (w : Who) (base size : Nat) : Nat → Nat → List (Nat × Nat) × List Nat × State
  | _, 0 => ([], [], s)
  | i, n + 1 =>
    let r := maintPage s w (base / 4096 * 4096 + 4096 * i)
    let rest := maintRange r.2 w base size (i + 1) n
    match r.1 with
    | .acts pa => (clipPiece base size i (pa, pa + 4096) :: rest.1, rest.2)
    | .skips => rest
    | .offline d => (rest.1, d :: rest.2.1, rest.2.2)

/-- Whether a word has a byte in one of the pieces. -/
def inPieces (l : List (Nat × Nat)) (w : Nat) : Bool := l.any (fun p => p.1 < 4 * w + 4 && 4 * w < p.2)

/-- CLN at home and memory level: released words of the range go to V (R224). -/
def cleanWords (s : State) (l : List (Nat × Nat)) : State :=
  { s with reg := s.reg.filter (fun p => match p.2 with
      | .released _ _ => !inPieces l p.1
      | .owned .. | .claimed .. | .frozen .. => true) }

/-- INV: unregistered copies of the range at the issuer's place are dropped. -/
def dropCopies (s : State) (site : Site) (l : List (Nat × Nat)) : State :=
  { s with copies := s.copies.filter (fun c => !(c.site == site && inPieces l c.word)) }

/-- A maintenance function with its effect on the pieces of its range. -/
def mntBody (o : MntOp) (a : Actor) (effect : State → Site → List (Nat × Nat) → State) (trap : State → DWord → State)
    (wait : State → List Nat → State) (go : State → State) (s : State) : State :=
  let base := a.getS s.free 0 o.sa.toNat
  let size := (a.getS s.free 1 o.sb.toNat).toNat
  if size = 0 then go s
  else if oneHalf base.toNat size = false then trap s base
  else
    let r := maintRange s a.who base.toNat size 0 ((base.toNat % 4096 + size + 4095) / 4096)
    if r.2.1.isEmpty then go (effect r.2.2 a.who.site r.1) else wait s r.2.1

/-- The effect of CLN (R234). -/
def clnEffect (lvl : MntLevel) (s : State) (_ : Site) (l : List (Nat × Nat)) : State :=
  match lvl with
  | .l1 => s
  | .home | .mem => cleanWords s l

/-- The effect of INV, the same at every level for parties in the package. -/
def invEffect (s : State) (site : Site) (l : List (Nat × Nat)) : State := dropCopies s site l

/-- The effect of CIV. -/
def civEffect (lvl : MntLevel) (s : State) (site : Site) (l : List (Nat × Nat)) : State :=
  dropCopies (clnEffect lvl s site l) site l

def mntOp (i : Instr) (o : MntOp) (effect : State → Site → List (Nat × Nat) → State) (s : State) : Out :=
  issue i (uniMemInfo o.w false) s
    (guardedFrag o.g 8 (fun c s => mntBody o (.frag c) effect (fun s va => raiseFrag s c 4 va c.low (some c.fr.pc))
      (fun s l => parkHome s c l.eraseDups) (fun s => advance s c 8) s))
    (guardedCtl o.g 8 (fun cc c s => mntBody o (.ctl cc c) effect (fun s va => raiseCtl s cc 4 va 0)
      (fun s _ => parkCtl s cc .retry) (fun s => advanceCtl (parkCtl s cc .run) cc 8) s))

def execCln (o : MntOp) (s : State) : Out := mntOp (.cln o) o (clnEffect o.lvl) s
def execInv (o : MntOp) (s : State) : Out := mntOp (.inv o) o invEffect s
def execCiv (o : MntOp) (s : State) : Out := mntOp (.civ o) o (civEffect o.lvl) s

end Sys2Proof.Machine
end

