-- ==== Sys2Proof/Machine/Tiles.lean ====
section
/-! DEFINITION. Recipes and recomputable tiles (17): the tile window, misses and their chains (R343), and the meanings of
LDA.tile, STA.tile, TDEF, TSEAL, TDROP, THOLD, TFREE and of the start of a recipe run. -/

namespace Sys2Proof.Machine

/-! ### Tile records and frames (R337, R338) -/

/-- The record of tile `x` of a block. -/
def tileAt (s : State) (blk x : Nat) : Tile :=
  match s.blocks[blk]? with
  | none => Tile.empty
  | some b => b.tiles.getD x Tile.empty

/-- A tile record changed. -/
def modTile (s : State) (blk x : Nat) (f : Tile → Tile) : State :=
  modBlock s blk (fun b => { b with tiles := modAt b.tiles x f })

/-- The tile id of a tile-window offset (R337). -/
def tileOf (off : DWord) : Nat := off.toNat / 2 ^ 14 % 64

/-- States with a frame (R338). -/
def TileState.framed : TileState → Bool
  | .free | .defined => false
  | .opened | .running | .resident => true

/-- Tiles that are pinned by a chain of recipe misses (R338, R343). -/
def pinnedTile (s : State) (blk x : Nat) : Bool := s.chains.any (fun c => c.block == blk && c.pins.contains x)

/-- The tiles that have a frame in a core's tile cache: the block, the tile and its record. -/
def framedTiles (s : State) (core : Nat) : List (Nat × Nat × Tile) :=
  s.blocks.zipIdx.flatMap (fun p => if p.1.core == core && p.1.life == .running then
      (p.1.tiles.zipIdx.filter (·.1.state.framed)).map (fun t => (p.2, t.2, t.1))
    else [])

/-- Whether a framed tile may be evicted: resident and unpinned (R338). -/
def evictableTile (s : State) (p : Nat × Nat × Tile) : Bool :=
  p.2.2.state == .resident && p.2.2.hold == 0 && !pinnedTile s p.1 p.2.1

/-- The free frames of a core's tile cache above a boundary in KiB; the buffer has 96 frames, by their places (R199, R203). -/
def freeFrames (s : State) (core b : Nat) : List Nat :=
  (List.range 96).filter (fun p => b / 16 ≤ p && !((framedTiles s core).any (fun t => t.2.2.place == p)))

/-- A tile without its frame, which is not written anywhere (R338). -/
def Tile.evicted (t : Tile) : Tile := { t with state := .defined, place := 0, frame := [], lost := true }

/-- A frame for one more tile of a core: a free one, else that of an evicted tile; which one is evicted affects time only
(R343, R338). -/
def frameRoom (s : State) (core : Nat) : Option (Nat × State) :=
  match freeFrames s core (coreOf s core).carve with
  | p :: _ => some (p, s)
  | [] => ((framedTiles s core).find? (evictableTile s)).map (fun t => (t.2.2.place, modTile s t.1 t.2.1 Tile.evicted))

/-- B raised to `b` KiB as far as the tile cache is concerned (R207): what can be evicted from the band is, and what is pinned
there moves to free frames above; `none` where these are too few. -/
def raiseTo (s : State) (core b : Nat) : Option State :=
  let band := (framedTiles s core).filter (fun t => t.2.2.place < b / 16)
  let s1 := (band.filter (evictableTile s)).foldl (fun s t => modTile s t.1 t.2.1 Tile.evicted) s
  let stay := band.filter (fun t => !evictableTile s t)
  let free := freeFrames s1 core b
  if free.length < stay.length then none
  else some ((stay.zip free).foldl (fun s p => modTile s p.1.1 p.1.2.1 (fun t => { t with place := p.2 })) s1)

/-- Frames that a save of the block has to keep, tile `x` counted (R348). -/
def savedFrames (s : State) (blk x : Nat) : Nat :=
  match s.blocks[blk]? with
  | none => 0
  | some b => (b.tiles.zipIdx.filter (fun t => t.2 == x || t.1.state == .opened || (t.1.state == .resident && 0 < t.1.hold))).length

/-- Whether the frames still fit the block's image slot (R348). -/
def saveRoom (s : State) (blk x : Nat) : Bool :=
  match s.blocks[blk]? with
  | none => false
  | some b => imageBase b.entry (fstackOf s b.ctx) + 16384 * savedFrames s blk x ≤ slotBytes s b.ctx

/-- A frozen word loses one count and leaves F with the last (R224, R342). -/
def unfreeze (s : State) (w : Nat) : State :=
  match regOf s w with
  | some (.frozen n) => if n ≤ 1 then clearReg s w else setReg s w (.frozen (n - 1))
  | _ => s

/-- remove_record (R342): the frame goes unwritten, the record is free, its frozen words lose one count. -/
def removeRecord (s : State) (blk x : Nat) : State :=
  let ws := (tileAt s blk x).words
  ws.foldl unfreeze (modTile s blk x (fun _ => Tile.empty))

/-! ### Chains of misses (R343) -/

/-- A chain replaced by its newer self. -/
def putChain (s : State) (c : Chain) : State := { s with chains := s.chains.map (fun k => if k.id == c.id then c else k) }

/-- A root requester issues its instruction again. -/
def wakeRoot (s : State) (c : Chain) : State :=
  modFrag s c.g c.f (fun fr => match fr.wait with
    | .miss _ => { fr with wait := .run }
    | _ => fr)

/-- A chain given up with an exact trap to its root. -/
def failChain (s : State) (c : Chain) (cause : Nat) (addr : DWord) (aux : Nat) : State :=
  let s := wakeRoot (dropChain s c.id) c
  match s.groups[c.g]? with
  | none => s
  | some gr => match gr.frag? c.f with
    | none => s
    | some fr => raiseFrag s { g := c.g, f := c.f, gr, fr } cause addr (BitVec.ofNat 64 aux) (some fr.pc)

/-- Tile sources among the first `k` sources of a record. -/
def tileSources (t : Tile) (k : Nat) : List Nat :=
  (t.sources.take k).filterMap (fun x => match x with
    | .tile z => some z
    | .none | .range _ _ => none)

/-- One occurrence of each tile taken out of a list of pins. -/
def unpin (pins : List Nat) (zs : List Nat) : List Nat := zs.foldl (fun p z => p.erase z) pins

/-- The head of a chain is resolved: its own sources are unpinned, it is pinned itself, and its parent goes on. -/
def resolved (s : State) (c : Chain) (y k : Nat) (rest : List (Nat × Nat × Nat)) : State :=
  let pins := y :: unpin c.pins (tileSources (tileAt s c.block y) (min k 4))
  match rest with
  | [] => wakeRoot (putChain s { c with stack := [], pins }) c
  | (p, d, j) :: l => putChain s { c with stack := (p, d, j + 1) :: l, pins }

/-- One move of a chain; `none` where it waits. -/
def chainMove (s : State) (c : Chain) : Option State :=
  match c.stack with
  | [] => none
  | (y, d, k) :: rest =>
    let t := tileAt s c.block y
    match t.state with
    | .free => some (wakeRoot (dropChain s c.id) c)
    | .opened | .resident => some (resolved s c y k rest)
    | .running => none
    | .defined =>
      if c.limit < d then some (failChain s c 10 c.addr d)
      else if k < 4 then
        match t.sources.getD k .none with
        | .tile z => some (putChain s { c with stack := (z, d + 1, 0) :: (y, d, k) :: rest })
        | .none | .range _ _ => some (putChain s { c with stack := (y, d, k + 1) :: rest })
      else match frameRoom s ((s.blocks[c.block]?).map (·.core) |>.getD 0) with
        | none => some (failChain s c 11 c.addr 0)
        | some (p, s1) => some (modTile (putChain s1 { c with stack := (y, d, 5) :: rest }) c.block y
            (fun t => { t with state := .running, place := p, frame := [], lost := false }))

/-- A chain moves until it waits. -/
def advanceChain : Nat → State → Nat → State
  | 0, s, _ => s
  | n + 1, s, id =>
    match s.chains.find? (fun c => c.id == id) with
    | none => s
    | some c => match chainMove s c with
      | none => s
      | some s1 => advanceChain n s1 id

/-- Moves that one chain can make without waiting: at most 8 levels of 4 sources, each with its own steps. -/
def chainFuel : Nat := 4096

/-- Every chain of a block moves until it waits. -/
def advanceChains (s : State) (blk : Nat) : State :=
  (s.chains.filter (fun c => c.block == blk)).foldl (fun s c => advanceChain chainFuel s c.id) s

/-- The chain of a fragment. -/
def chainOf (s : State) (g f : Nat) : Option Chain := s.chains.find? (fun c => c.g == g && c.f == f)

/-- A fragment's chain ends with its instruction: its pins are released. -/
def endChain (s : State) (c : Cx) : State :=
  match chainOf s c.g c.f with
  | none => s
  | some k => dropChain s k.id

/-- The depth limit D of chains rooted at a tile (R343). -/
def Tile.limit (t : Tile) : Nat := if t.depth = 0 then 4 else t.depth

/-- A miss (R343): the fragment becomes the root requester of tile `x`, whose window address its instruction holds; tiles
that the instruction needs beside it and that are there stay. -/
def startMiss (s : State) (c : Cx) (x : Nat) (addr : DWord) (held : List Nat) : State :=
  let d := (tileAt s c.gr.block x).limit
  let (s, k) := match chainOf s c.g c.f with
    | some k => (s, k)
    | none =>
      let k : Chain := { id := s.nextId, block := c.gr.block, g := c.g, f := c.f, addr, limit := d, stack := [], pins := [],
                         posted := [] }
      ({ s with chains := s.chains ++ [k], nextId := s.nextId + 1 }, k)
  let k := { k with addr, limit := d, stack := [(x, 1, 0)], pins := k.pins ++ held.filter (fun y => !k.pins.contains y) }
  advanceChain chainFuel (putChain (park s c (.miss x)) k) k.id

/-! ### LDA.tile and STA.tile (R245, R337, R339) -/

/-- Whether a run may reach a tile (R344): its output, and for loads its tile sources. -/
def runReaches (s : State) (c : Cx) (load : Bool) (x : Nat) : Bool :=
  match c.gr.run with
  | none => true
  | some r => x == r.tile || (load && (tileSources (tileAt s c.gr.block r.tile) 4).contains x)

/-- Whether an access lies in the tile window and inside its tile's output (R337). -/
def tileInside (s : State) (c : Cx) (load : Bool) (a : Acc) : Bool :=
  let t := tileAt s c.gr.block (tileOf a.va)
  a.va.toNat < 2 ^ 20 && t.state != .free && a.va.toNat % 2 ^ 14 + a.n ≤ 256 * t.outsize && runReaches s c load (tileOf a.va)

/-- Whether a tile is the output of the run that accesses it. -/
def ownOutput (c : Cx) (x : Nat) : Bool :=
  match c.gr.run with
  | none => false
  | some r => r.tile == x

/-- The bytes of a tile's frame at an access. -/
def tileRead (s : State) (blk : Nat) (a : Acc) : List Byte :=
  bytesOf (tabGet 0 (tileAt s blk (tileOf a.va)).frame) (a.va.toNat % 2 ^ 14) a.n

/-- The data of an access put into its tile's frame. -/
def tileWrite (s : State) (blk : Nat) (a : Acc) : State :=
  modTile s blk (tileOf a.va) (fun t =>
    { t with frame := putBytes (fun m o b => tabPut 0 m o b) t.frame (a.va.toNat % 2 ^ 14) (a.data.take a.n) })

/-- Whether an access has to wait for its tile (R339). -/
def tileMisses (s : State) (c : Cx) (a : Acc) : Bool :=
  match (tileAt s c.gr.block (tileOf a.va)).state with
  | .defined => true
  | .running => !ownOutput c (tileOf a.va)
  | .free | .opened | .resident => false

/-- Tile-window accesses counted for the boundary interval of their core (R206); `again` of the misses are of tiles that an
eviction took their frame. -/
def countTiles (s : State) (core hits misses again : Nat) : State :=
  let tight := (freeFrames s core (coreOf s core).carve).length < 4
  modCore s core (fun k => { k with tileHits := k.tileHits + hits, tileMisses := k.tileMisses + misses,
                                    tightHits := k.tightHits + (if tight then hits else 0), lostMisses := k.lostMisses + again })

/-- Accesses to tiles that have no frame. -/
def unframed (s : State) (blk : Nat) (accs : List Acc) : Nat :=
  (accs.filter (fun a => !(tileAt s blk (tileOf a.va)).state.framed)).length

def ldaTileBody (o : MemOp) (c : Cx) (s : State) : State :=
  let n := accSize o.t o.c
  let accs := laneAccs c s.free o.g n (fun t => c.addr s.free t n o.a) noData
  match checkWin accs (tileInside s c true) with
  | .misalign a => raiseAcc (endChain s c) c 3 a
  | .access a => raiseAcc (endChain s c) c 4 a
  | .ok => match accs.find? (tileMisses s c) with
    | some a => startMiss (countTiles s c.gr.place 0 1 (tileAt s c.gr.block (tileOf a.va)).lost.toNat) c (tileOf a.va) a.va
        ((accs.filter (fun x => !tileMisses s c x)).map (fun x => tileOf x.va))
    | none => endChain (advance (putRegs (countTiles s c.gr.place accs.length 0 0) c (accs.flatMap (fun a => loadOut o.t a.tid o.vt.toNat (tileRead s c.gr.block a)))) c 8) c

def execLdaTile (o : MemOp) (s : State) : Out := laneMemOp (.ldaTile o) o.w (ldaTileBody o) s

/-- Whether a store may go to a tile in its state: the program's to one that is defined or open, a run's to its output. -/
def tileWritable (s : State) (c : Cx) (a : Acc) : Bool :=
  match (tileAt s c.gr.block (tileOf a.va)).state with
  | .defined | .opened => true
  | .running => ownOutput c (tileOf a.va)
  | .free | .resident => false

/-- The first access of a store to a tile that it would have to open without save room (R348), or whose opening finds
no frame. -/
inductive Opened | ok (s : State) | noRoom (a : Acc) | noFrame (a : Acc)

/-- The defined tiles of a store opened one after another. -/
def openTiles (blk core : Nat) : List Acc → State → Opened
  | [], s => .ok s
  | a :: l, s =>
    let x := tileOf a.va
    if (tileAt s blk x).state != .defined then openTiles blk core l s
    else if !saveRoom s blk x then .noRoom a
    else match frameRoom s core with
      | none => .noFrame a
      | some (p, s1) => openTiles blk core l (modTile s1 blk x (fun t => { t with state := .opened, place := p, frame := [], lost := false }))

def staTileBody (o : MemOp) (c : Cx) (s : State) : State :=
  let n := accSize o.t o.c
  let accs := laneAccs c s.free o.g n (fun t => c.addr s.free t n o.a) (fun t => c.storeData s.free t o.vt.toNat n)
  match checkWin accs (fun a => tileInside s c false a && tileWritable s c a) with
  | .misalign a => raiseAcc s c 3 a
  | .access a => raiseAcc s c 4 a
  | .ok => match openTiles c.gr.block c.gr.place accs s with
    | .noRoom a => raiseAcc s c 4 a
    | .noFrame a => raiseFrag s c 11 a.va 0 (some c.fr.pc)
    | .ok s1 =>
      advance (advanceChains (accs.foldl (fun s a => tileWrite s c.gr.block a) (countTiles s1 c.gr.place (accs.length - unframed s c.gr.block accs) (unframed s c.gr.block accs) 0)) c.gr.block) c 8

def execStaTile (o : MemOp) (s : State) : Out := laneMemOp (.staTile o) o.w (staTileBody o) s

/-! ### TDEF (R340 to R342) -/

/-- A source entry of a record descriptor (R340); `none` where it is malformed. -/
def parseSource (bs : List Byte) : Option TileSource :=
  let addr := field bs 0 8
  let len := field bs 8 4
  if field bs 12 3 ≠ 0 then none
  else if field bs 15 1 = 0 then (if addr = 0 ∧ len = 0 then some .none else none)
  else if field bs 15 1 = 1 then
    (if len = 0 ∧ addr % 16384 = 0 ∧ addr < 2 ^ 20 then some (.tile (addr / 16384)) else none)
  else if field bs 15 1 = 2 then
    (if len % 4 = 0 ∧ 4 ≤ len ∧ addr % 4 = 0 then some (.range (BitVec.ofNat 64 addr) len) else none)
  else none

/-- A record descriptor (R340). -/
def parseRecord (bs : List Byte) : Option Tile :=
  let depth := field bs 42 1
  let outsize := field bs 40 2
  match parseSource (bs.drop 64), parseSource (bs.drop 80), parseSource (bs.drop 96), parseSource (bs.drop 112) with
  | some a, some b, some c, some d =>
    if field bs 43 21 = 0 ∧ depth ≤ 8 ∧ 1 ≤ outsize ∧ outsize ≤ 64 ∧ field bs 0 8 % 32 = 0 then
      some { Tile.empty with
        state := .defined, entry := BitVec.ofNat 64 (field bs 0 8),
        args := (List.range 4).map (fun i => BitVec.ofNat 64 (field bs (8 + 8 * i) 8)), outsize,
        depth, sources := [a, b, c, d] }
    else none
  | _, _, _, _ => none

/-- R341: what the entry of a recipe declares. -/
def Entry.recipeOk (e : Entry) : Bool :=
  e.recipe && e.block == 1 && e.gang == 1 && e.vcount * e.size * 4 ≤ 16384 && e.wb == 0 && e.ab == 0 && e.ls == 0
    && e.bars == 0 && e.carveMin == 0 && e.carveMax == 0 && e.cb ≤ 16384

/-- The words of the frozen ranges as accesses. -/
def rangeAccs (tid : Nat) (t : Tile) : List Acc :=
  t.sources.flatMap (fun x => match x with
    | .range va len => (List.range (len / 4)).map (fun i => { tid, va := va + BitVec.ofNat 64 (4 * i), n := 4, data := [] })
    | .none | .tile _ => [])

/-- Freezing words one after another: a status of R342 and, for status 1, the racing word. -/
def freezeWords : List (Acc × Nat × Nat) → State → Nat × Option DWord × State
  | [], s => (0, none, s)
  | p :: l, s =>
    let w := p.2.1 / 4
    if !registers w then freezeWords l s else
    match regOf s w with
    | none => freezeWords l (setReg s w (.frozen 1))
    | some (.released _ _) => freezeWords l (setReg s w (.frozen 1))
    | some (.frozen n) => if 65535 ≤ n then (6, none, s) else freezeWords l (setReg s w (.frozen (n + 1)))
    | some (.owned _ _ _) => (1, some p.1.va, s)
    | some (.claimed _ _) => (1, some p.1.va, s)

/-- TDEF once its descriptor, its entry's descriptor and its ranges have passed their checks; `race` is what the reads of the
descriptor met. -/
def defineTile (c : Cx) (sd : BitVec 6) (x : Nat) (t : Tile) (ws : List (Acc × Nat × Nat)) (race : Option (Race × DWord))
    (s : State) : State :=
  let raced (s : State) (r : Option (Race × DWord)) (st : Nat) : State :=
    queueRace (putRegs s c [(.s sd.toNat, BitVec.ofNat 64 st)]) c (worse race r)
  let out (s : State) (st : Nat) : State := raced s none st
  if (tileAt s c.gr.block x).state != .free then out s 2
  else if (tileSources t 4).any (fun z => (tileAt s c.gr.block z).state == .free) then out s 3
  else
    let s := release s (.group c.g) .pkg
    match freezeWords ws s with
    | (0, _, s1) =>
      let words := (ws.map (fun p => p.2.1 / 4)).filter registers
      out (modTile s1 c.gr.block x (fun _ => { t with words })) 0
    | (st, va, _) => raced s (va.map (fun a => (.race, a))) st

/-- What a recipe's entry descriptor comes to: the failing address, or what its reader waits on (R99, R341). -/
def recipeEntry (entry : DWord) : Dev (Option Entry) → Except DWord (List (DWord × Nat) × List Nat)
  | .ok (some e) => if e.recipeOk then .ok ([], []) else .error (entry - 32)
  | .ok none => .error (entry - 32)
  | .fail va => .error va
  | .page va pte => .ok ([(va, pte)], [])
  | .offline d => .ok ([], [d])

/-- TDEF with its descriptor's accesses translated: everything that fails as ACCESS comes before any wait (R342). -/
def performTdef (sd : BitVec 6) (x : Nat) (c : Cx) (s : State) (l : List (Acc × Nat × Nat)) : Perf :=
  let r := loadAccs s c.who l
  match parseRecord (r.1.flatMap (·.2)) with
  | none => .trap 4 (((l.head?).map (·.1.va)).getD 0) c.low s
  | some t =>
    match recipeEntry t.entry (readEntryDesc r.2.2 c.gr.ctx t.entry), checkAccs r.2.2 c.who .load (rangeAccs c.lowTid t) with
    | .error va, _ => .trap 4 va c.low s
    | .ok _, (.misalign a, _) => .trap 4 a.va c.low s
    | .ok _, (.access a, _) => .trap 4 a.va c.low s
    | .ok w, (.park pages dies, s1) =>
      .park (w.1 ++ pages.filter (fun p => !(w.1.any (fun q => samePage p.1 q.1)))) (w.2 ++ dies) s1
    | .ok w, (.ok ws, s1) => if w.1.isEmpty && w.2.isEmpty then .done (defineTile c sd x t ws r.2.1 s1) else .park w.1 w.2 s1

/-- The tile-window operand of the instructions of R342, checked: MISALIGN, then ACCESS. -/
def tileOperand (c : Cx) (s : State) (x : DWord) (body : State → State) : State :=
  if x.toNat % 16384 ≠ 0 then raiseFrag s c 3 x c.low (some c.fr.pc)
  else if 2 ^ 20 ≤ x.toNat then raiseFrag s c 4 x c.low (some c.fr.pc)
  else body s

def tdefBody (o : TdefOp) (c : Cx) (s : State) : State :=
  let x := c.s s.free 0 o.sa.toNat
  let d := c.s s.free 1 o.sb.toNat
  if x.toNat % 16384 = 0 ∧ d.toNat % 128 ≠ 0 then raiseFrag s c 3 d c.low (some c.fr.pc) else
  tileOperand c s x (fun s =>
    issueReq c s 8 .load { kind := .tdef o.sd (tileOf x), accs := accs8 c.lowTid d [] 16 } (performTdef o.sd (tileOf x) c))

def execTdef (o : TdefOp) (s : State) : Out :=
  issue (.tdef o) (compInfo o.w true) s (guardedFrag o.g 8 (tdefBody o)) noCtl

/-! ### TSEAL, TDROP, THOLD, TFREE (R342) -/

/-- A tile instruction of one word ends with its status. -/
def tileStatus (c : Cx) (sd : BitVec 6) (s : State) (st : Nat) : State :=
  advance (putRegs s c [(.s sd.toNat, BitVec.ofNat 64 st)]) c 4

def tsealBody (o : SUn) (c : Cx) (s : State) : State :=
  let off := c.s s.free 0 o.sa.toNat
  let x := tileOf off
  tileOperand c s off (fun s => match (tileAt s c.gr.block x).state with
    | .free => tileStatus c o.sd s 3
    | .opened => tileStatus c o.sd (modTile s c.gr.block x (fun t => { t with state := .resident })) 0
    | .defined | .running | .resident => tileStatus c o.sd s 5)

def execTseal (o : SUn) (s : State) : Out := issue (.tseal o) (compInfo o.w false) s (tsealBody o) noCtl

/-- Whether another record names a tile as a source. -/
def hasDependents (s : State) (blk x : Nat) : Bool :=
  match s.blocks[blk]? with
  | none => false
  | some b => b.tiles.any (fun t => t.state != .free && (tileSources t 4).contains x)

/-- The last part of TDROP (R342): it waits while the tile runs, and removes the record. -/
def dropTile (s : State) (c : Cx) (sd : BitVec 6) (x : Nat) : State :=
  if (tileAt s c.gr.block x).state = .running then park s c (.drop x)
  else tileStatus c sd (advanceChains (removeRecord s c.gr.block x) c.gr.block) 0

def tdropBody (o : SUn) (c : Cx) (s : State) : State :=
  match c.fr.wait with
  | .drop x => dropTile s c o.sd x
  | _ =>
  let off := c.s s.free 0 o.sa.toNat
  let x := tileOf off
  tileOperand c s off (fun s =>
    let t := tileAt s c.gr.block x
    if t.state = .free then tileStatus c o.sd s 3
    else if hasDependents s c.gr.block x then tileStatus c o.sd s 4
    else if 0 < t.hold then tileStatus c o.sd s 5
    else dropTile s c o.sd x)

def execTdrop (o : SUn) (s : State) : Out := issue (.tdrop o) (compInfo o.w false) s (tdropBody o) noCtl

def tholdBody (o : SUn) (c : Cx) (s : State) : State :=
  let off := c.s s.free 0 o.sa.toNat
  let x := tileOf off
  tileOperand c s off (fun s =>
    let t := tileAt s c.gr.block x
    match t.state with
    | .free => endChain (tileStatus c o.sd s 3) c
    | .defined | .running | .opened | .resident =>
      if 255 ≤ t.hold then endChain (tileStatus c o.sd s 7) c
      else if !saveRoom s c.gr.block x then endChain (tileStatus c o.sd s 7) c
      else if t.state = .defined ∨ t.state = .running then startMiss s c x off []
      else endChain (tileStatus c o.sd (modTile s c.gr.block x (fun t => { t with hold := t.hold + 1 })) 0) c)

def execThold (o : SUn) (s : State) : Out := issue (.thold o) (compInfo o.w false) s (tholdBody o) noCtl

def tfreeBody (o : SUn) (c : Cx) (s : State) : State :=
  let off := c.s s.free 0 o.sa.toNat
  let x := tileOf off
  tileOperand c s off (fun s =>
    let t := tileAt s c.gr.block x
    if t.state = .free then tileStatus c o.sd s 3
    else if t.hold = 0 then tileStatus c o.sd s 5
    else tileStatus c o.sd (modTile s c.gr.block x (fun t => { t with hold := t.hold - 1 })) 0)

def execTfree (o : SUn) (s : State) : Out := issue (.tfree o) (compInfo o.w false) s (tfreeBody o) noCtl

/-! ### Runs (R344) -/

/-- The chain of a block whose head has a frame for tile `x` and waits for its run, with the depth of the run. -/
def waitingRun (s : State) (blk x : Nat) : Option (Chain × Nat) :=
  (s.chains.filterMap (fun c => if c.block != blk then none else match c.stack with
    | (y, d, 5) :: _ => if y == x then some (c, d) else none
    | _ => none)).head?

/-- Whether a live run occupies the recipe slot of a depth on a core, or produces the tile. -/
def runBusy (s : State) (core blk x d : Nat) : Bool :=
  s.groups.any (fun gr => gr.life == .live && (match gr.run with
    | none => false
    | some r => (gr.place == core && r.depth == d) || (gr.block == blk && r.tile == x)))

/-- The address of a source as a run receives it. -/
def TileSource.address : TileSource → DWord
  | .none => 0
  | .tile z => BitVec.ofNat 64 (z * 16384)
  | .range va _ => va

/-- The uniform registers of a new run, from s0 up (R344). -/
def runArgs (t : Tile) (x : Nat) : List DWord := t.args ++ [BitVec.ofNat 64 (x * 16384)] ++ t.sources.map (·.address)

/-- Registers that a list fills from s0 up, in canonical form. -/
def uniFrom : Nat → List DWord → Tab DWord
  | _, [] => []
  | i, x :: l => if x = 0 then uniFrom (i + 1) l else (i, x) :: uniFrom (i + 1) l

/-- A run starts in its slot; its %gid reads 0, for the manual gives a run no index of its own and lets nothing in it depend on who
asked for it (R345; log 46). -/
def startRun (s : State) (blk x : Nat) (b : Block) (c : Chain) (d : Nat) (e : Entry) : State :=
  let t := tileAt s blk x
  let g := s.groups.length
  let root := s.groups[c.g]?
  let gr := Group.start b.ctx blk 0 b.core ((root.map (·.rslot)).getD 0) e.size e.vcount
    (firstThreads e.size) (plainGrant s b.core g e.size b.ctx) (launchInterlocked s b.ctx e.stepping) t.entry (clk s)
  { s with groups := s.groups ++ [{ gr with
      s := uniFrom 0 (runArgs t x), run := some { tile := x, depth := d, chain := c.id, cbLen := e.cb, cb := [] } }] }

/-- The lowest %tid of a chain's root requester. -/
def rootLow (s : State) (c : Chain) : Nat :=
  (((s.groups[c.g]?).bind (·.frag? c.f)).map (fun fr => lowestTid fr.mask)).getD 0

/-- The recipe miss waits on the page of its entry's descriptor, which its root's group posts once (R99, R314). -/
def postEntryPage (s : State) (c : Chain) (va : DWord) : State :=
  match s.groups[c.g]? with
  | none => s
  | some gr =>
    if (gr.pages ++ c.posted).any (samePage va) then s
    else putChain (postGroupPage s gr 0 va) { c with posted := va :: c.posted }

/-- A run starts if the descriptor at its entry is still that of a recipe: the miss reads it there, and raises ACCESS at the
instruction that missed where it is not (R99, R341). -/
def tryRun (s : State) (blk x : Nat) (b : Block) (c : Chain) (d : Nat) : State :=
  let entry := (tileAt s blk x).entry
  match readEntryDesc s b.ctx entry with
  | .ok (some e) => if e.recipeOk then startRun s blk x b c d e else failChain s c 4 (entry - 32) (rootLow s c)
  | .ok none => failChain s c 4 (entry - 32) (rootLow s c)
  | .fail va => failChain s c 4 va (rootLow s c)
  | .page va _ => postEntryPage s c va
  | .offline _ => s

/-- RECIPE_RUN (R343, R344): the chains of the block go on, and the run of a tile starts once its slot is free. -/
def execRecipeRun (blk x : Nat) (s : State) : Out :=
  if !(s.chains.any (fun c => c.block == blk)) then .next s else
  let s := advanceChains s blk
  .next (match s.blocks[blk]?, waitingRun s blk x with
    | some b, some (c, d) => if b.life != .running || runBusy s b.core blk x d then s else tryRun s blk x b c d
    | _, _ => s)

end Sys2Proof.Machine
end

