-- ==== Sys2Proof/Machine/Blocks.lean ====
section
/-! DEFINITION. How episodes of barriers complete (R354 to R358), and how groups, runs, blocks and gangs end (R193, R299,
R338, R347, R366, R205). -/

namespace Sys2Proof.Machine

/-! ### What can issue (R308) -/

/-- Whether the gang of a block is being saved (R320 step 1). -/
def gangSaving (s : State) (b : Block) : Bool :=
  match s.gangs[b.gang]? with
  | some g => g.saving.isSome
  | none => false

/-- Whether the block of a group lets it issue: it is resident and not being saved. -/
def blockRuns (s : State) (b : Nat) : Bool :=
  match s.blocks[b]? with
  | some bl => bl.life == .running && !gangSaving s bl
  | none => false

/-- A fragment that waits for nothing: it runs, or its MBAR.WAIT has ended and takes its result. -/
def Wait.atRest : Wait → Bool
  | .run | .mbarEnd _ _ => true
  | _ => false

/-- A wait behind which a fragment goes on with the instruction that it has begun: an ended MBAR.WAIT, which takes its result
(R362), or a TDROP (R342). -/
def Wait.begun : Wait → Bool
  | .mbarEnd _ _ | .drop _ => true
  | _ => false

/-- Whether the tile that a begun TDROP waits for no longer runs. -/
def dropReady (s : State) (blk : Nat) : Wait → Bool
  | .drop x => (tileAt s blk x).state != .running
  | _ => false

/-- A fragment between two instructions: it runs, or it has not issued the one it waits to issue. -/
def Wait.atBoundary : Wait → Bool
  | .run | .retry | .home _ _ | .fetch _ _ => true
  | _ => false

/-- Whether a queued trap keeps a fragment from issuing: an exact entry of its own (R307), or the head entry once it is its
turn (R308); a fragment that runs the handler goes on, and its entries come after its RTE. What it has begun it ends first. -/
def Group.trapHolds (gr : Group) (fr : Frag) : Bool :=
  !gr.inHandler fr && (gr.trapQ.any (fun e => e.frag == fr.id && e.rpc.isSome)
    || (gr.handler.isNone && (gr.trapQ.head?).any (fun e => e.frag == fr.id)))

/-- Whether a fragment can be asked to issue: `again` for one that waits to try its instruction again. -/
def fragReady (s : State) (g f : Nat) (again : Bool) : Bool :=
  match s.groups[g]? with
  | none => false
  | some gr =>
    match gr.frag? f with
    | none => false
    | some fr =>
      gr.life == .live && blockRuns s gr.block && fr.slot.isSome && (fr.wait.begun || !gr.trapHolds fr)
        && (if again then fr.wait.again else fr.wait.atRest || dropReady s gr.block fr.wait)

/-- The ready fragments of a core, each with its group's number. -/
def readyOn (s : State) (core : Nat) : List (Nat × Frag) :=
  s.groups.zipIdx.flatMap (fun p => if p.1.place == core then
    (p.1.frags.filter (fun x => fragReady s p.2 x.id false)).map (fun x => (p.2, x)) else [])

/-- The oldest of some fragments: the one that issued, or began its wait, first; among several of one age the first of the list,
by group and place in it (R49, R194: not given; DESIGN CHOICE, log 6). -/
def oldestOf (l : List (Nat × Frag)) : Option (Nat × Frag) :=
  l.foldl (fun b x => match b with
    | none => some x
    | some y => if x.2.since < y.2.since then some x else some y) none

/-! ### Episodes -/

/-- Whether a group has not ended. -/
def Group.going (gr : Group) : Bool := gr.life == .live || gr.life == .stopped

/-- The groups of a block that have not ended, by their numbers. -/
def liveGroups (s : State) (b : Block) : List Nat :=
  b.groups.filter (fun g => match s.groups[g]? with
    | some gr => gr.going
    | none => false)

/-- The group ids of the expected set (R354). -/
def expectedGids (s : State) (b : Block) : List Nat :=
  (liveGroups s b).filterMap (fun g => (s.groups[g]?).map (·.gid))

/-- Fragments behind the instruction at which they waited. -/
def Frag.pass (fr : Frag) (now : Nat) : Frag := { fr with pc := fr.pc + 4, wait := .run, since := now }

/-- Fragments have passed a block barrier: an old value of a shared control register is past for a fragment once both it and
the one that wrote the new value have (R117). -/
def Group.notePass (gr : Group) (passed : Nat → Bool) : Group :=
  let noted := gr.shared.map (fun o =>
    { o with fragPassed := o.fragPassed || passed o.frag, writerPassed := o.writerPassed || passed o.writer })
  { gr with shared := noted.filter (fun o => !(o.fragPassed && o.writerPassed)) }

/-- The fragments of a group as an episode that `waits` stand at completes; index `i` of their arrivals is cleared. -/
def Group.passAll (gr : Group) (waits : Wait → Bool) (i now : Nat) : Group :=
  { gr with frags := gr.frags.map (fun x =>
      let y := { x with arr := tabDel x.arr i }
      if waits x.wait then y.pass now else y) }

/-- A fragment that has arrived at block barrier `i` and does not wait as the episode completes: its arrival is that of a past
episode, which a BAR.wait of it still has to pass (R356). -/
def Frag.arrivedPast (fr : Frag) (waits : Wait → Bool) (i : Nat) : Frag :=
  if !waits fr.wait && (tabFind fr.arr i).isSome then { fr with arr := tabSet fr.arr (32 + i) true } else fr

/-- The fragments of a group as the episode of block barrier `i` completes (R355, R117). -/
def Group.passBar (gr : Group) (waits : Wait → Bool) (i now : Nat) : Group :=
  let gr1 : Group := { gr with frags := gr.frags.map (fun x => x.arrivedPast waits i) }
  (gr1.notePass (fun f => (gr.frag? f).any (fun x => waits x.wait))).passAll waits i now

/-- A fragment passes block barrier `i` by a BAR.wait behind its completed episode (R356, R117). -/
def Group.passLate (gr : Group) (f i : Nat) : Group :=
  if (gr.frag? f).any (fun x => (tabFind x.arr (32 + i)).isSome) then
    (gr.modFrag f (fun x => { x with arr := tabDel x.arr (32 + i) })).notePass (fun x => x == f)
  else gr

/-- Waiting at block barrier `i`. -/
def Wait.atBar (i : Nat) : Wait → Bool
  | .bar b _ | .barWait b _ => b == i
  | _ => false

/-- Waiting at the gang barrier. -/
def Wait.atGbar : Wait → Bool
  | .gbar _ => true
  | _ => false

/-- The episode of block barrier `i` completes when every group of the expected set is marked (R355). -/
def completeBar (s : State) (blk i : Nat) : State :=
  match s.blocks[blk]? with
  | none => s
  | some b => match b.bars[i]? with
    | none => s
    | some br =>
      let ids := expectedGids s b
      if ids.isEmpty || !(ids.all (fun k => br.marks.getLsbD k)) then s else
      (liveGroups s b).foldl (fun s g => modGroup s g (fun gr => gr.passBar (Wait.atBar i) i (clk s)))
        (modBlock s blk (fun b => { b with bars := modAt b.bars i (fun br => { br with phase := !br.phase, marks := 0 }) }))

/-- Whether the block has arrived at the gang barrier: every group marked, and its peer adds landed (R358, R282). -/
def gangArrived (s : State) (blk : Nat) (b : Block) : Bool :=
  let ids := expectedGids s b
  !ids.isEmpty && ids.all (fun k => b.gbar.marks.getLsbD k) && !(s.adds.any (fun a => a.src == blk))

/-- The block's arrival is counted (R358). -/
def countGang (s : State) (blk : Nat) : State :=
  match s.blocks[blk]? with
  | none => s
  | some b => if !gangArrived s blk b then s else
    { s with gangs := modAt s.gangs b.gang (fun g => { g with marks := g.marks ||| BitVec.ofNat 16 (2 ^ b.member) }) }

/-- Members of a gang that have not ended. -/
def gangMembers (s : State) (g : Gang) : List Nat :=
  g.blocks.filter (fun b => match s.blocks[b]? with
    | some bl => bl.life != .ended && bl.life != .gone
    | none => false)

/-- The pass stage of one member. -/
def passMember (s : State) (blk : Nat) : State :=
  match s.blocks[blk]? with
  | none => s
  | some b =>
    let s := modBlock s blk (fun b => { b with gbar := { b.gbar with phase := !b.gbar.phase, marks := 0 } })
    let waiting := (liveGroups s b).any (fun g => match s.groups[g]? with
      | some gr => gr.frags.any (fun x => x.wait.atGbar)
      | none => false)
    let s := (liveGroups s b).foldl (fun s g => modGroup s g (fun gr => gr.passAll Wait.atGbar 16 (clk s))) s
    if waiting then acquireAll s (.core b.core) .pkg else s

/-- GANG_BARRIER_PASS (R358, R359): the phase flips and every member's waiting fragments are released. -/
def execGangBarrierPass (gang : Nat) (s : State) : Out :=
  match s.gangs[gang]? with
  | none => .next s
  | some g =>
    let ms := gangMembers s g
    if ms.isEmpty || !(ms.all (fun b => match s.blocks[b]? with
      | some bl => bl.life == .running && g.marks.getLsbD bl.member
      | none => false)) then .next s else
    .next (ms.foldl passMember { s with gangs := modAt s.gangs gang (fun g => { g with phase := !g.phase, marks := 0 }) })

/-! ### Matrix exception counters (R366) -/

/-- The counts of a context on a core. -/
def coreCounts (s : State) (core : Nat) (c : Ctx) : List Nat :=
  (((coreOf s core).counts.find? (fun p => p.1 == c)).map (·.2)).getD [0, 0, 0, 0]

/-- The counts of a context on a core replaced; counts that are all 0 need no entry. -/
def setCounts (s : State) (core : Nat) (c : Ctx) (l : List Nat) : State :=
  modCore s core (fun k =>
    let rest := k.counts.filter (fun p => p.1 != c)
    { k with counts := if l.all (· == 0) then rest else rest ++ [(c, l)] })

/-- Whether a word is held against a fold. -/
def foldHeld (s : State) (w : Nat) : Bool :=
  match regOf s w with
  | some (.owned _ _ _) | some (.claimed _ _) | some (.frozen _) => true
  | _ => false

/-- One count folded into its word by a far atomic add, which leaves the word in V. -/
def foldWord (s : State) (k w n : Nat) : State :=
  writeBytes (clearReg s w) k (4 * w) (leBytes 4 (min ((readWord s k w).toNat + n) (2 ^ 32 - 1)))

/-- The counts of a list folded one after another where they are to be, each with whether it is; what stays behind with whether
its word was held. -/
def foldWords (k : Nat) : Nat → List (Nat × Bool) → State → List (Nat × Bool) × State
  | _, [], s => ([], s)
  | w, (n, due) :: l, s =>
    let held := due && foldHeld s w
    let rest := foldWords k (w + 1) l (if due && !held then foldWord s k w n else s)
    ((if due && !held then 0 else n, held) :: rest.1, rest.2)

/-- Which counts of a context a fold on a core has left behind for a held word (R366). -/
def heldCounts (s : State) (core : Nat) (c : Ctx) : List Bool :=
  (((coreOf s core).held.find? (fun p => p.1 == c)).map (·.2)).getD [false, false, false, false]

/-- The same replaced. -/
def setHeld (s : State) (core : Nat) (c : Ctx) (l : List Bool) : State :=
  modCore s core (fun k =>
    let rest := k.held.filter (fun p => p.1 != c)
    { k with held := if l.any id then rest ++ [(c, l)] else rest })

/-- A core folds the counts of a context (R366), or tries those again that it had to leave behind; a home that is offline holds all
of them back. -/
def foldCounts (s : State) (core : Nat) (c : Ctx) (again : Bool) : State :=
  let due := if again then heldCounts s core c else List.replicate 4 true
  match fixedAt s c (c.root.toNat + 0x1180) with
  | .at k =>
    let r := foldWords k ((c.root.toNat + 0x1180) / 4) ((coreCounts s core c).zip due) s
    setHeld (setCounts r.2 core c (r.1.map (·.1))) core c (r.1.map (·.2))
  | .gone => s
  | .offline _ => setHeld s core c due

/-- Whether a context has a block resident on a core. -/
def residentOn (s : State) (core : Nat) (c : Ctx) : Bool :=
  s.blocks.any (fun b => b.core == core && b.ctx == c && b.life == .running)

/-- FOLD_RETRY (R366): counts that a fold could not deliver are tried again, 65,536 clk after the last try; no others are. -/
def execFoldRetry (core : Nat) (s : State) : Out :=
  if clk s % 65536 < 2 then
    .next ((coreOf s core).held.foldl (fun s p => if residentOn s core p.1 then s else foldCounts s core p.1 true) s)
  else .next s

/-! ### The AB boundary as a block leaves (R203, R205) -/

/-- B falls to a value, where it lies above: the band goes to the tile cache, and nothing that a context left in it is ever
read again (R207). -/
def Core.lower (k : Core) (b : Nat) : Core :=
  { k with carve := min k.carve b,
           left := if b < k.carve then k.left.filter (fun p => !(granKey .ab (b / 64) ≤ p.1 && p.1 < granKey .ab 24)) else k.left }

/-- The granules of a window with those from `m` on replaced by free ones below. -/
def packGrans (m : Nat) : List Nat → List Nat → List Nat
  | [], _ => []
  | g :: l, free =>
    if g < m then g :: packGrans m l free else
    match free with
    | [] => g :: packGrans m l []
    | f :: fs => f :: packGrans m l fs

/-- The direct part of a block moved below a granule, with its bytes; what stays behind is its context's (R204, R202). -/
def packBlock (m : Nat) (s : State) (blk : Nat) : State :=
  match s.blocks[blk]? with
  | none => s
  | some b =>
    let gs := b.grans.getD Space.ab.code []
    let gone := (leftBy b .ab 0 gs).filter (fun p => granKey .ab m ≤ p.1)
    let free := (freeGrans s b.core .ab).filter (· < m)
    modBlock (modCore s b.core (fun k => { k with left := gone.foldl (fun t p => tabSet t p.1 p.2) k.left })) blk
      (fun b => { b with grans := b.grans.set Space.ab.code (packGrans m gs free) })

/-- As Bmin falls, every direct part on the core comes to lie below it (R204; log 8). -/
def packAb (s : State) (core : Nat) : State :=
  let m := abMin (residents s core) / 64
  (List.range s.blocks.length).foldl (fun s n =>
    if (s.blocks[n]?).any (fun b => b.core == core && b.life == .running && (b.grans.getD Space.ab.code []).any (m ≤ ·))
    then packBlock m s n else s) s

/-- A block has left: the direct parts lie below the new Bmin, and B falls to Bmax where it lies above. -/
def lowerBound (s : State) (core : Nat) : State :=
  modCore (packAb s core) core (fun k => k.lower (abMax (residents s core)))

/-! ### Ends -/

/-- The completion scope of a task record (R294). -/
def Task.scope (t : Task) : Scope :=
  let w := t.words.getD 1 0
  if bits w.toNat 50 3 = 2 then .die else if bits w.toNat 50 3 = 4 then .sys (BitVec.ofNat 4 (bits w.toNat 53 4)) else .pkg

/-- The scope at which a group of a block ends: its task's completion scope, pkg for a spawned group (R299). -/
def endScope (s : State) (b : Block) : Scope :=
  match b.task.bind (fun t => s.tasks[t]?) with
  | none => .pkg
  | some t => t.scope

/-- Every chain of a block is given up. -/
def dropChains (s : State) (blk : Nat) : State :=
  (s.chains.filter (fun c => c.block == blk)).foldl (fun s c => dropChain s c.id) s

/-- Every record of a block is removed (R347). -/
def removeRecords (s : State) (blk : Nat) : State := (List.range 64).foldl (fun s x => removeRecord s blk x) (dropChains s blk)

/-- A gang whose blocks have all ended counts for its task; the last one makes the task complete (R46, R299). -/
def gangEnded (s : State) (gang : Nat) : State :=
  match s.gangs[gang]? with
  | none => s
  | some g =>
    if !(gangMembers s g).isEmpty then s else
    match g.task with
    | none => s
    | some t => { s with tasks := modAt s.tasks t (fun t =>
        let n := t.ended + 1
        { t with ended := n, life := if n = bits ((t.words.getD 1 0).toNat) 24 24 then .wordPending else t.life }) }

/-- The block ends (R193, R347, R366): its windows, tiles and chunks go, its counts are folded, its place is free. -/
def blockEnd (s : State) (blk : Nat) : State :=
  match s.blocks[blk]? with
  | none => s
  | some b =>
    let s := removeRecords s blk
    let s := leaveWindows { s with chunks := s.chunks.filter (fun k => !b.groups.contains k.g) } blk
    let s := modBlock s blk (fun b => { b with life := .ended, wb := [], ab := [], cb := [], ls := [] })
    let s := lowerBound (if residentOn s b.core b.ctx then s else foldCounts s b.core b.ctx false) b.core
    gangEnded s b.gang

/-- Episodes that a group's end may complete (R355, R358). -/
def recheckBars (s : State) (blk : Nat) : State :=
  countGang ((List.range 16).foldl (fun s i => completeBar s blk i) s) blk

/-- The end of a recipe run (R338): its tile is resident, and the chains of the block go on. -/
def runEnd (s : State) (g : Nat) (gr : Group) (r : RunInfo) : State :=
  let s := modGroup s g (fun gr => { gr with life := .ended, frags := [] })
  advanceChains (modTile s gr.block r.tile (fun t => { t with state := .resident })) gr.block

/-- The end of a compute group (R193, R299); no instruction reads its registers again, which hold what they held. -/
def groupEnd (s : State) (g : Nat) : State :=
  match s.groups[g]? with
  | none => s
  | some gr => match gr.run with
    | some r => runEnd s g gr r
    | none => match s.blocks[gr.block]? with
      | none => s
      | some b =>
        let s := release s (.group g) (endScope s b)
        let s := modGroup s g (fun gr =>
          { gr with life := .ended, frags := [], trapQ := [], late := [], handler := none, log := [], region := none })
        let s := { s with chains := s.chains.filter (fun c => c.g != g) }
        let s := refillSlots (recheckBars s gr.block) gr.place
        if !(liveGroups s b).isEmpty then s
        else if s.adds.any (fun a => a.src == gr.block || a.dst == gr.block) then
          modBlock s gr.block (fun b => { b with ending := true })
        else blockEnd s gr.block

end Sys2Proof.Machine
end

