-- ==== Sys2Proof/Machine/Barriers.lean ====
section
/-! DEFINITION. Barriers and batches: BAR and its parts (R356), GBAR (R359), stage barriers with MBAR and credits (R360 to
R365), the landing of FILL chunks (R249), BCLOSE and BWAIT (R250, R251). -/

namespace Sys2Proof.Machine

/-! ### Block barriers (R354 to R356) -/

/-- Whether a group arrives as one of its fragments does (R355). -/
def Group.arrives (gr : Group) (i : Nat) : Bool :=
  gr.frags.all (fun x => (tabFind x.arr i).isSome || (match x.wait with | .join _ => true | _ => false))

/-- The phase of a block barrier. -/
def barPhase (s : State) (blk i : Nat) : Bool :=
  match (s.blocks[blk]?).bind (fun b => b.bars[i]?) with
  | none => false
  | some br => br.phase

/-- The fragment's own arrival recorded. -/
def recordArrival (s : State) (c : Cx) (i : Nat) (phase : Bool) : State :=
  modFrag s c.g c.f (fun x => { x with arr := tabSet x.arr i phase })

/-- A mark and an arrival phase of a group set. -/
def Barrier.mark (b : Barrier) (gid : Nat) (phase : Bool) : Barrier :=
  let bit := BitVec.ofNat 16 (2 ^ gid)
  { b with marks := b.marks ||| bit, phases := if phase then b.phases ||| bit else b.phases &&& ~~~bit }

/-- The group arrives at block barrier `i` if it does so now, and the episode may complete. -/
def arriveBar (s : State) (c : Cx) (i : Nat) (phase : Bool) : State :=
  match s.groups[c.g]? with
  | none => s
  | some gr =>
    if !gr.arrives i then s
    else completeBar (modBlock s gr.block (fun b => { b with bars := modAt b.bars i (fun br => br.mark gr.gid phase) })) gr.block i

/-- The index check of R356. -/
def barOk (s : State) (c : Cx) (i : Nat) : Bool :=
  match s.blocks[c.gr.block]? with
  | none => false
  | some b => i < b.entry.bars

/-- How the barrier instructions issue. -/
def barInfo (rel : Bool) : IssueInfo := { cls := .compute, w := true, touch := true, fence := false, rel }

def barArrBody (o : BarOp) (c : Cx) (s : State) : State :=
  let i := o.b.toNat
  if !barOk s c i then raiseFrag s c 4 0 c.low (some c.fr.pc) else
  let p := barPhase s c.gr.block i
  arriveBar (recordArrival (advance (release s (.group c.g) .blk) c 4) c i p) c i p

def execBarArr (o : BarOp) (s : State) : Out := issue (.barArr o) (barInfo true) s (barArrBody o) noCtl

def barWaitBody (o : BarOp) (c : Cx) (s : State) : State :=
  let i := o.b.toNat
  if !barOk s c i then raiseFrag s c 4 0 c.low (some c.fr.pc)
  else match tabFind c.fr.arr i with
    | some p => if barPhase s c.gr.block i = p then park s c (.barWait i p) else advance (acquireAll s c.who.site .blk) c 4
    | none => advance (acquireAll (modGroup s c.g (fun gr => gr.passLate c.f i)) c.who.site .blk) c 4

def execBarWait (o : BarOp) (s : State) : Out := issue (.barWait o) (barInfo false) s (barWaitBody o) noCtl

def barBody (o : BarOp) (c : Cx) (s : State) : State :=
  let i := o.b.toNat
  if !barOk s c i then raiseFrag s c 4 0 c.low (some c.fr.pc) else
  let p := barPhase s c.gr.block i
  arriveBar (recordArrival (park (release s (.group c.g) .blk) c (.bar i p)) c i p) c i p

def execBar (o : BarOp) (s : State) : Out := issue (.bar o) (barInfo true) s (barBody o) noCtl

/-! ### GBAR (R358, R359) -/

/-- The phase of a block's gang barrier. -/
def gangPhase (s : State) (blk : Nat) : Bool := ((gangOf s blk).map (·.phase)).getD false

/-- The group arrives at the gang barrier if it does so now; its block's arrival may be counted. -/
def arriveGang (s : State) (c : Cx) (phase : Bool) : State :=
  match s.groups[c.g]? with
  | none => s
  | some gr =>
    if !gr.arrives 16 then s
    else countGang (modBlock s gr.block (fun b => { b with gbar := { b.gbar.mark gr.gid phase with phase } })) gr.block

def gbarBody (c : Cx) (s : State) : State :=
  let p := gangPhase s c.gr.block
  arriveGang (recordArrival (park (release s (.group c.g) .pkg) c (.gbar p)) c 16 p) c p

def execGbar (o : WOp) (s : State) : Out := issue (.gbar o) (barInfo true) s gbarBody noCtl

/-! ### Stage barriers (R360, R361) -/

/-- A well-formed stage barrier. -/
structure Mbar where
  seq : BitVec 16
  excess : Bool
  remaining : Nat
  expected : Nat
  pending : Nat
  deriving DecidableEq, Repr

/-- R360; `none` for a malformed object. -/
def Mbar.parse (bs : List Byte) : Option Mbar :=
  let w0 := field bs 0 8
  let w1 := field bs 8 8
  let seq := bits w1 40 16
  let remaining := bits w1 16 16
  let expected := bits w1 0 16
  if bits w1 56 8 = 0x53 ∧ bits w1 33 7 = 0 ∧ bits w0 56 7 = 0 ∧ 0 < expected ∧ remaining ≤ expected ∧
      bits w0 63 1 = seq % 2 then
    some { seq := BitVec.ofNat 16 seq, excess := bitAt w1 32, remaining, expected, pending := bits w0 0 56 }
  else none

/-- The 16 bytes of an object. -/
def Mbar.bytes (m : Mbar) : List Byte :=
  leBytes 8 (m.pending + m.seq.toNat % 2 * 2 ^ 63)
    ++ leBytes 8 (m.expected + m.remaining * 2 ^ 16 + (if m.excess then 2 ^ 32 else 0) + m.seq.toNat * 2 ^ 40 + 0x53 * 2 ^ 56)

/-- The object at an offset of a block's LS window. -/
def mbarAt (s : State) (blk off : Nat) : Option Mbar := Mbar.parse (winRead s blk .ls off 16)

/-- The object put there. -/
def putMbar (s : State) (blk off : Nat) (m : Mbar) : State := winWrite s blk .ls off m.bytes

/-- The phase completes (R361). -/
def Mbar.complete (m : Mbar) : Mbar := { m with seq := m.seq + 1, remaining := m.expected, excess := false }

/-- The phase completes if nothing is owed. -/
def Mbar.settle (m : Mbar) : Mbar := if m.remaining = 0 ∧ m.pending = 0 then m.complete else m

/-- Whether phase `n` has completed (R360). -/
def Mbar.done (m : Mbar) (n : Nat) : Bool :=
  let d := (m.seq - BitVec.ofNat 16 n).toNat
  1 ≤ d && d ≤ 2 ^ 15

/-- The status of a wait for phase `n` that has completed (R362). -/
def Mbar.status (m : Mbar) (n : Nat) : Nat := if m.excess && BitVec.ofNat 16 n + 1 == m.seq then 2 else 0

/-- A BAR_OVER entry for a group (R306, R363): its fragment is the one that issued, or the one with the lowest %tid. -/
def queueOver (s : State) (g f : Nat) (ipc : DWord) (off : Nat) (byHandler : Bool) : State :=
  match s.groups[g]? with
  | none => s
  | some gr =>
    let fr := match gr.frag? f with
      | some x => some x
      | none => lowestMember gr.frags
    match fr with
    | none => s
    | some x => enqueueTrap s g
        { cause := 14, frag := x.id, slot := x.slot.getD 0, ipc, addr := BitVec.ofNat 64 off, aux := 0, rpc := none } byHandler

/-- The fragments of a block that wait in MBAR.WAIT on an object: group, fragment, phase. -/
def mbarWaiters (s : State) (blk off : Nat) : List (Nat × Frag × Nat) :=
  s.groups.zipIdx.flatMap (fun p => if p.1.block == blk && p.1.life == .live && p.1.run.isNone then
      p.1.frags.filterMap (fun x => match x.wait with
        | .mbar o n _ _ => if o == off then some (p.2, x, n) else none
        | _ => none)
    else [])

/-- A wait ends with a status and the phase number of the moment. -/
def endWait (s : State) (g f status : Nat) (seq : BitVec 16) : State :=
  modFrag s g f (fun x => { x with wait := .mbarEnd status seq.toNat })

/-- Waits for phases that have completed end; BAR_OVER is queued to the group of each that returns status 2 (R363). -/
def wakeMbar (s : State) (blk off : Nat) (m : Mbar) : State :=
  (mbarWaiters s blk off).foldl (fun s w =>
    if !m.done w.2.2 then s else
    let st := m.status w.2.2
    let s := endWait s w.1 w.2.1.id st m.seq
    if st = 2 then queueOver s w.1 w.2.1.id w.2.1.pc off
      (match s.groups[w.1]? with | some gr => gr.inHandler w.2.1 | none => false) else s) s

/-- A credit of `k` bytes (R361); a malformed object drops it and BAR_OVER goes to the issuer. -/
def creditMbar (s : State) (blk off k g f : Nat) (ipc : DWord) (byHandler : Bool) : State :=
  match mbarAt s blk off with
  | none => queueOver s g f ipc off byHandler
  | some m =>
    let m' := if k ≤ m.pending then ({ m with pending := m.pending - k } : Mbar).settle
      else { ({ m with pending := 0 } : Mbar).complete with excess := true }
    wakeMbar (putMbar s blk off m') blk off m'

/-! ### MBAR (R362) -/

/-- How the MBAR forms issue. -/
def mbarInfo (w rel : Bool) : IssueInfo := { cls := .compute, w, touch := true, fence := false, rel }

/-- The checks that every MBAR form but INIT makes, and the object. -/
def mbarChecked (c : Cx) (s : State) (off : DWord) (body : State → Mbar → State) : State :=
  if off.toNat % 16 ≠ 0 then raiseFrag s c 3 off c.low (some c.fr.pc)
  else if !winInside s c.gr.block .ls { tid := 0, va := off, n := 16, data := [] } then raiseFrag s c 4 off c.low (some c.fr.pc)
  else match mbarAt s c.gr.block off.toNat with
    | none => raiseFrag s c 4 off c.low (some c.fr.pc)
    | some m => body s m

/-- A stage barrier as MBAR.INIT leaves it. -/
def Mbar.init (n : Nat) : Mbar := { seq := 0, excess := false, remaining := n, expected := n, pending := 0 }

def mbarInitBody (o : MbarOp) (c : Cx) (s : State) : State :=
  let off := c.s s.free 0 o.sa.toNat
  let n := (c.s s.free 1 o.sb.toNat).toNat
  if off.toNat % 16 ≠ 0 then raiseFrag s c 3 off c.low (some c.fr.pc)
  else if !winInside s c.gr.block .ls { tid := 0, va := off, n := 16, data := [] } || n == 0 || 65535 < n then
    raiseFrag s c 4 off c.low (some c.fr.pc)
  else
    let s := putMbar s c.gr.block off.toNat (Mbar.init n)
    advance ((mbarWaiters s c.gr.block off.toNat).foldl (fun s w => endWait s w.1 w.2.1.id 3 0) s) c 8

def execMbarInit (o : MbarOp) (s : State) : Out :=
  issue (.mbarInit o) (mbarInfo o.w false) s (guardedFrag o.g 8 (mbarInitBody o)) noCtl

def mbarArmBody (o : MbarOp) (c : Cx) (s : State) : State :=
  let off := c.s s.free 0 o.sa.toNat
  let k := (c.s s.free 1 o.sb.toNat).toNat
  mbarChecked c s off (fun s m =>
    if 2 ^ 56 ≤ m.pending + k then raiseFrag s c 4 off c.low (some c.fr.pc)
    else advance (putMbar s c.gr.block off.toNat { m with pending := m.pending + k }) c 8)

def execMbarArm (o : MbarOp) (s : State) : Out :=
  issue (.mbarArm o) (mbarInfo o.w false) s (guardedFrag o.g 8 (mbarArmBody o)) noCtl

def mbarArrBody (o : MbarArrOp) (c : Cx) (s : State) : State :=
  let off := c.s s.free 0 o.sa.toNat
  mbarChecked c s off (fun s m =>
    let s := advance (release s (.group c.g) o.scope) c 8
    if m.remaining = 0 then queueOver s c.g c.f c.fr.pc off.toNat (c.gr.inHandler c.fr)
    else
      let m' := ({ m with remaining := m.remaining - 1 } : Mbar).settle
      wakeMbar (putMbar s c.gr.block off.toNat m') c.gr.block off.toNat m')

def execMbarArr (o : MbarArrOp) (s : State) : Out :=
  issue (.mbarArr o) (mbarInfo o.w (scopeOrders o.scope)) s (guardedFrag o.g 8 (mbarArrBody o)) noCtl

/-- MBAR.WAIT ends: the acquire of statuses 0 and 2, and its result. -/
def finishWait (o : MbarWaitOp) (c : Cx) (s : State) (status seq : Nat) : State :=
  let s := if status = 0 ∨ status = 2 then acquireAll s c.who.site o.scope else s
  advance (putRegs s c [(.s o.sd.toNat, BitVec.ofNat 64 (status + seq * 2 ^ 16))]) c 8

def mbarWaitBody (o : MbarWaitOp) (c : Cx) (s : State) : State :=
  let off := c.s s.free 0 o.sa.toNat
  let n := (c.s s.free 2 o.sd.toNat).toNat % 2 ^ 16
  mbarChecked c s off (fun s m =>
    if m.done n then
      let s := finishWait o c s (m.status n) m.seq.toNat
      if m.status n = 2 then queueOver s c.g c.f c.fr.pc off.toNat (c.gr.inHandler c.fr) else s
    else park s c (.mbar off.toNat n (clk s) (c.s s.free 1 o.sb.toNat).toNat))

/-- A wait that has ended takes its result; else the guard decides. -/
def mbarWaitFrag (o : MbarWaitOp) (c : Cx) (s : State) : State :=
  match c.fr.wait with
  | .mbarEnd status seq => finishWait o c s status seq
  | _ => guardedFrag o.g 8 (mbarWaitBody o) c s

def execMbarWait (o : MbarWaitOp) (s : State) : Out :=
  issue (.mbarWait o) (mbarInfo true false) s (mbarWaitFrag o) noCtl

/-- MBAR_TIMEOUT (R362, R365): the wait of a fragment ends with status 1. -/
def execMbarTimeout (g f : Nat) (s : State) : Out :=
  match s.groups[g]? with
  | none => .next s
  | some gr => match gr.frag? f with
    | none => .next s
    | some fr => match fr.wait with
      | .mbar off _ start timeout =>
        if timeout = 0 ∨ clk s < start + timeout then .next s
        else .next (endWait s g f 1 (match mbarAt s gr.block off with
          | some m => m.seq
          | none => BitVec.ofNat 16 (bits (leNat (winRead s gr.block .ls (off + 8) 8)) 40 16)))
      | _ => .next s

/-! ### Batches (R250, R251) -/

/-- Whether an item of a batch has landed. -/
def itemLanded (s : State) : BatchItem → Bool
  | .fill id => !(s.chunks.any (fun k => k.fill == id))
  | .cmd iod n => !(s.commands.any (fun k => k.iod == iod && k.n == n))

/-- Whether a batch has landed. -/
def Batch.landed (b : Batch) (s : State) : Bool := b.items.all (itemLanded s)

/-- Whether a batch holds an engine command. -/
def Batch.engine (b : Batch) : Bool := b.items.any (fun x => match x with
  | .cmd _ _ => true
  | .fill _ => false)

/-- Closed batches that BWAIT `n` waits on at the batch sequence `c`. -/
def batchSet (l : List Batch) (n c : BitVec 16) : List Batch :=
  l.filter (fun b => (n - b.num).toNat < 2 ^ 15 && (c - b.num).toNat < 2 ^ 15)

/-- Closed batches that are still of interest: not landed, or with an engine command and inside the window of R251. -/
def keepBatches (s : State) (l : List Batch) (c : BitVec 16) : List Batch :=
  l.filter (fun b => !b.landed s || (b.engine && (c - b.num).toNat < 2 ^ 15))

/-- Whether 64 closed batches have not landed. -/
def batchesFull (s : State) (l : List Batch) : Bool := 64 ≤ (l.filter (fun b => !b.landed s)).length

/-- Whether a BWAIT can end. -/
def batchesDone (s : State) (l : List Batch) (n c : BitVec 16) : Bool := (batchSet l n c).all (fun b => b.landed s)

/-- BWAITs of fragments and control cores that can end now do so. -/
def wakeBatches (s : State) : State :=
  let s1 := { s with
    groups := s.groups.map (fun gr =>
      { gr with frags := gr.frags.map (fun x => match x.wait with
          | .batch n c _ => if batchesDone s gr.closedB n c then { x with wait := .run, pc := x.pc + 8, since := clk s } else x
          | _ => x) }),
    ctls := s.ctls.map (fun k => match k.wait with
      | .batch n c _ => if batchesDone s k.closedB n c then { k with wait := .run, pc := k.pc + 8 } else k
      | _ => k) }
  let sites := (s.groups.filter (fun gr => gr.frags.any (fun x => match x.wait with
      | .batch n c a => a && batchesDone s gr.closedB n c
      | _ => false))).map (fun gr => Site.core gr.place)
  let ccs := (s.ctls.zipIdx.filter (fun p => match p.1.wait with
      | .batch n c a => a && batchesDone s p.1.closedB n c
      | _ => false)).map (fun p => Site.ctl p.2)
  (sites ++ ccs).foldl (fun s x => acquireAll s x .pkg) s1

def execBclose (o : WOp) (s : State) : Out :=
  issue (.bclose o) { cls := .both, w := o.w, touch := true, fence := false, rel := false } s
    (fun c s => if batchesFull s c.gr.closedB then park s c .retry else
      let n := c.gr.batch + 1
      advance (modGroup s c.g (fun gr =>
        { gr with batch := n, openB := [],
                  closedB := keepBatches s gr.closedB n ++ (if gr.openB.isEmpty then [] else [{ num := n, items := gr.openB }]) })) c 4)
    (fun cc c s => if batchesFull s c.closedB then parkCtl s cc .retry else
      let n := c.batch + 1
      advanceCtl (modCtl s cc (fun k =>
        { k with batch := n, openB := [], wait := .run,
                 closedB := keepBatches s k.closedB n ++ (if k.openB.isEmpty then [] else [{ num := n, items := k.openB }]) })) cc 4)

/-- BWAIT on either kind of core. -/
def bwaitFrag (c : Cx) (s : State) (n : BitVec 16) : State :=
  let l := batchSet c.gr.closedB n c.gr.batch
  let acq := l.any (·.engine)
  if l.all (fun b => b.landed s) then advance (if acq then acquireAll s c.who.site .pkg else s) c 8
  else park s c (.batch n c.gr.batch acq)
def bwaitCtl (cc : Nat) (c : Ctl) (s : State) (n : BitVec 16) : State :=
  let l := batchSet c.closedB n c.batch
  let acq := l.any (·.engine)
  if l.all (fun b => b.landed s) then advanceCtl (if acq then acquireAll s (.ctl cc) .pkg else s) cc 8
  else parkCtl s cc (.batch n c.batch acq)

/-- How BWAIT issues. -/
def bwaitInfo (w : Bool) : IssueInfo := { cls := .both, w, touch := true, fence := false, rel := false }

def execBwaitImmediate (o : BwaitImmOp) (s : State) : Out :=
  issue (.bwaitImmediate o) (bwaitInfo o.w) s (fun c s => bwaitFrag c s o.n) (fun cc c s => bwaitCtl cc c s o.n)
def execBwaitRegister (o : SrcOp) (s : State) : Out :=
  issue (.bwaitRegister o) (bwaitInfo o.w) s (fun c s => bwaitFrag c s ((c.s s.free 0 o.sa.toNat).setWidth 16))
    (fun cc c s => bwaitCtl cc c s ((c.sreg o.sa.toNat).setWidth 16))

/-! ### CHUNK_LANDING (R249) -/

/-- Chunks of the same FILL and place with a lower %tid no longer have a byte to put there (R30). -/
def outdone (k : Chunk) (l : List Chunk) : List Chunk :=
  l.map (fun x => if x.fill == k.fill && x.dst == k.dst && x.tid < k.tid then { x with wins := false } else x)

/-- A chunk with its data lands whole: its bytes, unless a higher %tid of the FILL has filled them, and its credit. -/
def landChunk (s : State) (k : Chunk) (bs : List Byte) : State :=
  match s.groups[k.g]? with
  | none => s
  | some gr =>
    let rest := s.chunks.filter (fun x => x.id != k.id)
    let s := { s with chunks := outdone k rest }
    let s := if k.wins then winWrite s gr.block (fillSpace k.space) k.dst bs else s
    let s := match k.mbar with
      | none => s
      | some off => creditMbar s gr.block off k.n k.g k.f k.ipc k.byHandler
    wakeBatches s

/-- CHUNK_LANDING: the source is read if that has not happened yet, and the chunk lands. -/
def execChunkLanding (id : Nat) (s : State) : Out :=
  match s.chunks.find? (fun k => k.id == id) with
  | none => .next s
  | some k =>
    let s1 := readChunk s k
    match (s1.chunks.find? (fun k => k.id == id)).bind (·.data) with
    | none => .next s1
    | some bs => .next (landChunk s1 k bs)

end Sys2Proof.Machine
end

