-- ==== Sys2Proof/Machine/Queues.lean ====
section
/-! DEFINITION. Queues (14): binding of slots, the operations of R290 in queue order, ENQ and DEQ, SPAWN with its bins, and
the dependence counters (18 R349 to R352) with CDEC and CINC. -/

namespace Sys2Proof.Machine

/-! ### Slots (R287 to R289) -/

/-- The slot that a descriptor is bound to, by its physical address. -/
def slotOf (s : State) (pa : Nat) : Option Slot := s.slots.find? (fun q => q.pa == pa)

/-- A slot replaced by its newer self. -/
def putSlot (s : State) (q : Slot) : State := { s with slots := s.slots.map (fun x => if x.pa == q.pa then q else x) }

/-- Whether a bound queue is empty. -/
def Slot.isEmpty (q : Slot) : Bool := q.recs.isEmpty && q.head == q.tail

/-- The fields that an unbind writes back. -/
def Slot.counters (q : Slot) : List Byte :=
  leBytes 8 q.head.toNat ++ leBytes 8 q.tail.toNat ++ leBytes 8 q.count.toNat ++ leBytes 8 q.lost.toNat

/-- A slot is freed, its fields written back to the descriptor; `none` where they cannot be written. -/
def unbindSlot (s : State) (q : Slot) : Option State :=
  match devWrite s q.ctx (q.desc + 24) q.counters with
  | .ok s1 => some { s1 with slots := s1.slots.filter (fun x => x.pa != q.pa) }
  | _ => none

/-- A new slot for a descriptor. -/
def Slot.fresh (die : Nat) (desc : DWord) (pa : Nat) (ctx : Ctx) (d : QDesc) (now seq : Nat) : Slot :=
  { die, desc, pa, ctx, mode := d.mode, base := d.base, lsz := d.lsz, head := d.head, tail := d.tail, count := d.count,
    lost := d.lost, recs := [], mark := d.tail, bindSeq := seq, later := [], idleSince := now, waiting := false, page := none,
    poster := { die, kind := 3, origin := BitVec.ofNat 64 pa } }

/-- Room for one more bound queue on a die: a free slot, or the slot of an empty queue, any one that can be freed, unspecified which
(R287; log 2). -/
def slotRoom (s : State) (die : Nat) : Option State :=
  if s.offline.contains die then none
  else if (s.slots.filter (fun q => q.die == die)).length < 16 then some s
  else
    let l := s.slots.filter (fun q => q.die == die && q.isEmpty)
    let i := if l.length ≤ 1 then 0 else Config.freeNat .unbind s.free die % l.length
    (l.drop i ++ l.take i).findSome? (unbindSlot s)

/-- A new record of the hardware part. -/
def QRecord.fresh (id : Nat) (bs : List Byte) (seq : Nat) : QRecord :=
  { id, bytes := bs, seq, waited := 0, aged := 0, unfit := none, access := false, page := none, task := none }

/-! ### Refill (R290) -/

/-- How a refill ends. -/
inductive Refill
  | done (q : Slot)
  | page (q : Slot) (va : DWord) (pte : Nat)
  | wait (q : Slot)

/-- Whether the galley record at head was enqueued before the binding. -/
def Slot.early (q : Slot) : Bool := q.head != q.mark && (q.mark - q.head).toNat ≤ 2 ^ q.lsz

/-- The galley without its oldest record, which began at the old head. -/
def Slot.passed (q : Slot) (head : DWord) : Slot := if q.early then { q with head } else { q with head, later := q.later.tail }

/-- A galley record in the hardware part, numbered by the place where it lay, with its place in enqueue order. -/
def Slot.taken (q : Slot) (bs : List Byte) (head : DWord) : Slot :=
  let seq := if q.early then q.bindSeq else q.later.headD q.bindSeq
  { q.passed head with recs := q.recs ++ [QRecord.fresh (2 * q.head.toNat + 1) bs seq] }

/-- Records move from the galley to the hardware part while it has room. -/
def refillLoop : Nat → State → Slot → Refill
  | 0, _, q => .done q
  | n + 1, s, q =>
    if 32 ≤ q.recs.length ∨ q.head = q.tail then .done q
    else match galleyOldest s q.ctx q.base q.lsz q.head q.tail with
      | .ok (bs, head) => refillLoop n s (q.taken bs head)
      | .full => .done q
      | .empty => .done q
      | .corrupt => .done q
      | .page va pte => .page q va pte
      | .offline _ => .wait q

/-- A PAGE entry of a poster. -/
def Poster.page (p : Poster) (c : Ctx) (access : Nat) (s : State) (va : DWord) : State :=
  post s p.die { ctx := c, kind := 1, access, addr := va, originKind := p.kind, origin := p.origin, time := s.time }

/-- The dispatcher as the poster of a queue's entries: its origin is the queue descriptor (R290, R304). -/
def Slot.dispatcher (q : Slot) : Poster := { die := q.die, kind := 3, origin := BitVec.ofNat 64 q.pa }

/-- A refill; it waits on a page, for which the agent that began it has posted one PAGE entry (R290). -/
def refill (s : State) (q : Slot) (who : Poster) : State :=
  match refillLoop 33 s q with
  | .done q => putSlot s { q with waiting := false, page := none }
  | .page q1 va pte =>
    armMonitor (putSlot (if q.page.any (samePage va) then s else who.page q.ctx 0 s va)
      { q1 with waiting := true, page := some va, poster := who }) pte
      (.queue q.pa)
  | .wait q1 => putSlot s { q1 with waiting := true, poster := who }

/-! ### The operations of R290 -/

/-- The end of an operation: its status and record, or what it has to wait for. -/
inductive QEnd
  | done (status : Nat) (rec : List Byte) (s : State)
  | page (va : DWord) (pte : Nat)
  | wait

/-- enqueue on a bound queue. -/
def enqueueBound (s : State) (q : Slot) (bs : List Byte) : QEnd :=
  let q := { q with idleSince := clk s }
  let seq := s.nextId
  let s := { s with nextId := seq + 1 }
  if q.recs.length < 32 then .done 0 [] (putSlot s { q with recs := q.recs ++ [QRecord.fresh (2 * seq) bs seq], count := q.count + 1 })
  else match galleyAppend s q.ctx q.base q.lsz q.head q.tail bs with
    | .ok (s1, tail) => .done 0 [] (putSlot s1 { q with tail, count := q.count + 1, later := q.later ++ [seq] })
    | .full => .done 1 [] s
    | .empty => .done 1 [] s
    | .corrupt => .done 5 [] s
    | .page va pte => .page va pte
    | .offline _ => .wait

/-- The fields of an unbound queue written back to its descriptor. -/
def putDesc (s : State) (c : Ctx) (va : DWord) (d : QDesc) : Option State :=
  match devWrite s c (va + 24) d.counters with
  | .ok s1 => some s1
  | _ => none

/-- enqueue on an unbound queue: the galley alone. -/
def enqueueUnbound (s : State) (c : Ctx) (va : DWord) (d : QDesc) (bs : List Byte) : QEnd :=
  match galleyAppend s c d.base d.lsz d.head d.tail bs with
  | .ok (s1, tail) => (match putDesc s1 c va { d with tail, count := d.count + 1 } with
    | some s2 => .done 0 [] s2
    | none => .done 5 [] s)
  | .full => .done 1 [] s
  | .empty => .done 1 [] s
  | .corrupt => .done 5 [] s
  | .page va pte => .page va pte
  | .offline _ => .wait

/-- The oldest record that DEQ returns from a bound queue (R293). -/
def Slot.oldest (q : Slot) : Option QRecord := q.recs.find? (fun r => q.mode != 0 || r.task.isNone)

/-- DEQ on a bound queue whose hardware part holds nothing that it may take: the oldest record of its galley. -/
def dequeueGalley (s : State) (q : Slot) (cap : Nat) : QEnd :=
  match galleyOldest s q.ctx q.base q.lsz q.head q.tail with
  | .ok (bs, head) => if cap < bs.length then .done 4 bs s else .done 0 bs (putSlot s { q.passed head with count := q.count - 1 })
  | .full => .done 1 [] s
  | .empty => .done 1 [] s
  | .corrupt => .done 5 [] s
  | .page va pte => .page va pte
  | .offline _ => .wait

/-- DEQ on a bound queue, for a capacity in bytes. -/
def dequeueBound (s : State) (q : Slot) (cap : Nat) (who : Poster) : QEnd :=
  let s := putSlot s { q with idleSince := clk s }
  let q := { q with idleSince := clk s }
  match q.oldest with
  | some r =>
    if cap < r.bytes.length then .done 4 r.bytes s
    else .done 0 r.bytes (refill s { q with recs := q.recs.erase r, count := q.count - 1 } who)
  | none => dequeueGalley s q cap

/-- DEQ on an unbound queue. -/
def dequeueUnbound (s : State) (c : Ctx) (va : DWord) (d : QDesc) (cap : Nat) : QEnd :=
  match galleyOldest s c d.base d.lsz d.head d.tail with
  | .ok (bs, head) =>
    if cap < bs.length then .done 4 bs s
    else (match putDesc s c va { d with head, count := d.count - 1 } with
      | some s1 => .done 0 bs s1
      | none => .done 5 [] s)
  | .full => .done 1 [] s
  | .empty => .done 1 [] s
  | .corrupt => .done 5 [] s
  | .page va pte => .page va pte
  | .offline _ => .wait

/-- Whether an operation of the queue with a descriptor, other than one of control core `me`, waits on its galley, or a refill
does, so that no later one is performed (R290). -/
def queueHeld (s : State) (pa : Nat) (me : Option Nat) : Bool := opWaits s pa me || (slotOf s pa).any (·.waiting)

/-! ### ENQ and DEQ (R291 to R293) -/

/-- A queue as an operation finds it: bound, or unbound with its parsed descriptor. -/
inductive QFound
  | bound (q : Slot)
  | unbound (d : QDesc)
  | bad

/-- The oldest unbound dispatch queue of a die that holds records and has been named is bound, where a slot is free or
can be freed (R287, R288); one that holds none, or whose descriptor is none, is forgotten. -/
def bindNamed (s : State) (die : Nat) : State :=
  match s.named.find? (fun x => x.die == die) with
  | none => s
  | some x =>
    let s1 := { s with named := s.named.filter (fun y => y.pa != x.pa) }
    match devRead s x.ctx x.desc 16 with
    | .page _ _ => s
    | .fail _ => s1
    | .offline _ => s
    | .ok bs => match QDesc.parse bs with
      | none => s1
      | some d =>
        if d.mode ≠ 0 ∨ d.head = d.tail then s1 else
        match slotRoom s1 die with
        | none => s
        | some s2 =>
          let q := Slot.fresh die x.desc x.pa x.ctx d (clk s) s.nextId
          refill { s2 with slots := s2.slots ++ [q], nextId := s.nextId + 1 } q q.dispatcher

/-- The waiting queues of a die are bound, oldest first (R288). -/
def bindWaiting (s : State) (die : Nat) : State := s.named.foldl (fun s _ => bindNamed s die) s

/-- The descriptor's queue, bound now if it can be, behind the queues that wait for a slot (R287, R288); `who` posts the page
that the refill of the binding waits on. -/
def findQueue (s : State) (c : Ctx) (desc : DWord) (pa : Nat) (bs : List Byte) (who : Poster) : QFound × State :=
  match slotOf s pa with
  | some q => (.bound q, s)
  | none => match QDesc.parse bs with
    | none => (.bad, s)
    | some d =>
      if d.mode = 2 then (.unbound d, s)
      else
      let s := bindWaiting s d.die
      match slotOf s pa with
      | some q => (.bound q, s)
      | none => match slotRoom s d.die with
        | some s1 =>
          let q := Slot.fresh d.die desc pa c d (clk s) s.nextId
          let s2 := refill { s1 with slots := s1.slots ++ [q], named := s1.named.filter (fun x => x.pa != pa),
                                     nextId := s.nextId + 1 } q who
          (((slotOf s2 pa).map QFound.bound).getD (.bound q), s2)
        | none =>
          (.unbound d, if d.mode = 0 && !(s.named.any (fun x => x.pa == pa)) then
            { s with named := s.named ++ [{ die := d.die, desc, pa, ctx := c }] } else s)

/-- Whether R292 step 2 turns an operation away from a queue: a fault-mode queue or another length for ENQ, another
context. -/
def queueDenied (c : Ctx) (enq : Bool) (len : Nat) : QFound → Bool
  | .bad => true
  | .bound q => q.ctx != c || (enq && q.mode == 0 && len != 8)
  | .unbound d => enq && (d.mode == 2 || (d.mode == 0 && len != 8))

/-- The mode of a found queue read from memory, without binding it: the checks of step 2 alone. -/
def queuePeek (s : State) (pa : Nat) (bs : List Byte) : QFound :=
  match slotOf s pa with
  | some q => .bound q
  | none => match QDesc.parse bs with
    | none => .bad
    | some d => .unbound d

/-- The released bytes of a descriptor from its translated accesses. -/
def descBytes (s : State) (l : List (Acc × Nat × Nat)) : List Byte :=
  l.flatMap (fun p => releasedWords s p.2.2 (p.2.1 / 4) 2)

/-- The agent of a queue operation as a poster (R290). -/
def Actor.poster : Actor → Poster
  | .frag c => { die := c.gr.place / 128, kind := 0, origin := groupOrigin c.gr }
  | .ctl cc _ => { die := cc / 24, kind := 1, origin := BitVec.ofNat 64 (kcore cc) }

/-- The control core that acts, if one does. -/
def Actor.ctl? : Actor → Option Nat
  | .frag _ => none
  | .ctl cc _ => some cc

/-- What a queue operation finds at its descriptor: an operation that step 2 of R292 turns away, one that has to wait, or the
queue, bound where it can be. A descriptor that was well formed at issue and is no longer goes on to status 5 (R293). -/
inductive QStart | denied | held (s : State) | go (q : QFound) (s : State)

/-- A queue operation starts (R287 to R290, R292). -/
def queueStart (enq : Bool) (len : Nat) (a : Actor) (s : State) (desc : DWord) (pa : Nat) (bs : List Byte) : QStart :=
  let peek := queuePeek s pa bs
  if (match peek with | .bad => false | .bound _ => true | .unbound _ => true) && queueDenied a.who.ctx enq len peek then .denied
  else if queueHeld s pa a.ctl? then .held s
  else
    let fq := findQueue s a.who.ctx desc pa bs a.poster
    if queueHeld fq.2 pa a.ctl? then .held fq.2 else .go fq.1 fq.2

/-- ENQ with its addresses translated: the release, the record, the operation, the status. -/
def performEnq (sc : Scope) (sd : BitVec 6) (len : Nat) (a : Actor) (s : State) (l : List (Acc × Nat × Nat)) : Perf :=
  let w := a.who
  let desc := ((l.head?).map (·.1.va)).getD 0
  let pa := ((l.head?).map (·.2.1)).getD 0
  match queueStart true len a (a.dirty s) desc pa (descBytes s (l.take 8)) with
  | .denied => .trap 4 desc a.low s
  | .held s1 => .again s1
  | .go fq s1 =>
    let r := loadAccs (release s1 w.agent sc) w (l.drop 8)
    let rec8 : List Byte := r.1.flatMap (fun p => p.2)
    let s2 := r.2.2
    let q : QEnd := match fq with
      | .bound q => enqueueBound s2 q rec8
      | .unbound d => enqueueUnbound s2 w.ctx desc d rec8
      | .bad => .done 5 [] s2
    match q with
    | .done st _ s3 => .done (a.race (a.putS s3 sd.toNat (BitVec.ofNat 64 st)) r.2.1)
    | .page va pte => .park [(va, pte)] [] s2
    | .wait => .again s2

/-- DEQ with its addresses translated. -/
def performDeq (sc : Scope) (sd : BitVec 6) (len : Nat) (a : Actor) (s : State) (l : List (Acc × Nat × Nat)) : Perf :=
  let w := a.who
  let desc := ((l.head?).map (·.1.va)).getD 0
  let pa := ((l.head?).map (·.2.1)).getD 0
  match queueStart false len a (a.dirty s) desc pa (descBytes s (l.take 8)) with
  | .denied => .trap 4 desc a.low s
  | .held s1 => .again s1
  | .go fq s2 =>
    let q : QEnd := match fq with
      | .bound q => dequeueBound s2 q (8 * len) a.poster
      | .unbound d => dequeueUnbound s2 w.ctx desc d (8 * len)
      | .bad => .done 5 [] s2
    match q with
    | .page va pte => .park [(va, pte)] [] s2
    | .wait => .again s2
    | .done st rec s3 =>
      let dest := ((l.drop 8).take (rec.length / 8)).zipIdx.map (fun p =>
        ({ p.1.1 with data := (rec.drop (8 * p.2)).take 8 }, p.1.2))
      let r := if st = 0 then storeAccs s3 w dest else (none, s3)
      let x := st + (if st = 0 ∨ st = 4 then rec.length / 8 * 256 else 0)
      .done (acquireAll (a.race (a.putS r.2 sd.toNat (BitVec.ofNat 64 x)) r.1) w.site sc)

/-- The accesses of a queue operation: the descriptor, then the record. -/
def queueAccs (tid : Nat) (desc rec : DWord) (len : Nat) : List Acc := accs8 tid desc [] 8 ++ accs8 tid rec [] len

/-- The access code of a page that an ENQ or DEQ waits on before it has begun (R304): the descriptor and the record of an ENQ are
read, the destination of a DEQ is written. -/
def queueCode (enq : Bool) (desc va : DWord) : Nat := if enq || samePage desc va then 0 else 1

/-- The access code of a page of the galley, which an ENQ writes and a DEQ reads. -/
def galleyCode (enq : Bool) : DWord → Nat := fun _ => if enq then 1 else 0

/-- An exact trap of either kind of core. -/
def Actor.trap (a : Actor) (s : State) (cause : Nat) (addr : DWord) : State :=
  match a with
  | .frag c => raiseFrag s c cause addr c.low (some c.fr.pc)
  | .ctl cc _ => raiseCtl s cc cause addr 0

/-- Parking at issue on pages or homes; `s0` is the machine before the instruction. -/
def Actor.park (a : Actor) (s0 s : State) (req : Req) (access : DWord → Nat) (pages : List (DWord × Nat)) (dies : List Nat) : State :=
  match a with
  | .frag c => parkReq s0 s c req access 8 pages dies none
  | .ctl cc _ => match pages with
    | (va, _) :: _ => raiseCtl s cc 5 va (BitVec.ofNat 64 (access va))
    | [] => parkCtl s cc .retry

/-- A queue operation of a control core that waits on its galley, which it posts once, unless it is the fault queue's own (R305), and
then tries again (R290). -/
def waitGalley (s : State) (cc : Nat) (c : Ctl) (req : Req) (access pa : Nat) (pages : List (DWord × Nat)) : State :=
  let s1 := pages.foldl (fun s p =>
    if c.queue.any (fun q => q.1 == pa && samePage q.2 p.1) || ownFaultPage s c.ctx req true p.1 then s
    else (Actor.ctl cc c).poster.page c.ctx access s p.1) s
  modCtl s1 cc (fun k => { k with wait := .retry, queue := (pages.head?).map (fun p => (pa, p.1)) })

/-- What a queue operation on the descriptor at `pa` ends in, on either kind of core; `access` is the code of its galley. -/
def Actor.finish (a : Actor) (s0 : State) (req : Req) (access : DWord → Nat) (pa : Nat) : Perf → State
  | .done s => (match a with
    | .frag c => advance s c 8
    | .ctl cc _ => advanceCtl (modCtl s cc (fun k => { k with wait := .run, queue := none })) cc 8)
  | .trap cause addr aux s => (match a with
    | .frag c => raiseFrag s c cause addr aux (some c.fr.pc)
    | .ctl cc _ => raiseCtl (modCtl s cc (fun k => { k with queue := none })) cc cause addr aux)
  | .park pages dies s => (match a with
    | .frag c => parkReq s0 s c req access 8 pages dies (some pa)
    | .ctl cc c => waitGalley s cc c req (access 0) pa pages)
  | .again s => (match a with
    | .frag c => Machine.park s c .retry
    | .ctl cc _ => parkCtl s cc .retry)

/-- The alignment checks of R292. -/
def queueAligned (a : Actor) (desc rec : DWord) (s : State) (body : State → State) : State :=
  if desc.toNat % 64 ≠ 0 then a.trap s 3 desc else if rec.toNat % 8 ≠ 0 then a.trap s 3 rec else body s

/-- The checks of R292 after alignment, in their order, and then the operation: everything that fails as ACCESS of descriptor,
record and queue comes before any page. -/
def queueBody (enq : Bool) (a : Actor) (req : Req) (len : Nat) (perform : State → List (Acc × Nat × Nat) → Perf) (s : State) : State :=
  let desc := ((req.accs.head?).map (·.va)).getD 0
  let d := checkAccs s a.who .load (req.accs.take 8)
  let r := checkAccs d.2 a.who (if enq then .load else .store) (req.accs.drop 8)
  match d.1, r.1 with
  | .misalign x, _ => a.trap r.2 3 x.va
  | _, .misalign x => a.trap r.2 3 x.va
  | .access x, _ => a.trap r.2 4 x.va
  | _, .access x => a.trap r.2 4 x.va
  | .park p e, .park q f =>
    a.park s r.2 req (queueCode enq desc) (p ++ q.filter (fun y => !(p.any (fun x => samePage x.1 y.1)))) (e ++ f)
  | .park p e, .ok _ => a.park s r.2 req (queueCode enq desc) p e
  | .ok l, rest =>
    let pa := ((l.head?).map (·.2.1)).getD 0
    if queueDenied a.who.ctx enq len (queuePeek r.2 pa (descBytes r.2 l)) then a.trap r.2 4 desc
    else match rest with
      | .park q f => a.park s r.2 req (queueCode enq desc) q f
      | .ok m => a.finish s req (galleyCode enq) pa (perform r.2 (l ++ m))
      | .misalign x => a.trap r.2 3 x.va
      | .access x => a.trap r.2 4 x.va

def enqBody (o : QueueOp) (a : Actor) (s : State) : State :=
  let desc := a.getS s.free 0 o.sa.toNat
  let rec8 := a.getS s.free 1 o.sb.toNat
  let len := o.len.toNat + 1
  queueAligned a desc rec8 s
    (queueBody true a { kind := .enq o.scope o.sd len, accs := queueAccs a.lowTid desc rec8 len } len (performEnq o.scope o.sd len a))

def execEnq (o : QueueOp) (s : State) : Out :=
  bothGuarded (.enq o) o.w o.g (scopeOrders o.scope) (enqBody o) s

def deqBody (o : QueueOp) (a : Actor) (s : State) : State :=
  let desc := a.getS s.free 0 o.sa.toNat
  let rec8 := a.getS s.free 1 o.sb.toNat
  let len := o.len.toNat + 1
  queueAligned a desc rec8 s
    (queueBody false a { kind := .deq o.scope o.sd len, accs := queueAccs a.lowTid desc rec8 len } len (performDeq o.scope o.sd len a))

def execDeq (o : QueueOp) (s : State) : Out := bothGuarded (.deq o) o.w o.g false (deqBody o) s

/-! ### CDEC and CINC (R351, R352) -/

/-- The counter after a step: a decrement by more than it holds leaves 0 (R350, R352). -/
def stepCounter (dec : Bool) (amount : DWord) (old : Nat) : Nat :=
  if dec then (if amount.toNat ≤ old then old - amount.toNat else 0) else min (old + amount.toNat) (2 ^ 64 - 1)

/-- The die on which an actor posts, and the origin of its entries (R304, R305). -/
def Actor.die : Actor → Nat
  | .frag c => c.gr.place / 128
  | .ctl cc _ => cc / 24
def Actor.origin : Actor → Nat × DWord
  | .frag c => (0, groupOrigin c.gr)
  | .ctl cc _ => (1, BitVec.ofNat 64 (kcore cc))

/-- COUNTER_UNDER (R350). -/
def postUnder (s : State) (a : Actor) (va : DWord) : State :=
  post s a.die { ctx := a.who.ctx, kind := 4, access := 2, addr := va, originKind := a.origin.1, origin := a.origin.2, time := s.time }

def performCount (dec rel : Bool) (sc : Scope) (sd : BitVec 6) (amount : DWord) (a : Actor) (s : State)
    (l : List (Acc × Nat × Nat)) : Perf :=
  let s := relBefore rel sc a (a.dirty s)
  match l with
  | [] => .done s
  | p :: _ =>
    let r := atomAcc s a.who false (stepCounter dec amount) p
    let s1 := if dec && r.2.1.isNone && r.1 < amount.toNat then postUnder r.2.2 a p.1.va else r.2.2
    .done (a.race (a.putS s1 sd.toNat (BitVec.ofNat 64 r.1)) r.2.1)

def countBody (dec : Bool) (o : CountOp) (a : Actor) (s : State) : State :=
  let va := a.getS s.free 0 o.sa.toNat
  let amount := a.getS s.free 1 o.sb.toNat
  uniReq a s 8 .atomic { kind := .count dec o.rel o.scope o.sd amount, accs := oneAcc a.lowTid va 8 [] }
    (performCount dec o.rel o.scope o.sd amount a)

def execCdec (o : CountOp) (s : State) : Out :=
  bothGuarded (.cdec o) o.w o.g (o.rel && scopeOrders o.scope) (countBody true o) s
def execCinc (o : CountOp) (s : State) : Out :=
  bothGuarded (.cinc o) o.w o.g (o.rel && scopeOrders o.scope) (countBody false o) s

/-! ### SPAWN (R300 to R302) -/

/-- Whether a core can ever offer what a block of an entry needs (R42, R341, R199, R203). -/
def everFits (e : Entry) : Bool :=
  e.vcount * e.size * 4 * e.block ≤ 917504 && e.wb ≤ 2 ^ 20 && e.ab ≤ 1536 * 1024 && e.ls ≤ 2 ^ 18 && e.cb ≤ 393216
    && e.ab / 1024 ≤ e.carveMax && e.carveMin ≤ e.carveMax

/-- Whether an entry may be spawned (R301). -/
def spawnable (e : Entry) : Bool := !e.recipe && e.block == 1 && e.gang == 1 && everFits e

/-- Bin `i` of a core replaced. -/
def setBin (s : State) (core i : Nat) (b : Option Bin) : State :=
  modCore s core (fun k => { k with bins := modAt k.bins i (fun _ => b) })

/-- close(b) of R302: the bin's group joins the spawn list when that has room, else the bin waits, full. -/
def closeBin (s : State) (core i : Nat) : State :=
  match ((coreOf s core).bins.getD i none) with
  | none => s
  | some b =>
    if (coreOf s core).spawnList.length < 16 then
      modCore s core (fun k => { k with bins := modAt k.bins i (fun _ => none), spawnList := k.spawnList ++ [b] })
    else setBin s core i (some { b with closing := true })

/-- The bin that takes a thread of an entry: an open one bound to it, else a free one. -/
def binFor (k : Core) (c : Ctx) (entry : DWord) : Option Nat :=
  match k.bins.findIdx? (fun b => match b with
    | some b => b.ctx == c && b.entryVa == entry && !b.closing
    | none => false) with
  | some i => some i
  | none => k.bins.findIdx? (·.isNone)

/-- A thread placed in bin `i`. -/
def spawnThread (s : State) (core i : Nat) (c : Ctx) (entry : DWord) (e : Entry) (args : DWord × DWord) : State :=
  let b : Bin := match (coreOf s core).bins.getD i none with
    | some b => { b with threads := b.threads ++ [args] }
    | none => { ctx := c, entryVa := entry, entry := e, threads := [args], start := clk s, closing := false }
  let s := setBin s core i (some b)
  if b.entry.size ≤ b.threads.length then closeBin s core i else s

def performSpawn (arg0 arg1 : DWord) (c : Cx) (s : State) (l : List (Acc × Nat × Nat)) : Perf :=
  let desc := ((l.head?).map (·.1.va)).getD 0
  match readEntryDesc s c.gr.ctx (desc + 32) with
  | .page va pte => .park [(va, pte)] [] s
  | .offline d => .park [] [d] s
  | .fail va => .trap 4 va c.low s
  | .ok none => .trap 4 desc c.low s
  | .ok (some e) =>
    if !spawnable e then .trap 4 desc c.low s else
    let s := release (Actor.dirty (.frag c) s) (.group c.g) .die
    match binFor (coreOf s c.gr.place) c.gr.ctx (desc + 32) with
    | none => .again s
    | some i => .done (spawnThread s c.gr.place i c.gr.ctx (desc + 32) e (arg0, arg1))

def spawnBody (o : SpawnOp) (c : Cx) (s : State) : State :=
  let entry := c.s s.free 0 o.sa.toNat
  let a0 := c.s s.free 1 o.sb.toNat
  let a1 := c.s s.free 2 o.sc.toNat
  if entry.toNat % 32 ≠ 0 then raiseFrag s c 3 entry c.low (some c.fr.pc)
  else issueReq c s 8 .load { kind := .spawn a0 a1, accs := accs8 c.lowTid (entry - 32) [] 4 } (performSpawn a0 a1 c)

def execSpawn (o : SpawnOp) (s : State) : Out :=
  issue (.spawn o) (compInfo o.w true) s (guardedFrag o.g 8 (spawnBody o)) noCtl

end Sys2Proof.Machine
end

