-- ==== Sys2Proof/Machine/Engines.lean ====
section
/-! DEFINITION. The copy engines (12 R256 to R259, 11 R232): the issue of ECPY, EPUB and ECOLL, the ranges, claims, reads and
publishes of their commands, the completion word and the ENGINE trap; COPY_COMMAND, EPUB_COMMAND and PUBLISH. -/

namespace Sys2Proof.Machine

/-! ### Issue (R256) -/

/-- The I/O die that serves a compute die (R15). -/
def iodOf (die : Nat) : Nat := die / 2

/-- An agent's commands that have not landed. -/
def outstanding (s : State) (a : Agent) : Nat := (s.commands.filter (fun c => c.agent == a)).length

/-- The agent's open batch with one more item (R250). -/
def joinBatch (s : State) (a : Actor) (x : BatchItem) : State :=
  match a with
  | .frag c => modGroup s c.g (fun gr => { gr with openB := gr.openB ++ [x] })
  | .ctl cc _ => modCtl s cc (fun k => { k with openB := k.openB ++ [x] })

/-- A command as an I/O die accepts it. -/
def Command.fresh (a : Actor) (op iod n : Nat) (descVa : DWord) (desc : List Byte) (scope : WideScope) : Command :=
  { iod, n, op,
    party := (match a with | .frag c => .frag c.g c.f | .ctl cc _ => .control cc),
    agent := a.who.agent, ctx := a.who.ctx,
    blk := (match a with | .frag c => some c.gr.block | .ctl _ _ => none),
    descVa, desc, scope, life := .issued, src := [], claims := [], out := [], window := [], coll := none, status := 0,
    published := false, raced := false, posted := [],
    ipc := (match a with | .frag c => c.fr.pc | .ctl _ c => c.pc),
    byHandler := (match a with | .frag c => c.gr.inHandler c.fr | .ctl _ _ => false) }

/-- An engine instruction with its descriptor's accesses translated: the release, the descriptor, the command. -/
def performEngine (op : Nat) (sc : WideScope) (sd : BitVec 6) (a : Actor) (s : State) (l : List (Acc × Nat × Nat)) : Perf :=
  if (match a with | .frag _ => true | .ctl _ _ => false) && 64 ≤ outstanding s a.who.agent then .again s else
  let r := loadAccs (release (a.dirty s) a.who.agent sc.toScope) a.who l
  let iod := iodOf a.die
  let n := r.2.2.nextCmd.getD iod 0
  let va := ((l.head?).map (·.1.va)).getD 0
  let cmd := Command.fresh a op iod n va (r.1.flatMap (·.2)) sc
  let s1 := { r.2.2 with nextCmd := modAt r.2.2.nextCmd iod (fun n => (n + 1) % 2 ^ 32), commands := r.2.2.commands ++ [cmd] }
  .done (a.race (a.putS (joinBatch s1 a (.cmd iod n)) sd.toNat (BitVec.ofNat 64 (n + iod * 2 ^ 32))) r.2.1)

def engineBody (op : Nat) (o : EngineOp) (a : Actor) (s : State) : State :=
  let va := a.getS s.free 0 o.sa.toNat
  if va.toNat % 64 ≠ 0 then a.trap s 3 va
  else uniReq a s 8 .load { kind := .engine op o.scope o.sd, accs := accs8 a.lowTid va [] 8 } (performEngine op o.scope o.sd a)

def execEcpy (o : EngineOp) (s : State) : Out := bothGuarded (.ecpy o) o.w o.g true (engineBody 0 o) s
def execEpub (o : EngineOp) (s : State) : Out := bothGuarded (.epub o) o.w o.g true (engineBody 1 o) s
def execEcoll (o : EngineOp) (s : State) : Out := bothGuarded (.ecoll o) o.w o.g true (engineBody 2 o) s

/-! ### Descriptors (R257) -/

/-- The command word of R256. -/
def Command.word (c : Command) : Nat := c.n + c.iod * 2 ^ 32

def Command.srcVa (c : Command) : Nat := field c.desc 0 8
def Command.dstVa (c : Command) : Nat := field c.desc 8 8
def Command.len (c : Command) : Nat := field c.desc 16 8
def Command.cw (c : Command) : Nat := field c.desc 24 8
def Command.cseq (c : Command) : Nat := field c.desc 32 6
def Command.fn (c : Command) : Nat := field c.desc 44 1
def Command.dkind (c : Command) : Nat := field c.desc 45 1
def Command.ndst (c : Command) : Nat := field c.desc 46 1
def Command.mbar (c : Command) : Nat := field c.desc 52 4
def Command.aux (c : Command) : Nat := field c.desc 56 8

/-- Whether the descriptor enables a stage barrier, and its offset. -/
def Command.mbarOn (c : Command) : Bool := bitAt c.mbar 31
def Command.mbarOff (c : Command) : Nat := c.mbar % 2 ^ 18

/-- Whether a control core issued the command. -/
def Command.byCtl (c : Command) : Bool := c.blk.isNone

/-- An upload: ECPY with op 1. -/
def Command.isUpload (c : Command) : Bool := c.op == 0 && c.fn == 1

/-- The fields of R257 that every command shares, and those that its instruction restricts (R258 step 1). -/
def Command.wellFormed (c : Command) : Bool :=
  field c.desc 38 2 == 0 && field c.desc 40 4 == 0 && field c.desc 47 5 == 0 && bits c.mbar 18 13 == 0
    && (!c.mbarOn || c.mbarOff % 16 == 0) && c.cw % 8 == 0 && c.len % 4 == 0 && 4 ≤ c.len && c.len ≤ 2 ^ 32
    && (if c.op = 0 then c.fn ≤ 1 else c.fn == 0) && c.dkind ≤ 2 && (c.dkind == 0 || (c.op == 0 && c.fn == 0))
    && (if c.op = 1 then 1 ≤ c.ndst && c.ndst ≤ 4 else c.ndst == 0) && (c.op != 2 || c.len % 128 == 0)
    && (c.op != 0 || (if c.fn = 0 then c.aux == 0 else c.dstVa == 0))
    && !(c.byCtl && (c.dkind != 0 || c.mbarOn))

/-! ### Steps that may have to wait -/

/-- The result of a part of a command's work: done, refused with a cause, waiting on a page (its address, its entry's
address, the access code of R304), waiting on a home that is offline. -/
inductive Eng (α : Type)
  | ok (x : α) (s : State)
  | refuse (cause : Nat) (s : State)
  | page (va : DWord) (pte code : Nat) (s : State)
  | wait (s : State)

/-- One part after another. -/
def Eng.andThen {α β : Type} (x : Eng α) (f : α → State → Eng β) : Eng β :=
  match x with
  | .ok y s => f y s
  | .refuse k s => .refuse k s
  | .page va pte code s => .page va pte code s
  | .wait s => .wait s

/-- A condition that refuses the command. -/
def Eng.require (b : Bool) (cause : Nat) (s : State) : Eng Unit := if b then .ok () s else .refuse cause s

/-! ### Ranges (R258 steps 2 and 3) -/

/-- Whether a piece meets a poisoned unit that it does not store whole (R381). -/
def piecePoisoned (s : State) (u : Use) (p : Piece) : Bool :=
  s.poison.any (fun x => x * 64 < p.pa + p.n && p.pa < x * 64 + 64
    && !(u == .store && p.pa ≤ x * 64 && x * 64 + 64 ≤ p.pa + p.n))

/-- The pieces of a range, page by page, as the copy engine translates them (R400). -/
def pieces (s : State) (c : Command) (u : Use) : Nat → DWord → Nat → Eng (List Piece)
  | 0, _, _ => .ok [] s
  | k + 1, va, n =>
    if n = 0 then .ok [] s else
    let m := min n (4096 - va.toNat % 4096)
    match translate s (.iod c.iod) c.ctx false u va with
    | (.page pte, s) => .page va pte (if u == .load then 4 else 5) s
    | (.access, s) => .refuse 12 s
    | (.offline _, s) => .wait s
    | (.ok pa key, s) =>
      let p : Piece := { va, pa, key, n := m }
      if piecePoisoned s u p then .refuse 12 s
      else (pieces s c u k (va + BitVec.ofNat 64 m) (n - m)).andThen (fun l s => .ok (p :: l) s)

/-- A range of a command: canonical, permitted and present, or cause 12. -/
def engRange (s : State) (c : Command) (u : Use) (va n : Nat) : Eng (List Piece) :=
  if !oneHalf va n then .refuse 12 s else pieces s c u ((va % 4096 + n + 4095) / 4096) (BitVec.ofNat 64 va) n

/-- The completion word's range, if one is named. -/
def cwRange (s : State) (c : Command) : Eng Unit :=
  if c.cw = 0 then .ok () s else (engRange s c .atomic c.cw 8).andThen (fun _ s => .ok () s)

/-- The windows that a command names lie inside their quotas. -/
def windowsInside (s : State) (c : Command) : Bool :=
  match c.blk.bind (fun b => s.blocks[b]?) with
  | none => c.dkind == 0 && !c.mbarOn
  | some b =>
    (c.dkind == 0 || (b.life != .ended && b.life != .gone
      && c.dstVa + c.len ≤ (if c.dkind = 1 then b.entry.wb else b.entry.ls)))
    && (!c.mbarOn || c.mbarOff + 16 ≤ b.entry.ls)

/-- Whether two ranges overlap; an empty one overlaps nothing. -/
def overlap (a b : Nat × Nat) : Bool := 0 < a.2 && 0 < b.2 && a.1 < b.1 + b.2 && b.1 < a.1 + a.2

/-- Whether a range overlaps one of a list, or two of the list overlap each other. -/
def anyOverlap : List (Nat × Nat) → Bool
  | [] => false
  | x :: l => l.any (overlap x) || anyOverlap l

/-! ### Words of a range -/

/-- The words that a piece lies in, with their addresses. -/
def Piece.words (p : Piece) : List (Nat × DWord) :=
  (List.range ((p.pa + p.n - 1) / 4 + 1 - p.pa / 4)).map (fun i =>
    (p.pa / 4 + i, p.va - BitVec.ofNat 64 (p.pa % 4) + BitVec.ofNat 64 (4 * i)))

/-- The agent of a command. -/
def Command.self (c : Command) : Agent := .engine c.iod c.n

/-- One source word as the engine reads it (R232, R227): an issuer's word written since the issue gives either value. -/
def engWord (s : State) (c : Command) (key w : Nat) : Word × Bool :=
  match regOf s w with
  | some (.owned a last _) =>
    if a = c.agent then
      (if last = readWord s key w ∨ Config.freeNat .engine s.free w % 2 = 0 then readWord s key w else last, false)
    else (last, true)
  | some (.claimed m _) => (readWord s key w, m != c.self)
  | _ => (aliasChoice s key w (readWord s key w), false)

/-- The bytes of a piece, and its lowest racing word. -/
def readPiece (s : State) (c : Command) (p : Piece) : List Byte × Option (Race × DWord) :=
  let ws := p.words.map (fun w => (w.2, engWord s c p.key w.1))
  (((ws.flatMap (fun x => leBytes 4 x.2.1.toNat)).drop (p.pa % 4)).take p.n,
    ws.foldl (fun r x => if x.2.2 then worse r (some (.race, x.1)) else r) none)

/-- The bytes of a range. -/
def readPieces (s : State) (c : Command) : List Piece → List Byte × Option (Race × DWord)
  | [] => ([], none)
  | p :: l =>
    let r := readPiece s c p
    let rest := readPieces s c l
    (r.1 ++ rest.1, worse r.2 rest.2)

/-- Bytes laid over pieces. -/
def overPieces : List Piece → List Byte → List (Piece × List Byte)
  | [], _ => []
  | p :: l, bs => (p, bs.take p.n) :: overPieces l (bs.drop p.n)

/-! ### Claims (R232 step 1, R224) -/

/-- Every word claimed in order; `none` where one is in O(c), E(m) or F. -/
def claimWords (me : Agent) : List (Nat × DWord) → State → Option State
  | [], s => some s
  | (w, _) :: l, s =>
    if !registers w then claimWords me l s else
    let s1 : State := { s with hostLines := s.hostLines.filter (fun u => u != w / 16) }
    match regOf s w with
    | none => claimWords me l (setReg s1 w (.claimed me none))
    | some (.released a va) => claimWords me l (setReg s1 w (.claimed me (some (a, va))))
    | some (.owned _ _ _) => none
    | some (.claimed _ _) => none
    | some (.frozen _) => none

/-- The destinations of a command claimed, or cause 10. -/
def claimAll (c : Command) (ws : List (Nat × DWord)) (s : State) : Eng Unit :=
  match claimWords c.self ws s with
  | some s1 => .ok () s1
  | none => .refuse 10 s

/-- Claimed words return to what they were. -/
def unclaimWords (me : Agent) : List (Nat × DWord) → State → State
  | [], s => s
  | (w, _) :: l, s => unclaimWords me l (match regOf s w with
    | some (.claimed m none) => if m = me then clearReg s w else s
    | some (.claimed m (some (a, va))) => if m = me then setReg s w (.released a va) else s
    | _ => s)

/-! ### Traps and the completion word (R258) -/

/-- A command replaced by its newer self. -/
def putCmd (s : State) (c : Command) : State :=
  { s with commands := s.commands.map (fun k => if k.iod == c.iod && k.n == c.n then c else k) }

/-- A command by its I/O die and number. -/
def findCmd (s : State) (iod n : Nat) : Option Command := s.commands.find? (fun k => k.iod == iod && k.n == n)

/-- A trap of a command to its issuer: to the fragment, or to the live fragment with the lowest %tid; an ENGINE trap of a
group that has ended is a CONTEXT_FAULT entry (R228, R309). -/
def cmdTrap (s : State) (c : Command) (cause : Nat) (addr aux : DWord) : State :=
  match c.party with
  | .idle => s
  | .control cc => deferCtl s cc cause c.ipc addr aux
  | .frag g f =>
    match s.groups[g]? with
    | none => s
    | some gr =>
      match (match gr.frag? f with | some x => some x | none => lowestMember gr.frags) with
      | some x => enqueueTrap s g
          { cause, frag := x.id, slot := x.slot.getD 0, ipc := c.ipc, addr, aux, rpc := none } c.byHandler
      | none => if cause ≠ 16 then s else
          post s (4 + c.iod) { ctx := c.ctx, kind := 7, access := 6, addr := c.ipc, originKind := 2,
                               origin := BitVec.ofNat 64 c.word, time := s.time }

/-- The one RACE of a command (R228). -/
def cmdRace (s : State) (c : Command) (r : Option (Race × DWord)) : State × Command :=
  match r with
  | none => (s, c)
  | some (k, va) => if c.raced then (s, c) else (cmdTrap s c k.cause va 0, { c with raced := true })

/-- The command lands: a nonzero status queues ENGINE, and batches that held it may land. -/
def landCmd (s : State) (c : Command) (status : Nat) : State :=
  let s := { s with commands := s.commands.filter (fun k => !(k.iod == c.iod && k.n == c.n)) }
  let s := if status = 0 then s else cmdTrap s c 16 c.descVa (BitVec.ofNat 64 (status + c.word % 2 ^ 48 * 2 ^ 16))
  wakeBatches s

/-- A command waits on a page: one ENGINE_WAIT entry for it, and a monitor (R258, R304, R314). -/
def waitPage (s : State) (c : Command) (va : DWord) (pte code : Nat) : State :=
  let page := va &&& ~~~(4095 : DWord)
  let c1 := if c.posted.contains page then c else { c with posted := c.posted ++ [page] }
  let s1 := if c.posted.contains page then s else
    post s (4 + c.iod) { ctx := c.ctx, kind := 2, access := code, addr := page, originKind := 2,
                         origin := BitVec.ofNat 64 c.word, time := s.time }
  armMonitor (putCmd s1 c1) pte (.command c.iod c.n)

/-- Whether a word of the 8 bytes at a physical address is held by an agent, claimed or frozen. -/
def cwHeld (s : State) (pa : Nat) : Bool :=
  (List.range 2).any (fun i => registers (pa / 4 + i) && (writeRace s none (pa / 4 + i)).isSome)

/-- The end of a command whose status is fixed (R258 step 7): its completion word by a far atomic exchange, which leaves
it in V; where the word is held or can no longer be reached, cause 13 after a publish, its own cause after a refusal. -/
def finishCmd (s : State) (c : Command) : State :=
  let s := putCmd s c
  if c.cw = 0 ∨ c.cw % 8 ≠ 0 then landCmd s c c.status else
  let lost := if c.published then 13 else c.status
  match engRange s c .atomic c.cw 8 with
  | .page va pte code s => waitPage s c va pte code
  | .wait s => s
  | .refuse _ s => landCmd s c lost
  | .ok l s => match l with
    | [] => landCmd s c lost
    | p :: _ =>
      if cwHeld s p.pa then landCmd s c lost
      else landCmd (writeBytes (clearReg (clearReg s (p.pa / 4)) (p.pa / 4 + 1)) p.key p.pa
        (leBytes 8 (c.status + c.cseq * 2 ^ 16))) c c.status

/-- A command is refused: its claimed words return, and it finishes with the cause. -/
def refuseCmd (s : State) (c : Command) (cause : Nat) : State :=
  finishCmd (unclaimWords c.self c.claims s) { c with life := .finishing, claims := [], out := [], status := cause }

/-- A part of a command's work carried to its end. -/
def engRun (c : Command) (x : Eng Command) : State :=
  match x with
  | .ok c1 s1 => putCmd s1 c1
  | .refuse k s1 => refuseCmd s1 ((findCmd s1 c.iod c.n).getD c) k
  | .page va pte code s1 => waitPage s1 ((findCmd s1 c.iod c.n).getD c) va pte code
  | .wait s1 => s1

/-! ### ECPY copy (R259) -/

/-- The source is read into the proof copy (R232 steps 2 and 3). -/
def buildCopy (s : State) (c : Command) (src : List Piece) (claims : List (Nat × DWord)) (dsts : List (List Piece)) :
    Eng Command :=
  let r := readPieces s c src
  let x := cmdRace s c r.2
  .ok { x.2 with life := .built, src, claims, out := dsts.flatMap (fun d => overPieces d r.1),
                 window := if c.dkind = 0 then [] else r.1, posted := [] } x.1

/-- Steps 1 to 6 of R258 for a copy. -/
def copyCommand (s : State) (c : Command) : Eng Command :=
  (Eng.require c.wellFormed 9 s).andThen (fun _ s =>
  (engRange s c .load c.srcVa c.len).andThen (fun src s =>
  (if c.dkind = 0 then engRange s c .store c.dstVa c.len else .ok [] s).andThen (fun dst s =>
  (cwRange s c).andThen (fun _ s =>
  (Eng.require (windowsInside s c) 12 s).andThen (fun _ s =>
  (Eng.require (c.dkind != 0 || !overlap (c.srcVa, c.len) (c.dstVa, c.len)) 11 s).andThen (fun _ s =>
  let ws := dst.flatMap Piece.words
  (claimAll c ws s).andThen (fun _ s => buildCopy s c src ws [dst])))))))

/-- COPY_COMMAND: an ECPY copy is checked, claimed and read. -/
def execCopyCommand (iod n : Nat) (s : State) : Out :=
  match findCmd s iod n with
  | none => .next s
  | some c => if c.op ≠ 0 ∨ c.isUpload ∨ c.life ≠ .issued then .next s else .next (engRun c (copyCommand s c))

/-! ### EPUB (R257, R259) -/

/-- The ranges of several destinations. -/
def dstRanges (c : Command) : List Nat → State → Eng (List (List Piece))
  | [], s => .ok [] s
  | va :: l, s => (engRange s c .store va c.len).andThen (fun p s => (dstRanges c l s).andThen (fun ps s => .ok (p :: ps) s))

/-- Steps 1 to 6 of R258 for a publish to several destinations; the list at aux holds the addresses behind the first. -/
def epubCommand (s : State) (c : Command) : Eng Command :=
  (Eng.require c.wellFormed 9 s).andThen (fun _ s =>
  (if c.ndst ≤ 1 then .ok [] s else engRange s c .load c.aux (8 * (c.ndst - 1))).andThen (fun tbl s =>
  let r := readPieces s c tbl
  let x := cmdRace s c r.2
  let c := x.2
  let vas := c.dstVa :: (List.range (c.ndst - 1)).map (fun i => field r.1 (8 * i) 8)
  (engRange (putCmd x.1 c) c .load c.srcVa c.len).andThen (fun src s =>
  (dstRanges c vas s).andThen (fun dsts s =>
  (cwRange s c).andThen (fun _ s =>
  (Eng.require (windowsInside s c) 12 s).andThen (fun _ s =>
  (Eng.require (!anyOverlap ((c.srcVa, c.len) :: vas.map (fun v => (v, c.len)))) 11 s).andThen (fun _ s =>
  let ws := (dsts.flatMap id).flatMap Piece.words
  (claimAll c ws s).andThen (fun _ s => buildCopy s c src ws dsts))))))))

/-- EPUB_COMMAND: a publish is checked, claimed and read. -/
def execEpubCommand (iod n : Nat) (s : State) : Out :=
  match findCmd s iod n with
  | none => .next s
  | some c => if c.op ≠ 1 ∨ c.life ≠ .issued then .next s else .next (engRun c (epubCommand s c))

/-! ### PUBLISH (R232 step 4, R259) -/

/-- The proof copy reaches memory. -/
def writeOut (s : State) (out : List (Piece × List Byte)) : State := out.foldl (fun s p => writeBytes s p.1.key p.1.pa p.2) s

/-- A word that a publish registers to its receiver, in whose cache it has no line yet and an older copy is gone (R232, R229). -/
def receive (s : State) (a : Agent) (w : Nat) : State :=
  setReg (match agentSite s a with
    | some x => dropAt s x w
    | none => s) w (.released a evictedVa)

/-- Destination words take their published state: S(issuer), or V for EPUB. -/
def publishRegs (c : Command) (s : State) : State :=
  c.claims.foldl (fun s w => if !registers w.1 then s else if c.op = 1 then clearReg s w.1 else receive s c.agent w.1) s

/-- Monitors on a word's line wake as its value becomes released. -/
def wakeLine (s : State) (w : Nat) : State :=
  { s with monitors := s.monitors.map (fun m => if m.line = 4 * w / 256 then { m with woken := true } else m) }

/-- A source word of a publish (R224): the issuer's goes to V; another's unreleased word races. -/
def publishSource (c : Command) (r : State × Option (Race × DWord)) (w : Nat × DWord) : State × Option (Race × DWord) :=
  match regOf r.1 w.1 with
  | some (.owned a _ _) => if a = c.agent then (wakeLine (clearReg r.1 w.1) w.1, r.2) else (r.1, worse r.2 (some (.race, w.2)))
  | some (.released a _) => if a = c.agent then (clearReg r.1 w.1, r.2) else r
  | _ => r

/-- The publish of a built command in one step, its window destination, its credit, then its completion. -/
def publishCmd (s : State) (c : Command) : State :=
  let srcs := (c.src.flatMap Piece.words).foldl (publishSource c) (publishRegs c (writeOut s c.out), none)
  let x := cmdRace srcs.1 c srcs.2
  let c := { x.2 with life := .finishing, published := true, out := [], window := [], claims := [], src := [] }
  let s := match c.blk with
    | none => x.1
    | some b =>
      let s := if x.2.window.isEmpty then x.1 else winWrite x.1 b (if c.dkind = 1 then .wb else .ls) c.dstVa x.2.window
      if !c.mbarOn then s else match c.party with
        | .frag g f => creditMbar s b c.mbarOff c.len g f c.ipc c.byHandler
        | .control _ => s
        | .idle => s
  finishCmd { s with poison := s.poison.filter (fun u => !(x.2.out.any (fun p => p.1.pa ≤ u * 64 && u * 64 + 64 ≤ p.1.pa + p.1.n))) } c

/-- Whether every destination's home is there. -/
def outPresent (s : State) (c : Command) : Bool := c.out.all (fun p => presence s p.1.pa == .present)

/-- PUBLISH: a built command publishes and completes; a command that waits to write its completion word tries again. -/
def execPublish (iod n : Nat) (s : State) : Out :=
  match findCmd s iod n with
  | none => .next s
  | some c => match c.life with
    | .built => .next (if outPresent s c then publishCmd s c else s)
    | .finishing => .next (finishCmd s c)
    | .issued => .next s
    | .matching => .next s

end Sys2Proof.Machine
end

