-- ==== Sys2Proof/Machine/Zstd.lean ====
section
/-! DEFINITION. Expansion of one Zstandard frame (RFC 8878, named by R103) with a raw-content dictionary: the frame, its
blocks, Huffman-coded literals, FSE-coded sequences, the content checksum. `none` is a malformed frame. -/

namespace Sys2Proof.Machine

/-! ### Bit streams -/

/-- A stream read from its end: the bits that are left as a number, and how many they are; `past` once more bits were
asked for than there were, which read as 0. -/
structure BackBits where
  val : Nat
  left : Nat
  past : Bool
  deriving DecidableEq, Repr

/-- A stream whose last byte ends in a marker bit; `none` for an empty stream or a last byte of 0. -/
def BackBits.start (bs : List Byte) : Option BackBits :=
  let n := leNat bs
  if (bs.getLastD 0) = 0 then none else some { val := n % 2 ^ n.log2, left := n.log2, past := false }

/-- The next `n` bits without taking them. -/
def BackBits.peek (b : BackBits) (n : Nat) : Nat :=
  if n ≤ b.left then b.val / 2 ^ (b.left - n) else b.val * 2 ^ (n - b.left)

/-- The stream without its next `n` bits. -/
def BackBits.skip (b : BackBits) (n : Nat) : BackBits :=
  if n ≤ b.left then { b with val := b.val % 2 ^ (b.left - n), left := b.left - n } else { val := 0, left := 0, past := true }

/-! ### FSE tables (RFC 8878 4.1) -/

/-- A cell of a decoding table: the symbol, the bits to read and the base of the next state. -/
structure FseCell where
  sym : Nat
  bits : Nat
  base : Nat
  deriving DecidableEq, Repr

/-- A decoding table with its accuracy. -/
structure FseTable where
  log : Nat
  cells : List FseCell
  deriving DecidableEq, Repr

def FseTable.cell (t : FseTable) (i : Nat) : FseCell := t.cells.getD i { sym := 0, bits := 0, base := 0 }

/-- The positions of a table in the order in which symbols are spread, below `high`. -/
def fseSpread (size high : Nat) : Nat → Nat → List Nat
  | 0, _ => []
  | n + 1, pos => (if pos < high then [pos] else []) ++ fseSpread size high n ((pos + size / 2 + size / 8 + 3) % size)

/-- Cells in the order of their positions; `seen` counts for each symbol how often it has come. -/
def fseCells (log : Nat) (probs : List Int) : List Nat → List (Nat × Nat) → List FseCell
  | [], _ => []
  | y :: l, seen =>
    let k := ((seen.find? (fun p => p.1 == y)).map (·.2)).getD (if probs.getD y 0 < 0 then 1 else (probs.getD y 0).toNat)
    let nb := log - k.log2
    { sym := y, bits := nb, base := k * 2 ^ nb - 2 ^ log } :: fseCells log probs l ((y, k + 1) :: seen.filter (fun p => p.1 != y))

/-- The decoding table of a distribution; -1 stands for "less than 1". -/
def FseTable.build (log : Nat) (probs : List Int) : FseTable :=
  let size := 2 ^ log
  let low := (probs.zipIdx.filter (fun p => p.1 < 0)).map (·.2)
  let high := size - low.length
  let syms := probs.zipIdx.flatMap (fun p => List.replicate p.1.toNat p.2)
  let placed := (fseSpread size high size 0).zip syms
  let symAt (i : Nat) : Nat :=
    if high ≤ i then low.getD (size - 1 - i) 0 else ((placed.find? (fun p => p.1 == i)).map (·.2)).getD 0
  { log, cells := fseCells log probs ((List.range size).map symAt) [] }

/-- The table of one symbol. -/
def FseTable.single (y : Nat) : FseTable := { log := 0, cells := [{ sym := y, bits := 0, base := 0 }] }

/-- Zero probabilities that follow one: groups of up to three, from bit `pos` on. -/
def fseZeros (n : Nat) : Nat → Nat → Nat × Nat
  | 0, pos => (0, pos)
  | fuel + 1, pos =>
    let r := bits n pos 2
    if r = 3 then let x := fseZeros n fuel (pos + 2); (3 + x.1, x.2) else (r, pos + 2)

/-- The probabilities of a table description, from bit `pos` on, while `left` remains: with the bit behind them. -/
def fseProbs (n maxSyms : Nat) : Nat → Nat → Nat → List Int → Option (List Int × Nat)
  | 0, _, _, _ => none
  | fuel + 1, pos, left, acc =>
    if left = 0 then (if acc.length ≤ maxSyms then some (acc, pos) else none)
    else if maxSyms ≤ acc.length then none
    else
      let nb := (left + 1).log2 + 1
      let v := bits n pos nb
      let half := 2 ^ (nb - 1)
      let thr := 2 ^ nb - 2 - left
      let short := v % half < thr
      let val := if short then v % half else if half ≤ v then v - thr else v
      let pos := if short then pos + nb - 1 else pos + nb
      let p : Int := (val : Int) - 1
      let cost := if p < 0 then 1 else p.toNat
      if left < cost then none
      else if p = 0 then
        let z := fseZeros n maxSyms pos
        fseProbs n maxSyms fuel z.2 left (acc ++ p :: List.replicate z.1 0)
      else fseProbs n maxSyms fuel pos (left - cost) (acc ++ [p])

/-- A table description at the head of a list: the table and how many bytes it takes. -/
def FseTable.read (maxLog maxSyms : Nat) (bs : List Byte) : Option (FseTable × Nat) :=
  let n := leNat (bs.take 256)
  let log := bits n 0 4 + 5
  if maxLog < log then none else
  match fseProbs n maxSyms (maxSyms + 2) 4 (2 ^ log) [] with
  | none => none
  | some (probs, pos) =>
    let used := (pos + 7) / 8
    if bs.length < used then none else some (FseTable.build log probs, used)

/-! ### Huffman tables (RFC 8878 4.2) -/

/-- A Huffman table: for each value of `log` bits its symbol and the length of its code. -/
structure HufTable where
  log : Nat
  cells : List (Nat × Nat)
  deriving DecidableEq, Repr

/-- Weights from two interleaved states, until the stream is used up. -/
def hufFseWeights (t : FseTable) : Nat → BackBits → Nat → Nat → List Nat
  | 0, _, _, _ => []
  | fuel + 1, b, s1, s2 =>
    let c := t.cell s1
    let b' := b.skip c.bits
    if b'.past then [c.sym, (t.cell s2).sym] else c.sym :: hufFseWeights t fuel b' s2 (c.base + b.peek c.bits)

/-- The table of a list of weights, whose last weight is not written. -/
def HufTable.build (ws : List Nat) : Option HufTable :=
  let sum := (ws.map (fun w => if w = 0 then 0 else 2 ^ (w - 1))).sum
  let log := sum.log2 + 1
  let rest := 2 ^ log - sum
  if sum = 0 ∨ 11 < log ∨ 255 < ws.length ∨ 2 ^ rest.log2 ≠ rest then none else
  let all := (ws ++ [rest.log2 + 1]).zipIdx
  some { log, cells := (List.range log).flatMap (fun i => (all.filter (fun p => p.1 == i + 1)).flatMap (fun p =>
    List.replicate (2 ^ i) (p.2, log - i))) }

/-- A Huffman tree description: the table and how many bytes it takes. -/
def HufTable.read (bs : List Byte) : Option (HufTable × Nat) :=
  match bs with
  | [] => none
  | h :: l =>
    let n := h.toNat
    if 128 ≤ n then
      let k := n - 127
      let used := (k + 1) / 2
      if l.length < used then none else
      (HufTable.build (((l.take used).flatMap (fun b => [b.toNat / 16, b.toNat % 16])).take k)).map (fun t => (t, 1 + used))
    else
      let body := l.take n
      if l.length < n then none else
      match FseTable.read 6 256 body with
      | none => none
      | some (t, used) => match BackBits.start (body.drop used) with
        | none => none
        | some b =>
          if b.left < 2 * t.log then none else
          let b2 := b.skip t.log
          (HufTable.build (hufFseWeights t 256 (b2.skip t.log) (b.peek t.log) (b2.peek t.log))).map (fun t => (t, 1 + n))

/-- `n` literals of one stream, which must end with them. -/
def hufDecode (t : HufTable) : Nat → BackBits → Option (List Byte)
  | 0, b => if b.left = 0 && !b.past then some [] else none
  | n + 1, b =>
    let c := t.cells.getD (b.peek t.log) (0, 0)
    let b' := b.skip c.2
    if b'.past || c.2 = 0 then none else (hufDecode t n b').map (fun l => BitVec.ofNat 8 c.1 :: l)

/-- One stream of literals. -/
def hufStream (t : HufTable) (n : Nat) (bs : List Byte) : Option (List Byte) := (BackBits.start bs).bind (hufDecode t n)

/-- Four streams behind their table of sizes. -/
def hufStreams4 (t : HufTable) (n : Nat) (bs : List Byte) : Option (List Byte) :=
  let a := leNat (bs.take 2)
  let b := leNat ((bs.drop 2).take 2)
  let c := leNat ((bs.drop 4).take 2)
  let body := bs.drop 6
  let q := (n + 3) / 4
  if bs.length < 6 ∨ body.length < a + b + c ∨ n < 3 * q then none else
  match hufStream t q (body.take a), hufStream t q ((body.drop a).take b), hufStream t q ((body.drop (a + b)).take c),
      hufStream t (n - 3 * q) (body.drop (a + b + c)) with
  | some w, some x, some y, some z => some (w ++ x ++ y ++ z)
  | _, _, _, _ => none

/-! ### Blocks (RFC 8878 3.1.1.2, 3.1.1.3) -/

/-- What one block hands on to the next: tables, repeated offsets, and the content so far, newest byte first. -/
structure ZState where
  huf : Option HufTable
  ll : Option FseTable
  off : Option FseTable
  ml : Option FseTable
  reps : Nat × Nat × Nat
  out : List Byte
  deriving DecidableEq, Repr

/-- The literals section: the literals, how many bytes it takes, the Huffman table in force behind it. -/
def readLiterals (huf : Option HufTable) (bs : List Byte) : Option (List Byte × Nat × Option HufTable) :=
  match bs with
  | [] => none
  | h :: _ =>
    let kind := bits h.toNat 0 2
    let form := bits h.toNat 2 2
    if kind ≤ 1 then
      let hl := if form = 1 then 2 else if form = 3 then 3 else 1
      let n := if form % 2 = 0 then h.toNat / 8 else leNat (bs.take hl) / 16
      let used := hl + (if kind = 0 then n else 1)
      if bs.length < used then none
      else some (if kind = 0 then (bs.drop hl).take n else List.replicate n (bs.getD hl 0), used, huf)
    else
      let hl := if form ≤ 1 then 3 else form + 2
      let w := if form ≤ 1 then 10 else if form = 2 then 14 else 18
      let x := leNat (bs.take hl)
      let n := bits x 4 w
      let size := bits x (4 + w) w
      let body := (bs.drop hl).take size
      if bs.length < hl + size then none else
      let tree := if kind = 3 then huf.map (fun t => (t, 0)) else HufTable.read body
      match tree with
      | none => none
      | some (t, used) =>
        let data := body.drop used
        (if form = 0 then hufStream t n data else hufStreams4 t n data).map (fun l => (l, hl + size, some t))

/-- The default distributions. -/
def defaultLl : List Int :=
  [4, 3, 2, 2, 2, 2, 2, 2, 2, 2, 2, 2, 2, 1, 1, 1, 2, 2, 2, 2, 2, 2, 2, 2, 2, 3, 2, 1, 1, 1, 1, 1, -1, -1, -1, -1]
def defaultMl : List Int :=
  [1, 4, 3, 2, 2, 2, 2, 2, 2, 1, 1, 1, 1, 1, 1, 1, 1, 1, 1, 1, 1, 1, 1, 1, 1, 1, 1, 1, 1, 1, 1, 1] ++
  [1, 1, 1, 1, 1, 1, 1, 1, 1, 1, 1, 1, 1, 1, -1, -1, -1, -1, -1, -1, -1]
def defaultOff : List Int :=
  [1, 1, 1, 1, 1, 1, 2, 2, 2, 1, 1, 1, 1, 1, 1, 1, 1, 1, 1, 1, 1, 1, 1, 1, -1, -1, -1, -1, -1]

/-- Base and extra bits of a literals-length code. -/
def llCode (c : Nat) : Nat × Nat :=
  if c < 16 then (c, 0)
  else [(16, 1), (18, 1), (20, 1), (22, 1), (24, 2), (28, 2), (32, 3), (40, 3), (48, 4), (64, 6), (128, 7), (256, 8), (512, 9),
    (1024, 10), (2048, 11), (4096, 12), (8192, 13), (16384, 14), (32768, 15), (65536, 16)].getD (c - 16) (0, 0)

/-- Base and extra bits of a match-length code. -/
def mlCode (c : Nat) : Nat × Nat :=
  if c < 32 then (c + 3, 0)
  else [(35, 1), (37, 1), (39, 1), (41, 1), (43, 2), (47, 2), (51, 3), (59, 3), (67, 4), (83, 4), (99, 5), (131, 7), (259, 8),
    (515, 9), (1027, 10), (2051, 11), (4099, 12), (8195, 13), (16387, 14), (32771, 15), (65539, 16)].getD (c - 32) (0, 0)

/-- A table of the sequences section by its mode: the table and how many bytes its description takes. -/
def seqTable (mode maxLog maxSym : Nat) (dflt : FseTable) (old : Option FseTable) (bs : List Byte) : Option (FseTable × Nat) :=
  if mode = 0 then some (dflt, 0)
  else if mode = 1 then (match bs with
    | b :: _ => if maxSym < b.toNat then none else some (FseTable.single b.toNat, 1)
    | [] => none)
  else if mode = 2 then FseTable.read maxLog (maxSym + 1) bs
  else old.map (fun t => (t, 0))

/-- The offset of an offset value and the repeated offsets behind it (RFC 8878 3.1.1.5). -/
def useOffset (v ll : Nat) (r : Nat × Nat × Nat) : Nat × (Nat × Nat × Nat) :=
  if 3 < v then (v - 3, (v - 3, r.1, r.2.1)) else
  match (if ll = 0 then v + 1 else v) with
  | 1 => (r.1, r)
  | 2 => (r.2.1, (r.2.1, r.1, r.2.2))
  | 3 => (r.2.2, (r.2.2, r.1, r.2.1))
  | _ => (r.1 - 1, (r.1 - 1, r.1, r.2.1))

/-- A match copied, byte by byte, from `off` back; behind the content lies the dictionary. -/
def copyMatch (dict : List Byte) (off : Nat) : Nat → List Byte → List Byte
  | 0, out => out
  | n + 1, out =>
    let b := if off ≤ out.length then out.getD (off - 1) 0 else dict.getD (off - 1 - out.length) 0
    copyMatch dict off n (b :: out)

/-- What the sequences of a block share: the window, the dictionary newest byte first, and their tables. -/
structure SeqTables where
  window : Nat
  dict : List Byte
  ll : FseTable
  off : FseTable
  ml : FseTable
  deriving DecidableEq, Repr

/-- An offset that leads to the content or to the dictionary, which stays in reach while the content fits the window. -/
def SeqTables.reach (t : SeqTables) (off len : Nat) : Bool :=
  1 ≤ off && (if off ≤ len then off ≤ t.window else len ≤ t.window && off ≤ len + t.dict.length)

/-- The sequences carried out: literals left, content and repeated offsets behind them. -/
def runSeqs (t : SeqTables) : Nat → BackBits → Nat × Nat × Nat → List Byte → Nat × Nat × Nat → List Byte →
    Option (List Byte × (Nat × Nat × Nat) × List Byte)
  | 0, b, _, lits, reps, out => if b.left = 0 && !b.past then some (lits, reps, out) else none
  | n + 1, b, (sl, so, sm), lits, reps, out =>
    let cl := t.ll.cell sl
    let co := t.off.cell so
    let cm := t.ml.cell sm
    let value := 2 ^ co.sym + b.peek co.sym
    let b := b.skip co.sym
    let m := (mlCode cm.sym).1 + b.peek (mlCode cm.sym).2
    let b := b.skip (mlCode cm.sym).2
    let l := (llCode cl.sym).1 + b.peek (llCode cl.sym).2
    let b := b.skip (llCode cl.sym).2
    let u := useOffset value l reps
    let out := (lits.take l).reverse ++ out
    if b.past || lits.length < l || !t.reach u.1 out.length then none else
    let out := copyMatch t.dict u.1 m out
    if n = 0 then runSeqs t 0 b (0, 0, 0) (lits.drop l) u.2 out
    else
      let sl := cl.base + b.peek cl.bits
      let b := b.skip cl.bits
      let sm := cm.base + b.peek cm.bits
      let b := b.skip cm.bits
      let so := co.base + b.peek co.bits
      let b := b.skip co.bits
      if b.past then none else runSeqs t n b (sl, so, sm) (lits.drop l) u.2 out

/-- The number of sequences, and how many bytes it takes. -/
def seqCount (bs : List Byte) : Option (Nat × Nat) :=
  match bs with
  | [] => none
  | a :: l =>
    if a.toNat < 128 then some (a.toNat, 1)
    else match l with
      | [] => none
      | b :: l =>
        if a.toNat < 255 then some ((a.toNat - 128) * 256 + b.toNat, 2)
        else match l with
          | [] => none
          | c :: _ => some (b.toNat + c.toNat * 256 + 0x7F00, 3)

/-- A compressed block. -/
def compressedBlock (window : Nat) (dict : List Byte) (z : ZState) (bs : List Byte) : Option ZState :=
  match readLiterals z.huf bs with
  | none => none
  | some (lits, used, huf) =>
    let bs := bs.drop used
    match seqCount bs with
    | none => none
    | some (n, k) =>
      if n = 0 then (if bs.length = k then some { z with huf, out := lits.reverse ++ z.out } else none) else
      match bs[k]? with
      | none => none
      | some m =>
        let bs := bs.drop (k + 1)
        if bits m.toNat 0 2 ≠ 0 then none else
        match seqTable (bits m.toNat 6 2) 9 35 (FseTable.build 6 defaultLl) z.ll bs with
        | none => none
        | some (tl, ul) =>
          match seqTable (bits m.toNat 4 2) 8 31 (FseTable.build 5 defaultOff) z.off (bs.drop ul) with
          | none => none
          | some (tof, uo) =>
            match seqTable (bits m.toNat 2 2) 9 52 (FseTable.build 6 defaultMl) z.ml (bs.drop (ul + uo)) with
            | none => none
            | some (tm, um) =>
              match BackBits.start (bs.drop (ul + uo + um)) with
              | none => none
              | some b0 =>
                let b1 := b0.skip tl.log
                let b2 := b1.skip tof.log
                let b3 := b2.skip tm.log
                if b3.past then none else
                match runSeqs { window, dict, ll := tl, off := tof, ml := tm } n b3
                    (b0.peek tl.log, b1.peek tof.log, b2.peek tm.log) lits z.reps z.out with
                | none => none
                | some (rest, reps, out) =>
                  some { huf, ll := some tl, off := some tof, ml := some tm, reps, out := rest.reverse ++ out }

/-- The blocks of a frame: the state behind the last one and the bytes behind it. -/
def zBlocks (window : Nat) (dict : List Byte) : Nat → ZState → List Byte → Option (ZState × List Byte)
  | 0, _, _ => none
  | fuel + 1, z, bs =>
    let h := leNat (bs.take 3)
    let size := h / 8
    let limit := min window 131072
    let body := bs.drop 3
    let kind := bits h 1 2
    let held := if kind = 1 then 1 else size
    if bs.length < 3 ∨ body.length < held ∨ limit < size then none else
    let next := if kind = 0 then some { z with out := (body.take size).reverse ++ z.out }
      else if kind = 1 then some { z with out := List.replicate size (body.headD 0) ++ z.out }
      else if kind = 2 then compressedBlock window dict z (body.take size)
      else none
    match next with
    | none => none
    | some z' =>
      if limit < z'.out.length - z.out.length then none
      else if bitAt h 0 then some (z', body.drop held) else zBlocks window dict fuel z' (body.drop held)

/-! ### The checksum (XXH64, named by RFC 8878) -/

def xxP1 : DWord := 0x9E3779B185EBCA87
def xxP2 : DWord := 0xC2B2AE3D27D4EB4F
def xxP3 : DWord := 0x165667B19E3779F9
def xxP4 : DWord := 0x85EBCA77C2B2AE63
def xxP5 : DWord := 0x27D4EB2F165667C5

def xxRound (acc x : DWord) : DWord := (acc + x * xxP2).rotateLeft 31 * xxP1
def xxMerge (h acc : DWord) : DWord := (h ^^^ xxRound 0 acc) * xxP1 + xxP4

/-- The last bytes of the input: eights, a four, ones. -/
def xxTail : Nat → DWord → List Byte → DWord
  | 0, h, _ => h
  | fuel + 1, h, bs =>
    if 8 ≤ bs.length then
      xxTail fuel ((h ^^^ xxRound 0 (BitVec.ofNat 64 (leNat (bs.take 8)))).rotateLeft 27 * xxP1 + xxP4) (bs.drop 8)
    else if 4 ≤ bs.length then
      xxTail fuel ((h ^^^ BitVec.ofNat 64 (leNat (bs.take 4)) * xxP1).rotateLeft 23 * xxP2 + xxP3) (bs.drop 4)
    else match bs with
      | [] => h
      | b :: l => xxTail fuel ((h ^^^ b.setWidth 64 * xxP5).rotateLeft 11 * xxP1) l

/-- XXH64 with seed 0. -/
def xxh64 (bs : List Byte) : DWord :=
  let n := bs.length / 32
  let lanes := (chop 32 n bs).foldl (fun a s =>
    List.zipWith (fun x w => xxRound x (BitVec.ofNat 64 (leNat w))) a (chop 8 4 s)) [xxP1 + xxP2, xxP2, 0, 0 - xxP1]
  let a (i : Nat) : DWord := lanes.getD i 0
  let h := if n = 0 then xxP5
    else lanes.foldl xxMerge ((a 0).rotateLeft 1 + (a 1).rotateLeft 7 + (a 2).rotateLeft 12 + (a 3).rotateLeft 18)
  let h := xxTail 32 (h + BitVec.ofNat 64 bs.length) (bs.drop (32 * n))
  let h := (h ^^^ h >>> 33) * xxP2
  let h := (h ^^^ h >>> 29) * xxP3
  h ^^^ h >>> 32

/-! ### The frame (R103, RFC 8878 3.1.1) -/

/-- One frame, with nothing behind it, expanded with a raw-content dictionary. R103: a dictionary id that is absent or 0, a
window of at most 8 MiB, a content checksum checked when present. -/
def zstdExpand (dict frame : List Byte) : Option (List Byte) :=
  let d := (frame.getD 4 0).toNat
  let single := bitAt d 5
  let wl := if single then 0 else 1
  let dl := [0, 1, 2, 4].getD (bits d 0 2) 0
  let fl := [if single then 1 else 0, 2, 4, 8].getD (bits d 6 2) 0
  let wd := (frame.getD 5 0).toNat
  let rest := frame.drop (5 + wl)
  let size := leNat ((rest.drop dl).take fl) + (if fl = 2 then 256 else 0)
  let base := 2 ^ (10 + wd / 8)
  let window := if single then size else base + base / 8 * (wd % 8)
  if leNat (frame.take 4) ≠ 0xFD2FB528 ∨ frame.length < 5 + wl + dl + fl ∨ bitAt d 3 ∨ leNat (rest.take dl) ≠ 0
      ∨ 2 ^ 23 < window then none else
  match zBlocks window dict.reverse frame.length { huf := none, ll := none, off := none, ml := none, reps := (1, 4, 8), out := [] }
      (rest.drop (dl + fl)) with
  | none => none
  | some (z, tail) =>
    let out := z.out.reverse
    let check := if bitAt d 2 then leBytes 4 (xxh64 out).toNat else []
    if (fl = 0 ∨ out.length = size) ∧ tail = check then some out else none

end Sys2Proof.Machine
end

