-- ==== Sys2Proof/Machine/Uploads.lean ====
section
/-! DEFINITION. Upload of a Nyfer object (05 R100 to R110): the checks of R109, the expansion of sections, relocation, and
the event UPLOAD. -/

namespace Sys2Proof.Machine

/-! ### The object (R100 to R107) -/

/-- A section-table entry (R102). -/
structure Section where
  kind : Nat
  comp : Nat
  align : Nat
  payoff : Nat
  stored : Nat
  dictoff : Nat
  dictsz : Nat
  bound : Nat
  reloff : Nat
  nrel : Nat
  deriving DecidableEq, Repr

/-- A relocation record (R105). -/
structure Reloc where
  offset : Nat
  type : Nat
  target : Nat
  addend : DWord
  deriving DecidableEq, Repr

def objNsec (ob : List Byte) : Nat := field ob 8 2
def objSecoff (ob : List Byte) : Nat := field ob 12 4
def objColoff (ob : List Byte) : Nat := field ob 16 4
def objSize (ob : List Byte) : Nat := field ob 20 4
def objEntoff (ob : List Byte) : Nat := field ob 28 4
def objNent (ob : List Byte) : Nat := field ob 32 2
def objNreg (ob : List Byte) : Nat := field ob 34 2
def objRegoff (ob : List Byte) : Nat := field ob 36 4
def objStroff (ob : List Byte) : Nat := field ob 40 4
def objStrsz (ob : List Byte) : Nat := field ob 44 4

/-- The section-table entry at a byte offset. -/
def sectionAt (ob : List Byte) (o : Nat) : Section :=
  { kind := field ob o 1, comp := field ob (o + 1) 1, align := field ob (o + 2) 1, payoff := field ob (o + 4) 4,
    stored := field ob (o + 8) 4, dictoff := field ob (o + 12) 4, dictsz := field ob (o + 16) 4, bound := field ob (o + 20) 4,
    reloff := field ob (o + 24) 4, nrel := field ob (o + 28) 4 }

/-- The section table. -/
def objSections (ob : List Byte) : List Section :=
  (List.range (objNsec ob)).map (fun i => sectionAt ob (objSecoff ob + 32 * i))

/-- The relocations of a section. -/
def relocsOf (ob : List Byte) (x : Section) : List Reloc :=
  (List.range x.nrel).map (fun i =>
    let o := x.reloff + 16 * i
    { offset := field ob o 4, type := field ob (o + 4) 1, target := field ob (o + 5) 1, addend := BitVec.ofNat 64 (field ob (o + 8) 8) })

/-- Whether a table or payload of the object lies before its colophon, 4-byte aligned behind the header (R100); the offset of an
empty one lies in the object. A misaligned offset lies outside the places that R100 gives (cause 3; log 43). -/
def objInside (ob : List Byte) (off n : Nat) : Bool :=
  if n = 0 then off < objSize ob else off % 4 == 0 && 64 ≤ off && off + n ≤ objColoff ob

/-- Every table of the object lies inside it (R109, cause 3). R109 names no cause for a section count or region count that R101 does
not allow, nor for a size field that is not the length read or not the colophon's end; each is a size outside the object here, cause 3
(DESIGN CHOICE, log 43). -/
def tablesInside (ob : List Byte) (len : Nat) : Bool :=
  objSize ob == len && objColoff ob % 4 == 0 && objColoff ob + 7908 == objSize ob && 1 ≤ objNsec ob && objNsec ob ≤ 255
    && objNreg ob ≤ 16 && objInside ob (objSecoff ob) (32 * objNsec ob) && objInside ob (objEntoff ob) (16 * objNent ob)
    && objInside ob (objRegoff ob) (32 * objNreg ob) && objInside ob (objStroff ob) (objStrsz ob)

/-- A string of the pool begins and ends in it. -/
def stringExists (ob : List Byte) (name : Nat) : Bool :=
  name < objStrsz ob && ((ob.drop (objStroff ob + name)).take (objStrsz ob - name)).contains 0

/-- Cause 1 outside the tables: magic, version, tag, fields that must be 0 (R101, R107), the offset of an empty table among
them. -/
def headerBad (ob : List Byte) : Bool :=
  (objNent ob == 0 && objEntoff ob != 0) || (objNreg ob == 0 && objRegoff ob != 0) || (objStrsz ob == 0 && objStroff ob != 0) ||
  field ob 0 4 != 0x5246594E || field ob 4 2 != 1 || field ob 10 2 != 0 || field ob 24 4 != 0 || field ob 48 16 != 0

/-- Cause 1 in the colophon. -/
def colophonBad (ob : List Byte) : Bool :=
  let o := objColoff ob
  field ob o 4 != 0x4E4F4C43 || field ob (o + 4) 2 != 1 || field ob (o + 6) 2 != 0

/-- Fields of section, entry, region and relocation records that must be 0 (R102, R105, R106). -/
def recordsBad (ob : List Byte) : Bool :=
  (List.range (objNsec ob)).any (fun i => field ob (objSecoff ob + 32 * i + 3) 1 != 0)
    || (List.range (objNent ob)).any (fun i =>
      let o := objEntoff ob + 16 * i
      field ob (o + 10) 6 != 0 || 1 < field ob (o + 9) 1)
    || (List.range (objNreg ob)).any (fun i => field ob (objRegoff ob + 32 * i + 18) 14 != 0)
    || (objSections ob).any (fun x => x.nrel == 0 && x.reloff != 0)
    || (objSections ob).any (fun x => objInside ob x.reloff (16 * x.nrel)
      && (List.range x.nrel).any (fun i => field ob (x.reloff + 16 * i + 6) 2 != 0))

/-- Cause 2: a reserved kind or compression code. -/
def codesBad (ob : List Byte) : Bool := (objSections ob).any (fun x => x.kind == 0 || 4 < x.kind || 1 < x.comp)

/-- Cause 3 in the records: what they name lies outside the object or does not exist. A bound that is no multiple of 4 and an
alignment that R102 does not allow count as such; R109 names no cause of theirs (log 43). -/
def namesBad (ob : List Byte) : Bool :=
  (objSections ob).any (fun x => !objInside ob x.payoff x.stored || !objInside ob x.dictoff x.dictsz
      || !objInside ob x.reloff (16 * x.nrel) || x.bound % 4 != 0 || x.align < 2 || 16 < x.align)
    || (List.range (objNent ob)).any (fun i =>
      let o := objEntoff ob + 16 * i
      objNsec ob ≤ field ob (o + 8) 1 || !stringExists ob (field ob o 4))
    || (List.range (objNreg ob)).any (fun i =>
      let o := objRegoff ob + 32 * i
      15 < field ob (o + 16) 1 || (field ob (o + 17) 1 != 255 && objNsec ob ≤ field ob (o + 17) 1))

/-- Causes 1 to 4 of R109, the lowest that holds. -/
def objCause (ob : List Byte) (len : Nat) : Option Nat :=
  if headerBad ob then some 1
  else if !tablesInside ob len then some 3
  else if colophonBad ob || recordsBad ob then some 1
  else if codesBad ob then some 2
  else if namesBad ob then some 3
  else if sha256 (ob.take (objColoff ob)) != (ob.drop (objColoff ob + 16)).take 32 then some 4
  else none

/-! ### Expansion and relocation (R103 to R105) -/

/-- What a section's payload expands to, or the cause 5 or 6. -/
def expandSection (ob : List Byte) (x : Section) : Except Nat (List Byte) :=
  let pay := (ob.drop x.payoff).take x.stored
  let dict := (ob.drop x.dictoff).take x.dictsz
  let r : Option (List Byte) :=
    if x.kind = 4 then (if x.stored = 0 ∧ x.comp = 0 ∧ x.dictsz = 0 then some [] else none)
    else if x.comp = 0 then some pay
    else zstdExpand dict pay
  match r with
  | none => .error 5
  | some bs => if x.bound < bs.length then .error 6 else .ok bs

/-- Every section expanded. -/
def expandAll (ob : List Byte) : List Section → Except Nat (List (List Byte))
  | [] => .ok []
  | x :: l => match expandSection ob x with
    | .error k => .error k
    | .ok bs => match expandAll ob l with
      | .error k => .error k
      | .ok r => .ok (bs :: r)

/-- The bytes that a relocation type patches, 0 for a reserved type. -/
def relocSize (t : Nat) : Nat := if t = 1 then 8 else if 2 ≤ t ∧ t ≤ 6 then 4 else 0

/-- The offset width of a branch relocation, 0 for the others. -/
def relocBits (t : Nat) : Nat := if t = 4 then 24 else if t = 5 then 21 else if t = 6 then 16 else 0

/-- Whether a relocation of a section of `n` expanded bytes is refused by itself (R105); one of a reserved type patches nothing
that R105 defines, and is refused with the others (cause 7; log 43). -/
def relocBad (bases : List Nat) (n base : Nat) (r : Reloc) : Bool :=
  relocSize r.type == 0 || n < r.offset + relocSize r.type || bases.length ≤ r.target
    || (relocBits r.type != 0 &&
      (let d := BitVec.ofNat 64 (bases.getD r.target 0) + r.addend - BitVec.ofNat 64 (base + r.offset)
       d.toInt % 4 != 0 || d.toInt / 4 < -(2 ^ (relocBits r.type - 1)) || 2 ^ (relocBits r.type - 1) ≤ d.toInt / 4))

/-- The bytes that a relocation puts at its offset over the `old` ones. -/
def relocBytes (bases : List Nat) (base : Nat) (old : List Byte) (r : Reloc) : List Byte :=
  let v := BitVec.ofNat 64 (bases.getD r.target 0) + r.addend
  let k := relocBits r.type
  if r.type = 1 then leBytes 8 v.toNat
  else if r.type = 2 then leBytes 4 v.toNat
  else if r.type = 3 then leBytes 4 (v.toNat / 2 ^ 32)
  else
    let d := v - BitVec.ofNat 64 (base + r.offset)
    leBytes 4 (leNat old / 2 ^ k * 2 ^ k + ((d.toInt / 4) % (2 ^ k : Int)).toNat)

/-- Bytes of a list replaced from an offset on. -/
def patchBytes (bs : List Byte) (off : Nat) (new : List Byte) : List Byte :=
  bs.take off ++ new ++ bs.drop (off + new.length)

/-- The relocations of a section applied; `none` where one is refused. -/
def relocate (bases : List Nat) (n base : Nat) (rs : List Reloc) (bs : List Byte) : Option (List Byte) :=
  if rs.any (relocBad bases n base) || anyOverlap (rs.map (fun r => (r.offset, relocSize r.type))) then none
  else some (rs.foldl (fun bs r => patchBytes bs r.offset (relocBytes bases base ((bs.drop r.offset).take 4) r)) bs)

/-- Every section relocated and padded to its bound (R104). -/
def relocateAll (ob : List Byte) (bases : List Nat) : List (Section × Nat × List Byte) → Option (List (List Byte))
  | [] => some []
  | (x, base, bs) :: l =>
    match relocate bases bs.length base (relocsOf ob x) bs, relocateAll ob bases l with
    | some r, some rest => some ((r ++ List.replicate (x.bound - r.length) 0) :: rest)
    | _, _ => none

/-- The sections of an object built as proof copies, or the cause 5, 6 or 7. -/
def buildSections (ob : List Byte) (bases : List Nat) : Except Nat (List (List Byte)) :=
  match expandAll ob (objSections ob) with
  | .error k => .error k
  | .ok bss => match relocateAll ob bases ((objSections ob).zip (bases.zip bss)) with
    | none => .error 7
    | some r => .ok r

/-! ### UPLOAD (R108, R109, R258) -/

/-- The ranges of the sections. -/
def sectionRanges (c : Command) : List (Nat × Nat) → State → Eng (List (List Piece))
  | [], s => .ok [] s
  | (base, n) :: l, s =>
    (engRange s c .store base n).andThen (fun p s => (sectionRanges c l s).andThen (fun ps s => .ok (p :: ps) s))

/-- Whether an upload in flight claims one of the words (cause 8). -/
def uploadClash (s : State) (c : Command) (ws : List (Nat × DWord)) : Bool :=
  s.commands.any (fun k => k.isUpload && !(k.iod == c.iod && k.n == c.n) && k.claims.any (fun w => ws.any (fun x => x.1 == w.1)))

/-- The proof copies of an upload whose words are claimed. -/
def buildUpload (s : State) (c : Command) (ob : List Byte) (bases : List Nat) (dsts : List (List Piece)) : Eng Command :=
  match buildSections ob bases with
  | .error k => .refuse k s
  | .ok bss => .ok { c with life := .built, out := (dsts.zip bss).flatMap (fun p => overPieces p.1 p.2), posted := [] } s

/-- Steps 1 to 6 of R258 for an upload. -/
def uploadCommand (s : State) (c : Command) : Eng Command :=
  (Eng.require c.wellFormed 9 s).andThen (fun _ s =>
  (engRange s c .load c.srcVa c.len).andThen (fun src s =>
  (cwRange s c).andThen (fun _ s =>
  (Eng.require (windowsInside s c) 12 s).andThen (fun _ s =>
  let r := readPieces s c src
  let x := cmdRace s c r.2
  let c := x.2
  let s := putCmd x.1 c
  let ob := r.1
  (match objCause ob c.len with | some k => Eng.refuse k s | none => Eng.ok () s).andThen (fun _ s =>
  (Eng.require (c.aux % 8 == 0) 9 s).andThen (fun _ s =>
  (engRange s c .load c.aux (8 * objNsec ob)).andThen (fun tbl s =>
  let rt := readPieces s c tbl
  let x := cmdRace s c rt.2
  let c := x.2
  let s := putCmd x.1 c
  let bases := (List.range (objNsec ob)).map (fun i => field rt.1 (8 * i) 8)
  let secs := objSections ob
  let ranges := bases.zip (secs.map Section.bound)
  (Eng.require ((bases.zip secs).all (fun p => p.1 % 2 ^ p.2.align == 0)) 9 s).andThen (fun _ s =>
  (sectionRanges c ranges s).andThen (fun dsts s =>
  (Eng.require (!anyOverlap ((c.srcVa, c.len) :: ranges)) 11 s).andThen (fun _ s =>
  let ws := (dsts.flatMap id).flatMap Piece.words
  (Eng.require (!uploadClash s c ws) 8 s).andThen (fun _ s =>
  (claimAll c ws s).andThen (fun _ s =>
  let c := { c with claims := ws }
  buildUpload (putCmd s c) c ob bases dsts))))))))))))

/-- UPLOAD: an object is checked, expanded and relocated as proof copies. -/
def execUpload (iod n : Nat) (s : State) : Out :=
  match findCmd s iod n with
  | none => .next s
  | some c => if !c.isUpload ∨ c.life ≠ .issued then .next s else .next (engRun c (uploadCommand s c))

end Sys2Proof.Machine
end

