-- ==== Sys2Proof/Machine/Collectives.lean ====
section
/-! DEFINITION. ECOLL (12 R260): the checks of a collective command, its match with the other members' commands, the
quantised reduction with error feedback; ECOLL_COMMAND and COLLECTIVE_MATCH. -/

namespace Sys2Proof.Machine

/-! ### The collective block and the residual header -/

/-- The member of a table entry: package id and I/O die. -/
def memberPkg (e : Nat) : Nat := e % 2 ^ 20
def memberIod (e : Nat) : Nat := bits e 20 1

/-- The fields of the collective block (R260). -/
def collOk (blk : List Byte) : Bool :=
  field blk 40 24 == 0 && 2 ≤ field blk 32 4 && field blk 32 4 ≤ 4096 && field blk 36 4 < field blk 32 4
    && field blk 16 8 % 64 == 0 && field blk 8 8 != 0 && field blk 0 8 != 0

/-- Whether cause 14 holds for a command by itself: its rank, and the header of its residual region. -/
def collMismatch (s : State) (c : Command) (k : Coll) (hdr : List Byte) : Bool :=
  memberPkg (k.table.getD k.r 0) != s.pkgId.toNat || memberIod (k.table.getD k.r 0) != c.iod
    || (field hdr 0 8 != 0
      && (field hdr 0 8 != k.handle || field hdr 16 8 != c.len || k.step != (field hdr 8 8 + 1) % 2 ^ 64))

/-- Bytes of a range read for a command, with its race, once (R228). -/
def readNoted (s : State) (c : Command) (l : List Piece) : List Byte × Command × State :=
  let r := readPieces s c l
  let x := cmdRace s c r.2
  (r.1, x.2, putCmd x.1 x.2)

/-- The checks of a collective and its claims; the header of its residual region is read once its words are claimed (R232, R258). -/
def ecollCommand (s : State) (c : Command) : Eng Command :=
  (Eng.require c.wellFormed 9 s).andThen (fun _ s =>
  (engRange s c .load c.aux 64).andThen (fun bp s =>
  let rb := readNoted s c bp
  let blk := rb.1
  let c := rb.2.1
  let s := rb.2.2
  (Eng.require (collOk blk) 9 s).andThen (fun _ s =>
  let m := field blk 32 4
  let res := field blk 16 8
  (engRange s c .load (field blk 24 8) (4 * m)).andThen (fun tp s =>
  let rt := readNoted s c tp
  let tbl := rt.1
  let c := rt.2.1
  let s := rt.2.2
  let table := (List.range m).map (fun i => field tbl (4 * i) 4)
  (Eng.require (table.all (fun e => e / 2 ^ 21 == 0)) 9 s).andThen (fun _ s =>
  (engRange s c .load c.srcVa c.len).andThen (fun src s =>
  (engRange s c .store c.dstVa c.len).andThen (fun dst s =>
  (engRange s c .load res (64 + c.len)).andThen (fun _ s =>
  (engRange s c .store res (64 + c.len)).andThen (fun residual s =>
  (cwRange s c).andThen (fun _ s =>
  (Eng.require (windowsInside s c) 12 s).andThen (fun _ s =>
  (Eng.require (!anyOverlap [(c.srcVa, c.len), (c.dstVa, c.len), (res, 64 + c.len)]) 11 s).andThen (fun _ s =>
  let ws := (dst ++ residual).flatMap Piece.words
  (claimAll c ws s).andThen (fun _ s =>
  let c := { c with claims := ws }
  let s := putCmd s c
  let hdr := (readPieces s c residual).1.take 64
  let k : Coll := { handle := field blk 0 8, step := field blk 8 8, m, r := field blk 36 4, table,
                    fresh := field hdr 0 8 == 0, residual }
  (Eng.require (!collMismatch s c k hdr) 14 s).andThen (fun _ s =>
  .ok { c with life := .matching, src, claims := ws, out := dst.map (fun p => (p, [])), coll := some k, posted := [] }
    s))))))))))))))

/-- ECOLL_COMMAND: a collective is checked, its destinations are claimed, and it waits for all members. -/
def execEcollCommand (iod n : Nat) (s : State) : Out :=
  match findCmd s iod n with
  | none => .next s
  | some c => if c.op ≠ 2 ∨ c.life ≠ .issued then .next s else .next (engRun c (ecollCommand s c))

/-! ### The reduction -/

/-- The f32 words of a byte list. -/
def f32Words (bs : List Byte) : List Nat := (chunksOf 4 (bs.length / 4) bs).map leNat

/-- y[i] := round_rn(f32, x[i] + e[i]). -/
def feedback (xs es : List Nat) : List Nat := (xs.zip es).map (fun p => (fAdd .f32 .rn false p.1 p.2).1)

/-- The values of one block after quantisation, in f32. -/
def quantBlock (ys : List Nat) : List Nat :=
  let q := quantise .bq8 (ys.map (fDecode .f32))
  q.1.map (fun el => (deliver .f32 .rn false (blockVal .bq8 q.2.1 q.2.2.1 el) 0).1)

/-- The values of a member's contribution. -/
def quantAll (ys : List Nat) : List Nat := (chunksOf 32 (ys.length / 32) ys).flatMap quantBlock

/-- e'[i]: what quantisation left of a finite y[i]. -/
def leftover (ys qs : List Nat) : List Nat :=
  (ys.zip qs).map (fun p => match fDecode .f32 p.1 with
    | .fin _ _ _ => (fSub .f32 .rn false p.1 p.2).1
    | .nan _ => 0
    | .inf _ => 0)

/-- The sum over members in ascending rank. -/
def sumMembers : List (List Nat) → List Nat
  | [] => []
  | q :: l => l.foldl (fun acc q => (acc.zip q).map (fun p => (fAdd .f32 .rn false p.1 p.2).1)) q

/-- Words as bytes. -/
def wordBytes (xs : List Nat) : List Byte := xs.flatMap (leBytes 4)

/-- The y of a local member: its source and its residuals, with a race of the source. -/
def memberY (s : State) (c : Command) (k : Coll) : List Nat × Option (Race × DWord) :=
  let r := readPieces s c c.src
  let xs := f32Words r.1
  let es := if k.fresh then List.replicate xs.length 0 else f32Words (((readPieces s c k.residual).1).drop 64)
  (feedback xs es, r.2)

/-- The member of a rank: this package's command, or the next of what the fabric brought. -/
inductive Member
  | here (c : Command) (k : Coll)
  | fabric (x : Contribution)

/-- The commands of this package that wait for a collective of the same handle and step on an I/O die (R260). -/
def waiting (s : State) (k : Coll) (iod : Nat) : List (Command × Coll) :=
  s.commands.filterMap (fun c => match c.coll with
    | some x => if c.life == .matching && c.iod == iod && x.handle == k.handle && x.step == k.step then some (c, x) else none
    | none => none)

/-- The command that stands for rank `i`, none of `used`: the one of that rank that agrees, else one whose table is another, which the
match refuses; no command stands for two ranks. -/
def memberHere (s : State) (k : Coll) (used : List (Nat × Nat)) (i iod : Nat) : Option (Command × Coll) :=
  let l := (waiting s k iod).filter (fun p => !used.contains (p.1.iod, p.1.n))
  match l.find? (fun p => p.2.r == i && p.2.m == k.m && p.2.table == k.table) with
  | some p => some p
  | none => l.find? (fun p => p.2.m != k.m || p.2.table != k.table)

/-- The members in rank order; `none` while one has not issued its command. -/
def gather (s : State) (k : Coll) : List (Nat × Nat) → Nat → List Nat → List Contribution → Option (List Member)
  | _, _, [], [] => some []
  | _, _, [], _ :: _ => none
  | used, i, e :: l, others =>
    if memberPkg e = s.pkgId.toNat then
      match memberHere s k used i (memberIod e) with
      | none => none
      | some (c, x) => (gather s k ((c.iod, c.n) :: used) (i + 1) l others).map (fun r => .here c x :: r)
    else match others with
      | [] => none
      | x :: rest => (gather s k used (i + 1) l rest).map (fun r => .fabric x :: r)

/-- Whether a member agrees with a command on m, len and the member table. -/
def memberAgrees (c : Command) (k : Coll) : Member → Bool
  | .here d x => x.m == k.m && d.len == c.len && x.table == k.table
  | .fabric x => x.m == k.m && x.ys.length * 4 == c.len && x.table == k.table

/-- The y of a member. -/
def Member.ys (s : State) : Member → List Nat
  | .here c k => (memberY s c k).1
  | .fabric x => x.ys.map (·.toNat)

/-- The proof copy of a local member: the output, and its residual region. -/
def buildMember (sum : List Nat) (s0 s : State) : Member → State
  | .fabric _ => s
  | .here c k =>
    let y := memberY s0 c k
    let header := leBytes 8 k.handle ++ leBytes 8 k.step ++ leBytes 8 c.len ++ List.replicate 40 0
    let x := cmdRace s c y.2
    putCmd x.1 { x.2 with
      life := .built,
      out := overPieces (c.out.map (·.1)) (wordBytes sum)
        ++ overPieces k.residual (header ++ wordBytes (leftover y.1 (quantAll y.1))) }

/-- A local member refused with cause 14. -/
def refuseMember (s : State) : Member → State
  | .fabric _ => s
  | .here c _ => refuseCmd s c 14

/-- COLLECTIVE_MATCH: every member has issued its command, and the reduction proceeds; `others` are the commands of the members
on other packages, in rank order. -/
def execCollectiveMatch (iod n : Nat) (others : List Contribution) (s : State) : Out :=
  match findCmd s iod n with
  | none => .next s
  | some c => match c.coll, c.life with
    | some k, .matching => (match gather s k [] 0 k.table others with
      | none => .next s
      | some ms =>
        if ms.all (memberAgrees c k) then
          let sum := sumMembers (ms.map (fun m => quantAll (m.ys s)))
          .next (ms.foldl (buildMember sum s) s)
        else .next (ms.foldl refuseMember s))
    | _, _ => .next s

end Sys2Proof.Machine
end

