-- ==== Sys2Proof/Machine/ControlFlow.lean ====
section
/-! DEFINITION. The meanings of branches and calls (R192), EXIT and YIELD (R193, R194), BRD and JOIN (R195 to R197), SETW
and ENDW (R176 to R178). -/

namespace Sys2Proof.Machine

/-! ### Branches and calls (R192) -/

/-- How a branch issues. -/
def jumpInfo (w : Bool) : IssueInfo := { cls := .both, w, touch := false, fence := false, rel := false }

/-- A signed word offset from a pc. -/
def pcPlus {n : Nat} (pc : DWord) (off : BitVec n) : DWord := pc + off.signExtend 64 * 4

/-- The control core's pc set. -/
def jumpCtl (s : State) (cc : Nat) (pc : DWord) : State := modCtl s cc (fun c => { c with pc })

def execBra (o : JumpOp) (s : State) : Out :=
  issue (.bra o) (jumpInfo o.w) s (fun c s => jump s c (pcPlus c.fr.pc o.off))
    (fun cc c s => jumpCtl s cc (pcPlus c.pc o.off))

/-- s63 takes the return address and the pc the target. -/
def callFrag (c : Cx) (s : State) (target : DWord) : State := jump (putRegs s c [(.s 63, c.fr.pc + 4)]) c target
def callCtl (cc : Nat) (c : Ctl) (s : State) (target : DWord) : State :=
  modCtl s cc (fun k => { k.setS 63 (c.pc + 4) with pc := target })

def execCall (o : JumpOp) (s : State) : Out :=
  issue (.call o) (jumpInfo o.w) s (fun c s => callFrag c s (pcPlus c.fr.pc o.off))
    (fun cc c s => callCtl cc c s (pcPlus c.pc o.off))

def execBrc (o : BrcOp) (s : State) : Out :=
  issue (.brc o) (jumpInfo o.w) s
    (fun c s => if xor (c.k s.free 0 o.k.toNat) o.neg then jump s c (pcPlus c.fr.pc o.off) else advance s c 4)
    (fun cc c s => if xor (c.kreg o.k.toNat) o.neg then jumpCtl s cc (pcPlus c.pc o.off) else advanceCtl s cc 4)

/-- A register target: MISALIGN before any effect where its low two bits are not 0 (R70). -/
def targetFrag (c : Cx) (n : Nat) (body : State → DWord → State) (s : State) : State :=
  let x := c.s s.free 0 n
  if x.toNat % 4 ≠ 0 then raiseFrag s c 3 x c.low (some c.fr.pc) else body s x
def targetCtl (cc : Nat) (c : Ctl) (n : Nat) (body : State → DWord → State) (s : State) : State :=
  if (c.sreg n).toNat % 4 ≠ 0 then raiseCtl s cc 3 (c.sreg n) 0 else body s (c.sreg n)

def execBraRegister (o : SrcOp) (s : State) : Out :=
  issue (.braRegister o) (jumpInfo o.w) s (fun c s => targetFrag c o.sa.toNat (fun s x => jump s c x) s)
    (fun cc c s => targetCtl cc c o.sa.toNat (fun s x => jumpCtl s cc x) s)

def execCallRegister (o : SrcOp) (s : State) : Out :=
  issue (.callRegister o) (jumpInfo o.w) s (fun c s => targetFrag c o.sa.toNat (callFrag c) s)
    (fun cc c s => targetCtl cc c o.sa.toNat (callCtl cc c) s)

def execRet (o : SrcOp) (s : State) : Out :=
  issue (.ret o) (jumpInfo o.w) s (fun c s => targetFrag c o.sa.toNat (fun s x => jump s c x) s)
    (fun cc c s => targetCtl cc c o.sa.toNat (fun s x => jumpCtl s cc x) s)

/-! ### EXIT (R193, R309, R311) -/

/-- The trap queue and the handler state as fragment `f` exits, `rest` being the fragments that stay: a handler whose last
thread exits ends without resuming anything, and ENGINE entries go to the fragment with the lowest %tid. -/
def Group.afterExit (gr : Group) (f : Nat) (mask : Mask) : Group :=
  let rest := gr.frags.filter (fun x => x.id != f)
  let low (l : List Frag) : Nat := ((lowestMember l).map (·.id)).getD 0
  let move (old new : Nat) (e : TrapEntry) : TrapEntry := if e.frag == old then { e with frag := new } else e
  let kept (old : Nat) (q : List TrapEntry) : List TrapEntry :=
    (q.filter (fun e => e.frag != old || e.cause == 16)).map (move old (low rest))
  match gr.handler with
  | none => { gr with frags := rest, trapQ := kept f gr.trapQ }
  | some h =>
    let m := h.mask &&& ~~~mask
    if m = 0 then { gr with frags := rest, trapQ := kept h.frag (gr.trapQ.drop 1), handler := none }
    else if h.frag = f then
      let n := low (rest.filter (fun x => x.mask &&& m != 0))
      { gr with frags := rest, trapQ := gr.trapQ.map (move f n), handler := some { frag := n, mask := m } }
    else { gr with frags := rest, handler := some { h with mask := m } }

/-- Whether the issuing fragment is the last of its group. -/
def Cx.isLast (c : Cx) : Bool := (c.gr.frags.filter (fun x => x.id != c.f)).isEmpty

/-- The issuing fragment ends; the release of an ending group (R299) waits on homes that are offline (R236). -/
def exitBody (c : Cx) (s : State) : State :=
  if c.isLast && c.gr.run.isNone && ownsOffline s (.group c.g) then parkHome s c (offlineOf s (.group c.g)) else
  let s := endChain s c
  let s := modGroup s c.g (fun gr =>
    { gr.afterExit c.f c.fr.mask with
      older := gr.older.filter (fun o => o.frag != c.f), shared := gr.shared.filter (fun o => o.frag != c.f) })
  if c.isLast then groupEnd s c.g
  else refillSlots (tryMerges s c.g c.fr.toks) c.gr.place

def execExit (o : WOp) (s : State) : Out :=
  issue (.exit o) { cls := .compute, w := true, touch := true, fence := true, rel := false } s exitBody noCtl

/-! ### YIELD (R194) -/

/-- The oldest ready fragment of a core other than the issuing one. -/
def oldestOther (s : State) (c : Cx) : Option Party :=
  (oldestOf ((readyOn s c.gr.place).filter (fun p => !(p.1 == c.g && p.2.id == c.f)))).map (fun p => .frag p.1 p.2.id)

/-- The next issue slot of a core goes to a party, which is the one that the core favours from then on (R49). -/
def giveTurn (s : State) (core : Nat) (p : Party) : State :=
  { modCore s core (fun k => { k with turn := p }) with cur := p }

def execYieldSlot (o : WOp) (s : State) : Out :=
  issue (.yieldSlot o) { cls := .both, w := true, touch := false, fence := false, rel := false } s
    (fun c s => giveTurn (advance s c 4) c.gr.place ((oldestOther s c).getD s.cur))
    (fun cc _ s => advanceCtl s cc 4)

/-! ### BRD and JOIN (R195 to R197, R38, R40) -/

/-- What a new fragment of a split takes over from its parent beside its tokens and arrivals: the program order up to the BRD
with what is parked or outstanding in it (R217, R71), and what it may still read. -/
def Group.inherit (gr : Group) (f new : Nat) : Group :=
  { gr with
    log := gr.log.map (fun e => if precedes f e.frag e.heirs then { e with heirs := new :: e.heirs } else e),
    older := gr.older ++ (gr.older.filter (fun o => o.frag == f)).map (fun o => { o with frag := new }),
    shared := gr.shared ++ (gr.shared.filter (fun o => o.frag == f)).map (fun o => { o with frag := new }) }

/-- The split: `taken` threads go to `target`, the others to the next instruction. -/
def splitFrag (c : Cx) (s : State) (tok : Nat) (taken : Mask) (target : DWord) : State :=
  let other := c.fr.mask &&& ~~~taken
  let nt := (threadsOf taken c.gr.size).length
  let no := (threadsOf other c.gr.size).length
  let next := c.fr.pc + 4
  let minor : Mask × DWord := if nt ≤ no then (taken, target) else (other, next)
  let major : Mask × DWord := if nt ≤ no then (other, next) else (taken, target)
  let free := slotFree s c.gr
  let out := if free then none else victim c.gr c.f
  if !free && fstackOf s c.gr.ctx < c.gr.spilledCount + 1 then
    raiseFrag s c 13 0 (BitVec.ofNat 64 c.gr.spilledCount) (some c.fr.pc)
  else
    let slot := if free then some (c.gr.takeIndex s.free c.g) else out.bind (·.slot)
    let toks := tabSet c.fr.toks tok c.gr.nextSplit
    let new : Frag :=
      { id := c.gr.nextFrag, slot, mask := minor.1, pc := minor.2, toks, arr := c.fr.arr, wait := .run, since := clk s,
        passed := 0, urgent := false, spilled := s.nextId }
    let change (x : Frag) : Frag :=
      if x.id == c.f then { x with mask := major.1, pc := major.2, toks }
      else if out.any (fun v => v.id == x.id) then { x with slot := none, spilled := s.nextId } else x
    let heirs (k : Chunk) : Chunk :=
      if k.g == c.g && precedes c.f k.f k.heirs then { k with heirs := c.gr.nextFrag :: k.heirs } else k
    { modGroup { s with chunks := s.chunks.map heirs } c.g (fun gr =>
        ({ gr with frags := gr.frags.map change ++ [new], nextFrag := gr.nextFrag + 1, nextSplit := gr.nextSplit + 1 } : Group).inherit
          c.f c.gr.nextFrag) with nextId := s.nextId + 1 }

def brdBody (o : BrdOp) (c : Cx) (s : State) : State :=
  let taken : Mask := (threadsOf c.fr.mask c.gr.size).foldl
    (fun m t => if xor (c.q s.free 0 t o.q.toNat) o.neg then m ||| BitVec.ofNat 256 (2 ^ t) else m) 0
  let target := pcPlus c.fr.pc o.off
  if taken = c.fr.mask then jump s c target
  else if taken = 0 then advance s c 4
  else if (tabFind c.fr.toks o.tok.toNat).isSome then raiseFrag s c 1 0 (wordOf (.brd o)) (some c.fr.pc)
  else splitFrag c s o.tok.toNat taken target

def execBrd (o : BrdOp) (s : State) : Out :=
  issue (.brd o) { cls := .lane, w := o.w, touch := false, fence := false, rel := false } s (brdBody o) noCtl

def joinBody (o : JoinOp) (c : Cx) (s : State) : State :=
  match tabFind c.fr.toks o.tok.toNat with
  | none => advance s c 4
  | some id => tryMerge (park s c (.join o.tok.toNat)) c.g o.tok.toNat id

def execJoin (o : JoinOp) (s : State) : Out :=
  issue (.join o) { cls := .lane, w := o.w, touch := false, fence := false, rel := false } s (joinBody o) noCtl

/-! ### SETW and ENDW (R176 to R178, R33 to R36) -/

/-- The smallest power of two not below a request of 1 to 128 lanes. -/
def grantCeil (n : Nat) : Nat :=
  if n ≤ 4 then 4 else if n ≤ 8 then 8 else if n ≤ 16 then 16 else if n ≤ 32 then 32 else if n ≤ 64 then 64 else 128

/-- The grant of a SETW (R34). -/
def setwGrant (s : State) (c : Cx) (n : Nat) : Nat :=
  grantFloor (min (min (grantCeil n) (offer s c.gr.place c.g c.gr.ctx)) c.gr.size)

/-- A register request: 0 is read as 1, above 128 as 128. -/
def setwRequest (x : DWord) : Nat := min 128 (max 1 x.toNat)

/-- A width region opens. -/
def setwBody (i : Instr) (restartable : Bool) (request : State → Cx → Nat) (c : Cx) (s : State) : State :=
  if c.gr.region.isSome || 1 < c.gr.frags.length then raiseFrag s c 1 0 (wordOf i) (some c.fr.pc)
  else
    let n := request s c
    let r : Region := { setwPc := c.fr.pc, request := n, restartable, mask := c.fr.mask, toks := c.fr.toks, mark := s.nextId }
    advance (modGroup s c.g (fun gr => { gr with region := some r, grant := setwGrant s c n })) c 8

/-- How SETW and ENDW issue. -/
def setwInfo : IssueInfo := { cls := .compute, w := true, touch := false, fence := false, rel := false }

def execSetwImmediate (o : SetwImmOp) (s : State) : Out :=
  issue (.setwImmediate o) setwInfo s (setwBody (.setwImmediate o) false (fun _ _ => o.n.toNat)) noCtl
def execSetwRImmediate (o : SetwImmOp) (s : State) : Out :=
  issue (.setwRImmediate o) setwInfo s (setwBody (.setwRImmediate o) true (fun _ _ => o.n.toNat)) noCtl
def execSetwRegister (o : SrcOp) (s : State) : Out :=
  issue (.setwRegister o) setwInfo s
    (setwBody (.setwRegister o) false (fun s c => setwRequest (c.s s.free 0 o.sa.toNat))) noCtl
def execSetwRRegister (o : SrcOp) (s : State) : Out :=
  issue (.setwRRegister o) setwInfo s
    (setwBody (.setwRRegister o) true (fun s c => setwRequest (c.s s.free 0 o.sa.toNat))) noCtl

def endwBody (o : WOp) (c : Cx) (s : State) : State :=
  if c.gr.region.isNone || 1 < c.gr.frags.length then raiseFrag s c 1 0 (wordOf (.endw o)) (some c.fr.pc)
  else
    let s := modGroup s c.g (fun gr => { gr with region := none })
    advance (modGroup s c.g (fun gr => { gr with grant := plainGrant s c.gr.place c.g c.gr.size c.gr.ctx })) c 4

def execEndw (o : WOp) (s : State) : Out := issue (.endw o) setwInfo s (endwBody o) noCtl

end Sys2Proof.Machine
end

