-- ==== Sys2Proof/Machine/LaneArith.lean ====
section
/-! DEFINITION. The meanings of lane arithmetic (08 R150 to R175) and of the special-register form of MOV (R114): each
acts on every active thread that its guard lets through, reads before it writes (R151), and moves the pc on. -/

namespace Sys2Proof.Machine

/-! ### The shared form (R150, R151, R154) -/

/-- What a thread's part of a lane instruction gives: register writes and flags. -/
abbrev LaneOut := List (RegKey × DWord) × Fl

/-- How a lane instruction without memory issues. -/
def laneInfo (w : Bool) : IssueInfo := { cls := .lane, w, touch := false, fence := false, rel := false }

/-- Every thread's part, from registers as they were, then all writes and flags, then the pc. -/
def laneBody (len : Nat) (g : Option GuardQ) (f : Cx → Nat → Nat → LaneOut) (c : Cx) (s : State) : State :=
  let outs := (c.active s.free g).map (fun t => (t, f c s.free t))
  advance (modGroup s c.g (fun gr =>
    (gr.writes c.f (outs.flatMap (fun p => p.2.1))).orFlags (outs.map (fun p => (p.1, p.2.2))))) c len

/-- A lane instruction of `len` bytes. -/
def laneOp (i : Instr) (w : Bool) (len : Nat) (g : Option GuardQ) (f : Cx → Nat → Nat → LaneOut) (s : State) : Out :=
  issue i (laneInfo w) s (laneBody len g f) noCtl

/-! ### Results on patterns -/

/-- R127, R157: an exact integer, clamped under `.sat`, as a pattern of the type. -/
def intResult (t : IntTy) (sat : Bool) (x : Int) : Nat := wrapNat t.width (if sat then clampTo t x else x)

/-- R157 IMUL. -/
def mulResult (t : IntTy) (m : MulMode) (a b : Int) : Nat :=
  match m with
  | .wrap => intResult t false (a * b)
  | .sat => intResult t true (a * b)
  | .hi => wrapNat t.width (a * b / 2 ^ t.width)

/-- R159: shifts of a `w`-bit pattern by a count taken modulo `w`. -/
def shlBits (w a n : Nat) : Nat := a * 2 ^ (n % w) % 2 ^ w
def shrBits (w a n : Nat) : Nat := a / 2 ^ (n % w)
def shaBits (w a n : Nat) : Nat :=
  if a / 2 ^ (w - 1) % 2 = 1 then 2 ^ w - 1 - (2 ^ w - 1 - a) / 2 ^ (n % w) else a / 2 ^ (n % w)

/-- R160: zero bits above the highest one bit. -/
def clzBits (w a : Nat) : Nat := if a = 0 then w else w - 1 - Nat.log2 a

/-- R161: the length of a field cut at the width. -/
def fieldLen (w p n : Nat) : Nat := if w ≤ p ∨ n = 0 then 0 else min n (w - p)

/-- R161 BFX. -/
def bfxBits (w : Nat) (signed : Bool) (a p n : Nat) : Nat :=
  let len := fieldLen w p n
  let f := a / 2 ^ p % 2 ^ len
  if len ≠ 0 && signed && f / 2 ^ (len - 1) % 2 = 1 then f + (2 ^ w - 2 ^ len) else f

/-- R161 BFI. -/
def bfiBits (w a c p n : Nat) : Nat :=
  let len := fieldLen w p n
  if len = 0 then c else c % 2 ^ p + a % 2 ^ len * 2 ^ p + c / 2 ^ (p + len) * 2 ^ (p + len)

/-- The integer type whose extension a bit-field type shares (R126). -/
def BfTy.intTy : BfTy → IntTy
  | .i32 => .i32 | .n32 => .n32 | .i64 => .i64 | .n64 => .n64

/-- R162: the index of LEA extended to 64 bits. -/
def leaIndex (t : IdxTy) (x : Nat) : DWord :=
  match t with
  | .i8 => sext64 8 x
  | .i16 => sext64 16 x
  | .i32 => sext64 32 x
  | .n8 => BitVec.ofNat 64 (x % 2 ^ 8)
  | .n16 => BitVec.ofNat 64 (x % 2 ^ 16)
  | .n32 => BitVec.ofNat 64 (x % 2 ^ 32)

/-- The element size of PACK and UNPK (R175). -/
def packBits : PackTy → Nat
  | .f16 | .bf16 | .i16 | .n16 => 16
  | .i8 | .n8 | .bq8 => 8
  | .bq4 => 4

/-- Whether an element type of PACK and UNPK is a signed integer. -/
def packSigned : PackTy → Bool
  | .i16 | .i8 => true
  | .f16 | .bf16 | .n16 | .n8 | .bq8 | .bq4 => false

/-- R175: the low half of a wider element, clamped under `.sat`. -/
def packElem (t : PackTy) (sat : Bool) (y : Nat) : Nat :=
  let e := packBits t
  if !sat then y % 2 ^ e
  else if packSigned t then
    let v : Int := if 2 ^ (2 * e - 1) ≤ y then (y : Int) - 2 ^ (2 * e) else y
    wrapNat e (max (-(2 ^ (e - 1))) (min v (2 ^ (e - 1) - 1)))
  else min y (2 ^ e - 1)

/-- R175 PACK of two registers. -/
def packWord (t : PackTy) (sat : Bool) (a b : Nat) : Nat :=
  let e := packBits t
  packList e ((List.range (32 / e)).map (fun i =>
    packElem t sat (packed (if i < 16 / e then a else b) (2 * e) (i % (16 / e)))))

/-- R175 UNPK of one half of a register. -/
def unpackWord (t : PackTy) (h a : Nat) : Nat :=
  let e := packBits t
  packList (2 * e) ((List.range (16 / e)).map (fun j =>
    let y := packed a e (h * (16 / e) + j)
    if packSigned t && 2 ^ (e - 1) ≤ y then y + (2 ^ (2 * e) - 2 ^ e) else y))

/-! ### Moves (R155, R114) -/

def execMov (o : MovOp) (s : State) : Out :=
  laneOp (.mov o) o.w 4 none (fun c free t => (outWord t o.vd.toNat (c.v free 1 t o.va.toNat).toNat, 0)) s

/-- R114, R28. -/
def specialValue (c : Cx) (t : Nat) : SpecialReg → Nat
  | .tid => t
  | .pass => t / c.gr.grant
  | .fflags => (tabGet 0 c.gr.fflags t).toNat
  | .grant => c.gr.grant

def execSpecialMov (o : SpecialMovOp) (s : State) : Out :=
  laneOp (.specialMov o) o.w 4 none (fun c _ t => (outWord t o.vd.toNat (specialValue c t o.sel), 0)) s

def execMovi (o : MoviOp) (s : State) : Out :=
  laneOp (.movi o) o.w 4 none (fun _ _ t => (outWord t o.vd.toNat (o.imm.signExtend 32).toNat, 0)) s

def execMoviw (o : MoviwOp) (s : State) : Out :=
  laneOp (.moviw o) o.w 8 none (fun _ _ t => (outWord t o.vd.toNat o.imm.toNat, 0)) s

def execIaddi (o : IaddiOp) (s : State) : Out :=
  laneOp (.iaddi o) o.w 4 none
    (fun c free t => (outWord t o.vd.toNat (c.v free 1 t o.va.toNat + o.imm.signExtend 32).toNat, 0)) s

/-! ### Integer arithmetic (R156, R157) -/

/-- A thread's part of a two-source integer instruction on numbers. -/
def intBin (t : IntTy) (vd va : BitVec 8) (b : Src) (f : Int → Int → Nat) (c : Cx) (free tid : Nat) : LaneOut :=
  (outInt t tid vd.toNat
    (f (intVal t (c.lane free 1 tid t.width va.toNat)) (intVal t (c.src free 2 tid t.width b))), 0)

/-- A thread's part of a two-source integer instruction on patterns. -/
def bitBin (t : IntTy) (vd va : BitVec 8) (b : Src) (f : Nat → Nat → Nat) (c : Cx) (free tid : Nat) : LaneOut :=
  (outInt t tid vd.toNat (f (c.lane free 1 tid t.width va.toNat) (c.src free 2 tid t.width b)), 0)

/-- R159: a shift count: one register in every type, or the sign-extended immediate. -/
def Cx.count (c : Cx) (free tid : Nat) : Src → Nat
  | .reg v => (c.v free 2 tid v.toNat).toNat
  | .imm i => immBits 32 i

/-- A thread's part of a shift. -/
def shiftOut (t : IntTy) (vd va : BitVec 8) (b : Src) (f : Nat → Nat → Nat → Nat) (c : Cx) (free tid : Nat) : LaneOut :=
  (outInt t tid vd.toNat (f t.width (c.lane free 1 tid t.width va.toNat) (c.count free tid b)), 0)

def execIadd (o : IntSatOp) (s : State) : Out :=
  laneOp (.iadd o) o.w 8 o.g (intBin o.t o.vd o.va o.b (fun a b => intResult o.t o.sat (a + b))) s

def execIsub (o : IntSatOp) (s : State) : Out :=
  laneOp (.isub o) o.w 8 o.g (intBin o.t o.vd o.va o.b (fun a b => intResult o.t o.sat (a - b))) s

def execImul (o : ImulOp) (s : State) : Out :=
  laneOp (.imul o) o.w 8 o.g (intBin o.t o.vd o.va o.b (mulResult o.t o.mode)) s

def execImad (o : ImadOp) (s : State) : Out :=
  laneOp (.imad o) o.w 8 o.g (fun c free t => intBin o.t o.vd o.va o.b
    (fun a b => intResult o.t o.sat (a * b + intVal o.t (c.lane free 3 t o.t.width o.vc.toNat))) c free t) s

def execImin (o : IntBinOp) (s : State) : Out :=
  laneOp (.imin o) o.w 8 o.g (intBin o.t o.vd o.va o.b (fun a b => intResult o.t false (min a b))) s

def execImax (o : IntBinOp) (s : State) : Out :=
  laneOp (.imax o) o.w 8 o.g (intBin o.t o.vd o.va o.b (fun a b => intResult o.t false (max a b))) s

def execIabs (o : IabsOp) (s : State) : Out :=
  laneOp (.iabs o) o.w 8 o.g (fun c free t => (outInt o.t t o.vd.toNat
    (intResult o.t o.sat ((intVal o.t (c.lane free 1 t o.t.width o.va.toNat)).natAbs : Int)), 0)) s

/-! ### Shifts, logic and bit fields (R158 to R161) -/

def execShl (o : IntBinOp) (s : State) : Out := laneOp (.shl o) o.w 8 o.g (shiftOut o.t o.vd o.va o.b shlBits) s
def execShr (o : IntBinOp) (s : State) : Out := laneOp (.shr o) o.w 8 o.g (shiftOut o.t o.vd o.va o.b shrBits) s
def execSha (o : IntBinOp) (s : State) : Out := laneOp (.sha o) o.w 8 o.g (shiftOut o.t o.vd o.va o.b shaBits) s
def execAnd (o : IntBinOp) (s : State) : Out := laneOp (.and o) o.w 8 o.g (bitBin o.t o.vd o.va o.b (· &&& ·)) s
def execOr (o : IntBinOp) (s : State) : Out := laneOp (.or o) o.w 8 o.g (bitBin o.t o.vd o.va o.b (· ||| ·)) s
def execXor (o : IntBinOp) (s : State) : Out := laneOp (.xor o) o.w 8 o.g (bitBin o.t o.vd o.va o.b (· ^^^ ·)) s

def execPopc (o : IntCountOp) (s : State) : Out :=
  laneOp (.popc o) o.w 8 o.g (fun c free t =>
    (outWord t o.vd.toNat (popNat o.t.width (c.lane free 1 t o.t.width o.va.toNat)), 0)) s

def execClz (o : IntCountOp) (s : State) : Out :=
  laneOp (.clz o) o.w 8 o.g (fun c free t =>
    (outWord t o.vd.toNat (clzBits o.t.width (c.lane free 1 t o.t.width o.va.toNat)), 0)) s

/-- R161: the position and the length of a bit field. -/
def Cx.bitField (c : Cx) (free t : Nat) : BitField → Nat × Nat
  | .reg v => let x := (c.v free 2 t v.toNat).toNat; (x % 256, x / 256 % 256)
  | .imm p n => (p.toNat, n.toNat)

def execBfx (o : BfxOp) (s : State) : Out :=
  laneOp (.bfx o) o.w 8 o.g (fun c free t =>
    let ty := BfTy.intTy o.t
    let f := c.bitField free t o.f
    (outInt ty t o.vd.toNat (bfxBits ty.width ty.signed (c.lane free 1 t ty.width o.va.toNat) f.1 f.2), 0)) s

def execBfi (o : BfiOp) (s : State) : Out :=
  laneOp (.bfi o) o.w 8 o.g (fun c free t =>
    let ty := BfTy.intTy o.t
    let f := c.bitField free t o.f
    (outInt ty t o.vd.toNat
      (bfiBits ty.width (c.lane free 1 t ty.width o.va.toNat) (c.lane free 3 t ty.width o.vc.toNat) f.1 f.2), 0)) s

/-! ### LEA (R162) -/

def execLea (o : LeaOp) (s : State) : Out :=
  laneOp (.lea o) o.w 8 o.g (fun c free t =>
    let x := BitVec.ofNat 64 (c.lane free 1 t 64 o.va.toNat)
      + leaIndex o.t (c.v free 2 t o.vb.toNat).toNat <<< o.sh.toNat + o.disp.signExtend 64
    (outPair t o.vd.toNat x.toNat, 0)) s

/-! ### Compares, predicates and selection (R163 to R167) -/

def execIcmp (o : IcmpOp) (s : State) : Out :=
  laneOp (.icmp o) o.w 8 o.g (fun c free t =>
    (outPred t o.qd.toNat (intCompare o.c (intVal o.t (c.lane free 1 t o.t.width o.va.toNat))
      (intVal o.t (c.src free 2 t o.t.width o.b))), 0)) s

def execFcmp (o : FcmpOp) (s : State) : Out :=
  laneOp (.fcmp o) o.w 8 o.g (fun c free t =>
    let r := fCompare o.c o.t o.ftz (c.lane free 1 t o.t.width o.va.toNat) (c.lane free 2 t o.t.width o.vb.toNat)
    (outPred t o.qd.toNat r.1, r.2)) s

def execFclass (o : FclassOp) (s : State) : Out :=
  laneOp (.fclass o) o.w 8 o.g (fun c free t =>
    (outPred t o.qd.toNat (o.mask.getLsbD (fClassBit o.t (c.lane free 1 t o.t.width o.va.toNat))), 0)) s

/-- R166 QSET. -/
def qsetValue (c : Cx) (free t : Nat) : QsetFn → Bool
  | .clr => false
  | .set => true
  | .nz ty va => c.lane free 1 t ty.width va.toNat != 0
  | .bit ty va n => bitAt (c.lane free 1 t ty.width va.toNat) n.toNat

def execQset (o : QsetOp) (s : State) : Out :=
  laneOp (.qset o) o.w 8 o.g (fun c free t => (outPred t o.qd.toNat (qsetValue c free t o.fn), 0)) s

def execQop (o : QopOp) (s : State) : Out :=
  laneOp (.qop o) o.w 4 none (fun c free t =>
    (outPred t o.qd.toNat (qfun o.fn (c.q free 1 t o.qa.toNat) (c.q free 2 t o.qb.toNat)), 0)) s

def execSel (o : SelOp) (s : State) : Out :=
  laneOp (.sel o) o.w 8 o.g (fun c free t =>
    let ty : IntTy := if o.wide then .n64 else .n32
    (outInt ty t o.vd.toNat (if xor (c.q free 3 t o.qs.toNat) o.neg then c.lane free 1 t ty.width o.va.toNat
      else c.src free 2 t ty.width o.b), 0)) s

/-! ### Floating-point arithmetic (R168 to R170) -/

/-- A thread's part of a two-source floating instruction. -/
def fltBin (t : FTy) (vd va vb : BitVec 8) (f : Nat → Nat → Nat × Fl) (c : Cx) (free tid : Nat) : LaneOut :=
  let r := f (c.lane free 1 tid t.width va.toNat) (c.lane free 2 tid t.width vb.toNat)
  (outFlt t tid vd.toNat r.1, r.2)

/-- A thread's part of a unary floating instruction. -/
def fltUn (f : FUn) (o : FUnOp) (c : Cx) (free tid : Nat) : LaneOut :=
  let r := fUnary f o.t o.m o.ftz (c.lane free 1 tid o.t.width o.va.toNat)
  (outFlt o.t tid o.vd.toNat r.1, r.2)

def execFadd (o : FBinOp) (s : State) : Out :=
  laneOp (.fadd o) o.w 8 o.g (fltBin o.t o.vd o.va o.vb (fAdd o.t o.m o.ftz)) s
def execFsub (o : FBinOp) (s : State) : Out :=
  laneOp (.fsub o) o.w 8 o.g (fltBin o.t o.vd o.va o.vb (fSub o.t o.m o.ftz)) s
def execFmul (o : FBinOp) (s : State) : Out :=
  laneOp (.fmul o) o.w 8 o.g (fltBin o.t o.vd o.va o.vb (fMul o.t o.m o.ftz)) s
def execFfma (o : FfmaOp) (s : State) : Out :=
  laneOp (.ffma o) o.w 8 o.g (fun c free t => fltBin o.t o.vd o.va o.vb
    (fun a b => fFma o.t o.m o.ftz a b (c.lane free 3 t o.t.width o.vc.toNat)) c free t) s
def execFmin (o : FSelOp) (s : State) : Out :=
  laneOp (.fmin o) o.w 8 o.g (fltBin o.t o.vd o.va o.vb (fSelect false o.t o.ftz)) s
def execFmax (o : FSelOp) (s : State) : Out :=
  laneOp (.fmax o) o.w 8 o.g (fltBin o.t o.vd o.va o.vb (fSelect true o.t o.ftz)) s
def execFrcp (o : FUnOp) (s : State) : Out := laneOp (.frcp o) o.w 8 o.g (fltUn .rcp o) s
def execFsqrt (o : FUnOp) (s : State) : Out := laneOp (.fsqrt o) o.w 8 o.g (fltUn .sqrt o) s
def execFrsq (o : FUnOp) (s : State) : Out := laneOp (.frsq o) o.w 8 o.g (fltUn .rsq o) s
def execFexp2 (o : FUnOp) (s : State) : Out := laneOp (.fexp2 o) o.w 8 o.g (fltUn .exp2 o) s
def execFlog2 (o : FUnOp) (s : State) : Out := laneOp (.flog2 o) o.w 8 o.g (fltUn .log2 o) s

/-! ### Conversions (R171 to R174) -/

/-- The source pattern's width and the result of a conversion of one value. -/
def cvtSrcWidth : CvtPair → Nat
  | .intInt s _ _ _ | .intFlt s _ _ _ => s.width
  | .fltFlt s _ _ _ | .fltInt s _ _ _ => s.width

/-- R173. -/
def cvtResult (p : CvtPair) (x : Nat) : Nat × Fl :=
  match p with
  | .intInt s d _ sat => (cvtIntInt s d sat x, 0)
  | .intFlt s d m ftz => cvtIntFlt s d m ftz x
  | .fltFlt s d m ftz => cvtFltFlt s d m ftz x
  | .fltInt s d m ftz => cvtFltInt s d m ftz x

/-- Where the result of a conversion of one value goes. -/
def cvtOut (p : CvtPair) (t vd x : Nat) : List (RegKey × DWord) :=
  match p with
  | .intInt _ d _ _ | .fltInt _ d _ _ => outInt d t vd x
  | .intFlt _ d _ _ | .fltFlt _ d _ _ => outFlt d t vd x

/-- The floating type on one side of a block conversion. -/
def BSide.fty : BSide → FTy
  | .f16 => .f16 | .bf16 => .bf16 | .f32 => .f32

/-- The 32 elements of a floating register group (R174, R137). -/
def Cx.fltGroup (c : Cx) (free t : Nat) (ty : FTy) (va : Nat) : List Nat :=
  unpackRegs ty.width (c.regs free 1 t va ty.width)

def cvtThread (o : CvtOp) (c : Cx) (free t : Nat) : LaneOut :=
  match o.kind with
  | .one p =>
    let r := cvtResult p (c.lane free 1 t (cvtSrcWidth p) o.va.toNat)
    (cvtOut p t o.vd.toNat r.1, r.2)
  | .quant sd d vc =>
    let ty := BSide.fty sd
    let r := quantise d ((c.fltGroup free t ty o.va.toNat).map (fDecode ty))
    (outPacked (bBits d) t o.vd.toNat r.1 ++ outWord t vc.toNat (r.2.1 + 256 * r.2.2.1), quantFlags r.2.2.2)
  | .dequant bt d m vc =>
    let ty := BSide.fty d
    let e := (c.v free 3 t vc.toNat).toNat
    let els := unpackRegs (bBits bt) (c.regs free 1 t o.va.toNat (bBits bt))
    let rs := els.map (fun x => deliver ty m false (blockVal bt (e % 256) (e / 256 % 256) x) 0)
    (outPacked ty.width t o.vd.toNat (rs.map (·.1)), rs.foldl (fun f r => f ||| r.2) 0)

def execCvt (o : CvtOp) (s : State) : Out := laneOp (.cvt o) o.w 8 o.g (cvtThread o) s

/-! ### Packing (R175) -/

def execPack (o : PackOp) (s : State) : Out :=
  laneOp (.pack o) o.w 8 o.g (fun c free t => (outWord t o.vd.toNat
    (packWord o.t o.sat (c.v free 1 t o.va.toNat).toNat (c.v free 2 t o.vb.toNat).toNat), 0)) s

def execUnpk (o : UnpkOp) (s : State) : Out :=
  laneOp (.unpk o) o.w 8 o.g (fun c free t => (outWord t o.vd.toNat
    (unpackWord o.t (if o.h then 1 else 0) (c.v free 1 t o.va.toNat).toNat), 0)) s

end Sys2Proof.Machine
end

