-- ==== Sys2Proof/Machine/CrossLane.lean ====
section
/-! DEFINITION. The meanings of the cross-lane instructions SHFL, VOTE, RED and SCAN (09 R180 to R186) over the reduction
orders of 07 (R146 to R149). -/

namespace Sys2Proof.Machine

/-- A cross-lane instruction: the sources of every active thread are read before any destination is written (R181).
`f` is given the active threads. -/
def crossBody (g : Option GuardQ) (f : Cx → Nat → List Nat → Nat → LaneOut) (c : Cx) (s : State) : State :=
  laneBody 8 g (fun c free t => f c free (c.active free g) t) c s

def crossOp (i : Instr) (w : Bool) (g : Option GuardQ) (f : Cx → Nat → List Nat → Nat → LaneOut) (s : State) : Out :=
  issue i (laneInfo w) s (crossBody g f) noCtl

/-- The size of a segment (R180). -/
def segSize (c : Cx) : Seg → Nat
  | .win => c.gr.grant
  | .quad => 4
  | .oct => 8

/-- The active threads of thread `t`'s segment of size `n`. -/
def segThreads (act : List Nat) (n t : Nat) : List Nat := act.filter (fun u => u / n == t / n)

/-! ### SHFL (R182) -/

/-- The position of a thread's source in its segment; `none` outside it. -/
def shflPos (m : ShflMode) (n p b : Nat) : Option Nat :=
  match m with
  | .idx => some (b % n)
  | .up => if b ≤ p then some (p - b) else none
  | .down => if p + b < n then some (p + b) else none
  | .xor => let j := p ^^^ (b % n); if j < n then some j else none

/-- The thread whose value thread `t` receives. -/
def shflSource (act : List Nat) (m : ShflMode) (n t b : Nat) : Nat :=
  match shflPos m n (t % n) b with
  | some j => if act.contains (t - t % n + j) then t - t % n + j else t
  | none => t

def execShfl (o : ShflOp) (s : State) : Out :=
  crossOp (.shfl o) o.w o.g (fun c free act t =>
    let ty : IntTy := if o.wide then .n64 else .n32
    let b := match o.b with
      | .reg v => (c.v free 2 t v.toNat).toNat
      | .imm i => i.toNat
    (outInt ty t o.vd.toNat (c.lane free 1 (shflSource act o.mode (segSize c o.seg) t b) ty.width o.va.toNat), 0)) s

/-! ### VOTE (R183) -/

/-- Weight of a thread in a ballot that thread `t` receives. -/
def ballotWeight (n t u : Nat) : Nat :=
  let h := 32 * (t % n / 32)
  if h ≤ u % n && u % n < h + 32 then 2 ^ (u % n - h) else 0

/-- The result of a vote over the segment of thread `t`: `q` reads a thread's predicate. -/
def voteResult (fn : VoteFn) (seg : List Nat) (n t : Nat) (q : Nat → Bool) : List (RegKey × DWord) :=
  match fn with
  | .anyV vd => outWord t vd.toNat (if seg.any q then 1 else 0)
  | .allV vd => outWord t vd.toNat (if seg.all q then 1 else 0)
  | .count vd => outWord t vd.toNat (seg.filter q).length
  | .ballot vd => outWord t vd.toNat (((seg.filter q).map (ballotWeight n t)).sum)
  | .anyQ qd => outPred t qd.toNat (seg.any q)
  | .allQ qd => outPred t qd.toNat (seg.all q)

def execVote (o : VoteOp) (s : State) : Out :=
  crossOp (.vote o) o.w o.g (fun c free act t =>
    let n := segSize c o.seg
    (voteResult o.fn (segThreads act n t) n t (fun u => c.q free 1 u o.qa.toNat), 0)) s

/-! ### RED and SCAN (R184 to R186) -/

/-- A node of a reduction tree: a pattern and the flags of the steps that built it. -/
abbrev Node := Nat × Fl

/-- The width of the type that a combining step works on. -/
def redWidth : RedFn → Nat
  | .int t _ => t.width
  | .fadd t _ _ | .fmin t _ | .fmax t _ => t.width

/-- One combining step (R185). -/
def combine (f : RedFn) (a b : Node) : Node :=
  match f with
  | .int t op =>
    let w := t.width
    ((match op with
      | .add => (a.1 + b.1) % 2 ^ w
      | .min => if intVal t a.1 ≤ intVal t b.1 then a.1 else b.1
      | .max => if intVal t a.1 < intVal t b.1 then b.1 else a.1
      | .and => a.1 &&& b.1
      | .or => a.1 ||| b.1
      | .xor => a.1 ^^^ b.1), 0)
  | .fadd t m ftz => let r := fAdd t m ftz a.1 b.1; (r.1, a.2 ||| b.2 ||| r.2)
  | .fmin t ftz => let r := fSelect false t ftz a.1 b.1; (r.1, a.2 ||| b.2 ||| r.2)
  | .fmax t ftz => let r := fSelect true t ftz a.1 b.1; (r.1, a.2 ||| b.2 ||| r.2)

/-- The identity of an operation (R185). -/
def redIdentity : RedFn → Nat
  | .int _ .add | .int _ .or | .int _ .xor => 0
  | .int t .min => wrapNat t.width (intMax t)
  | .int t .max => wrapNat t.width (intMin t)
  | .int t .and => 2 ^ t.width - 1
  | .fadd t _ _ => fZero t true
  | .fmin t _ => fInf t false
  | .fmax t _ => fInf t true

/-- R146: a node with one child absent equals the other child. -/
def joinNodes (f : RedFn) : Option Node → Option Node → Option Node
  | some a, some b => some (combine f a b)
  | a, none => a
  | none, b => b

/-- Node `j` of level `l` of the tree over `x` (R146). -/
def treeNode (f : RedFn) (x : Nat → Option Node) : (l : Nat) → (j : Nat) → Option Node
  | 0, j => x j
  | l + 1, j => joinNodes f (treeNode f x l (2 * j)) (treeNode f x l (2 * j + 1))

/-- R147: the prefix of `n` leaves from leaf `start` on, combined from the left over aligned subtrees, the largest
first; `acc` is what stands before. -/
def treePrefix (f : RedFn) (x : Nat → Option Node) : (l : Nat) → (start n : Nat) → Option Node → Option Node
  | 0, start, n, acc => if n = 0 then acc else joinNodes f acc (x start)
  | l + 1, start, n, acc =>
    if 2 ^ (l + 1) ≤ n
    then treePrefix f x l (start + 2 ^ (l + 1)) (n - 2 ^ (l + 1)) (joinNodes f acc (treeNode f x (l + 1) (start / 2 ^ (l + 1))))
    else treePrefix f x l start n acc

/-- R149: values combined in an order and an association that nothing fixes: each round joins one of the values onto
another; `salt` tells this choice from others of the step. -/
def anyOrder (f : RedFn) (free salt : Nat) : Nat → List Node → Option Node
  | 0, l => l.head?
  | _ + 1, [] => none
  | _ + 1, [a] => some a
  | n + 1, l =>
    let i := Config.freeNat .combination free (salt + 2 * n) % l.length
    let a := l.getD i (0, 0)
    let rest := l.eraseIdx i
    let j := Config.freeNat .combination free (salt + 2 * n + 1) % rest.length
    anyOrder f free salt n (rest.set j (combine f a (rest.getD j (0, 0))))

/-- An integer step gives the same value in every order (R149). -/
def redIsInt : RedFn → Bool
  | .int .. => true
  | .fadd .. | .fmin .. | .fmax .. => false

/-- The leaves: the value of each active thread. -/
def redLeaf (f : RedFn) (va : BitVec 8) (c : Cx) (free : Nat) (act : List Nat) (t : Nat) : Option Node :=
  if act.contains t then some (c.lane free 1 t (redWidth f) va.toNat, 0) else none

/-- What a thread receives from a node, the identity when it is absent. -/
def redOut (f : RedFn) (t vd : Nat) (n : Option Node) : LaneOut :=
  let r := n.getD (redIdentity f, 0)
  match f with
  | .int ty _ => (outInt ty t vd r.1, 0)
  | .fadd ty _ _ | .fmin ty _ | .fmax ty _ => (outFlt ty t vd r.1, r.2)

/-- R186 RED. -/
def redNode (o : RedOp) (c : Cx) (free : Nat) (act : List Nat) (t : Nat) : Option Node :=
  let x := redLeaf o.fn o.va c free act
  match o.order with
  | .fix => treeNode o.fn x (Nat.log2 c.gr.size) 0
  | .win => treeNode o.fn (fun j => x (t / c.gr.grant * c.gr.grant + j)) (Nat.log2 c.gr.grant) 0
  | .any => if redIsInt o.fn then treeNode o.fn x (Nat.log2 c.gr.size) 0
      else anyOrder o.fn free 0 act.length (act.filterMap x)

def execRed (o : RedOp) (s : State) : Out :=
  crossOp (.red o) o.w o.g (fun c free act t => redOut o.fn t o.vd.toNat (redNode o c free act t)) s

/-- R186 SCAN: the prefix up to `t`, without `t` itself in the exclusive form. -/
def scanNode (o : ScanOp) (c : Cx) (free : Nat) (act : List Nat) (t : Nat) : Option Node :=
  let x := redLeaf o.fn o.va c free act
  let e := if o.ex then 0 else 1
  match o.order with
  | .fix => treePrefix o.fn x (Nat.log2 c.gr.size) 0 (t + e) none
  | .win => treePrefix o.fn (fun j => x (t / c.gr.grant * c.gr.grant + j)) (Nat.log2 c.gr.grant) 0 (t % c.gr.grant + e) none
  | .any => if redIsInt o.fn then treePrefix o.fn x (Nat.log2 c.gr.size) 0 (t + e) none
      else anyOrder o.fn free (1024 * t) act.length ((act.filter (fun u => u < t + e)).filterMap x)

def execScan (o : ScanOp) (s : State) : Out :=
  crossOp (.scan o) o.w o.g (fun c free act t => redOut o.fn t o.vd.toNat (scanNode o c free act t)) s

end Sys2Proof.Machine
end

