-- ==== Sys2Proof/Machine/Csr.lean ====
section
/-! DEFINITION. Control registers (06 R112 to R125, 15 R310): which numbers exist on which kind of core, what they read,
CSRR and the three CSRW functions, and the writes with a behaviour of their own: KBIND, ILCK, KPEND. -/

namespace Sys2Proof.Machine

/-! ### Numbers (R118, R310) -/

/-- The configuration registers of R25. -/
def isCfg (n : Nat) : Bool :=
  (0x100 ≤ n && n ≤ 0x10B) || (0x110 ≤ n && n ≤ 0x11B) || (0x120 ≤ n && n ≤ 0x127)
    || (0x400 ≤ n && n ≤ 0x5FF && n % 128 ≤ 95)

/-- Registers that a compute core reads. -/
def fragReadable (n : Nat) : Bool :=
  (1 ≤ n && n ≤ 9) || (0x10 ≤ n && n ≤ 0x13) || n == 0x20 || n == 0x21 || (0x40 ≤ n && n ≤ 0x45) || isCfg n

/-- Registers that a compute core writes. -/
def fragWritable (n : Nat) : Bool := (0x10 ≤ n && n ≤ 0x13) || n == 0x44

/-- Registers that a control core reads. -/
def ctlReadable (n : Nat) : Bool :=
  n == 5 || n == 7 || n == 8 || n == 0x20 || n == 0x21 || isCfg n || (0x800 ≤ n && n ≤ 0x805) || n == 0x810 || n == 0x820

/-- Registers that a control core writes. -/
def ctlWritable (n : Nat) : Bool := n == 0x21 || (0x800 ≤ n && n ≤ 0x804) || n == 0x810

/-- Accesses that need privileged mode on a control core. -/
def ctlPrivate (n : Nat) (write : Bool) : Bool := (0x800 ≤ n && n ≤ 0x805) || n == 0x810 || (write && n == 0x21)

/-! ### Reads -/

/-- A configuration register (R25, R24); CFGOCT of a disabled core reads 0. -/
def readCfg (s : State) (n : Nat) : DWord :=
  if n < 0x108 then
    (let x := cfgCoreWord s ((n - 0x100) / 2)
     BitVec.ofNat 64 (if n % 2 = 0 then x % 2 ^ 64 else x / 2 ^ 64))
  else if n < 0x10C then (s.cfgCtl.getD (n - 0x108) 0).setWidth 64
  else if n < 0x11C then (s.cfgHbm.getD (n - 0x110) 0).setWidth 64
  else if n < 0x128 then (s.cfgLink.getD (n - 0x120) 0).setWidth 64
  else if coreActive s (n - 0x400) then
    (s.cfgOct.getD ((n - 0x400) / 128 * 96 + (n - 0x400) % 128) 0).setWidth 64
  else 0

/-- %ctx of a context (R112). -/
def ctxWord (c : Ctx) : DWord := BitVec.ofNat 64 (c.asid.toNat + c.key.toNat * 2 ^ 16)

/-- ILCK bit 0: bit 0 of the ilck byte of a context record. -/
def ilckBit (s : State) (c : Ctx) : Nat := recordField s c 72 1 % 2

/-- The head of the trap queue through the TQ registers; 0 unless the group runs a handler (R310). -/
def readTq (gr : Group) (n : Nat) : DWord :=
  match gr.handler, gr.trapQ with
  | some _, e :: l =>
    if n = 0x40 then BitVec.ofNat 64 (e.cause + e.slot * 2 ^ 16)
    else if n = 0x41 then e.ipc
    else if n = 0x42 then e.addr
    else if n = 0x43 then e.aux
    else if n = 0x44 then e.rpc.getD 0
    else BitVec.ofNat 64 (l.length + 1)
  | _, _ => 0

/-- A block's numbers: %blk and %gang; 0 for a spawned group (R112). -/
def blockNumbers (s : State) (blk : Nat) : Nat × Nat :=
  match s.blocks[blk]? with
  | none => (0, 0)
  | some b => if b.spawned then (0, 0) else (b.gangIdx * b.entry.gang + b.member, b.gangIdx)

/-- A control register as a fragment reads it. %time is one count for the whole package: of the skew of up to 20 ns that R125
allows between two cores the model takes none (log 44). -/
def readFrag (s : State) (c : Cx) (n : Nat) : DWord :=
  if n = 1 then BitVec.ofNat 64 c.gr.gid
  else if n = 2 then BitVec.ofNat 64 c.gr.grant
  else if n = 3 then BitVec.ofNat 64 (blockNumbers s c.gr.block).1
  else if n = 4 then BitVec.ofNat 64 (blockNumbers s c.gr.block).2
  else if n = 5 then BitVec.ofNat 64 (c.gr.place / 128)
  else if n = 6 then BitVec.ofNat 64 c.gr.place
  else if n = 7 then ctxWord c.gr.ctx
  else if n = 8 then s.time
  else if n = 9 then c.gr.batch.setWidth 64
  else if n = 0x10 then c.fflags.setWidth 64
  else if n = 0x11 then c.gr.sharedRead s.free 0 c.f (c.gr.fmask.setWidth 64)
  else if n = 0x12 then c.gr.sharedRead s.free 1 c.f c.gr.tvec
  else if n = 0x13 then c.gr.sharedRead s.free 2 c.f (c.gr.prog.setWidth 64)
  else if n = 0x20 then BitVec.ofNat 64 Config.stepId
  else if n = 0x21 then BitVec.ofNat 64 ((if c.gr.interlocked then 2 else 0) + ilckBit s c.gr.ctx)
  else if n < 0x100 then readTq c.gr n
  else readCfg s n

/-- A control register as a control core reads it; ILCK stands apart. -/
def readCtl (s : State) (cc : Nat) (c : Ctl) (n : Nat) : DWord :=
  if n = 5 then BitVec.ofNat 64 (cc / 24)
  else if n = 7 then ctxWord c.ctx
  else if n = 8 then s.time
  else if n = 0x20 then BitVec.ofNat 64 Config.stepId
  else if n = 0x21 then BitVec.ofNat 64 (2 + ilckBit s c.ctx)
  else if n = 0x800 then BitVec.ofNat 64 c.kstate
  else if n = 0x801 then c.karea
  else if n = 0x802 then c.ktbl
  else if n = 0x803 then c.kpend.setWidth 64
  else if n = 0x804 then c.kmask.setWidth 64
  else if n = 0x805 then c.krec
  else if n = 0x810 then c.kbind
  else if n = 0x820 then BitVec.ofNat 64 (kcore cc)
  else readCfg s n

/-! ### Writes -/

/-- What a write function makes of a register of width `w` (R124). -/
def csrApply {w : Nat} (fn : CsrwFn) (old x : BitVec w) : BitVec w :=
  match fn with
  | .write => x
  | .set => old ||| x
  | .clr => old &&& ~~~x

/-- A shared control register is written by a fragment: the others may go on reading the value before (R117). -/
def Group.noteShared (gr : Group) (f which : Nat) (old : DWord) : Group :=
  { gr with shared := gr.shared.filter (fun o => !(o.which == which && o.frag == f))
      ++ (gr.frags.filter (fun x => x.id != f)).map (fun x =>
        { which, frag := x.id, writer := f, val := old, fragPassed := false, writerPassed := false }) }

/-- A register written by a fragment. -/
def writeFrag (fn : CsrwFn) (c : Cx) (n : Nat) (x : DWord) (gr : Group) : Group :=
  if n = 0x10 then
    let set (t : Tab (BitVec 5)) (i : Nat) : Tab (BitVec 5) := tabPut 0 t i (csrApply fn (tabGet 0 t i) (x.setWidth 5))
    { gr with fflags := (threadsOf c.fr.mask gr.size).foldl set gr.fflags }
  else if n = 0x11 then { gr.noteShared c.f 0 (gr.fmask.setWidth 64) with fmask := csrApply fn gr.fmask (x.setWidth 5) }
  else if n = 0x12 then { gr.noteShared c.f 1 gr.tvec with tvec := csrApply fn gr.tvec x }
  else if n = 0x13 then { gr.noteShared c.f 2 (gr.prog.setWidth 64) with prog := csrApply fn gr.prog (x.setWidth 8) }
  else
    match gr.trapQ with
    | e :: l => { gr with trapQ := { e with rpc := some (csrApply fn (e.rpc.getD 0) x) } :: l }
    | [] => gr

/-- The bits of KBIND (R122). -/
def kbindMask : DWord := 0x00FFFFFFC3FFFFFF

/-- A write of KBIND: refused with KSTATE.AB while the named ASID is busy (R122, R329). -/
def writeKbind (s : State) (cc : Nat) (v : DWord) : State :=
  if (tabGet { presence := 0, busy := false } s.asids (v.toNat % 2 ^ 16)).busy then modCtl s cc (fun c => { c with ab := true })
  else modCtl s cc (fun c => { c with kbind := v &&& kbindMask, bound := true })

/-- A write of KPEND: bits 7 to 1 (R121, R124). -/
def writeKpend (s : State) (cc : Nat) (fn : CsrwFn) (v : DWord) : State :=
  modCtl s cc (fun c => { c with kpend := csrApply fn c.kpend (v.setWidth 8) &&& 0xFE })

/-- A control core's register without a behaviour of its own: KSTATE (AB, IE, PV), KAREA, KTBL, KMASK. AB is cleared by
CSRW.clr alone (R120). -/
def writePlain (s : State) (cc n : Nat) (fn : CsrwFn) (v : DWord) : State :=
  if n = 0x800 then modCtl s cc (fun c =>
    { c with
      ab := (match fn with | .clr => c.ab && !v.getLsbD 3 | .write | .set => c.ab || v.getLsbD 3),
      ie := (csrApply fn (BitVec.ofBool c.ie) (BitVec.ofBool (v.getLsbD 1))).getLsbD 0,
      pv := (csrApply fn (BitVec.ofBool c.pv) (BitVec.ofBool (v.getLsbD 0))).getLsbD 0 })
  else if n = 0x801 then modCtl s cc (fun c => { c with karea := csrApply fn c.karea v })
  else if n = 0x802 then modCtl s cc (fun c => { c with ktbl := csrApply fn c.ktbl v })
  else if n = 0x804 then modCtl s cc (fun c => { c with kmask := csrApply fn c.kmask (v.setWidth 8) &&& 0xFE })
  else s

/-- The physical address of the ilck byte of a context record. -/
def ilckPa (c : Ctx) : Nat := c.root.toNat + 0x1000 + 72

/-- Where the ilck byte of a control core's context lies; gone also where KBIND has not been written (R119). -/
def ilckAt (s : State) (c : Ctl) : Fixed := if !c.bound then .gone else fixedAt s c.ctx (ilckPa c.ctx)

/-- A write of ILCK bit 0: a far atomic exchange in release form at pkg scope (R119); it queues RACE for a word in F too. -/
def writeIlck (s : State) (cc : Nat) (c : Ctl) (key : Nat) (fn : CsrwFn) (v : DWord) : State :=
  let s := release s (.control cc) .pkg
  let old := readByte s key (ilckPa c.ctx)
  let bit := csrApply fn (old &&& 1) ((v &&& 1).setWidth 8)
  let r := farStore s (.control cc) (.ctl cc) key (ilckPa c.ctx) [(old &&& 0xFE) ||| bit]
  queueRaceCtl r.2 cc c.pc (r.1.map (fun x => (.race, x.2)))

/-! ### CSRR and CSRW -/

/-- How CSRR and CSRW issue. -/
def csrInfo (w : Bool) : IssueInfo := { cls := .both, w, touch := true, fence := false, rel := false }

/-- A fixed-address access of a control core: ACCESS, a wait, or the access under its key. -/
def atFixed (cc : Nat) (x : Fixed) (s : State) (body : Nat → State → State) : State :=
  match x with
  | .gone => raiseCtl s cc 4 0 0
  | .offline _ => parkCtl s cc .retry
  | .at k => body k (parkCtl s cc .run)

/-- The offline home of the ilck byte that a fragment's read of ILCK needs (R119, R236). -/
def ilckHome (s : State) (c : Cx) (n : Nat) : List Nat :=
  if n ≠ 0x21 then [] else match fixedAt s c.gr.ctx (ilckPa c.gr.ctx) with
    | .offline d => [d]
    | .at _ => []
    | .gone => []

def csrrFrag (o : CsrOp) (c : Cx) (s : State) : State :=
  let n := o.csr.toNat
  if !fragReadable n then raiseFrag s c 1 0 (wordOf (.csrr o)) (some c.fr.pc)
  else if !(ilckHome s c n).isEmpty then parkHome s c (ilckHome s c n)
  else advance (putRegs s c [(.s o.s.toNat, readFrag s c n)]) c 4

def csrrCtl (o : CsrOp) (cc : Nat) (c : Ctl) (s : State) : State :=
  let n := o.csr.toNat
  let put (s : State) : State := advanceCtl (modCtl s cc (fun k => k.setS o.s.toNat (readCtl s cc c n))) cc 4
  if !ctlReadable n then raiseCtl s cc 1 0 (wordOf (.csrr o))
  else if ctlPrivate n false && !c.pv then raiseCtl s cc 2 0 0
  else if n = 0x21 then atFixed cc (ilckAt s c) s (fun _ s => put s)
  else put s

def execCsrr (o : CsrOp) (s : State) : Out := issue (.csrr o) (csrInfo o.w) s (csrrFrag o) (csrrCtl o)

def csrwFrag (i : Instr) (fn : CsrwFn) (o : CsrOp) (c : Cx) (s : State) : State :=
  let n := o.csr.toNat
  if !fragWritable n || (n == 0x44 && !c.gr.inHandler c.fr) then raiseFrag s c 1 0 (wordOf i) (some c.fr.pc)
  else advance (modGroup s c.g (writeFrag fn c n (c.s s.free 0 o.s.toNat))) c 4

def csrwCtl (i : Instr) (fn : CsrwFn) (o : CsrOp) (cc : Nat) (c : Ctl) (s : State) : State :=
  let n := o.csr.toNat
  let x := c.sreg o.s.toNat
  if !ctlWritable n then raiseCtl s cc 1 0 (wordOf i)
  else if !c.pv then raiseCtl s cc 2 0 0
  else if n = 0x21 then
    if !ctlMayRelease s cc then parkCtl s cc .retry
    else atFixed cc (ilckAt s c) s (fun k s => advanceCtl (writeIlck s cc c k fn x) cc 4)
  else if n = 0x803 then advanceCtl (writeKpend s cc fn x) cc 4
  else if n = 0x810 then advanceCtl (writeKbind s cc (csrApply fn c.kbind x)) cc 4
  else advanceCtl (writePlain s cc n fn x) cc 4

def csrwOp (i : Instr) (fn : CsrwFn) (o : CsrOp) (s : State) : Out := issue i (csrInfo o.w) s (csrwFrag i fn o) (csrwCtl i fn o)

def execCsrw (o : CsrOp) (s : State) : Out := csrwOp (.csrw o) .write o s
def execCsrwSet (o : CsrOp) (s : State) : Out := csrwOp (.csrwSet o) .set o s
def execCsrwClr (o : CsrOp) (s : State) : Out := csrwOp (.csrwClr o) .clr o s

/-! ### The writes as events -/

/-- KBIND_WRITE (R122). -/
def execKbindWrite (cc : Nat) (v : DWord) (s : State) : Out := .next (writeKbind s cc v)

/-- ILCK_WRITE (R119): nothing where the byte cannot be reached or the release has to wait. -/
def execIlckWrite (cc : Nat) (fn : CsrwFn) (v : DWord) (s : State) : Out :=
  match s.ctls[cc]? with
  | none => .next s
  | some c => match ilckAt s c with
    | .at k => .next (if ctlMayRelease s cc then writeIlck s cc c k fn v else s)
    | .gone => .next s
    | .offline _ => .next s

/-- KPEND_WRITE (R121). -/
def execKpendWrite (cc : Nat) (fn : CsrwFn) (v : DWord) (s : State) : Out := .next (writeKpend s cc fn v)

end Sys2Proof.Machine
end

