-- ==== Sys2Proof/Machine/Matrix.lean ====
section
/-! DEFINITION. The meanings of the matrix instructions (13): MMA, MMAS, SPK, MZERO, MDRN in its three forms with the
landing of peer adds, and LDG.row. -/

namespace Sys2Proof.Machine

/-! ### Shapes (R261) -/

/-- Bits of an element of an operand type. -/
def matBits : MatTy → Nat
  | .f64 => 64 | .f32 => 32 | .bf16 | .f16 => 16 | .i8 | .bq8 => 8 | .bq4 => 4

/-- K of an operand type. -/
def matK (t : MatTy) : Nat := 256 / matBits t

/-- Bytes of one accumulator element. -/
def accBytes (t : MatTy) : Nat :=
  match t.acc with
  | .f64 => 8
  | .f32 | .i32 => 4

/-- Bytes of one row and of one tile. -/
def rowBytes (t : MatTy) : Nat := t.n * accBytes t
def tileBytes (t : MatTy) : Nat := 8 * rowBytes t

/-- The operand type of a sparse instruction. -/
def spMat : SpTy → MatTy
  | .bf16 => .bf16 | .f16 => .f16 | .i8 => .i8 | .bq8 => .bq8 | .bq4 => .bq4

/-- Bytes of a panel with `rows` stored rows and `nb` blocks to a column (R262). -/
def panelBytes (t : MatTy) (rows nb : Nat) : Nat := t.n * (rows * matBits t / 8) + (if t.block then t.n * nb * 2 else 0)

/-! ### Elements -/

/-- The value of an element; `e0` and `e1` are its block's exponents. An integer is its exact value. -/
def matVal (t : MatTy) (e0 e1 x : Nat) : FVal :=
  match t with
  | .f64 => fDecode .f64 x
  | .f32 => fDecode .f32 x
  | .bf16 => fDecode .bf16 x
  | .f16 => fDecode .f16 x
  | .i8 => .fin (intVal .i8 x < 0) (intVal .i8 x).natAbs 0
  | .bq8 => blockVal .bq8 e0 e1 x
  | .bq4 => blockVal .bq4 e0 e1 x

/-- The elements of an A group from v[base] on (R261). -/
def groupEls (c : Cx) (free t : Nat) (ty : MatTy) (base : Nat) : List Nat :=
  let rs := c.regs free 1 t base 8
  if matBits ty = 64 then (List.range 4).map (fun k => rs.getD (2 * k) 0 + rs.getD (2 * k + 1) 0 * 2 ^ 32)
  else unpackRegs (matBits ty) rs

/-- The values of an A group with its exponent register. -/
def groupVals (c : Cx) (free t : Nat) (ty : MatTy) (base expReg : Nat) : List FVal :=
  let x := if ty.block then (c.v free 3 t expReg).toNat else 0
  (groupEls c free t ty base).zipIdx.map (fun p =>
    matVal ty (x / 2 ^ (16 * (p.2 / 32)) % 256) (x / 2 ^ (16 * (p.2 / 32) + 8) % 256) p.1)

/-- Stored element `k` of column `n` of a panel (R262). -/
def panelEl (wb : Nat → Byte) (t : MatTy) (b rows n k : Nat) : Nat :=
  let cb := rows * matBits t / 8
  if matBits t = 4 then (wb (b + n * cb + k / 2)).toNat / 2 ^ (4 * (k % 2)) % 16
  else leNat (bytesOf wb (b + n * cb + k * (matBits t / 8)) (matBits t / 8))

/-- The value of stored element `k` of column `n`, which is row `e` of the dense form. -/
def panelVal (wb : Nat → Byte) (t : MatTy) (b rows nb n k e : Nat) : FVal :=
  let x := b + t.n * (rows * matBits t / 8) + 2 * (n * nb + e / 32)
  matVal t (if t.block then (wb x).toNat else 0) (if t.block then (wb (x + 1)).toNat else 0) (panelEl wb t b rows n k)

/-- A byte of the block's WB window. -/
def wbByte (s : State) (blk off : Nat) : Byte := (winRead s blk .wb off 1).headD 0

/-! ### Tiles (R263) -/

/-- The CB window of a fragment's group: the block's, or a run's private one (R344). -/
def cbQuota (s : State) (c : Cx) : Nat :=
  match c.gr.run with
  | some r => r.cbLen
  | none => (((s.blocks[c.gr.block]?).map (·.entry.cb))).getD 0
def cbRead (s : State) (c : Cx) (off n : Nat) : List Byte :=
  match (s.groups[c.g]?).bind (·.run) with
  | some r => bytesOf (tabGet 0 r.cb) off n
  | none => winRead s c.gr.block .cb off n
def cbWrite (s : State) (c : Cx) (off : Nat) (bs : List Byte) : State :=
  match c.gr.run with
  | some _ => modGroup s c.g (fun gr =>
      { gr with run := gr.run.map (fun r => { r with cb := putBytes (fun m o b => tabPut 0 m o b) r.cb off bs }) })
  | none => winWrite s c.gr.block .cb off bs

/-- The octets that hold one of the threads (R264). -/
def octetsOf (ts : List Nat) : List Nat := (List.range 32).filter (fun j => ts.any (fun t => t / 8 == j))

/-- The CB offset of tile `i` of octet `j`. -/
def tileOff (t : MatTy) (size base i j : Nat) : Nat := base + (i * (size / 8) + j) * tileBytes t

/-- The CB offset of a thread's row in tile `i`. -/
def rowOff (t : MatTy) (size base i tid : Nat) : Nat := tileOff t size base i (tid / 8) + tid % 8 * rowBytes t

/-- The accumulator elements of a row. -/
def rowEls (t : MatTy) (bs : List Byte) : List Nat := (chunksOf (accBytes t) t.n bs).map leNat

/-- Whether the tiles that a thread uses lie in the CB window. -/
def tilesInside (s : State) (c : Cx) (t : MatTy) (base count tid : Nat) : Bool :=
  (List.range count).all (fun i => tileOff t c.gr.size base i (tid / 8) + tileBytes t ≤ cbQuota s c)

/-- Whether bytes lie in the block's WB window. -/
def wbInside (s : State) (blk off n : Nat) : Bool :=
  match s.blocks[blk]? with
  | none => false
  | some b => off + n ≤ b.entry.wb

/-- The count of the matrix exception counters (R143): NV, OF, UF, SAT; recipe runs count nothing (R345). -/
def addCounts (s : State) (core : Nat) (ctx : Ctx) (counted : Bool) (l : List Nat) : State :=
  if !counted || l.all (· == 0) then s
  else setCounts s core ctx ((List.range 4).map (fun i => min ((coreCounts s core ctx).getD i 0 + l.getD i 0) (2 ^ 32 - 1)))

/-- What one element adds: NV where it is NaN, OF, UF. -/
def elemCounts (nv : Bool) (fl : Fl) : List Nat :=
  [if nv then 1 else 0, if fl &&& flOF ≠ 0 then 1 else 0, if fl &&& flUF ≠ 0 then 1 else 0, 0]

/-- Counts added up. -/
def sumCounts (a b : List Nat) : List Nat := (List.range 4).map (fun i => a.getD i 0 + b.getD i 0)

/-! ### MMA and MMAS (R269) -/

/-- One output element from its accumulator input and its products' factors. -/
def matElem (t : MatTy) (z : Bool) (old : Nat) (prods : List (FVal × FVal)) : Nat × List Nat :=
  let terms := prods.map (fun p => (mulV p.1 p.2).1)
  match t.acc with
  | .i32 =>
    (wrapNat 32 ((if z then 0 else intVal .i32 old) + sumUnits 0 terms), [0, 0, 0, 0])
  | .f64 =>
    let r := matrixSum .f64 (if z then .fin true 0 0 else fDecode .f64 old) terms
    (r.1, elemCounts (fDecode .f64 r.1).isNan r.2)
  | .f32 =>
    let r := matrixSum .f32 (if z then .fin true 0 0 else fDecode .f32 old) terms
    (r.1, elemCounts (fDecode .f32 r.1).isNan r.2)

/-- One thread's row of the tile: `fac` gives the factors of column `n`. -/
def matRow (t : MatTy) (z : Bool) (base : Nat) (fac : Nat → List (FVal × FVal)) (c : Cx) (tid : Nat)
    (p : State × List Nat) : State × List Nat :=
  let off := rowOff t c.gr.size base 0 tid
  let old := rowEls t (cbRead p.1 c off (rowBytes t))
  let r := (List.range t.n).map (fun n => matElem t z (old.getD n 0) (fac n))
  (cbWrite p.1 c off (r.flatMap (fun x => leBytes (accBytes t) x.1)), r.foldl (fun a x => sumCounts a x.2) p.2)

/-- The rows of every active thread, each at the base that it reads, and the counts of the whole instruction. -/
def matRows (t : MatTy) (z : Bool) (base : Nat → Nat) (fac : Nat → Nat → List (FVal × FVal)) (c : Cx) (ts : List Nat) (s : State) :
    State :=
  let r := ts.foldl (fun p tid => matRow t z (base tid) (fac tid) c tid p) (s, [0, 0, 0, 0])
  addCounts r.1 c.gr.place c.gr.ctx c.gr.run.isNone r.2

/-- The first of two offsets of a thread that fails a check; the panel's stands first. -/
def firstBad (bad1 bad2 : Bool) (x1 x2 : DWord) (tid : Nat) : Option (DWord × Nat) :=
  if bad1 then some (x1, tid) else if bad2 then some (x2, tid) else none

/-- The checks of R268, steps 1 and 2, in front of a body: `b` gives the panel's offset that a thread reads (R73) with its bytes, `sc`
the tile base; the trap records the lowest thread that fails (R306). -/
def matChecked (c : Cx) (s : State) (ts : List Nat) (b : Option ((Nat → DWord) × Nat)) (t : MatTy) (sc : Nat → DWord) (count : Nat)
    (body : State → State) : State :=
  let panel (tid : Nat) : DWord := (b.map (fun x => x.1 tid)).getD 0
  match ts.findSome? (fun tid => firstBad ((panel tid).toNat % 64 != 0) ((sc tid).toNat % 256 != 0) (panel tid) (sc tid) tid) with
  | some (x, tid) => raiseFrag s c 3 x (BitVec.ofNat 64 tid) (some c.fr.pc)
  | none =>
    match ts.findSome? (fun tid => firstBad (b.any (fun x => !wbInside s c.gr.block (x.1 tid).toNat x.2))
        (!tilesInside s c t (sc tid).toNat count tid) (panel tid) (sc tid) tid) with
    | some (x, tid) => raiseFrag s c 4 x (BitVec.ofNat 64 tid) (some c.fr.pc)
    | none => body s

def mmaBody (o : MmaOp) (c : Cx) (s : State) : State :=
  let ts := c.active s.free o.g
  let b (tid : Nat) := c.st s.free 4 tid o.sw.toNat
  let sc (tid : Nat) := c.st s.free 5 tid o.sc.toNat
  let k := matK o.t
  let nb := k / 32
  matChecked c s ts (some (b, panelBytes o.t k nb)) o.t sc 1 (fun s =>
    let wb := wbByte s c.gr.block
    let fac (tid n : Nat) : List (FVal × FVal) :=
      (groupVals c s.free tid o.t o.va.toNat (o.va.toNat + 8)).zipIdx.map (fun p => (p.1, panelVal wb o.t (b tid).toNat k nb n p.2 p.2))
    advance (matRows o.t o.z (fun tid => (sc tid).toNat) fac c ts s) c 8)

def execMma (o : MmaOp) (s : State) : Out := laneMemOp (.mma o) o.w (mmaBody o) s

/-- h of a sparsity pattern, and the bits of one index (R267). -/
def spH : SpPat → Nat
  | .sp24 => 2 | .sp48 => 4
def spW : SpPat → Nat
  | .sp24 => 2 | .sp48 => 3

/-- Metadata of one thread as a number, stream bit x at bit x. -/
def metaStream (c : Cx) (free tid vm n : Nat) : Nat := packList 32 (c.regs free 2 tid vm n)

/-- row(k, n) of R267, `stream` being the metadata of thread n div 2 of the octet. -/
def spRow (p : SpPat) (k n kk stream : Nat) : Nat :=
  k / spH p * (2 * spH p) + stream / 2 ^ (spW p * (n % 2 * kk + k)) % 2 ^ spW p

/-- The lowest octet of the active threads in which a thread is not active. -/
def partialOctet (ts : List Nat) : Option Nat :=
  (octetsOf ts).find? (fun j => !((List.range 8).all (fun r => ts.contains (8 * j + r))))

def mmasBody (o : MmasOp) (c : Cx) (s : State) : State :=
  let t := spMat o.t
  let ts := c.active s.free o.g
  let b (tid : Nat) := c.st s.free 4 tid o.sw.toNat
  let sc (tid : Nat) := c.st s.free 5 tid o.sc.toNat
  let k := matK t
  let nb := 2 * k / 32
  matChecked c s ts (some (b, panelBytes t k nb)) t sc 1 (fun s =>
    match partialOctet ts with
    | some j => raiseFrag s c 9 0 (BitVec.ofNat 64 j) (some c.fr.pc)
    | none =>
      let wb := wbByte s c.gr.block
      let fac (tid n : Nat) : List (FVal × FVal) :=
        let a := groupVals c s.free tid t o.va.toNat (o.va.toNat + 16) ++ groupVals c s.free tid t (o.va.toNat + 8) (o.va.toNat + 17)
        let st := metaStream c s.free (tid / 8 * 8 + n / 2) o.vm.toNat (metaRegs o.t o.pat)
        (List.range k).map (fun i =>
          let e := spRow o.pat i n k st
          (a.getD e (.fin false 0 0), panelVal wb t (b tid).toNat k nb n i e))
      advance (matRows t o.z (fun tid => (sc tid).toNat) fac c ts s) c 8)

def execMmas (o : MmasOp) (s : State) : Out := laneMemOp (.mmas o) o.w (mmasBody o) s

/-! ### SPK (R272) -/

/-- Whether the magnitude of `a` lies below that of `b`: NaN above every number. -/
def magLt (a b : FVal) : Bool :=
  match a, b with
  | .nan _, _ => false
  | _, .nan _ => true
  | .inf _, _ => false
  | _, .inf _ => true
  | .fin _ m e, .fin _ n f =>
    let g := min e f
    (toUnits false m e g).natAbs < (toUnits false n f g).natAbs

/-- The `h` of a list of values of largest magnitude, the lower on equal magnitude, in ascending order. -/
def keepLargest (h : Nat) (xs : List FVal) : List Nat :=
  let z : FVal := .fin false 0 0
  let beats (j i : Nat) : Bool := magLt (xs.getD i z) (xs.getD j z) || (j < i && !magLt (xs.getD j z) (xs.getD i z))
  (List.range xs.length).filter (fun i => ((List.range xs.length).filter (fun j => beats j i)).length < h)

/-- The rows of column `n` of the dense source that the compressed panel keeps. -/
def keptRows (wb : Nat → Byte) (t : MatTy) (p : SpPat) (b n : Nat) : List Nat :=
  let rows := 2 * matK t
  let h := spH p
  (List.range (rows / (2 * h))).flatMap (fun g =>
    (keepLargest h ((List.range (2 * h)).map (fun i =>
      panelVal wb t b rows (rows / 32) n (2 * h * g + i) (2 * h * g + i)))).map (fun i => 2 * h * g + i))

/-- Elements of a column as bytes. -/
def packColumn (t : MatTy) (els : List Nat) : List Byte :=
  if matBits t = 4 then (chunksOf 2 els.length els).map (fun p => BitVec.ofNat 8 (p.getD 0 0 + 16 * p.getD 1 0))
  else els.flatMap (leBytes (matBits t / 8))

/-- The compressed panel. -/
def compress (wb : Nat → Byte) (t : MatTy) (p : SpPat) (b : Nat) : List Byte :=
  let rows := 2 * matK t
  ((List.range t.n).flatMap (fun n =>
    packColumn t ((keptRows wb t p b n).map (fun e => panelEl wb t b rows n e))))
    ++ (if t.block then bytesOf wb (b + t.n * (rows * matBits t / 8)) (t.n * (rows / 32) * 2) else [])

/-- The metadata registers of thread 8j + r. -/
def metaOf (wb : Nat → Byte) (t : MatTy) (p : SpPat) (b r n : Nat) : List Nat :=
  let idx (col : Nat) : List Nat := (keptRows wb t p b col).zipIdx.map (fun x => x.1 - 2 * spH p * (x.2 / spH p))
  let m := packList (spW p) (idx (2 * r) ++ idx (2 * r + 1))
  (List.range n).map (fun i => m / 2 ^ (32 * i) % 2 ^ 32)

def spkBody (o : SpkOp) (c : Cx) (s : State) : State :=
  let t := spMat o.t
  let ts := c.active s.free o.g
  let src := c.s s.free 4 o.sw.toNat
  let dst := c.s s.free 5 o.sc.toNat
  let low := BitVec.ofNat 64 (ts.headD 0)
  let nb := 2 * matK t / 32
  let sn := panelBytes t (2 * matK t) nb
  let dn := panelBytes t (matK t) nb
  if ts.isEmpty then advance s c 8
  else if src.toNat % 64 ≠ 0 then raiseFrag s c 3 src low (some c.fr.pc)
  else if dst.toNat % 64 ≠ 0 then raiseFrag s c 3 dst low (some c.fr.pc)
  else if !wbInside s c.gr.block src.toNat sn then raiseFrag s c 4 src low (some c.fr.pc)
  else if !wbInside s c.gr.block dst.toNat dn || (dst.toNat < src.toNat + sn && src.toNat < dst.toNat + dn) then
    raiseFrag s c 4 dst low (some c.fr.pc)
  else
    let wb := wbByte s c.gr.block
    let regs := ts.flatMap (fun tid =>
      (metaOf wb t o.pat src.toNat (tid % 8) (metaRegs o.t o.pat)).zipIdx.map (fun x =>
        (RegKey.v tid (o.vm.toNat + x.2), BitVec.ofNat 64 x.1)))
    advance (putRegs (winWrite s c.gr.block .wb dst.toNat (compress wb t o.pat src.toNat)) c regs) c 8

def execSpk (o : SpkOp) (s : State) : Out := laneMemOp (.spk o) o.w (spkBody o) s

/-! ### MZERO (R275) -/

/-- Rows of `count` tiles set to +0 for some threads. -/
def clearRows (t : MatTy) (base : Nat → Nat) (count : Nat) (c : Cx) (ts : List Nat) (s : State) : State :=
  ts.foldl (fun s tid => (List.range count).foldl (fun s i =>
    cbWrite s c (rowOff t c.gr.size (base tid) i tid) (List.replicate (rowBytes t) 0)) s) s

def mzeroBody (o : MzeroOp) (c : Cx) (s : State) : State :=
  let ts := c.active s.free o.g
  let sc (tid : Nat) := c.st s.free 5 tid o.sc.toNat
  matChecked c s ts none o.t sc (2 ^ o.lc.toNat) (fun s => advance (clearRows o.t (fun tid => (sc tid).toNat) (2 ^ o.lc.toNat) c ts s) c 8)

def execMzero (o : MzeroOp) (s : State) : Out := laneMemOp (.mzero o) o.w (mzeroBody o) s

/-! ### MDRN to registers (R278) -/

/-- One value of a tile in a destination type other than a block type, with its counts. -/
def drainElem (dt : DrainTy) (x : Nat) : Nat × List Nat :=
  match dt with
  | .f64 | .f32 | .i32 | .bq8 _ | .bq4 _ => (x, [0, 0, 0, 0])
  | .f32of64 m => let r := cvtFltFlt .f64 .f32 m false x; (r.1, elemCounts false r.2)
  | .f32ofi32 m => let r := cvtIntFlt .i32 .f32 m false x; (r.1, elemCounts false r.2)
  | .bf16 m => let r := cvtFltFlt .f32 .bf16 m false x; (r.1, elemCounts false r.2)
  | .f16 m => let r := cvtFltFlt .f32 .f16 m false x; (r.1, elemCounts false r.2)

/-- What one element of a block drain adds (R141). -/
def quantCounts (q : QuantInfo) : List Nat :=
  [if q.nan then 1 else 0, if q.ov then 1 else 0, if q.uf then 1 else 0, if q.sat then 1 else 0]

/-- The registers and counts of a block drain. -/
def drainBlocks (bt : BTy) (tid va vc : Nat) (xs : List Nat) : List (RegKey × DWord) × List Nat :=
  let qs := (chunksOf 32 xs.length xs).map (fun l => quantise bt (l.map (fDecode .f32)))
  let ex := packList 16 (qs.map (fun q => q.2.1 + 256 * q.2.2.1))
  (outPacked (bBits bt) tid va (qs.flatMap (·.1)) ++ outWord tid vc ex,
    (qs.flatMap (·.2.2.2)).foldl (fun a q => sumCounts a (quantCounts q)) [0, 0, 0, 0])

/-- The registers and counts of one thread's drain. -/
def drainThread (dt : DrainTy) (tid va : Nat) (xs : List Nat) : List (RegKey × DWord) × List Nat :=
  match dt with
  | .bq8 vc => drainBlocks .bq8 tid va vc.toNat xs
  | .bq4 vc => drainBlocks .bq4 tid va vc.toNat xs
  | .f64 | .f32 | .i32 | .f32of64 _ | .f32ofi32 _ | .bf16 _ | .f16 _ =>
    let r := xs.map (drainElem dt)
    ((if dt.bits = 64 then r.zipIdx.flatMap (fun p => outPair tid (va + 2 * p.2) p.1.1)
      else outPacked dt.bits tid va (r.map (·.1))),
     r.foldl (fun a x => sumCounts a x.2) [0, 0, 0, 0])

/-- The values of `count` tiles in a thread's rows, tile by tile. -/
def drainVals (s : State) (c : Cx) (t : MatTy) (base count tid : Nat) : List Nat :=
  (List.range count).flatMap (fun i => rowEls t (cbRead s c (rowOff t c.gr.size base i tid) (rowBytes t)))

def mdrnBody (o : MdrnOp) (c : Cx) (s : State) : State :=
  let ts := c.active s.free o.g
  let sc (tid : Nat) := c.st s.free 5 tid o.sc.toNat
  let n := 2 ^ o.lc.toNat
  matChecked c s ts none o.st sc n (fun s =>
    let rs := ts.map (fun tid => drainThread o.dt tid o.va.toNat (drainVals s c o.st (sc tid).toNat n tid))
    let s := putRegs s c (rs.flatMap (·.1))
    let s := if o.clr then clearRows o.st (fun tid => (sc tid).toNat) n c ts s else s
    advance (addCounts s c.gr.place c.gr.ctx c.gr.run.isNone (rs.foldl (fun a r => sumCounts a r.2) [0, 0, 0, 0])) c 8)

def execMdrn (o : MdrnOp) (s : State) : Out := laneMemOp (.mdrn o) o.w (mdrnBody o) s

/-! ### MDRN to memory (R279) -/

/-- One access for each element of a thread's row. -/
def drainAccs (st : MatTy) (dt : DrainTy) (tid : Nat) (va : DWord) : List Acc :=
  (List.range st.n).map (fun n =>
    { tid, va := va + BitVec.ofNat 64 (n * (dt.bits / 8)), n := dt.bits / 8, data := [] })

/-- What a drain stores and counts: the elements of its threads' rows, narrowed, in the order of its accesses. -/
def drainRows (st : MatTy) (dt : DrainTy) (base : Nat → Nat) (c : Cx) (ts : List Nat) (s : State) : List (Nat × List Nat) :=
  ts.flatMap (fun tid => (drainVals s c st (base tid) 1 tid).map (drainElem dt))

/-- A drain performed: the rows are read, stored, counted and cleared in one step, at a replay as they are then (log 29). -/
def performDrain (st : MatTy) (dt : DrainTy) (clr : Bool) (bases : Tab Nat) (c : Cx) (s : State) (l : List (Acc × Nat × Nat)) : Perf :=
  let ts := (l.map (·.1.tid)).dedup
  let base (tid : Nat) : Nat := tabGet 0 bases tid
  let rows := drainRows st dt base c ts s
  let stores := l.zipIdx.map (fun p => ({ p.1.1 with data := leBytes (dt.bits / 8) (rows.getD p.2 (0, [])).1 }, p.1.2))
  match performStore (.frag c) s stores with
  | .done s1 =>
    .done (addCounts (if clr then clearRows st base 1 c ts s1 else s1) c.gr.place c.gr.ctx c.gr.run.isNone
      (rows.foldl (fun a x => sumCounts a x.2) [0, 0, 0, 0]))
  | r => r

def mdrnMemBody (o : MdrnMemOp) (c : Cx) (s : State) : State :=
  let ts := c.active s.free o.g
  let sc (tid : Nat) := c.st s.free 5 tid o.sc.toNat
  let bases : Tab Nat := ts.map (fun tid => (tid, (sc tid).toNat))
  let accs := ts.flatMap (fun tid => drainAccs o.st o.dt tid (BitVec.ofNat 64 (c.lane s.free 1 tid 64 o.va.toNat)))
  let mis := accs.find? (fun a => a.va.toNat % a.n != 0)
  if (ts.all (fun tid => (sc tid).toNat % 256 == 0)) && mis.isSome then
    raiseAcc s c 3 (mis.getD { tid := 0, va := 0, n := 1, data := [] })
  else matChecked c s ts none o.st sc 1 (fun s =>
    issueReq c s 8 .store { kind := .drain o.st o.dt o.clr bases, accs } (performDrain o.st o.dt o.clr bases c))

def execMdrnMem (o : MdrnMemOp) (s : State) : Out := laneMemOp (.mdrnMem o) o.w (mdrnMemBody o) s

/-! ### MDRN as a peer add (R280 to R282) -/

/-- The fields of a tile descriptor (R281). -/
structure TileDesc where
  next : Nat
  got : Nat
  mask : Nat
  each : Nat
  round : Nat
  deriving DecidableEq, Repr

def TileDesc.read (bs : List Byte) : TileDesc :=
  { next := field bs 2 1, got := field bs 3 1, mask := field bs 4 2, each := field bs 6 1, round := field bs 8 8 }

/-- A tile descriptor that is not malformed. -/
def TileDesc.parse (bs : List Byte) : Option TileDesc :=
  if field bs 0 2 = 0 ∧ field bs 7 1 = 0 ∧ field bs 4 2 ≠ 0 ∧ field bs 6 1 ≠ 0 then some (TileDesc.read bs) else none

def TileDesc.bytes (d : TileDesc) : List Byte :=
  leBytes 8 (d.next * 2 ^ 16 + d.got * 2 ^ 24 + d.mask * 2 ^ 32 + d.each * 2 ^ 48) ++ leBytes 8 d.round

/-- Contributing members in ascending order. -/
def TileDesc.members (d : TileDesc) : List Nat := (List.range 16).filter (fun m => bitAt d.mask m)

/-- The member expected now. -/
def TileDesc.expected (d : TileDesc) : Option Nat :=
  match d.members.find? (fun m => d.next ≤ m) with
  | some m => some m
  | none => d.members.head?

/-- The descriptor after an arrival of member `m`. -/
def TileDesc.arrive (d : TileDesc) (m : Nat) : TileDesc :=
  if (d.got + 1) % 256 ≠ d.each then { d with got := (d.got + 1) % 256 }
  else match d.members.find? (fun x => m < x) with
    | some x => { d with got := 0, next := x }
    | none => { d with got := 0, next := d.members.headD 0, round := (d.round + 1) % 2 ^ 64 }

/-- The block that a target word names, if an add may go to it: another member of the gang that has not begun to end; one that
has been placed and not started yet exists (R48). -/
def peerTarget (s : State) (blk m : Nat) : Option Nat :=
  match gangOf s blk with
  | none => none
  | some g => g.blocks.find? (fun b => b != blk && (match s.blocks[b]? with
    | some bl => bl.member == m && !bl.ending && (bl.life == .running || bl.life == .deque)
    | none => false))

/-- The issuer's member index. -/
def memberOf (s : State) (blk : Nat) : Nat := ((s.blocks[blk]?).map (·.member)).getD 0

/-- The target checks of R280: the failing value with its thread, the lowest where none is singled out, or the target block. -/
def peerChecked (s : State) (c : Cx) (o : MdrnPeerOp) (x : Nat) (ts : List Nat) : Except (DWord × Nat) Nat :=
  let word := (BitVec.ofNat 64 x, ts.headD 0)
  if bits x 58 6 ≠ 0 ∨ bits x 36 4 ≠ 0 ∨ bits x 19 13 ≠ 0 then .error word else
  match peerTarget s c.gr.block (bits x 32 4) with
  | none => .error word
  | some b => match s.blocks[b]? with
    | none => .error word
    | some bl =>
      match ts.find? (fun tid => bl.entry.cb < tileOff o.st c.gr.size (bits x 0 19) 0 (tid / 8) + tileBytes o.st) with
      | some tid => .error (BitVec.ofNat 64 x, tid)
      | none =>
      if !o.ord then .ok b
      else
        let off := bits x 40 18
        let bad := (BitVec.ofNat 64 off, ts.headD 0)
        if bl.entry.ls < off + 16 then .error bad
        else match TileDesc.parse (winRead s b .ls off 16) with
          | none => .error bad
          | some d => if bitAt d.mask (memberOf s c.gr.block) then .ok b else .error bad

/-- The rows of one octet's active threads, each with its place in the target's CB window. -/
def peerRows (s : State) (c : Cx) (t : MatTy) (src : Nat → Nat) (dst : Nat) (ts : List Nat) (j : Nat) : List (Nat × List Byte) :=
  (ts.filter (fun tid => tid / 8 == j)).map (fun tid =>
    (rowOff t c.gr.size dst 0 tid, cbRead s c (rowOff t c.gr.size (src tid) 0 tid) (rowBytes t)))

def mdrnPeerBody (o : MdrnPeerOp) (c : Cx) (s : State) : State :=
  let ts := c.active s.free o.g
  let x := (c.s s.free 4 o.sw.toNat).toNat
  let sc (tid : Nat) := c.st s.free 5 tid o.sc.toNat
  let low := BitVec.ofNat 64 (ts.headD 0)
  let off := bits x 40 18
  let aligned := ts.all (fun tid => (sc tid).toNat % 256 == 0)
  if !ts.isEmpty && aligned && bits x 0 19 % 256 != 0 then
    raiseFrag s c 3 (BitVec.ofNat 64 x) low (some c.fr.pc)
  else if !ts.isEmpty && aligned && o.ord && off % 16 != 0 then
    raiseFrag s c 3 (BitVec.ofNat 64 off) low (some c.fr.pc)
  else matChecked c s ts none o.st sc 1 (fun s =>
    if ts.isEmpty then advance s c 8 else
    match peerChecked s c o x ts with
    | .error a => raiseFrag s c 4 a.1 (BitVec.ofNat 64 a.2) (some c.fr.pc)
    | .ok b =>
      let rows := (octetsOf ts).map (peerRows s c o.st (fun tid => (sc tid).toNat) (bits x 0 19) ts)
      let parts := if o.ord then [rows.flatten] else rows
      let adds : List PeerAdd := parts.zipIdx.map (fun p =>
        { id := s.nextId + p.2, src := c.gr.block, member := memberOf s c.gr.block, dst := b,
          desc := if o.ord then some off else none, st := o.st, rows := p.1, counted := c.gr.run.isNone })
      let s := { s with adds := s.adds ++ adds, nextId := s.nextId + adds.length }
      let s := modBlock s c.gr.block (fun b => { b with clean := false })
      advance (if o.clr then clearRows o.st (fun tid => (sc tid).toNat) 1 c ts s else s) c 8)

def execMdrnPeer (o : MdrnPeerOp) (s : State) : Out := laneMemOp (.mdrnPeer o) o.w (mdrnPeerBody o) s

/-- One element of a peer add with its counts (R280). -/
def addElem (t : MatTy) (a b : Nat) : Nat × List Nat :=
  match t.acc with
  | .i32 => ((a + b) % 2 ^ 32, [0, 0, 0, 0])
  | .f64 => let r := fAdd .f64 .rn false a b; (r.1, elemCounts (fDecode .f64 r.1).isNan r.2)
  | .f32 => let r := fAdd .f32 .rn false a b; (r.1, elemCounts (fDecode .f32 r.1).isNan r.2)

/-- One row added into the target's CB window. -/
def addRow (t : MatTy) (b : Nat) (p : State × List Nat) (row : Nat × List Byte) : State × List Nat :=
  let old := rowEls t (winRead p.1 b .cb row.1 (rowBytes t))
  let new := rowEls t row.2
  let r := (List.range t.n).map (fun n => addElem t (old.getD n 0) (new.getD n 0))
  (winWrite p.1 b .cb row.1 (r.flatMap (fun x => leBytes (accBytes t) x.1)), r.foldl (fun a x => sumCounts a x.2) p.2)

/-- A block whose end waits only for peer adds ends when the last one has landed (R282). -/
def endIfDrained (s : State) (blk : Nat) : State :=
  match s.blocks[blk]? with
  | none => s
  | some b =>
    if b.ending && b.life == .running && !(s.adds.any (fun a => a.src == blk || a.dst == blk)) then blockEnd s blk else s

/-- The add performed at the target. -/
def landAdd (s : State) (a : PeerAdd) (b : Block) : State :=
  let r := a.rows.foldl (addRow a.st a.dst) ({ s with adds := s.adds.filter (fun x => x.id != a.id) }, [0, 0, 0, 0])
  addCounts r.1 b.core b.ctx a.counted r.2

/-- The turn of an ordered add taken in the descriptor: `got` and `next`, and `round`. -/
def takeTurn (s : State) (a : PeerAdd) (off : Nat) (d : TileDesc) : State :=
  let x := d.arrive a.member
  winWrite (winWrite s a.dst .ls (off + 2) (leBytes 1 x.next ++ leBytes 1 x.got)) a.dst .ls (off + 8) (leBytes 8 x.round)

/-- PEER_ADD_LANDING (R280 to R282): an add lands in a block that has started, an ordered one in its turn under the descriptor
as it is found then (R281). -/
def execPeerAddLanding (id : Nat) (s : State) : Out :=
  match s.adds.find? (fun a => a.id == id) with
  | none => .next s
  | some a => match s.blocks[a.dst]? with
    | none => .next s
    | some b =>
      if b.life != .running then .next s else
      let finish (s : State) : State := endIfDrained (endIfDrained (countGang s a.src) a.src) a.dst
      match a.desc with
      | none => .next (finish (landAdd s a b))
      | some off =>
        let d := TileDesc.read (winRead s a.dst .ls off 16)
        if d.expected = some a.member then .next (finish (takeTurn (landAdd s a b) a off d)) else .next s

/-! ### LDG.row (R273, R274) -/

/-- The operand type of a row gather. -/
def rowMat : RowTy → MatTy
  | .f64 => .f64 | .f32 => .f32 | .bf16 => .bf16 | .f16 => .f16 | .i8 => .i8 | .bq8 _ => .bq8 | .bq4 _ => .bq4

/-- Bytes of a row to one exponent byte, and the exponent register. -/
def rowExp : RowTy → Option (Nat × BitVec 8)
  | .bq8 vc => some (16, vc)
  | .bq4 vc => some (8, vc)
  | .f64 | .f32 | .bf16 | .f16 | .i8 => none

/-- The accesses of one thread: its row, and the bytes of its exponents. a - s[sb] is an exact integer (R9): below the base it
is negative. -/
def rowAccs (c : Cx) (free : Nat) (o : RowOp) (tid : Nat) : List Acc :=
  let a := c.gaddr free tid 32 o.x
  let sb := c.st free 0 tid o.x.sb.toNat
  { tid, va := a, n := 32, data := [] } :: (match rowExp o.t with
    | none => []
    | some (q, _) =>
      let ea := c.st free 6 tid (o.x.sb.toNat + 1) + BitVec.ofInt 64 (((a.toNat : Int) - sb.toNat) / q)
      (List.range (32 / q)).map (fun i => { tid, va := ea + BitVec.ofNat 64 i, n := 1, data := [] }))

/-- The rows loaded: A group and exponent register of each thread. -/
def performRow (t : RowTy) (vt : BitVec 8) (c : Cx) (s : State) (l : List (Acc × Nat × Nat)) : Perf :=
  unlessBarred (c.barred s l) s <|
  let r := loadAccs s c.who l
  let regs (p : Acc × List Byte) : List (RegKey × DWord) :=
    if p.1.n = 32 then (List.range 8).map (fun i =>
      (.v p.1.tid (vt.toNat + i), BitVec.ofNat 64 (leNat ((p.2.drop (4 * i)).take 4))))
    else []
  let exps (p : Acc × List Byte) : List (RegKey × DWord) :=
    match rowExp t with
    | none => []
    | some (_, vc) => if p.1.n = 32 then
        [(.v p.1.tid vc.toNat, BitVec.ofNat 64 (leNat ((r.1.filter (fun x => x.1.tid == p.1.tid && x.1.n == 1)).flatMap (·.2))))]
      else []
  .done (queueRace (putRegs r.2.2 c (r.1.flatMap (fun p => regs p ++ exps p))) c r.2.1)

def ldgRowBody (o : RowOp) (c : Cx) (s : State) : State :=
  let accs := (c.active s.free o.g).flatMap (rowAccs c s.free o)
  let sb (tid : Nat) := c.st s.free 0 tid o.x.sb.toNat
  match accs.find? (fun a => a.n == 32 && (a.va.toNat % 32 != 0 || ((rowExp o.t).isSome && (a.va - sb a.tid).toNat % 32 != 0))) with
  | some a => raiseAcc s c 3 a
  | none => issueReq c s 8 .load { kind := .row o.t o.vt, accs } (performRow o.t o.vt c)

def execLdgRow (o : RowOp) (s : State) : Out := laneMemOp (.ldgRow o) o.w (ldgRowBody o) s

end Sys2Proof.Machine
end

