-- ==== Sys2Proof/Machine/Traps.lean ====
section
/-! DEFINITION. Traps and returns (15 R306 to R312): TFENCE, TRAP, RTE on compute cores, their delivery, SVC, ERET and HALT
on control cores, and the interrupt (R121). -/

namespace Sys2Proof.Machine

/-! ### Compute cores (R311) -/

/-- How the trap instructions issue. -/
def trapInfo (fence : Bool) : IssueInfo := { cls := .compute, w := true, touch := true, fence, rel := false }

def tfenceBody (c : Cx) (s : State) : State :=
  let x := c.fflags.setWidth 64 &&& c.gr.sharedRead s.free 0 c.f (c.gr.fmask.setWidth 64)
  if x ≠ 0 then raiseFrag s c 8 0 x (some (c.fr.pc + 4)) else advance s c 4

def execTfence (o : WOp) (s : State) : Out := issue (.tfence o) (trapInfo true) s tfenceBody noCtl

def execTrap (o : TrapOp) (s : State) : Out :=
  issue (.trap o) (trapInfo false) s (fun c s => raiseFrag s c 18 0 (o.n.setWidth 64) (some (c.fr.pc + 4))) noCtl
def execTrapBreak (o : TrapOp) (s : State) : Out :=
  issue (.trapBreak o) (trapInfo false) s (fun c s => raiseFrag s c 17 0 (o.n.setWidth 64) (some (c.fr.pc + 4))) noCtl

def execRte (o : WOp) (s : State) : Out :=
  issue (.rte o) (trapInfo false) s (fun c s => returnTrap s c (wordOf (.rte o))) noCtl

/-- Whether the head entry of a group's trap queue can be delivered now (R308). -/
def deliverable (s : State) (g : Nat) : Bool :=
  match s.groups[g]? with
  | none => false
  | some gr =>
    gr.life == .live && gr.handler.isNone && blockRuns s gr.block &&
    (match gr.trapQ with
     | [] => false
     | e :: _ => (match gr.frag? e.frag with
       | none => false
       | some fr => fr.slot.isSome && fr.wait.atBoundary && !(gr.log.any (fun x => precedes e.frag x.frag x.heirs))
           && !(s.chunks.any (fun k => k.g == g && precedes e.frag k.f k.heirs && k.data.isNone))))

/-- TRAP_DELIVERY (R308): races that the group has detected are queued by now (R228), and the head entry is delivered. -/
def execTrapDelivery (g : Nat) (s : State) : Out :=
  if !(match s.groups[g]? with | some gr => gr.life == .live && blockRuns s gr.block | none => false) then .next s else
  let s := settleLate s g
  .next (if deliverable s g then deliverTrap s g else s)

/-! ### Control cores (R312, R120, R121) -/

/-- How a privileged instruction issues. -/
def privInfo : IssueInfo := { cls := .priv, w := true, touch := false, fence := false, rel := false }

def execSvc (o : TrapOp) (s : State) : Out :=
  issue (.svc o) privInfo s noFrag (fun cc c s => ctlTrap s cc 19 0 0 (o.n.setWidth 64) (c.pc + 4))

def execEret (o : WOp) (s : State) : Out :=
  issue (.eret o) privInfo s noFrag (fun cc c s => privileged cc c s (fun s => eretCtl s cc (wordOf (.eret o))))

def execHalt (o : WOp) (s : State) : Out :=
  issue (.halt o) privInfo s noFrag (fun cc c s => privileged cc c s (fun s => parkCtl s cc .halted))

/-- Sources that are pending and enabled (R121). -/
def Ctl.pending (c : Ctl) : BitVec 8 := c.kpend &&& c.kmask

/-- The lowest set bit of a set of sources. -/
def lowestSource (x : BitVec 8) : Nat := (((List.range 8).filter (fun i => x.getLsbD i)).head?).getD 0

/-- INTERRUPT (R121, R120, R312): the lowest pending enabled source is taken at an instruction boundary, after deferred
traps; the instruction behind a HALT is the first one not performed. -/
def execInterrupt (cc : Nat) (s : State) : Out :=
  match s.ctls[cc]? with
  | none => .next s
  | some c =>
    if c.stopped || !ctlEnabled s cc || !c.ie || c.pending == 0 || !c.deferred.isEmpty then .next s else
    let i := lowestSource c.pending
    let rpc := if c.wait = .halted then c.pc + 4 else c.pc
    let t := ctlTrap (modCtl s cc (fun c => { c with kpend := c.kpend &&& ~~~(BitVec.ofNat 8 (2 ^ i)) })) cc 20 i
      (BitVec.ofNat 64 i) (if i = 7 then BitVec.ofNat 64 c.source7 else 0) rpc
    match t.ctls[cc]? with
    | none => .next s
    | some d => .next (if d.depth = c.depth && !d.stopped then s else t)

end Sys2Proof.Machine
end

