-- ==== Sys2Proof/Machine/Priv.lean ====
section
/-! DEFINITION. Invalidation and keys (16 R328 to R336): TLBI, CTXI and KEYSET. -/

namespace Sys2Proof.Machine

/-! ### Translations dropped (R330) -/

/-- The dies whose presence bit is set (R329). -/
def presentDies (s : State) (a : BitVec 16) : List Nat :=
  (List.range 6).filter (fun d => (tabGet { presence := 0, busy := false } s.asids a.toNat).presence.getLsbD d)

/-- The die of a TLB cluster. -/
def clusterDie (cl : Nat) : Nat := if cl < 48 then cl / 12 else 4 + (cl - 48)

/-- Translations dropped on dies; `asid` and `va` say which, `none` for all. -/
def dropXlat (s : State) (dies : List Nat) (asid : Option (BitVec 16)) (va : Option Nat) : State :=
  { s with xlat := s.xlat.filter (fun x =>
      !(dies.contains (clusterDie x.cluster) && (match asid with | some a => x.asid == a | none => true)
        && (match va with | some v => entryCovers x v | none => true))) }

/-- A registered word whose L1 line is evicted: S(c) moves to V, O(c) stays with its line gone (R224). -/
def Reg.evicted : Reg → Option Reg
  | .released _ _ => none
  | .owned a l _ => some (.owned a l evictedVa)
  | r => some r

/-- Whether the L1 line of a registered word lies on a core and under an address that a test takes. -/
def Reg.lineIn (s : State) (p : Nat → BitVec 16 → DWord → Bool) : Reg → Bool
  | .released (.group g) va | .owned (.group g) _ va => (match s.groups[g]? with
    | some gr => p gr.place gr.ctx.asid va
    | none => false)
  | _ => false

/-- Lines of compute cores' L1s evicted: copies go, S(c) moves to V, O(c) stays without its line (R330, R224). -/
def evictLines (s : State) (dies : List Nat) (asid : Option (BitVec 16)) (cover : DWord → Bool) : State :=
  let gone (core : Nat) (a : BitVec 16) (va : DWord) : Bool :=
    dies.contains (core / 128) && (match asid with | some x => x == a | none => true) && cover va
  { s with
    copies := s.copies.filter (fun c => match c.site with
      | .core n => !gone n c.asid c.va
      | .ctl _ | .iod _ => true),
    reg := s.reg.filterMap (fun p => if p.2.lineIn s gone then p.2.evicted.map (fun r => (p.1, r)) else some p) }

/-- The bytes that a page holding an address spans, by the largest cached leaf that covers it; 4 KiB without one. -/
def pageSpan (s : State) (a : BitVec 16) (va : Nat) : Nat :=
  s.xlat.foldl (fun n x =>
    if x.asid == a && pteL x.entry && entryCovers x va then
      max n (if x.whole then 65536 else 2 ^ (12 + 9 * x.level))
    else n) 4096

/-- Presence bits of an ASID cleared (R329). -/
def clearPresence (s : State) (a : Nat) : State :=
  { s with asids := tabSet s.asids a { tabGet { presence := 0, busy := false } s.asids a with presence := 0 } }

/-- A privileged instruction that is ordered as a release and an acquire at pkg scope covering every address. -/
def fenced (cc : Nat) (s : State) (body : State → State) : State :=
  if !ctlMayRelease s cc then parkCtl s cc .retry
  else acquireAll (body (release (parkCtl s cc .run) (.control cc) .pkg)) (.ctl cc) .pkg

/-! ### TLBI and CTXI -/

def tlbiPageBody (o : PairOp) (cc : Nat) (c : Ctl) (s : State) : State :=
  let a := (c.sreg o.sa.toNat).setWidth 16
  let va := c.sreg o.sb.toNat
  fenced cc s (fun s =>
    let s := if !canonical va then s else
      let n := pageSpan s a va.toNat
      evictLines (dropXlat s (presentDies s a) (some a) (some va.toNat)) (presentDies s a) (some a)
        (fun x => x.toNat / n == va.toNat / n)
    advanceCtl s cc 4)

def execTlbiPage (o : PairOp) (s : State) : Out :=
  issue (.tlbiPage o) privInfo s noFrag (fun cc c s => privileged cc c s (tlbiPageBody o cc c))

/-- Every entry of an ASID dropped, its lines evicted, its presence bits cleared. -/
def dropAsid (s : State) (a : BitVec 16) : State :=
  let dies := presentDies s a
  clearPresence (evictLines (dropXlat s dies (some a) none) dies (some a) (fun _ => true)) a.toNat

def tlbiAsidBody (o : SrcOp) (cc : Nat) (c : Ctl) (s : State) : State :=
  fenced cc s (fun s => advanceCtl (dropAsid s ((c.sreg o.sa.toNat).setWidth 16)) cc 4)

def execTlbiAsid (o : SrcOp) (s : State) : Out :=
  issue (.tlbiAsid o) privInfo s noFrag (fun cc c s => privileged cc c s (tlbiAsidBody o cc c))

def tlbiAllBody (cc : Nat) (_ : Ctl) (s : State) : State :=
  fenced cc s (fun s =>
    let s := evictLines { s with xlat := [] } (List.range 6) none (fun _ => true)
    advanceCtl { s with asids := s.asids.map (fun p => (p.1, { p.2 with presence := 0 })) } cc 4)

def execTlbiAll (o : WOp) (s : State) : Out :=
  issue (.tlbiAll o) privInfo s noFrag (fun cc c s => privileged cc c s (tlbiAllBody cc c))

/-- The busy mark of an ASID set or cleared. -/
def setBusy (s : State) (a : Nat) (b : Bool) : State :=
  { s with asids := tabSet s.asids a { tabGet { presence := 0, busy := false } s.asids a with busy := b } }

/-- CTXI: the ASID is busy from its issue to its completion, which is the core's next turn. -/
def ctxiBody (o : SrcOp) (cc : Nat) (c : Ctl) (s : State) : State :=
  let a : BitVec 16 := (c.sreg o.sa.toNat).setWidth 16
  if c.wait = .retry && (tabGet { presence := 0, busy := false } s.asids a.toNat).busy then
    fenced cc s (fun s => advanceCtl (setBusy (dropAsid s a) a.toNat false) cc 4)
  else parkCtl (setBusy s a.toNat true) cc .retry

def execCtxi (o : SrcOp) (s : State) : Out :=
  issue (.ctxi o) privInfo s noFrag (fun cc c s => privileged cc c s (ctxiBody o cc c))

/-! ### KEYSET (R336) -/

/-- What a word's home held before its owner wrote it reads under the new key as noise (R214, R336). -/
def rekeyLast (old new : Nat) (s : State) (p : Nat × Reg) : Nat × Reg :=
  match p.2 with
  | .owned a _ va => if lineKey s p.1 = some old then (p.1, .owned a (lastReleased s new p.1) va) else p
  | r => (p.1, r)

/-- The lines of a unit under the old key are from now on under the new one; those of a unit whose tag that is are written
back under it, with the values they keep. -/
def rekeyLines (old new : Nat) (s : State) (p : Nat × UnitTag) : State :=
  let mine := p.2.lines.filter (fun l => l.key == old)
  if p.2.key = new then
    mine.foldl (fun s l => { s with mem := putBytes memSet s.mem (4 * l.word) (leBytes 4 l.val.toNat) })
      { s with tags := tabSet s.tags p.1 { p.2 with lines := p.2.lines.filter (fun l => l.key != old) } }
  else { s with tags := tabSet s.tags p.1 { p.2 with lines := p.2.lines.map (fun l => if l.key = old then { l with key := new } else l) } }

/-- The words that caches hold registered under a key which changes keep their values, and are written back under the new key
(R336): their units go to it, which leaves noise there, and the lines follow. -/
def rekeyWords (old new : Nat) (s : State) : State :=
  let us := ((s.reg.filter (fun p => heldInCache s p.2 || heldWord s p.1)).map (fun p => p.1 / 16)).eraseDups.filter
    (fun u => (tabFind s.tags u).any (fun t => t.key == old))
  let s1 := us.foldl (fun s u => retag s new (64 * u)) { s with reg := s.reg.map (rekeyLast old new s) }
  (s1.tags.filter (fun p => p.2.lines.any (fun l => l.key == old))).foldl (rekeyLines old new) s1

/-- The key table entry `i` takes an abstract key. -/
def setKey (s : State) (i key : Nat) : State :=
  let old := tabGet i s.keys i
  let s := if old = key then s else rekeyWords old key s
  { s with keys := tabPut i s.keys i key, erased := s.erased.filter (· != i) }

/-- The end of a KEYSET. -/
def keysetDone (sd : BitVec 6) (cc : Nat) (s : State) : State := modCtl s cc (fun k => k.setS sd.toNat 0)

/-- KEYSET.load with its material translated. -/
def performKeyset (sd : BitVec 6) (i : Nat) (cc : Nat) (c : Ctl) (s : State) (l : List (Acc × Nat × Nat)) : Perf :=
  let r := loadAccs s (c.who cc) l
  let s := queueRaceCtl r.2.2 cc c.pc r.2.1
  let s := setKey (release s (.control cc) .pkg) i (loadedKey i (leNat (r.1.flatMap (·.2))))
  .done (acquireAll (keysetDone sd cc s) (.ctl cc) .pkg)

/-- The key id of a KEYSET: ACCESS for 0 and above 1,023. -/
def keyChecked (cc : Nat) (i : DWord) (s : State) (body : State → State) : State :=
  if i = 0 ∨ 1023 < i.toNat then raiseCtl s cc 4 0 0 else body s

def keysetLoadBody (o : KeyLoadOp) (cc : Nat) (c : Ctl) (s : State) : State :=
  let i := c.sreg o.sa.toNat
  let va := c.sreg o.sb.toNat
  keyChecked cc i s (fun s =>
    if va.toNat % 64 ≠ 0 then raiseCtl s cc 3 va 0
    else if !ctlMayRelease s cc then parkCtl s cc .retry
    else issueReqCtl cc c s 8 .load { kind := .keyset o.sd i.toNat, accs := accs8 0 va [] 8 }
      (performKeyset o.sd i.toNat cc c))

def execKeysetLoad (o : KeyLoadOp) (s : State) : Out :=
  issue (.keysetLoad o) privInfo s noFrag
    (fun cc c s => privileged cc c s (fun s => guardedCtl o.g 8 (keysetLoadBody o) cc c s))

/-- A KEYSET without material. -/
def keysetBody (o : KeyOp) (change : State → Nat → State) (cc : Nat) (c : Ctl) (s : State) : State :=
  let i := c.sreg o.sa.toNat
  keyChecked cc i s (fun s => fenced cc s (fun s => advanceCtl (keysetDone o.sd cc (change s i.toNat)) cc 8))

def keyGen (s : State) (i : Nat) : State := { setKey s i s.nextKey with nextKey := s.nextKey + 1 }
def keyErase (s : State) (i : Nat) : State := { s with erased := if s.erased.contains i then s.erased else i :: s.erased }

def execKeysetGen (o : KeyOp) (s : State) : Out :=
  issue (.keysetGen o) privInfo s noFrag
    (fun cc c s => privileged cc c s (fun s => guardedCtl o.g 8 (keysetBody o keyGen) cc c s))
def execKeysetErase (o : KeyOp) (s : State) : Out :=
  issue (.keysetErase o) privInfo s noFrag
    (fun cc c s => privileged cc c s (fun s => guardedCtl o.g 8 (keysetBody o keyErase) cc c s))

end Sys2Proof.Machine
end

