-- ==== Sys2Proof/Machine/Replay.lean ====
section
/-! DEFINITION. The replay of parked instructions (R315), what wakes them (R314), and accesses and evictions that come to a
home by themselves (R224, R225): MONITOR_WAKE, WALK_RETRY, HOME_ACCESS, EVICTION. -/

namespace Sys2Proof.Machine

/-! ### Replay (R315) -/

/-- What a parked instruction asks of its pages. -/
def ReqKind.use : ReqKind → Use
  | .load .. | .row .. | .sld .. | .fill .. | .enq .. | .engine .. | .spawn .. | .tdef .. | .keyset .. => .load
  | .store | .sst | .drain .. | .deq .. => .store
  | .atom .. | .satom .. | .count .. => .atomic

/-- A parked instruction performed with its addresses translated; KEYSET is never parked (R306). -/
def performReq (k : ReqKind) (c : Cx) (s : State) (l : List (Acc × Nat × Nat)) : Perf :=
  match k with
  | .load t _ vt => performLoad t vt c s l
  | .store => performStore (.frag c) s l
  | .row t vt => performRow t vt c s l
  | .atom rel kind scope vt => performAtom rel kind scope vt c s l
  | .sld st sz => performSld st sz (.frag c) s l
  | .sst => performStore (.frag c) s l
  | .satom rel kind scope sd => performSatom rel kind scope sd (.frag c) s l
  | .drain st dt clr base => performDrain st dt clr base c s l
  | .fill size space offs => performFill size space offs c s l
  | .count dec rel scope sd amount => performCount dec rel scope sd amount (.frag c) s l
  | .enq scope sd len => performEnq scope sd len (.frag c) s l
  | .deq scope sd len => performDeq scope sd len (.frag c) s l
  | .engine op scope sd => performEngine op scope sd (.frag c) s l
  | .spawn a b => performSpawn a b c s l
  | .tdef sd tile => performTdef sd tile c s l
  | .keyset _ _ => .done s

/-- The checks of a replay: those of DEQ ask its descriptor for a load and its record for a store. -/
def replayChecks (s : State) (w : Who) (r : Req) : Checked × State :=
  match r.kind with
  | .deq .. =>
    let d := checkAccs s w .load (r.accs.take 8)
    let x := checkAccs d.2 w .store (r.accs.drop 8)
    (match d.1, x.1 with
     | .access a, _ => .access a
     | .misalign a, _ => .access a
     | _, .access a => .access a
     | _, .misalign a => .access a
     | .park p e, .park q f => .park (p ++ q) (e ++ f)
     | .park p e, .ok _ => .park p e
     | .ok _, .park q f => .park q f
     | .ok l, .ok m => .ok (l ++ m), x.2)
  | k => checkAccs s w k.use r.accs

/-- An entry put into a log in the order of parking. -/
def putEntry (e : LogEntry) : List LogEntry → List LogEntry
  | [] => [e]
  | x :: l => if e.id < x.id then e :: x :: l else if e.id = x.id then e :: l else x :: putEntry e l

/-- The access code of a page that a parked instruction waits on (R304), before it has begun. -/
def Req.code (r : Req) : DWord → Nat :=
  match r.kind with
  | .enq .. => queueCode true (((r.accs.head?).map (·.va)).getD 0)
  | .deq .. => queueCode false (((r.accs.head?).map (·.va)).getD 0)
  | k => fun _ => k.use.code

/-- That of a page which it meets when it is performed: the galley of a queue, or an entry descriptor. -/
def Req.innerCode (r : Req) : DWord → Nat :=
  match r.kind with
  | .enq .. => galleyCode true
  | .deq .. => galleyCode false
  | k => fun _ => k.use.code

/-- The queue whose operation has begun and waits on its galley (R290). -/
def Req.begins (r : Req) (l : List (Acc × Nat × Nat)) : Option Nat :=
  match r.kind with
  | .enq .. | .deq .. => (l.head?).map (·.2.1)
  | _ => none

/-- A replay that meets pages or homes again (R315): the instruction stays parked, and only pages that the group has not
posted yet are posted; `inner` for pages that it met when it was performed. -/
def parkAgain (s : State) (g : Nat) (gr : Group) (e : LogEntry) (inner : Bool) (pages : List (DWord × Nat))
    (dies : List Nat) (begun : Option Nat) : State :=
  let known := gr.pages ++ e.pages
  let access := if inner then e.req.innerCode else e.req.code
  let fresh := pages.filter (fun p => !(known.any (samePage p.1)) && !ownFaultPage s gr.ctx e.req inner p.1)
  let s := fresh.foldl (fun s p => postGroupPage s gr (access p.1) p.1) s
  let s := pages.foldl (fun s p => armMonitor s p.2 (.group g)) s
  modGroup s g (fun gr => { gr with log := putEntry { e with pages := pages.map (·.1), dies, begun } gr.log })

/-- A dropped instruction (R315): one deferred ACCESS entry. -/
def dropEntry (s : State) (g : Nat) (fr : Frag) (e : LogEntry) (addr aux : DWord) : State :=
  enqueueTrap s g { cause := 4, frag := fr.id, slot := fr.slot.getD 0, ipc := e.ipc, addr, aux, rpc := none } e.byHandler

/-- The repeated walk of one parked instruction: it replays, stays parked, or is dropped. -/
def replayEntry (s : State) (g : Nat) (e : LogEntry) : State :=
  match s.groups[g]? with
  | none => s
  | some gr0 =>
    let gr := { gr0 with log := gr0.log.filter (fun x => x.id != e.id) }
    match gr.frag? e.frag with
    | none => modGroup s g (fun _ => gr)
    | some fr =>
      let c : Cx := { g, f := e.frag, gr, fr := { fr with pc := e.ipc, mask := e.mask } }
      let s1 := modGroup s g (fun _ => gr)
      match replayChecks s1 c.who e.req with
      | (.access a, s2) => dropEntry s2 g fr e a.va (BitVec.ofNat 64 a.tid)
      | (.misalign a, s2) => dropEntry s2 g fr e a.va (BitVec.ofNat 64 a.tid)
      | (.park pages dies, s2) => parkAgain s2 g gr e false pages dies e.begun
      | (.ok l, s2) => match performReq e.req.kind c s2 l with
        | .done s3 => s3
        | .trap _ addr aux s3 => dropEntry s3 g fr e addr aux
        | .park pages dies s3 => parkAgain s3 g gr e true pages dies (e.req.begins l)
        | .again s3 => parkAgain s3 g gr e false [] [] e.begun

/-- Whether a group's parked instructions can replay: it runs on a core. -/
def replays (s : State) (g : Nat) : Bool :=
  match s.groups[g]? with
  | none => false
  | some gr => gr.going && blockRuns s gr.block

/-- A parked instruction put among others in the order of parking. -/
def insertParked (x : Nat × LogEntry) : List (Nat × LogEntry) → List (Nat × LogEntry)
  | [] => [x]
  | y :: l => if x.2.id < y.2.id then x :: y :: l else y :: insertParked x l

/-- The parked instructions of some groups, in the order in which they faulted. -/
def entriesOf (s : State) (gs : List Nat) : List (Nat × LogEntry) :=
  (gs.flatMap (fun g => match s.groups[g]? with
    | some gr => gr.log.map (fun e => (g, e))
    | none => [])).foldr insertParked []

/-! ### Waiting counts of switched-out blocks (R316) -/

/-- A page or an offline home as a switched-out block counts it. -/
def pageKey (va : DWord) : Nat := 2 * (va.toNat / 4096)
def dieKey (d : Nat) : Nat := 2 * d + 1

/-- Whether what a key names is there again for a context. -/
def keyCleared (s : State) (c : Ctx) (k : Nat) : Bool :=
  if k % 2 = 1 then !(s.offline.contains (k / 2)) && (k / 2 < 16 || s.ports.any (·.up) && (match tabFind s.windows (k / 2 - 16) with
    | some w => w.reachable
    | none => false))
  else match (walkFrom s none c (k / 2 * 4096) 4 c.root.toNat).1 with
    | .invalid _ => false
    | .leaf _ _ => true
    | .offline _ => true
    | .failed => true

/-- Where a block's image starts (R320). -/
def imageVa (s : State) (b : Block) : DWord :=
  BitVec.ofNat 64 (recordField s b.ctx 24 8 + b.image * slotBytes s b.ctx)

/-- The fields of an image header that have a place of their own: tag, state, missing count (R320). -/
def imageHead (b : Block) : List Byte :=
  leBytes 4 (0x4942 + (if b.life == .switchedOut then 2 else 1) * 2 ^ 16) ++ leBytes 4 b.missing

/-- The header of a block's image brought up to date in memory, where its page is there. -/
def writeHead (s : State) (blk : Nat) : State :=
  match s.blocks[blk]? with
  | none => s
  | some b => match devWrite s b.ctx (imageVa s b) (imageHead b) with
    | .ok s1 => s1
    | .page _ _ => s
    | .fail _ => s
    | .offline _ => s

/-- What a switched-out block still waits on; with nothing left it is restorable, behind those that were before it. -/
def Block.countDown (b : Block) (cleared : Nat → Bool) (now : Nat) : Block :=
  let left := b.missKeys.filter (fun k => !cleared k)
  let at0 := if left.isEmpty then now else b.savedAt
  { b with missKeys := left, missing := left.length, ready := left.isEmpty, savedAt := at0 }

/-- The monitors of a switched-out block stay armed: on every page it still waits on, at the line where its walk ends now. -/
def rearm (s : State) (b : Block) : State :=
  (b.missKeys.filter (fun k => k % 2 == 0)).foldl (fun s k =>
    match (walkFrom s none b.ctx (k / 2 * 4096) 4 b.ctx.root.toNat).1 with
    | .invalid pte => b.groups.foldl (fun s g => armMonitor s pte (.group g)) s
    | .leaf _ _ => s
    | .offline _ => s
    | .failed => s) s

/-- Switched-out blocks count down what is there again; their monitors stay armed for the rest (R316). -/
def recount (s : State) : State :=
  (List.range s.blocks.length).foldl (fun s n => match s.blocks[n]? with
    | none => s
    | some b =>
      if b.life != .switchedOut || b.missKeys.isEmpty then s else
      let b1 := b.countDown (keyCleared s b.ctx) (clk s)
      let s := rearm s b1
      if b1.missing = b.missing then s else writeHead (modBlock s n (fun _ => b1)) n) s

/-! ### Wakes (R314) -/

/-- A fragment that waits to fetch tries again once its page is valid; else it waits on. -/
def wakeFetch (s : State) (g f : Nat) : State :=
  match s.groups[g]? with
  | none => s
  | some gr => match gr.frag? f with
    | none => s
    | some fr => match fr.wait with
      | .fetch va _ => (match (walkFrom s none gr.ctx va.toNat 4 gr.ctx.root.toNat).1 with
        | .invalid pte => armMonitor s pte (.fetch g f)
        | .leaf _ _ => modFrag s g f (fun x => { x with wait := .run })
        | .offline _ => modFrag s g f (fun x => { x with wait := .run })
        | .failed => modFrag s g f (fun x => { x with wait := .run }))
      | _ => s

/-- A queue's waiting refill is tried again (R290), for the agent that began it. -/
def wakeQueue (s : State) (pa : Nat) : State :=
  match slotOf s pa with
  | none => s
  | some q => if q.waiting then refill s q q.poster else s

/-- A command takes its step again. -/
def wakeCommand (s : State) (iod n : Nat) : State :=
  match findCmd s iod n with
  | none => s
  | some c => match c.life with
    | .finishing => finishCmd s c
    | .built => s
    | .matching => s
    | .issued =>
      if c.op = 2 then engRun c (ecollCommand s c)
      else if c.op = 1 then engRun c (epubCommand s c)
      else if c.isUpload then engRun c (uploadCommand s c)
      else engRun c (copyCommand s c)

/-- What a waiter does when its line was written; a task's completion and the walks of a queue's records are tried again by the
steps that need them (R299, R296). -/
def wakeWaiter (s : State) : Waiter → State
  | .group _ => s
  | .fetch g f => wakeFetch s g f
  | .queue pa => wakeQueue s pa
  | .task _ => s
  | .command iod n => wakeCommand s iod n

/-- MONITOR_WAKE (R314, R315): the monitors of a line that a write has reached repeat their walks; the parked instructions
of all their groups replay in the order in which they faulted. -/
def execMonitorWake (line : Nat) (s : State) : Out :=
  let woken := s.monitors.filter (fun m => m.line == line && m.woken)
  if woken.isEmpty then .next s else
  let s := recount { s with monitors := s.monitors.filter (fun m => !(m.line == line && m.woken)) }
  let gs := woken.filterMap (fun m => match m.waiter with
    | .group g => if replays s g then some g else none
    | .fetch .. | .queue _ | .task _ | .command .. => none)
  let s := (entriesOf s gs.dedup).foldl (fun s p => replayEntry s p.1 p.2) s
  .next (woken.foldl (fun s m => wakeWaiter s m.waiter) s)

/-- WALK_RETRY (R314): a parked instruction repeats its walk, 4,096 clk after it parked or later. -/
def execWalkRetry (g id : Nat) (s : State) : Out :=
  match s.groups[g]? with
  | none => .next s
  | some gr => match gr.log.find? (fun e => e.id == id) with
    | none => .next s
    | some e => if !replays s g || clk s < e.since + 4096 then .next s else .next (replayEntry s g e)

/-! ### HOME_ACCESS (R224 to R228) -/

/-- A detected race of an agent that acts at a home by itself (R228): to the lowest live fragment of a group, to a control
core, to a command's issuer, as HOST_RACE to the host context; a remote agent's goes to its own package. -/
def raceOf (s : State) (a : Agent) (k : Race) (va : DWord) : State :=
  match a with
  | .group g => (match s.groups[g]? with
    | none => s
    | some gr => match lowestMember gr.frags with
      | none => s
      | some fr => enqueueTrap s g
          { cause := k.cause, frag := fr.id, slot := fr.slot.getD 0, ipc := fr.pc, addr := va, aux := 0, rpc := none } false)
  | .control cc => deferCtl s cc k.cause ((s.ctls[cc]?).map (·.pc) |>.getD 0) va 0
  | .engine iod n => (match findCmd s iod n with
    | none => s
    | some c =>
      let x := cmdRace s c (some (k, va))
      putCmd x.1 x.2)
  | .host iod => post s (4 + iod)
      { ctx := s.hostCtx, kind := 5, access := 1, addr := va, originKind := 4, origin := BitVec.ofNat 64 iod, time := s.time }
  | .remote _ _ => s

/-- A write of one word at its home, unless it races (R227). -/
def homeWrite (s : State) (a : Agent) (w : Nat) (reg : State → State) (v : Word) : State :=
  match (if registers w then writeRace s (some a) w else none) with
  | some k => raceOf s a k (BitVec.ofNat 64 (4 * w))
  | none => writeBytes (reg s) (unitKey s (4 * w)) (4 * w) (leBytes 4 v.toNat)

/-- HOME_ACCESS (R225): one access of an agent to the word at a physical address, performed at its home; of a poisoned unit
nothing is read or written (R381). -/
def execHomeAccess (a : Agent) (k : HomeKind) (pa : Nat) (s : State) : Out :=
  let w := pa / 4
  let key := unitKey s (4 * w)
  if presence s (4 * w) != .present || s.poison.contains (4 * w / 64) then .next s else
  .next (match k with
    | .load => if registers w && (loadWord s (some a) key w).2 then raceOf s a .race (BitVec.ofNat 64 (4 * w)) else s
    | .store v => homeWrite s a w (fun s => regStore s a key w (BitVec.ofNat 64 (4 * w))) v
    | .atomic near f cmp v => homeWrite s a w (fun s => regAtomic s a near w (BitVec.ofNat 64 (4 * w)))
        (BitVec.ofNat 32 (atomNew (.int f .n32) cmp.toNat v.toNat (readWord s key w).toNat))
    | .release => releaseAgent s a)

/-! ### EVICTION (R224, R208) -/

/-- EVICTION: a word leaves a compute core's L1 or a control core's data cache: its copy there goes, S(c) of an agent there
moves to V, O(c) stays with its line gone. -/
def execEviction (site : EvictedFrom) (word : Nat) (s : State) : Out :=
  let site : Site := match site with | .core n => .core n | .control cc => .ctl cc
  let s1 := dropAt s site word
  .next (match regOf s word with
    | some (.released a _) => if agentSite s a = some site then clearReg s1 word else s1
    | some (.owned a _ _) => if agentSite s a = some site then moveLine s1 word evictedVa else s1
    | _ => s1)

end Sys2Proof.Machine
end

