-- ==== Sys2Proof/Machine/Image.lean ====
section
/-! DEFINITION. The block image in memory (15 R320, 17 R348): its parts, in order and with their sizes, as a save writes them.
The manual gives the places of the parts, of tag, state and missing count, of the registers, the windows and the tiles; the
places of the other fields of the header and of a group record are the model's (log 34). -/

namespace Sys2Proof.Machine

/-- Bytes cut or filled up with zeros to a length. -/
def padBytes (n : Nat) (bs : List Byte) : List Byte := bs.take n ++ List.replicate (n - bs.length) 0

/-- Bits, the lowest first, as a number. -/
def leBits : List Bool → Nat
  | [] => 0
  | b :: l => b.toNat + 2 * leBits l

/-- A truth value in a byte. -/
def flagByte (b : Bool) : List Byte := leBytes 1 b.toNat

/-! ### Header -/

/-- A barrier in 8 bytes, a gang barrier in 16. -/
def Barrier.bytes (n : Nat) (x : Barrier) : List Byte :=
  padBytes n (flagByte x.phase ++ flagByte false ++ leBytes 2 x.marks.toNat ++ leBytes 2 x.phases.toNat)

/-- The numbers of the commands of a block that have not landed. -/
def imageCommands (s : State) (blk : Nat) : List Nat := (s.commands.filter (fun c => c.blk == some blk)).map (·.n)

/-- The header, 512 bytes. R320 names the address of the task record, and a record that its queue's hardware part has taken has
none: the header holds that of the queue descriptor through which it came, as the origin of R304 does (DESIGN CHOICE, log 34). -/
def imageHeader (s : State) (blk : Nat) (b : Block) : List Byte :=
  let e := b.entry
  let task := ((b.task.bind (fun t => s.tasks[t]?)).map (fun t => t.desc.toNat)).getD 0
  padBytes 512 (imageHead b ++ leBytes 8 b.entryVa.toNat ++ leBytes 8 task ++ leBytes 4 (blockNumbers s blk).1 ++ leBytes 4 (blockNumbers s blk).2
    ++ leBytes 1 b.member ++ leBytes 1 e.block ++ leBytes 1 e.lgt ++ leBytes 1 (e.vcount % 256)
    ++ leBytes 4 e.wb ++ leBytes 4 e.ab ++ leBytes 4 e.cb ++ leBytes 4 e.ls ++ leBytes 2 e.carveMin ++ leBytes 2 e.carveMax
    ++ b.bars.flatMap (Barrier.bytes 8) ++ Barrier.bytes 16 b.gbar
    ++ ((imageCommands s blk).take 64).flatMap (leBytes 4))

/-! ### Groups -/

/-- A fragment in slot form, 64 bytes: mask, pc, open tokens, arrival marks and phases of the block barriers. -/
def Frag.bytes (x : Frag) : List Byte :=
  let mark (f : Bool → Bool) : Nat := leBits ((List.range 16).map (fun i => ((tabFind x.arr i).map f).getD false))
  leBytes 32 x.mask.toNat ++ leBytes 8 x.pc.toNat ++ (List.range 16).flatMap (fun i => leBytes 1 (tabGet 0 x.toks i))
    ++ leBytes 4 (mark (fun _ => true)) ++ leBytes 4 (mark (fun p => p))

/-- A trap-queue entry in 40 bytes. -/
def TrapEntry.bytes (t : TrapEntry) : List Byte :=
  leBytes 4 t.cause ++ leBytes 3 t.slot ++ flagByte t.rpc.isSome ++ leBytes 8 t.ipc.toNat ++ leBytes 8 t.addr.toNat
    ++ leBytes 8 t.aux.toNat ++ leBytes 8 (t.rpc.getD 0).toNat

/-- The in-handler state in 40 bytes: the flag, the slot of the handled fragment, its mask at delivery (R311). -/
def handlerBytes (gr : Group) : List Byte :=
  match gr.handler with
  | none => List.replicate 40 0
  | some h => flagByte true ++ leBytes 7 (((gr.frag? h.frag).bind (·.slot)).getD 0) ++ leBytes 32 h.mask.toNat

/-- The record of a width region in 64 bytes. -/
def regionBytes : Option Region → List Byte
  | none => List.replicate 64 0
  | some r => leBytes 8 r.setwPc.toNat ++ leBytes 1 r.request ++ flagByte r.restartable ++ flagByte true ++ leBytes 5 0
      ++ leBytes 32 r.mask.toNat ++ (List.range 16).flatMap (fun i => leBytes 1 (tabGet 0 r.toks i))

/-- The group record, 4 KiB. -/
def groupRecord (gr : Group) : List Byte :=
  let slots := (List.range 8).flatMap (fun i => match gr.frags.find? (fun x => x.slot == some i) with
    | some x => x.bytes
    | none => List.replicate 64 0)
  padBytes 4096 ((List.range 64).flatMap (fun i => leBytes 8 (gr.read (.s i)).toNat)
    ++ (List.range 4).flatMap (fun i => leBytes 1 (gr.read (.k i)).toNat)
    ++ leBytes 1 gr.fmask.toNat ++ leBytes 1 gr.prog.toNat ++ leBytes 2 gr.batch.toNat ++ leBytes 8 gr.tvec.toNat
    ++ leBytes 1 gr.grant ++ flagByte gr.interlocked ++ leBytes 1 gr.log.length ++ leBytes 1 gr.trapQ.length ++ leBytes 4 0
    ++ regionBytes gr.region ++ handlerBytes gr ++ padBytes 320 ((gr.trapQ.take 8).flatMap TrapEntry.bytes) ++ slots)

/-- The spilled fragments. -/
def stackBytes (gr : Group) (fstack : Nat) : List Byte :=
  padBytes (fstack * 64) ((gr.frags.filter (fun x => x.slot.isNone)).flatMap Frag.bytes)

/-- The first word of a thread in a log entry: its address, and in bit 63 whether it is in the active mask; the other bits above
56 of an address that has a page repeat bit 56. -/
def LogEntry.threadWord (e : LogEntry) (t : Nat) : Nat :=
  (((e.req.accs.find? (fun a => a.tid == t)).map (·.va.toNat)).getD 0) % 2 ^ 63 + (if e.mask.getLsbD t then 2 ^ 63 else 0)

/-- The captured sources of a thread that its accesses do not hold (R313): the offsets of a FILL, the tile base of a drain; of an S form, whose sources stand
with its lowest thread, the amount of a counter operation, the record of a queue operation, the tile of a TDEF, the arguments of a
SPAWN. -/
def Req.sources (r : Req) (t : Nat) : List Byte :=
  let low := (r.accs.head?).any (fun a => a.tid == t)
  match r.kind with
  | .fill _ _ offs => (match tabFind offs t with
    | none => []
    | some (d, m) => leBytes 4 d ++ leBytes 4 (m.getD 0))
  | .count _ _ _ _ amount => if low then leBytes 8 amount.toNat else []
  | .enq .. | .deq .. => if low then leBytes 8 ((((r.accs.drop 8).head?).map (·.va.toNat)).getD 0) else []
  | .tdef _ x => if low then leBytes 8 (x * 16384) else []
  | .spawn a b => if low then leBytes 8 a.toNat ++ leBytes 8 b.toNat else []
  | .drain _ _ _ bases => leBytes 8 (tabGet 0 bases t)
  | .load .. | .store | .row .. | .atom .. | .sld .. | .sst | .satom .. | .engine .. | .keyset .. => []

/-- An entry of the operand log in 32 + 40 T bytes (R313): the address of the instruction, its words, its fragment, and for each
thread its word with the mask and its captured data. -/
def LogEntry.bytes (size : Nat) (e : LogEntry) : List Byte :=
  padBytes 32 (leBytes 8 e.ipc.toNat ++ padBytes 8 (e.words.flatMap (leBytes 4)) ++ leBytes 4 e.frag)
    ++ (List.range size).flatMap (fun t =>
      padBytes 40 (leBytes 8 (e.threadWord t) ++ (e.req.accs.filter (fun a => a.tid == t)).flatMap (·.data) ++ e.req.sources t))

/-- The registers of a group: v registers by thread, then the predicates, then the flags, a byte of each for a thread. -/
def registerBytes (gr : Group) (size vcount : Nat) : List Byte :=
  (List.range size).flatMap (fun t => (List.range vcount).flatMap (fun n => leBytes 4 (gr.read (.v t n)).toNat))
    ++ (List.range size).flatMap (fun t => leBytes 1 (leBits ((List.range 8).map (fun n => gr.read (.q t n) != 0))))
    ++ (List.range size).flatMap (fun t => leBytes 1 (tabGet 0 gr.fflags t).toNat)

/-- The area of one group. -/
def groupBytes (e : Entry) (fstack : Nat) (gr : Group) : List Byte :=
  groupRecord gr ++ stackBytes gr fstack
    ++ padBytes (align64 (4 * (32 + 40 * e.size))) ((gr.log.take 4).flatMap (LogEntry.bytes e.size))
    ++ padBytes (align64 (e.vcount * e.size * 4 + 2 * e.size)) (registerBytes gr e.size e.vcount)

/-! ### Tiles (R348) -/

/-- The number of a tile state, in the order of R338. -/
def TileState.code : TileState → Nat
  | .free => 0 | .defined => 1 | .opened => 2 | .running => 3 | .resident => 4

/-- A source entry of a record descriptor (R340). -/
def TileSource.bytes : TileSource → List Byte
  | .none => List.replicate 16 0
  | .tile t => leBytes 8 (t * 16384) ++ leBytes 7 0 ++ leBytes 1 1
  | .range va len => leBytes 8 va.toNat ++ leBytes 4 len ++ leBytes 3 0 ++ leBytes 1 2

/-- A record in the layout of its descriptor (R340), 128 bytes. -/
def Tile.bytes (t : Tile) : List Byte :=
  padBytes 64 (leBytes 8 t.entry.toNat ++ padBytes 32 (t.args.flatMap (fun a => leBytes 8 a.toNat)) ++ leBytes 2 t.outsize
      ++ leBytes 1 t.depth)
    ++ padBytes 64 (t.sources.flatMap TileSource.bytes)

/-- The tiles part: 64 records, 64 state bytes with their hold counts, the frames of saved tiles in ascending order. -/
def tilesBytes (ts : List Tile) : List Byte :=
  padBytes 8192 (ts.flatMap Tile.bytes) ++ padBytes 128 (ts.flatMap (fun t => leBytes 1 t.state.code ++ leBytes 1 t.hold))
    ++ (ts.filter (·.state.framed)).flatMap (fun t => bytesOf (tabGet 0 t.frame) 0 16384)

/-! ### The image -/

/-- The parts of a block's image one after another, each with its offset. -/
def imageParts (s : State) (blk : Nat) (b : Block) : List (Nat × List Byte) :=
  let e := b.entry
  let fs := fstackOf s b.ctx
  let area := 4096 + fs * 64 + align64 (4 * (32 + 40 * e.size)) + align64 (e.vcount * e.size * 4 + 2 * e.size)
  let win := 512 + e.block * area
  let gs := (b.groups.filterMap (fun g => s.groups[g]?)).filter (fun gr => gr.run.isNone)
  (0, imageHeader s blk b) :: gs.map (fun gr => (512 + gr.gid * area, groupBytes e fs gr))
    ++ [(win, bytesOf (winByte b .wb) 0 e.wb), (win + e.wb, bytesOf (winByte b .ab) 0 e.ab),
        (win + e.wb + e.ab, bytesOf (winByte b .cb) 0 e.cb), (win + e.wb + e.ab + e.cb, bytesOf (winByte b .ls) 0 e.ls),
        (win + e.wb + e.ab + e.cb + e.ls, tilesBytes b.tiles)]

/-- A part of an image written where its pages are there. -/
def writePart (c : Ctx) (base : DWord) (s : State) (p : Nat × List Byte) : State :=
  match devWrite s c (base + BitVec.ofNat 64 p.1) p.2 with
  | .ok s1 => s1
  | .page _ _ => s
  | .fail _ => s
  | .offline _ => s

/-- A block's image written to its slot (R320 step 6). -/
def writeImage (s : State) (blk : Nat) : State :=
  match s.blocks[blk]? with
  | none => s
  | some b => (imageParts s blk b).foldl (writePart b.ctx (imageVa s b)) s

end Sys2Proof.Machine
end

