-- ==== Sys2Proof/Machine/Placement.lean ====
section
/-! DEFINITION. Dispatch (02 R46 to R52, 14 R294 to R303): records and their eligibility, placement of gangs under the limits
of R42, R44, R203 and R318, block and spawned-group starts, stealing, task completion, the upkeep of queues: DISPATCH,
PRIORITY_AGING, BLOCK_START, STEAL, URGENT, TIMER_EXPIRY, BIN_CLOSE, SPAWNED_GROUP_START, TASK_COMPLETION, UNBIND,
OVERFLOW_APPEND, AB_INTERVAL_END. -/

namespace Sys2Proof.Machine

/-! ### The context record (R317) -/

/-- The code of the context's request word. -/
def requestCode (s : State) (c : Ctx) : Nat := recordField s c 0 1

/-- Whether no gang of the context is placed: a request stands under which none is (R319), or its ASID is busy (R329). -/
def placementHeld (s : State) (c : Ctx) : Bool :=
  (1 ≤ requestCode s c && requestCode s c ≤ 3)
    || (tabGet { presence := 0, busy := false } s.asids c.asid.toNat).busy

/-- The partition die mask. -/
def dieMask (s : State) (c : Ctx) : Nat := recordField s c 61 1 % 16

/-- Whether the context record is well formed. -/
def recordOk (s : State) (c : Ctx) : Bool :=
  match rootRead s c 0x1000 128 with
  | none => false
  | some bs =>
    field bs 78 50 == 0 && field bs 73 3 == 0 && field bs 32 4 == 0 && field bs 72 1 ≤ 1 && field bs 56 4 ≤ 65535
      && [4, 8, 16, 32, 64, 128].contains (field bs 62 2) && field bs 24 8 % 65536 == 0 && field bs 48 8 % 64 == 0

/-- The partition fields under which a record was found unfit (R47, R317). -/
def partition (s : State) (c : Ctx) : Nat := recordField s c 60 4 + recordField s c 36 8 * 2 ^ 32

/-! ### Dies and cores (R13, R25, R44) -/

/-- Whether two compute dies are adjacent (R13). -/
def adjacent (a b : Nat) : Bool := a != b && a + b != 3

/-- The dies that a gang of a queue's die may use beside it. -/
def neighbours (mask die : Nat) : List Nat := (List.range 4).filter (fun e => adjacent die e && bitAt mask e)

/-- The most cores that a gang of a queue's die can have. -/
def gangCores (s : State) (mask die : Nat) : Nat :=
  (activeCores s die).length + (neighbours mask die).foldl (fun m e => max m (activeCores s e).length) 0

/-! ### Room on a core (R42, R203, R341) -/

/-- What the blocks placed on a core take of a resource. -/
def taken (s : State) (core : Nat) (f : Block → Nat) : Nat := ((residents s core).map f).sum

/-- Bytes of register file that a group of an entry takes. -/
def Entry.regBytes (e : Entry) : Nat := e.vcount * e.size * 4

/-- The groups for which a block needs room: those that it will start with, or those that have not ended (R42, R193). -/
def groupCount (s : State) (b : Block) : Nat :=
  if b.groups.isEmpty then b.entry.block else (liveGroups s b).length

/-- Everything that a core must offer a block of `n` groups beside AB room. -/
def roomBesideAb (s : State) (e : Entry) (n core : Nat) : Bool :=
  taken s core (fun b => b.entry.regBytes * groupCount s b) + e.regBytes * n ≤ 917504
    && taken s core (·.entry.wb) + e.wb ≤ 2 ^ 20
    && taken s core (·.entry.cb) + e.cb ≤ 393216 && taken s core (·.entry.ls) + e.ls ≤ 2 ^ 18
    && taken s core (groupCount s) + n ≤ 64 && slotsUsed s core + slotsReserved s core + n ≤ 248

/-- The Bmin that one more block would leave a core with, where the limits that result let it in (R203). -/
def abLimits (s : State) (e : Entry) (core : Nat) : Option Nat :=
  let es := e :: (residents s core).map (·.entry)
  let ab := (es.map (fun x => x.ab / 1024)).sum
  let cmin := es.foldl (fun m x => max m x.carveMin) 0
  let cmax := es.foldl (fun m x => min m x.carveMax) 1536
  if ab ≤ cmax && cmin ≤ cmax then some (max ab cmin) else none

/-- Whether B is at a value or can rise to it (R205, R207). -/
def reaches (s : State) (core b : Nat) : Bool := b ≤ (coreOf s core).carve || (raiseTo s core b).isSome

/-- AB room for one more block (R203, R207). -/
def abRoom (s : State) (e : Entry) (core : Nat) : Bool := (abLimits s e core).any (reaches s core)

/-- Whether a block waits for AB room on a core (R206, R207): all else is there, the limits let it in, and B cannot rise yet. -/
def lacksAb (s : State) (e : Entry) (n core : Nat) : Bool :=
  roomBesideAb s e n core && (abLimits s e core).any (fun b => !reaches s core b)

/-- B after a placement (R205): it rises to Bmin. Where a placement lowers Bmax below B, B falls to Bmax: R203 wants B ≤ Bmax
at every instant, and R205 names no move there (DESIGN CHOICE, log 30). -/
def settleBoundary (s : State) (core : Nat) : State :=
  let l := residents s core
  if (coreOf s core).carve < abMin l then
    (match raiseTo s core (abMin l) with
     | none => s
     | some s1 => modCore s1 core (fun k => { k with carve := abMin l }))
  else modCore s core (fun k => k.lower (abMax l))

/-! ### Image slots (R318) -/

/-- The image slots of a context that blocks hold. -/
def imagesHeld (s : State) (c : Ctx) : List Nat :=
  (s.blocks.filter (fun b => b.ctx == c && (b.life == .deque || b.life == .running || b.life == .saved || b.life == .switchedOut))).map (·.image)

/-- The lowest free image slots of a context. -/
def freeImages (s : State) (c : Ctx) (n : Nat) : List Nat :=
  let held := imagesHeld s c
  ((List.range (min (recordField s c 40 4) (held.length + n))).filter (fun i => !held.contains i)).take n

/-- Whether a block's image fits its slot. -/
def imageFits (s : State) (c : Ctx) (e : Entry) : Bool := imageBase e (fstackOf s c) ≤ slotBytes s c

/-- Whether a die takes blocks: it is there, and no reset of it is under way (R380 step 2). -/
def dieOpen (s : State) (d : Nat) : Bool := !s.offline.contains d && s.hostState.toNat != 3 + 16 * d

/-- Whether a core offers all that a block of a context with `n` groups needs now. -/
def coreFits (s : State) (c : Ctx) (e : Entry) (n core : Nat) : Bool :=
  dieOpen s (core / 128) && (activeCores s (core / 128)).contains core && bitAt (dieMask s c) (core / 128) && roomBesideAb s e n core && abRoom s e core

/-! ### Records (R294 to R296) -/

/-- The words of a record. -/
def recordWords (bs : List Byte) : List DWord := (List.range 8).map (fun i => BitVec.ofNat 64 (field bs (8 * i) 8))

/-- A field of word 1 of a record. -/
def shapeField (ws : List DWord) (lo n : Nat) : Nat := bits (ws.getD 1 0).toNat lo n

/-- Whether a record keeps the table of R294. -/
def tableOk (ws : List DWord) : Bool :=
  (ws.getD 0 0).toNat % 32 == 0 && shapeField ws 57 7 == 0
    && (shapeField ws 50 3 == 2 || shapeField ws 50 3 == 3 || shapeField ws 50 3 == 4)
    && (shapeField ws 53 4 == 0 || shapeField ws 50 3 == 4) && 1 ≤ shapeField ws 24 24 && shapeField ws 16 8 ≤ 16
    && shapeField ws 8 8 ≤ 16 && (shapeField ws 0 8 == 0 || (3 ≤ shapeField ws 0 8 && shapeField ws 0 8 ≤ 8))
    && (ws.getD 2 0).toNat % 8 == 0 && (ws.getD 3 0).toNat % 8 == 0 && (ws.getD 4 0).toNat % 8 == 0

/-- Whether the shape fields agree with the entry descriptor (R295, R46). -/
def shapeOk (ws : List DWord) (e : Entry) : Bool :=
  !e.recipe && (shapeField ws 16 8 == 0 || shapeField ws 16 8 == e.gang)
    && (shapeField ws 8 8 == 0 || shapeField ws 8 8 == e.block) && (shapeField ws 0 8 == 0 || shapeField ws 0 8 == e.lgt)
    && e.size * e.block ≤ 2048

/-- Whether a gang of an entry can ever be placed from a queue of a die (R47, R296, R318). -/
def everPlaced (s : State) (c : Ctx) (die : Nat) (e : Entry) : Bool :=
  bitAt (dieMask s c) die && everFits e && e.gang ≤ recordField s c 40 4 && imageFits s c e
    && e.gang ≤ gangCores s (dieMask s c) die

/-- What the dispatcher finds of a record. -/
inductive Verdict
  | eligible (e : Entry)
  | waits
  | offline
  | page (va : DWord) (pte : Nat)
  | access
  | unfit
  deriving DecidableEq, Repr

/-- The wait counter of a record (R296, R349); it no longer matters once a gang is placed. -/
def judgeCounter (s : State) (c : Ctx) (r : QRecord) (e : Entry) : Verdict :=
  let va := (recordWords r.bytes).getD 2 0
  if r.task.isSome ∨ va = 0 then .eligible e
  else match devRead s c va 2 with
    | .ok bs => if leNat bs = 0 then .eligible e else .waits
    | .page va pte => .page va pte
    | .fail _ => .access
    | .offline _ => .offline

/-- A record judged (R295, R296, R47). -/
def judge (s : State) (q : Slot) (r : QRecord) : Verdict :=
  let ws := recordWords r.bytes
  if r.unfit = some (partition s q.ctx) ∨ recordOk s q.ctx = false ∨ tableOk ws = false then .unfit
  else match readEntryDesc s q.ctx (ws.getD 0 0) with
    | .page va pte => .page va pte
    | .fail _ => .access
    | .offline _ => .offline
    | .ok none => .unfit
    | .ok (some e) => if shapeOk ws e && everPlaced s q.ctx q.die e then judgeCounter s q.ctx r e else .unfit

/-- A SHAPE_UNFIT entry for a record. -/
def postUnfit (s : State) (q : Slot) (r : QRecord) : State :=
  post s q.die { ctx := q.ctx, kind := 3, access := 6, addr := (recordWords r.bytes).getD 0 0, originKind := 3,
                 origin := BitVec.ofNat 64 q.pa, time := s.time }

/-- A record replaced in its slot. -/
def putRecord (s : State) (pa : Nat) (r : QRecord) : State :=
  { s with slots := s.slots.map (fun q =>
      if q.pa == pa then { q with recs := q.recs.map (fun x => if x.id == r.id then r else x) } else q) }

/-- The walks of a record have succeeded: the next page that is not valid is a new one. -/
def walksDone (s : State) (q : Slot) (r : QRecord) : State :=
  if r.page.isSome then putRecord s q.pa { r with page := none } else s

/-- What the dispatcher posts of a record (R296): one PAGE entry for a page, one SHAPE_UNFIT entry. -/
def noteRecord (q : Slot) (s : State) (r : QRecord) : State :=
  match judge s q r with
  | .eligible _ => walksDone s q r
  | .waits => walksDone s q r
  | .offline => s
  | .page va pte =>
    let s := if r.page.any (samePage va) then s else putRecord (q.dispatcher.page q.ctx 0 s va) q.pa { r with page := some va }
    armMonitor s pte (.queue q.pa)
  | .access => if r.access then s else putRecord (postUnfit s q r) q.pa { r with access := true }
  | .unfit =>
    if r.unfit = some (partition s q.ctx) then s
    else putRecord (postUnfit s q r) q.pa { r with unfit := some (partition s q.ctx) }

/-- The bound dispatch queues of a die. -/
def dispatchSlots (s : State) (die : Nat) : List Slot := s.slots.filter (fun q => q.die == die && q.mode == 0)

/-- Every record of a die considered. -/
def considerAll (s : State) (die : Nat) : State :=
  (dispatchSlots s die).foldl (fun s q => q.recs.foldl (noteRecord q) s) s

/-! ### The order of R47 -/

/-- A candidate: a record, or a task whose record is gone and whose gang has come back unplaced (R319). -/
inductive Front
  | record (q : Slot) (r : QRecord) (e : Entry)
  | task (t : Nat) (x : Task)
  deriving DecidableEq, Repr

/-- The effective priority of a candidate and its place in enqueue order: one more for each full 65,536 clk that the record has
waited eligible, for a task those of its record before it left. -/
def Front.rank : Front → Nat × Nat
  | .record _ r _ => (min 3 (shapeField (recordWords r.bytes) 48 2 + r.waited / 65536), r.seq)
  | .task _ x => (min 3 (shapeField x.words 48 2 + x.aged), x.seq)

/-- The gangs of a task that are placed. -/
def placedGangs (s : State) (t : Nat) : List Nat := (s.gangs.filter (fun g => g.task == some t)).map (·.index)

/-- The lowest gang of a task that is not placed. -/
def nextGang (s : State) (t : Nat) : Nat :=
  let held := placedGangs s t
  (((List.range (held.length + 1)).find? (fun i => !held.contains i))).getD held.length

/-- Whether a context has a block that is to be restored before a new gang of it is placed (R316). -/
def restoring (s : State) (c : Ctx) : Bool := s.blocks.any (fun b => b.ctx == c && b.ready && (b.life == .saved || b.life == .switchedOut))

/-- The tasks of a die with an unplaced gang and no record. -/
def strayTasks (s : State) (die : Nat) : List Front :=
  (s.tasks.zipIdx.filter (fun p => p.1.die == die && (p.1.life == .placing || p.1.life == .running)
    && recordOk s p.1.ctx && (placedGangs s p.2).length < shapeField p.1.words 24 24
    && !(s.slots.any (fun q => q.recs.any (fun r => r.task == some p.2))))).map (fun p => .task p.2 p.1)

/-- The candidates of a die. Only a task that can never be placed is out of the order (R47): one whose context takes no gang now,
under its request (R319), for its busy ASID (R329) or since a block of it is to be restored first (R316), keeps its place (log 18). -/
def fronts (s : State) (die : Nat) : List Front :=
  (dispatchSlots s die).flatMap (fun q => q.recs.filterMap (fun r => match judge s q r with
    | .eligible e => some (.record q r e)
    | .waits => none
    | .offline => none
    | .page _ _ => none
    | .access => none
    | .unfit => none)) ++ strayTasks s die

/-- The candidate that is served next: the highest effective priority, then the earliest enqueued. -/
def firstFront : List Front → Option Front
  | [] => none
  | x :: l => match firstFront l with
    | none => some x
    | some y => if y.rank.1 < x.rank.1 ∨ (y.rank.1 = x.rank.1 ∧ x.rank.2 ≤ y.rank.2) then some x else some y

/-! ### Placement of a gang (R44, R48, R297, R303) -/

/-- Whether the core's deque takes the block of a single-block gang. -/
def dequeRoom (s : State) (e : Entry) (core : Nat) : Bool := e.gang != 1 || (coreOf s core).deque.length < 16

/-- Whether a gang of a context may be placed at all now: no request, no busy ASID and no block to be restored stands against it
(R319, R329, R316). -/
def ctxTakesGang (s : State) (c : Ctx) : Bool := !placementHeld s c && !restoring s c

/-- Whether a gang of a queue's die may be placed on a list of cores. -/
def coresOk (s : State) (c : Ctx) (die : Nat) (e : Entry) (cores : List Nat) : Bool :=
  cores.length == e.gang && cores.dedup.length == e.gang && cores.all (fun k => coreFits s c e e.block k && dequeRoom s e k)
    && cores.all (fun k => k / 128 == die || (cores.any (fun j => j / 128 == die) && adjacent die (k / 128)))
    && (cores.filter (fun k => k / 128 != die)).all (fun k => cores.all (fun j => j / 128 == die || j / 128 == k / 128))

/-- The cores that the model's own schedule takes: in ascending order, the queue's die first. -/
def defaultCores (s : State) (c : Ctx) (die : Nat) (e : Entry) : List Nat :=
  let fit (d : Nat) : List Nat := (activeCores s d).filter (fun k => coreFits s c e e.block k && dequeRoom s e k)
  let own := fit die
  if e.gang ≤ own.length then own.take e.gang
  else match (neighbours (dieMask s c) die).find? (fun d => e.gang ≤ own.length + (fit d).length) with
    | none => own
    | some d => own ++ (fit d).take (e.gang - own.length)

/-- The blocks of a gang put on their cores. -/
def placeBlocks (c : Ctx) (t gang idx : Nat) (entryVa : DWord) (e : Entry) : Nat → List (Nat × Nat) → State → State
  | _, [], s => s
  | m, (core, image) :: l, s =>
    let b : Block := { Block.start c (some t) gang idx m core entryVa e image with life := .deque }
    let n := s.blocks.length
    let s := { s with blocks := s.blocks ++ [b],
                      gangs := modAt s.gangs gang (fun g => { g with blocks := g.blocks ++ [n] }) }
    let s := if e.gang = 1 then modCore s core (fun k => { k with deque := k.deque ++ [n] }) else s
    placeBlocks c t gang idx entryVa e (m + 1) l (settleBoundary s core)

/-- A gang of a task placed on cores. -/
def placeGang (s : State) (c : Ctx) (t : Nat) (entryVa : DWord) (e : Entry) (cores : List Nat) : State :=
  let idx := nextGang s t
  let g : Gang := { ctx := c, task := some t, index := idx, blocks := [], phase := false, marks := 0, saving := none }
  placeBlocks c t s.gangs.length idx entryVa e 0 (cores.zip (freeImages s c e.gang)) { s with gangs := s.gangs ++ [g] }

/-- Tasks with placed gangs that have not completed (R297). -/
def tasksBusy (s : State) (die : Nat) : Nat :=
  (s.tasks.filter (fun t => t.die == die && t.life != .complete && t.life != .gone)).length

/-- The last gang of a task is placed: its record leaves its queue (R297, R290). -/
def dropRecord (s : State) (q : Slot) (r : QRecord) : State :=
  match slotOf s q.pa with
  | none => s
  | some q =>
    let q1 := { q with recs := q.recs.filter (fun x => x.id != r.id), count := q.count - 1, idleSince := clk s }
    refill s q1 q1.dispatcher

/-- The task of a record: the one that it has, or a new one. -/
def taskOf (s : State) (q : Slot) (r : QRecord) (e : Entry) : Nat × State :=
  match r.task with
  | some t => (t, s)
  | none =>
    let x : Task := { life := .placing, ctx := q.ctx, die := q.die, desc := BitVec.ofNat 64 q.pa, words := recordWords r.bytes,
                      entry := e, ended := 0, seq := r.seq, aged := r.waited / 65536, posted := false }
    (s.tasks.length, putRecord { s with tasks := s.tasks ++ [x] } q.pa { r with task := some s.tasks.length })

/-- The cores to use: those asked for, or the model's own choice. -/
def chosenCores (s : State) (c : Ctx) (die : Nat) (e : Entry) (cores : List Nat) : List Nat :=
  if cores.isEmpty then defaultCores s c die e else cores

/-- Whether a gang can go to the cores now. -/
def placeable (s : State) (c : Ctx) (die : Nat) (e : Entry) (cores : List Nat) : Bool :=
  ctxTakesGang s c && coresOk s c die e cores && e.gang ≤ (freeImages s c e.gang).length

/-- The task of a record takes its last gang: the record leaves its queue with the time that it has waited. -/
def lastGang (s : State) (q : Slot) (r : QRecord) (t : Nat) : State :=
  dropRecord { s with tasks := modAt s.tasks t (fun x =>
    { x with life := if x.life = .placing then .running else x.life, aged := r.waited / 65536 }) } q r

/-- DISPATCH (R47, R288, R296): the dispatcher of a die binds its waiting queues where a slot is free, considers its
records, posts what is wrong with them, and places one gang of the task at the front on `cores`, where it fits. The last gang
of a task waits with its record for an operation of the queue that waits on the galley (R290). -/
def execDispatch (die : Nat) (cores : List Nat) (s : State) : Out :=
  let s := considerAll (bindWaiting s die) die
  .next (match firstFront (fronts s die) with
    | none => s
    | some (.record q r e) =>
      if r.task.isNone && 256 ≤ tasksBusy s die then s else
      let ks := chosenCores s q.ctx die e cores
      if !placeable s q.ctx die e ks then s else
      let x := taskOf s q r e
      let s1 := placeGang x.2 q.ctx x.1 ((recordWords r.bytes).getD 0 0) e ks
      if (placedGangs s1 x.1).length < shapeField (recordWords r.bytes) 24 24 then s1
      else if queueHeld s q.pa none then s
      else lastGang s1 q r x.1
    | some (.task t x) =>
      let ks := chosenCores s x.ctx die x.entry cores
      if !placeable s x.ctx die x.entry ks then s else placeGang s x.ctx t (x.words.getD 0 0) x.entry ks)

/-- PRIORITY_AGING (R47): a record takes the agings that its waiting has earned. -/
def execPriorityAging (die slot idx : Nat) (s : State) : Out :=
  match (s.slots.filter (fun q => q.die == die))[slot]? with
  | none => .next s
  | some q => match q.recs[idx]? with
    | none => .next s
    | some r => .next (if r.aged < r.waited / 65536 then putRecord s q.pa { r with aged := r.waited / 65536 } else s)

/-! ### Starts (R298, R302, R303) -/

/-- Resident-group slots for the groups of a block, any free ones (R304). -/
def takeSlots (free : Nat) : Nat → List Nat → List Nat
  | 0, _ => []
  | n + 1, l =>
    let i := if l.length ≤ 1 then 0 else Config.freeNat .groupSlot free n % l.length
    match l[i]? with
    | none => []
    | some x => x :: takeSlots free n (l.eraseIdx i)

/-- The groups of a block launched one after another, by their ids and resident-group slots. -/
def launchGroups (blk : Nat) (b : Block) (init : Tab DWord) : List (Nat × Nat) → State → State
  | [], s => s
  | (gid, rslot) :: l, s =>
    let g := s.groups.length
    let e := b.entry
    let gr := Group.start b.ctx blk gid b.core rslot e.size e.vcount (firstThreads e.size)
      (plainGrant s b.core g e.size b.ctx) (launchInterlocked s b.ctx e.stepping) b.entryVa (clk s)
    launchGroups blk b init l (modBlock { s with groups := s.groups ++ [{ gr with s := init }] } blk
      (fun b => { b with groups := b.groups ++ [g] }))

/-- The launch values of a task's groups (R298). -/
def launchArgs (s : State) (b : Block) : Tab DWord :=
  match b.task.bind (fun t => s.tasks[t]?) with
  | none => []
  | some t => uniFrom 0 [t.words.getD 6 0, t.words.getD 7 0]

/-- The acquire of every address with which a block or a spawned group starts (R298, R302). The core may hold copies of sectors of
the context that it held before again at once, at their values of now, unspecified which: a load that reads one of them in a race
returns a value of its word's home order all the same (R229, R387; log 2). -/
def launchAcquire (s : State) (core : Nat) (c : Ctx) : State :=
  let who : Who := { site := .core core, ctx := c, priv := false, agent := .group s.groups.length, home := false }
  (s.copies.filter (fun x => x.site == .core core && x.asid == c.asid)).foldl
    (fun s x => if Config.freeNat .refill s.free x.word % 2 == 1 then prefetchOne s who x.va else s) (acquireAll s (.core core) .pkg)

/-- A block starts on its core: its windows under R202, an acquire of every address, its groups. -/
def startBlock (s : State) (blk : Nat) (b : Block) : State :=
  let s := takeWindows (modBlock s blk (fun b => { b with life := .running })) blk
  let s := launchAcquire s b.core b.ctx
  launchGroups blk b (launchArgs s b) ((List.range b.entry.block).zip (takeSlots s.free b.entry.block (freeSlots s b.core))) s

/-- A placed block of a gang of several on a core; while the gang is being saved only one that a peer add has yet to land in
(R320 step 3). -/
def gangBlock (s : State) (core : Nat) : Option (Nat × Block) :=
  (s.blocks.zipIdx.find? (fun p => p.1.core == core && p.1.life == .deque && p.1.entry.gang != 1
    && (!gangSaving s p.1 || s.adds.any (fun a => a.dst == p.2)))).map (fun p => (p.2, p.1))

/-- Whether a spawned group of an entry fits its core now: its room, and an image slot, under a record that lets it be launched
(R302, R317, R318). -/
def spawnFits (s : State) (core : Nat) (b : Bin) : Bool :=
  !placementHeld s b.ctx && recordOk s b.ctx && coreFits s b.ctx b.entry 1 core && !(freeImages s b.ctx 1).isEmpty
    && imageFits s b.ctx b.entry

/-- Whether a spawned group can never start: its image never fits its slot, or there is none (R318). -/
def spawnNever (s : State) (b : Bin) : Bool :=
  recordOk s b.ctx && (!imageFits s b.ctx b.entry || recordField s b.ctx 40 4 = 0)

/-- BLOCK_START (R303, R298): a core starts a placed block: of a gang of several, or the oldest of its deque, which waits
behind a spawned group that fits (R302). -/
def execBlockStart (core : Nat) (s : State) : Out :=
  match gangBlock s core with
  | some (blk, b) => .next (startBlock s blk b)
  | none =>
    let k := coreOf s core
    if (k.spawnList.head?).any (spawnFits s core) then .next s else
    match k.deque with
    | [] => .next s
    | blk :: l => match s.blocks[blk]? with
      | none => .next (modCore s core (fun k => { k with deque := l }))
      | some b => .next (startBlock (modCore s core (fun k => { k with deque := l })) blk b)

/-- The launch values of spawned threads (R302). -/
def spawnArgs : Nat → List (DWord × DWord) → Tab Word
  | _, [] => []
  | t, (a, b) :: l =>
    let put (i : Nat) (x : Word) (r : Tab Word) : Tab Word := if x = 0 then r else (t * 256 + i, x) :: r
    put 0 (a.setWidth 32) (put 1 ((a >>> 32).setWidth 32) (put 2 (b.setWidth 32) (put 3 ((b >>> 32).setWidth 32) (spawnArgs (t + 1) l))))

/-- A spawned group as a singleton block in a gang of its own (R52). -/
def startSpawned (s : State) (core : Nat) (bin : Bin) : State :=
  let n := s.blocks.length
  let gang := s.gangs.length
  let e := bin.entry
  let b : Block := { Block.start bin.ctx none gang 0 0 core bin.entryVa e ((freeImages s bin.ctx 1).headD 0) with
    spawned := true }
  let g : Gang := { ctx := bin.ctx, task := none, index := 0, blocks := [n], phase := false, marks := 0, saving := none }
  let s := takeWindows (settleBoundary { s with blocks := s.blocks ++ [b], gangs := s.gangs ++ [g] } core) n
  let s := launchAcquire s core bin.ctx
  let gr := Group.start bin.ctx n 0 core ((takeSlots s.free 1 (freeSlots s core)).headD 0) e.size e.vcount
    (firstThreads bin.threads.length) (plainGrant s core s.groups.length e.size bin.ctx)
    (launchInterlocked s bin.ctx e.stepping) bin.entryVa (clk s)
  modBlock { s with groups := s.groups ++ [{ gr with v := spawnArgs 0 bin.threads }] } n
    (fun b => { b with groups := [s.groups.length] })

/-- A bin that waits for room on the spawn list closes when there is some (R302). -/
def closeWaiting (s : State) (core : Nat) : State :=
  (List.range 16).foldl (fun s i => match (coreOf s core).bins.getD i none with
    | some b => if b.closing then closeBin s core i else s
    | none => s) s

/-- SPAWNED_GROUP_START (R302, R52): the first closed group of the spawn list starts where it fits; one that never can leaves the
list with a SHAPE_UNFIT entry, and holds nothing back (R318; log 18). -/
def execSpawnedGroupStart (core : Nat) (s : State) : Out :=
  match (coreOf s core).spawnList with
  | [] => .next s
  | b :: l =>
    let rest := modCore s core (fun k => { k with spawnList := l })
    .next (if spawnFits s core b then startSpawned rest core b
      else if spawnNever s b then
        post rest (core / 128) { ctx := b.ctx, kind := 3, access := 6, addr := b.entryVa, originKind := 3, origin := 0, time := s.time }
      else s)

/-- TIMER_EXPIRY (R302, R51): an open bin whose timer has run out closes with the threads it has. -/
def execTimerExpiry (core bin : Nat) (s : State) : Out :=
  match (coreOf s core).bins.getD bin none with
  | none => .next s
  | some b => .next (if !b.closing && b.start + b.entry.timer ≤ clk s then closeBin s core bin else s)

/-- BIN_CLOSE (R302): a full or expired bin's group joins the spawn list when that has room. -/
def execBinClose (core bin : Nat) (s : State) : Out :=
  match (coreOf s core).bins.getD bin none with
  | none => .next s
  | some b => .next (if b.closing then closeBin s core bin else s)

/-! ### STEAL, URGENT (R50, R49) -/

/-- Whether a core is idle. -/
def coreIdle (s : State) (core : Nat) : Bool := (residents s core).isEmpty && (coreOf s core).spawnList.isEmpty

/-- Entries moved oldest first, as many as the thief can reserve. -/
def stealLoop (thief victim : Nat) : Nat → State → State
  | 0, s => s
  | n + 1, s => match (coreOf s victim).deque with
    | [] => s
    | blk :: l => match s.blocks[blk]? with
      | none => s
      | some b =>
        if !(roomBesideAb s b.entry b.entry.block thief && abRoom s b.entry thief && (coreOf s thief).deque.length < 16) then s else
        let s := modBlock s blk (fun b => { b with core := thief })
        let s := modCore (modCore s victim (fun k => { k with deque := l })) thief (fun k => { k with deque := k.deque ++ [blk] })
        stealLoop thief victim n (lowerBound (settleBoundary s thief) victim)

/-- STEAL (R50, R303): an idle core takes half of another's deque; the slots promised there are free (R40). -/
def execSteal (thief victim : Nat) (s : State) : Out :=
  let n := (coreOf s victim).deque.length
  if thief = victim ∨ thief / 128 ≠ victim / 128 ∨ n < 2 ∨ coreIdle s thief = false ∨ (activeCores s (thief / 128)).contains thief = false
  then .next s
  else .next (refillSlots (stealLoop thief victim (n / 2) s) victim)

/-- URGENT (R49): a ready fragment passed over for 256 clk is marked. -/
def execUrgent (g f : Nat) (s : State) : Out :=
  match (s.groups[g]?).bind (fun gr => gr.frag? f) with
  | none => .next s
  | some fr => .next (if 256 ≤ fr.passed then modFrag s g f (fun x => { x with urgent := true }) else s)

/-! ### TASK_COMPLETION (R299) -/

/-- An entry that a task's completion posts. -/
def postTask (s : State) (t : Task) (kind : Nat) (va : DWord) : State :=
  post s t.die { ctx := t.ctx, kind, access := 2, addr := va, originKind := 3, origin := t.desc, time := s.time }

/-- One step of completion: a far atomic on a word of the context, and whether the step is over. -/
def completionStep (s : State) (n : Nat) (t : Task) (va : DWord) (f : Nat → Nat) (under : Bool) : State × Bool :=
  match deviceXlat s t.ctx .atomic va with
  | .page pte =>
    let s := if t.posted then s else postTask s t 1 va
    (armMonitor { s with tasks := modAt s.tasks n (fun t => { t with posted := true }) } pte (.task n), false)
  | .offline _ => (s, false)
  | .access => (postTask s t 8 va, true)
  | .ok pa k =>
    if cwHeld s pa then (postTask s t 6 va, true) else
    let old := leNat (readBytes s k pa 8)
    let s := writeBytes (clearReg (clearReg s (pa / 4)) (pa / 4 + 1)) k pa (leBytes 8 (f old))
    (if under && old == 0 then postTask s t 4 va else s, true)

/-- A task moved to its next stage. -/
def stageTask (s : State) (n : Nat) (l : TaskLife) : State :=
  { s with tasks := modAt s.tasks n (fun t => { t with life := l, posted := false }) }

/-- The second step: the done counter. -/
def finishTask (s : State) (n : Nat) (t : Task) : State :=
  if t.words.getD 3 0 = 0 then stageTask s n .complete else
  let r := completionStep s n t (t.words.getD 3 0) (fun x => x - 1) true
  if r.2 then stageTask r.1 n .complete else r.1

/-- TASK_COMPLETION (R299): the completion word by a far atomic max, then the done counter by a decrement. -/
def execTaskCompletion (n : Nat) (s : State) : Out :=
  match s.tasks[n]? with
  | none => .next s
  | some t => match t.life with
    | .wordPending =>
      if t.words.getD 4 0 = 0 then .next (finishTask (stageTask s n .donePending) n { t with posted := false }) else
      let r := completionStep s n t (t.words.getD 4 0) (fun x => max x (t.words.getD 5 0).toNat) false
      .next (if r.2 then finishTask (stageTask r.1 n .donePending) n { t with posted := false } else r.1)
    | .donePending => .next (finishTask s n t)
    | .placing | .running | .complete | .gone => .next s

/-! ### UNBIND, OVERFLOW_APPEND (R287, R288, R305) -/

/-- UNBIND (R287): a slot whose queue has stayed empty and unused for 65,536 clk frees and writes its fields back. -/
def execUnbind (die slot : Nat) (s : State) : Out :=
  match (s.slots.filter (fun q => q.die == die))[slot]? with
  | none => .next s
  | some q =>
    if !q.isEmpty || clk s < q.idleSince + 65536 then .next s
    else match unbindSlot s q with
      | none => .next s
      | some s1 => .next (bindWaiting s1 die)

/-- The first entry of a buffer that its context's queue takes now, with no entry of that context before it. -/
def appendFirst (s : State) (o : Overflow) : List Ctx → List FaultEntry → Option (FaultEntry × State)
  | _, [] => none
  | seen, e :: l =>
    if seen.contains e.ctx then appendFirst s o seen l
    else match faultAppend s e (o.dropsOf e.ctx) with
      | some s1 => some (e, s1)
      | none => appendFirst s o (e.ctx :: seen) l

/-- Whether the poster of an entry that found the buffer full still holds it (R305): it goes on waiting on the page. A group that has
stopped keeps its CONTEXT_FAULT. -/
def stillHeld (s : State) (e : FaultEntry) : Bool :=
  if e.kind = 7 then true
  else match e.originKind with
    | 0 => s.groups.any (fun gr => gr.ctx == e.ctx && gr.going && gr.pages.any (samePage e.addr))
        || s.chains.any (fun c => c.posted.any (samePage e.addr))
        || s.slots.any (fun q => q.waiting && q.page.any (samePage e.addr))
    | 1 => s.ctls.any (fun c => c.ctx == e.ctx && c.queue.any (fun q => samePage q.2 e.addr))
        || s.slots.any (fun q => q.waiting && q.page.any (samePage e.addr))
    | 2 => s.commands.any (fun c => BitVec.ofNat 64 c.word == e.origin && c.posted.any (samePage e.addr))
    | _ => s.slots.any (fun q => q.ctx == e.ctx && (q.page.any (samePage e.addr) || q.recs.any (fun r => r.page.any (samePage e.addr))))
        || s.tasks.any (fun t => t.desc == e.origin && t.posted)

/-- OVERFLOW_APPEND (R305): a waiting entry reaches its fault queue, and the first one that its poster still holds takes its place. -/
def execOverflowAppend (die : Nat) (s : State) : Out :=
  let o := s.overflow.getD die Overflow.empty
  match appendFirst s o [] o.entries with
  | none => .next s
  | some (e, s1) =>
    .next { s1 with overflow := modAt s1.overflow die (fun o =>
      let held := o.held.filter (stillHeld s)
      { entries := o.entries.erase e ++ held.take 1, held := held.drop 1,
        dropped := o.dropped.filter (fun p => p.1 != e.ctx) }) }

/-! ### AB_INTERVAL_END (R205 to R207) -/

/-- What a candidate is made of. -/
def Front.ctxEntry : Front → Ctx × Entry
  | .record q _ e => (q.ctx, e)
  | .task _ x => (x.ctx, x.entry)

/-- Whether a block waits for AB room on a core (R206): of the task at the front of a dispatcher that may place there, of the
group at the head of the core's spawn list, or of a gang to be restored. -/
def waitsAb (s : State) (core : Nat) : Bool :=
  let die := core / 128
  let lacks (c : Ctx) (e : Entry) (n : Nat) : Bool := dieOpen s die && coreActive s core && bitAt (dieMask s c) die && lacksAb s e n core
  (List.range 4).any (fun d => (d == die || adjacent d die) && (firstFront (fronts s d)).any (fun x =>
      ctxTakesGang s x.ctxEntry.1 && lacks x.ctxEntry.1 x.ctxEntry.2 x.ctxEntry.2.block))
    || ((coreOf s core).spawnList.head?).any (fun b => !placementHeld s b.ctx && recordOk s b.ctx && lacks b.ctx b.entry 1)
    || s.blocks.any (fun b => b.ready && (b.life == .saved || b.life == .switchedOut) && !placementHeld s b.ctx
      && lacks b.ctx b.entry (groupCount s b))

/-- Whether counts of an interval can be those of sampled sets (R206): of the accesses that there were, hits that 64 KiB less would
have lost, which needs that fewer than its four frames were free, and misses that 64 KiB more would have made hits, which needs
that an eviction took the tile's frame. -/
def Core.samples (k : Core) (a l g : Nat) : Bool := a ≤ k.tileHits + k.tileMisses && l ≤ k.tightHits && g ≤ k.lostMisses && l + g ≤ a

/-- AB_INTERVAL_END: at the end of an interval B moves by 64 KiB under R206, for the counts `a`, `l` and `g` of the
interval; a raise that finds no frames is skipped. -/
def execAbIntervalEnd (core a l g : Nat) (s : State) : Out :=
  let k := coreOf s core
  let n := clk s / 65536
  if clk s % 65536 ≥ 2 ∨ n = k.interval ∨ k.samples a l g = false then .next s else
  let s := modCore s core (fun k => { k with interval := n, tileHits := 0, tileMisses := 0, tightHits := 0, lostMisses := 0 })
  let rs := residents s core
  let b := k.carve + 64
  .next (if waitsAb s core then
      (if b ≤ abMax rs ∧ 64 * l < a then
        (match raiseTo s core b with
         | none => s
         | some s1 => modCore s1 core (fun k => { k with carve := b }))
      else s)
    else if 64 ≤ k.carve ∧ abMin rs ≤ k.carve - 64 ∧ a < 32 * g then modCore s core (fun k => k.lower (k.carve - 64))
    else s)

/-- The counts of a core's sampled sets, any that they can be (R206; log 37). -/
def sampleCounts (s : State) (core : Nat) : Nat × Nat × Nat :=
  let k := coreOf s core
  let l := Config.freeNat .abCounts s.free (3 * core) % (k.tightHits + 1)
  let g := Config.freeNat .abCounts s.free (3 * core + 1) % (k.lostMisses + 1)
  (min (k.tileHits + k.tileMisses) (l + g + Config.freeNat .abCounts s.free (3 * core + 2) % (k.tileHits + k.tileMisses + 1)), l, g)

/-- The interval ends of every core that are due and have not been taken (R205). -/
def endIntervals (s : State) : State :=
  (s.cores.map (·.1)).foldl (fun s core =>
    let x := sampleCounts s core
    match execAbIntervalEnd core x.1 x.2.1 x.2.2 s with
    | .next t => t
    | .fault _ => s
    | .refused _ => s) s

end Sys2Proof.Machine
end

