-- ==== Sys2Proof/Machine/Preempt.lean ====
section
/-! DEFINITION. Pre-emption (15 R316 to R322, 17 R347, R348, 02 R37): switch-out, the request word and its six codes, the save
of a gang, its restore, the status word: SWITCH_OUT, RUN_REQUEST to UNASSIGNED_REQUEST, DRAINLIM_EXPIRY, SAVE, RESTORE,
STATUS_WRITE. -/

namespace Sys2Proof.Machine

/-! ### Requests (R317, R319) -/

/-- A context that the device has met: bound on a control core, with a block, or with a bound queue. -/
def knownCtx (s : State) (c : Ctx) : Bool :=
  s.ctls.any (fun k => k.bound && k.ctx == c) || s.blocks.any (fun b => b.ctx == c) || s.slots.any (fun q => q.ctx == c)

/-- The request that the device has taken last from a context. -/
def lastRequest (s : State) (c : Ctx) : Option Request := s.requests.find? (fun r => r.ctx == c)

/-- Code and sequence of the request word in the record. -/
def requestWord (s : State) (c : Ctx) : Nat × Nat := (recordField s c 0 1, recordField s c 1 7)

/-- A request taken, with its result so far. -/
def putRequest (s : State) (r : Request) : State :=
  { s with requests := r :: s.requests.filter (fun x => x.ctx != r.ctx) }

/-- The device takes a request word that it has not taken yet, if its code is one of `codes`. -/
def takeRequest (c : Ctx) (codes : Nat → Bool) (effect : State → State) (s : State) : Out :=
  let w := requestWord s c
  if !knownCtx s c || !codes w.1 || w = ((lastRequest s c).map (fun r => (r.code, r.seq))).getD (0, 0) then .next s
  else .next (effect (putRequest s
    { ctx := c, code := w.1, seq := w.2, answered := false, result := if 5 ≤ w.1 then 2 else 0, rcslot := none }))

/-- Gangs of a context with a block on a core. -/
def residentGangs (s : State) (c : Ctx) : List Nat :=
  (s.gangs.zipIdx.filter (fun p => p.1.ctx == c && p.1.blocks.any (fun b => match s.blocks[b]? with
    | some bl => bl.life == .running || bl.life == .deque
    | none => false))).map (·.2)

/-- A gang changed in place. -/
def modGang (s : State) (g : Nat) (f : Gang → Gang) : State := { s with gangs := modAt s.gangs g f }

/-! ### Blocks leaving their cores -/

/-- A block that was on a core no longer is (R320 step 6, R205, R40): its deque entry, its AB room and its slots are free, and its
context's counts are folded where R366 says so. -/
def leaveCore (fold : Bool) (s : State) (blk : Nat) (b : Block) : State :=
  let s := modCore s b.core (fun k => { k with deque := k.deque.filter (fun x => x != blk) })
  let s := if !fold || residentOn s b.core b.ctx then s else foldCounts s b.core b.ctx false
  refillSlots (lowerBound s b.core) b.core

/-- A group without a future: nothing of it stays. -/
def Group.discard (gr : Group) : Group :=
  { gr with life := if gr.going then .gone else gr.life, frags := [], trapQ := [], late := [], handler := none, log := [], region := none,
            v := [], q := [], s := [], k := [], older := [] }

/-- A block discarded with its windows, registers and tiles (R319, R347): its fills and peer adds are cancelled, its agents'
registration is settled, its image slot is free; a flush folds its counts, an abort does not (R366). -/
def discardBlock (fold : Bool) (s : State) (blk : Nat) : State :=
  match s.blocks[blk]? with
  | none => s
  | some b =>
    let s := leaveWindows (removeRecords s blk) blk
    let s := b.groups.foldl (fun s g => modGroup (settleAgent s (.group g)) g Group.discard) s
    let s := { s with chunks := s.chunks.filter (fun k => !b.groups.contains k.g),
                      adds := s.adds.filter (fun a => a.src != blk && a.dst != blk) }
    let s := modBlock s blk (fun b => { b with life := .gone, wb := [], ab := [], cb := [], ls := [], ready := false })
    if b.life == .running || b.life == .deque then leaveCore fold s blk b else s

/-- A gang flushed, or returned before it started: its blocks are discarded and its place in its task is free again (R319,
the card of the local deques). -/
def returnGang (s : State) (g : Nat) : State :=
  match s.gangs[g]? with
  | none => s
  | some x => modGang ((gangMembers s x).foldl (discardBlock true) s) g (fun x => { x with task := none, saving := none })

/-! ### The choice of a pre-emption (R319) -/

/-- What happens to a block or gang. -/
inductive Choice | flush | drain | save
  deriving DecidableEq, Repr

/-- A block's progress estimate. -/
def progress (s : State) (b : Block) : Nat :=
  let grs := b.groups.filterMap (fun g => s.groups[g]?)
  max (255 * (grs.filter (fun gr => gr.life == .ended)).length / b.entry.block)
    ((grs.filter Group.going).foldl (fun m gr => max m gr.prog.toNat) 0)

/-- The drain threshold of a context. -/
def drainThreshold (s : State) (c : Ctx) : Nat :=
  let n := recordField s c 60 1
  if n = 0 then 224 else n

/-- The longest drain of a context, in clk. -/
def drainLimit (s : State) (c : Ctx) : Nat :=
  let n := recordField s c 64 8
  if n = 0 then 1000000 else n

/-- The choice of a block. -/
def blockChoice (s : State) (b : Block) : Choice :=
  if b.clean && progress s b < 32 && !b.spawned then .flush
  else if drainThreshold s b.ctx ≤ progress s b then .drain
  else .save

/-- The choice of a gang: an ended member neither flushes nor hinders a drain. -/
def gangChoice (s : State) (x : Gang) : Choice :=
  let bs := (gangMembers s x).filterMap (fun b => s.blocks[b]?)
  if bs.length = x.blocks.length ∧ bs.all (fun b => blockChoice s b == .flush) then .flush
  else if bs.all (fun b => blockChoice s b == .drain) then .drain
  else .save

/-- Whether no member of a gang has started. -/
def unstarted (s : State) (x : Gang) : Bool :=
  x.blocks.all (fun b => match s.blocks[b]? with
    | some bl => bl.life == .deque
    | none => false)

/-- A gang starts on its way into its images; one that has not started returns to its task. -/
def startSave (s : State) (g : Nat) : State :=
  match s.gangs[g]? with
  | none => s
  | some x =>
    if x.saving.isSome then s
    else if unstarted s x then returnGang s g
    else modGang s g (fun x => { x with saving := some false })

/-- A gang pre-empted. -/
def preemptGang (s : State) (g : Nat) : State :=
  match s.gangs[g]? with
  | none => s
  | some x =>
    if x.saving.isSome then s else
    match gangChoice s x with
    | .flush => returnGang s g
    | .drain => (gangMembers s x).foldl (fun s b => modBlock s b (fun b => { b with drainFrom := some (clk s) })) s
    | .save => startSave s g

/-! ### The spawn save area (R320) -/

/-- The record of a bin. -/
def spawnBytes (b : Bin) : List Byte :=
  leBytes 8 (b.threads.length % 512 + b.entryVa.toNat % 2 ^ 48 * 2 ^ 16)
    ++ b.threads.flatMap (fun p => leBytes 8 p.1.toNat ++ leBytes 8 p.2.toNat)

/-- One bin written behind the records that stand in its context's area; `none` where it does not fit or its page is not
there. -/
def parkSpawn (s : State) (core : Nat) (b : Bin) (isOpen : Bool) : Option State :=
  let used := ((s.spawnSaved.filter (fun r => r.bin.ctx == b.ctx)).map (·.size)).sum
  let bs := spawnBytes b
  if recordField s b.ctx 44 4 < used + bs.length then none else
  match devWrite s b.ctx (BitVec.ofNat 64 (recordField s b.ctx 48 8 + used)) bs with
  | .ok s1 => some { s1 with spawnSaved := s1.spawnSaved ++ [{ core, bin := b, isOpen, size := bs.length }] }
  | .page _ _ => none
  | .fail _ => none
  | .offline _ => none

/-- One bin of a core saved; without room it closes early. -/
def parkBin (c : Ctx) (core : Nat) (s : State) (i : Nat) : State :=
  match (coreOf s core).bins.getD i none with
  | none => s
  | some b =>
    if b.ctx != c then s else
    match parkSpawn s core b (!b.closing) with
    | some s1 => setBin s1 core i none
    | none => closeBin s core i

/-- The groups of a spawn list saved; those without room stay. -/
def parkList (c : Ctx) (core : Nat) : List Bin → State → List Bin × State
  | [], s => ([], s)
  | b :: l, s =>
    match (if b.ctx == c then parkSpawn s core b false else none) with
    | some s1 => parkList c core l s1
    | none =>
      let r := parkList c core l s
      (b :: r.1, r.2)

/-- The bins and the spawn list of a context on one core saved. -/
def parkCore (c : Ctx) (s : State) (core : Nat) : State :=
  let s := (List.range 16).foldl (parkBin c core) s
  let r := parkList c core (coreOf s core).spawnList s
  modCore r.2 core (fun k => { k with spawnList := r.1 })

/-- The bins and spawn lists of a context saved. -/
def parkSpawns (s : State) (c : Ctx) : State :=
  ((s.cores.filter (fun p => p.2.spawnList.any (fun b => b.ctx == c) || p.2.bins.any (fun b => match b with
    | some b => b.ctx == c
    | none => false))).map (·.1)).foldl (parkCore c) s

/-- One record put back on its core: an open bin opens again with its timer started afresh. -/
def unparkSpawn (s : State) (r : SpawnRec) : State :=
  let k := coreOf s r.core
  let gone := { s with spawnSaved := s.spawnSaved.erase r }
  match (if r.isOpen || 16 ≤ k.spawnList.length then k.bins.findIdx? (·.isNone) else none) with
  | some i => setBin gone r.core i (some { r.bin with start := clk s, closing := !r.isOpen })
  | none =>
    if k.spawnList.length < 16 then modCore gone r.core (fun k => { k with spawnList := k.spawnList ++ [r.bin] }) else s

/-- The records of a context put back. -/
def unparkSpawns (s : State) (c : Ctx) : State := (s.spawnSaved.filter (fun r => r.bin.ctx == c)).foldl unparkSpawn s

/-! ### The six requests -/

/-- RUN_REQUEST: no action. -/
def execRunRequest (c : Ctx) (s : State) : Out := takeRequest c (· == 0) id s

/-- PREEMPT_REQUEST: every gang flushes, drains or is saved. -/
def execPreemptRequest (c : Ctx) (s : State) : Out :=
  takeRequest c (· == 1) (fun s => (residentGangs s c).foldl preemptGang s) s

/-- SAVE_REQUEST: every gang is saved. -/
def execSaveRequest (c : Ctx) (s : State) : Out :=
  takeRequest c (· == 2) (fun s => (residentGangs s c).foldl startSave s) s

/-- Every block of a context discarded, with its bins, spawn lists and images; tasks of discarded gangs never complete. -/
def abortContext (s : State) (c : Ctx) : State :=
  let gangs := s.gangs.filter (fun x => x.ctx == c && !(gangMembers s x).isEmpty)
  let blocks := (s.blocks.zipIdx.filter (fun p => p.1.ctx == c && p.1.life != .ended && p.1.life != .gone)).map (·.2)
  let s := blocks.foldl (discardBlock false) s
  { s with
    tasks := s.tasks.zipIdx.map (fun p => if gangs.any (fun x => x.task == some p.2) then { p.1 with life := .gone } else p.1),
    gangs := s.gangs.map (fun x => if x.ctx == c then { x with saving := none } else x),
    cores := s.cores.map (fun p => (p.1, { p.2 with
      bins := p.2.bins.map (fun b => match b with
        | some b => if b.ctx == c then none else some b
        | none => none),
      spawnList := p.2.spawnList.filter (fun b => b.ctx != c) })),
    spawnSaved := s.spawnSaved.filter (fun r => r.bin.ctx != c) }

/-- ABORT_REQUEST: every block and group is discarded. -/
def execAbortRequest (c : Ctx) (s : State) : Out := takeRequest c (· == 3) (fun s => abortContext s c) s

/-- RESUME_REQUEST: saved blocks become restorable, and switched-out ones that wait for nothing more (R316, R322). -/
def execResumeRequest (c : Ctx) (s : State) : Out :=
  takeRequest c (· == 4) (fun s =>
    unparkSpawns { s with blocks := s.blocks.map (fun b =>
      if b.ctx == c && (b.life == .saved || (b.life == .switchedOut && b.missKeys.isEmpty)) then { b with ready := true } else b) } c) s

/-- UNASSIGNED_REQUEST: a code of 5 to 255 counts as run and has result 2. -/
def execUnassignedRequest (c : Ctx) (s : State) : Out := takeRequest c (5 ≤ ·) id s

/-- DRAINLIM_EXPIRY: a block that has not ended after drainlim clk is saved, with its gang. -/
def execDrainlimExpiry (block : Nat) (s : State) : Out :=
  match s.blocks[block]? with
  | none => .next s
  | some b => match b.drainFrom with
    | none => .next s
    | some t =>
      if b.life != .running || clk s < t + drainLimit s b.ctx then .next s
      else .next (startSave (match s.gangs[b.gang]? with
        | none => s
        | some x => x.blocks.foldl (fun s n => modBlock s n (fun b => { b with drainFrom := none })) s) b.gang)

/-! ### SWITCH_OUT (R316) -/

/-- Groups of a block, its recipe runs included. -/
def groupsOf (s : State) (blk : Nat) : List Group := s.groups.filter (fun gr => gr.block == blk && gr.going)

/-- What the parked instructions, fetches and releases of a group wait on (R316). -/
def Group.missKeys (gr : Group) : List Nat :=
  gr.log.flatMap (fun e => e.pages.map pageKey ++ e.dies.map dieKey)
    ++ gr.frags.flatMap (fun x => match x.wait with
      | .fetch va _ => [pageKey va]
      | .home dies _ => dies.map dieKey
      | _ => [])

/-- Whether an instruction of the group has been parked on a page or a home for 20,000 clk. -/
def Group.overdue (gr : Group) (now : Nat) : Bool :=
  gr.log.any (fun e => !(e.pages.isEmpty && e.dies.isEmpty) && e.since + 20000 ≤ now) || gr.frags.any (fun x => match x.wait with
    | .fetch _ since | .home _ since => since + 20000 ≤ now
    | _ => false)

/-- SWITCH_OUT: a block with an instruction parked for 20,000 clk goes into its image, with the rest of its gang. -/
def execSwitchOut (block : Nat) (s : State) : Out :=
  match s.blocks[block]? with
  | none => .next s
  | some b => match s.gangs[b.gang]? with
    | none => .next s
    | some x =>
      if b.life != .running || x.saving.isSome || !((groupsOf s block).any (fun gr => gr.overdue (clk s))) then .next s
      else .next (modGang s b.gang (fun x => { x with saving := some true }))

/-! ### SAVE (R320, R348) -/

/-- Whether an engine command has to land before a block can be saved: its destination lies in the block's windows, or it
credits a stage barrier of it. -/
def Command.holdsSave (c : Command) (blk : Nat) : Bool := c.blk == some blk && (c.dkind != 0 || c.mbarOn)

/-- Whether a member has drained (steps 2 and 3). -/
def drained (s : State) (blk : Nat) : Bool :=
  match s.blocks[blk]? with
  | none => true
  | some b => !(s.chunks.any (fun k => b.groups.contains k.g)) && !(s.commands.any (fun c => c.holdsSave blk))
      && !(s.adds.any (fun a => a.src == blk || a.dst == blk))

/-- A wait as it is saved: what has not been performed is not begun, a BAR.wait too (R356); a BAR that has arrived, a GBAR, a
JOIN and a batch are still waited at. -/
def Wait.saved : Wait → Wait
  | .run | .retry | .home _ _ | .fetch _ _ | .barWait _ _ | .mbar _ _ _ _ | .miss _ | .missEnd | .key _ | .drop _ | .halted => .run
  | .join t => .join t
  | .bar b p => .bar b p
  | .gbar p => .gbar p
  | .mbarEnd st n => .mbarEnd st n
  | .batch n c a => .batch n c a

/-- A group as it is saved: every write it has issued is performed (step 1). -/
def Group.save (gr : Group) : Group :=
  { gr with older := [], frags := gr.frags.map (fun x => { x with wait := x.wait.saved }) }

/-- A tile as it is saved (R348). -/
def Tile.save (t : Tile) : Tile :=
  match t.state with
  | .resident => if t.hold = 0 then { t with state := .defined, frame := [] } else t
  | .running => { t with state := .defined, frame := [] }
  | .free | .defined | .opened => t

/-- A block written into its image; `out` for a switch-out, which counts the pages and homes that are not there yet and keeps the
monitors armed on them (R316). A resume that was taken meanwhile makes it restorable. -/
def saveBlock (out resumed : Bool) (s : State) (blk : Nat) : State :=
  match s.blocks[blk]? with
  | none => s
  | some b =>
    let keys := if out then (((groupsOf s blk).flatMap Group.missKeys).dedup).filter (fun k => !keyCleared s b.ctx k) else []
    let s := (liveGroups s b).foldl settleLate (dropChains s blk)
    let s := (liveGroups s b).foldl (fun s g => modGroup (settleAgent s (.group g)) g Group.save) s
    let s := modBlock s blk (fun b =>
      { b with life := if out then .switchedOut else .saved, tiles := b.tiles.map Tile.save, missKeys := keys,
               missing := keys.length, savedAt := clk s, ready := if out then keys.isEmpty else resumed, drainFrom := none })
    let s := leaveCore true (leaveWindows (writeImage s blk) blk) blk b
    match s.blocks[blk]? with
    | none => s
    | some b1 => rearm s b1

/-- SAVE (R320): a gang that is being saved and has drained goes into its images. -/
def execSave (gang : Nat) (s : State) : Out :=
  match s.gangs[gang]? with
  | none => .next s
  | some x => match x.saving with
    | none => .next s
    | some out =>
      let ms := gangMembers s x
      if !(ms.all (drained s)) then .next s else
      let resumed := ((lastRequest s x.ctx).map (·.code)).getD 0 == 4
      .next (ms.foldl (saveBlock out resumed) (modGang s gang (fun x => { x with saving := none })))

/-! ### RESTORE (R321, R322, R37, R179) -/

/-- Members of a gang that are in their images. -/
def imagedMembers (s : State) (x : Gang) : List Nat :=
  x.blocks.filter (fun b => match s.blocks[b]? with
    | some bl => bl.life == .saved || bl.life == .switchedOut
    | none => false)

/-- The grant of a group inside a non-restartable region (R37). -/
def Group.regionGrant (gr : Group) : Option Nat :=
  match gr.region with
  | some r => if r.restartable || !gr.going then none else some gr.grant
  | none => none

/-- The active cores of a context's partition. -/
def partitionCores (s : State) (c : Ctx) : List Nat :=
  ((List.range 4).filter (fun d => bitAt (dieMask s c) d)).flatMap (activeCores s)

/-- Whether some core of the partition could ever hold a saved grant: its L is not below it (R37, R322). -/
def everHeld (s : State) (c : Ctx) (n : Nat) : Bool := (partitionCores s c).any (fun k => n ≤ laneCapacity s k c)

/-- Whether a core holds the saved grants of a block now, of those that some core could ever hold (R37): each, and together
those above the 4 lanes that every offer has (R33). -/
def holdsGrants (s : State) (b : Block) (core : Nat) : Bool :=
  let ns := ((b.groups.filterMap (fun g => s.groups[g]?)).filterMap Group.regionGrant).filter (everHeld s b.ctx)
  ns.all (fun n => n ≤ laneCapacity s core b.ctx)
    && ((ns.filter (4 < ·)).isEmpty || (ns.filter (4 < ·)).sum + lanesHeld s core s.groups.length ≤ laneCapacity s core b.ctx)

/-- Whether a core takes a member now. -/
def coreTakes (s : State) (blk core : Nat) : Bool :=
  match s.blocks[blk]? with
  | none => false
  | some b => coreFits s b.ctx b.entry (groupCount s b) core && holdsGrants s b core

/-- Members put on the first cores of a list that take them. -/
def assign (s : State) : List Nat → List Nat → Option (List Nat)
  | [], _ => some []
  | b :: l, cores => match cores.find? (coreTakes s b) with
    | none => none
    | some k => (assign s l (cores.filter (fun x => x != k))).map (fun r => k :: r)

/-- The sets of cores among which a gang may lie (R44). -/
def coreSets (s : State) (c : Ctx) : List (List Nat) :=
  let m := dieMask s c
  let own := (List.range 4).filter (fun d => bitAt m d)
  own.map (activeCores s) ++ own.flatMap (fun d => (neighbours m d).map (fun e => activeCores s d ++ activeCores s e))

/-- The model's own choice of cores for a restore. -/
def restoreCores (s : State) (c : Ctx) (ms : List Nat) : Option (List Nat) := (coreSets s c).findSome? (assign s ms)

/-- Whether cores that were asked for take the members. -/
def restorePlan (s : State) (c : Ctx) (ms cores : List Nat) : Option (List Nat) :=
  if cores.isEmpty then restoreCores s c ms
  else if cores.length = ms.length ∧ cores.dedup.length = ms.length ∧ (ms.zip cores).all (fun p => coreTakes s p.1 p.2)
      ∧ (coreSets s c).any (fun l => cores.all (fun k => l.contains k)) then some cores
  else none

/-- Whether the gang could lie on cores of the partition if they were all free (R322). -/
def everRestored (s : State) (c : Ctx) (n : Nat) : Bool := (coreSets s c).any (fun l => n ≤ l.length)

/-- Fragments of a group take any free slots one after another. -/
def Group.takeSeats (gr : Group) (free salt : Nat) : List Nat → Group
  | [] => gr
  | f :: l => (gr.modFrag f (fun x => { x with slot := some (gr.takeIndex free (salt + l.length)) })).takeSeats free salt l

/-- Fragments that were in slots take slots again; those beyond the free slots go to the stack, oldest waiting first
(R321, R40). -/
def Group.seat (gr : Group) (room free salt stamp : Nat) : Group :=
  let held := gr.frags.filter (fun x => x.slot.isSome)
  let rank (x : Frag) : Nat := (held.filter (fun y => y.since < x.since || (y.since == x.since && y.id < x.id))).length
  let extra := held.length - min 8 room
  let seated := (held.filter (fun x => extra ≤ rank x)).map (·.id)
  ({ gr with frags := gr.frags.map (fun x =>
      if x.slot.isSome && rank x < extra then { x with slot := none, spilled := stamp + rank x }
      else { x with slot := none }) } : Group).takeSeats free salt seated

/-- A restart of a width region (R179): one fragment, behind the SETW; what was parked inside the region is discarded. The manual
does not say what becomes of threads that have exited inside the region, which the recorded mask makes active again, of arrivals
at barriers, which are dropped, and of queued traps and a handler of the fragments discarded, which stay with the one that is left
(log 47). -/
def Group.restart (gr : Group) (r : Region) (low : Frag) (grant now : Nat) : Group :=
  let gr := gr.rename (gr.frags.map (·.id)) low.id
  { gr with
    grant,
    log := gr.log.filter (fun e => e.id < r.mark),
    frags := [{ low with mask := r.mask, toks := r.toks, pc := r.setwPc + 8, wait := .run, arr := [], since := now,
                         slot := some (low.slot.getD 0) }] }

/-- The AUX word of GRANT_LOST (R306). -/
def grantLostAux (r : Region) (grant : Nat) : DWord :=
  BitVec.ofNat 64 (r.request % 256 + grant % 256 * 2 ^ 8 + r.setwPc.toNat % 2 ^ 48 * 2 ^ 16)

/-- A group takes its grant on its new core (R321, R37, R322). -/
def regrant (s : State) (g : Nat) (core : Nat) : State :=
  match s.groups[g]? with
  | none => s
  | some gr =>
    let o := offer s core g gr.ctx
    match gr.region with
    | none => if gr.grant ≤ o then s else modGroup s g (fun gr => { gr with grant := plainGrant s core g gr.size gr.ctx })
    | some r =>
      if !r.restartable && everHeld s gr.ctx gr.grant then s
      else match lowestMember gr.frags with
        | none => s
        | some low =>
          if r.restartable then
            if gr.grant ≤ o then s else
            let n := if r.request ≤ 4 then 4 else if r.request ≤ 8 then 8 else if r.request ≤ 16 then 16
              else if r.request ≤ 32 then 32 else if r.request ≤ 64 then 64 else 128
            modGroup s g (fun gr => gr.restart r low (grantFloor (min (min n o) gr.size)) (clk s))
          else
            let s := modGroup s g (fun gr => { gr with region := none, grant := plainGrant s core g gr.size gr.ctx })
            enqueueTrap s g { cause := 12, frag := low.id, slot := low.slot.getD 0, ipc := low.pc, addr := 0,
                              aux := grantLostAux r gr.grant, rpc := some low.pc } false

/-- A group put on its new core; what is parked in it has been parked there from now on (R316). -/
def restoreGroup (core : Nat) (s : State) (p : Nat × Nat) : State :=
  let now := clk s
  let s := regrant (modGroup s p.1 (fun gr =>
    { gr with place := core, rslot := p.2, log := gr.log.map (fun e => { e with since := now }) })) p.1 core
  match s.groups[p.1]? with
  | none => s
  | some gr =>
    let others := slotsUsed (modGroup s p.1 (fun gr => { gr with frags := [] })) core
    { modGroup s p.1 (fun gr => gr.seat (max 1 (248 - others - slotsReserved s core)) s.free (p.1 * 16 + 8) s.nextId) with nextId := s.nextId + gr.frags.length }

/-- Whether a group's region ends at its restore, since no core could ever hold its grant (R322). -/
def losesGrant (s : State) (g : Nat) : Bool :=
  (s.groups[g]?).any (fun gr => gr.regionGrant.any (fun n => !everHeld s gr.ctx n))

/-- The saved tiles of a block get frames on its core, one after another; one that finds none has no place in the buffer (R348). -/
def seatTiles (blk core : Nat) (s : State) : State :=
  match s.blocks[blk]? with
  | none => s
  | some b =>
    let xs := (b.tiles.zipIdx.filter (fun p => p.1.state.framed)).map (·.2)
    xs.foldl (fun s x => match frameRoom s core with
      | none => s
      | some (p, s1) => modTile s1 blk x (fun t => { t with place := p }))
      (xs.foldl (fun s x => modTile s blk x (fun t => { t with place := 96 })) s)

/-- A member put on its new core; one that had not started is placed as before. -/
def restoreBlock (s : State) (p : Nat × Nat) : State :=
  match s.blocks[p.1]? with
  | none => s
  | some b =>
    let s := modBlock s p.1 (fun b => { b with life := .deque, core := p.2, missing := 0, missKeys := [], ready := false })
    let s := settleBoundary s p.2
    let s := if b.groups.isEmpty then s else modBlock s p.1 (fun b => { b with life := .running, grans := chooseGrans s p.2 b })
    let s := acquireAll (seatTiles p.1 p.2 s) (.core p.2) .pkg
    let gs := (liveGroups s b).filter (losesGrant s) ++ (liveGroups s b).filter (fun g => !losesGrant s g)
    let s := gs.foldl (fun s g => modGroup s g (fun gr => { gr with rslot := 64, place := p.2 })) s
    refillSlots ((gs.zip (takeSlots s.free gs.length (freeSlots s p.2))).foldl (restoreGroup p.2) s) p.2

/-- A member that has ended before a restore lies on no core from then on, so that the pooled window names the dies of the others
(R45; log 40). -/
def forgetCore (s : State) (blk : Nat) : State :=
  modBlock s blk (fun b => if b.life == .ended || b.life == .gone then { b with core := 512 } else b)

/-- Whether every core's tiles found their frames (R348). -/
def framesFound (s : State) (cores : List Nat) : Bool := cores.all (fun k => (framedTiles s k).all (fun t => t.2.2.place < 96))

/-- A gang that fits no core stays in its images, and the request's result is RESTORE_CAPACITY (R322, R317). -/
def noCapacity (s : State) (x : Gang) (ms : List Nat) : State :=
  let slot := ((ms.head?).bind (fun b => s.blocks[b]?)).map (·.image)
  let w := requestWord s x.ctx
  let r : Request := (lastRequest s x.ctx).getD { ctx := x.ctx, code := w.1, seq := w.2, answered := true, result := 0, rcslot := none }
  ms.foldl (fun s b => modBlock s b (fun b => { b with ready := false }))
    (putRequest s { r with answered := false, result := 1, rcslot := slot })

/-- Whether another switched-out gang's count reached zero before (R316). -/
def earlierRestorable (s : State) (gang : Nat) (ms : List Nat) : Bool :=
  let now := ms.foldl (fun m b => max m (((s.blocks[b]?).map (·.savedAt)).getD 0)) 0
  (s.gangs.zipIdx).any (fun p => p.2 != gang && (
    let os := (imagedMembers s p.1).filterMap (fun b => s.blocks[b]?)
    !os.isEmpty && os.all (fun b => b.life == .switchedOut && b.ready && b.ctx == p.1.ctx) && p.1.ctx == ((s.gangs[gang]?).map (·.ctx)).getD p.1.ctx
      && os.foldl (fun m b => max m b.savedAt) 0 < now))

/-- Whether a gang may be restored now: all its images are restorable, and no request stands in the way. -/
def restorable (s : State) (gang : Nat) (x : Gang) (ms : List Nat) : Bool :=
  !ms.isEmpty && !placementHeld s x.ctx && recordOk s x.ctx && ms.all (fun b => match s.blocks[b]? with
    | some bl => bl.ready && (bl.life == .saved || !earlierRestorable s gang ms)
    | none => false)

/-- RESTORE (R321): a restorable gang goes to `cores`, or to the model's own choice, and its parked instructions replay. -/
def execRestore (gang : Nat) (cores : List Nat) (s : State) : Out :=
  match s.gangs[gang]? with
  | none => .next s
  | some x =>
    let ms := imagedMembers s x
    if !restorable s gang x ms then .next s
    else if !everRestored s x.ctx ms.length then .next (noCapacity s x ms)
    else match restorePlan s x.ctx ms cores with
      | none => .next s
      | some ks =>
        let s1 := (ms.zip ks).foldl restoreBlock (x.blocks.foldl forgetCore s)
        if !framesFound s1 ks then .next (noCapacity s x ms) else
        let gs := ms.flatMap (fun b => match s.blocks[b]? with
          | some bl => bl.groups
          | none => [])
        .next ((entriesOf s1 gs).foldl (fun s p => replayEntry s p.1 p.2) s1)

/-! ### STATUS_WRITE (R317) -/

/-- Whether a block of the context is on a core, or on its way from one. -/
def residentCtx (s : State) (c : Ctx) : Bool := s.blocks.any (fun b => b.ctx == c && (b.life == .running || b.life == .deque))

/-- Whether a request has been carried out (R319). -/
def carriedOut (s : State) (r : Request) : Bool :=
  if 1 ≤ r.code ∧ r.code ≤ 3 then !residentCtx s r.ctx
  else if r.code = 4 then !(s.blocks.any (fun b => b.ctx == r.ctx && b.life == .saved && b.ready))
      && !(s.gangs.any (fun x => x.ctx == r.ctx && x.saving.isSome))
  else true

/-- A far atomic exchange by the device at a fixed physical address of a context: the words go to V; words that are held
keep their values. -/
def deviceExchange (s : State) (key pa : Nat) (bs : List Byte) : State :=
  let ws := (List.range (bs.length / 4)).map (fun i => pa / 4 + i)
  if ws.any (fun w => (writeRace s none w).isSome) then s
  else writeBytes (ws.foldl clearReg s) key pa bs

/-- STATUS_WRITE: a request that has been carried out is answered; its spawn bins are saved before, the counts of a save are
folded, and rcslot is written before result 1. -/
def execStatusWrite (c : Ctx) (s : State) : Out :=
  match lastRequest s c with
  | none => .next s
  | some r =>
    let root := c.root.toNat
    match fixedAt s c (root + 0x1000) with
    | .gone => .next s
    | .offline _ => .next s
    | .at key =>
      if r.answered || !carriedOut s r then .next s else
      let s := if r.code = 1 ∨ r.code = 2 then parkSpawns s c else s
      let s := if r.code = 2 then (s.cores.map (·.1)).foldl (fun s k => foldCounts s k c false) s else s
      let s := match r.rcslot with
        | some n => deviceExchange s key (root + 0x1000 + 76) (leBytes 4 (n % 2 ^ 16))
        | none => s
      .next (putRequest (deviceExchange s key (root + 0x1008) (leBytes 8 (r.result + r.seq * 2 ^ 8)))
        { r with answered := true, rcslot := none })

end Sys2Proof.Machine
end

