-- ==== Sys2Proof/Machine/HostSide.lean ====
section
/-! DEFINITION. The host side (19 R367 to R372, R378, R381): DOORBELL, REGISTER_WRITE, CXL_MEM_READ, CXL_MEM_WRITE, SPDM_REQUEST,
UNCORRECTABLE_ERROR, THERMAL_LIMIT. -/

namespace Sys2Proof.Machine

/-- A source raised to every enabled control core of the package (R371). -/
def raiseAll (s : State) (src : Nat) : State := raiseSource s src (fun _ => true) 0

/-! ### BAR 0 (R371, R124) -/

/-- DOORBELL: source 1. -/
def execDoorbell (_iod : Nat) (s : State) : Out := .next (raiseAll s 1)

/-- Bytes laid over a list from a place on; what falls outside is ignored. -/
def overlay (l : List Byte) (off : Nat) (bs : List Byte) : List Byte :=
  l.zipIdx.map (fun p => if off ≤ p.2 then bs.getD (p.2 - off) p.1 else p.1)

/-- A host write of 8 bytes to BAR 0. -/
def writeBar (s : State) (iod off : Nat) (v : DWord) : State :=
  if off = 0x100 then raiseAll s 1
  else if off = 0x108 then { s with bars := modAt s.bars iod (fun b => { b with mailbox := v }) }
  else if 0x200 ≤ off ∧ off < 0x300 then
    { s with bars := modAt s.bars iod (fun b => { b with msix := overlay b.msix (off - 0x200) (leBytes 8 v.toNat) }) }
  else s

/-- A host read of 8 bytes of BAR 0: the value that it returns. -/
def readBar (s : State) (iod off : Nat) : DWord :=
  match s.bars[iod]? with
  | none => 0
  | some b =>
    if off = 0 then BitVec.ofNat 64 (0x4F5A + Config.stepId * 2 ^ 16)
    else if off = 8 then s.hostState.setWidth 64
    else if off = 0x108 then b.mailbox
    else if 0x200 ≤ off ∧ off < 0x300 then BitVec.ofNat 64 (field b.msix (off - 0x200) 8)
    else 0

/-- REGISTER_WRITE: a control register without a behaviour of its own, or a BAR register. -/
def execRegisterWrite (r : RegWrite) (s : State) : Out :=
  match r with
  | .csr cc csr fn v => .next (writePlain s cc csr.toNat fn v)
  | .bar iod off v => .next (writeBar s iod off v)

/-! ### CXL.mem (R369, R370) -/

/-- Bytes that an HDM decoder exposes. -/
def hdmRange (s : State) : Nat := 4 * ((List.range 4).map (dieBytes s)).foldl min (dieBytes s 0)

/-- The host as it accesses device memory through an I/O die. -/
def hostWho (s : State) (iod : Nat) : Who := { site := .iod iod, ctx := s.hostCtx, priv := false, agent := .host iod, home := true }

/-- The PAGE entry of a host access. -/
def postHostPage (s : State) (iod access : Nat) (va : DWord) : State :=
  post s (4 + iod)
    { ctx := s.hostCtx, kind := 1, access, addr := va, originKind := 4, origin := BitVec.ofNat 64 iod, time := s.time }

/-- The HOST_RACE entry of a host access (R228). -/
def postHostRace (s : State) (iod access : Nat) (r : Option (Race × DWord)) : State :=
  match r with
  | none => s
  | some (_, va) => post s (4 + iod)
      { ctx := s.hostCtx, kind := 5, access, addr := va, originKind := 4, origin := BitVec.ofNat 64 iod, time := s.time }

/-- What the host has read. -/
def reply (s : State) (iod : Nat) (bs : List Byte) : State :=
  { s with bars := modAt s.bars iod (fun b => { b with reply := bs, poisoned := false }) }

/-- A read that completes with poison: the mark, and bytes that mean nothing. -/
def poisonReply (s : State) (iod : Nat) : State :=
  { s with bars := modAt s.bars iod (fun b =>
      { b with reply := (List.range 64).map (fun i => Config.poisonByte (s.free * 64 + i)), poisoned := true }) }

/-- The words of the host's line read as plain loads. -/
def hostLoad (s : State) (w : Who) (va : DWord) (key : Nat) : Nat → Nat → List Byte × Option (Race × DWord)
  | _, 0 => ([], none)
  | n, k + 1 =>
    let r := loadWord s (some w.agent) key n
    let rest := hostLoad s w (va + 4) key (n + 1) k
    (leBytes 4 r.1.toNat ++ rest.1, worse (if r.2 then some (.race, va) else none) rest.2)

/-- CXL_MEM_READ: the 64-byte line at a host offset, which the host may cache. -/
def execCxlMemRead (iod off : Nat) (s : State) : Out :=
  if hdmRange s ≤ off then .next s else
  let va := BitVec.ofNat 64 (off / 64 * 64)
  match translate s (.iod iod) s.hostCtx false .load va with
  | (.page _, s1) => .next (poisonReply (postHostPage s1 iod 0 va) iod)
  | (.access, s1) => .next (poisonReply s1 iod)
  | (.offline _, s1) => .next (poisonReply s1 iod)
  | (.ok pa key, s1) =>
    if s1.poison.contains (pa / 64) then .next (poisonReply s1 iod) else
    let r := hostLoad s1 (hostWho s iod) va key (pa / 4) 16
    let s2 := { s1 with hostLines := if s1.hostLines.contains (pa / 64) then s1.hostLines else pa / 64 :: s1.hostLines }
    .next (postHostRace (reply s2 iod r.1) iod 0 r.2)

/-- The bytes of a host write that lie in the line of its first one. -/
def lineBytes (off : Nat) (bytes : List Byte) : List Byte := bytes.take (64 - off % 64)

/-- CXL_MEM_WRITE: bytes within one line, a plain store of the host and then its release at pkg scope. -/
def execCxlMemWrite (iod off : Nat) (bytes : List Byte) (s : State) : Out :=
  let bs := lineBytes off bytes
  if bs.isEmpty || hdmRange s ≤ off then .next s else
  let va := BitVec.ofNat 64 off
  match translate s (.iod iod) s.hostCtx false .store va with
  | (.page _, s1) => .next (postHostPage s1 iod 1 va)
  | (.access, s1) => .next s1
  | (.offline _, s1) => .next s1
  | (.ok pa key, s1) =>
    let whole := pa % 64 == 0 && bs.length == 64
    if s1.poison.contains (pa / 64) && !whole then .next s1 else
    let w := hostWho s iod
    let n := pa / 4
    let k := wordCount (pa % 4 + bs.length)
    match raceWords s1 w.agent (wordVa va) n k with
    | some r => .next (release (postHostRace s1 iod 1 (some r)) w.agent .pkg)
    | none =>
      let s2 := writeBytes (regStores s1 w key (wordVa va) n k) key pa bs
      let s3 := if whole then { s2 with poison := s2.poison.filter (fun u => u != pa / 64) } else s2
      .next (release s3 w.agent .pkg)

/-! ### SPDM (R378) -/

/-- SPDM_REQUEST: the measurement registers, signed by the device key. -/
def execSpdmRequest (iod : Nat) (request : List Byte) (s : State) : Out :=
  let regs := s.measures.flatMap id
  .next { s with bars := modAt s.bars iod (fun b => { b with spdm := b.spdm ++ [regs ++ Config.spdmSign regs request] }) }

/-! ### Errors and limits (R381, R371, R23) -/

/-- A block whose core's local state is lost: it stops, with one CONTEXT_FAULT entry for it (R309). -/
def stopBlock (s : State) (b : Block) : State :=
  match (liveGroups s b).filter (fun g => match s.groups[g]? with
    | some gr => gr.life == .live
    | none => false) with
  | [] => s
  | g :: l =>
    let pc := match (s.groups[g]?).bind (fun gr => lowestMember gr.frags) with
      | some fr => fr.pc
      | none => 0
    l.foldl (fun s g => modGroup s g (fun gr => { gr with life := .stopped })) (stopGroup s g pc)

/-- A number put into a list that holds each once. -/
def insertOnce (x : Nat) (l : List Nat) : List Nat := if l.contains x then l else x :: l

/-- UNCORRECTABLE_ERROR: a unit or an SRAM line is poisoned, or the blocks of a core stop, of which a control core has none;
source 3. -/
def execUncorrectableError (place : ErrorPlace) (s : State) : Out :=
  match place with
  | .memory pa => .next (raiseAll { s with poison := insertOnce (pa / 64) s.poison } 3)
  | .sram line => .next (raiseAll { s with sramPoison := insertOnce line s.sramPoison } 3)
  | .control _ => .next (raiseAll s 3)
  | .core n => .next (raiseAll ((s.blocks.filter (fun b => b.core == n && b.life == .running)).foldl stopBlock s) 3)

/-- THERMAL_LIMIT: source 6; the withholding of issue slots is seen in time alone (R23). -/
def execThermalLimit (entered : Bool) (s : State) : Out := .next (raiseAll { s with thermal := entered } 6)

end Sys2Proof.Machine
end

