-- ==== Sys2Proof/Machine/Fabric.lean ====
section
/-! DEFINITION. The fabric (19 R373 to R377, 16 R333, R334): REGISTRATION_FLIT, DATA_FLIT, ACKNOWLEDGE, KEY_CONTROL, ROLLOVER,
PORT_DOWN, PORT_UP, SCOPE_TABLE_INSTALL. -/

namespace Sys2Proof.Machine

/-- A port changed in place. -/
def modPort (s : State) (p : Nat) (f : Port → Port) : State := { s with ports := modAt s.ports p f }

/-- Parked instructions that wait on a home take their walk again, in the order in which they parked (R236, R377), and
switched-out blocks count down. -/
def wakeOffline (s : State) : State :=
  let s := recount s
  let gs := (List.range s.groups.length).filter (replays s)
  ((entriesOf s gs).filter (fun p => !p.2.dies.isEmpty)).foldl (fun s p => replayEntry s p.1 p.2) s

/-! ### Flits (R373) -/

/-- The key in one of a port's two slots. -/
def Port.key (x : Port) (slot : Bool) : List Byte := beBytes 32 (x.keys.getD slot.toNat 0).toNat

/-- The header of a flit, which is authenticated as it stands. -/
def flitHeader (slot : Bool) (type seq : Nat) : List Byte := leBytes 8 (type + slot.toNat * 2 ^ 8 + seq * 2 ^ 16)

/-- The nonce: the port id, the direction bit, 15 zero bits, the sequence, as big-endian bytes; the direction is 1 for what this
package sends (log 23). -/
def flitNonce (port : Nat) (sends : Bool) (seq : Nat) : List Byte :=
  beBytes 4 port ++ beBytes 2 (sends.toNat * 2 ^ 15) ++ beBytes 6 seq

/-- The tag of a flit as a number. -/
def flitTag (key : List Byte) (port : Nat) (sends slot : Bool) (type seq : Nat) (payload : List Byte) : Nat :=
  leNat (gcmTag key (flitNonce port sends seq) (flitHeader slot type seq) payload)

/-- Whether a flit's tag verifies under the key slot that its header names. -/
def flitOk (x : Port) (port : Nat) (f : Flit) : Bool :=
  f.payload.length == 232 && f.tag == flitTag (x.key f.slot) port false f.slot f.type.toNat f.seq.toNat f.payload

/-- The payload of a flit, deciphered. -/
def flitPayload (x : Port) (port : Nat) (f : Flit) : List Byte :=
  gcmCrypt (x.key f.slot) (flitNonce port false f.seq.toNat) f.payload

/-- Whether a port may send one more flit: the buffer has room, and the key in use has not reached its last sequence (R376). -/
def Port.maySend (x : Port) : Bool := x.up && x.replay.length < 1024 && x.sent - x.begun < 2 ^ 47

/-- A flit that a port sends under its key slot in use; it stays in the replay buffer. -/
def Port.send (x : Port) (port type : Nat) (plain : List Byte) : Port :=
  let seq := x.sent % 2 ^ 48
  let payload := gcmCrypt (x.key x.slot) (flitNonce port true seq) ((plain ++ List.replicate (232 - plain.length) 0).take 232)
  let f : Flit := { slot := x.slot, seq := BitVec.ofNat 48 seq, type := BitVec.ofNat 8 type,
                    tag := flitTag (x.key x.slot) port true x.slot type seq payload, payload }
  { x with sent := x.sent + 1, replay := x.replay ++ [f], out := x.out ++ [f] }

/-- An acknowledge flit that a port sends about the flit of a sequence, where it may send one; what its payload holds is not given
(R373; log 23). -/
def Port.answer (x : Port) (port seq : Nat) (again : Bool) : Port :=
  if x.maySend then x.send port 3 (Config.ackPayload seq again) else x

/-- The flit that a port expects next asked for again. -/
def Port.asks (x : Port) (port : Nat) : Port := ({ x with again := x.again + 1 } : Port).answer port x.received true

/-- The next flit in sequence accepted, and acknowledged unless it is an acknowledge flit itself. -/
def Port.takes (x : Port) (port type : Nat) : Port :=
  let y : Port := { x with received := x.received + 1 }
  if type = 3 then y else y.answer port x.received false

/-- A flit arrives as one of a type: the next one in sequence whose tag verifies is accepted and acknowledged; a flit that came
before is passed over; any other, and one of a reserved type, is dropped and asked for again. -/
def takeFlit (type : Nat) (p : Nat) (f : Flit) (accept : State → State) (s : State) : Out :=
  match s.ports[p]? with
  | none => .next s
  | some x =>
    let next := BitVec.ofNat 48 x.received
    let reserved := f.type.toNat = 0 ∨ 4 < f.type.toNat
    if !x.up || (f.type.toNat != type && !reserved) then .next s
    else if !flitOk x p f || reserved then .next (modPort s p (fun x => x.asks p))
    else if f.seq = next then .next (accept (modPort s p (fun x => x.takes p type)))
    else if (next - f.seq).toNat < 2 ^ 47 then .next s
    else .next (modPort s p (fun x => x.asks p))

/-- The access that a message asks for, performed at its home for the remote agent (R374, R225). -/
def remoteAccess (x : Option RemoteAccess) (s : State) : State :=
  match x with
  | none => s
  | some x =>
    if (match x.agent with | .remote _ _ => true | _ => false) then
      (match execHomeAccess x.agent x.kind x.pa s with
       | .next t => t
       | .fault _ => s
       | .refused _ => s)
    else s

/-- A registration or data flit arrives, and what it asks for is performed, or is sent where the port may send one. -/
def flitStep (type port : Nat) (f : FlitStep) (s : State) : Out :=
  match f with
  | .arrives f x => takeFlit type port f (remoteAccess x) s
  | .sends bs => .next (modPort s port (fun x => if x.maySend then x.send port type bs else x))

/-- REGISTRATION_FLIT (R374): the message it carries acts at its home as an access of the remote agent; what the payload says is
given with the event (log 23). -/
def execRegistrationFlit (port : Nat) (f : FlitStep) (s : State) : Out := flitStep 1 port f s

/-- DATA_FLIT. -/
def execDataFlit (port : Nat) (f : FlitStep) (s : State) : Out := flitStep 2 port f s

/-- The flits of the replay buffer from a sequence on are sent again, each as it was sent first, under its first slot (R376). -/
def Port.resend (x : Port) (seq : BitVec 48) : Port := { x with out := x.out ++ x.replay.dropWhile (fun f => f.seq != seq) }

/-- ACKNOWLEDGE: an acknowledge flit arrives; the flit that it acknowledges leaves the replay buffer, and those it asks for
are sent again. What its payload says is given with the event (log 23). -/
def execAcknowledge (port : Nat) (a : AckFlit) (s : State) : Out :=
  takeFlit 3 port a.flit (fun s => modPort s port (fun x =>
    let x1 : Port := { x with replay := x.replay.filter (fun f => f.seq != a.seq) }
    match a.again with
    | none => x1
    | some q => x1.resend q)) s

/-- KEY_CONTROL (R376 step 4): a key-control flit arrives; or the old key slot is retired, and announced, once no flit of the
replay buffer carries it. -/
def execKeyControl (port : Nat) (k : KeyStep) (s : State) : Out :=
  match k with
  | .arrives f => takeFlit 4 port f id s
  | .retires slot => match s.ports[port]? with
    | none => .next s
    | some x =>
      if !x.retiring || slot == x.slot || x.replay.any (fun f => f.slot == slot) || !x.maySend then .next s
      else .next (modPort s port (fun x => ({ x with retiring := false } : Port).send port 4 [if slot then 1 else 0]))

/-- The other key slot taken with a new key. -/
def Port.rolled (x : Port) (key : BitVec 256) : Port :=
  { x with keys := x.keys.set (!x.slot).toNat key, slot := !x.slot, retiring := true, begun := x.sent }

/-- ROLLOVER (R376 steps 1, 2, 5): firmware loads a key into the slot not in use, and new flits take that slot, unless a
retirement is still to come. -/
def execRollover (k : NewKey) (s : State) : Out :=
  match s.ports[k.port]? with
  | none => .next s
  | some x => .next (if x.retiring || !x.up then s else modPort s k.port (fun x => x.rolled k.key))

/-! ### Ports up and down (R377) -/

/-- PORT_DOWN: discovery follows, and its result comes with SCOPE_TABLE_INSTALL. -/
def execPortDown (port : Nat) (s : State) : Out := .next (modPort s port (fun x => { x with up := false }))

/-- PORT_UP: accesses that are parked on packages that can be reached again proceed. -/
def execPortUp (port : Nat) (s : State) : Out := .next (wakeOffline (modPort s port (fun x => { x with up := true })))

/-! ### The scope table (R333, R334, R375) -/

/-- Whether an entry names a package. -/
def scopeNames (e : BitVec 20 × BitVec 20) (p : BitVec 20) : Bool := (p ^^^ e.1) &&& e.2 == 0

/-- Whether an entry contains another. -/
def scopeContains (e x : BitVec 20 × BitVec 20) : Bool := x.2 &&& e.2 == e.2 && (e.1 ^^^ x.1) &&& e.2 == 0

/-- Whether every entry contains the one before it. -/
def scopeNested : List (BitVec 20 × BitVec 20) → Bool
  | [] => true
  | [_] => true
  | x :: y :: l => scopeContains y x && scopeNested (y :: l)

/-- Whether a table keeps R333. -/
def scopeTableOk (s : State) (l : List (BitVec 20 × BitVec 20)) : Bool :=
  l.length ≤ 16 && l.all (fun e => scopeNames e s.pkgId) && scopeNested l

/-- A window as firmware writes it; one that is set keeps its package (R375). -/
def writeWindow (t : Tab Window) (p : (BitVec 20 × Bool × Bool) × Nat) : Tab Window :=
  match tabFind t p.2 with
  | some w => if w.set then tabSet t p.2 { w with reachable := p.1.2.2 }
      else tabSet t p.2 { pkg := p.1.1, set := p.1.2.1, reachable := p.1.2.2 }
  | none => if p.1.2.1 then tabSet t p.2 { pkg := p.1.1, set := true, reachable := p.1.2.2 } else t

/-- A mirror written word by word; a word of it that a recipe has frozen stays (R233, R346; log 39). -/
def putMirror (s : State) (key pa : Nat) (bs : List Byte) : State :=
  (chunksOf 4 (bs.length / 4) bs).zipIdx.foldl (fun s p => putWord s key (pa + 4 * p.2) p.1) s

/-- The scope-table mirror. -/
def scopeMirror (s : State) : List Byte :=
  leBytes 8 (s.scopes.length + s.pkgId.toNat * 2 ^ 16 + s.scopeGen * 2 ^ 40)
    ++ (List.range 16).flatMap (fun n => match s.scopes[n]? with
      | some e => leBytes 8 (e.1.toNat + e.2.toNat * 2 ^ 20)
      | none => leBytes 8 0)

/-- The window mirror. -/
def windowMirror (s : State) : List Byte :=
  leBytes 8 ((s.windows.filter (fun p => p.2.set)).length + s.scopeGen * 2 ^ 40)
    ++ (List.range 510).flatMap (fun w => match tabFind s.windows w with
      | some x => leBytes 8 (x.pkg.toNat + (if x.set then 2 ^ 20 else 0) + if x.reachable then 2 ^ 21 else 0)
      | none => leBytes 8 0) ++ leBytes 8 0

/-- SCOPE_TABLE_INSTALL: the windows; then, for a table that keeps R333, the table, both mirrors with the next generation, and
source 2; accesses that are parked on packages that can be reached again proceed. -/
def execScopeTableInstall (t : ScopeTable) (s : State) : Out :=
  let s := { s with windows := (t.windows.take 510).zipIdx.foldl writeWindow s.windows }
  if !scopeTableOk s t.entries then .next (wakeOffline s) else
  let s := { s with scopes := t.entries, scopeGen := (s.scopeGen + 1) % 2 ^ 24 }
  let key := (keyOf s 0).getD 0
  let s := putMirror (putMirror s key 0x2000 (windowMirror s)) key 0x1000 (scopeMirror s)
  .next (wakeOffline (raiseAll s 2))

end Sys2Proof.Machine
end

