-- ==== Sys2Proof/Machine/SlhDsa.lean ====
section
/-! DEFINITION. Verification of SLH-DSA signatures in the SHA2-128s parameter set (FIPS 205), which the manual names for the
firmware image (R378): n = 16, h = 63, d = 7, h' = 9, a = 12, k = 14, w = 16. -/

namespace Sys2Proof.Machine

/-- An address of the scheme: layer, tree, type, key pair, and the two words whose use depends on the type. -/
structure SlhAdrs where
  layer : Nat
  tree : Nat
  kind : Nat
  pair : Nat
  high : Nat
  index : Nat
  deriving DecidableEq, Repr

/-- The 22 bytes of an address as the SHA-2 parameter sets hash it. -/
def SlhAdrs.bytes (a : SlhAdrs) : List Byte :=
  beBytes 1 a.layer ++ beBytes 8 a.tree ++ beBytes 1 a.kind ++ beBytes 4 a.pair ++ beBytes 4 a.high ++ beBytes 4 a.index

/-- F, H and T of the scheme: 16 bytes of SHA-256 behind the public seed in a block of its own and the address. -/
def slhHash (seed : List Byte) (a : SlhAdrs) (m : List Byte) : List Byte :=
  (sha256 (seed ++ List.replicate 48 0 ++ a.bytes ++ m)).take 16

/-- The 30-byte digest of a message: MGF1 with SHA-256. -/
def slhDigest (r pk m : List Byte) : List Byte :=
  sha256 (r ++ pk.take 16 ++ sha256 (r ++ pk ++ m) ++ beBytes 4 0) |>.take 30

/-- Digit `i` of `b` bits of big-endian bytes, the highest digit first. -/
def slhDigit (bs : List Byte) (b i : Nat) : Nat := beNat bs / 2 ^ (8 * bs.length - b * (i + 1)) % 2 ^ b

/-- Node `i` of 16 bytes in a part of a signature. -/
def slhNode (bs : List Byte) (i : Nat) : List Byte := (bs.drop (16 * i)).take 16

/-- A hash chain carried on by `n` steps from step `i`. -/
def slhChain (seed : List Byte) (a : SlhAdrs) : Nat → Nat → List Byte → List Byte
  | _, 0, x => x
  | i, n + 1, x => slhChain seed a (i + 1) n (slhHash seed { a with index := i } x)

/-- The path from a leaf to the root of a tree: `base` is the index of the tree's first leaf. -/
def slhPath (seed : List Byte) (a : SlhAdrs) (leaf base : Nat) (auth : List Byte) : Nat → Nat → List Byte → List Byte
  | 0, _, x => x
  | n + 1, j, x =>
    let up : SlhAdrs := { a with high := j + 1, index := (base + leaf) / 2 ^ (j + 1) }
    let y := slhNode auth j
    slhPath seed a leaf base auth n (j + 1) (slhHash seed up (if bitAt leaf j then y ++ x else x ++ y))

/-- The digits that a WOTS+ key pair signs: 32 of the message, 3 of its checksum. -/
def wotsDigits (m : List Byte) : List Nat :=
  let ds := (List.range 32).map (slhDigit m 4)
  let sum := (ds.map (fun d => 15 - d)).sum
  ds ++ (List.range 3).map (slhDigit (beBytes 2 (sum * 16)) 4)

/-- The WOTS+ public key that a signature of a message gives. -/
def wotsKey (seed : List Byte) (layer tree pair : Nat) (sig m : List Byte) : List Byte :=
  let a : SlhAdrs := { layer, tree, kind := 0, pair, high := 0, index := 0 }
  slhHash seed { a with kind := 1 } ((wotsDigits m).zipIdx.flatMap (fun p =>
    slhChain seed { a with high := p.2 } p.1 (15 - p.1) (slhNode sig p.2)))

/-- The root of an XMSS tree that a signature of a message gives. -/
def xmssRoot (seed : List Byte) (layer tree leaf : Nat) (sig m : List Byte) : List Byte :=
  slhPath seed { layer, tree, kind := 2, pair := 0, high := 0, index := 0 } leaf 0 (sig.drop 560) 9 0
    (wotsKey seed layer tree leaf (sig.take 560) m)

/-- The root of the hypertree that the rest of a signature gives: layer after layer, each with 704 bytes. -/
def hyperRoot (seed : List Byte) : Nat → Nat → Nat → Nat → List Byte → List Byte → List Byte
  | 0, _, _, _, _, m => m
  | n + 1, layer, tree, leaf, sig, m =>
    hyperRoot seed n (layer + 1) (tree / 512) (tree % 512) (sig.drop 704) (xmssRoot seed layer tree leaf (sig.take 704) m)

/-- The FORS public key that a signature of a digest gives: 14 trees of height 12, each with 208 bytes. -/
def forsKey (seed : List Byte) (tree pair : Nat) (sig md : List Byte) : List Byte :=
  let a : SlhAdrs := { layer := 0, tree, kind := 3, pair, high := 0, index := 0 }
  slhHash seed { a with kind := 4 } ((List.range 14).flatMap (fun i =>
    let leaf := slhDigit md 12 i
    let part := (sig.drop (208 * i)).take 208
    slhPath seed a leaf (i * 4096) (part.drop 16) 12 0 (slhHash seed { a with index := i * 4096 + leaf } (part.take 16))))

/-- Whether a signature of a message verifies under a public key, with an empty context string. -/
def slhVerify (pk m sig : List Byte) : Bool :=
  let seed := pk.take 16
  let dg := slhDigest (sig.take 16) pk ([0, 0] ++ m)
  let tree := beNat ((dg.drop 21).take 7) % 2 ^ 54
  let leaf := beNat ((dg.drop 28).take 2) % 2 ^ 9
  let fors := forsKey seed tree leaf ((sig.drop 16).take 2912) (dg.take 21)
  pk.length == 32 && sig.length == 7856 && hyperRoot seed 7 0 tree leaf (sig.drop 2928) fors == pk.drop 16

end Sys2Proof.Machine
end

