-- ==== Sys2Proof/Machine/Lifecycle.lean ====
section
/-! DEFINITION. Start-up, reset and time (19 R379, R380, 11 R236, 01 R3): COLD_START, WARM_START, WARM_RESET, RE_ADMISSION,
TIME_BASE_TICK. -/

namespace Sys2Proof.Machine

/-! ### Starts (R379) -/

/-- Whether the boot ROM runs a firmware image: the hash of its public key stands in the fuses, and its signature verifies
(R378; log 24). -/
def bootOk (b : Boot) : Bool := sha256 b.publicKey == Config.fuseHash && slhVerify b.publicKey b.image b.signature

/-- A measurement register as a stage measures the next one into it (R378). -/
def measured (old image : List Byte) : List Byte := sha256 (old ++ sha256 image)

/-- Steps 2 and 12 of a start: an image that fails is not run, state is 4 and no control core issues; else it is measured, the
host's context is bound under ASID 0, and state is 2. -/
def boot (s : State) : State :=
  let b := s.firmware
  if bootOk b then { s with measures := s.measures.map (fun m => measured m b.image), hostCtx := { b.host with asid := 0 }, hostState := 2 }
  else { s with hostState := 4, cur := .idle, ctls := s.ctls.map (fun c => { c with stopped := true }) }

/-- The key table after a cold start: a fresh key in every entry (R335). -/
def freshKeys (n : Nat) : Tab Nat := (List.range 1024).map (fun i => (i, n + i))

/-- COLD_START: everything at its reset value but the configuration (step 1), the package's id, memory outside the package's own
(step 6) and the model's own counters; the keys are fresh ones (R335). -/
def execColdStart (s : State) : Out :=
  .next (boot { State.reset with
    free := s.free, agenda := s.agenda, pkgId := s.pkgId, firmware := s.firmware, cfgCore := s.cfgCore, cfgOct := s.cfgOct, cfgCtl := s.cfgCtl,
    cfgHbm := s.cfgHbm, cfgLink := s.cfgLink, keys := freshKeys s.nextKey, nextKey := s.nextKey + 1024, mem := s.mem.filter (fun p => !isDevice p.1),
    tags := s.tags.filter (fun p => !isDevice (64 * p.1)), poison := s.poison.filter (fun u => !isDevice (64 * u)) })

/-- WARM_START: as a cold start, with the contents of HBM, the keys and the scope table kept. -/
def execWarmStart (s : State) : Out :=
  .next (boot { State.reset with
    free := s.free, agenda := s.agenda, pkgId := s.pkgId, firmware := s.firmware, cfgCore := s.cfgCore, cfgOct := s.cfgOct, cfgCtl := s.cfgCtl,
    cfgHbm := s.cfgHbm, cfgLink := s.cfgLink, mem := s.mem, tags := s.tags, poison := s.poison, keys := s.keys,
    erased := s.erased, nextKey := s.nextKey, windows := s.windows, scopes := s.scopes, scopeGen := s.scopeGen })

/-! ### Warm reset of a die (R380) -/

/-- Gangs with a block on a die. -/
def gangsOnDie (s : State) (d : Nat) : List Nat :=
  (s.gangs.zipIdx.filter (fun p => p.1.blocks.any (fun b => match s.blocks[b]? with
    | some bl => bl.core / 128 == d && (bl.life == .running || bl.life == .deque)
    | none => false))).map (·.2)

/-- Step 1 and the beginning of step 2: source 4, state 3, every gang with a block on the die on its way into its images. -/
def beginReset (s : State) (d : Nat) : State :=
  let s := raiseAll { s with hostState := BitVec.ofNat 8 (3 + 16 * d) } 4
  (gangsOnDie s d).foldl startSave s

/-- Whether a piece of memory has a word homed on a die. -/
def pieceOn (d : Nat) (p : Piece) : Bool :=
  (List.range (wordCount p.n)).any (fun i => isDevice (p.pa + 4 * i) && homeDie (p.pa + 4 * i) == d)

/-- Whether a command is before its publish with a destination homed on a die: one of its ranges, or the residual region of its
collective; one that has not translated its ranges yet may have. -/
def Command.holdsReset (c : Command) (d : Nat) : Bool :=
  c.out.any (fun p => pieceOn d p.1) || c.coll.any (fun k => !c.published && k.residual.any (pieceOn d))
    || c.life == .issued

/-- Whether no command has a destination homed on the die that it has still to publish (step 4). -/
def enginesClear (s : State) (d : Nat) : Bool := !(s.commands.any (fun c => c.holdsReset d))

/-- A record put back into its galley ahead of head, or a SHAPE_UNFIT entry for one that does not fit (the slot card). -/
def unrefill (s : State) (q : Slot) (r : QRecord) : Slot × State :=
  let len := 8 + r.bytes.length
  let z := 2 ^ q.lsz
  let p := q.head.toNat % z
  let unfit := (q, postUnfit s q r)
  let skip := if len ≤ p ∨ p = 0 then 0 else p
  let head := q.head - BitVec.ofNat 64 (skip + len)
  if z < (q.tail - head).toNat then unfit else
  match devWrite s q.ctx (q.base + BitVec.ofNat 64 (head.toNat % z)) (leBytes 8 (r.bytes.length + 2 ^ 16) ++ r.bytes) with
  | .ok s1 =>
    (match (if skip = 0 then .ok s1 else devWrite s1 q.ctx q.base (leBytes 8 (skip - 8))) with
     | .ok s2 => ({ q with head }, s2)
     | .page _ _ => unfit
     | .fail _ => unfit
     | .offline _ => unfit)
  | .page _ _ => unfit
  | .fail _ => unfit
  | .offline _ => unfit

/-- A slot's records back in its galley, the youngest first, and its fields in its descriptor; a record with placed gangs
lives on in its task. -/
def drainSlot (s : State) (q : Slot) : State :=
  let r := (q.recs.filter (fun r => r.task.isNone)).foldr (fun r (p : Slot × State) => unrefill p.2 p.1 r) (q, s)
  match devWrite r.2 r.1.ctx (r.1.desc + 24) r.1.counters with
  | .ok s1 => s1
  | .page _ _ => r.2
  | .fail _ => r.2
  | .offline _ => r.2

/-- Step 3: the slots of the die are freed. -/
def drainSlots (s : State) (d : Nat) : State :=
  let s := (s.slots.filter (fun q => q.die == d)).foldl drainSlot s
  { s with slots := s.slots.filter (fun q => q.die != d), named := s.named.filter (fun x => x.die != d) }

/-- Step 6: cores, caches, TLBs and control cores of the die at their reset values, its presence bits cleared. -/
def resetDie (s : State) (d : Nat) : State :=
  { s with
    copies := s.copies.filter (fun c => match c.site with
      | .core n => n / 128 != d
      | .ctl n => n / 24 != d
      | .iod _ => true),
    xlat := s.xlat.filter (fun x => clusterDie x.cluster != d),
    asids := s.asids.map (fun p => (p.1, { p.2 with presence := p.2.presence &&& ~~~(BitVec.ofNat 6 (2 ^ d)) })),
    ctls := mapIdx (fun cc c => if cc / 24 = d then Ctl.reset else c) 0 s.ctls,
    cores := s.cores.map (fun p => if p.1 / 128 = d then
        (p.1, { Core.empty with left := p.2.left, counts := p.2.counts, held := p.2.held }) else p) }

/-- The registered words homed on a die are recalled from the caches that hold them (R236). -/
def recallWords (s : State) (d : Nat) : State :=
  { s with reg := s.reg.map (fun p =>
      if isDevice (4 * p.1) && homeDie (4 * p.1) == d then (p.1, match p.2 with
        | .owned a l _ => .owned a l evictedVa
        | .released a _ => .released a evictedVa
        | r => r) else p) }

/-- Steps 3 to 6, once every gang is saved and the engines are clear: the contexts' bins are saved, the queue slots drain, the
die goes offline. -/
def takeDown (s : State) (d : Nat) : State :=
  let ctxs := ((s.cores.filter (fun p => p.1 / 128 == d)).flatMap (fun p =>
    p.2.spawnList.map (·.ctx) ++ p.2.bins.filterMap (fun b => b.map (·.ctx)))).dedup
  let cores := (s.cores.map (·.1)).filter (fun k => k / 128 == d)
  let s := ctxs.foldl (fun s c => cores.foldl (parkCore c) s) s
  let s := recallWords (drainSlots s d) d
  resetDie { s with offline := d :: s.offline } d

/-- WARM_RESET: the reset of a compute die begins, or goes on to take the die down. -/
def execWarmReset (die : Nat) (s : State) : Out :=
  if 4 ≤ die ∨ s.offline.contains die then .next s
  else if s.hostState.toNat = 2 then .next (beginReset s die)
  else if s.hostState.toNat ≠ 3 + 16 * die ∨ !(gangsOnDie s die).isEmpty ∨ !enginesClear s die then .next s
  else .next (takeDown s die)

/-- Whether the re-admission of its home die leaves a word's registration as it is (R224). -/
def Reg.kept : Reg → Bool
  | .claimed _ _ => true
  | .owned _ _ _ | .released _ _ | .frozen _ => false

/-- RE_ADMISSION (R380 step 7, R236): the die is back, every word homed there in V but for claimed ones; source 5, state 2, parked
accesses proceed. Where its links could not be retrained, state is 4, and the die stays offline until a cold or warm start. -/
def execReAdmission (r : Retraining) (s : State) : Out :=
  let die := r.die
  if s.offline.contains die = false ∨ s.hostState.toNat % 16 = 4 then .next s
  else if !r.succeeds then .next { s with hostState := 4 }
  else .next (wakeOffline (raiseAll { s with
    offline := s.offline.filter (fun d => d != die), hostState := 2,
    reg := s.reg.filter (fun p => !(isDevice (4 * p.1) && homeDie (4 * p.1) == die) || p.2.kept) } 5))

/-! ### Time (R3, R47, R49) -/

/-- Eligible records have waited `n` clk more. -/
def waitRecords (s : State) (n : Nat) (q : Slot) : Slot :=
  if q.mode = 0 then
    { q with recs := q.recs.map (fun r => match judge s q r with
        | .eligible _ => { r with waited := r.waited + n }
        | .waits => r
        | .offline => r
        | .page _ _ => r
        | .access => r
        | .unfit => r) }
  else q

/-- Fragments that could have issued have been passed over for `n` clk more. -/
def Group.passOver (gr : Group) (s : State) (g n : Nat) : Group :=
  { gr with frags := gr.frags.map (fun x => if fragReady s g x.id false then { x with passed := x.passed + n } else x) }

/-- TIME_BASE_TICK: one nanosecond passes. -/
def execTimeBaseTick (s : State) : Out :=
  let t := { s with time := s.time + 1 }
  let n := clk t - clk s
  .next { t with
    slots := t.slots.map (waitRecords s n),
    groups := t.groups.zipIdx.map (fun p => p.1.passOver s p.2 n) }

end Sys2Proof.Machine
end

