-- ==== Sys2Proof/Machine/Uniform.lean ====
section
/-! DEFINITION. The meanings of uniform arithmetic (09 R187 to R191): IOP, IOPI, IOPW, FOP, CMPK and PRK, once per fragment
on a compute core and on a control core. -/

namespace Sys2Proof.Machine

/-! ### The shared form (R41, R59, R135, R187) -/

/-- The uniform registers and predicates an instruction reads, each read with its operand number. -/
structure UniIn where
  s : Nat → Nat → DWord
  k : Nat → Nat → Bool

/-- How an instruction of class B without memory issues. -/
def bothInfo (w : Bool) : IssueInfo := { cls := .both, w, touch := false, fence := false, rel := false }

/-- A fragment's uniform registers. -/
def Cx.uni (c : Cx) (free : Nat) : UniIn := { s := c.s free, k := c.k free }
/-- A control core's uniform registers. -/
def Ctl.uni (c : Ctl) : UniIn := { s := fun _ n => c.sreg n, k := fun _ n => c.kreg n }

/-- Uniform registers of a control core written. -/
def Ctl.puts (c : Ctl) : List (RegKey × DWord) → Ctl
  | [] => c
  | (.s n, x) :: l => (c.setS n x).puts l
  | (.k n, x) :: l => (c.setK n (x.getLsbD 0)).puts l
  | (.v _ _, _) :: l => c.puts l
  | (.q _ _, _) :: l => c.puts l

/-- The effect on a fragment: writes, and the flags in each of its active threads (R135). -/
def uniFrag (len : Nat) (g : Option GuardK) (f : UniIn → LaneOut) (c : Cx) (s : State) : State :=
  if !c.runs s.free g then advance s c len else
  let r := f (c.uni s.free)
  advance (modGroup s c.g (fun gr =>
    (gr.writes c.f r.1).orFlags ((threadsOf c.fr.mask c.gr.size).map (fun t => (t, r.2))))) c len

/-- The effect on a control core, which sets no flags (R135). -/
def uniCtl (len : Nat) (g : Option GuardK) (f : UniIn → LaneOut) (cc : Nat) (c : Ctl) (s : State) : State :=
  advanceCtl (if c.runs g then modCtl s cc (fun x => x.puts (f c.uni).1) else s) cc len

/-- A uniform instruction of `len` bytes. -/
def uniOp (i : Instr) (w : Bool) (len : Nat) (g : Option GuardK) (f : UniIn → LaneOut) (s : State) : Out :=
  issue i (bothInfo w) s (uniFrag len g f) (uniCtl len g f)

/-- One uniform register written. -/
def outS (sd : BitVec 6) (x : DWord) : LaneOut := ([(.s sd.toNat, x)], 0)
/-- One uniform predicate written. -/
def outK (kd : BitVec 2) (b : Bool) (fl : Fl) : LaneOut := ([(.k kd.toNat, if b then 1 else 0)], fl)

/-! ### The functions of R188 -/

def iopIadd (a b : DWord) : DWord := a + b
def iopIsub (a b : DWord) : DWord := a - b
def iopImul (a b : DWord) : DWord := a * b
def iopIminI64 (a b : DWord) : DWord := if a.toInt ≤ b.toInt then a else b
def iopImaxI64 (a b : DWord) : DWord := if a.toInt ≤ b.toInt then b else a
def iopIminN64 (a b : DWord) : DWord := if a.toNat ≤ b.toNat then a else b
def iopImaxN64 (a b : DWord) : DWord := if a.toNat ≤ b.toNat then b else a
def iopIabs (a : DWord) : DWord := BitVec.ofNat 64 a.toInt.natAbs
def iopAnd (a b : DWord) : DWord := a &&& b
def iopOr (a b : DWord) : DWord := a ||| b
def iopXor (a b : DWord) : DWord := a ^^^ b
def iopShl (a b : DWord) : DWord := a <<< (b.toNat % 64)
def iopShr (a b : DWord) : DWord := a >>> (b.toNat % 64)
def iopSha (a b : DWord) : DWord := a.sshiftRight (b.toNat % 64)
def iopPopc (a : DWord) : DWord := BitVec.ofNat 64 (popNat 64 a.toNat)
def iopClz (a : DWord) : DWord := BitVec.ofNat 64 (clzBits 64 a.toNat)
def iopMov (a : DWord) : DWord := a

/-! ### IOP, IOPI, IOPW (R188) -/

/-- Two registers. -/
def iopBin (i : Instr) (o : SBin) (f : DWord → DWord → DWord) (s : State) : Out :=
  uniOp i o.w 4 none (fun u => outS o.sd (f (u.s 0 o.sa.toNat) (u.s 1 o.sb.toNat))) s
/-- One register. -/
def iopUn (i : Instr) (o : SUn) (f : DWord → DWord) (s : State) : Out :=
  uniOp i o.w 4 none (fun u => outS o.sd (f (u.s 0 o.sa.toNat))) s
/-- A register and a sign-extended 6-bit immediate. -/
def iopImm (i : Instr) (o : SImm) (f : DWord → DWord → DWord) (s : State) : Out :=
  uniOp i o.w 4 none (fun u => outS o.sd (f (u.s 0 o.sa.toNat) (o.imm.signExtend 64))) s
/-- A register and a sign-extended 32-bit immediate. -/
def iopWide (i : Instr) (o : SWide) (f : DWord → DWord → DWord) (s : State) : Out :=
  uniOp i o.w 8 none (fun u => outS o.sd (f (u.s 0 o.sa.toNat) (o.imm.signExtend 64))) s

def execIopIadd (o : SBin) (s : State) : Out := iopBin (.iopIadd o) o iopIadd s
def execIopIsub (o : SBin) (s : State) : Out := iopBin (.iopIsub o) o iopIsub s
def execIopImul (o : SBin) (s : State) : Out := iopBin (.iopImul o) o iopImul s
def execIopIminI64 (o : SBin) (s : State) : Out := iopBin (.iopIminI64 o) o iopIminI64 s
def execIopImaxI64 (o : SBin) (s : State) : Out := iopBin (.iopImaxI64 o) o iopImaxI64 s
def execIopIminN64 (o : SBin) (s : State) : Out := iopBin (.iopIminN64 o) o iopIminN64 s
def execIopImaxN64 (o : SBin) (s : State) : Out := iopBin (.iopImaxN64 o) o iopImaxN64 s
def execIopIabs (o : SUn) (s : State) : Out := iopUn (.iopIabs o) o iopIabs s
def execIopAnd (o : SBin) (s : State) : Out := iopBin (.iopAnd o) o iopAnd s
def execIopOr (o : SBin) (s : State) : Out := iopBin (.iopOr o) o iopOr s
def execIopXor (o : SBin) (s : State) : Out := iopBin (.iopXor o) o iopXor s
def execIopShl (o : SBin) (s : State) : Out := iopBin (.iopShl o) o iopShl s
def execIopShr (o : SBin) (s : State) : Out := iopBin (.iopShr o) o iopShr s
def execIopSha (o : SBin) (s : State) : Out := iopBin (.iopSha o) o iopSha s
def execIopPopc (o : SUn) (s : State) : Out := iopUn (.iopPopc o) o iopPopc s
def execIopClz (o : SUn) (s : State) : Out := iopUn (.iopClz o) o iopClz s
def execIopMov (o : SUn) (s : State) : Out := iopUn (.iopMov o) o iopMov s

def execIopiIadd (o : SImm) (s : State) : Out := iopImm (.iopiIadd o) o iopIadd s
def execIopiIsub (o : SImm) (s : State) : Out := iopImm (.iopiIsub o) o iopIsub s
def execIopiImul (o : SImm) (s : State) : Out := iopImm (.iopiImul o) o iopImul s
def execIopiIminI64 (o : SImm) (s : State) : Out := iopImm (.iopiIminI64 o) o iopIminI64 s
def execIopiImaxI64 (o : SImm) (s : State) : Out := iopImm (.iopiImaxI64 o) o iopImaxI64 s
def execIopiIminN64 (o : SImm) (s : State) : Out := iopImm (.iopiIminN64 o) o iopIminN64 s
def execIopiImaxN64 (o : SImm) (s : State) : Out := iopImm (.iopiImaxN64 o) o iopImaxN64 s
def execIopiAnd (o : SImm) (s : State) : Out := iopImm (.iopiAnd o) o iopAnd s
def execIopiOr (o : SImm) (s : State) : Out := iopImm (.iopiOr o) o iopOr s
def execIopiXor (o : SImm) (s : State) : Out := iopImm (.iopiXor o) o iopXor s
def execIopiShl (o : SImm) (s : State) : Out := iopImm (.iopiShl o) o iopShl s
def execIopiShr (o : SImm) (s : State) : Out := iopImm (.iopiShr o) o iopShr s
def execIopiSha (o : SImm) (s : State) : Out := iopImm (.iopiSha o) o iopSha s
def execIopiMovi (o : SMovi) (s : State) : Out :=
  uniOp (.iopiMovi o) o.w 4 none (fun _ => outS o.sd (o.imm.signExtend 64)) s

def execIopwIadd (o : SWide) (s : State) : Out := iopWide (.iopwIadd o) o iopIadd s
def execIopwIsub (o : SWide) (s : State) : Out := iopWide (.iopwIsub o) o iopIsub s
def execIopwImul (o : SWide) (s : State) : Out := iopWide (.iopwImul o) o iopImul s
def execIopwIminI64 (o : SWide) (s : State) : Out := iopWide (.iopwIminI64 o) o iopIminI64 s
def execIopwImaxI64 (o : SWide) (s : State) : Out := iopWide (.iopwImaxI64 o) o iopImaxI64 s
def execIopwIminN64 (o : SWide) (s : State) : Out := iopWide (.iopwIminN64 o) o iopIminN64 s
def execIopwImaxN64 (o : SWide) (s : State) : Out := iopWide (.iopwImaxN64 o) o iopImaxN64 s
def execIopwAnd (o : SWide) (s : State) : Out := iopWide (.iopwAnd o) o iopAnd s
def execIopwOr (o : SWide) (s : State) : Out := iopWide (.iopwOr o) o iopOr s
def execIopwXor (o : SWide) (s : State) : Out := iopWide (.iopwXor o) o iopXor s
def execIopwShl (o : SWide) (s : State) : Out := iopWide (.iopwShl o) o iopShl s
def execIopwShr (o : SWide) (s : State) : Out := iopWide (.iopwShr o) o iopShr s
def execIopwSha (o : SWide) (s : State) : Out := iopWide (.iopwSha o) o iopSha s
def execIopwMovi (o : SMoviw) (s : State) : Out :=
  uniOp (.iopwMovi o) o.w 8 none (fun _ => outS o.sd (o.imm.signExtend 64)) s

/-! ### FOP (R189) -/

/-- A floating result in a uniform register. -/
def outF (t : FTy) (sd : BitVec 6) (r : Nat × Fl) : LaneOut := ([(.s sd.toNat, uniFlt t r.1)], r.2)

def fopBin (i : Instr) (o : FopBin) (f : Nat → Nat → Nat × Fl) (s : State) : Out :=
  uniOp i o.w 8 o.g (fun u => outF o.t o.sd (f (uniBits o.t.width (u.s 0 o.sa.toNat)) (uniBits o.t.width (u.s 1 o.sb.toNat)))) s
def fopSel (i : Instr) (mx : Bool) (o : FopSel) (s : State) : Out :=
  uniOp i o.w 8 o.g (fun u => outF o.t o.sd
    (fSelect mx o.t o.ftz (uniBits o.t.width (u.s 0 o.sa.toNat)) (uniBits o.t.width (u.s 1 o.sb.toNat)))) s
def fopUn (i : Instr) (f : FUn) (o : FopUn) (s : State) : Out :=
  uniOp i o.w 8 o.g (fun u => outF o.t o.sd (fUnary f o.t o.m o.ftz (uniBits o.t.width (u.s 0 o.sa.toNat)))) s

def execFopFadd (o : FopBin) (s : State) : Out := fopBin (.fopFadd o) o (fAdd o.t o.m o.ftz) s
def execFopFsub (o : FopBin) (s : State) : Out := fopBin (.fopFsub o) o (fSub o.t o.m o.ftz) s
def execFopFmul (o : FopBin) (s : State) : Out := fopBin (.fopFmul o) o (fMul o.t o.m o.ftz) s
def execFopFfma (o : FopFma) (s : State) : Out :=
  uniOp (.fopFfma o) o.w 8 o.g (fun u => outF o.t o.sd (fFma o.t o.m o.ftz (uniBits o.t.width (u.s 0 o.sa.toNat))
    (uniBits o.t.width (u.s 1 o.sb.toNat)) (uniBits o.t.width (u.s 2 o.sc.toNat)))) s
def execFopFmin (o : FopSel) (s : State) : Out := fopSel (.fopFmin o) false o s
def execFopFmax (o : FopSel) (s : State) : Out := fopSel (.fopFmax o) true o s
def execFopFrcp (o : FopUn) (s : State) : Out := fopUn (.fopFrcp o) .rcp o s
def execFopFsqrt (o : FopUn) (s : State) : Out := fopUn (.fopFsqrt o) .sqrt o s
def execFopFrsq (o : FopUn) (s : State) : Out := fopUn (.fopFrsq o) .rsq o s
def execFopFexp2 (o : FopUn) (s : State) : Out := fopUn (.fopFexp2 o) .exp2 o s
def execFopFlog2 (o : FopUn) (s : State) : Out := fopUn (.fopFlog2 o) .log2 o s

/-- Where the result of a uniform conversion goes (R126, R129). -/
def cvtUni (p : CvtPair) (x : Nat) : DWord :=
  match p with
  | .intInt _ d _ _ | .fltInt _ d _ _ => uniInt d x
  | .intFlt _ d _ _ | .fltFlt _ d _ _ => uniFlt d x

def execFopCvt (o : FopCvt) (s : State) : Out :=
  uniOp (.fopCvt o) o.w 8 o.g (fun u =>
    let r := cvtResult o.p (uniBits (cvtSrcWidth o.p) (u.s 0 o.sa.toNat))
    ([(.s o.sd.toNat, cvtUni o.p r.1)], r.2)) s

/-! ### CMPK and PRK (R190, R191) -/

def execCmpkIcmp (o : KIcmp) (s : State) : Out :=
  uniOp (.cmpkIcmp o) o.w 8 o.g (fun u => outK o.kd
    (intCompare o.c (intVal o.t (u.s 0 o.sa.toNat).toNat) (intVal o.t (u.s 1 o.sb.toNat).toNat)) 0) s
def execCmpkFcmp (o : KFcmp) (s : State) : Out :=
  uniOp (.cmpkFcmp o) o.w 8 o.g (fun u =>
    let r := fCompare o.c o.t o.ftz (uniBits o.t.width (u.s 0 o.sa.toNat)) (uniBits o.t.width (u.s 1 o.sb.toNat))
    outK o.kd r.1 r.2) s
def execCmpkFclass (o : KFclass) (s : State) : Out :=
  uniOp (.cmpkFclass o) o.w 8 o.g (fun u =>
    outK o.kd (o.mask.getLsbD (fClassBit o.t (uniBits o.t.width (u.s 0 o.sa.toNat)))) 0) s
def execPrkQop (o : KQop) (s : State) : Out :=
  uniOp (.prkQop o) o.w 4 none (fun u => outK o.kd (qfun o.fn (u.k 0 o.ka.toNat) (u.k 1 o.kb.toNat)) 0) s

/-- R191 QSET. -/
def kqsetValue (u : UniIn) : KQsetFn → Bool
  | .clr => false
  | .set => true
  | .nz sa => u.s 0 sa.toNat != 0

def execPrkQset (o : KQset) (s : State) : Out :=
  uniOp (.prkQset o) o.w 4 none (fun u => outK o.kd (kqsetValue u o.fn) 0) s

end Sys2Proof.Machine
end

