-- ==== Sys2Proof/Machine/Dispatch.lean ====
section
/-! DEFINITION. One arm per constructor of `Instr`: the meaning of the instruction or event. -/

namespace Sys2Proof.Machine

def exec (i : Instr) (s : State) : Host.Outcome State Fault Refusal :=
  match i with
  | .mov o => Sys2Proof.Machine.execMov o s
  | .specialMov o => Sys2Proof.Machine.execSpecialMov o s
  | .movi o => Sys2Proof.Machine.execMovi o s
  | .moviw o => Sys2Proof.Machine.execMoviw o s
  | .iaddi o => Sys2Proof.Machine.execIaddi o s
  | .lea o => Sys2Proof.Machine.execLea o s
  | .brd o => Sys2Proof.Machine.execBrd o s
  | .join o => Sys2Proof.Machine.execJoin o s
  | .iadd o => Sys2Proof.Machine.execIadd o s
  | .isub o => Sys2Proof.Machine.execIsub o s
  | .imul o => Sys2Proof.Machine.execImul o s
  | .imad o => Sys2Proof.Machine.execImad o s
  | .imin o => Sys2Proof.Machine.execImin o s
  | .imax o => Sys2Proof.Machine.execImax o s
  | .iabs o => Sys2Proof.Machine.execIabs o s
  | .icmp o => Sys2Proof.Machine.execIcmp o s
  | .sel o => Sys2Proof.Machine.execSel o s
  | .fadd o => Sys2Proof.Machine.execFadd o s
  | .fsub o => Sys2Proof.Machine.execFsub o s
  | .ffma o => Sys2Proof.Machine.execFfma o s
  | .fmul o => Sys2Proof.Machine.execFmul o s
  | .fmin o => Sys2Proof.Machine.execFmin o s
  | .fmax o => Sys2Proof.Machine.execFmax o s
  | .fcmp o => Sys2Proof.Machine.execFcmp o s
  | .fclass o => Sys2Proof.Machine.execFclass o s
  | .ldgRow o => Sys2Proof.Machine.execLdgRow o s
  | .shl o => Sys2Proof.Machine.execShl o s
  | .shr o => Sys2Proof.Machine.execShr o s
  | .sha o => Sys2Proof.Machine.execSha o s
  | .and o => Sys2Proof.Machine.execAnd o s
  | .or o => Sys2Proof.Machine.execOr o s
  | .xor o => Sys2Proof.Machine.execXor o s
  | .bfx o => Sys2Proof.Machine.execBfx o s
  | .bfi o => Sys2Proof.Machine.execBfi o s
  | .popc o => Sys2Proof.Machine.execPopc o s
  | .clz o => Sys2Proof.Machine.execClz o s
  | .frcp o => Sys2Proof.Machine.execFrcp o s
  | .fsqrt o => Sys2Proof.Machine.execFsqrt o s
  | .frsq o => Sys2Proof.Machine.execFrsq o s
  | .fexp2 o => Sys2Proof.Machine.execFexp2 o s
  | .flog2 o => Sys2Proof.Machine.execFlog2 o s
  | .cvt o => Sys2Proof.Machine.execCvt o s
  | .pack o => Sys2Proof.Machine.execPack o s
  | .unpk o => Sys2Proof.Machine.execUnpk o s
  | .qset o => Sys2Proof.Machine.execQset o s
  | .qop o => Sys2Proof.Machine.execQop o s
  | .shfl o => Sys2Proof.Machine.execShfl o s
  | .vote o => Sys2Proof.Machine.execVote o s
  | .red o => Sys2Proof.Machine.execRed o s
  | .scan o => Sys2Proof.Machine.execScan o s
  | .ld o => Sys2Proof.Machine.execLd o s
  | .st o => Sys2Proof.Machine.execSt o s
  | .ldg o => Sys2Proof.Machine.execLdg o s
  | .stg o => Sys2Proof.Machine.execStg o s
  | .atom o => Sys2Proof.Machine.execAtom o s
  | .pft o => Sys2Proof.Machine.execPft o s
  | .lda o => Sys2Proof.Machine.execLda o s
  | .sta o => Sys2Proof.Machine.execSta o s
  | .ldaTile o => Sys2Proof.Machine.execLdaTile o s
  | .staTile o => Sys2Proof.Machine.execStaTile o s
  | .ldl o => Sys2Proof.Machine.execLdl o s
  | .stl o => Sys2Proof.Machine.execStl o s
  | .fill o => Sys2Proof.Machine.execFill o s
  | .mma o => Sys2Proof.Machine.execMma o s
  | .mmas o => Sys2Proof.Machine.execMmas o s
  | .spk o => Sys2Proof.Machine.execSpk o s
  | .mdrn o => Sys2Proof.Machine.execMdrn o s
  | .mdrnMem o => Sys2Proof.Machine.execMdrnMem o s
  | .mdrnPeer o => Sys2Proof.Machine.execMdrnPeer o s
  | .mzero o => Sys2Proof.Machine.execMzero o s
  | .iopIadd o => Sys2Proof.Machine.execIopIadd o s
  | .iopIsub o => Sys2Proof.Machine.execIopIsub o s
  | .iopImul o => Sys2Proof.Machine.execIopImul o s
  | .iopIminI64 o => Sys2Proof.Machine.execIopIminI64 o s
  | .iopImaxI64 o => Sys2Proof.Machine.execIopImaxI64 o s
  | .iopIminN64 o => Sys2Proof.Machine.execIopIminN64 o s
  | .iopImaxN64 o => Sys2Proof.Machine.execIopImaxN64 o s
  | .iopIabs o => Sys2Proof.Machine.execIopIabs o s
  | .iopAnd o => Sys2Proof.Machine.execIopAnd o s
  | .iopOr o => Sys2Proof.Machine.execIopOr o s
  | .iopXor o => Sys2Proof.Machine.execIopXor o s
  | .iopShl o => Sys2Proof.Machine.execIopShl o s
  | .iopShr o => Sys2Proof.Machine.execIopShr o s
  | .iopSha o => Sys2Proof.Machine.execIopSha o s
  | .iopPopc o => Sys2Proof.Machine.execIopPopc o s
  | .iopClz o => Sys2Proof.Machine.execIopClz o s
  | .iopMov o => Sys2Proof.Machine.execIopMov o s
  | .iopiIadd o => Sys2Proof.Machine.execIopiIadd o s
  | .iopiIsub o => Sys2Proof.Machine.execIopiIsub o s
  | .iopiImul o => Sys2Proof.Machine.execIopiImul o s
  | .iopiIminI64 o => Sys2Proof.Machine.execIopiIminI64 o s
  | .iopiImaxI64 o => Sys2Proof.Machine.execIopiImaxI64 o s
  | .iopiIminN64 o => Sys2Proof.Machine.execIopiIminN64 o s
  | .iopiImaxN64 o => Sys2Proof.Machine.execIopiImaxN64 o s
  | .iopiAnd o => Sys2Proof.Machine.execIopiAnd o s
  | .iopiOr o => Sys2Proof.Machine.execIopiOr o s
  | .iopiXor o => Sys2Proof.Machine.execIopiXor o s
  | .iopiShl o => Sys2Proof.Machine.execIopiShl o s
  | .iopiShr o => Sys2Proof.Machine.execIopiShr o s
  | .iopiSha o => Sys2Proof.Machine.execIopiSha o s
  | .iopiMovi o => Sys2Proof.Machine.execIopiMovi o s
  | .iopwIadd o => Sys2Proof.Machine.execIopwIadd o s
  | .iopwIsub o => Sys2Proof.Machine.execIopwIsub o s
  | .iopwImul o => Sys2Proof.Machine.execIopwImul o s
  | .iopwIminI64 o => Sys2Proof.Machine.execIopwIminI64 o s
  | .iopwImaxI64 o => Sys2Proof.Machine.execIopwImaxI64 o s
  | .iopwIminN64 o => Sys2Proof.Machine.execIopwIminN64 o s
  | .iopwImaxN64 o => Sys2Proof.Machine.execIopwImaxN64 o s
  | .iopwAnd o => Sys2Proof.Machine.execIopwAnd o s
  | .iopwOr o => Sys2Proof.Machine.execIopwOr o s
  | .iopwXor o => Sys2Proof.Machine.execIopwXor o s
  | .iopwShl o => Sys2Proof.Machine.execIopwShl o s
  | .iopwShr o => Sys2Proof.Machine.execIopwShr o s
  | .iopwSha o => Sys2Proof.Machine.execIopwSha o s
  | .iopwMovi o => Sys2Proof.Machine.execIopwMovi o s
  | .fopFadd o => Sys2Proof.Machine.execFopFadd o s
  | .fopFsub o => Sys2Proof.Machine.execFopFsub o s
  | .fopFmul o => Sys2Proof.Machine.execFopFmul o s
  | .fopFfma o => Sys2Proof.Machine.execFopFfma o s
  | .fopFmin o => Sys2Proof.Machine.execFopFmin o s
  | .fopFmax o => Sys2Proof.Machine.execFopFmax o s
  | .fopFrcp o => Sys2Proof.Machine.execFopFrcp o s
  | .fopFsqrt o => Sys2Proof.Machine.execFopFsqrt o s
  | .fopFrsq o => Sys2Proof.Machine.execFopFrsq o s
  | .fopFexp2 o => Sys2Proof.Machine.execFopFexp2 o s
  | .fopFlog2 o => Sys2Proof.Machine.execFopFlog2 o s
  | .fopCvt o => Sys2Proof.Machine.execFopCvt o s
  | .cmpkIcmp o => Sys2Proof.Machine.execCmpkIcmp o s
  | .cmpkFcmp o => Sys2Proof.Machine.execCmpkFcmp o s
  | .cmpkFclass o => Sys2Proof.Machine.execCmpkFclass o s
  | .prkQop o => Sys2Proof.Machine.execPrkQop o s
  | .prkQset o => Sys2Proof.Machine.execPrkQset o s
  | .sld o => Sys2Proof.Machine.execSld o s
  | .sst o => Sys2Proof.Machine.execSst o s
  | .satom o => Sys2Proof.Machine.execSatom o s
  | .acq o => Sys2Proof.Machine.execAcq o s
  | .acqAll o => Sys2Proof.Machine.execAcqAll o s
  | .rel o => Sys2Proof.Machine.execRel o s
  | .cln o => Sys2Proof.Machine.execCln o s
  | .inv o => Sys2Proof.Machine.execInv o s
  | .civ o => Sys2Proof.Machine.execCiv o s
  | .rgn o => Sys2Proof.Machine.execRgn o s
  | .bra o => Sys2Proof.Machine.execBra o s
  | .call o => Sys2Proof.Machine.execCall o s
  | .brc o => Sys2Proof.Machine.execBrc o s
  | .braRegister o => Sys2Proof.Machine.execBraRegister o s
  | .callRegister o => Sys2Proof.Machine.execCallRegister o s
  | .ret o => Sys2Proof.Machine.execRet o s
  | .exit o => Sys2Proof.Machine.execExit o s
  | .yieldSlot o => Sys2Proof.Machine.execYieldSlot o s
  | .setwImmediate o => Sys2Proof.Machine.execSetwImmediate o s
  | .setwRImmediate o => Sys2Proof.Machine.execSetwRImmediate o s
  | .setwRegister o => Sys2Proof.Machine.execSetwRegister o s
  | .setwRRegister o => Sys2Proof.Machine.execSetwRRegister o s
  | .endw o => Sys2Proof.Machine.execEndw o s
  | .bar o => Sys2Proof.Machine.execBar o s
  | .barArr o => Sys2Proof.Machine.execBarArr o s
  | .barWait o => Sys2Proof.Machine.execBarWait o s
  | .gbar o => Sys2Proof.Machine.execGbar o s
  | .mbarInit o => Sys2Proof.Machine.execMbarInit o s
  | .mbarArm o => Sys2Proof.Machine.execMbarArm o s
  | .mbarArr o => Sys2Proof.Machine.execMbarArr o s
  | .mbarWait o => Sys2Proof.Machine.execMbarWait o s
  | .bclose o => Sys2Proof.Machine.execBclose o s
  | .bwaitImmediate o => Sys2Proof.Machine.execBwaitImmediate o s
  | .bwaitRegister o => Sys2Proof.Machine.execBwaitRegister o s
  | .ecpy o => Sys2Proof.Machine.execEcpy o s
  | .epub o => Sys2Proof.Machine.execEpub o s
  | .ecoll o => Sys2Proof.Machine.execEcoll o s
  | .spawn o => Sys2Proof.Machine.execSpawn o s
  | .enq o => Sys2Proof.Machine.execEnq o s
  | .deq o => Sys2Proof.Machine.execDeq o s
  | .cdec o => Sys2Proof.Machine.execCdec o s
  | .cinc o => Sys2Proof.Machine.execCinc o s
  | .tdef o => Sys2Proof.Machine.execTdef o s
  | .tseal o => Sys2Proof.Machine.execTseal o s
  | .tdrop o => Sys2Proof.Machine.execTdrop o s
  | .thold o => Sys2Proof.Machine.execThold o s
  | .tfree o => Sys2Proof.Machine.execTfree o s
  | .tfence o => Sys2Proof.Machine.execTfence o s
  | .trap o => Sys2Proof.Machine.execTrap o s
  | .trapBreak o => Sys2Proof.Machine.execTrapBreak o s
  | .rte o => Sys2Proof.Machine.execRte o s
  | .csrr o => Sys2Proof.Machine.execCsrr o s
  | .csrw o => Sys2Proof.Machine.execCsrw o s
  | .csrwSet o => Sys2Proof.Machine.execCsrwSet o s
  | .csrwClr o => Sys2Proof.Machine.execCsrwClr o s
  | .svc o => Sys2Proof.Machine.execSvc o s
  | .eret o => Sys2Proof.Machine.execEret o s
  | .tlbiPage o => Sys2Proof.Machine.execTlbiPage o s
  | .tlbiAsid o => Sys2Proof.Machine.execTlbiAsid o s
  | .tlbiAll o => Sys2Proof.Machine.execTlbiAll o s
  | .ctxi o => Sys2Proof.Machine.execCtxi o s
  | .keysetLoad o => Sys2Proof.Machine.execKeysetLoad o s
  | .keysetGen o => Sys2Proof.Machine.execKeysetGen o s
  | .keysetErase o => Sys2Proof.Machine.execKeysetErase o s
  | .halt o => Sys2Proof.Machine.execHalt o s
  | .kbindWrite cc v => Sys2Proof.Machine.execKbindWrite cc v s
  | .ilckWrite cc fn v => Sys2Proof.Machine.execIlckWrite cc fn v s
  | .kpendWrite cc fn v => Sys2Proof.Machine.execKpendWrite cc fn v s
  | .registerWrite r => Sys2Proof.Machine.execRegisterWrite r s
  | .interrupt cc => Sys2Proof.Machine.execInterrupt cc s
  | .trapDelivery g => Sys2Proof.Machine.execTrapDelivery g s
  | .homeAccess a k pa => Sys2Proof.Machine.execHomeAccess a k pa s
  | .eviction site word => Sys2Proof.Machine.execEviction site word s
  | .monitorWake line => Sys2Proof.Machine.execMonitorWake line s
  | .walkRetry g id => Sys2Proof.Machine.execWalkRetry g id s
  | .switchOut block => Sys2Proof.Machine.execSwitchOut block s
  | .dispatch die cores => Sys2Proof.Machine.execDispatch die cores s
  | .priorityAging die slot idx => Sys2Proof.Machine.execPriorityAging die slot idx s
  | .blockStart core => Sys2Proof.Machine.execBlockStart core s
  | .steal thief victim => Sys2Proof.Machine.execSteal thief victim s
  | .urgent g f => Sys2Proof.Machine.execUrgent g f s
  | .timerExpiry core bin => Sys2Proof.Machine.execTimerExpiry core bin s
  | .binClose core bin => Sys2Proof.Machine.execBinClose core bin s
  | .spawnedGroupStart core => Sys2Proof.Machine.execSpawnedGroupStart core s
  | .taskCompletion task => Sys2Proof.Machine.execTaskCompletion task s
  | .foldRetry core => Sys2Proof.Machine.execFoldRetry core s
  | .unbind die slot => Sys2Proof.Machine.execUnbind die slot s
  | .overflowAppend die => Sys2Proof.Machine.execOverflowAppend die s
  | .chunkLanding id => Sys2Proof.Machine.execChunkLanding id s
  | .mbarTimeout g f => Sys2Proof.Machine.execMbarTimeout g f s
  | .peerAddLanding id => Sys2Proof.Machine.execPeerAddLanding id s
  | .gangBarrierPass gang => Sys2Proof.Machine.execGangBarrierPass gang s
  | .copyCommand iod n => Sys2Proof.Machine.execCopyCommand iod n s
  | .upload iod n => Sys2Proof.Machine.execUpload iod n s
  | .epubCommand iod n => Sys2Proof.Machine.execEpubCommand iod n s
  | .ecollCommand iod n => Sys2Proof.Machine.execEcollCommand iod n s
  | .collectiveMatch iod n others => Sys2Proof.Machine.execCollectiveMatch iod n others s
  | .publish iod n => Sys2Proof.Machine.execPublish iod n s
  | .recipeRun block tile => Sys2Proof.Machine.execRecipeRun block tile s
  | .abIntervalEnd core a l g => Sys2Proof.Machine.execAbIntervalEnd core a l g s
  | .runRequest c => Sys2Proof.Machine.execRunRequest c s
  | .preemptRequest c => Sys2Proof.Machine.execPreemptRequest c s
  | .saveRequest c => Sys2Proof.Machine.execSaveRequest c s
  | .abortRequest c => Sys2Proof.Machine.execAbortRequest c s
  | .resumeRequest c => Sys2Proof.Machine.execResumeRequest c s
  | .unassignedRequest c => Sys2Proof.Machine.execUnassignedRequest c s
  | .drainlimExpiry block => Sys2Proof.Machine.execDrainlimExpiry block s
  | .save gang => Sys2Proof.Machine.execSave gang s
  | .restore gang cores => Sys2Proof.Machine.execRestore gang cores s
  | .statusWrite c => Sys2Proof.Machine.execStatusWrite c s
  | .doorbell iod => Sys2Proof.Machine.execDoorbell iod s
  | .cxlMemRead iod off => Sys2Proof.Machine.execCxlMemRead iod off s
  | .cxlMemWrite iod off bytes => Sys2Proof.Machine.execCxlMemWrite iod off bytes s
  | .registrationFlit port f => Sys2Proof.Machine.execRegistrationFlit port f s
  | .dataFlit port f => Sys2Proof.Machine.execDataFlit port f s
  | .acknowledge port a => Sys2Proof.Machine.execAcknowledge port a s
  | .keyControl port k => Sys2Proof.Machine.execKeyControl port k s
  | .rollover k => Sys2Proof.Machine.execRollover k s
  | .portDown port => Sys2Proof.Machine.execPortDown port s
  | .scopeTableInstall t => Sys2Proof.Machine.execScopeTableInstall t s
  | .uncorrectableError place => Sys2Proof.Machine.execUncorrectableError place s
  | .coldStart => Sys2Proof.Machine.execColdStart s
  | .warmStart => Sys2Proof.Machine.execWarmStart s
  | .warmReset die => Sys2Proof.Machine.execWarmReset die s
  | .reAdmission r => Sys2Proof.Machine.execReAdmission r s
  | .timeBaseTick => Sys2Proof.Machine.execTimeBaseTick s
  | .thermalLimit entered => Sys2Proof.Machine.execThermalLimit entered s
  | .portUp port => Sys2Proof.Machine.execPortUp port s
  | .spdmRequest iod request => Sys2Proof.Machine.execSpdmRequest iod request s

end Sys2Proof.Machine
end

