-- ==== Sys2Proof/Machine/Sched.lean ====
section
/-! DEFINITION. Fetching an instruction (R54, R70, R88), what stands between a party and its next instruction (R121, R306
to R308), which parties can issue, which hardware steps are due, and whose turn it is when the schedule says nothing. -/

namespace Sys2Proof.Machine

/-! ### Fetch -/

/-- The outcome of fetching one word. -/
inductive Fetched
  | word (w : Nat)
  | page (pte : Nat)
  | misalign
  | access
  | offline (d : Nat)
  deriving DecidableEq, Repr

/-- One instruction word fetched on behalf of a party (R70, R325); a poisoned unit fails as ACCESS (R381). The word is read
at its home on every fetch, by a control core too: the spec does not say whether its instruction cache may return an older
line (DESIGN CHOICE, log 41). -/
def fetchWord (s : State) (w : Who) (va : DWord) : Fetched × State :=
  if va.toNat % 4 ≠ 0 then (.misalign, s) else
  match translate s w.site w.ctx w.priv .fetch va with
  | (.ok pa key, s) =>
    if s.poison.contains (pa / 64) then (.access, s)
    else (.word (loadWord s (some w.agent) key (pa / 4)).1.toNat, s)
  | (.page p, s) => (.page p, s)
  | (.access, s) => (.access, s)
  | (.offline d, s) => (.offline d, s)

/-- What a fetch at a pc ends in: the instruction, an ILLEGAL word, or a failure with the address of the word. -/
inductive Fetch
  | instr (i : Instr)
  | illegal (w : Nat)
  | page (va : DWord) (pte : Nat)
  | misalign
  | access
  | offline (d : Nat)
  deriving DecidableEq, Repr

/-- A fetched word that is none. -/
def Fetched.failed (va : DWord) : Fetched → Fetch
  | .word w => .illegal w
  | .page p => .page va p
  | .misalign => .misalign
  | .access => .access
  | .offline d => .offline d

/-- R88: word 0, its cell and fields, then E where the instruction has two words. -/
def fetchInstr (s : State) (w : Who) (vcount : Nat) (lane : Bool) (pc : DWord) : Fetch × State :=
  match fetchWord s w pc with
  | (.word w0, s1) =>
    match lengthOf w0 with
    | none => (.illegal w0, s1)
    | some n =>
      if !wSet w0 && !lane then (.illegal w0, s1)
      else if n = 1 then
        (match decode w0 0 with | some i => .instr i | none => .illegal w0, s1)
      else if !word0Ok vcount w0 then (.illegal w0, s1)
      else match fetchWord s1 w (pc + 4) with
        | (.word e, s2) => (match decode w0 e with | some i => .instr i | none => .illegal w0, s2)
        | (f, s2) => (f.failed (pc + 4), s2)
  | (f, s1) => (f.failed pc, s1)

/-! ### Readiness -/

/-- Whether a control core has something to do at its instruction boundary. -/
def ctlReady (s : State) (cc : Nat) (again : Bool) : Bool :=
  match s.ctls[cc]? with
  | none => false
  | some c =>
    !c.stopped && ctlEnabled s cc &&
      (if again then c.wait.again
       else c.wait == .run || !c.deferred.isEmpty || (c.pending != 0 && (c.ie || c.wait == .halted)))

/-- Whether a party can be asked to issue. -/
def ready (s : State) (p : Party) (again : Bool) : Bool :=
  match p with
  | .frag g f => fragReady s g f again
  | .control cc => ctlReady s cc again
  | .idle => false

/-- Every party there is, in a fixed order. -/
def parties (s : State) : List Party :=
  (List.range s.groups.length).flatMap (fun g => match s.groups[g]? with
    | some gr => gr.frags.map (fun fr => .frag g fr.id)
    | none => []) ++ (List.range s.ctls.length).map .control

/-- The elements behind the first occurrence of one. -/
def behind (p : Party) : List Party → List Party
  | [] => []
  | x :: l => if x = p then l else behind p l

/-- Whether a fragment is urgent (R49): marked, or passed over for 256 clk. -/
def Frag.isUrgent (x : Frag) : Bool := x.urgent || 256 ≤ x.passed

/-- The oldest urgent fragment among some (R49). -/
def oldestUrgent (l : List (Nat × Frag)) : Option Party :=
  (oldestOf (l.filter (·.2.isUrgent))).map (fun p => .frag p.1 p.2.id)

/-- The oldest urgent fragment of a core. -/
def urgentOn (s : State) (core : Nat) : Option Party := oldestUrgent (readyOn s core)

/-- The ready fragment of a core that issues next (R49): the oldest urgent one, else the one that issued last, else the
oldest. -/
def corePick (s : State) (core : Nat) : Option Party :=
  let l := readyOn s core
  let last := (coreOf s core).turn
  match urgentOn s core with
  | some p => some p
  | none => if l.any (fun p => .frag p.1 p.2.id == last) then some last
    else (oldestOf l).map (fun p => .frag p.1 p.2.id)

/-- The parties that issue next, one on each compute core and every control core that can. -/
def picks (s : State) : List Party :=
  ((s.groups.map (·.place)).dedup.filterMap (corePick s))
    ++ ((List.range s.ctls.length).map .control).filter (fun p => ready s p false)

/-- The next party behind the current one that issues, each core in its turn. -/
def nextReady (s : State) : Option Party := (behind s.cur (picks s) ++ picks s).head?

/-- The oldest urgent fragment of some core: it issues before time goes on, so that the bound of R49 holds. -/
def urgentReady (s : State) : Option Party := (s.groups.map (·.place)).dedup.findSome? (urgentOn s)

/-- The urgent fragment of its core that a fragment lets go first (R49). -/
def goesFirst (s : State) : Party → Option Party
  | .frag g f => ((s.groups[g]?).bind (fun gr => urgentOn s gr.place)).bind (fun u => if u = .frag g f then none else some u)
  | .control _ => none
  | .idle => none

/-- One of the parties that wait to try their instruction again, each in its turn. -/
def nextAgain (s : State) (k : Nat) : Option Party :=
  let l := (parties s).filter (fun p => ready s p true)
  l[k % l.length]?

/-! ### Issue by a party -/

/-- A fetch of a fragment that did not give an instruction (R70, R88, R306). -/
def fragFetchFailed (s : State) (c : Cx) : Fetch → State
  | .instr _ => s
  | .illegal w => raiseFrag s c 1 0 (BitVec.ofNat 64 w) (some c.fr.pc)
  | .misalign => raiseFrag s c 3 c.fr.pc c.low (some c.fr.pc)
  | .access => raiseFrag s c 4 c.fr.pc c.low (some c.fr.pc)
  | .offline d => parkHome s c [d]
  | .page va pte =>
    let s := if c.gr.pages.any (samePage va) then s else postGroupPage s c.gr 3 va
    park (armMonitor s pte (.fetch c.g c.f)) c (.fetch va (clk s))

/-- A fragment issues its next instruction. -/
def issueFragment (s : State) (g f : Nat) : Out :=
  match s.groups[g]? with
  | none => .next s
  | some gr =>
    match gr.frag? f with
    | none => .next s
    | some fr =>
      let c : Cx := { g, f, gr, fr }
      match fetchInstr s c.who gr.vcount true fr.pc with
      | (.instr i, s1) => exec i s1
      | (r, s1) => .next (fragFetchFailed s1 c r)

/-- A fetch of a control core that did not give an instruction (R70, R306). The record of a FETCH_PAGE holds the address of
the word whose fetch failed, pc + 4 for E (DESIGN CHOICE, log 42). -/
def ctlFetchFailed (s : State) (cc : Nat) (pc : DWord) : Fetch → State
  | .instr _ => s
  | .illegal w => raiseCtl s cc 1 0 (BitVec.ofNat 64 w)
  | .misalign => raiseCtl s cc 3 pc 0
  | .access => raiseCtl s cc 4 pc 0
  | .offline _ => parkCtl s cc .retry
  | .page va _ => raiseCtl s cc 21 va 0

/-- A control core at an instruction boundary: deferred traps, then an interrupt, then the next instruction (R121,
R306, R312). -/
def issueControl (s : State) (cc : Nat) : Out :=
  match s.ctls[cc]? with
  | none => .next s
  | some c =>
    if !c.deferred.isEmpty then .next (takeDeferred s cc)
    else if c.ie && c.pending != 0 then exec (.interrupt cc) s
    else if c.wait == .halted then
      .next (if c.pending = 0 then s else modCtl s cc (fun c => { c with wait := .run, pc := c.pc + 4 }))
    else
      match fetchInstr s (c.who cc) 0 false c.pc with
      | (.instr i, s1) => exec i s1
      | (r, s1) => .next (ctlFetchFailed s1 cc c.pc r)

/-- Whether a fragment has not issued, and waits to try its instruction again. -/
def heldBack (g f : Nat) : Out → Bool
  | .next t => ((t.groups[g]?).bind (·.frag? f)).any (fun x => x.wait.again)
  | .fault _ => false
  | .refused _ => false

/-- A fragment's turn on its core, which from then on favours it, unless it has not issued (R49). -/
def fragTurn (s : State) (g f : Nat) : Out :=
  let r := issueFragment (match s.groups[g]? with | some gr => giveTurn s gr.place (.frag g f) | none => s) g f
  if heldBack g f r then issueFragment s g f else r

/-- A party's turn: a boundary step that stands first (TRAP_DELIVERY, interrupt, deferred trap), or its next
instruction; nothing where the party cannot issue. -/
def issueParty (s : State) (p : Party) : Out :=
  let s := { s with cur := p }
  match p with
  | .idle => .next s
  | .frag g f =>
    if deliverable s g then exec (.trapDelivery g) s
    else if fragReady s g f false || fragReady s g f true then fragTurn s g f
    else .next s
  | .control cc => if ctlReady s cc false || ctlReady s cc true then issueControl s cc else .next s

/-! ### Hardware steps that are due -/

/-- Steps that are due in a group: delivery, urgency, timeouts, retries of instructions that wait on no page (R308, R49,
R365, R290, R302). -/
def groupSteps (s : State) (g : Nat) (gr : Group) : List Instr :=
  (if deliverable s g || !gr.late.isEmpty then [.trapDelivery g] else [])
    ++ gr.frags.flatMap (fun x =>
      (if 256 ≤ x.passed && !x.urgent then [.urgent g x.id] else []) ++ (match x.wait with
        | .mbar _ _ start timeout => if timeout ≠ 0 ∧ start + timeout ≤ clk s then [.mbarTimeout g x.id] else []
        | _ => []))
    ++ (gr.log.filter (fun e => e.pages.isEmpty && e.dies.isEmpty && e.since + 4096 ≤ clk s)).map (fun e => .walkRetry g e.id)

/-- Steps that are due for a block: its end in an image, its drain, its chains of recipe misses. -/
def blockSteps (s : State) (n : Nat) (b : Block) : List Instr :=
  if b.life != .running then [] else
  (match b.drainFrom with
    | some t => if t + drainLimit s b.ctx ≤ clk s then [.drainlimExpiry n] else []
    | none => [])
    ++ (if (groupsOf s n).any (fun gr => gr.overdue (clk s)) then [.switchOut n] else [])
    ++ (s.chains.filter (fun c => c.block == n)).filterMap (fun c => (c.stack.head?).map (fun y => .recipeRun n y.1))

/-- Steps that are due for a gang. -/
def gangSteps (s : State) (n : Nat) (x : Gang) : List Instr :=
  (if x.saving.isSome then [.save n] else []) ++ (if x.marks != 0 then [.gangBarrierPass n] else [])
    ++ (if (imagedMembers s x).isEmpty then [] else [.restore n []])

/-- Steps that are due on a compute core. -/
def coreSteps (s : State) (n : Nat) (k : Core) : List Instr :=
  (if k.spawnList.isEmpty then [] else [.spawnedGroupStart n]) ++ (if k.deque.isEmpty then [] else [.blockStart n])
    ++ (List.range 16).flatMap (fun i => match k.bins.getD i none with
      | some b => if b.closing then [.binClose n i] else if b.start + b.entry.timer ≤ clk s then [.timerExpiry n i] else []
      | none => [])
    ++ (if k.held.isEmpty || 2 ≤ clk s % 65536 then [] else [.foldRetry n])

/-- Steps that are due in a die's queues. -/
def dieSteps (s : State) (d : Nat) : List Instr :=
  let qs := s.slots.filter (fun q => q.die == d)
  (if qs.isEmpty && s.named.isEmpty && !(s.tasks.any (fun t => t.die == d)) then [] else [.dispatch d []])
    ++ qs.zipIdx.flatMap (fun p =>
      (if p.1.isEmpty && p.1.idleSince + 65536 ≤ clk s then [.unbind d p.2] else [])
        ++ (p.1.recs.zipIdx.filter (fun r => r.1.aged < r.1.waited / 65536)).map (fun r => .priorityAging d p.2 r.2))

/-- The step of an engine command (R258). -/
def commandSteps (c : Command) : List Instr :=
  match c.life with
  | .issued => [if c.op = 2 then .ecollCommand c.iod c.n else if c.op = 1 then .epubCommand c.iod c.n
      else if c.isUpload then .upload c.iod c.n else .copyCommand c.iod c.n]
  | .matching => [.collectiveMatch c.iod c.n []]
  | .built | .finishing => [.publish c.iod c.n]

/-- Contexts that the device has met. -/
def contexts (s : State) : List Ctx :=
  ((s.ctls.filter (·.bound)).map (·.ctx) ++ s.blocks.map (·.ctx) ++ s.slots.map (·.ctx)).dedup

/-- The step of a context's request word, and of its answer (R319, R317). -/
def requestSteps (s : State) (c : Ctx) : List Instr :=
  let w := requestWord s c
  (if w = ((lastRequest s c).map (fun r => (r.code, r.seq))).getD (0, 0) then []
   else [if w.1 = 0 then .runRequest c else if w.1 = 1 then .preemptRequest c else if w.1 = 2 then .saveRequest c
      else if w.1 = 3 then .abortRequest c else if w.1 = 4 then .resumeRequest c else .unassignedRequest c])
    ++ (if (lastRequest s c).any (fun r => !r.answered) then [.statusWrite c] else [])

/-- Steps that the hardware may have to take now, as far as a glance at the state tells. -/
def candidates (s : State) : List Instr :=
  ((s.monitors.filter (·.woken)).map (·.line)).dedup.map .monitorWake
    ++ s.groups.zipIdx.flatMap (fun p => if p.1.life == .live then groupSteps s p.2 p.1 else [])
    ++ s.blocks.zipIdx.flatMap (fun p => blockSteps s p.2 p.1)
    ++ s.gangs.zipIdx.flatMap (fun p => gangSteps s p.2 p.1)
    ++ (s.blocks.filter (fun b => b.life == .deque && b.entry.gang != 1)).map (fun b => .blockStart b.core)
    ++ s.cores.flatMap (fun p => coreSteps s p.1 p.2)
    ++ (List.range 4).flatMap (dieSteps s)
    ++ (s.tasks.zipIdx.filter (fun p => (p.1.life == .wordPending || p.1.life == .donePending)
        && !(s.monitors.any (fun m => m.waiter == .task p.2)))).map
      (fun p => .taskCompletion p.2)
    ++ (s.overflow.zipIdx.filter (fun p => !p.1.entries.isEmpty)).map (fun p => .overflowAppend p.2)
    ++ s.chunks.map (fun k => .chunkLanding k.id) ++ s.adds.map (fun a => .peerAddLanding a.id)
    ++ s.commands.flatMap commandSteps ++ (contexts s).flatMap (requestSteps s)

/-- Whether a step from outside or of the hardware changes anything now. -/
def changes (s : State) (e : Instr) : Bool :=
  match exec e s with
  | .next t => t != s
  | _ => false

/-- The hardware steps that are due. -/
def dueSteps (s : State) : List Instr := (candidates s).filter (changes s)

/-- The first hardware step that is due. -/
def firstDue (s : State) : Option Instr := (candidates s).find? (changes s)

/-! ### Whose turn it is -/

/-- An event: a row of the opcode table that no word encodes. -/
def Instr.isEvent (i : Instr) : Bool := (encode i).isNone

/-- A fragment whose wait to issue again has ended is ready from now on, so that its time counts (R49). -/
def wakeTry (g : Nat) (s : State) (x : Frag) : State :=
  if fragReady s g x.id true && !heldBack g x.id (issueFragment { s with cur := .frag g x.id } g x.id) then
    modFrag s g x.id (fun y => { y with wait := .run })
  else s

/-- One nanosecond passes, once every fragment whose wait to issue again has ended counts as ready (R49) and the boundary intervals
that are over have ended (R205). -/
def passTime (s : State) : Out :=
  let s := endIntervals s
  exec .timeBaseTick (s.groups.zipIdx.foldl (fun s p => (p.1.frags.filter (·.wait.again)).foldl (wakeTry p.2) s) s)

/-- A hardware step that is due takes place, or time passes. -/
def idleStep (s : State) : Out :=
  match firstDue s with
  | some e => exec e s
  | none =>
    match nextReady s with
    | some p => issueParty s p
    | none => if s.free % 2 = 0 then passTime s else
        match nextAgain s (s.free / 2) with
        | some p => issueParty s p
        | none => passTime s

/-- The turn when the schedule says nothing: an urgent fragment issues first; else the current party goes on issuing while it
can; every 32nd turn belongs to the hardware and to time, every 256th to another party: the one that the next core issues,
or one that waits to try again (R49, R53; log 6). -/
def defaultTurn (s : State) : Out :=
  match urgentReady s with
  | some p => issueParty s p
  | none =>
  if s.free % 256 = 255 then
    match (if s.free % 512 = 255 then nextReady s else nextAgain s (s.free / 512)) with
    | some p => issueParty s p
    | none => idleStep s
  else if s.free % 32 = 31 then
    match firstDue s with
    | some e => exec e s
    | none => passTime s
  else if ready s s.cur false then issueParty s s.cur
  else idleStep s

/-- One turn of the schedule. The agenda does not break the bound of R49: an urgent fragment issues before another one of its
core that the agenda names, and before time goes on; the agenda's entry keeps its place. -/
def turn (s : State) : Out :=
  match s.agenda with
  | [] => defaultTurn s
  | .party p :: l =>
    (match goesFirst s p with
     | some u => issueParty s u
     | none => issueParty { s with agenda := l } p)
  | .outside .timeBaseTick :: l =>
    (match urgentReady s with
     | some u => issueParty s u
     | none => passTime { s with agenda := l })
  | .due k :: l =>
    let s := { s with agenda := l }
    (match (dueSteps s)[k]? with
     | some e => exec e s
     | none => .next s)
  | .outside e :: l => if Instr.isEvent e then exec e { s with agenda := l } else .next { s with agenda := l }

/-! ### The program load -/

/-- The context under which `placeProgram` lays out its page: ASID 1, root at 1 GiB, key 1. -/
def loadCtx : Ctx := { asid := 1, root := 0x40000000, key := 1 }

/-- A page-table entry of the load: valid and not a leaf, or the leaf with every permission and key 1. -/
def loadEntry (frame : Nat) (leaf : Bool) : List Byte := leBytes 8 (frame + if leaf then 0x13F else 1)

/-- The tables that map virtual page 0 to the frame at root + 0x6000, a context record at root + 0x1000 with image slots
of 4 MiB and a fragment stack of 16, and the program's bytes at virtual address 0. -/
def placeProgram (s : State) (bs : List Byte) : State :=
  let r := 0x40000000
  let s := { s with erased := s.erased.filter (· != 1), offline := s.offline.filter (· != 0),
                    xlat := s.xlat.filter (fun x => x.asid != 1),
                    poison := s.poison.filter (fun u => u < r / 64 || (r + 0x8000) / 64 ≤ u),
                    reg := s.reg.filter (fun p => p.1 < r / 4 || (r + 0x8000) / 4 ≤ p.1) }
  let k := tabGet 1 s.keys 1
  let s := writeBytes s k r (loadEntry (r + 0x2000) false)
  let s := writeBytes s k (r + 0x2000) (loadEntry (r + 0x3000) false)
  let s := writeBytes s k (r + 0x3000) (loadEntry (r + 0x4000) false)
  let s := writeBytes s k (r + 0x4000) (loadEntry (r + 0x5000) false)
  let s := writeBytes s k (r + 0x5000) (loadEntry (r + 0x6000) true)
  let s := writeBytes s k (r + 0x1024) (leBytes 4 64)
  let s := writeBytes s k (r + 0x1038) (leBytes 4 16)
  writeBytes s k (r + 0x6000) bs

/-- The block of one group that runs the load on core 0 of CD0: eight threads, 256 registers each. -/
def loadEntryDesc : Entry :=
  { recipe := false, lgt := 3, block := 1, gang := 1, vcount := 256, bars := 16, wb := 65536, cb := 32768, ab := 65536,
    ls := 65536, carveMin := 0, carveMax := 0, timer := 0, stepping := 3 }

/-- Whether a word belongs to class P: S majors 0x32 to 0x37 (R83). -/
def wordIsP (w : Nat) : Bool := wSet w && 0x32 ≤ wMajor w && wMajor w ≤ 0x37

/-- The program loaded and its party ready to issue it at pc 0: a privileged control core for class P, else a new block
of one group. -/
def loadProgram (s : State) (bs : List Byte) : State :=
  let s := placeProgram s bs
  if wordIsP (leNat (bs.take 4)) then
    let c : Ctl := { s.ctls.getD 0 Ctl.reset with
      pc := 0, pv := true, ie := false, kbind := 0x40010001, bound := true, stopped := false, wait := .run, deferred := [] }
    { s with ctls := s.ctls.set 0 c, cfgCtl := s.cfgCtl.set 0 (BitVec.allOnes 24),
             agenda := .party (.control 0) :: s.agenda }
  else
    let g := s.groups.length
    let gr := Group.start loadCtx s.blocks.length 0 0 0 8 256 (firstThreads 8) 8 false 0 (clk s)
    let b : Block := { Block.start loadCtx none 0 0 0 0 0 loadEntryDesc 0 with groups := [g] }
    let s := modCore s 0 (fun k => { k with carve := min k.carve 64 })
    { s with groups := s.groups ++ [gr], blocks := s.blocks ++ [b], agenda := .party (.frag g 0) :: s.agenda }

end Sys2Proof.Machine
end

