-- ==== Sys2Proof/Machine/Step.lean ====
section
/-! DEFINITION. One step of the machine, and the load of one instruction where the next step fetches it. -/

namespace Sys2Proof.Machine

/-- One step: the counter of unspecified choices moves on and one turn of the schedule takes place. -/
def step (s : State) : Host.Outcome State Fault Refusal := turn { s with free := s.free + 1 }

/-- `s` with the instruction whose bits are `w` (bits above `nbits` zero) stored where the next step fetches, and its
party at the head of the schedule (log 7). -/
def State.withFetchWord (s : State) (nbits w : Nat) : State := loadProgram s (leBytes 8 (w % 2 ^ nbits))

end Sys2Proof.Machine
end

