-- ==== Sys2Proof/Safety.lean ====
section
/-! DEFINITION. What counts as a safe run, and the words that claims are stated in: who issues and when nothing holds it up,
what a register holds after writes, and how much of the state one instruction may change. -/

namespace Sys2Proof

/-- A step that neither faults nor is refused. -/
def goesOn (s : Machine.State) : Prop := ∃ t, Machine.step s = .next t

/-- A run of `n` steps that neither faults nor is refused. -/
def runsOn (s : Machine.State) (n : Nat) : Prop := ∃ t, core.run n s = .next t

namespace Machine

/-! ### Registers -/

/-- Names of registers that exist: 256 lane registers and 8 predicates to a thread (R111). -/
def RegKey.real : RegKey → Bool
  | .v _ n => n < 256
  | .q _ n => n < 8
  | .s _ => true
  | .k _ => true

/-- What a register of 32, 1 or 64 bits keeps of a value. -/
def RegKey.narrow : RegKey → DWord → DWord
  | .v _ _, x => (x.setWidth 32).setWidth 64
  | .q _ _, x => if x.getLsbD 0 then 1 else 0
  | .s _, x => x
  | .k _, x => if x.getLsbD 0 then 1 else 0

/-- What register `key`, which held `old`, holds after writes in order: the last one to it stays. -/
def after (l : List (RegKey × DWord)) (key : RegKey) (old : DWord) : DWord :=
  l.foldl (fun x p => if p.1 = key then key.narrow p.2 else x) old

/-- The flags that a list of pairs raises in thread `t`. -/
def raised (l : List (Nat × Fl)) (t : Nat) : Fl := l.foldl (fun x p => if p.1 = t then x ||| p.2 else x) 0

/-! ### Who issues -/

/-- The party whose turn it is is the fragment that `c` describes. -/
structure Issues (s : State) (c : Cx) : Prop where
  cur : s.cur = .frag c.g c.f
  group : s.groups[c.g]? = some c.gr
  frag : c.gr.frag? c.f = some c.fr

/-- The fragment may issue the instruction now: it is one that the group may issue (R67, R63, R345) and no rule makes it
wait (R71, R228, R240, R249, R308). -/
structure Ready (s : State) (c : Cx) (i : Instr) (x : IssueInfo) : Prop where
  wf : i.wf = true
  regs : i.regsOk c.gr.vcount = true
  run : c.gr.run = none ∨ runRule i = .ok
  go : mustWait s c i x = false

/-- An instruction of a fragment answers a next state with a property: the property is of the state before, the fragment
with its registers as the instruction reads them, and the state after. -/
def OnFrag (i : Instr) (x : IssueInfo) (P : State → Cx → State → Prop) : Prop :=
  ∀ s c, Issues s c → Ready s c i x → ∃ t, exec i s = .next t ∧ P s (c.begun x.w) t

/-- The party whose turn it is is control core `cc`. -/
structure IssuesCtl (s : State) (cc : Nat) (c : Ctl) : Prop where
  cur : s.cur = .control cc
  ctl : s.ctls[cc]? = some c

/-- An instruction of a control core answers a next state with a property. -/
def OnCtl (i : Instr) (P : State → Nat → Ctl → State → Prop) : Prop :=
  ∀ s cc c, IssuesCtl s cc c → i.wf = true → ∃ t, exec i s = .next t ∧ P s cc c t

/-! ### What an instruction may change -/

/-- Only group `g` changes. -/
structure GroupOnly (s t : State) (g : Nat) : Prop where
  rest : t = { s with groups := t.groups }
  length : t.groups.length = s.groups.length
  others : ∀ j, j ≠ g → t.groups[j]? = s.groups[j]?

/-- Only control core `cc` changes. -/
structure CtlOnly (s t : State) (cc : Nat) : Prop where
  rest : t = { s with ctls := t.ctls }
  length : t.ctls.length = s.ctls.length
  others : ∀ j, j ≠ cc → t.ctls[j]? = s.ctls[j]?

/-- Group `g` becomes `gr`, and nothing else changes. -/
def Becomes (s t : State) (g : Nat) (gr : Group) : Prop := GroupOnly s t g ∧ t.groups[g]? = some gr

/-- Control core `cc` becomes `d`, and nothing else changes. -/
def BecomesCtl (s t : State) (cc : Nat) (d : Ctl) : Prop := CtlOnly s t cc ∧ t.ctls[cc]? = some d

/-- The fragments of a group after fragment `f` has issued and its pc has become `pc`: it does not wait, and its waiting
time starts afresh (R49). -/
def fragsAt (s : State) (c : Cx) (pc : DWord) : List Frag :=
  c.gr.frags.map (fun x =>
    if x.id = c.f then { x with pc, wait := .run, since := clk s, passed := 0, urgent := false } else x)

/-- The issuing group as fragment `c.f` has arrived at a barrier (16 for the gang barrier) in a phase, with its pc and what
it waits for (R355). -/
def Cx.arrivedAt (c : Cx) (s : State) (i : Nat) (phase : Bool) (pc : DWord) (wait : Wait) : Group :=
  { c.gr with frags := (fragsAt s c pc).map (fun x => if x.id = c.f then { x with wait, since := if wait = .run ∨ c.fr.wait = .run then clk s else c.fr.since, arr := tabSet x.arr i phase } else x) }

/-- Every other fragment of the group has arrived or is parked at a JOIN (R355). -/
def Cx.othersArrived (c : Cx) (i : Nat) : Prop :=
  ∀ x ∈ c.gr.frags, x.id ≠ c.f → (tabFind x.arr i).isSome = true ∨ ∃ tok, x.wait = .join tok

/-- An agent's words after its release: those in O(a) are in S(a), the others as they were (R220). -/
def Released (s t : State) (a : Agent) : Prop :=
  ∀ w, regOf t w = match regOf s w with
    | some (.owned b l va) => if b = a then some (.released b va) else some (.owned b l va)
    | r => r

/-- A fragment's instruction does nothing but write the registers of `out` in their order, raise the flags of `fl` (none in
a recipe run, R345) and set the pc; the values before its writes are all that a later read may still return (R73). -/
structure RegStep (s : State) (c : Cx) (t : State) (out : List (RegKey × DWord)) (fl : List (Nat × Fl)) (pc : DWord)
    (gr : Group) : Prop where
  only : GroupOnly s t c.g
  group : t.groups[c.g]? = some gr
  rest : gr = { c.gr with v := gr.v, q := gr.q, s := gr.s, k := gr.k, fflags := gr.fflags, older := gr.older, frags := gr.frags }
  regs : ∀ key, key.real = true → gr.read key = after out key (c.gr.read key)
  flags : ∀ th, tabGet 0 gr.fflags th = tabGet 0 c.gr.fflags th ||| (if c.gr.run = none then raised fl th else 0)
  older : ∀ o ∈ gr.older, o ∈ c.gr.older ∨ (o.frag = c.f ∧ ∃ p ∈ out, p.1 = o.key)
  frags : gr.frags = fragsAt s c pc

/-- A lane instruction of `len` bytes that gives every active thread that its guard lets through the writes and flags of
`f`, read from registers as they were (R150, R151). -/
def LaneStep (i : Instr) (w : Bool) (len : Nat) (g : Option GuardQ) (f : Cx → Nat → Nat → LaneOut) : Prop :=
  OnFrag i (laneInfo w) (fun s c t => ∃ gr, RegStep s c t ((c.active s.free g).flatMap (fun th => (f c s.free th).1))
    ((c.active s.free g).map (fun th => (th, (f c s.free th).2))) (c.fr.pc + BitVec.ofNat 64 len) gr)

/-- What a control core holds after it has written uniform registers and predicates. -/
structure CtlRegs (s : State) (cc : Nat) (c : Ctl) (t : State) (out : List (RegKey × DWord)) (pc : DWord) (d : Ctl) : Prop where
  only : CtlOnly s t cc
  ctl : t.ctls[cc]? = some d
  rest : d = { c with s := d.s, k := d.k, pc := d.pc, wait := d.wait }
  wait : d.wait = c.wait ∨ d.wait = .run
  sregs : ∀ n, d.sreg n = after out (.s n) (c.sreg n)
  kregs : ∀ n, (if d.kreg n then (1 : DWord) else 0) = after out (.k n) (if c.kreg n then 1 else 0)
  pc : d.pc = pc

/-- A uniform instruction of class B of `len` bytes: on a compute core once per fragment, with its flags in every thread of
the fragment (R41, R135), on a control core without flags; nothing but the pc where its guard fails (R59). -/
def UniStep (i : Instr) (w : Bool) (len : Nat) (g : Option GuardK) (f : UniIn → LaneOut) : Prop :=
  OnFrag i (bothInfo w) (fun s c t => ∃ gr, RegStep s c t
    (if c.runs s.free g then (f (c.uni s.free)).1 else [])
    (if c.runs s.free g then (threadsOf c.fr.mask c.gr.size).map (fun th => (th, (f (c.uni s.free)).2)) else [])
    (c.fr.pc + BitVec.ofNat 64 len) gr) ∧
  OnCtl i (fun s cc c t => ∃ d, CtlRegs s cc c t (if c.runs g then (f c.uni).1 else []) (c.pc + BitVec.ofNat 64 len) d)

/-! ### Numbers and places of results -/

/-- The number that a pattern of an integer type stands for (R126). -/
def number (t : IntTy) (x : Nat) : Int :=
  if t.signed then (BitVec.ofNat t.width x).toInt else ((BitVec.ofNat t.width x).toNat : Int)

/-- The least and the greatest number of a type (R126). -/
def lowest (t : IntTy) : Int := if t.signed then -(2 ^ (t.width - 1)) else 0
def highest (t : IntTy) : Int := if t.signed then 2 ^ (t.width - 1) - 1 else 2 ^ t.width - 1

/-- The pattern of an exact result: modulo 2^w, under `.sat` after a clamp to the type's range (R127). -/
def patternOf (t : IntTy) (sat : Bool) (x : Int) : Nat :=
  (BitVec.ofInt t.width (if sat then max (lowest t) (min x (highest t)) else x)).toNat

/-- What an integer result of thread `th` writes: a 64-bit pattern to a pair, low word first; a narrower one to one
register, sign-extended for the i types and zero-extended for the n types (R126, R153). -/
def intDest (t : IntTy) (th vd x : Nat) : List (RegKey × DWord) :=
  if t.width = 64 then
    [(.v th vd, ((BitVec.ofNat 64 x).setWidth 32).setWidth 64), (.v th (vd + 1), BitVec.ofNat 64 x >>> 32)]
  else [(.v th vd, ((if t.signed then (BitVec.ofNat t.width x).signExtend 32 else (BitVec.ofNat t.width x).setWidth 32)).setWidth 64)]

/-- What a floating result of thread `th` writes: the bits above the value are cleared (R129). -/
def fltDest (t : FTy) (th vd x : Nat) : List (RegKey × DWord) :=
  if t.width = 64 then
    [(.v th vd, ((BitVec.ofNat 64 x).setWidth 32).setWidth 64), (.v th (vd + 1), BitVec.ofNat 64 x >>> 32)]
  else [(.v th vd, (BitVec.ofNat t.width x).setWidth 64)]

/-- A 32-bit result in one lane register. -/
def wordDest (th vd : Nat) (x : Word) : List (RegKey × DWord) := [(.v th vd, x.setWidth 64)]

/-- A finite value as a rational number; 0 for the rest. -/
def FVal.rat : FVal → ℚ
  | .fin neg m e => (if neg then -1 else 1) * m * (2 : ℚ) ^ e
  | .nan _ => 0
  | .inf _ => 0

/-- A finite value. -/
def FVal.isFin : FVal → Bool
  | .fin _ _ _ => true
  | .nan _ => false
  | .inf _ => false

/-- A number that a format holds. -/
def Holds (t : FTy) (y : ℚ) : Prop := ∃ p < 2 ^ t.width, (fDecode t p).isFin = true ∧ (fDecode t p).rat = y

/-- The number that a rounding mode takes for `x` among those that a format holds (R132); `even` says that the last fraction bit
of `y` is 0. -/
def Takes (t : FTy) (m : Rnd) (x y : ℚ) (even : Bool) : Prop :=
  let below := y ≤ x ∧ ∀ z, Holds t z → z ≤ x → z ≤ y
  let above := x ≤ y ∧ ∀ z, Holds t z → x ≤ z → y ≤ z
  match m with
  | .rd => below
  | .ru => above
  | .rz => if 0 ≤ x then below else above
  | .rn => ∀ z, Holds t z → |y - x| ≤ |z - x| ∧ (|z - x| = |y - x| → z = y ∨ even = true)
  | .rna => ∀ z, Holds t z → |y - x| ≤ |z - x| ∧ (|z - x| = |y - x| → |z| ≤ |y|)

/-- The rounded magnitude of `x` would exceed the largest finite value (R132). -/
def Overflows (t : FTy) (m : Rnd) (x : ℚ) : Prop :=
  let top := (2 : ℚ) ^ ((fBias t : Int) + 1)
  let unit := (2 : ℚ) ^ ((fBias t : Int) - fracBits t)
  match m with
  | .rn | .rna => top - unit / 2 ≤ |x|
  | .rz => top ≤ |x|
  | .rd => if x < 0 then top - unit < -x else top ≤ x
  | .ru => if x < 0 then top ≤ -x else top - unit < x

/-- `x`, rounded to the format's precision with an unbounded exponent, is below the smallest normal number (R133). -/
def Tiny (t : FTy) (m : Rnd) (x : ℚ) : Prop :=
  let low := (2 : ℚ) ^ (1 - (fBias t : Int))
  let unit := low * (2 : ℚ) ^ (-(fracBits t : Int) - 1)
  match m with
  | .rn | .rna => |x| < low - unit / 2
  | .rz => |x| < low
  | .rd => if x < 0 then -x ≤ low - unit else x < low
  | .ru => if x < 0 then -x < low else x ≤ low - unit

/-- `r` is the pattern and the flags that a nonzero exact result `x` gives in a format and a rounding mode: the overflow value
with OF and NX, or the number that the mode takes, with NX where it is not exact and UF where it is tiny too (R132, R133). -/
def Delivered (t : FTy) (m : Rnd) (x : ℚ) (r : Nat × Fl) : Prop :=
  let y := (fDecode t r.1).rat
  (Overflows t m x → r.2 = flOF ||| flNX ∧ r.1 = match m with
    | .rn | .rna => fInf t (x < 0)
    | .rz => fHuge t (x < 0)
    | .rd => if x < 0 then fInf t true else fHuge t false
    | .ru => if x < 0 then fHuge t true else fInf t false) ∧
  (¬ Overflows t m x → r.1 < 2 ^ t.width ∧ (fDecode t r.1).isFin = true ∧ Takes t m x y (r.1 % 2 == 0) ∧
    r.1 / signWeight t = (if x < 0 then 1 else 0) ∧
    (r.2.getLsbD 0 = true ↔ y ≠ x) ∧ (r.2.getLsbD 1 = true ↔ y ≠ x ∧ Tiny t m x) ∧ r.2 &&& 28 = 0)

/-- `r` is what the positive square root of `q` gives: the root itself where it is a rational number, else every number between two
bounds on either side of it. -/
def DeliveredRoot (t : FTy) (m : Rnd) (q : ℚ) (r : Nat × Fl) : Prop :=
  (∀ x : ℚ, 0 < x → x * x = q → Delivered t m x r) ∧
  ((∀ x : ℚ, x * x ≠ q) → ∃ lo hi : ℚ, 0 < lo ∧ lo * lo < q ∧ 0 < hi ∧ q < hi * hi ∧ ∀ x, lo < x → x < hi → Delivered t m x r)

/-- Registers of a thread from `base` on are written with elements of `e` bits, the first lowest in the first register (R137). -/
def Packs (e th base : Nat) (els : List Nat) (out : List (RegKey × DWord)) : Prop :=
  out.map (·.1) = (List.range (els.length * e / 32)).map (fun i => RegKey.v th (base + i)) ∧
  ∀ i x, els[i]? = some x → ∃ y : DWord, (.v th (base + i / (32 / e)), y) ∈ out ∧ y.toNat < 2 ^ 32 ∧
    y.toNat / 2 ^ (e * (i % (32 / e))) % 2 ^ e = x % 2 ^ e

/-- The integer that a rounding mode takes for `x` (R134). -/
def TakesInt (m : Rnd) (x : ℚ) (n : Int) : Prop :=
  match m with
  | .rd => n = ⌊x⌋
  | .ru => n = ⌈x⌉
  | .rz => n = if 0 ≤ x then ⌊x⌋ else ⌈x⌉
  | .rn => |(n : ℚ) - x| ≤ 1 / 2 ∧ (|(n : ℚ) - x| = 1 / 2 → n % 2 = 0)
  | .rna => |(n : ℚ) - x| ≤ 1 / 2 ∧ (|(n : ℚ) - x| = 1 / 2 → |x| ≤ |(n : ℚ)|)

/-- The order of a minimum and a maximum (R170): numbers, with -0 below +0. -/
def selectsLess (t : FTy) (a b : Nat) : Prop :=
  (fDecode t a).rat < (fDecode t b).rat ∨ (fDecode t a).rat = (fDecode t b).rat ∧ signWeight t ≤ a

/-- A combination of values in some order and some association (R149). -/
inductive Combined (f : RedFn) : List Node → Node → Prop
  | leaf (x : Node) : Combined f [x] x
  | join (l l1 l2 : List Node) (a b : Node) : l.Perm (l1 ++ l2) → Combined f l1 a → Combined f l2 b → Combined f l (combine f a b)

/-- A predicate result. -/
def predDest (th qd : Nat) (b : Bool) : List (RegKey × DWord) := [(.q th qd, if b then 1 else 0)]

/-! ### Memory instructions -/

/-- The bytes at physical addresses that a translated access covers. -/
def Covers (p : Acc × Nat × Nat) (a : Nat) : Prop := p.2.1 ≤ a ∧ a < p.2.1 + p.1.n

/-- Memory after translated stores, each under its key: every byte outside them reads as before under the key its unit is
stored with, and every byte inside is that of the last access of the list that covers it. -/
structure Stored (s t : State) (l : List (Acc × Nat × Nat)) : Prop where
  kept : ∀ key a, (∀ p ∈ l, ¬ Covers p a) → (∀ p ∈ l, ∀ b, Covers p b → b / 64 = a / 64 → p.2.2 = key) →
    readByte t key a = readByte s key a
  put : ∀ l1 p l2, l = l1 ++ p :: l2 → p.1.data.length = p.1.n → ∀ a, Covers p a → (∀ q ∈ l2, ¬ Covers q a) →
    (∀ q ∈ l2, ∀ b, Covers q b → b / 64 = a / 64 → q.2.2 = p.2.2) → readByte t p.2.2 a = p.1.data.getD (a - p.2.1) 0

/-- A registration without the address of the word's line (R208). -/
def Reg.unplaced : Reg → Reg
  | .owned a l _ => .owned a l 0
  | .released a _ => .released a 0
  | r => r

/-- Every word is in the state it was in; its line may stand under another address. -/
def SameButLines (s t : State) : Prop := ∀ w, (regOf t w).map Reg.unplaced = (regOf s w).map Reg.unplaced

/-- A lane load of 8 bytes whose accesses pass their checks and meet no race: registers, and beside them only copies,
translations and the lines of registered words; without an access only the pc moves. Memory is as before, and so is the state of
every word (R242, R225, R208). A recipe run loads from its record's ranges alone (R344), and of those frozen words alone, or takes
ACCESS (R345). -/
def LoadStep (i : Instr) (w : Bool) (accs : Cx → Nat → List Acc) (dest : Acc → List Byte → List (RegKey × DWord)) : Prop :=
  ∀ s c, Issues s c → Ready s c i (laneMemInfo w) →
    let d := c.begun w
    (accs d s.free = [] → ∃ t gr, exec i s = .next t ∧ RegStep s d t [] [] (c.fr.pc + 8) gr) ∧
    ∀ l s1, accs d s.free ≠ [] → (∀ a ∈ accs d s.free, runMayLoad s c a = true) → checkAccs (started s c w) d.who .load (accs d s.free) = (.ok l, s1) →
      (∀ a, d.barred s1 l = some a → exec i s = .next (raiseFrag s1 d 4 a.va (BitVec.ofNat 64 a.tid) (some c.fr.pc))) ∧
      (d.barred s1 l = none → (loadAccs s1 d.who l).2.1 = none →
        ∃ t gr, exec i s = .next t ∧ SameButLines s t ∧
          RegStep { s with xlat := t.xlat, asids := t.asids, copies := t.copies, reg := t.reg } d t
          ((loadAccs s1 d.who l).1.flatMap (fun p => dest p.1 p.2)) [] (c.fr.pc + 8) gr)

/-- A lane store of 8 bytes whose accesses pass their checks and meet no race: no register changes; the stored bytes, their
registration, and what a write brings about (R224, R227, R241, R314, R319, R381). -/
def StoreStep (i : Instr) (w : Bool) (accs : Cx → Nat → List Acc) : Prop :=
  ∀ s c, Issues s c → Ready s c i (laneMemInfo w) →
    let d := c.begun w
    (accs d s.free = [] → ∃ t gr, exec i s = .next t ∧ RegStep s d t [] [] (c.fr.pc + 8) gr) ∧
    ∀ l s1, accs d s.free ≠ [] → checkAccs (started s c w) d.who .store (accs d s.free) = (.ok l, s1) →
      (storeAccs s1 d.who l).1 = none →
      ∃ t gr, exec i s = .next t ∧ Stored s t l ∧
        RegStep { s with xlat := t.xlat, asids := t.asids, copies := t.copies, mem := t.mem, tags := t.tags, reg := t.reg, monitors := t.monitors, hostLines := t.hostLines, poison := t.poison, blocks := s.blocks.modify c.gr.block (fun b => { b with clean := false }) }
          d t [] [] (c.fr.pc + 8) gr

/-- A load of per-core offsets that are aligned and inside: registers alone change (R245). -/
def CoreLoadStep (i : Instr) (w : Bool) (accs : Cx → Nat → List Acc) (inside : State → Cx → Acc → Bool)
    (bytes : State → Cx → Acc → List Byte) (dest : Acc → List Byte → List (RegKey × DWord)) : Prop :=
  ∀ s c, Issues s c → Ready s c i (laneMemInfo w) →
    let d := c.begun w
    (∀ a ∈ accs d s.free, a.va.toNat % a.n = 0 ∧ inside s d a = true) →
    ∃ t gr, exec i s = .next t ∧
      RegStep s d t ((accs d s.free).flatMap (fun a => dest a (bytes s d a))) [] (c.fr.pc + 8) gr

/-- The fragment waits at its instruction as the root requester of the tile at a window address: its chain has the stack given
and pins at least the tiles given (R343). -/
def RootWaits (c : Cx) (t : State) (addr : DWord) (stack : List (Nat × Nat × Nat)) (pins : List Nat) : Prop :=
  ∃ gr fr k, t.groups[c.g]? = some gr ∧ gr.frag? c.f = some fr ∧ fr.wait = .miss (tileOf addr) ∧ fr.pc = c.fr.pc ∧
    k ∈ t.chains ∧ k.g = c.g ∧ k.f = c.f ∧ k.addr = addr ∧ k.stack = stack ∧ ∀ z ∈ pins, z ∈ k.pins

/-- What a first miss of a tile at a window address comes to (R343): of a tile that runs, the fragment waits for its run; of a tile
that is only defined and whose tile sources are there, these are pinned and the tile takes a free frame and awaits its run, or, with
no frame to be had, the fragment takes TILE_FULL. -/
def FirstMiss (s : State) (c : Cx) (t : State) (addr : DWord) : Prop :=
  let x := tileOf addr
  let r := tileAt s c.gr.block x
  (r.state = .running → RootWaits c t addr [(x, 1, 0)] []) ∧
  ∀ b : Block, s.blocks[c.gr.block]? = some b → x < b.tiles.length → r.state = .defined →
    (∀ z ∈ tileSources r 4, (tileAt s c.gr.block z).state ∈ [TileState.opened, .resident]) →
    let free := freeFrames s b.core (coreOf s b.core).carve
    (∀ p rest, free = p :: rest → tileAt t c.gr.block x = { r with state := .running, place := p, frame := [], lost := false } ∧
      RootWaits c t addr [(x, 1, 5)] (tileSources r 4)) ∧
    (free = [] → (∀ y ∈ framedTiles s b.core, evictableTile s y = false) → c.gr.run = none → c.gr.late = [] → c.gr.inHandler c.fr = false → c.gr.trapQ.length < 8 →
      t.chains = s.chains ∧ ∃ gr, t.groups[c.g]? = some gr ∧ gr.trapQ = c.gr.trapQ ++
        [{ cause := 11, frag := c.f, slot := c.fr.slot.getD 0, ipc := c.fr.pc, addr, aux := 0, rpc := some c.fr.pc }])

/-- Of the blocks only `n` bytes of one window change, from `off` on. -/
structure WindowOnly (s t : State) (blk : Nat) (sp : Space) (off n : Nat) : Prop where
  length : t.blocks.length = s.blocks.length
  rest : ∀ (b : Nat) (y : Block), t.blocks[b]? = some y →
    ∃ x : Block, s.blocks[b]? = some x ∧ y = { x with wb := y.wb, ab := y.ab, cb := y.cb, ls := y.ls }
  kept : ∀ b x k, ¬ (b = blk ∧ x = sp ∧ off ≤ k ∧ k < off + n) → winRead t b x k 1 = winRead s b x k 1

/-- A matrix instruction of a fragment: registers, the CB window of its group (a recipe run has one of its own, R344) and the
exception counts of its core may change. `tiles` says which bytes of the CB window do. -/
structure MatStep (s : State) (c : Cx) (t : State) (out : List (RegKey × DWord)) (tiles : Nat → Prop) : Prop where
  regs : ∃ gr run, RegStep { s with blocks := t.blocks, cores := t.cores } { c with gr := { c.gr with run } } t out [] (c.fr.pc + 8) gr ∧
    (run = none ↔ c.gr.run = none) ∧ ∀ r r', c.gr.run = some r → run = some r' → r' = { r with cb := r'.cb }
  length : t.blocks.length = s.blocks.length
  rest : ∀ (b : Nat) (y : Block), t.blocks[b]? = some y →
    ∃ x : Block, s.blocks[b]? = some x ∧ y = { x with cb := if b = c.gr.block ∧ c.gr.run = none then y.cb else x.cb }
  kept : ∀ k, ¬ tiles k → cbRead t c k 1 = cbRead s c k 1

/-- The rows of some threads in `count` tiles, each from the base that the thread reads (R73), as bytes of the CB window (R263,
R264). -/
def inRows (c : Cx) (t : MatTy) (base : Nat → Nat) (count : Nat) (ts : List Nat) (k : Nat) : Prop :=
  ∃ tid ∈ ts, ∃ i < count, rowOff t c.gr.size (base tid) i tid ≤ k ∧ k < rowOff t c.gr.size (base tid) i tid + rowBytes t

/-- No other thread acts on the row of this one: all threads read one base, or their rows lie apart. -/
def ownRow (c : Cx) (t : MatTy) (base : Nat → Nat) (ts : List Nat) (tid : Nat) : Prop :=
  (∀ u ∈ ts, base u = base tid) ∨ ∀ u ∈ ts, u ≠ tid →
    rowOff t c.gr.size (base u) 0 u + rowBytes t ≤ rowOff t c.gr.size (base tid) 0 tid ∨
    rowOff t c.gr.size (base tid) 0 tid + rowBytes t ≤ rowOff t c.gr.size (base u) 0 u

/-- Element `n` of a thread's row in tile `i` of the CB window. -/
def cbElem (s : State) (c : Cx) (t : MatTy) (base i tid n : Nat) : Nat :=
  leNat (cbRead s c (rowOff t c.gr.size base i tid + n * accBytes t) (accBytes t))

/-- A store to per-core offsets that are aligned and inside: of the windows of blocks only the bytes stored change, and of two
accesses to one byte the last of the list stays (R30, R245); `place` gives the block and the offset of an access. -/
def CoreStoreStep (i : Instr) (w : Bool) (sp : Space) (accs : Cx → Nat → List Acc) (inside : State → Cx → Acc → Bool)
    (place : State → Cx → Acc → Nat × Nat) : Prop :=
  ∀ s c, Issues s c → Ready s c i (laneMemInfo w) →
    let d := c.begun w
    (∀ a ∈ accs d s.free, a.va.toNat % a.n = 0 ∧ inside s d a = true) →
    ∃ t gr, exec i s = .next t ∧ RegStep { s with blocks := t.blocks } d t [] [] (c.fr.pc + 8) gr ∧
      t.blocks.length = s.blocks.length ∧
      (∀ (b : Nat) (y : Block), t.blocks[b]? = some y → ∃ x : Block, s.blocks[b]? = some x ∧ y = { x with ab := y.ab, ls := y.ls }) ∧
      (∀ b x off, (∀ a ∈ accs d s.free, ¬ (x = sp ∧ (place s d a).1 = b ∧ (place s d a).2 ≤ off ∧ off < (place s d a).2 + a.n)) →
        winRead t b x off 1 = winRead s b x off 1) ∧
      (∀ l1 a l2, accs d s.free = l1 ++ a :: l2 → ∀ k, k < a.n → (place s d a).1 < s.blocks.length →
        (∀ q ∈ l2, ¬ ((place s d q).1 = (place s d a).1 ∧ (place s d q).2 ≤ (place s d a).2 + k ∧ (place s d a).2 + k < (place s d q).2 + q.n)) →
        winRead t (place s d a).1 sp ((place s d a).2 + k) 1 = [a.data.getD k 0])

/-! ### Either kind of core -/

/-- It is the actor's turn. -/
def Actor.issuesIn (s : State) : Actor → Prop
  | .frag c => Issues s c
  | .ctl cc c => IssuesCtl s cc c

/-- The actor may issue the instruction now. -/
def Actor.readyFor (s : State) (i : Instr) (x : IssueInfo) : Actor → Prop
  | .frag c => Ready s c i x
  | .ctl cc _ => i.wf = true ∧ (x.rel = true → ctlMayRelease s cc = true)

/-- A recipe run loads from its record's ranges alone (R344). -/
def Actor.mayLoad (s : State) (acc : Acc) : Actor → Prop
  | .frag c => runMayLoad s c acc = true
  | .ctl _ _ => True

/-- A uniform predicate as operand `op`. -/
def Actor.getK (a : Actor) (n op r : Nat) : Bool :=
  match a with
  | .frag c => c.k n op r
  | .ctl _ c => c.kreg r

/-- The exact trap of the instruction that the actor issues (R306). -/
def Actor.raise (a : Actor) (s : State) (cause : Nat) (addr aux : DWord) : State :=
  match a with
  | .frag c => raiseFrag s c cause addr aux (some c.fr.pc)
  | .ctl cc _ => raiseCtl s cc cause addr aux

/-- The actor with its registers as the instruction reads them (R71). -/
def Actor.begun (w : Bool) : Actor → Actor
  | .frag c => .frag (c.begun w)
  | .ctl cc c => .ctl cc c

/-- The state as the instruction's effect finds it. -/
def Actor.startedIn (s : State) (w : Bool) : Actor → State
  | .frag c => started s c w
  | .ctl _ _ => s

def Actor.pcOf : Actor → DWord
  | .frag c => c.fr.pc
  | .ctl _ c => c.pc

/-- Whether the guard lets a uniform instruction run (R59). -/
def Actor.guardHolds (n : Nat) (g : Option GuardK) : Actor → Bool
  | .frag c => c.runs n g
  | .ctl _ c => c.runs g

/-- The actor waits to issue its instruction again, with its pc where it was. -/
def Actor.waits (t : State) : Actor → Prop
  | .frag c => ∃ gr fr, t.groups[c.g]? = some gr ∧ gr.frag? c.f = some fr ∧ fr.pc = c.fr.pc ∧ fr.wait.again = true
  | .ctl cc c => ∃ d, t.ctls[cc]? = some d ∧ d.pc = c.pc ∧ d.wait = .retry

/-- The actor's registers and pc are all that changes. -/
def Actor.RegStep (s : State) (t : State) (out : List (RegKey × DWord)) (pc : DWord) : Actor → Prop
  | .frag c => ∃ gr, Machine.RegStep s c t out [] pc gr
  | .ctl cc c => ∃ d, CtlRegs s cc c t out pc d

/-- An instruction of either kind of core answers a next state with a property: the property is of the state before, the state
its effect finds, the actor as it reads, and the state after. -/
def OnActor (i : Instr) (x : IssueInfo) (g : Option GuardK) (P : State → State → Actor → State → Prop) : Prop :=
  ∀ (s : State) (a : Actor), a.issuesIn s → a.readyFor s i x → (a.begun x.w).guardHolds s.free g = true →
    ∃ t, exec i s = .next t ∧ P s (a.startedIn s x.w) (a.begun x.w) t

/-- Where its guard fails, a uniform instruction moves the pc and does nothing else (R59). -/
def GuardFails (i : Instr) (x : IssueInfo) (g : Option GuardK) (len : Nat) : Prop :=
  ∀ (s : State) (a : Actor), a.issuesIn s → a.readyFor s i x → (a.begun x.w).guardHolds s.free g = false →
    ∃ t, exec i s = .next t ∧ (a.begun x.w).RegStep s t [] (a.pcOf + BitVec.ofNat 64 len)

/-- The actor with no page of a queue operation noted (R290). -/
def Actor.queueDone : Actor → Actor
  | .frag c => .frag c
  | .ctl cc c => .ctl cc { c with queue := none }

/-- The actor with one more item in its open batch (R250). -/
def Actor.withItem (x : BatchItem) : Actor → Actor
  | .frag c => .frag { c with gr := { c.gr with openB := c.gr.openB ++ [x] } }
  | .ctl cc c => .ctl cc { c with openB := c.openB ++ [x] }

/-! ### Control registers -/

/-- What a configuration register reads (R25, R24): the active compute cores of a die in two words, its active control cores, the
channels of a stack, the lanes of a link, the octets of an active core. -/
def CfgReads (s : State) (n : Nat) (x : DWord) : Prop :=
  (∀ d, d < 4 → (n = 0x100 + 2 * d → ∀ i, i < 64 → x.getLsbD i = coreActive s (d * 128 + i)) ∧
    (n = 0x101 + 2 * d → ∀ i, i < 64 → x.getLsbD i = (decide (i < 32) && coreActive s (d * 128 + 64 + i))) ∧
    (n = 0x108 + d → x = (s.cfgCtl.getD d 0).setWidth 64) ∧
    ∀ k, k < 96 → n = 0x400 + 128 * d + k → x = if coreActive s (d * 128 + k) then (s.cfgOct.getD (96 * d + k) 0).setWidth 64 else 0) ∧
  (∀ i, i < 12 → n = 0x110 + i → x = (s.cfgHbm.getD i 0).setWidth 64) ∧
  ∀ i, i < 8 → n = 0x120 + i → x = (s.cfgLink.getD i 0).setWidth 64

/-- The numbers of a fragment's block, and its gang's, in its task; 0 for a spawned group (R112). -/
def taskNumbers (s : State) (blk : Nat) : Nat × Nat :=
  match s.blocks[blk]? with
  | some b => if b.spawned then (0, 0) else (b.gangIdx * b.entry.gang + b.member, b.gangIdx)
  | none => (0, 0)

/-! ### Control cores -/

/-- The sixteen stores of a trap record (R120). -/
def recordAccs (c : Ctl) (causeField : Nat) (addr aux rpc : DWord) : List Acc :=
  ([rpc, BitVec.ofNat 64 c.kstate, BitVec.ofNat 64 causeField, addr, aux, c.sreg 60, c.sreg 61, c.sreg 62, c.sreg 63]
      ++ List.replicate 7 (0 : DWord)).zipIdx.map (fun p =>
    { tid := 0, va := c.karea + BitVec.ofNat 64 (128 * c.depth + 8 * p.2), n := 8, data := leBytes 8 p.1.toNat })

/-- A control core takes a trap, an SVC or an interrupt: the record is stored with privilege, and in the same step s60 and s61,
DEPTH, PV, IE and the pc change (R120). -/
def Enters (s : State) (cc : Nat) (c : Ctl) (cause source : Nat) (addr aux rpc : DWord) (t : State) : Prop :=
  let accs := recordAccs c (cause + source * 256) addr aux rpc
  ∀ l s1, c.depth < 4 → checkAccs s { c.who cc with priv := true } .store accs = (.ok l, s1) → (storeAccs s1 (c.who cc) l).1 = none →
    Stored s t l ∧ BecomesCtl { s with xlat := t.xlat, asids := t.asids, copies := t.copies, mem := t.mem, tags := t.tags, reg := t.reg, monitors := t.monitors, hostLines := t.hostLines, poison := t.poison }
      t cc { (c.setS 60 (c.karea + BitVec.ofNat 64 (128 * c.depth))).setS 61 (BitVec.ofNat 64 (cause + source * 256)) with
        depth := c.depth + 1, pv := true, ie := false, pc := c.ktbl + BitVec.ofNat 64 (64 * cause), wait := .run }

/-- A privileged instruction of a control core: PRIV outside privileged mode (R69), else a property. -/
def OnPriv (i : Instr) (P : State → Nat → Ctl → State → Prop) : Prop :=
  ∀ s cc c, IssuesCtl s cc c → i.wf = true → ∃ t, exec i s = .next t ∧
    (c.pv = false → t = raiseCtl s cc 2 0 0) ∧ (c.pv = true → P s cc c t)

/-! ### Instructions and steps of the hardware -/

/-- The words at a party's pc decode to an instruction, and the fetch of them leaves the state `t` (R54, R70, R88); `lane` says
whether the lane set exists there. -/
def Fetches (s : State) (w : Who) (vcount : Nat) (lane : Bool) (pc : DWord) (i : Instr) (t : State) : Prop :=
  ∃ x, (lane = true ∨ wSet x = true) ∧
    ((lengthOf x = some 1 ∧ fetchWord s w pc = (.word x, t) ∧ decode x 0 = some i) ∨
     ∃ e s1, lengthOf x = some 2 ∧ fetchWord s w pc = (.word x, s1) ∧ word0Ok vcount x = true ∧ fetchWord s1 w (pc + 4) = (.word e, t) ∧ decode x e = some i)

/-- A step of the hardware or of the world outside: a row of the opcode table that stands for no instruction of the opcode map
(R89). -/
def hardwareStep : Instr → Bool
  | .mov .. | .specialMov .. | .movi .. | .moviw .. | .iaddi .. | .lea .. | .brd .. | .join .. | .iadd .. | .isub ..
    | .imul .. | .imad .. | .imin .. | .imax .. | .iabs .. | .icmp .. | .sel .. | .fadd .. | .fsub .. | .ffma .. | .fmul ..
    | .fmin .. | .fmax .. | .fcmp .. | .fclass .. | .ldgRow .. | .shl .. | .shr .. | .sha .. | .and .. | .or .. | .xor ..
    | .bfx .. | .bfi .. | .popc .. | .clz .. | .frcp .. | .fsqrt .. | .frsq .. | .fexp2 .. | .flog2 .. | .cvt .. | .pack ..
    | .unpk .. | .qset .. | .qop .. | .shfl .. | .vote .. | .red .. | .scan .. | .ld .. | .st .. | .ldg .. | .stg ..
    | .atom .. | .pft .. | .lda .. | .sta .. | .ldaTile .. | .staTile .. | .ldl .. | .stl .. | .fill .. | .mma .. | .mmas ..
    | .spk .. | .mdrn .. | .mdrnMem .. | .mdrnPeer .. | .mzero .. | .iopIadd .. | .iopIsub .. | .iopImul .. | .iopIminI64 ..
    | .iopImaxI64 .. | .iopIminN64 .. | .iopImaxN64 .. | .iopIabs .. | .iopAnd .. | .iopOr .. | .iopXor .. | .iopShl ..
    | .iopShr .. | .iopSha .. | .iopPopc .. | .iopClz .. | .iopMov .. | .iopiIadd .. | .iopiIsub .. | .iopiImul ..
    | .iopiIminI64 .. | .iopiImaxI64 .. | .iopiIminN64 .. | .iopiImaxN64 .. | .iopiAnd .. | .iopiOr .. | .iopiXor ..
    | .iopiShl .. | .iopiShr .. | .iopiSha .. | .iopiMovi .. | .iopwIadd .. | .iopwIsub .. | .iopwImul .. | .iopwIminI64 ..
    | .iopwImaxI64 .. | .iopwIminN64 .. | .iopwImaxN64 .. | .iopwAnd .. | .iopwOr .. | .iopwXor .. | .iopwShl ..
    | .iopwShr .. | .iopwSha .. | .iopwMovi .. | .fopFadd .. | .fopFsub .. | .fopFmul .. | .fopFfma .. | .fopFmin ..
    | .fopFmax .. | .fopFrcp .. | .fopFsqrt .. | .fopFrsq .. | .fopFexp2 .. | .fopFlog2 .. | .fopCvt .. | .cmpkIcmp ..
    | .cmpkFcmp .. | .cmpkFclass .. | .prkQop .. | .prkQset .. | .sld .. | .sst .. | .satom .. | .acq .. | .acqAll ..
    | .rel .. | .cln .. | .inv .. | .civ .. | .rgn .. | .bra .. | .call .. | .brc .. | .braRegister .. | .callRegister ..
    | .ret .. | .exit .. | .yieldSlot .. | .setwImmediate .. | .setwRImmediate .. | .setwRegister .. | .setwRRegister ..
    | .endw .. | .bar .. | .barArr .. | .barWait .. | .gbar .. | .mbarInit .. | .mbarArm .. | .mbarArr .. | .mbarWait ..
    | .bclose .. | .bwaitImmediate .. | .bwaitRegister .. | .ecpy .. | .epub .. | .ecoll .. | .spawn .. | .enq .. | .deq ..
    | .cdec .. | .cinc .. | .tdef .. | .tseal .. | .tdrop .. | .thold .. | .tfree .. | .tfence .. | .trap .. | .trapBreak ..
    | .rte .. | .csrr .. | .csrw .. | .csrwSet .. | .csrwClr .. | .svc .. | .eret .. | .tlbiPage .. | .tlbiAsid ..
    | .tlbiAll .. | .ctxi .. | .keysetLoad .. | .keysetGen .. | .keysetErase .. | .halt .. => false
  | .kbindWrite .. | .ilckWrite .. | .kpendWrite .. | .registerWrite .. | .interrupt .. | .trapDelivery .. | .homeAccess ..
    | .eviction .. | .monitorWake .. | .walkRetry .. | .switchOut .. | .dispatch .. | .priorityAging .. | .blockStart ..
    | .steal .. | .urgent .. | .timerExpiry .. | .binClose .. | .spawnedGroupStart .. | .taskCompletion .. | .foldRetry ..
    | .unbind .. | .overflowAppend .. | .chunkLanding .. | .mbarTimeout .. | .peerAddLanding .. | .gangBarrierPass ..
    | .copyCommand .. | .upload .. | .epubCommand .. | .ecollCommand .. | .collectiveMatch .. | .publish .. | .recipeRun ..
    | .abIntervalEnd .. | .runRequest .. | .preemptRequest .. | .saveRequest .. | .abortRequest .. | .resumeRequest ..
    | .unassignedRequest .. | .drainlimExpiry .. | .save .. | .restore .. | .statusWrite .. | .doorbell .. | .cxlMemRead ..
    | .cxlMemWrite .. | .registrationFlit .. | .dataFlit .. | .acknowledge .. | .keyControl .. | .rollover .. | .portDown ..
    | .scopeTableInstall .. | .uncorrectableError .. | .coldStart | .warmStart | .warmReset .. | .reAdmission ..
    | .timeBaseTick | .thermalLimit .. | .portUp .. | .spdmRequest .. => true

/-- The majors of the uniform set whose instructions are of class C (R82, R83). -/
def classC : List Nat := [0x14, 0x16, 0x17, 0x18, 0x19, 0x1A, 0x23, 0x28, 0x29, 0x2A, 0x2B, 0x2C, 0x2D, 0x2E, 0x2F]

/-- The majors of the uniform set that are reserved (R79, R82). -/
def reservedMajors : List Nat := [0x06, 0x07, 0x0F, 0x1D, 0x1E, 0x1F, 0x38, 0x39, 0x3A, 0x3B, 0x3C, 0x3D, 0x3E, 0x3F]

/-! ### Forms of uniform arithmetic (R188) -/

/-- Two registers. -/
def IopBin (mk : SBin → Instr) (f : DWord → DWord → DWord) : Prop :=
  ∀ o, UniStep (mk o) o.w 4 none (fun u => ([(.s o.sd.toNat, f (u.s 0 o.sa.toNat) (u.s 1 o.sb.toNat))], 0))
/-- One register. -/
def IopUn (mk : SUn → Instr) (f : DWord → DWord) : Prop :=
  ∀ o, UniStep (mk o) o.w 4 none (fun u => ([(.s o.sd.toNat, f (u.s 0 o.sa.toNat))], 0))
/-- A register and a sign-extended 6-bit immediate. -/
def IopImm (mk : SImm → Instr) (f : DWord → DWord → DWord) : Prop :=
  ∀ o, UniStep (mk o) o.w 4 none (fun u => ([(.s o.sd.toNat, f (u.s 0 o.sa.toNat) (o.imm.signExtend 64))], 0))
/-- A register and a sign-extended 32-bit immediate. -/
def IopWide (mk : SWide → Instr) (f : DWord → DWord → DWord) : Prop :=
  ∀ o, UniStep (mk o) o.w 8 none (fun u => ([(.s o.sd.toNat, f (u.s 0 o.sa.toNat) (o.imm.signExtend 64))], 0))
/-- A uniform floating instruction: the low bits of its registers in, the value zero-extended out. -/
def fopOut (t : FTy) (sd : BitVec 6) (r : Nat × Fl) : LaneOut := ([(.s sd.toNat, (BitVec.ofNat t.width r.1).setWidth 64)], r.2)

end Machine

end Sys2Proof
end

