-- ==== Sys2Proof/Certificates/Slice0/Obligations.lean ====
section
/-! DEFINITION. The statements for the provers: what the rules of the manual say of the machine, in terms of the model. -/

open Sys2Proof Sys2Proof.Machine

/-! ### Lane arithmetic (08) -/

/-- R155, R114, R28: the moves, and IADDI. R162: LEA adds the 64-bit base, the extended and shifted index, and the
sign-extended displacement. -/
def Obligations.MovesAndAddresses : Prop :=
  (
    (∀ o, LaneStep (.mov o) o.w 4 none (fun c n th => (wordDest th o.vd.toNat (c.v n 1 th o.va.toNat), 0))) ∧
    (∀ o, LaneStep (.movi o) o.w 4 none (fun _ _ th => (wordDest th o.vd.toNat (o.imm.signExtend 32), 0))) ∧
    (∀ o, LaneStep (.moviw o) o.w 8 none (fun _ _ th => (wordDest th o.vd.toNat o.imm, 0))) ∧
    (∀ o, LaneStep (.iaddi o) o.w 4 none
      (fun c n th => (wordDest th o.vd.toNat (c.v n 1 th o.va.toNat + o.imm.signExtend 32), 0))) ∧
    (∀ o, LaneStep (.specialMov o) o.w 4 none (fun c _ th => (wordDest th o.vd.toNat (match o.sel with
      | .tid => BitVec.ofNat 32 th
      | .pass => BitVec.ofNat 32 (th / c.gr.grant)
      | .fflags => (tabGet 0 c.gr.fflags th).setWidth 32
      | .grant => BitVec.ofNat 32 c.gr.grant), 0)))
  ) ∧
  (
    ∀ o, LaneStep (.lea o) o.w 8 o.g (fun c n th =>
      let i := c.v n 2 th o.vb.toNat
      let ix : DWord := match o.t with
        | .i8 => (i.setWidth 8).signExtend 64
        | .i16 => (i.setWidth 16).signExtend 64
        | .i32 => i.signExtend 64
        | .n8 => (i.setWidth 8).setWidth 64
        | .n16 => (i.setWidth 16).setWidth 64
        | .n32 => i.setWidth 64
      (intDest .n64 th o.vd.toNat
        (BitVec.ofNat 64 (c.lane n 1 th 64 o.va.toNat) + ix <<< o.sh.toNat + o.disp.signExtend 64).toNat, 0))
  )

/-- R156, R157: sums, differences, products, minimum, maximum and absolute value are exact, and are then taken modulo 2^w or
clamped. -/
def Obligations.IntegerArithmetic : Prop :=
  (∀ o, LaneStep (.iadd o) o.w 8 o.g (fun c n th => (intDest o.t th o.vd.toNat (patternOf o.t o.sat
    (number o.t (c.lane n 1 th o.t.width o.va.toNat) + number o.t (c.src n 2 th o.t.width o.b))), 0))) ∧
  (∀ o, LaneStep (.isub o) o.w 8 o.g (fun c n th => (intDest o.t th o.vd.toNat (patternOf o.t o.sat
    (number o.t (c.lane n 1 th o.t.width o.va.toNat) - number o.t (c.src n 2 th o.t.width o.b))), 0))) ∧
  (∀ o, LaneStep (.imul o) o.w 8 o.g (fun c n th =>
    let p := number o.t (c.lane n 1 th o.t.width o.va.toNat) * number o.t (c.src n 2 th o.t.width o.b)
    (intDest o.t th o.vd.toNat (match o.mode with
      | .wrap => patternOf o.t false p
      | .sat => patternOf o.t true p
      | .hi => patternOf o.t false (p >>> o.t.width)), 0))) ∧
  (∀ o, LaneStep (.imad o) o.w 8 o.g (fun c n th => (intDest o.t th o.vd.toNat (patternOf o.t o.sat
    (number o.t (c.lane n 1 th o.t.width o.va.toNat) * number o.t (c.src n 2 th o.t.width o.b)
      + number o.t (c.lane n 3 th o.t.width o.vc.toNat))), 0))) ∧
  (∀ o, LaneStep (.imin o) o.w 8 o.g (fun c n th => (intDest o.t th o.vd.toNat (patternOf o.t false
    (min (number o.t (c.lane n 1 th o.t.width o.va.toNat)) (number o.t (c.src n 2 th o.t.width o.b)))), 0))) ∧
  (∀ o, LaneStep (.imax o) o.w 8 o.g (fun c n th => (intDest o.t th o.vd.toNat (patternOf o.t false
    (max (number o.t (c.lane n 1 th o.t.width o.va.toNat)) (number o.t (c.src n 2 th o.t.width o.b)))), 0))) ∧
  (∀ o, LaneStep (.iabs o) o.w 8 o.g (fun c n th => (intDest o.t th o.vd.toNat (patternOf o.t o.sat
    (max (number o.t (c.lane n 1 th o.t.width o.va.toNat)) (-number o.t (c.lane n 1 th o.t.width o.va.toNat)))), 0)))

/-- R158, R160, R161: logic, bit counts and bit fields on the w-bit pattern; a field is cut at the width. R159: shifts work on
the w-bit pattern, by a count taken modulo w; SHA repeats the sign bit in every type. The count is one register whatever the
type, or the immediate. -/
def Obligations.LogicShiftsAndBitFields : Prop :=
  (
    (∀ o, LaneStep (.and o) o.w 8 o.g (fun c n th => (intDest o.t th o.vd.toNat
      (BitVec.ofNat o.t.width (c.lane n 1 th o.t.width o.va.toNat) &&& BitVec.ofNat o.t.width (c.src n 2 th o.t.width o.b)).toNat, 0))) ∧
    (∀ o, LaneStep (.or o) o.w 8 o.g (fun c n th => (intDest o.t th o.vd.toNat
      (BitVec.ofNat o.t.width (c.lane n 1 th o.t.width o.va.toNat) ||| BitVec.ofNat o.t.width (c.src n 2 th o.t.width o.b)).toNat, 0))) ∧
    (∀ o, LaneStep (.xor o) o.w 8 o.g (fun c n th => (intDest o.t th o.vd.toNat
      (BitVec.ofNat o.t.width (c.lane n 1 th o.t.width o.va.toNat) ^^^ BitVec.ofNat o.t.width (c.src n 2 th o.t.width o.b)).toNat, 0))) ∧
    (∀ o, LaneStep (.popc o) o.w 8 o.g (fun c n th =>
      let a := BitVec.ofNat o.t.width (c.lane n 1 th o.t.width o.va.toNat)
      (wordDest th o.vd.toNat (BitVec.ofNat 32 ((List.range o.t.width).filter (fun i => a.getLsbD i)).length), 0))) ∧
    (∀ o, LaneStep (.clz o) o.w 8 o.g (fun c n th =>
      let a := BitVec.ofNat o.t.width (c.lane n 1 th o.t.width o.va.toNat)
      (wordDest th o.vd.toNat (BitVec.ofNat 32 ((List.range o.t.width).takeWhile (fun i => !a.getMsbD i)).length), 0))) ∧
    (∀ o, LaneStep (.bfx o) o.w 8 o.g (fun c n th =>
      let t := BfTy.intTy o.t
      let a := BitVec.ofNat t.width (c.lane n 1 th t.width o.va.toNat)
      let f := c.bitField n th o.f
      let x := a.extractLsb' f.1 (min f.2 (t.width - f.1))
      (intDest t th o.vd.toNat (if t.signed then x.signExtend t.width else x.setWidth t.width).toNat, 0))) ∧
    (∀ o, LaneStep (.bfi o) o.w 8 o.g (fun c n th =>
      let t := BfTy.intTy o.t
      let a := BitVec.ofNat t.width (c.lane n 1 th t.width o.va.toNat)
      let d := BitVec.ofNat t.width (c.lane n 3 th t.width o.vc.toNat)
      let f := c.bitField n th o.f
      let mask := ((BitVec.allOnes f.2).setWidth t.width) <<< f.1
      (intDest t th o.vd.toNat ((a <<< f.1) &&& mask ||| d &&& ~~~mask).toNat, 0)))
  ) ∧
  (
    (∀ o, LaneStep (.shl o) o.w 8 o.g (fun c n th => (intDest o.t th o.vd.toNat
      (BitVec.ofNat o.t.width (c.lane n 1 th o.t.width o.va.toNat) <<< (c.count n th o.b % o.t.width)).toNat, 0))) ∧
    (∀ o, LaneStep (.shr o) o.w 8 o.g (fun c n th => (intDest o.t th o.vd.toNat
      (BitVec.ofNat o.t.width (c.lane n 1 th o.t.width o.va.toNat) >>> (c.count n th o.b % o.t.width)).toNat, 0))) ∧
    (∀ o, LaneStep (.sha o) o.w 8 o.g (fun c n th => (intDest o.t th o.vd.toNat
      ((BitVec.ofNat o.t.width (c.lane n 1 th o.t.width o.va.toNat)).sshiftRight (c.count n th o.b % o.t.width)).toNat, 0)))
  )

/-- R163, R164, R166, R167: integer compares, predicate functions and selection. -/
def Obligations.ComparePredicateSelect : Prop :=
  (∀ o, LaneStep (.icmp o) o.w 8 o.g (fun c n th =>
    let a := number o.t (c.lane n 1 th o.t.width o.va.toNat)
    let b := number o.t (c.src n 2 th o.t.width o.b)
    (predDest th o.qd.toNat (match o.c with
      | .eq => decide (a = b) | .ne => decide (a ≠ b) | .lt => decide (a < b)
      | .le => decide (a ≤ b) | .gt => decide (b < a) | .ge => decide (b ≤ a)), 0))) ∧
  (∀ o, LaneStep (.qset o) o.w 8 o.g (fun c n th => (predDest th o.qd.toNat (match o.fn with
      | .clr => false
      | .set => true
      | .nz ty va => decide (number ty (c.lane n 1 th ty.width va.toNat) ≠ 0)
      | .bit ty va i => (BitVec.ofNat ty.width (c.lane n 1 th ty.width va.toNat)).getLsbD i.toNat), 0))) ∧
  (∀ o, LaneStep (.qop o) o.w 4 none (fun c n th =>
    let a := c.q n 1 th o.qa.toNat
    let b := c.q n 2 th o.qb.toNat
    (predDest th o.qd.toNat (match o.fn with
      | .and => a && b | .or => a || b | .xor => a != b | .andn => a && !b | .orn => a || !b
      | .nand => !a || !b | .nor => !a && !b | .xnor => a == b), 0))) ∧
  (∀ o, LaneStep (.sel o) o.w 8 o.g (fun c n th =>
    let t : IntTy := if o.wide then .n64 else .n32
    (intDest t th o.vd.toNat (if c.q n 3 th o.qs.toNat = !o.neg then c.lane n 1 th t.width o.va.toNat
      else c.src n 2 th t.width o.b), 0)))

/-! ### Operands and registers (03, 06, 07) -/

/-- R152, R153, R64, R126, R129: the low bits of a register, the pair of a 64-bit operand, a sign-extended immediate, a shift
count, a bit field's place, and what an integer, a floating and a 32-bit result write. R65, R66: the address of a thread:
base, index, and the displacement in access sizes. R237, R238, R5: what a load writes from its bytes, little-endian: a narrow
element extended by its type, wider ones word after word; a store takes the low bytes of its registers. -/
def Obligations.OperandsAndElements : Prop :=
  (
    (∀ (c : Cx) n op th w r, w ≤ 32 → c.lane n op th w r = ((c.v n op th r).setWidth w).toNat) ∧
    (∀ (c : Cx) n op th r, c.lane n op th 64 r = ((c.v n op th (r + 1)) ++ (c.v n op th r)).toNat) ∧
    (∀ (c : Cx) n op th (t : IntTy) (r : BitVec 8), c.src n op th t.width (.reg r) = c.lane n op th t.width r.toNat) ∧
    (∀ (c : Cx) n op th (t : IntTy) (i : BitVec 8), c.src n op th t.width (.imm i) = (i.signExtend t.width).toNat) ∧
    (∀ (c : Cx) n th r, c.count n th (.reg r) = (c.v n 2 th r.toNat).toNat) ∧
    (∀ (c : Cx) n th i, c.count n th (.imm i) = (i.signExtend 32).toNat) ∧
    (∀ (c : Cx) n th r, c.bitField n th (.reg r)
      = (((c.v n 2 th r.toNat).setWidth 8).toNat, (((c.v n 2 th r.toNat) >>> 8).setWidth 8).toNat)) ∧
    (∀ (c : Cx) n th p l, c.bitField n th (.imm p l) = (p.toNat, l.toNat)) ∧
    (∀ t th vd x, outInt t th vd x = intDest t th vd x) ∧ (∀ t th vd x, outFlt t th vd x = fltDest t th vd x)
  ) ∧
  (
    (∀ (c : Cx) n th size (a : Addr), c.addr n th size a = c.st n 0 th a.sb.toNat + (match a.idx with
        | .none => 0
        | .zext v => (c.v n 1 th v.toNat).setWidth 64
        | .sext v => (c.v n 1 th v.toNat).signExtend 64
        | .pair v => (c.v n 1 th (v.toNat + 1)) ++ (c.v n 1 th v.toNat)) + BitVec.ofInt 64 (a.disp.toInt * size)) ∧
    (∀ (c : Cx) n th size (x : GIndex), c.gaddr n th size x = c.st n 0 th x.sb.toNat
        + (let i := c.v n 1 th x.va.toNat; match x.width, x.signed with
           | .w8, false => (i.setWidth 8).setWidth 64 | .w8, true => (i.setWidth 8).signExtend 64
           | .w16, false => (i.setWidth 16).setWidth 64 | .w16, true => (i.setWidth 16).signExtend 64
           | .w32, false => i.setWidth 64 | .w32, true => i.signExtend 64 : DWord) <<< x.sh.toNat
        + BitVec.ofInt 64 (x.disp.toInt * size))
  ) ∧
  (
    (∀ (t : IntTy) th vt bs, t.width < 32 → loadOut (.int t) th vt bs = intDest t th vt (leNat bs)) ∧
    (∀ (t : FTy) th vt bs, t.width < 32 → loadOut (.flt t) th vt bs = fltDest t th vt (leNat bs)) ∧
    (∀ (t : ElemTy) th vt bs i, 32 ≤ t.width → i < bs.length / 4 → (loadOut t th vt bs)[i]?
      = some (.v th (vt + i), BitVec.ofNat 64 (leNat ((bs.drop (4 * i)).take 4)))) ∧
    (∀ (c : Cx) n th vt k i, i < k → (c.storeData n th vt k)[i]? = some (((c.v n 2 th (vt + i / 4)) >>> (8 * (i % 4))).setWidth 8)) ∧
    (∀ (bs : List Byte), leBytes bs.length (leNat bs) = bs) ∧ (∀ n x, leNat (leBytes n x) = x % 2 ^ (8 * n))
  )

/-- R71, R73, R75: a read returns the register's value or the value before one of the fragment's outstanding writes to it;
with W = 1, in an interlocked group's writes, and where nothing is outstanding, it returns the register's value. R187: a
fragment reads what another fragment has last written to a uniform register. R150, R59:
the threads a lane instruction acts on are those of the fragment's mask whose guard predicate holds. The values that may still
be read are those of log 12. -/
def Obligations.RegistersAndThreads : Prop :=
  (
    (∀ (gr : Group) n f op key, gr.get n f op key = gr.read key ∨
      ∃ o ∈ gr.older, o.frag = f ∧ o.key = key ∧ gr.get n f op key = o.val) ∧
    (∀ (c : Cx) n op key, (c.begun true).gr.get n c.f op key = c.gr.read key) ∧
    (∀ (gr : Group) f l, gr.interlocked = true → ∀ o ∈ (gr.writes f l).older, o ∈ gr.older) ∧
    (∀ (gr : Group) n f f' op key x, f' ≠ f → key.uniform = true → (gr.write f key x).get n f' op key = key.narrow x) ∧
    (∀ (gr : Group) f l key, (∀ p ∈ l, p.1.real = true) → key.real = true →
      (gr.writes f l).read key = after l key (gr.read key))
  ) ∧
  (
    ∀ (c : Cx) n g th, th ∈ c.active n g ↔
      th < c.gr.size ∧ c.fr.mask.getLsbD th = true ∧
        (∀ q, g = some q → (c.q n 7 th q.q.toNat = !q.neg))
  )

/-! ### Floating point (07, 08) -/

/-- R132: rounding to an integer grid: directed modes, the nearest with ties to even, the nearest with ties away. R169, R132:
sums, products and the fused product and sum are exact before the one rounding; a compare orders finite values as numbers.
R132, R133: a value that its format holds is delivered as it is in every rounding mode, without a flag; any other nonzero
number is delivered as the neighbour that the mode takes, or as the overflow value, with OF, UF and NX; R131: `.ftz` flushes a
subnormal result with UF and NX. R169: so are sums, differences, products and fused products and sums; x - x is a zero. R130, R133: an
arithmetic result with a NaN operand is the canonical NaN, and NV is set exactly for a signalling one; the sum of unlike
infinities and the product of 0 and an infinity are the canonical NaN with NV. -/
def Obligations.FloatingValues : Prop :=
  (
    ∀ (neg : Bool) (m k : Nat),
      (let q := roundShift .rz neg m k; q * 2 ^ k ≤ m ∧ m < (q + 1) * 2 ^ k) ∧
      (let q := roundShift .rd neg m k
       if neg then m ≤ q * 2 ^ k ∧ q * 2 ^ k < m + 2 ^ k else q * 2 ^ k ≤ m ∧ m < (q + 1) * 2 ^ k) ∧
      (let q := roundShift .ru neg m k
       if neg then q * 2 ^ k ≤ m ∧ m < (q + 1) * 2 ^ k else m ≤ q * 2 ^ k ∧ q * 2 ^ k < m + 2 ^ k) ∧
      (let d := 2 * ((roundShift .rn neg m k * 2 ^ k : Nat) - m : Int).natAbs
       d ≤ 2 ^ k ∧ (d = 2 ^ k → roundShift .rn neg m k % 2 = 0)) ∧
      (let d := 2 * ((roundShift .rna neg m k * 2 ^ k : Nat) - m : Int).natAbs
       d ≤ 2 ^ k ∧ (d = 2 ^ k → m ≤ roundShift .rna neg m k * 2 ^ k))
  ) ∧
  (
    (∀ m a b, FVal.isFin a = true → FVal.isFin b = true →
      (addV m a b).1.isFin = true ∧ (addV m a b).1.rat = a.rat + b.rat ∧ (addV m a b).2 = 0) ∧
    (∀ a b, FVal.isFin a = true → FVal.isFin b = true →
      (mulV a b).1.isFin = true ∧ (mulV a b).1.rat = a.rat * b.rat ∧ (mulV a b).2 = 0) ∧
    (∀ m a b c, FVal.isFin a = true → FVal.isFin b = true → FVal.isFin c = true →
      (fmaV m a b c).1.rat = a.rat * b.rat + c.rat ∧ (fmaV m a b c).2 = 0) ∧
    (∀ a, FVal.isFin a = true → (negV a).rat = -a.rat) ∧
    (∀ a b, FVal.isFin a = true → FVal.isFin b = true → ltV a b = decide (a.rat < b.rat))
  ) ∧
  (
    (∀ (t : FTy) (m : Rnd) (x : Nat), x < 2 ^ t.width → (fDecode t x).isNan = false →
      deliver t m false (fDecode t x) 0 = (x, 0)) ∧
    (∀ (t : FTy) (m : Rnd) (v : FVal), v.isFin = true → v.rat ≠ 0 → Delivered t m v.rat (deliver t m false v 0)) ∧
    (∀ (t : FTy) (m : Rnd) (v : FVal), v.isFin = true →
      let r := deliver t m false v 0
      deliver t m true v 0 = if fSubnormal t r.1 then (fZero t (r.1 / signWeight t == 1), flUF ||| flNX) else r)
  ) ∧
  (
    (∀ (t : FTy) m ftz a b, ((fDecode t a).isNan || (fDecode t b).isNan) = true →
      fAdd t m ftz a b = (fNaN t, if (fDecode t a).isSig || (fDecode t b).isSig then flNV else 0) ∧
      fSub t m ftz a b = (fNaN t, if (fDecode t a).isSig || (fDecode t b).isSig then flNV else 0) ∧
      fMul t m ftz a b = (fNaN t, if (fDecode t a).isSig || (fDecode t b).isSig then flNV else 0)) ∧
    (∀ (t : FTy) m ftz n, fAdd t m ftz (fInf t n) (fInf t !n) = (fNaN t, flNV)) ∧
    (∀ (t : FTy) m ftz n n', fMul t m ftz (fInf t n) (fZero t n') = (fNaN t, flNV)) ∧
    (∀ (t : FTy) m a b, (fDecode t a).isFin = true → (fDecode t b).isFin = true →
      ((fDecode t a).rat + (fDecode t b).rat ≠ 0 → Delivered t m ((fDecode t a).rat + (fDecode t b).rat) (fAdd t m false a b)) ∧
      ((fDecode t a).rat - (fDecode t b).rat ≠ 0 → Delivered t m ((fDecode t a).rat - (fDecode t b).rat) (fSub t m false a b)) ∧
      ((fDecode t a).rat * (fDecode t b).rat ≠ 0 → Delivered t m ((fDecode t a).rat * (fDecode t b).rat) (fMul t m false a b)) ∧
      (∀ c, (fDecode t c).isFin = true → (fDecode t a).rat * (fDecode t b).rat + (fDecode t c).rat ≠ 0 →
        Delivered t m ((fDecode t a).rat * (fDecode t b).rat + (fDecode t c).rat) (fFma t m false a b c))) ∧
    (∀ (t : FTy) m a, a < signWeight t → (fDecode t a).isFin = true → (fDecode t a).rat ≠ 0 →
      fSub t m false a a = (fZero t (m == .rd), 0)) ∧
    (∀ (t : FTy) m a b, a < 2 ^ t.width → b < 2 ^ t.width → (fDecode t a).isFin = true → (fDecode t b).isFin = true →
      (fDecode t a).rat * (fDecode t b).rat = 0 →
      fMul t m false a b = (fZero t (decide (signWeight t ≤ a) != decide (signWeight t ≤ b)), 0))
  )

/-- R168 to R170: the lane floating-point instructions, with their flags. R169: the special inputs of the unary forms; 1 / a, the square
root of a and its reciprocal are the exact numbers rounded once. R170: FMIN
and FMAX choose a number without rounding, -0 below +0, and the other input beside a NaN. R164, R165: FCMP compares as numbers, a
NaN operand being unordered; FCLASS tests the mask's bit of the value's class. The exact values of FEXP2 and FLOG2 are those of log 26. -/
def Obligations.FloatingInstructions : Prop :=
  (
    (∀ o, LaneStep (.fadd o) o.w 8 o.g (fun c n th =>
      let r := fAdd o.t o.m o.ftz (c.lane n 1 th o.t.width o.va.toNat) (c.lane n 2 th o.t.width o.vb.toNat)
      (fltDest o.t th o.vd.toNat r.1, r.2))) ∧
    (∀ o, LaneStep (.fsub o) o.w 8 o.g (fun c n th =>
      let r := fSub o.t o.m o.ftz (c.lane n 1 th o.t.width o.va.toNat) (c.lane n 2 th o.t.width o.vb.toNat)
      (fltDest o.t th o.vd.toNat r.1, r.2))) ∧
    (∀ o, LaneStep (.fmul o) o.w 8 o.g (fun c n th =>
      let r := fMul o.t o.m o.ftz (c.lane n 1 th o.t.width o.va.toNat) (c.lane n 2 th o.t.width o.vb.toNat)
      (fltDest o.t th o.vd.toNat r.1, r.2))) ∧
    (∀ o, LaneStep (.ffma o) o.w 8 o.g (fun c n th =>
      let r := fFma o.t o.m o.ftz (c.lane n 1 th o.t.width o.va.toNat) (c.lane n 2 th o.t.width o.vb.toNat)
        (c.lane n 3 th o.t.width o.vc.toNat)
      (fltDest o.t th o.vd.toNat r.1, r.2))) ∧
    (∀ o, LaneStep (.fmin o) o.w 8 o.g (fun c n th =>
      let r := fSelect false o.t o.ftz (c.lane n 1 th o.t.width o.va.toNat) (c.lane n 2 th o.t.width o.vb.toNat)
      (fltDest o.t th o.vd.toNat r.1, r.2))) ∧
    (∀ o, LaneStep (.fmax o) o.w 8 o.g (fun c n th =>
      let r := fSelect true o.t o.ftz (c.lane n 1 th o.t.width o.va.toNat) (c.lane n 2 th o.t.width o.vb.toNat)
      (fltDest o.t th o.vd.toNat r.1, r.2))) ∧
    (∀ mk f, (mk, f) ∈ [(Instr.frcp, FUn.rcp), (.fsqrt, .sqrt), (.frsq, .rsq), (.fexp2, .exp2), (.flog2, .log2)] →
      ∀ o, LaneStep (mk o) o.w 8 o.g (fun c n th =>
        let r := fUnary f o.t o.m o.ftz (c.lane n 1 th o.t.width o.va.toNat)
        (fltDest o.t th o.vd.toNat r.1, r.2)))
  ) ∧
  (
    (∀ (t : FTy) m ftz,
      (∀ n, fUnary .rcp t m ftz (fInf t n) = (fZero t n, 0) ∧ fUnary .rcp t m ftz (fZero t n) = (fInf t n, flDZ) ∧
        fUnary .sqrt t m ftz (fZero t n) = (fZero t n, 0) ∧ fUnary .rsq t m ftz (fZero t n) = (fInf t n, flDZ) ∧
        fUnary .exp2 t m ftz (fZero t n) = (fBias t * 2 ^ fracBits t, 0) ∧ fUnary .log2 t m ftz (fZero t n) = (fInf t true, flDZ)) ∧
      (∀ f ∈ [FUn.sqrt, .rsq, .log2], fUnary f t m ftz (fInf t true) = (fNaN t, flNV)) ∧
      (∀ f ∈ [FUn.sqrt, .exp2, .log2], fUnary f t m ftz (fInf t false) = (fInf t false, 0)) ∧
      fUnary .rsq t m ftz (fInf t false) = (fZero t false, 0) ∧ fUnary .exp2 t m ftz (fInf t true) = (fZero t false, 0) ∧
      fUnary .log2 t m ftz (fBias t * 2 ^ fracBits t) = (fZero t false, 0) ∧
      (∀ f a, (fDecode t a).isNan = true → fUnary f t m ftz a = (fNaN t, if (fDecode t a).isSig then flNV else 0))) ∧
    (∀ (t : FTy) m a, (fDecode t a).isFin = true → (fDecode t a).rat < 0 →
      ∀ f ∈ [FUn.sqrt, .rsq, .log2], fUnary f t m false a = (fNaN t, flNV)) ∧
    (∀ (t : FTy) m a, (fDecode t a).isFin = true →
      ((fDecode t a).rat ≠ 0 → Delivered t m (1 / (fDecode t a).rat) (fUnary .rcp t m false a)) ∧
      (0 < (fDecode t a).rat → DeliveredRoot t m (fDecode t a).rat (fUnary .sqrt t m false a) ∧
        DeliveredRoot t m (1 / (fDecode t a).rat) (fUnary .rsq t m false a))) ∧
    (∀ f (t : FTy) m a, let v := fUnary f t m false (fFlush true t a)
      fUnary f t m true a = if fSubnormal t v.1 then (fZero t (v.1 / signWeight t == 1), v.2 ||| flUF ||| flNX) else v)
  ) ∧
  (
    (∀ (t : FTy) mx a b, fSelect mx t true a b = fSelect mx t false (fFlush true t (a % 2 ^ t.width)) (fFlush true t (b % 2 ^ t.width))) ∧
    (∀ (t : FTy) a b, a < 2 ^ t.width → b < 2 ^ t.width →
      ((fDecode t a).isFin = true → (fDecode t b).isFin = true →
        (selectsLess t a b → fSelect false t false a b = (a, 0) ∧ fSelect true t false a b = (b, 0) ∨ a = b) ∧
        (selectsLess t b a → fSelect false t false a b = (b, 0) ∧ fSelect true t false a b = (a, 0) ∨ a = b) ∧
        (a = b → ∀ mx, fSelect mx t false a b = (a, 0))) ∧
      ((fDecode t a).isNan = false →
        fSelect false t false a (fInf t true) = (fInf t true, 0) ∧ fSelect true t false a (fInf t false) = (fInf t false, 0) ∧
        fSelect false t false a (fInf t false) = (a, 0) ∧ fSelect true t false a (fInf t true) = (a, 0) ∧
        fSelect false t false (fInf t true) a = (fInf t true, 0) ∧ fSelect true t false (fInf t false) a = (fInf t false, 0) ∧
        fSelect false t false (fInf t false) a = (a, 0) ∧ fSelect true t false (fInf t true) a = (a, 0)) ∧
      (∀ mx, (fDecode t a).isNan = true → fSelect mx t false a b
        = (if (fDecode t b).isNan then fNaN t else b, if (fDecode t a).isSig || (fDecode t b).isSig then flNV else 0)) ∧
      (∀ mx, (fDecode t a).isNan = false → (fDecode t b).isNan = true → fSelect mx t false a b
        = (a, if (fDecode t b).isSig then flNV else 0)))
  ) ∧
  (
    (∀ (t : FTy) x, x < 2 ^ t.width → fClassBit t x = match fDecode t x with
      | .nan sig => if sig then 8 else 9
      | .inf neg => if neg then 0 else 7
      | .fin neg _ _ => if (fDecode t x).rat = 0 then (if neg then 3 else 4)
          else if |(fDecode t x).rat| < (2 : ℚ) ^ (1 - (fBias t : Int)) then (if neg then 2 else 5) else if neg then 1 else 6) ∧
    (∀ o, LaneStep (.fcmp o) o.w 8 o.g (fun c n th =>
      let r := fCompare o.c o.t o.ftz (c.lane n 1 th o.t.width o.va.toNat) (c.lane n 2 th o.t.width o.vb.toNat)
      (predDest th o.qd.toNat r.1, r.2))) ∧
    (∀ o, LaneStep (.fclass o) o.w 8 o.g (fun c n th =>
      (predDest th o.qd.toNat (o.mask.getLsbD (fClassBit o.t (c.lane n 1 th o.t.width o.va.toNat))), 0))) ∧
    (∀ (t : FTy) a b, (fDecode t a).isFin = true → (fDecode t b).isFin = true →
      (fCompare .eq t false a b) = (decide ((fDecode t a).rat = (fDecode t b).rat), 0) ∧
      (fCompare .lt t false a b) = (decide ((fDecode t a).rat < (fDecode t b).rat), 0) ∧
      (fCompare .le t false a b) = (decide ((fDecode t a).rat ≤ (fDecode t b).rat), 0) ∧
      (fCompare .un t false a b) = (false, 0)) ∧
    (∀ (t : FTy) ftz a b, ((fDecode t a).isNan || (fDecode t b).isNan) = true →
      (fCompare .un t ftz a b).1 = true ∧ (fCompare .ord t ftz a b).1 = false ∧ (fCompare .eq t ftz a b).1 = false ∧
      (fCompare .ne t ftz a b).1 = true ∧ (fCompare .lt t ftz a b).1 = false ∧ (fCompare .geu t ftz a b).1 = true)
  )

/-- R172 to R175: conversions, packing and unpacking. R134: an integer or a finite value is rounded once, with the flags of R133;
a conversion to an integer rounds in the mode and clamps with NV. R140, R141: a block takes its exponents from its largest value,
and each element the nearer of the two scales, with the flags of what it met. R137: elements lie packed, the first lowest. -/
def Obligations.Conversions : Prop :=
  (∀ o, LaneStep (.cvt o) o.w 8 o.g (cvtThread o)) ∧
  (∀ (o : CvtOp) (c : Cx) n th p, o.kind = .one p →
    let r := cvtResult p (c.lane n 1 th (cvtSrcWidth p) o.va.toNat)
    cvtThread o c n th = (match p with
      | .intInt _ d _ _ | .fltInt _ d _ _ => intDest d th o.vd.toNat r.1
      | .intFlt _ d _ _ | .fltFlt _ d _ _ => fltDest d th o.vd.toNat r.1, r.2)) ∧
  (∀ (o : CvtOp) (c : Cx) n th sd d vc, o.kind = .quant sd d vc →
    let w := (BSide.fty sd).width
    let r := quantise d ((List.range 32).map (fun i => fDecode (BSide.fty sd) (((c.v n 1 th (o.va.toNat + i / (32 / w))) >>> (w * (i % (32 / w)))).setWidth w).toNat))
    ∃ out, cvtThread o c n th = (out ++ wordDest th vc.toNat (BitVec.ofNat 32 (r.2.1 + 256 * r.2.2.1)), quantFlags r.2.2.2) ∧
      Packs (bBits d) th o.vd.toNat r.1 out) ∧
  (∀ (o : CvtOp) (c : Cx) n th b d m vc, o.kind = .dequant b d m vc →
    let w := bBits b
    let e := c.v n 3 th vc.toNat
    let x (i : Nat) : Nat × Fl := deliver (BSide.fty d) m false (blockVal b (e.setWidth 8).toNat ((e >>> 8).setWidth 8).toNat
      (((c.v n 1 th (o.va.toNat + i / (32 / w))) >>> (w * (i % (32 / w)))).setWidth w).toNat) 0
    ∃ out fl, cvtThread o c n th = (out, fl) ∧ Packs (BSide.fty d).width th o.vd.toNat ((List.range 32).map (fun i => (x i).1)) out ∧
      ∀ j, fl.getLsbD j = true ↔ ∃ i < 32, (x i).2.getLsbD j = true) ∧
  (∀ s d m sat x, cvtResult (.intInt s d m sat) x = (patternOf d sat (number s x), 0)) ∧
  (∀ s d m ftz x, (number s x = 0 → cvtResult (.intFlt s d m ftz) x = (0, 0)) ∧
    (number s x ≠ 0 → Delivered d m (number s x) (cvtResult (.intFlt s d m ftz) x))) ∧
  (∀ (s d : FTy) m x, x < 2 ^ s.width → (fDecode s x).isFin = true →
    ((fDecode s x).rat ≠ 0 → Delivered d m (fDecode s x).rat (cvtResult (.fltFlt s d m false) x)) ∧
    ((fDecode s x).rat = 0 → cvtResult (.fltFlt s d m false) x = (fZero d (signWeight s ≤ x), 0))) ∧
  (∀ (s d : FTy) m n, cvtResult (.fltFlt s d m false) (fInf s n) = (fInf d n, 0)) ∧
  (∀ (s d : FTy) m x, cvtResult (.fltFlt s d m true) x = deliver d m true (fDecode s (fFlush true s x))
    (if (fDecode s (fFlush true s x)).isSig then flNV else 0)) ∧
  (∀ (s : FTy) (d : IntTy) m x n, (fDecode s x).isFin = true → TakesInt m (fDecode s x).rat n →
    cvtResult (.fltInt s d m false) x = if n < lowest d then ((BitVec.ofInt d.width (lowest d)).toNat, flNV)
      else if highest d < n then ((BitVec.ofInt d.width (highest d)).toNat, flNV)
      else ((BitVec.ofInt d.width n).toNat, if (n : ℚ) = (fDecode s x).rat then 0 else flNX)) ∧
  (∀ (s d) m x, cvtResult (.fltInt s d m true) x = cvtResult (.fltInt s d m false) (fFlush true s x)) ∧
  (∀ (t : BTy) (xs : List FVal),
    let r := quantise t xs
    let val (E m : Nat) : ℚ := m * (2 : ℚ) ^ ((E : Int) - 127 - bFrac t)
    (xs.any FVal.isNan = true → r.2.2.1 = 255) ∧ (xs.any FVal.isNan = false → r.2.2.1 = r.2.1 - bStep t) ∧
    ((∀ x ∈ xs, x.rat = 0 ∧ ∀ n, x ≠ .inf n) → r.2.1 = 0) ∧ ((∃ n, .inf n ∈ xs) → (∀ x ∈ xs, |x.rat| < (2 : ℚ) ^ (128 : Int)) → r.2.1 = 254) ∧
    (∀ k : Int, (∀ x ∈ xs, ∀ n, x ≠ .inf n) → (∃ x ∈ xs, (2 : ℚ) ^ k ≤ |x.rat|) → (∀ x ∈ xs, |x.rat| < (2 : ℚ) ^ (k + 1)) →
      (r.2.1 : Int) = max 0 (min (k + 127) 254)) ∧
    r.1.length = xs.length ∧
    (∀ (i : Nat) (x : FVal), xs[i]? = some x → ∃ sel sg m, r.1[i]? = some (blockElem t sel sg m) ∧ m ≤ bMax t ∧
      (x.isNan = true → sel = true ∧ sg = false ∧ m = 0) ∧ (∀ n, x = .inf n → sel = false ∧ sg = n ∧ m = bMax t) ∧
      (x.isFin = true →
        let a := |x.rat|
        let E := if sel then r.2.2.1 else r.2.1
        (∀ neg mm e, x = .fin neg mm e → sg = neg) ∧ (r.2.2.1 = 255 → sel = false) ∧
        (∀ m' ≤ bMax t, |a - val E m| ≤ |a - val r.2.1 m'| ∧ (|a - val E m'| = |a - val E m| → m' = m ∨ m % 2 = 0)) ∧
        (∀ m' ≤ bMax t, r.2.2.1 ≠ 255 → |a - val E m| ≤ |a - val r.2.2.1 m'|) ∧
        (sel = true → ∀ m' ≤ bMax t, |a - val E m| < |a - val r.2.1 m'|))) ∧
    ((∀ x ∈ xs, |x.rat| < (2 : ℚ) ^ (128 : Int)) →
      ((quantFlags r.2.2.2).getLsbD 4 = true ↔ .nan true ∈ xs) ∧ (quantFlags r.2.2.2).getLsbD 3 = false ∧
      ((quantFlags r.2.2.2).getLsbD 2 = true ↔ ∃ n, .inf n ∈ xs) ∧
      ((quantFlags r.2.2.2).getLsbD 1 = true ↔ ∃ (i : Nat) (x : FVal), xs[i]? = some x ∧ x.rat ≠ 0 ∧ r.1.getD i 0 % 2 ^ bMagBits t = 0) ∧
      ((quantFlags r.2.2.2).getLsbD 0 = true ↔ ∃ (i : Nat) (x : FVal), xs[i]? = some x ∧ x.isFin = true ∧
        (blockVal t r.2.1 r.2.2.1 (r.1.getD i 0)).rat ≠ x.rat))) ∧
  (∀ (s d : FTy) m ftz x, (fDecode s x).isNan = true →
    cvtResult (.fltFlt s d m ftz) x = (fNaN d, if (fDecode s x).isSig then flNV else 0)) ∧
  (∀ (s : FTy) (d : IntTy) m ftz x, (fDecode s x).isNan = true → cvtResult (.fltInt s d m ftz) x = (0, flNV)) ∧
  (∀ (s : FTy) (d : IntTy) m ftz n, cvtResult (.fltInt s d m ftz) (fInf s n)
    = ((BitVec.ofInt d.width (if n then lowest d else highest d)).toNat, flNV)) ∧
  (∀ o, LaneStep (.pack o) o.w 8 o.g (fun c n th => (wordDest th o.vd.toNat
    (BitVec.ofNat 32 (packWord o.t o.sat (c.v n 1 th o.va.toNat).toNat (c.v n 2 th o.vb.toNat).toNat)), 0))) ∧
  (∀ o, LaneStep (.unpk o) o.w 8 o.g (fun c n th => (wordDest th o.vd.toNat
    (BitVec.ofNat 32 (unpackWord o.t (if o.h then 1 else 0) (c.v n 1 th o.va.toNat).toNat)), 0))) ∧
  (∀ t, packBits t = 16 → ∀ a b : Word, packWord t false a.toNat b.toNat = (b.setWidth 16 ++ a.setWidth 16).toNat) ∧
  (∀ t sat (a b : Word) i, i < 32 / packBits t →
    let e := packBits t
    let y : BitVec (2 * e) := (if i < 16 / e then a else b).extractLsb' (2 * e * (i % (16 / e))) (2 * e)
    packWord t sat a.toNat b.toNat / 2 ^ (e * i) % 2 ^ e =
      if sat = false then y.toNat % 2 ^ e
      else if packSigned t then (BitVec.ofInt e (max (-(2 ^ (e - 1))) (min y.toInt (2 ^ (e - 1) - 1)))).toNat
      else min y.toNat (2 ^ e - 1)) ∧
  (∀ t h (a : Word) j, h < 2 → j < 16 / packBits t →
    let e := packBits t
    let y : BitVec e := a.extractLsb' (e * (h * (16 / e) + j)) e
    unpackWord t h a.toNat / 2 ^ (2 * e * j) % 2 ^ (2 * e) = if packSigned t then (y.signExtend (2 * e)).toNat else y.toNat) ∧
  (∀ t, packBits t = 16 → packSigned t = false → ∀ a : Word,
    unpackWord t 0 a.toNat = (a.setWidth 16).toNat ∧ unpackWord t 1 a.toNat = (a >>> 16).toNat)

/-! ### Across lanes (09) -/

/-- R180 to R186: SHFL, VOTE, RED and SCAN read every active thread before any destination is written; a thread whose source
is not active, or outside its segment, receives its own value. R182, R183: the source of each mode, and the result of each vote.
R186: RED and SCAN take the root and the prefixes of the tree of R146 and R147, or, with `.any`, some combination (R149). R185: a thread whose node is absent, as the first one of an
exclusive SCAN, receives the identity of the operation. R146, R185, R149: an integer sum over the fixed tree is the sum
of the leaves modulo 2^w, and so for the least and the greatest number; absent leaves leave no trace. -/
def Obligations.CrossLane : Prop :=
  (
    (∀ o, LaneStep (.shfl o) o.w 8 o.g (fun c n th =>
      let t : IntTy := if o.wide then .n64 else .n32
      let b := match o.b with | .reg v => (c.v n 2 th v.toNat).toNat | .imm i => i.toNat
      (intDest t th o.vd.toNat
        (c.lane n 1 (shflSource (c.active n o.g) o.mode (segSize c o.seg) th b) t.width o.va.toNat), 0))) ∧
    (∀ act m n th b, 0 < n → shflSource act m n th b ≠ th → shflSource act m n th b ∈ act ∧ shflSource act m n th b / n = th / n) ∧
    (∀ act n th b, 0 < n →
      (shflSource act .idx n th b = if th - th % n + b % n ∈ act then th - th % n + b % n else th) ∧
      (shflSource act .up n th b = if b ≤ th % n ∧ th - b ∈ act then th - b else th) ∧
      (shflSource act .down n th b = if th % n + b < n ∧ th + b ∈ act then th + b else th) ∧
      (shflSource act .xor n th b = if Nat.xor (th % n) (b % n) < n ∧ th - th % n + Nat.xor (th % n) (b % n) ∈ act
        then th - th % n + Nat.xor (th % n) (b % n) else th)) ∧
    (∀ o, LaneStep (.vote o) o.w 8 o.g (fun c n th =>
      (voteResult o.fn (segThreads (c.active n o.g) (segSize c o.seg) th) (segSize c o.seg) th (fun u => c.q n 1 u o.qa.toNat), 0))) ∧
    (∀ seg n th (q : Nat → Bool),
      (∀ vd, voteResult (.anyV vd) seg n th q = wordDest th vd.toNat (if ∃ u ∈ seg, q u = true then 1 else 0)) ∧
      (∀ vd, voteResult (.allV vd) seg n th q = wordDest th vd.toNat (if ∀ u ∈ seg, q u = true then 1 else 0)) ∧
      (∀ qd, voteResult (.anyQ qd) seg n th q = predDest th qd.toNat (decide (∃ u ∈ seg, q u = true))) ∧
      (∀ qd, voteResult (.allQ qd) seg n th q = predDest th qd.toNat (decide (∀ u ∈ seg, q u = true))) ∧
      (∀ vd, voteResult (.count vd) seg n th q = wordDest th vd.toNat (BitVec.ofNat 32 (seg.filter q).length)) ∧
      (∀ vd, 0 < n → seg.Nodup → (∀ u ∈ seg, u / n = th / n) → ∃ x : Word, voteResult (.ballot vd) seg n th q = wordDest th vd.toNat x ∧
        ∀ i < 32, (x.getLsbD i = true ↔ ∃ u ∈ seg, q u = true ∧ u % n = 32 * (th % n / 32) + i))) ∧
    (∀ act n th u, u ∈ segThreads act n th ↔ u ∈ act ∧ u / n = th / n) ∧
    (∀ (c : Cx), segSize c .win = c.gr.grant ∧ segSize c .quad = 4 ∧ segSize c .oct = 8) ∧
    (∀ (o : RedOp) c n act th,
      let leaf (u : Nat) : Option Node := if u ∈ act then some (c.lane n 1 u o.fn.width o.va.toNat, 0) else none
      let base := th / c.gr.grant * c.gr.grant
      (o.order = .fix → redNode o c n act th = treeNode o.fn leaf (Nat.log2 c.gr.size) 0) ∧
      (o.order = .win → redNode o c n act th = treeNode o.fn (fun j => leaf (base + j)) (Nat.log2 c.gr.grant) 0) ∧
      (o.order = .any → act ≠ [] → act.Nodup → (∀ u ∈ act, u < 2 ^ Nat.log2 c.gr.size) →
        ∃ r, redNode o c n act th = some r ∧ Combined o.fn (act.filterMap leaf) r)) ∧
    (∀ (o : ScanOp) c n act th,
      let leaf (u : Nat) : Option Node := if u ∈ act then some (c.lane n 1 u o.fn.width o.va.toNat, 0) else none
      let base := th / c.gr.grant * c.gr.grant
      let upTo := if o.ex then 0 else 1
      (o.order = .fix → scanNode o c n act th = treePrefix o.fn leaf (Nat.log2 c.gr.size) 0 (th + upTo) none) ∧
      (o.order = .win → scanNode o c n act th = treePrefix o.fn (fun j => leaf (base + j)) (Nat.log2 c.gr.grant) 0 (th % c.gr.grant + upTo) none) ∧
      (o.order = .any → redIsInt o.fn = true → scanNode o c n act th = treePrefix o.fn leaf (Nat.log2 c.gr.size) 0 (th + upTo) none) ∧
      (o.order = .any → redIsInt o.fn = false → act.filter (fun u => u < th + upTo) ≠ [] →
        ∃ r, scanNode o c n act th = some r ∧ Combined o.fn ((act.filter (fun u => u < th + upTo)).filterMap leaf) r)) ∧
    (∀ (o : ScanOp) c n act th, o.ex = true → th < 2 ^ Nat.log2 c.gr.size → th % c.gr.grant < 2 ^ Nat.log2 c.gr.grant →
      (∀ u ∈ act, u < th → o.order = .win ∧ u / c.gr.grant ≠ th / c.gr.grant) → scanNode o c n act th = none) ∧
    (∀ (f : RedFn) th vd (x : Node), redOut f th vd (some x) = match f with
      | .int t _ => (intDest t th vd x.1, 0)
      | .fadd t _ _ | .fmin t _ | .fmax t _ => (fltDest t th vd x.1, x.2)) ∧
    (∀ (f : RedFn) th vd, redOut f th vd none = redOut f th vd (some (redIdentity f, 0))) ∧
    (∀ (t : IntTy), redIdentity (.int t .add) = 0 ∧ redIdentity (.int t .or) = 0 ∧ redIdentity (.int t .xor) = 0 ∧
      redIdentity (.int t .and) = 2 ^ t.width - 1 ∧ redIdentity (.int t .min) = (BitVec.ofInt t.width (highest t)).toNat ∧
      redIdentity (.int t .max) = (BitVec.ofInt t.width (lowest t)).toNat) ∧
    (∀ (t : FTy) m z, redIdentity (.fadd t m z) = fZero t true ∧ redIdentity (.fmin t z) = fInf t false ∧ redIdentity (.fmax t z) = fInf t true) ∧
    (∀ o, LaneStep (.red o) o.w 8 o.g (fun c n th => redOut o.fn th o.vd.toNat (redNode o c n (c.active n o.g) th))) ∧
    (∀ o, LaneStep (.scan o) o.w 8 o.g (fun c n th => redOut o.fn th o.vd.toNat (scanNode o c n (c.active n o.g) th)))
  ) ∧
  (
    (∀ (t : IntTy) (x : Nat → Option Node) (l : Nat) (r : Node), treeNode (.int t .add) x l 0 = some r →
      r.1 % 2 ^ t.width = (((List.range (2 ^ l)).filterMap x).map (·.1)).sum % 2 ^ t.width) ∧
    (∀ (t : IntTy) (x : Nat → Option Node) (l : Nat) (r : Node), treeNode (.int t .max) x l 0 = some r →
      (∃ j < 2 ^ l, ∃ y, x j = some y ∧ y.1 = r.1) ∧ ∀ j < 2 ^ l, ∀ y, x j = some y → number t y.1 ≤ number t r.1) ∧
    (∀ (t : IntTy) (x : Nat → Option Node) (l : Nat) (r : Node), treeNode (.int t .min) x l 0 = some r →
      (∃ j < 2 ^ l, ∃ y, x j = some y ∧ y.1 = r.1) ∧ ∀ j < 2 ^ l, ∀ y, x j = some y → number t r.1 ≤ number t y.1) ∧
    (∀ (f : RedFn) (x : Nat → Option Node) (l j : Nat), treeNode f x l j = none ↔ ∀ i < 2 ^ l, x (2 ^ l * j + i) = none) ∧
    (∀ (t : IntTy) (x : Nat → Option Node) (l k : Nat) (r : Node), k < 2 ^ (l + 1) → treePrefix (.int t .add) x l 0 k none = some r →
      r.1 % 2 ^ t.width = (((List.range k).filterMap x).map (·.1)).sum % 2 ^ t.width) ∧
    (∀ (f : RedFn) (x : Nat → Option Node) (l : Nat), treePrefix f x l 0 (2 ^ l) none = treeNode f x l 0) ∧
    (∀ (f : RedFn) (x : Nat → Option Node) (l s k : Nat), k < 2 ^ l → 2 ^ l ∣ s →
      treePrefix f x l s (2 ^ l + k) none = treePrefix f x l (s + 2 ^ l) k (treeNode f x l (s / 2 ^ l))) ∧
    (∀ (t : FTy) (m : Rnd) z (a b : Node), combine (.fadd t m z) a b = ((fAdd t m z a.1 b.1).1, a.2 ||| b.2 ||| (fAdd t m z a.1 b.1).2) ∧
      combine (.fmin t z) a b = ((fSelect false t z a.1 b.1).1, a.2 ||| b.2 ||| (fSelect false t z a.1 b.1).2) ∧
      combine (.fmax t z) a b = ((fSelect true t z a.1 b.1).1, a.2 ||| b.2 ||| (fSelect true t z a.1 b.1).2))
  )

/-! ### Uniform arithmetic (09) -/

/-- R187, R188: IOP on two registers and on one, all 64-bit; shift counts modulo 64. R187, R188: IOPI and IOPW, whose second
operand is the sign-extended immediate. R190, R191: compares into a uniform predicate, and predicate functions. -/
def Obligations.UniformArithmetic : Prop :=
  (
    IopBin .iopIadd (fun a b => a + b) ∧ IopBin .iopIsub (fun a b => a - b) ∧ IopBin .iopImul (fun a b => a * b) ∧
    IopBin .iopIminI64 (fun a b => if a.sle b then a else b) ∧ IopBin .iopImaxI64 (fun a b => if a.sle b then b else a) ∧
    IopBin .iopIminN64 (fun a b => if a.ule b then a else b) ∧ IopBin .iopImaxN64 (fun a b => if a.ule b then b else a) ∧
    IopBin .iopAnd (fun a b => a &&& b) ∧ IopBin .iopOr (fun a b => a ||| b) ∧ IopBin .iopXor (fun a b => a ^^^ b) ∧
    IopBin .iopShl (fun a b => a <<< (b.toNat % 64)) ∧ IopBin .iopShr (fun a b => a >>> (b.toNat % 64)) ∧
    IopBin .iopSha (fun a b => a.sshiftRight (b.toNat % 64)) ∧
    IopUn .iopIabs (fun a => if a.slt 0 then -a else a) ∧ IopUn .iopMov (fun a => a) ∧
    IopUn .iopPopc (fun a => BitVec.ofNat 64 ((List.range 64).filter (fun i => a.getLsbD i)).length) ∧
    IopUn .iopClz (fun a => BitVec.ofNat 64 ((List.range 64).takeWhile (fun i => !a.getMsbD i)).length)
  ) ∧
  (
    IopImm .iopiIadd (fun a b => a + b) ∧ IopImm .iopiIsub (fun a b => a - b) ∧ IopImm .iopiImul (fun a b => a * b) ∧
    IopImm .iopiIminI64 (fun a b => if a.sle b then a else b) ∧ IopImm .iopiImaxI64 (fun a b => if a.sle b then b else a) ∧
    IopImm .iopiIminN64 (fun a b => if a.ule b then a else b) ∧ IopImm .iopiImaxN64 (fun a b => if a.ule b then b else a) ∧
    IopImm .iopiAnd (fun a b => a &&& b) ∧ IopImm .iopiOr (fun a b => a ||| b) ∧ IopImm .iopiXor (fun a b => a ^^^ b) ∧
    IopImm .iopiShl (fun a b => a <<< (b.toNat % 64)) ∧ IopImm .iopiShr (fun a b => a >>> (b.toNat % 64)) ∧
    IopImm .iopiSha (fun a b => a.sshiftRight (b.toNat % 64)) ∧
    (∀ o, UniStep (.iopiMovi o) o.w 4 none (fun _ => ([(.s o.sd.toNat, o.imm.signExtend 64)], 0))) ∧
    IopWide .iopwIadd (fun a b => a + b) ∧ IopWide .iopwIsub (fun a b => a - b) ∧ IopWide .iopwImul (fun a b => a * b) ∧
    IopWide .iopwIminI64 (fun a b => if a.sle b then a else b) ∧ IopWide .iopwImaxI64 (fun a b => if a.sle b then b else a) ∧
    IopWide .iopwIminN64 (fun a b => if a.ule b then a else b) ∧ IopWide .iopwImaxN64 (fun a b => if a.ule b then b else a) ∧
    IopWide .iopwAnd (fun a b => a &&& b) ∧ IopWide .iopwOr (fun a b => a ||| b) ∧ IopWide .iopwXor (fun a b => a ^^^ b) ∧
    IopWide .iopwShl (fun a b => a <<< (b.toNat % 64)) ∧ IopWide .iopwShr (fun a b => a >>> (b.toNat % 64)) ∧
    IopWide .iopwSha (fun a b => a.sshiftRight (b.toNat % 64)) ∧
    (∀ o, UniStep (.iopwMovi o) o.w 8 none (fun _ => ([(.s o.sd.toNat, o.imm.signExtend 64)], 0)))
  ) ∧
  (
    (∀ o, UniStep (.cmpkIcmp o) o.w 8 o.g (fun u =>
      let a := number o.t (u.s 0 o.sa.toNat).toNat
      let b := number o.t (u.s 1 o.sb.toNat).toNat
      ([(.k o.kd.toNat, if (match o.c with
        | .eq => decide (a = b) | .ne => decide (a ≠ b) | .lt => decide (a < b)
        | .le => decide (a ≤ b) | .gt => decide (b < a) | .ge => decide (b ≤ a)) then 1 else 0)], 0))) ∧
    (∀ o, UniStep (.cmpkFcmp o) o.w 8 o.g (fun u =>
      let r := fCompare o.c o.t o.ftz ((u.s 0 o.sa.toNat).setWidth o.t.width).toNat ((u.s 1 o.sb.toNat).setWidth o.t.width).toNat
      ([(.k o.kd.toNat, if r.1 then 1 else 0)], r.2))) ∧
    (∀ o, UniStep (.cmpkFclass o) o.w 8 o.g (fun u =>
      ([(.k o.kd.toNat, if o.mask.getLsbD (fClassBit o.t ((u.s 0 o.sa.toNat).setWidth o.t.width).toNat) then 1 else 0)], 0))) ∧
    (∀ o, UniStep (.prkQop o) o.w 4 none (fun u =>
      let a := u.k 0 o.ka.toNat
      let b := u.k 1 o.kb.toNat
      ([(.k o.kd.toNat, if (match o.fn with
        | .and => a && b | .or => a || b | .xor => a != b | .andn => a && !b | .orn => a || !b
        | .nand => !a || !b | .nor => !a && !b | .xnor => a == b) then 1 else 0)], 0))) ∧
    (∀ o, UniStep (.prkQset o) o.w 4 none (fun u =>
      ([(.k o.kd.toNat, if (match o.fn with | .clr => false | .set => true | .nz sa => u.s 0 sa.toNat != 0) then 1 else 0)], 0)))
  )

/-- R189: FOP acts on the low bits of its registers and zero-extends its result; an integer result of its CVT is extended by
its type (R126). The exact values of FEXP2 and FLOG2 are those of log 26. -/
def Obligations.UniformFloatingPoint : Prop :=
  (∀ mk f, (mk, f) ∈ [(Instr.fopFadd, fAdd), (.fopFsub, fSub), (.fopFmul, fMul)] → ∀ o : FopBin,
    UniStep (mk o) o.w 8 o.g (fun u => fopOut o.t o.sd
      (f o.t o.m o.ftz ((u.s 0 o.sa.toNat).setWidth o.t.width).toNat ((u.s 1 o.sb.toNat).setWidth o.t.width).toNat))) ∧
  (∀ o, UniStep (.fopFfma o) o.w 8 o.g (fun u => fopOut o.t o.sd
    (fFma o.t o.m o.ftz ((u.s 0 o.sa.toNat).setWidth o.t.width).toNat ((u.s 1 o.sb.toNat).setWidth o.t.width).toNat
      ((u.s 2 o.sc.toNat).setWidth o.t.width).toNat))) ∧
  (∀ mk mx, (mk, mx) ∈ [(Instr.fopFmin, false), (.fopFmax, true)] → ∀ o : FopSel,
    UniStep (mk o) o.w 8 o.g (fun u => fopOut o.t o.sd
      (fSelect mx o.t o.ftz ((u.s 0 o.sa.toNat).setWidth o.t.width).toNat ((u.s 1 o.sb.toNat).setWidth o.t.width).toNat))) ∧
  (∀ mk f, (mk, f) ∈ [(Instr.fopFrcp, FUn.rcp), (.fopFsqrt, .sqrt), (.fopFrsq, .rsq), (.fopFexp2, .exp2), (.fopFlog2, .log2)] →
    ∀ o : FopUn, UniStep (mk o) o.w 8 o.g (fun u => fopOut o.t o.sd
      (fUnary f o.t o.m o.ftz ((u.s 0 o.sa.toNat).setWidth o.t.width).toNat))) ∧
  (∀ o, UniStep (.fopCvt o) o.w 8 o.g (fun u =>
    let r := cvtResult o.p ((u.s 0 o.sa.toNat).setWidth (cvtSrcWidth o.p)).toNat
    ([(.s o.sd.toNat, match o.p with
      | .intInt _ d _ _ | .fltInt _ d _ _ => if d.signed then (BitVec.ofNat d.width r.1).signExtend 64 else (BitVec.ofNat d.width r.1).setWidth 64
      | .intFlt _ d _ _ | .fltFlt _ d _ _ => (BitVec.ofNat d.width r.1).setWidth 64)], r.2)))

/-! ### Memory (10 to 12) -/

/-- R242: LD and LDG; a recipe run that loads a word that is not frozen takes ACCESS (R345). R242, R30: ST and STG: the bytes of each active thread go to its address, the highest %tid last, and
nothing else. Accesses take place at issue (log 10); a load leaves copies as log 14 says. -/
def Obligations.LoadsAndStores : Prop :=
  (
    (∀ o, LoadStep (.ld o) o.w
      (fun d n => (d.active n o.g).map (fun th => { tid := th, va := d.addr n th (accSize o.t o.c) o.a, n := accSize o.t o.c, data := [] }))
      (fun a bs => loadOut o.t a.tid o.vt.toNat bs)) ∧
    (∀ o, LoadStep (.ldg o) o.w
      (fun d n => (d.active n o.g).map (fun th => { tid := th, va := d.gaddr n th (accSize o.t .x1) o.x, n := accSize o.t .x1, data := [] }))
      (fun a bs => loadOut o.t a.tid o.vt.toNat bs))
  ) ∧
  (
    (∀ o, StoreStep (.st o) o.w (fun d n => (d.active n o.g).map (fun th =>
      { tid := th, va := d.addr n th (accSize o.t o.c) o.a, n := accSize o.t o.c,
        data := d.storeData n th o.vt.toNat (accSize o.t o.c) }))) ∧
    (∀ o, StoreStep (.stg o) o.w (fun d n => (d.active n o.g).map (fun th =>
      { tid := th, va := d.gaddr n th (accSize o.t .x1) o.x, n := accSize o.t .x1,
        data := d.storeData n th o.vt.toNat (accSize o.t .x1) })))
  )

/-- R239, R306, R313, R314: LD and ST whose accesses fail their checks: MISALIGN and then ACCESS, exact, with the address and
the thread of the first access that fails; a page or a home that is not there parks the instruction in the operand log while
there is room, with one PAGE entry for each page that the group does not wait on yet and a monitor on the line of its table
entry, and the fragment goes on; with no room the instruction is tried again and has done nothing. Accesses take place at
issue (log 10); what TQADDR holds follows log 32. -/
def Obligations.AccessTraps : Prop :=
  ∀ mk u, (mk, u) ∈ [(Instr.ld, Use.load), (.st, .store)] → ∀ (o : MemOp) (s : State) (c : Cx), Issues s c → Ready s c (mk o) (laneMemInfo o.w) → c.gr.run = none →
    let d := c.begun o.w
    let n := accSize o.t o.c
    let accs : List Acc := (d.active s.free o.g).map (fun th => { tid := th, va := d.addr s.free th n o.a, n, data := if u = .store then d.storeData s.free th o.vt.toNat n else [] })
    let s0 := started s c o.w
    ∃ t, exec (mk o) s = .next t ∧
      (∀ a, accs.find? (fun a => a.va.toNat % a.n != 0) = some a → t = raiseFrag s0 d 3 a.va (BitVec.ofNat 64 a.tid) (some c.fr.pc)) ∧
      (∀ a s1, accs ≠ [] → checkAccs s0 d.who u accs = (.access a, s1) → t = raiseFrag s1 d 4 a.va (BitVec.ofNat 64 a.tid) (some c.fr.pc)) ∧
      (∀ pages dies s1, accs ≠ [] → checkAccs s0 d.who u accs = (.park pages dies, s1) → c.gr.log.length < 4 → logCount s c.gr.place < 64 →
        let first := pages.filter (fun p => !c.gr.pages.any (samePage p.1))
        let posted := first.foldl (fun x p => post x (c.gr.place / 128) { ctx := c.gr.ctx, kind := 1, access := if u = .store then 1 else 0, addr := p.1, originKind := 0, origin := groupOrigin c.gr, time := x.time }) s1
        (∃ e, e.req.accs = accs ∧ e.frag = c.f ∧ e.heirs = [] ∧ e.mask = c.fr.mask ∧ e.ipc = c.fr.pc ∧ e.pages = pages.map (·.1) ∧ e.dies = dies ∧
          Becomes { posted with monitors := t.monitors, nextId := t.nextId } t c.g { d.gr with log := c.gr.log ++ [e], frags := fragsAt s c (c.fr.pc + 8) }) ∧
        ∀ p ∈ pages, { line := p.2 / 256, waiter := .group c.g, woken := false } ∈ t.monitors) ∧
      (∀ pages dies s1, accs ≠ [] → checkAccs s0 d.who u accs = (.park pages dies, s1) → 4 ≤ c.gr.log.length ∨ 64 ≤ logCount s c.gr.place →
        Becomes s t c.g { d.gr with frags := (fragsAt s c c.fr.pc).map (fun x => if x.id = c.f then { x with wait := .retry, since := if c.fr.wait = .run then clk s else c.fr.since } else x) })

/-- R245, R201, R45: LDA, LDL, STA and STL in the block's own AB and LS windows, and in the pooled LS window of its gang. -/
def Obligations.WindowAccesses : Prop :=
  (∀ o, CoreLoadStep (.lda o) o.w
    (fun d n => (d.active n o.g).map (fun th => { tid := th, va := d.addr n th (accSize o.t o.c) o.a, n := accSize o.t o.c, data := [] }))
    (fun s d => winInside s d.gr.block .ab) (fun s d a => winRead s d.gr.block .ab a.va.toNat a.n)
    (fun a bs => loadOut o.t a.tid o.vt.toNat bs)) ∧
  (∀ o, CoreLoadStep (.ldl o) o.w
    (fun d n => (d.active n o.g).map (fun th => { tid := th, va := d.addr n th (accSize o.t o.c) o.a, n := accSize o.t o.c, data := [] }))
    (fun s d => lsInside s d.gr.block o.pool)
    (fun s d a => winRead s (lsPlace s d.gr.block o.pool a).1 .ls (lsPlace s d.gr.block o.pool a).2 a.n)
    (fun a bs => loadOut o.t a.tid o.vt.toNat bs)) ∧
  (∀ o, CoreStoreStep (.sta o) o.w .ab (fun d n => (d.active n o.g).map (fun th =>
    { tid := th, va := d.addr n th (accSize o.t o.c) o.a, n := accSize o.t o.c, data := d.storeData n th o.vt.toNat (accSize o.t o.c) }))
    (fun s d => winInside s d.gr.block .ab) (fun _ d a => (d.gr.block, a.va.toNat))) ∧
  (∀ o, CoreStoreStep (.stl o) o.w .ls (fun d n => (d.active n o.g).map (fun th =>
    { tid := th, va := d.addr n th (accSize o.t o.c) o.a, n := accSize o.t o.c, data := d.storeData n th o.vt.toNat (accSize o.t o.c) }))
    (fun s d => lsInside s d.gr.block o.pool) (fun s d a => lsPlace s d.gr.block o.pool a))

/-- R243: what an atomic puts in place of the old number, by bit-vector arithmetic; floating sums round to nearest, ties to
even. R243, R30, R226: ATOM whose accesses pass their checks and meet no race acts on one thread's address after another, in
some order where threads share a word. Where none do, each thread receives the old number at its address, and the result of
the operation is stored there. Near or far, and the order of threads that share a word, are free (log 2). -/
def Obligations.Atomics : Prop :=
  (
    (∀ (ty : AtomTy) (cmp d old : Nat), d < 2 ^ (AtomTy.intTy ty).width → old < 2 ^ (AtomTy.intTy ty).width →
      let w := (AtomTy.intTy ty).width
      let a := number (AtomTy.intTy ty) old
      let b := number (AtomTy.intTy ty) d
      atomNew (.int .add ty) cmp d old = (BitVec.ofNat w old + BitVec.ofNat w d).toNat ∧
      number (AtomTy.intTy ty) (atomNew (.int .min ty) cmp d old) = min a b ∧
      number (AtomTy.intTy ty) (atomNew (.int .max ty) cmp d old) = max a b ∧
      atomNew (.int .and ty) cmp d old = (BitVec.ofNat w old &&& BitVec.ofNat w d).toNat ∧
      atomNew (.int .or ty) cmp d old = (BitVec.ofNat w old ||| BitVec.ofNat w d).toNat ∧
      atomNew (.int .xor ty) cmp d old = (BitVec.ofNat w old ^^^ BitVec.ofNat w d).toNat ∧
      atomNew (.int .exch ty) cmp d old = d ∧
      atomNew (.int .cas ty) cmp d old = if old = cmp then d else old) ∧
    (∀ cmp d old, atomNew .fadd32 cmp d old = (fAdd .f32 .rn false old d).1 ∧ atomNew .fadd64 cmp d old = (fAdd .f64 .rn false old d).1)
  ) ∧
  (
    ∀ (o : AtomOp) (s : State) (c : Cx), Issues s c →
      Ready s c (.atom o) { cls := .lane, w := o.w, touch := true, fence := false, rel := o.rel && scopeOrders o.scope } →
      let d := c.begun o.w
      let n := atomBytes o.kind
      let accs : List Acc := (d.active s.free o.g).map (fun th =>
        { tid := th, va := d.addr s.free th n o.a, n, data := d.atomData s.free th o.vt.toNat o.kind })
      let dest (th x : Nat) : List (RegKey × DWord) := intDest (if n = 8 then .n64 else .n32) th o.vt.toNat x
      (accs = [] → ∃ t gr, exec (.atom o) s = .next t ∧ RegStep s d t [] [] (c.fr.pc + 8) gr) ∧
      ∀ l s1, accs ≠ [] → checkAccs (started s c o.w) d.who .atomic accs = (.ok l, s1) →
        (∀ p ∈ l, raceWords s d.who.agent p.1.va (p.2.1 / 4) (wordCount n) = none) →
        ∃ t gr out, exec (.atom o) s = .next t ∧
          RegStep { s with xlat := t.xlat, asids := t.asids, copies := t.copies, mem := t.mem, tags := t.tags, reg := t.reg, monitors := t.monitors, hostLines := t.hostLines, blocks := s.blocks.modify c.gr.block (fun b => { b with clean := false }) }
            d t out [] (c.fr.pc + 8) gr ∧
          (∃ l', l'.Perm l ∧ let r := atomAccs (relBefore o.rel o.scope (.frag d) ((Actor.frag d).dirty s1)) d.who o.kind l'
            out = r.1.flatMap (fun p => dest p.1 p.2) ∧ ∀ key a, readByte t key a = readByte r.2.2 key a) ∧
          (sharesWord l = false → (∀ p ∈ l, ∀ q ∈ l, p.2.1 / 64 = q.2.1 / 64 → p.2.2 = q.2.2) →
            let old (p : Acc × Nat × Nat) : Nat := leNat (readBytes s p.2.2 p.2.1 n)
            out = l.flatMap (fun p => dest p.1.tid (old p)) ∧
            Stored s t (l.map (fun p => ({ p.1 with data := leBytes n (atomNew o.kind (leNat (p.1.data.drop n)) (leNat (p.1.data.take n)) (old p)) }, p.2))))
  )

/-- R246, R57, R30: SLD and SST complete where their access passes its checks and meets no race, on both kinds of core; SLD of a word
that is not frozen is ACCESS in a recipe run (R345). R247,
R350 to R352: so do SATOM, CDEC and CINC, where their guard holds: the old number to sd, the new one to memory; a decrement
below 0 leaves 0 and posts COUNTER_UNDER, an increment stops at the greatest number. Where the guard fails only the pc moves.
Accesses take place at issue (log 10). -/
def Obligations.UniformMemory : Prop :=
  (
    (∀ (o : SldOp) (s : State) (p : Actor), p.issuesIn s → p.readyFor s (.sld o) (uniMemInfo o.w false) →
      let a := p.begun o.w
      let n := sldSize o.sz
      let acc : Acc := { tid := a.lowTid, va := a.getS s.free 0 o.sb.toNat + BitVec.ofInt 64 (o.off.toInt * n), n, data := [] }
      (∀ l s1 x, a.mayLoad s acc → checkAccs (p.startedIn s o.w) a.who .load [acc] = (.ok l, s1) → a.barred s1 l = some x →
        exec (.sld o) s = .next (a.raise s1 4 acc.va a.low)) ∧
      ∀ l s1, a.mayLoad s acc → checkAccs (p.startedIn s o.w) a.who .load [acc] = (.ok l, s1) → a.barred s1 l = none → (loadAccs s1 a.who l).2.1 = none →
        let x := leNat ((loadAccs s1 a.who l).1.flatMap (·.2))
        ∃ t, exec (.sld o) s = .next t ∧ SameButLines s t ∧
          a.RegStep { s with xlat := t.xlat, asids := t.asids, copies := t.copies, reg := t.reg } t [(.s o.st.toNat, match o.sz with
            | .i8 => (BitVec.ofNat 8 x).signExtend 64 | .i16 => (BitVec.ofNat 16 x).signExtend 64
            | .i32 => (BitVec.ofNat 32 x).signExtend 64 | .n8 | .n16 | .n32 | .d64 => BitVec.ofNat 64 x)] (a.pcOf + 4)) ∧
    (∀ (o : SstOp) (s : State) (p : Actor), p.issuesIn s → p.readyFor s (.sst o) (uniMemInfo o.w false) →
      let a := p.begun o.w
      let n := sstSize o.sz
      let acc : Acc := { tid := a.lowTid, va := a.getS s.free 0 o.sb.toNat + BitVec.ofInt 64 (o.off.toInt * n), n, data := leBytes n (a.getS s.free 1 o.st.toNat).toNat }
      ∀ l s1, checkAccs (p.startedIn s o.w) a.who .store [acc] = (.ok l, s1) → (storeAccs s1 a.who l).1 = none →
        ∃ t, exec (.sst o) s = .next t ∧ Stored s t l ∧
          a.RegStep { s with xlat := t.xlat, asids := t.asids, copies := t.copies, mem := t.mem, tags := t.tags, reg := t.reg, monitors := t.monitors, hostLines := t.hostLines, poison := t.poison, blocks := (a.dirty s).blocks }
            t [] (a.pcOf + 4))
  ) ∧
  (
    (∀ (o : SatomOp) (s : State) (p : Actor), let x := uniMemInfo o.w (o.rel && scopeOrders o.scope)
      p.issuesIn s → p.readyFor s (.satom o) x → (p.begun o.w).guardHolds s.free o.g = true →
      let a := p.begun o.w
      let n := atomBytes o.kind
      let va := a.getS s.free 0 o.sa.toNat + BitVec.ofInt 64 (o.disp.toInt * n)
      let acc : Acc := { tid := a.lowTid, va, n, data := leBytes n (a.getS s.free 1 o.sb.toNat).toNat ++ leBytes n (a.getS s.free 2 o.sd.toNat).toNat }
      ∀ pa key s1, checkAccs (p.startedIn s o.w) a.who .atomic [acc] = (.ok [(acc, pa, key)], s1) → raceWords s a.who.agent va (pa / 4) (wordCount n) = none →
        let old := leNat (readBytes s key pa n)
        let new := atomNew o.kind ((a.getS s.free 2 o.sd.toNat).toNat % 2 ^ (8 * n)) ((a.getS s.free 1 o.sb.toNat).toNat % 2 ^ (8 * n)) old
        ∃ t, exec (.satom o) s = .next t ∧ Stored s t [({ acc with data := leBytes n new }, pa, key)] ∧
          a.RegStep { s with xlat := t.xlat, asids := t.asids, copies := t.copies, mem := t.mem, tags := t.tags, reg := t.reg, monitors := t.monitors, hostLines := t.hostLines, bars := t.bars, blocks := (a.dirty s).blocks }
            t [(.s o.sd.toNat, match o.kind with
              | .int _ ty => if (AtomTy.intTy ty).signed then (BitVec.ofNat (AtomTy.intTy ty).width old).signExtend 64 else BitVec.ofNat 64 old
              | .fadd32 | .fadd64 => BitVec.ofNat 64 old)] (a.pcOf + 8)) ∧
    (∀ o : SatomOp, GuardFails (.satom o) (uniMemInfo o.w (o.rel && scopeOrders o.scope)) o.g 8) ∧
    (∀ mk dec, (mk, dec) ∈ [(Instr.cdec, true), (.cinc, false)] → ∀ (o : CountOp) (s : State) (p : Actor),
      let x := uniMemInfo o.w (o.rel && scopeOrders o.scope)
      p.issuesIn s → p.readyFor s (mk o) x → (p.begun o.w).guardHolds s.free o.g = true →
      let a := p.begun o.w
      let acc : Acc := { tid := a.lowTid, va := a.getS s.free 0 o.sa.toNat, n := 8, data := [] }
      let amount := a.getS s.free 1 o.sb.toNat
      ∀ pa key s1, checkAccs (p.startedIn s o.w) a.who .atomic [acc] = (.ok [(acc, pa, key)], s1) → raceWords s a.who.agent acc.va (pa / 4) 2 = none →
        let old := leNat (readBytes s key pa 8)
        let new := if dec then (if old < amount.toNat then 0 else old - amount.toNat) else min (old + amount.toNat) (2 ^ 64 - 1)
        ∃ t s2, exec (mk o) s = .next t ∧ Stored s s2 [({ acc with data := leBytes 8 new }, pa, key)] ∧
          s2 = { p.startedIn s o.w with xlat := s2.xlat, asids := s2.asids, copies := s2.copies, mem := s2.mem, tags := s2.tags, reg := s2.reg, monitors := s2.monitors, hostLines := s2.hostLines, bars := s2.bars, blocks := (a.dirty s).blocks } ∧
          a.RegStep (if dec = true ∧ old < amount.toNat then postUnder s2 a acc.va else s2) t [(.s o.sd.toNat, BitVec.ofNat 64 old)] (a.pcOf + 8)) ∧
    (∀ mk, mk ∈ [Instr.cdec, .cinc] → ∀ o : CountOp, GuardFails (mk o) (uniMemInfo o.w (o.rel && scopeOrders o.scope)) o.g 8)
  )

/-- R252, R253, R220, R221: REL hands over the agent's words, ACQ drops the copies of its place in the regions of its mask, or
all of them; a control core's copy under another address or context of a covered word is no longer hit under a covered one.
Where the home of a region's entry is offline ACQ waits (R236, R332). A release completes at issue (log 10). -/
def Obligations.ReleaseAndAcquire : Prop :=
  (∀ o : ScopeOp, OnActor (.rel o) (fenceInfo (scopeOrders o.scope)) none (fun s _ a t =>
    (scopeOrders o.scope = true → Released s t a.who.agent) ∧ (scopeOrders o.scope = false → t.reg = s.reg) ∧
    a.RegStep { s with reg := t.reg, monitors := t.monitors, bars := t.bars } t [] (a.pcOf + 4))) ∧
  (∀ o : AcqOp, OnActor (.acq o) (fenceInfo false) none (fun s s0 a t =>
    let ranges := maskRanges s0 a.who.ctx a.who.agent o.mask
    let waits := maskDies s0 a.who.ctx a.who.agent o.mask
    (waits = [] → a.RegStep { s with copies := t.copies } t [] (a.pcOf + 4) ∧
      (scopeDrops o.scope = false → t.copies = s.copies) ∧
      (scopeDrops o.scope = true →
        (∀ k ∈ s.copies, k.site ≠ a.who.site → k ∈ t.copies) ∧
        (∀ k ∈ t.copies, k ∈ s.copies ∨ (∃ k' ∈ s.copies, ∃ l, k = { k' with barred := l }) ∧ k.site = a.who.site) ∧
        (∀ k ∈ t.copies, k.site = a.who.site → ¬ (k.asid = a.who.ctx.asid ∧ inRanges ranges k.va = true)) ∧
        (∀ k ∈ s.copies, k.site = a.who.site → ¬ (k.asid = a.who.ctx.asid ∧ inRanges ranges k.va = true) →
          ∃ k' ∈ t.copies, k' = { k with barred := k'.barred }))) ∧
    (waits ≠ [] → t.copies = s.copies ∧ a.waits t))) ∧
  (∀ (s : State) (cc : Nat) (c : Ctl) (o : AcqOp) (va : DWord) (w : Nat), IssuesCtl s cc c → (Instr.acq o).wf = true →
    scopeDrops o.scope = true → maskDies s c.ctx (.control cc) o.mask = [] → inRanges (maskRanges s c.ctx (.control cc) o.mask) va = true →
    ∃ t, exec (.acq o) s = .next t ∧ copyHit t (.ctl cc) c.ctx.asid va w = none) ∧
  (∀ o : ScopeOp, OnActor (.acqAll o) (fenceInfo false) none (fun s _ a t =>
    a.RegStep { s with copies := s.copies.filter (fun k => !(scopeDrops o.scope && k.site == a.who.site)) } t [] (a.pcOf + 4)))

/-- R255, R234: CLN makes released words of its range common, INV drops the copies at the issuer's place, CIV does both; only
words of the range, page by page where the page is present, on a die that is offline too. Beside registration and copies only
translations change; a walk whose table is on an offline die makes the instruction wait (R236). R254, R332: RGN stores base and
size into the region table; a range that breaks R332, or a table that is not there, is ACCESS, and an offline one makes it wait.
Only words of the range change (log 14). -/
def Obligations.MaintenanceAndRegions : Prop :=
  (
    ∀ mk cln inv, (mk, cln, inv) ∈ [(Instr.cln, true, false), (.inv, false, true), (.civ, true, true)] → ∀ o : MntOp,
      GuardFails (mk o) (uniMemInfo o.w false) o.g 8 ∧
      OnActor (mk o) (uniMemInfo o.w false) o.g (fun s s0 a t =>
        let base := a.getS s.free 0 o.sa.toNat
        let size := (a.getS s.free 1 o.sb.toNat).toNat
        (size = 0 → a.RegStep s t [] (a.pcOf + 8)) ∧
        (size ≠ 0 → oneHalf base.toNat size = false → t = a.raise s0 4 base a.low) ∧
        (∀ l dies s1, size ≠ 0 → oneHalf base.toNat size = true →
          maintRange s0 a.who base.toNat size 0 ((base.toNat % 4096 + size + 4095) / 4096) = (l, dies, s1) →
          let clean := cln && o.lvl != .l1
          (dies = [] → a.RegStep { s with xlat := t.xlat, asids := t.asids, reg := s.reg.filter (fun p => !(clean && inPieces l p.1 && (match p.2 with | .released _ _ => true | _ => false))), copies := s.copies.filter (fun k => !(inv && k.site == a.who.site && inPieces l k.word)) } t [] (a.pcOf + 8)) ∧
          (dies ≠ [] → t.reg = s.reg ∧ t.copies = s.copies ∧ a.waits t)))
  ) ∧
  (
    ∀ o : RgnOp, OnActor (.rgn o) (uniMemInfo o.w false) none (fun s s0 a t =>
      let base := a.getS s.free 0 o.sa.toNat
      let size := a.getS s.free 1 o.sb.toNat
      let pa := a.who.ctx.root.toNat + 0x1080 + 16 * o.idx.toNat
      let good := base.toNat % 256 = 0 ∧ size.toNat % 256 = 0 ∧ oneHalf base.toNat size.toNat = true
      (¬ good → t = a.raise s0 4 base a.low) ∧ (good → fixedAt s0 a.who.ctx pa = .gone → t = a.raise s0 4 base a.low) ∧
      (∀ d, good → fixedAt s0 a.who.ctx pa = .offline d → t.mem = s.mem ∧ t.reg = s.reg ∧ a.waits t) ∧
      (∀ key, good → fixedAt s0 a.who.ctx pa = .at key → farRace s a.who.agent (pa / 4) 4 = none →
        Stored s t [({ tid := 0, va := 0, n := 16, data := leBytes 8 base.toNat ++ leBytes 8 size.toNat }, pa, key)] ∧
        a.RegStep { s with copies := t.copies, mem := t.mem, tags := t.tags, reg := t.reg, monitors := t.monitors, hostLines := t.hostLines, blocks := (a.dirty s).blocks }
          t [] (a.pcOf + 4)))
  )

/-- R244, R231: PFT changes nothing but copies, translations and the lines of registered words (R208). R273, R274: LDG.row loads a row of 32 bytes of each active
thread into eight registers, and the exponents of its blocks. What PFT brings follows log 14, the exponent address of a row
log 29. -/
def Obligations.PrefetchAndRows : Prop :=
  (
    ∀ o : PftOp, OnFrag (.pft o) (laneMemInfo o.w) (fun s c t =>
      (∃ gr, RegStep { s with xlat := t.xlat, asids := t.asids, copies := t.copies, reg := t.reg } c t [] [] (c.fr.pc + 8) gr) ∧
      SameButLines s t ∧
      (c.active s.free o.g = [] → t.xlat = s.xlat ∧ t.asids = s.asids ∧ t.copies = s.copies ∧ t.reg = s.reg) ∧
      ∀ k ∈ t.copies, k.site = c.who.site ∨ k ∈ s.copies)
  ) ∧
  (
    ∀ (o : RowOp) (s : State) (c : Cx), Issues s c → Ready s c (.ldgRow o) (laneMemInfo o.w) →
      let d := c.begun o.w
      let row (th : Nat) : Acc := { tid := th, va := d.gaddr s.free th 32 o.x, n := 32, data := [] }
      let first (th : Nat) := d.st s.free 0 th o.x.sb.toNat
      let exps (q th : Nat) : List Acc := (List.range (32 / q)).map (fun i =>
        { tid := th, va := d.st s.free 6 th (o.x.sb.toNat + 1) + BitVec.ofInt 64 ((((row th).va.toNat : Int) - (first th).toNat) / q) + BitVec.ofNat 64 i, n := 1, data := [] })
      let accs := (d.active s.free o.g).flatMap (fun th => row th :: (match o.t with
        | .bq8 _ => exps 16 th | .bq4 _ => exps 8 th | .f64 | .f32 | .bf16 | .f16 | .i8 => []))
      (accs = [] → ∃ t gr, exec (.ldgRow o) s = .next t ∧ RegStep s d t [] [] (c.fr.pc + 8) gr) ∧
      ∀ l s1, accs ≠ [] → (∀ th ∈ d.active s.free o.g, (row th).va.toNat % 32 = 0 ∧ (match o.t with
          | .bq8 _ | .bq4 _ => ((row th).va - first th).toNat % 32 = 0
          | .f64 | .f32 | .bf16 | .f16 | .i8 => True)) →
        (∀ a ∈ accs, runMayLoad s c a = true) → checkAccs (started s c o.w) d.who .load accs = (.ok l, s1) →
        d.barred s1 l = none → (loadAccs s1 d.who l).2.1 = none →
        let bytes := (loadAccs s1 d.who l).1
        let exp (th : Nat) : DWord := BitVec.ofNat 64 (leNat ((bytes.filter (fun p => p.1.tid == th && p.1.n == 1)).flatMap (·.2)))
        ∃ t gr, exec (.ldgRow o) s = .next t ∧ SameButLines s t ∧ RegStep { s with xlat := t.xlat, asids := t.asids, copies := t.copies, reg := t.reg } d t
          (bytes.flatMap (fun p => if p.1.n = 32 then
            (List.range 8).map (fun i => (RegKey.v p.1.tid (o.vt.toNat + i), BitVec.ofNat 64 (leNat ((p.2.drop (4 * i)).take 4)))) ++
              (match o.t with | .bq8 vc | .bq4 vc => [(.v p.1.tid vc.toNat, exp p.1.tid)] | .f64 | .f32 | .bf16 | .f16 | .i8 => [])
            else [])) [] (c.fr.pc + 8) gr
  )

/-- R248 to R250: FILL puts one chunk for each active thread on its way, in order of the threads, and the fill into the open
batch; a chunk that lands writes its bytes to the window at its destination, and nothing else where no stage barrier is
credited and nothing waits. The source of a chunk is read as log 10 says. -/
def Obligations.FillsAndChunks : Prop :=
  (∀ (o : FillOp) (s : State) (c : Cx), Issues s c → Ready s c (.fill o) (laneMemInfo o.w) →
    let d := c.begun o.w
    let n := chunkSize o.size
    let ts := d.active s.free o.g
    let accs : List Acc := ts.map (fun th => { tid := th, va := d.addr s.free th n o.a, n, data := [] })
    let dst (th : Nat) : Nat := (d.v s.free 2 th o.vt.toNat).toNat
    let bar (th : Nat) : Option Nat := o.mbar.map (fun vc => (d.v s.free 3 th vc.toNat).toNat)
    (ts = [] → ∃ t gr, exec (.fill o) s = .next t ∧ RegStep s d t [] [] (c.fr.pc + 8) gr) ∧
    ∀ l s1, ts ≠ [] → checkAccs (started s c o.w) d.who .load accs = (.ok l, s1) →
      (∀ th ∈ ts, dst th % n = 0 ∧ winInside s c.gr.block (fillSpace o.space) { tid := th, va := BitVec.ofNat 64 (dst th), n, data := [] } = true) →
      (∀ th ∈ ts, ∀ m, bar th = some m → m % 16 = 0 ∧ winInside s c.gr.block .ls { tid := th, va := BitVec.ofNat 64 m, n := 16, data := [] } = true) →
      ∃ t gr ks, exec (.fill o) s = .next t ∧ t.chunks = s.chunks ++ ks ∧
        ks.map (fun k => (k.fill, k.g, k.f, k.tid, k.va, k.pa, k.key)) = l.map (fun p => (s.nextId, c.g, c.f, p.1.tid, p.1.va, p.2.1, p.2.2)) ∧
        (∀ k ∈ ks, k.n = n ∧ k.space = o.space ∧ k.dst = dst k.tid ∧ k.mbar = bar k.tid ∧ k.data = none ∧ k.wins = true) ∧
        RegStep { s with xlat := t.xlat, asids := t.asids, chunks := t.chunks, nextId := t.nextId } { d with gr := { d.gr with openB := d.gr.openB ++ [.fill s.nextId] } }
          t [] [] (c.fr.pc + 8) gr) ∧
  (∀ (s : State) (k : Machine.Chunk) (gr : Group) bs, k ∈ s.chunks → (s.chunks.map (·.id)).Nodup → s.groups[k.g]? = some gr → k.data = some bs → k.mbar = none → k.wins = true →
    gr.block < s.blocks.length →
    (∀ gr' ∈ s.groups, ∀ x ∈ gr'.frags, ∀ n c a, x.wait ≠ .batch n c a) → (∀ d ∈ s.ctls, ∀ n c a, d.wait ≠ .batch n c a) →
    ∃ t, exec (.chunkLanding k.id) s = .next t ∧ t = { s with chunks := t.chunks, blocks := t.blocks } ∧
      t.chunks = (s.chunks.filter (fun x => x.id != k.id)).map (fun x => if x.fill = k.fill ∧ x.dst = k.dst ∧ x.tid < k.tid then { x with wins := false } else x) ∧ WindowOnly s t gr.block (fillSpace k.space) k.dst bs.length ∧
      ∀ i, i < bs.length → winRead t gr.block (fillSpace k.space) (k.dst + i) 1 = [bs.getD i 0])

/-- R211, R220, R224, R227, R238: reading back what was written; a store that meets a word in O or E of another agent, or a
frozen word, is discarded whole and races at its first such word; else each of its words is in O of the storing agent, or
stays its own; a release moves O to S. -/
def Obligations.RegistrationAndRaces : Prop :=
  (∀ (s : State) (key pa : Nat) (bs : List Byte), readBytes (writeBytes s key pa bs) key pa bs.length = bs) ∧
  (∀ (s : State) (key pa a : Nat) (bs : List Byte), (a < pa ∨ pa + bs.length ≤ a) → readByte (writeBytes s key pa bs) key a = readByte s key a) ∧
  (∀ (s : State) (w : Who) (a : Acc) (pa key : Nat), (∀ n, pa / 4 ≤ n → 4 * n < pa + 4 * wordCount a.n → registers n = true) →
    let n := pa / 4
    let k := wordCount a.n
    let hit (j : Nat) : Prop := (∃ b l v, regOf s j = some (.owned b l v) ∧ b ≠ w.agent) ∨ (∃ b p, regOf s j = some (.claimed b p) ∧ b ≠ w.agent) ∨ ∃ m, regOf s j = some (.frozen m)
    (∀ j, j < k → hit (n + j) → (∀ i < j, ¬ hit (n + i)) → storeAcc s w (a, pa, key)
      = (some (match regOf s (n + j) with | some (.frozen _) => .frozen | _ => .race, wordVa a.va + BitVec.ofNat 64 (4 * j)), s)) ∧
    ((∀ j < k, ¬ hit (n + j)) → (storeAcc s w (a, pa, key)).1 = none ∧
      (∀ j < k, let r := regOf (storeAcc s w (a, pa, key)).2 (n + j)
        ((regOf s (n + j) = none ∨ ∃ b v, regOf s (n + j) = some (.released b v)) → ∃ l v, r = some (.owned w.agent l v)) ∧
        ((∃ l v, regOf s (n + j) = some (.owned w.agent l v)) ∨ (∃ p, regOf s (n + j) = some (.claimed w.agent p)) → r = regOf s (n + j))) ∧
      ∀ j, j < n ∨ n + k ≤ j → regOf (storeAcc s w (a, pa, key)).2 j = regOf s j)) ∧
  (∀ (s : State) (a : Agent) (key w : Nat), (loadWord s (some a) key w).2 = true ↔
    (∃ b l v, regOf s w = some (.owned b l v) ∧ b ≠ a) ∨ ∃ b p, regOf s w = some (.claimed b p) ∧ b ≠ a) ∧
  (∀ (s : State) (a b : Agent) (key w : Nat) l v, regOf s w = some (.owned b l v) →
    (loadWord s (some a) key w).1 = (if a = b then readWord s key w else lastReleased s key w) ∧
    (lineKey s w = none ∨ lineKey s w = some key → lastReleased s key w = l)) ∧
  (∀ (s : State) (a : Agent), Released s (releaseAgent s a) a ∧ releaseAgent s a = { s with reg := (releaseAgent s a).reg, monitors := (releaseAgent s a).monitors })

/-- R224 to R228: an access of an agent to a word at its home: a load that meets no other agent's unreleased word changes
nothing; a store registers the word in O(a), an atomic in S(a) near and in V far, a word of the agent's own stays; others'
words and frozen words race and keep everything as it was; of a poisoned unit nothing is read or written (R381). An eviction
from a compute core's L1 or a control core's cache moves S(c) of an agent there to V, and O(c) stays. An event whose
precondition does not hold changes nothing (log 17). -/
def Obligations.HomeAccesses : Prop :=
  (∀ (s : State) (a : Agent) (k : HomeKind) (pa : Nat), 4 * (pa / 4) / 64 ∈ s.poison → exec (.homeAccess a k pa) s = .next s) ∧
  (∀ (s : State) (a : Agent) (pa : Nat), presence s (4 * (pa / 4)) = .present → 4 * (pa / 4) / 64 ∉ s.poison → registers (pa / 4) = true →
    let w := pa / 4
    let va := BitVec.ofNat 64 (4 * w)
    let key := unitKey s (4 * w)
    let old := readWord s key w
    let rest (t : State) : Prop := t = { s with mem := t.mem, tags := t.tags, reg := t.reg, monitors := t.monitors, hostLines := t.hostLines } ∧ ∀ x, x ≠ w → regOf t x = regOf s x
    let put (t : State) (v : Word) : Prop := Stored s t [({ tid := 0, va, n := 4, data := leBytes 4 v.toNat }, 4 * w, key)] ∧ rest t
    let mine (r : Option Reg) : Prop := (∃ l x, r = some (.owned a l x)) ∨ ∃ p, r = some (.claimed a p)
    let others (r : Option Reg) : Prop := (∃ b l x, r = some (.owned b l x) ∧ b ≠ a) ∨ ∃ b p, r = some (.claimed b p) ∧ b ≠ a
    let loose (r : Option Reg) : Prop := r = none ∨ ∃ b x, r = some (.released b x)
    (∃ t, exec (.homeAccess a .load pa) s = .next t ∧ (¬ others (regOf s w) → t = s) ∧ (others (regOf s w) → t = raceOf s a .race va)) ∧
    (∀ v, ∃ t, exec (.homeAccess a (.store v) pa) s = .next t ∧
      (loose (regOf s w) → put t v ∧ regOf t w = some (.owned a old va)) ∧ (mine (regOf s w) → put t v ∧ regOf t w = regOf s w) ∧
      (others (regOf s w) → t = raceOf s a .race va) ∧ (∀ n, regOf s w = some (.frozen n) → t = raceOf s a .frozen va)) ∧
    (∀ near f cmp v, ∃ t, exec (.homeAccess a (.atomic near f cmp v) pa) s = .next t ∧
      let new := BitVec.ofNat 32 (atomNew (.int f .n32) cmp.toNat v.toNat old.toNat)
      (loose (regOf s w) → put t new ∧ regOf t w = if near then some (.released a va) else none) ∧ (mine (regOf s w) → put t new ∧ regOf t w = regOf s w) ∧
      (others (regOf s w) → t = raceOf s a .race va) ∧ (∀ n, regOf s w = some (.frozen n) → t = raceOf s a .frozen va)) ∧
    ∃ t, exec (.homeAccess a .release pa) s = .next t ∧ Released s t a ∧ t = { s with reg := t.reg, monitors := t.monitors }) ∧
  (∀ (s : State) (e : EvictedFrom) (w : Nat), let site : Site := match e with | .core n => .core n | .control cc => .ctl cc
    ∃ t, exec (.eviction e w) s = .next t ∧ t = { s with copies := t.copies, reg := t.reg } ∧
    (∀ k, k ∈ t.copies ↔ k ∈ s.copies ∧ ¬ (k.site = site ∧ k.word = w)) ∧
    (∀ a va, agentSite s a = some site → regOf s w = some (.released a va) → regOf t w = none) ∧
    (∀ a va, agentSite s a ≠ some site → regOf s w = some (.released a va) → regOf t w = regOf s w) ∧
    (∀ a l va, regOf s w = some (.owned a l va) → ∃ v, regOf t w = some (.owned a l v)) ∧ ∀ x, x ≠ w → regOf t x = regOf s x)

/-! ### Control flow (09) -/

/-- R192, R59, R70: branches and calls of both kinds of core; a register target that is not a multiple of 4 is MISALIGN. -/
def Obligations.Branches : Prop :=
  (∀ o : JumpOp, OnActor (.bra o) (jumpInfo o.w) none (fun s _ a t => a.RegStep s t [] (a.pcOf + BitVec.ofInt 64 (4 * o.off.toInt)))) ∧
  (∀ o : JumpOp, OnActor (.call o) (jumpInfo o.w) none (fun s _ a t =>
    a.RegStep s t [(.s 63, a.pcOf + 4)] (a.pcOf + BitVec.ofInt 64 (4 * o.off.toInt)))) ∧
  (∀ o : BrcOp, OnActor (.brc o) (jumpInfo o.w) none (fun s _ a t =>
    a.RegStep s t [] (if a.getK s.free 0 o.k.toNat = !o.neg then a.pcOf + BitVec.ofInt 64 (4 * o.off.toInt) else a.pcOf + 4))) ∧
  (∀ mk link, (mk, link) ∈ [(Instr.braRegister, false), (.callRegister, true), (.ret, false)] → ∀ o : SrcOp,
    OnActor (mk o) (jumpInfo o.w) none (fun s s0 a t =>
      let x := a.getS s.free 0 o.sa.toNat
      (x.toNat % 4 = 0 → a.RegStep s t (if link then [(.s 63, a.pcOf + 4)] else []) x) ∧
      (x.toNat % 4 ≠ 0 → t = a.raise s0 3 x a.low)))

/-- R195, R196, R38, R40: BRD. All or none of the threads taken moves the pc; a split leaves the larger part, on a tie the
part not taken, in the fragment and gives the other to a new one that inherits the open tokens and arrivals, and the accesses
that are parked or in flight in its program order (R217). R197: JOIN passes
where no split is open, waits for its family, and merges it when the last member has come: one fragment with all threads,
behind the JOIN of the member that holds the lowest %tid. R193, R299: EXIT ends its fragment. The last one ends the group,
whose words are handed over, unless one of them is homed on a die that is offline, for which it waits (R236), and with the last group the block ends and its windows are freed. A recipe
run ends with its last fragment, and goes on till then. Slots, tokens and the merge of
a family follow log 13. -/
def Obligations.Fragments : Prop :=
  (
    ∀ o : BrdOp, OnFrag (.brd o) { cls := .lane, w := o.w, touch := false, fence := false, rel := false } (fun s c t =>
      let s0 := started s c o.w
      let l := threadsOf c.fr.mask c.gr.size
      let tk := l.filter (fun th => c.q s.free 0 th o.q.toNat = !o.neg)
      let nt := l.filter (fun th => c.q s.free 0 th o.q.toNat = o.neg)
      let target := c.fr.pc + BitVec.ofInt 64 (4 * o.off.toInt)
      let next := c.fr.pc + 4
      let small := if tk.length ≤ nt.length then (tk, target) else (nt, next)
      let large := if tk.length ≤ nt.length then (nt, next) else (tk, target)
      let toks := tabSet c.fr.toks o.tok.toNat c.gr.nextSplit
      ((∀ th, c.gr.size ≤ th → c.fr.mask.getLsbD th = false) → nt = [] → ∃ gr, RegStep s c t [] [] target gr) ∧
      (l ≠ [] → tk = [] → ∃ gr, RegStep s c t [] [] next gr) ∧
      (tk ≠ [] → nt ≠ [] → (tabFind c.fr.toks o.tok.toNat).isSome = true →
        t = raiseFrag s0 c 1 0 (wordOf (.brd o)) (some c.fr.pc)) ∧
      (tk ≠ [] → nt ≠ [] → tabFind c.fr.toks o.tok.toNat = none → slotFree s0 c.gr = true →
        (∀ th, c.gr.size ≤ th → c.fr.mask.getLsbD th = false) → c.gr.size ≤ 256 →
        ∃ (gr : Group) (new : Frag) (kept : Frag → Frag), t.groups[c.g]? = some gr ∧ gr.frags = (fragsAt s c large.2).map (fun x => if x.id = c.f then kept x else x) ++ [new] ∧
          (∀ x, (kept x).pc = x.pc ∧ (kept x).slot = x.slot ∧ (kept x).wait = x.wait ∧ (kept x).toks = toks ∧ (kept x).arr = x.arr ∧
            ∀ th, (kept x).mask.getLsbD th = decide (th ∈ large.1)) ∧
          new.id = c.gr.nextFrag ∧ new.pc = small.2 ∧ new.wait = .run ∧ new.toks = toks ∧ new.arr = c.fr.arr ∧
          (∀ th, new.mask.getLsbD th = decide (th ∈ small.1)) ∧ (∃ k ∈ c.gr.freeIndices, new.slot = some k) ∧
          (∀ key, gr.read key = c.gr.read key) ∧ gr.nextSplit = c.gr.nextSplit + 1 ∧
          gr.log = c.gr.log.map (fun e => if e.frag = c.f ∨ c.f ∈ e.heirs then { e with heirs := new.id :: e.heirs } else e) ∧
          t.chunks = s.chunks.map (fun k => if k.g = c.g ∧ (k.f = c.f ∨ c.f ∈ k.heirs) then { k with heirs := new.id :: k.heirs } else k) ∧
          GroupOnly { s with nextId := t.nextId, chunks := t.chunks } t c.g) ∧
      (tk ≠ [] → nt ≠ [] → tabFind c.fr.toks o.tok.toNat = none → slotFree s0 c.gr = false →
        fstackOf s0 c.gr.ctx < c.gr.spilledCount + 1 →
        t = raiseFrag s0 c 13 0 (BitVec.ofNat 64 c.gr.spilledCount) (some c.fr.pc)) ∧
      (tk ≠ [] → nt ≠ [] → tabFind c.fr.toks o.tok.toNat = none → slotFree s0 c.gr = false →
        c.gr.spilledCount + 1 ≤ fstackOf s0 c.gr.ctx →
        ∃ (gr : Group) (new : Frag), t.groups[c.g]? = some gr ∧ gr.frags.getLast? = some new ∧ new.id = c.gr.nextFrag ∧ new.pc = small.2 ∧
          (∀ v, victim c.gr c.f = some v → new.slot = v.slot ∧ ∀ x ∈ gr.frags, x.id = v.id → x.id ≠ new.id → x.slot = none) ∧
          (victim c.gr c.f = none → new.slot = none) ∧ ∀ key, gr.read key = c.gr.read key))
  ) ∧
  (
    ∀ o : JoinOp, OnFrag (.join o) { cls := .lane, w := o.w, touch := false, fence := false, rel := false } (fun s c t =>
      (tabFind c.fr.toks o.tok.toNat = none → ∃ gr, RegStep s c t [] [] (c.fr.pc + 4) gr) ∧
      (∀ id, tabFind c.fr.toks o.tok.toNat = some id → (∃ x ∈ family c.gr o.tok.toNat id, x.id ≠ c.f ∧ x.wait ≠ .join o.tok.toNat) →
        Becomes s t c.g { c.gr with frags := (fragsAt s c c.fr.pc).map (fun x => if x.id = c.f then { x with wait := .join o.tok.toNat, since := if c.fr.wait = .run then clk s else c.fr.since } else x) }) ∧
      (∀ id, tabFind c.fr.toks o.tok.toNat = some id →
        (∀ x ∈ family c.gr o.tok.toNat id, x.id = c.f ∨ x.wait = .join o.tok.toNat) →
        ∀ low, lowestMember (family c.gr o.tok.toNat id) = some low → (c.gr.frags.map (·.id)).Nodup →
        ∃ gr m, t.groups[c.g]? = some gr ∧ m ∈ gr.frags ∧ m.id = low.id ∧ m.pc = low.pc + 4 ∧ m.wait = .run ∧ (low.slot.isSome = true → m.slot = low.slot) ∧
          m.toks = tabDel low.toks o.tok.toNat ∧
          (∀ th, m.mask.getLsbD th = (family c.gr o.tok.toNat id).any (fun x => x.mask.getLsbD th)) ∧
          (∀ x ∈ gr.frags, x.id = low.id ∨ x.id ∉ (family c.gr o.tok.toNat id).map (·.id)) ∧
          ∀ key, gr.read key = c.gr.read key))
  ) ∧
  (
    ∀ o : WOp, OnFrag (.exit o) { cls := .compute, w := true, touch := true, fence := true, rel := false } (fun s c t =>
      ((∃ x ∈ c.gr.frags, x.id ≠ c.f) → c.gr.run = none ∨ chainOf s c.g c.f = none →
        (c.gr.run.isSome = true → t.blocks = s.blocks) ∧
        ∃ gr, t.groups[c.g]? = some gr ∧ gr.life = c.gr.life ∧ (∀ x ∈ gr.frags, x.id ≠ c.f) ∧ ∀ key, gr.read key = c.gr.read key) ∧
      ((∀ x ∈ c.gr.frags, x.id = c.f) → c.gr.run.isSome = true → ∃ gr, t.groups[c.g]? = some gr ∧ gr.life ≠ .live ∧ gr.frags = []) ∧
      ((∀ x ∈ c.gr.frags, x.id = c.f) → c.gr.run = none → ownsOffline s (.group c.g) = true → t.reg = s.reg ∧ Actor.waits t (.frag c)) ∧
      ((∀ x ∈ c.gr.frags, x.id = c.f) → c.gr.run = none → ownsOffline s (.group c.g) = false → ∀ b : Block, s.blocks[c.gr.block]? = some b → c.g ∈ b.groups →
        (∃ gr, t.groups[c.g]? = some gr ∧ gr.life = .ended ∧ gr.frags = [] ∧ gr.region = none ∧ ∀ key, gr.read key = c.gr.read key) ∧
        (scopeOrders (endScope s b) = true → ∀ w l va, regOf t w ≠ some (.owned (.group c.g) l va)) ∧
        (liveGroups s b = [c.g] → (s.adds.any (fun a => a.src == c.gr.block || a.dst == c.gr.block)) = false →
          ∃ b' : Block, t.blocks[c.gr.block]? = some b' ∧ b'.life = .ended ∧ b'.wb = [] ∧ b'.ab = [] ∧ b'.cb = [] ∧ b'.ls = [])))
  )

/-- R194, R176 to R178, R33 to R35: YIELD hands the issue slot on and changes no register; SETW opens a width region with its grant, ENDW closes it; a
region inside a region, an ENDW outside one, and either with more than one fragment are ILLEGAL. -/
def Obligations.WidthRegions : Prop :=
  (∀ o : WOp, OnFrag (.yieldSlot o) { cls := .both, w := true, touch := false, fence := false, rel := false } (fun s c t =>
    ∃ p gr, t.cur = p ∧ RegStep { s with cur := p, cores := (modCore s c.gr.place (fun k => { k with turn := p })).cores } c t [] [] (c.fr.pc + 4) gr)) ∧
  (∀ o : WOp, OnCtl (.yieldSlot o) (fun s cc c t => BecomesCtl s t cc { c with pc := c.pc + 4 })) ∧
  (∀ i req restart, (∃ o : SetwImmOp, (i, req, restart) = (Instr.setwImmediate o, (fun (_ : State) (_ : Cx) => o.n.toNat), false)) ∨
      (∃ o : SetwImmOp, (i, req, restart) = (Instr.setwRImmediate o, (fun _ _ => o.n.toNat), true)) ∨
      (∃ o : SrcOp, (i, req, restart) = (Instr.setwRegister o, (fun s c => min 128 (max 1 (c.s s.free 0 o.sa.toNat).toNat)), false)) ∨
      (∃ o : SrcOp, (i, req, restart) = (Instr.setwRRegister o, (fun s c => min 128 (max 1 (c.s s.free 0 o.sa.toNat).toNat)), true)) →
    OnFrag i setwInfo (fun s c t =>
      let s0 := started s c true
      let legal := c.gr.region = none ∧ c.gr.frags.length ≤ 1
      (¬ legal → t = raiseFrag s0 c 1 0 (wordOf i) (some c.fr.pc)) ∧
      (legal → Becomes s t c.g { c.gr with grant := setwGrant s0 c (req s c), frags := fragsAt s c (c.fr.pc + 8), region := some { setwPc := c.fr.pc, request := req s c, restartable := restart, mask := c.fr.mask, toks := c.fr.toks, mark := s.nextId } }))) ∧
  (∀ s c n, 1 ≤ n → n ≤ 128 → 8 ≤ c.gr.size →
    let g := setwGrant s c n
    g ∈ [4, 8, 16, 32, 64, 128] ∧ g ≤ max 4 (2 * n - 1) ∧ g ≤ offer s c.gr.place c.g c.gr.ctx ∧ g ≤ c.gr.size ∧
    ∀ p ∈ [4, 8, 16, 32, 64, 128], p < 2 * n → p ≤ offer s c.gr.place c.g c.gr.ctx → p ≤ c.gr.size → p ≤ g) ∧
  (∀ o : WOp, OnFrag (.endw o) setwInfo (fun s c t =>
    let s0 := started s c true
    let legal := c.gr.region.isSome = true ∧ c.gr.frags.length ≤ 1
    (¬ legal → t = raiseFrag s0 c 1 0 (wordOf (.endw o)) (some c.fr.pc)) ∧
    (legal → Becomes s t c.g { c.gr with grant := plainGrant s c.gr.place c.g c.gr.size c.gr.ctx, frags := fragsAt s c (c.fr.pc + 4), region := none })))

/-! ### Barriers and batches (12, 18) -/

/-- R354 to R356: BAR and BAR.arr release, record the fragment's arrival, mark the group once its last fragment has come, and
complete the episode once every group is marked; BAR.wait waits while the phase is the one it arrived in. R358, R359: GBAR
releases and parks; with the last group of its block the block's arrival is counted, once its peer adds have landed.
GANG_BARRIER_PASS flips the phases and sends every waiting fragment on, behind an acquire that drops every copy at its core
(R221). What a fragment may still read of a shared control register ends with its pass and the writer's (R117). The form of the
waits is that of log 17. -/
def Obligations.Barriers : Prop :=
  (
    (∀ mk waits, (mk, waits) ∈ [(Instr.bar, true), (.barArr, false)] → ∀ o : BarOp, OnFrag (mk o) (barInfo true) (fun s c t =>
      let i := o.b.toNat
      let p := barPhase s c.gr.block i
      let gr := c.arrivedAt s i p (if waits then c.fr.pc else c.fr.pc + 4) (if waits then .bar i p else .run)
      (barOk s c i = false → t = raiseFrag (started s c true) c 4 0 c.low (some c.fr.pc)) ∧
      (barOk s c i = true → Released s t (.group c.g)) ∧
      (barOk s c i = true → ¬ c.othersArrived i → Becomes { s with reg := t.reg, monitors := t.monitors } t c.g gr) ∧
      (∀ (b : Block) (br : Barrier), barOk s c i = true → c.othersArrived i → s.blocks[c.gr.block]? = some b → b.bars[i]? = some br →
        let bit := BitVec.ofNat 16 (2 ^ c.gr.gid)
        let marks := br.marks ||| bit
        let phases := if p then br.phases ||| bit else br.phases &&& ~~~bit
        ((∃ k ∈ expectedGids s b, marks.getLsbD k = false) →
          Becomes { s with reg := t.reg, monitors := t.monitors, blocks := s.blocks.modify c.gr.block (fun b => { b with bars := b.bars.modify i (fun _ => { br with marks, phases }) }) } t c.g gr) ∧
        (expectedGids s b ≠ [] → (∀ k ∈ expectedGids s b, marks.getLsbD k = true) → (liveGroups s b).Nodup → c.g ∈ liveGroups s b →
          t.blocks = s.blocks.modify c.gr.block (fun b => { b with bars := b.bars.modify i (fun _ => { phase := !br.phase, marks := 0, phases }) }) ∧
          t.groups[c.g]? = some (gr.passBar (Wait.atBar i) i (clk s)) ∧
          ∀ g y, g ≠ c.g → s.groups[g]? = some y → t.groups[g]? = some (if g ∈ liveGroups s b then y.passBar (Wait.atBar i) i (clk s) else y))))) ∧
    (∀ o : BarOp, OnFrag (.barWait o) (barInfo false) (fun s c t =>
      let i := o.b.toNat
      (barOk s c i = false → t = raiseFrag (started s c true) c 4 0 c.low (some c.fr.pc)) ∧
      (barOk s c i = true → tabFind c.fr.arr i = some (barPhase s c.gr.block i) →
        Becomes s t c.g { c.gr with frags := (fragsAt s c c.fr.pc).map (fun x => if x.id = c.f then { x with wait := .barWait i (barPhase s c.gr.block i), since := if c.fr.wait = .run then clk s else c.fr.since } else x) }) ∧
      (∀ p, barOk s c i = true → tabFind c.fr.arr i = some p → p ≠ barPhase s c.gr.block i → ∃ gr, RegStep s c t [] [] (c.fr.pc + 4) gr) ∧
      (barOk s c i = true → tabFind c.fr.arr i = none → tabFind c.fr.arr (32 + i) = none → ∃ gr, RegStep s c t [] [] (c.fr.pc + 4) gr) ∧
      (barOk s c i = true → tabFind c.fr.arr i = none → (tabFind c.fr.arr (32 + i)).isSome = true →
        ∃ shared, Becomes s t c.g { c.gr with shared, frags := (fragsAt s c (c.fr.pc + 4)).map (fun x => if x.id = c.f then { x with arr := tabDel x.arr (32 + i) } else x) } ∧
          ∀ o ∈ shared, ¬ (o.fragPassed = true ∧ o.writerPassed = true)))) ∧
    (∀ (gr : Group) i now, gr.passBar (Wait.atBar i) i now = { gr with frags := (gr.passBar (Wait.atBar i) i now).frags, shared := (gr.passBar (Wait.atBar i) i now).shared } ∧
      (∀ o ∈ (gr.passBar (Wait.atBar i) i now).shared, ¬ (o.fragPassed = true ∧ o.writerPassed = true)) ∧
      ∀ x, x ∈ (gr.passBar (Wait.atBar i) i now).frags ↔ ∃ y ∈ gr.frags,
        let waits := ∃ p, y.wait = .bar i p ∨ y.wait = .barWait i p
        x = { y with arr := tabDel (if ¬ waits ∧ (tabFind y.arr i).isSome = true then tabSet y.arr (32 + i) true else y.arr) i, pc := if waits then y.pc + 4 else y.pc, wait := if waits then .run else y.wait, since := if waits then now else y.since })
  ) ∧
  (
    (∀ o : WOp, OnFrag (.gbar o) (barInfo true) (fun s c t =>
      let p := gangPhase s c.gr.block
      let gr := c.arrivedAt s 16 p c.fr.pc (.gbar p)
      Released s t (.group c.g) ∧
      (¬ c.othersArrived 16 → Becomes { s with reg := t.reg, monitors := t.monitors } t c.g gr) ∧
      (∀ b : Block, c.othersArrived 16 → s.blocks[c.gr.block]? = some b →
        let bit := BitVec.ofNat 16 (2 ^ c.gr.gid)
        let bar : Barrier := { phase := p, marks := b.gbar.marks ||| bit, phases := if p then b.gbar.phases ||| bit else b.gbar.phases &&& ~~~bit }
        let counted := expectedGids s b ≠ [] ∧ (∀ k ∈ expectedGids s b, bar.marks.getLsbD k = true) ∧ ∀ a ∈ s.adds, a.src ≠ c.gr.block
        let s1 := { s with reg := t.reg, monitors := t.monitors, blocks := s.blocks.modify c.gr.block (fun b => { b with gbar := bar }) }
        (¬ counted → Becomes s1 t c.g gr) ∧
        (counted → Becomes { s1 with gangs := s.gangs.modify b.gang (fun g => { g with marks := g.marks ||| BitVec.ofNat 16 (2 ^ b.member) }) } t c.g gr)))) ∧
    (∀ (gang : Nat) (s : State) (g : Gang), s.gangs[gang]? = some g → gangMembers s g ≠ [] → (gangMembers s g).Nodup →
      (∀ b ∈ gangMembers s g, ∃ x : Block, s.blocks[b]? = some x ∧ x.life = .running ∧ g.marks.getLsbD x.member = true) →
      ∃ t, exec (.gangBarrierPass gang) s = .next t ∧ t.gangs = s.gangs.modify gang (fun g => { g with phase := !g.phase, marks := 0 }) ∧
        (∀ b ∈ gangMembers s g, ∀ x : Block, s.blocks[b]? = some x → t.blocks[b]? = some { x with gbar := { x.gbar with phase := !x.gbar.phase, marks := 0 } }) ∧
        (∀ y ∈ t.copies, y ∈ s.copies) ∧
        (∀ y ∈ s.copies, (∀ b ∈ gangMembers s g, ∀ x : Block, s.blocks[b]? = some x → y.site ≠ .core x.core) → y ∈ t.copies) ∧
        ∀ (k : Nat) (gr : Group) (fr : Frag), s.groups[k]? = some gr → fr ∈ gr.frags → (∃ p, fr.wait = .gbar p) →
          (∃ b ∈ gangMembers s g, ∃ x : Block, s.blocks[b]? = some x ∧ k ∈ liveGroups s x) →
          (∀ b ∈ gangMembers s g, ∀ b' ∈ gangMembers s g, ∀ x x' : Block, s.blocks[b]? = some x → s.blocks[b']? = some x' → k ∈ x.groups → k ∈ x'.groups → b = b') →
          (∀ b ∈ gangMembers s g, ∀ x : Block, s.blocks[b]? = some x → x.groups.Nodup) →
          (∃ gr' : Group, t.groups[k]? = some gr' ∧ { fr with arr := tabDel fr.arr 16, pc := fr.pc + 4, wait := .run, since := clk s } ∈ gr'.frags) ∧
          ∀ b ∈ gangMembers s g, ∀ x : Block, s.blocks[b]? = some x → k ∈ liveGroups s x → ∀ y ∈ t.copies, y.site ≠ .core x.core)
  )

/-- R360 to R363: the stage barrier in the LS window: INIT makes it, ARM announces bytes, ARR arrives and may complete the
phase, WAIT returns a status and the phase number or parks. R365: an MBAR.WAIT whose time has run out ends with status 1 and
the phase number. The form of the waits is that of log 17. -/
def Obligations.StageBarriers : Prop :=
  (
    (∀ o : MbarOp, OnFrag (.mbarInit o) (mbarInfo o.w false) (fun s c t =>
      let off := (c.s s.free 0 o.sa.toNat).toNat
      let n := (c.s s.free 1 o.sb.toNat).toNat
      (c.runs s.free o.g = false → ∃ gr, RegStep s c t [] [] (c.fr.pc + 8) gr) ∧
      (c.runs s.free o.g = true → off % 16 = 0 → winInside s c.gr.block .ls { tid := 0, va := c.s s.free 0 o.sa.toNat, n := 16, data := [] } = true →
        1 ≤ n → n ≤ 65535 →
        winRead t c.gr.block .ls off 16 = leBytes 8 0 ++ leBytes 8 (n + n * 2 ^ 16 + 0x53 * 2 ^ 56) ∧
        WindowOnly s t c.gr.block .ls off 16 ∧
        (mbarWaiters s c.gr.block off = [] → ∃ gr, RegStep { s with blocks := t.blocks } c t [] [] (c.fr.pc + 8) gr) ∧
        ∀ w ∈ mbarWaiters s c.gr.block off, ¬ (w.1 = c.g ∧ w.2.1.id = c.f) → ∃ gr fr, t.groups[w.1]? = some gr ∧ gr.frag? w.2.1.id = some fr ∧ fr.wait = .mbarEnd 3 0))) ∧
    (∀ o : MbarOp, OnFrag (.mbarArm o) (mbarInfo o.w false) (fun s c t =>
      let off := (c.s s.free 0 o.sa.toNat).toNat
      let k := (c.s s.free 1 o.sb.toNat).toNat
      (c.runs s.free o.g = false → ∃ gr, RegStep s c t [] [] (c.fr.pc + 8) gr) ∧
      (∀ m, c.runs s.free o.g = true → off % 16 = 0 → winInside s c.gr.block .ls { tid := 0, va := c.s s.free 0 o.sa.toNat, n := 16, data := [] } = true →
        mbarAt s c.gr.block off = some m → m.pending + k < 2 ^ 56 →
        mbarAt t c.gr.block off = some { m with pending := m.pending + k } ∧ WindowOnly s t c.gr.block .ls off 16 ∧ ∃ gr, RegStep { s with blocks := t.blocks } c t [] [] (c.fr.pc + 8) gr))) ∧
    (∀ o : MbarArrOp, OnFrag (.mbarArr o) (mbarInfo o.w (scopeOrders o.scope)) (fun s c t =>
      let off := (c.s s.free 0 o.sa.toNat).toNat
      (c.runs s.free o.g = false → ∃ gr, RegStep s c t [] [] (c.fr.pc + 8) gr) ∧
      (∀ m, c.runs s.free o.g = true → off % 16 = 0 → winInside s c.gr.block .ls { tid := 0, va := c.s s.free 0 o.sa.toNat, n := 16, data := [] } = true →
        mbarAt s c.gr.block off = some m → 0 < m.remaining →
        let m' : Mbar := if m.remaining = 1 ∧ m.pending = 0 then { m with seq := m.seq + 1, remaining := m.expected, excess := false } else { m with remaining := m.remaining - 1 }
        mbarAt t c.gr.block off = some m' ∧ WindowOnly s t c.gr.block .ls off 16 ∧
        (scopeOrders o.scope = true → Released s t (.group c.g)) ∧
        (mbarWaiters s c.gr.block off = [] → ∃ gr, RegStep { s with blocks := t.blocks, reg := t.reg, monitors := t.monitors } c t [] [] (c.fr.pc + 8) gr)))) ∧
    (∀ o : MbarWaitOp, OnFrag (.mbarWait o) (mbarInfo true false) (fun s c t =>
      let off := (c.s s.free 0 o.sa.toNat).toNat
      let n := (c.s s.free 2 o.sd.toNat).setWidth 16
      let drop (x : State) : State := { x with copies := x.copies.filter (fun k => !(scopeDrops o.scope && k.site == c.who.site)) }
      (∀ status seq, c.fr.wait = .mbarEnd status seq → ∃ gr, RegStep (if status = 0 ∨ status = 2 then drop s else s) c t
        [(.s o.sd.toNat, BitVec.ofNat 64 (status + seq * 2 ^ 16))] [] (c.fr.pc + 8) gr) ∧
      ((∀ status seq, c.fr.wait ≠ .mbarEnd status seq) → c.runs s.free o.g = false → ∃ gr, RegStep s c t [] [] (c.fr.pc + 8) gr) ∧
      (∀ m, (∀ status seq, c.fr.wait ≠ .mbarEnd status seq) → c.runs s.free o.g = true → off % 16 = 0 →
        winInside s c.gr.block .ls { tid := 0, va := c.s s.free 0 o.sa.toNat, n := 16, data := [] } = true → mbarAt s c.gr.block off = some m →
        let d := (m.seq - n).toNat
        (1 ≤ d → d ≤ 2 ^ 15 → ¬ (m.excess = true ∧ d = 1) →
          ∃ gr, RegStep (drop s) c t [(.s o.sd.toNat, BitVec.ofNat 64 (m.seq.toNat * 2 ^ 16))] [] (c.fr.pc + 8) gr) ∧
        (m.excess = true → d = 1 → c.gr.run = none → ∃ gr, t.groups[c.g]? = some gr ∧ gr.read (.s o.sd.toNat) = BitVec.ofNat 64 (2 + m.seq.toNat * 2 ^ 16) ∧
          (c.gr.inHandler c.fr = false → c.gr.late = [] → c.gr.trapQ.length < 8 → gr.trapQ.getLast?.map (fun e => (e.cause, e.frag, e.ipc, e.addr)) = some (14, c.f, c.fr.pc, c.s s.free 0 o.sa.toNat))) ∧
        (d = 0 ∨ 2 ^ 15 < d → Becomes s t c.g { c.gr with frags := (fragsAt s c c.fr.pc).map (fun x => if x.id = c.f then { x with wait := .mbar off n.toNat (clk s) (c.s s.free 1 o.sb.toNat).toNat, since := if c.fr.wait = .run then clk s else c.fr.since } else x) }))))
  ) ∧
  (
    ∀ (s : State) (g f : Nat) (gr : Group) (fr : Frag) off n start timeout, s.groups[g]? = some gr → gr.frag? f = some fr → fr.wait = .mbar off n start timeout →
      (timeout = 0 ∨ clk s < start + timeout → exec (.mbarTimeout g f) s = .next s) ∧
      (∀ m, timeout ≠ 0 → start + timeout ≤ clk s → mbarAt s gr.block off = some m → ∃ t gr' fr', exec (.mbarTimeout g f) s = .next t ∧
        Becomes s t g gr' ∧ gr' = { gr with frags := gr'.frags } ∧ gr'.frag? f = some fr' ∧ fr'.wait = .mbarEnd 1 m.seq.toNat ∧ fr'.pc = fr.pc)
  )

/-- R250, R251: BCLOSE counts the batch and closes it, unless 64 closed ones are under way; BWAIT goes on once its batches
have landed, behind an acquire where one held an engine command, and waits till then. The form of the waits is that of log 17.
-/
def Obligations.Batches : Prop :=
  (∀ o : WOp, OnFrag (.bclose o) { cls := .both, w := o.w, touch := true, fence := false, rel := false } (fun s c t =>
    batchesFull s c.gr.closedB = false → ∃ kept, Becomes s t c.g { c.gr with batch := c.gr.batch + 1, openB := [], frags := fragsAt s c (c.fr.pc + 4), closedB := kept ++ (if c.gr.openB = [] then [] else [{ num := c.gr.batch + 1, items := c.gr.openB }]) } ∧
      (∀ b ∈ c.gr.closedB, b.landed s = false → b ∈ kept) ∧ ∀ b ∈ kept, b ∈ c.gr.closedB)) ∧
  (∀ o : WOp, OnCtl (.bclose o) (fun s cc c t =>
    batchesFull s c.closedB = false → ∃ kept, BecomesCtl s t cc { c with batch := c.batch + 1, openB := [], wait := .run, pc := c.pc + 4, closedB := kept ++ (if c.openB = [] then [] else [{ num := c.batch + 1, items := c.openB }]) } ∧
      (∀ b ∈ c.closedB, b.landed s = false → b ∈ kept) ∧ ∀ b ∈ kept, b ∈ c.closedB)) ∧
  (∀ i w num, (∃ o : BwaitImmOp, (i, w, num) = (Instr.bwaitImmediate o, o.w, fun (_ : State) (_ : Actor) => o.n)) ∨
      (∃ o : SrcOp, (i, w, num) = (Instr.bwaitRegister o, o.w, fun s a => (a.getS s.free 0 o.sa.toNat).setWidth 16)) →
    OnActor i (bwaitInfo w) none (fun s _ a t =>
      let closed := match a with | .frag c => c.gr.closedB | .ctl _ c => c.closedB
      let now := match a with | .frag c => c.gr.batch | .ctl _ c => c.batch
      let l := closed.filter (fun b => (num s a - b.num).toNat < 2 ^ 15 && (now - b.num).toNat < 2 ^ 15)
      ((∀ b ∈ l, b.landed s = true) → a.RegStep { s with copies := s.copies.filter (fun k => !(l.any (·.engine) && k.site == a.who.site)) } t [] (a.pcOf + 8)) ∧
      ((∃ b ∈ l, b.landed s = false) → match a with
        | .frag c => ∃ gr : Group, t.groups[c.g]? = some gr ∧ ∃ fr, gr.frag? c.f = some fr ∧ fr.pc = c.fr.pc ∧ fr.wait = .batch (num s a) now (l.any (·.engine))
        | .ctl cc c => BecomesCtl s t cc { c with wait := .batch (num s a) now (l.any (·.engine)) })))

/-! ### Matrices (13) -/

/-- R269, R144, R145: an element of a product: integers exactly, modulo 2^32; floating values, of every operand type, summed
exactly with the accumulator before the one rounding rn, with its overflow and underflow; an exact zero is -0 where every term is
-0; an infinity stays, and a NaN or infinities of both signs give the canonical NaN. R268, R269, R264, R143: MMA adds the products of each
active thread's row with the panel to its row of the tile; nothing else of the CB window changes. R267, R269, R272: MMAS picks
the rows of A that the metadata names, and an octet that is not whole is refused with its number; SPK compresses a panel of WB
and gives each active thread the metadata of its two columns; a destination that overlaps its source, or lies outside, is
ACCESS with the destination's offset (log 29). -/
def Obligations.MatrixMultiply : Prop :=
  (
    (∀ z old (l : List (Int × Int)), (matElem .i8 z old (l.map (fun p => (.fin (p.1 < 0) p.1.natAbs 0, .fin (p.2 < 0) p.2.natAbs 0)))).1
      = (BitVec.ofInt 32 ((if z then 0 else (BitVec.ofNat 32 old).toInt) + (l.map (fun p => p.1 * p.2)).sum)).toNat) ∧
    (∀ (t : FTy) (c : FVal) (terms : List FVal) (x : Nat), t = .f32 ∨ t = .f64 → x < 2 ^ t.width → (∀ v ∈ c :: terms, FVal.isFin v = true) → FVal.isFin (fDecode t x) = true →
      FVal.rat (fDecode t x) = ((c :: terms).map FVal.rat).sum → FVal.rat (fDecode t x) ≠ 0 → matrixSum t c terms = (x, 0)) ∧
    (∀ (t : MatTy) z old (prods : List (FVal × FVal)), let terms := prods.map (fun p => (mulV p.1 p.2).1)
      (t.acc = .f32 → (matElem t z old prods).1 = (matrixSum .f32 (if z then .fin true 0 0 else fDecode .f32 old) terms).1) ∧
      (t.acc = .f64 → (matElem t z old prods).1 = (matrixSum .f64 (if z then .fin true 0 0 else fDecode .f64 old) terms).1)) ∧
    (∀ (t : FTy) (c : FVal) (terms : List FVal), (∀ v ∈ c :: terms, FVal.isFin v = true) → let x := ((c :: terms).map FVal.rat).sum
      (x ≠ 0 → Delivered t .rn x (matrixSum t c terms)) ∧
      (x = 0 → (∀ v ∈ c :: terms, ∃ e, v = .fin true 0 e) → matrixSum t c terms = (fZero t true, 0)) ∧
      (x = 0 → (∃ v ∈ c :: terms, ∀ e, v ≠ .fin true 0 e) → matrixSum t c terms = (fZero t false, 0))) ∧
    (∀ (t : FTy) (c : FVal) (terms : List FVal) n, (∀ v ∈ c :: terms, FVal.isNan v = false) → FVal.inf n ∈ c :: terms → FVal.inf (!n) ∉ c :: terms →
      matrixSum t c terms = (fInf t n, 0)) ∧
    (∀ (t : FTy) (c : FVal) (terms : List FVal), (∃ v ∈ c :: terms, FVal.isNan v = true) ∨ (FVal.inf true ∈ c :: terms ∧ FVal.inf false ∈ c :: terms) →
      matrixSum t c terms = (fNaN t, flNV)) ∧
    (∀ a b, (addElem .i8 a b).1 = (a + b) % 2 ^ 32) ∧ (∀ a b, (addElem .f64 a b).1 = (fAdd .f64 .rn false a b).1) ∧
    (∀ t, t.acc = .f32 → ∀ a b, (addElem t a b).1 = (fAdd .f32 .rn false a b).1)
  ) ∧
  (
    ∀ o : MmaOp, OnFrag (.mma o) (laneMemInfo o.w) (fun s c t =>
      let ts := c.active s.free o.g
      let b (tid : Nat) : Nat := (c.st s.free 4 tid o.sw.toNat).toNat
      let base (tid : Nat) : Nat := (c.st s.free 5 tid o.sc.toNat).toNat
      let k := matK o.t
      (ts = [] → ∃ gr, RegStep s c t [] [] (c.fr.pc + 8) gr) ∧
      (ts ≠ [] → (∀ tid ∈ ts, b tid % 64 = 0 ∧ base tid % 256 = 0 ∧ wbInside s c.gr.block (b tid) (panelBytes o.t k (k / 32)) = true ∧
          tilesInside s c o.t (base tid) 1 tid = true) →
        MatStep s c t [] (inRows c o.t base 1 ts) ∧
        (o.t = .i8 → t.cores = s.cores) ∧
        ∀ tid ∈ ts, ownRow c o.t base ts tid → ∀ n < o.t.n, cbElem t c o.t (base tid) 0 tid n = (matElem o.t o.z (cbElem s c o.t (base tid) 0 tid n)
          ((List.range k).map (fun i => ((groupVals c s.free tid o.t o.va.toNat (o.va.toNat + 8)).getD i (.nan true),
            panelVal (wbByte s c.gr.block) o.t (b tid) k (k / 32) n i i)))).1))
  ) ∧
  (
    (∀ o : MmasOp, OnFrag (.mmas o) (laneMemInfo o.w) (fun s c t =>
      let ty := spMat o.t
      let ts := c.active s.free o.g
      let b (tid : Nat) : Nat := (c.st s.free 4 tid o.sw.toNat).toNat
      let base (tid : Nat) : Nat := (c.st s.free 5 tid o.sc.toNat).toNat
      let k := matK ty
      let a (tid : Nat) : List FVal := groupVals c s.free tid ty o.va.toNat (o.va.toNat + 16) ++ groupVals c s.free tid ty (o.va.toNat + 8) (o.va.toNat + 17)
      let row (tid n i : Nat) : Nat := spRow o.pat i n k (metaStream c s.free (tid / 8 * 8 + n / 2) o.vm.toNat (metaRegs o.t o.pat))
      (ts = [] → ∃ gr, RegStep s c t [] [] (c.fr.pc + 8) gr) ∧
      (ts ≠ [] → (∀ tid ∈ ts, b tid % 64 = 0 ∧ base tid % 256 = 0 ∧ wbInside s c.gr.block (b tid) (panelBytes ty k (2 * k / 32)) = true ∧
          tilesInside s c ty (base tid) 1 tid = true) →
        (∀ j, partialOctet ts = some j → t = raiseFrag (started s c o.w) c 9 0 (BitVec.ofNat 64 j) (some c.fr.pc)) ∧
        (partialOctet ts = none → MatStep s c t [] (inRows c ty base 1 ts) ∧
          ∀ tid ∈ ts, ownRow c ty base ts tid → ∀ n < ty.n, cbElem t c ty (base tid) 0 tid n = (matElem ty o.z (cbElem s c ty (base tid) 0 tid n)
            ((List.range k).map (fun i => ((a tid).getD (row tid n i) (.fin false 0 0),
              panelVal (wbByte s c.gr.block) ty (b tid) k (2 * k / 32) n i (row tid n i))))).1)))) ∧
    (∀ o : SpkOp, OnFrag (.spk o) (laneMemInfo o.w) (fun s c t =>
      let ty := spMat o.t
      let ts := c.active s.free o.g
      let src := (c.s s.free 4 o.sw.toNat).toNat
      let dst := (c.s s.free 5 o.sc.toNat).toNat
      let k := matK ty
      let sn := panelBytes ty (2 * k) (2 * k / 32)
      let dn := panelBytes ty k (2 * k / 32)
      let panel := compress (wbByte s c.gr.block) ty o.pat src
      (ts = [] → ∃ gr, RegStep s c t [] [] (c.fr.pc + 8) gr) ∧
      (ts ≠ [] → src % 64 = 0 → dst % 64 = 0 → wbInside s c.gr.block src sn = true → (wbInside s c.gr.block dst dn = true → dst < src + sn ∧ src < dst + dn) →
        t = raiseFrag (started s c o.w) c 4 (c.s s.free 5 o.sc.toNat) (BitVec.ofNat 64 (ts.headD 0)) (some c.fr.pc)) ∧
      (ts ≠ [] → src % 64 = 0 → dst % 64 = 0 → wbInside s c.gr.block src sn = true → wbInside s c.gr.block dst dn = true → src + sn ≤ dst ∨ dst + dn ≤ src →
        panel.length = dn ∧ WindowOnly s t c.gr.block .wb dst dn ∧ (∀ i, i < dn → winRead t c.gr.block .wb (dst + i) 1 = [panel.getD i 0]) ∧
        ∃ gr, RegStep { s with blocks := t.blocks } c t (ts.flatMap (fun tid => (List.range (metaRegs o.t o.pat)).map (fun i =>
          (RegKey.v tid (o.vm.toNat + i), BitVec.ofNat 64 ((metaOf (wbByte s c.gr.block) ty o.pat src (tid % 8) (metaRegs o.t o.pat)).getD i 0))))) [] (c.fr.pc + 8) gr)))
  )

/-- R275, R278 to R281: MZERO and the clearing forms set rows to +0; MDRN writes the converted values of its tiles, packed, to
registers, each block of 32 with its exponents, .mem stores them, .peer puts adds for another member on their way. R280 to R282: an add that lands is performed
element by element at the target once that has started; an ordered one only in its turn under the descriptor as it is then,
which it takes. The order of the checks follows log 29. -/
def Obligations.MatrixDrains : Prop :=
  (
    (∀ o : MzeroOp, OnFrag (.mzero o) (laneMemInfo o.w) (fun s c t =>
      let ts := c.active s.free o.g
      let base (tid : Nat) : Nat := (c.st s.free 5 tid o.sc.toNat).toNat
      let n := 2 ^ o.lc.toNat
      (ts = [] → ∃ gr, RegStep s c t [] [] (c.fr.pc + 8) gr) ∧
      (ts ≠ [] → (∀ tid ∈ ts, base tid % 256 = 0 ∧ tilesInside s c o.t (base tid) n tid = true) →
        MatStep s c t [] (inRows c o.t base n ts) ∧ t.cores = s.cores ∧ ∀ k, inRows c o.t base n ts k → cbRead t c k 1 = [0]))) ∧
    (∀ o : MdrnOp, OnFrag (.mdrn o) (laneMemInfo o.w) (fun s c t =>
      let ts := c.active s.free o.g
      let base (tid : Nat) : Nat := (c.st s.free 5 tid o.sc.toNat).toNat
      let n := 2 ^ o.lc.toNat
      let vals (tid : Nat) : List Nat := (List.range n).flatMap (fun i => (List.range o.st.n).map (fun e => cbElem s c o.st (base tid) i tid e))
      (ts = [] → ∃ gr, RegStep s c t [] [] (c.fr.pc + 8) gr) ∧
      (ts ≠ [] → (∀ tid ∈ ts, base tid % 256 = 0 ∧ tilesInside s c o.st (base tid) n tid = true) →
        MatStep s c t (ts.flatMap (fun tid => (drainThread o.dt tid o.va.toNat (vals tid)).1)) (fun k => o.clr = true ∧ inRows c o.st base n ts k) ∧
        (o.clr = true → ∀ k, inRows c o.st base n ts k → cbRead t c k 1 = [0])))) ∧
    (∀ (o : MdrnMemOp) (s : State) (c : Cx), Issues s c → Ready s c (.mdrnMem o) (laneMemInfo o.w) →
      let d := c.begun o.w
      let ts := d.active s.free o.g
      let base (tid : Nat) : Nat := (d.st s.free 5 tid o.sc.toNat).toNat
      let sz := o.dt.bits / 8
      let accs : List Acc := ts.flatMap (fun tid => (List.range o.st.n).map (fun e =>
        { tid, va := BitVec.ofNat 64 (d.lane s.free 1 tid 64 o.va.toNat) + BitVec.ofNat 64 (e * sz), n := sz, data := [] }))
      let vals : List (List Byte) := ts.flatMap (fun tid => (List.range o.st.n).map (fun e => leBytes sz (drainElem o.dt (cbElem s d o.st (base tid) 0 tid e)).1))
      (ts = [] → ∃ t gr, exec (.mdrnMem o) s = .next t ∧ RegStep s d t [] [] (c.fr.pc + 8) gr) ∧
      ∀ l s1, ts ≠ [] → (∀ tid ∈ ts, base tid % 256 = 0 ∧ tilesInside s d o.st (base tid) 1 tid = true) → checkAccs (started s c o.w) d.who .store accs = (.ok l, s1) →
        let stores := (l.zip vals).map (fun p => ({ p.1.1 with data := p.2 }, p.1.2))
        (storeAccs s1 d.who stores).1 = none →
        ∃ t gr, exec (.mdrnMem o) s = .next t ∧ Stored s t stores ∧
          RegStep { s with xlat := t.xlat, asids := t.asids, copies := t.copies, mem := t.mem, tags := t.tags, reg := t.reg, monitors := t.monitors, hostLines := t.hostLines, poison := t.poison, blocks := t.blocks, cores := t.cores }
            d t [] [] (c.fr.pc + 8) gr ∧
          (∀ (b : Nat) (y : Block), t.blocks[b]? = some y → ∃ x : Block, s.blocks[b]? = some x ∧ y = { x with cb := y.cb, clean := y.clean }) ∧
          (∀ k, ¬ (o.clr = true ∧ inRows d o.st base 1 ts k) → cbRead t d k 1 = cbRead s d k 1) ∧
          (o.clr = true → ∀ k, inRows d o.st base 1 ts k → cbRead t d k 1 = [0])) ∧
    (∀ o : MdrnPeerOp, OnFrag (.mdrnPeer o) (laneMemInfo o.w) (fun s c t =>
      let ts := c.active s.free o.g
      let x := (c.s s.free 4 o.sw.toNat).toNat
      let base (tid : Nat) : Nat := (c.st s.free 5 tid o.sc.toNat).toNat
      let dst := bits x 0 19
      let off := bits x 40 18
      (ts = [] → ∃ gr, RegStep s c t [] [] (c.fr.pc + 8) gr) ∧
      (∀ b, ts ≠ [] → dst % 256 = 0 → (o.ord = true → off % 16 = 0) → (∀ tid ∈ ts, base tid % 256 = 0 ∧ tilesInside s c o.st (base tid) 1 tid = true) →
        peerChecked s c o x ts = .ok b →
        ∃ adds, t.adds = s.adds ++ adds ∧ (∀ a ∈ adds, a.src = c.gr.block ∧ a.dst = b ∧ a.st = o.st ∧ a.desc = if o.ord then some off else none) ∧
          adds.flatMap (·.rows) = ((octetsOf ts).flatMap (fun j => ts.filter (fun tid => tid / 8 = j))).map (fun tid =>
            (rowOff o.st c.gr.size dst 0 tid, cbRead s c (rowOff o.st c.gr.size (base tid) 0 tid) (rowBytes o.st))) ∧
          (∃ gr run, RegStep { s with blocks := t.blocks, adds := t.adds, nextId := t.nextId } { c with gr := { c.gr with run } } t [] [] (c.fr.pc + 8) gr ∧ (run = none ↔ c.gr.run = none)) ∧
          (∀ (b : Nat) (y : Block), t.blocks[b]? = some y → ∃ x : Block, s.blocks[b]? = some x ∧ y = { x with cb := y.cb, clean := y.clean }) ∧
          (∀ k, ¬ (o.clr = true ∧ inRows c o.st base 1 ts k) → cbRead t c k 1 = cbRead s c k 1) ∧
          (o.clr = true → ∀ k, inRows c o.st base 1 ts k → cbRead t c k 1 = [0]))))
  ) ∧
  (
    ∀ (s : State) (a : PeerAdd) (b : Block), a ∈ s.adds → (s.adds.map (·.id)).Nodup → s.blocks[a.dst]? = some b →
      (b.life ≠ .running → exec (.peerAddLanding a.id) s = .next s) ∧ (b.life = .running → b.ending = false → (∀ x : Block, s.blocks[a.src]? = some x → x.ending = false) →
      (∀ r ∈ a.rows, r.2.length = rowBytes a.st) → (a.rows.map (·.1)).Pairwise (fun x y => x + rowBytes a.st ≤ y ∨ y + rowBytes a.st ≤ x) →
      ∃ t, exec (.peerAddLanding a.id) s = .next t ∧
        ((∃ off, a.desc = some off ∧ (TileDesc.read (winRead s a.dst .ls off 16)).expected ≠ some a.member) → t = s) ∧
        ((∀ off, a.desc = some off → (TileDesc.read (winRead s a.dst .ls off 16)).expected = some a.member) →
          t.adds = s.adds.filter (fun x => x.id != a.id) ∧
          (∀ off, a.desc = some off → let d := (TileDesc.read (winRead s a.dst .ls off 16)).arrive a.member
            winRead t a.dst .ls off 2 = winRead s a.dst .ls off 2 ∧ winRead t a.dst .ls (off + 2) 2 = leBytes 1 d.next ++ leBytes 1 d.got ∧
            winRead t a.dst .ls (off + 4) 4 = winRead s a.dst .ls (off + 4) 4 ∧ winRead t a.dst .ls (off + 8) 8 = leBytes 8 d.round) ∧
          ∀ r ∈ a.rows, ∀ n < a.st.n, let m := accBytes a.st
            leNat (winRead t a.dst .cb (r.1 + n * m) m)
              = (addElem a.st (leNat (winRead s a.dst .cb (r.1 + n * m) m)) (leNat ((r.2.drop (n * m)).take m))).1))
  ) ∧
  (
    (∀ x, drainElem .f64 x = (x, [0, 0, 0, 0]) ∧ drainElem .f32 x = (x, [0, 0, 0, 0]) ∧ drainElem .i32 x = (x, [0, 0, 0, 0])) ∧
    (∀ m x, ∀ p ∈ [(DrainTy.f32of64 m, CvtPair.fltFlt .f64 .f32 m false), (.f32ofi32 m, .intFlt .i32 .f32 m false),
        (.bf16 m, .fltFlt .f32 .bf16 m false), (.f16 m, .fltFlt .f32 .f16 m false)],
      drainElem p.1 x = ((cvtResult p.2 x).1, [0, if (cvtResult p.2 x).2.getLsbD 2 then 1 else 0, if (cvtResult p.2 x).2.getLsbD 1 then 1 else 0, 0])) ∧
    (∀ (dt : DrainTy) tid va xs, (∀ vc, dt ≠ .bq8 vc ∧ dt ≠ .bq4 vc) →
      (dt.bits ≤ 32 → xs.length % (32 / dt.bits) = 0 → Packs dt.bits tid va (xs.map (fun x => (drainElem dt x).1)) (drainThread dt tid va xs).1) ∧
      (dt.bits = 64 → (drainThread dt tid va xs).1.map (·.1) = (List.range (2 * xs.length)).map (fun i => RegKey.v tid (va + i)) ∧
        ∀ i x, xs[i]? = some x → (RegKey.v tid (va + 2 * i), BitVec.ofNat 64 (x % 2 ^ 32)) ∈ (drainThread dt tid va xs).1 ∧
          (RegKey.v tid (va + 2 * i + 1), BitVec.ofNat 64 (x / 2 ^ 32 % 2 ^ 32)) ∈ (drainThread dt tid va xs).1) ∧
      ∀ k < 4, (drainThread dt tid va xs).2.getD k 0 = (xs.map (fun x => (drainElem dt x).2.getD k 0)).sum) ∧
    (∀ (b : BTy) vc tid va n (xs : List Nat), n ≤ 2 → xs.length = 32 * n →
      let dt : DrainTy := match b with | .bq8 => .bq8 vc | .bq4 => .bq4 vc
      let q (j : Nat) := quantise b (((xs.drop (32 * j)).take 32).map (fDecode .f32))
      let info := (List.range n).flatMap (fun j => (q j).2.2.2)
      (∃ out, (drainThread dt tid va xs).1 = out ++ wordDest tid vc.toNat
          (BitVec.ofNat 32 ((List.range n).map (fun j => ((q j).2.1 + 256 * (q j).2.2.1) * 2 ^ (16 * j))).sum) ∧
        Packs (bBits b) tid va ((List.range n).flatMap (fun j => (q j).1)) out) ∧
      (drainThread dt tid va xs).2 = [(info.filter (·.nan)).length, (info.filter (·.ov)).length, (info.filter (·.uf)).length, (info.filter (·.sat)).length])
  )

/-! ### Tiles (17) -/

/-- R245, R337, R339: LDA.tile reads the frames of its tiles once they are there and otherwise waits as the root of a miss. R343:
a miss of a tile that is only defined, and whose sources are there, pins them, takes a free frame and awaits its recipe run; with
no frame to be had it is TILE_FULL. R206: accesses to the tile window are counted for their core.
STA.tile writes them, opening tiles that are defined. Frames and pins follow log 35. -/
def Obligations.TileWindow : Prop :=
  (∀ o : MemOp, OnFrag (.ldaTile o) (laneMemInfo o.w) (fun s c t =>
    let n := accSize o.t o.c
    let accs : List Acc := (c.active s.free o.g).map (fun th => { tid := th, va := c.addr s.free th n o.a, n, data := [] })
    (∀ a ∈ accs, a.va.toNat % a.n = 0 ∧ tileInside s c true a = true) →
      ((∀ a ∈ accs, tileMisses s c a = false) → (s.chains.map (·.id)).Nodup →
        (∀ k, chainOf s c.g c.f = some k → k.stack = [] ∧ ∀ gr ∈ s.groups, ∀ r, gr.run = some r → r.chain ≠ k.id) →
        t.chains = s.chains.filter (fun k => decide (chainOf s c.g c.f ≠ some k)) ∧ ∃ gr, RegStep { s with chains := t.chains, cores := (countTiles s c.gr.place accs.length 0 0).cores } c t
          (accs.flatMap (fun a => loadOut o.t a.tid o.vt.toNat (bytesOf (tabGet 0 (tileAt s c.gr.block (tileOf a.va)).frame) (a.va.toNat % 2 ^ 14) n))) [] (c.fr.pc + 8) gr) ∧
      (∀ a, accs.find? (tileMisses s c) = some a → (∀ k ∈ s.chains, k.g ≠ c.g ∨ k.f ≠ c.f) → (∀ k ∈ s.chains, k.id ≠ s.nextId) → FirstMiss s c t a.va))) ∧
  (∀ o : MemOp, OnFrag (.staTile o) (laneMemInfo o.w) (fun s c t =>
    let n := accSize o.t o.c
    let accs : List Acc := (c.active s.free o.g).map (fun th => { tid := th, va := c.addr s.free th n o.a, n, data := c.storeData s.free th o.vt.toNat n })
    (∀ a ∈ accs, a.va.toNat % a.n = 0 ∧ tileInside s c false a = true ∧ (tileAt s c.gr.block (tileOf a.va)).state = .opened) →
      (∀ k ∈ s.chains, k.block ≠ c.gr.block) → c.gr.block < s.blocks.length →
      (∃ gr, RegStep { s with blocks := t.blocks, cores := (countTiles s c.gr.place accs.length 0 0).cores } c t [] [] (c.fr.pc + 8) gr) ∧
      (∀ x off, (∀ a ∈ accs, ¬ (tileOf a.va = x ∧ a.va.toNat % 2 ^ 14 ≤ off ∧ off < a.va.toNat % 2 ^ 14 + n)) →
        tabGet 0 (tileAt t c.gr.block x).frame off = tabGet 0 (tileAt s c.gr.block x).frame off) ∧
      (∀ l1 a l2, accs = l1 ++ a :: l2 → ∀ i < n,
        (∀ q ∈ l2, ¬ (tileOf q.va = tileOf a.va ∧ q.va.toNat % 2 ^ 14 ≤ a.va.toNat % 2 ^ 14 + i ∧ a.va.toNat % 2 ^ 14 + i < q.va.toNat % 2 ^ 14 + n)) →
        tabGet 0 (tileAt t c.gr.block (tileOf a.va)).frame (a.va.toNat % 2 ^ 14 + i) = a.data.getD i 0))) ∧
  (∀ o : MemOp, OnFrag (.staTile o) (laneMemInfo o.w) (fun s c t =>
    let n := accSize o.t o.c
    ∀ th a, c.active s.free o.g = [th] → a = ({ tid := th, va := c.addr s.free th n o.a, n, data := c.storeData s.free th o.vt.toNat n } : Acc) →
      a.va.toNat % n = 0 → tileInside s c false a = true → (tileAt s c.gr.block (tileOf a.va)).state = .defined →
      saveRoom s c.gr.block (tileOf a.va) = true → freeFrames s c.gr.place (coreOf s c.gr.place).carve ≠ [] → (∀ k ∈ s.chains, k.block ≠ c.gr.block) →
      (∃ gr, RegStep { s with blocks := t.blocks, cores := (countTiles s c.gr.place 0 1 0).cores } c t [] [] (c.fr.pc + 8) gr) ∧ (tileAt t c.gr.block (tileOf a.va)).state = .opened ∧
      ∀ off, tabGet 0 (tileAt t c.gr.block (tileOf a.va)).frame off
        = if a.va.toNat % 2 ^ 14 ≤ off ∧ off < a.va.toNat % 2 ^ 14 + n then a.data.getD (off - a.va.toNat % 2 ^ 14) 0 else 0))

/-- R342: TSEAL, TDROP, THOLD and TFREE on a tile operand: their statuses, and what each success changes. TDROP of a tile that
runs waits, and then goes straight on to the removal. R343: THOLD of a tile without its content is a miss. Frames and pins follow
log 35. -/
def Obligations.TileInstructions : Prop :=
  (∀ mk, mk ∈ [Instr.tseal, .tdrop, .thold, .tfree] → ∀ o : SUn, OnFrag (mk o) (compInfo o.w false) (fun s c t =>
    let x := c.s s.free 0 o.sa.toNat
    (∀ y, c.fr.wait ≠ .drop y) →
    (x.toNat % 16384 ≠ 0 → t = raiseFrag (started s c o.w) c 3 x c.low (some c.fr.pc)) ∧
    (x.toNat % 16384 = 0 → 2 ^ 20 ≤ x.toNat → t = raiseFrag (started s c o.w) c 4 x c.low (some c.fr.pc)) ∧
    (x.toNat % 16384 = 0 → x.toNat < 2 ^ 20 → (tileAt s c.gr.block (tileOf x)).state = .free → chainOf s c.g c.f = none →
      ∃ gr, RegStep s c t [(.s o.sd.toNat, 3)] [] (c.fr.pc + 4) gr))) ∧
  (∀ o : SUn, OnFrag (.tseal o) (compInfo o.w false) (fun s c t =>
    let x := c.s s.free 0 o.sa.toNat
    let r := tileAt s c.gr.block (tileOf x)
    x.toNat % 16384 = 0 → x.toNat < 2 ^ 20 →
      (r.state = .opened → tileAt t c.gr.block (tileOf x) = { r with state := .resident } ∧ ∃ gr, RegStep { s with blocks := t.blocks } c t [(.s o.sd.toNat, 0)] [] (c.fr.pc + 4) gr) ∧
      (r.state ∈ [.defined, .running, .resident] → ∃ gr, RegStep s c t [(.s o.sd.toNat, 5)] [] (c.fr.pc + 4) gr))) ∧
  (∀ o : SUn, OnFrag (.tdrop o) (compInfo o.w false) (fun s c t =>
    let x := c.s s.free 0 o.sa.toNat
    let r := tileAt s c.gr.block (tileOf x)
    let Waits (y : Nat) : Prop := ∃ gr fr, t.groups[c.g]? = some gr ∧ gr.frag? c.f = some fr ∧ fr.wait = .drop y ∧ fr.pc = c.fr.pc ∧
      GroupOnly s t c.g ∧ ∀ key, gr.read key = c.gr.read key
    let Removed (y : Nat) : Prop := (∀ k ∈ s.chains, k.block ≠ c.gr.block) →
        tileAt t c.gr.block y = Tile.empty ∧
        (∀ w, w ∈ (tileAt s c.gr.block y).words → ∀ n, (tileAt s c.gr.block y).words.count w = 1 → regOf s w = some (.frozen n) →
          regOf t w = if n ≤ 1 then none else some (.frozen (n - 1))) ∧
        (∀ w, w ∉ (tileAt s c.gr.block y).words → regOf t w = regOf s w) ∧
        ∃ gr, RegStep { s with blocks := t.blocks, reg := t.reg } c t [(.s o.sd.toNat, 0)] [] (c.fr.pc + 4) gr
    (∀ y, c.fr.wait = .drop y → ((tileAt s c.gr.block y).state = .running → Waits y) ∧ ((tileAt s c.gr.block y).state ≠ .running → Removed y)) ∧
    ((∀ y, c.fr.wait ≠ .drop y) → x.toNat % 16384 = 0 → x.toNat < 2 ^ 20 → r.state ≠ .free →
      (hasDependents s c.gr.block (tileOf x) = true → ∃ gr, RegStep s c t [(.s o.sd.toNat, 4)] [] (c.fr.pc + 4) gr) ∧
      (hasDependents s c.gr.block (tileOf x) = false → 0 < r.hold → ∃ gr, RegStep s c t [(.s o.sd.toNat, 5)] [] (c.fr.pc + 4) gr) ∧
      (hasDependents s c.gr.block (tileOf x) = false → r.hold = 0 → r.state ≠ .running → Removed (tileOf x)) ∧
      (hasDependents s c.gr.block (tileOf x) = false → r.hold = 0 → r.state = .running → Waits (tileOf x))))) ∧
  (∀ o : SUn, OnFrag (.thold o) (compInfo o.w false) (fun s c t =>
    let x := c.s s.free 0 o.sa.toNat
    let r := tileAt s c.gr.block (tileOf x)
    x.toNat % 16384 = 0 → x.toNat < 2 ^ 20 → r.state ≠ .free → chainOf s c.g c.f = none →
      (255 ≤ r.hold ∨ saveRoom s c.gr.block (tileOf x) = false → ∃ gr, RegStep s c t [(.s o.sd.toNat, 7)] [] (c.fr.pc + 4) gr) ∧
      (r.hold < 255 → saveRoom s c.gr.block (tileOf x) = true → r.state ∈ [.opened, .resident] →
        tileAt t c.gr.block (tileOf x) = { r with hold := r.hold + 1 } ∧ ∃ gr, RegStep { s with blocks := t.blocks } c t [(.s o.sd.toNat, 0)] [] (c.fr.pc + 4) gr) ∧
      (r.hold < 255 → saveRoom s c.gr.block (tileOf x) = true → r.state ∈ [.defined, .running] → (∀ k ∈ s.chains, k.id ≠ s.nextId) → FirstMiss s c t x))) ∧
  (∀ o : SUn, OnFrag (.tfree o) (compInfo o.w false) (fun s c t =>
    let x := c.s s.free 0 o.sa.toNat
    let r := tileAt s c.gr.block (tileOf x)
    x.toNat % 16384 = 0 → x.toNat < 2 ^ 20 → r.state ≠ .free →
      (r.hold = 0 → ∃ gr, RegStep s c t [(.s o.sd.toNat, 5)] [] (c.fr.pc + 4) gr) ∧
      (0 < r.hold → tileAt t c.gr.block (tileOf x) = { r with hold := r.hold - 1 } ∧ ∃ gr, RegStep { s with blocks := t.blocks } c t [(.s o.sd.toNat, 0)] [] (c.fr.pc + 4) gr)))

/-- R340 to R345: TDEF defines a record from its descriptor, with its frozen words; a run of the tile starts in its recipe
slot with the record's arguments, if the descriptor at its entry is still a recipe's, and else the root requester takes ACCESS
(R99). Frames, pins and recipe runs follow log 35. -/
def Obligations.TileDefinitions : Prop :=
  (∀ (o : TdefOp) (s : State) (c : Cx), Issues s c → Ready s c (.tdef o) (compInfo o.w true) →
    let d := c.begun o.w
    let x := d.s s.free 0 o.sa.toNat
    let desc := d.s s.free 1 o.sb.toNat
    (d.runs s.free o.g = false → ∃ t gr, exec (.tdef o) s = .next t ∧ RegStep s d t [] [] (c.fr.pc + 8) gr) ∧
    ∀ l s1 r e ws s3, d.runs s.free o.g = true → x.toNat % 16384 = 0 → x.toNat < 2 ^ 20 → desc.toNat % 128 = 0 →
      checkAccs (started s c o.w) d.who .load (accs8 d.lowTid desc [] 16) = (.ok l, s1) → (loadAccs s1 d.who l).2.1 = none →
      parseRecord ((loadAccs s1 d.who l).1.flatMap (·.2)) = some r → readEntryDesc (loadAccs s1 d.who l).2.2 c.gr.ctx r.entry = .ok (some e) → e.recipeOk = true →
      checkAccs (loadAccs s1 d.who l).2.2 d.who .load (rangeAccs d.lowTid r) = (.ok ws, s3) →
      let base (t : State) : State := { s with xlat := t.xlat, asids := t.asids, copies := t.copies, reg := t.reg }
      let words := ws.map (fun p => p.2.1 / 4)
      ∃ t gr, exec (.tdef o) s = .next t ∧
        ((tileAt s c.gr.block (tileOf x)).state ≠ .free → SameButLines s t ∧ RegStep (base t) d t [(.s o.sd.toNat, 2)] [] (c.fr.pc + 8) gr) ∧
        ((tileAt s c.gr.block (tileOf x)).state = .free → (∃ z ∈ tileSources r 4, (tileAt s c.gr.block z).state = .free) →
          SameButLines s t ∧ RegStep (base t) d t [(.s o.sd.toNat, 3)] [] (c.fr.pc + 8) gr) ∧
        ((tileAt s c.gr.block (tileOf x)).state = .free → (∀ z ∈ tileSources r 4, (tileAt s c.gr.block z).state ≠ .free) →
          (∃ b : Block, s.blocks[c.gr.block]? = some b ∧ tileOf x < b.tiles.length) → words.Nodup →
          (∀ w ∈ words, registers w = true ∧ (regOf s w = none ∨ (∃ a va, regOf s w = some (.released a va)) ∨ ∃ last va, regOf s w = some (.owned (.group c.g) last va))) →
          tileAt t c.gr.block (tileOf x) = { r with words } ∧
          (∀ w, (regOf t w).map Reg.unplaced = if w ∈ words then some (.frozen 1) else match regOf s w with
            | some (.owned b last _) => if b = .group c.g then some (.released b 0) else some (.owned b last 0)
            | y => y.map Reg.unplaced) ∧
          RegStep { base t with blocks := t.blocks, monitors := t.monitors } d t [(.s o.sd.toNat, 0)] [] (c.fr.pc + 8) gr)) ∧
  (∀ (s : State) (blk x d : Nat) (b : Block) (k : Machine.Chain) rest, s.blocks[blk]? = some b → b.life = .running → s.chains = [k] → k.block = blk →
    k.stack = (x, d, 5) :: rest → (tileAt s blk x).state = .running → runBusy s b.core blk x d = false →
    let entry := (tileAt s blk x).entry
    (readEntryDesc s b.ctx entry = .ok none → exec (.recipeRun blk x) s = .next (failChain s k 4 (entry - 32) (rootLow s k))) ∧
    (∀ e, readEntryDesc s b.ctx entry = .ok (some e) → e.recipeOk = false → exec (.recipeRun blk x) s = .next (failChain s k 4 (entry - 32) (rootLow s k))) ∧
    ∀ e, readEntryDesc s b.ctx entry = .ok (some e) → e.recipeOk = true →
    ∃ t gr, exec (.recipeRun blk x) s = .next t ∧ t = { s with groups := s.groups ++ [gr] } ∧ gr.run = some { tile := x, depth := d, chain := k.id, cbLen := e.cb, cb := [] } ∧
      gr.block = blk ∧ gr.place = b.core ∧ gr.size = e.size ∧ gr.life = .live ∧ (∃ fr, gr.frags = [fr] ∧ fr.pc = (tileAt s blk x).entry) ∧
      ∀ i, gr.read (.s i) = (runArgs (tileAt s blk x) x).getD i 0)

/-! ### Traps and control registers (06, 15, 16) -/

/-- R306 to R309: an exact trap leaves the registers and the pc and enters the group's queue; a ninth entry, or a trap of an
instruction in a handler, stops the group. R228, R307: races that a group has detected are queued in the order they were raised,
before a later trap. R308, R310, R116: the head of the queue is delivered when its fragment is at an
instruction boundary: the group is marked in handler and the fragment goes on at %tvec, its return address in TQRPC; a %tvec
of 0 or one that is misaligned stops the group. R311, R115: TFENCE traps where a masked flag of the fragment is set; TRAP and
TRAP.break always do, with the number in TQAUX and the next instruction as return address; RTE resumes at TQRPC and drops the
head entry. What TQADDR and TQAUX hold follows log 32. -/
def Obligations.FragmentTraps : Prop :=
  (
    ∀ (s : State) (c : Cx) (cause : Nat) (addr aux : DWord) (rpc : Option DWord), s.groups[c.g]? = some c.gr → c.gr.run = none →
      c.gr.late = [] →
      (c.gr.inHandler c.fr = false → c.gr.trapQ.length < 8 →
        Becomes s (raiseFrag s c cause addr aux rpc) c.g { c.gr with trapQ := c.gr.trapQ ++ [{ cause, frag := c.f, slot := c.fr.slot.getD 0, ipc := c.fr.pc, addr, aux, rpc }] }) ∧
      (c.gr.inHandler c.fr = true ∨ 8 ≤ c.gr.trapQ.length → (raiseFrag s c cause addr aux rpc).groups = s.groups.modify c.g (fun gr => { gr with life := .stopped }))
  ) ∧
  (
    ∀ (s : State) (g : Nat) (gr : Group), s.groups[g]? = some gr → gr.run = none → (∀ x ∈ gr.late, x.fill = none ∧ x.byHandler = false) →
      gr.trapQ.length + gr.late.length ≤ 8 → Becomes s (settleLate s g) g { gr with trapQ := gr.trapQ ++ gr.late.map (·.entry), late := [] }
  ) ∧
  (
    ∀ (s : State) (g : Nat) (gr : Group) (e : TrapEntry) (l : List TrapEntry) (fr : Frag), s.groups[g]? = some gr → gr.trapQ = e :: l →
      gr.frag? e.frag = some fr → gr.shared = [] → gr.late = [] →
      (deliverable s g = false → exec (.trapDelivery g) s = .next s) ∧
      (deliverable s g = true → gr.tvec.toNat % 4 = 0 → gr.tvec ≠ 0 → ∃ t gr', exec (.trapDelivery g) s = .next t ∧ Becomes { s with chains := t.chains } t g gr' ∧
        gr'.trapQ = { e with rpc := some (e.rpc.getD fr.pc) } :: l ∧ gr'.handler = some { frag := e.frag, mask := fr.mask } ∧
        (∀ key, gr'.read key = gr.read key) ∧ (∀ o ∈ gr'.older, o.frag ≠ e.frag) ∧
        gr'.frags = gr.frags.map (fun x => if x.id = e.frag then { x with pc := gr.tvec, wait := .run } else x)) ∧
      (deliverable s g = true → gr.tvec.toNat % 4 ≠ 0 ∨ gr.tvec = 0 →
        ∃ t, exec (.trapDelivery g) s = .next t ∧ t.groups = s.groups.modify g (fun gr => { gr with life := .stopped }))
  ) ∧
  (
    (∀ o : WOp, OnFrag (.tfence o) (trapInfo true) (fun s c t => c.gr.shared = [] →
      let x := (threadsOf c.fr.mask c.gr.size).foldl (fun x th => x ||| tabGet 0 c.gr.fflags th) 0 &&& c.gr.fmask
      (x = 0 → ∃ gr, RegStep s c t [] [] (c.fr.pc + 4) gr) ∧
      (x ≠ 0 → t = raiseFrag (started s c true) c 8 0 (x.setWidth 64) (some (c.fr.pc + 4))))) ∧
    (∀ mk cause, (mk, cause) ∈ [(Instr.trap, 18), (.trapBreak, 17)] → ∀ o : TrapOp, OnFrag (mk o) (trapInfo false) (fun s c t =>
      (c.gr.late = [] → c.gr.inHandler c.fr = false → c.gr.trapQ.length < 8 →
        Becomes s t c.g { c.gr with frags := fragsAt s c c.fr.pc, trapQ := c.gr.trapQ ++ [{ cause, frag := c.f, slot := c.fr.slot.getD 0, ipc := c.fr.pc, addr := 0, aux := o.n.setWidth 64, rpc := some (c.fr.pc + 4) }] }) ∧
      t = raiseFrag (started s c true) c cause 0 (o.n.setWidth 64) (some (c.fr.pc + 4)))) ∧
    (∀ o : WOp, OnFrag (.rte o) (trapInfo false) (fun s c t =>
      (∀ h e l rpc, c.gr.handler = some h → c.gr.trapQ = e :: l → h.mask = c.fr.mask → e.rpc = some rpc → rpc.toNat % 4 = 0 →
        Becomes s t c.g { c.gr with trapQ := l, handler := none, frags := fragsAt s c rpc }) ∧
      (c.gr.handler = none → t = raiseFrag (started s c true) c 1 0 (wordOf (.rte o)) (some c.fr.pc))))
  )

/-- R313 to R315: a parked instruction repeats its walk 4,096 clk after it parked, and when a line that it waits on is
written: it is performed and leaves the log, stays parked on what is missing, or is dropped with a deferred ACCESS. A fetch
that waits goes on once its page is there. What a replay waits on follows log 16. -/
def Obligations.Replays : Prop :=
  (∀ (s : State) (g : Nat) (gr : Group) (e : LogEntry) (fr : Frag) (line : Nat), s.groups[g]? = some gr → gr.run = none → gr.log = [e] →
    gr.frag? e.frag = some fr → replays s g = true → (∀ b ∈ s.blocks, b.life ≠ .switchedOut) →
    let c : Cx := { g, f := e.frag, gr := { gr with log := [] }, fr := { fr with pc := e.ipc, mask := e.mask } }
    let base (s : State) : State := modGroup s g (fun _ => { gr with log := [] })
    let Repeated (s t : State) : Prop :=
      (∀ a s2, replayChecks (base s) c.who e.req = (.access a, s2) → e.byHandler = false → gr.late = [] → gr.trapQ.length < 8 →
        Becomes s2 t g { gr with log := [], trapQ := gr.trapQ ++ [{ cause := 4, frag := fr.id, slot := fr.slot.getD 0, ipc := e.ipc, addr := a.va, aux := BitVec.ofNat 64 a.tid, rpc := none }] }) ∧
      (∀ pages dies s2, replayChecks (base s) c.who e.req = (.park pages dies, s2) → (∀ p ∈ pages, ∃ y ∈ gr.pages, samePage p.1 y = true) →
        Becomes { s2 with monitors := t.monitors } t g { gr with log := [{ e with pages := pages.map (·.1), dies }] }) ∧
      (∀ ty n vt l s2, e.req.kind = .load ty n vt → replayChecks (base s) c.who e.req = (.ok l, s2) → (loadAccs s2 c.who l).2.1 = none →
        ∃ gr' : Group, t.groups[g]? = some gr' ∧ gr'.log = [] ∧ gr'.frags = gr.frags ∧ t.mem = s2.mem ∧ SameButLines s2 t ∧
          ∀ key, key.real = true → gr'.read key = after ((loadAccs s2 c.who l).1.flatMap (fun p => loadOut ty p.1.tid vt.toNat p.2)) key (gr.read key))
    (e.since + 4096 ≤ clk s → ∃ t, exec (.walkRetry g e.id) s = .next t ∧ Repeated s t) ∧
    (clk s < e.since + 4096 → exec (.walkRetry g e.id) s = .next s) ∧
    (s.monitors.filter (fun m => m.line == line && m.woken) = [{ line, waiter := .group g, woken := true }] →
      ∃ t, exec (.monitorWake line) s = .next t ∧ Repeated { s with monitors := s.monitors.filter (fun m => !(m.line == line && m.woken)) } t)) ∧
  (∀ (s : State) (g f line : Nat) (gr : Group) (fr : Frag) va since, s.groups[g]? = some gr → gr.frag? f = some fr → fr.wait = .fetch va since →
    (∀ b ∈ s.blocks, b.life ≠ .switchedOut) → s.monitors.filter (fun m => m.line == line && m.woken) = [{ line, waiter := .fetch g f, woken := true }] →
    let s1 : State := { s with monitors := s.monitors.filter (fun m => !(m.line == line && m.woken)) }
    ∃ t, exec (.monitorWake line) s = .next t ∧
      (∀ pte, (walkFrom s none gr.ctx va.toNat 4 gr.ctx.root.toNat).1 = .invalid pte → t = armMonitor s1 pte (.fetch g f)) ∧
      ((∀ pte, (walkFrom s none gr.ctx va.toNat 4 gr.ctx.root.toNat).1 ≠ .invalid pte) →
        Becomes s1 t g { gr with frags := gr.frags.map (fun x => if x.id = f then { x with wait := .run } else x) }))

/-- R112 to R119, R310: CSRR of a fragment: the registers by their numbers; a number that is none is ILLEGAL; a read of ILCK
waits where its record's home is offline (R236). R124, R116 to
R118: CSRW, CSRW.set and CSRW.clr of a fragment: the flags of its threads, %fmask, %tvec, %prog, and TQRPC in a handler; other
numbers are ILLEGAL. -/
def Obligations.ControlRegisters : Prop :=
  (
    ∀ o : CsrOp, OnFrag (.csrr o) (csrInfo o.w) (fun s c t =>
      (fragReadable o.csr.toNat = false → t = raiseFrag (started s c o.w) c 1 0 (wordOf (.csrr o)) (some c.fr.pc)) ∧
      (∀ d, o.csr.toNat = 0x21 → fixedAt s c.gr.ctx (ilckPa c.gr.ctx) = .offline d → Actor.waits t (.frag c)) ∧
      (fragReadable o.csr.toNat = true → (o.csr.toNat = 0x21 → ∀ d, fixedAt s c.gr.ctx (ilckPa c.gr.ctx) ≠ .offline d) → c.gr.shared = [] → ∃ gr x, RegStep s c t [(.s o.s.toNat, x)] [] (c.fr.pc + 4) gr ∧
        CfgReads s o.csr.toNat x ∧ (c.gr.handler = none → 0x40 ≤ o.csr.toNat → o.csr.toNat ≤ 0x45 → x = 0) ∧
        ∀ n v, o.csr.toNat = n → (n, v) ∈ [
            (1, BitVec.ofNat 64 c.gr.gid), (2, BitVec.ofNat 64 c.gr.grant),
            (3, BitVec.ofNat 64 (taskNumbers s c.gr.block).1), (4, BitVec.ofNat 64 (taskNumbers s c.gr.block).2), (5, BitVec.ofNat 64 (c.gr.place / 128)), (6, BitVec.ofNat 64 c.gr.place),
            (7, (c.gr.ctx.asid.setWidth 64 : DWord) + (c.gr.ctx.key.setWidth 64) <<< 16), (8, s.time), (9, c.gr.batch.setWidth 64),
            (0x10, ((threadsOf c.fr.mask c.gr.size).foldl (fun x th => x ||| tabGet 0 c.gr.fflags th) 0).setWidth 64),
            (0x11, c.gr.fmask.setWidth 64), (0x12, c.gr.tvec), (0x13, c.gr.prog.setWidth 64), (0x20, BitVec.ofNat 64 Config.stepId),
            (0x21, BitVec.ofNat 64 ((if c.gr.interlocked then 2 else 0) + ilckBit s c.gr.ctx))] → x = v)) ∧
    ∀ o : CsrOp, OnFrag (.csrr o) (csrInfo o.w) (fun s c t => ∀ h e l, c.gr.handler = some h → c.gr.trapQ = e :: l → ∃ gr x,
      (fragReadable o.csr.toNat = true → o.csr.toNat ≠ 0x21 → RegStep s c t [(.s o.s.toNat, x)] [] (c.fr.pc + 4) gr) ∧
      ∀ n v, o.csr.toNat = n → (n, v) ∈ [(0x40, BitVec.ofNat 64 (e.cause + e.slot * 2 ^ 16)), (0x41, e.ipc), (0x42, e.addr), (0x43, e.aux),
        (0x44, e.rpc.getD 0), (0x45, BitVec.ofNat 64 (l.length + 1))] → x = v)
  ) ∧
  (
    ∀ mk fn, (mk, fn) ∈ [(Instr.csrw, CsrwFn.write), (.csrwSet, .set), (.csrwClr, .clr)] → ∀ o : CsrOp, OnFrag (mk o) (csrInfo o.w) (fun s c t =>
      let x := c.s s.free 0 o.s.toNat
      let f (w : Nat) (old : BitVec w) : BitVec w := match fn with
        | .write => x.setWidth w | .set => old ||| x.setWidth w | .clr => old &&& ~~~(x.setWidth w)
      let fr := fragsAt s c (c.fr.pc + 4)
      let n := o.csr.toNat
      (n ∉ [0x10, 0x11, 0x12, 0x13, 0x44] ∨ (n = 0x44 ∧ c.gr.inHandler c.fr = false) →
        t = raiseFrag (started s c o.w) c 1 0 (wordOf (mk o)) (some c.fr.pc)) ∧
      (n = 0x10 → ∃ fl, Becomes s t c.g { c.gr with frags := fr, fflags := fl } ∧
        ∀ th, tabGet 0 fl th = if th ∈ threadsOf c.fr.mask c.gr.size then f 5 (tabGet 0 c.gr.fflags th) else tabGet 0 c.gr.fflags th) ∧
      (n = 0x11 → ∃ sh, Becomes s t c.g { c.gr with frags := fr, fmask := f 5 c.gr.fmask, shared := sh }) ∧
      (n = 0x12 → ∃ sh, Becomes s t c.g { c.gr with frags := fr, tvec := f 64 c.gr.tvec, shared := sh } ∧ (c.gr.frags.length ≤ 1 → c.gr.shared = [] → sh = [])) ∧
      (n = 0x13 → ∃ sh, Becomes s t c.g { c.gr with frags := fr, prog := f 8 c.gr.prog, shared := sh }) ∧
      (∀ e l, n = 0x44 → c.gr.inHandler c.fr = true → c.gr.trapQ = e :: l →
        Becomes s t c.g { c.gr with frags := fr, trapQ := { e with rpc := some (f 64 (e.rpc.getD 0)) } :: l }))
  )

/-- R118, R120 to R122, R25: the control registers of a control core: ILLEGAL for a number that is none, PRIV for a private
one in user mode, and the values and effects in privileged mode, the configuration registers in either; a KBIND that names a
busy ASID sets KSTATE.AB alone. R119, R121, R122, R124: the writes of control registers as events: KBIND, which a busy ASID
turns into KSTATE.AB; KPEND, of which bit 0 stays 0; bit 0 of the ilck byte, which waits while the byte cannot be reached or the
release has to wait (log 17); the registers without a behaviour of their own. KSTATE.AB is cleared by CSRW.clr alone, and set
otherwise, as log 32 reads it. -/
def Obligations.ControlCoreRegisters : Prop :=
  (
    (∀ o : CsrOp, OnCtl (.csrr o) (fun s cc c t =>
      let n := o.csr.toNat
      (ctlReadable n = false → t = raiseCtl s cc 1 0 (wordOf (.csrr o))) ∧
      (n ∈ [0x800, 0x801, 0x802, 0x803, 0x804, 0x805, 0x810] → c.pv = false → t = raiseCtl s cc 2 0 0) ∧
      (∀ key, n = 0x21 → ilckAt s c = .at key → BecomesCtl s t cc { c.setS o.s.toNat (BitVec.ofNat 64 (2 + ilckBit s c.ctx)) with pc := c.pc + 4, wait := .run }) ∧
      (∀ v, (n, v) ∈ [(5, BitVec.ofNat 64 (cc / 24)), (7, (c.ctx.asid.setWidth 64 : DWord) + (c.ctx.key.setWidth 64) <<< 16), (8, s.time), (0x20, BitVec.ofNat 64 Config.stepId),
          (0x820, BitVec.ofNat 64 (cc / 24 * 32 + cc % 24))] ∨ c.pv = true ∧ (n, v) ∈ [
          (0x800, BitVec.ofNat 64 (c.depth * 16 + (if c.ab then 8 else 0) + (if c.ie then 2 else 0) + (if c.pv then 1 else 0))),
          (0x801, c.karea), (0x802, c.ktbl), (0x803, c.kpend.setWidth 64), (0x804, c.kmask.setWidth 64), (0x810, c.kbind),
          (0x805, if c.depth = 0 then 0 else c.karea + BitVec.ofNat 64 (128 * (c.depth - 1)))] →
        BecomesCtl s t cc { c.setS o.s.toNat v with pc := c.pc + 4 }) ∧
      (isCfg n = true → ∃ v, CfgReads s n v ∧ BecomesCtl s t cc { c.setS o.s.toNat v with pc := c.pc + 4 }))) ∧
    (∀ mk fn, (mk, fn) ∈ [(Instr.csrw, CsrwFn.write), (.csrwSet, .set), (.csrwClr, .clr)] → ∀ o : CsrOp, OnCtl (mk o) (fun s cc c t =>
      let n := o.csr.toNat
      let x := c.sreg o.s.toNat
      let f (w : Nat) (old : BitVec w) : BitVec w := match fn with
        | .write => x.setWidth w | .set => old ||| x.setWidth w | .clr => old &&& ~~~(x.setWidth w)
      let d : Ctl := { c with pc := c.pc + 4 }
      let busy (v : DWord) : Bool := (tabGet { presence := 0, busy := false } s.asids (v.toNat % 2 ^ 16)).busy
      (n ∉ [0x21, 0x800, 0x801, 0x802, 0x803, 0x804, 0x810] → t = raiseCtl s cc 1 0 (wordOf (mk o))) ∧
      (n ∈ [0x21, 0x800, 0x801, 0x802, 0x803, 0x804, 0x810] → c.pv = false → t = raiseCtl s cc 2 0 0) ∧
      (n = 0x801 → c.pv = true → BecomesCtl s t cc { d with karea := f 64 c.karea }) ∧
      (n = 0x802 → c.pv = true → BecomesCtl s t cc { d with ktbl := f 64 c.ktbl }) ∧
      (n = 0x803 → c.pv = true → BecomesCtl s t cc { d with kpend := f 8 c.kpend &&& 0xFE }) ∧
      (n = 0x804 → c.pv = true → BecomesCtl s t cc { d with kmask := f 8 c.kmask &&& 0xFE }) ∧
      (n = 0x810 → c.pv = true → busy (f 64 c.kbind) = true → BecomesCtl s t cc { d with ab := true }) ∧
      (n = 0x810 → c.pv = true → busy (f 64 c.kbind) = false → BecomesCtl s t cc { d with kbind := f 64 c.kbind &&& 0x00FFFFFFC3FFFFFF, bound := true }) ∧
      (n = 0x800 → c.pv = true → BecomesCtl s t cc { d with ab := (match fn with | .clr => c.ab && !x.getLsbD 3 | .write | .set => c.ab || x.getLsbD 3), ie := (match fn with | .write => x.getLsbD 1 | .set => c.ie || x.getLsbD 1 | .clr => c.ie && !x.getLsbD 1), pv := (match fn with | .write => x.getLsbD 0 | .set => true | .clr => !x.getLsbD 0) }) ∧
      (∀ key, n = 0x21 → c.pv = true → ctlMayRelease s cc = true → ilckAt s c = .at key → farRace (release s (.control cc) .pkg) (.control cc) (ilckPa c.ctx / 4) 1 = none →
        let old := readByte s key (ilckPa c.ctx)
        Stored s t [({ tid := 0, va := 0, n := 1, data := [(old &&& 0xFE) ||| (f 8 (old &&& 1) &&& 1)] }, ilckPa c.ctx, key)] ∧
        ∃ e, BecomesCtl { s with copies := t.copies, mem := t.mem, tags := t.tags, reg := t.reg, monitors := t.monitors, hostLines := t.hostLines, bars := t.bars } t cc { d with wait := e } ∧ (e = c.wait ∨ e = .run))))
  ) ∧
  (
    (∀ (s : State) (cc : Nat) (c : Ctl) (v : DWord), s.ctls[cc]? = some c → ∃ t, exec (.kbindWrite cc v) s = .next t ∧
      ((tabGet { presence := 0, busy := false } s.asids (v.toNat % 2 ^ 16)).busy = true → BecomesCtl s t cc { c with ab := true }) ∧
      ((tabGet { presence := 0, busy := false } s.asids (v.toNat % 2 ^ 16)).busy = false →
        BecomesCtl s t cc { c with kbind := v &&& 0x00FFFFFFC3FFFFFF, bound := true })) ∧
    (∀ (s : State) (cc : Nat) (c : Ctl) (fn : CsrwFn) (v : DWord), s.ctls[cc]? = some c →
      let f (w : Nat) (old : BitVec w) : BitVec w := match fn with
        | .write => v.setWidth w | .set => old ||| v.setWidth w | .clr => old &&& ~~~(v.setWidth w)
      (∃ t, exec (.kpendWrite cc fn v) s = .next t ∧ BecomesCtl s t cc { c with kpend := f 8 c.kpend &&& 0xFE }) ∧
      (∃ t, exec (.registerWrite (.csr cc 0x801 fn v)) s = .next t ∧ BecomesCtl s t cc { c with karea := f 64 c.karea }) ∧
      (∃ t, exec (.registerWrite (.csr cc 0x802 fn v)) s = .next t ∧ BecomesCtl s t cc { c with ktbl := f 64 c.ktbl }) ∧
      (∃ t, exec (.registerWrite (.csr cc 0x804 fn v)) s = .next t ∧ BecomesCtl s t cc { c with kmask := f 8 c.kmask &&& 0xFE }) ∧
      (∃ t, exec (.registerWrite (.csr cc 0x800 fn v)) s = .next t ∧ BecomesCtl s t cc { c with ab := (match fn with | .clr => c.ab && !v.getLsbD 3 | .write | .set => c.ab || v.getLsbD 3), ie := (match fn with | .write => v.getLsbD 1 | .set => c.ie || v.getLsbD 1 | .clr => c.ie && !v.getLsbD 1), pv := (match fn with | .write => v.getLsbD 0 | .set => c.pv || v.getLsbD 0 | .clr => c.pv && !v.getLsbD 0) }) ∧
      (∀ key, ctlMayRelease s cc = true → ilckAt s c = .at key → farRace (release s (.control cc) .pkg) (.control cc) (ilckPa c.ctx / 4) 1 = none →
        let old := readByte s key (ilckPa c.ctx)
        ∃ t, exec (.ilckWrite cc fn v) s = .next t ∧
          Stored s t [({ tid := 0, va := 0, n := 1, data := [(old &&& 0xFE) ||| (f 8 (old &&& 1) &&& 1)] }, ilckPa c.ctx, key)] ∧
          t = { s with copies := t.copies, mem := t.mem, tags := t.tags, reg := t.reg, monitors := t.monitors, hostLines := t.hostLines, bars := t.bars }) ∧
      (ctlMayRelease s cc = false ∨ (∀ key, ilckAt s c ≠ .at key) → exec (.ilckWrite cc fn v) s = .next s))
  )

/-- R120, R312, R121: a trap without a free record stops the core and tells the others of its die; else it is taken as
`Enters` says. SVC takes trap 19, an interrupt trap 20 with its source, in the order of the sources; HALT waits for one. R120,
R312: ERET reads the innermost record back: pc, IE and PV, s60 to s63, and DEPTH falls by one; at DEPTH 0 it is ILLEGAL. The
trap path follows log 32. -/
def Obligations.ControlCoreTraps : Prop :=
  (
    (∀ (s : State) (cc cause source : Nat) (c : Ctl) (addr aux rpc : DWord), s.ctls[cc]? = some c →
      Enters s cc c cause source addr aux rpc (ctlTrap s cc cause source addr aux rpc) ∧
      (4 ≤ c.depth → ∀ (k : Nat) (d : Ctl), s.ctls[k]? = some d → ∃ d' : Ctl, (ctlTrap s cc cause source addr aux rpc).ctls[k]? = some d' ∧
        d'.stopped = (d.stopped || k == cc) ∧ d'.kpend = if k / 24 = cc / 24 ∧ k ≠ cc ∧ ctlEnabled s k = true then d.kpend ||| 0x80 else d.kpend)) ∧
    (∀ (s : State) (cc cause : Nat) (c : Ctl) (addr aux : DWord), s.ctls[cc]? = some c → raiseCtl s cc cause addr aux = ctlTrap s cc cause 0 addr aux c.pc) ∧
    (∀ o : TrapOp, OnCtl (.svc o) (fun s cc c t => t = ctlTrap s cc 19 0 0 (o.n.setWidth 64) (c.pc + 4) ∧ Enters s cc c 19 0 0 (o.n.setWidth 64) (c.pc + 4) t)) ∧
    (∀ o : WOp, OnPriv (.halt o) (fun s cc c t => BecomesCtl s t cc { c with wait := .halted })) ∧
    (∀ (s : State) (cc : Nat) (c : Ctl), s.ctls[cc]? = some c →
      (c.stopped = true ∨ ctlEnabled s cc = false ∨ c.ie = false ∨ c.kpend &&& c.kmask = 0 ∨ c.deferred ≠ [] → exec (.interrupt cc) s = .next s) ∧
      (∀ i, c.stopped = false → ctlEnabled s cc = true → c.ie = true → c.deferred = [] → (c.kpend &&& c.kmask).getLsbD i = true →
        (∀ j < i, (c.kpend &&& c.kmask).getLsbD j = false) →
        let d := { c with kpend := c.kpend &&& ~~~(BitVec.ofNat 8 (2 ^ i)) }
        ∃ t, exec (.interrupt cc) s = .next t ∧ Enters (modCtl s cc (fun _ => d)) cc d 20 i (BitVec.ofNat 64 i) (if i = 7 then BitVec.ofNat 64 c.source7 else 0)
          (if c.wait = .halted then c.pc + 4 else c.pc) t))
  ) ∧
  (
    ∀ o : WOp, OnPriv (.eret o) (fun s cc c t =>
      (c.depth = 0 → t = raiseCtl s cc 1 0 (wordOf (.eret o))) ∧
      ∀ l s1, 0 < c.depth → checkAccs s (c.who cc) .load (accs8 0 (c.karea + BitVec.ofNat 64 (128 * (c.depth - 1))) [] 9) = (.ok l, s1) → (loadAccs s1 (c.who cc) l).2.1 = none →
        let x (i : Nat) : DWord := BitVec.ofNat 64 (leNat ((((loadAccs s1 (c.who cc) l).1.map (·.2)).getD i [])))
        SameButLines s t ∧ BecomesCtl { s with xlat := t.xlat, asids := t.asids, copies := t.copies, reg := t.reg } t cc
          { (((c.setS 60 (x 5)).setS 61 (x 6)).setS 62 (x 7)).setS 63 (x 8) with depth := c.depth - 1, pc := x 0, ie := (x 1).getLsbD 1, pv := (x 1).getLsbD 0, wait := .run })
  )

/-- R328 to R330: TLBI drops the translations of a page, of an ASID or all, and CTXI those of an ASID, which is busy until
then; the presence bits of the ASIDs dropped whole are cleared. The lines of compute cores that are covered are evicted: copies
go, S of a group moves to V, and O keeps its word without its line (R224). R335, R336: KEYSET.load, .gen and .erase change one
entry of the key table, and give status 0; key id 0 and ids above 1,023 are ACCESS, material off a 64-byte boundary is MISALIGN.
Each is a release, and waits while the core owns words whose home is offline (R236). Keys have the numbers of log 20; an
invalidation completes at issue (log 15). -/
def Obligations.TranslationsAndKeys : Prop :=
  (
    (∀ i, (∃ o : PairOp, i = Instr.tlbiPage o) ∨ (∃ o : SrcOp, i = .tlbiAsid o) ∨ (∃ o : WOp, i = .tlbiAll o) →
      OnPriv i (fun s cc c t => ctlMayRelease s cc = false → BecomesCtl s t cc { c with wait := .retry })) ∧
    (∀ o : PairOp, OnPriv (.tlbiPage o) (fun s cc c t => ctlMayRelease s cc = true →
      let a : BitVec 16 := (c.sreg o.sa.toNat).setWidth 16
      let va := c.sreg o.sb.toNat
      (canonical va = false → t.xlat = s.xlat) ∧ t.mem = s.mem ∧
      (canonical va = true →
        t.xlat = s.xlat.filter (fun x => !((presentDies s a).contains (clusterDie x.cluster) && x.asid == a && entryCovers x va.toNat)) ∧
        (∀ k ∈ t.copies, ∀ n, k.site = .core n → k.asid = a → n / 128 ∈ presentDies s a → k.va.toNat / pageSpan s a va.toNat ≠ va.toNat / pageSpan s a va.toNat)) ∧
      ∃ d : Ctl, t.ctls[cc]? = some d ∧ d = { c with pc := c.pc + 4, wait := .run })) ∧
    (∀ o : SrcOp, OnPriv (.tlbiAsid o) (fun s cc c t => ctlMayRelease s cc = true →
      let a : BitVec 16 := (c.sreg o.sa.toNat).setWidth 16
      t.xlat = s.xlat.filter (fun x => !((presentDies s a).contains (clusterDie x.cluster) && x.asid == a)) ∧ presentDies t a = [] ∧ t.mem = s.mem ∧
      (∀ k ∈ t.copies, ∀ n, k.site = .core n → k.asid = a → n / 128 ∉ presentDies s a) ∧
      (∀ (g : Nat) (gr : Group) (va : DWord), s.groups[g]? = some gr → gr.ctx.asid = a → gr.place / 128 ∈ presentDies s a →
        (∀ p ∈ t.reg, p.2 ≠ .released (.group g) va) ∧
        ∀ w last, regOf s w = some (.owned (.group g) last va) → regOf t w = some (.owned (.group g) last evictedVa)) ∧
      ∃ d : Ctl, t.ctls[cc]? = some d ∧ d = { c with pc := c.pc + 4, wait := .run })) ∧
    (∀ o : WOp, OnPriv (.tlbiAll o) (fun s cc c t => ctlMayRelease s cc = true →
      t.xlat = [] ∧ (∀ a, presentDies t a = []) ∧ t.mem = s.mem ∧ (∀ k ∈ t.copies, ∀ n, k.site = .core n → 768 ≤ n) ∧
      ∃ d : Ctl, t.ctls[cc]? = some d ∧ d = { c with pc := c.pc + 4, wait := .run })) ∧
    (∀ o : SrcOp, OnPriv (.ctxi o) (fun s cc c t =>
      let a : BitVec 16 := (c.sreg o.sa.toNat).setWidth 16
      let busy (x : State) : Bool := (tabGet { presence := 0, busy := false } x.asids a.toNat).busy
      (¬ (c.wait = .retry ∧ busy s = true) → busy t = true ∧ BecomesCtl { s with asids := t.asids } t cc { c with wait := .retry }) ∧
      (c.wait = .retry → busy s = true → ctlMayRelease s cc = true → busy t = false ∧ presentDies t a = [] ∧
        t.xlat = s.xlat.filter (fun x => !((presentDies s a).contains (clusterDie x.cluster) && x.asid == a)) ∧ t.mem = s.mem ∧
        ∃ d : Ctl, t.ctls[cc]? = some d ∧ d = { c with pc := c.pc + 4, wait := .run })))
  ) ∧
  (
    (∀ i sa g, (∃ o : KeyLoadOp, (i, sa, g) = (Instr.keysetLoad o, o.sa, o.g)) ∨ (∃ o : KeyOp, (i, sa, g) = (Instr.keysetGen o, o.sa, o.g)) ∨ (∃ o : KeyOp, (i, sa, g) = (Instr.keysetErase o, o.sa, o.g)) →
      OnPriv i (fun s cc c t =>
        (c.runs g = false → BecomesCtl s t cc { c with pc := c.pc + 8 }) ∧
        (c.runs g = true → c.sreg sa.toNat = 0 ∨ 1023 < (c.sreg sa.toNat).toNat → t = raiseCtl s cc 4 0 0) ∧
        (c.runs g = true → 1 ≤ (c.sreg sa.toNat).toNat → (c.sreg sa.toNat).toNat ≤ 1023 → (∀ o : KeyLoadOp, i = .keysetLoad o → (c.sreg o.sb.toNat).toNat % 64 = 0) →
          ctlMayRelease s cc = false → BecomesCtl s t cc { c with wait := .retry }))) ∧
    (∀ mk key, (mk, key) ∈ [(Instr.keysetGen, fun (s : State) => some s.nextKey), (.keysetErase, fun _ => none)] → ∀ o : KeyOp, OnPriv (mk o) (fun s cc c t =>
      let i := (c.sreg o.sa.toNat).toNat
      c.runs o.g = true → 1 ≤ i → i ≤ 1023 → ctlMayRelease s cc = true →
        keyOf t i = key s ∧ (∀ j, j ≠ i → keyOf t j = keyOf s j) ∧ ∃ d : Ctl, t.ctls[cc]? = some d ∧ d = { c.setS o.sd.toNat 0 with pc := c.pc + 8, wait := .run })) ∧
    (∀ o : KeyLoadOp, OnPriv (.keysetLoad o) (fun s cc c t =>
      let i := (c.sreg o.sa.toNat).toNat
      let va := c.sreg o.sb.toNat
      (c.runs o.g = true → 1 ≤ i → i ≤ 1023 → va.toNat % 64 ≠ 0 → t = raiseCtl s cc 3 va 0) ∧
      ∀ l s1, c.runs o.g = true → 1 ≤ i → i ≤ 1023 → va.toNat % 64 = 0 → ctlMayRelease s cc = true → checkAccs s (c.who cc) .load (accs8 0 va [] 8) = (.ok l, s1) →
        (loadAccs s1 (c.who cc) l).2.1 = none →
        keyOf t i = some (loadedKey i (leNat ((loadAccs s1 (c.who cc) l).1.flatMap (·.2)))) ∧ (∀ j, j ≠ i → keyOf t j = keyOf s j) ∧
        ∃ d : Ctl, t.ctls[cc]? = some d ∧ d = { c.setS o.sd.toNat 0 with pc := c.pc + 8, wait := .run }))
  )

/-! ### Engines, queues, dispatch (02, 12, 14) -/

/-- R256, R250, R220: ECPY, EPUB and ECOLL release, hand their descriptor to the I/O die of their die under its next number,
put the command into the open batch and give its word to sd. A group with 64 commands of open batches waits (R250). The command
is handed over at issue (log 27). -/
def Obligations.EngineCommands : Prop :=
  ∀ mk op, (mk, op) ∈ [(Instr.ecpy, 0), (.epub, 1), (.ecoll, 2)] → ∀ o : EngineOp,
    GuardFails (mk o) (uniMemInfo o.w true) o.g 8 ∧
    OnActor (mk o) (uniMemInfo o.w true) o.g (fun s s0 a t =>
      let va := a.getS s.free 0 o.sa.toNat
      let iod := a.die / 2
      let n := s.nextCmd.getD iod 0
      (va.toNat % 64 ≠ 0 → t = a.raise s0 3 va a.low) ∧
      ∀ l s1, va.toNat % 64 = 0 → checkAccs s0 a.who .load (accs8 a.lowTid va [] 8) = (.ok l, s1) →
        let room : Prop := match a with | .frag _ => outstanding s a.who.agent < 64 | .ctl _ _ => True
        let s2 := release (a.dirty s1) a.who.agent o.scope.toScope
        (¬ room → t.commands = s.commands ∧ t.reg = s.reg ∧ a.waits t) ∧
        (room → (loadAccs s2 a.who l).2.1 = none →
        ∃ cmd, t.commands = s.commands ++ [cmd] ∧ t.nextCmd = s.nextCmd.modify iod (fun n => (n + 1) % 2 ^ 32) ∧
          (cmd.iod, cmd.n, cmd.op, cmd.agent, cmd.ctx, cmd.descVa, cmd.desc, cmd.scope, cmd.life)
            = (iod, n, op, a.who.agent, a.who.ctx, va, (loadAccs s2 a.who l).1.flatMap (·.2), o.scope, .issued) ∧
          SameButLines (if scopeOrders o.scope.toScope then releaseAgent s a.who.agent else s) t ∧
          (a.withItem (.cmd iod n)).RegStep { s with xlat := t.xlat, asids := t.asids, copies := t.copies, reg := t.reg, monitors := t.monitors, bars := t.bars, blocks := (a.dirty s).blocks, commands := t.commands, nextCmd := t.nextCmd }
            t [(.s o.sd.toNat, BitVec.ofNat 64 (n + iod * 2 ^ 32))] (a.pcOf + 8)))

/-- R232, R257 to R259: a command with a malformed descriptor is refused with cause 9. A copy, a publish to several
destinations and an upload claim the words of their destinations and read their source into a proof copy; a copy to a window
keeps its bytes for it. A publish of a proof copy puts its bytes at the destinations, which go to S of the issuer without a line
in its cache, where an older copy goes (R229), or to V for EPUB; the issuer's source words go to V, and poisoned units that are
stored whole are cleared (R381). The order of the checks and what a command claims follow log 27. -/
def Obligations.EngineWork : Prop :=
  (∀ (s : State) (c : Command) (e : Instr), findCmd s c.iod c.n = some c → c.life = .issued → c.claims = [] → c.cw = 0 → c.wellFormed = false →
    (e, c.op, c.isUpload) ∈ [(Instr.copyCommand c.iod c.n, 0, false), (.upload c.iod c.n, 0, true), (.epubCommand c.iod c.n, 1, false), (.ecollCommand c.iod c.n, 2, false)] →
    (∀ gr ∈ s.groups, ∀ x ∈ gr.frags, ∀ n b a, x.wait ≠ .batch n b a) → (∀ d ∈ s.ctls, ∀ n b a, d.wait ≠ .batch n b a) →
    ∃ t, exec e s = .next t ∧ t.commands = s.commands.filter (fun k => !(k.iod == c.iod && k.n == c.n)) ∧
      ∀ (cc : Nat) (d : Ctl), c.party = .control cc → s.ctls[cc]? = some d → t.mem = s.mem ∧ t.reg = s.reg ∧ t.groups = s.groups ∧ t.ctls[cc]? = some { d with deferred := d.deferred ++
        [{ cause := 16, frag := 0, slot := 0, ipc := c.ipc, addr := c.descVa, aux := BitVec.ofNat 64 (9 + (c.n + c.iod * 2 ^ 32) % 2 ^ 48 * 2 ^ 16), rpc := none }] }) ∧
  (∀ (s : State) (c : Command), findCmd s c.iod c.n = some c → c.life = .issued → c.wellFormed = true →
    let Built (t : State) (ws : List (Nat × DWord)) (out : List (Piece × List Byte)) : Prop :=
      (∃ c1, findCmd t c.iod c.n = some c1 ∧ c1.life = .built ∧ c1.claims = ws ∧ c1.out = out) ∧ t.mem = s.mem ∧
      ∀ w, regOf t w = if w ∈ ws.map (·.1) then some (.claimed (.engine c.iod c.n) none) else regOf s w
    let free (ws : List (Nat × DWord)) : Prop := (ws.map (·.1)).Nodup ∧ ∀ w ∈ ws, registers w.1 = true ∧ regOf s w.1 = none
    let quiet (ps : List Piece) (ws : List (Nat × DWord)) : Prop := ∀ w ∈ ps.flatMap Piece.words, w.1 ∉ ws.map (·.1) ∧ regOf s w.1 = none
    (∀ src dst s1 s2 s3, c.op = 0 → c.isUpload = false → engRange s c .load c.srcVa c.len = .ok src s1 →
      (if c.dkind = 0 then engRange s1 c .store c.dstVa c.len else .ok [] s1) = .ok dst s2 →
      cwRange s2 c = .ok () s3 → windowsInside s3 c = true → (c.dkind = 0 → overlap (c.srcVa, c.len) (c.dstVa, c.len) = false) →
      let ws := dst.flatMap Piece.words
      free ws → quiet src ws → ∃ t, exec (.copyCommand c.iod c.n) s = .next t ∧ Built t ws (overPieces dst (readPieces s c src).1) ∧
        ∀ c1, findCmd t c.iod c.n = some c1 → c1.window = if c.dkind = 0 then [] else (readPieces s c src).1) ∧
    (∀ tbl s0 src dsts s1 s2 s3, c.op = 1 → (if c.ndst ≤ 1 then Eng.ok [] s else engRange s c .load c.aux (8 * (c.ndst - 1))) = .ok tbl s0 → s0.commands = s.commands →
      let vas := c.dstVa :: (List.range (c.ndst - 1)).map (fun i => field (readPieces s0 c tbl).1 (8 * i) 8)
      engRange (putCmd s0 c) c .load c.srcVa c.len = .ok src s1 → dstRanges c vas s1 = .ok dsts s2 → cwRange s2 c = .ok () s3 → windowsInside s3 c = true →
      anyOverlap ((c.srcVa, c.len) :: vas.map (fun v => (v, c.len))) = false →
      let ws := (dsts.flatMap id).flatMap Piece.words
      free ws → quiet src ws → quiet tbl ws → ∃ t, exec (.epubCommand c.iod c.n) s = .next t ∧ Built t ws (dsts.flatMap (fun d => overPieces d (readPieces s c src).1))) ∧
    (∀ src tbl dsts bss s1 s2 s3 s4, c.isUpload = true → engRange s c .load c.srcVa c.len = .ok src s1 → cwRange s1 c = .ok () s2 → windowsInside s2 c = true →
      let ob := (readPieces s c src).1
      let secs := objSections ob
      objCause ob c.len = none → c.aux % 8 = 0 → engRange s2 c .load c.aux (8 * objNsec ob) = .ok tbl s3 →
      let bases := (List.range (objNsec ob)).map (fun i => field (readPieces s c tbl).1 (8 * i) 8)
      let ranges := bases.zip (secs.map Section.bound)
      (∀ p ∈ bases.zip secs, p.1 % 2 ^ p.2.align = 0) → sectionRanges c ranges s3 = .ok dsts s4 → anyOverlap ((c.srcVa, c.len) :: ranges) = false →
      let ws := (dsts.flatMap id).flatMap Piece.words
      uploadClash s4 c ws = false → buildSections ob bases = .ok bss → free ws → quiet src ws → quiet tbl ws →
      ∃ t, exec (.upload c.iod c.n) s = .next t ∧ Built t ws ((dsts.zip bss).flatMap (fun p => overPieces p.1 p.2)))) ∧
  (∀ (s : State) (c : Command), findCmd s c.iod c.n = some c → c.life = .built → outPresent s c = true → c.blk = none ∨ (c.window = [] ∧ c.mbarOn = false) → c.cw = 0 → c.status = 0 →
    (∀ p ∈ c.out, p.2.length = p.1.n) → (c.claims.map (·.1)).Nodup → (∀ w ∈ c.claims, registers w.1 = true) →
    (∀ w ∈ c.src.flatMap Piece.words, w.1 ∉ c.claims.map (·.1) ∧ ∀ a l va, regOf s w.1 = some (.owned a l va) → a = c.agent) →
    (∀ gr ∈ s.groups, ∀ x ∈ gr.frags, ∀ n b a, x.wait ≠ .batch n b a) → (∀ d ∈ s.ctls, ∀ n b a, d.wait ≠ .batch n b a) →
    ∃ t, exec (.publish c.iod c.n) s = .next t ∧
      Stored s t (c.out.map (fun p => ({ tid := 0, va := p.1.va, n := p.1.n, data := p.2 }, p.1.pa, p.1.key))) ∧
      t = { s with mem := t.mem, tags := t.tags, reg := t.reg, copies := t.copies, monitors := t.monitors, hostLines := t.hostLines, poison := t.poison, commands := s.commands.filter (fun k => !(k.iod == c.iod && k.n == c.n)) } ∧
      t.copies = s.copies.filter (fun k => !(c.op != 1 && agentSite s c.agent == some k.site && (c.claims.map (·.1)).contains k.word)) ∧
      (∀ u, u ∈ t.poison ↔ u ∈ s.poison ∧ ∀ p ∈ c.out, ¬ (p.1.pa ≤ u * 64 ∧ u * 64 + 64 ≤ p.1.pa + p.1.n)) ∧
      (∀ w va, (w, va) ∈ c.claims → regOf t w = if c.op = 1 then none else some (.released c.agent evictedVa)) ∧
      (∀ w va, (w, va) ∈ c.src.flatMap Piece.words → regOf t w = match regOf s w with
        | some (.owned _ _ _) => none
        | some (.released a x) => if a = c.agent then none else some (.released a x)
        | r => r) ∧
      ∀ w, (∀ va, (w, va) ∉ c.claims) → (∀ va, (w, va) ∉ c.src.flatMap Piece.words) → regOf t w = regOf s w)

/-- R260: a collective command that passes its checks claims its destination and its residual region and waits; once every
member has issued its command and they agree, each member's output is the sum, over the ranks, of the quantised contributions,
and its residual region keeps what quantisation left; members that do not agree are refused with cause 14. The members' checks
and claims follow log 28. -/
def Obligations.Collectives : Prop :=
  (∀ (s : State) (c : Command) bp s1 tp s2 src s3 dst s4 r0 s5 residual s6 s7, findCmd s c.iod c.n = some c → c.op = 2 → c.life = .issued → c.wellFormed = true →
    engRange s c .load c.aux 64 = .ok bp s1 →
    let blk := (readPieces s1 c bp).1
    let m := field blk 32 4
    let res := field blk 16 8
    collOk blk = true → engRange s1 c .load (field blk 24 8) (4 * m) = .ok tp s2 →
    let table := (List.range m).map (fun i => field (readPieces s2 c tp).1 (4 * i) 4)
    (∀ e ∈ table, e < 2 ^ 21) → engRange s2 c .load c.srcVa c.len = .ok src s3 → engRange s3 c .store c.dstVa c.len = .ok dst s4 →
    engRange s4 c .load res (64 + c.len) = .ok r0 s5 → engRange s5 c .store res (64 + c.len) = .ok residual s6 → cwRange s6 c = .ok () s7 → windowsInside s7 c = true →
    anyOverlap [(c.srcVa, c.len), (c.dstVa, c.len), (res, 64 + c.len)] = false →
    let ws := (dst ++ residual).flatMap Piece.words
    ∀ s8, (ws.map (·.1)).Nodup → (∀ w ∈ ws, registers w.1 = true ∧ regOf s w.1 = none) → claimWords c.self ws s7 = some s8 →
    let hdr := ((readPieces s8 c residual).1).take 64
    let k : Coll := { handle := field blk 0 8, step := field blk 8 8, m, r := field blk 36 4, table, fresh := field hdr 0 8 == 0, residual }
    collMismatch s8 c k hdr = false → (readPieces s1 c bp).2 = none → (readPieces s2 c tp).2 = none →
    ∃ t, exec (.ecollCommand c.iod c.n) s = .next t ∧ t.mem = s.mem ∧
      (∃ c1, findCmd t c.iod c.n = some c1 ∧ c1.life = .matching ∧ c1.claims = ws ∧ c1.src = src ∧ c1.coll = some k) ∧
      ∀ w, regOf t w = if w ∈ ws.map (·.1) then some (.claimed (.engine c.iod c.n) none) else regOf s w) ∧
  (∀ (s : State) (c : Command) (k : Coll) (others : List Contribution), findCmd s c.iod c.n = some c → c.coll = some k → c.life = .matching →
    gather s k [] 0 k.table others = none → exec (.collectiveMatch c.iod c.n others) s = .next s) ∧
  (∀ (s : State) (c d : Command) (k x : Coll), findCmd s c.iod c.n = some c → c.coll = some k → c.life = .matching → (d.iod, d.n) ≠ (c.iod, c.n) →
    findCmd s d.iod d.n = some d → d.coll = some x → d.life = .matching → gather s k [] 0 k.table [] = some [.here c k, .here d x] →
    let yc := (memberY s c k).1
    let yd := (memberY s d x).1
    ∃ t, exec (.collectiveMatch c.iod c.n []) s = .next t ∧
      (x.m = k.m → d.len = c.len → x.table = k.table → (memberY s c k).2 = none → (memberY s d x).2 = none →
        let sum := ((quantAll yc).zip (quantAll yd)).map (fun p => (fAdd .f32 .rn false p.1 p.2).1)
        let Done (e : Command) (z : Coll) (ys : List Nat) : Prop := findCmd t e.iod e.n = some { e with life := .built, out := overPieces (e.out.map (·.1)) (wordBytes sum) ++ overPieces z.residual (leBytes 8 z.handle ++ leBytes 8 z.step ++ leBytes 8 e.len ++ List.replicate 40 0 ++ wordBytes (leftover ys (quantAll ys))) }
        Done c k yc ∧ Done d x yd ∧ t = { s with commands := t.commands }) ∧
      (¬ (x.m = k.m ∧ d.len = c.len ∧ x.table = k.table) → c.cw = 0 → d.cw = 0 → findCmd t c.iod c.n = none ∧ findCmd t d.iod d.n = none))

/-- R290 to R293: ENQ and DEQ on a bound queue: a record joins the hardware part while it has room and leaves it oldest first;
the status, and with a record its length, go to sd. A queue of another context, and a dispatch queue for a record that is no
task record, are ACCESS before any page of the record is asked for. An operation waits while an earlier one or a refill of its
queue waits on the galley. Slots and binds follow log 18. -/
def Obligations.QueueOperations : Prop :=
  (∀ o : QueueOp, GuardFails (.enq o) (uniMemInfo o.w (scopeOrders o.scope)) o.g 8 ∧ GuardFails (.deq o) (uniMemInfo o.w false) o.g 8) ∧
  (∀ o : QueueOp, OnActor (.enq o) (uniMemInfo o.w (scopeOrders o.scope)) o.g (fun s s0 a t =>
    let desc := a.getS s.free 0 o.sa.toNat
    let rec8 := a.getS s.free 1 o.sb.toNat
    let len := o.len.toNat + 1
    (desc.toNat % 64 ≠ 0 → t = a.raise s0 3 desc a.low) ∧ (desc.toNat % 64 = 0 → rec8.toNat % 8 ≠ 0 → t = a.raise s0 3 rec8 a.low) ∧
    ∀ l s1 p q, desc.toNat % 64 = 0 → rec8.toNat % 8 = 0 → checkAccs s0 a.who .load (accs8 a.lowTid desc [] 8) = (.ok l, s1) →
      l.head? = some p → slotOf s p.2.1 = some q →
      (∀ pages dies s2, checkAccs s1 a.who .load (accs8 a.lowTid rec8 [] len) = (.park pages dies, s2) →
        q.ctx ≠ a.who.ctx ∨ (q.mode = 0 ∧ len ≠ 8) → t = a.raise s2 4 desc a.low) ∧
      ∀ m s2, checkAccs s1 a.who .load (accs8 a.lowTid rec8 [] len) = (.ok m, s2) →
        (q.ctx ≠ a.who.ctx ∨ (q.mode = 0 ∧ len ≠ 8) → t = a.raise s2 4 desc a.low) ∧
        (q.ctx = a.who.ctx → (q.mode = 0 → len = 8) →
          (queueHeld s q.pa a.ctl? = true → t.slots = s.slots ∧ a.waits t) ∧
          (queueHeld s q.pa a.ctl? = false → q.recs.length < 32 →
            let r := loadAccs (release (a.dirty s2) a.who.agent o.scope) a.who m
            r.2.1 = none →
            t.slots = s.slots.map (fun x => if x.pa = q.pa then { q with idleSince := clk s, count := q.count + 1, recs := q.recs ++ [QRecord.fresh (2 * s.nextId) (r.1.flatMap (·.2)) s.nextId] } else x) ∧
            SameButLines (if scopeOrders o.scope then releaseAgent s a.who.agent else s) t ∧
            a.queueDone.RegStep { s with xlat := t.xlat, asids := t.asids, copies := t.copies, reg := t.reg, monitors := t.monitors, bars := t.bars, blocks := (a.dirty s).blocks, slots := t.slots, nextId := s.nextId + 1 }
              t [(.s o.sd.toNat, 0)] (a.pcOf + 8))))) ∧
  (∀ o : QueueOp, OnActor (.deq o) (uniMemInfo o.w false) o.g (fun s s0 a t =>
    let desc := a.getS s.free 0 o.sa.toNat
    let rec8 := a.getS s.free 1 o.sb.toNat
    let len := o.len.toNat + 1
    (desc.toNat % 64 ≠ 0 → t = a.raise s0 3 desc a.low) ∧ (desc.toNat % 64 = 0 → rec8.toNat % 8 ≠ 0 → t = a.raise s0 3 rec8 a.low) ∧
    ∀ l s1 m s2 p q, desc.toNat % 64 = 0 → rec8.toNat % 8 = 0 → checkAccs s0 a.who .load (accs8 a.lowTid desc [] 8) = (.ok l, s1) →
      checkAccs s1 a.who .store (accs8 a.lowTid rec8 [] len) = (.ok m, s2) → l.head? = some p → slotOf s p.2.1 = some q →
      (q.ctx ≠ a.who.ctx → t = a.raise s2 4 desc a.low) ∧
      (q.ctx = a.who.ctx → queueHeld s q.pa a.ctl? = true → t.slots = s.slots ∧ a.waits t) ∧
      (q.ctx = a.who.ctx → queueHeld s q.pa a.ctl? = false →
        let base : State := { s with xlat := t.xlat, asids := t.asids, copies := t.copies, blocks := (a.dirty s).blocks, slots := t.slots }
        let idle : Slot := { q with idleSince := clk s }
        (q.oldest = none → q.head = q.tail → t.slots = s.slots.map (fun x => if x.pa = q.pa then idle else x) ∧ a.queueDone.RegStep base t [(.s o.sd.toNat, 1)] (a.pcOf + 8)) ∧
        (∀ r, q.oldest = some r → 8 * len < r.bytes.length →
          t.slots = s.slots.map (fun x => if x.pa = q.pa then idle else x) ∧ a.queueDone.RegStep base t [(.s o.sd.toNat, BitVec.ofNat 64 (4 + r.bytes.length / 8 * 256))] (a.pcOf + 8)) ∧
        (∀ r, q.oldest = some r → r.bytes.length ≤ 8 * len → r.bytes.length % 8 = 0 → q.head = q.tail →
          let dest := (m.take (r.bytes.length / 8)).zipIdx.map (fun p => ({ p.1.1 with data := (r.bytes.drop (8 * p.2)).take 8 }, p.1.2))
          (storeAccs (a.dirty s2) a.who dest).1 = none →
          Stored s t dest ∧ t.slots = s.slots.map (fun x => if x.pa = q.pa then { idle with recs := q.recs.erase r, count := q.count - 1, page := none } else x) ∧
          a.queueDone.RegStep { base with mem := t.mem, tags := t.tags, reg := t.reg, monitors := t.monitors, hostLines := t.hostLines, poison := t.poison }
            t [(.s o.sd.toNat, BitVec.ofNat 64 (r.bytes.length / 8 * 256))] (a.pcOf + 8)))))

/-- R300 to R302: SPAWN puts a thread with its two arguments into the bin of its entry; a bin with T threads closes, and its
group joins the spawn list where that has room, else the bin waits, full. An entry off a 32-byte boundary is MISALIGN, one that
may not be spawned ACCESS; where every bin is bound SPAWN waits. R302, R52, R51: a bin whose timer has run out, or one that
waits to close, gives its group to the spawn list while that has fewer than 16; the first group of the list starts as a block of
its own, each thread with its arguments in v0 to v3. Bins and the spawn list follow log 18, a group that can never start
included. -/
def Obligations.SpawnedGroups : Prop :=
  (
    ∀ (o : SpawnOp) (s : State) (c : Cx), Issues s c → Ready s c (.spawn o) (compInfo o.w true) →
      let d := c.begun o.w
      let entry := d.s s.free 0 o.sa.toNat
      let args := (d.s s.free 1 o.sb.toNat, d.s s.free 2 o.sc.toNat)
      (d.runs s.free o.g = false → ∃ t gr, exec (.spawn o) s = .next t ∧ RegStep s d t [] [] (c.fr.pc + 8) gr) ∧
      (d.runs s.free o.g = true → entry.toNat % 32 ≠ 0 → exec (.spawn o) s = .next (raiseFrag (started s c o.w) d 3 entry d.low (some c.fr.pc))) ∧
      (∀ l s1, d.runs s.free o.g = true → entry.toNat % 32 = 0 → checkAccs (started s c o.w) d.who .load (accs8 d.lowTid (entry - 32) [] 4) = (.ok l, s1) →
        (readEntryDesc s1 c.gr.ctx entry = .ok none ∨ ∃ e, readEntryDesc s1 c.gr.ctx entry = .ok (some e) ∧ spawnable e = false) →
        exec (.spawn o) s = .next (raiseFrag s1 d 4 (entry - 32) d.low (some c.fr.pc))) ∧
      (∀ l s1 e, d.runs s.free o.g = true → entry.toNat % 32 = 0 → checkAccs (started s c o.w) d.who .load (accs8 d.lowTid (entry - 32) [] 4) = (.ok l, s1) →
        readEntryDesc s1 c.gr.ctx entry = .ok (some e) → spawnable e = true → binFor (coreOf s c.gr.place) c.gr.ctx entry = none →
        ∃ t, exec (.spawn o) s = .next t ∧ t.cores = s.cores ∧ (Actor.frag d).waits t) ∧
      ∀ l s1 e i, d.runs s.free o.g = true → entry.toNat % 32 = 0 → checkAccs (started s c o.w) d.who .load (accs8 d.lowTid (entry - 32) [] 4) = (.ok l, s1) →
        readEntryDesc s1 c.gr.ctx entry = .ok (some e) → spawnable e = true → binFor (coreOf s c.gr.place) c.gr.ctx entry = some i →
        (∀ b, (coreOf s c.gr.place).bins.getD i none = some b → b.entry = e) → i < (coreOf s c.gr.place).bins.length →
        let threads := match (coreOf s c.gr.place).bins.getD i none with
          | some b => b.threads ++ [args]
          | none => [args]
        ∃ t gr, exec (.spawn o) s = .next t ∧ Released s t (.group c.g) ∧
          RegStep { s with xlat := t.xlat, asids := t.asids, reg := t.reg, monitors := t.monitors, cores := t.cores, blocks := ((Actor.frag d).dirty s).blocks } d t [] [] (c.fr.pc + 8) gr ∧
          (∀ k, k ≠ c.gr.place → coreOf t k = coreOf s k) ∧
          (threads.length < e.size → (coreOf t c.gr.place).spawnList = (coreOf s c.gr.place).spawnList ∧
            ∃ b, (coreOf t c.gr.place).bins.getD i none = some b ∧ b.threads = threads ∧ b.entry = e ∧ b.entryVa = entry ∧ b.ctx = c.gr.ctx ∧ b.closing = false) ∧
          (e.size ≤ threads.length → (coreOf s c.gr.place).spawnList.length < 16 → (coreOf t c.gr.place).bins.getD i none = none ∧
            ∃ b, (coreOf t c.gr.place).spawnList = (coreOf s c.gr.place).spawnList ++ [b] ∧ b.threads = threads ∧ b.entry = e) ∧
          (e.size ≤ threads.length → 16 ≤ (coreOf s c.gr.place).spawnList.length → (coreOf t c.gr.place).spawnList = (coreOf s c.gr.place).spawnList ∧
            ∃ b, (coreOf t c.gr.place).bins.getD i none = some b ∧ b.threads = threads ∧ b.entry = e ∧ b.closing = true)
  ) ∧
  (
    (∀ (s : State) (core i : Nat) (b : Bin) (e : Instr), (coreOf s core).bins.getD i none = some b →
      (e = .timerExpiry core i ∧ b.closing = false ∧ b.start + b.entry.timer ≤ clk s) ∨ (e = .binClose core i ∧ b.closing = true) →
      ∃ t, exec e s = .next t ∧ t = { s with cores := t.cores } ∧ (∀ k, k ≠ core → coreOf t k = coreOf s k) ∧
        ((coreOf s core).spawnList.length < 16 → coreOf t core = { coreOf s core with bins := (coreOf s core).bins.set i none, spawnList := (coreOf s core).spawnList ++ [b] }) ∧
        (16 ≤ (coreOf s core).spawnList.length → coreOf t core = { coreOf s core with bins := (coreOf s core).bins.set i (some { b with closing := true }) })) ∧
    (∀ (s : State) (core i : Nat) (b : Bin), (coreOf s core).bins.getD i none = some b → b.closing = true ∨ clk s < b.start + b.entry.timer →
      exec (.timerExpiry core i) s = .next s) ∧
    (∀ (s : State) (core : Nat) (b : Bin) (l : List Bin), (coreOf s core).spawnList = b :: l →
      (spawnFits s core b = false → spawnNever s b = false → exec (.spawnedGroupStart core) s = .next s) ∧
      (spawnFits s core b = false → spawnNever s b = true → exec (.spawnedGroupStart core) s = .next (post (modCore s core (fun k => { k with spawnList := l })) (core / 128)
        { ctx := b.ctx, kind := 3, access := 6, addr := b.entryVa, originKind := 3, origin := 0, time := s.time })) ∧
      (spawnFits s core b = true → ∃ (t : State) (x : Block) (gr : Group), exec (.spawnedGroupStart core) s = .next t ∧ (coreOf t core).spawnList = l ∧
        t.blocks.length = s.blocks.length + 1 ∧ t.blocks[s.blocks.length]? = some x ∧ t.groups = s.groups ++ [gr] ∧
        x.life = .running ∧ x.spawned = true ∧ x.core = core ∧ x.ctx = b.ctx ∧ x.task = none ∧ x.groups = [s.groups.length] ∧ x.entry = b.entry ∧
        gr.life = .live ∧ gr.block = s.blocks.length ∧ gr.place = core ∧ gr.ctx = b.ctx ∧ gr.gid = 0 ∧ gr.size = b.entry.size ∧ gr.vcount = b.entry.vcount ∧
        (∃ fr, gr.frags = [fr] ∧ fr.pc = b.entryVa ∧ fr.mask = firstThreads b.threads.length) ∧ (∀ j, gr.read (.s j) = 0) ∧
        ∀ (i : Nat) (p : DWord × DWord), b.threads[i]? = some p → (∀ j, 4 ≤ j → j < 256 → gr.read (.v i j) = 0) ∧
          (gr.read (.v i 0)).setWidth 32 = p.1.setWidth 32 ∧ gr.read (.v i 1) = p.1 >>> (32 : Nat) ∧
          (gr.read (.v i 2)).setWidth 32 = p.2.setWidth 32 ∧ gr.read (.v i 3) = p.2 >>> (32 : Nat)))
  )

/-- R44, R47, R48, R297: the record at the front is placed as a gang on the cores asked for: its task, its gang, its blocks,
and the record of a task of one gang leaves its queue. A record takes the agings that its waiting has earned. R298, R303, R50,
R202, R111: a core starts the oldest block of its deque: each byte of its windows is 0 or one that its context left on the core,
no copy older than the start is left in its cache, and its groups start at the entry with the task's words in s0 and s1. An idle core steals up to half of another's deque, oldest first.
Placement, stealing and binds follow log 18. -/
def Obligations.Dispatch : Prop :=
  (
    (∀ (s : State) (die : Nat) (q : Slot) (r : QRecord) (e : Machine.Entry) (cores : List Nat), s.slots.filter (fun x => x.die == die) = [q] → (s.slots.map (·.pa)).Nodup →
      (∀ x ∈ s.named, x.die ≠ die) → q.mode = 0 → q.recs = [r] → q.head = q.tail → r.task = none → r.page = none → placementHeld s q.ctx = false → restoring s q.ctx = false →
      judge s q r = .eligible e → strayTasks s die = [] → tasksBusy s die < 256 → (∀ x ∈ s.gangs, x.task ≠ some s.tasks.length) →
      cores ≠ [] → coresOk s q.ctx die e cores = true → queueHeld s q.pa none = false → e.gang ≤ (freeImages s q.ctx e.gang).length →
      let ws := recordWords r.bytes
      let gangs := shapeField ws 24 24
      let n := s.blocks.length
      ∃ t, exec (.dispatch die cores) s = .next t ∧
        t.gangs = s.gangs ++ [{ ctx := q.ctx, task := some s.tasks.length, index := 0, blocks := (List.range e.gang).map (fun m => n + m), phase := false, marks := 0, saving := none }] ∧
        t.tasks = s.tasks ++ [{ life := if gangs = 1 then .running else .placing, ctx := q.ctx, die := q.die, desc := BitVec.ofNat 64 q.pa, words := ws, entry := e, ended := 0, seq := r.seq, aged := r.waited / 65536, posted := false }] ∧
        t.blocks.length = n + e.gang ∧
        (∀ m, m < e.gang → ∃ b : Block, t.blocks[n + m]? = some b ∧ b.life = .deque ∧ b.core = cores.getD m 0 ∧ b.member = m ∧ b.gangIdx = 0 ∧ b.entry = e ∧ b.ctx = q.ctx ∧
          b.task = some s.tasks.length ∧ (freeImages s q.ctx e.gang)[m]? = some b.image) ∧
        (e.gang = 1 → (coreOf t (cores.getD 0 0)).deque = (coreOf s (cores.getD 0 0)).deque ++ [n]) ∧
        (gangs = 1 → t.slots = s.slots.map (fun x => if x.pa = q.pa then { q with recs := [], count := q.count - 1, idleSince := clk s, waiting := false, page := none } else x)) ∧
        (1 < gangs → t.slots = s.slots.map (fun x => if x.pa = q.pa then { q with recs := [{ r with task := some s.tasks.length }] } else x))) ∧
    (∀ (s : State) (die slot idx : Nat) (q : Slot) (r : QRecord), (s.slots.filter (fun x => x.die == die))[slot]? = some q → (s.slots.map (·.pa)).Nodup →
      q.recs[idx]? = some r → (q.recs.map (·.id)).Nodup →
      let n := r.waited / 65536
      (n ≤ r.aged → exec (.priorityAging die slot idx) s = .next s) ∧
      (r.aged < n → exec (.priorityAging die slot idx) s = .next { s with slots := s.slots.map (fun x => if x.pa = q.pa then { q with recs := q.recs.modify idx (fun r => { r with aged := n }) } else x) }))
  ) ∧
  (
    (∀ (s : State) (core blk : Nat) (l : List Nat) (b : Block) (x : Task), gangBlock s core = none → (coreOf s core).deque = blk :: l → ((coreOf s core).spawnList.head?).any (spawnFits s core) = false →
      s.blocks[blk]? = some b → b.core = core → b.task.bind (fun t => s.tasks[t]?) = some x → b.entry.block ≤ (freeSlots s core).length →
      (∀ gr ∈ s.groups, gr.block ≠ blk) →
      let n := s.groups.length
      ∃ t, exec (.blockStart core) s = .next t ∧ (coreOf t core).deque = l ∧ t.groups.length = n + b.entry.block ∧
        (∀ k ∈ t.copies, (k ∈ s.copies ∧ k.site ≠ .core core) ∨ (k.site = .core core ∧ ∃ key, k.val = lastReleased s key k.word)) ∧
        (∃ y : Block, t.blocks[blk]? = some y ∧ y = { b with life := .running, grans := y.grans, wb := y.wb, ab := y.ab, cb := y.cb, ls := y.ls, groups := b.groups ++ (List.range b.entry.block).map (fun i => n + i) }) ∧
        (∀ sp off x, winRead t blk sp off 1 = [x] → x = 0 ∨ ∃ g l k, tabFind (coreOf s core).left g = some (b.ctx, l) ∧ (k, x) ∈ l) ∧
        ∀ i, i < b.entry.block → ∃ gr : Group, t.groups[n + i]? = some gr ∧ gr.life = .live ∧ gr.block = blk ∧ gr.gid = i ∧ gr.place = core ∧ gr.ctx = b.ctx ∧
          gr.size = b.entry.size ∧ gr.vcount = b.entry.vcount ∧ gr.trapQ = [] ∧ gr.handler = none ∧ gr.fmask = 0 ∧ gr.tvec = 0 ∧ gr.prog = 0 ∧
          gr.read (.s 0) = x.words.getD 6 0 ∧ gr.read (.s 1) = x.words.getD 7 0 ∧ (∀ j, 2 ≤ j → gr.read (.s j) = 0) ∧
          (∀ th j, gr.read (.v th j) = 0 ∧ gr.read (.q th j) = 0) ∧ (∀ j, gr.read (.k j) = 0) ∧
          ∃ fr, gr.frags = [fr] ∧ fr.pc = b.entryVa ∧ fr.mask = firstThreads b.entry.size ∧ fr.wait = .run ∧ fr.toks = []) ∧
    (∀ (s : State) (thief victim : Nat), thief ≠ victim → thief / 128 = victim / 128 → 2 ≤ (coreOf s victim).deque.length → coreIdle s thief = true →
      (activeCores s (thief / 128)).contains thief = true →
      ∃ t k, exec (.steal thief victim) s = .next t ∧ k ≤ (coreOf s victim).deque.length / 2 ∧
        (coreOf t victim).deque = (coreOf s victim).deque.drop k ∧ (coreOf t thief).deque = (coreOf s thief).deque ++ (coreOf s victim).deque.take k ∧
        (∀ n ∈ (coreOf s victim).deque.take k, ∃ b : Block, t.blocks[n]? = some b ∧ b.core = thief) ∧
        (∀ n b, (coreOf s victim).deque.head? = some n → s.blocks[n]? = some b → roomBesideAb s b.entry b.entry.block thief = true → abRoom s b.entry thief = true →
          (coreOf s thief).deque.length < 16 → 1 ≤ k))
  )

/-- R49, R366, R205 to R207, R3: a fragment passed over for 256 clk becomes urgent; a core's matrix counts reach the context's
words, which saturate; the boundary of AB moves by 64 KiB up or down, or stays, and no tile has a frame below it after a raise; a
tick of the time base adds one to %time and
leaves memory, registers and fragments as they are. R299, R350, R287, R288, R305: a complete task raises its completion word
and then takes one from its done counter; a slot that has stayed empty for 65,536 clk is written back and freed; a waiting
fault entry reaches its queue. The counts of an AB interval are those of sampled sets (log 30); clk follows log 33. -/
def Obligations.Upkeep : Prop :=
  (
    (∀ (s : State) (g f : Nat) (gr : Group) (fr : Frag), s.groups[g]? = some gr → gr.frag? f = some fr → ∃ t, exec (.urgent g f) s = .next t ∧
      (fr.passed < 256 → t = s) ∧ (256 ≤ fr.passed → Becomes s t g { gr with frags := gr.frags.map (fun x => if x.id = f then { x with urgent := true } else x) })) ∧
    (∀ (s : State) (core : Nat) (c : Ctx) (hs : List Bool), (coreOf s core).held = [(c, hs)] →
      (2 ≤ clk s % 65536 ∨ residentOn s core c = true → exec (.foldRetry core) s = .next s) ∧
      ∀ key, clk s % 65536 < 2 → residentOn s core c = false → fixedAt s c (c.root.toNat + 0x1180) = .at key → hs.length = 4 → (coreCounts s core c).length = 4 →
      let w := (c.root.toNat + 0x1180) / 4
      let goes (i : Nat) : Bool := hs.getD i false && !foldHeld s (w + i)
      ∃ t, exec (.foldRetry core) s = .next t ∧ t.groups = s.groups ∧
        ∀ i, i < 4 → (coreCounts t core c).getD i 0 = (if goes i then 0 else (coreCounts s core c).getD i 0) ∧
          (heldCounts t core c).getD i false = (hs.getD i false && foldHeld s (w + i)) ∧
          readWord t key (w + i) = (if goes i then BitVec.ofNat 32 (min ((readWord s key (w + i)).toNat + (coreCounts s core c).getD i 0) (2 ^ 32 - 1)) else readWord s key (w + i))) ∧
    (∀ (s : State) (core : Nat), (coreOf s core).held = [] → exec (.foldRetry core) s = .next s) ∧
    (∀ (s : State) (core a l g : Nat), clk s % 65536 < 2 → clk s / 65536 ≠ (coreOf s core).interval →
      let k := coreOf s core
      let waits := waitsAb (modCore s core (fun k => { k with interval := clk s / 65536, tileHits := 0, tileMisses := 0, tightHits := 0, lostMisses := 0 })) core
      let up := waits = true ∧ k.carve + 64 ≤ abMax (residents s core) ∧ 64 * l < a
      let down := waits = false ∧ 64 ≤ k.carve ∧ abMin (residents s core) ≤ k.carve - 64 ∧ a < 32 * g
      (k.samples a l g = false → exec (.abIntervalEnd core a l g) s = .next s) ∧
      (k.samples a l g = true → ∃ t, exec (.abIntervalEnd core a l g) s = .next t ∧ (coreOf t core).interval = clk s / 65536 ∧ t.groups = s.groups ∧ t.mem = s.mem ∧
        (coreOf t core).carve = (if up ∧ (raiseTo s core (k.carve + 64)).isSome = true then k.carve + 64 else if down then k.carve - 64 else k.carve) ∧
        (up → (raiseTo s core (k.carve + 64)).isSome = true → ∀ p ∈ framedTiles t core, (k.carve + 64) / 16 ≤ p.2.2.place))) ∧
    (∀ (s : State), ∃ t, exec .timeBaseTick s = .next t ∧ t.time = s.time + 1 ∧ t = { s with time := t.time, slots := t.slots, groups := t.groups } ∧
      t.groups.length = s.groups.length ∧ ∀ (g : Nat) (gr : Group), s.groups[g]? = some gr → ∃ gr' : Group, t.groups[g]? = some gr' ∧ gr' = { gr with frags := gr'.frags } ∧
        gr'.frags.map (fun x => { x with passed := 0 }) = gr.frags.map (fun x => { x with passed := 0 }))
  ) ∧
  (
    (∀ (s : State) (n : Nat) (x : Task) (va : DWord) (pa k : Nat), s.tasks[n]? = some x → va ≠ 0 → deviceXlat s x.ctx .atomic va = .ok pa k → cwHeld s pa = false →
      let old := leNat (readBytes s k pa 8)
      let Ends (t : State) (v : Nat) : Prop := Stored s t [({ tid := 0, va, n := 8, data := leBytes 8 v }, pa, k)] ∧ regOf t (pa / 4) = none ∧ regOf t (pa / 4 + 1) = none ∧
        t = { s with tasks := s.tasks.modify n (fun x => { x with life := .complete, posted := false }), mem := t.mem, tags := t.tags, reg := t.reg, monitors := t.monitors, hostLines := t.hostLines }
      (x.life = .wordPending → x.words.getD 4 0 = va → x.words.getD 3 0 = 0 → ∃ t, exec (.taskCompletion n) s = .next t ∧ Ends t (max old (x.words.getD 5 0).toNat)) ∧
      (x.life = .donePending → x.words.getD 3 0 = va → old ≠ 0 → ∃ t, exec (.taskCompletion n) s = .next t ∧ Ends t (old - 1))) ∧
    (∀ (s : State) (die slot : Nat) (q : Slot) (s1 : State), (s.slots.filter (fun x => x.die == die))[slot]? = some q → (∀ x ∈ s.named, x.die ≠ die) →
      (q.isEmpty = false ∨ clk s < q.idleSince + 65536 → exec (.unbind die slot) s = .next s) ∧
      (q.recs = [] → q.head = q.tail → q.idleSince + 65536 ≤ clk s → devWrite s q.ctx (q.desc + 24) q.counters = .ok s1 →
        exec (.unbind die slot) s = .next { s1 with slots := s1.slots.filter (fun x => x.pa != q.pa) })) ∧
    (∀ (s : State) (die : Nat) (e : FaultEntry) (l : List FaultEntry) (s1 : State), (s.overflow.getD die Overflow.empty).entries = e :: l →
      faultAppend s e ((s.overflow.getD die Overflow.empty).dropsOf e.ctx) = some s1 →
      exec (.overflowAppend die) s = .next { s1 with overflow := s1.overflow.modify die (fun o => { entries := l ++ (o.held.filter (stillHeld s)).take 1, held := (o.held.filter (stillHeld s)).drop 1, dropped := o.dropped.filter (fun p => p.1 != e.ctx) }) })
  )

/-! ### Pre-emption, host, fabric, life cycle (15, 19) -/

/-- R317, R319: a request word with a new sequence is taken: run and the unassigned codes do nothing, and the unassigned ones
have result 2; pre-empt flushes, drains or saves a gang as its progress says, save saves it, abort discards every block of the
context, and resume makes its saved blocks restorable, and its switched-out ones that wait for nothing more. An answered request has its status in the record. What a request takes
and when follows log 19. -/
def Obligations.Requests : Prop :=
  let New (s : State) (c : Ctx) (code : Nat) : Prop := knownCtx s c = true ∧ (requestWord s c).1 = code ∧
    requestWord s c ≠ ((lastRequest s c).map (fun r => (r.code, r.seq))).getD (0, 0)
  let taken (s : State) (c : Ctx) : State := putRequest s { ctx := c, code := (requestWord s c).1, seq := (requestWord s c).2, answered := false, result := if 5 ≤ (requestWord s c).1 then 2 else 0, rcslot := none }
  (∀ (s : State) (c : Ctx), New s c 0 → exec (.runRequest c) s = .next (taken s c)) ∧
  (∀ (s : State) (c : Ctx) (code : Nat), New s c code → 5 ≤ code → exec (.unassignedRequest c) s = .next (taken s c)) ∧
  (∀ (s : State) (c : Ctx) (g : Nat) (x : Gang), New s c 1 → residentGangs s c = [g] → s.gangs[g]? = some x → x.saving = none →
    ∃ t, exec (.preemptRequest c) s = .next t ∧ lastRequest t c = lastRequest (taken s c) c ∧
      (gangChoice s x = .drain → (gangMembers s x).Nodup → t = { taken s c with blocks := t.blocks } ∧ ∀ (n : Nat) (b : Block), s.blocks[n]? = some b →
        t.blocks[n]? = some (if n ∈ gangMembers s x then { b with drainFrom := some (clk s) } else b)) ∧
      (gangChoice s x = .save → unstarted s x = false → t = { taken s c with gangs := s.gangs.modify g (fun x => { x with saving := some false }) }) ∧
      (gangChoice s x = .flush → (∀ n ∈ gangMembers s x, ∃ b : Block, t.blocks[n]? = some b ∧ b.life = .gone) ∧ ∃ x' : Gang, t.gangs[g]? = some x' ∧ x'.task = none)) ∧
  (∀ (s : State) (c : Ctx) (g : Nat) (x : Gang), New s c 2 → residentGangs s c = [g] → s.gangs[g]? = some x → x.saving = none → unstarted s x = false →
    exec (.saveRequest c) s = .next { taken s c with gangs := s.gangs.modify g (fun x => { x with saving := some false }) }) ∧
  (∀ (s : State) (c : Ctx), New s c 3 → ∃ t, exec (.abortRequest c) s = .next t ∧ lastRequest t c = lastRequest (taken s c) c ∧
    (∀ (n : Nat) (b : Block), s.blocks[n]? = some b → ∃ b' : Block, t.blocks[n]? = some b' ∧
      b'.life = if b.ctx = c ∧ b.life ≠ .ended then .gone else b.life) ∧
    (∀ p ∈ t.cores, (∀ b ∈ p.2.spawnList, b.ctx ≠ c) ∧ ∀ b, some b ∈ p.2.bins → b.ctx ≠ c) ∧ ∀ r ∈ t.spawnSaved, r.bin.ctx ≠ c) ∧
  (∀ (s : State) (c : Ctx), New s c 4 → (∀ r ∈ s.spawnSaved, r.bin.ctx ≠ c) →
    exec (.resumeRequest c) s = .next { taken s c with blocks := s.blocks.map (fun b => if b.ctx = c ∧ (b.life = .saved ∨ (b.life = .switchedOut ∧ b.missKeys = [])) then { b with ready := true } else b) }) ∧
  (∀ (s : State) (c : Ctx) (r : Request) (key : Nat), lastRequest s c = some r → r.ctx = c → fixedAt s c (c.root.toNat + 0x1000) = .at key →
    (r.answered = true ∨ carriedOut s r = false → exec (.statusWrite c) s = .next s) ∧
    (r.answered = false → carriedOut s r = true → r.code ∉ [1, 2] → r.rcslot = none →
      (∀ i < 2, ∀ a, (∀ l va, regOf s ((c.root.toNat + 0x1008) / 4 + i) ≠ some (.owned a l va)) ∧ (∀ p, regOf s ((c.root.toNat + 0x1008) / 4 + i) ≠ some (.claimed a p)) ∧ ∀ n, regOf s ((c.root.toNat + 0x1008) / 4 + i) ≠ some (.frozen n)) →
      ∃ t, exec (.statusWrite c) s = .next t ∧
        Stored s t [({ tid := 0, va := 0, n := 8, data := leBytes 8 (r.result + r.seq * 2 ^ 8) }, c.root.toNat + 0x1008, key)] ∧
        lastRequest t c = some { r with answered := true, rcslot := none } ∧
        t = { s with mem := t.mem, tags := t.tags, reg := t.reg, monitors := t.monitors, hostLines := t.hostLines, requests := t.requests }))

/-- R316, R319 to R322: a block with an instruction parked for 20,000 clk, or one that has not drained in time, goes on its
way into its image with its gang; the members of a gang that has drained leave their cores with their windows and registers,
their words in V; a restorable gang comes back with them on its new core; one that no cores of its partition could ever take stays,
and the request's result is RESTORE_CAPACITY. What an image holds follows logs 19 and 34. -/
def Obligations.Images : Prop :=
  (∀ (s : State) (n : Nat) (b : Block) (x : Gang), s.blocks[n]? = some b → s.gangs[b.gang]? = some x → b.life = .running → x.saving = none →
    ((∃ gr ∈ s.groups, gr.block = n ∧ gr.going = true ∧ gr.overdue (clk s) = true) →
      exec (.switchOut n) s = .next { s with gangs := s.gangs.modify b.gang (fun x => { x with saving := some true }) }) ∧
    ((∀ gr ∈ s.groups, gr.block = n → gr.overdue (clk s) = false) → exec (.switchOut n) s = .next s) ∧
    ∀ since, b.drainFrom = some since →
      (clk s < since + drainLimit s b.ctx → exec (.drainlimExpiry n) s = .next s) ∧
      (since + drainLimit s b.ctx ≤ clk s → unstarted s x = false → x.blocks.Nodup → ∃ t, exec (.drainlimExpiry n) s = .next t ∧
        t = { s with blocks := t.blocks, gangs := s.gangs.modify b.gang (fun x => { x with saving := some false }) } ∧
        ∀ (m : Nat) (y : Block), s.blocks[m]? = some y → t.blocks[m]? = some (if m ∈ x.blocks then { y with drainFrom := none } else y))) ∧
  (∀ (s : State) (gang : Nat) (x : Gang) (out : Bool), s.gangs[gang]? = some x → x.saving = some out → (gangMembers s x).Nodup → (s.reg.map (·.1)).Nodup → (∀ gr ∈ s.groups, gr.late = []) →
    ((∃ b ∈ gangMembers s x, drained s b = false) → exec (.save gang) s = .next s) ∧
    ((∀ b ∈ gangMembers s x, drained s b = true) → ∃ t, exec (.save gang) s = .next t ∧ t.gangs = s.gangs.modify gang (fun x => { x with saving := none }) ∧
      ∀ n ∈ gangMembers s x, ∀ b : Block, s.blocks[n]? = some b →
        (∃ b' : Block, t.blocks[n]? = some b' ∧ b'.life = (if out then .switchedOut else .saved) ∧ b'.drainFrom = none ∧ (b'.wb, b'.ab, b'.cb, b'.ls) = (b.wb, b.ab, b.cb, b.ls) ∧ b'.groups = b.groups) ∧
        n ∉ (coreOf t b.core).deque ∧
        ∀ g ∈ liveGroups s b, ∀ gr : Group, s.groups[g]? = some gr → gr.run = none → ∃ gr' : Group, t.groups[g]? = some gr' ∧ gr'.older = [] ∧ (∀ key, gr'.read key = gr.read key) ∧
          gr'.frags.map (fun f => (f.id, f.mask, f.pc)) = gr.frags.map (fun f => (f.id, f.mask, f.pc)) ∧
          ∀ w, (∃ l va, regOf s w = some (.owned (.group g) l va)) ∨ (∃ va, regOf s w = some (.released (.group g) va)) → regOf t w = none)) ∧
  (∀ (s : State) (gang n core : Nat) (x : Gang) (b : Block), s.gangs[gang]? = some x → imagedMembers s x = [n] → s.blocks[n]? = some b →
    (restorable s gang x [n] = false → exec (.restore gang [core]) s = .next s) ∧
    (restorable s gang x [n] = true → everRestored s x.ctx 1 = false → ∃ t r, exec (.restore gang [core]) s = .next t ∧ t = { s with blocks := s.blocks.modify n (fun b => { b with ready := false }), requests := t.requests } ∧
      lastRequest t x.ctx = some r ∧ r.result = 1 ∧ r.answered = false ∧ r.rcslot = some b.image) ∧
    (restorable s gang x [n] = true → everRestored s x.ctx 1 = true → restorePlan s x.ctx [n] [core] = some [core] → framedTiles s core = [] → (∀ y ∈ b.tiles, y.state.framed = false) →
      b.groups.Nodup → (∀ g ∈ b.groups, ∀ gr : Group, s.groups[g]? = some gr → gr.log = [] ∧ gr.region = none ∧ gr.run = none) →
      ∃ t, exec (.restore gang [core]) s = .next t ∧
        (∃ b' : Block, t.blocks[n]? = some b' ∧ b'.life = (if b.groups = [] then .deque else .running) ∧ b'.core = core ∧ b'.ready = false ∧ b'.missing = 0 ∧
          (b'.wb, b'.ab, b'.cb, b'.ls) = (b.wb, b.ab, b.cb, b.ls)) ∧
        ∀ g ∈ liveGroups s b, ∀ gr : Group, s.groups[g]? = some gr → ∃ gr' : Group, t.groups[g]? = some gr' ∧ gr'.place = core ∧ gr'.life = gr.life ∧
          (∀ key, gr'.read key = gr.read key) ∧ gr'.frags.map (fun f => (f.id, f.mask, f.pc, f.wait)) = gr.frags.map (fun f => (f.id, f.mask, f.pc, f.wait))))

/-- R371, R381, R23, R378: a doorbell, a thermal limit and an uncorrectable error raise their sources on every enabled control
core of the package; a poisoned unit or SRAM line is remembered; a host write to BAR 0 sets the mailbox or the MSI-X table, and
a read returns identification, state, mailbox, table or 0; an SPDM request
is answered with the signed measurements. R369, R370, R213: a host read returns the 64 bytes of its line as the host context's
key reads them, with poison where the unit is poisoned; a host write is a store by the agent of its I/O die, and its release at once; a page that is not there gives a
PAGE entry and, for a write, nothing else. The table, the mailbox and the measurements are those of logs 22 and 24; host
accesses follow log 36. -/
def Obligations.HostSide : Prop :=
  (
    let Raised (s t : State) (src : Nat) : Prop := t.ctls.length = s.ctls.length ∧ ∀ (cc : Nat) (c : Ctl), s.ctls[cc]? = some c →
      t.ctls[cc]? = some (if ctlEnabled s cc then { c with kpend := c.kpend ||| BitVec.ofNat 8 (2 ^ src) } else c)
    (∀ (s : State) iod, ∃ t, exec (.doorbell iod) s = .next t ∧ t = { s with ctls := t.ctls } ∧ Raised s t 1) ∧
    (∀ (s : State) iod v, ∃ t, exec (.registerWrite (.bar iod 0x100 v)) s = .next t ∧ t = { s with ctls := t.ctls } ∧ Raised s t 1) ∧
    (∀ (s : State) iod v, exec (.registerWrite (.bar iod 0x108 v)) s = .next { s with bars := s.bars.modify iod (fun b => { b with mailbox := v }) }) ∧
    (∀ (s : State) iod off v (b : Bar), s.bars[iod]? = some b → 0x200 ≤ off → off < 0x300 → ∃ t b', exec (.registerWrite (.bar iod off v)) s = .next t ∧ t = { s with bars := s.bars.set iod b' } ∧
      b' = { b with msix := b'.msix } ∧ b'.msix.length = b.msix.length ∧ ∀ i, i < b.msix.length →
        b'.msix.getD i 0 = if 0x200 + i < off ∨ off + 8 ≤ 0x200 + i then b.msix.getD i 0 else (leBytes 8 v.toNat).getD (0x200 + i - off) 0) ∧
    (∀ (s : State) iod (b : Bar), s.bars[iod]? = some b → readBar s iod 0 = BitVec.ofNat 64 (0x4F5A + Config.stepId * 2 ^ 16) ∧ readBar s iod 8 = s.hostState.setWidth 64 ∧
      readBar s iod 0x108 = b.mailbox ∧ (∀ off, 0x200 ≤ off → off < 0x300 → readBar s iod off = BitVec.ofNat 64 (leNat (bytesOf (fun i => b.msix.getD i 0) (off - 0x200) 8))) ∧
      ∀ off, off ∉ [0, 8, 0x108] → ¬ (0x200 ≤ off ∧ off < 0x300) → readBar s iod off = 0) ∧
    (∀ (s : State) entered, ∃ t, exec (.thermalLimit entered) s = .next t ∧ t = { s with ctls := t.ctls, thermal := entered } ∧ Raised s t 6) ∧
    (∀ (s : State) pa, ∃ t, exec (.uncorrectableError (.memory pa)) s = .next t ∧ t = { s with ctls := t.ctls, poison := t.poison } ∧ Raised s t 3 ∧
      ∀ u, u ∈ t.poison ↔ u ∈ s.poison ∨ u = pa / 64) ∧
    (∀ (s : State) n, (∀ b ∈ s.blocks, b.core = n → b.life ≠ .running) → ∃ t, exec (.uncorrectableError (.core n)) s = .next t ∧ t = { s with ctls := t.ctls } ∧ Raised s t 3) ∧
    (∀ (s : State) n, ∃ t, exec (.uncorrectableError (.sram n)) s = .next t ∧ t = { s with ctls := t.ctls, sramPoison := t.sramPoison } ∧ Raised s t 3 ∧ ∀ u, u ∈ t.sramPoison ↔ u ∈ s.sramPoison ∨ u = n) ∧
    (∀ (s : State) n, ∃ t, exec (.uncorrectableError (.control n)) s = .next t ∧ t = { s with ctls := t.ctls } ∧ Raised s t 3) ∧
    (∀ (s : State) iod request, exec (.spdmRequest iod request) s = .next { s with bars := s.bars.modify iod (fun b =>
      { b with spdm := b.spdm ++ [s.measures.flatten ++ Config.spdmSign s.measures.flatten request] }) })
  ) ∧
  (
    (∀ (s : State) iod off pa key s1, off < hdmRange s → translate s (.iod iod) s.hostCtx false .load (BitVec.ofNat 64 (off / 64 * 64)) = (.ok pa key, s1) →
      s.poison.contains (pa / 64) = false → pa % 64 = 0 → (∀ i < 16, regOf s (pa / 4 + i) = none) → (∀ i < 16, tabFind s.tags (aliasOf (4 * (pa / 4 + i)) / 64) = none) →
      ∃ t, exec (.cxlMemRead iod off) s = .next t ∧ t = { s1 with bars := t.bars, hostLines := t.hostLines } ∧ pa / 64 ∈ t.hostLines ∧
        ∀ b : Bar, s.bars[iod]? = some b → t.bars[iod]? = some { b with reply := readBytes s key pa 64, poisoned := false }) ∧
    (∀ (s : State) iod off pa key s1 (b : Bar), off < hdmRange s → translate s (.iod iod) s.hostCtx false .load (BitVec.ofNat 64 (off / 64 * 64)) = (.ok pa key, s1) →
      s.poison.contains (pa / 64) = true → s.bars[iod]? = some b → ∃ t b', exec (.cxlMemRead iod off) s = .next t ∧ t = { s1 with bars := s.bars.set iod b' } ∧
        b'.poisoned = true ∧ b' = { b with reply := b'.reply, poisoned := true }) ∧
    (∀ (s : State) iod off bytes pa key s1, off < hdmRange s → bytes ≠ [] → bytes.length ≤ 64 - off % 64 → translate s (.iod iod) s.hostCtx false .store (BitVec.ofNat 64 off) = (.ok pa key, s1) →
      pa % 64 = off % 64 → s.poison = [] → (∀ i < 16, registers (pa / 64 * 16 + i) = true ∧ (regOf s (pa / 64 * 16 + i) = none ∨ ∃ a va, regOf s (pa / 64 * 16 + i) = some (.released a va))) →
      ∃ t, exec (.cxlMemWrite iod off bytes) s = .next t ∧ Stored s t [({ tid := 0, va := 0, n := bytes.length, data := bytes }, pa, key)] ∧
        t = { s1 with mem := t.mem, tags := t.tags, reg := t.reg, monitors := t.monitors, hostLines := t.hostLines, copies := t.copies } ∧
        (∀ w, pa / 4 ≤ w → 4 * w < pa + bytes.length → ∃ va, regOf t w = some (.released (.host iod) va)) ∧
        ∀ w, w < pa / 4 ∨ pa + bytes.length ≤ 4 * w → ∀ b, b ≠ .host iod → (∀ l va, regOf s w = some (.owned b l va) → regOf t w = some (.owned b l va)) ∧
          ∀ va, regOf s w = some (.released b va) → regOf t w = some (.released b va)) ∧
    (∀ (s : State) iod off pte s1, off < hdmRange s →
      let entry (access : Nat) (va : DWord) : FaultEntry := { ctx := s.hostCtx, kind := 1, access, addr := va, originKind := 4, origin := BitVec.ofNat 64 iod, time := s.time }
      (∀ bytes, bytes ≠ [] → translate s (.iod iod) s.hostCtx false .store (BitVec.ofNat 64 off) = (.page pte, s1) →
        exec (.cxlMemWrite iod off bytes) s = .next (post s1 (4 + iod) (entry 1 (BitVec.ofNat 64 off)))) ∧
      (translate s (.iod iod) s.hostCtx false .load (BitVec.ofNat 64 (off / 64 * 64)) = (.page pte, s1) → ∃ t, exec (.cxlMemRead iod off) s = .next t ∧
        t = { post s1 (4 + iod) (entry 0 (BitVec.ofNat 64 (off / 64 * 64))) with bars := t.bars }))
  )

/-- R373, R374, R376, R377, R333, R334: a port takes the next flit in sequence whose tag verifies and acknowledges it, passes over
one that came before and asks again for any other, and for one of a reserved type; an accepted message performs the access that
it asks for; what a port sends has the next sequence and a tag under the slot in use, and stays in the replay buffer; an
acknowledged flit leaves that, and flits asked for again go out as they were; a roll-over takes the other key slot with a new key, and the old one is retired once no kept flit
carries it; a key sends fewer than 2^47 flits. A scope table that keeps its rules is installed with the next generation, in
registers and in its mirror, of which frozen words keep their values (R233; log 39). Ports, keys and windows follow logs 21 and 23. -/
def Obligations.Fabric : Prop :=
  (∀ (s : State) p (f : Flit) (x : Port), s.ports[p]? = some x →
    let port (y : Port) : State := { s with ports := s.ports.set p y }
    let answered (y : Port) (again : Bool) : Port := if x.maySend = true then y.send p 3 (Config.ackPayload x.received again) else y
    let asked : State := port (answered { x with again := x.again + 1 } true)
    let taken : State := port (answered { x with received := x.received + 1 } false)
    let next := BitVec.ofNat 48 x.received
    (∀ mk type, (mk, type) ∈ [(Instr.registrationFlit, 1), (.dataFlit, 2)] →
      (∀ bs, exec (mk p (.sends bs)) s = .next (if x.maySend = true then port (x.send p type bs) else s)) ∧
      ∀ access,
      (x.up = false → exec (mk p (.arrives f access)) s = .next s) ∧
      (x.up = true → f.type.toNat = 0 ∨ 4 < f.type.toNat → exec (mk p (.arrives f access)) s = .next asked) ∧
      (x.up = true → f.type.toNat = type →
        (flitOk x p f = false → exec (mk p (.arrives f access)) s = .next asked) ∧
        (flitOk x p f = true → f.seq = next → (access = none → exec (mk p (.arrives f access)) s = .next taken) ∧
          ∀ a pkg n t, access = some a → a.agent = .remote pkg n → exec (.homeAccess a.agent a.kind a.pa) taken = .next t → exec (mk p (.arrives f access)) s = .next t) ∧
        (flitOk x p f = true → f.seq ≠ next → (next - f.seq).toNat < 2 ^ 47 → exec (mk p (.arrives f access)) s = .next s) ∧
        (flitOk x p f = true → f.seq ≠ next → 2 ^ 47 ≤ (next - f.seq).toNat → exec (mk p (.arrives f access)) s = .next asked))) ∧
    (∀ type plain, (x.maySend = true ↔ x.up = true ∧ x.replay.length < 1024 ∧ x.sent - x.begun < 2 ^ 47) ∧
      ∃ g, x.send p type plain = { x with sent := x.sent + 1, replay := x.replay ++ [g], out := x.out ++ [g] } ∧ g.slot = x.slot ∧ g.seq = BitVec.ofNat 48 x.sent ∧
        g.type = BitVec.ofNat 8 type ∧ g.tag = flitTag (x.key x.slot) p true x.slot type (x.sent % 2 ^ 48) g.payload) ∧
    (∀ seq again, x.up = true → f.type = 3 → flitOk x p f = true → f.seq = next →
      let kept := x.replay.filter (fun y => y.seq != seq)
      exec (.acknowledge p { flit := f, seq, again }) s = .next { s with ports := s.ports.set p { x with received := x.received + 1, replay := kept, out := match again with
        | none => x.out
        | some q => x.out ++ kept.dropWhile (fun y => y.seq != q) } }) ∧
    (∀ seq again, x.up = true → f.type = 3 → flitOk x p f = false → exec (.acknowledge p { flit := f, seq, again }) s = .next asked) ∧
    (x.up = true → f.type = 4 → (flitOk x p f = false → exec (.keyControl p (.arrives f)) s = .next asked) ∧
      (flitOk x p f = true → f.seq = next → exec (.keyControl p (.arrives f)) s = .next taken))) ∧
  (∀ (s : State) p (x : Port), s.ports[p]? = some x →
    let Port' (t : State) (x' : Port) : Prop := t = { s with ports := s.ports.set p x' }
    (∀ key, x.up = true → x.retiring = false → ∃ t, exec (.rollover { port := p, key }) s = .next t ∧
      Port' t { x with keys := x.keys.set (!x.slot).toNat key, slot := !x.slot, retiring := true, begun := x.sent }) ∧
    (∀ key, x.retiring = true → exec (.rollover { port := p, key }) s = .next s) ∧
    (x.retiring = true → (∀ f ∈ x.replay, f.slot = x.slot) → x.up = true → x.replay.length < 1024 → x.sent - x.begun < 2 ^ 47 → ∃ t f, exec (.keyControl p (.retires (!x.slot))) s = .next t ∧
      Port' t { x with retiring := false, sent := x.sent + 1, replay := x.replay ++ [f], out := x.out ++ [f] } ∧ f.slot = x.slot ∧ f.seq = BitVec.ofNat 48 x.sent ∧ f.type = 4 ∧
      f.tag = flitTag (x.key x.slot) p true x.slot 4 (x.sent % 2 ^ 48) f.payload) ∧
    (2 ^ 47 ≤ x.sent - x.begun ∨ 1024 ≤ x.replay.length → exec (.keyControl p (.retires (!x.slot))) s = .next s) ∧
    (∀ slot, (∃ f ∈ x.replay, f.slot = slot) → exec (.keyControl p (.retires slot)) s = .next s) ∧
    (∃ t, exec (.portDown p) s = .next t ∧ Port' t { x with up := false }) ∧
    ((∀ b ∈ s.blocks, b.life ≠ .switchedOut) → (∀ gr ∈ s.groups, ∀ e ∈ gr.log, e.dies = []) → ∃ t, exec (.portUp p) s = .next t ∧ Port' t { x with up := true })) ∧
  (∀ (s : State) (l : List (BitVec 20 × BitVec 20)), (∀ b ∈ s.blocks, b.life ≠ .switchedOut) → (∀ gr ∈ s.groups, ∀ e ∈ gr.log, e.dies = []) →
    let names (e : BitVec 20 × BitVec 20) (p : BitVec 20) : Prop := (p ^^^ e.1) &&& e.2 = 0
    let good : Prop := l.length ≤ 16 ∧ (∀ e ∈ l, names e s.pkgId) ∧ ∀ i x y, l[i]? = some x → l[i + 1]? = some y → x.2 &&& y.2 = y.2 ∧ names y x.1
    (¬ good → exec (.scopeTableInstall { entries := l, windows := [] }) s = .next s) ∧
    (good → ∃ t, exec (.scopeTableInstall { entries := l, windows := [] }) s = .next t ∧ t.scopes = l ∧ t.scopeGen = (s.scopeGen + 1) % 2 ^ 24 ∧ t.windows = s.windows ∧
      t = { s with scopes := l, scopeGen := t.scopeGen, mem := t.mem, tags := t.tags, monitors := t.monitors, hostLines := t.hostLines, ctls := t.ctls } ∧
      (∀ (cc : Nat) (c : Ctl), s.ctls[cc]? = some c → ctlEnabled s cc = true → t.ctls[cc]? = some { c with kpend := c.kpend ||| 4 }) ∧
      let key := (keyOf s 0).getD 0
      (∀ w n, regOf s w = some (.frozen n) → readWord t key w = readWord s key w) ∧
      ((∀ w n, regOf s w ≠ some (.frozen n)) → readBytes t key 0x1000 8 = leBytes 8 (l.length + s.pkgId.toNat * 2 ^ 16 + t.scopeGen * 2 ^ 40) ∧
        ∀ n e, l[n]? = some e → readBytes t key (0x1008 + 8 * n) 8 = leBytes 8 (e.1.toNat + e.2.toNat * 2 ^ 20))))

/-- R378 to R380, R236: a cold start leaves every register at its reset value and keeps the configuration and the memory of
the host and of other packages, with a fresh key in every entry (R335); a warm start keeps memory, keys, windows and scopes as well. A firmware image that verifies is
measured and runs; else state is 4 and no control core issues. The warm reset of a die tells the control cores, sends its gangs
to their images, and then takes the die offline with its control cores reset and every registered word homed there recalled from
the caches; a die that comes back has every word homed there
in V but for claimed ones, and where its links could not be retrained state is 4. What a reset keeps and drops follows log 31;
the configuration is that of log 5, the image check that of log 24. -/
def Obligations.LifeCycle : Prop :=
  let Fresh (s t : State) : Prop := t.reg = [] ∧ t.copies = [] ∧ t.xlat = [] ∧ t.groups = [] ∧ t.blocks = [] ∧ t.slots = [] ∧ t.commands = [] ∧ t.offline = [] ∧ t.time = 0 ∧
    (∀ c ∈ t.ctls, c.kstate = 1 ∧ c.kpend = 0 ∧ c.kmask = 0x7E ∧ c.batch = 0) ∧
    (t.pkgId, t.cfgCore, t.cfgOct, t.cfgCtl, t.cfgHbm, t.cfgLink) = (s.pkgId, s.cfgCore, s.cfgOct, s.cfgCtl, s.cfgHbm, s.cfgLink) ∧
    (if bootOk s.firmware = true then t.hostState = 2 ∧ t.hostCtx = { s.firmware.host with asid := 0 } ∧ (∀ c ∈ t.ctls, c.stopped = false) ∧
      ∀ m ∈ t.measures, m = sha256 (List.replicate 32 0 ++ sha256 s.firmware.image)
    else t.hostState = 4 ∧ (∀ c ∈ t.ctls, c.stopped = true) ∧ ∀ m ∈ t.measures, m = List.replicate 32 0)
  let Raised (s t : State) (src : Nat) : Prop := ∀ (cc : Nat) (c : Ctl), s.ctls[cc]? = some c → ctlEnabled s cc = true → t.ctls[cc]? = some { c with kpend := c.kpend ||| BitVec.ofNat 8 (2 ^ src) }
  (∀ (s : State), ∃ t, exec .coldStart s = .next t ∧ Fresh s t ∧ t.mem = s.mem.filter (fun p => !isDevice p.1) ∧ t.scopes = [] ∧
    ∀ i < 1024, keyOf t i = some (s.nextKey + i) ∧ s.nextKey + i < t.nextKey) ∧
  (∀ (s : State), ∃ t, exec .warmStart s = .next t ∧ Fresh s t ∧ (t.mem, t.tags, t.poison, t.keys, t.erased, t.windows, t.scopes, t.scopeGen)
    = (s.mem, s.tags, s.poison, s.keys, s.erased, s.windows, s.scopes, s.scopeGen)) ∧
  (∀ (s : State) (d : Nat), d < 4 → d ∉ s.offline →
    (s.hostState = 2 → ∃ t, exec (.warmReset d) s = .next t ∧ t.hostState.toNat = 3 + 16 * d ∧ Raised s t 4 ∧
      ∀ g ∈ gangsOnDie s d, ∀ x : Gang, s.gangs[g]? = some x → unstarted s x = false → x.saving = none → t.gangs[g]? = some { x with saving := some false }) ∧
    (s.hostState.toNat = 3 + 16 * d → gangsOnDie s d ≠ [] ∨ enginesClear s d = false → exec (.warmReset d) s = .next s) ∧
    (s.hostState.toNat = 3 + 16 * d → gangsOnDie s d = [] → enginesClear s d = true → ∃ t, exec (.warmReset d) s = .next t ∧ d ∈ t.offline ∧
      (∀ q ∈ t.slots, q.die ≠ d) ∧ (∀ (cc : Nat) (c : Ctl), s.ctls[cc]? = some c → t.ctls[cc]? = some (if cc / 24 = d then Ctl.reset else c)) ∧
      (∀ k ∈ t.copies, ∀ n, k.site = .core n → n / 128 ≠ d) ∧ (∀ k ∈ t.copies, ∀ n, k.site = .ctl n → n / 24 ≠ d) ∧ (∀ x ∈ t.xlat, clusterDie x.cluster ≠ d) ∧
      ∀ w a va, isDevice (4 * w) = true → homeDie (4 * w) = d → regOf t w = some (.released a va) ∨ (∃ l, regOf t w = some (.owned a l va)) → va = evictedVa)) ∧
  (∀ (s : State) (d : Nat) (succeeds : Bool), (d ∉ s.offline ∨ s.hostState.toNat % 16 = 4 → exec (.reAdmission { die := d, succeeds }) s = .next s) ∧
    (d ∈ s.offline → s.hostState.toNat % 16 ≠ 4 → exec (.reAdmission { die := d, succeeds := false }) s = .next { s with hostState := 4 }) ∧
    (d ∈ s.offline → s.hostState.toNat % 16 ≠ 4 → (∀ b ∈ s.blocks, b.life ≠ .switchedOut) → (∀ gr ∈ s.groups, ∀ e ∈ gr.log, e.dies = []) → (s.reg.map (·.1)).Nodup →
      ∃ t, exec (.reAdmission { die := d, succeeds := true }) s = .next t ∧
        t = { s with offline := s.offline.filter (fun x => x != d), hostState := 2, reg := t.reg, ctls := t.ctls } ∧ Raised s t 5 ∧
        ∀ w, regOf t w = if isDevice (4 * w) && homeDie (4 * w) == d then (match regOf s w with
          | some (.claimed m prev) => some (.claimed m prev)
          | _ => none) else regOf s w))

/-! ### Words (03, 04) -/

/-- R54 to R64, R82 to R87: words written out from the encodings decode to the instructions they stand for: one or more of
every family of the opcode map. -/
def Obligations.DecodedWords : Prop :=
  decode 0x01040001 0 = some (.specialMov ⟨false, 4, .tid⟩) ∧
  decode 0x03030000 0x00012345 = some (.moviw ⟨false, 3, 0x12345⟩) ∧
  decode 0x08050600 0x002600FD = some (.iadd ⟨false, none, .i32, true, 5, 6, .imm (-3)⟩) ∧
  decode 0x0A08090A 0x88610000 = some (.imul ⟨false, (some ⟨false, 1⟩), .n32, .hi, 8, 9, .reg 10⟩) ∧
  decode 0x18020100 0x00620002 = some (.shl ⟨false, none, .n32, 2, 1, .imm 2⟩) ∧
  decode 0x0E420400 0x00220007 = some (.icmp ⟨false, none, .i32, .lt, 2, 4, .imm 7⟩) ∧
  decode 0x2B29B000 0 = some (.qop ⟨false, .andn, 1, 2, 3⟩) ∧
  decode 0x520A0B0C 0xD0A00D00 = some (.ffma ⟨true, (some ⟨true, 2⟩), .f32, .rn, false, 10, 11, 12, 13⟩) ∧
  decode 0x2704060A 0x04200000 = some (.cvt ⟨false, none, .one (.fltInt .f32 .i32 .rna false), 4, 6⟩) ∧
  decode 0x2C050400 0x026A0001 = some (.shfl ⟨false, none, .down, .oct, false, 5, 4, .imm 1⟩) ∧
  decode 0x2D090200 0x02000000 = some (.vote ⟨false, none, .win, .ballot 9, 2⟩) ∧
  decode 0x2E060400 0x00610000 = some (.red ⟨false, none, .win, .int .n32 .add, 6, 4⟩) ∧
  decode 0x46220004 0 = some (.brd ⟨true, 1, false, 2, 4⟩) ∧
  decode 0x07020000 0 = some (.join ⟨false, 2⟩) ∧
  decode 0x30140010 0x00A00010 = some (.ld ⟨false, none, .flt .f32, .x1, 20, ⟨4, .none, 0x10⟩⟩) ∧
  decode 0x17200222 0x05980000 = some (.ldgRow ⟨false, none, .bf16, 32, ⟨8, 2, .w32, false, 5, 0⟩⟩) ∧
  decode 0x34080219 0x01606002 = some (.atom ⟨false, none, true, .int .add .n32, .pkg, 8, ⟨6, .zext 2, 2⟩⟩) ∧
  decode 0x3A030211 0x040A0901 = some (.fill ⟨false, none, .b64, .ls, 3, some 9, ⟨4, .zext 2, 1⟩⟩) ∧
  decode 0x3B201058 0x00900000 = some (.mma ⟨false, none, .bf16, true, false, 32, 4, 5⟩) ∧
  decode 0x3C201050 0x00904000 = some (.mmas ⟨false, none, .bf16, .sp24, false, false, 32, 4, 5, 64⟩) ∧
  decode 0x3E001878 0x00A80009 = some (.mdrnPeer ⟨false, none, true, false, .bf16, 6, 7⟩) ∧
  decode 0x8004200F 0 = some (.iopClz ⟨false, 1, 2⟩) ∧
  decode 0x81042F40 0 = some (.iopiIadd ⟨false, 1, 2, -3⟩) ∧
  decode 0x8204200B 0x12345678 = some (.iopwShl ⟨false, 1, 2, 0x12345678⟩) ∧
  decode 0x83105183 0x00A00700 = some (.fopFfma ⟨false, none, .f32, .rn, false, 4, 5, 6, 7⟩) ∧
  decode 0x840C5181 0x00A00006 = some (.cmpkFcmp ⟨false, none, .f32, .un, false, 3, 5, 6⟩) ∧
  decode 0x85049088 0 = some (.prkQset ⟨false, 1, .nz 9⟩) ∧
  decode 0x881C4403 0 = some (.sld ⟨false, 7, 4, .n32, 3⟩) ∧
  decode 0x8A5C03C0 0x00706020 = some (.satom ⟨false, none, false, .int .add .n64, .pkg, 23, 0, 15, 0x20⟩) ∧
  decode 0x8B600003 0 = some (.acq ⟨false, .pkg, 3⟩) ∧
  decode 0x8E3C5180 0 = some (.rgn ⟨false, 15, 5, 6⟩) ∧
  decode 0x90FFFFFA 0 = some (.bra ⟨false, -6⟩) ∧
  decode 0x92BFFFFF 0 = some (.brc ⟨false, 2, true, -1⟩) ∧
  decode 0x9303F002 0 = some (.ret ⟨false, 63⟩) ∧
  decode 0x96000001 0x00000040 = some (.setwRImmediate ⟨false, 64⟩) ∧
  decode 0x980000C2 0 = some (.barWait ⟨false, 3⟩) ∧
  decode 0x9A1461C3 0x00006000 = some (.mbarWait ⟨false, none, .pkg, 5, 6, 7⟩) ∧
  decode 0x9C000000 0x0000FFFF = some (.bwaitImmediate ⟨false, 0xFFFF⟩) ∧
  decode 0xA0146000 0x00006000 = some (.ecpy ⟨false, none, .pkg, 5, 6⟩) ∧
  decode 0xA30020C0 0x00000400 = some (.spawn ⟨false, none, 2, 3, 4⟩) ∧
  decode 0xA40C4140 0x00006008 = some (.enq ⟨false, none, .pkg, 3, 4, 5, 7⟩) ∧
  decode 0xA51841C0 0x00006008 = some (.deq ⟨false, none, .pkg, 6, 4, 7, 7⟩) ∧
  decode 0xA60420C0 0x01006000 = some (.cdec ⟨false, none, true, .pkg, 1, 2, 3⟩) ∧
  decode 0xA80420C0 0 = some (.tdef ⟨false, none, 1, 2, 3⟩) ∧
  decode 0xA9042000 0 = some (.tseal ⟨false, 1, 2⟩) ∧
  decode 0xAE801234 0 = some (.trapBreak ⟨false, 0x1234⟩) ∧
  decode 0xB00C0400 0 = some (.csrr ⟨false, 3, 0x010⟩) ∧
  decode 0xB11C0402 0 = some (.csrwClr ⟨false, 7, 0x010⟩) ∧
  decode 0xB2000001 0 = some (.svc ⟨false, 1⟩) ∧
  decode 0xB40020C0 0 = some (.tlbiPage ⟨false, 2, 3⟩) ∧
  decode 0xB5002000 0 = some (.ctxi ⟨false, 2⟩) ∧
  decode 0xB6042000 0x00010000 = some (.keysetGen ⟨false, none, 1, 2⟩) ∧
  decode 0xB7000000 0 = some (.halt ⟨false⟩)

/-- R54 to R66, R84 to R87: every instruction that keeps the operand rules has a word or two, below 2^32, of the length of its
cell, and they decode to it with every operand as it was; and a word that decodes, with its extension word, is the one that
the instruction encodes to. R89: every instruction of the opcode map has a word; steps of the hardware have none. -/
def Obligations.DecodeAndEncodeAgree : Prop :=
  (∀ i, i.wf = true → ∀ w x, encode i = some (w, x) → w < 2 ^ 32 ∧ (∀ e, x = some e → e < 2 ^ 32) ∧ lengthOf w = some (if x.isSome then 2 else 1) ∧ decode w (x.getD 0) = some i) ∧
  (∀ i, i.wf = true → hardwareStep i = false → (encode i).isSome = true) ∧ (∀ i, hardwareStep i = true → encode i = none) ∧
  (∀ w e i, w < 2 ^ 32 → e < 2 ^ 32 → decode w e = some i → i.wf = true ∧ hardwareStep i = false ∧
    ∃ x, encode i = some (w, x) ∧ (∀ y, x = some y → y = e) ∧ (x = none → lengthOf w = some 1))

/-- R79, R68: a word of a reserved cell is no instruction and has no extension word, L major 0 and S major 63 in every stepping;
the all-zero and the all-ones word raise ILLEGAL: execution that runs into zeroed memory traps. R67: an instruction that breaks the operand rules raises it before any effect,
and R69: the privileged instructions raise PRIV on a control core outside privileged mode, and they and SVC raise ILLEGAL on a
compute core. R83: the lane set raises ILLEGAL on a control core, the instructions of class C raise ACCESS there before any effect. -/
def Obligations.RefusedWords : Prop :=
  (∀ w e, (wSet w = false ∧ wMajor w = 0) ∨ (wSet w = true ∧ wMajor w ∈ reservedMajors) → decode w e = none ∧ lengthOf w = none) ∧
  (∀ (s : State) (c : Cx) (w : Nat) s1, w = 0 ∨ w = 0xFFFFFFFF → s.groups[c.g]? = some c.gr → c.gr.frag? c.f = some c.fr → fetchWord s c.who c.fr.pc = (.word w, s1) →
    issueFragment s c.g c.f = .next (raiseFrag s1 c 1 0 (BitVec.ofNat 64 w) (some c.fr.pc))) ∧
  (∀ (s : State) (cc : Nat) (c : Ctl) (w : Nat) s1, w = 0 ∨ w = 0xFFFFFFFF → s.ctls[cc]? = some c → c.deferred = [] → c.ie = false → c.wait = .run → fetchWord s (c.who cc) c.pc = (.word w, s1) →
    issueControl s cc = .next (raiseCtl s1 cc 1 0 (BitVec.ofNat 64 w))) ∧
  (∀ (i : Instr) (s : State), Machine.Instr.isEvent i = false →
    (∀ c, Issues s c → i.wf = false ∨ i.regsOk c.gr.vcount = false → exec i s = .next (raiseFrag s c 1 0 (wordOf i) (some c.fr.pc))) ∧
    (∀ cc c, IssuesCtl s cc c → i.wf = false → exec i s = .next (raiseCtl s cc 1 0 (wordOf i)))) ∧
  (∀ (i : Instr) (w : Nat) x (s : State) (cc : Nat) (c : Ctl), encode i = some (w, x) → wSet w = false → IssuesCtl s cc c → exec i s = .next (raiseCtl s cc 1 0 (wordOf i))) ∧
  (∀ (i : Instr) (w : Nat) x (s : State) (cc : Nat) (c : Ctl), encode i = some (w, x) → wSet w = true → wMajor w ∈ classC → i.wf = true → IssuesCtl s cc c →
    exec i s = .next (raiseCtl s cc 4 0 0)) ∧
  (∀ (i : Instr) (s : State), (∃ o, i = .eret o) ∨ (∃ o, i = .tlbiPage o) ∨ (∃ o, i = .tlbiAsid o) ∨ (∃ o, i = .tlbiAll o) ∨ (∃ o, i = .ctxi o) ∨ (∃ o, i = .keysetLoad o) ∨
      (∃ o, i = .keysetGen o) ∨ (∃ o, i = .keysetErase o) ∨ (∃ o, i = .halt o) ∨ (∃ o, i = .svc o) →
    (∀ c, Issues s c → exec i s = .next (raiseFrag s c 1 0 (wordOf i) (some c.fr.pc))) ∧
    (∀ cc c, IssuesCtl s cc c → i.wf = true → c.pv = false → (∀ o, i ≠ .svc o) → exec i s = .next (raiseCtl s cc 2 0 0)))

/-! ### The machine -/

/-- R54, R70, R88, R5: when the words at a party's pc decode to an instruction, a step of that party is that instruction's
exec, after nothing but the counter, the schedule, whose turn it is, and what the fetch left in the TLBs. A word of plain
memory is its four bytes, least significant first. R49: an urgent fragment issues before any other of its core, and before time
goes on; an instruction that is still waiting has not issued, and leaves whom the core favours as it was. Whose turn it is otherwise
is the model's schedule (log 6). -/
def Obligations.StepRunsInstruction : Prop :=
  (∀ (s : State) (l : List Sched) (c : Cx) (i : Instr) s1 s2, s.agenda = .party (.frag c.g c.f) :: l → s.groups[c.g]? = some c.gr → c.gr.frag? c.f = some c.fr →
    let s0 : State := { s with free := s.free + 1, agenda := l, cur := .frag c.g c.f }
    goesFirst s (.frag c.g c.f) = none → deliverable s0 c.g = false → fragReady s0 c.g c.f false = true ∨ fragReady s0 c.g c.f true = true →
    Fetches (modCore s0 c.gr.place (fun k => { k with turn := .frag c.g c.f })) c.who c.gr.vcount true c.fr.pc i s1 → Fetches s0 c.who c.gr.vcount true c.fr.pc i s2 →
    step s = if heldBack c.g c.f (exec i s1) = true then exec i s2 else exec i s1) ∧
  (∀ (s : State) (l : List Sched) (cc : Nat) (c : Ctl) (i : Instr) s1, s.agenda = .party (.control cc) :: l → s.ctls[cc]? = some c →
    let s0 : State := { s with free := s.free + 1, agenda := l, cur := .control cc }
    ctlEnabled s cc = true → c.stopped = false → c.wait = .run ∨ c.wait = .retry → c.deferred = [] → (c.ie = false ∨ c.kpend &&& c.kmask = 0) → Fetches s0 (c.who cc) 0 false c.pc i s1 →
    step s = exec i s1) ∧
  (∀ (s : State) (l : List Sched) (p u : Party), s.agenda = .party p :: l → goesFirst s p = some u → step s = step { s with agenda := .party u :: s.agenda }) ∧
  (∀ (s : State) (p : Party), s.agenda = [] → urgentReady { s with free := s.free + 1 } = some p → step s = step { s with agenda := [.party p] }) ∧
  (∀ s : State, s.agenda = [] → urgentReady { s with free := s.free + 1 } = none → (s.free + 1) % 32 ≠ 31 → ready { s with free := s.free + 1 } s.cur false = true → step s = step { s with agenda := [.party s.cur] }) ∧
  (∀ (s : State) (l : List Sched), s.agenda = .outside .timeBaseTick :: l →
    (∀ u, urgentReady s = some u → step s = step { s with agenda := .party u :: s.agenda }) ∧
    (urgentReady s = none → 2 ≤ clk s % 65536 → (∀ gr ∈ s.groups, ∀ x ∈ gr.frags, x.wait.again = false) → step s = exec .timeBaseTick { s with free := s.free + 1, agenda := l })) ∧
  (∀ (s : State) (l : List Sched) (e : Instr), s.agenda = .outside e :: l → e ≠ .timeBaseTick → Machine.Instr.isEvent e = true → step s = exec e { s with free := s.free + 1, agenda := l }) ∧
  (∀ (s : State) (w : Who) (va : DWord) f s1, fetchWord s w va = (f, s1) → s1 = { s with xlat := s1.xlat, asids := s1.asids }) ∧
  (∀ (s : State) (w : Who) (va : DWord) pa key s1, va.toNat % 4 = 0 → translate s w.site w.ctx w.priv .fetch va = (.ok pa key, s1) → s.poison.contains (pa / 64) = false →
    pa % 4 = 0 → regOf s (pa / 4) = none → tabFind s.tags (aliasOf pa / 64) = none → (fetchWord s w va).1 = .word (leNat (readBytes s key pa 4)))

/-- Every step goes on: no run of the machine stops in a fault or a refusal of the model. That no step stops is the model's
own property: waits and events of no effect are next states (log 17). -/
def Obligations.EveryStepGoesOn : Prop :=
  ∀ s : State, goesOn s

/-- Memory keeps its canonical form in every step: addresses strictly rising, and no byte listed that an unlisted address
reads as. The form is the model's (log 1). -/
def Obligations.MemoryStaysCanonical : Prop :=
  ∀ s t : State, Memory.wf s.mem = true → step s = .next t → Memory.wf t.mem = true

/-- R120 to R122: in every step the control cores keep at most four trap records, bit 0 of KPEND and of KMASK reads 0, the
bits of KBIND that hold no field read 0, and there are 96 of them. -/
def Obligations.ControlCoresStayLegal : Prop :=
  let legal (s : State) : Prop := s.ctls.length = 96 ∧ ∀ c ∈ s.ctls, c.depth ≤ 4 ∧ c.kpend.getLsbD 0 = false ∧ c.kmask.getLsbD 0 = false ∧ c.kbind &&& ~~~(0x00FFFFFFC3FFFFFF : DWord) = 0
  ∀ s t : State, legal s → step s = .next t → legal t

/-- R120, R121, R379, R25: after a reset every control core is privileged with interrupts off, no trap record, KPEND 0 and
KMASK 0x7E; no word is registered, nothing is placed, the host's state byte is 2; memory is canonical and the control cores
are legal. Enabled cores and channels are those the model names (log 5). -/
def Obligations.ResetState : Prop :=
  let s := State.reset
  (∀ c ∈ s.ctls, c.kstate = 1 ∧ c.kpend = 0 ∧ c.kmask = 0x7E ∧ c.depth = 0 ∧ c.ie = false ∧ c.pv = true) ∧ s.ctls.length = 96 ∧
  Memory.wf s.mem = true ∧ (∀ w, regOf s w = none) ∧ s.groups = [] ∧ s.blocks = [] ∧ s.slots = [] ∧ s.commands = [] ∧ s.hostState = 2 ∧ s.time = 0 ∧
  (∀ c ∈ s.ctls, c.depth ≤ 4 ∧ c.kpend.getLsbD 0 = false ∧ c.kmask.getLsbD 0 = false ∧ c.kbind &&& ~~~(0x00FFFFFFC3FFFFFF : DWord) = 0)
end

