-- ==== Sys2Proof/Laws/State.lean ====
section
/-! SUPPORT. What the named updates of the state leave alone, field by field. -/

namespace Sys2Proof.Machine

/-! ### A group changed -/

@[simp] theorem modGroup_cur (s : State) (g : Nat) (f : Group → Group) : (modGroup s g f).cur = s.cur := rfl
@[simp] theorem modGroup_agenda (s : State) (g : Nat) (f : Group → Group) : (modGroup s g f).agenda = s.agenda := rfl
@[simp] theorem modGroup_free (s : State) (g : Nat) (f : Group → Group) : (modGroup s g f).free = s.free := rfl
@[simp] theorem modGroup_time (s : State) (g : Nat) (f : Group → Group) : (modGroup s g f).time = s.time := rfl
@[simp] theorem modGroup_mem (s : State) (g : Nat) (f : Group → Group) : (modGroup s g f).mem = s.mem := rfl
@[simp] theorem modGroup_reg (s : State) (g : Nat) (f : Group → Group) : (modGroup s g f).reg = s.reg := rfl
@[simp] theorem modGroup_tags (s : State) (g : Nat) (f : Group → Group) : (modGroup s g f).tags = s.tags := rfl
@[simp] theorem modGroup_poison (s : State) (g : Nat) (f : Group → Group) : (modGroup s g f).poison = s.poison := rfl
@[simp] theorem modGroup_sramPoison (s : State) (g : Nat) (f : Group → Group) : (modGroup s g f).sramPoison = s.sramPoison := rfl
@[simp] theorem modGroup_hostLines (s : State) (g : Nat) (f : Group → Group) : (modGroup s g f).hostLines = s.hostLines := rfl
@[simp] theorem modGroup_copies (s : State) (g : Nat) (f : Group → Group) : (modGroup s g f).copies = s.copies := rfl
@[simp] theorem modGroup_xlat (s : State) (g : Nat) (f : Group → Group) : (modGroup s g f).xlat = s.xlat := rfl
@[simp] theorem modGroup_monitors (s : State) (g : Nat) (f : Group → Group) : (modGroup s g f).monitors = s.monitors := rfl
@[simp] theorem modGroup_asids (s : State) (g : Nat) (f : Group → Group) : (modGroup s g f).asids = s.asids := rfl
@[simp] theorem modGroup_keys (s : State) (g : Nat) (f : Group → Group) : (modGroup s g f).keys = s.keys := rfl
@[simp] theorem modGroup_erased (s : State) (g : Nat) (f : Group → Group) : (modGroup s g f).erased = s.erased := rfl
@[simp] theorem modGroup_nextKey (s : State) (g : Nat) (f : Group → Group) : (modGroup s g f).nextKey = s.nextKey := rfl
@[simp] theorem modGroup_blocks (s : State) (g : Nat) (f : Group → Group) : (modGroup s g f).blocks = s.blocks := rfl
@[simp] theorem modGroup_gangs (s : State) (g : Nat) (f : Group → Group) : (modGroup s g f).gangs = s.gangs := rfl
@[simp] theorem modGroup_tasks (s : State) (g : Nat) (f : Group → Group) : (modGroup s g f).tasks = s.tasks := rfl
@[simp] theorem modGroup_cores (s : State) (g : Nat) (f : Group → Group) : (modGroup s g f).cores = s.cores := rfl
@[simp] theorem modGroup_chunks (s : State) (g : Nat) (f : Group → Group) : (modGroup s g f).chunks = s.chunks := rfl
@[simp] theorem modGroup_adds (s : State) (g : Nat) (f : Group → Group) : (modGroup s g f).adds = s.adds := rfl
@[simp] theorem modGroup_chains (s : State) (g : Nat) (f : Group → Group) : (modGroup s g f).chains = s.chains := rfl
@[simp] theorem modGroup_nextId (s : State) (g : Nat) (f : Group → Group) : (modGroup s g f).nextId = s.nextId := rfl
@[simp] theorem modGroup_slots (s : State) (g : Nat) (f : Group → Group) : (modGroup s g f).slots = s.slots := rfl
@[simp] theorem modGroup_named (s : State) (g : Nat) (f : Group → Group) : (modGroup s g f).named = s.named := rfl
@[simp] theorem modGroup_overflow (s : State) (g : Nat) (f : Group → Group) : (modGroup s g f).overflow = s.overflow := rfl
@[simp] theorem modGroup_requests (s : State) (g : Nat) (f : Group → Group) : (modGroup s g f).requests = s.requests := rfl
@[simp] theorem modGroup_spawnSaved (s : State) (g : Nat) (f : Group → Group) : (modGroup s g f).spawnSaved = s.spawnSaved := rfl
@[simp] theorem modGroup_commands (s : State) (g : Nat) (f : Group → Group) : (modGroup s g f).commands = s.commands := rfl
@[simp] theorem modGroup_nextCmd (s : State) (g : Nat) (f : Group → Group) : (modGroup s g f).nextCmd = s.nextCmd := rfl
@[simp] theorem modGroup_ctls (s : State) (g : Nat) (f : Group → Group) : (modGroup s g f).ctls = s.ctls := rfl
@[simp] theorem modGroup_cfgCore (s : State) (g : Nat) (f : Group → Group) : (modGroup s g f).cfgCore = s.cfgCore := rfl
@[simp] theorem modGroup_cfgOct (s : State) (g : Nat) (f : Group → Group) : (modGroup s g f).cfgOct = s.cfgOct := rfl
@[simp] theorem modGroup_cfgCtl (s : State) (g : Nat) (f : Group → Group) : (modGroup s g f).cfgCtl = s.cfgCtl := rfl
@[simp] theorem modGroup_cfgHbm (s : State) (g : Nat) (f : Group → Group) : (modGroup s g f).cfgHbm = s.cfgHbm := rfl
@[simp] theorem modGroup_cfgLink (s : State) (g : Nat) (f : Group → Group) : (modGroup s g f).cfgLink = s.cfgLink := rfl
@[simp] theorem modGroup_hostState (s : State) (g : Nat) (f : Group → Group) : (modGroup s g f).hostState = s.hostState := rfl
@[simp] theorem modGroup_bars (s : State) (g : Nat) (f : Group → Group) : (modGroup s g f).bars = s.bars := rfl
@[simp] theorem modGroup_ports (s : State) (g : Nat) (f : Group → Group) : (modGroup s g f).ports = s.ports := rfl
@[simp] theorem modGroup_windows (s : State) (g : Nat) (f : Group → Group) : (modGroup s g f).windows = s.windows := rfl
@[simp] theorem modGroup_scopes (s : State) (g : Nat) (f : Group → Group) : (modGroup s g f).scopes = s.scopes := rfl
@[simp] theorem modGroup_scopeGen (s : State) (g : Nat) (f : Group → Group) : (modGroup s g f).scopeGen = s.scopeGen := rfl
@[simp] theorem modGroup_pkgId (s : State) (g : Nat) (f : Group → Group) : (modGroup s g f).pkgId = s.pkgId := rfl
@[simp] theorem modGroup_offline (s : State) (g : Nat) (f : Group → Group) : (modGroup s g f).offline = s.offline := rfl
@[simp] theorem modGroup_thermal (s : State) (g : Nat) (f : Group → Group) : (modGroup s g f).thermal = s.thermal := rfl
@[simp] theorem modGroup_measures (s : State) (g : Nat) (f : Group → Group) : (modGroup s g f).measures = s.measures := rfl
@[simp] theorem modGroup_hostCtx (s : State) (g : Nat) (f : Group → Group) : (modGroup s g f).hostCtx = s.hostCtx := rfl
@[simp] theorem modGroup_firmware (s : State) (g : Nat) (f : Group → Group) : (modGroup s g f).firmware = s.firmware := rfl

/-! ### A block changed -/

@[simp] theorem modBlock_cur (s : State) (b : Nat) (f : Block → Block) : (modBlock s b f).cur = s.cur := rfl
@[simp] theorem modBlock_agenda (s : State) (b : Nat) (f : Block → Block) : (modBlock s b f).agenda = s.agenda := rfl
@[simp] theorem modBlock_free (s : State) (b : Nat) (f : Block → Block) : (modBlock s b f).free = s.free := rfl
@[simp] theorem modBlock_time (s : State) (b : Nat) (f : Block → Block) : (modBlock s b f).time = s.time := rfl
@[simp] theorem modBlock_mem (s : State) (b : Nat) (f : Block → Block) : (modBlock s b f).mem = s.mem := rfl
@[simp] theorem modBlock_reg (s : State) (b : Nat) (f : Block → Block) : (modBlock s b f).reg = s.reg := rfl
@[simp] theorem modBlock_tags (s : State) (b : Nat) (f : Block → Block) : (modBlock s b f).tags = s.tags := rfl
@[simp] theorem modBlock_poison (s : State) (b : Nat) (f : Block → Block) : (modBlock s b f).poison = s.poison := rfl
@[simp] theorem modBlock_sramPoison (s : State) (b : Nat) (f : Block → Block) : (modBlock s b f).sramPoison = s.sramPoison := rfl
@[simp] theorem modBlock_hostLines (s : State) (b : Nat) (f : Block → Block) : (modBlock s b f).hostLines = s.hostLines := rfl
@[simp] theorem modBlock_copies (s : State) (b : Nat) (f : Block → Block) : (modBlock s b f).copies = s.copies := rfl
@[simp] theorem modBlock_xlat (s : State) (b : Nat) (f : Block → Block) : (modBlock s b f).xlat = s.xlat := rfl
@[simp] theorem modBlock_monitors (s : State) (b : Nat) (f : Block → Block) : (modBlock s b f).monitors = s.monitors := rfl
@[simp] theorem modBlock_asids (s : State) (b : Nat) (f : Block → Block) : (modBlock s b f).asids = s.asids := rfl
@[simp] theorem modBlock_keys (s : State) (b : Nat) (f : Block → Block) : (modBlock s b f).keys = s.keys := rfl
@[simp] theorem modBlock_erased (s : State) (b : Nat) (f : Block → Block) : (modBlock s b f).erased = s.erased := rfl
@[simp] theorem modBlock_nextKey (s : State) (b : Nat) (f : Block → Block) : (modBlock s b f).nextKey = s.nextKey := rfl
@[simp] theorem modBlock_groups (s : State) (b : Nat) (f : Block → Block) : (modBlock s b f).groups = s.groups := rfl
@[simp] theorem modBlock_gangs (s : State) (b : Nat) (f : Block → Block) : (modBlock s b f).gangs = s.gangs := rfl
@[simp] theorem modBlock_tasks (s : State) (b : Nat) (f : Block → Block) : (modBlock s b f).tasks = s.tasks := rfl
@[simp] theorem modBlock_cores (s : State) (b : Nat) (f : Block → Block) : (modBlock s b f).cores = s.cores := rfl
@[simp] theorem modBlock_chunks (s : State) (b : Nat) (f : Block → Block) : (modBlock s b f).chunks = s.chunks := rfl
@[simp] theorem modBlock_adds (s : State) (b : Nat) (f : Block → Block) : (modBlock s b f).adds = s.adds := rfl
@[simp] theorem modBlock_chains (s : State) (b : Nat) (f : Block → Block) : (modBlock s b f).chains = s.chains := rfl
@[simp] theorem modBlock_nextId (s : State) (b : Nat) (f : Block → Block) : (modBlock s b f).nextId = s.nextId := rfl
@[simp] theorem modBlock_slots (s : State) (b : Nat) (f : Block → Block) : (modBlock s b f).slots = s.slots := rfl
@[simp] theorem modBlock_named (s : State) (b : Nat) (f : Block → Block) : (modBlock s b f).named = s.named := rfl
@[simp] theorem modBlock_overflow (s : State) (b : Nat) (f : Block → Block) : (modBlock s b f).overflow = s.overflow := rfl
@[simp] theorem modBlock_requests (s : State) (b : Nat) (f : Block → Block) : (modBlock s b f).requests = s.requests := rfl
@[simp] theorem modBlock_spawnSaved (s : State) (b : Nat) (f : Block → Block) : (modBlock s b f).spawnSaved = s.spawnSaved := rfl
@[simp] theorem modBlock_commands (s : State) (b : Nat) (f : Block → Block) : (modBlock s b f).commands = s.commands := rfl
@[simp] theorem modBlock_nextCmd (s : State) (b : Nat) (f : Block → Block) : (modBlock s b f).nextCmd = s.nextCmd := rfl
@[simp] theorem modBlock_ctls (s : State) (b : Nat) (f : Block → Block) : (modBlock s b f).ctls = s.ctls := rfl
@[simp] theorem modBlock_cfgCore (s : State) (b : Nat) (f : Block → Block) : (modBlock s b f).cfgCore = s.cfgCore := rfl
@[simp] theorem modBlock_cfgOct (s : State) (b : Nat) (f : Block → Block) : (modBlock s b f).cfgOct = s.cfgOct := rfl
@[simp] theorem modBlock_cfgCtl (s : State) (b : Nat) (f : Block → Block) : (modBlock s b f).cfgCtl = s.cfgCtl := rfl
@[simp] theorem modBlock_cfgHbm (s : State) (b : Nat) (f : Block → Block) : (modBlock s b f).cfgHbm = s.cfgHbm := rfl
@[simp] theorem modBlock_cfgLink (s : State) (b : Nat) (f : Block → Block) : (modBlock s b f).cfgLink = s.cfgLink := rfl
@[simp] theorem modBlock_hostState (s : State) (b : Nat) (f : Block → Block) : (modBlock s b f).hostState = s.hostState := rfl
@[simp] theorem modBlock_bars (s : State) (b : Nat) (f : Block → Block) : (modBlock s b f).bars = s.bars := rfl
@[simp] theorem modBlock_ports (s : State) (b : Nat) (f : Block → Block) : (modBlock s b f).ports = s.ports := rfl
@[simp] theorem modBlock_windows (s : State) (b : Nat) (f : Block → Block) : (modBlock s b f).windows = s.windows := rfl
@[simp] theorem modBlock_scopes (s : State) (b : Nat) (f : Block → Block) : (modBlock s b f).scopes = s.scopes := rfl
@[simp] theorem modBlock_scopeGen (s : State) (b : Nat) (f : Block → Block) : (modBlock s b f).scopeGen = s.scopeGen := rfl
@[simp] theorem modBlock_pkgId (s : State) (b : Nat) (f : Block → Block) : (modBlock s b f).pkgId = s.pkgId := rfl
@[simp] theorem modBlock_offline (s : State) (b : Nat) (f : Block → Block) : (modBlock s b f).offline = s.offline := rfl
@[simp] theorem modBlock_thermal (s : State) (b : Nat) (f : Block → Block) : (modBlock s b f).thermal = s.thermal := rfl
@[simp] theorem modBlock_measures (s : State) (b : Nat) (f : Block → Block) : (modBlock s b f).measures = s.measures := rfl
@[simp] theorem modBlock_hostCtx (s : State) (b : Nat) (f : Block → Block) : (modBlock s b f).hostCtx = s.hostCtx := rfl
@[simp] theorem modBlock_firmware (s : State) (b : Nat) (f : Block → Block) : (modBlock s b f).firmware = s.firmware := rfl

/-! ### A control core changed -/

@[simp] theorem modCtl_cur (s : State) (cc : Nat) (f : Ctl → Ctl) : (modCtl s cc f).cur = s.cur := rfl
@[simp] theorem modCtl_agenda (s : State) (cc : Nat) (f : Ctl → Ctl) : (modCtl s cc f).agenda = s.agenda := rfl
@[simp] theorem modCtl_free (s : State) (cc : Nat) (f : Ctl → Ctl) : (modCtl s cc f).free = s.free := rfl
@[simp] theorem modCtl_time (s : State) (cc : Nat) (f : Ctl → Ctl) : (modCtl s cc f).time = s.time := rfl
@[simp] theorem modCtl_mem (s : State) (cc : Nat) (f : Ctl → Ctl) : (modCtl s cc f).mem = s.mem := rfl
@[simp] theorem modCtl_reg (s : State) (cc : Nat) (f : Ctl → Ctl) : (modCtl s cc f).reg = s.reg := rfl
@[simp] theorem modCtl_tags (s : State) (cc : Nat) (f : Ctl → Ctl) : (modCtl s cc f).tags = s.tags := rfl
@[simp] theorem modCtl_poison (s : State) (cc : Nat) (f : Ctl → Ctl) : (modCtl s cc f).poison = s.poison := rfl
@[simp] theorem modCtl_sramPoison (s : State) (cc : Nat) (f : Ctl → Ctl) : (modCtl s cc f).sramPoison = s.sramPoison := rfl
@[simp] theorem modCtl_hostLines (s : State) (cc : Nat) (f : Ctl → Ctl) : (modCtl s cc f).hostLines = s.hostLines := rfl
@[simp] theorem modCtl_copies (s : State) (cc : Nat) (f : Ctl → Ctl) : (modCtl s cc f).copies = s.copies := rfl
@[simp] theorem modCtl_xlat (s : State) (cc : Nat) (f : Ctl → Ctl) : (modCtl s cc f).xlat = s.xlat := rfl
@[simp] theorem modCtl_monitors (s : State) (cc : Nat) (f : Ctl → Ctl) : (modCtl s cc f).monitors = s.monitors := rfl
@[simp] theorem modCtl_asids (s : State) (cc : Nat) (f : Ctl → Ctl) : (modCtl s cc f).asids = s.asids := rfl
@[simp] theorem modCtl_keys (s : State) (cc : Nat) (f : Ctl → Ctl) : (modCtl s cc f).keys = s.keys := rfl
@[simp] theorem modCtl_erased (s : State) (cc : Nat) (f : Ctl → Ctl) : (modCtl s cc f).erased = s.erased := rfl
@[simp] theorem modCtl_nextKey (s : State) (cc : Nat) (f : Ctl → Ctl) : (modCtl s cc f).nextKey = s.nextKey := rfl
@[simp] theorem modCtl_groups (s : State) (cc : Nat) (f : Ctl → Ctl) : (modCtl s cc f).groups = s.groups := rfl
@[simp] theorem modCtl_blocks (s : State) (cc : Nat) (f : Ctl → Ctl) : (modCtl s cc f).blocks = s.blocks := rfl
@[simp] theorem modCtl_gangs (s : State) (cc : Nat) (f : Ctl → Ctl) : (modCtl s cc f).gangs = s.gangs := rfl
@[simp] theorem modCtl_tasks (s : State) (cc : Nat) (f : Ctl → Ctl) : (modCtl s cc f).tasks = s.tasks := rfl
@[simp] theorem modCtl_cores (s : State) (cc : Nat) (f : Ctl → Ctl) : (modCtl s cc f).cores = s.cores := rfl
@[simp] theorem modCtl_chunks (s : State) (cc : Nat) (f : Ctl → Ctl) : (modCtl s cc f).chunks = s.chunks := rfl
@[simp] theorem modCtl_adds (s : State) (cc : Nat) (f : Ctl → Ctl) : (modCtl s cc f).adds = s.adds := rfl
@[simp] theorem modCtl_chains (s : State) (cc : Nat) (f : Ctl → Ctl) : (modCtl s cc f).chains = s.chains := rfl
@[simp] theorem modCtl_nextId (s : State) (cc : Nat) (f : Ctl → Ctl) : (modCtl s cc f).nextId = s.nextId := rfl
@[simp] theorem modCtl_slots (s : State) (cc : Nat) (f : Ctl → Ctl) : (modCtl s cc f).slots = s.slots := rfl
@[simp] theorem modCtl_named (s : State) (cc : Nat) (f : Ctl → Ctl) : (modCtl s cc f).named = s.named := rfl
@[simp] theorem modCtl_overflow (s : State) (cc : Nat) (f : Ctl → Ctl) : (modCtl s cc f).overflow = s.overflow := rfl
@[simp] theorem modCtl_requests (s : State) (cc : Nat) (f : Ctl → Ctl) : (modCtl s cc f).requests = s.requests := rfl
@[simp] theorem modCtl_spawnSaved (s : State) (cc : Nat) (f : Ctl → Ctl) : (modCtl s cc f).spawnSaved = s.spawnSaved := rfl
@[simp] theorem modCtl_commands (s : State) (cc : Nat) (f : Ctl → Ctl) : (modCtl s cc f).commands = s.commands := rfl
@[simp] theorem modCtl_nextCmd (s : State) (cc : Nat) (f : Ctl → Ctl) : (modCtl s cc f).nextCmd = s.nextCmd := rfl
@[simp] theorem modCtl_cfgCore (s : State) (cc : Nat) (f : Ctl → Ctl) : (modCtl s cc f).cfgCore = s.cfgCore := rfl
@[simp] theorem modCtl_cfgOct (s : State) (cc : Nat) (f : Ctl → Ctl) : (modCtl s cc f).cfgOct = s.cfgOct := rfl
@[simp] theorem modCtl_cfgCtl (s : State) (cc : Nat) (f : Ctl → Ctl) : (modCtl s cc f).cfgCtl = s.cfgCtl := rfl
@[simp] theorem modCtl_cfgHbm (s : State) (cc : Nat) (f : Ctl → Ctl) : (modCtl s cc f).cfgHbm = s.cfgHbm := rfl
@[simp] theorem modCtl_cfgLink (s : State) (cc : Nat) (f : Ctl → Ctl) : (modCtl s cc f).cfgLink = s.cfgLink := rfl
@[simp] theorem modCtl_hostState (s : State) (cc : Nat) (f : Ctl → Ctl) : (modCtl s cc f).hostState = s.hostState := rfl
@[simp] theorem modCtl_bars (s : State) (cc : Nat) (f : Ctl → Ctl) : (modCtl s cc f).bars = s.bars := rfl
@[simp] theorem modCtl_ports (s : State) (cc : Nat) (f : Ctl → Ctl) : (modCtl s cc f).ports = s.ports := rfl
@[simp] theorem modCtl_windows (s : State) (cc : Nat) (f : Ctl → Ctl) : (modCtl s cc f).windows = s.windows := rfl
@[simp] theorem modCtl_scopes (s : State) (cc : Nat) (f : Ctl → Ctl) : (modCtl s cc f).scopes = s.scopes := rfl
@[simp] theorem modCtl_scopeGen (s : State) (cc : Nat) (f : Ctl → Ctl) : (modCtl s cc f).scopeGen = s.scopeGen := rfl
@[simp] theorem modCtl_pkgId (s : State) (cc : Nat) (f : Ctl → Ctl) : (modCtl s cc f).pkgId = s.pkgId := rfl
@[simp] theorem modCtl_offline (s : State) (cc : Nat) (f : Ctl → Ctl) : (modCtl s cc f).offline = s.offline := rfl
@[simp] theorem modCtl_thermal (s : State) (cc : Nat) (f : Ctl → Ctl) : (modCtl s cc f).thermal = s.thermal := rfl
@[simp] theorem modCtl_measures (s : State) (cc : Nat) (f : Ctl → Ctl) : (modCtl s cc f).measures = s.measures := rfl
@[simp] theorem modCtl_hostCtx (s : State) (cc : Nat) (f : Ctl → Ctl) : (modCtl s cc f).hostCtx = s.hostCtx := rfl
@[simp] theorem modCtl_firmware (s : State) (cc : Nat) (f : Ctl → Ctl) : (modCtl s cc f).firmware = s.firmware := rfl

/-! ### Updates over these -/

@[simp] theorem modGroup_groups (s : State) (g : Nat) (f : Group → Group) : (modGroup s g f).groups = s.groups.modify g f := rfl
@[simp] theorem modBlock_blocks (s : State) (b : Nat) (f : Block → Block) : (modBlock s b f).blocks = s.blocks.modify b f := rfl
@[simp] theorem modCtl_ctls (s : State) (cc : Nat) (f : Ctl → Ctl) : (modCtl s cc f).ctls = s.ctls.modify cc f := rfl

/-- Two changes of one group are one. -/
theorem modGroup_modGroup (s : State) (g : Nat) (f h : Group → Group) :
    modGroup (modGroup s g f) g h = modGroup s g (fun x => h (f x)) := by
  simp only [modGroup, modAt, List.modify_modify_eq]; rfl

/-- Two changes of one control core are one. -/
theorem modCtl_modCtl (s : State) (cc : Nat) (f h : Ctl → Ctl) :
    modCtl (modCtl s cc f) cc h = modCtl s cc (fun x => h (f x)) := by
  simp only [modCtl, modAt, List.modify_modify_eq]; rfl

theorem clk_modGroup (s : State) (g : Nat) (f : Group → Group) : clk (modGroup s g f) = clk s := rfl

end Sys2Proof.Machine
end

