-- ==== Sys2Proof/Laws/Tab.lean ====
section
/-! SUPPORT. Laws of sparse tables: a read after a write, and the canonical form. -/

namespace Sys2Proof.Machine

variable {α : Type}

theorem tabFind_tabSet (t : Tab α) (k j : Nat) (v : α) :
    tabFind (tabSet t k v) j = if j = k then some v else tabFind t j := by
  induction t with
  | nil => simp [tabSet, tabFind]
  | cons p t ih =>
    obtain ⟨i, u⟩ := p
    simp only [tabSet]
    split
    · simp [tabFind]
    · split
      · subst_vars; simp only [tabFind]; split <;> rfl
      · simp only [tabFind, ih]; split <;> split <;> simp_all

theorem tabFind_tabDel (t : Tab α) (k j : Nat) : tabFind (tabDel t k) j = if j = k then none else tabFind t j := by
  induction t with
  | nil => simp [tabDel, tabFind]
  | cons p t ih =>
    obtain ⟨i, u⟩ := p
    rw [tabDel] at ih
    simp only [tabDel, List.filter_cons]
    by_cases h : i = k
    · subst h
      simp only [bne_self_eq_false, Bool.false_eq_true, ↓reduceIte, ih, tabFind]
      split <;> simp_all
    · simp only [bne_iff_ne, ne_eq, h, not_false_eq_true, ↓reduceIte, tabFind, ih]
      split <;> split <;> simp_all

/-- A read after a write: the value written at its key, every other key as before. -/
theorem tabGet_tabPut [DecidableEq α] (d : α) (t : Tab α) (k j : Nat) (v : α) :
    tabGet d (tabPut d t k v) j = if j = k then v else tabGet d t j := by
  unfold tabPut tabGet
  split
  · rw [tabFind_tabDel]; split <;> simp_all
  · rw [tabFind_tabSet]; split <;> simp

/-- A table with every value changed. -/
theorem tabFind_map {β : Type} (f : α → β) (t : Tab α) (k : Nat) :
    tabFind (t.map (fun p => (p.1, f p.2))) k = (tabFind t k).map f := by
  induction t with
  | nil => rfl
  | cons p t ih =>
    obtain ⟨i, u⟩ := p
    simp only [List.map_cons, tabFind, ih]
    split <;> rfl

@[simp] theorem tabGet_nil (d : α) (k : Nat) : tabGet d [] k = d := rfl

/-! ### The canonical form -/

theorem tabWfFrom_mono [DecidableEq α] {d : α} {a b : Nat} {t : Tab α} (h : a ≤ b) (w : tabWfFrom d b t = true) :
    tabWfFrom d a t = true := by
  cases t with
  | nil => rfl
  | cons p t => simp [tabWfFrom] at w ⊢; exact ⟨⟨by omega, w.1.2⟩, w.2⟩

theorem tabWfFrom_tabSet [DecidableEq α] {d v : α} (hv : v ≠ d) {t : Tab α} {lo k : Nat} (hk : lo ≤ k)
    (w : tabWfFrom d lo t = true) : tabWfFrom d lo (tabSet t k v) = true := by
  induction t generalizing lo with
  | nil => simp [tabSet, tabWfFrom, hk, hv]
  | cons p t ih =>
    obtain ⟨i, u⟩ := p
    simp [tabWfFrom] at w
    simp only [tabSet]
    split
    · simp [tabWfFrom, hk, hv, w.1.2]; exact ⟨by omega, w.2⟩
    · split
      · subst_vars; simp [tabWfFrom, hk, hv]; exact w.2
      · simp [tabWfFrom, w.1.1, w.1.2]; exact ih (by omega) w.2

theorem tabWfFrom_tabDel [DecidableEq α] {d : α} {t : Tab α} {lo k : Nat} (w : tabWfFrom d lo t = true) :
    tabWfFrom d lo (tabDel t k) = true := by
  induction t generalizing lo with
  | nil => rfl
  | cons p t ih =>
    obtain ⟨i, u⟩ := p
    simp [tabWfFrom] at w
    simp only [tabDel, List.filter_cons]
    split
    · simp only [tabWfFrom, Bool.and_eq_true, decide_eq_true_eq]; exact ⟨w.1, ih w.2⟩
    · exact tabWfFrom_mono (by omega) (ih w.2)

/-- A write keeps the canonical form. -/
theorem tabWf_tabPut [DecidableEq α] {d : α} {t : Tab α} (k : Nat) (v : α) (w : tabWf d t = true) :
    tabWf d (tabPut d t k v) = true := by
  unfold tabPut tabWf at *
  split
  · exact tabWfFrom_tabDel w
  · exact tabWfFrom_tabSet ‹_› (Nat.zero_le _) w

/-! ### Bytes -/

@[simp] theorem bytesOf_length (f : Nat → Byte) (a n : Nat) : (bytesOf f a n).length = n := by
  induction n generalizing a with
  | zero => rfl
  | succ n ih => simp [bytesOf, ih]

theorem bytesOf_getElem? (f : Nat → Byte) (a n i : Nat) (h : i < n) : (bytesOf f a n)[i]? = some (f (a + i)) := by
  induction n generalizing a i with
  | zero => omega
  | succ n ih =>
    cases i with
    | zero => simp [bytesOf]
    | succ i => simp only [bytesOf, List.getElem?_cons_succ]; rw [ih _ _ (by omega)]; congr 2; omega

theorem bytesOf_congr {f g : Nat → Byte} {a n : Nat} (h : ∀ i, a ≤ i → i < a + n → f i = g i) :
    bytesOf f a n = bytesOf g a n := by
  induction n generalizing a with
  | zero => rfl
  | succ n ih =>
    simp only [bytesOf]
    rw [h a (by omega) (by omega), ih (fun i h1 h2 => h i (by omega) (by omega))]

/-- What holds of a state and is kept by one byte's put holds after all of them. -/
theorem putBytes_induct {σ : Type} (put : σ → Nat → Byte → σ) (P : σ → Prop) (h : ∀ s a b, P s → P (put s a b))
    (s : σ) (a : Nat) (bs : List Byte) (h0 : P s) : P (putBytes put s a bs) := by
  induction bs generalizing s a with
  | nil => exact h0
  | cons b bs ih => exact ih _ _ (h _ _ _ h0)

end Sys2Proof.Machine
end

