-- ==== Sys2Proof/Laws/Regs.lean ====
section
/-! SUPPORT. Laws of registers: what a register reads after writes, and what a later read may still return. -/

namespace Sys2Proof.Machine

/-! ### One write -/

theorem Group.read_put (gr : Group) (k j : RegKey) (x : DWord) (hk : k.real = true) (hj : j.real = true) :
    (gr.put k x).read j = if k = j then j.narrow x else gr.read j := by
  cases k <;> cases j <;> simp [RegKey.real] at hk hj <;>
    simp only [Group.put, Group.read, tabGet_tabPut, RegKey.narrow, reduceCtorEq, if_false, RegKey.v.injEq, RegKey.q.injEq,
      RegKey.s.injEq, RegKey.k.injEq]
  case v.v t n t' n' =>
    by_cases h : t = t' ∧ n = n'
    · obtain ⟨rfl, rfl⟩ := h; simp
    · rw [if_neg h, if_neg (by omega)]
  case q.q t n t' n' =>
    by_cases h : t = t' ∧ n = n'
    · obtain ⟨rfl, rfl⟩ := h; simp
    · have h' : ¬ (t' * 8 + n' = t * 8 + n) := by omega
      simp only [if_neg h, if_neg h']
  case s.s n n' => simp only [eq_comm (a := n)]
  case k.k n n' => simp only [eq_comm (a := n)]; by_cases h : n' = n <;> simp only [h, if_true, if_false]
  all_goals rfl

theorem Group.staying_sub (gr : Group) (f : Nat) (k : RegKey) : ∀ o ∈ gr.staying f k, o ∈ gr.older := by
  intro o h
  unfold Group.staying at h
  split at h
  · exact (List.mem_filter.mp h).1
  · exact h

theorem Group.write_eq (gr : Group) (f : Nat) (k : RegKey) (x : DWord) :
    gr.write f k x = { gr.put k x with older := gr.staying f k } ∨
      gr.write f k x = { gr.put k x with older := gr.staying f k ++ [{ frag := f, key := k, val := gr.read k }] } := by
  simp only [Group.write]
  split
  · exact .inl rfl
  · exact .inr rfl

theorem Group.read_write (gr : Group) (f : Nat) (k j : RegKey) (x : DWord) (hk : k.real = true) (hj : j.real = true) :
    (gr.write f k x).read j = if k = j then j.narrow x else gr.read j := by
  rw [← Group.read_put gr k j x hk hj]
  rcases Group.write_eq gr f k x with h | h <;> rw [h] <;> cases j <;> rfl

/-! ### Several writes -/

theorem Group.read_writes (gr : Group) (f : Nat) (l : List (RegKey × DWord)) (j : RegKey)
    (hl : ∀ p ∈ l, p.1.real = true) (hj : j.real = true) : (gr.writes f l).read j = after l j (gr.read j) := by
  induction l generalizing gr with
  | nil => rfl
  | cons p l ih =>
    obtain ⟨k, x⟩ := p
    simp only [Group.writes]
    rw [ih _ (fun p hp => hl p (List.mem_cons_of_mem _ hp)), Group.read_write _ _ _ _ _ (hl (k, x) (by simp)) hj]
    rfl

/-- Writes change nothing of a group but its registers and what reads of them may still return. -/
theorem Group.writes_rest (gr : Group) (f : Nat) (l : List (RegKey × DWord)) :
    gr.writes f l = { gr with v := (gr.writes f l).v, q := (gr.writes f l).q, s := (gr.writes f l).s, k := (gr.writes f l).k, older := (gr.writes f l).older } := by
  induction l generalizing gr with
  | nil => rfl
  | cons p l ih =>
    obtain ⟨k, x⟩ := p
    simp only [Group.writes]
    rw [ih]
    rcases Group.write_eq gr f k x with h | h <;> rw [h] <;> cases k <;> rfl

/-- What writes add to the values a later read may return: values before writes of the fragment itself. -/
theorem Group.writes_older (gr : Group) (f : Nat) (l : List (RegKey × DWord)) :
    ∀ o ∈ (gr.writes f l).older, o ∈ gr.older ∨ (o.frag = f ∧ ∃ p ∈ l, p.1 = o.key) := by
  induction l generalizing gr with
  | nil => intro o h; exact .inl h
  | cons p l ih =>
    obtain ⟨k, x⟩ := p
    intro o h
    rcases ih _ o h with h | ⟨h1, p, hp, h2⟩
    · rcases Group.write_eq gr f k x with e | e <;> rw [e] at h
      · exact .inl (gr.staying_sub f k o h)
      · simp only [List.mem_append, List.mem_singleton] at h
        rcases h with h | h
        · exact .inl (gr.staying_sub f k o h)
        · right; subst h; exact ⟨rfl, (k, x), by simp, rfl⟩
    · exact .inr ⟨h1, p, List.mem_cons_of_mem _ hp, h2⟩

/-! ### Flags -/

theorem foldl_orFlags (l : List (Nat × BitVec 5)) (t : Tab (BitVec 5)) (th : Nat) :
    tabGet 0 (l.foldl (fun t p => if p.2 = 0 then t else tabPut 0 t p.1 (tabGet 0 t p.1 ||| p.2)) t) th
      = tabGet 0 t th ||| raised l th := by
  unfold raised
  have gen : ∀ (l : List (Nat × BitVec 5)) (x : BitVec 5),
      l.foldl (fun x p => if p.1 = th then x ||| p.2 else x) x = x ||| l.foldl (fun x p => if p.1 = th then x ||| p.2 else x) 0 := by
    intro l
    induction l with
    | nil => intro x; simp
    | cons p l ih =>
      intro x
      simp only [List.foldl_cons]
      rw [ih (if p.1 = th then x ||| p.2 else x), ih (if p.1 = th then 0 ||| p.2 else 0)]
      split <;> simp [BitVec.or_assoc]
  induction l generalizing t with
  | nil => simp
  | cons p l ih =>
    simp only [List.foldl_cons]
    rw [ih, gen l (if p.1 = th then 0 ||| p.2 else 0)]
    split
    · rename_i h; simp [h]
    · rw [tabGet_tabPut]
      by_cases h : th = p.1
      · subst h; simp [BitVec.or_assoc]
      · rw [if_neg h, if_neg (Ne.symm h)]; simp

theorem Group.orFlags_flags (gr : Group) (l : List (Nat × BitVec 5)) (th : Nat) :
    tabGet 0 (gr.orFlags l).fflags th = tabGet 0 gr.fflags th ||| (if gr.run = none then raised l th else 0) := by
  unfold Group.orFlags
  split
  · rename_i h; rw [if_neg (by intro h'; simp [h'] at h)]; simp
  · rename_i h
    rw [if_pos (by cases hr : gr.run <;> simp_all)]
    exact foldl_orFlags l gr.fflags th

theorem Group.orFlags_rest (gr : Group) (l : List (Nat × BitVec 5)) :
    gr.orFlags l = { gr with fflags := (gr.orFlags l).fflags } := by
  unfold Group.orFlags; split <;> rfl

/-! ### Reads (R71, R73) -/

/-- With nothing outstanding a read returns the register's value. -/
theorem Group.get_settled (gr : Group) (free f op : Nat) (key : RegKey)
    (h : ∀ o ∈ gr.older, ¬ (o.frag = f ∧ o.key = key)) : gr.get free f op key = gr.read key := by
  unfold Group.get
  have : gr.older.filter (fun o => o.frag == f && o.key == key) = [] := by
    rw [List.filter_eq_nil_iff]; intro o ho; have := h o ho; simp; intro h1 h2; exact this ⟨h1, h2⟩
  rw [this]

end Sys2Proof.Machine
end

