-- ==== Sys2Proof/Laws/Issue.lean ====
section
/-! SUPPORT. What issue does: the shared forms of lane and uniform instructions, said once for all their meanings. -/

namespace Sys2Proof.Machine

/-! ### Issue -/

/-- A fragment that is ready performs the instruction's effect on a compute core. -/
theorem issue_frag {i : Instr} {x : IssueInfo} {s : State} {c : Cx} {onFrag : Cx → State → State}
    {onCtl : Nat → Ctl → State → State} (h : Issues s c) (r : Ready s c i x) (hp : x.cls ≠ .priv) :
    issue i x s onFrag onCtl = .next (onFrag (c.begun x.w) (started s c x.w)) := by
  obtain ⟨g, f, gr, fr⟩ := c
  simp only [issue, h.cur, h.group, h.frag, r.wf, r.regs]
  have hp' : (x.cls == Cls.priv) = false := by simpa using hp
  have h1 : (gr.run.isSome && runRule i == .illegal) = false := by
    rcases r.run with h | h <;> simp_all
  have h2 : (gr.run.isSome && runRule i == .access) = false := by
    rcases r.run with h | h <;> simp_all
  simp [hp', h1, h2, r.go]

/-- A control core performs the instruction's effect on a control core. -/
theorem issue_ctl {i : Instr} {x : IssueInfo} {s : State} {cc : Nat} {c : Ctl} {onFrag : Cx → State → State}
    {onCtl : Nat → Ctl → State → State} (h : IssuesCtl s cc c) (w : i.wf = true) (hl : x.cls ≠ .lane) (hc : x.cls ≠ .compute) :
    issue i x s onFrag onCtl = .next (onCtl cc c s) := by
  have h1 : (x.cls == Cls.lane) = false := by simpa using hl
  have h2 : (x.cls == Cls.compute) = false := by simpa using hc
  simp [issue, h.cur, h.ctl, w, h1, h2]

@[simp] theorem Cx.begun_g (c : Cx) (w : Bool) : (c.begun w).g = c.g := by unfold Cx.begun; split <;> rfl
@[simp] theorem Cx.begun_f (c : Cx) (w : Bool) : (c.begun w).f = c.f := by unfold Cx.begun; split <;> rfl
@[simp] theorem Cx.begun_fr (c : Cx) (w : Bool) : (c.begun w).fr = c.fr := by unfold Cx.begun; split <;> rfl

/-- With W = 1 nothing older is left to read (R71). -/
theorem Cx.begun_older (c : Cx) : ∀ o ∈ (c.begun true).gr.older, o.frag ≠ c.f := by
  intro o h; simp [Cx.begun] at h; exact h.2

/-- The group that issues, as `started` leaves it. -/
def startedGroup (s : State) (c : Cx) (w : Bool) : Group :=
  { (c.begun w).gr with frags := c.gr.frags.map (fun x =>
      if x.id == c.f then { x with wait := .run, since := clk s, passed := 0, urgent := false } else x) }

theorem started_group {s : State} {c : Cx} (h : Issues s c) (w : Bool) :
    (started s c w).groups[c.g]? = some (startedGroup s c w) := by
  simp only [started, modGroup_groups, List.getElem?_modify, h.group, ite_true, Option.map_eq_map, Option.map_some,
    startedGroup, Cx.begun]
  cases w <;> rfl

@[simp] theorem started_free (s : State) (c : Cx) (w : Bool) : (started s c w).free = s.free := rfl

/-- The state in which a group has been replaced. -/
theorem groupOnly_modGroup (s : State) (g : Nat) (f : Group → Group) : GroupOnly s (modGroup s g f) g where
  rest := rfl
  length := by simp
  others := by intro j hj; simp [Ne.symm hj]

theorem GroupOnly.trans {s t u : State} {g : Nat} (a : GroupOnly s t g) (b : GroupOnly t u g) : GroupOnly s u g where
  rest := by rw [b.rest, a.rest]
  length := b.length.trans a.length
  others := fun j hj => (b.others j hj).trans (a.others j hj)

theorem GroupOnly.refl (s : State) (g : Nat) : GroupOnly s s g := ⟨rfl, rfl, fun _ _ => rfl⟩

theorem groupOnly_started (s : State) (c : Cx) (w : Bool) : GroupOnly s (started s c w) c.g := groupOnly_modGroup _ _ _

/-! ### Writing registers, raising flags and moving the pc -/

/-- The fragments as `started` and a change of the pc leave them. -/
theorem startedGroup_at (s : State) (c : Cx) (w : Bool) (pc : DWord) :
    (startedGroup s c w).frags.map (fun x => if x.id == c.f then { x with pc } else x) = fragsAt s c pc := by
  simp only [startedGroup, fragsAt, List.map_map]
  apply List.map_congr_left
  intro x _
  by_cases h : x.id = c.f <;> simp [h]

/-- Register writes, flags and a jump of the issuing fragment are a `RegStep`. -/
theorem regStep_of {s : State} {c : Cx} (h : Issues s c) (w : Bool) (out : List (RegKey × DWord)) (fl : List (Nat × Fl))
    (pc : DWord) (hout : ∀ p ∈ out, p.1.real = true) :
    ∃ gr, RegStep s (c.begun w)
      (modFrag (modGroup (started s c w) c.g (fun gr => (gr.writes c.f out).orFlags fl)) c.g c.f (fun fr => { fr with pc }))
      out fl pc gr := by
  refine ⟨((((startedGroup s c w).writes c.f out).orFlags fl).modFrag c.f (fun fr => { fr with pc })), ?_⟩
  have hg := started_group h w
  have e1 := Group.writes_rest (startedGroup s c w) c.f out
  have e2 := Group.orFlags_rest ((startedGroup s c w).writes c.f out) fl
  constructor
  · rw [Cx.begun_g]
    exact (groupOnly_started s c w).trans ((groupOnly_modGroup _ _ _).trans (groupOnly_modGroup _ _ _))
  · simp only [Cx.begun_g, modFrag, modGroup_groups, List.getElem?_modify, hg, if_true, Option.map_eq_map, Option.map_some]
  · simp only [Group.modFrag]
    rw [e2, e1]
    simp [startedGroup]
  · intro key hk
    have : ((((startedGroup s c w).writes c.f out).orFlags fl).modFrag c.f (fun fr => { fr with pc })).read key
        = ((startedGroup s c w).writes c.f out).read key := by
      rw [Group.modFrag, e2]; cases key <;> rfl
    rw [this, Group.read_writes _ _ _ _ hout hk]
    congr 1
  · intro th
    have : (((((startedGroup s c w).writes c.f out).orFlags fl).modFrag c.f (fun fr => { fr with pc }))).fflags
        = (((startedGroup s c w).writes c.f out).orFlags fl).fflags := rfl
    rw [this, Group.orFlags_flags, e1]
    rfl
  · intro o ho
    have : o ∈ ((startedGroup s c w).writes c.f out).older := by
      simp only [Group.modFrag] at ho; rw [e2] at ho; exact ho
    rcases Group.writes_older _ _ _ o this with h | h
    · exact .inl h
    · simp only [Cx.begun_f]; exact .inr h
  · have hf : (((startedGroup s c w).writes c.f out).orFlags fl).frags = (startedGroup s c w).frags := by rw [e2, e1]
    show (((startedGroup s c w).writes c.f out).orFlags fl).frags.map _ = _
    rw [hf, startedGroup_at]
    cases w <;> rfl

/-- Register writes and a jump, without flags. -/
theorem regStep_plain {s : State} {c : Cx} (h : Issues s c) (w : Bool) (out : List (RegKey × DWord)) (pc : DWord)
    (hout : ∀ p ∈ out, p.1.real = true) :
    ∃ gr, RegStep s (c.begun w) (modFrag (putRegs (started s c w) (c.begun w) out) c.g c.f (fun fr => { fr with pc })) out [] pc gr := by
  have := regStep_of h w out [] pc hout
  have e : ∀ gr : Group, gr.orFlags [] = gr := by intro gr; unfold Group.orFlags; split <;> rfl
  simp only [e] at this
  simpa only [putRegs, Cx.begun_g, Cx.begun_f] using this

/-! ### The shared forms -/

/-- A lane instruction of the shared form (R150, R151). -/
theorem laneOp_step {i : Instr} {w : Bool} {len : Nat} {g : Option GuardQ} {f : Cx → Nat → Nat → LaneOut}
    (he : ∀ s, exec i s = laneOp i w len g f s)
    (hk : ∀ c free th, i.regsOk c.gr.vcount = true → ∀ p ∈ (f c free th).1, p.1.real = true) : LaneStep i w len g f := by
  intro s c h r
  rw [he, laneOp, issue_frag h r (by simp [laneInfo])]
  refine ⟨_, rfl, ?_⟩
  have hv : (c.begun (laneInfo w).w).gr.vcount = c.gr.vcount := by simp only [Cx.begun]; split <;> rfl
  have := regStep_of h (laneInfo w).w
    (((c.begun (laneInfo w).w).active s.free g).flatMap (fun th => (f (c.begun (laneInfo w).w) s.free th).1))
    (((c.begun (laneInfo w).w).active s.free g).map (fun th => (th, (f (c.begun (laneInfo w).w) s.free th).2)))
    (c.fr.pc + BitVec.ofNat 64 len) (by
      intro p hp
      simp only [List.mem_flatMap] at hp
      obtain ⟨th, _, hp⟩ := hp
      exact hk _ _ _ (by rw [hv]; exact r.regs) p hp)
  simpa only [laneBody, advance, started_free, Cx.begun_g, Cx.begun_f, Cx.begun_fr, List.flatMap_map, List.map_map,
    Function.comp_def] using this

theorem Ctl.puts_rest (c : Ctl) (l : List (RegKey × DWord)) : c.puts l = { c with s := (c.puts l).s, k := (c.puts l).k } := by
  induction l generalizing c with
  | nil => rfl
  | cons p l ih =>
    obtain ⟨k, x⟩ := p
    cases k <;> simp only [Ctl.puts] <;> rw [ih] <;> rfl

theorem Ctl.puts_s (c : Ctl) (l : List (RegKey × DWord)) (n : Nat) : (c.puts l).sreg n = after l (.s n) (c.sreg n) := by
  induction l generalizing c with
  | nil => rfl
  | cons p l ih =>
    obtain ⟨k, x⟩ := p
    cases k <;> simp only [Ctl.puts, ih, after, List.foldl_cons, reduceCtorEq, if_false]
    · congr 1
      simp only [Ctl.sreg, Ctl.setS, tabGet_tabPut, RegKey.s.injEq, RegKey.narrow, eq_comm]
    · rfl

theorem Ctl.puts_k (c : Ctl) (l : List (RegKey × DWord)) (n : Nat) :
    (if (c.puts l).kreg n then (1 : DWord) else 0) = after l (.k n) (if c.kreg n then 1 else 0) := by
  induction l generalizing c with
  | nil => rfl
  | cons p l ih =>
    obtain ⟨k, x⟩ := p
    cases k
    case k m =>
      refine (ih _).trans ?_
      simp only [after, List.foldl_cons, RegKey.k.injEq]
      congr 1
      simp only [Ctl.kreg, Ctl.setK, tabGet_tabPut, RegKey.narrow]
      by_cases h : n = m
      · subst h; simp only [if_true]
      · rw [if_neg h, if_neg (Ne.symm h)]; rfl
    all_goals exact (ih _).trans (by simp only [after, List.foldl_cons, reduceCtorEq, if_false] <;> rfl)

theorem ctlOnly_modCtl (s : State) (cc : Nat) (f : Ctl → Ctl) : CtlOnly s (modCtl s cc f) cc where
  rest := rfl
  length := by simp
  others := by intro j hj; simp [Ne.symm hj]

/-- A uniform instruction of the shared form (R41, R59, R187). -/
theorem uniOp_step {i : Instr} {w : Bool} {len : Nat} {g : Option GuardK} {f : UniIn → LaneOut}
    (he : ∀ s, exec i s = uniOp i w len g f s) (hk : ∀ u, ∀ p ∈ (f u).1, p.1.real = true) : UniStep i w len g f := by
  constructor
  · intro s c h r
    rw [he, uniOp, issue_frag h r (by simp [bothInfo])]
    refine ⟨_, rfl, ?_⟩
    simp only [uniFrag, started_free]
    by_cases hr : (c.begun (bothInfo w).w).runs s.free g = true
    · simp only [hr, if_true, Bool.not_true, Bool.false_eq_true, if_false]
      have := regStep_of h (bothInfo w).w (f ((c.begun (bothInfo w).w).uni s.free)).1
        ((threadsOf (c.begun (bothInfo w).w).fr.mask (c.begun (bothInfo w).w).gr.size).map
          (fun th => (th, (f ((c.begun (bothInfo w).w).uni s.free)).2)))
        (c.fr.pc + BitVec.ofNat 64 len) (hk _)
      simpa only [advance, Cx.begun_g, Cx.begun_f, Cx.begun_fr] using this
    · simp only [hr, Bool.not_false, if_true, Bool.false_eq_true, if_false]
      have := regStep_plain h (bothInfo w).w [] (c.fr.pc + BitVec.ofNat 64 len) (by simp)
      have e : ∀ s : State, modGroup s c.g (fun gr => gr) = s := by
        intro s; simp only [modGroup, modAt]; rw [show (fun gr : Group => gr) = id from rfl, List.modify_id]
      simpa only [advance, putRegs, Group.writes, Cx.begun_g, Cx.begun_f, Cx.begun_fr, e] using this
  · intro s cc c h hw
    rw [he, uniOp, issue_ctl h hw (by simp [bothInfo]) (by simp [bothInfo])]
    refine ⟨_, rfl, ?_⟩
    have e : ∀ s : State, modCtl s cc (fun c => c) = s := by
      intro s; simp only [modCtl, modAt]; rw [show (fun c : Ctl => c) = id from rfl, List.modify_id]
    have e2 : (if c.runs g then modCtl s cc (fun x => x.puts (f c.uni).1) else s)
        = modCtl s cc (fun x => x.puts (if c.runs g then (f c.uni).1 else [])) := by
      split
      · rfl
      · simp only [Ctl.puts]; rw [e]
    simp only [uniCtl, advanceCtl, e2, modCtl_modCtl]
    have r := Ctl.puts_rest c (if c.runs g then (f c.uni).1 else [])
    refine ⟨{ c.puts (if c.runs g then (f c.uni).1 else []) with pc := c.pc + BitVec.ofNat 64 len }, ctlOnly_modCtl _ _ _, ?_, ?_,
      .inl (by rw [r]), fun n => Ctl.puts_s c _ n, fun n => Ctl.puts_k c _ n, rfl⟩
    · simp only [modCtl_ctls, List.getElem?_modify, h.ctl, if_true, Option.map_eq_map, Option.map_some]
      rw [r]
    · rw [r]

end Sys2Proof.Machine
end

