-- ==== Sys2Proof/Laws/Mem.lean ====
section
/-! SUPPORT. Laws of memory: every operation on it keeps the canonical form, reset has it, and reads after writes. -/

namespace Sys2Proof.Machine

theorem memory_wf_reset : Memory.wf State.reset.mem = true := rfl

theorem memory_wf_memSet {m : Tab Byte} (a : Nat) (b : Byte) (h : Memory.wf m = true) : Memory.wf (memSet m a b) = true :=
  tabWf_tabPut a b h

theorem memory_wf_putBytes {m : Tab Byte} (a : Nat) (bs : List Byte) (h : Memory.wf m = true) :
    Memory.wf (putBytes memSet m a bs) = true :=
  putBytes_induct memSet (fun m => Memory.wf m = true) (fun _ a b h => memory_wf_memSet a b h) m a bs h

theorem memory_wf_retag {s : State} (key pa : Nat) (h : Memory.wf s.mem = true) : Memory.wf (retag s key pa).mem = true := by
  unfold retag
  split
  · exact h
  · split
    · split
      · exact h
      · dsimp only
        exact memory_wf_putBytes _ _ h
    · exact h

theorem memory_wf_writeByte {s : State} (key pa : Nat) (b : Byte) (h : Memory.wf s.mem = true) :
    Memory.wf (writeByte s key pa b).mem = true := memory_wf_memSet _ _ (memory_wf_retag _ _ h)

/-- Lines that go leave memory as it is. -/
@[simp] theorem dropLines_mem (s : State) (pa n : Nat) : (dropLines s pa n).mem = s.mem := by
  unfold dropLines
  split
  · split <;> rfl
  · rfl

theorem memory_wf_writeBytes {s : State} (key pa : Nat) (bs : List Byte) (h : Memory.wf s.mem = true) :
    Memory.wf (writeBytes s key pa bs).mem = true := by
  unfold writeBytes
  split
  · exact h
  · show Memory.wf (dropLines _ _ _).mem = true
    rw [dropLines_mem]
    exact putBytes_induct _ (fun s : State => Memory.wf s.mem = true) (fun s a b h => memory_wf_writeByte key a b h) s pa bs h

/-- A byte read after a byte was written. -/
theorem memGet_memSet (m : Tab Byte) (a j : Nat) (b : Byte) : memGet (memSet m a b) j = if j = a then b else memGet m j :=
  tabGet_tabPut 0 m a j b

/-- Bytes read after bytes were written: those in the range are the new ones, the others stay. -/
theorem memGet_putBytes (m : Tab Byte) (a j : Nat) (bs : List Byte) :
    memGet (putBytes memSet m a bs) j = if a ≤ j ∧ j < a + bs.length then bs.getD (j - a) 0 else memGet m j := by
  induction bs generalizing m a with
  | nil => simp [putBytes]
  | cons b bs ih =>
    simp only [putBytes, ih, memGet_memSet, List.length_cons]
    by_cases h1 : j = a
    · subst h1; simp
    · by_cases h2 : a + 1 ≤ j ∧ j < a + 1 + bs.length
      · rw [if_pos h2, if_pos (by omega)]
        obtain ⟨i, rfl⟩ : ∃ i, j = a + 1 + i := ⟨j - (a + 1), by omega⟩
        rw [show a + 1 + i - a = i + 1 by omega, show a + 1 + i - (a + 1) = i by omega]
        simp
      · rw [if_neg h2, if_neg h1, if_neg (by omega)]

end Sys2Proof.Machine
end

