-- ==== Sys2Proof/Laws/Access.lean ====
section
/-! SUPPORT. What translation, loads and stores of memory change, and what a byte reads after a byte is written. -/

namespace Sys2Proof.Machine

/-! ### What changes -/

/-- Translations alone change. -/
def XlatOnly (s t : State) : Prop := ∃ x a, t = { s with xlat := x, asids := a }
/-- Copies alone change. -/
def CopiesOnly (s t : State) : Prop := ∃ x, t = { s with copies := x }
/-- Copies and the lines of registered words alone change (R208). -/
def LoadOnly (s t : State) : Prop := (∃ x r, t = { s with copies := x, reg := r }) ∧ SameButLines s t
/-- What a write of memory may change: memory with its tags, registration, copies, monitors and host copies. -/
def StoreOnly (s t : State) : Prop :=
  ∃ m g r c o h, t = { s with mem := m, tags := g, reg := r, copies := c, monitors := o, hostLines := h }

theorem XlatOnly.refl (s : State) : XlatOnly s s := ⟨_, _, rfl⟩
theorem XlatOnly.trans {s t u : State} : XlatOnly s t → XlatOnly t u → XlatOnly s u := by
  rintro ⟨_, _, rfl⟩ ⟨_, _, rfl⟩; exact ⟨_, _, rfl⟩
theorem CopiesOnly.refl (s : State) : CopiesOnly s s := ⟨_, rfl⟩
theorem CopiesOnly.trans {s t u : State} : CopiesOnly s t → CopiesOnly t u → CopiesOnly s u := by
  rintro ⟨_, rfl⟩ ⟨_, rfl⟩; exact ⟨_, rfl⟩
theorem StoreOnly.refl (s : State) : StoreOnly s s := ⟨_, _, _, _, _, _, rfl⟩
theorem StoreOnly.trans {s t u : State} : StoreOnly s t → StoreOnly t u → StoreOnly s u := by
  rintro ⟨_, _, _, _, _, _, rfl⟩ ⟨_, _, _, _, _, _, rfl⟩; exact ⟨_, _, _, _, _, _, rfl⟩
theorem LoadOnly.refl (s : State) : LoadOnly s s := ⟨⟨_, _, rfl⟩, fun _ => rfl⟩
theorem LoadOnly.trans {s t u : State} : LoadOnly s t → LoadOnly t u → LoadOnly s u := by
  rintro ⟨⟨_, _, rfl⟩, h⟩ ⟨⟨_, _, rfl⟩, k⟩; exact ⟨⟨_, _, rfl⟩, fun w => (k w).trans (h w)⟩
theorem CopiesOnly.load {s t : State} : CopiesOnly s t → LoadOnly s t := by
  rintro ⟨_, rfl⟩; exact ⟨⟨_, _, rfl⟩, fun _ => rfl⟩
theorem CopiesOnly.store {s t : State} : CopiesOnly s t → StoreOnly s t := by
  rintro ⟨_, rfl⟩; exact ⟨_, _, _, _, _, _, rfl⟩

/-! ### Translation -/

theorem fillXlat_only (s : State) (site : Site) (asid : BitVec 16) (es : Fills) :
    XlatOnly s (fillXlat s site asid es) := by
  unfold fillXlat; split <;> exact ⟨_, _, rfl⟩

theorem translate_only (s : State) (site : Site) (c : Ctx) (p : Bool) (u : Use) (va : DWord) :
    XlatOnly s (translate s site c p u va).2 := by
  unfold translate; split
  · exact .refl _
  · exact fillXlat_only _ _ _ _

theorem xlatOne_only (s : State) (w : Who) (u : Use) (a : Acc) : XlatOnly s (xlatOne s w u a).2 := by
  unfold xlatOne
  split
  · exact .refl _
  · exact translate_only _ _ _ _ _ _

theorem xlatAll_only (s : State) (w : Who) (u : Use) (l : List Acc) : XlatOnly s (xlatAll s w u l).2 := by
  induction l generalizing s with
  | nil => exact .refl _
  | cons a l ih => exact (xlatOne_only s w u a).trans (ih _)

/-- R239: the checks change translations alone. -/
theorem checkAccs_only (s : State) (w : Who) (u : Use) (l : List Acc) : XlatOnly s (checkAccs s w u l).2 := by
  have h := xlatAll_only s w u l
  unfold checkAccs
  split
  · exact .refl _
  · generalize xlatAll s w u l = r at h
    dsimp only
    repeat' split
    all_goals exact h

/-! ### Loads -/

theorem foldl_load {α : Type} (f : State → α → State) (h : ∀ s a, LoadOnly s (f s a)) (l : List α) (s : State) :
    LoadOnly s (l.foldl f s) := by
  induction l generalizing s with
  | nil => exact .refl _
  | cons a l ih => exact (h s a).trans (ih _)

/-- A registered word's line moved leaves every word in its state. -/
theorem moveLine_only (s : State) (w : Nat) (va : DWord) : LoadOnly s (moveLine s w va) := by
  have same : ∀ r : Reg, regOf s w = some r → ∀ r' : Reg, r'.unplaced = r.unplaced → SameButLines s (setReg s w r') := by
    intro r hr r' h n
    simp only [regOf, setReg, tabFind_tabSet] at hr ⊢
    by_cases e : n = w
    · subst e; rw [if_pos rfl, hr]; simp [h]
    · rw [if_neg e]
  unfold moveLine
  split
  · rename_i a l v e
    split
    · exact .refl _
    · exact ⟨⟨_, _, rfl⟩, same _ e _ rfl⟩
  · rename_i a v e
    split
    · exact .refl _
    · exact ⟨⟨_, _, rfl⟩, same _ e _ rfl⟩
  · exact .refl _

theorem leaveLine_only (s : State) (site : Site) (asid : BitVec 16) (va : DWord) (w : Nat) :
    LoadOnly s (leaveLine s site asid va w) := by
  unfold leaveLine
  split
  · split
    · exact moveLine_only _ _ _
    · exact .refl _
  · split
    · exact moveLine_only _ _ _
    · exact .refl _
  · exact .refl _

theorem fillCopy_only (s : State) (site : Site) (asid : BitVec 16) (va : DWord) (w : Nat) (v : Word) :
    LoadOnly s (fillCopy s site asid va w v) := by
  unfold fillCopy
  exact (CopiesOnly.load ⟨_, rfl⟩).trans (leaveLine_only _ _ _ _ _)

theorem fillSector_only (s : State) (site : Site) (asid : BitVec 16) (va : DWord) (key pa : Nat) (p : Bool) :
    LoadOnly s (fillSector s site asid va key pa p) := by
  unfold fillSector
  split
  · exact .refl _
  · refine LoadOnly.trans (t := { s with copies := s.copies.filter (fun c => !(c.site == site && c.word / 16 == pa / 64)) })
      (CopiesOnly.load ⟨_, rfl⟩) (foldl_load _ (fun s i => ?_) _ _)
    dsimp only
    split
    · exact .refl _
    · exact fillCopy_only _ _ _ _ _ _

theorem dropWord_only (s : State) (site : Site) (asid : BitVec 16) (va : DWord) (w : Nat) : CopiesOnly s (dropWord s site asid va w) := by
  unfold dropWord
  split
  · exact .refl _
  · exact ⟨_, rfl⟩

theorem readLine_only (s : State) (w : Who) (va : DWord) (n : Nat) : LoadOnly s (readLine s w va n) := by
  have h := (dropWord_only s w.site w.ctx.asid va n).load
  unfold readLine
  dsimp only
  split
  · exact h.trans (moveLine_only _ _ _)
  · exact h.trans (moveLine_only _ _ _)
  · exact h

theorem loadOne_only (s : State) (w : Who) (va : DWord) (key n : Nat) : LoadOnly s (loadOne s w va key n).2.2 := by
  unfold loadOne
  split
  · exact .refl _
  · split
    · exact .refl _
    · split
      · exact readLine_only _ _ _ _
      · split
        · exact .refl _
        · exact fillSector_only _ _ _ _ _ _ _

theorem loadWords_only (s : State) (w : Who) (va : DWord) (key n k : Nat) :
    LoadOnly s (loadWords s w va key n k).2.2 := by
  induction k generalizing s va n with
  | zero => exact .refl _
  | succ k ih => exact (loadOne_only s w va key n).trans (ih _ _ _)

theorem loadEach_only (s : State) (w : Who) (l : List (Acc × Nat × Nat)) : LoadOnly s (loadEach s w l).2.2 := by
  induction l generalizing s with
  | nil => exact .refl _
  | cons p l ih => exact (loadWords_only s w _ _ _ _).trans (ih _)

/-- A load changes copies and the lines of registered words alone (R225, R231, R208). -/
theorem loadAccs_only (s : State) (w : Who) (l : List (Acc × Nat × Nat)) : LoadOnly s (loadAccs s w l).2.2 := by
  have h : CopiesOnly s (freshSectors s w l) := ⟨_, rfl⟩
  exact h.load.trans (loadEach_only _ _ _)

/-! ### Bytes -/

theorem memGet_eq (m : Tab Byte) (a : Nat) : memGet m a = tabGet 0 m a := rfl

@[simp] theorem unitAs_length (m : Tab Byte) (t : UnitTag) (key u : Nat) : (unitAs m t key u).length = 64 := by
  simp [unitAs]

/-- After a byte is written its unit has the key (R214). -/
theorem writeByte_tag (s : State) (k a : Nat) (b : Byte) (h : paTop a ≠ 1) :
    ∃ t, tabFind (writeByte s k a b).tags (a / 64) = some t ∧ t.key = k := by
  simp only [writeByte, retag, if_neg h]
  split
  · split
    · rename_i t e1 e2; exact ⟨t, e1, e2⟩
    · exact ⟨_, by rw [tabFind_tabSet, if_pos rfl], rfl⟩
  · exact ⟨_, by rw [tabFind_tabSet, if_pos rfl], rfl⟩

/-- In a unit of the key a byte reads as memory holds it. -/
theorem readByte_own {s : State} {key j : Nat} (h : paTop j = 1 ∨ ∃ t, tabFind s.tags (j / 64) = some t ∧ t.key = key) :
    readByte s key j = memGet s.mem j := by
  unfold readByte
  split
  · rfl
  · rename_i h1
    obtain ⟨t, e, hk⟩ := h.resolve_left h1
    rw [e]; simp [hk]

theorem readByte_writeByte_same (s : State) (k a : Nat) (b : Byte) : readByte (writeByte s k a b) k a = b := by
  rw [readByte_own]
  · simp [writeByte, memGet_memSet]
  · by_cases h : paTop a = 1
    · exact .inl h
    · exact .inr (writeByte_tag s k a b h)

theorem bytesOf_getD (f : Nat → Byte) (a n i : Nat) (h : i < n) : (bytesOf f a n).getD i 0 = f (a + i) := by
  rw [List.getD_eq_getElem?_getD, bytesOf_getElem? _ _ _ _ h]; rfl

/-- A byte written under a key leaves every other byte as a read under its unit's key finds it (R213, R214). -/
theorem readByte_writeByte_other (s : State) (k a j key : Nat) (b : Byte) (hj : j ≠ a) (hk : j / 64 = a / 64 → key = k) :
    readByte (writeByte s k a b) key j = readByte s key j := by
  have hm : memGet (writeByte s k a b).mem j = memGet (retag s k a).mem j := by
    simp [writeByte, memGet_memSet, hj]
  have htags : (writeByte s k a b).tags = (retag s k a).tags := rfl
  have hu : j / 64 ≠ a / 64 → unitBytes (writeByte s k a b).mem (j / 64) = unitBytes (retag s k a).mem (j / 64) := by
    intro h
    apply bytesOf_congr
    intro i h1 h2
    show memGet (memSet (retag s k a).mem a b) i = _
    rw [memGet_memSet, if_neg (by omega)]
  by_cases h1 : paTop j = 1
  · have hsame : memGet (retag s k a).mem j = memGet s.mem j := by
      unfold retag
      split
      · rfl
      · rename_i h2
        split
        · split
          · rfl
          · dsimp only
            rw [memGet_putBytes, unitAs_length]
            rw [if_neg]
            intro h3
            apply h2
            unfold paTop at h1 ⊢
            omega
        · rfl
    unfold readByte
    rw [if_pos h1, if_pos h1, hm, hsame]
  · by_cases hunit : j / 64 = a / 64
    · have := hk hunit; subst this
      have ha : paTop a ≠ 1 := by unfold paTop at h1 ⊢; omega
      rw [readByte_own (.inr (hunit ▸ writeByte_tag s key a b ha)), hm]
      unfold readByte
      rw [if_neg h1, hunit]
      simp only [retag, if_neg ha]
      split
      · rename_i t e1
        split
        · rfl
        · dsimp only
          rw [memGet_putBytes, unitAs_length, if_pos (by omega)]
          congr 1
          omega
      · rfl
    · have ht : tabFind (writeByte s k a b).tags (j / 64) = tabFind s.tags (j / 64) := by
        rw [htags]
        unfold retag
        split
        · rfl
        · split
          · split
            · rfl
            · simp [tabFind_tabSet, hunit]
          · simp [tabFind_tabSet, hunit]
      have hmem : ∀ i, i / 64 = j / 64 → memGet (retag s k a).mem i = memGet s.mem i := by
        intro i hi
        unfold retag
        split
        · rfl
        · split
          · split
            · rfl
            · dsimp only
              rw [memGet_putBytes, unitAs_length, if_neg]
              omega
          · rfl
      have hun : unitBytes (retag s k a).mem (j / 64) = unitBytes s.mem (j / 64) :=
        bytesOf_congr (fun i h1 h2 => hmem i (by omega))
      unfold readByte
      rw [ht, hm, hmem j rfl]
      simp only [unitAs, hu hunit, hun]

theorem writeByte_only (s : State) (k a : Nat) (b : Byte) : StoreOnly s (writeByte s k a b) := by
  unfold writeByte retag
  split
  · exact ⟨_, _, _, _, _, _, rfl⟩
  · split
    · split <;> exact ⟨_, _, _, _, _, _, rfl⟩
    · exact ⟨_, _, _, _, _, _, rfl⟩

theorem putBytes_only (k : Nat) (s : State) (a : Nat) (bs : List Byte) :
    StoreOnly s (putBytes (fun s a b => writeByte s k a b) s a bs) := by
  induction bs generalizing s a with
  | nil => exact .refl _
  | cons b bs ih => exact (writeByte_only s k a b).trans (ih _ _)

theorem writeBytes_only (s : State) (k a : Nat) (bs : List Byte) : StoreOnly s (writeBytes s k a bs) := by
  unfold writeBytes
  split
  · exact .refl _
  · refine (putBytes_only k s a bs).trans ?_
    unfold dropLines
    split
    · split <;> exact ⟨_, _, _, _, _, _, rfl⟩
    · exact ⟨_, _, _, _, _, _, rfl⟩

/-! ### Stores -/

theorem regStore_only (s : State) (a : Agent) (key n : Nat) (va : DWord) : StoreOnly s (regStore s a key n va) := by
  unfold regStore setReg
  split
  · exact .refl _
  · split <;> exact ⟨_, _, _, _, _, _, rfl⟩

theorem regStores_only (s : State) (w : Who) (key : Nat) (va : DWord) (n k : Nat) : StoreOnly s (regStores s w key va n k) := by
  induction k generalizing s va n with
  | zero => exact .refl _
  | succ k ih => exact ((regStore_only s w.agent key n va).trans (dropWord_only _ _ _ _ _).store).trans (ih _ _ _)

theorem joinSector_only (s : State) (site : Site) (n : Nat) : CopiesOnly s (joinSector s site n) := by
  unfold joinSector
  split
  · exact .refl _
  · exact ⟨_, rfl⟩

/-- A store changes memory with its tags, registration, copies, monitors and host copies (R224, R221, R314, R370). -/
theorem storeAcc_only (s : State) (w : Who) (p : Acc × Nat × Nat) : StoreOnly s (storeAcc s w p).2 := by
  unfold storeAcc
  dsimp only
  split
  · exact .refl _
  · split
    · exact ((joinSector_only _ _ _).store.trans (regStores_only _ _ _ _ _ _)).trans (writeBytes_only _ _ _ _)
    · exact (regStores_only _ _ _ _ _ _).trans (writeBytes_only _ _ _ _)

theorem storeAccs_only (s : State) (w : Who) (l : List (Acc × Nat × Nat)) : StoreOnly s (storeAccs s w l).2 := by
  induction l generalizing s with
  | nil => exact .refl _
  | cons p l ih => exact (storeAcc_only s w p).trans (ih _)

/-! ### Memory instructions of a fragment -/

/-- A memory instruction whose accesses pass their checks performs its effect, and the pc moves on (R239, R240). -/
theorem issueReq_ok {c : Cx} {s s1 : State} {len : Nat} {u : Use} {req : Req} {perform : State → List (Acc × Nat × Nat) → Perf}
    {l : List (Acc × Nat × Nat)} (hr : ∀ a ∈ req.accs, runMayLoad s c a = true) (hne : req.accs ≠ []) (hc : checkAccs s c.who u req.accs = (.ok l, s1)) :
    issueReq c s len u req perform = (match perform s1 l with
      | .done s2 => advance s2 c len
      | .trap cause addr aux s2 => raiseFrag s2 c cause addr aux (some c.fr.pc)
      | .park pages dies s2 => parkReq s s2 c req (fun _ => u.code) len pages dies none
      | .again s2 => park s2 c .retry) := by
  have h1 : req.accs.isEmpty = false := by cases h : req.accs <;> simp_all
  have h2 : req.accs.all (runMayLoad s c) = true := by simpa using hr
  unfold issueReq
  rw [h1, h2, hc]
  cases h : perform s1 l <;> simp [h]

/-- Which ranges a recipe run may load from does not depend on the fragments. -/
theorem runMayLoad_started (s : State) (c d : Cx) (w v : Bool) (a : Acc) :
    runMayLoad (started s d v) (c.begun w) a = runMayLoad s c a := by
  unfold runMayLoad
  cases w <;> simp [Cx.begun, started]

/-- An instruction that no recipe run may issue. -/
theorem Ready.noRun {s : State} {c : Cx} {i : Instr} {x : IssueInfo} (r : Ready s c i x) (h : runRule i ≠ .ok) :
    c.gr.run = none := r.run.resolve_right h

/-- Without an access only the pc moves. -/
theorem issueReq_nil {c : Cx} {s : State} {len : Nat} {u : Use} {req : Req} {perform : State → List (Acc × Nat × Nat) → Perf}
    (h : req.accs = []) : issueReq c s len u req perform = advance s c len := by
  unfold issueReq; simp [h]

/-- Issue does not depend on memory, copies, translations or blocks. -/
theorem Issues.of_eq {s b : State} {c : Cx} (h : Issues s c) (h1 : b.cur = s.cur) (h2 : b.groups = s.groups) : Issues b c :=
  ⟨by rw [h1]; exact h.cur, by rw [h2]; exact h.group, h.frag⟩

/-- Moving the pc of the fragment that issues. -/
theorem regStep_advance {s : State} {c : Cx} (h : Issues s c) (w : Bool) (len : Nat) :
    ∃ gr, RegStep s (c.begun w) (advance (started s c w) (c.begun w) len) [] [] (c.fr.pc + BitVec.ofNat 64 len) gr := by
  have := regStep_plain h w [] (c.fr.pc + BitVec.ofNat 64 len) (by simp)
  have e : ∀ s : State, modGroup s c.g (fun gr => gr) = s := by
    intro s; simp only [modGroup, modAt]; rw [show (fun gr : Group => gr) = id from rfl, List.modify_id]
  simpa only [advance, putRegs, Group.writes, Cx.begun_g, Cx.begun_f, Cx.begun_fr, e] using this

/-- A lane load of the shared form. -/
theorem laneLoad_step {i : Instr} {w : Bool} {accs : Cx → Nat → List Acc} {dest : Acc → List Byte → List (RegKey × DWord)}
    {kind : ReqKind} {body : Cx → State → State}
    (he : ∀ s, exec i s = laneMemOp i w body s)
    (hb : ∀ d s, body d s = issueReq d s 8 .load { kind, accs := accs d s.free }
      (fun s l => unlessBarred (d.barred s l) s (.done (queueRace (putRegs (loadAccs s d.who l).2.2 d
        ((loadAccs s d.who l).1.flatMap (fun p => dest p.1 p.2))) d (loadAccs s d.who l).2.1))))
    (hk : ∀ n a bs, i.regsOk n = true → ∀ p ∈ dest a bs, p.1.real = true) : LoadStep i w accs dest := by
  intro s c h r
  have hx : exec i s = .next (body (c.begun w) (started s c w)) := by
    rw [he, laneMemOp, issue_frag h r (by simp [laneMemInfo])]; rfl
  refine ⟨fun hnil => ?_, fun l s1 hne hrun hc => ?_⟩
  · obtain ⟨gr, hg⟩ := regStep_advance h w 8
    refine ⟨_, gr, hx, ?_⟩
    rw [hb, issueReq_nil hnil]
    exact hg
  · have hrun' : ∀ a ∈ accs (c.begun w) s.free, runMayLoad (started s c w) (c.begun w) a = true := by
      intro a ha; rw [runMayLoad_started]; exact hrun a ha
    have hq := issueReq_ok (len := 8) (req := { kind, accs := accs (c.begun w) s.free })
      (perform := fun s l => unlessBarred ((c.begun w).barred s l) s (.done (queueRace (putRegs (loadAccs s (c.begun w).who l).2.2 (c.begun w)
        ((loadAccs s (c.begun w).who l).1.flatMap (fun p => dest p.1 p.2))) (c.begun w) (loadAccs s (c.begun w).who l).2.1)))
      hrun' hne hc
    refine ⟨fun a ha => ?_, fun hbar hrace => ?_⟩
    · rw [hx, hb]
      erw [hq]
      have hpc : (c.begun w).fr = c.fr := by cases w <;> rfl
      simp only [ha, unlessBarred, hpc]
    simp only [hbar, unlessBarred] at hq
    rcases hla : loadAccs s1 (c.begun w).who l with ⟨xs, race, s2⟩
    have hs2 := loadAccs_only s1 (c.begun w).who l
    have hs1 := checkAccs_only (started s c w) (c.begun w).who .load (accs (c.begun w) s.free)
    rw [hc] at hs1
    rw [hla] at hs2 hrace hq
    obtain ⟨⟨cp, rg, rfl⟩, hl⟩ := hs2
    obtain ⟨x, a, rfl⟩ := hs1
    simp only at hrace
    subst hrace
    obtain ⟨gr, hg⟩ := regStep_plain (h.of_eq (b := { s with xlat := x, asids := a, copies := cp, reg := rg }) rfl rfl) w
      (xs.flatMap (fun p => dest p.1 p.2)) (c.fr.pc + 8)
      (by
        intro p hp
        simp only [List.mem_flatMap] at hp
        obtain ⟨q, _, hp⟩ := hp
        exact hk _ _ _ r.regs p hp)
    refine ⟨_, gr, hx, ?_, ?_⟩
    · rw [hb]
      erw [hq]
      exact hl
    · rw [hb]
      erw [hq]
      cases w <;> exact hg

end Sys2Proof.Machine
end

