-- ==== Sys2Proof/Laws/Device.lean ====
section
/-! SUPPORT. What the device's own writes can do: memory changes, what a write wakes or drops, and nothing else; a frozen word
stays. -/

namespace Sys2Proof.Machine

/-- A frozen word is left as it is (R346). -/
theorem putWord_frozen {s : State} {pa n : Nat} (k : Nat) (bs : List Byte) (h : regOf s (pa / 4) = some (.frozen n)) :
    putWord s k pa bs = s := by simp only [putWord, h]

theorem putWord_only (s : State) (k pa : Nat) (bs : List Byte) : StoreOnly s (putWord s k pa bs) := by
  unfold putWord
  split
  · exact .refl s
  · exact writeBytes_only s k pa bs

theorem writePlan_only (l : List (Nat × Nat)) : ∀ (s : State) (bs : List Byte), StoreOnly s (writePlan s l bs) := by
  induction l with
  | nil => exact fun s _ => .refl s
  | cons p l ih => exact fun s bs => (putWord_only s p.2 p.1 _).trans (ih _ _)

theorem devWrite_only {s t : State} {c : Ctx} {va : DWord} {bs : List Byte} (h : devWrite s c va bs = .ok t) : StoreOnly s t := by
  unfold devWrite at h
  split at h <;> cases h
  exact writePlan_only _ _ _

end Sys2Proof.Machine
end

