-- ==== Sys2Proof/Laws/Numbers.lean ====
section
/-! SUPPORT. Integer patterns and destinations: the meanings' arithmetic on naturals equals the bit-vector reading of the
statements (R126, R153, R157). -/

namespace Sys2Proof.Machine

theorem width_cases (t : IntTy) : t.width = 8 ∨ t.width = 16 ∨ t.width = 32 ∨ t.width = 64 := by cases t <;> simp [IntTy.width]

theorem toInt_eq (w x : Nat) (hw : 0 < w) : (BitVec.ofNat w x).toInt = if 2 ^ (w - 1) ≤ x % 2 ^ w then ((x % 2 ^ w : Nat) : Int) - 2 ^ w else ((x % 2 ^ w : Nat) : Int) := by
  have hp : 2 ^ w = 2 * 2 ^ (w - 1) := by
    obtain ⟨k, rfl⟩ : ∃ k, w = k + 1 := ⟨w - 1, by omega⟩
    rw [pow_succ]; simp; ring
  rw [BitVec.toInt_eq_toNat_cond]
  simp only [BitVec.toNat_ofNat]
  push_cast
  split <;> split <;> first | rfl | omega

theorem intVal_eq (t : IntTy) (x : Nat) : intVal t x = number t x := by
  unfold intVal number
  rw [toInt_eq _ _ (by cases t <;> simp [IntTy.width])]
  simp only [BitVec.toNat_ofNat]
  cases t.signed <;> simp

theorem wrap_eq (w : Nat) (x : Int) : wrapNat w x = (BitVec.ofInt w x).toNat := by
  unfold wrapNat; simp [BitVec.toNat_ofInt]

theorem intResult_eq (t : IntTy) (sat : Bool) (x : Int) : intResult t sat x = patternOf t sat x := by
  unfold intResult patternOf; rw [wrap_eq]; rfl

theorem outPair_eq (t n x : Nat) : outPair t n x = [(.v t n, ((BitVec.ofNat 64 x).setWidth 32).setWidth 64), (.v t (n + 1), BitVec.ofNat 64 x >>> 32)] := by
  unfold outPair
  congr 2
  · apply BitVec.eq_of_toNat_eq; simp
  · congr 1; apply BitVec.eq_of_toNat_eq
    simp [Nat.shiftRight_eq_div_pow]; omega

theorem outInt_eq (t : IntTy) (th vd x : Nat) : outInt t th vd x = intDest t th vd x := by
  unfold outInt intDest
  split
  · exact outPair_eq _ _ _
  · congr 2
    rename_i h
    rw [intVal_eq]; unfold number wrapNat
    cases hs : t.signed <;> simp only [if_true, if_false, Bool.false_eq_true]
    · apply BitVec.eq_of_toNat_eq
      rcases width_cases t with hw | hw | hw | hw <;> rw [hw] at h ⊢ <;> simp <;> omega
    · apply BitVec.eq_of_toNat_eq
      simp only [BitVec.toNat_ofNat, BitVec.toNat_setWidth, BitVec.signExtend, BitVec.toNat_ofInt]
      norm_num

theorem outWord_eq (t n : Nat) (x : Word) : outWord t n x.toNat = wordDest t n x := by
  unfold outWord wordDest
  congr 2
  apply BitVec.eq_of_toNat_eq
  have := x.isLt
  simp; omega

theorem real_outInt {n : Nat} {t : IntTy} {r : BitVec 8} (h : rVal n t.width r = true) (th x : Nat) :
    ∀ p ∈ outInt t th r.toNat x, p.1.real = true := by
  have := r.isLt
  intro p hp
  unfold outInt outPair at hp
  unfold rVal rPair at h
  split at hp
  · rename_i hw
    simp [hw] at h
    simp at hp
    rcases hp with rfl | rfl <;> simp [RegKey.real] <;> omega
  · simp at hp; subst hp; simp [RegKey.real]; omega

theorem real_outWord (r : BitVec 8) (th x : Nat) : ∀ p ∈ outWord th r.toNat x, p.1.real = true := by
  have := r.isLt
  intro p hp; simp [outWord] at hp; subst hp; simp [RegKey.real]; omega
theorem real_outPred (r : BitVec 3) (th : Nat) (b : Bool) : ∀ p ∈ outPred th r.toNat b, p.1.real = true := by
  have := r.isLt
  intro p hp; simp [outPred] at hp; subst hp; simp [RegKey.real]; omega

theorem LaneStep.congr {i w len g f f'} (h : LaneStep i w len g f) (e : f = f') : LaneStep i w len g f' := e ▸ h

end Sys2Proof.Machine
end

