-- ==== Sys2Proof/Laws/PerInstr.lean ====
section
/-! SUPPORT. Instruction by instruction: what is well formed has words, and events are not well formed. -/

namespace Sys2Proof.Laws

/-- R89 and the event rows of the table: a well-formed instruction has words; an event, which has none, is not well formed. -/
def Words.Statement (i : Instr) : Prop :=
  (encode i).isSome = true ∨ i.wf = false

theorem Words.mov (o : MovOp) : Words.Statement (.mov o) := .inl rfl
theorem Words.specialMov (o : SpecialMovOp) : Words.Statement (.specialMov o) := .inl rfl
theorem Words.movi (o : MoviOp) : Words.Statement (.movi o) := .inl rfl
theorem Words.moviw (o : MoviwOp) : Words.Statement (.moviw o) := .inl rfl
theorem Words.iaddi (o : IaddiOp) : Words.Statement (.iaddi o) := .inl rfl
theorem Words.lea (o : LeaOp) : Words.Statement (.lea o) := .inl rfl
theorem Words.brd (o : BrdOp) : Words.Statement (.brd o) := .inl rfl
theorem Words.join (o : JoinOp) : Words.Statement (.join o) := .inl rfl
theorem Words.iadd (o : IntSatOp) : Words.Statement (.iadd o) := .inl rfl
theorem Words.isub (o : IntSatOp) : Words.Statement (.isub o) := .inl rfl
theorem Words.imul (o : ImulOp) : Words.Statement (.imul o) := .inl rfl
theorem Words.imad (o : ImadOp) : Words.Statement (.imad o) := .inl rfl
theorem Words.imin (o : IntBinOp) : Words.Statement (.imin o) := .inl rfl
theorem Words.imax (o : IntBinOp) : Words.Statement (.imax o) := .inl rfl
theorem Words.iabs (o : IabsOp) : Words.Statement (.iabs o) := .inl rfl
theorem Words.icmp (o : IcmpOp) : Words.Statement (.icmp o) := .inl rfl
theorem Words.sel (o : SelOp) : Words.Statement (.sel o) := .inl rfl
theorem Words.fadd (o : FBinOp) : Words.Statement (.fadd o) := .inl rfl
theorem Words.fsub (o : FBinOp) : Words.Statement (.fsub o) := .inl rfl
theorem Words.ffma (o : FfmaOp) : Words.Statement (.ffma o) := .inl rfl
theorem Words.fmul (o : FBinOp) : Words.Statement (.fmul o) := .inl rfl
theorem Words.fmin (o : FSelOp) : Words.Statement (.fmin o) := .inl rfl
theorem Words.fmax (o : FSelOp) : Words.Statement (.fmax o) := .inl rfl
theorem Words.fcmp (o : FcmpOp) : Words.Statement (.fcmp o) := .inl rfl
theorem Words.fclass (o : FclassOp) : Words.Statement (.fclass o) := .inl rfl
theorem Words.ldgRow (o : RowOp) : Words.Statement (.ldgRow o) := .inl rfl
theorem Words.shl (o : IntBinOp) : Words.Statement (.shl o) := .inl rfl
theorem Words.shr (o : IntBinOp) : Words.Statement (.shr o) := .inl rfl
theorem Words.sha (o : IntBinOp) : Words.Statement (.sha o) := .inl rfl
theorem Words.and (o : IntBinOp) : Words.Statement (.and o) := .inl rfl
theorem Words.or (o : IntBinOp) : Words.Statement (.or o) := .inl rfl
theorem Words.xor (o : IntBinOp) : Words.Statement (.xor o) := .inl rfl
theorem Words.bfx (o : BfxOp) : Words.Statement (.bfx o) := .inl rfl
theorem Words.bfi (o : BfiOp) : Words.Statement (.bfi o) := .inl rfl
theorem Words.popc (o : IntCountOp) : Words.Statement (.popc o) := .inl rfl
theorem Words.clz (o : IntCountOp) : Words.Statement (.clz o) := .inl rfl
theorem Words.frcp (o : FUnOp) : Words.Statement (.frcp o) := .inl rfl
theorem Words.fsqrt (o : FUnOp) : Words.Statement (.fsqrt o) := .inl rfl
theorem Words.frsq (o : FUnOp) : Words.Statement (.frsq o) := .inl rfl
theorem Words.fexp2 (o : FUnOp) : Words.Statement (.fexp2 o) := .inl rfl
theorem Words.flog2 (o : FUnOp) : Words.Statement (.flog2 o) := .inl rfl
theorem Words.cvt (o : CvtOp) : Words.Statement (.cvt o) := .inl rfl
theorem Words.pack (o : PackOp) : Words.Statement (.pack o) := .inl rfl
theorem Words.unpk (o : UnpkOp) : Words.Statement (.unpk o) := .inl rfl
theorem Words.qset (o : QsetOp) : Words.Statement (.qset o) := .inl rfl
theorem Words.qop (o : QopOp) : Words.Statement (.qop o) := .inl rfl
theorem Words.shfl (o : ShflOp) : Words.Statement (.shfl o) := .inl rfl
theorem Words.vote (o : VoteOp) : Words.Statement (.vote o) := .inl rfl
theorem Words.red (o : RedOp) : Words.Statement (.red o) := .inl rfl
theorem Words.scan (o : ScanOp) : Words.Statement (.scan o) := .inl rfl
theorem Words.ld (o : MemOp) : Words.Statement (.ld o) := .inl rfl
theorem Words.st (o : MemOp) : Words.Statement (.st o) := .inl rfl
theorem Words.ldg (o : GatherOp) : Words.Statement (.ldg o) := .inl rfl
theorem Words.stg (o : GatherOp) : Words.Statement (.stg o) := .inl rfl
theorem Words.atom (o : AtomOp) : Words.Statement (.atom o) := .inl rfl
theorem Words.pft (o : PftOp) : Words.Statement (.pft o) := .inl rfl
theorem Words.lda (o : MemOp) : Words.Statement (.lda o) := .inl rfl
theorem Words.sta (o : MemOp) : Words.Statement (.sta o) := .inl rfl
theorem Words.ldaTile (o : MemOp) : Words.Statement (.ldaTile o) := .inl rfl
theorem Words.staTile (o : MemOp) : Words.Statement (.staTile o) := .inl rfl
theorem Words.ldl (o : LsOp) : Words.Statement (.ldl o) := .inl rfl
theorem Words.stl (o : LsOp) : Words.Statement (.stl o) := .inl rfl
theorem Words.fill (o : FillOp) : Words.Statement (.fill o) := .inl rfl
theorem Words.mma (o : MmaOp) : Words.Statement (.mma o) := .inl rfl
theorem Words.mmas (o : MmasOp) : Words.Statement (.mmas o) := .inl rfl
theorem Words.spk (o : SpkOp) : Words.Statement (.spk o) := .inl rfl
theorem Words.mdrn (o : MdrnOp) : Words.Statement (.mdrn o) := .inl rfl
theorem Words.mdrnMem (o : MdrnMemOp) : Words.Statement (.mdrnMem o) := .inl rfl
theorem Words.mdrnPeer (o : MdrnPeerOp) : Words.Statement (.mdrnPeer o) := .inl rfl
theorem Words.mzero (o : MzeroOp) : Words.Statement (.mzero o) := .inl rfl
theorem Words.iopIadd (o : SBin) : Words.Statement (.iopIadd o) := .inl rfl
theorem Words.iopIsub (o : SBin) : Words.Statement (.iopIsub o) := .inl rfl
theorem Words.iopImul (o : SBin) : Words.Statement (.iopImul o) := .inl rfl
theorem Words.iopIminI64 (o : SBin) : Words.Statement (.iopIminI64 o) := .inl rfl
theorem Words.iopImaxI64 (o : SBin) : Words.Statement (.iopImaxI64 o) := .inl rfl
theorem Words.iopIminN64 (o : SBin) : Words.Statement (.iopIminN64 o) := .inl rfl
theorem Words.iopImaxN64 (o : SBin) : Words.Statement (.iopImaxN64 o) := .inl rfl
theorem Words.iopIabs (o : SUn) : Words.Statement (.iopIabs o) := .inl rfl
theorem Words.iopAnd (o : SBin) : Words.Statement (.iopAnd o) := .inl rfl
theorem Words.iopOr (o : SBin) : Words.Statement (.iopOr o) := .inl rfl
theorem Words.iopXor (o : SBin) : Words.Statement (.iopXor o) := .inl rfl
theorem Words.iopShl (o : SBin) : Words.Statement (.iopShl o) := .inl rfl
theorem Words.iopShr (o : SBin) : Words.Statement (.iopShr o) := .inl rfl
theorem Words.iopSha (o : SBin) : Words.Statement (.iopSha o) := .inl rfl
theorem Words.iopPopc (o : SUn) : Words.Statement (.iopPopc o) := .inl rfl
theorem Words.iopClz (o : SUn) : Words.Statement (.iopClz o) := .inl rfl
theorem Words.iopMov (o : SUn) : Words.Statement (.iopMov o) := .inl rfl
theorem Words.iopiIadd (o : SImm) : Words.Statement (.iopiIadd o) := .inl rfl
theorem Words.iopiIsub (o : SImm) : Words.Statement (.iopiIsub o) := .inl rfl
theorem Words.iopiImul (o : SImm) : Words.Statement (.iopiImul o) := .inl rfl
theorem Words.iopiIminI64 (o : SImm) : Words.Statement (.iopiIminI64 o) := .inl rfl
theorem Words.iopiImaxI64 (o : SImm) : Words.Statement (.iopiImaxI64 o) := .inl rfl
theorem Words.iopiIminN64 (o : SImm) : Words.Statement (.iopiIminN64 o) := .inl rfl
theorem Words.iopiImaxN64 (o : SImm) : Words.Statement (.iopiImaxN64 o) := .inl rfl
theorem Words.iopiAnd (o : SImm) : Words.Statement (.iopiAnd o) := .inl rfl
theorem Words.iopiOr (o : SImm) : Words.Statement (.iopiOr o) := .inl rfl
theorem Words.iopiXor (o : SImm) : Words.Statement (.iopiXor o) := .inl rfl
theorem Words.iopiShl (o : SImm) : Words.Statement (.iopiShl o) := .inl rfl
theorem Words.iopiShr (o : SImm) : Words.Statement (.iopiShr o) := .inl rfl
theorem Words.iopiSha (o : SImm) : Words.Statement (.iopiSha o) := .inl rfl
theorem Words.iopiMovi (o : SMovi) : Words.Statement (.iopiMovi o) := .inl rfl
theorem Words.iopwIadd (o : SWide) : Words.Statement (.iopwIadd o) := .inl rfl
theorem Words.iopwIsub (o : SWide) : Words.Statement (.iopwIsub o) := .inl rfl
theorem Words.iopwImul (o : SWide) : Words.Statement (.iopwImul o) := .inl rfl
theorem Words.iopwIminI64 (o : SWide) : Words.Statement (.iopwIminI64 o) := .inl rfl
theorem Words.iopwImaxI64 (o : SWide) : Words.Statement (.iopwImaxI64 o) := .inl rfl
theorem Words.iopwIminN64 (o : SWide) : Words.Statement (.iopwIminN64 o) := .inl rfl
theorem Words.iopwImaxN64 (o : SWide) : Words.Statement (.iopwImaxN64 o) := .inl rfl
theorem Words.iopwAnd (o : SWide) : Words.Statement (.iopwAnd o) := .inl rfl
theorem Words.iopwOr (o : SWide) : Words.Statement (.iopwOr o) := .inl rfl
theorem Words.iopwXor (o : SWide) : Words.Statement (.iopwXor o) := .inl rfl
theorem Words.iopwShl (o : SWide) : Words.Statement (.iopwShl o) := .inl rfl
theorem Words.iopwShr (o : SWide) : Words.Statement (.iopwShr o) := .inl rfl
theorem Words.iopwSha (o : SWide) : Words.Statement (.iopwSha o) := .inl rfl
theorem Words.iopwMovi (o : SMoviw) : Words.Statement (.iopwMovi o) := .inl rfl
theorem Words.fopFadd (o : FopBin) : Words.Statement (.fopFadd o) := .inl rfl
theorem Words.fopFsub (o : FopBin) : Words.Statement (.fopFsub o) := .inl rfl
theorem Words.fopFmul (o : FopBin) : Words.Statement (.fopFmul o) := .inl rfl
theorem Words.fopFfma (o : FopFma) : Words.Statement (.fopFfma o) := .inl rfl
theorem Words.fopFmin (o : FopSel) : Words.Statement (.fopFmin o) := .inl rfl
theorem Words.fopFmax (o : FopSel) : Words.Statement (.fopFmax o) := .inl rfl
theorem Words.fopFrcp (o : FopUn) : Words.Statement (.fopFrcp o) := .inl rfl
theorem Words.fopFsqrt (o : FopUn) : Words.Statement (.fopFsqrt o) := .inl rfl
theorem Words.fopFrsq (o : FopUn) : Words.Statement (.fopFrsq o) := .inl rfl
theorem Words.fopFexp2 (o : FopUn) : Words.Statement (.fopFexp2 o) := .inl rfl
theorem Words.fopFlog2 (o : FopUn) : Words.Statement (.fopFlog2 o) := .inl rfl
theorem Words.fopCvt (o : FopCvt) : Words.Statement (.fopCvt o) := .inl rfl
theorem Words.cmpkIcmp (o : KIcmp) : Words.Statement (.cmpkIcmp o) := .inl rfl
theorem Words.cmpkFcmp (o : KFcmp) : Words.Statement (.cmpkFcmp o) := .inl rfl
theorem Words.cmpkFclass (o : KFclass) : Words.Statement (.cmpkFclass o) := .inl rfl
theorem Words.prkQop (o : KQop) : Words.Statement (.prkQop o) := .inl rfl
theorem Words.prkQset (o : KQset) : Words.Statement (.prkQset o) := .inl rfl
theorem Words.sld (o : SldOp) : Words.Statement (.sld o) := .inl rfl
theorem Words.sst (o : SstOp) : Words.Statement (.sst o) := .inl rfl
theorem Words.satom (o : SatomOp) : Words.Statement (.satom o) := .inl rfl
theorem Words.acq (o : AcqOp) : Words.Statement (.acq o) := .inl rfl
theorem Words.acqAll (o : ScopeOp) : Words.Statement (.acqAll o) := .inl rfl
theorem Words.rel (o : ScopeOp) : Words.Statement (.rel o) := .inl rfl
theorem Words.cln (o : MntOp) : Words.Statement (.cln o) := .inl rfl
theorem Words.inv (o : MntOp) : Words.Statement (.inv o) := .inl rfl
theorem Words.civ (o : MntOp) : Words.Statement (.civ o) := .inl rfl
theorem Words.rgn (o : RgnOp) : Words.Statement (.rgn o) := .inl rfl
theorem Words.bra (o : JumpOp) : Words.Statement (.bra o) := .inl rfl
theorem Words.call (o : JumpOp) : Words.Statement (.call o) := .inl rfl
theorem Words.brc (o : BrcOp) : Words.Statement (.brc o) := .inl rfl
theorem Words.braRegister (o : SrcOp) : Words.Statement (.braRegister o) := .inl rfl
theorem Words.callRegister (o : SrcOp) : Words.Statement (.callRegister o) := .inl rfl
theorem Words.ret (o : SrcOp) : Words.Statement (.ret o) := .inl rfl
theorem Words.exit (o : WOp) : Words.Statement (.exit o) := .inl rfl
theorem Words.yieldSlot (o : WOp) : Words.Statement (.yieldSlot o) := .inl rfl
theorem Words.setwImmediate (o : SetwImmOp) : Words.Statement (.setwImmediate o) := .inl rfl
theorem Words.setwRImmediate (o : SetwImmOp) : Words.Statement (.setwRImmediate o) := .inl rfl
theorem Words.setwRegister (o : SrcOp) : Words.Statement (.setwRegister o) := .inl rfl
theorem Words.setwRRegister (o : SrcOp) : Words.Statement (.setwRRegister o) := .inl rfl
theorem Words.endw (o : WOp) : Words.Statement (.endw o) := .inl rfl
theorem Words.bar (o : BarOp) : Words.Statement (.bar o) := .inl rfl
theorem Words.barArr (o : BarOp) : Words.Statement (.barArr o) := .inl rfl
theorem Words.barWait (o : BarOp) : Words.Statement (.barWait o) := .inl rfl
theorem Words.gbar (o : WOp) : Words.Statement (.gbar o) := .inl rfl
theorem Words.mbarInit (o : MbarOp) : Words.Statement (.mbarInit o) := .inl rfl
theorem Words.mbarArm (o : MbarOp) : Words.Statement (.mbarArm o) := .inl rfl
theorem Words.mbarArr (o : MbarArrOp) : Words.Statement (.mbarArr o) := .inl rfl
theorem Words.mbarWait (o : MbarWaitOp) : Words.Statement (.mbarWait o) := .inl rfl
theorem Words.bclose (o : WOp) : Words.Statement (.bclose o) := .inl rfl
theorem Words.bwaitImmediate (o : BwaitImmOp) : Words.Statement (.bwaitImmediate o) := .inl rfl
theorem Words.bwaitRegister (o : SrcOp) : Words.Statement (.bwaitRegister o) := .inl rfl
theorem Words.ecpy (o : EngineOp) : Words.Statement (.ecpy o) := .inl rfl
theorem Words.epub (o : EngineOp) : Words.Statement (.epub o) := .inl rfl
theorem Words.ecoll (o : EngineOp) : Words.Statement (.ecoll o) := .inl rfl
theorem Words.spawn (o : SpawnOp) : Words.Statement (.spawn o) := .inl rfl
theorem Words.enq (o : QueueOp) : Words.Statement (.enq o) := .inl rfl
theorem Words.deq (o : QueueOp) : Words.Statement (.deq o) := .inl rfl
theorem Words.cdec (o : CountOp) : Words.Statement (.cdec o) := .inl rfl
theorem Words.cinc (o : CountOp) : Words.Statement (.cinc o) := .inl rfl
theorem Words.tdef (o : TdefOp) : Words.Statement (.tdef o) := .inl rfl
theorem Words.tseal (o : SUn) : Words.Statement (.tseal o) := .inl rfl
theorem Words.tdrop (o : SUn) : Words.Statement (.tdrop o) := .inl rfl
theorem Words.thold (o : SUn) : Words.Statement (.thold o) := .inl rfl
theorem Words.tfree (o : SUn) : Words.Statement (.tfree o) := .inl rfl
theorem Words.tfence (o : WOp) : Words.Statement (.tfence o) := .inl rfl
theorem Words.trap (o : TrapOp) : Words.Statement (.trap o) := .inl rfl
theorem Words.trapBreak (o : TrapOp) : Words.Statement (.trapBreak o) := .inl rfl
theorem Words.rte (o : WOp) : Words.Statement (.rte o) := .inl rfl
theorem Words.csrr (o : CsrOp) : Words.Statement (.csrr o) := .inl rfl
theorem Words.csrw (o : CsrOp) : Words.Statement (.csrw o) := .inl rfl
theorem Words.csrwSet (o : CsrOp) : Words.Statement (.csrwSet o) := .inl rfl
theorem Words.csrwClr (o : CsrOp) : Words.Statement (.csrwClr o) := .inl rfl
theorem Words.svc (o : TrapOp) : Words.Statement (.svc o) := .inl rfl
theorem Words.eret (o : WOp) : Words.Statement (.eret o) := .inl rfl
theorem Words.tlbiPage (o : PairOp) : Words.Statement (.tlbiPage o) := .inl rfl
theorem Words.tlbiAsid (o : SrcOp) : Words.Statement (.tlbiAsid o) := .inl rfl
theorem Words.tlbiAll (o : WOp) : Words.Statement (.tlbiAll o) := .inl rfl
theorem Words.ctxi (o : SrcOp) : Words.Statement (.ctxi o) := .inl rfl
theorem Words.keysetLoad (o : KeyLoadOp) : Words.Statement (.keysetLoad o) := .inl rfl
theorem Words.keysetGen (o : KeyOp) : Words.Statement (.keysetGen o) := .inl rfl
theorem Words.keysetErase (o : KeyOp) : Words.Statement (.keysetErase o) := .inl rfl
theorem Words.halt (o : WOp) : Words.Statement (.halt o) := .inl rfl
theorem Words.kbindWrite (cc : Nat) (v : DWord) : Words.Statement (.kbindWrite cc v) := .inr rfl
theorem Words.ilckWrite (cc : Nat) (fn : CsrwFn) (v : DWord) : Words.Statement (.ilckWrite cc fn v) := .inr rfl
theorem Words.kpendWrite (cc : Nat) (fn : CsrwFn) (v : DWord) : Words.Statement (.kpendWrite cc fn v) := .inr rfl
theorem Words.registerWrite (r : RegWrite) : Words.Statement (.registerWrite r) := .inr rfl
theorem Words.interrupt (cc : Nat) : Words.Statement (.interrupt cc) := .inr rfl
theorem Words.trapDelivery (g : Nat) : Words.Statement (.trapDelivery g) := .inr rfl
theorem Words.homeAccess (a : Agent) (k : HomeKind) (pa : Nat) : Words.Statement (.homeAccess a k pa) := .inr rfl
theorem Words.eviction (site : EvictedFrom) (word : Nat) : Words.Statement (.eviction site word) := .inr rfl
theorem Words.monitorWake (line : Nat) : Words.Statement (.monitorWake line) := .inr rfl
theorem Words.walkRetry (g id : Nat) : Words.Statement (.walkRetry g id) := .inr rfl
theorem Words.switchOut (block : Nat) : Words.Statement (.switchOut block) := .inr rfl
theorem Words.dispatch (die : Nat) (cores : List Nat) : Words.Statement (.dispatch die cores) := .inr rfl
theorem Words.priorityAging (die slot idx : Nat) : Words.Statement (.priorityAging die slot idx) := .inr rfl
theorem Words.blockStart (core : Nat) : Words.Statement (.blockStart core) := .inr rfl
theorem Words.steal (thief victim : Nat) : Words.Statement (.steal thief victim) := .inr rfl
theorem Words.urgent (g f : Nat) : Words.Statement (.urgent g f) := .inr rfl
theorem Words.timerExpiry (core bin : Nat) : Words.Statement (.timerExpiry core bin) := .inr rfl
theorem Words.binClose (core bin : Nat) : Words.Statement (.binClose core bin) := .inr rfl
theorem Words.spawnedGroupStart (core : Nat) : Words.Statement (.spawnedGroupStart core) := .inr rfl
theorem Words.taskCompletion (task : Nat) : Words.Statement (.taskCompletion task) := .inr rfl
theorem Words.foldRetry (core : Nat) : Words.Statement (.foldRetry core) := .inr rfl
theorem Words.unbind (die slot : Nat) : Words.Statement (.unbind die slot) := .inr rfl
theorem Words.overflowAppend (die : Nat) : Words.Statement (.overflowAppend die) := .inr rfl
theorem Words.chunkLanding (id : Nat) : Words.Statement (.chunkLanding id) := .inr rfl
theorem Words.mbarTimeout (g f : Nat) : Words.Statement (.mbarTimeout g f) := .inr rfl
theorem Words.peerAddLanding (id : Nat) : Words.Statement (.peerAddLanding id) := .inr rfl
theorem Words.gangBarrierPass (gang : Nat) : Words.Statement (.gangBarrierPass gang) := .inr rfl
theorem Words.copyCommand (iod n : Nat) : Words.Statement (.copyCommand iod n) := .inr rfl
theorem Words.upload (iod n : Nat) : Words.Statement (.upload iod n) := .inr rfl
theorem Words.epubCommand (iod n : Nat) : Words.Statement (.epubCommand iod n) := .inr rfl
theorem Words.ecollCommand (iod n : Nat) : Words.Statement (.ecollCommand iod n) := .inr rfl
theorem Words.collectiveMatch (iod n : Nat) (others : List Contribution) : Words.Statement (.collectiveMatch iod n others) := .inr rfl
theorem Words.publish (iod n : Nat) : Words.Statement (.publish iod n) := .inr rfl
theorem Words.recipeRun (block tile : Nat) : Words.Statement (.recipeRun block tile) := .inr rfl
theorem Words.abIntervalEnd (core a l g : Nat) : Words.Statement (.abIntervalEnd core a l g) := .inr rfl
theorem Words.runRequest (c : Ctx) : Words.Statement (.runRequest c) := .inr rfl
theorem Words.preemptRequest (c : Ctx) : Words.Statement (.preemptRequest c) := .inr rfl
theorem Words.saveRequest (c : Ctx) : Words.Statement (.saveRequest c) := .inr rfl
theorem Words.abortRequest (c : Ctx) : Words.Statement (.abortRequest c) := .inr rfl
theorem Words.resumeRequest (c : Ctx) : Words.Statement (.resumeRequest c) := .inr rfl
theorem Words.unassignedRequest (c : Ctx) : Words.Statement (.unassignedRequest c) := .inr rfl
theorem Words.drainlimExpiry (block : Nat) : Words.Statement (.drainlimExpiry block) := .inr rfl
theorem Words.save (gang : Nat) : Words.Statement (.save gang) := .inr rfl
theorem Words.restore (gang : Nat) (cores : List Nat) : Words.Statement (.restore gang cores) := .inr rfl
theorem Words.statusWrite (c : Ctx) : Words.Statement (.statusWrite c) := .inr rfl
theorem Words.doorbell (iod : Nat) : Words.Statement (.doorbell iod) := .inr rfl
theorem Words.cxlMemRead (iod off : Nat) : Words.Statement (.cxlMemRead iod off) := .inr rfl
theorem Words.cxlMemWrite (iod off : Nat) (bytes : List Byte) : Words.Statement (.cxlMemWrite iod off bytes) := .inr rfl
theorem Words.registrationFlit (port : Nat) (f : FlitStep) : Words.Statement (.registrationFlit port f) := .inr rfl
theorem Words.dataFlit (port : Nat) (f : FlitStep) : Words.Statement (.dataFlit port f) := .inr rfl
theorem Words.acknowledge (port : Nat) (a : AckFlit) : Words.Statement (.acknowledge port a) := .inr rfl
theorem Words.keyControl (port : Nat) (k : KeyStep) : Words.Statement (.keyControl port k) := .inr rfl
theorem Words.rollover (k : NewKey) : Words.Statement (.rollover k) := .inr rfl
theorem Words.portDown (port : Nat) : Words.Statement (.portDown port) := .inr rfl
theorem Words.scopeTableInstall (t : ScopeTable) : Words.Statement (.scopeTableInstall t) := .inr rfl
theorem Words.uncorrectableError (place : ErrorPlace) : Words.Statement (.uncorrectableError place) := .inr rfl
theorem Words.coldStart : Words.Statement .coldStart := .inr rfl
theorem Words.warmStart : Words.Statement .warmStart := .inr rfl
theorem Words.warmReset (die : Nat) : Words.Statement (.warmReset die) := .inr rfl
theorem Words.reAdmission (r : Retraining) : Words.Statement (.reAdmission r) := .inr rfl
theorem Words.timeBaseTick : Words.Statement .timeBaseTick := .inr rfl
theorem Words.thermalLimit (entered : Bool) : Words.Statement (.thermalLimit entered) := .inr rfl
theorem Words.portUp (port : Nat) : Words.Statement (.portUp port) := .inr rfl
theorem Words.spdmRequest (iod : Nat) (request : List Byte) : Words.Statement (.spdmRequest iod request) := .inr rfl

end Sys2Proof.Laws
end

