-- ==== Sys2Proof/Laws/Store.lean ====
section
/-! SUPPORT. What memory reads after stores (R213, R214, R224, R30), and lane stores. -/

namespace Sys2Proof.Machine

theorem readByte_congr {s t : State} (hm : t.mem = s.mem) (ht : t.tags = s.tags) (key a : Nat) :
    readByte t key a = readByte s key a := by unfold readByte; rw [hm, ht]

/-! ### Several bytes under one key -/

theorem readByte_putBytes_other (k : Nat) (bs : List Byte) : ∀ (s : State) (pa key j : Nat),
    (j < pa ∨ pa + bs.length ≤ j) → ((∃ i, pa ≤ i ∧ i < pa + bs.length ∧ i / 64 = j / 64) → k = key) →
    readByte (putBytes (fun s a b => writeByte s k a b) s pa bs) key j = readByte s key j := by
  induction bs with
  | nil => intros; rfl
  | cons b bs ih =>
    intro s pa key j h hk
    simp only [List.length_cons] at h hk
    simp only [putBytes]
    rw [ih _ _ _ _ (by omega) (fun ⟨i, h1, h2, h3⟩ => hk ⟨i, by omega, by omega, h3⟩)]
    exact readByte_writeByte_other s k pa j key b (by omega) (fun e => (hk ⟨pa, by omega, by omega, e.symm⟩).symm)

theorem readByte_putBytes_same (k : Nat) (bs : List Byte) : ∀ (s : State) (pa j : Nat), pa ≤ j → j < pa + bs.length →
    readByte (putBytes (fun s a b => writeByte s k a b) s pa bs) k j = bs.getD (j - pa) 0 := by
  induction bs with
  | nil => intro s pa j h1 h2; simp at h2; omega
  | cons b bs ih =>
    intro s pa j h1 h2
    simp only [List.length_cons] at h2
    simp only [putBytes]
    by_cases h : j = pa
    · subst h
      rw [readByte_putBytes_other _ _ _ _ _ _ (by omega) (fun _ => rfl), readByte_writeByte_same]; simp
    · rw [ih _ _ _ (by omega) (by omega)]
      obtain ⟨i, rfl⟩ : ∃ i, j = pa + 1 + i := ⟨j - (pa + 1), by omega⟩
      rw [show pa + 1 + i - pa = i + 1 by omega, show pa + 1 + i - (pa + 1) = i by omega]
      simp

/-- The units that bytes were written to have the key (R214). -/
theorem putBytes_tag (k : Nat) (bs : List Byte) : ∀ (s : State) (pa i : Nat), pa ≤ i → i < pa + bs.length → paTop i ≠ 1 →
    ∃ t, tabFind (putBytes (fun s a b => writeByte s k a b) s pa bs).tags (i / 64) = some t ∧ t.key = k := by
  have keep : ∀ (bs : List Byte) (s : State) (pa u : Nat), (∃ t, tabFind s.tags u = some t ∧ t.key = k) →
      ∃ t, tabFind (putBytes (fun s a b => writeByte s k a b) s pa bs).tags u = some t ∧ t.key = k := by
    intro bs s pa u
    refine putBytes_induct (fun s a b => writeByte s k a b) (fun s => ∃ t, tabFind s.tags u = some t ∧ t.key = k)
      (fun s a b h => ?_) s pa bs
    obtain ⟨t, e, ht⟩ := h
    simp only [writeByte, retag]
    split
    · exact ⟨t, e, ht⟩
    · split
      · split
        · exact ⟨t, e, ht⟩
        · by_cases hu : u = a / 64
          · exact ⟨_, by rw [tabFind_tabSet, if_pos hu], rfl⟩
          · exact ⟨t, by rw [tabFind_tabSet, if_neg hu, e], ht⟩
      · by_cases hu : u = a / 64
        · exact ⟨_, by rw [tabFind_tabSet, if_pos hu], rfl⟩
        · exact ⟨t, by rw [tabFind_tabSet, if_neg hu, e], ht⟩
  induction bs with
  | nil => intro s pa i h1 h2; simp at h2; omega
  | cons b bs ih =>
    intro s pa i h1 h2 h3
    simp only [List.length_cons] at h2
    simp only [putBytes]
    by_cases h : i = pa
    · subst h
      exact keep bs _ _ _ (writeByte_tag s k i b h3)
    · exact ih _ _ _ (by omega) (by omega) h3

/-- Lines of replaced words that go change no byte outside their units, and none inside as read under the units' key. -/
theorem readByte_dropLines (s : State) (pa n key j : Nat) (hn : 0 < n)
    (h : (∃ i, pa ≤ i ∧ i < pa + n ∧ i / 64 = j / 64) → paTop j = 1 ∨ ∃ t, tabFind s.tags (j / 64) = some t ∧ t.key = key) :
    readByte (dropLines s pa n) key j = readByte s key j := by
  have hf : ∀ f : UnitTag → UnitTag, (∀ t, (f t).key = t.key) →
      (∀ t m, (∀ i, pa ≤ i → i < pa + n → i / 64 ≠ j / 64) → unitAs m (f t) key (j / 64) = unitAs m t key (j / 64)) →
      readByte { s with tags := s.tags.map (fun p => (p.1, f p.2)) } key j = readByte s key j := by
    intro f h1 h2
    by_cases hi : ∃ i, pa ≤ i ∧ i < pa + n ∧ i / 64 = j / 64
    · rw [readByte_own (h hi), readByte_own]
      rcases h hi with h | ⟨t, e, hk⟩
      · exact .inl h
      · exact .inr ⟨f t, by simp [tabFind_map, e], by rw [h1, hk]⟩
    · unfold readByte
      simp only [tabFind_map]
      split
      · rfl
      · cases tabFind s.tags (j / 64) with
        | none => rfl
        | some t =>
          simp only [Option.map_some, h1]
          rw [h2 t s.mem (fun i a b c => hi ⟨i, a, b, c⟩)]
  unfold dropLines
  split
  · split
    · rfl
    · refine hf (fun t => { t with lines := t.lines.filter (fun l => !(pa / 4 ≤ l.word && l.word ≤ (pa + n - 1) / 4)) })
        (fun _ => rfl) (fun t m hi => ?_)
      unfold unitAs
      refine List.map_congr_left (fun i hi64 => ?_)
      have hw : ∀ x : HeldLine, (x.word == j / 64 * 16 + i / 4 && x.key == key) = true →
          (!(decide (pa / 4 ≤ x.word) && decide (x.word ≤ (pa + n - 1) / 4))) = true := by
        intro x hx
        simp only [Bool.and_eq_true, beq_iff_eq] at hx
        simp only [List.mem_range] at hi64
        simp only [Bool.not_eq_true', Bool.and_eq_false_iff, decide_eq_false_iff_not]
        by_contra hc
        simp only [not_or, not_not] at hc
        obtain ⟨c1, c2⟩ := hc
        by_cases hp : pa ≤ 4 * x.word
        · exact hi (4 * x.word) hp (by omega) (by omega)
        · exact hi pa (Nat.le_refl _) (by omega) (by omega)
      have hp : (fun x : HeldLine => decide ((!(decide (pa / 4 ≤ x.word) && decide (x.word ≤ (pa + n - 1) / 4))) = true
          ∧ (x.word == j / 64 * 16 + i / 4 && x.key == key) = true)) = fun x => x.word == j / 64 * 16 + i / 4 && x.key == key := by
        funext x
        cases hx : (x.word == j / 64 * 16 + i / 4 && x.key == key) with
        | false => simp
        | true => rw [hw x hx]; rfl
      simp only [UnitTag.line?, List.find?_filter, hp]
  · rfl

/-- Bytes written read as the single bytes put do, outside their units or under their key. -/
theorem readByte_writeBytes (s : State) (k pa key j : Nat) (bs : List Byte)
    (hk : (∃ i, pa ≤ i ∧ i < pa + bs.length ∧ i / 64 = j / 64) → k = key) :
    readByte (writeBytes s k pa bs) key j = readByte (putBytes (fun s a b => writeByte s k a b) s pa bs) key j := by
  unfold writeBytes
  split
  · rename_i h; simp only [List.isEmpty_iff] at h; subst h; rfl
  · rename_i h
    show readByte (dropLines _ _ _) key j = _
    have hn : 0 < bs.length := by cases bs <;> simp_all
    refine readByte_dropLines _ _ _ _ _ hn (fun hi => ?_)
    obtain rfl := hk hi
    obtain ⟨i, h1, h2, h3⟩ := hi
    by_cases ht : paTop j = 1
    · exact .inl ht
    · rw [← h3]
      exact .inr (putBytes_tag k bs s pa i h1 h2 (by unfold paTop at ht ⊢; omega))

/-! ### Stores -/

theorem regStores_mem (s : State) (w : Who) (key : Nat) (va : DWord) (n k : Nat) :
    (regStores s w key va n k).mem = s.mem ∧ (regStores s w key va n k).tags = s.tags := by
  induction k generalizing s va n with
  | zero => exact ⟨rfl, rfl⟩
  | succ k ih =>
    have h1 : (regStore s w.agent key n va).mem = s.mem ∧ (regStore s w.agent key n va).tags = s.tags := by
      unfold regStore setReg; split
      · exact ⟨rfl, rfl⟩
      · split <;> exact ⟨rfl, rfl⟩
    have h2 : ∀ x : State, (dropWord x w.site w.ctx.asid va n).mem = x.mem ∧ (dropWord x w.site w.ctx.asid va n).tags = x.tags := by
      intro x; obtain ⟨c, h⟩ := dropWord_only x w.site w.ctx.asid va n; rw [h]; exact ⟨rfl, rfl⟩
    have := ih (dropWord (regStore s w.agent key n va) w.site w.ctx.asid va n) (va + 4) (n + 1)
    exact ⟨this.1.trans ((h2 _).1.trans h1.1), this.2.trans ((h2 _).2.trans h1.2)⟩

/-- One store that does not race: bytes written to a state whose memory and tags are as before. -/
theorem storeAcc_bytes {s : State} {w : Who} {p : Acc × Nat × Nat} (h : (storeAcc s w p).1 = none) :
    ∃ x : State, (x.mem = s.mem ∧ x.tags = s.tags) ∧ (storeAcc s w p).2 = writeBytes x p.2.2 p.2.1 (p.1.data.take p.1.n) := by
  have hj : ∀ n, (joinSector s w.site n).mem = s.mem ∧ (joinSector s w.site n).tags = s.tags := by
    intro n; obtain ⟨c, e⟩ := joinSector_only s w.site n; rw [e]; exact ⟨rfl, rfl⟩
  unfold storeAcc at h ⊢
  dsimp only at h ⊢
  split
  · rename_i r e; rw [e] at h; simp at h
  · refine ⟨_, ?_, rfl⟩
    have := fun y => regStores_mem y w p.2.2 (wordVa p.1.va) (p.2.1 / 4) (wordCount p.1.n)
    split
    · exact ⟨(this _).1.trans (hj _).1, (this _).2.trans (hj _).2⟩
    · exact this s

theorem storeAcc_other {s : State} {w : Who} {p : Acc × Nat × Nat} (h : (storeAcc s w p).1 = none) (key j : Nat)
    (hj : ¬ Covers p j) (hk : ∀ b, Covers p b → b / 64 = j / 64 → p.2.2 = key) :
    readByte (storeAcc s w p).2 key j = readByte s key j := by
  obtain ⟨x, hm, e⟩ := storeAcc_bytes h
  have hl : (p.1.data.take p.1.n).length ≤ p.1.n := by simp
  have hk' : (∃ i, p.2.1 ≤ i ∧ i < p.2.1 + (p.1.data.take p.1.n).length ∧ i / 64 = j / 64) → p.2.2 = key :=
    fun ⟨i, h1, h2, h3⟩ => hk i ⟨h1, by omega⟩ h3
  unfold Covers at hj
  rw [e, readByte_writeBytes _ _ _ _ _ _ hk', readByte_putBytes_other _ _ _ _ _ _ (by omega) hk', readByte_congr hm.1 hm.2]

theorem storeAcc_same {s : State} {w : Who} {p : Acc × Nat × Nat} (h : (storeAcc s w p).1 = none)
    (hl : p.1.data.length = p.1.n) (j : Nat) (hj : Covers p j) :
    readByte (storeAcc s w p).2 p.2.2 j = p.1.data.getD (j - p.2.1) 0 := by
  obtain ⟨x, _, e⟩ := storeAcc_bytes h
  rw [e, readByte_writeBytes _ _ _ _ _ _ (fun _ => rfl), ← hl, List.take_length]
  exact readByte_putBytes_same _ _ _ _ _ hj.1 (by rw [hl]; exact hj.2)

theorem worse_none {a b : Option (Race × DWord)} (h : worse a b = none) : a = none ∧ b = none := by
  cases a <;> cases b <;> simp_all [worse]
  split at h <;> simp at h

/-- Stores that do not race leave memory as `Stored` says. -/
theorem storeAccs_stored (w : Who) (l : List (Acc × Nat × Nat)) : ∀ s : State, (storeAccs s w l).1 = none →
    Stored s (storeAccs s w l).2 l := by
  have other : ∀ (l : List (Acc × Nat × Nat)) (s : State), (storeAccs s w l).1 = none → ∀ key a,
      (∀ p ∈ l, ¬ Covers p a) → (∀ p ∈ l, ∀ b, Covers p b → b / 64 = a / 64 → p.2.2 = key) →
      readByte (storeAccs s w l).2 key a = readByte s key a := by
    intro l
    induction l with
    | nil => intros; rfl
    | cons p l ih =>
      intro s h key a h1 h2
      obtain ⟨ha, hb⟩ := worse_none h
      show readByte (storeAccs (storeAcc s w p).2 w l).2 key a = _
      rw [ih _ hb key a (fun q hq => h1 q (by simp [hq])) (fun q hq => h2 q (by simp [hq])),
        storeAcc_other ha key a (h1 p (by simp)) (h2 p (by simp))]
  induction l with
  | nil =>
    intro s _
    exact ⟨fun _ _ _ _ => rfl, fun l1 p l2 h => by simp at h⟩
  | cons p l ih =>
    intro s h
    refine ⟨other _ s h, ?_⟩
    obtain ⟨ha, hb⟩ := worse_none h
    intro l1 q l2 e hlen a hcov hno hkey
    show readByte (storeAccs (storeAcc s w p).2 w l).2 q.2.2 a = _
    cases l1 with
    | nil =>
      simp only [List.nil_append, List.cons.injEq] at e
      obtain ⟨rfl, rfl⟩ := e
      rw [other _ _ hb _ a hno hkey, storeAcc_same ha hlen a hcov]
    | cons p' l1 =>
      simp only [List.cons_append, List.cons.injEq] at e
      obtain ⟨rfl, rfl⟩ := e
      exact (ih _ hb).put l1 q l2 rfl hlen a hcov hno hkey

/-- A lane store of the shared form. -/
theorem laneStore_step {i : Instr} {w : Bool} {accs : Cx → Nat → List Acc} {kind : ReqKind} {body : Cx → State → State}
    (he : ∀ s, exec i s = laneMemOp i w body s)
    (hb : ∀ d s, body d s = issueReq d s 8 .store { kind, accs := accs d s.free } (performStore (.frag d)))
    (hi : runRule i ≠ .ok) : StoreStep i w accs := by
  intro s c h r
  have hrun := r.noRun hi
  have hx : exec i s = .next (body (c.begun w) (started s c w)) := by
    rw [he, laneMemOp, issue_frag h r (by simp [laneMemInfo])]; rfl
  have hrun' : ∀ a ∈ accs (c.begun w) s.free, runMayLoad (started s c w) (c.begun w) a = true := by
    intro a _; rw [runMayLoad_started]; simp [runMayLoad, hrun]
  refine ⟨fun hnil => ?_, fun l s1 hne hc hrace => ?_⟩
  · obtain ⟨gr, hg⟩ := regStep_advance h w 8
    refine ⟨_, gr, hx, ?_⟩
    rw [hb, issueReq_nil hnil]
    exact hg
  · rcases hst : storeAccs s1 (c.begun w).who l with ⟨race, s2⟩
    have hs2 := storeAccs_only s1 (c.begun w).who l
    have hst2 := storeAccs_stored (c.begun w).who l s1 hrace
    have hs1 := checkAccs_only (started s c w) (c.begun w).who .store (accs (c.begun w) s.free)
    have hq := issueReq_ok (len := 8) (req := { kind, accs := accs (c.begun w) s.free }) (perform := performStore (.frag (c.begun w)))
      hrun' hne hc
    have hwho : (Actor.frag (c.begun w)).who = (c.begun w).who := rfl
    simp only [performStore, hwho] at hq
    rw [hc] at hs1
    rw [hst] at hs2 hrace hq hst2
    simp only at hrace
    subst hrace
    have hmem : (clearPoison ((Actor.frag (c.begun w)).dirty s2) l).mem = s2.mem ∧ (clearPoison ((Actor.frag (c.begun w)).dirty s2) l).tags = s2.tags := by
      unfold clearPoison; split <;> exact ⟨rfl, rfl⟩
    have hpo : ∃ p, clearPoison ((Actor.frag (c.begun w)).dirty s2) l
        = { s2 with poison := p, blocks := s2.blocks.modify c.gr.block (fun b => { b with clean := false }) } := by
      have : (c.begun w).gr.block = c.gr.block := by simp only [Cx.begun]; split <;> rfl
      unfold clearPoison
      split
      · exact ⟨s2.poison, by simp only [Actor.dirty, modBlock, modAt, this]⟩
      · exact ⟨s2.poison.filter (fun u => !covers l u), by simp only [Actor.dirty, modBlock, modAt, this]⟩
    obtain ⟨po, hpo⟩ := hpo
    have hkeep : ∀ key a, readByte s1 key a = readByte s key a := by
      intro key a; obtain ⟨x, y, e⟩ := hs1; simp only at e; rw [e]; exact readByte_congr rfl rfl key a
    have hstored : ∀ t : State, t.mem = s2.mem → t.tags = s2.tags → Stored s t l := by
      intro t h1 h2
      refine ⟨fun key a u v => ?_, fun l1 p l2 e hl a u v x => ?_⟩
      · rw [readByte_congr h1 h2, hst2.kept key a u v, hkeep]
      · rw [readByte_congr h1 h2, hst2.put l1 p l2 e hl a u v x]
    obtain ⟨m, g, rr, cp, mo, ho, rfl⟩ := hs2
    obtain ⟨x, a, rfl⟩ := hs1
    obtain ⟨gr, hg⟩ := regStep_advance (h.of_eq (b := { s with xlat := x, asids := a, mem := m, tags := g, reg := rr, copies := cp, monitors := mo, hostLines := ho, poison := po, blocks := s.blocks.modify c.gr.block (fun b => { b with clean := false }) }) rfl rfl) w 8
    refine ⟨_, gr, hx, ?_, ?_⟩
    · rw [hb]
      erw [hq]
      apply hstored
      · exact hmem.1
      · exact hmem.2
    · rw [hb]
      erw [hq]
      simp only [hpo]
      cases w <;> exact hg

end Sys2Proof.Machine
end

