-- ==== Sys2Proof/Tests/Slice0.lean ====
section
/-! SUPPORT. The modeller's own tests: words written out from the encodings, ill-formed terms that the checks refuse, and for
each statement a state and operands that meet its hypotheses. -/

namespace Sys2Proof.Tests

open Machine

set_option Elab.async false

/-! ### Words written out from the encodings (R54 to R66, R79 to R89, and the forms tables of 06, 08, 09 and 12 to 18) -/

def wordsMoves : List (Nat × Nat × Instr) :=
  [(0x41050900, 0, .mov ⟨true, 5, 9⟩),
   (0x01040001, 0, .specialMov ⟨false, 4, .tid⟩),
   (0x0203FFFE, 0, .movi ⟨false, 3, -2⟩),
   (0x03030000, 0x00012345, .moviw ⟨false, 3, 0x12345⟩),
   (0x040708FD, 0, .iaddi ⟨false, 7, 8, -3⟩),
   (0x050A0C05, 0x9A5000F8, .lea ⟨false, (some ⟨false, 3⟩), .n16, 10, 12, 5, 2, -8⟩)]

theorem test_words_moves : ∀ p ∈ wordsMoves, decode p.1 p.2.1 = some p.2.2 := by decide +kernel

def wordsInteger : List (Nat × Nat × Instr) :=
  [(0x08050600, 0x002600FD, .iadd ⟨false, none, .i32, true, 5, 6, .imm (-3)⟩),
   (0x09040608, 0x00700000, .isub ⟨false, none, .n64, false, 4, 6, .reg 8⟩),
   (0x0A08090A, 0x88610000, .imul ⟨false, (some ⟨false, 1⟩), .n32, .hi, 8, 9, .reg 10⟩),
   (0x0B010203, 0x00040400, .imad ⟨false, none, .i8, true, 1, 2, .reg 3, 4⟩),
   (0x0C010200, 0x00120007, .imin ⟨false, none, .i16, 1, 2, .imm 7⟩),
   (0x0C010203, 0x00110000, .imax ⟨false, none, .i16, 1, 2, .reg 3⟩),
   (0x4D020400, 0x00340000, .iabs ⟨true, none, .i64, true, 2, 4⟩)]

theorem test_words_integer : ∀ p ∈ wordsInteger, decode p.1 p.2.1 = some p.2.2 := by decide +kernel

def wordsLogic : List (Nat × Nat × Instr) :=
  [(0x18020100, 0x00620002, .shl ⟨false, none, .n32, 2, 1, .imm 2⟩),
   (0x19020103, 0x00400000, .shr ⟨false, none, .n8, 2, 1, .reg 3⟩),
   (0x1A020103, 0xF8200000, .sha ⟨false, (some ⟨true, 7⟩), .i32, 2, 1, .reg 3⟩),
   (0x1B020400, 0x007200FF, .and ⟨false, none, .n64, 2, 4, .imm (-1)⟩),
   (0x1C020406, 0x00500000, .or ⟨false, none, .n16, 2, 4, .reg 6⟩),
   (0x1D020406, 0, .xor ⟨false, none, .i8, 2, 4, .reg 6⟩),
   (0x1E020405, 0x00620009, .bfx ⟨false, none, .n32, 2, 4, .imm 9 5⟩),
   (0x1F020406, 0x00300800, .bfi ⟨false, none, .i64, 2, 4, .reg 6, 8⟩),
   (0x20030400, 0x00700000, .popc ⟨false, none, .n64, 3, 4⟩),
   (0x21030400, 0x00100000, .clz ⟨false, none, .i16, 3, 4⟩)]

theorem test_words_logic : ∀ p ∈ wordsLogic, decode p.1 p.2.1 = some p.2.2 := by decide +kernel

def wordsCompares : List (Nat × Nat × Instr) :=
  [(0x0E420400, 0x00220007, .icmp ⟨false, none, .i32, .lt, 2, 4, .imm 7⟩),
   (0x15AB0406, 0x00A80000, .fcmp ⟨false, none, .f32, .geu, true, 5, 4, 6⟩),
   (0x16C20400, 0x00B000A5, .fclass ⟨false, none, .f64, 6, 4, 0x2A5⟩),
   (0x2A630900, 0x0050000F, .qset ⟨false, none, 3, .bit .n16 9 15⟩),
   (0x2A810000, 0, .qset ⟨false, none, 4, .set⟩),
   (0x2B29B000, 0, .qop ⟨false, .andn, 1, 2, 3⟩),
   (0x0F010203, 0x05610000, .sel ⟨false, none, false, true, 5, 1, 2, .reg 3⟩)]

theorem test_words_compares : ∀ p ∈ wordsCompares, decode p.1 p.2.1 = some p.2.2 := by decide +kernel

def wordsFloating : List (Nat × Nat × Instr) :=
  [(0x10010203, 0x01880000, .fadd ⟨false, none, .f16, .rz, true, 1, 2, 3⟩),
   (0x11020406, 0x02B00000, .fsub ⟨false, none, .f64, .rd, false, 2, 4, 6⟩),
   (0x520A0B0C, 0xD0A00D00, .ffma ⟨true, (some ⟨true, 2⟩), .f32, .rn, false, 10, 11, 12, 13⟩),
   (0x13010203, 0x03900000, .fmul ⟨false, none, .bf16, .ru, false, 1, 2, 3⟩),
   (0x14010203, 0x00A00000, .fmin ⟨false, none, .f32, false, 1, 2, 3⟩),
   (0x14010203, 0x00A90000, .fmax ⟨false, none, .f32, true, 1, 2, 3⟩),
   (0x22010200, 0x04A00000, .frcp ⟨false, none, .f32, .rna, false, 1, 2⟩),
   (0x23020400, 0x00B00000, .fsqrt ⟨false, none, .f64, .rn, false, 2, 4⟩),
   (0x24010200, 0x00880000, .frsq ⟨false, none, .f16, .rn, true, 1, 2⟩),
   (0x25010200, 0x01A00000, .fexp2 ⟨false, none, .f32, .rz, false, 1, 2⟩),
   (0x26010200, 0x00900000, .flog2 ⟨false, none, .bf16, .rn, false, 1, 2⟩)]

theorem test_words_floating : ∀ p ∈ wordsFloating, decode p.1 p.2.1 = some p.2.2 := by decide +kernel

def wordsConversions : List (Nat × Nat × Instr) :=
  [(0x2704060A, 0x04200000, .cvt ⟨false, none, .one (.fltInt .f32 .i32 .rna false), 4, 6⟩),
   (0x27040605, 0x00040000, .cvt ⟨false, none, .one (.intInt .n16 .i8 .rn true), 4, 6⟩),
   (0x2708200A, 0x00C00300, .cvt ⟨false, none, .quant .f32 .bq8 3, 8, 32⟩),
   (0x28010203, 0x00140000, .pack ⟨false, none, .i16, true, 1, 2, 3⟩),
   (0x29040100, 0x00500001, .unpk ⟨false, none, .n16, 4, 1, true⟩)]

theorem test_words_conversions : ∀ p ∈ wordsConversions, decode p.1 p.2.1 = some p.2.2 := by decide +kernel

def wordsCrossLane : List (Nat × Nat × Instr) :=
  [(0x2C050400, 0x026A0001, .shfl ⟨false, none, .down, .oct, false, 5, 4, .imm 1⟩),
   (0x2D090200, 0x02000000, .vote ⟨false, none, .win, .ballot 9, 2⟩),
   (0x2D060200, 0x01050000, .vote ⟨false, none, .quad, .allQ 6, 2⟩),
   (0x2E060400, 0x00610000, .red ⟨false, none, .win, .int .n32 .add, 6, 4⟩),
   (0x2E070600, 0x00A00000, .red ⟨false, none, .fix, .fadd .f32 .rn false, 7, 6⟩),
   (0x2F060400, 0x00260002, .scan ⟨false, none, .any, true, .int .i32 .max, 6, 4⟩),
   (0x46220004, 0, .brd ⟨true, 1, false, 2, 4⟩),
   (0x07020000, 0, .join ⟨false, 2⟩)]

theorem test_words_crossLane : ∀ p ∈ wordsCrossLane, decode p.1 p.2.1 = some p.2.2 := by decide +kernel

def wordsLaneMemory : List (Nat × Nat × Instr) :=
  [(0x30140010, 0x00A00010, .ld ⟨false, none, .flt .f32, .x1, 20, ⟨4, .none, 0x10⟩⟩),
   (0x3106021D, 0x00600000, .st ⟨false, none, .int .n32, .x1, 6, ⟨7, .zext 2, 0⟩⟩),
   (0x3008021F, 0x006200FF, .ld ⟨false, none, .int .n32, .x4, 8, ⟨7, .pair 2, -1⟩⟩),
   (0x32060326, 0x03760002, .ldg ⟨false, none, .int .n64, 6, ⟨9, 3, .w16, true, 3, 2⟩⟩),
   (0x33060326, 0x00480000, .stg ⟨false, none, .int .n8, 6, ⟨9, 3, .w32, false, 0, 0⟩⟩),
   (0x17200222, 0x05980000, .ldgRow ⟨false, none, .bf16, 32, ⟨8, 2, .w32, false, 5, 0⟩⟩),
   (0x34080219, 0x01606002, .atom ⟨false, none, true, .int .add .n32, .pkg, 8, ⟨6, .zext 2, 2⟩⟩),
   (0x3408021A, 0x00B88A00, .atom ⟨false, none, false, .fadd64, .sys 5, 8, ⟨6, .sext 2, 0⟩⟩),
   (0x3500021A, 0x00000005, .pft ⟨false, none, ⟨6, .sext 2, 5⟩⟩),
   (0x3604021A, 0x00610000, .lda ⟨false, none, .int .n32, .x2, 4, ⟨6, .sext 2, 0⟩⟩),
   (0x37040018, 0x00300001, .sta ⟨false, none, .int .i64, .x1, 4, ⟨6, .none, 1⟩⟩),
   (0x36040018, 0x00680001, .ldaTile ⟨false, none, .int .n32, .x1, 4, ⟨6, .none, 1⟩⟩),
   (0x37040919, 0x00880001, .staTile ⟨false, none, .flt .f16, .x1, 4, ⟨6, .zext 9, 1⟩⟩),
   (0x38040211, 0x00600001, .ldl ⟨false, none, false, .int .n32, .x1, 4, ⟨4, .zext 2, 1⟩⟩),
   (0x39030211, 0x00640040, .stl ⟨false, none, true, .int .n32, .x1, 3, ⟨4, .zext 2, 0x40⟩⟩),
   (0x3A030211, 0x040A0901, .fill ⟨false, none, .b64, .ls, 3, some 9, ⟨4, .zext 2, 1⟩⟩)]

theorem test_words_laneMemory : ∀ p ∈ wordsLaneMemory, decode p.1 p.2.1 = some p.2.2 := by decide +kernel

def wordsMatrix : List (Nat × Nat × Instr) :=
  [(0x3B201058, 0x00900000, .mma ⟨false, none, .bf16, true, false, 32, 4, 5⟩),
   (0x3C201050, 0x00904000, .mmas ⟨false, none, .bf16, .sp24, false, false, 32, 4, 5, 64⟩),
   (0x3D400C70, 0x00010000, .spk ⟨false, none, .i8, .sp48, 64, 3, 7⟩),
   (0x3F000070, 0x00B20000, .mzero ⟨false, none, .f64, 2, 7⟩),
   (0x3E100074, 0x01810009, .mdrn ⟨false, none, .f16 .rz, .bf16, true, 1, 16, 7⟩),
   (0x3E100070, 0x00C10308, .mdrn ⟨false, none, .bq8 3, .f16, false, 1, 16, 7⟩),
   (0x3E100070, 0x00240000, .mdrnMem ⟨false, none, .i32, .i8, false, 16, 7⟩),
   (0x3E001878, 0x00A80009, .mdrnPeer ⟨false, none, true, false, .bf16, 6, 7⟩)]

theorem test_words_matrix : ∀ p ∈ wordsMatrix, decode p.1 p.2.1 = some p.2.2 := by decide +kernel

def wordsUniformInteger : List (Nat × Nat × Instr) :=
  [(0x800420C0, 0, .iopIadd ⟨false, 1, 2, 3⟩),
   (0x800420C1, 0, .iopIsub ⟨false, 1, 2, 3⟩),
   (0x800420C2, 0, .iopImul ⟨false, 1, 2, 3⟩),
   (0x800420C3, 0, .iopIminI64 ⟨false, 1, 2, 3⟩),
   (0x800420C4, 0, .iopImaxI64 ⟨false, 1, 2, 3⟩),
   (0x800420C5, 0, .iopIminN64 ⟨false, 1, 2, 3⟩),
   (0x800420C6, 0, .iopImaxN64 ⟨false, 1, 2, 3⟩),
   (0x800420C8, 0, .iopAnd ⟨false, 1, 2, 3⟩),
   (0x800420C9, 0, .iopOr ⟨false, 1, 2, 3⟩),
   (0x800420CA, 0, .iopXor ⟨false, 1, 2, 3⟩),
   (0x800420CB, 0, .iopShl ⟨false, 1, 2, 3⟩),
   (0x800420CC, 0, .iopShr ⟨false, 1, 2, 3⟩),
   (0x800420CD, 0, .iopSha ⟨false, 1, 2, 3⟩),
   (0x80042007, 0, .iopIabs ⟨false, 1, 2⟩),
   (0x8004200E, 0, .iopPopc ⟨false, 1, 2⟩),
   (0x8004200F, 0, .iopClz ⟨false, 1, 2⟩),
   (0x80042010, 0, .iopMov ⟨false, 1, 2⟩)]

theorem test_words_uniformInteger : ∀ p ∈ wordsUniformInteger, decode p.1 p.2.1 = some p.2.2 := by decide +kernel

def wordsUniformImmediate : List (Nat × Nat × Instr) :=
  [(0x81042F40, 0, .iopiIadd ⟨false, 1, 2, -3⟩),
   (0x81042F41, 0, .iopiIsub ⟨false, 1, 2, -3⟩),
   (0x81042F42, 0, .iopiImul ⟨false, 1, 2, -3⟩),
   (0x81042F43, 0, .iopiIminI64 ⟨false, 1, 2, -3⟩),
   (0x81042F44, 0, .iopiImaxI64 ⟨false, 1, 2, -3⟩),
   (0x81042F45, 0, .iopiIminN64 ⟨false, 1, 2, -3⟩),
   (0x81042F46, 0, .iopiImaxN64 ⟨false, 1, 2, -3⟩),
   (0x81042F48, 0, .iopiAnd ⟨false, 1, 2, -3⟩),
   (0x81042F49, 0, .iopiOr ⟨false, 1, 2, -3⟩),
   (0x81042F4A, 0, .iopiXor ⟨false, 1, 2, -3⟩),
   (0x81042F4B, 0, .iopiShl ⟨false, 1, 2, -3⟩),
   (0x81042F4C, 0, .iopiShr ⟨false, 1, 2, -3⟩),
   (0x81042F4D, 0, .iopiSha ⟨false, 1, 2, -3⟩),
   (0x81240FD0, 0, .iopiMovi ⟨false, 9, -1⟩)]

theorem test_words_uniformImmediate : ∀ p ∈ wordsUniformImmediate, decode p.1 p.2.1 = some p.2.2 := by decide +kernel

def wordsUniformWide : List (Nat × Nat × Instr) :=
  [(0x82042000, 0x12345678, .iopwIadd ⟨false, 1, 2, 0x12345678⟩),
   (0x82042001, 0x12345678, .iopwIsub ⟨false, 1, 2, 0x12345678⟩),
   (0x82042002, 0x12345678, .iopwImul ⟨false, 1, 2, 0x12345678⟩),
   (0x82042003, 0x12345678, .iopwIminI64 ⟨false, 1, 2, 0x12345678⟩),
   (0x82042004, 0x12345678, .iopwImaxI64 ⟨false, 1, 2, 0x12345678⟩),
   (0x82042005, 0x12345678, .iopwIminN64 ⟨false, 1, 2, 0x12345678⟩),
   (0x82042006, 0x12345678, .iopwImaxN64 ⟨false, 1, 2, 0x12345678⟩),
   (0x82042008, 0x12345678, .iopwAnd ⟨false, 1, 2, 0x12345678⟩),
   (0x82042009, 0x12345678, .iopwOr ⟨false, 1, 2, 0x12345678⟩),
   (0x8204200A, 0x12345678, .iopwXor ⟨false, 1, 2, 0x12345678⟩),
   (0x8204200B, 0x12345678, .iopwShl ⟨false, 1, 2, 0x12345678⟩),
   (0x8204200C, 0x12345678, .iopwShr ⟨false, 1, 2, 0x12345678⟩),
   (0x8204200D, 0x12345678, .iopwSha ⟨false, 1, 2, 0x12345678⟩),
   (0x82240010, 0x7FFF0000, .iopwMovi ⟨false, 9, 0x7FFF0000⟩)]

theorem test_words_uniformWide : ∀ p ∈ wordsUniformWide, decode p.1 p.2.1 = some p.2.2 := by decide +kernel

def wordsUniformFloating : List (Nat × Nat × Instr) :=
  [(0x830420C0, 0xD3B80000, .fopFadd ⟨false, (some ⟨true, 2⟩), .f64, .ru, true, 1, 2, 3⟩),
   (0x830420C1, 0xD3B80000, .fopFsub ⟨false, (some ⟨true, 2⟩), .f64, .ru, true, 1, 2, 3⟩),
   (0x830420C2, 0xD3B80000, .fopFmul ⟨false, (some ⟨true, 2⟩), .f64, .ru, true, 1, 2, 3⟩),
   (0x83105183, 0x00A00700, .fopFfma ⟨false, none, .f32, .rn, false, 4, 5, 6, 7⟩),
   (0x830420C4, 0x00800000, .fopFmin ⟨false, none, .f16, false, 1, 2, 3⟩),
   (0x830420C5, 0x00880000, .fopFmax ⟨false, none, .f16, true, 1, 2, 3⟩),
   (0x83042006, 0x02A00000, .fopFrcp ⟨false, none, .f32, .rd, false, 1, 2⟩),
   (0x83042007, 0x02A00000, .fopFsqrt ⟨false, none, .f32, .rd, false, 1, 2⟩),
   (0x83042008, 0x02A00000, .fopFrsq ⟨false, none, .f32, .rd, false, 1, 2⟩),
   (0x83042009, 0x02A00000, .fopFexp2 ⟨false, none, .f32, .rd, false, 1, 2⟩),
   (0x8304200A, 0x02A00000, .fopFlog2 ⟨false, none, .f32, .rd, false, 1, 2⟩),
   (0x830421CB, 0x01A00000, .fopCvt ⟨false, none, .intFlt .n64 .f32 .rz false, 1, 2⟩),
   (0x84085180, 0x00400005, .cmpkIcmp ⟨false, none, .n8, .ge, 2, 5, 6⟩),
   (0x840C5181, 0x00A00006, .cmpkFcmp ⟨false, none, .f32, .un, false, 3, 5, 6⟩),
   (0x84045042, 0x00A000F3, .cmpkFclass ⟨false, none, .f32, 1, 5, 0x1F3⟩),
   (0x850420C7, 0, .prkQop ⟨false, .xnor, 1, 2, 3⟩),
   (0x85049088, 0, .prkQset ⟨false, 1, .nz 9⟩)]

theorem test_words_uniformFloating : ∀ p ∈ wordsUniformFloating, decode p.1 p.2.1 = some p.2.2 := by decide +kernel

def wordsUniformMemory : List (Nat × Nat × Instr) :=
  [(0x881C4403, 0, .sld ⟨false, 7, 4, .n32, 3⟩),
   (0x891C47FF, 0, .sst ⟨false, 7, 4, .d64, -1⟩),
   (0x8A5C03C0, 0x00706020, .satom ⟨false, none, false, .int .add .n64, .pkg, 23, 0, 15, 0x20⟩),
   (0x8B600003, 0, .acq ⟨false, .pkg, 3⟩),
   (0x8B610000, 0, .acqAll ⟨false, .pkg⟩),
   (0x8C400000, 0, .rel ⟨false, .die⟩),
   (0x8C920000, 0, .rel ⟨false, .sys 9⟩),
   (0x8D005180, 0, .cln ⟨false, none, .l1, 5, 6⟩),
   (0x8D005181, 0x89000000, .inv ⟨false, (some ⟨false, 1⟩), .home, 5, 6⟩),
   (0x8D005182, 0x02000000, .civ ⟨false, none, .mem, 5, 6⟩),
   (0x8E3C5180, 0, .rgn ⟨false, 15, 5, 6⟩)]

theorem test_words_uniformMemory : ∀ p ∈ wordsUniformMemory, decode p.1 p.2.1 = some p.2.2 := by decide +kernel

def wordsControlFlow : List (Nat × Nat × Instr) :=
  [(0x90FFFFFA, 0, .bra ⟨false, -6⟩),
   (0xD1000009, 0, .call ⟨true, 9⟩),
   (0x92BFFFFF, 0, .brc ⟨false, 2, true, -1⟩),
   (0x93009000, 0, .braRegister ⟨false, 9⟩),
   (0x93009001, 0, .callRegister ⟨false, 9⟩),
   (0x9303F002, 0, .ret ⟨false, 63⟩),
   (0x94000000, 0, .exit ⟨false⟩),
   (0x95000000, 0, .yieldSlot ⟨false⟩),
   (0x96000000, 0x00000080, .setwImmediate ⟨false, 128⟩),
   (0x96000001, 0x00000040, .setwRImmediate ⟨false, 64⟩),
   (0x96001002, 0, .setwRegister ⟨false, 1⟩),
   (0x96001003, 0, .setwRRegister ⟨false, 1⟩),
   (0x97000000, 0, .endw ⟨false⟩)]

theorem test_words_controlFlow : ∀ p ∈ wordsControlFlow, decode p.1 p.2.1 = some p.2.2 := by decide +kernel

def wordsBarriers : List (Nat × Nat × Instr) :=
  [(0x980000C0, 0, .bar ⟨false, 3⟩),
   (0x980000C1, 0, .barArr ⟨false, 3⟩),
   (0x980000C2, 0, .barWait ⟨false, 3⟩),
   (0x99000000, 0, .gbar ⟨false⟩),
   (0x9A0061C0, 0, .mbarInit ⟨false, none, 6, 7⟩),
   (0x9A0061C1, 0, .mbarArm ⟨false, none, 6, 7⟩),
   (0x9A006002, 0x98002000, .mbarArr ⟨false, (some ⟨false, 3⟩), .blk, 6⟩),
   (0x9A1461C3, 0x00006000, .mbarWait ⟨false, none, .pkg, 5, 6, 7⟩),
   (0x9B000000, 0, .bclose ⟨false⟩),
   (0x9C000000, 0x0000FFFF, .bwaitImmediate ⟨false, 0xFFFF⟩),
   (0x9C009001, 0, .bwaitRegister ⟨false, 9⟩)]

theorem test_words_barriers : ∀ p ∈ wordsBarriers, decode p.1 p.2.1 = some p.2.2 := by decide +kernel

def wordsServices : List (Nat × Nat × Instr) :=
  [(0xA0146000, 0x00006000, .ecpy ⟨false, none, .pkg, 5, 6⟩),
   (0xA1146000, 0x00008400, .epub ⟨false, none, .sys 2, 5, 6⟩),
   (0xA2146000, 0x00009E00, .ecoll ⟨false, none, .sys 15, 5, 6⟩),
   (0xA30020C0, 0x00000400, .spawn ⟨false, none, 2, 3, 4⟩),
   (0xA40C4140, 0x00006008, .enq ⟨false, none, .pkg, 3, 4, 5, 7⟩),
   (0xA51841C0, 0x00006008, .deq ⟨false, none, .pkg, 6, 4, 7, 7⟩),
   (0xA60420C0, 0x01006000, .cdec ⟨false, none, true, .pkg, 1, 2, 3⟩),
   (0xA70420C0, 0x00004000, .cinc ⟨false, none, false, .die, 1, 2, 3⟩),
   (0xA80420C0, 0, .tdef ⟨false, none, 1, 2, 3⟩),
   (0xA9042000, 0, .tseal ⟨false, 1, 2⟩),
   (0xAA042000, 0, .tdrop ⟨false, 1, 2⟩),
   (0xAB042000, 0, .thold ⟨false, 1, 2⟩),
   (0xAC042000, 0, .tfree ⟨false, 1, 2⟩)]

theorem test_words_services : ∀ p ∈ wordsServices, decode p.1 p.2.1 = some p.2.2 := by decide +kernel

def wordsSystem : List (Nat × Nat × Instr) :=
  [(0xAD000000, 0, .tfence ⟨false⟩),
   (0xAE001234, 0, .trap ⟨false, 0x1234⟩),
   (0xAE801234, 0, .trapBreak ⟨false, 0x1234⟩),
   (0xAF000000, 0, .rte ⟨false⟩),
   (0xB00C0400, 0, .csrr ⟨false, 3, 0x010⟩),
   (0xB00C1000, 0, .csrr ⟨false, 3, 0x040⟩),
   (0xB1141100, 0, .csrw ⟨false, 5, 0x044⟩),
   (0xB1141101, 0, .csrwSet ⟨false, 5, 0x044⟩),
   (0xB11C0402, 0, .csrwClr ⟨false, 7, 0x010⟩),
   (0xB2000001, 0, .svc ⟨false, 1⟩),
   (0xB3000000, 0, .eret ⟨false⟩),
   (0xB40020C0, 0, .tlbiPage ⟨false, 2, 3⟩),
   (0xB4042000, 0, .tlbiAsid ⟨false, 2⟩),
   (0xB4080000, 0, .tlbiAll ⟨false⟩),
   (0xB5002000, 0, .ctxi ⟨false, 2⟩),
   (0xB60420C0, 0, .keysetLoad ⟨false, none, 1, 2, 3⟩),
   (0xB6042000, 0x00010000, .keysetGen ⟨false, none, 1, 2⟩),
   (0xB6042000, 0x00020000, .keysetErase ⟨false, none, 1, 2⟩),
   (0xB7000000, 0, .halt ⟨false⟩)]

theorem test_words_system : ∀ p ∈ wordsSystem, decode p.1 p.2.1 = some p.2.2 := by decide +kernel

/-! ### Terms that no word stands for (R67, R63) -/

def illFormed : List Instr :=
  [.qset ⟨false, none, 3, .bit .n16 9 16⟩, .cvt ⟨false, none, .one (.intInt .i8 .i8 .rn false), 4, 6⟩,
   .cvt ⟨false, none, .one (.fltFlt .f32 .f32 .rn false), 4, 6⟩, .fopCvt ⟨false, none, .intInt .n64 .n64 .rn false, 1, 2⟩,
   .iabs ⟨false, none, .n32, false, 1, 2⟩, .pack ⟨false, none, .f16, true, 1, 2, 3⟩,
   .ld ⟨false, none, .int .i16, .x2, 20, ⟨4, .none, 0⟩⟩, .st ⟨false, none, .int .i64, .x4, 16, ⟨4, .none, 0⟩⟩,
   .lda ⟨false, none, .flt .bf16, .x4, 20, ⟨4, .none, 0⟩⟩, .ldl ⟨false, none, false, .int .n64, .x4, 16, ⟨4, .none, 0⟩⟩,
   .mdrn ⟨false, none, .bq8 3, .f16, false, 2, 16, 7⟩, .mdrn ⟨false, none, .bq4 3, .bf16, false, 1, 16, 7⟩,
   .mdrn ⟨false, none, .f32, .f64, false, 1, 16, 7⟩, .mdrnMem ⟨false, none, .bf16 .rn, .i8, false, 16, 7⟩,
   .setwImmediate ⟨false, 0⟩, .setwRImmediate ⟨false, 129⟩, .timeBaseTick, .doorbell 0]

theorem test_illFormed_refused : ∀ i ∈ illFormed, i.wf = false := by decide

/-- R63: a pair begins at an even register, a group at a multiple of its size, and every register is declared. -/
theorem test_registers_refused :
    Instr.regsOk 256 (.iadd ⟨false, none, .i64, false, 5, 6, .reg 8⟩) = false ∧ Instr.regsOk 8 (.mov ⟨false, 8, 0⟩) = false ∧
    Instr.regsOk 8 (.mov ⟨false, 7, 0⟩) = true ∧ Instr.regsOk 256 (.mma ⟨false, none, .bf16, false, false, 36, 4, 5⟩) = false ∧
    Instr.regsOk 40 (.mma ⟨false, none, .bf16, false, false, 32, 4, 5⟩) = true ∧
    Instr.regsOk 256 (.ld ⟨false, none, .int .n32, .x4, 18, ⟨4, .none, 0⟩⟩) = false ∧
    Instr.regsOk 256 (.ldgRow ⟨false, none, .bq8 39, 32, ⟨8, 2, .w32, false, 5, 0⟩⟩) = false := by decide

/-! ### Small states -/

/-- One group of eight threads on core 0 of CD0 with one page mapped at virtual address 0 (R323). -/
def base : State := { loadProgram State.reset [] with agenda := [], cur := .frag 0 0 }

def gr0 : Group := Group.start loadCtx 0 0 0 0 8 256 (firstThreads 8) 8 false 0 0

def fr0 : Frag := Frag.start (firstThreads 8) 0 0

/-- `base` with its group changed, and the fragment that issues there. -/
def withGroup (gr : Group) : State := { base with groups := [gr] }
def cxOf (gr : Group) : Cx := { g := 0, f := 0, gr, fr := gr.frags.headD fr0 }
def c0 : Cx := cxOf gr0

/-- Control core 0 of CD0 under the context of the page, privileged. -/
def ctlBase : State := { loadProgram State.reset (leBytes 8 0xB7000000) with agenda := [], cur := .control 0 }
def ctl0 : Ctl := { Ctl.reset with kbind := 0x40010001, bound := true }

def issuesB (s : State) (c : Cx) : Bool := s.cur == .frag c.g c.f && s.groups[c.g]? == some c.gr && c.gr.frag? c.f == some c.fr

theorem issues_of {s : State} {c : Cx} (h : issuesB s c = true) : Issues s c := by
  simp only [issuesB, Bool.and_eq_true, beq_iff_eq] at h
  exact ⟨h.1.1, h.1.2, h.2⟩

def readyB (s : State) (c : Cx) (i : Instr) (x : IssueInfo) : Bool :=
  i.wf && i.regsOk c.gr.vcount && (c.gr.run.isNone || runRule i == .ok) && !mustWait s c i x

theorem ready_of {s : State} {c : Cx} {i : Instr} {x : IssueInfo} (h : readyB s c i x = true) : Ready s c i x := by
  simp only [readyB, Bool.and_eq_true, Bool.or_eq_true, Bool.not_eq_true', Option.isNone_iff_eq_none, beq_iff_eq] at h
  exact ⟨h.1.1.1, h.1.1.2, h.1.2, h.2⟩

theorem forms_ready {s : State} {c : Cx} {l : List (Instr × IssueInfo)} (h : l.all (fun p => readyB s c p.1 p.2) = true) :
    ∀ p ∈ l, Ready s c p.1 p.2 := fun p hp => ready_of (List.all_eq_true.1 h p hp)

/-- A fragment issues and may issue the instruction. -/
theorem turn_of {s : State} {c : Cx} {i : Instr} {x : IssueInfo} (h : (issuesB s c && readyB s c i x) = true) :
    Issues s c ∧ Ready s c i x := by
  simp only [Bool.and_eq_true] at h
  exact ⟨issues_of h.1, ready_of h.2⟩

/-- Accesses that pass their checks, with a property of their translations and the state behind. -/
def okAnd (r : Checked × State) (p : List (Acc × Nat × Nat) → State → Bool) : Bool :=
  match r with
  | (.ok l, s1) => p l s1
  | _ => false

theorem base_issues : Issues base c0 := issues_of (by decide +kernel)

theorem ctlBase_issues : IssuesCtl ctlBase 0 ctl0 := ⟨by decide +kernel, by decide +kernel⟩

/-! ### Who may issue: every instruction has a state and operands that meet the hypotheses on its turn -/

def laneArithForms : List (Instr × IssueInfo) :=
  [(.mov ⟨true, 5, 9⟩, laneInfo true),
   (.specialMov ⟨false, 4, .tid⟩, laneInfo false),
   (.movi ⟨false, 3, -2⟩, laneInfo false),
   (.moviw ⟨false, 3, 0x12345⟩, laneInfo false),
   (.iaddi ⟨false, 7, 8, -3⟩, laneInfo false),
   (.lea ⟨false, (some ⟨false, 3⟩), .n16, 10, 12, 5, 2, -8⟩, laneInfo false),
   (.iadd ⟨false, none, .i32, true, 5, 6, .imm (-3)⟩, laneInfo false),
   (.isub ⟨false, none, .n64, false, 4, 6, .reg 8⟩, laneInfo false),
   (.imul ⟨false, (some ⟨false, 1⟩), .n32, .hi, 8, 9, .reg 10⟩, laneInfo false),
   (.imad ⟨false, none, .i8, true, 1, 2, .reg 3, 4⟩, laneInfo false),
   (.imin ⟨false, none, .i16, 1, 2, .imm 7⟩, laneInfo false),
   (.imax ⟨false, none, .i16, 1, 2, .reg 3⟩, laneInfo false),
   (.iabs ⟨true, none, .i64, true, 2, 4⟩, laneInfo true),
   (.shl ⟨false, none, .n32, 2, 1, .imm 2⟩, laneInfo false),
   (.shr ⟨false, none, .n8, 2, 1, .reg 3⟩, laneInfo false),
   (.sha ⟨false, (some ⟨true, 7⟩), .i32, 2, 1, .reg 3⟩, laneInfo false),
   (.and ⟨false, none, .n64, 2, 4, .imm (-1)⟩, laneInfo false),
   (.or ⟨false, none, .n16, 2, 4, .reg 6⟩, laneInfo false),
   (.xor ⟨false, none, .i8, 2, 4, .reg 6⟩, laneInfo false),
   (.bfx ⟨false, none, .n32, 2, 4, .imm 9 5⟩, laneInfo false),
   (.bfi ⟨false, none, .i64, 2, 4, .reg 6, 8⟩, laneInfo false),
   (.popc ⟨false, none, .n64, 3, 4⟩, laneInfo false),
   (.clz ⟨false, none, .i16, 3, 4⟩, laneInfo false),
   (.icmp ⟨false, none, .i32, .lt, 2, 4, .imm 7⟩, laneInfo false),
   (.fcmp ⟨false, none, .f32, .geu, true, 5, 4, 6⟩, laneInfo false),
   (.fclass ⟨false, none, .f64, 6, 4, 0x2A5⟩, laneInfo false),
   (.qset ⟨false, none, 3, .bit .n16 9 15⟩, laneInfo false),
   (.qset ⟨false, none, 4, .set⟩, laneInfo false),
   (.qop ⟨false, .andn, 1, 2, 3⟩, laneInfo false),
   (.sel ⟨false, none, false, true, 5, 1, 2, .reg 3⟩, laneInfo false),
   (.fadd ⟨false, none, .f16, .rz, true, 1, 2, 3⟩, laneInfo false),
   (.fsub ⟨false, none, .f64, .rd, false, 2, 4, 6⟩, laneInfo false),
   (.ffma ⟨true, (some ⟨true, 2⟩), .f32, .rn, false, 10, 11, 12, 13⟩, laneInfo true),
   (.fmul ⟨false, none, .bf16, .ru, false, 1, 2, 3⟩, laneInfo false),
   (.fmin ⟨false, none, .f32, false, 1, 2, 3⟩, laneInfo false),
   (.fmax ⟨false, none, .f32, true, 1, 2, 3⟩, laneInfo false),
   (.frcp ⟨false, none, .f32, .rna, false, 1, 2⟩, laneInfo false),
   (.fsqrt ⟨false, none, .f64, .rn, false, 2, 4⟩, laneInfo false),
   (.frsq ⟨false, none, .f16, .rn, true, 1, 2⟩, laneInfo false),
   (.fexp2 ⟨false, none, .f32, .rz, false, 1, 2⟩, laneInfo false),
   (.flog2 ⟨false, none, .bf16, .rn, false, 1, 2⟩, laneInfo false),
   (.cvt ⟨false, none, .one (.fltInt .f32 .i32 .rna false), 4, 6⟩, laneInfo false),
   (.cvt ⟨false, none, .one (.intInt .n16 .i8 .rn true), 4, 6⟩, laneInfo false),
   (.cvt ⟨false, none, .quant .f32 .bq8 3, 8, 32⟩, laneInfo false),
   (.pack ⟨false, none, .i16, true, 1, 2, 3⟩, laneInfo false)]

def laneArithForms1 : List (Instr × IssueInfo) :=
  [(.unpk ⟨false, none, .n16, 4, 1, true⟩, laneInfo false),
   (.shfl ⟨false, none, .down, .oct, false, 5, 4, .imm 1⟩, laneInfo false),
   (.vote ⟨false, none, .win, .ballot 9, 2⟩, laneInfo false),
   (.vote ⟨false, none, .quad, .allQ 6, 2⟩, laneInfo false),
   (.red ⟨false, none, .win, .int .n32 .add, 6, 4⟩, laneInfo false),
   (.red ⟨false, none, .fix, .fadd .f32 .rn false, 7, 6⟩, laneInfo false),
   (.scan ⟨false, none, .any, true, .int .i32 .max, 6, 4⟩, laneInfo false),
   (.brd ⟨true, 1, false, 2, 4⟩, laneInfo true),
   (.join ⟨false, 2⟩, laneInfo false)]

def laneMemForms : List (Instr × IssueInfo) :=
  [(.ld ⟨false, none, .flt .f32, .x1, 20, ⟨4, .none, 0x10⟩⟩, laneMemInfo false),
   (.st ⟨false, none, .int .n32, .x1, 6, ⟨7, .zext 2, 0⟩⟩, laneMemInfo false),
   (.ld ⟨false, none, .int .n32, .x4, 8, ⟨7, .pair 2, -1⟩⟩, laneMemInfo false),
   (.ldg ⟨false, none, .int .n64, 6, ⟨9, 3, .w16, true, 3, 2⟩⟩, laneMemInfo false),
   (.stg ⟨false, none, .int .n8, 6, ⟨9, 3, .w32, false, 0, 0⟩⟩, laneMemInfo false),
   (.ldgRow ⟨false, none, .bf16, 32, ⟨8, 2, .w32, false, 5, 0⟩⟩, laneMemInfo false),
   (.pft ⟨false, none, ⟨6, .sext 2, 5⟩⟩, laneMemInfo false),
   (.lda ⟨false, none, .int .n32, .x2, 4, ⟨6, .sext 2, 0⟩⟩, laneMemInfo false),
   (.sta ⟨false, none, .int .i64, .x1, 4, ⟨6, .none, 1⟩⟩, laneMemInfo false),
   (.ldaTile ⟨false, none, .int .n32, .x1, 4, ⟨6, .none, 1⟩⟩, laneMemInfo false),
   (.staTile ⟨false, none, .flt .f16, .x1, 4, ⟨6, .zext 9, 1⟩⟩, laneMemInfo false),
   (.ldl ⟨false, none, false, .int .n32, .x1, 4, ⟨4, .zext 2, 1⟩⟩, laneMemInfo false),
   (.stl ⟨false, none, true, .int .n32, .x1, 3, ⟨4, .zext 2, 0x40⟩⟩, laneMemInfo false),
   (.fill ⟨false, none, .b64, .ls, 3, some 9, ⟨4, .zext 2, 1⟩⟩, laneMemInfo false),
   (.mma ⟨false, none, .bf16, true, false, 32, 4, 5⟩, laneMemInfo false),
   (.mmas ⟨false, none, .bf16, .sp24, false, false, 32, 4, 5, 64⟩, laneMemInfo false),
   (.spk ⟨false, none, .i8, .sp48, 64, 3, 7⟩, laneMemInfo false),
   (.mzero ⟨false, none, .f64, 2, 7⟩, laneMemInfo false),
   (.mdrn ⟨false, none, .f16 .rz, .bf16, true, 1, 16, 7⟩, laneMemInfo false),
   (.mdrn ⟨false, none, .bq8 3, .f16, false, 1, 16, 7⟩, laneMemInfo false),
   (.mdrnMem ⟨false, none, .i32, .i8, false, 16, 7⟩, laneMemInfo false),
   (.mdrnPeer ⟨false, none, true, false, .bf16, 6, 7⟩, laneMemInfo false)]

def otherForms : List (Instr × IssueInfo) :=
  [(.atom ⟨false, none, true, .int .add .n32, .pkg, 8, ⟨6, .zext 2, 2⟩⟩, ⟨.lane, false, true, false, true⟩),
   (.atom ⟨false, none, false, .fadd64, .sys 5, 8, ⟨6, .sext 2, 0⟩⟩, ⟨.lane, false, true, false, true⟩),
   (.sld ⟨false, 7, 4, .n32, 3⟩, uniMemInfo false false),
   (.sst ⟨false, 7, 4, .d64, -1⟩, uniMemInfo false false),
   (.satom ⟨false, none, false, .int .add .n64, .pkg, 23, 0, 15, 0x20⟩, uniMemInfo false false),
   (.acq ⟨false, .pkg, 3⟩, fenceInfo false),
   (.acqAll ⟨false, .pkg⟩, fenceInfo false),
   (.rel ⟨false, .die⟩, fenceInfo true),
   (.rel ⟨false, .sys 9⟩, fenceInfo true),
   (.cln ⟨false, none, .l1, 5, 6⟩, uniMemInfo false false),
   (.inv ⟨false, (some ⟨false, 1⟩), .home, 5, 6⟩, uniMemInfo false false),
   (.civ ⟨false, none, .mem, 5, 6⟩, uniMemInfo false false),
   (.rgn ⟨false, 15, 5, 6⟩, uniMemInfo false false),
   (.exit ⟨false⟩, ⟨.compute, true, true, true, false⟩),
   (.yieldSlot ⟨false⟩, ⟨.both, true, false, false, false⟩),
   (.setwImmediate ⟨false, 128⟩, setwInfo),
   (.setwRImmediate ⟨false, 64⟩, setwInfo),
   (.setwRegister ⟨false, 1⟩, setwInfo),
   (.setwRRegister ⟨false, 1⟩, setwInfo),
   (.endw ⟨false⟩, setwInfo),
   (.bar ⟨false, 3⟩, barInfo true),
   (.barArr ⟨false, 3⟩, barInfo true),
   (.barWait ⟨false, 3⟩, barInfo false),
   (.gbar ⟨false⟩, barInfo true),
   (.mbarInit ⟨false, none, 6, 7⟩, mbarInfo false false),
   (.mbarArm ⟨false, none, 6, 7⟩, mbarInfo false false),
   (.mbarArr ⟨false, (some ⟨false, 3⟩), .blk, 6⟩, mbarInfo false true),
   (.mbarWait ⟨false, none, .pkg, 5, 6, 7⟩, mbarInfo true false),
   (.bclose ⟨false⟩, ⟨.both, false, true, false, false⟩),
   (.bwaitImmediate ⟨false, 0xFFFF⟩, bwaitInfo false),
   (.bwaitRegister ⟨false, 9⟩, bwaitInfo false),
   (.ecpy ⟨false, none, .pkg, 5, 6⟩, uniMemInfo false true),
   (.epub ⟨false, none, .sys 2, 5, 6⟩, uniMemInfo false true),
   (.ecoll ⟨false, none, .sys 15, 5, 6⟩, uniMemInfo false true),
   (.spawn ⟨false, none, 2, 3, 4⟩, compInfo false true),
   (.enq ⟨false, none, .pkg, 3, 4, 5, 7⟩, uniMemInfo false true),
   (.deq ⟨false, none, .pkg, 6, 4, 7, 7⟩, uniMemInfo false false),
   (.cdec ⟨false, none, true, .pkg, 1, 2, 3⟩, uniMemInfo false true),
   (.cinc ⟨false, none, false, .die, 1, 2, 3⟩, uniMemInfo false false),
   (.tdef ⟨false, none, 1, 2, 3⟩, compInfo false true),
   (.tseal ⟨false, 1, 2⟩, compInfo false false),
   (.tdrop ⟨false, 1, 2⟩, compInfo false false),
   (.thold ⟨false, 1, 2⟩, compInfo false false),
   (.tfree ⟨false, 1, 2⟩, compInfo false false),
   (.tfence ⟨false⟩, trapInfo true)]

def otherForms1 : List (Instr × IssueInfo) :=
  [(.trap ⟨false, 0x1234⟩, trapInfo false),
   (.trapBreak ⟨false, 0x1234⟩, trapInfo false),
   (.rte ⟨false⟩, trapInfo false),
   (.csrr ⟨false, 3, 0x010⟩, csrInfo false),
   (.csrr ⟨false, 3, 0x040⟩, csrInfo false),
   (.csrw ⟨false, 5, 0x044⟩, csrInfo false),
   (.csrwSet ⟨false, 5, 0x044⟩, csrInfo false),
   (.csrwClr ⟨false, 7, 0x010⟩, csrInfo false)]

def uniformForms : List (Instr × IssueInfo) :=
  [(.iopIadd ⟨false, 1, 2, 3⟩, bothInfo false),
   (.iopIsub ⟨false, 1, 2, 3⟩, bothInfo false),
   (.iopImul ⟨false, 1, 2, 3⟩, bothInfo false),
   (.iopIminI64 ⟨false, 1, 2, 3⟩, bothInfo false),
   (.iopImaxI64 ⟨false, 1, 2, 3⟩, bothInfo false),
   (.iopIminN64 ⟨false, 1, 2, 3⟩, bothInfo false),
   (.iopImaxN64 ⟨false, 1, 2, 3⟩, bothInfo false),
   (.iopAnd ⟨false, 1, 2, 3⟩, bothInfo false),
   (.iopOr ⟨false, 1, 2, 3⟩, bothInfo false),
   (.iopXor ⟨false, 1, 2, 3⟩, bothInfo false),
   (.iopShl ⟨false, 1, 2, 3⟩, bothInfo false),
   (.iopShr ⟨false, 1, 2, 3⟩, bothInfo false),
   (.iopSha ⟨false, 1, 2, 3⟩, bothInfo false),
   (.iopIabs ⟨false, 1, 2⟩, bothInfo false),
   (.iopPopc ⟨false, 1, 2⟩, bothInfo false),
   (.iopClz ⟨false, 1, 2⟩, bothInfo false),
   (.iopMov ⟨false, 1, 2⟩, bothInfo false),
   (.iopiIadd ⟨false, 1, 2, -3⟩, bothInfo false),
   (.iopiIsub ⟨false, 1, 2, -3⟩, bothInfo false),
   (.iopiImul ⟨false, 1, 2, -3⟩, bothInfo false),
   (.iopiIminI64 ⟨false, 1, 2, -3⟩, bothInfo false),
   (.iopiImaxI64 ⟨false, 1, 2, -3⟩, bothInfo false),
   (.iopiIminN64 ⟨false, 1, 2, -3⟩, bothInfo false),
   (.iopiImaxN64 ⟨false, 1, 2, -3⟩, bothInfo false),
   (.iopiAnd ⟨false, 1, 2, -3⟩, bothInfo false),
   (.iopiOr ⟨false, 1, 2, -3⟩, bothInfo false),
   (.iopiXor ⟨false, 1, 2, -3⟩, bothInfo false),
   (.iopiShl ⟨false, 1, 2, -3⟩, bothInfo false),
   (.iopiShr ⟨false, 1, 2, -3⟩, bothInfo false),
   (.iopiSha ⟨false, 1, 2, -3⟩, bothInfo false),
   (.iopiMovi ⟨false, 9, -1⟩, bothInfo false),
   (.iopwIadd ⟨false, 1, 2, 0x12345678⟩, bothInfo false),
   (.iopwIsub ⟨false, 1, 2, 0x12345678⟩, bothInfo false),
   (.iopwImul ⟨false, 1, 2, 0x12345678⟩, bothInfo false),
   (.iopwIminI64 ⟨false, 1, 2, 0x12345678⟩, bothInfo false),
   (.iopwImaxI64 ⟨false, 1, 2, 0x12345678⟩, bothInfo false),
   (.iopwIminN64 ⟨false, 1, 2, 0x12345678⟩, bothInfo false),
   (.iopwImaxN64 ⟨false, 1, 2, 0x12345678⟩, bothInfo false),
   (.iopwAnd ⟨false, 1, 2, 0x12345678⟩, bothInfo false),
   (.iopwOr ⟨false, 1, 2, 0x12345678⟩, bothInfo false),
   (.iopwXor ⟨false, 1, 2, 0x12345678⟩, bothInfo false),
   (.iopwShl ⟨false, 1, 2, 0x12345678⟩, bothInfo false),
   (.iopwShr ⟨false, 1, 2, 0x12345678⟩, bothInfo false),
   (.iopwSha ⟨false, 1, 2, 0x12345678⟩, bothInfo false),
   (.iopwMovi ⟨false, 9, 0x7FFF0000⟩, bothInfo false)]

def uniformForms1 : List (Instr × IssueInfo) :=
  [(.fopFadd ⟨false, (some ⟨true, 2⟩), .f64, .ru, true, 1, 2, 3⟩, bothInfo false),
   (.fopFsub ⟨false, (some ⟨true, 2⟩), .f64, .ru, true, 1, 2, 3⟩, bothInfo false),
   (.fopFmul ⟨false, (some ⟨true, 2⟩), .f64, .ru, true, 1, 2, 3⟩, bothInfo false),
   (.fopFfma ⟨false, none, .f32, .rn, false, 4, 5, 6, 7⟩, bothInfo false),
   (.fopFmin ⟨false, none, .f16, false, 1, 2, 3⟩, bothInfo false),
   (.fopFmax ⟨false, none, .f16, true, 1, 2, 3⟩, bothInfo false),
   (.fopFrcp ⟨false, none, .f32, .rd, false, 1, 2⟩, bothInfo false),
   (.fopFsqrt ⟨false, none, .f32, .rd, false, 1, 2⟩, bothInfo false),
   (.fopFrsq ⟨false, none, .f32, .rd, false, 1, 2⟩, bothInfo false),
   (.fopFexp2 ⟨false, none, .f32, .rd, false, 1, 2⟩, bothInfo false),
   (.fopFlog2 ⟨false, none, .f32, .rd, false, 1, 2⟩, bothInfo false),
   (.fopCvt ⟨false, none, .intFlt .n64 .f32 .rz false, 1, 2⟩, bothInfo false),
   (.cmpkIcmp ⟨false, none, .n8, .ge, 2, 5, 6⟩, bothInfo false),
   (.cmpkFcmp ⟨false, none, .f32, .un, false, 3, 5, 6⟩, bothInfo false),
   (.cmpkFclass ⟨false, none, .f32, 1, 5, 0x1F3⟩, bothInfo false),
   (.prkQop ⟨false, .xnor, 1, 2, 3⟩, bothInfo false),
   (.prkQset ⟨false, 1, .nz 9⟩, bothInfo false)]

def uniform2Forms : List (Instr × IssueInfo) :=
  [(.bra ⟨false, -6⟩, jumpInfo false),
   (.call ⟨true, 9⟩, jumpInfo true),
   (.brc ⟨false, 2, true, -1⟩, jumpInfo false),
   (.braRegister ⟨false, 9⟩, jumpInfo false),
   (.callRegister ⟨false, 9⟩, jumpInfo false),
   (.ret ⟨false, 63⟩, jumpInfo false)]

theorem test_ready_laneArithForms : Issues base c0 ∧ ∀ p ∈ laneArithForms, Ready base c0 p.1 p.2 := ⟨base_issues, forms_ready (by decide +kernel)⟩

theorem test_ready_laneArithForms1 : Issues base c0 ∧ ∀ p ∈ laneArithForms1, Ready base c0 p.1 p.2 := ⟨base_issues, forms_ready (by decide +kernel)⟩

theorem test_ready_laneMemForms : Issues base c0 ∧ ∀ p ∈ laneMemForms, Ready base c0 p.1 p.2 := ⟨base_issues, forms_ready (by decide +kernel)⟩

theorem test_ready_otherForms : Issues base c0 ∧ ∀ p ∈ otherForms, Ready base c0 p.1 p.2 := ⟨base_issues, forms_ready (by decide +kernel)⟩

theorem test_ready_otherForms1 : Issues base c0 ∧ ∀ p ∈ otherForms1, Ready base c0 p.1 p.2 := ⟨base_issues, forms_ready (by decide +kernel)⟩

theorem test_ready_uniformForms : Issues base c0 ∧ ∀ p ∈ uniformForms, Ready base c0 p.1 p.2 := ⟨base_issues, forms_ready (by decide +kernel)⟩

theorem test_ready_uniformForms1 : Issues base c0 ∧ ∀ p ∈ uniformForms1, Ready base c0 p.1 p.2 := ⟨base_issues, forms_ready (by decide +kernel)⟩

theorem test_ready_uniform2Forms : Issues base c0 ∧ ∀ p ∈ uniform2Forms, Ready base c0 p.1 p.2 := ⟨base_issues, forms_ready (by decide +kernel)⟩

def ctlForms : List Instr :=
  [.iopIadd ⟨false, 1, 2, 3⟩,
   .iopIsub ⟨false, 1, 2, 3⟩,
   .iopImul ⟨false, 1, 2, 3⟩,
   .iopIminI64 ⟨false, 1, 2, 3⟩,
   .iopImaxI64 ⟨false, 1, 2, 3⟩,
   .iopIminN64 ⟨false, 1, 2, 3⟩,
   .iopImaxN64 ⟨false, 1, 2, 3⟩,
   .iopAnd ⟨false, 1, 2, 3⟩,
   .iopOr ⟨false, 1, 2, 3⟩,
   .iopXor ⟨false, 1, 2, 3⟩,
   .iopShl ⟨false, 1, 2, 3⟩,
   .iopShr ⟨false, 1, 2, 3⟩,
   .iopSha ⟨false, 1, 2, 3⟩,
   .iopIabs ⟨false, 1, 2⟩,
   .iopPopc ⟨false, 1, 2⟩,
   .iopClz ⟨false, 1, 2⟩,
   .iopMov ⟨false, 1, 2⟩,
   .iopiIadd ⟨false, 1, 2, -3⟩,
   .iopiIsub ⟨false, 1, 2, -3⟩,
   .iopiImul ⟨false, 1, 2, -3⟩,
   .iopiIminI64 ⟨false, 1, 2, -3⟩,
   .iopiImaxI64 ⟨false, 1, 2, -3⟩,
   .iopiIminN64 ⟨false, 1, 2, -3⟩,
   .iopiImaxN64 ⟨false, 1, 2, -3⟩,
   .iopiAnd ⟨false, 1, 2, -3⟩,
   .iopiOr ⟨false, 1, 2, -3⟩,
   .iopiXor ⟨false, 1, 2, -3⟩,
   .iopiShl ⟨false, 1, 2, -3⟩,
   .iopiShr ⟨false, 1, 2, -3⟩,
   .iopiSha ⟨false, 1, 2, -3⟩,
   .iopiMovi ⟨false, 9, -1⟩,
   .iopwIadd ⟨false, 1, 2, 0x12345678⟩,
   .iopwIsub ⟨false, 1, 2, 0x12345678⟩,
   .iopwImul ⟨false, 1, 2, 0x12345678⟩,
   .iopwIminI64 ⟨false, 1, 2, 0x12345678⟩,
   .iopwImaxI64 ⟨false, 1, 2, 0x12345678⟩,
   .iopwIminN64 ⟨false, 1, 2, 0x12345678⟩,
   .iopwImaxN64 ⟨false, 1, 2, 0x12345678⟩,
   .iopwAnd ⟨false, 1, 2, 0x12345678⟩,
   .iopwOr ⟨false, 1, 2, 0x12345678⟩,
   .iopwXor ⟨false, 1, 2, 0x12345678⟩,
   .iopwShl ⟨false, 1, 2, 0x12345678⟩,
   .iopwShr ⟨false, 1, 2, 0x12345678⟩,
   .iopwSha ⟨false, 1, 2, 0x12345678⟩,
   .iopwMovi ⟨false, 9, 0x7FFF0000⟩]

def ctlForms1 : List Instr :=
  [.fopFadd ⟨false, (some ⟨true, 2⟩), .f64, .ru, true, 1, 2, 3⟩,
   .fopFsub ⟨false, (some ⟨true, 2⟩), .f64, .ru, true, 1, 2, 3⟩,
   .fopFmul ⟨false, (some ⟨true, 2⟩), .f64, .ru, true, 1, 2, 3⟩,
   .fopFfma ⟨false, none, .f32, .rn, false, 4, 5, 6, 7⟩,
   .fopFmin ⟨false, none, .f16, false, 1, 2, 3⟩,
   .fopFmax ⟨false, none, .f16, true, 1, 2, 3⟩,
   .fopFrcp ⟨false, none, .f32, .rd, false, 1, 2⟩,
   .fopFsqrt ⟨false, none, .f32, .rd, false, 1, 2⟩,
   .fopFrsq ⟨false, none, .f32, .rd, false, 1, 2⟩,
   .fopFexp2 ⟨false, none, .f32, .rd, false, 1, 2⟩,
   .fopFlog2 ⟨false, none, .f32, .rd, false, 1, 2⟩,
   .fopCvt ⟨false, none, .intFlt .n64 .f32 .rz false, 1, 2⟩,
   .cmpkIcmp ⟨false, none, .n8, .ge, 2, 5, 6⟩,
   .cmpkFcmp ⟨false, none, .f32, .un, false, 3, 5, 6⟩,
   .cmpkFclass ⟨false, none, .f32, 1, 5, 0x1F3⟩,
   .prkQop ⟨false, .xnor, 1, 2, 3⟩,
   .prkQset ⟨false, 1, .nz 9⟩,
   .sld ⟨false, 7, 4, .n32, 3⟩,
   .sst ⟨false, 7, 4, .d64, -1⟩,
   .satom ⟨false, none, false, .int .add .n64, .pkg, 23, 0, 15, 0x20⟩,
   .acq ⟨false, .pkg, 3⟩,
   .acqAll ⟨false, .pkg⟩,
   .rel ⟨false, .die⟩,
   .rel ⟨false, .sys 9⟩,
   .cln ⟨false, none, .l1, 5, 6⟩,
   .inv ⟨false, (some ⟨false, 1⟩), .home, 5, 6⟩,
   .civ ⟨false, none, .mem, 5, 6⟩,
   .rgn ⟨false, 15, 5, 6⟩,
   .bra ⟨false, -6⟩,
   .call ⟨true, 9⟩,
   .brc ⟨false, 2, true, -1⟩,
   .braRegister ⟨false, 9⟩,
   .callRegister ⟨false, 9⟩,
   .ret ⟨false, 63⟩,
   .yieldSlot ⟨false⟩,
   .bclose ⟨false⟩,
   .bwaitImmediate ⟨false, 0xFFFF⟩,
   .bwaitRegister ⟨false, 9⟩,
   .ecpy ⟨false, none, .pkg, 5, 6⟩,
   .epub ⟨false, none, .sys 2, 5, 6⟩,
   .ecoll ⟨false, none, .sys 15, 5, 6⟩,
   .enq ⟨false, none, .pkg, 3, 4, 5, 7⟩,
   .deq ⟨false, none, .pkg, 6, 4, 7, 7⟩,
   .cdec ⟨false, none, true, .pkg, 1, 2, 3⟩,
   .cinc ⟨false, none, false, .die, 1, 2, 3⟩]

def ctlForms2 : List Instr :=
  [.csrr ⟨false, 3, 0x010⟩,
   .csrr ⟨false, 3, 0x040⟩,
   .csrw ⟨false, 5, 0x044⟩,
   .csrwSet ⟨false, 5, 0x044⟩,
   .csrwClr ⟨false, 7, 0x010⟩,
   .svc ⟨false, 1⟩,
   .eret ⟨false⟩,
   .tlbiPage ⟨false, 2, 3⟩,
   .tlbiAsid ⟨false, 2⟩,
   .tlbiAll ⟨false⟩,
   .ctxi ⟨false, 2⟩,
   .keysetLoad ⟨false, none, 1, 2, 3⟩,
   .keysetGen ⟨false, none, 1, 2⟩,
   .keysetErase ⟨false, none, 1, 2⟩,
   .halt ⟨false⟩]

theorem test_ready_ctlForms : IssuesCtl ctlBase 0 ctl0 ∧ ctlMayRelease ctlBase 0 = true ∧ ∀ i ∈ ctlForms, i.wf = true := ⟨ctlBase_issues, by decide +kernel, by decide +kernel⟩

theorem test_ready_ctlForms1 : IssuesCtl ctlBase 0 ctl0 ∧ ctlMayRelease ctlBase 0 = true ∧ ∀ i ∈ ctlForms1, i.wf = true := ⟨ctlBase_issues, by decide +kernel, by decide +kernel⟩

theorem test_ready_ctlForms2 : IssuesCtl ctlBase 0 ctl0 ∧ ctlMayRelease ctlBase 0 = true ∧ ∀ i ∈ ctlForms2, i.wf = true := ⟨ctlBase_issues, by decide +kernel, by decide +kernel⟩

/-- Accesses that pass their checks and whose loads, or stores, meet no race. -/
theorem ok_load {r : Checked × State} {w : Who} (h : okAnd r (fun l s1 => (loadAccs s1 w l).2.1.isNone) = true) :
    ∃ l s1, r = (.ok l, s1) ∧ (loadAccs s1 w l).2.1 = none := by
  obtain ⟨x, s1⟩ := r
  cases x <;> simp [okAnd] at h ⊢
  exact h

theorem ok_store {r : Checked × State} {w : Who} (h : okAnd r (fun l s1 => (storeAccs s1 w l).1.isNone) = true) :
    ∃ l s1, r = (.ok l, s1) ∧ (storeAccs s1 w l).1 = none := by
  obtain ⟨x, s1⟩ := r
  cases x <;> simp [okAnd] at h ⊢
  exact h

/-- Accesses that pass their checks, with a property of their translations. -/
theorem ok_with {r : Checked × State} {p : List (Acc × Nat × Nat) → State → Bool} (h : okAnd r p = true) :
    ∃ l s1, r = (.ok l, s1) ∧ p l s1 = true := by
  obtain ⟨x, s1⟩ := r
  cases x <;> simp [okAnd] at h ⊢
  exact h

/-! ### Arithmetic -/

theorem test_hyp_OperandsAndElements : IntTy.n16.width < 32 ∧ FTy.bf16.width < 32 ∧ 32 ≤ (ElemTy.flt .f64).width ∧
    1 < ([1, 2, 3, 4, 5, 6, 7, 8] : List Byte).length / 4 := by decide

theorem test_hyp_RegistersAndThreads : (Group.interlocked { gr0 with interlocked := true }) = true ∧ RegKey.real (.v 7 255) = true ∧
    RegKey.real (.q 7 7) = true ∧ (∀ p ∈ [(RegKey.v 0 0, (1 : DWord)), (.q 0 0, 1), (.s 63, 5), (.k 3, 1)], p.1.real = true) := by
  decide

theorem test_hyp_FloatingValues : FVal.isFin (.fin true 3 (-1)) = true ∧ FVal.isFin (.fin false 0 0) = true ∧
    (0xFBFF : Nat) < 2 ^ FTy.f16.width ∧ (fDecode .f16 0xFBFF).isNan = false ∧ (fDecode .f16 1).isNan = false ∧
    ((fDecode .f32 0x7FC00001).isNan || (fDecode .f32 0).isNan) = true ∧
    ((fDecode .f64 0x7FF0000000000001).isNan || (fDecode .f64 0).isNan) = true := by decide +kernel

/-- -2.5 and 1, and the zeros: neither sum, difference nor product of the first two is 0. -/
theorem test_hyp_FloatingValues_sums : FVal.rat (fDecode .f32 0xC0200000) = -5 / 2 ∧ FVal.rat (fDecode .f32 0x3F800000) = 1 ∧
    FVal.rat (fDecode .f32 0x80000000) = 0 ∧ FVal.rat (fDecode .f32 0) = 0 ∧ 0x3F800000 < signWeight .f32 ∧ signWeight .f32 ≤ 0x80000000 ∧ 0xC0200000 < 2 ^ FTy.width .f32 := by
  have h1 : fDecode .f32 0xC0200000 = .fin true 0xA00000 (-22) := by decide +kernel
  have h2 : fDecode .f32 0x3F800000 = .fin false 0x800000 (-23) := by decide +kernel
  have h3 : fDecode .f32 0x80000000 = .fin true 0 (-149) := by decide +kernel
  have h4 : fDecode .f32 0 = .fin false 0 (-149) := by decide +kernel
  rw [h1, h2, h3, h4]
  refine ⟨?_, ?_, ?_, ?_, by decide +kernel, by decide +kernel, by decide +kernel⟩ <;> norm_num [FVal.rat]

/-- -2.5 below 1, and -0 below +0. -/
theorem test_hyp_FloatingInstructions_order : FVal.rat (fDecode .f32 0xC0200000) < 0 ∧ selectsLess .f32 0xC0200000 0x3F800000 ∧ selectsLess .f32 0x80000000 0 := by
  obtain ⟨h1, h2, h3, h4, -, h5, -⟩ := test_hyp_FloatingValues_sums
  refine ⟨by rw [h1]; norm_num, .inl (by rw [h1, h2]; norm_num), .inr ⟨h3.trans h4.symm, h5⟩⟩

/-- A root that is a rational number, and one that is not. -/
theorem test_hyp_FloatingInstructions_roots : (fDecode .f32 0x3F800000).isFin = true ∧ FVal.rat (fDecode .f32 0x3F800000) ≠ 0 ∧ 0 < FVal.rat (fDecode .f32 0x3F800000) ∧
    (0 < (1 : ℚ) ∧ 1 * 1 = FVal.rat (fDecode .f32 0x3F800000)) ∧ (fDecode .f32 0x40000000).isFin = true ∧ ∀ x : ℚ, x * x ≠ FVal.rat (fDecode .f32 0x40000000) := by
  have h : fDecode .f32 0x40000000 = .fin false 0x800000 (-22) := by decide +kernel
  have h2 : FVal.rat (fDecode .f32 0x40000000) = 2 := by rw [h]; norm_num [FVal.rat]
  rw [test_hyp_FloatingValues_sums.2.1, h2]
  refine ⟨by decide +kernel, by norm_num, by norm_num, by norm_num, by decide +kernel, fun x hx => ?_⟩
  refine irrational_sqrt_two ⟨|x|, ?_⟩
  rw [Rat.cast_abs, ← Real.sqrt_mul_self_eq_abs, ← Rat.cast_mul, hx, Rat.cast_ofNat]

theorem test_hyp_FloatingInstructions : (fDecode .f32 0x80000000).isFin = true ∧ (fDecode .f32 0x7F7FFFFF).isFin = true ∧
    ((fDecode .bf16 0x7FC0).isNan || (fDecode .bf16 0).isNan) = true := by decide +kernel

theorem test_hyp_Conversions : (fDecode .f32 0x7F800001).isNan = true ∧ (fDecode .f16 0x7E00).isNan = true ∧
    packBits .f16 = 16 ∧ packBits .i16 = 16 ∧ packBits .n16 = 16 ∧ packSigned .n16 = false := by decide +kernel

/-- -2.5 in every mode. -/
theorem test_hyp_Conversions_round : ∀ p ∈ [(Rnd.rn, (-2 : Int)), (.rna, -3), (.rz, -2), (.rd, -3), (.ru, -2)], TakesInt p.1 (FVal.rat (fDecode .f32 0xC0200000)) p.2 := by
  have h : ⌊(-5 / 2 : ℚ)⌋ = -3 ∧ ⌈(-5 / 2 : ℚ)⌉ = -2 := ⟨by norm_num [Int.floor_eq_iff], by norm_num [Int.ceil_eq_iff]⟩
  rw [test_hyp_FloatingValues_sums.1]
  simp only [List.forall_mem_cons, TakesInt, h.1, h.2]
  norm_num

/-- Blocks: of zeros; with an infinity beside 1; with its largest value in [2, 4). -/
theorem test_hyp_Conversions_blocks : number .n32 0 = 0 ∧ number .i32 5 ≠ 0 ∧ ([FVal.fin false 1 0, .nan false].any FVal.isNan) = true ∧
    (∀ x ∈ [FVal.fin true 0 4], x.rat = 0 ∧ ∀ n, x ≠ .inf n) ∧ ((∃ n, FVal.inf n ∈ [FVal.inf true, .fin false 1 0]) ∧ ∀ x ∈ [FVal.inf true, .fin false 1 0], |x.rat| < (2 : ℚ) ^ (128 : Int)) ∧
    ((∃ x ∈ [FVal.fin true 3 0, .fin false 1 0], (2 : ℚ) ^ (1 : Int) ≤ |x.rat|) ∧ ∀ x ∈ [FVal.fin true 3 0, .fin false 1 0], |x.rat| < (2 : ℚ) ^ (1 + 1 : Int)) := by
  refine ⟨by decide, by decide +kernel, by decide, ?_, ⟨⟨true, by simp⟩, ?_⟩, ⟨_, List.mem_cons_self, ?_⟩, ?_⟩ <;> simp [FVal.rat] <;> norm_num

/-- One conversion of each kind. -/
theorem test_hyp_Conversions_kinds : (CvtOp.mk false none (.one (.fltInt .f32 .i32 .rna false)) 7 5).kind = .one (.fltInt .f32 .i32 .rna false) ∧
    (CvtOp.mk false none (.quant .bf16 .bq4 9) 8 16).kind = .quant .bf16 .bq4 9 ∧ (CvtOp.mk false none (.dequant .bq8 .f16 .rn 9) 16 8).kind = .dequant .bq8 .f16 .rn 9 :=
  ⟨rfl, rfl, rfl⟩

theorem test_hyp_CrossLane : shflSource [0, 1, 2, 3] .down 4 0 1 ≠ 0 ∧
    (treeNode (.int .i32 .add) (fun j => some (j, 0)) 2 0).isSome = true ∧
    (treeNode (.int .i32 .min) (fun j => if j = 3 then none else some (j, 0)) 2 0).isSome = true ∧
    (treeNode (.int .n8 .max) (fun _ => some (255, 0)) 1 0).isSome = true ∧
    ([3, 5].Nodup ∧ (∀ u ∈ [3, 5], u / 8 = 7 / 8 ∧ u < 2 ^ Nat.log2 8) ∧ [3, 5].filter (fun u => u < 4 + 1) ≠ [] ∧ redIsInt (.fadd .f32 .rn false) = false ∧ redIsInt (.int .i32 .add) = true) ∧
    (treePrefix (.int .n32 .add) (fun j => some (j, 0)) 2 0 5 none).isSome = true := by decide +kernel

/-- Exclusive scans without a node: of the first thread, and of the first one of a window where threads below it are active. -/
theorem test_hyp_CrossLane_absent : let g := { gr0 with grant := 4 }
    g.size = 8 ∧ (ScanOp.mk false none .win true (.int .n32 .add) 9 8).ex = true ∧
    ([0, 4].all (fun th => decide (th < 2 ^ Nat.log2 g.size ∧ th % g.grant < 2 ^ Nat.log2 g.grant) && ([1, 4].all (fun u => !decide (u < th) || !decide (u / g.grant = th / g.grant))))) = true := by
  decide +kernel

/-! ### Memory -/

/-- Thread t holds 4 × t in v8, and s2 to s9 hold what the test says. -/
def grOf (s : Tab DWord) : Group :=
  { gr0 with s, v := (List.range 8).map (fun t => (t * 256 + 8, BitVec.ofNat 32 (4 * t))) }

def cV (s : Tab DWord) : Cx := cxOf (grOf s)
def sV (s : Tab DWord) : State := withGroup (grOf s)

def ldOp : MemOp := ⟨false, none, .int .n32, .x1, 20, ⟨4, .zext 8, 0⟩⟩
def offOp : MemOp := { ldOp with g := some ⟨false, 0⟩ }
def ldgOp : GatherOp := ⟨false, none, .int .n8, 20, ⟨4, 8, .w16, true, 1, 0⟩⟩

def memAccs (o : MemOp) (d : Cx) : List Acc :=
  (d.active 0 o.g).map (fun th => { tid := th, va := d.addr 0 th (accSize o.t o.c) o.a, n := accSize o.t o.c, data := [] })
def stAccs (o : MemOp) (d : Cx) : List Acc :=
  (d.active 0 o.g).map (fun th =>
    { tid := th, va := d.addr 0 th (accSize o.t o.c) o.a, n := accSize o.t o.c, data := d.storeData 0 th o.vt.toNat (accSize o.t o.c) })
def gatAccs (o : GatherOp) (d : Cx) : List Acc :=
  (d.active 0 o.g).map (fun th => { tid := th, va := d.gaddr 0 th (accSize o.t .x1) o.x, n := accSize o.t .x1, data := [] })

/-- The last words of the page, 0xFE0 to 0xFFC. -/
theorem test_hyp_LoadsAndStores_load : let s := sV [(4, 0xFE0)]; let c := cV [(4, 0xFE0)]
    (Issues s c ∧ Ready s c (.ld ldOp) (laneMemInfo false)) ∧ memAccs ldOp (c.begun false) ≠ [] ∧
    (∀ a ∈ memAccs ldOp (c.begun false), runMayLoad s c a = true) ∧
    ∃ l s1, checkAccs (started s c false) (c.begun false).who .load (memAccs ldOp (c.begun false)) = (.ok l, s1) ∧
      (loadAccs s1 (c.begun false).who l).2.1 = none :=
  ⟨turn_of (by decide +kernel), by decide +kernel, by decide +kernel, ok_load (by decide +kernel)⟩

/-- A recipe run of tile 3, whose record has the range 0xFE0 to 0xFFF; its words frozen where `frozen` says so. -/
def inRun (frozen : Bool) (gr : Group) : State := { withGroup gr with
  blocks := base.blocks.map (fun b => { b with tiles := b.tiles.set 3 { Tile.empty with state := .running, sources := [.range 0xFE0 32] } }),
  reg := if frozen then (List.range 8).map (fun i => (0x10001BF8 + i, .frozen 1)) else [] }
def runInfo0 : RunInfo := { tile := 3, depth := 1, chain := 0, cbLen := 16384, cb := [] }
def grRun : Group := { grOf [(4, 0xFE0)] with run := some runInfo0 }

/-- Words of the range that are frozen load; others are barred. -/
theorem test_hyp_LoadsAndStores_run : let c := cxOf grRun; let p : Instr × IssueInfo := (.ld ldOp, laneMemInfo false)
    ([true, false].all (fun fz => let s := inRun fz grRun
      issuesB s c && readyB s c p.1 p.2 && (memAccs ldOp (c.begun false)).all (runMayLoad s c) && okAnd (checkAccs (started s c false) (c.begun false).who .load (memAccs ldOp (c.begun false)))
        (fun l s1 => ((c.begun false).barred s1 l).isNone == fz && (loadAccs s1 (c.begun false).who l).2.1.isNone))) = true := by decide +kernel

theorem test_hyp_LoadsAndStores_gather : let s := sV []; let c := cV []
    (Issues s c ∧ Ready s c (.ldg ldgOp) (laneMemInfo false)) ∧
    ∃ l s1, checkAccs (started s c false) (c.begun false).who .load (gatAccs ldgOp (c.begun false)) = (.ok l, s1) ∧
      (loadAccs s1 (c.begun false).who l).2.1 = none :=
  ⟨turn_of (by decide +kernel), ok_load (by decide +kernel)⟩

theorem test_hyp_LoadsAndStores_store : let s := sV [(4, 0xFE0)]; let c := cV [(4, 0xFE0)]
    (Issues s c ∧ Ready s c (.st ldOp) (laneMemInfo false)) ∧ stAccs ldOp (c.begun false) ≠ [] ∧
    ∃ l s1, checkAccs (started s c false) (c.begun false).who .store (stAccs ldOp (c.begun false)) = (.ok l, s1) ∧
      (storeAccs s1 (c.begun false).who l).1 = none :=
  ⟨turn_of (by decide +kernel), by decide +kernel, ok_store (by decide +kernel)⟩

/-- No active thread under the guard. -/
theorem test_hyp_LoadsAndStores_none : let s := sV []; let c := cV []
    (Issues s c ∧ Ready s c (.ld offOp) (laneMemInfo false)) ∧ memAccs offOp (c.begun false) = [] :=
  ⟨turn_of (by decide +kernel), by decide +kernel⟩

/-- Misaligned at 2; not canonical at 2^56; not mapped at 0x1000, with the page awaited by another fragment already. -/
theorem test_hyp_AccessTraps : (Issues (sV [(4, 2)]) (cV [(4, 2)]) ∧ Ready (sV [(4, 2)]) (cV [(4, 2)]) (.ld ldOp) (laneMemInfo false)) ∧
    (Issues (sV [(4, 0x0100000000000000)]) (cV [(4, 0x0100000000000000)]) ∧
      Ready (sV [(4, 0x0100000000000000)]) (cV [(4, 0x0100000000000000)]) (.ld ldOp) (laneMemInfo false)) ∧
    ((memAccs ldOp (cV [(4, 2)])).find? (fun a => a.va.toNat % a.n != 0)).isSome = true ∧
    (∃ a s1, checkAccs (started (sV [(4, 0x0100000000000000)]) (cV [(4, 0x0100000000000000)]) false) (cV [(4, 0x0100000000000000)]).who .load
      (memAccs ldOp (cV [(4, 0x0100000000000000)])) = (.access a, s1)) := by
  refine ⟨turn_of (by decide +kernel), turn_of (by decide +kernel), by decide +kernel, ?_⟩
  generalize h : checkAccs _ _ _ _ = r
  have hb : (match r.1 with | .access _ => true | _ => false) = true := by rw [← h]; decide +kernel
  obtain ⟨x, s1⟩ := r
  cases x <;> simp at hb
  exact ⟨_, _, rfl⟩

/-- A fragment with another one's entry in the operand log. -/
def grPark : Group :=
  { grOf [(4, 0x1000)] with log := [{ id := 0, frag := 1, heirs := [], words := [], mask := 1, ipc := 0, req := { kind := .sst, accs := [] }, pages := [0x1000], dies := [], since := 0, byHandler := false, begun := none }] }

theorem test_hyp_AccessTraps_park : let s := withGroup grPark; let c := cxOf grPark
    (Issues s c ∧ Ready s c (.st ldOp) (laneMemInfo false)) ∧ c.gr.run = none ∧ c.gr.log.length < 4 ∧ logCount s c.gr.place < 64 ∧
    ∃ pages dies s1, checkAccs (started s c false) (c.begun false).who .store (stAccs ldOp (c.begun false)) = (.park pages dies, s1) ∧
      ∀ p ∈ pages, ∃ y ∈ c.gr.pages, samePage p.1 y = true := by
  refine ⟨turn_of (by decide +kernel), by decide +kernel, by decide +kernel, by decide +kernel, ?_⟩
  generalize h : checkAccs _ _ _ _ = r
  have hb : (match r.1 with | .park pages _ => pages.all (fun p => (cxOf grPark).gr.pages.any (fun y => samePage p.1 y)) | _ => false) = true := by
    rw [← h]; decide +kernel
  obtain ⟨x, s1⟩ := r
  cases x <;> simp at hb
  exact ⟨_, _, _, rfl, by simpa using hb⟩

/-- A page that no one waits on; an operand log that is full. -/
theorem test_hyp_AccessTraps_first : ([grOf [(4, 0x1000)], { grPark with log := grPark.log ++ grPark.log ++ grPark.log ++ grPark.log }].all (fun gr =>
      issuesB (withGroup gr) (cxOf gr) && readyB (withGroup gr) (cxOf gr) (.st ldOp) (laneMemInfo false) && gr.run.isNone &&
      (match (checkAccs (started (withGroup gr) (cxOf gr) false) (cxOf gr).who .store (stAccs ldOp (cxOf gr))).1 with
       | .park pages _ => !pages.isEmpty && (gr.log.length == 4 || pages.all (fun p => !gr.pages.any (samePage p.1)))
       | _ => false))) = true := by decide +kernel

/-- The last word of each window. -/
theorem test_hyp_WindowAccesses : let s := sV [(4, 65532 - 28)]; let c := cV [(4, 65532 - 28)]
    (Issues s c ∧ Ready s c (.lda ldOp) (laneMemInfo false)) ∧ (Issues s c ∧ Ready s c (.sta ldOp) (laneMemInfo false)) ∧
    (∀ a ∈ memAccs ldOp (c.begun false), a.va.toNat % a.n = 0 ∧ winInside s c.gr.block .ab a = true) ∧
    (∀ a ∈ memAccs ldOp (c.begun false), a.va.toNat % a.n = 0 ∧ lsInside s c.gr.block false a = true) ∧ c.gr.block < s.blocks.length :=
  ⟨turn_of (by decide +kernel), turn_of (by decide +kernel), by decide +kernel, by decide +kernel, by decide +kernel⟩

/-- `base` with the gang of its block. -/
def gang0 : Gang := { ctx := loadCtx, task := none, index := 0, blocks := [0], phase := false, marks := 0, saving := none }
def inGang (s : State) : State := { s with gangs := [gang0] }

theorem test_hyp_WindowAccesses_pool : let s := inGang (sV []); let c := cV []
    (Issues s c ∧ Ready s c (.stl ⟨false, none, true, .int .n32, .x1, 20, ⟨4, .zext 8, 0⟩⟩) (laneMemInfo false)) ∧
    (∀ a ∈ memAccs ldOp (c.begun false), a.va.toNat % a.n = 0 ∧ lsInside s c.gr.block true a = true) ∧
    ∀ a ∈ memAccs ldOp (c.begun false), (lsPlace s c.gr.block true a).1 < s.blocks.length :=
  ⟨turn_of (by decide +kernel), by decide +kernel, by decide +kernel⟩

def atomOp : AtomOp := ⟨false, none, false, .int .add .n32, .die, 20, ⟨4, .zext 8, 0⟩⟩

/-- Thread t holds 8 × t in v8. -/
def gr8 : Group := { gr0 with v := (List.range 8).map (fun t => (t * 256 + 8, BitVec.ofNat 32 (8 * t))) }

theorem test_hyp_Atomics : let s := withGroup gr8; let c := cxOf gr8; let n := atomBytes atomOp.kind
    let accs : List Acc := ((c.begun false).active 0 none).map (fun th =>
      { tid := th, va := (c.begun false).addr 0 th n atomOp.a, n, data := (c.begun false).atomData 0 th 20 atomOp.kind })
    (4294967295 < 2 ^ (AtomTy.intTy .i32).width) ∧
    (Issues s c ∧ Ready s c (.atom atomOp) { cls := .lane, w := false, touch := true, fence := false, rel := false && scopeOrders .die }) ∧
    accs ≠ [] ∧ ∃ l s1, checkAccs (started s c false) (c.begun false).who .atomic accs = (.ok l, s1) ∧
      (l.all (fun p => (raceWords s (c.begun false).who.agent p.1.va (p.2.1 / 4) (wordCount n)).isNone) && !sharesWord l &&
        l.all (fun p => l.all (fun q => !(p.2.1 / 64 == q.2.1 / 64) || p.2.2 == q.2.2))) = true :=
  ⟨by decide +kernel, turn_of (by decide +kernel), by decide +kernel, ok_with (by decide +kernel)⟩

def acc8 (va : DWord) (n : Nat) : Acc := { tid := 0, va, n, data := [] }

/-- A fragment and a control core, each with a word of the page at 0xFF8. -/
theorem test_hyp_UniformMemory : let s := sV [(4, 0xFF8)]; let c := cV [(4, 0xFF8)]
    (Issues s c ∧ Ready s c (.sld ⟨false, 7, 4, .d64, 0⟩) (uniMemInfo false false)) ∧
    (Issues s c ∧ Ready s c (.satom ⟨false, none, false, .int .cas .i64, .thread, 7, 4, 5, 0⟩) (uniMemInfo false false)) ∧
    (∃ l s1, checkAccs (started s c false) (c.begun false).who .load [acc8 0xFF8 8] = (.ok l, s1) ∧ (loadAccs s1 (c.begun false).who l).2.1 = none) ∧
    (∃ l s1, checkAccs (started s c false) (c.begun false).who .store [acc8 0xFF8 8] = (.ok l, s1) ∧ (storeAccs s1 (c.begun false).who l).1 = none) ∧
    (∃ l s1, checkAccs (started s c false) (c.begun false).who .atomic [acc8 0xFF8 8] = (.ok l, s1) ∧
      (l.length == 1 && l.all (fun p => (raceWords s c.who.agent p.1.va (p.2.1 / 4) 2).isNone)) = true) :=
  ⟨turn_of (by decide +kernel), turn_of (by decide +kernel), ok_load (by decide +kernel), ok_store (by decide +kernel), ok_with (by decide +kernel)⟩

/-- A recipe run loads the first word of its range: barred, or frozen. -/
theorem test_hyp_UniformMemory_run : let c := cxOf grRun; let a := Actor.frag c
    ([true, false].all (fun fz => let s := inRun fz grRun
      issuesB s c && readyB s c (.sld ⟨false, 7, 4, .d64, 0⟩) (uniMemInfo false false) && runMayLoad s c (acc8 0xFE0 8) && okAnd (checkAccs (a.startedIn s false) a.who .load [acc8 0xFE0 8])
        (fun l s1 => (a.barred s1 l).isNone == fz && (loadAccs s1 a.who l).2.1.isNone))) = true := by decide +kernel

/-- A counter of 0 that 3 is taken from. -/
theorem test_hyp_UniformMemory_under : let s := sV [(4, 0xFF8), (5, 3)]; let c := cV [(4, 0xFF8), (5, 3)]
    (issuesB s c && readyB s c (.cdec ⟨false, none, false, .pkg, 7, 4, 5⟩) (uniMemInfo false false)) = true ∧ (Actor.frag c).guardHolds 0 none = true ∧
    okAnd (checkAccs (started s c false) c.who .atomic [acc8 0xFF8 8]) (fun l _ => l.all (fun p => p.2.1 == 0x40006FF8 && p.2.2 == 1)) = true ∧
    leNat (readBytes s 1 0x40006FF8 8) < (c.s 0 1 5).toNat := by decide +kernel

theorem test_hyp_UniformMemory_control : IssuesCtl ctlBase 0 ctl0 ∧ ctlMayRelease ctlBase 0 = true ∧
    (Instr.sld ⟨false, 7, 4, .d64, 0⟩).wf = true ∧ (Instr.cdec ⟨false, none, true, .pkg, 1, 2, 3⟩).wf = true ∧
    (∃ l s1, checkAccs ctlBase (ctl0.who 0) .load [acc8 0 8] = (.ok l, s1) ∧ (loadAccs s1 (ctl0.who 0) l).2.1 = none) ∧
    (∃ l s1, checkAccs ctlBase (ctl0.who 0) .store [acc8 0 8] = (.ok l, s1) ∧ (storeAccs s1 (ctl0.who 0) l).1 = none) ∧
    ∃ l s1, checkAccs ctlBase (ctl0.who 0) .atomic [acc8 0 8] = (.ok l, s1) ∧
      (l.length == 1 && l.all (fun p => (raceWords ctlBase (.control 0) p.1.va (p.2.1 / 4) 2).isNone)) = true :=
  ⟨ctlBase_issues, by decide +kernel, by decide +kernel, by decide +kernel, ok_load (by decide +kernel), ok_store (by decide +kernel), ok_with (by decide +kernel)⟩

/-- A guard that fails, and one that holds, on both kinds of core. -/
theorem test_hyp_guards : (Actor.frag c0).guardHolds 0 (some ⟨false, 0⟩) = false ∧ (Actor.frag c0).guardHolds 0 (some ⟨true, 3⟩) = true ∧
    (Actor.ctl 0 ctl0).guardHolds 0 (some ⟨false, 0⟩) = false ∧ (Actor.ctl 0 ctl0).guardHolds 0 none = true := by decide +kernel

/-- `base` with region 0 at 0x100 to 0x2FF. -/
def regionBase : State := writeBytes base 1 0x40001080 (leBytes 8 0x100 ++ leBytes 8 0x200)

/-- A region that covers a word and not the one behind it, and the same one with its entry out of reach. -/
theorem test_hyp_ReleaseAndAcquire : scopeOrders .pkg = true ∧ scopeOrders .thread = false ∧ scopeDrops .thread = false ∧ scopeDrops .pkg = true ∧
    (issuesB regionBase c0 && readyB regionBase c0 (.acq ⟨false, .pkg, 1⟩) (fenceInfo false)) = true ∧
    (let r := maskRanges (started regionBase c0 false) loadCtx c0.who.agent 1; maskDies (started regionBase c0 false) loadCtx c0.who.agent 1 = [] ∧
      inRanges r 0x2FC = true ∧ inRanges r 0x300 = false) ∧
    maskDies (started { regionBase with offline := [0] } c0 false) loadCtx c0.who.agent 1 ≠ [] ∧
    (maskDies { regionBase with ctls := ctlBase.ctls } ctl0.ctx (.control 0) 1 = [] ∧ inRanges (maskRanges { regionBase with ctls := ctlBase.ctls } ctl0.ctx (.control 0) 1) 0x100 = true ∧
      (Instr.acq ⟨false, .pkg, 1⟩).wf = true) := by decide +kernel

/-- A length of 0; a range up to the end of the lower half; one that leaves it by one byte. -/
theorem test_hyp_MaintenanceAndRegions : oneHalf (2 ^ 55 - 16) 16 = true ∧ oneHalf (2 ^ 55 - 16) 17 = false ∧
    oneHalf (2 ^ 64 - 256) 256 = true ∧ (256 % 256 = 0 ∧ 512 % 256 = 0 ∧ oneHalf 256 512 = true) ∧
    (let s := sV [(5, 256), (6, 512)]; let c := cV [(5, 256), (6, 512)]
     (issuesB s c && readyB s c (.rgn ⟨false, 15, 5, 6⟩) (uniMemInfo false false)) = true ∧
     (match fixedAt (started s c false) loadCtx (0x40001080 + 240) with | .at _ => true | _ => false) = true ∧
     farRace s c.who.agent ((0x40001080 + 240) / 4) 4 = none) ∧
    (match fixedAt base { loadCtx with root := BitVec.ofNat 56 (2 ^ 43) } (2 ^ 43 + 0x1080) with | .gone => true | _ => false) = true ∧
    (match fixedAt { base with offline := [0] } loadCtx (0x40001080 + 240) with | .offline _ => true | _ => false) = true ∧
    ((maintRange base c0.who 0xFFC 8 0 2).1 ≠ [] ∧ (maintRange base c0.who 0xFFC 8 0 2).2.1 = [] ∧ (maintRange { base with offline := [0] } c0.who 0xFFC 8 0 2).2.1 ≠ []) := by
  decide +kernel

def rowOp : RowOp := ⟨false, none, .bq8 40, 32, ⟨2, 9, .w32, false, 5, 0⟩⟩

theorem test_hyp_PrefetchAndRows : let s := sV []; let c := cV []
    let accs : List Acc := (c.active 0 none).flatMap (fun th =>
      ({ tid := th, va := c.gaddr 0 th 32 rowOp.x, n := 32, data := [] } : Acc) ::
        (List.range 2).map (fun i => { tid := th, va := c.s 0 6 3 + BitVec.ofNat 64 ((c.gaddr 0 th 32 rowOp.x - c.s 0 0 2).toNat / 16) + BitVec.ofNat 64 i, n := 1, data := [] }))
    (Issues s c ∧ Ready s c (.ldgRow rowOp) (laneMemInfo false)) ∧ (Issues s c ∧ Ready s c (.pft ⟨false, some ⟨false, 0⟩, ⟨4, .none, 0⟩⟩) (laneMemInfo false)) ∧
    c.active 0 (some ⟨false, 0⟩) = [] ∧ accs ≠ [] ∧
    (∀ th ∈ c.active 0 none, (c.gaddr 0 th 32 rowOp.x).toNat % 32 = 0 ∧ (c.gaddr 0 th 32 rowOp.x - c.s 0 0 2).toNat % 32 = 0) ∧
    ∃ l s1, checkAccs (started s c false) c.who .load accs = (.ok l, s1) ∧ (loadAccs s1 c.who l).2.1 = none :=
  ⟨turn_of (by decide +kernel), turn_of (by decide +kernel), by decide +kernel, by decide +kernel, by decide +kernel, ok_load (by decide +kernel)⟩

def chunk0 : Machine.Chunk :=
  { id := 0, fill := 0, g := 0, f := 0, heirs := [], tid := 0, ipc := 0, va := 0, pa := 0x40006000, key := 1, keyId := 1, n := 4, space := .ls, dst := 16, mbar := none, byHandler := false, wins := true, data := some [1, 2, 3, 4] }

theorem test_hyp_FillsAndChunks : let s := sV []; let c := cV []; let o : FillOp := ⟨false, none, .b4, .ls, 8, some 9, ⟨4, .zext 8, 0⟩⟩
    let dst (th : Nat) : Nat := (c.v 0 2 th 8).toNat
    (Issues s c ∧ Ready s c (.fill o) (laneMemInfo false)) ∧ c.active 0 none ≠ [] ∧
    (∀ th ∈ c.active 0 none, dst th % 4 = 0 ∧ winInside s c.gr.block .ls { tid := th, va := BitVec.ofNat 64 (dst th), n := 4, data := [] } = true) ∧
    (∀ th ∈ c.active 0 none, (c.v 0 3 th 9).toNat % 16 = 0 ∧
      winInside s c.gr.block .ls { tid := th, va := BitVec.ofNat 64 (c.v 0 3 th 9).toNat, n := 16, data := [] } = true) ∧
    ∃ l s1, checkAccs (started s c false) (c.begun false).who .load (memAccs ldOp (c.begun false)) = (.ok l, s1) ∧ l.isEmpty = false :=
  ⟨turn_of (by decide +kernel), by decide +kernel, by decide +kernel, by decide +kernel,
    (ok_with (p := fun l _ => !l.isEmpty) (by decide +kernel)).imp (fun _ h => h.imp (fun _ h => ⟨h.1, by simpa using h.2⟩))⟩

theorem test_hyp_FillsAndChunks_landing : let s : State := { base with chunks := [chunk0] }
    chunk0 ∈ s.chunks ∧ (s.chunks.map (·.id)).Nodup ∧ s.groups[chunk0.g]? = some gr0 ∧ chunk0.data = some [1, 2, 3, 4] ∧
    chunk0.mbar = none ∧ chunk0.wins = true ∧ gr0.block < s.blocks.length ∧ (∀ x ∈ gr0.frags, x.wait = .run) ∧
    (∀ d ∈ s.ctls, d.wait = .run) := by decide +kernel

/-- A word of another agent's, a claimed one, a frozen one and a loose one, in the page. -/
def regBase : State := { base with
  reg := [(0x10001800, .owned (.control 3) 7 0), (0x10001801, .claimed (.engine 0 1) none), (0x10001802, .frozen 1), (0x10001803, .released (.control 3) 0),
          (0x10001804, .owned (.group 0) 5 0)] }

theorem test_hyp_RegistrationAndRaces :
    regOf regBase 0x10001800 = some (.owned (.control 3) 7 0) ∧ regOf regBase 0x10001801 = some (.claimed (.engine 0 1) none) ∧
    regOf regBase 0x10001802 = some (.frozen 1) ∧ regOf regBase 0x10001803 = some (.released (.control 3) 0) ∧
    regOf regBase 0x10001804 = some (.owned (.group 0) 5 0) ∧ regOf regBase 0x10001805 = none ∧ registers 0x10001800 = true ∧
    registers 0x10001804 = true ∧ Agent.control 3 ≠ c0.who.agent ∧ c0.who.agent = .group 0 := by decide +kernel

theorem test_hyp_HomeAccesses : presence regBase (4 * (0x40006000 / 4)) = .present ∧ registers (0x40006000 / 4) = true ∧
    regBase.groups[0]? = some gr0 ∧ gr0.place = 0 ∧
    regOf { base with reg := [(0x10001800, .released (.group 0) 0)] } 0x10001800 = some (.released (.group 0) 0) ∧
    lineKey base 0x10001800 = none ∧ lineKey { base with tags := [(0x40006000 / 64, { key := 1, lines := [] })] } 0x10001800 = some 1 ∧
    agentSite base (.group 0) = some (.core 0) ∧ agentSite base (.control 3) = some (.ctl 3) ∧
    4 * (0x40006000 / 4) / 64 ∈ ({ base with poison := [0x40006000 / 64] } : State).poison ∧ 4 * (0x40006000 / 4) / 64 ∉ base.poison := by decide +kernel

/-! ### Control flow -/

/-- An actor's turn and leave to issue, on either kind of core. -/
theorem test_hyp_Branches : let s := sV [(9, 8), (10, 2)]; let c := cV [(9, 8), (10, 2)]
    (Actor.frag c).issuesIn s ∧ (Actor.frag c).readyFor s (.bra ⟨false, -6⟩) (jumpInfo false) ∧ (Actor.ctl 0 ctl0).issuesIn ctlBase ∧
    (Actor.ctl 0 ctl0).readyFor ctlBase (.ret ⟨true, 63⟩) (jumpInfo true) ∧
    ((Actor.frag c).getS 0 0 9).toNat % 4 = 0 ∧ ((Actor.frag c).getS 0 0 10).toNat % 4 ≠ 0 ∧
    (Actor.frag c).getK 0 0 1 = false ∧ ((Actor.ctl 0 ctl0).getS 0 0 63).toNat % 4 = 0 :=
  ⟨issues_of (by decide +kernel), ready_of (by decide +kernel), ctlBase_issues, ⟨by decide +kernel, by decide +kernel⟩,
    by decide +kernel, by decide +kernel, by decide +kernel, by decide +kernel⟩

theorem mask_ends {m : Mask} {n : Nat} (h : m.toNat < 2 ^ n) : ∀ th, n ≤ th → m.getLsbD th = false := fun th ht => by
  rw [← BitVec.testBit_toNat]
  exact Nat.testBit_lt_two_pow (Nat.lt_of_lt_of_le h (Nat.pow_le_pow_right (by decide) ht))

def brdI (o : BrdOp) : Instr × IssueInfo := (.brd o, { cls := .lane, w := o.w, touch := false, fence := false, rel := false })
def turn (gr : Group) (p : Instr × IssueInfo) : Bool := issuesB (withGroup gr) (cxOf gr) && readyB (withGroup gr) (cxOf gr) p.1 p.2
def takenBy (gr : Group) (o : BrdOp) : List Nat := (threadsOf (cxOf gr).fr.mask gr.size).filter (fun th => (cxOf gr).q 0 0 th o.q.toNat = !o.neg)

/-- Threads 0 to 3 have q1 set. -/
def grHalf : Group := { gr0 with q := (List.range 4).map (fun t => (t * 8 + 1, true)) }
def frAt (id : Nat) (slot : Option Nat) (m : Nat) (wait : Wait) (toks : Tab Nat) : Frag :=
  { fr0 with id, slot, mask := BitVec.ofNat 256 m, wait, toks }
/-- Every slot of the group taken: its first fragment has the threads 0 and 1 (q1 set in 0), the others wait at a JOIN. -/
def grFull : Group := { gr0 with
  q := [(1, true)], nextFrag := 8, frags := frAt 0 (some 0) 3 .run [] :: (List.range 7).map (fun i => frAt (i + 1) (some (i + 1)) (2 ^ (i + 2)) (.join 9) []) }

/-- All threads taken, none, a split; the token open; a slot free; none free with room on the fragment stack, and without. -/
theorem test_hyp_Fragments_brd : let o : BrdOp := ⟨false, 1, false, 2, 4⟩
    turn grHalf (brdI o) = true ∧ (∀ th, grHalf.size ≤ th → (cxOf grHalf).fr.mask.getLsbD th = false) ∧
    takenBy grHalf o = [0, 1, 2, 3] ∧ takenBy gr0 o = [] ∧ (takenBy gr0 { o with neg := true }).length = 8 ∧
    slotFree (started (withGroup grHalf) (cxOf grHalf) false) grHalf = true ∧ grHalf.size ≤ 256 ∧ tabFind fr0.toks 2 = none ∧
    (turn { grHalf with frags := [frAt 0 (some 0) 255 .run [(2, 0)]] } (brdI o) = true ∧
      (tabFind (cxOf { grHalf with frags := [frAt 0 (some 0) 255 .run [(2, 0)]] }).fr.toks 2).isSome = true) ∧
    (turn grFull (brdI o) = true ∧ takenBy grFull o = [0] ∧ slotFree (started (withGroup grFull) (cxOf grFull) false) grFull = false ∧
      grFull.spilledCount + 1 ≤ fstackOf (started (withGroup grFull) (cxOf grFull) false) grFull.ctx ∧ (victim grFull 0).isSome = true ∧
      (issuesB { withGroup grFull with mem := [] } (cxOf grFull) && readyB { withGroup grFull with mem := [] } (cxOf grFull) (.brd o) (brdI o).2) = true ∧
      fstackOf (started { withGroup grFull with mem := [] } (cxOf grFull) false) grFull.ctx < grFull.spilledCount + 1) :=
  ⟨by decide +kernel, mask_ends (n := 8) (by decide +kernel), by decide +kernel, by decide +kernel, by decide +kernel, by decide +kernel, by decide +kernel,
    by decide +kernel, by decide +kernel, by decide +kernel⟩

def joinI : Instr × IssueInfo := (.join ⟨false, 2⟩, { cls := .lane, w := false, touch := false, fence := false, rel := false })
/-- A family of two, the other one running (`w = .run`) or waiting. -/
def grFam (w : Wait) : Group := { gr0 with nextFrag := 2, nextSplit := 1, frags := [frAt 0 (some 0) 0xF .run [(2, 0)], frAt 1 (some 1) 0xF0 w [(2, 0)]] }

theorem test_hyp_Fragments_join : turn gr0 joinI = true ∧ tabFind fr0.toks 2 = none ∧
    (let gr := grFam .run; turn gr joinI = true ∧ tabFind (cxOf gr).fr.toks 2 = some 0 ∧ ∃ x ∈ family gr 2 0, x.id ≠ 0 ∧ x.wait ≠ .join 2) ∧
    (let gr := grFam (.join 2); turn gr joinI = true ∧ tabFind (cxOf gr).fr.toks 2 = some 0 ∧
      (∀ x ∈ family gr 2 0, x.id = 0 ∨ x.wait = .join 2) ∧ (lowestMember (family gr 2 0)).map (·.id) = some 0 ∧ (gr.frags.map (·.id)).Nodup) := by
  decide +kernel

def exitI : Instr × IssueInfo := (.exit ⟨true⟩, { cls := .compute, w := true, touch := true, fence := true, rel := false })

/-- One of two fragments, also of a recipe run; the last one of a recipe run; the last one of the last group of a block. -/
theorem test_hyp_Fragments_exit : (let gr := grFam .run; turn gr exitI = true ∧ (∃ x ∈ gr.frags, x.id ≠ 0) ∧ gr.run = none) ∧
    (let gr := { grFam .run with run := some runInfo0 }; turn gr exitI = true ∧ (∃ x ∈ gr.frags, x.id ≠ 0) ∧ chainOf (withGroup gr) 0 0 = none) ∧
    (let gr := { gr0 with run := some runInfo0 }; turn gr exitI = true ∧ (∀ x ∈ gr.frags, x.id = 0) ∧ gr.run.isSome = true) ∧
    (turn gr0 exitI = true ∧ (∀ x ∈ gr0.frags, x.id = 0) ∧ gr0.run = none ∧
      ((withGroup gr0).blocks[0]?.any (fun b => b.groups.contains 0 && scopeOrders (endScope (withGroup gr0) b) && liveGroups (withGroup gr0) b == [0])) = true ∧
      (withGroup gr0).adds = [] ∧ ownsOffline (withGroup gr0) (.group 0) = false ∧
      ownsOffline { withGroup gr0 with reg := [(0x10001800, .owned (.group 0) 0 0)], offline := [0] } (.group 0) = true) := by decide +kernel

def region0 : Region := { setwPc := 0, request := 8, restartable := false, mask := firstThreads 8, toks := [], mark := 0 }

/-- A SETW outside a region and inside one, an ENDW inside one and outside, each with one fragment and with two. -/
theorem test_hyp_WidthRegions : turn gr0 (.setwImmediate ⟨true, 128⟩, setwInfo) = true ∧ turn gr0 (.endw ⟨true⟩, setwInfo) = true ∧
    (gr0.region = none ∧ gr0.frags.length ≤ 1) ∧ turn (grFam .run) (.setwRRegister ⟨true, 1⟩, setwInfo) = true ∧ (grFam .run).frags.length = 2 ∧
    turn { gr0 with region := some region0 } (.endw ⟨true⟩, setwInfo) = true ∧ turn { gr0 with region := some region0 } (.setwRegister ⟨true, 1⟩, setwInfo) = true ∧
    turn gr0 (.yieldSlot ⟨true⟩, { cls := .both, w := true, touch := false, fence := false, rel := false }) = true ∧ 8 ≤ gr0.size := by decide +kernel

/-! ### Barriers and batches -/

def withBlock (s : State) (f : Block → Block) : State := { s with blocks := s.blocks.map f }
def blk0 : Option Block := base.blocks[0]?
def bar0 : Barrier := { phase := false, marks := 0, phases := 0 }

/-- The only group of its block, and one of two; a barrier that the entry does not declare. -/
theorem test_hyp_Barriers : barOk base c0 15 = true ∧ turn gr0 (.bar ⟨true, 15⟩, barInfo true) = true ∧ turn gr0 (.barWait ⟨false, 15⟩, barInfo false) = true ∧
    (cxOf gr0).gr.frags.map (·.id) = [0] ∧ (blk0.any (fun b => b.bars[15]?.isSome && expectedGids base b == [0] && liveGroups base b == [0])) = true ∧
    (let s : State := { withBlock base (fun b => { b with groups := [0, 1] }) with groups := [gr0, { gr0 with gid := 1 }] }
     issuesB s c0 = true ∧ readyB s c0 (.barArr ⟨true, 15⟩) (barInfo true) = true ∧
     (s.blocks[0]?.any (fun b => (b.bars[15]?.any (fun br => (expectedGids s b).any (fun k => !((br.marks ||| 1#16).getLsbD k)))))) = true) ∧
    (let s := withBlock base (fun b => { b with entry := { b.entry with bars := 15 } })
     issuesB s c0 = true ∧ readyB s c0 (.bar ⟨true, 15⟩) (barInfo true) = true ∧ barOk s c0 15 = false) ∧
    (let gr := { gr0 with frags := [{ fr0 with arr := [(15, false)] }] }
     turn gr (.barWait ⟨false, 15⟩, barInfo false) = true ∧ tabFind (cxOf gr).fr.arr 15 = some (barPhase (withGroup gr) 0 15)) ∧
    (let gr := { gr0 with frags := [{ fr0 with arr := [(15, true)] }] }
     turn gr (.barWait ⟨false, 15⟩, barInfo false) = true ∧ tabFind (cxOf gr).fr.arr 15 = some true ∧ barPhase (withGroup gr) 0 15 = false) ∧
    (let gr := { gr0 with frags := [{ fr0 with arr := [(47, true)] }] }
     turn gr (.barWait ⟨false, 15⟩, barInfo false) = true ∧ tabFind (cxOf gr).fr.arr 15 = none ∧ (tabFind (cxOf gr).fr.arr (32 + 15)).isSome = true) ∧
    (let gr := grFam .run; turn gr (.bar ⟨true, 0⟩, barInfo true) = true ∧ ∃ x ∈ gr.frags, x.id ≠ 0 ∧ tabFind x.arr 0 = none ∧ x.wait = .run) := by
  decide +kernel

/-- A gang of one member that waits at the gang barrier. -/
def gbarBase : State := { withBlock (inGang (withGroup { gr0 with frags := [{ fr0 with wait := .gbar false, arr := [(16, false)] }] })) (fun b => { b with gbar := { bar0 with marks := 1 } }) with gangs := [{ gang0 with marks := 1 }] }

theorem test_hyp_Barriers_gang : turn gr0 (.gbar ⟨true⟩, barInfo true) = true ∧ gbarBase.gangs[0]? = some { gang0 with marks := 1 } ∧
    gangMembers gbarBase { gang0 with marks := 1 } = [0] ∧
    (gbarBase.blocks[0]?.any (fun x => x.life == .running && x.member == 0 && x.groups == [0] && liveGroups gbarBase x == [0])) = true := by decide +kernel

/-- `base` with a stage barrier at 32 of the LS window. -/
def mbarBytes (m : Mbar) : List Byte :=
  leBytes 8 (m.pending + m.seq.toNat % 2 * 2 ^ 63) ++ leBytes 8 (m.expected + m.remaining * 2 ^ 16 + (if m.excess then 2 ^ 32 else 0) + m.seq.toNat * 2 ^ 40 + 0x53 * 2 ^ 56)
def mbarOf (m : Mbar) (gr : Group) : State := withBlock (withGroup gr) (fun b => { b with ls := (mbarBytes m).zipIdx.map (fun p => (32 + p.2, p.1)) })
def grMb (n k : Nat) : Group := grOf [(6, 32), (7, BitVec.ofNat 64 n), (5, BitVec.ofNat 64 k)]

/-- The counts 1 and 65,535; a phase that ends and one that goes on; bytes up to the limit. -/
theorem test_hyp_StageBarriers : (∀ n ∈ [1, 65535], turn (grMb n 0) (.mbarInit ⟨false, none, 6, 7⟩, mbarInfo false false) = true ∧
      ((cxOf (grMb n 0)).s 0 1 7).toNat = n ∧ winInside (withGroup (grMb n 0)) 0 .ls { tid := 0, va := 32, n := 16, data := [] } = true ∧
      mbarWaiters (withGroup (grMb n 0)) 0 32 = []) ∧
    (∀ m ∈ [({ seq := 65535, excess := false, remaining := 1, expected := 1, pending := 0 } : Mbar), { seq := 4, excess := true, remaining := 2, expected := 9, pending := 2 ^ 56 - 2 }],
      mbarAt (mbarOf m (grMb 1 0)) 0 32 = some m ∧ issuesB (mbarOf m (grMb 1 0)) (cxOf (grMb 1 0)) = true ∧ m.pending + 1 < 2 ^ 56 ∧ 0 < m.remaining ∧
      readyB (mbarOf m (grMb 1 0)) (cxOf (grMb 1 0)) (.mbarArm ⟨false, none, 6, 7⟩) (mbarInfo false false) = true ∧
      readyB (mbarOf m (grMb 1 0)) (cxOf (grMb 1 0)) (.mbarArr ⟨false, none, .blk, 6⟩) (mbarInfo false true) = true) := by decide +kernel

/-- MBAR.WAIT for the phases that lie 0, 1, 2^15 and 2^15 + 1 behind; with an excess; with its end recorded. -/
theorem test_hyp_StageBarriers_wait :
    (∀ p ∈ [(0, 0), (65535, 1), (0x8000, 0x8000), (0x7FFF, 0x8001)],
      let m : Mbar := { seq := 0, excess := false, remaining := 1, expected := 1, pending := 0 }
      let gr := grMb p.1 0
      mbarAt (mbarOf m gr) 0 32 = some m ∧ issuesB (mbarOf m gr) (cxOf gr) = true ∧ gr.run = none ∧
      readyB (mbarOf m gr) (cxOf gr) (.mbarWait ⟨true, none, .pkg, 6, 5, 7⟩) (mbarInfo true false) = true ∧
      (m.seq - ((cxOf gr).s 0 2 7).setWidth 16).toNat = p.2) ∧
    (let m : Mbar := { seq := 0, excess := true, remaining := 1, expected := 1, pending := 0 }; mbarAt (mbarOf m (grMb 65535 0)) 0 32 = some m) ∧
    (let gr := { gr0 with frags := [{ fr0 with wait := .mbarEnd 2 77 }] }; turn gr (.mbarWait ⟨true, none, .pkg, 6, 5, 7⟩, mbarInfo true false) = true) ∧
    (let m : Mbar := { seq := 0, excess := false, remaining := 1, expected := 1, pending := 0 }
     let gr := { grMb 0 0 with frags := [{ fr0 with wait := .mbar 32 0 0 17 }] }
     let s : State := { mbarOf m gr with time := 10 }
     s.groups[0]? = some gr ∧ (gr.frag? 0).map (·.wait) = some (.mbar 32 0 0 17) ∧ 0 + 17 ≤ clk s ∧ clk { s with time := 9 } < 0 + 17 ∧ mbarAt s 0 32 = some m) := by
  decide +kernel

/-- A batch that has landed and one that waits on a FILL. -/
def grBat (n : Nat) : Group := { grOf [(9, BitVec.ofNat 64 n)] with
  batch := 2, closedB := [{ num := 1, items := [.fill 5] }, { num := 2, items := [.fill 6] }], openB := [.fill 7] }

theorem test_hyp_Batches : turn (grBat 0) (.bclose ⟨false⟩, { cls := .both, w := false, touch := true, fence := false, rel := false }) = true ∧
    batchesFull (withGroup (grBat 0)) (grBat 0).closedB = false ∧ batchesFull ctlBase ctl0.closedB = false ∧ (Instr.bclose ⟨false⟩).wf = true ∧
    (let s : State := { withGroup (grBat 2) with chunks := [{ chunk0 with fill := 6 }] }
     issuesB s (cxOf (grBat 2)) = true ∧ readyB s (cxOf (grBat 2)) (.bwaitRegister ⟨false, 9⟩) (bwaitInfo false) = true ∧
     readyB s (cxOf (grBat 2)) (.bwaitImmediate ⟨false, 1⟩) (bwaitInfo false) = true ∧
     (grBat 2).closedB.map (fun b => b.landed s) = [true, false]) := by decide +kernel

/-! ### Matrices -/

theorem test_hyp_MatrixMultiply_sum : (0x40400000 : Nat) < 2 ^ FTy.width .f32 ∧ (∀ v ∈ [FVal.fin false 1 0, .fin false 2 0], FVal.isFin v = true) ∧
    FVal.isFin (fDecode .f32 0x40400000) = true ∧ FVal.rat (fDecode .f32 0x40400000) = (([FVal.fin false 1 0, .fin false 2 0]).map FVal.rat).sum ∧
    FVal.rat (fDecode .f32 0x40400000) ≠ 0 ∧ (∃ v ∈ [FVal.fin false 1 0, .nan true], FVal.isNan v = true) ∧ MatTy.acc .bf16 = .f32 := by
  have h : fDecode .f32 0x40400000 = .fin false 0xC00000 (-22) := by decide +kernel
  rw [h]
  refine ⟨by decide, by decide, rfl, ?_, ?_, ⟨.nan true, by simp, rfl⟩, rfl⟩ <;> norm_num [FVal.rat]

/-- Sums that are 0, of zeros of one sign and of values that cancel; an infinity of one sign, and of both. -/
theorem test_hyp_MatrixMultiply_zero : (([FVal.fin true 0 0, .fin true 0 3]).map FVal.rat).sum = 0 ∧ (∀ v ∈ [FVal.fin true 0 0, .fin true 0 3], ∃ e, v = .fin true 0 e) ∧
    (([FVal.fin true 1 0, .fin false 1 0]).map FVal.rat).sum = 0 ∧ (∃ v ∈ [FVal.fin true 1 0, .fin false 1 0], ∀ e, v ≠ .fin true 0 e) ∧
    (∀ v ∈ [FVal.fin true 1 0, .inf true], FVal.isNan v = false) ∧ FVal.inf true ∈ [FVal.fin true 1 0, .inf true] ∧ FVal.inf (!true) ∉ [FVal.fin true 1 0, .inf true] := by
  refine ⟨by norm_num [FVal.rat], by simp, by norm_num [FVal.rat], ⟨.fin true 1 0, by simp, by simp⟩, by decide, by simp, by decide⟩

/-- Panel and tile end where their windows end. -/
def grMat (t : MatTy) (rows nb : Nat) : Group := grOf [(4, BitVec.ofNat 64 ((65536 - panelBytes t rows nb) / 64 * 64)), (5, BitVec.ofNat 64 ((32768 - tileBytes t) / 256 * 256))]
def ts8 : List Nat := List.range 8

theorem test_hyp_MatrixMultiply_mma : (∀ t ∈ [MatTy.f64, .f32, .bf16, .f16, .i8, .bq8, .bq4],
    let k := matK t; let gr := grMat t k (k / 32); let c := cxOf gr; let s := withGroup gr
    turn gr (.mma ⟨false, none, t, true, false, 32, 4, 5⟩, laneMemInfo false) = true ∧ c.active 0 none = ts8 ∧ (c.s 0 4 4).toNat % 64 = 0 ∧ (c.s 0 5 5).toNat % 256 = 0 ∧
    wbInside s 0 (c.s 0 4 4).toNat (panelBytes t k (k / 32)) = true ∧ ts8.all (tilesInside s c t (c.s 0 5 5).toNat 1) = true) ∧
    c0.active 0 (some ⟨false, 1⟩) = [] := by decide +kernel

/-- A whole octet, and one of which only threads 0 to 3 take part. -/
theorem test_hyp_MatrixMultiply_mmas : (∀ p ∈ [(SpTy.bf16, SpPat.sp24), (.f16, .sp48), (.i8, .sp24), (.bq8, .sp48), (.bq4, .sp24)],
    let t := spMat p.1; let k := matK t; let gr := grMat t k (2 * k / 32); let c := cxOf gr; let s := withGroup gr
    turn gr (.mmas ⟨false, none, p.1, p.2, false, false, 32, 4, 5, 64⟩, laneMemInfo false) = true ∧ (c.s 0 4 4).toNat % 64 = 0 ∧ (c.s 0 5 5).toNat % 256 = 0 ∧
    wbInside s 0 (c.s 0 4 4).toNat (panelBytes t k (2 * k / 32)) = true ∧ ts8.all (tilesInside s c t (c.s 0 5 5).toNat 1) = true) ∧
    partialOctet (c0.active 0 none) = none ∧ partialOctet ((cxOf grHalf).active 0 (some ⟨false, 1⟩)) = some 0 := by decide +kernel

theorem test_hyp_MatrixMultiply_spk : let t := spMat .bf16; let k := matK t
    let sn := panelBytes t (2 * k) (2 * k / 32); let dn := panelBytes t k (2 * k / 32)
    let gr := grOf [(4, 0), (7, BitVec.ofNat 64 sn)]; let c := cxOf gr
    turn gr (.spk ⟨false, none, .bf16, .sp24, 64, 4, 7⟩, laneMemInfo false) = true ∧ c.active 0 none ≠ [] ∧ (c.s 0 4 4).toNat % 64 = 0 ∧ (c.s 0 5 7).toNat % 64 = 0 ∧
    wbInside (withGroup gr) 0 0 sn = true ∧ wbInside (withGroup gr) 0 (c.s 0 5 7).toNat dn = true ∧ 0 + sn ≤ (c.s 0 5 7).toNat ∧
    (let gr := grOf [(4, 0), (7, BitVec.ofNat 64 (sn - 64))]; let c := cxOf gr
     turn gr (.spk ⟨false, none, .bf16, .sp24, 64, 4, 7⟩, laneMemInfo false) = true ∧ (c.s 0 5 7).toNat % 64 = 0 ∧ (c.s 0 5 7).toNat < 0 + sn ∧ 0 < (c.s 0 5 7).toNat + dn) := by decide +kernel

theorem test_hyp_MatrixDrains : (∀ t ∈ [MatTy.f64, .f32, .i8], let gr := grOf [(7, BitVec.ofNat 64 ((32768 - 4 * tileBytes t) / 256 * 256))]; let c := cxOf gr
      turn gr (.mzero ⟨false, none, t, 2, 7⟩, laneMemInfo false) = true ∧ (c.s 0 5 7).toNat % 256 = 0 ∧ ts8.all (tilesInside (withGroup gr) c t (c.s 0 5 7).toNat 4) = true) ∧
    (let gr := grOf [(7, BitVec.ofNat 64 (32768 - 2 * tileBytes .bf16))]; let c := cxOf gr
     turn gr (.mdrn ⟨false, none, .f16 .rz, .bf16, true, 1, 16, 7⟩, laneMemInfo false) = true ∧ (c.s 0 5 7).toNat % 256 = 0 ∧
     ts8.all (tilesInside (withGroup gr) c .bf16 (c.s 0 5 7).toNat 2) = true) := by decide +kernel

/-- Values that fill registers, pairs, and one and two blocks. -/
theorem test_hyp_MatrixDrains_values : (DrainTy.bf16 .rn).bits ≤ 32 ∧ ([1, 2, 3, 4] : List Nat).length % (32 / (DrainTy.bf16 .rn).bits) = 0 ∧ DrainTy.f64.bits = 64 ∧
    ([DrainTy.bf16 .rn, .f64].all (fun t => match t with | .bq8 _ | .bq4 _ => false | _ => true)) = true ∧ (∀ n ∈ [0, 1, 2], n ≤ 2 ∧ (List.replicate (32 * n) 0).length = 32 * n) := by decide +kernel

/-- MDRN.mem of thread 0 to the end of the page. -/
def grMem : Group := { gr0 with v := [(16, 0xFC0)], q := [(1, true)] }
def drainAccs (o : MdrnMemOp) (d : Cx) : List Acc :=
  (d.active 0 o.g).flatMap (fun tid => (List.range o.st.n).map (fun e =>
    { tid, va := BitVec.ofNat 64 (d.lane 0 1 tid 64 o.va.toNat) + BitVec.ofNat 64 (e * (o.dt.bits / 8)), n := o.dt.bits / 8, data := leBytes (o.dt.bits / 8) (drainElem o.dt (cbElem (withGroup grMem) d o.st 0 0 tid e)).1 }))

theorem test_hyp_MatrixDrains_mem : let o : MdrnMemOp := ⟨false, some ⟨false, 1⟩, .i32, .i8, false, 16, 7⟩; let s := withGroup grMem; let c := cxOf grMem
    (Issues s c ∧ Ready s c (.mdrnMem o) (laneMemInfo false)) ∧ c.active 0 o.g ≠ [] ∧ (c.active 0 o.g).all (tilesInside s c .i8 0 1) = true ∧
    ∃ l s1, checkAccs (started s c false) c.who .store (drainAccs o c) = (.ok l, s1) ∧ (storeAccs s1 c.who l).1 = none :=
  ⟨turn_of (by decide +kernel), by decide +kernel, by decide +kernel, ok_store (by decide +kernel)⟩

/-- A gang of two members on two cores; the second has a tile descriptor at 64 of its LS window that expects member 0. -/
def desc0 : TileDesc := { next := 0, got := 0, mask := 3, each := 1, round := 0 }
def peerBase (gr : Group) : State :=
  let s := withGroup gr
  { s with
    gangs := [{ gang0 with blocks := [0, 1] }],
    blocks := s.blocks ++ s.blocks.map (fun b => { b with core := 1, member := 1, groups := [], ls := desc0.bytes.zipIdx.map (fun p => (64 + p.2, p.1)) }) }
/-- Member 1, tile at 256, descriptor at 64. -/
def grPeer : Group := grOf [(6, BitVec.ofNat 64 (256 + 2 ^ 32 + 64 * 2 ^ 40)), (7, 512)]

theorem test_hyp_MatrixDrains_peer : let s := peerBase grPeer; let c := cxOf grPeer; let x := (c.s 0 4 6).toNat
    (∀ ord ∈ [true, false], let o : MdrnPeerOp := ⟨false, none, ord, true, .bf16, 6, 7⟩
      issuesB s c = true ∧ readyB s c (.mdrnPeer o) (laneMemInfo false) = true ∧ (match peerChecked s c o x (c.active 0 none) with | .ok b => b == 1 | .error _ => false) = true) ∧
    c.active 0 none ≠ [] ∧ (c.s 0 5 7).toNat % 256 = 0 ∧ bits x 0 19 % 256 = 0 ∧ bits x 40 18 % 16 = 0 ∧ ts8.all (tilesInside s c .bf16 (c.s 0 5 7).toNat 1) = true := by decide +kernel

def add0 (desc : Option Nat) (m : Nat) : PeerAdd :=
  { id := 4, src := 0, member := m, dst := 1, desc, st := .i8, rows := [(256, List.replicate (rowBytes .i8) 1), (256 + rowBytes .i8, List.replicate (rowBytes .i8) 2)], counted := false }

/-- Unordered; ordered in its turn; ordered out of its turn. -/
theorem test_hyp_MatrixDrains_landing : let s := peerBase gr0
    (∀ a ∈ [add0 none 0, add0 (some 64) 0, add0 (some 64) 1], (([a] : List PeerAdd).map (·.id)).Nodup ∧ (∀ r ∈ a.rows, r.2.length = rowBytes a.st) ∧
      (a.rows.map (·.1)).Pairwise (fun x y => x + rowBytes a.st ≤ y ∨ y + rowBytes a.st ≤ x)) ∧
    s.blocks.map (fun b => (b.ending, b.life == .running)) = [(false, true), (false, true)] ∧ (TileDesc.read (winRead s 1 .ls 64 16)).expected = some 0 ∧
    (withBlock s (fun b => { b with life := .deque })).blocks.map (fun b => b.life != .running) = [true, true] := by decide +kernel

/-! ### Tiles -/

def tile0 : Tile := { Tile.empty with state := .resident, outsize := 64, depth := 4, frame := [(16383, 7)] }
/-- Tile 1 in a state, and tile 2 that depends on it where `dep` says so. -/
def tileBase (r : Tile) (dep : Bool) (gr : Group) : State :=
  withBlock (withGroup gr) (fun b => { b with tiles := (b.tiles.set 1 r).set 2 (if dep then { tile0 with state := .defined, sources := [.tile 1] } else Tile.empty) })
/-- s4 names the last bytes of tile 1 that the threads of `ldOp` reach, s5 the tile itself, s6 tile 3, s7 no tile, s8 one past the last. -/
def grTile : Group := grOf [(4, BitVec.ofNat 64 (32768 - 32)), (5, 16384), (6, 49152), (7, 16385), (8, 0x100000)]
def turnIn (s : State) (c : Cx) (p : Instr × IssueInfo) : Bool := issuesB s c && readyB s c p.1 p.2

theorem test_hyp_TileWindow : let c := cxOf grTile
    (∀ st ∈ [TileState.resident, .opened, .defined, .running], let s := tileBase { tile0 with state := st } false grTile
      turnIn s c (.ldaTile ldOp, laneMemInfo false) = true ∧ turnIn s c (.staTile ldOp, laneMemInfo false) = true ∧ s.chains = [] ∧
      (∀ a ∈ memAccs ldOp c, a.va.toNat % a.n = 0 ∧ tileInside s c true a = true ∧ tileInside s c false a = true) ∧
      (memAccs ldOp c).any (tileMisses s c) = (st == .defined || st == .running)) ∧ 0 < base.blocks.length := by decide +kernel

/-- One active thread stores to a defined tile; there is room in the image and a frame. -/
def grOne : Group := { grTile with q := [(1, true)] }
theorem test_hyp_TileWindow_open : let s := tileBase { tile0 with state := .defined } false grOne; let c := cxOf grOne; let o : MemOp := { ldOp with g := some ⟨false, 1⟩ }
    turnIn s c (.staTile o, laneMemInfo false) = true ∧ c.active 0 o.g = [0] ∧ (∀ a ∈ memAccs o c, tileInside s c false a = true) ∧
    (tileAt s 0 1).state = .defined ∧ saveRoom s 0 1 = true ∧ freeFrames s 0 (coreOf s 0).carve ≠ [] ∧ s.chains = [] := by decide +kernel

/-- A load misses a defined tile with one defined source: a frame is free; none is. -/
theorem test_hyp_TileWindow_miss : let r : Tile := { tile0 with state := .defined, sources := [.tile 3] }
    let s0 := tileBase r false grOne
    let c := cxOf grOne; let o : MemOp := { ldOp with g := some ⟨false, 1⟩ }
    (∀ carve ∈ [64, 1536], let s := modCore (withBlock s0 (fun b => { b with tiles := b.tiles.set 3 tile0 })) 0 (fun k => { k with carve })
      turnIn s c (.ldaTile o, laneMemInfo false) = true ∧ (∀ a ∈ memAccs o c, a.va.toNat % a.n = 0 ∧ tileInside s c true a = true) ∧
      ((memAccs o c).find? (tileMisses s c)).map (fun a => tileOf a.va) = some 1 ∧ s.chains = [] ∧ s.blocks.length = 1 ∧ tileAt s 0 1 = r ∧ 1 ≤ r.depth ∧
      tileSources r 4 = [3] ∧ (tileAt s 0 3).state ∈ [TileState.opened, .resident] ∧ (freeFrames s 0 (coreOf s 0).carve = [] ↔ carve = 1536)) ∧
    (let s := withBlock (modCore s0 0 (fun k => { k with carve := 1536 })) (fun b => { b with tiles := b.tiles.set 3 { tile0 with state := .opened } })
     framedTiles s 0 ≠ [] ∧ (∀ y ∈ framedTiles s 0, evictableTile s y = false) ∧ freeFrames s 0 (coreOf s 0).carve = [] ∧
     grOne.late = [] ∧ grOne.run = none ∧ grOne.inHandler fr0 = false ∧ grOne.trapQ.length < 8) := by decide +kernel

theorem test_hyp_TileInstructions : let c := cxOf grTile; let all : List (SUn → Instr) := [Instr.tseal, .tdrop, .thold, .tfree]
    (∀ mk ∈ all, ∀ r ∈ [5, 6, 7, 8], turn grTile (mk ⟨false, 1, r⟩, compInfo false false) = true) ∧
    (c.s 0 0 5).toNat % 16384 = 0 ∧ (c.s 0 0 5).toNat < 2 ^ 20 ∧ (c.s 0 0 7).toNat % 16384 ≠ 0 ∧ (c.s 0 0 8).toNat % 16384 = 0 ∧ 2 ^ 20 ≤ (c.s 0 0 8).toNat ∧
    (tileAt base 0 3).state = .free ∧ chainOf base 0 0 = none ∧
    (let s := tileBase { tile0 with state := .opened } false grTile; turnIn s c (.tseal ⟨false, 1, 5⟩, compInfo false false) = true ∧ (tileAt s 0 1).state = .opened) ∧
    (let s := tileBase tile0 true grTile; turnIn s c (.tdrop ⟨false, 1, 5⟩, compInfo false false) = true ∧ (tileAt s 0 1).state = .resident ∧ hasDependents s 0 1 = true) ∧
    (let s := tileBase { tile0 with hold := 1 } false grTile; turnIn s c (.tfree ⟨false, 1, 5⟩, compInfo false false) = true ∧ hasDependents s 0 1 = false ∧ 0 < (tileAt s 0 1).hold) ∧
    (let s := tileBase { tile0 with words := [0x10001802] } false grTile
     turnIn { s with reg := [(0x10001802, .frozen 1)] } c (.tdrop ⟨false, 1, 5⟩, compInfo false false) = true ∧ hasDependents s 0 1 = false ∧ (tileAt s 0 1).hold = 0 ∧
       ((tileAt s 0 1).words.count 0x10001802 = 1 ∧ regOf { s with reg := [(0x10001802, .frozen 1)] } 0x10001802 = some (.frozen 1))) ∧
    (let s := tileBase { tile0 with hold := 254 } false grTile; turnIn s c (.thold ⟨false, 1, 5⟩, compInfo false false) = true ∧ saveRoom s 0 1 = true ∧ (tileAt s 0 1).hold < 255) ∧
    (let s := tileBase { tile0 with state := .running } false grTile; turnIn s c (.tdrop ⟨false, 1, 5⟩, compInfo false false) = true ∧ turnIn s c (.thold ⟨false, 1, 5⟩, compInfo false false) = true ∧
       hasDependents s 0 1 = false ∧ (tileAt s 0 1).hold = 0 ∧ (tileAt s 0 1).state = .running ∧ saveRoom s 0 1 = true ∧ s.chains = [] ∧ fr0.wait = .run) ∧
    ([TileState.running, .resident].all (fun st => let gr := { grTile with frags := [{ fr0 with wait := .drop 1 }] }; let s := tileBase { tile0 with state := st } false gr
       turnIn s (cxOf gr) (.tdrop ⟨false, 1, 5⟩, compInfo false false) && (tileAt s 0 1).state == st && s.chains == [])) = true ∧
    (let s := tileBase { tile0 with state := .defined, sources := [.tile 3] } false grTile; turnIn s c (.thold ⟨false, 1, 5⟩, compInfo false false) = true ∧ (tileAt s 0 1).state = .defined ∧ saveRoom s 0 1 = true) ∧
    (let s := tileBase { tile0 with hold := 255 } false grTile; turnIn s c (.thold ⟨false, 1, 5⟩, compInfo false false) = true ∧ 255 ≤ (tileAt s 0 1).hold) := by decide +kernel

/-- The page with an entry descriptor of a recipe at 0x20 and a record at 0x80 whose source is a range of `len` bytes at 0x800, or none. -/
def zeros (n : Nat) : List Byte := List.replicate n 0
def recBytes (len tile : Nat) : List Byte :=
  leBytes 8 0x40 ++ leBytes 32 5 ++ leBytes 2 64 ++ [4, 0] ++ zeros 20 ++
    (if len = 0 then zeros 16 else leBytes 8 0x800 ++ leBytes 4 len ++ zeros 3 ++ [2]) ++
    (if tile = 0 then zeros 16 else leBytes 8 (16384 * tile) ++ zeros 7 ++ [1]) ++ zeros 32
def descBytes : List Byte := leBytes 2 0x4E44 ++ [1, 3, 1, 1, 1, 0] ++ zeros 2 ++ [1, 0] ++ zeros 20
def tdefBase (len tile : Nat) (gr : Group) : State :=
  { loadProgram State.reset (zeros 0x20 ++ descBytes ++ zeros 0x40 ++ recBytes len tile) with agenda := [], cur := .frag 0 0, groups := [gr] }
/-- s5 names tile 1, s6 holds the record's address. -/
def grDef : Group := grOf [(5, 16384), (6, 0x80)]

def tdefMeets (s : State) (c : Cx) (free : Bool) : Bool :=
  okAnd (checkAccs (started s c false) c.who .load (accs8 c.lowTid 0x80 [] 16)) (fun l s1 =>
    (loadAccs s1 c.who l).2.1.isNone &&
    (match parseRecord ((loadAccs s1 c.who l).1.flatMap (·.2)) with
     | none => false
     | some r => (match readEntryDesc (loadAccs s1 c.who l).2.2 c.gr.ctx r.entry with | .ok (some e) => e.recipeOk | _ => false) &&
       ((tileSources r 4).all (fun z => (tileAt s 0 z).state != .free) == free) &&
       ((rangeAccs c.lowTid r).isEmpty || okAnd (checkAccs (loadAccs s1 c.who l).2.2 c.who .load (rangeAccs c.lowTid r)) (fun ws _ =>
         decide ((ws.map (fun p => p.2.1 / 4)).Nodup) && (ws.map (fun p => p.2.1 / 4)).all (fun w => registers w && (regOf s w).isNone)))))

/-- A record with a range, one whose source tile is free; a tile that is in use. -/
theorem test_hyp_TileDefinitions : let c := cxOf grDef; let i : Instr := .tdef ⟨false, none, 1, 5, 6⟩
    (∀ p ∈ [(4, 0, true), (0, 7, false)], turnIn (tdefBase p.1 p.2.1 grDef) c (i, compInfo false true) = true ∧ tdefMeets (tdefBase p.1 p.2.1 grDef) c p.2.2 = true) ∧
    (c.s 0 0 5).toNat % 16384 = 0 ∧ (c.s 0 0 5).toNat < 2 ^ 20 ∧ (c.s 0 1 6).toNat % 128 = 0 ∧ (tileAt base 0 1).state = .free ∧
    (base.blocks[0]?.any (fun b => 1 < b.tiles.length)) = true ∧ (tileAt (tileBase tile0 false grDef) 0 1).state ≠ .free := by decide +kernel

def chain0 : Machine.Chain := { id := 0, block := 0, g := 0, f := 0, addr := 0, limit := 4, stack := [(1, 1, 5)], pins := [], posted := [] }

/-- Running tile 1, whose entry has a descriptor of `kind` (R99). -/
def runBase (kind : Byte) (entry : DWord) : State :=
  withBlock { loadProgram State.reset (zeros 0x20 ++ descBytes.set 2 kind) with agenda := [], chains := [chain0] } (fun b =>
    { b with tiles := b.tiles.set 1 { tile0 with state := .running, entry, args := [1, 2, 3, 4], sources := [.none, .none, .none, .none] } })

/-- A descriptor of a recipe, one of a kernel, an entry that is misaligned. -/
theorem test_hyp_TileDefinitions_run : ([((1 : Byte), (0x40 : DWord)), (0, 0x40), (1, 0x44)].all (fun p => let s := runBase p.1 p.2
      (s.blocks[0]?.any (fun b => b.life == .running && !runBusy s b.core 0 1 1)) && s.chains == [chain0] && (tileAt s 0 1).state == .running && (tileAt s 0 1).entry == p.2)) = true ∧
    chain0.block = 0 ∧ chain0.stack = [(1, 1, 5)] ∧
    (match readEntryDesc (runBase 1 0x40) loadCtx 0x40 with | .ok (some e) => e.recipeOk | _ => false) = true ∧
    (match readEntryDesc (runBase 0 0x40) loadCtx 0x40 with | .ok (some e) => !e.recipeOk | _ => false) = true ∧
    (match readEntryDesc (runBase 1 0x44) loadCtx 0x44 with | .ok none => true | _ => false) = true := by decide +kernel

/-! ### Traps and control registers -/

def entry0 : TrapEntry := { cause := 8, frag := 0, slot := 0, ipc := 4, addr := 0, aux := 3, rpc := some 8 }

/-- Room for one more entry; none; in the handler. A vector, none, a misaligned one; an entry of a fragment that has an instruction parked. -/
theorem test_hyp_FragmentTraps : (gr0.run = none ∧ gr0.inHandler fr0 = false ∧ gr0.trapQ.length < 8) ∧
    ({ gr0 with trapQ := List.replicate 7 entry0 } : Group).trapQ.length < 8 ∧ 8 ≤ ({ gr0 with trapQ := List.replicate 8 entry0 } : Group).trapQ.length ∧
    ({ gr0 with trapQ := [entry0], handler := some { frag := 0, mask := fr0.mask } } : Group).inHandler fr0 = true ∧
    ([(0x40 : DWord), 0, 2].all (fun v => let gr := { gr0 with trapQ := [entry0], tvec := v }
      (withGroup gr).groups == [gr] && gr.frag? 0 == some fr0 && gr.shared.isEmpty && deliverable (withGroup gr) 0)) = true ∧
    deliverable (withGroup { grPark with trapQ := [{ entry0 with frag := 1 }], frags := [fr0, { fr0 with id := 1 }] }) 0 = false := by decide +kernel

/-- Races that wait to be queued: seven entries and one race. -/
theorem test_hyp_FragmentTraps_late : let x : LateTrap := { entry := { entry0 with cause := 6 }, byHandler := false, fill := none }
    let gr := { gr0 with trapQ := List.replicate 7 entry0, late := [x] }
    (withGroup gr).groups = [gr] ∧ gr.run = none ∧ (∀ x ∈ gr.late, x.fill = none ∧ x.byHandler = false) ∧ gr.trapQ.length + gr.late.length = 8 := by decide +kernel

/-- No masked flag raised; one raised; RTE in the handler and outside. -/
theorem test_hyp_FragmentTraps_instructions :
    turn gr0 (.tfence ⟨true⟩, trapInfo true) = true ∧ turn { gr0 with fflags := [(7, 8)], fmask := 8 } (.tfence ⟨true⟩, trapInfo true) = true ∧
    turn gr0 (.trap ⟨true, 0xFFFF⟩, trapInfo false) = true ∧ turn gr0 (.rte ⟨true⟩, trapInfo false) = true ∧ gr0.handler = none ∧
    (let gr := { gr0 with trapQ := [entry0], handler := some { frag := 0, mask := fr0.mask } }
     turn gr (.rte ⟨true⟩, trapInfo false) = true ∧ entry0.rpc = some 8 ∧ (8 : DWord).toNat % 4 = 0) := by decide +kernel

def parked (va : DWord) (n : Nat) : LogEntry :=
  { id := 3, frag := 0, heirs := [], words := [], mask := fr0.mask, ipc := 16, req := { kind := .load (.int .n32) .x1 20, accs := [{ tid := 2, va, n, data := [] }] }, pages := [0x1000], dies := [], since := 1, byHandler := false, begun := none }
def grLog (e : LogEntry) : Group := { gr0 with log := [e] }
/-- 2410 ticks of 10 ns are 4,097 clk. -/
def logState (e : LogEntry) (time : DWord) : State :=
  { withGroup (grLog e) with time, monitors := [{ line := 5, waiter := .group 0, woken := true }, { line := 5, waiter := .task 0, woken := false }] }
def replayed (e : LogEntry) : Checked :=
  (replayChecks (modGroup (logState e 2410) 0 (fun _ => { grLog e with log := [] })) ({ cxOf gr0 with gr := { grLog e with log := [] }, fr := { fr0 with pc := 16 } } : Cx).who e.req).1

theorem test_hyp_Replays : (∀ e ∈ [parked 0xFFC 4, parked 0x0100000000000000 4, parked 0x1FFC 4], let s := logState e 2410
      s.groups[0]? = some (grLog e) ∧ (grLog e).run = none ∧ (grLog e).log = [e] ∧ (grLog e).frag? e.frag = some fr0 ∧ replays s 0 = true ∧
      (∀ b ∈ s.blocks, b.life ≠ .switchedOut) ∧ e.since + 4096 ≤ clk s ∧ clk (logState e 2409) < e.since + 4096 ∧
      s.monitors.filter (fun m => m.line == 5 && m.woken) = [{ line := 5, waiter := .group 0, woken := true }]) ∧
    (match replayed (parked 0x0100000000000000 4) with | .access _ => true | _ => false) = true ∧
    (match replayed (parked 0x1FFC 4) with | .park l _ => l.all (fun p => (grLog (parked 0x1FFC 4)).pages.any (fun y => samePage p.1 y)) | _ => false) = true ∧
    (match replayed (parked 0xFFC 4) with | .ok l => l.length == 1 | _ => false) = true := by decide +kernel

/-- A fetch that waits on a page that is there by now, and one on a page that is not. -/
theorem test_hyp_Replays_fetch : ([((0 : DWord), false), (0x1000, true)].all (fun p => let gr := { gr0 with frags := [{ fr0 with pc := p.1, wait := .fetch p.1 0 }] }
    let s : State := { withGroup gr with monitors := [{ line := 5, waiter := .fetch 0 0, woken := true }] }
    s.groups == [gr] && (gr.frag? 0).map (·.wait) == some (.fetch p.1 0) && s.monitors.filter (fun m => m.line == 5 && m.woken) == s.monitors &&
    (match (walkFrom s none gr.ctx p.1.toNat 4 gr.ctx.root.toNat).1 with | .invalid _ => true | _ => false) == p.2)) = true := by decide +kernel

theorem test_hyp_ControlRegisters : fragReadable 0 = false ∧ fragReadable 0x45 = true ∧ fragReadable 0x46 = false ∧ gr0.shared = [] ∧ gr0.inHandler fr0 = false ∧
    (isCfg 0x100 = true ∧ isCfg 0x40F = true ∧ fragReadable 0x100 = true ∧ gr0.handler = none ∧ fragReadable 3 = true ∧ fragReadable 4 = true) ∧
    (∀ n ∈ [0, 3, 4, 9, 0x40, 0x46, 0x100, 0x40F], turn gr0 (.csrr ⟨false, 3, BitVec.ofNat 12 n⟩, csrInfo false) = true) ∧
    (∀ n ∈ [0x10, 0x11, 0x12, 0x13, 0x44, 0x40], turn gr0 (.csrw ⟨false, 3, BitVec.ofNat 12 n⟩, csrInfo false) = true) ∧
    (let gr := { gr0 with trapQ := [entry0], handler := some { frag := 0, mask := fr0.mask } }
     turn gr (.csrr ⟨false, 3, 0x40⟩, csrInfo false) = true ∧ turn gr (.csrwSet ⟨false, 3, 0x44⟩, csrInfo false) = true ∧ gr.inHandler fr0 = true) := by decide +kernel

/-- ILCK of a context whose record lies on a die that is offline, and on one that is not. -/
theorem test_hyp_ControlRegisters_ilck : let s : State := { withGroup gr0 with offline := [0] }
    turnIn s c0 (.csrr ⟨false, 3, 0x21⟩, csrInfo false) = true ∧ (match fixedAt s gr0.ctx (ilckPa gr0.ctx) with | .offline d => d == 0 | _ => false) = true ∧
    (match fixedAt (withGroup gr0) gr0.ctx (ilckPa gr0.ctx) with | .offline _ => false | _ => true) = true := by decide +kernel

/-- `ctlBase` with its control core changed. -/
def ctlWith (c : Ctl) : State := { ctlBase with ctls := ctlBase.ctls.set 0 c }

theorem ctl_of {s : State} {c : Ctl} (h : (s.cur == .control 0 && s.ctls[0]? == some c) = true) : IssuesCtl s 0 c := by
  simp only [Bool.and_eq_true, beq_iff_eq] at h
  exact ⟨h.1, h.2⟩

def ilckKey : Option Nat := match ilckAt ctlBase ctl0 with | .at k => some k | _ => none

/-- The ilck byte: out of reach, of a release that has to wait, and within reach. -/
theorem test_hyp_ControlCoreRegisters_ilck : ctlBase.ctls[0]? = some ctl0 ∧
    (match ilckAt { ctlBase with offline := [0] } ctl0 with | .at _ => false | _ => true) = true ∧
    ctlMayRelease { ctlBase with reg := [(0x10001800, .owned (.control 0) 0 0)], offline := [0] } 0 = false ∧ ilckKey.isSome = true ∧ ctlMayRelease ctlBase 0 = true ∧
    isCfg 0x100 = true ∧ (Instr.csrr ⟨false, 3, 0x100⟩).wf = true := by decide +kernel

/-- In privileged mode and in user mode; the ilck byte in memory; an ASID that is busy. -/
theorem test_hyp_ControlCoreRegisters : IssuesCtl ctlBase 0 ctl0 ∧ ctl0.pv = true ∧ (IssuesCtl (ctlWith { ctl0 with pv := false }) 0 { ctl0 with pv := false }) ∧
    ctlReadable 4 = false ∧ ctlReadable 0x820 = true ∧ ilckKey.isSome = true ∧ ctlMayRelease ctlBase 0 = true ∧
    farRace (release ctlBase (.control 0) .pkg) (.control 0) (ilckPa ctl0.ctx / 4) 1 = none ∧
    (tabGet { presence := 0, busy := false } ctlBase.asids ((5 : DWord).toNat % 2 ^ 16)).busy = false ∧
    (tabGet { presence := 0, busy := false } ({ ctlBase with asids := [(5, { presence := 1, busy := true })] } : State).asids ((5 : DWord).toNat % 2 ^ 16)).busy = true ∧
    (Instr.csrr ⟨false, 3, 0x805⟩).wf = true ∧ (Instr.csrw ⟨false, 3, 0x810⟩).wf = true ∧ (Instr.csrwSet ⟨false, 3, 0x21⟩).wf = true :=
  ⟨ctlBase_issues, by decide, ctl_of (by decide +kernel), by decide +kernel⟩

/-- Three records, the fourth fits and ends with the page; four records. -/
theorem test_hyp_ControlCoreTraps : let c : Ctl := { ctl0 with depth := 3, karea := 0xE00, ktbl := 0x800 }; let s := ctlWith c
    IssuesCtl s 0 c ∧ c.pv = true ∧ c.depth < 4 ∧ 4 ≤ ({ c with depth := 4 } : Ctl).depth ∧ (Instr.svc ⟨false, 0xFFFF⟩).wf = true ∧ (Instr.halt ⟨false⟩).wf = true ∧
    (∃ l s1, checkAccs s { c.who 0 with priv := true } .store (recordAccs c 19 0 5 4) = (.ok l, s1) ∧ (storeAccs s1 (c.who 0) l).1 = none) :=
  ⟨ctl_of (by decide +kernel), by decide, by decide, by decide, by decide, by decide, ok_store (by decide +kernel)⟩

def irq (ie : Bool) (pend : BitVec 8) : Ctl := { ctl0 with ie, kmask := 0xFE, kpend := pend }

theorem test_hyp_ControlCoreTraps_interrupt : (ctlEnabled (ctlWith (irq true 0x82)) 0 = true ∧ (irq true 0x82).stopped = false ∧ (irq true 0x82).deferred = []) ∧
    (((irq true 0x82).kpend &&& (irq true 0x82).kmask).getLsbD 1 = true ∧ ∀ j < 1, ((irq true 0x82).kpend &&& (irq true 0x82).kmask).getLsbD j = false) ∧
    (((irq true 0x80).kpend &&& (irq true 0x80).kmask).getLsbD 7 = true ∧ ∀ j < 7, ((irq true 0x80).kpend &&& (irq true 0x80).kmask).getLsbD j = false) ∧
    (irq true 1).kpend &&& (irq true 1).kmask = 0 ∧ (irq false 0x80).ie = false := by decide +kernel

/-- ERET from the fourth record, whose bytes are those of the page's end. -/
theorem test_hyp_ControlCoreTraps_return : let c : Ctl := { ctl0 with depth := 4, karea := 0xE00 }; let s := ctlWith c
    IssuesCtl s 0 c ∧ c.pv = true ∧ 0 < c.depth ∧ ctl0.depth = 0 ∧ (Instr.eret ⟨false⟩).wf = true ∧
    (∃ l s1, checkAccs s (c.who 0) .load (accs8 0 (c.karea + BitVec.ofNat 64 (128 * (c.depth - 1))) [] 9) = (.ok l, s1) ∧ (loadAccs s1 (c.who 0) l).2.1 = none) :=
  ⟨ctl_of (by decide +kernel), by decide, by decide, by decide, by decide, ok_load (by decide +kernel)⟩

/-- Key ids 0, 1, 1,023 and 1,024; a key at the end of the page; a context invalidation under way and not. -/
theorem test_hyp_TranslationsAndKeys : let c : Ctl := { ctl0 with s := [(2, 1), (3, 1023), (4, 1024), (5, 0xFC0)] }; let s := ctlWith c
    IssuesCtl s 0 c ∧ c.pv = true ∧ ctlMayRelease s 0 = true ∧ canonical (c.sreg 3) = true ∧
    (Instr.tlbiPage ⟨false, 2, 3⟩).wf = true ∧ (Instr.tlbiAsid ⟨false, 2⟩).wf = true ∧ (Instr.tlbiAll ⟨false⟩).wf = true ∧ (Instr.ctxi ⟨false, 2⟩).wf = true ∧
    (Instr.keysetLoad ⟨false, none, 1, 2, 5⟩).wf = true ∧ (Instr.keysetGen ⟨false, none, 1, 3⟩).wf = true ∧ (Instr.keysetErase ⟨false, some ⟨false, 1⟩, 1, 4⟩).wf = true ∧
    [c.sreg 2, c.sreg 3, c.sreg 4, c.sreg 0] = [1, 1023, 1024, 0] ∧ (c.sreg 5).toNat % 64 = 0 ∧ c.runs none = true ∧ c.runs (some ⟨false, 1⟩) = false ∧
    (let d : Ctl := { c with wait := .retry }; let x : State := { ctlWith d with asids := [(1, { presence := 1, busy := true })] }
     x.ctls[0]? = some d ∧ (tabGet { presence := 0, busy := false } x.asids 1).busy = true ∧ ctlMayRelease x 0 = true) ∧
    (∃ l s1, checkAccs s (c.who 0) .load (accs8 0 0xFC0 [] 8) = (.ok l, s1) ∧ (loadAccs s1 (c.who 0) l).2.1 = none) ∧
    ({ c with s := [(5, 0xFC1)] }.sreg 5).toNat % 64 ≠ 0 ∧ ctlMayRelease { s with reg := [(0x10001800, .owned (.control 0) 0 0)], offline := [0] } 0 = false ∧
    (let x : State := { s with asids := [(1, { presence := 1, busy := false })], groups := [gr0] }
     presentDies x 1 = [0] ∧ x.groups[0]? = some gr0 ∧ gr0.ctx.asid = 1 ∧ gr0.place / 128 ∈ presentDies x 1) :=
  ⟨ctl_of (by decide +kernel), by decide, by decide +kernel, by decide +kernel, by decide, by decide, by decide, by decide, by decide, by decide, by decide,
    by decide, by decide, by decide, by decide, by decide +kernel, ok_load (by decide +kernel), by decide +kernel, by decide +kernel, by decide +kernel⟩

/-! ### Engines -/

/-- Accesses that pass, whose loads behind a release meet no race. -/
theorem ok_after {r : Checked × State} {f : State → State} {w : Who} (h : okAnd r (fun l s1 => (loadAccs (f s1) w l).2.1.isNone) = true) :
    ∃ l s1, r = (.ok l, s1) ∧ (loadAccs (f s1) w l).2.1 = none := by
  obtain ⟨x, s1⟩ := r
  cases x <;> simp [okAnd] at h ⊢
  exact h

def engCmd : Command :=
  { iod := 0, n := 0, op := 0, party := .control 0, agent := .control 0, ctx := loadCtx, blk := none, descVa := 0, desc := [], scope := .pkg, life := .issued, src := [], claims := [], out := [], window := [],
    coll := none, status := 0, published := false, raced := false, posted := [], ipc := 0, byHandler := false }

/-- A descriptor at the end of the page, issued by a fragment and by a control core. -/
theorem test_hyp_EngineCommands : let s := sV [(6, 0xFC0), (7, 0xFE0)]; let c := cV [(6, 0xFC0), (7, 0xFE0)]; let a := Actor.frag c
    let d : Ctl := { ctl0 with s := [(6, 0xFC0)] }; let b := Actor.ctl 0 d
    (a.issuesIn s ∧ a.readyFor s (.ecpy ⟨false, none, .pkg, 5, 6⟩) (uniMemInfo false true) ∧ a.guardHolds 0 none = true ∧ outstanding s a.who.agent < 64 ∧
      (a.getS 0 0 6).toNat % 64 = 0 ∧ (a.getS 0 0 7).toNat % 64 ≠ 0 ∧
      ∃ l s1, checkAccs (a.startedIn s false) a.who .load (accs8 0 (a.getS 0 0 6) [] 8) = (.ok l, s1) ∧ (loadAccs (release (a.dirty s1) a.who.agent .pkg) a.who l).2.1 = none) ∧
    (b.issuesIn (ctlWith d) ∧ b.readyFor (ctlWith d) (.ecoll ⟨false, none, .pkg, 5, 6⟩) (uniMemInfo false true) ∧
      ∃ l s1, checkAccs (ctlWith d) b.who .load (accs8 0 (b.getS 0 0 6) [] 8) = (.ok l, s1) ∧ (loadAccs (release (b.dirty s1) b.who.agent .pkg) b.who l).2.1 = none) :=
  ⟨⟨issues_of (by decide +kernel), ready_of (by decide +kernel), by decide +kernel, by decide +kernel, by decide +kernel, by decide +kernel,
      ok_after (by decide +kernel)⟩,
    ctl_of (by decide +kernel), ⟨by decide, fun _ => by decide +kernel⟩, ok_after (by decide +kernel)⟩

/-- A group that has 64 commands under way. -/
theorem test_hyp_EngineCommands_full : let s : State := { sV [(6, 0xFC0)] with commands := List.replicate 64 { engCmd with agent := .group 0 } }; let a := Actor.frag (cV [(6, 0xFC0)])
    a.who.agent = .group 0 ∧ 64 ≤ outstanding s a.who.agent ∧ (issuesB s (cV [(6, 0xFC0)]) && readyB s (cV [(6, 0xFC0)]) (.ecpy ⟨false, none, .pkg, 5, 6⟩) (uniMemInfo false true)) = true := by decide +kernel

def engAnd {α : Type} (r : Eng α) (p : α → State → Bool) : Bool :=
  match r with
  | .ok x s => p x s
  | _ => false

/-- A context record: request code and sequence, 64 × 64 KiB to an image slot, 8 image slots, 16 words of fragment stack, every
die, 128 lanes. -/
def ctxRec (code seq : Nat) : List Byte :=
  leBytes 1 code ++ leBytes 7 seq ++ zeros 28 ++ leBytes 4 64 ++ leBytes 4 8 ++ zeros 12 ++ leBytes 4 16 ++ [2, 15] ++ leBytes 2 128 ++ zeros 64
/-- The page and the record with these bytes, and no group. -/
def pageOf (bs : List Byte) (code seq : Nat) : State :=
  { writeBytes (loadProgram State.reset bs) 1 0x40001000 (ctxRec code seq) with agenda := [], groups := [], blocks := [] }

def engDesc (src dst len fn ndst aux : Nat) : List Byte := leBytes 8 src ++ leBytes 8 dst ++ leBytes 8 len ++ zeros 20 ++ [BitVec.ofNat 8 fn, 0, BitVec.ofNat 8 ndst] ++ zeros 9 ++ leBytes 8 aux
def cmd0 (op : Nat) (desc : List Byte) : Command := { engCmd with op, desc }
def withCmds (s : State) (l : List Command) : State := { s with commands := l }

def freeWs (s : State) (ws : List (Nat × DWord)) : Bool := decide (ws.map (·.1)).Nodup && ws.all (fun w => registers w.1 && (regOf s w.1).isNone)
def quietWs (s : State) (ps : List Piece) (ws : List (Nat × DWord)) : Bool := (ps.flatMap Piece.words).all (fun w => !(ws.map (·.1)).contains w.1 && (regOf s w.1).isNone)
def opens (s : State) (c : Command) : Bool := findCmd s c.iod c.n == some c && c.life == .issued

/-- From the page's end to its start, of 4 bytes. -/
def copyMeets (s : State) (c : Command) : Bool :=
  opens s c && c.wellFormed && c.op == 0 && !c.isUpload && c.dkind == 0 && engAnd (engRange s c .load c.srcVa c.len) (fun src s1 => engAnd (engRange s1 c .store c.dstVa c.len) (fun dst s2 =>
    engAnd (cwRange s2 c) (fun _ s3 => windowsInside s3 c && !overlap (c.srcVa, c.len) (c.dstVa, c.len) && freeWs s (dst.flatMap Piece.words) && quietWs s src (dst.flatMap Piece.words))))

/-- A copy of the page's last 64 bytes to the end of the block's WB window. -/
theorem test_hyp_EngineWork_window : let c : Command := { cmd0 0 ((engDesc 0xFC0 65472 64 0 0 0).set 45 1) with blk := some 0, party := .frag 0 0, agent := .group 0 }
    let s := withCmds base [c]
    (opens s c && c.wellFormed && c.dkind == 1 && engAnd (engRange s c .load c.srcVa c.len) (fun src s1 => engAnd (cwRange s1 c) (fun _ s3 => windowsInside s3 c && quietWs s src []))) = true := by decide +kernel

def pubMeets (s : State) (c : Command) : Bool :=
  opens s c && c.wellFormed && c.op == 1 && engAnd (if c.ndst ≤ 1 then Eng.ok [] s else engRange s c .load c.aux (8 * (c.ndst - 1))) (fun tbl s0 =>
    let vas := c.dstVa :: (List.range (c.ndst - 1)).map (fun i => field (readPieces s0 c tbl).1 (8 * i) 8)
    s0.commands == s.commands && engAnd (engRange (putCmd s0 c) c .load c.srcVa c.len) (fun src s1 => engAnd (dstRanges c vas s1) (fun dsts s2 => engAnd (cwRange s2 c) (fun _ s3 =>
      let ws := (dsts.flatMap id).flatMap Piece.words
      windowsInside s3 c && !anyOverlap ((c.srcVa, c.len) :: vas.map (fun v => (v, c.len))) && freeWs s ws && quietWs s src ws && quietWs s tbl ws && ws.length == c.ndst * c.len / 4))))

/-- A copy; a publish to two destinations, the second from the table at 0x40; a descriptor with a length of 6. -/
theorem test_hyp_EngineWork : let s := pageOf (zeros 64 ++ leBytes 8 0x80) 0 0
    (let c := cmd0 0 (engDesc 0xFFC 0 4 0 0 0); copyMeets (withCmds s [c]) c = true) ∧ (let c := cmd0 1 (engDesc 0xFFC 0 4 0 2 0x40); pubMeets (withCmds s [c]) c = true) ∧
    (let c := cmd0 0 (engDesc 0 64 6 0 0 0); opens (withCmds s [c]) c = true ∧ c.claims = [] ∧ c.cw = 0 ∧ c.wellFormed = false ∧ c.isUpload = false ∧
      (withCmds s [c]).groups = [] ∧ ((withCmds s [c]).ctls.all (fun d => d.wait == .run)) = true) := by decide +kernel

/-- A proof copy of two words for the page's end, with its source at the start. -/
theorem test_hyp_EngineWork_publish : let p : Piece := { va := 0xFF8, pa := 0x40006FF8, key := 1, n := 8 }
    let c : Command := { cmd0 0 (engDesc 0 0xFF8 8 0 0 0) with life := .built, out := [(p, [1, 2, 3, 4, 5, 6, 7, 8])], claims := p.words, src := [{ va := 0, pa := 0x40006000, key := 1, n := 8 }] }
    let s : State := { withCmds (pageOf [] 0 0) [c] with reg := [(0x10001800, .owned (.control 0) 0 0), (0x10001BFE, .claimed (.engine 0 0) none), (0x10001BFF, .claimed (.engine 0 0) none)] }
    findCmd s c.iod c.n = some c ∧ outPresent s c = true ∧ c.blk = none ∧ c.cw = 0 ∧ c.status = 0 ∧ (c.out.all (fun p => p.2.length == p.1.n)) = true ∧ (c.claims.map (·.1)).Nodup ∧
    (c.claims.all (fun w => registers w.1)) = true ∧ c.claims.length = 2 ∧
    ((c.src.flatMap Piece.words).all (fun w => !(c.claims.map (·.1)).contains w.1 && (match regOf s w.1 with | some (.owned a _ _) => a == c.agent | _ => true))) = true := by decide +kernel

/-! An object of one raw section of four bytes. -/

def objHead : List Byte :=
  leBytes 4 0x5246594E ++ leBytes 2 1 ++ zeros 2 ++ leBytes 2 1 ++ zeros 2 ++ leBytes 4 64 ++ leBytes 4 100 ++ leBytes 4 8008 ++ zeros 40 ++
    [1, 0, 2, 0] ++ leBytes 4 96 ++ leBytes 4 4 ++ zeros 8 ++ leBytes 4 4 ++ zeros 8 ++ [9, 8, 7, 6]
def objOf (digest : List Byte) : List Byte := objHead ++ (leBytes 4 0x4E4F4C43 ++ leBytes 2 1 ++ zeros 10 ++ digest ++ zeros 7860)

/-- The object with its digest passes every check, and builds. -/
theorem test_hyp_EngineWork_object : let ob := objOf (sha256 objHead)
    objCause ob 8008 = none ∧
    (match buildSections ob [0x10000] with | .ok l => l == [[9, 8, 7, 6]] | .error _ => false) = true ∧
    ([0x10000].zip (objSections ob)).all (fun p => p.1 % 2 ^ p.2.align == 0) = true := by decide +kernel

/-- A collective of two members of 32 values: block at 0x40, table at 0x80, source at 0x100, destination at 0x200, residual region at 0x300. -/
def collBytes : List Byte := zeros 64 ++ (leBytes 8 5 ++ leBytes 8 1 ++ leBytes 8 0x300 ++ leBytes 8 0x80 ++ leBytes 4 2 ++ zeros 28) ++ (leBytes 4 0 ++ leBytes 4 (2 ^ 20))

def collMeets (s : State) (c : Command) : Bool :=
  opens s c && c.wellFormed && c.op == 2 && engAnd (engRange s c .load c.aux 64) (fun bp s1 =>
    let blk := (readPieces s1 c bp).1
    let m := field blk 32 4
    let res := field blk 16 8
    collOk blk && engAnd (engRange s1 c .load (field blk 24 8) (4 * m)) (fun tp s2 =>
      let table := (List.range m).map (fun i => field (readPieces s2 c tp).1 (4 * i) 4)
      table.all (fun e => e < 2 ^ 21) && engAnd (engRange s2 c .load c.srcVa c.len) (fun _ s3 => engAnd (engRange s3 c .store c.dstVa c.len) (fun dst s4 =>
        engAnd (engRange s4 c .load res (64 + c.len)) (fun _ s5 => engAnd (engRange s5 c .store res (64 + c.len)) (fun residual s6 => engAnd (cwRange s6 c) (fun _ s7 =>
          let ws := (dst ++ residual).flatMap Piece.words
          windowsInside s7 c && !anyOverlap [(c.srcVa, c.len), (c.dstVa, c.len), (res, 64 + c.len)] && freeWs s ws && (match claimWords c.self ws s7 with
            | none => false
            | some s8 => let hdr := ((readPieces s8 c residual).1).take 64
              !collMismatch s8 c { handle := field blk 0 8, step := field blk 8 8, m, r := field blk 36 4, table, fresh := field hdr 0 8 == 0, residual } hdr &&
                (readPieces s1 c bp).2.isNone && (readPieces s2 c tp).2.isNone))))))))

theorem test_hyp_Collectives : let c := cmd0 2 (engDesc 0x100 0x200 128 0 0 0x40); collMeets (withCmds (pageOf collBytes 0 0) [c]) c = true := by decide +kernel

def coll0 (r m : Nat) : Coll := { handle := 5, step := 1, m, r, table := [0, 2 ^ 20], fresh := true, residual := [{ va := 0x300, pa := 0x40006300, key := 1, n := 192 }] }
def member (r m : Nat) : Command :=
  { cmd0 2 (engDesc 0x100 0x200 128 0 0 0x40) with iod := r, life := .matching, src := [{ va := 0x100, pa := 0x40006100, key := 1, n := 128 }], coll := some (coll0 r m), out := [({ va := 0x200, pa := 0x40006200, key := 1, n := 128 }, [])] }

def gathers (s : State) (k : Coll) (c d : Command) (x y : Coll) : Bool :=
  match gather s k [] 0 k.table [] with
  | some [.here a u, .here b v] => a == c && u == x && b == d && v == y
  | _ => false

/-- Two members that agree, and two of which one counts three. -/
theorem test_hyp_Collectives_match : let s := withCmds (pageOf [] 0 0) [member 0 2, member 1 2]; let z := withCmds (pageOf [] 0 0) [member 0 2, member 1 3]
    (findCmd s 0 0 = some (member 0 2) ∧ findCmd s 1 0 = some (member 1 2)) ∧ gathers s (coll0 0 2) (member 0 2) (member 1 2) (coll0 0 2) (coll0 1 2) = true ∧
    ((memberY s (member 0 2) (coll0 0 2)).2 = none ∧ (memberY s (member 1 2) (coll0 1 2)).2 = none) ∧
    (findCmd z 1 0 = some (member 1 3) ∧ (coll0 1 3).m ≠ (coll0 0 2).m ∧ (member 0 2).cw = 0) ∧
    gathers z (coll0 0 2) (member 0 2) (member 1 3) (coll0 0 2) (coll0 1 3) = true ∧ (gather (withCmds s [member 0 2]) (coll0 0 2) [] 0 [0, 2 ^ 20] []).isNone = true := by decide +kernel

/-! ### Queues and dispatch -/

def slot0 (mode : Nat) (recs : List QRecord) : Slot :=
  { die := 0, desc := 0x40, pa := 0x40006040, ctx := loadCtx, mode, base := 0, lsz := 12, head := 0, tail := 0, count := BitVec.ofNat 64 recs.length, lost := 0, recs, mark := 0, bindSeq := 0, later := [], idleSince := 0, waiting := false, page := none, poster := { die := 0, kind := 3, origin := 0x40006040 } }
def rec16 : QRecord := QRecord.fresh 1 (zeros 16) 0
/-- s4 holds the queue's address, s5 one that ends with the page, s6 a misaligned one, s7 one
of a page that is not there. -/
def grQueue : Group := grOf [(4, 0x40), (5, 0xFC0), (6, 0x44), (7, 0x1000)]
def queueIn (q : Slot) : State := { withGroup grQueue with slots := [q] }

/-- A control core that is inside a refill of that queue. -/
def heldCtls : List Ctl := base.ctls.set 1 { Ctl.reset with queue := some (0x40006040, 0x2000) }

/-- A queue with room: empty, and with 31 records; a dispatch queue; another context's, also where the record's page is not there; one that is
held. -/
theorem test_hyp_QueueOperations_enq : let o : QueueOp := ⟨false, none, .pkg, 3, 4, 5, 7⟩; let c := cxOf grQueue
    ([slot0 1 [], slot0 1 (List.replicate 31 rec16), slot0 0 [], { slot0 1 [] with ctx := { loadCtx with asid := 2 } }].all (fun q => let s := queueIn q
      turnIn s c (.enq o, uniMemInfo false true) && slotOf s 0x40006040 == some q && !queueHeld s q.pa none && decide (q.recs.length < 32) && queueHeld { s with ctls := heldCtls } q.pa none)) = true ∧
    (∃ l s1, checkAccs (started (queueIn (slot0 1 [])) c false) c.who .load (accs8 c.lowTid 0x40 [] 8) = (.ok l, s1) ∧
      (l.head?.map (·.2.1) == some 0x40006040 && okAnd (checkAccs s1 c.who .load (accs8 c.lowTid 0xFC0 [] 8)) (fun m s2 =>
        (loadAccs (release ((Actor.frag c).dirty s2) c.who.agent .pkg) c.who m).2.1.isNone) &&
       (match (checkAccs s1 c.who .load (accs8 c.lowTid 0x1000 [] 8)).1 with | .park _ _ => true | _ => false)) = true) ∧
    (c.s 0 0 4 = 0x40 ∧ c.s 0 1 7 = 0x1000 ∧ c.lowTid = 0) ∧ ((c.s 0 0 4).toNat % 64 = 0 ∧ (c.s 0 1 5).toNat % 8 = 0 ∧ (c.s 0 0 6).toNat % 64 ≠ 0 ∧ (c.s 0 1 6).toNat % 8 ≠ 0) :=
  ⟨by decide +kernel, ok_with (by decide +kernel), by decide +kernel, by decide +kernel⟩

/-- No record; a record of two words, for which there is room and, with one word, not. -/
theorem test_hyp_QueueOperations_deq : let c := cxOf grQueue; let s := queueIn (slot0 1 [rec16])
    turnIn s c (.deq ⟨false, none, .pkg, 3, 4, 5, 7⟩, uniMemInfo false false) = true ∧ turnIn s c (.deq ⟨false, none, .pkg, 3, 4, 5, 0⟩, uniMemInfo false false) = true ∧
    turnIn (queueIn (slot0 1 [])) c (.deq ⟨false, none, .pkg, 3, 4, 5, 7⟩, uniMemInfo false false) = true ∧
    ((slot0 1 [rec16]).oldest = some rec16 ∧ rec16.bytes.length ≤ 8 * 8 ∧ 8 * 1 < rec16.bytes.length ∧ rec16.bytes.length % 8 = 0) ∧ (slot0 1 []).oldest = none ∧ (slot0 1 []).head = (slot0 1 []).tail ∧
    queueHeld s 0x40006040 none = false ∧ queueHeld { s with ctls := heldCtls } 0x40006040 none = true ∧
    (let d := checkAccs (started s c false) c.who .load (accs8 0 0x40 [] 8)
     okAnd d (fun l s1 => l.head?.map (·.2.1) == some 0x40006040 && okAnd (checkAccs s1 c.who .store (accs8 0 0xFC0 [] 8)) (fun m s2 =>
       (storeAccs ((Actor.frag c).dirty s2) c.who ((m.take 2).zipIdx.map (fun p => ({ p.1.1 with data := (rec16.bytes.drop (8 * p.2)).take 8 }, p.1.2)))).1.isNone))) = true := by decide +kernel

/-- The page with a descriptor of groups of eight threads at 0x20: groups and members of a block and gang as given. -/
def spawnDesc (block gang : Nat) : List Byte := leBytes 2 0x4E44 ++ [0, 3, BitVec.ofNat 8 block, BitVec.ofNat 8 gang, 1, 1] ++ zeros 2 ++ [1, 0] ++ zeros 2 ++ [0, 24] ++ zeros 16
def spawnEntry (block gang : Nat) : Machine.Entry :=
  { recipe := false, lgt := 3, block, gang, vcount := 8, bars := 1, wb := 0, cb := 16384, ab := 0, ls := 0, carveMin := 0, carveMax := 1536, timer := 2048, stepping := 0 }
def bin0 (n : Nat) (closing : Bool) : Bin := { ctx := loadCtx, entryVa := 0x40, entry := spawnEntry 1 1, threads := List.replicate n (1, 2), start := 0, closing }
def binsOf (l : List (Option Bin)) (list : List Bin) : Tab Core := [(0, { Core.empty with bins := l ++ List.replicate (16 - l.length) none, spawnList := list })]
def grSpawn : Group := grOf [(2, 0x40), (5, 0x44), (6, 0x80)]
def spawnBase : State := { pageOf (zeros 32 ++ spawnDesc 1 1) 0 0 with cur := .frag 0 0, groups := [grSpawn], blocks := base.blocks }

/-- A bin opened, one joined, and one that the thread fills. -/
theorem test_hyp_SpawnedGroups : let c := cxOf grSpawn
    ([[], [some (bin0 1 false)], [some (bin0 7 false)]].all (fun l => let s : State := { spawnBase with cores := binsOf l [] }
      turnIn s c (.spawn ⟨false, none, 2, 3, 4⟩, compInfo false true) &&
      okAnd (checkAccs (started s c false) c.who .load (accs8 0 0x20 [] 4)) (fun _ s1 => (match readEntryDesc s1 loadCtx 0x40 with | .ok (some e) => e == spawnEntry 1 1 && spawnable e | _ => false)) &&
      binFor (coreOf s 0) loadCtx 0x40 == some 0 && (coreOf s 0).bins.length == 16 && (coreOf s 0).spawnList.isEmpty)) = true ∧
    (c.s 0 0 2).toNat % 32 = 0 ∧ (bin0 7 false).threads.length + 1 = (spawnEntry 1 1).size ∧ c.runs 0 none = true ∧ c.runs 0 (some ⟨false, 1⟩) = false := by decide +kernel

/-- An entry that is misaligned; one without a descriptor; one of a gang of two; every bin bound elsewhere. -/
theorem test_hyp_SpawnedGroups_stops : let c := cxOf grSpawn
    (turnIn spawnBase c (.spawn ⟨false, none, 5, 3, 4⟩, compInfo false true) = true ∧ (c.s 0 0 5).toNat % 32 ≠ 0) ∧
    (turnIn spawnBase c (.spawn ⟨false, none, 6, 3, 4⟩, compInfo false true) = true ∧
      okAnd (checkAccs (started spawnBase c false) c.who .load (accs8 0 0x60 [] 4)) (fun _ s1 => (match readEntryDesc s1 loadCtx 0x80 with | .ok none => true | _ => false)) = true) ∧
    (let s : State := { pageOf (zeros 32 ++ spawnDesc 1 2) 0 0 with cur := .frag 0 0, groups := [grSpawn], blocks := base.blocks }
     turnIn s c (.spawn ⟨false, none, 2, 3, 4⟩, compInfo false true) = true ∧
      okAnd (checkAccs (started s c false) c.who .load (accs8 0 0x20 [] 4)) (fun _ s1 => (match readEntryDesc s1 loadCtx 0x40 with | .ok (some e) => !spawnable e | _ => false)) = true) ∧
    (let s : State := { spawnBase with cores := binsOf (List.replicate 16 (some { bin0 1 false with entryVa := 0x200 })) [] }
     turnIn s c (.spawn ⟨false, none, 2, 3, 4⟩, compInfo false true) = true ∧ binFor (coreOf s 0) loadCtx 0x40 = none) := by decide +kernel

/-- A timer that has run out and one that has not; a list that is full; a first group that fits. -/
theorem test_hyp_SpawnedGroups_lists : let s : State := { spawnBase with groups := [], blocks := [], cores := binsOf [some (bin0 3 false), some (bin0 8 true)] (List.replicate 15 (bin0 8 false)), time := 1300 }
    (coreOf s 0).bins.getD 0 none = some (bin0 3 false) ∧ 0 + 2048 ≤ clk s ∧ clk base < 0 + 2048 ∧ (coreOf s 0).bins.getD 1 none = some (bin0 8 true) ∧
    (coreOf s 0).spawnList.length < 16 ∧ 16 ≤ (coreOf { s with cores := binsOf [some (bin0 3 false)] (List.replicate 16 (bin0 8 false)) } 0).spawnList.length ∧
    (coreOf s 0).spawnList = bin0 8 false :: List.replicate 14 (bin0 8 false) ∧ spawnFits s 0 (bin0 8 false) = true ∧
    (let x : State := { s with offline := [0] }; spawnFits x 0 (bin0 8 false) = false ∧ spawnNever x (bin0 8 false) = false) ∧
    (let x := writeBytes s 1 0x40001028 (zeros 4); spawnFits x 0 (bin0 8 false) = false ∧ spawnNever x (bin0 8 false) = true) := by decide +kernel

/-- A task record of that many gangs of the entry. -/
def taskRec (gangs : Nat) : QRecord := QRecord.fresh 1 (leBytes 8 0x40 ++ leBytes 8 (gangs * 2 ^ 24 + 3 * 2 ^ 50) ++ zeros 48) 0
def dispBase (gang gangs : Nat) : State := { pageOf (zeros 32 ++ spawnDesc 2 gang) 0 0 with slots := [slot0 0 [taskRec gangs]] }
def dispMeets (gang gangs : Nat) (cores : List Nat) : Bool :=
  let s := dispBase gang gangs
  let q := slot0 0 [taskRec gangs]
  s.slots.filter (fun x => x.die == 0) == [q] && s.named.isEmpty && !placementHeld s q.ctx && !restoring s q.ctx && judge s q (taskRec gangs) == .eligible (spawnEntry 2 gang) &&
    (strayTasks s 0).isEmpty && decide (tasksBusy s 0 < 256) && s.gangs.isEmpty && coresOk s q.ctx 0 (spawnEntry 2 gang) cores && decide (gang ≤ (freeImages s q.ctx gang).length) &&
    (taskRec gangs).page.isNone && (taskRec gangs).task.isNone && !queueHeld s q.pa none

/-- The last gang of a task and one of two, on one core and on two. -/
theorem test_hyp_Dispatch : dispMeets 1 1 [95] = true ∧ dispMeets 2 2 [0, 1] = true := by decide +kernel

def aged0 (waited aged : Nat) : QRecord := { rec16 with waited, aged }
def task0 : Task := { life := .running, ctx := loadCtx, die := 0, desc := 0, words := List.replicate 8 5, entry := spawnEntry 2 1, ended := 0, seq := 0, aged := 0, posted := false }
def dequeBlock (core : Nat) : Block := { Block.start loadCtx (some 0) 0 0 0 core 0x40 (spawnEntry 2 1) 0 with life := .deque }

theorem test_hyp_Dispatch_rest : (let s : State := { pageOf [] 0 0 with slots := [slot0 1 [aged0 65535 0, { aged0 65536 0 with id := 2 }]] }
      (s.slots.filter (fun x => x.die == 0))[0]? = some (slot0 1 [aged0 65535 0, { aged0 65536 0 with id := 2 }]) ∧ (s.slots.map (·.pa)).Nodup ∧
      ((slot0 1 [aged0 65535 0, { aged0 65536 0 with id := 2 }]).recs.map (·.id)).Nodup ∧ 65535 / 65536 ≤ 0 ∧ 0 < 65536 / 65536) ∧
    (let s : State := { pageOf [] 0 0 with blocks := [dequeBlock 0], tasks := [task0], cores := [(0, { Core.empty with deque := [0] })] }
     gangBlock s 0 = none ∧ (coreOf s 0).deque = [0] ∧ ((coreOf s 0).spawnList.head?).any (spawnFits s 0) = false ∧ s.blocks[0]? = some (dequeBlock 0) ∧
     (dequeBlock 0).task.bind (fun t => s.tasks[t]?) = some task0 ∧ (dequeBlock 0).entry.block ≤ (freeSlots s 0).length ∧ s.groups = []) ∧
    (let s : State := { pageOf [] 0 0 with blocks := [dequeBlock 1, dequeBlock 1], tasks := [task0], cores := [(1, { Core.empty with deque := [0, 1] })] }
     2 ≤ (coreOf s 1).deque.length ∧ coreIdle s 0 = true ∧ (activeCores s 0).contains 0 = true ∧ (coreOf s 1).deque.head? = some 0 ∧
     roomBesideAb s (dequeBlock 1).entry (dequeBlock 1).entry.block 0 = true ∧ abRoom s (dequeBlock 1).entry 0 = true ∧ (coreOf s 0).deque.length < 16) := by decide +kernel

/-! ### Upkeep -/

/-- Passed over for 255 clk and for 256; two held counts of a context that has left the core, one of whose words is claimed still; a task's word and counter. -/
theorem test_hyp_Upkeep : (let gr := { gr0 with frags := [{ fr0 with passed := 255 }, { fr0 with id := 1, passed := 256 }] }
      (withGroup gr).groups[0]? = some gr ∧ (gr.frag? 0).map (·.passed) = some 255 ∧ (gr.frag? 1).map (·.passed) = some 256) ∧
    (let w := (loadCtx.root.toNat + 0x1180) / 4; let hs := [true, true, false, false]
     let s : State := { pageOf [] 0 0 with reg := [(w + 1, .claimed (.group 5) none)], cores := [(0, { Core.empty with counts := [(loadCtx, [1, 2, 0, 0xFFFFFFFF])], held := [(loadCtx, hs)] })] }
     clk s % 65536 < 2 ∧ (coreOf s 0).held = [(loadCtx, hs)] ∧ residentOn s 0 loadCtx = false ∧ 2 ≤ clk { s with time := s.time + 100 } % 65536 ∧
     (match fixedAt s loadCtx (loadCtx.root.toNat + 0x1180) with | .at _ => true | _ => false) = true ∧ hs.length = 4 ∧ (coreCounts s 0 loadCtx).length = 4 ∧
     (List.range 4).map (fun i => foldHeld s (w + i)) = [false, true, false, false] ∧ (coreOf base 0).held = []) ∧
    (let s : State := { pageOf (leBytes 8 3) 0 0 with tasks := [{ task0 with life := .wordPending, words := [0, 0, 0, 0, 0xFF8, 9, 0, 0] }, { task0 with life := .donePending, words := [0, 0, 0, 0xFF8, 0, 0, 0, 0] }] }
     (match deviceXlat s loadCtx .atomic 0xFF8 with | .ok pa _ => !cwHeld s pa | _ => false) = true ∧
     (match deviceXlat { s with tasks := [{ task0 with life := .donePending, words := [0, 0, 0, 8, 0, 0, 0, 0] }] } loadCtx .atomic 0 with | .ok pa k => !cwHeld s pa && leNat (readBytes s k pa 8) == 3 | _ => false) = true) := by decide +kernel

/-- The end of an interval on a core with a pinned tile in its last frame but three and, where one waits, a group that needs all of AB. -/
def abBase (waits : Bool) (carve : Nat) : State :=
  { pageOf [] 0 0 with
    blocks := [{ Block.start loadCtx none 0 0 0 0 0x40 (spawnEntry 1 1) 0 with tiles := (List.replicate 64 Tile.empty).set 0 { tile0 with hold := 1, place := 92 } }],
    cores := [(0, { Core.empty with carve, interval := 7, tileHits := 65, tileMisses := 1, tightHits := 1, lostMisses := 1, spawnList := if waits then [{ bin0 8 false with entry := { spawnEntry 1 1 with carveMin := 1536 } }] else [] })] }
def abNext (s : State) : State := modCore s 0 (fun k => { k with interval := clk s / 65536, tileHits := 0, tileMisses := 0, tightHits := 0, lostMisses := 0 })

theorem test_hyp_Upkeep_interval : (clk (abBase true 64) % 65536 < 2 ∧ clk (abBase true 64) / 65536 ≠ (coreOf (abBase true 64) 0).interval) ∧
    (let s := abBase true 1408; let k := coreOf s 0
     waitsAb (abNext s) 0 = true ∧ k.carve + 64 ≤ abMax (residents s 0) ∧ 64 * 1 < 65 ∧ k.samples 65 1 0 = true ∧ (raiseTo s 0 (k.carve + 64)).isSome = true) ∧
    (let s := abBase false 64; let k := coreOf s 0
     waitsAb (abNext s) 0 = false ∧ 64 ≤ k.carve ∧ abMin (residents s 0) ≤ k.carve - 64 ∧ 1 < 32 * 1 ∧ k.samples 1 0 1 = true ∧ k.samples 67 0 0 = false ∧ k.samples 9 2 0 = false) := by decide +kernel

/-- An empty slot whose time has come, at 65,536 clk of idling, and one that has not; a fault entry whose queue, at the page's start, has room. -/
theorem test_hyp_Upkeep_queues : let q := slot0 1 []
    (let s : State := { pageOf [] 0 0 with slots := [q], time := 38551 }
     (s.slots.filter (fun x => x.die == 0))[0]? = some q ∧ s.named = [] ∧ q.idleSince + 65536 ≤ clk s ∧ clk { s with time := 38550 } < q.idleSince + 65536 ∧
     (match devWrite s q.ctx (q.desc + 24) q.counters with | .ok _ => true | _ => false) = true) ∧
    (let e : FaultEntry := { ctx := loadCtx, kind := 1, access := 0, addr := 0x1000, originKind := 0, origin := 0, time := 0 }
     let s : State := { pageOf (leBytes 2 0x5144 ++ [2, 0, 0] ++ zeros 3 ++ leBytes 8 0x800 ++ [11] ++ zeros 47) 0 0 with overflow := { Overflow.empty with entries := [e], dropped := [(loadCtx, 3)] } :: List.replicate 5 Overflow.empty }
     (s.overflow.getD 0 Overflow.empty).entries = [e] ∧ (faultAppend s e ((s.overflow.getD 0 Overflow.empty).dropsOf e.ctx)).isSome = true) := by decide +kernel

/-! ### Pre-emption -/

/-- One gang of one running block under a request word. -/
def reqBase (code seq : Nat) (b : Block) : State := { pageOf [] code seq with gangs := [gang0], blocks := [b] }
def runBlock : Block := { Block.start loadCtx none 0 0 0 0 0 loadEntryDesc 0 with groups := [0] }
def isNew (s : State) (code : Nat) : Bool :=
  knownCtx s loadCtx && (requestWord s loadCtx).1 == code && requestWord s loadCtx != ((lastRequest s loadCtx).map (fun r => (r.code, r.seq))).getD (0, 0)

/-- Every code with a new sequence, the first one 0 with sequence 1; the last request the same as the new one but for its sequence. -/
theorem test_hyp_Requests : ((List.range 8).all (fun code => isNew (reqBase code 1 runBlock) code)) = true ∧
    isNew { reqBase 3 2 runBlock with requests := [{ ctx := loadCtx, code := 3, seq := 1, answered := true, result := 0, rcslot := none }] } 3 = true ∧
    (let s := reqBase 2 1 runBlock; residentGangs s loadCtx = [0] ∧ s.gangs[0]? = some gang0 ∧ gang0.saving = none ∧ unstarted s gang0 = false ∧ s.spawnSaved = [] ∧ (gangMembers s gang0).Nodup) := by decide +kernel

/-- A block that has written nothing, one that has and has done little, one that has done much. -/
theorem test_hyp_Requests_choice : gangChoice (reqBase 1 1 runBlock) gang0 = .flush ∧ gangChoice (reqBase 1 1 { runBlock with clean := false }) gang0 = .save ∧
    gangChoice { reqBase 1 1 { runBlock with clean := false } with groups := [{ gr0 with prog := 255 }] } gang0 = .drain := by decide +kernel

/-- A block that was switched out and waits for nothing more, and one that waits for a page. -/
theorem test_hyp_Requests_resume : (reqBase 4 1 { runBlock with life := .switchedOut }).spawnSaved = [] ∧ isNew (reqBase 4 1 { runBlock with life := .switchedOut }) 4 = true ∧
    runBlock.missKeys = [] ∧ runBlock.ctx = loadCtx := by decide +kernel

def req0 (code : Nat) (answered : Bool) : Request := { ctx := loadCtx, code, seq := 1, answered, result := 0, rcslot := none }
theorem test_hyp_Requests_status : let s : State := { reqBase 3 1 { runBlock with life := .gone } with requests := [req0 3 false] }
    (lastRequest s loadCtx = some (req0 3 false) ∧ (match fixedAt s loadCtx (loadCtx.root.toNat + 0x1000) with | .at _ => true | _ => false) = true ∧
      carriedOut s (req0 3 false) = true ∧ ∀ i < 2, regOf s ((loadCtx.root.toNat + 0x1008) / 4 + i) = none) ∧
    carriedOut { reqBase 3 1 runBlock with requests := [req0 3 false] } (req0 3 false) = false := by decide +kernel

/-- An instruction parked for 20,000 clk and one for less; a drain that runs out. -/
theorem test_hyp_Images_out : (let s : State := { reqBase 0 0 runBlock with groups := [grLog { parked 0 4 with since := 0 }], time := 11765 }
      s.blocks[0]? = some runBlock ∧ s.gangs[runBlock.gang]? = some gang0 ∧ runBlock.life = .running ∧ gang0.saving = none ∧
      (s.groups.all (fun gr => gr.block == 0 && gr.going && gr.overdue (clk s))) = true ∧ (s.groups.all (fun gr => gr.overdue (clk { s with time := 11764 }))) = false) ∧
    (let b := { runBlock with drainFrom := some 1 }; let s : State := { reqBase 0 0 b with time := 588236 }
     b.drainFrom = some 1 ∧ 1 + drainLimit s loadCtx ≤ clk s ∧ clk { s with time := 588235 } < 1 + drainLimit s loadCtx ∧ unstarted s gang0 = false ∧ gang0.blocks.Nodup) := by decide +kernel

/-- A gang on its way with its member drained, and one that a FILL holds; one that may come back to core 1, and one that may not. -/
theorem test_hyp_Images : let x := { gang0 with saving := some false }
    (let s : State := { reqBase 0 0 runBlock with gangs := [x], groups := [gr0], reg := [(0x10001800, .owned (.group 0) 0 0)] }
     s.gangs[0]? = some x ∧ gangMembers s x = [0] ∧ (s.reg.map (·.1)).Nodup ∧ drained s 0 = true ∧ liveGroups s runBlock = [0] ∧ gr0.run = none ∧
     drained { s with chunks := [chunk0] } 0 = false) ∧
    (let b := { runBlock with entry := spawnEntry 1 1, life := .saved, ready := true }; let s : State := { reqBase 0 0 b with groups := [gr0] }
     imagedMembers s gang0 = [0] ∧ restorable s 0 gang0 [0] = true ∧ everRestored s loadCtx 1 = true ∧ restorePlan s loadCtx [0] [1] = some [1] ∧ framedTiles s 1 = [] ∧
     (b.tiles.all (fun y => !y.state.framed)) = true ∧ b.groups.Nodup ∧ liveGroups s b = [0] ∧ gr0.log = [] ∧ gr0.region = none ∧ gr0.late = [] ∧
     (let z := writeBytes s 1 0x4000103D [0]; restorable z 0 gang0 [0] = true ∧ everRestored z loadCtx 1 = false) ∧ restorable (reqBase 0 0 { b with ready := false }) 0 gang0 [0] = false) := by decide +kernel

/-! ### Host, fabric, life cycle -/

def hostBase : State := { pageOf (List.replicate 8 7) 0 0 with hostCtx := loadCtx }

/-- The last line of the page; its last byte; a page that is not there. -/
theorem test_hyp_HostSide : 0x1000 < hdmRange hostBase ∧ hostBase.poison = [] ∧ (hostBase.bars[1]?).isSome = true ∧ hostBase.blocks = [] ∧
    (match (translate hostBase (.iod 1) hostBase.hostCtx false .load (BitVec.ofNat 64 (0xFFF / 64 * 64))).1 with
     | .ok pa _ => pa % 64 == 0 && (List.range 16).all (fun i => (regOf hostBase (pa / 4 + i)).isNone && (tabFind hostBase.tags (aliasOf (4 * (pa / 4 + i)) / 64)).isNone)
     | _ => false) = true ∧
    (match (translate hostBase (.iod 1) hostBase.hostCtx false .store 0xFFF).1 with
     | .ok pa _ => pa % 64 == 0xFFF % 64 && (List.range 16).all (fun i => registers (pa / 64 * 16 + i) && (regOf hostBase (pa / 64 * 16 + i)).isNone)
     | _ => false) = true ∧ ([1] : List Byte).length ≤ 64 - 0xFFF % 64 ∧
    (match (translate hostBase (.iod 1) hostBase.hostCtx false .store 0x1000).1, (translate hostBase (.iod 1) hostBase.hostCtx false .load 0x1000).1 with
     | .page _, .page _ => true | _, _ => false) = true := by decide +kernel

/-- A line of a poisoned unit; a core with no block. -/
theorem test_hyp_HostSide_poison : let s : State := { hostBase with poison := [0x40006000 / 64] }
    (match (translate s (.iod 1) s.hostCtx false .load 0).1 with | .ok pa _ => s.poison.contains (pa / 64) | _ => false) = true ∧ (∀ b ∈ s.blocks, b.core = 5 → b.life ≠ .running) ∧
    (s.bars[1]?).map (·.msix.length) = some 256 := by decide +kernel

def flit0 : Flit := { slot := false, seq := 0, type := 2, tag := 0, payload := [] }

theorem test_hyp_Fabric : (base.ports[31]? = some Port.reset ∧ Port.reset.up = true ∧ Port.reset.retiring = false) ∧ flit0.type = BitVec.ofNat 8 2 ∧
    (let x : Port := { Port.reset with retiring := true, slot := true, replay := [{ flit0 with slot := true }] }
     x.retiring = true ∧ (∀ f ∈ x.replay, f.slot = x.slot) ∧ x.replay.length < 1024) ∧ (base.blocks.all (fun b => b.life == .running)) = true ∧
    (base.groups.all (fun gr => gr.log.isEmpty)) = true := by decide +kernel

/-- A flit of that type and sequence number whose tag verifies at port 31. -/
def flitIn (type : BitVec 8) (seq : BitVec 48) : Flit :=
  { slot := false, seq, type, tag := flitTag (Port.reset.key false) 31 false false type.toNat seq.toNat (List.replicate 232 0), payload := List.replicate 232 0 }

theorem flitIn_ok (type : BitVec 8) (seq : BitVec 48) : flitOk Port.reset 31 (flitIn type seq) = true := by
  rw [flitOk, Bool.and_eq_true, beq_iff_eq, beq_iff_eq]
  exact ⟨List.length_replicate, by simp only [flitIn]⟩

/-- The next flit; one that came before, and one further on; one of a reserved type; one of no payload. -/
theorem test_hyp_Fabric_flits : flitOk Port.reset 31 (flitIn 1 0) = true ∧ flitOk Port.reset 31 (flitIn 3 0) = true ∧ (flitIn 2 0).seq = BitVec.ofNat 48 Port.reset.received ∧
    ((flitIn 2 0xFFFFFFFFFFFF).seq ≠ BitVec.ofNat 48 Port.reset.received ∧ ((0 : BitVec 48) - 0xFFFFFFFFFFFF).toNat < 2 ^ 47) ∧ 2 ^ 47 ≤ ((0 : BitVec 48) - 1).toNat ∧
    4 < (flitIn 5 0).type.toNat ∧ flitOk Port.reset 31 flit0 = false ∧ Port.reset.sent - Port.reset.begun < 2 ^ 47 ∧
    2 ^ 47 ≤ ({ Port.reset with sent := 2 ^ 47 } : Port).sent - Port.reset.begun ∧ (∃ f ∈ ({ Port.reset with replay := [flit0] } : Port).replay, f.slot = false) :=
  ⟨flitIn_ok 1 0, flitIn_ok 3 0, rfl, ⟨by decide +kernel, by decide +kernel⟩, by decide +kernel, by decide +kernel, rfl, by decide +kernel, by decide +kernel, ⟨flit0, by decide +kernel, rfl⟩⟩

/-- A message that asks for an access, which its home performs; what the port may send, and where it may not. -/
theorem test_hyp_Fabric_access : let taken : State := { base with ports := base.ports.set 31 { Port.reset with received := 1 } }
    (RemoteAccess.mk (.remote 5 9) .load 0x40006000).agent = .remote 5 9 ∧ (match exec (.homeAccess (.remote 5 9) .load 0x40006000) taken with | .next _ => true | _ => false) = true ∧
    Port.reset.maySend = true ∧ ({ Port.reset with up := false } : Port).maySend = false ∧ (flitIn 4 0).type = 4 := by decide +kernel
theorem test_hyp_Fabric_keyControl : flitOk Port.reset 31 (flitIn 4 0) = true ∧ flitOk Port.reset 31 { flit0 with type := 4 } = false := ⟨flitIn_ok 4 0, rfl⟩

def scopeNames (e : BitVec 20 × BitVec 20) (p : BitVec 20) : Bool := (p ^^^ e.1) &&& e.2 == 0
def scopesGood (pkg : BitVec 20) (l : List (BitVec 20 × BitVec 20)) : Bool :=
  decide (l.length ≤ 16) && l.all (fun e => scopeNames e pkg) && (l.zip l.tail).all (fun p => p.1.2 &&& p.2.2 == p.2.2 && scopeNames p.2 p.1.1)

/-- Two nested scopes that name the package; a table that leaves it out. -/
theorem test_hyp_Fabric_scopes : base.pkgId = 0 ∧ scopesGood 0 [(0, 0xFFFFF), (0x00F0F, 0xF0000)] = true ∧ scopesGood 0 [(1, 0xFFFFF)] = false ∧
    (∀ w ∈ [0x400, 0x401], regOf base w = none ∧ regOf { base with reg := [(0x400, .frozen 1), (0x401, .frozen 2)] } w ≠ none) := by decide +kernel

/-- A die with a gang on it, and one without; the reset under way; a die that is offline. -/
theorem test_hyp_LifeCycle : let s := reqBase 0 0 runBlock
    s.offline = [] ∧ s.hostState = 2 ∧ gangsOnDie s 0 = [0] ∧ unstarted s gang0 = false ∧ gang0.saving = none ∧
    ({ s with hostState := 0x13 } : State).hostState.toNat = 3 + 16 * 1 ∧ gangsOnDie s 1 = [] ∧ enginesClear s 1 = true ∧
    (isDevice 0x40006000 = true ∧ homeDie 0x40006000 = 0 ∧ regOf { s with reg := [(0x10001800, .released (.control 30) 5)] } 0x10001800 = some (.released (.control 30) 5)) ∧
    ({ s with hostState := 3 } : State).hostState.toNat = 3 + 16 * 0 ∧
    (1 ∈ ({ s with offline := [1] } : State).offline ∧ (s.blocks.all (fun b => b.life != .switchedOut)) = true ∧ s.groups = [] ∧ s.hostState.toNat % 16 ≠ 4 ∧
      (s.reg.map (·.1)).Nodup ∧ ({ s with hostState := 4 } : State).hostState.toNat % 16 = 4) := by decide +kernel

/-- No image: what the fuses hold does not matter. -/
theorem test_hyp_LifeCycle_boot : bootOk State.reset.firmware = false := by
  have h : slhVerify State.reset.firmware.publicKey State.reset.firmware.image State.reset.firmware.signature = false := by decide +kernel
  rw [bootOk, h, Bool.and_false]

/-! ### Words and steps -/

/-- Zeroed memory, and a word of ones. -/
theorem test_hyp_RefusedWords : (fetchWord base c0.who c0.fr.pc).1 = .word 0 ∧ base.groups[c0.g]? = some c0.gr ∧ c0.gr.frag? c0.f = some c0.fr ∧
    (let s : State := { loadProgram State.reset [255, 255, 255, 255] with agenda := [], cur := .control 0 }
     (fetchWord { s with ctls := ctlBase.ctls } (ctl0.who 0) ctl0.pc).1 = .word 0xFFFFFFFF ∧ ctlBase.ctls[0]? = some ctl0) ∧ ctl0.deferred = [] ∧ ctl0.ie = false ∧ ctl0.wait = .run ∧
    (wSet 0x00FFFFFF = false ∧ wMajor 0x00FFFFFF = 0) ∧ (wSet 0xFF000000 = true ∧ wMajor 0xFF000000 = 63 ∧ wMajor 0xFF000000 ∈ reservedMajors) ∧
    ((encode (.trapBreak ⟨false, 1⟩)).any (fun p => wSet p.1 && classC.contains (wMajor p.1)) = true ∧ Instr.wf (.trapBreak ⟨false, 1⟩) = true) ∧
    Instr.wf (.setwImmediate ⟨false, 0⟩) = false ∧ Machine.Instr.isEvent (.setwImmediate ⟨false, 0⟩) = false ∧ Instr.regsOk 8 (.mov ⟨false, 8, 0⟩) = false ∧
    (encode (.mov ⟨false, 5, 9⟩)).any (fun p => wSet p.1 == false) = true ∧ ({ ctl0 with pv := false } : Ctl).pv = false := by decide +kernel

/-- A word of one and an instruction of two, of a fragment and of a control core, each at its pc with its turn at the head of the schedule. -/
def stepFrag (w e : Nat) : State := { loadProgram State.reset (leBytes 4 w ++ leBytes 4 e) with cur := .idle }
def stepMeets (s : State) (who : Who) (vcount : Nat) (two : Bool) : Bool :=
  match fetchWord s who 0 with
  | (.word w, s1) => (0 < vcount || wSet w) && (if two then (match fetchWord s1 who 4 with
      | (.word e, _) => lengthOf w == some 2 && word0Ok vcount w && (decode w e).isSome
      | _ => false) else lengthOf w == some 1 && (decode w 0).isSome)
  | _ => false

theorem test_hyp_StepRunsInstruction : ([(0x01040001, 0, false), (0x03030000, 0x12345, true)].all (fun p => let s := stepFrag p.1 p.2.1
      s.agenda == [.party (.frag 0 0)] && !deliverable s 0 && fragReady s 0 0 false && (goesFirst s (.frag 0 0)).isNone && (let s0 : State := { s with free := s.free + 1, agenda := [], cur := .frag 0 0 }
        stepMeets s0 c0.who 256 p.2.2 && stepMeets (modCore s0 0 (fun k => { k with turn := .frag 0 0 })) c0.who 256 p.2.2))) = true ∧
    ([(0xB7000000, 0, false), (0xB6042000, 0x10000, true)].all (fun p => let s := stepFrag p.1 p.2.1
      s.agenda == [.party (.control 0)] && ctlEnabled s 0 && s.ctls[0]? == some ctl0 && stepMeets { s with free := s.free + 1, agenda := [], cur := .control 0 } (ctl0.who 0) 0 p.2.2)) = true ∧
    (base.agenda = [] ∧ (base.free + 1) % 32 ≠ 31 ∧ ready { base with free := base.free + 1 } base.cur false = true ∧ urgentReady { base with free := base.free + 1 } = none) ∧
    (let gr := { gr0 with frags := [{ fr0 with urgent := true }] }; urgentReady { withGroup gr with free := base.free + 1 } = some (.frag 0 0)) ∧ Machine.Instr.isEvent (.doorbell 1) = true ∧
    (let gr := { gr0 with frags := [fr0, { fr0 with id := 1, urgent := true }] }; goesFirst { withGroup gr with agenda := [.party (.frag 0 0)] } (.frag 0 0) = some (.frag 0 1)) ∧
    (let s : State := { withGroup gr0 with agenda := [.outside .timeBaseTick], time := base.time + 100 }; urgentReady s = none ∧ 2 ≤ clk s % 65536 ∧ ∀ gr ∈ s.groups, ∀ x ∈ gr.frags, x.wait.again = false) ∧
    (let s : State := { withGroup { gr0 with frags := [{ fr0 with urgent := true }] } with agenda := [.outside .timeBaseTick] }; urgentReady s = some (.frag 0 0)) ∧
    (match (translate base (.core 0) loadCtx false .fetch 0xFFC).1 with | .ok pa _ => pa % 4 == 0 && (regOf base (pa / 4)).isNone | _ => false) = true := by decide +kernel

theorem test_hyp_DecodeAndEncodeAgree : Instr.wf (.iadd ⟨true, some ⟨true, 3⟩, .i64, true, 254, 252, .imm (-128)⟩) = true ∧
    (encode (.iadd ⟨true, some ⟨true, 3⟩, .i64, true, 254, 252, .imm (-128)⟩)).isSome = true ∧ (decode 0x01040001 0).isSome = true ∧
    hardwareStep (.mov ⟨false, 5, 9⟩) = false ∧ hardwareStep .coldStart = true := by decide +kernel

/-- An invariant holds at reset, and a step goes on. -/
theorem test_hyp_invariants : Memory.wf State.reset.mem = true ∧ State.reset.ctls.length = 96 ∧
    (State.reset.ctls.all (fun c => decide (c.depth ≤ 4) && !c.kpend.getLsbD 0 && !c.kmask.getLsbD 0 && c.kbind &&& ~~~(0x00FFFFFFC3FFFFFF : DWord) == 0)) = true ∧
    (match step State.reset with | .next _ => true | _ => false) = true := by decide +kernel

/-! ### One step at a time: results worked out by hand from the rules named -/

/-- What an instruction of the fragment leaves in a register of thread `t`. -/
def leaves (gr : Group) (i : Instr) (key : RegKey) : Option DWord :=
  match exec i (withGroup gr) with
  | .next t => (t.groups[0]?).map (fun x => x.read key)
  | _ => none
def groupAfter (gr : Group) (i : Instr) : Option Group :=
  match exec i (withGroup gr) with
  | .next t => t.groups[0]?
  | _ => none
def grV (l : List (Nat × Nat)) : Group := { gr0 with v := l.map (fun p => (p.1, BitVec.ofNat 32 p.2)) }

/-- R127: 2,147,483,647 + 1 is clamped. -/
theorem test_iadd_saturates : leaves (grV [(5, 0x7FFFFFFF), (6, 1)]) (.iadd ⟨true, none, .i32, true, 7, 5, .reg 6⟩) (.v 0 7) = some 0x7FFFFFFF := by decide +kernel
/-- R127, R126: 255 + 1 as an n8 wraps to 0; the source is the destination. -/
theorem test_iadd_wraps : leaves (grV [(5, 255)]) (.iadd ⟨true, none, .n8, false, 5, 5, .imm 1⟩) (.v 0 5) = some 0 := by decide +kernel
/-- R157: the high half of (2^32 - 1)^2 is 2^32 - 2. -/
theorem test_imul_high : leaves (grV [(5, 0xFFFFFFFF)]) (.imul ⟨true, none, .n32, .hi, 7, 5, .reg 5⟩) (.v 0 7) = some 0xFFFFFFFE := by decide +kernel
/-- R159: a count of 33 shifts a 32-bit value by 1; SHA repeats the sign. -/
theorem test_sha_count : leaves (grV [(5, 0x80000000), (6, 33)]) (.sha ⟨true, none, .n32, 7, 5, .reg 6⟩) (.v 0 7) = some 0xC0000000 := by decide +kernel
/-- R161: a field of 8 bits at 28 of an i32 is cut at the width; its top bit is the sign. -/
theorem test_bfx_cut : leaves (grV [(5, 0xA0000000)]) (.bfx ⟨true, none, .i32, 7, 5, .imm 28 8⟩) (.v 0 7) = some 0xFFFFFFFA := by decide +kernel
/-- R162: 2^32 + (-1) × 4 + 8, carried through the pair. -/
theorem test_lea_pair : leaves (grV [(5, 0xFFFFFFFF), (11, 1)]) (.lea ⟨true, none, .i32, 12, 10, 5, 2, 8⟩) (.v 0 12) = some 4 ∧
    leaves (grV [(5, 0xFFFFFFFF), (11, 1)]) (.lea ⟨true, none, .i32, 12, 10, 5, 2, 8⟩) (.v 0 13) = some 1 := by decide +kernel
/-- R168: 1 + 2^-24 ties to even, 1, and sets NX in the thread's flags. -/
theorem test_fadd_ties : leaves (grV [(5, 0x3F800000), (6, 0x33800000)]) (.fadd ⟨true, none, .f32, .rn, false, 7, 5, 6⟩) (.v 0 7) = some 0x3F800000 ∧
    (groupAfter (grV [(5, 0x3F800000), (6, 0x33800000)]) (.fadd ⟨true, none, .f32, .rn, false, 7, 5, 6⟩)).map (fun g => tabGet 0 g.fflags 0) = some flNX := by decide +kernel
/-- R173: -2.5 to i32 under rna is -3. -/
theorem test_cvt_away : leaves (grV [(5, 0xC0200000)]) (.cvt ⟨true, none, .one (.fltInt .f32 .i32 .rna false), 7, 5⟩) (.v 0 7) = some 0xFFFFFFFD := by decide +kernel
/-- R180: SHFL.down by 1 in a group of eight: thread 0 gets thread 1's value, thread 7 keeps its own. -/
theorem test_shfl_down : leaves (grOf []) (.shfl ⟨true, none, .down, .oct, false, 9, 8, .imm 1⟩) (.v 0 9) = some 4 ∧
    leaves (grOf []) (.shfl ⟨true, none, .down, .oct, false, 9, 8, .imm 1⟩) (.v 7 9) = some 28 := by decide +kernel
/-- R185: 0 + 4 + … + 28 is 112, in every thread; the inclusive scan of thread 2 is 12. -/
theorem test_red_sum : leaves (grOf []) (.red ⟨true, none, .win, .int .n32 .add, 9, 8⟩) (.v 5 9) = some 112 ∧
    leaves (grOf []) (.scan ⟨true, none, .win, false, .int .n32 .add, 9, 8⟩) (.v 2 9) = some 12 := by decide +kernel
/-- R242, R65, R5: ST then LD of thread t's address s4 + v8. -/
theorem test_store_then_load : (match exec (.st { ldOp with vt := 8 }) (sV [(4, 0x800)]) with
    | .next t => readBytes t 1 0x40006800 8 == [0, 0, 0, 0, 4, 0, 0, 0] && (match exec (.ld ldOp) t with
      | .next u => (u.groups[0]?).map (fun g => g.read (.v 7 20)) == some 28
      | _ => false)
    | _ => false) = true := by decide +kernel
/-- R195: half of eight threads taken: on a tie the part not taken stays, and the new fragment goes to the target. -/
theorem test_brd_tie : (groupAfter grHalf (.brd ⟨true, 1, false, 2, 4⟩)).map (fun g => g.frags.map (fun f => (f.mask.toNat, f.pc, f.toks))) =
    some [(0xF0, 4, [(2, 0)]), (0xF, 16, [(2, 0)])] := by decide +kernel
/-- R354: the only group of its block passes a barrier at once, and the phase flips. -/
theorem test_bar_passes : (match exec (.bar ⟨true, 3⟩) base with
    | .next t => (t.groups[0]?).map (fun g => g.frags.map (fun f => (f.pc, f.wait))) == some [(4, .run)] && barPhase t 0 3
    | _ => false) = true := by decide +kernel
/-- R239, R306, R308: a misaligned access is queued as cause 3 with its address, and delivered at %tvec. -/
theorem test_misalign_delivered : (match exec (.ld ldOp) (withGroup { grOf [(4, 2)] with tvec := 0x40 }) with
    | .next t => (t.groups[0]?).map (fun g => g.trapQ.map (fun e => (e.cause, e.addr))) == some [(3, 2)] && (match exec (.trapDelivery 0) t with
      | .next u => (u.groups[0]?).map (fun g => g.frags.map (fun f => f.pc)) == some [0x40]
      | _ => false)
    | _ => false) = true := by decide +kernel
/-- R69, R120: HALT in user mode is PRIV, cause 2: the handler's address is KTBL + 128. -/
theorem test_priv_trap : (match exec (.halt ⟨true⟩) (ctlWith { ctl0 with pv := false, ktbl := 0x800 }) with
    | .next t => (t.ctls[0]?).map (fun c => (c.pc, c.pv, c.depth, c.sreg 61)) == some (0x880, true, 1, 2)
    | _ => false) = true := by decide +kernel
/-- R187: all 64 bits, modulo 2^64. -/
theorem test_iop_wraps : leaves (grOf [(2, 0xFFFFFFFFFFFFFFFF), (3, 2)]) (.iopIadd ⟨true, 1, 2, 3⟩) (.s 1) = some 1 := by decide +kernel
/-- R192: CALL leaves the next address in s63. -/
theorem test_call_link : leaves gr0 (.call ⟨true, 9⟩) (.s 63) = some 4 ∧ (groupAfter gr0 (.call ⟨true, 9⟩)).map (fun g => g.frags.map (·.pc)) = some [36] := by decide +kernel
/-- R269: MMA.z of a row of ones with a column of ones gives k: 1.0 as bf16 is 0x3F80. -/
theorem test_mma_ones : (match exec (.mma ⟨true, some ⟨false, 1⟩, .bf16, true, false, 32, 4, 5⟩)
      (withBlock (withGroup { gr0 with q := [(1, true)], v := (List.range 8).map (fun i => (32 + i, 0x3F803F80)) })
        (fun b => { b with wb := (List.range 32).map (fun i => (i, if i % 2 = 0 then 0x80 else 0x3F)) })) with
    | .next t => leNat (cbRead t c0 0 4) == 0x41800000
    | _ => false) = true := by decide +kernel

end Sys2Proof.Tests
end

section
/-! SUPPORT. What each operation of the model does to memory. `f_mem`: `f` leaves memory as it is; `memory_wf_f`: `f` keeps memory
in its canonical form. In the order of the definitions. -/

namespace Sys2Proof.Machine

/-! ### What a result carries -/

/-- The state that performing an instruction leaves. -/
def Perf.state : Perf → State
  | .done s => s
  | .trap _ _ _ s => s
  | .park _ _ s => s
  | .again s => s

@[simp] theorem Perf.state_done (s : State) : (Perf.done s).state = s := rfl
@[simp] theorem Perf.state_trap (cause : Nat) (addr aux : DWord) (s : State) : (Perf.trap cause addr aux s).state = s := rfl
@[simp] theorem Perf.state_park (pages : List (DWord × Nat)) (dies : List Nat) (s : State) :
    (Perf.park pages dies s).state = s := rfl
@[simp] theorem Perf.state_again (s : State) : (Perf.again s).state = s := rfl

theorem Perf.mem_of_done {p : Perf} {s : State} (e : p = .done s) : s.mem = p.state.mem := by rw [e, Perf.state_done]

/-- The state that a part of a command's work leaves. -/
def Eng.state {α : Type} : Eng α → State
  | .ok _ s => s
  | .refuse _ s => s
  | .page _ _ _ s => s
  | .wait s => s

@[simp] theorem Eng.state_ok {α : Type} (x : α) (s : State) : (Eng.ok x s).state = s := rfl
@[simp] theorem Eng.state_refuse {α : Type} (k : Nat) (s : State) : (Eng.refuse k s : Eng α).state = s := rfl
@[simp] theorem Eng.state_page {α : Type} (va : DWord) (pte code : Nat) (s : State) :
    (Eng.page va pte code s : Eng α).state = s := rfl
@[simp] theorem Eng.state_wait {α : Type} (s : State) : (Eng.wait s : Eng α).state = s := rfl

theorem XlatOnly.mem {s t : State} (h : XlatOnly s t) : t.mem = s.mem := by obtain ⟨_, _, rfl⟩ := h; rfl
theorem CopiesOnly.mem {s t : State} (h : CopiesOnly s t) : t.mem = s.mem := by obtain ⟨_, rfl⟩ := h; rfl
theorem LoadOnly.mem {s t : State} (h : LoadOnly s t) : t.mem = s.mem := by obtain ⟨⟨_, _, rfl⟩, _⟩ := h; rfl

/-- The memory of the state in a pair that a function gives. -/
theorem mem_of_eq_mk {α : Type} {p : α × State} {a : α} {t : State} (e : p = (a, t)) : t.mem = p.2.mem := by rw [e]

/-! ### Tables -/

/-- Entries left out of a canonical table leave a canonical table. -/
theorem tabWfFrom_filter {α : Type} [DecidableEq α] {d : α} (p : Nat × α → Bool) {t : Tab α} {lo : Nat}
    (w : tabWfFrom d lo t = true) : tabWfFrom d lo (t.filter p) = true := by
  induction t generalizing lo with
  | nil => rfl
  | cons x t ih =>
    obtain ⟨k, v⟩ := x
    simp only [tabWfFrom, Bool.and_eq_true, decide_eq_true_eq] at w
    obtain ⟨⟨hk, hv⟩, ht⟩ := w
    rw [List.filter_cons]
    split
    · simp [tabWfFrom, hk, hv, ih ht]
    · exact tabWfFrom_mono (by omega) (ih ht)

/-! ### Choices and loops -/

@[simp] theorem mem_ite (c : Prop) [Decidable c] (s t : State) : (if c then s else t).mem = if c then s.mem else t.mem :=
  apply_ite ..
@[simp] theorem memory_wf_ite (c : Prop) [Decidable c] (m n : Tab Byte) :
    Memory.wf (if c then m else n) = if c then Memory.wf m else Memory.wf n := apply_ite ..

@[simp] theorem foldl_mem {α : Type} {f : State → α → State} (hf : ∀ s a, (f s a).mem = s.mem) (l : List α) (s : State) :
    (l.foldl f s).mem = s.mem := by
  induction l generalizing s with
  | nil => rfl
  | cons a l ih => exact (ih _).trans (hf s a)

@[simp] theorem memory_wf_foldl {α : Type} {f : State → α → State}
    (hf : ∀ s a, Memory.wf s.mem = true → Memory.wf (f s a).mem = true) (l : List α) {s : State} (h : Memory.wf s.mem = true) :
    Memory.wf (l.foldl f s).mem = true := by
  induction l generalizing s with
  | nil => exact h
  | cons a l ih => exact ih (hf s a h)

/-! ### Memory and registration -/

@[simp] theorem noteWrite_mem (s : State) (pa n : Nat) : (noteWrite s pa n).mem = s.mem := rfl
@[simp] theorem setReg_mem (s : State) (w : Nat) (r : Reg) : (setReg s w r).mem = s.mem := rfl
@[simp] theorem clearReg_mem (s : State) (w : Nat) : (clearReg s w).mem = s.mem := rfl
@[simp] theorem regStore_mem (s : State) (a : Agent) (key w : Nat) (va : DWord) : (regStore s a key w va).mem = s.mem := by
  fun_cases regStore s a key w va <;> rfl
@[simp] theorem regAtomic_mem (s : State) (a : Agent) (near : Bool) (w : Nat) (va : DWord) :
    (regAtomic s a near w va).mem = s.mem := by fun_cases regAtomic s a near w va <;> rfl
@[simp] theorem moveLine_mem (s : State) (w : Nat) (va : DWord) : (moveLine s w va).mem = s.mem := by
  fun_cases moveLine s w va <;> rfl
@[simp] theorem releaseAgent_mem (s : State) (c : Agent) : (releaseAgent s c).mem = s.mem := by simp [releaseAgent]
@[simp] theorem settleAgent_mem (s : State) (c : Agent) : (settleAgent s c).mem = s.mem := by simp [settleAgent]
@[simp] theorem dropWord_mem (s : State) (site : Site) (asid : BitVec 16) (va : DWord) (w : Nat) :
    (dropWord s site asid va w).mem = s.mem := (dropWord_only s site asid va w).mem
@[simp] theorem dropAt_mem (s : State) (site : Site) (w : Nat) : (dropAt s site w).mem = s.mem := by
  fun_cases dropAt s site w <;> rfl
@[simp] theorem fillSector_mem (s : State) (site : Site) (asid : BitVec 16) (va : DWord) (key pa : Nat) (p : Bool) :
    (fillSector s site asid va key pa p).mem = s.mem := (fillSector_only s site asid va key pa p).mem

/-! ### Translation -/

@[simp] theorem fillXlat_mem (s : State) (site : Site) (asid : BitVec 16) (es : Fills) : (fillXlat s site asid es).mem = s.mem :=
  (fillXlat_only s site asid es).mem
@[simp] theorem translate_mem (s : State) (site : Site) (c : Ctx) (p : Bool) (u : Use) (va : DWord) :
    (translate s site c p u va).2.mem = s.mem := (translate_only s site c p u va).mem
@[simp] theorem armMonitor_mem (s : State) (pte : Nat) (w : Waiter) : (armMonitor s pte w).mem = s.mem := by simp [armMonitor]

/-! ### Galleys and fault queues -/

@[simp] theorem memory_wf_putWord {s : State} (k pa : Nat) (bs : List Byte) (h : Memory.wf s.mem = true) :
    Memory.wf (putWord s k pa bs).mem = true := by fun_cases putWord s k pa bs <;> simp [*, memory_wf_writeBytes]
@[simp] theorem memory_wf_writePlan {s : State} (l : List (Nat × Nat)) (bs : List Byte) (h : Memory.wf s.mem = true) :
    Memory.wf (writePlan s l bs).mem = true := by
  fun_induction writePlan s l bs <;> simp [*]
theorem memory_wf_devWrite {s t : State} {c : Ctx} {va : DWord} {bs : List Byte} (e : devWrite s c va bs = .ok t)
    (h : Memory.wf s.mem = true) : Memory.wf t.mem = true := by
  unfold devWrite at e
  split at e <;> cases e
  exact memory_wf_writePlan _ _ h
theorem memory_wf_galleyAppend {s t : State} {c : Ctx} {base head tail x : DWord} {lsz : Nat} {bs : List Byte}
    (e : galleyAppend s c base lsz head tail bs = .ok (t, x)) (h : Memory.wf s.mem = true) : Memory.wf t.mem = true := by
  have skipped {o : Option Nat} {a : DWord} {s1 : State} (e1 : (match o with
      | none => Dev.ok s
      | some n => devWrite s c a (leBytes 8 n)) = .ok s1) : Memory.wf s1.mem = true := by
    cases o with
    | none => cases e1; exact h
    | some n => exact memory_wf_devWrite e1 h
  unfold galleyAppend at e
  split at e
  · cases e
  · dsimp only at e
    split at e
    · split at e <;> cases e
      exact memory_wf_devWrite ‹devWrite _ _ _ _ = _› (skipped ‹_›)
    all_goals cases e
theorem memory_wf_faultAppend {s t : State} {f : FaultEntry} {drops : Nat} (e : faultAppend s f drops = some t)
    (h : Memory.wf s.mem = true) : Memory.wf t.mem = true := by
  revert e
  fun_cases faultAppend s f drops
  case case4 e1 _ _ e2 =>
    rintro ⟨⟩
    exact memory_wf_devWrite e2 (memory_wf_galleyAppend e1 h)
  all_goals exact nofun
@[simp] theorem memory_wf_post {s : State} (d : Nat) (e : FaultEntry) (h : Memory.wf s.mem = true) :
    Memory.wf (post s d e).mem = true := by
  unfold post
  dsimp only
  split
  next t e1 =>
    split at e1
    · cases e1
    · exact memory_wf_faultAppend (t := t) e1 h
  next => exact h

/-! ### Ops -/

@[simp] theorem modFrag_mem (s : State) (g f : Nat) (hh : Frag → Frag) : (modFrag s g f hh).mem = s.mem := rfl
@[simp] theorem advance_mem (s : State) (c : Cx) (n : Nat) : (advance s c n).mem = s.mem := rfl
@[simp] theorem jump_mem (s : State) (c : Cx) (pc : DWord) : (jump s c pc).mem = s.mem := rfl
@[simp] theorem park_mem (s : State) (c : Cx) (w : Wait) : (park s c w).mem = s.mem := rfl
@[simp] theorem parkHome_mem (s : State) (c : Cx) (dies : List Nat) : (parkHome s c dies).mem = s.mem := rfl
@[simp] theorem putRegs_mem (s : State) (c : Cx) (l : List (RegKey × DWord)) : (putRegs s c l).mem = s.mem := rfl
@[simp] theorem parkCtl_mem (s : State) (cc : Nat) (w : Wait) : (parkCtl s cc w).mem = s.mem := rfl
@[simp] theorem raiseSource_mem (s : State) (src : Nat) (dest : Nat → Bool) (aux : Nat) :
    (raiseSource s src dest aux).mem = s.mem := rfl
@[simp] theorem checkAccs_mem (s : State) (w : Who) (u : Use) (accs : List Acc) : (checkAccs s w u accs).2.mem = s.mem :=
  (checkAccs_only s w u accs).mem
@[simp] theorem loadAccs_mem (s : State) (w : Who) (l : List (Acc × Nat × Nat)) : (loadAccs s w l).2.2.mem = s.mem :=
  (loadAccs_only s w l).mem
@[simp] theorem regStores_mem_eq (s : State) (w : Who) (key : Nat) (va : DWord) (n k : Nat) :
    (regStores s w key va n k).mem = s.mem :=
  (regStores_mem s w key va n k).1
@[simp] theorem regAtomics_mem (s : State) (w : Who) (near : Bool) (va : DWord) (n k : Nat) :
    (regAtomics s w near va n k).mem = s.mem := by
  induction k generalizing s va n with
  | zero => rfl
  | succ k ih => rw [regAtomics, ih]; simp
@[simp] theorem joinSector_mem (s : State) (site : Site) (n : Nat) : (joinSector s site n).mem = s.mem :=
  (joinSector_only s site n).mem
@[simp] theorem memory_wf_storeAcc {s : State} (w : Who) (p : Acc × Nat × Nat) (h : Memory.wf s.mem = true) :
    Memory.wf (storeAcc s w p).2.mem = true := by
  unfold storeAcc
  dsimp only
  split
  · exact h
  · exact memory_wf_writeBytes _ _ _ (by simp [h])
@[simp] theorem memory_wf_storeAccs {s : State} (w : Who) (l : List (Acc × Nat × Nat)) (h : Memory.wf s.mem = true) :
    Memory.wf (storeAccs s w l).2.mem = true := by
  induction l generalizing s with
  | nil => exact h
  | cons p l ih => exact ih (memory_wf_storeAcc w p h)
@[simp] theorem clearPoison_mem (s : State) (l : List (Acc × Nat × Nat)) : (clearPoison s l).mem = s.mem := by simp [clearPoison]
@[simp] theorem memory_wf_atomAcc {s : State} (w : Who) (near : Bool) (f : Nat → Nat) (p : Acc × Nat × Nat)
    (h : Memory.wf s.mem = true) :
    Memory.wf (atomAcc s w near f p).2.2.mem = true := by fun_cases atomAcc s w near f p <;> simp [*, memory_wf_writeBytes]
@[simp] theorem msiRead_mem (s : State) (iod : Nat) : (msiRead s iod).mem = s.mem := by fun_cases msiRead s iod <;> rfl
@[simp] theorem release_mem (s : State) (a : Agent) (sc : Scope) : (release s a sc).mem = s.mem := by
  fun_cases release s a sc <;> simp +zetaDelta
@[simp] theorem acquire_mem (s : State) (site : Site) (asid : BitVec 16) (sc : Scope) (cover : Cover) :
    (acquire s site asid sc cover).mem = s.mem := by fun_cases acquire s site asid sc cover <;> rfl
@[simp] theorem acquireAll_mem (s : State) (site : Site) (sc : Scope) : (acquireAll s site sc).mem = s.mem := by simp [acquireAll]
@[simp] theorem readChunk_mem (s : State) (k : Chunk) : (readChunk s k).mem = s.mem := by
  fun_cases readChunk s k <;> simp +zetaDelta
@[simp] theorem readChunks_mem (s : State) (g f : Nat) : (readChunks s g f).mem = s.mem := by simp [readChunks]
@[simp] theorem readFill_mem (s : State) (g fill : Nat) : (readFill s g fill).mem = s.mem := by simp [readFill]
@[simp] theorem memory_wf_stopGroup {s : State} (g : Nat) (pc : DWord) (h : Memory.wf s.mem = true) :
    Memory.wf (stopGroup s g pc).mem = true := by fun_cases stopGroup s g pc <;> simp [*]
@[simp] theorem dropChain_mem (s : State) (id : Nat) : (dropChain s id).mem = s.mem := by fun_cases dropChain s id <;> rfl
@[simp] theorem memory_wf_runTrap {s : State} (r : RunInfo) (pc : DWord) (h : Memory.wf s.mem = true) :
    Memory.wf (runTrap s r pc).mem = true := by fun_cases runTrap s r pc <;> simp [*]
@[simp] theorem memory_wf_appendTrap {s : State} (g : Nat) (e : TrapEntry) (byHandler : Bool) (h : Memory.wf s.mem = true) :
    Memory.wf (appendTrap s g e byHandler).mem = true := by fun_cases appendTrap s g e byHandler <;> simp [*]
@[simp] theorem memory_wf_settleLate {s : State} (g : Nat) (h : Memory.wf s.mem = true) :
    Memory.wf (settleLate s g).mem = true := by
  fun_cases settleLate s g with
  | case3 _ _ _ s1 =>
    refine memory_wf_foldl (fun s x h => memory_wf_appendTrap _ _ _ h) _ ?_
    simp +zetaDelta [h]
  | _ => exact h
@[simp] theorem memory_wf_enqueueTrap {s : State} (g : Nat) (e : TrapEntry) (byHandler : Bool) (h : Memory.wf s.mem = true) :
    Memory.wf (enqueueTrap s g e byHandler).mem = true := by simp [enqueueTrap, h]
@[simp] theorem memory_wf_raiseFrag {s : State} (c : Cx) (cause : Nat) (addr aux : DWord) (rpc : Option DWord)
    (h : Memory.wf s.mem = true) :
    Memory.wf (raiseFrag s c cause addr aux rpc).mem = true := by simp [raiseFrag, h]
@[simp] theorem stopCtl_mem (s : State) (cc : Nat) : (stopCtl s cc).mem = s.mem := rfl
@[simp] theorem memory_wf_ctlTrap {s : State} (cc cause source : Nat) (addr aux rpc : DWord) (h : Memory.wf s.mem = true) :
    Memory.wf (ctlTrap s cc cause source addr aux rpc).mem = true := by
  fun_cases ctlTrap s cc cause source addr aux rpc
  case case1 => exact h
  case case2 | case5 => simp [h]
  all_goals simp +zetaDelta [mem_of_eq_mk ‹checkAccs _ _ _ _ = _›, h]
@[simp] theorem memory_wf_raiseCtl {s : State} (cc cause : Nat) (addr aux : DWord) (h : Memory.wf s.mem = true) :
    Memory.wf (raiseCtl s cc cause addr aux).mem = true := by fun_cases raiseCtl s cc cause addr aux <;> simp [*]
@[simp] theorem deferCtl_mem (s : State) (cc cause : Nat) (ipc addr aux : DWord) :
    (deferCtl s cc cause ipc addr aux).mem = s.mem := rfl
@[simp] theorem memory_wf_takeDeferred {s : State} (cc : Nat) (h : Memory.wf s.mem = true) :
    Memory.wf (takeDeferred s cc).mem = true := by
  fun_cases takeDeferred s cc <;> simp +zetaDelta [h]
@[simp] theorem queueRace_mem (s : State) (c : Cx) (r : Option (Race × DWord)) : (queueRace s c r).mem = s.mem := by
  fun_cases queueRace s c r <;> rfl
@[simp] theorem queueRaceCtl_mem (s : State) (cc : Nat) (ipc : DWord) (r : Option (Race × DWord)) :
    (queueRaceCtl s cc ipc r).mem = s.mem := by fun_cases queueRaceCtl s cc ipc r <;> rfl
@[simp] theorem memory_wf_eretCtl {s : State} (cc : Nat) (word : DWord) (h : Memory.wf s.mem = true) :
    Memory.wf (eretCtl s cc word).mem = true := by
  fun_cases eretCtl s cc word
  case case1 => exact h
  case case2 => simp [h]
  all_goals simp +zetaDelta [mem_of_eq_mk ‹checkAccs _ _ _ _ = _›, h]
@[simp] theorem memory_wf_deliverTrap {s : State} (g : Nat) (h : Memory.wf s.mem = true) :
    Memory.wf (deliverTrap s g).mem = true := by fun_cases deliverTrap s g <;> simp [*]
@[simp] theorem memory_wf_returnTrap {s : State} (c : Cx) (word : DWord) (h : Memory.wf s.mem = true) :
    Memory.wf (returnTrap s c word).mem = true := by fun_cases returnTrap s c word <;> simp [*]
@[simp] theorem memory_wf_postGroupPage {s : State} (gr : Group) (access : Nat) (va : DWord) (h : Memory.wf s.mem = true) :
    Memory.wf (postGroupPage s gr access va).mem = true := by simp [postGroupPage, h]
@[simp] theorem memory_wf_parkReq {s0 s : State} (c : Cx) (req : Req) (access : DWord → Nat) (len : Nat)
    (pages : List (DWord × Nat)) (dies : List Nat) (begun : Option Nat) (h0 : Memory.wf s0.mem = true) (h : Memory.wf s.mem = true) :
    Memory.wf (parkReq s0 s c req access len pages dies begun).mem = true := by
  unfold parkReq
  split
  · simp [h0]
  · simp [memory_wf_foldl (fun _ _ h => memory_wf_postGroupPage _ _ _ h), h]
@[simp] theorem memory_wf_waitToIssue {s : State} (c : Cx) (x2 : IssueInfo) (h : Memory.wf s.mem = true) :
    Memory.wf (waitToIssue s c x2).mem = true := by simp [waitToIssue, h]
@[simp] theorem started_mem (s : State) (c : Cx) (w : Bool) : (started s c w).mem = s.mem := rfl
@[simp] theorem memory_wf_privileged {s : State} (cc : Nat) (c : Ctl) {body : State → State} (h : Memory.wf s.mem = true)
    (hb : Memory.wf (body s).mem = true) : Memory.wf (privileged cc c s body).mem = true := by
  unfold privileged
  split <;> simp [h, hb]
@[simp] theorem advanceCtl_mem (s : State) (cc n : Nat) : (advanceCtl s cc n).mem = s.mem := rfl
@[simp] theorem noCtl_mem (x0 : Nat) (x1 : Ctl) (s : State) : (noCtl x0 x1 s).mem = s.mem := rfl
@[simp] theorem noFrag_mem (x0 : Cx) (s : State) : (noFrag x0 s).mem = s.mem := rfl

/-! ### Windows -/

@[simp] theorem winWrite_mem (s : State) (blk : Nat) (sp : Space) (off : Nat) (bs : List Byte) :
    (winWrite s blk sp off bs).mem = s.mem := rfl
@[simp] theorem memory_wf_raiseAcc {s : State} (c : Cx) (cause : Nat) (a : Acc) (h : Memory.wf s.mem = true) :
    Memory.wf (raiseAcc s c cause a).mem = true := by simp [raiseAcc, h]

/-! ### Cores and launches -/

@[simp] theorem modCore_mem (s : State) (n : Nat) (f : Core → Core) : (modCore s n f).mem = s.mem := rfl
@[simp] theorem takeWindows_mem (s : State) (blk : Nat) : (takeWindows s blk).mem = s.mem := by fun_cases takeWindows s blk <;> rfl
@[simp] theorem leaveWindows_mem (s : State) (blk : Nat) : (leaveWindows s blk).mem = s.mem := by
  fun_cases leaveWindows s blk <;> rfl

/-! ### Fragments and traps -/

@[simp] theorem returnSpilled_mem (x0 : Nat) (x1 : State) (x2 : Nat) : (returnSpilled x0 x1 x2).mem = x1.mem := by
  fun_induction returnSpilled x0 x1 x2 <;> simp [*]
@[simp] theorem refillSlots_mem (s : State) (core : Nat) : (refillSlots s core).mem = s.mem := by simp [refillSlots]
@[simp] theorem mergeFamily_mem (s : State) (g tok : Nat) (fam : List Frag) : (mergeFamily s g tok fam).mem = s.mem := by
  fun_cases mergeFamily s g tok fam <;> rfl
@[simp] theorem tryMerge_mem (s : State) (g tok id : Nat) : (tryMerge s g tok id).mem = s.mem := by
  fun_cases tryMerge s g tok id <;> simp [*]
@[simp] theorem tryMerges_mem (s : State) (g : Nat) (x2 : List (Nat × Nat)) : (tryMerges s g x2).mem = s.mem := by
  fun_induction tryMerges s g x2 <;> simp [*]

/-! ### Accesses and requests -/

@[simp] theorem Actor_putS_mem (a : Actor) (s : State) (n : Nat) (x3 : DWord) : (Actor.putS a s n x3).mem = s.mem := by
  fun_cases Actor.putS a s n x3 <;> rfl
@[simp] theorem Actor_race_mem (a : Actor) (s : State) (r : Option (Race × DWord)) : (Actor.race a s r).mem = s.mem := by
  fun_cases Actor.race a s r <;> simp [*]
@[simp] theorem Actor_dirty_mem (a : Actor) (s : State) : (Actor.dirty a s).mem = s.mem := by fun_cases Actor.dirty a s <;> rfl
@[simp] theorem unlessBarred_mem (x : Option Acc) (s : State) {load : Perf} (h : load.state.mem = s.mem) :
    (unlessBarred x s load).state.mem = s.mem := by
  cases x <;> simp [unlessBarred, h]
@[simp] theorem memory_wf_issueReq {s : State} (c : Cx) (len : Nat) (u : Use) (req : Req)
    {perform : State → List (Acc × Nat × Nat) → Perf} (h : Memory.wf s.mem = true)
    (hp : ∀ s l, Memory.wf s.mem = true → Memory.wf (perform s l).state.mem = true) :
    Memory.wf (issueReq c s len u req perform).mem = true := by
  unfold issueReq
  split
  · simp [h]
  · split
    · simp [h]
    · split
      all_goals
        have h1 : Memory.wf (checkAccs s c.who u req.accs).2.mem = true := by simp [h]
        rw [‹checkAccs _ _ _ _ = _›] at h1
      case h_4 l s1 _ =>
        have h2 := hp s1 l h1
        split at * <;> simp_all
      all_goals simp_all
@[simp] theorem memory_wf_issueReqCtl {s : State} (cc : Nat) (c : Ctl) (len : Nat) (u : Use) (req : Req)
    {perform : State → List (Acc × Nat × Nat) → Perf} (h : Memory.wf s.mem = true)
    (hp : ∀ s l, Memory.wf s.mem = true → Memory.wf (perform s l).state.mem = true) :
    Memory.wf (issueReqCtl cc c s len u req perform).mem = true := by
  unfold issueReqCtl
  split
  all_goals
    have h1 : Memory.wf (checkAccs s (c.who cc) u req.accs).2.mem = true := by simp [h]
    rw [‹checkAccs _ _ _ _ = _›] at h1
  case h_5 l s1 _ =>
    have h2 := hp s1 l h1
    split at * <;> simp_all
  all_goals simp_all

/-! ### Lane memory instructions -/

@[simp] theorem performLoad_mem (t : ElemTy) (vt : BitVec 8) (c : Cx) (s : State) (l : List (Acc × Nat × Nat)) :
    (performLoad t vt c s l).state.mem = s.mem := by simp [performLoad]
@[simp] theorem memory_wf_performStore (a : Actor) {s : State} (l : List (Acc × Nat × Nat)) (h : Memory.wf s.mem = true) :
    Memory.wf (performStore a s l).state.mem = true := by simp [performStore, h]
@[simp] theorem memory_wf_ldBody (o : MemOp) (c : Cx) {s : State} (h : Memory.wf s.mem = true) :
    Memory.wf (ldBody o c s).mem = true := by simp [ldBody, h]
@[simp] theorem memory_wf_stBody (o : MemOp) (c : Cx) {s : State} (h : Memory.wf s.mem = true) :
    Memory.wf (stBody o c s).mem = true := by
  fun_cases stBody o c s
  simp_all
@[simp] theorem memory_wf_ldgBody (o : GatherOp) (c : Cx) {s : State} (h : Memory.wf s.mem = true) :
    Memory.wf (ldgBody o c s).mem = true := by simp [ldgBody, h]
@[simp] theorem memory_wf_stgBody (o : GatherOp) (c : Cx) {s : State} (h : Memory.wf s.mem = true) :
    Memory.wf (stgBody o c s).mem = true := by
  fun_cases stgBody o c s
  simp_all
@[simp] theorem memory_wf_atomAccs {s : State} (w : Who) (k : AtomKind) (l : List (Acc × Nat × Nat)) (h : Memory.wf s.mem = true) :
    Memory.wf (atomAccs s w k l).2.2.mem = true := by
  induction l generalizing s with
  | nil => exact h
  | cons p l ih => exact ih (memory_wf_atomAcc _ _ _ _ h)
@[simp] theorem memory_wf_performAtom (rel : Bool) (k : AtomKind) (sc : Scope) (vt : BitVec 8) (c : Cx) {s : State}
    (l : List (Acc × Nat × Nat)) (h : Memory.wf s.mem = true) :
    Memory.wf (performAtom rel k sc vt c s l).state.mem = true := by simp [performAtom, h]
@[simp] theorem memory_wf_atomBody (o : AtomOp) (c : Cx) {s : State} (h : Memory.wf s.mem = true) :
    Memory.wf (atomBody o c s).mem = true := by
  fun_cases atomBody o c s
  simp_all
@[simp] theorem prefetchOne_mem (s : State) (w : Who) (va : DWord) : (prefetchOne s w va).mem = s.mem := by
  unfold prefetchOne
  split
  · rfl
  · split <;> simp [mem_of_eq_mk ‹_›]
@[simp] theorem pftBody_mem (o : PftOp) (c : Cx) (s : State) : (pftBody o c s).mem = s.mem := by simp [pftBody]
@[simp] theorem memory_wf_coreLoad (c : Cx) {s : State} (t : ElemTy) (vt : BitVec 8) (accs : List Acc)
    (inside : Acc → Bool) (read : Acc → List Byte) (h : Memory.wf s.mem = true) :
    Memory.wf (coreLoad c s t vt accs inside read).mem = true := by fun_cases coreLoad c s t vt accs inside read <;> simp [*]
@[simp] theorem memory_wf_coreStore {s : State} (c : Cx) (accs : List Acc) (inside : Acc → Bool) {write : State → Acc → State}
    (hw : ∀ s a, (write s a).mem = s.mem) (h : Memory.wf s.mem = true) :
    Memory.wf (coreStore c s accs inside write).mem = true := by
  unfold coreStore
  split <;> simp [h, hw]
@[simp] theorem memory_wf_ldaBody (o : MemOp) (c : Cx) {s : State} (h : Memory.wf s.mem = true) :
    Memory.wf (ldaBody o c s).mem = true := by simp [ldaBody, h]
@[simp] theorem memory_wf_staBody (o : MemOp) (c : Cx) {s : State} (h : Memory.wf s.mem = true) :
    Memory.wf (staBody o c s).mem = true := by simp -implicitDefEqProofs [staBody, h]
@[simp] theorem memory_wf_ldlBody (o : LsOp) (c : Cx) {s : State} (h : Memory.wf s.mem = true) :
    Memory.wf (ldlBody o c s).mem = true := by simp [ldlBody, h]
@[simp] theorem memory_wf_stlBody (o : LsOp) (c : Cx) {s : State} (h : Memory.wf s.mem = true) :
    Memory.wf (stlBody o c s).mem = true := by simp -implicitDefEqProofs [stlBody, h]
@[simp] theorem performFill_mem (size : Nat) (sp : FillSpace) (offs : FillOffs) (c : Cx) (s : State) (l : List
    (Acc × Nat × Nat)) :
    (performFill size sp offs c s l).state.mem = s.mem := rfl
@[simp] theorem memory_wf_fillBody (o : FillOp) (c : Cx) {s : State} (h : Memory.wf s.mem = true) :
    Memory.wf (fillBody o c s).mem = true := by fun_cases fillBody o c s <;> simp_all

/-! ### Uniform memory instructions -/

@[simp] theorem memory_wf_uniReq {s : State} (a : Actor) (len : Nat) (u : Use) (req : Req)
    {perform : State → List (Acc × Nat × Nat) → Perf} (h : Memory.wf s.mem = true)
    (hp : ∀ s l, Memory.wf s.mem = true → Memory.wf (perform s l).state.mem = true) :
    Memory.wf (uniReq a s len u req perform).mem = true := by
  cases a with
  | frag c => exact memory_wf_issueReq c len u req h hp
  | ctl cc c => exact memory_wf_issueReqCtl cc c len u req h hp
@[simp] theorem performSld_mem (st : BitVec 6) (sz : SldSz) (a : Actor) (s : State) (l : List (Acc × Nat × Nat)) :
    (performSld st sz a s l).state.mem = s.mem := by simp [performSld]
@[simp] theorem memory_wf_sldBody (o : SldOp) (a : Actor) {s : State} (h : Memory.wf s.mem = true) :
    Memory.wf (sldBody o a s).mem = true := by simp [sldBody, h]
@[simp] theorem memory_wf_sstBody (o : SstOp) (a : Actor) {s : State} (h : Memory.wf s.mem = true) :
    Memory.wf (sstBody o a s).mem = true := by
  fun_cases sstBody o a s
  simp_all
@[simp] theorem relBefore_mem (rel : Bool) (sc : Scope) (a : Actor) (s : State) : (relBefore rel sc a s).mem = s.mem := by
  simp [relBefore]
@[simp] theorem memory_wf_performSatom (rel : Bool) (k : AtomKind) (sc : Scope) (sd : BitVec 6) (a : Actor)
    {s : State} (l : List (Acc × Nat × Nat)) (h : Memory.wf s.mem = true) :
    Memory.wf (performSatom rel k sc sd a s l).state.mem = true := by simp [performSatom, h]
@[simp] theorem memory_wf_satomBody (o : SatomOp) (a : Actor) {s : State} (h : Memory.wf s.mem = true) :
    Memory.wf (satomBody o a s).mem = true := by
  fun_cases satomBody o a s
  simp_all
@[simp] theorem memory_wf_guardedFrag {s : State} (g : Option GuardK) (len : Nat) {body : Cx → State → State} (c : Cx)
    (h : Memory.wf s.mem = true) (hb : Memory.wf (body c s).mem = true) : Memory.wf (guardedFrag g len body c s).mem = true := by
  unfold guardedFrag
  split <;> simp [h, hb]
@[simp] theorem memory_wf_guardedCtl {s : State} (g : Option GuardK) (len : Nat) {body : Nat → Ctl → State → State} (cc : Nat)
    (c : Ctl) (h : Memory.wf s.mem = true) (hb : Memory.wf (body cc c s).mem = true) :
    Memory.wf (guardedCtl g len body cc c s).mem = true := by
  unfold guardedCtl
  split <;> simp [h, hb]
@[simp] theorem farRegs_mem (s : State) (a : Agent) (n k : Nat) : (farRegs s a n k).mem = s.mem := by
  induction k generalizing s n with
  | zero => rfl
  | succ k ih => rw [farRegs, ih]; simp
@[simp] theorem memory_wf_farStore {s : State} (a : Agent) (site : Site) (key pa : Nat) (bs : List Byte)
    (h : Memory.wf s.mem = true) :
    Memory.wf (farStore s a site key pa bs).2.mem = true := by fun_cases farStore s a site key pa bs <;> simp [*, memory_wf_writeBytes]
@[simp] theorem memory_wf_rgnBody {s : State} (o : RgnOp) (a : Actor) (ctx : Ctx) {trap : State → DWord → State}
    {wait : State → Nat → State} {go : State → State} (ht : ∀ s x, Memory.wf s.mem = true → Memory.wf (trap s x).mem = true)
    (hw : ∀ s d, Memory.wf s.mem = true → Memory.wf (wait s d).mem = true)
    (hg : ∀ s, Memory.wf s.mem = true → Memory.wf (go s).mem = true) (h : Memory.wf s.mem = true) :
    Memory.wf (rgnBody o a ctx trap wait go s).mem = true := by
  unfold rgnBody
  dsimp only
  split
  · exact ht _ _ h
  · split
    · exact ht _ _ h
    · exact hw _ _ h
    · exact hg _ (by simp [h])
@[simp] theorem maintPage_mem (s : State) (w : Who) (va : Nat) : (maintPage s w va).2.mem = s.mem := by
  unfold maintPage
  dsimp only
  split <;> simp
@[simp] theorem maintRange_mem (s : State) (w : Who) (base size i n : Nat) : (maintRange s w base size i n).2.2.mem = s.mem := by
  induction n generalizing s i with
  | zero => rfl
  | succ n ih =>
    unfold maintRange
    dsimp only
    split <;> simp [ih]
@[simp] theorem cleanWords_mem (s : State) (l : List (Nat × Nat)) : (cleanWords s l).mem = s.mem := rfl
@[simp] theorem dropCopies_mem (s : State) (site : Site) (l : List (Nat × Nat)) : (dropCopies s site l).mem = s.mem := rfl
@[simp] theorem memory_wf_mntBody {s : State} (o : MntOp) (a : Actor) {effect : State → Site → List (Nat × Nat) → State}
    {trap : State → DWord → State} {wait : State → List Nat → State} {go : State → State}
    (he : ∀ s x l, (effect s x l).mem = s.mem) (ht : ∀ s x, Memory.wf s.mem = true → Memory.wf (trap s x).mem = true)
    (hw : ∀ s d, Memory.wf s.mem = true → Memory.wf (wait s d).mem = true)
    (hg : ∀ s, Memory.wf s.mem = true → Memory.wf (go s).mem = true) (h : Memory.wf s.mem = true) :
    Memory.wf (mntBody o a effect trap wait go s).mem = true := by
  unfold mntBody
  dsimp only
  split
  · exact hg _ h
  · split
    · exact ht _ _ h
    · split
      · exact hg _ (by simp [he, h])
      · exact hw _ _ (by simp [h])
@[simp] theorem clnEffect_mem (lvl : MntLevel) (s : State) (x2 : Site) (l : List (Nat × Nat)) :
    (clnEffect lvl s x2 l).mem = s.mem := by fun_cases clnEffect lvl s x2 l <;> rfl
@[simp] theorem invEffect_mem (s : State) (site : Site) (l : List (Nat × Nat)) : (invEffect s site l).mem = s.mem := rfl
@[simp] theorem civEffect_mem (lvl : MntLevel) (s : State) (site : Site) (l : List (Nat × Nat)) :
    (civEffect lvl s site l).mem = s.mem := by simp [civEffect]

/-! ### Tiles -/

@[simp] theorem modTile_mem (s : State) (blk x2 : Nat) (f : Tile → Tile) : (modTile s blk x2 f).mem = s.mem := rfl
theorem frameRoom_mem {s t : State} {core p : Nat} (e : frameRoom s core = some (p, t)) : t.mem = s.mem := by
  unfold frameRoom at e
  split at e
  · cases e; rfl
  · obtain ⟨x, -, e⟩ := Option.map_eq_some_iff.mp e
    cases e; rfl
theorem raiseTo_mem {s t : State} {core b : Nat} (e : raiseTo s core b = some t) : t.mem = s.mem := by
  unfold raiseTo at e
  dsimp only at e
  split at e <;> cases e
  simp -implicitDefEqProofs
@[simp] theorem unfreeze_mem (s : State) (w : Nat) : (unfreeze s w).mem = s.mem := by fun_cases unfreeze s w <;> rfl
@[simp] theorem removeRecord_mem (s : State) (blk x2 : Nat) : (removeRecord s blk x2).mem = s.mem := by simp [removeRecord]
@[simp] theorem putChain_mem (s : State) (c : Chain) : (putChain s c).mem = s.mem := rfl
@[simp] theorem wakeRoot_mem (s : State) (c : Chain) : (wakeRoot s c).mem = s.mem := rfl
@[simp] theorem memory_wf_failChain {s : State} (c : Chain) (cause : Nat) (addr : DWord) (aux : Nat) (h : Memory.wf s.mem = true) :
    Memory.wf (failChain s c cause addr aux).mem = true := by
  fun_cases failChain s c cause addr aux <;> simp +zetaDelta [h]
@[simp] theorem resolved_mem (s : State) (c : Chain) (y k : Nat) (rest : List (Nat × Nat × Nat)) :
    (resolved s c y k rest).mem = s.mem := by fun_cases resolved s c y k rest <;> rfl
theorem memory_wf_chainMove {s t : State} {c : Chain} (e : chainMove s c = some t) (h : Memory.wf s.mem = true) :
    Memory.wf t.mem = true := by
  revert e
  fun_cases chainMove s c
  case case11 s1 e1 => rintro ⟨⟩; simp [frameRoom_mem (t := s1) e1, h]
  all_goals rintro ⟨⟩
  all_goals simp [h]
@[simp] theorem memory_wf_advanceChain (n : Nat) {s : State} (id : Nat) (h : Memory.wf s.mem = true) :
    Memory.wf (advanceChain n s id).mem = true := by
  fun_induction advanceChain n s id
  case case4 e ih => exact ih (memory_wf_chainMove e h)
  all_goals exact h
@[simp] theorem memory_wf_advanceChains {s : State} (blk : Nat) (h : Memory.wf s.mem = true) :
    Memory.wf (advanceChains s blk).mem = true := by
  fun_cases advanceChains s blk
  simp_all
@[simp] theorem endChain_mem (s : State) (c : Cx) : (endChain s c).mem = s.mem := by fun_cases endChain s c <;> simp [*]
@[simp] theorem memory_wf_startMiss {s : State} (c : Cx) (x2 : Nat) (addr : DWord) (held : List Nat) (h : Memory.wf s.mem = true) :
    Memory.wf (startMiss s c x2 addr held).mem = true := by unfold startMiss; split <;> simp [*]
@[simp] theorem tileWrite_mem (s : State) (blk : Nat) (a : Acc) : (tileWrite s blk a).mem = s.mem := rfl
@[simp] theorem countTiles_mem (s : State) (core hits misses again : Nat) : (countTiles s core hits misses again).mem = s.mem := rfl
@[simp] theorem memory_wf_ldaTileBody (o : MemOp) (c : Cx) {s : State} (h : Memory.wf s.mem = true) :
    Memory.wf (ldaTileBody o c s).mem = true := by fun_cases ldaTileBody o c s <;> simp [*]
theorem openTiles_mem {blk core : Nat} {l : List Acc} {s t : State} (e : openTiles blk core l s = .ok t) : t.mem = s.mem := by
  revert e
  fun_induction openTiles blk core l s
  case case1 => rintro ⟨⟩; rfl
  case case2 ih => exact ih
  case case3 | case4 => exact nofun
  case case5 s1 e1 ih => exact fun e => (ih e).trans (frameRoom_mem (t := s1) e1)
@[simp] theorem memory_wf_staTileBody {s : State} (o : MemOp) (c : Cx) (h : Memory.wf s.mem = true) :
    Memory.wf (staTileBody o c s).mem = true := by
  unfold staTileBody
  dsimp only
  split
  · simp [h]
  · simp [h]
  · split
    · simp [h]
    · simp [h]
    · simp -implicitDefEqProofs [openTiles_mem ‹_›, h]
@[simp] theorem freezeWords_mem (x0 : List (Acc × Nat × Nat)) (x1 : State) : (freezeWords x0 x1).2.2.mem = x1.mem := by
  fun_induction freezeWords x0 x1 <;> simp [*]
@[simp] theorem defineTile_mem (c : Cx) (sd : BitVec 6) (x : Nat) (t : Tile) (ws : List (Acc × Nat × Nat))
    (race : Option (Race × DWord)) (s : State) : (defineTile c sd x t ws race s).mem = s.mem := by
  have frozen {n : Nat} {a : Option DWord} {s1 : State} (e : freezeWords ws (release s (.group c.g) .pkg) = (n, a, s1)) :
      s1.mem = s.mem := by
    simpa [e] using freezeWords_mem ws (release s (.group c.g) .pkg)
  unfold defineTile
  dsimp only
  split
  · simp
  · split
    · simp
    · split <;> simp [frozen ‹_›]
@[simp] theorem performTdef_mem (sd : BitVec 6) (x : Nat) (c : Cx) (s : State) (l : List (Acc × Nat × Nat)) :
    (performTdef sd x c s l).state.mem = s.mem := by
  unfold performTdef
  dsimp only
  split
  · rfl
  next t _ =>
    have checked {r : Checked} {s1 : State} (e : checkAccs (loadAccs s c.who l).2.2 c.who .load (rangeAccs c.lowTid t) = (r, s1)) :
        s1.mem = s.mem := by simp [mem_of_eq_mk e]
    split
    · rfl
    · rfl
    · rfl
    · simp [checked ‹_›]
    · split <;> simp [checked ‹_›]
@[simp] theorem memory_wf_tileOperand {s : State} (c : Cx) (x : DWord) {body : State → State} (h : Memory.wf s.mem = true)
    (hb : Memory.wf (body s).mem = true) : Memory.wf (tileOperand c s x body).mem = true := by
  unfold tileOperand
  split
  · simp [h]
  · split <;> simp [h, hb]
@[simp] theorem memory_wf_tdefBody (o : TdefOp) (c : Cx) {s : State} (h : Memory.wf s.mem = true) :
    Memory.wf (tdefBody o c s).mem = true := by simp [tdefBody, h]
@[simp] theorem tileStatus_mem (c : Cx) (sd : BitVec 6) (s : State) (st : Nat) : (tileStatus c sd s st).mem = s.mem := rfl
@[simp] theorem memory_wf_tsealBody {s : State} (o : SUn) (c : Cx) (h : Memory.wf s.mem = true) :
    Memory.wf (tsealBody o c s).mem = true := by
  refine memory_wf_tileOperand _ _ h ?_
  split <;> simp [h]
@[simp] theorem memory_wf_dropTile {s : State} (c : Cx) (sd : BitVec 6) (x3 : Nat) (h : Memory.wf s.mem = true) :
    Memory.wf (dropTile s c sd x3).mem = true := by simp [dropTile, h]
@[simp] theorem memory_wf_tdropBody (o : SUn) (c : Cx) {s : State} (h : Memory.wf s.mem = true) :
    Memory.wf (tdropBody o c s).mem = true := by fun_cases tdropBody o c s <;> simp [*]
@[simp] theorem memory_wf_tholdBody {s : State} (o : SUn) (c : Cx) (h : Memory.wf s.mem = true) :
    Memory.wf (tholdBody o c s).mem = true := by
  refine memory_wf_tileOperand _ _ h ?_
  dsimp only
  split <;> simp [h]
@[simp] theorem memory_wf_tfreeBody (o : SUn) (c : Cx) {s : State} (h : Memory.wf s.mem = true) :
    Memory.wf (tfreeBody o c s).mem = true := by simp [tfreeBody, h]
@[simp] theorem startRun_mem (s : State) (blk x2 : Nat) (b : Block) (c : Chain) (d : Nat) (e : Entry) :
    (startRun s blk x2 b c d e).mem = s.mem := rfl
@[simp] theorem memory_wf_postEntryPage {s : State} (c : Chain) (va : DWord) (h : Memory.wf s.mem = true) :
    Memory.wf (postEntryPage s c va).mem = true := by fun_cases postEntryPage s c va <;> simp [*]
@[simp] theorem memory_wf_tryRun {s : State} (blk x2 : Nat) (b : Block) (c : Chain) (d : Nat) (h : Memory.wf s.mem = true) :
    Memory.wf (tryRun s blk x2 b c d).mem = true := by fun_cases tryRun s blk x2 b c d <;> simp [*]

/-! ### Blocks and groups -/

@[simp] theorem completeBar_mem (s : State) (blk i : Nat) : (completeBar s blk i).mem = s.mem := by
  fun_cases completeBar s blk i
  case case4 => simp -implicitDefEqProofs
  all_goals rfl
@[simp] theorem countGang_mem (s : State) (blk : Nat) : (countGang s blk).mem = s.mem := by fun_cases countGang s blk <;> rfl
@[simp] theorem passMember_mem (s : State) (blk : Nat) : (passMember s blk).mem = s.mem := by
  unfold passMember
  split
  · rfl
  · simp -implicitDefEqProofs
@[simp] theorem setCounts_mem (s : State) (core : Nat) (c : Ctx) (l : List Nat) : (setCounts s core c l).mem = s.mem := rfl
@[simp] theorem memory_wf_foldWord {s : State} (k w n : Nat) (h : Memory.wf s.mem = true) :
    Memory.wf (foldWord s k w n).mem = true := by simp [foldWord, h, memory_wf_writeBytes]
@[simp] theorem memory_wf_foldWords (k w : Nat) (l : List (Nat × Bool)) {s : State} (h : Memory.wf s.mem = true) :
    Memory.wf (foldWords k w l s).2.mem = true := by
  induction l generalizing w s with
  | nil => exact h
  | cons p l ih => exact ih _ (by simp [h])
@[simp] theorem setHeld_mem (s : State) (core : Nat) (c : Ctx) (l : List Bool) : (setHeld s core c l).mem = s.mem := rfl
@[simp] theorem memory_wf_foldCounts {s : State} (core : Nat) (c : Ctx) (again : Bool) (h : Memory.wf s.mem = true) :
    Memory.wf (foldCounts s core c again).mem = true := by fun_cases foldCounts s core c again <;> simp +zetaDelta [*]
@[simp] theorem packBlock_mem (m : Nat) (s : State) (blk : Nat) : (packBlock m s blk).mem = s.mem := by
  fun_cases packBlock m s blk <;> rfl
@[simp] theorem packAb_mem (s : State) (core : Nat) : (packAb s core).mem = s.mem := by simp [packAb]
@[simp] theorem lowerBound_mem (s : State) (core : Nat) : (lowerBound s core).mem = s.mem := by simp [lowerBound]
@[simp] theorem dropChains_mem (s : State) (blk : Nat) : (dropChains s blk).mem = s.mem := by simp [dropChains]
@[simp] theorem removeRecords_mem (s : State) (blk : Nat) : (removeRecords s blk).mem = s.mem := by simp [removeRecords]
@[simp] theorem gangEnded_mem (s : State) (gang : Nat) : (gangEnded s gang).mem = s.mem := by fun_cases gangEnded s gang <;> rfl
@[simp] theorem memory_wf_blockEnd {s : State} (blk : Nat) (h : Memory.wf s.mem = true) :
    Memory.wf (blockEnd s blk).mem = true := by fun_cases blockEnd s blk <;> simp +zetaDelta [*]
@[simp] theorem recheckBars_mem (s : State) (blk : Nat) : (recheckBars s blk).mem = s.mem := by simp [recheckBars]
@[simp] theorem memory_wf_runEnd {s : State} (g : Nat) (gr : Group) (r : RunInfo) (h : Memory.wf s.mem = true) :
    Memory.wf (runEnd s g gr r).mem = true := by simp [runEnd, h]
@[simp] theorem memory_wf_groupEnd {s : State} (g : Nat) (h : Memory.wf s.mem = true) :
    Memory.wf (groupEnd s g).mem = true := by fun_cases groupEnd s g <;> simp +zetaDelta [*]

/-! ### Barriers and batches -/

@[simp] theorem recordArrival_mem (s : State) (c : Cx) (i : Nat) (phase : Bool) : (recordArrival s c i phase).mem = s.mem := rfl
@[simp] theorem arriveBar_mem (s : State) (c : Cx) (i : Nat) (phase : Bool) : (arriveBar s c i phase).mem = s.mem := by
  fun_cases arriveBar s c i phase <;> simp [*]
@[simp] theorem memory_wf_barArrBody (o : BarOp) (c : Cx) {s : State} (h : Memory.wf s.mem = true) :
    Memory.wf (barArrBody o c s).mem = true := by simp [barArrBody, h]
@[simp] theorem memory_wf_barWaitBody (o : BarOp) (c : Cx) {s : State} (h : Memory.wf s.mem = true) :
    Memory.wf (barWaitBody o c s).mem = true := by fun_cases barWaitBody o c s <;> simp [*]
@[simp] theorem memory_wf_barBody (o : BarOp) (c : Cx) {s : State} (h : Memory.wf s.mem = true) :
    Memory.wf (barBody o c s).mem = true := by simp [barBody, h]
@[simp] theorem arriveGang_mem (s : State) (c : Cx) (phase : Bool) : (arriveGang s c phase).mem = s.mem := by
  fun_cases arriveGang s c phase <;> simp [*]
@[simp] theorem gbarBody_mem (c : Cx) (s : State) : (gbarBody c s).mem = s.mem := by simp [gbarBody]
@[simp] theorem putMbar_mem (s : State) (blk off : Nat) (m : Mbar) : (putMbar s blk off m).mem = s.mem := rfl
@[simp] theorem memory_wf_queueOver {s : State} (g f : Nat) (ipc : DWord) (off : Nat) (byHandler : Bool)
    (h : Memory.wf s.mem = true) :
    Memory.wf (queueOver s g f ipc off byHandler).mem = true := by fun_cases queueOver s g f ipc off byHandler <;> simp [*]
@[simp] theorem endWait_mem (s : State) (g f status : Nat) (seq : BitVec 16) : (endWait s g f status seq).mem = s.mem := rfl
@[simp] theorem memory_wf_wakeMbar {s : State} (blk off : Nat) (m : Mbar) (h : Memory.wf s.mem = true) :
    Memory.wf (wakeMbar s blk off m).mem = true := by
  fun_cases wakeMbar s blk off m
  simp_all
@[simp] theorem memory_wf_creditMbar {s : State} (blk off k g f : Nat) (ipc : DWord) (byHandler : Bool)
    (h : Memory.wf s.mem = true) :
    Memory.wf (creditMbar s blk off k g f ipc byHandler).mem = true := by fun_cases creditMbar s blk off k g f ipc byHandler <;> simp [*]
@[simp] theorem memory_wf_mbarChecked {s : State} (c : Cx) (off : DWord) {body : State → Mbar → State} (h : Memory.wf s.mem = true)
    (hb : ∀ m, Memory.wf (body s m).mem = true) : Memory.wf (mbarChecked c s off body).mem = true := by
  unfold mbarChecked
  split
  · simp [h]
  · split
    · simp [h]
    · split
      · simp [h]
      · exact hb _
@[simp] theorem memory_wf_mbarInitBody (o : MbarOp) (c : Cx) {s : State} (h : Memory.wf s.mem = true) :
    Memory.wf (mbarInitBody o c s).mem = true := by simp -implicitDefEqProofs [mbarInitBody, h]
@[simp] theorem memory_wf_mbarArmBody {s : State} (o : MbarOp) (c : Cx) (h : Memory.wf s.mem = true) :
    Memory.wf (mbarArmBody o c s).mem = true :=
  memory_wf_mbarChecked _ _ h (fun _ => by simp [h])
@[simp] theorem memory_wf_mbarArrBody {s : State} (o : MbarArrOp) (c : Cx) (h : Memory.wf s.mem = true) :
    Memory.wf (mbarArrBody o c s).mem = true :=
  memory_wf_mbarChecked _ _ h (fun _ => by simp [h])
@[simp] theorem finishWait_mem (o : MbarWaitOp) (c : Cx) (s : State) (status seq : Nat) :
    (finishWait o c s status seq).mem = s.mem := by simp [finishWait]
@[simp] theorem memory_wf_mbarWaitBody {s : State} (o : MbarWaitOp) (c : Cx) (h : Memory.wf s.mem = true) :
    Memory.wf (mbarWaitBody o c s).mem = true :=
  memory_wf_mbarChecked _ _ h (fun _ => by simp [h])
@[simp] theorem memory_wf_mbarWaitFrag (o : MbarWaitOp) (c : Cx) {s : State} (h : Memory.wf s.mem = true) :
    Memory.wf (mbarWaitFrag o c s).mem = true := by fun_cases mbarWaitFrag o c s <;> simp [*]
@[simp] theorem wakeBatches_mem (s : State) : (wakeBatches s).mem = s.mem := by simp [wakeBatches]
@[simp] theorem bwaitFrag_mem (c : Cx) (s : State) (n : BitVec 16) : (bwaitFrag c s n).mem = s.mem := by simp [bwaitFrag]
@[simp] theorem bwaitCtl_mem (cc : Nat) (c : Ctl) (s : State) (n : BitVec 16) : (bwaitCtl cc c s n).mem = s.mem := by
  simp [bwaitCtl]
@[simp] theorem memory_wf_landChunk {s : State} (k : Chunk) (bs : List Byte) (h : Memory.wf s.mem = true) :
    Memory.wf (landChunk s k bs).mem = true := by
  unfold landChunk
  split
  · exact h
  · cases k.mbar <;> simp [h]

/-! ### Queues -/

@[simp] theorem putSlot_mem (s : State) (q : Slot) : (putSlot s q).mem = s.mem := rfl
theorem memory_wf_unbindSlot {s t : State} {q : Slot} (e : unbindSlot s q = some t) (h : Memory.wf s.mem = true) :
    Memory.wf t.mem = true := by
  unfold unbindSlot at e
  split at e
  next s1 e1 =>
    cases e
    exact memory_wf_devWrite (t := s1) e1 h
  next => cases e
theorem memory_wf_slotRoom {s t : State} {die : Nat} (e : slotRoom s die = some t) (h : Memory.wf s.mem = true) :
    Memory.wf t.mem = true := by
  unfold slotRoom at e
  split at e
  · cases e
  · split at e
    · cases e; exact h
    · obtain ⟨q, -, e⟩ := List.exists_of_findSome?_eq_some e
      exact memory_wf_unbindSlot e h
@[simp] theorem memory_wf_Poster_page (p : Poster) (c : Ctx) (access : Nat) {s : State} (va : DWord) (h : Memory.wf s.mem = true) :
    Memory.wf (Poster.page p c access s va).mem = true := by simp [Poster.page, h]
@[simp] theorem memory_wf_refill {s : State} (q : Slot) (who : Poster) (h : Memory.wf s.mem = true) :
    Memory.wf (refill s q who).mem = true := by fun_cases refill s q who <;> simp [*]
theorem memory_wf_enqueueBound {s t : State} {q : Slot} {bs r : List Byte} {st : Nat} (e : enqueueBound s q bs = .done st r t)
    (h : Memory.wf s.mem = true) : Memory.wf t.mem = true := by
  unfold enqueueBound at e
  dsimp only at e
  split at e
  · cases e; exact h
  · split at e <;> cases e
    case h_1 s1 _ e1 => exact memory_wf_galleyAppend (t := s1) e1 h
    all_goals exact h
theorem memory_wf_putDesc {s t : State} {c : Ctx} {va : DWord} {d : QDesc} (e : putDesc s c va d = some t)
    (h : Memory.wf s.mem = true) : Memory.wf t.mem = true := by
  unfold putDesc at e
  split at e <;> cases e
  exact memory_wf_devWrite ‹_› h
theorem memory_wf_enqueueUnbound {s t : State} {c : Ctx} {va : DWord} {d : QDesc} {bs r : List Byte} {st : Nat}
    (e : enqueueUnbound s c va d bs = .done st r t) (h : Memory.wf s.mem = true) : Memory.wf t.mem = true := by
  revert e
  fun_cases enqueueUnbound s c va d bs
  case case1 e1 _ e2 => rintro ⟨⟩; exact memory_wf_putDesc e2 (memory_wf_galleyAppend e1 h)
  all_goals rintro ⟨⟩
  all_goals exact h
theorem dequeueGalley_mem {s t : State} {q : Slot} {cap st : Nat} {r : List Byte} (e : dequeueGalley s q cap = .done st r t) :
    t.mem = s.mem := by
  revert e
  fun_cases dequeueGalley s q cap <;> rintro ⟨⟩
  all_goals rfl
theorem memory_wf_dequeueBound {s t : State} {q : Slot} {cap st : Nat} {who : Poster} {r : List Byte}
    (e : dequeueBound s q cap who = .done st r t) (h : Memory.wf s.mem = true) : Memory.wf t.mem = true := by
  unfold dequeueBound at e
  dsimp only at e
  split at e
  · split at e <;> cases e <;> simp [h]
  · simp [dequeueGalley_mem e, h]
theorem memory_wf_dequeueUnbound {s t : State} {c : Ctx} {va : DWord} {d : QDesc} {cap st : Nat} {r : List Byte}
    (e : dequeueUnbound s c va d cap = .done st r t) (h : Memory.wf s.mem = true) : Memory.wf t.mem = true := by
  revert e
  fun_cases dequeueUnbound s c va d cap
  case case2 e1 => rintro ⟨⟩; exact memory_wf_putDesc e1 h
  all_goals rintro ⟨⟩
  all_goals exact h
@[simp] theorem memory_wf_bindNamed {s : State} (die : Nat) (h : Memory.wf s.mem = true) :
    Memory.wf (bindNamed s die).mem = true := by
  fun_cases bindNamed s die
  case case8 => simp +zetaDelta [memory_wf_slotRoom ‹slotRoom _ _ = some _›, h]
  all_goals exact h
@[simp] theorem memory_wf_bindWaiting {s : State} (die : Nat) (h : Memory.wf s.mem = true) :
    Memory.wf (bindWaiting s die).mem = true := by
  fun_cases bindWaiting s die
  simp_all
@[simp] theorem memory_wf_findQueue {s : State} (c : Ctx) (desc : DWord) (pa : Nat) (bs : List Byte) (who : Poster)
    (h : Memory.wf s.mem = true) : Memory.wf (findQueue s c desc pa bs who).2.mem = true := by
  unfold findQueue
  split
  · exact h
  · split
    · exact h
    next d _ =>
      have hb := memory_wf_bindWaiting d.die h
      split
      · exact h
      · dsimp only
        split
        · exact hb
        · split
          next e1 => simp [memory_wf_slotRoom e1 hb]
          next => simp [hb]
theorem memory_wf_queueStart_held {enq : Bool} {len pa : Nat} {a : Actor} {s t : State} {desc : DWord} {bs : List Byte}
    (e : queueStart enq len a s desc pa bs = .held t) (h : Memory.wf s.mem = true) : Memory.wf t.mem = true := by
  revert e
  fun_cases queueStart enq len a s desc pa bs <;> rintro ⟨⟩
  · exact h
  · simp +zetaDelta [h]

theorem memory_wf_queueStart_go {enq : Bool} {len pa : Nat} {a : Actor} {s t : State} {desc : DWord} {bs : List Byte} {q : QFound}
    (e : queueStart enq len a s desc pa bs = .go q t) (h : Memory.wf s.mem = true) : Memory.wf t.mem = true := by
  revert e
  fun_cases queueStart enq len a s desc pa bs <;> rintro ⟨⟩
  simp +zetaDelta [h]
@[simp] theorem memory_wf_performEnq {s : State} (sc : Scope) (sd : BitVec 6) (len : Nat) (a : Actor) (l : List (Acc × Nat × Nat))
    (h : Memory.wf s.mem = true) : Memory.wf (performEnq sc sd len a s l).state.mem = true := by
  have hd : Memory.wf (a.dirty s).mem = true := by simp [h]
  unfold performEnq
  dsimp only
  split
  · exact h
  next e1 => exact memory_wf_queueStart_held e1 hd
  next q s1 e1 =>
    have h1 := memory_wf_queueStart_go e1 hd
    have h2 : Memory.wf (loadAccs (release s1 a.who.agent sc) a.who (l.drop 8)).2.2.mem = true := by simp [h1]
    split
    next e2 =>
      split at e2
      · simp [memory_wf_enqueueBound e2 h2]
      · simp [memory_wf_enqueueUnbound e2 h2]
      · cases e2; simp [h1]
    next => exact h2
    next => exact h2
@[simp] theorem memory_wf_performDeq {s : State} (sc : Scope) (sd : BitVec 6) (len : Nat) (a : Actor) (l : List (Acc × Nat × Nat))
    (h : Memory.wf s.mem = true) : Memory.wf (performDeq sc sd len a s l).state.mem = true := by
  have hd : Memory.wf (a.dirty s).mem = true := by simp [h]
  unfold performDeq
  dsimp only
  split
  · exact h
  next e1 => exact memory_wf_queueStart_held e1 hd
  next q s2 e1 =>
    have h2 := memory_wf_queueStart_go e1 hd
    split
    next => exact h2
    next => exact h2
    next s3 e2 =>
      have h3 : Memory.wf s3.mem = true := by
        split at e2
        · exact memory_wf_dequeueBound e2 h2
        · exact memory_wf_dequeueUnbound e2 h2
        · cases e2; exact h2
      split <;> simp [h3]
@[simp] theorem memory_wf_Actor_trap (a : Actor) {s : State} (cause : Nat) (addr : DWord) (h : Memory.wf s.mem = true) :
    Memory.wf (Actor.trap a s cause addr).mem = true := by fun_cases Actor.trap a s cause addr <;> simp [*]
@[simp] theorem memory_wf_Actor_park {s0 s : State} (a : Actor) (req : Req) (access : DWord → Nat) (pages : List (DWord × Nat))
    (dies : List Nat) (h0 : Memory.wf s0.mem = true) (h : Memory.wf s.mem = true) :
    Memory.wf (a.park s0 s req access pages dies).mem = true := by
  cases a with
  | frag c => exact memory_wf_parkReq _ _ _ _ _ _ _ h0 h
  | ctl cc c => cases pages <;> simp [Actor.park, h]
@[simp] theorem memory_wf_waitGalley {s : State} (cc : Nat) (c : Ctl) (req : Req) (access pa : Nat) (pages : List (DWord × Nat))
    (h : Memory.wf s.mem = true) : Memory.wf (waitGalley s cc c req access pa pages).mem = true := by
  refine memory_wf_foldl (fun s p h => ?_) pages h
  split <;> simp [h]
@[simp] theorem memory_wf_Actor_finish {s0 : State} (a : Actor) (req : Req) (access : DWord → Nat) (pa : Nat) {p : Perf}
    (h0 : Memory.wf s0.mem = true) (h : Memory.wf p.state.mem = true) : Memory.wf (a.finish s0 req access pa p).mem = true := by
  cases p <;> cases a <;> simp_all [Actor.finish]
@[simp] theorem memory_wf_queueAligned {s : State} (a : Actor) (desc rec : DWord) {body : State → State}
    (h : Memory.wf s.mem = true)
    (hb : Memory.wf (body s).mem = true) : Memory.wf (queueAligned a desc rec s body).mem = true := by
  unfold queueAligned
  split
  · simp [h]
  · split <;> simp [h, hb]
@[simp] theorem memory_wf_queueBody {s : State} (enq : Bool) (a : Actor) (req : Req) (len : Nat)
    {perform : State → List (Acc × Nat × Nat) → Perf} (h : Memory.wf s.mem = true)
    (hp : ∀ s l, Memory.wf s.mem = true → Memory.wf (perform s l).state.mem = true) :
    Memory.wf (queueBody enq a req len perform s).mem = true := by
  have hr : Memory.wf (checkAccs (checkAccs s a.who .load (req.accs.take 8)).2 a.who (if enq then .load else .store)
      (req.accs.drop 8)).2.mem = true := by simp [h]
  unfold queueBody
  dsimp only
  generalize checkAccs (checkAccs s a.who .load (req.accs.take 8)).2 a.who (if enq then .load else .store) (req.accs.drop 8) = r at hr ⊢
  split
  case h_7 =>
    split
    · simp [hr]
    · split <;> simp [h, hr, hp]
  all_goals simp [h, hr]
@[simp] theorem memory_wf_enqBody {s : State} (o : QueueOp) (a : Actor) (h : Memory.wf s.mem = true) :
    Memory.wf (enqBody o a s).mem = true :=
  memory_wf_queueAligned _ _ _ h (memory_wf_queueBody _ _ _ _ h (fun _ _ h => memory_wf_performEnq _ _ _ _ _ h))
@[simp] theorem memory_wf_deqBody {s : State} (o : QueueOp) (a : Actor) (h : Memory.wf s.mem = true) :
    Memory.wf (deqBody o a s).mem = true :=
  memory_wf_queueAligned _ _ _ h (memory_wf_queueBody _ _ _ _ h (fun _ _ h => memory_wf_performDeq _ _ _ _ _ h))
@[simp] theorem memory_wf_postUnder {s : State} (a : Actor) (va : DWord) (h : Memory.wf s.mem = true) :
    Memory.wf (postUnder s a va).mem = true := by simp [postUnder, h]
@[simp] theorem memory_wf_performCount (dec rel : Bool) (sc : Scope) (sd : BitVec 6) (amount : DWord) (a : Actor)
    {s : State} (l : List (Acc × Nat × Nat)) (h : Memory.wf s.mem = true) :
    Memory.wf (performCount dec rel sc sd amount a s l).state.mem = true := by fun_cases performCount dec rel sc sd amount a s l <;> simp +zetaDelta [*]
@[simp] theorem memory_wf_countBody (dec : Bool) (o : CountOp) (a : Actor) {s : State} (h : Memory.wf s.mem = true) :
    Memory.wf (countBody dec o a s).mem = true := by
  fun_cases countBody dec o a s
  simp_all
@[simp] theorem setBin_mem (s : State) (core i : Nat) (b : Option Bin) : (setBin s core i b).mem = s.mem := rfl
@[simp] theorem closeBin_mem (s : State) (core i : Nat) : (closeBin s core i).mem = s.mem := by fun_cases closeBin s core i <;> rfl
@[simp] theorem spawnThread_mem (s : State) (core i : Nat) (c : Ctx) (entry : DWord) (e : Entry) (args : DWord × DWord) :
    (spawnThread s core i c entry e args).mem = s.mem := by simp [spawnThread]
@[simp] theorem performSpawn_mem (arg0 arg1 : DWord) (c : Cx) (s : State) (l : List (Acc × Nat × Nat)) :
    (performSpawn arg0 arg1 c s l).state.mem = s.mem := by fun_cases performSpawn arg0 arg1 c s l <;> simp +zetaDelta [*]
@[simp] theorem memory_wf_spawnBody (o : SpawnOp) (c : Cx) {s : State} (h : Memory.wf s.mem = true) :
    Memory.wf (spawnBody o c s).mem = true := by simp [spawnBody, h]

/-! ### Engine commands -/

@[simp] theorem joinBatch_mem (s : State) (a : Actor) (x2 : BatchItem) : (joinBatch s a x2).mem = s.mem := by
  fun_cases joinBatch s a x2 <;> rfl
@[simp] theorem performEngine_mem (op : Nat) (sc : WideScope) (sd : BitVec 6) (a : Actor) (s : State) (l : List
    (Acc × Nat × Nat)) :
    (performEngine op sc sd a s l).state.mem = s.mem := by fun_cases performEngine op sc sd a s l <;> simp +zetaDelta [*]
@[simp] theorem memory_wf_engineBody (op : Nat) (o : EngineOp) (a : Actor) {s : State} (h : Memory.wf s.mem = true) :
    Memory.wf (engineBody op o a s).mem = true := by simp [engineBody, h]
theorem memory_wf_andThen {α β : Type} {x : Eng α} {f : α → State → Eng β} (hx : Memory.wf x.state.mem = true)
    (hf : ∀ y s, Memory.wf s.mem = true → Memory.wf (f y s).state.mem = true) : Memory.wf (x.andThen f).state.mem = true := by
  cases x with
  | ok y s => exact hf y s hx
  | _ => exact hx
@[simp] theorem require_mem (b : Bool) (cause : Nat) (s : State) : (Eng.require b cause s).state.mem = s.mem := by
  cases b <;> rfl
@[simp] theorem memory_wf_pieces {s : State} (c : Command) (u : Use) (k : Nat) (va : DWord) (n : Nat) (h : Memory.wf s.mem = true) :
    Memory.wf (pieces s c u k va n).state.mem = true := by
  induction k generalizing s va n with
  | zero => exact h
  | succ k ih =>
    unfold pieces
    split
    · exact h
    · dsimp only
      split
      case h_4 =>
        split
        · simp [mem_of_eq_mk ‹_›, h]
        · exact memory_wf_andThen (ih _ _ (by simp [mem_of_eq_mk ‹_›, h])) (fun _ _ h => h)
      all_goals simp [mem_of_eq_mk ‹_›, h]
@[simp] theorem memory_wf_engRange {s : State} (c : Command) (u : Use) (va n : Nat) (h : Memory.wf s.mem = true) :
    Memory.wf (engRange s c u va n).state.mem = true := by
  unfold engRange
  split <;> simp [h]
@[simp] theorem memory_wf_cwRange {s : State} (c : Command) (h : Memory.wf s.mem = true) :
    Memory.wf (cwRange s c).state.mem = true := by
  unfold cwRange
  split
  · exact h
  · exact memory_wf_andThen (by simp [h]) (fun _ _ h => h)
theorem claimWords_mem {me : Agent} {l : List (Nat × DWord)} {s t : State} (e : claimWords me l s = some t) : t.mem = s.mem := by
  revert e
  fun_induction claimWords me l s
  case case1 => rintro ⟨⟩; rfl
  case case2 ih | case3 ih | case4 ih => exact ih
  all_goals exact nofun
@[simp] theorem claimAll_mem (c : Command) (ws : List (Nat × DWord)) (s : State) : (claimAll c ws s).state.mem = s.mem := by
  unfold claimAll
  split
  next e => exact claimWords_mem e
  next => rfl
@[simp] theorem unclaimWords_mem (me : Agent) (l : List (Nat × DWord)) (s : State) : (unclaimWords me l s).mem = s.mem := by
  induction l generalizing s with
  | nil => rfl
  | cons p l ih =>
    rw [unclaimWords, ih]
    split
    · split <;> rfl
    · split <;> rfl
    · rfl
@[simp] theorem putCmd_mem (s : State) (c : Command) : (putCmd s c).mem = s.mem := rfl
@[simp] theorem memory_wf_cmdTrap {s : State} (c : Command) (cause : Nat) (addr aux : DWord) (h : Memory.wf s.mem = true) :
    Memory.wf (cmdTrap s c cause addr aux).mem = true := by fun_cases cmdTrap s c cause addr aux <;> simp [*]
@[simp] theorem memory_wf_cmdRace {s : State} (c : Command) (r : Option (Race × DWord)) (h : Memory.wf s.mem = true) :
    Memory.wf (cmdRace s c r).1.mem = true := by fun_cases cmdRace s c r <;> simp [*]
@[simp] theorem memory_wf_landCmd {s : State} (c : Command) (status : Nat) (h : Memory.wf s.mem = true) :
    Memory.wf (landCmd s c status).mem = true := by simp [landCmd, h]
@[simp] theorem memory_wf_waitPage {s : State} (c : Command) (va : DWord) (pte code : Nat) (h : Memory.wf s.mem = true) :
    Memory.wf (waitPage s c va pte code).mem = true := by simp [waitPage, h]
@[simp] theorem memory_wf_finishCmd {s : State} (c : Command) (h : Memory.wf s.mem = true) :
    Memory.wf (finishCmd s c).mem = true := by
  have hr : Memory.wf (engRange (putCmd s c) c .atomic c.cw 8).state.mem = true := by simp [h]
  unfold finishCmd
  dsimp only
  split
  · simp [h]
  · split
    all_goals rw [‹engRange _ _ _ _ _ = _›] at hr
    case h_4 =>
      split
      · simp_all
      · split <;> simp_all [memory_wf_writeBytes]
    all_goals simp_all
@[simp] theorem memory_wf_refuseCmd {s : State} (c : Command) (cause : Nat) (h : Memory.wf s.mem = true) :
    Memory.wf (refuseCmd s c cause).mem = true := by simp [refuseCmd, h]
@[simp] theorem memory_wf_engRun (c : Command) {x : Eng Command} (h : Memory.wf x.state.mem = true) :
    Memory.wf (engRun c x).mem = true := by
  cases x <;> simp_all [engRun]
@[simp] theorem memory_wf_buildCopy {s : State} (c : Command) (src : List Piece) (claims : List (Nat × DWord))
    (dsts : List (List Piece)) (h : Memory.wf s.mem = true) : Memory.wf (buildCopy s c src claims dsts).state.mem = true := by
  simp [buildCopy, h]
@[simp] theorem memory_wf_copyCommand {s : State} (c : Command) (h : Memory.wf s.mem = true) :
    Memory.wf (copyCommand s c).state.mem = true := by
  unfold copyCommand
  repeat' with_reducible refine memory_wf_andThen ?_ (fun _ _ h => ?_)
  case refine_2.refine_2.refine_1 => split <;> simp [h]
  all_goals simp [h]
@[simp] theorem memory_wf_dstRanges (c : Command) (l : List Nat) {s : State} (h : Memory.wf s.mem = true) :
    Memory.wf (dstRanges c l s).state.mem = true := by
  induction l generalizing s with
  | nil => exact h
  | cons va l ih =>
    exact memory_wf_andThen (by simp [h]) (fun _ _ h => memory_wf_andThen (ih h) (fun _ _ h => h))
@[simp] theorem memory_wf_epubCommand {s : State} (c : Command) (h : Memory.wf s.mem = true) :
    Memory.wf (epubCommand s c).state.mem = true := by
  unfold epubCommand
  repeat' with_reducible refine memory_wf_andThen ?_ (fun _ _ h => ?_)
  case refine_2.refine_1 => split <;> simp [h]
  all_goals simp [h]
@[simp] theorem memory_wf_writeOut {s : State} (out : List (Piece × List Byte)) (h : Memory.wf s.mem = true) :
    Memory.wf (writeOut s out).mem = true :=
  memory_wf_foldl (fun _ _ h => memory_wf_writeBytes _ _ _ h) out h
@[simp] theorem receive_mem (s : State) (a : Agent) (w : Nat) : (receive s a w).mem = s.mem := by unfold receive; split <;> simp [*]
@[simp] theorem publishRegs_mem (c : Command) (s : State) : (publishRegs c s).mem = s.mem := by simp [publishRegs]
@[simp] theorem wakeLine_mem (s : State) (w : Nat) : (wakeLine s w).mem = s.mem := rfl
@[simp] theorem publishSource_mem (c : Command) (r : State × Option (Race × DWord)) (w : Nat × DWord) :
    (publishSource c r w).1.mem = r.1.mem := by
  unfold publishSource
  split
  · split <;> rfl
  · split <;> rfl
  · rfl
@[simp] theorem memory_wf_publishCmd {s : State} (c : Command) (h : Memory.wf s.mem = true) :
    Memory.wf (publishCmd s c).mem = true := by
  have sources (l : List (Nat × DWord)) (p : State × Option (Race × DWord)) : (l.foldl (publishSource c) p).1.mem = p.1.mem := by
    induction l generalizing p with
    | nil => rfl
    | cons w l ih => exact (ih _).trans (publishSource_mem c p w)
  have raced : Memory.wf (cmdRace ((c.src.flatMap Piece.words).foldl (publishSource c) (publishRegs c (writeOut s c.out), none)).1 c
      ((c.src.flatMap Piece.words).foldl (publishSource c) (publishRegs c (writeOut s c.out), none)).2).1.mem = true :=
    memory_wf_cmdRace _ _ (by rw [sources]; simp [h])
  refine memory_wf_finishCmd _ ?_
  dsimp only
  split
  · exact raced
  · split
    · simp [raced]
    · split <;> simp [raced]

/-! ### Uploads -/

@[simp] theorem memory_wf_sectionRanges (c : Command) (l : List (Nat × Nat)) {s : State} (h : Memory.wf s.mem = true) :
    Memory.wf (sectionRanges c l s).state.mem = true := by
  induction l generalizing s with
  | nil => exact h
  | cons p l ih =>
    exact memory_wf_andThen (by simp [h]) (fun _ _ h => memory_wf_andThen (ih h) (fun _ _ h => h))
@[simp] theorem buildUpload_mem (s : State) (c : Command) (ob : List Byte) (bases : List Nat) (dsts : List (List Piece)) :
    (buildUpload s c ob bases dsts).state.mem = s.mem := by
  unfold buildUpload
  split <;> rfl
@[simp] theorem memory_wf_uploadCommand {s : State} (c : Command) (h : Memory.wf s.mem = true) :
    Memory.wf (uploadCommand s c).state.mem = true := by
  unfold uploadCommand
  repeat' with_reducible refine memory_wf_andThen ?_ (fun _ _ h => ?_)
  case refine_2.refine_2.refine_2.refine_2.refine_1 => split <;> simp [h]
  all_goals simp [h]

/-! ### Collectives -/

@[simp] theorem memory_wf_readNoted {s : State} (c : Command) (l : List Piece) (h : Memory.wf s.mem = true) :
    Memory.wf (readNoted s c l).2.2.mem = true := by simp [readNoted, h]
@[simp] theorem memory_wf_ecollCommand {s : State} (c : Command) (h : Memory.wf s.mem = true) :
    Memory.wf (ecollCommand s c).state.mem = true := by
  unfold ecollCommand
  repeat' with_reducible refine memory_wf_andThen ?_ (fun _ _ h => ?_)
  all_goals simp [h]
@[simp] theorem memory_wf_buildMember (sum : List Nat) (s0 : State) {s : State} (m : Member) (h : Memory.wf s.mem = true) :
    Memory.wf (buildMember sum s0 s m).mem = true := by
  cases m <;> simp [buildMember, h]
@[simp] theorem memory_wf_refuseMember {s : State} (x1 : Member) (h : Memory.wf s.mem = true) :
    Memory.wf (refuseMember s x1).mem = true := by fun_cases refuseMember s x1 <;> simp [*]

/-! ### Control flow -/

@[simp] theorem jumpCtl_mem (s : State) (cc : Nat) (pc : DWord) : (jumpCtl s cc pc).mem = s.mem := rfl
@[simp] theorem callFrag_mem (c : Cx) (s : State) (target : DWord) : (callFrag c s target).mem = s.mem := rfl
@[simp] theorem callCtl_mem (cc : Nat) (c : Ctl) (s : State) (target : DWord) : (callCtl cc c s target).mem = s.mem := rfl
@[simp] theorem memory_wf_targetFrag {s : State} (c : Cx) (n : Nat) {body : State → DWord → State} (h : Memory.wf s.mem = true)
    (hb : ∀ x, Memory.wf (body s x).mem = true) : Memory.wf (targetFrag c n body s).mem = true := by
  simp [targetFrag, h, hb]
@[simp] theorem memory_wf_targetCtl {s : State} (cc : Nat) (c : Ctl) (n : Nat) {body : State → DWord → State}
    (h : Memory.wf s.mem = true) (hb : ∀ x, Memory.wf (body s x).mem = true) : Memory.wf (targetCtl cc c n body s).mem = true := by
  simp [targetCtl, h, hb]
@[simp] theorem memory_wf_exitBody (c : Cx) {s : State} (h : Memory.wf s.mem = true) :
    Memory.wf (exitBody c s).mem = true := by fun_cases exitBody c s <;> simp +zetaDelta [*]
@[simp] theorem giveTurn_mem (s : State) (core : Nat) (p : Party) : (giveTurn s core p).mem = s.mem := rfl
@[simp] theorem memory_wf_splitFrag (c : Cx) {s : State} (tok : Nat) (taken : Mask) (target : DWord) (h : Memory.wf s.mem = true) :
    Memory.wf (splitFrag c s tok taken target).mem = true := by simp [splitFrag, h]
@[simp] theorem memory_wf_brdBody (o : BrdOp) (c : Cx) {s : State} (h : Memory.wf s.mem = true) :
    Memory.wf (brdBody o c s).mem = true := by simp [brdBody, h]
@[simp] theorem joinBody_mem (o : JoinOp) (c : Cx) (s : State) : (joinBody o c s).mem = s.mem := by
  fun_cases joinBody o c s <;> simp [*]
@[simp] theorem memory_wf_setwBody {s : State} (i : Instr) (restartable : Bool) (request : State → Cx → Nat) (c : Cx)
    (h : Memory.wf s.mem = true) : Memory.wf (setwBody i restartable request c s).mem = true := by
  simp [setwBody, h]
@[simp] theorem memory_wf_endwBody (o : WOp) (c : Cx) {s : State} (h : Memory.wf s.mem = true) :
    Memory.wf (endwBody o c s).mem = true := by simp [endwBody, h]

/-! ### Lane arithmetic -/

@[simp] theorem laneBody_mem (len : Nat) (g : Option GuardQ) (f : Cx → Nat → Nat → LaneOut) (c : Cx) (s : State) :
    (laneBody len g f c s).mem = s.mem := rfl

/-! ### Cross-lane instructions -/

@[simp] theorem crossBody_mem (g : Option GuardQ) (f : Cx → Nat → List Nat → Nat → LaneOut) (c : Cx) (s : State) :
    (crossBody g f c s).mem = s.mem := rfl

/-! ### Control registers -/

@[simp] theorem writeKbind_mem (s : State) (cc : Nat) (v : DWord) : (writeKbind s cc v).mem = s.mem := by simp [writeKbind]
@[simp] theorem writeKpend_mem (s : State) (cc : Nat) (fn : CsrwFn) (v : DWord) : (writeKpend s cc fn v).mem = s.mem := rfl
@[simp] theorem writePlain_mem (s : State) (cc n : Nat) (fn : CsrwFn) (v : DWord) :
    (writePlain s cc n fn v).mem = s.mem := by simp [writePlain]
@[simp] theorem memory_wf_writeIlck {s : State} (cc : Nat) (c : Ctl) (key : Nat) (fn : CsrwFn) (v : DWord)
    (h : Memory.wf s.mem = true) :
    Memory.wf (writeIlck s cc c key fn v).mem = true := by simp [writeIlck, h]
@[simp] theorem memory_wf_atFixed {s : State} (cc : Nat) (x : Fixed) {body : Nat → State → State} (h : Memory.wf s.mem = true)
    (hb : ∀ k s, Memory.wf s.mem = true → Memory.wf (body k s).mem = true) : Memory.wf (atFixed cc x s body).mem = true := by
  cases x <;> simp [atFixed, h, hb]
@[simp] theorem memory_wf_csrrFrag (o : CsrOp) (c : Cx) {s : State} (h : Memory.wf s.mem = true) :
    Memory.wf (csrrFrag o c s).mem = true := by simp [csrrFrag, h]
@[simp] theorem memory_wf_csrrCtl {s : State} (o : CsrOp) (cc : Nat) (c : Ctl) (h : Memory.wf s.mem = true) :
    Memory.wf (csrrCtl o cc c s).mem = true := by
  have fixed : Memory.wf (atFixed cc (ilckAt s c) s (fun _ s =>
      advanceCtl (modCtl s cc (fun k => k.setS o.s.toNat (readCtl s cc c o.csr.toNat))) cc 4)).mem = true :=
    memory_wf_atFixed cc _ h (fun _ _ h => by simp [h])
  simp [csrrCtl, h, fixed]
@[simp] theorem memory_wf_csrwFrag (i : Instr) (fn : CsrwFn) (o : CsrOp) (c : Cx) {s : State} (h : Memory.wf s.mem = true) :
    Memory.wf (csrwFrag i fn o c s).mem = true := by simp [csrwFrag, h]
@[simp] theorem memory_wf_csrwCtl {s : State} (i : Instr) (fn : CsrwFn) (o : CsrOp) (cc : Nat) (c : Ctl)
    (h : Memory.wf s.mem = true) : Memory.wf (csrwCtl i fn o cc c s).mem = true := by
  have fixed : Memory.wf (atFixed cc (ilckAt s c) s (fun k s =>
      advanceCtl (writeIlck s cc c k fn (c.sreg o.s.toNat)) cc 4)).mem = true :=
    memory_wf_atFixed cc _ h (fun _ _ h => by simp [h])
  simp [csrwCtl, h, fixed]

/-! ### Matrix instructions -/

@[simp] theorem cbWrite_mem (s : State) (c : Cx) (off : Nat) (bs : List Byte) : (cbWrite s c off bs).mem = s.mem := by
  fun_cases cbWrite s c off bs <;> rfl
@[simp] theorem addCounts_mem (s : State) (core : Nat) (ctx : Ctx) (counted : Bool) (l : List Nat) :
    (addCounts s core ctx counted l).mem = s.mem := by simp [addCounts]
@[simp] theorem matRow_mem (t : MatTy) (z : Bool) (base : Nat) (fac : Nat → List (FVal × FVal)) (c : Cx) (tid : Nat)
    (p : State × List Nat) : (matRow t z base fac c tid p).1.mem = p.1.mem := by
  simp [matRow]
@[simp] theorem matRows_mem (t : MatTy) (z : Bool) (base : Nat → Nat) (fac : Nat → Nat → List (FVal × FVal)) (c : Cx)
    (ts : List Nat)
    (s : State) : (matRows t z base fac c ts s).mem = s.mem := by
  have rows (p : State × List Nat) :
      (ts.foldl (fun p tid => matRow t z (base tid) (fac tid) c tid p) p).1.mem = p.1.mem := by
    induction ts generalizing p with
    | nil => rfl
    | cons tid ts ih => exact (ih _).trans (matRow_mem _ _ _ _ _ _ _)
  simp [matRows, rows]
@[simp] theorem memory_wf_matChecked {s : State} (c : Cx) (ts : List Nat) (b : Option ((Nat → DWord) × Nat)) (t : MatTy)
    (sc : Nat → DWord) (count : Nat) {body : State → State} (h : Memory.wf s.mem = true) (hb : Memory.wf (body s).mem = true) :
    Memory.wf (matChecked c s ts b t sc count body).mem = true := by
  unfold matChecked
  dsimp only
  split
  · simp [h]
  · split <;> simp [h, hb]
@[simp] theorem memory_wf_mmaBody {s : State} (o : MmaOp) (c : Cx) (h : Memory.wf s.mem = true) :
    Memory.wf (mmaBody o c s).mem = true :=
  memory_wf_matChecked _ _ _ _ _ _ h (by simp [h])
@[simp] theorem memory_wf_mmasBody {s : State} (o : MmasOp) (c : Cx) (h : Memory.wf s.mem = true) :
    Memory.wf (mmasBody o c s).mem = true := by
  refine memory_wf_matChecked _ _ _ _ _ _ h ?_
  split <;> simp [h]
@[simp] theorem memory_wf_spkBody (o : SpkOp) (c : Cx) {s : State} (h : Memory.wf s.mem = true) :
    Memory.wf (spkBody o c s).mem = true := by simp [spkBody, h]
@[simp] theorem clearRows_mem (t : MatTy) (base : Nat → Nat) (count : Nat) (c : Cx) (ts : List Nat) (s : State) :
    (clearRows t base count c ts s).mem = s.mem := by simp [clearRows]
@[simp] theorem memory_wf_mzeroBody {s : State} (o : MzeroOp) (c : Cx) (h : Memory.wf s.mem = true) :
    Memory.wf (mzeroBody o c s).mem = true :=
  memory_wf_matChecked _ _ _ _ _ _ h (by simp [h])
@[simp] theorem memory_wf_mdrnBody {s : State} (o : MdrnOp) (c : Cx) (h : Memory.wf s.mem = true) :
    Memory.wf (mdrnBody o c s).mem = true :=
  memory_wf_matChecked _ _ _ _ _ _ h (by simp [h])
@[simp] theorem memory_wf_performDrain {s : State} (st : MatTy) (dt : DrainTy) (clr : Bool) (bases : Tab Nat) (c : Cx)
    (l : List (Acc × Nat × Nat)) (h : Memory.wf s.mem = true) :
    Memory.wf (performDrain st dt clr bases c s l).state.mem = true := by
  unfold performDrain
  dsimp only
  split
  next e => simp [Perf.mem_of_done e, h]
  next => simp [h]
@[simp] theorem memory_wf_mdrnMemBody {s : State} (o : MdrnMemOp) (c : Cx) (h : Memory.wf s.mem = true) :
    Memory.wf (mdrnMemBody o c s).mem = true := by
  unfold mdrnMemBody
  dsimp only
  split
  · simp [h]
  · exact memory_wf_matChecked _ _ _ _ _ _ h (memory_wf_issueReq _ _ _ _ h (fun _ _ h => memory_wf_performDrain _ _ _ _ _ _ h))
@[simp] theorem memory_wf_mdrnPeerBody {s : State} (o : MdrnPeerOp) (c : Cx) (h : Memory.wf s.mem = true) :
    Memory.wf (mdrnPeerBody o c s).mem = true := by
  unfold mdrnPeerBody
  dsimp only
  split
  · simp [h]
  · split
    · simp [h]
    · refine memory_wf_matChecked _ _ _ _ _ _ h ?_
      split
      · simp [h]
      · split <;> simp [h]
@[simp] theorem addRow_mem (t : MatTy) (b : Nat) (p : State × List Nat) (row : Nat × List Byte) :
    (addRow t b p row).1.mem = p.1.mem := by
  simp [addRow]
@[simp] theorem memory_wf_endIfDrained {s : State} (blk : Nat) (h : Memory.wf s.mem = true) :
    Memory.wf (endIfDrained s blk).mem = true := by fun_cases endIfDrained s blk <;> simp [*]
@[simp] theorem landAdd_mem (s : State) (a : PeerAdd) (b : Block) : (landAdd s a b).mem = s.mem := by
  have rows (l : List (Nat × List Byte)) (p : State × List Nat) : (l.foldl (addRow a.st a.dst) p).1.mem = p.1.mem := by
    induction l generalizing p with
    | nil => rfl
    | cons x l ih => exact (ih _).trans (addRow_mem _ _ _ _)
  simp [landAdd, rows]
@[simp] theorem takeTurn_mem (s : State) (a : PeerAdd) (off : Nat) (d : TileDesc) : (takeTurn s a off d).mem = s.mem := rfl
@[simp] theorem performRow_mem (t : RowTy) (vt : BitVec 8) (c : Cx) (s : State) (l : List (Acc × Nat × Nat)) :
    (performRow t vt c s l).state.mem = s.mem := by simp [performRow]
@[simp] theorem memory_wf_ldgRowBody (o : RowOp) (c : Cx) {s : State} (h : Memory.wf s.mem = true) :
    Memory.wf (ldgRowBody o c s).mem = true := by fun_cases ldgRowBody o c s <;> simp [*]

/-! ### TFENCE -/

@[simp] theorem memory_wf_tfenceBody (c : Cx) {s : State} (h : Memory.wf s.mem = true) :
    Memory.wf (tfenceBody c s).mem = true := by simp [tfenceBody, h]

/-! ### Privileged instructions -/

@[simp] theorem dropXlat_mem (s : State) (dies : List Nat) (asid : Option (BitVec 16)) (va : Option Nat) :
    (dropXlat s dies asid va).mem = s.mem := rfl
@[simp] theorem evictLines_mem (s : State) (dies : List Nat) (asid : Option (BitVec 16)) (cover : DWord → Bool) :
    (evictLines s dies asid cover).mem = s.mem := rfl
@[simp] theorem clearPresence_mem (s : State) (a : Nat) : (clearPresence s a).mem = s.mem := rfl
@[simp] theorem fenced_mem (cc : Nat) (s : State) {body : State → State} (hb : ∀ s, (body s).mem = s.mem) :
    (fenced cc s body).mem = s.mem := by
  unfold fenced
  split <;> simp [hb]

theorem memory_wf_fenced {s : State} (cc : Nat) {body : State → State} (h : Memory.wf s.mem = true)
    (hb : ∀ s, Memory.wf s.mem = true → Memory.wf (body s).mem = true) : Memory.wf (fenced cc s body).mem = true := by
  unfold fenced
  split
  · simp [h]
  · simp [hb _ (show Memory.wf (release (parkCtl s cc .run) (.control cc) .pkg).mem = true by simp [h])]
@[simp] theorem tlbiPageBody_mem (o : PairOp) (cc : Nat) (c : Ctl) (s : State) : (tlbiPageBody o cc c s).mem = s.mem :=
  fenced_mem cc s (fun s => by simp)
@[simp] theorem dropAsid_mem (s : State) (a : BitVec 16) : (dropAsid s a).mem = s.mem := rfl
@[simp] theorem tlbiAsidBody_mem (o : SrcOp) (cc : Nat) (c : Ctl) (s : State) : (tlbiAsidBody o cc c s).mem = s.mem :=
  fenced_mem cc s (fun s => by simp)
@[simp] theorem tlbiAllBody_mem (cc : Nat) (c : Ctl) (s : State) : (tlbiAllBody cc c s).mem = s.mem :=
  fenced_mem cc s (fun s => by simp)
@[simp] theorem setBusy_mem (s : State) (a : Nat) (b : Bool) : (setBusy s a b).mem = s.mem := rfl
@[simp] theorem ctxiBody_mem (o : SrcOp) (cc : Nat) (c : Ctl) (s : State) : (ctxiBody o cc c s).mem = s.mem := by
  unfold ctxiBody
  dsimp only
  split
  · exact fenced_mem cc s (fun s => by simp)
  · simp
@[simp] theorem memory_wf_rekeyLines {s : State} (old new : Nat) (p : Nat × UnitTag) (h : Memory.wf s.mem = true) :
    Memory.wf (rekeyLines old new s p).mem = true := by
  unfold rekeyLines
  dsimp only
  split
  · exact memory_wf_foldl (fun _ _ h => memory_wf_putBytes _ _ h) _ h
  · exact h
@[simp] theorem memory_wf_rekeyWords {s : State} (old new : Nat) (h : Memory.wf s.mem = true) :
    Memory.wf (rekeyWords old new s).mem = true :=
  memory_wf_foldl (fun _ _ h => memory_wf_rekeyLines _ _ _ h) _ (memory_wf_foldl (fun _ _ h => memory_wf_retag _ _ h) _ h)
@[simp] theorem memory_wf_setKey {s : State} (i key : Nat) (h : Memory.wf s.mem = true) :
    Memory.wf (setKey s i key).mem = true := by simp [setKey, h]
@[simp] theorem keysetDone_mem (sd : BitVec 6) (cc : Nat) (s : State) : (keysetDone sd cc s).mem = s.mem := rfl
@[simp] theorem memory_wf_performKeyset (sd : BitVec 6) (i cc : Nat) (c : Ctl) {s : State} (l : List
    (Acc × Nat × Nat)) (h : Memory.wf s.mem = true) :
    Memory.wf (performKeyset sd i cc c s l).state.mem = true := by simp [performKeyset, h]
@[simp] theorem memory_wf_keyChecked {s : State} (cc : Nat) (i : DWord) {body : State → State} (h : Memory.wf s.mem = true)
    (hb : Memory.wf (body s).mem = true) : Memory.wf (keyChecked cc i s body).mem = true := by
  unfold keyChecked
  split <;> simp [h, hb]
@[simp] theorem memory_wf_keysetLoadBody {s : State} (o : KeyLoadOp) (cc : Nat) (c : Ctl) (h : Memory.wf s.mem = true) :
    Memory.wf (keysetLoadBody o cc c s).mem = true := by
  refine memory_wf_keyChecked cc _ h ?_
  split
  · simp [h]
  · split
    · simp [h]
    · exact memory_wf_issueReqCtl _ _ _ _ _ h (fun _ _ h => by simp [h])
@[simp] theorem memory_wf_keysetBody {s : State} (o : KeyOp) {change : State → Nat → State} (cc : Nat) (c : Ctl)
    (h : Memory.wf s.mem = true) (hc : ∀ s i, Memory.wf s.mem = true → Memory.wf (change s i).mem = true) :
    Memory.wf (keysetBody o change cc c s).mem = true :=
  memory_wf_keyChecked cc _ h (memory_wf_fenced cc h (fun _ h => by simp [hc, h]))
@[simp] theorem memory_wf_keyGen {s : State} (i : Nat) (h : Memory.wf s.mem = true) :
    Memory.wf (keyGen s i).mem = true := by simp [keyGen, h]
@[simp] theorem keyErase_mem (s : State) (i : Nat) : (keyErase s i).mem = s.mem := rfl

/-! ### Replays -/

@[simp] theorem memory_wf_performReq (k : ReqKind) (c : Cx) {s : State} (l : List (Acc × Nat × Nat)) (h : Memory.wf s.mem = true) :
    Memory.wf (performReq k c s l).state.mem = true := by fun_cases performReq k c s l <;> simp [*]
@[simp] theorem replayChecks_mem (s : State) (w : Who) (r : Req) : (replayChecks s w r).2.mem = s.mem := by
  fun_cases replayChecks s w r <;> simp +zetaDelta [*]
@[simp] theorem memory_wf_parkAgain {s : State} (g : Nat) (gr : Group) (e : LogEntry) (inner : Bool) (pages : List (DWord × Nat))
    (dies : List Nat) (begun : Option Nat) (h : Memory.wf s.mem = true) :
    Memory.wf (parkAgain s g gr e inner pages dies begun).mem = true := by
  have posted (l : List (DWord × Nat)) : Memory.wf (l.foldl (fun s p =>
      postGroupPage s gr ((if inner then e.req.innerCode else e.req.code) p.1) p.1) s).mem = true :=
    memory_wf_foldl (fun _ _ h => by simp [h]) l h
  simp [parkAgain, posted]
@[simp] theorem memory_wf_dropEntry {s : State} (g : Nat) (fr : Frag) (e : LogEntry) (addr aux : DWord)
    (h : Memory.wf s.mem = true) :
    Memory.wf (dropEntry s g fr e addr aux).mem = true := by simp [dropEntry, h]
@[simp] theorem memory_wf_replayEntry {s : State} (g : Nat) (e : LogEntry) (h : Memory.wf s.mem = true) :
    Memory.wf (replayEntry s g e).mem = true := by
  unfold replayEntry
  split
  · exact h
  next gr0 _ =>
    dsimp only
    split
    · simp [h]
    next fr _ =>
      have checked {w : Who} {r : Checked} {s2 : State} (e2 : replayChecks (modGroup s g (fun _ =>
          { gr0 with log := gr0.log.filter (fun x => x.id != e.id) })) w e.req = (r, s2)) : Memory.wf s2.mem = true := by
        simp [mem_of_eq_mk e2, h]
      have performed {c : Cx} {l : List (Acc × Nat × Nat)} {s2 : State} {p : Perf} (h2 : Memory.wf s2.mem = true)
          (e3 : performReq e.req.kind c s2 l = p) : Memory.wf p.state.mem = true := e3 ▸ memory_wf_performReq e.req.kind c l h2
      split
      · simp [checked ‹_›]
      · simp [checked ‹_›]
      · simp [checked ‹_›]
      next e2 =>
        have h3 := checked e2
        split
        next e3 => exact performed h3 e3
        next e3 => exact memory_wf_dropEntry _ _ _ _ _ (performed h3 e3)
        next e3 => exact memory_wf_parkAgain _ _ _ _ _ _ _ (performed h3 e3)
        next e3 => exact memory_wf_parkAgain _ _ _ _ _ _ _ (performed h3 e3)
@[simp] theorem memory_wf_writeHead {s : State} (blk : Nat) (h : Memory.wf s.mem = true) :
    Memory.wf (writeHead s blk).mem = true := by
  fun_cases writeHead s blk
  case case2 e => exact memory_wf_devWrite e h
  all_goals exact h
@[simp] theorem rearm_mem (s : State) (b : Block) : (rearm s b).mem = s.mem := by
  refine foldl_mem (fun s k => ?_) _ s
  split
  · exact foldl_mem (fun s g => by simp) _ _
  all_goals rfl
@[simp] theorem memory_wf_recount {s : State} (h : Memory.wf s.mem = true) : Memory.wf (recount s).mem = true := by
  refine memory_wf_foldl (fun s n h => ?_) _ h
  split
  · exact h
  · simp [h]
@[simp] theorem wakeFetch_mem (s : State) (g f : Nat) : (wakeFetch s g f).mem = s.mem := by fun_cases wakeFetch s g f <;> simp [*]
@[simp] theorem memory_wf_wakeQueue {s : State} (pa : Nat) (h : Memory.wf s.mem = true) :
    Memory.wf (wakeQueue s pa).mem = true := by fun_cases wakeQueue s pa <;> simp [*]
@[simp] theorem memory_wf_wakeCommand {s : State} (iod n : Nat) (h : Memory.wf s.mem = true) :
    Memory.wf (wakeCommand s iod n).mem = true := by fun_cases wakeCommand s iod n <;> simp [*]
@[simp] theorem memory_wf_wakeWaiter {s : State} (x1 : Waiter) (h : Memory.wf s.mem = true) :
    Memory.wf (wakeWaiter s x1).mem = true := by fun_cases wakeWaiter s x1 <;> simp [*]
@[simp] theorem memory_wf_raceOf {s : State} (a : Agent) (k : Race) (va : DWord) (h : Memory.wf s.mem = true) :
    Memory.wf (raceOf s a k va).mem = true := by fun_cases raceOf s a k va <;> simp +zetaDelta [*]
@[simp] theorem memory_wf_homeWrite {s : State} (a : Agent) (w : Nat) {reg : State → State} (v : Word)
    (hr : (reg s).mem = s.mem) (h : Memory.wf s.mem = true) : Memory.wf (homeWrite s a w reg v).mem = true := by
  unfold homeWrite
  split
  · simp [h]
  · simp [memory_wf_writeBytes, hr, h]

/-! ### Images -/

@[simp] theorem memory_wf_writePart {s : State} (c : Ctx) (base : DWord) (p : Nat × List Byte) (h : Memory.wf s.mem = true) :
    Memory.wf (writePart c base s p).mem = true := by
  fun_cases writePart c base s p
  case case1 e => exact memory_wf_devWrite e h
  all_goals exact h
@[simp] theorem memory_wf_writeImage {s : State} (blk : Nat) (h : Memory.wf s.mem = true) :
    Memory.wf (writeImage s blk).mem = true := by fun_cases writeImage s blk <;> simp_all

/-! ### Placement -/

@[simp] theorem settleBoundary_mem (s : State) (core : Nat) : (settleBoundary s core).mem = s.mem := by
  unfold settleBoundary
  dsimp only
  split
  · split
    · rfl
    · simp [raiseTo_mem ‹_›]
  · rfl
@[simp] theorem memory_wf_postUnfit {s : State} (q : Slot) (r : QRecord) (h : Memory.wf s.mem = true) :
    Memory.wf (postUnfit s q r).mem = true := by simp [postUnfit, h]
@[simp] theorem putRecord_mem (s : State) (pa : Nat) (r : QRecord) : (putRecord s pa r).mem = s.mem := rfl
@[simp] theorem walksDone_mem (s : State) (q : Slot) (r : QRecord) : (walksDone s q r).mem = s.mem := by simp [walksDone]
@[simp] theorem memory_wf_noteRecord (q : Slot) {s : State} (r : QRecord) (h : Memory.wf s.mem = true) :
    Memory.wf (noteRecord q s r).mem = true := by fun_cases noteRecord q s r <;> simp +zetaDelta [*]
@[simp] theorem memory_wf_considerAll {s : State} (die : Nat) (h : Memory.wf s.mem = true) :
    Memory.wf (considerAll s die).mem = true :=
  memory_wf_foldl (fun _ _ h => memory_wf_foldl (fun _ _ h => memory_wf_noteRecord _ _ h) _ h) _ h
@[simp] theorem placeBlocks_mem (c : Ctx) (t gang idx : Nat) (entryVa : DWord) (e : Entry) (m : Nat) (l : List (Nat × Nat))
    (s : State) : (placeBlocks c t gang idx entryVa e m l s).mem = s.mem := by
  induction l generalizing m s with
  | nil => rfl
  | cons p l ih => rw [placeBlocks, ih]; simp
@[simp] theorem placeGang_mem (s : State) (c : Ctx) (t : Nat) (entryVa : DWord) (e : Entry) (cores : List Nat) :
    (placeGang s c t entryVa e cores).mem = s.mem := by simp [placeGang]
@[simp] theorem memory_wf_dropRecord {s : State} (q : Slot) (r : QRecord) (h : Memory.wf s.mem = true) :
    Memory.wf (dropRecord s q r).mem = true := by fun_cases dropRecord s q r <;> simp [*]
@[simp] theorem taskOf_mem (s : State) (q : Slot) (r : QRecord) (e : Entry) : (taskOf s q r e).2.mem = s.mem := by
  fun_cases taskOf s q r e <;> rfl
@[simp] theorem memory_wf_lastGang {s : State} (q : Slot) (r : QRecord) (t : Nat) (h : Memory.wf s.mem = true) :
    Memory.wf (lastGang s q r t).mem = true := by simp [lastGang, h]
@[simp] theorem launchGroups_mem (blk : Nat) (b : Block) (init : Tab DWord) (x3 : List (Nat × Nat)) (x4 : State) :
    (launchGroups blk b init x3 x4).mem = x4.mem := by fun_induction launchGroups blk b init x3 x4 <;> simp [*]
@[simp] theorem launchAcquire_mem (s : State) (core : Nat) (c : Ctx) : (launchAcquire s core c).mem = s.mem := by
  simp [launchAcquire]
@[simp] theorem startBlock_mem (s : State) (blk : Nat) (b : Block) : (startBlock s blk b).mem = s.mem := by simp [startBlock]
@[simp] theorem startSpawned_mem (s : State) (core : Nat) (bin : Bin) : (startSpawned s core bin).mem = s.mem := by
  simp [startSpawned]
@[simp] theorem stealLoop_mem (thief victim n : Nat) (s : State) : (stealLoop thief victim n s).mem = s.mem := by
  induction n generalizing s with
  | zero => rfl
  | succ n ih =>
    unfold stealLoop
    split
    · rfl
    · split
      · rfl
      · simp [ih]
@[simp] theorem memory_wf_postTask {s : State} (t : Task) (kind : Nat) (va : DWord) (h : Memory.wf s.mem = true) :
    Memory.wf (postTask s t kind va).mem = true := by simp [postTask, h]
@[simp] theorem memory_wf_completionStep {s : State} (n : Nat) (t : Task) (va : DWord) (f : Nat → Nat) (under : Bool)
    (h : Memory.wf s.mem = true) : Memory.wf (completionStep s n t va f under).1.mem = true := by
  unfold completionStep
  split
  · simp [h]
  · exact h
  · simp [h]
  · split <;> simp [memory_wf_writeBytes, h]
@[simp] theorem stageTask_mem (s : State) (n : Nat) (l : TaskLife) : (stageTask s n l).mem = s.mem := rfl
@[simp] theorem memory_wf_finishTask {s : State} (n : Nat) (t : Task) (h : Memory.wf s.mem = true) :
    Memory.wf (finishTask s n t).mem = true := by simp [finishTask, h]
theorem memory_wf_appendFirst {s t : State} {o : Overflow} {seen : List Ctx} {l : List FaultEntry} {f : FaultEntry}
    (e : appendFirst s o seen l = some (f, t)) (h : Memory.wf s.mem = true) : Memory.wf t.mem = true := by
  revert e
  fun_induction appendFirst s o seen l
  case case1 => exact nofun
  case case2 ih => exact ih
  case case3 e1 => rintro ⟨⟩; exact memory_wf_faultAppend e1 h
  case case4 ih => exact ih

/-! ### Preemption -/

@[simp] theorem putRequest_mem (s : State) (r : Request) : (putRequest s r).mem = s.mem := rfl
@[simp] theorem modGang_mem (s : State) (g : Nat) (f : Gang → Gang) : (modGang s g f).mem = s.mem := rfl
@[simp] theorem memory_wf_leaveCore (fold : Bool) {s : State} (blk : Nat) (b : Block) (h : Memory.wf s.mem = true) :
    Memory.wf (leaveCore fold s blk b).mem = true := by simp -implicitDefEqProofs [leaveCore, h]
@[simp] theorem memory_wf_discardBlock (fold : Bool) {s : State} (blk : Nat) (h : Memory.wf s.mem = true) :
    Memory.wf (discardBlock fold s blk).mem = true := by fun_cases discardBlock fold s blk <;> simp +zetaDelta [*]
@[simp] theorem memory_wf_returnGang {s : State} (g : Nat) (h : Memory.wf s.mem = true) :
    Memory.wf (returnGang s g).mem = true := by fun_cases returnGang s g <;> simp_all
@[simp] theorem memory_wf_startSave {s : State} (g : Nat) (h : Memory.wf s.mem = true) :
    Memory.wf (startSave s g).mem = true := by fun_cases startSave s g <;> simp [*]
@[simp] theorem memory_wf_preemptGang {s : State} (g : Nat) (h : Memory.wf s.mem = true) :
    Memory.wf (preemptGang s g).mem = true := by fun_cases preemptGang s g <;> simp_all
theorem memory_wf_parkSpawn {s t : State} {core : Nat} {b : Bin} {isOpen : Bool} (e : parkSpawn s core b isOpen = some t)
    (h : Memory.wf s.mem = true) : Memory.wf t.mem = true := by
  revert e
  fun_cases parkSpawn s core b isOpen
  case case2 s1 e1 => rintro ⟨⟩; exact memory_wf_devWrite (t := s1) e1 h
  all_goals exact nofun
@[simp] theorem memory_wf_parkBin {s : State} (c : Ctx) (core i : Nat) (h : Memory.wf s.mem = true) :
    Memory.wf (parkBin c core s i).mem = true := by
  fun_cases parkBin c core s i
  case case3 e => simp [memory_wf_parkSpawn e h]
  all_goals simp [h]
@[simp] theorem memory_wf_parkList (c : Ctx) (core : Nat) (l : List Bin) {s : State} (h : Memory.wf s.mem = true) :
    Memory.wf (parkList c core l s).2.mem = true := by
  induction l generalizing s with
  | nil => exact h
  | cons b l ih =>
    unfold parkList
    split
    next e =>
      split at e
      · exact ih (memory_wf_parkSpawn e h)
      · cases e
    next => exact ih h
@[simp] theorem memory_wf_parkCore {s : State} (c : Ctx) (core : Nat) (h : Memory.wf s.mem = true) :
    Memory.wf (parkCore c s core).mem = true := by
  have bins : Memory.wf ((List.range 16).foldl (parkBin c core) s).mem = true :=
    memory_wf_foldl (fun _ _ h => memory_wf_parkBin _ _ _ h) _ h
  simp only [parkCore, modCore_mem]
  exact memory_wf_parkList _ _ _ bins
@[simp] theorem memory_wf_parkSpawns {s : State} (c : Ctx) (h : Memory.wf s.mem = true) : Memory.wf (parkSpawns s c).mem = true :=
  memory_wf_foldl (fun _ _ h => memory_wf_parkCore _ _ h) _ h
@[simp] theorem unparkSpawn_mem (s : State) (r : SpawnRec) : (unparkSpawn s r).mem = s.mem := by fun_cases unparkSpawn s r <;> rfl
@[simp] theorem unparkSpawns_mem (s : State) (c : Ctx) : (unparkSpawns s c).mem = s.mem := by simp [unparkSpawns]
@[simp] theorem memory_wf_abortContext {s : State} (c : Ctx) (h : Memory.wf s.mem = true) :
    Memory.wf (abortContext s c).mem = true :=
  memory_wf_foldl (fun _ _ h => memory_wf_discardBlock _ _ h) _ h
@[simp] theorem memory_wf_saveBlock {s : State} (out resumed : Bool) (blk : Nat) (h : Memory.wf s.mem = true) :
    Memory.wf (saveBlock out resumed s blk).mem = true := by
  have settled (l : List Nat) : Memory.wf (l.foldl settleLate (dropChains s blk)).mem = true :=
    memory_wf_foldl (fun _ _ h => memory_wf_settleLate _ h) l (by simp [h])
  have saved (l : List Nat) (s : State) : (l.foldl (fun s g => modGroup (settleAgent s (.group g)) g Group.save) s).mem = s.mem :=
    foldl_mem (fun _ _ => by simp) l s
  unfold saveBlock
  split
  · exact h
  · dsimp only
    split <;> simp [saved, settled]
@[simp] theorem memory_wf_regrant {s : State} (g core : Nat) (h : Memory.wf s.mem = true) :
    Memory.wf (regrant s g core).mem = true := by fun_cases regrant s g core <;> simp +zetaDelta [*]
@[simp] theorem memory_wf_restoreGroup (core : Nat) {s : State} (p : Nat × Nat) (h : Memory.wf s.mem = true) :
    Memory.wf (restoreGroup core s p).mem = true := by fun_cases restoreGroup core s p <;> simp +zetaDelta [*]
@[simp] theorem seatTiles_mem (blk core : Nat) (s : State) : (seatTiles blk core s).mem = s.mem := by
  unfold seatTiles
  split
  · rfl
  · refine (foldl_mem (fun s x => ?_) _ _).trans (foldl_mem (fun s x => by simp) _ _)
    split
    · rfl
    · simp [frameRoom_mem ‹_›]
@[simp] theorem memory_wf_restoreBlock {s : State} (p : Nat × Nat) (h : Memory.wf s.mem = true) :
    Memory.wf (restoreBlock s p).mem = true := by
  unfold restoreBlock
  split
  · exact h
  · simp only [refillSlots_mem]
    refine memory_wf_foldl (fun _ _ h => memory_wf_restoreGroup _ _ h) _ ?_
    simp -implicitDefEqProofs [h]
@[simp] theorem forgetCore_mem (s : State) (blk : Nat) : (forgetCore s blk).mem = s.mem := rfl
@[simp] theorem noCapacity_mem (s : State) (x1 : Gang) (ms : List Nat) : (noCapacity s x1 ms).mem = s.mem := by
  simp -implicitDefEqProofs [noCapacity]
@[simp] theorem memory_wf_deviceExchange {s : State} (key pa : Nat) (bs : List Byte) (h : Memory.wf s.mem = true) :
    Memory.wf (deviceExchange s key pa bs).mem = true := by
  unfold deviceExchange
  dsimp only
  split
  · exact h
  · exact memory_wf_writeBytes _ _ _ (by simp -implicitDefEqProofs [h])

/-! ### The host -/

@[simp] theorem raiseAll_mem (s : State) (src : Nat) : (raiseAll s src).mem = s.mem := rfl
@[simp] theorem writeBar_mem (s : State) (iod off : Nat) (v : DWord) : (writeBar s iod off v).mem = s.mem := by simp [writeBar]
@[simp] theorem memory_wf_postHostPage {s : State} (iod access : Nat) (va : DWord) (h : Memory.wf s.mem = true) :
    Memory.wf (postHostPage s iod access va).mem = true := by simp [postHostPage, h]
@[simp] theorem memory_wf_postHostRace {s : State} (iod access : Nat) (r : Option (Race × DWord)) (h : Memory.wf s.mem = true) :
    Memory.wf (postHostRace s iod access r).mem = true := by fun_cases postHostRace s iod access r <;> simp [*]
@[simp] theorem reply_mem (s : State) (iod : Nat) (bs : List Byte) : (reply s iod bs).mem = s.mem := rfl
@[simp] theorem poisonReply_mem (s : State) (iod : Nat) : (poisonReply s iod).mem = s.mem := rfl
@[simp] theorem memory_wf_stopBlock {s : State} (b : Block) (h : Memory.wf s.mem = true) :
    Memory.wf (stopBlock s b).mem = true := by fun_cases stopBlock s b <;> simp_all

/-! ### The fabric -/

@[simp] theorem modPort_mem (s : State) (p : Nat) (f : Port → Port) : (modPort s p f).mem = s.mem := rfl
@[simp] theorem memory_wf_wakeOffline {s : State} (h : Memory.wf s.mem = true) : Memory.wf (wakeOffline s).mem = true :=
  memory_wf_foldl (fun _ _ h => memory_wf_replayEntry _ _ h) _ (memory_wf_recount h)
@[simp] theorem memory_wf_putMirror {s : State} (key pa : Nat) (bs : List Byte) (h : Memory.wf s.mem = true) :
    Memory.wf (putMirror s key pa bs).mem = true := by
  fun_cases putMirror s key pa bs
  simp_all

/-! ### Starts and resets -/

@[simp] theorem boot_mem (s : State) : (boot s).mem = s.mem := by simp [boot]
@[simp] theorem memory_wf_beginReset {s : State} (d : Nat) (h : Memory.wf s.mem = true) : Memory.wf (beginReset s d).mem = true :=
  memory_wf_foldl (fun _ _ h => memory_wf_startSave _ h) _ (by simp [h])
@[simp] theorem memory_wf_unrefill {s : State} (q : Slot) (r : QRecord) (h : Memory.wf s.mem = true) :
    Memory.wf (unrefill s q r).2.mem = true := by
  have given {b : Prop} [Decidable b] {s1 s2 : State} {va : DWord} {bs : List Byte} (h1 : Memory.wf s1.mem = true)
      (e : (if b then .ok s1 else devWrite s1 q.ctx va bs) = .ok s2) : Memory.wf s2.mem = true := by
    split at e
    · cases e; exact h1
    · exact memory_wf_devWrite e h1
  fun_cases unrefill s q r
  case case2 e1 _ e2 => exact given (memory_wf_devWrite e1 h) e2
  all_goals simp +zetaDelta [h]
@[simp] theorem memory_wf_drainSlot {s : State} (q : Slot) (h : Memory.wf s.mem = true) : Memory.wf (drainSlot s q).mem = true := by
  have given (l : List QRecord) :
      Memory.wf (l.foldr (fun r (p : Slot × State) => unrefill p.2 p.1 r) (q, s)).2.mem = true := by
    induction l with
    | nil => exact h
    | cons r l ih => exact memory_wf_unrefill _ _ ih
  unfold drainSlot
  dsimp only
  split
  next e => exact memory_wf_devWrite e (given _)
  all_goals exact given _
@[simp] theorem memory_wf_drainSlots {s : State} (d : Nat) (h : Memory.wf s.mem = true) : Memory.wf (drainSlots s d).mem = true :=
  memory_wf_foldl (fun _ _ h => memory_wf_drainSlot _ h) _ h
@[simp] theorem resetDie_mem (s : State) (d : Nat) : (resetDie s d).mem = s.mem := rfl
@[simp] theorem recallWords_mem (s : State) (d : Nat) : (recallWords s d).mem = s.mem := rfl
@[simp] theorem memory_wf_takeDown {s : State} (d : Nat) (h : Memory.wf s.mem = true) : Memory.wf (takeDown s d).mem = true :=
  memory_wf_drainSlots _ (memory_wf_foldl (fun _ _ h => memory_wf_foldl (fun _ _ h => memory_wf_parkCore _ _ h) _ h) _ h)

/-! ### Uniform instructions -/

@[simp] theorem uniFrag_mem (len : Nat) (g : Option GuardK) (f : UniIn → LaneOut) (c : Cx) (s : State) :
    (uniFrag len g f c s).mem = s.mem := by simp [uniFrag]
@[simp] theorem uniCtl_mem (len : Nat) (g : Option GuardK) (f : UniIn → LaneOut) (cc : Nat) (c : Ctl) (s : State) :
    (uniCtl len g f cc c s).mem = s.mem := by simp [uniCtl]

/-! ### Fetch and the schedule -/

theorem fetchWord_only (s : State) (w : Who) (va : DWord) : XlatOnly s (fetchWord s w va).2 := by
  have ht := translate_only s w.site w.ctx w.priv .fetch va
  unfold fetchWord
  split
  · exact .refl s
  · split
    all_goals rw [‹translate _ _ _ _ _ _ = _›] at ht
    case h_1 => split <;> exact ht
    all_goals exact ht
theorem fetchInstr_only (s : State) (w : Who) (vcount : Nat) (lane : Bool) (pc : DWord) :
    XlatOnly s (fetchInstr s w vcount lane pc).2 := by
  have h1 := fetchWord_only s w pc
  unfold fetchInstr
  split
  next s1 e1 =>
    rw [e1] at h1
    split
    · exact h1
    · split
      · exact h1
      · split
        · exact h1
        · split
          · exact h1
          · have h2 := h1.trans (fetchWord_only s1 w (pc + 4))
            split
            all_goals rw [‹fetchWord s1 _ _ = _›] at h2; exact h2
  next e1 => rw [e1] at h1; exact h1
@[simp] theorem memory_wf_fragFetchFailed {s : State} (c : Cx) (x2 : Fetch) (h : Memory.wf s.mem = true) :
    Memory.wf (fragFetchFailed s c x2).mem = true := by fun_cases fragFetchFailed s c x2 <;> simp +zetaDelta [*]
@[simp] theorem memory_wf_ctlFetchFailed {s : State} (cc : Nat) (pc : DWord) (x3 : Fetch) (h : Memory.wf s.mem = true) :
    Memory.wf (ctlFetchFailed s cc pc x3).mem = true := by fun_cases ctlFetchFailed s cc pc x3 <;> simp [*]
@[simp] theorem memory_wf_wakeTry (g : Nat) {s : State} (x2 : Frag) (h : Memory.wf s.mem = true) :
    Memory.wf (wakeTry g s x2).mem = true := by simp [wakeTry, h]

end Sys2Proof.Machine
end

section
/-! SUPPORT. Every instruction of a party that is there, and every event, goes on and keeps memory canonical. -/

namespace Sys2Proof.Machine

/-! ### Steps that go on -/

/-- A result that goes on from `s`, and whose memory is in canonical form where that of `s` is. -/
def Goes (s : State) (r : Out) : Prop := ∃ t, r = .next t ∧ (Memory.wf s.mem = true → Memory.wf t.mem = true)

theorem Goes.next {s t : State} (h : Memory.wf s.mem = true → Memory.wf t.mem = true) : Goes s (.next t) := ⟨t, rfl, h⟩
theorem Goes.stays (s : State) : Goes s (.next s) := .next id
theorem Goes.of_mem {s t : State} (e : t.mem = s.mem) : Goes s (.next t) := .next fun h => e ▸ h
theorem Goes.of_start {s t : State} {r : Out} (e : t.mem = s.mem) (h : Goes t r) : Goes s r := by
  obtain ⟨u, hu, hm⟩ := h
  exact ⟨u, hu, fun hs => hm (e ▸ hs)⟩

theorem Goes.kept {s t : State} {r : Out} (hg : Goes s r) (e : r = .next t) (h : Memory.wf s.mem = true) :
    Memory.wf t.mem = true := by
  obtain ⟨u, rfl, hu⟩ := hg
  cases e
  exact hu h

/-! ### Instructions -/

/-- The current party is there: its control core, or its fragment in its group. -/
def State.hasParty (s : State) : Prop :=
  match s.cur with
  | .idle => False
  | .control cc => ∃ c, s.ctls[cc]? = some c
  | .frag g f => ∃ gr fr, s.groups[g]? = some gr ∧ gr.frag? f = some fr

/-- An instruction of a party that is there goes on, if its effects on a compute core and on a control core keep memory canonical. -/
theorem issue_goes {i : Instr} {x : IssueInfo} {s : State} {onFrag : Cx → State → State} {onCtl : Nat → Ctl → State → State}
    (hp : s.hasParty) (hf : ∀ c {s}, Memory.wf s.mem = true → Memory.wf (onFrag c s).mem = true)
    (hc : ∀ cc c {s}, Memory.wf s.mem = true → Memory.wf (onCtl cc c s).mem = true) : Goes s (issue i x s onFrag onCtl) := by
  unfold issue
  cases e : s.cur with
  | idle => exact absurd hp (by simp [State.hasParty, e])
  | control cc =>
    obtain ⟨c, ec⟩ : ∃ c, s.ctls[cc]? = some c := by simpa only [State.hasParty, e] using hp
    simp only [ec]
    split
    · exact .next fun h => by simp [h]
    · split
      · exact .next fun h => by simp [h]
      · exact .next fun h => hc _ _ h
  | frag g f =>
    obtain ⟨gr, fr, eg, ef⟩ : ∃ gr fr, s.groups[g]? = some gr ∧ gr.frag? f = some fr := by
      simpa only [State.hasParty, e] using hp
    simp only [eg, ef]
    split
    · exact .next fun h => by simp [h]
    · split
      · exact .next fun h => by simp [h]
      · split
        · exact .next fun h => by simp [h]
        · split
          · exact .next fun h => by simp [h]
          · exact .next fun h => hf _ (by simp [h])

/-- An instruction of compute cores alone. -/
theorem issue_frag_goes {i : Instr} {x : IssueInfo} {s : State} {onFrag : Cx → State → State} (hp : s.hasParty)
    (hf : ∀ c {s}, Memory.wf s.mem = true → Memory.wf (onFrag c s).mem = true) : Goes s (issue i x s onFrag noCtl) :=
  issue_goes hp hf fun _ _ _ h => h

/-- A privileged instruction of control cores. -/
theorem issue_privileged_goes {i : Instr} {x : IssueInfo} {s : State} {body : Nat → Ctl → State → State} (hp : s.hasParty)
    (hc : ∀ cc c {s}, Memory.wf s.mem = true → Memory.wf (body cc c s).mem = true) :
    Goes s (issue i x s noFrag (fun cc c s => privileged cc c s (body cc c))) :=
  issue_goes hp (fun _ _ h => h) fun cc c _ h => memory_wf_privileged cc c h (hc cc c h)

theorem laneMemOp_goes {i : Instr} {w : Bool} {body : Cx → State → State} {s : State} (hp : s.hasParty)
    (hb : ∀ c {s}, Memory.wf s.mem = true → Memory.wf (body c s).mem = true) : Goes s (laneMemOp i w body s) :=
  issue_frag_goes hp hb

theorem laneOp_goes {i : Instr} {w : Bool} {len : Nat} {g : Option GuardQ} {f : Cx → Nat → Nat → LaneOut} {s : State}
    (hp : s.hasParty) : Goes s (laneOp i w len g f s) :=
  issue_frag_goes hp fun _ _ h => by simp [h]

theorem crossOp_goes {i : Instr} {w : Bool} {g : Option GuardQ} {f : Cx → Nat → List Nat → Nat → LaneOut} {s : State}
    (hp : s.hasParty) : Goes s (crossOp i w g f s) :=
  issue_frag_goes hp fun _ _ h => by simp [h]

theorem uniOp_goes {i : Instr} {w : Bool} {len : Nat} {g : Option GuardK} {f : UniIn → LaneOut} {s : State}
    (hp : s.hasParty) : Goes s (uniOp i w len g f s) :=
  issue_goes hp (fun _ _ h => by simp [h]) (fun _ _ _ h => by simp [h])

theorem csrwOp_goes {i : Instr} {fn : CsrwFn} {o : CsrOp} {s : State} (hp : s.hasParty) : Goes s (csrwOp i fn o s) :=
  issue_goes hp (fun _ _ h => by simp [h]) (fun _ _ _ h => by simp [h])

theorem issue_guarded_goes {i : Instr} {x : IssueInfo} {g : Option GuardK} {body : Cx → State → State} {s : State}
    (hp : s.hasParty) (hb : ∀ c {s}, Memory.wf s.mem = true → Memory.wf (body c s).mem = true) :
    Goes s (issue i x s (guardedFrag g 8 body) noCtl) :=
  issue_frag_goes hp fun c _ h => memory_wf_guardedFrag g 8 c h (hb c h)

theorem bothGuarded_goes {i : Instr} {w : Bool} {g : Option GuardK} {rel : Bool} {body : Actor → State → State} {s : State}
    (hp : s.hasParty) (hb : ∀ a {s}, Memory.wf s.mem = true → Memory.wf (body a s).mem = true) :
    Goes s (bothGuarded i w g rel body s) :=
  issue_goes hp (fun c _ h => memory_wf_guardedFrag _ _ _ h (hb _ h)) (fun cc c _ h => memory_wf_guardedCtl _ _ _ _ h (by
    split
    · simp [h]
    · exact hb _ h))

theorem mntOp_goes {i : Instr} {o : MntOp} {effect : State → Site → List (Nat × Nat) → State} {s : State} (hp : s.hasParty)
    (he : ∀ s x l, (effect s x l).mem = s.mem) : Goes s (mntOp i o effect s) :=
  issue_goes hp
    (fun c _ h => memory_wf_guardedFrag _ _ _ h
      (memory_wf_mntBody o _ he (fun _ _ h => by simp [h]) (fun _ _ h => by simp [h]) (fun _ h => by simp [h]) h))
    (fun cc c _ h => memory_wf_guardedCtl _ _ _ _ h
      (memory_wf_mntBody o _ he (fun _ _ h => by simp [h]) (fun _ _ h => by simp [h]) (fun _ h => by simp [h]) h))

theorem execRgn_goes {s : State} (o : RgnOp) (hp : s.hasParty) : Goes s (execRgn o s) :=
  issue_goes hp
    (fun c _ h => memory_wf_rgnBody o _ _ (fun _ _ h => by simp [h]) (fun _ _ h => by simp [h]) (fun _ h => by simp [h]) h)
    (fun cc c _ h => memory_wf_rgnBody o _ _ (fun _ _ h => by simp [h]) (fun _ _ h => by simp [h]) (fun _ h => by simp [h]) h)

/-! ### Events -/

theorem execRecipeRun_goes (blk x : Nat) (s : State) : Goes s (execRecipeRun blk x s) := by
  unfold execRecipeRun
  split
  · exact .stays s
  · refine .next fun h => ?_
    split
    · split <;> simp [h]
    · simp [h]

theorem execFoldRetry_goes (core : Nat) (s : State) : Goes s (execFoldRetry core s) := by
  unfold execFoldRetry
  split
  · refine .next fun h => memory_wf_foldl (fun s p h => ?_) _ h
    split <;> simp [h]
  · exact .stays s

theorem execCollectiveMatch_goes (iod n : Nat) (others : List Contribution) (s : State) :
    Goes s (execCollectiveMatch iod n others s) := by
  fun_cases execCollectiveMatch iod n others s
  case case3 => exact .next fun h => memory_wf_foldl (fun _ _ h => by simp [h]) _ h
  case case4 => exact .next fun h => memory_wf_foldl (fun _ _ h => by simp [h]) _ h
  all_goals exact .stays s

theorem execMonitorWake_goes (line : Nat) (s : State) : Goes s (execMonitorWake line s) := by
  unfold execMonitorWake
  dsimp only
  split
  · exact .stays s
  · exact .next fun h => memory_wf_foldl (fun _ _ h => by simp [h]) _
      (memory_wf_foldl (fun _ _ h => by simp [h]) _ (memory_wf_recount h))

theorem execHomeAccess_goes (a : Agent) (k : HomeKind) (pa : Nat) (s : State) : Goes s (execHomeAccess a k pa s) := by
  unfold execHomeAccess
  dsimp only
  split
  · exact .stays s
  · refine .next fun h => ?_
    cases k <;> simp [h]

theorem execEviction_goes (site : EvictedFrom) (word : Nat) (s : State) : Goes s (execEviction site word s) := by
  unfold execEviction
  refine .of_mem ?_
  split <;> simp

theorem execDispatch_goes (die : Nat) (cores : List Nat) (s : State) : Goes s (execDispatch die cores s) := by
  unfold execDispatch
  refine .next fun h => ?_
  have h1 : Memory.wf (considerAll (bindWaiting s die) die).mem = true := by simp [h]
  dsimp only
  split <;> simp [h1]

theorem execUnbind_goes (die slot : Nat) (s : State) : Goes s (execUnbind die slot s) := by
  fun_cases execUnbind die slot s
  case case4 s1 e => exact .next fun h => memory_wf_bindWaiting _ (memory_wf_unbindSlot (t := s1) e h)
  all_goals exact .stays s

theorem execOverflowAppend_goes (die : Nat) (s : State) : Goes s (execOverflowAppend die s) := by
  fun_cases execOverflowAppend die s
  case case1 => exact .stays s
  case case2 e => exact .next fun h => (memory_wf_appendFirst e h :)

theorem execAbIntervalEnd_goes (core a l g : Nat) (s : State) : Goes s (execAbIntervalEnd core a l g s) := by
  unfold execAbIntervalEnd
  dsimp only
  split
  · exact .stays s
  · refine .of_mem ?_
    split
    · split
      · split
        · simp
        next e => simp [raiseTo_mem e]
      · simp
    · split <;> simp

theorem takeRequest_goes (c : Ctx) (codes : Nat → Bool) {effect : State → State} (s : State)
    (he : ∀ {s}, Memory.wf s.mem = true → Memory.wf (effect s).mem = true) : Goes s (takeRequest c codes effect s) := by
  unfold takeRequest
  dsimp only
  split
  · exact .stays s
  · exact .next fun h => he (by simp [h])

theorem execRunRequest_goes (c : Ctx) (s : State) : Goes s (execRunRequest c s) := takeRequest_goes c _ s id

theorem execPreemptRequest_goes (c : Ctx) (s : State) : Goes s (execPreemptRequest c s) :=
  takeRequest_goes c _ s fun h => memory_wf_foldl (fun _ _ h => memory_wf_preemptGang _ h) _ h

theorem execSaveRequest_goes (c : Ctx) (s : State) : Goes s (execSaveRequest c s) :=
  takeRequest_goes c _ s fun h => memory_wf_foldl (fun _ _ h => memory_wf_startSave _ h) _ h

theorem execAbortRequest_goes (c : Ctx) (s : State) : Goes s (execAbortRequest c s) :=
  takeRequest_goes c _ s fun h => memory_wf_abortContext c h

theorem execResumeRequest_goes (c : Ctx) (s : State) : Goes s (execResumeRequest c s) :=
  takeRequest_goes c _ s fun h => by simp [h]

theorem execUnassignedRequest_goes (c : Ctx) (s : State) : Goes s (execUnassignedRequest c s) := takeRequest_goes c _ s id

theorem execDrainlimExpiry_goes (block : Nat) (s : State) : Goes s (execDrainlimExpiry block s) := by
  unfold execDrainlimExpiry
  split
  · exact .stays s
  · split
    · exact .stays s
    · split
      · exact .stays s
      · refine .next fun h => memory_wf_startSave _ ?_
        split
        · exact h
        · exact memory_wf_foldl (fun _ _ h => by simp [h]) _ h

theorem execSave_goes (gang : Nat) (s : State) : Goes s (execSave gang s) := by
  fun_cases execSave gang s
  case case4 => exact .next fun h => memory_wf_foldl (fun _ _ h => memory_wf_saveBlock _ _ _ h) _ h
  all_goals exact .stays s

theorem execRestore_goes (gang : Nat) (cores : List Nat) (s : State) : Goes s (execRestore gang cores s) := by
  fun_cases execRestore gang cores s
  case case6 ms _ _ ks _ s1 _ _ =>
    have h1 (h : Memory.wf s.mem = true) : Memory.wf s1.mem = true :=
      memory_wf_foldl (fun _ _ h => memory_wf_restoreBlock _ h) _ (memory_wf_foldl (fun _ _ h => by simp [h]) _ h)
    exact .next fun h => memory_wf_foldl (fun _ _ h => by simp [h]) _ (h1 h)
  all_goals exact .of_mem (by simp)

theorem execStatusWrite_goes (c : Ctx) (s : State) : Goes s (execStatusWrite c s) := by
  unfold execStatusWrite
  split
  · exact .stays s
  · dsimp only
    split
    · exact .stays s
    · exact .stays s
    · split
      · exact .stays s
      · refine .next fun h => ?_
        have parked (b : Prop) [Decidable b] : Memory.wf (if b then parkSpawns s c else s).mem = true := by simp [h]
        have folded (b : Prop) [Decidable b] {s : State} (h : Memory.wf s.mem = true) :
            Memory.wf (if b then (s.cores.map (·.1)).foldl (fun s k => foldCounts s k c false) s else s).mem = true := by
          split
          · exact memory_wf_foldl (fun _ _ h => by simp [h]) _ h
          · exact h
        simp only [putRequest_mem]
        refine memory_wf_deviceExchange _ _ _ ?_
        split
        · exact memory_wf_deviceExchange _ _ _ (folded _ (parked _))
        · exact folded _ (parked _)

theorem execCxlMemRead_goes (iod off : Nat) (s : State) : Goes s (execCxlMemRead iod off s) := by
  fun_cases execCxlMemRead iod off s
  case case1 => exact .stays s
  all_goals
    have e := mem_of_eq_mk ‹translate _ _ _ _ _ _ = _›
    exact .next fun h => by simp +zetaDelta [e, h]

theorem execCxlMemWrite_goes (iod off : Nat) (bytes : List Byte) (s : State) : Goes s (execCxlMemWrite iod off bytes s) := by
  fun_cases execCxlMemWrite iod off bytes s
  case case1 => exact .stays s
  all_goals
    have e := mem_of_eq_mk ‹translate _ _ _ _ _ _ = _›
    exact .next fun h => by simp +zetaDelta [e, h, memory_wf_writeBytes]

theorem execUncorrectableError_goes (place : ErrorPlace) (s : State) : Goes s (execUncorrectableError place s) := by
  cases place
  case core => exact .next fun h => memory_wf_foldl (fun _ _ h => by simp [h]) _ h
  all_goals exact .of_mem rfl

theorem memory_wf_remoteAccess {s : State} (x : Option RemoteAccess) (h : Memory.wf s.mem = true) :
    Memory.wf (remoteAccess x s).mem = true := by
  fun_cases remoteAccess x s
  case case2 x _ t e => exact (execHomeAccess_goes _ _ _ s).kept (t := t) e h
  all_goals exact h

theorem takeFlit_goes (type p : Nat) (f : Flit) {accept : State → State} (s : State)
    (ha : ∀ {s}, Memory.wf s.mem = true → Memory.wf (accept s).mem = true) : Goes s (takeFlit type p f accept s) := by
  unfold takeFlit
  split
  · exact .stays s
  · dsimp only
    split
    · exact .stays s
    · split
      · exact .of_mem rfl
      · split
        · exact .next fun h => ha h
        · split
          · exact .stays s
          · exact .of_mem rfl

theorem flitStep_goes (type port : Nat) (f : FlitStep) (s : State) : Goes s (flitStep type port f s) := by
  cases f
  · exact takeFlit_goes _ _ _ s (memory_wf_remoteAccess _)
  · exact .of_mem rfl

theorem execAcknowledge_goes (port : Nat) (a : AckFlit) (s : State) : Goes s (execAcknowledge port a s) :=
  takeFlit_goes 3 port a.flit s fun h => by simp [h]

theorem execKeyControl_goes (port : Nat) (k : KeyStep) (s : State) : Goes s (execKeyControl port k s) := by
  fun_cases execKeyControl port k s
  · exact takeFlit_goes _ _ _ s id
  all_goals exact .of_mem (by simp)

theorem execScopeTableInstall_goes (t : ScopeTable) (s : State) : Goes s (execScopeTableInstall t s) := by
  unfold execScopeTableInstall
  dsimp only
  split
  · exact .next fun h => memory_wf_wakeOffline h
  · exact .next fun h => memory_wf_wakeOffline (by simp [h])

theorem execColdStart_goes (s : State) : Goes s (execColdStart s) :=
  .next fun h => by
    rw [boot_mem]
    exact tabWfFrom_filter _ h

theorem execGangBarrierPass_goes (gang : Nat) (s : State) : Goes s (execGangBarrierPass gang s) := by
  fun_cases execGangBarrierPass gang s <;> exact .of_mem (by simp)

theorem execMbarTimeout_goes (g f : Nat) (s : State) : Goes s (execMbarTimeout g f s) := by
  fun_cases execMbarTimeout g f s <;> exact .of_mem rfl

theorem execChunkLanding_goes (id : Nat) (s : State) : Goes s (execChunkLanding id s) := by
  fun_cases execChunkLanding id s <;> exact .next fun h => by simp +zetaDelta [h]

theorem execCopyCommand_goes (iod n : Nat) (s : State) : Goes s (execCopyCommand iod n s) := by
  fun_cases execCopyCommand iod n s <;> exact .next fun h => by simp [h]

theorem execEpubCommand_goes (iod n : Nat) (s : State) : Goes s (execEpubCommand iod n s) := by
  fun_cases execEpubCommand iod n s <;> exact .next fun h => by simp [h]

theorem execPublish_goes (iod n : Nat) (s : State) : Goes s (execPublish iod n s) := by
  fun_cases execPublish iod n s <;> exact .next fun h => by simp [h]

theorem execUpload_goes (iod n : Nat) (s : State) : Goes s (execUpload iod n s) := by
  fun_cases execUpload iod n s <;> exact .next fun h => by simp [h]

theorem execEcollCommand_goes (iod n : Nat) (s : State) : Goes s (execEcollCommand iod n s) := by
  fun_cases execEcollCommand iod n s <;> exact .next fun h => by simp [h]

theorem execKbindWrite_goes (cc : Nat) (v : DWord) (s : State) : Goes s (execKbindWrite cc v s) := .of_mem (by simp)

theorem execIlckWrite_goes (cc : Nat) (fn : CsrwFn) (v : DWord) (s : State) : Goes s (execIlckWrite cc fn v s) := by
  fun_cases execIlckWrite cc fn v s <;> exact .next fun h => by simp [h]

theorem execKpendWrite_goes (cc : Nat) (fn : CsrwFn) (v : DWord) (s : State) : Goes s (execKpendWrite cc fn v s) := .of_mem rfl

theorem execPeerAddLanding_goes (id : Nat) (s : State) : Goes s (execPeerAddLanding id s) := by
  fun_cases execPeerAddLanding id s <;> exact .next fun h => by simp +zetaDelta [h]

theorem execTrapDelivery_goes (g : Nat) (s : State) : Goes s (execTrapDelivery g s) := by
  fun_cases execTrapDelivery g s <;> exact .next fun h => by simp +zetaDelta [h]

theorem execInterrupt_goes (cc : Nat) (s : State) : Goes s (execInterrupt cc s) := by
  fun_cases execInterrupt cc s <;> exact .next fun h => by simp +zetaDelta [h]

theorem execWalkRetry_goes (g id : Nat) (s : State) : Goes s (execWalkRetry g id s) := by
  fun_cases execWalkRetry g id s <;> exact .next fun h => by simp [h]

theorem execPriorityAging_goes (die slot idx : Nat) (s : State) : Goes s (execPriorityAging die slot idx s) := by
  fun_cases execPriorityAging die slot idx s <;> exact .of_mem (by simp)

theorem execBlockStart_goes (core : Nat) (s : State) : Goes s (execBlockStart core s) := by
  fun_cases execBlockStart core s <;> exact .of_mem (by simp)

theorem execSpawnedGroupStart_goes (core : Nat) (s : State) : Goes s (execSpawnedGroupStart core s) := by
  fun_cases execSpawnedGroupStart core s <;> exact .next fun h => by simp +zetaDelta [h]

theorem execTimerExpiry_goes (core bin : Nat) (s : State) : Goes s (execTimerExpiry core bin s) := by
  fun_cases execTimerExpiry core bin s <;> exact .of_mem (by simp)

theorem execBinClose_goes (core bin : Nat) (s : State) : Goes s (execBinClose core bin s) := by
  fun_cases execBinClose core bin s <;> exact .of_mem (by simp)

theorem execSteal_goes (thief victim : Nat) (s : State) : Goes s (execSteal thief victim s) := by
  fun_cases execSteal thief victim s <;> exact .of_mem (by simp)

theorem execUrgent_goes (g f : Nat) (s : State) : Goes s (execUrgent g f s) := by
  fun_cases execUrgent g f s <;> exact .of_mem (by simp)

theorem execTaskCompletion_goes (n : Nat) (s : State) : Goes s (execTaskCompletion n s) := by
  fun_cases execTaskCompletion n s <;> exact .next fun h => by simp +zetaDelta [h]

theorem execSwitchOut_goes (block : Nat) (s : State) : Goes s (execSwitchOut block s) := by
  fun_cases execSwitchOut block s <;> exact .of_mem rfl

theorem execDoorbell_goes (iod : Nat) (s : State) : Goes s (execDoorbell iod s) := .of_mem rfl

theorem execRegisterWrite_goes (r : RegWrite) (s : State) : Goes s (execRegisterWrite r s) := by
  fun_cases execRegisterWrite r s <;> exact .of_mem (by simp)

theorem execSpdmRequest_goes (iod : Nat) (request : List Byte) (s : State) : Goes s (execSpdmRequest iod request s) := .of_mem rfl

theorem execThermalLimit_goes (entered : Bool) (s : State) : Goes s (execThermalLimit entered s) := .of_mem rfl

theorem execRollover_goes (k : NewKey) (s : State) : Goes s (execRollover k s) := by
  fun_cases execRollover k s <;> exact .of_mem (by simp)

theorem execPortDown_goes (port : Nat) (s : State) : Goes s (execPortDown port s) := .of_mem rfl

theorem execPortUp_goes (port : Nat) (s : State) : Goes s (execPortUp port s) := .next fun h => by simp [h]

theorem execWarmStart_goes (s : State) : Goes s (execWarmStart s) := .of_mem (by simp)

theorem execWarmReset_goes (die : Nat) (s : State) : Goes s (execWarmReset die s) := by
  fun_cases execWarmReset die s <;> exact .next fun h => by simp [h]

theorem execReAdmission_goes (r : Retraining) (s : State) : Goes s (execReAdmission r s) := by
  fun_cases execReAdmission r s <;> exact .next fun h => by simp [h]

theorem execTimeBaseTick_goes (s : State) : Goes s (execTimeBaseTick s) := .of_mem rfl

/-! ### Every instruction and every event -/

theorem execSld_goes {s : State} (o : SldOp) (hp : s.hasParty) : Goes s (execSld o s) :=
  issue_goes hp (fun _ _ h => by simp [h]) fun _ _ _ h => by simp [h]

theorem execSst_goes {s : State} (o : SstOp) (hp : s.hasParty) : Goes s (execSst o s) :=
  issue_goes hp (fun _ _ h => by simp [h]) fun _ _ _ h => by simp [h]

theorem execAcq_goes {s : State} (o : AcqOp) (hp : s.hasParty) : Goes s (execAcq o s) :=
  issue_goes hp (fun _ _ h => by simp [h]) fun _ _ _ h => by simp [h]

theorem execAcqAll_goes {s : State} (o : ScopeOp) (hp : s.hasParty) : Goes s (execAcqAll o s) :=
  issue_goes hp (fun _ _ h => by simp [h]) fun _ _ _ h => by simp [h]

theorem execRel_goes {s : State} (o : ScopeOp) (hp : s.hasParty) : Goes s (execRel o s) :=
  issue_goes hp (fun _ _ h => by simp [h]) fun _ _ _ h => by simp [h]

theorem execBra_goes {s : State} (o : JumpOp) (hp : s.hasParty) : Goes s (execBra o s) :=
  issue_goes hp (fun _ _ h => by simp [h]) fun _ _ _ h => by simp [h]

theorem execCall_goes {s : State} (o : JumpOp) (hp : s.hasParty) : Goes s (execCall o s) :=
  issue_goes hp (fun _ _ h => by simp [h]) fun _ _ _ h => by simp [h]

theorem execBrc_goes {s : State} (o : BrcOp) (hp : s.hasParty) : Goes s (execBrc o s) :=
  issue_goes hp (fun _ _ h => by simp [h]) fun _ _ _ h => by simp [h]

theorem execBraRegister_goes {s : State} (o : SrcOp) (hp : s.hasParty) : Goes s (execBraRegister o s) :=
  issue_goes hp (fun _ _ h => by simp [h]) fun _ _ _ h => by simp [h]

theorem execCallRegister_goes {s : State} (o : SrcOp) (hp : s.hasParty) : Goes s (execCallRegister o s) :=
  issue_goes hp (fun _ _ h => by simp [h]) fun _ _ _ h => by simp [h]

theorem execRet_goes {s : State} (o : SrcOp) (hp : s.hasParty) : Goes s (execRet o s) :=
  issue_goes hp (fun _ _ h => by simp [h]) fun _ _ _ h => by simp [h]

theorem execYieldSlot_goes {s : State} (o : WOp) (hp : s.hasParty) : Goes s (execYieldSlot o s) :=
  issue_goes hp (fun _ _ h => by simp [h]) fun _ _ _ h => by simp [h]

theorem execBclose_goes {s : State} (o : WOp) (hp : s.hasParty) : Goes s (execBclose o s) :=
  issue_goes hp (fun _ _ h => by simp [h]) fun _ _ _ h => by simp [h]

theorem execBwaitImmediate_goes {s : State} (o : BwaitImmOp) (hp : s.hasParty) : Goes s (execBwaitImmediate o s) :=
  issue_goes hp (fun _ _ h => by simp [h]) fun _ _ _ h => by simp [h]

theorem execBwaitRegister_goes {s : State} (o : SrcOp) (hp : s.hasParty) : Goes s (execBwaitRegister o s) :=
  issue_goes hp (fun _ _ h => by simp [h]) fun _ _ _ h => by simp [h]

theorem execTrap_goes {s : State} (o : TrapOp) (hp : s.hasParty) : Goes s (execTrap o s) :=
  issue_frag_goes hp fun _ _ h => by simp [h]

theorem execTrapBreak_goes {s : State} (o : TrapOp) (hp : s.hasParty) : Goes s (execTrapBreak o s) :=
  issue_frag_goes hp fun _ _ h => by simp [h]

theorem execRte_goes {s : State} (o : WOp) (hp : s.hasParty) : Goes s (execRte o s) :=
  issue_frag_goes hp fun _ _ h => by simp [h]

theorem execCsrr_goes {s : State} (o : CsrOp) (hp : s.hasParty) : Goes s (execCsrr o s) :=
  issue_goes hp (fun _ _ h => by simp [h]) fun _ _ _ h => by simp [h]

theorem execSvc_goes {s : State} (o : TrapOp) (hp : s.hasParty) : Goes s (execSvc o s) :=
  issue_goes hp (fun _ _ h => h) fun _ _ _ h => by simp [h]

theorem execEret_goes {s : State} (o : WOp) (hp : s.hasParty) : Goes s (execEret o s) :=
  issue_privileged_goes hp fun _ _ _ h => by simp [h]

theorem execTlbiPage_goes {s : State} (o : PairOp) (hp : s.hasParty) : Goes s (execTlbiPage o s) :=
  issue_privileged_goes hp fun _ _ _ h => by simp [h]

theorem execTlbiAsid_goes {s : State} (o : SrcOp) (hp : s.hasParty) : Goes s (execTlbiAsid o s) :=
  issue_privileged_goes hp fun _ _ _ h => by simp [h]

theorem execTlbiAll_goes {s : State} (o : WOp) (hp : s.hasParty) : Goes s (execTlbiAll o s) :=
  issue_privileged_goes hp fun _ _ _ h => by simp [h]

theorem execCtxi_goes {s : State} (o : SrcOp) (hp : s.hasParty) : Goes s (execCtxi o s) :=
  issue_privileged_goes hp fun _ _ _ h => by simp [h]

theorem execKeysetLoad_goes {s : State} (o : KeyLoadOp) (hp : s.hasParty) : Goes s (execKeysetLoad o s) :=
  issue_privileged_goes hp fun _ _ _ h => by simp [h]

theorem execKeysetGen_goes {s : State} (o : KeyOp) (hp : s.hasParty) : Goes s (execKeysetGen o s) :=
  issue_privileged_goes hp fun cc c _ h =>
    memory_wf_guardedCtl _ _ cc c h (memory_wf_keysetBody _ _ _ h fun _ _ h => memory_wf_keyGen _ h)

theorem execKeysetErase_goes {s : State} (o : KeyOp) (hp : s.hasParty) : Goes s (execKeysetErase o s) :=
  issue_privileged_goes hp fun cc c _ h =>
    memory_wf_guardedCtl _ _ cc c h (memory_wf_keysetBody _ _ _ h fun _ _ h => by simp [h])

theorem execHalt_goes {s : State} (o : WOp) (hp : s.hasParty) : Goes s (execHalt o s) :=
  issue_privileged_goes hp fun _ _ _ h => by simp [h]

/-- What an instruction or an event does goes on: an instruction needs its party, an event needs none. -/
theorem exec_goes (i : Instr) {s : State} (h : Instr.isEvent i = false → s.hasParty) : Goes s (exec i s) := by
  cases i with
  | mov o | specialMov o | movi o | moviw o | iaddi o | lea o | iadd o | isub o | imul o | imad o | imin o | imax o | iabs o
  | icmp o | sel o | fadd o | fsub o | ffma o | fmul o | fmin o | fmax o | fcmp o | fclass o | shl o | shr o | sha o | and o
  | or o | xor o | bfx o | bfi o | popc o | clz o | frcp o | fsqrt o | frsq o | fexp2 o | flog2 o | cvt o | pack o | unpk o
  | qset o | qop o =>
    exact laneOp_goes (h rfl)
  | brd o | join o | atom o | exit o | setwImmediate o | setwRImmediate o | setwRegister o | setwRRegister o | endw o
  | bar o | barArr o | barWait o | gbar o | mbarWait o | tseal o | tdrop o | thold o | tfree o | tfence o =>
    exact issue_frag_goes (h rfl) fun _ _ hm => by simp [hm]
  | ldgRow o | ld o | st o | ldg o | stg o | pft o | lda o | sta o | ldaTile o | staTile o | ldl o | stl o | fill o | mma o
  | mmas o | spk o | mdrn o | mdrnMem o | mdrnPeer o | mzero o =>
    exact laneMemOp_goes (h rfl) fun _ _ hm => by simp [hm]
  | shfl o | vote o | red o | scan o => exact crossOp_goes (h rfl)
  | iopIadd o | iopIsub o | iopImul o | iopIminI64 o | iopImaxI64 o | iopIminN64 o | iopImaxN64 o | iopIabs o | iopAnd o
  | iopOr o | iopXor o | iopShl o | iopShr o | iopSha o | iopPopc o | iopClz o | iopMov o | iopiIadd o | iopiIsub o
  | iopiImul o | iopiIminI64 o | iopiImaxI64 o | iopiIminN64 o | iopiImaxN64 o | iopiAnd o | iopiOr o | iopiXor o
  | iopiShl o | iopiShr o | iopiSha o | iopiMovi o | iopwIadd o | iopwIsub o | iopwImul o | iopwIminI64 o | iopwImaxI64 o
  | iopwIminN64 o | iopwImaxN64 o | iopwAnd o | iopwOr o | iopwXor o | iopwShl o | iopwShr o | iopwSha o | iopwMovi o
  | fopFadd o | fopFsub o | fopFmul o | fopFfma o | fopFmin o | fopFmax o | fopFrcp o | fopFsqrt o | fopFrsq o | fopFexp2 o
  | fopFlog2 o | fopCvt o | cmpkIcmp o | cmpkFcmp o | cmpkFclass o | prkQop o | prkQset o =>
    exact uniOp_goes (h rfl)
  | satom o | ecpy o | epub o | ecoll o | enq o | deq o | cdec o | cinc o =>
    exact bothGuarded_goes (h rfl) fun _ _ hm => by simp [hm]
  | cln o | inv o | civ o => exact mntOp_goes (h rfl) fun _ _ _ => by simp
  | rgn o => exact execRgn_goes o (h rfl)
  | mbarInit o | mbarArm o | mbarArr o | spawn o | tdef o => exact issue_guarded_goes (h rfl) fun _ _ hm => by simp [hm]
  | csrw o | csrwSet o | csrwClr o => exact csrwOp_goes (h rfl)
  | sld o => exact execSld_goes o (h rfl)
  | sst o => exact execSst_goes o (h rfl)
  | acq o => exact execAcq_goes o (h rfl)
  | acqAll o => exact execAcqAll_goes o (h rfl)
  | rel o => exact execRel_goes o (h rfl)
  | bra o => exact execBra_goes o (h rfl)
  | call o => exact execCall_goes o (h rfl)
  | brc o => exact execBrc_goes o (h rfl)
  | braRegister o => exact execBraRegister_goes o (h rfl)
  | callRegister o => exact execCallRegister_goes o (h rfl)
  | ret o => exact execRet_goes o (h rfl)
  | yieldSlot o => exact execYieldSlot_goes o (h rfl)
  | bclose o => exact execBclose_goes o (h rfl)
  | bwaitImmediate o => exact execBwaitImmediate_goes o (h rfl)
  | bwaitRegister o => exact execBwaitRegister_goes o (h rfl)
  | trap o => exact execTrap_goes o (h rfl)
  | trapBreak o => exact execTrapBreak_goes o (h rfl)
  | rte o => exact execRte_goes o (h rfl)
  | csrr o => exact execCsrr_goes o (h rfl)
  | svc o => exact execSvc_goes o (h rfl)
  | eret o => exact execEret_goes o (h rfl)
  | tlbiPage o => exact execTlbiPage_goes o (h rfl)
  | tlbiAsid o => exact execTlbiAsid_goes o (h rfl)
  | tlbiAll o => exact execTlbiAll_goes o (h rfl)
  | ctxi o => exact execCtxi_goes o (h rfl)
  | keysetLoad o => exact execKeysetLoad_goes o (h rfl)
  | keysetGen o => exact execKeysetGen_goes o (h rfl)
  | keysetErase o => exact execKeysetErase_goes o (h rfl)
  | halt o => exact execHalt_goes o (h rfl)
  | kbindWrite cc v => exact execKbindWrite_goes cc v s
  | ilckWrite cc fn v => exact execIlckWrite_goes cc fn v s
  | kpendWrite cc fn v => exact execKpendWrite_goes cc fn v s
  | registerWrite r => exact execRegisterWrite_goes r s
  | interrupt cc => exact execInterrupt_goes cc s
  | trapDelivery g => exact execTrapDelivery_goes g s
  | homeAccess a k pa => exact execHomeAccess_goes a k pa s
  | eviction site word => exact execEviction_goes site word s
  | monitorWake line => exact execMonitorWake_goes line s
  | walkRetry g id => exact execWalkRetry_goes g id s
  | switchOut block => exact execSwitchOut_goes block s
  | dispatch die cores => exact execDispatch_goes die cores s
  | priorityAging die slot idx => exact execPriorityAging_goes die slot idx s
  | blockStart core => exact execBlockStart_goes core s
  | steal thief victim => exact execSteal_goes thief victim s
  | urgent g f => exact execUrgent_goes g f s
  | timerExpiry core bin => exact execTimerExpiry_goes core bin s
  | binClose core bin => exact execBinClose_goes core bin s
  | spawnedGroupStart core => exact execSpawnedGroupStart_goes core s
  | taskCompletion task => exact execTaskCompletion_goes task s
  | foldRetry core => exact execFoldRetry_goes core s
  | unbind die slot => exact execUnbind_goes die slot s
  | overflowAppend die => exact execOverflowAppend_goes die s
  | chunkLanding id => exact execChunkLanding_goes id s
  | mbarTimeout g f => exact execMbarTimeout_goes g f s
  | peerAddLanding id => exact execPeerAddLanding_goes id s
  | gangBarrierPass gang => exact execGangBarrierPass_goes gang s
  | copyCommand iod n => exact execCopyCommand_goes iod n s
  | upload iod n => exact execUpload_goes iod n s
  | epubCommand iod n => exact execEpubCommand_goes iod n s
  | ecollCommand iod n => exact execEcollCommand_goes iod n s
  | collectiveMatch iod n others => exact execCollectiveMatch_goes iod n others s
  | publish iod n => exact execPublish_goes iod n s
  | recipeRun block tile => exact execRecipeRun_goes block tile s
  | abIntervalEnd core a l g => exact execAbIntervalEnd_goes core a l g s
  | runRequest c => exact execRunRequest_goes c s
  | preemptRequest c => exact execPreemptRequest_goes c s
  | saveRequest c => exact execSaveRequest_goes c s
  | abortRequest c => exact execAbortRequest_goes c s
  | resumeRequest c => exact execResumeRequest_goes c s
  | unassignedRequest c => exact execUnassignedRequest_goes c s
  | drainlimExpiry block => exact execDrainlimExpiry_goes block s
  | save gang => exact execSave_goes gang s
  | restore gang cores => exact execRestore_goes gang cores s
  | statusWrite c => exact execStatusWrite_goes c s
  | doorbell iod => exact execDoorbell_goes iod s
  | cxlMemRead iod off => exact execCxlMemRead_goes iod off s
  | cxlMemWrite iod off bytes => exact execCxlMemWrite_goes iod off bytes s
  | registrationFlit port f => exact flitStep_goes 1 port f s
  | dataFlit port f => exact flitStep_goes 2 port f s
  | acknowledge port a => exact execAcknowledge_goes port a s
  | keyControl port k => exact execKeyControl_goes port k s
  | rollover k => exact execRollover_goes k s
  | portDown port => exact execPortDown_goes port s
  | scopeTableInstall t => exact execScopeTableInstall_goes t s
  | uncorrectableError place => exact execUncorrectableError_goes place s
  | coldStart => exact execColdStart_goes s
  | warmStart => exact execWarmStart_goes s
  | warmReset die => exact execWarmReset_goes die s
  | reAdmission r => exact execReAdmission_goes r s
  | timeBaseTick => exact execTimeBaseTick_goes s
  | thermalLimit entered => exact execThermalLimit_goes entered s
  | portUp port => exact execPortUp_goes port s
  | spdmRequest iod request => exact execSpdmRequest_goes iod request s

end Sys2Proof.Machine
end

section
/-! SUPPORT. Every turn of the schedule goes on and keeps memory canonical. -/

namespace Sys2Proof.Machine

/-! ### Steps that are due are events -/

/-- A list of events. -/
def Events (l : List Instr) : Prop := ∀ e ∈ l, Instr.isEvent e = true

theorem Events.nil : Events [] := List.forall_mem_nil _
theorem Events.one {e : Instr} (h : Instr.isEvent e = true) : Events [e] := by simpa [Events] using h
theorem Events.append {l m : List Instr} (hl : Events l) (hm : Events m) : Events (l ++ m) :=
  fun e he => (List.mem_append.mp he).elim (hl e) (hm e)
theorem Events.ite {c : Prop} [Decidable c] {l m : List Instr} (hl : Events l) (hm : Events m) : Events (if c then l else m) := by
  split <;> assumption
theorem Events.map {α : Type} {f : α → Instr} (h : ∀ a, Instr.isEvent (f a) = true) (l : List α) : Events (l.map f) := by
  simpa [Events] using fun a _ => h a
theorem Events.flatMap {α : Type} {f : α → List Instr} (h : ∀ a, Events (f a)) (l : List α) : Events (l.flatMap f) := by
  intro e he
  obtain ⟨a, _, ha⟩ := List.mem_flatMap.mp he
  exact h a e ha

theorem events_groupSteps (s : State) (g : Nat) (gr : Group) : Events (groupSteps s g gr) := by
  refine .append (.append (.ite (.one rfl) .nil) (.flatMap (fun x => ?_) _)) (.map (fun _ => rfl) _)
  refine .append (.ite (.one rfl) .nil) ?_
  split
  · exact .ite (.one rfl) .nil
  · exact .nil

theorem events_blockSteps (s : State) (n : Nat) (b : Block) : Events (blockSteps s n b) := by
  refine .ite .nil (.append (.append ?_ (.ite (.one rfl) .nil)) ?_)
  · split
    · exact .ite (.one rfl) .nil
    · exact .nil
  · intro e he
    obtain ⟨c, _, hc⟩ := List.mem_filterMap.mp he
    obtain ⟨y, _, rfl⟩ := Option.map_eq_some_iff.mp hc
    rfl

theorem events_gangSteps (s : State) (n : Nat) (x : Gang) : Events (gangSteps s n x) :=
  .append (.append (.ite (.one rfl) .nil) (.ite (.one rfl) .nil)) (.ite .nil (.one rfl))

theorem events_coreSteps (s : State) (n : Nat) (k : Core) : Events (coreSteps s n k) := by
  refine .append (.append (.append (.ite .nil (.one rfl)) (.ite .nil (.one rfl))) (.flatMap (fun i => ?_) _)) (.ite .nil (.one rfl))
  split
  · exact .ite (.one rfl) (.ite (.one rfl) .nil)
  · exact .nil

theorem events_dieSteps (s : State) (d : Nat) : Events (dieSteps s d) :=
  .append (.ite .nil (.one rfl)) (.flatMap (fun _ => .append (.ite (.one rfl) .nil) (.map (fun _ => rfl) _)) _)

theorem events_commandSteps (c : Command) : Events (commandSteps c) := by
  unfold commandSteps
  split
  · refine .one ?_
    split
    · rfl
    · split
      · rfl
      · split <;> rfl
  all_goals exact .one rfl

theorem events_requestSteps (s : State) (c : Ctx) : Events (requestSteps s c) := by
  refine .append (.ite .nil (.one ?_)) (.ite (.one rfl) .nil)
  split
  · rfl
  · split
    · rfl
    · split
      · rfl
      · split
        · rfl
        · split <;> rfl

theorem events_candidates (s : State) : Events (candidates s) := by
  refine .append (.append (.append (.append (.append (.append (.append (.append (.append (.append (.append (.append ?_ ?_)
    ?_) ?_) ?_) ?_) ?_) ?_) ?_) ?_) ?_) ?_) ?_
  · exact .map (fun _ => rfl) _
  · exact .flatMap (fun _ => .ite (events_groupSteps _ _ _) .nil) _
  · exact .flatMap (fun _ => events_blockSteps _ _ _) _
  · exact .flatMap (fun _ => events_gangSteps _ _ _) _
  · exact .map (fun _ => rfl) _
  · exact .flatMap (fun _ => events_coreSteps _ _ _) _
  · exact .flatMap (fun _ => events_dieSteps _ _) _
  iterate 4 exact .map (fun _ => rfl) _
  · exact .flatMap (fun _ => events_commandSteps _) _
  · exact .flatMap (fun _ => events_requestSteps _ _) _

/-! ### Turns -/

/-- An event needs no party. -/
theorem exec_event_goes {i : Instr} (s : State) (h : Instr.isEvent i = true) : Goes s (exec i s) :=
  exec_goes i fun hi => by simp [h] at hi

theorem hasParty_frag {s : State} {g f : Nat} {gr : Group} {fr : Frag} (hc : s.cur = .frag g f) (hg : s.groups[g]? = some gr)
    (hf : gr.frag? f = some fr) : s.hasParty := by
  simp [State.hasParty, hc, hg, hf]

theorem hasParty_control {s : State} {cc : Nat} {c : Ctl} (hs : s.cur = .control cc) (hc : s.ctls[cc]? = some c) : s.hasParty := by
  simp [State.hasParty, hs, hc]

/-- What a fetched instruction needs of its party is still there after the fetch. -/
theorem XlatOnly.hasParty {s t : State} (h : XlatOnly s t) (hp : s.hasParty) : t.hasParty := by
  obtain ⟨_, _, rfl⟩ := h
  exact hp

theorem issueFragment_goes {s : State} {g f : Nat} (hc : s.cur = .frag g f) : Goes s (issueFragment s g f) := by
  unfold issueFragment
  split
  · exact .stays s
  next gr hg =>
    split
    · exact .stays s
    next fr hf =>
      dsimp only
      have fetched := fetchInstr_only s (Cx.who { g, f, gr, fr }) gr.vcount true fr.pc
      split
      next i s1 e =>
        rw [e] at fetched
        exact .of_start fetched.mem (exec_goes i fun _ => fetched.hasParty (hasParty_frag hc hg hf))
      next r s1 _ e =>
        rw [e] at fetched
        exact .next fun h => memory_wf_fragFetchFailed _ _ (by rw [fetched.mem, h])

theorem issueControl_goes {s : State} {cc : Nat} (hs : s.cur = .control cc) : Goes s (issueControl s cc) := by
  unfold issueControl
  split
  · exact .stays s
  next c hc =>
    split
    · exact .next fun h => memory_wf_takeDeferred _ h
    · split
      · exact exec_event_goes s rfl
      · split
        · exact .of_mem (by simp)
        · have fetched := fetchInstr_only s (c.who cc) 0 false c.pc
          split
          next i s1 e =>
            rw [e] at fetched
            exact .of_start fetched.mem (exec_goes i fun _ => fetched.hasParty (hasParty_control hs hc))
          next r s1 _ e =>
            rw [e] at fetched
            exact .next fun h => memory_wf_ctlFetchFailed _ _ _ (by rw [fetched.mem, h])

theorem fragTurn_goes {s : State} {g f : Nat} (hc : s.cur = .frag g f) : Goes s (fragTurn s g f) := by
  unfold fragTurn
  dsimp only
  split
  · split
    · exact issueFragment_goes hc
    · exact .of_start (giveTurn_mem ..) (issueFragment_goes rfl)
  · split <;> exact issueFragment_goes hc

theorem issueParty_goes (s : State) (p : Party) : Goes s (issueParty s p) := by
  refine .of_start (t := { s with cur := p }) rfl ?_
  unfold issueParty
  dsimp only
  split
  · exact .stays _
  · split
    · exact exec_event_goes _ rfl
    · split
      · exact fragTurn_goes rfl
      · exact .stays _
  · split
    · exact issueControl_goes rfl
    · exact .stays _

theorem memory_wf_endIntervals {s : State} (h : Memory.wf s.mem = true) : Memory.wf (endIntervals s).mem = true := by
  refine memory_wf_foldl (fun s core h => ?_) _ h
  dsimp only
  split
  next t e => exact (execAbIntervalEnd_goes _ _ _ _ s).kept (t := t) e h
  all_goals exact h

theorem passTime_goes (s : State) : Goes s (passTime s) := by
  obtain ⟨t, ht, hm⟩ := exec_event_goes (i := .timeBaseTick)
    ((endIntervals s).groups.zipIdx.foldl (fun s p => (p.1.frags.filter (·.wait.again)).foldl (wakeTry p.2) s) (endIntervals s)) rfl
  exact ⟨t, ht, fun h => hm (memory_wf_foldl (fun _ _ h => memory_wf_foldl (fun _ _ h => memory_wf_wakeTry _ _ h) _ h) _
    (memory_wf_endIntervals h))⟩

/-- A hardware step that is due. -/
theorem exec_dueSteps_goes {s : State} {e : Instr} (h : e ∈ dueSteps s) : Goes s (exec e s) :=
  exec_event_goes s (events_candidates s e (List.mem_of_mem_filter h))

theorem exec_firstDue_goes {s : State} {e : Instr} (h : firstDue s = some e) : Goes s (exec e s) :=
  exec_event_goes s (events_candidates s e (List.mem_of_find?_eq_some h))

theorem idleStep_goes (s : State) : Goes s (idleStep s) := by
  unfold idleStep
  split
  next e => exact exec_firstDue_goes e
  · split
    · exact issueParty_goes s _
    · split
      · exact passTime_goes s
      · split
        · exact issueParty_goes s _
        · exact passTime_goes s

theorem defaultTurn_goes (s : State) : Goes s (defaultTurn s) := by
  unfold defaultTurn
  split
  · exact issueParty_goes s _
  · split
    · split
      · exact issueParty_goes s _
      · exact idleStep_goes s
    · split
      · split
        next e => exact exec_firstDue_goes e
        · exact passTime_goes s
      · split
        · exact issueParty_goes s _
        · exact idleStep_goes s

theorem turn_goes (s : State) : Goes s (turn s) := by
  unfold turn
  split
  · exact defaultTurn_goes s
  · split
    · exact issueParty_goes s _
    · exact .of_start rfl (issueParty_goes _ _)
  · split
    · exact issueParty_goes s _
    · exact .of_start rfl (passTime_goes _)
  · dsimp only
    split
    next e => exact .of_start rfl (exec_dueSteps_goes (List.mem_of_getElem? e))
    · exact .of_mem rfl
  · split
    next e => exact .of_start rfl (exec_event_goes _ e)
    · exact .of_mem rfl

/-- Every step goes on, and keeps memory canonical. -/
theorem step_goes (s : State) : Goes s (step s) := .of_start rfl (turn_goes _)

end Sys2Proof.Machine
end

section
/-! The obligations of the scope: every step goes on (O57), and memory stays canonical (O58). -/

/-- Settles O57: every arm of `exec` gives a next state, but for an instruction whose party is not there, and a turn issues
only for a party that is there. -/
theorem everyStepGoesOn : Obligations.EveryStepGoesOn := by
  intro s
  obtain ⟨t, e, _⟩ := Sys2Proof.Machine.step_goes s
  exact ⟨t, e⟩

/-- Settles O58: memory changes through writes of bytes and through leaving out entries, and both keep the canonical form. -/
theorem memoryStaysCanonical : Obligations.MemoryStaysCanonical := by
  intro s t h e
  exact (Sys2Proof.Machine.step_goes s).kept e h

end

section
/-! SUPPORT. Numbers as bytes, what a write of memory leaves alone, what the device's own writes to a fault queue may change, and
compute cores changed in place. -/

namespace Sys2Proof.Machine

/-! ### Numbers as bytes (R5) -/

@[simp] theorem leBytes_length (n v : Nat) : (leBytes n v).length = n := by
  induction n generalizing v with
  | zero => rfl
  | succ n ih => simp [leBytes, ih]

theorem leNat_leBytes (n v : Nat) : leNat (leBytes n v) = v % 2 ^ (8 * n) := by
  induction n generalizing v with
  | zero => simp [leBytes, leNat, Nat.mod_one]
  | succ n ih =>
    have hp : 2 ^ (8 * (n + 1)) = 256 * 2 ^ (8 * n) := by rw [Nat.mul_add, Nat.pow_add]; omega
    rw [leBytes, leNat, ih, BitVec.toNat_ofNat, hp, Nat.mod_mul]

/-! ### What a write of bytes leaves alone -/

/-- What a write of bytes may change: memory with its tags, monitors and host copies. -/
def BytesOnly (s t : State) : Prop := ∃ m g o h, t = { s with mem := m, tags := g, monitors := o, hostLines := h }

theorem BytesOnly.refl (s : State) : BytesOnly s s := ⟨_, _, _, _, rfl⟩
theorem BytesOnly.trans {s t u : State} : BytesOnly s t → BytesOnly t u → BytesOnly s u := by
  rintro ⟨_, _, _, _, rfl⟩ ⟨_, _, _, _, rfl⟩
  exact ⟨_, _, _, _, rfl⟩

theorem BytesOnly.reg {s t : State} (h : BytesOnly s t) : t.reg = s.reg := by
  obtain ⟨_, _, _, _, rfl⟩ := h
  rfl

theorem retag_bytesOnly (s : State) (k pa : Nat) : BytesOnly s (retag s k pa) := by
  fun_cases retag s k pa <;> exact ⟨_, _, _, _, rfl⟩

theorem putBytes_bytesOnly (k : Nat) (s : State) (pa : Nat) (bs : List Byte) :
    BytesOnly s (putBytes (fun s a b => writeByte s k a b) s pa bs) :=
  putBytes_induct _ (BytesOnly s) (fun t a _ h => h.trans ((retag_bytesOnly t k a).trans ⟨_, _, _, _, rfl⟩)) s pa bs (.refl s)

theorem dropLines_bytesOnly (s : State) (pa n : Nat) : BytesOnly s (dropLines s pa n) := by
  fun_cases dropLines s pa n <;> exact ⟨_, _, _, _, rfl⟩

theorem writeBytes_bytesOnly (s : State) (k pa : Nat) (bs : List Byte) : BytesOnly s (writeBytes s k pa bs) := by
  unfold writeBytes
  split
  · exact .refl s
  · exact ((putBytes_bytesOnly k s pa bs).trans (dropLines_bytesOnly _ _ _)).trans ⟨_, _, _, _, rfl⟩

@[simp] theorem regOf_writeBytes (s : State) (k pa w : Nat) (bs : List Byte) : regOf (writeBytes s k pa bs) w = regOf s w := by
  rw [regOf, (writeBytes_bytesOnly s k pa bs).reg, ← regOf]

@[simp] theorem readWord_clearReg (s : State) (w key v : Nat) : readWord (clearReg s w) key v = readWord s key v := rfl

theorem regOf_clearReg (s : State) (w v : Nat) : regOf (clearReg s w) v = if v = w then none else regOf s v :=
  tabFind_tabDel s.reg w v

/-- A byte after a write under the key that it is read under. -/
theorem readByte_writeBytes_key (s : State) (k pa j : Nat) (bs : List Byte) :
    readByte (writeBytes s k pa bs) k j = if pa ≤ j ∧ j < pa + bs.length then bs.getD (j - pa) 0 else readByte s k j := by
  rw [readByte_writeBytes s k pa k j bs (fun _ => rfl)]
  split
  · exact readByte_putBytes_same k bs s pa j (by omega) (by omega)
  · exact readByte_putBytes_other k bs s pa k j (by omega) (fun _ => rfl)

/-- A write of bytes is one store of them. -/
theorem stored_writeBytes (s : State) (a : Acc) (k pa : Nat) (h : a.data.length = a.n) :
    Stored s (writeBytes s k pa a.data) [(a, pa, k)] where
  kept key j hj hk := by
    have hk' : (∃ i, pa ≤ i ∧ i < pa + a.data.length ∧ i / 64 = j / 64) → k = key := fun ⟨i, h1, h2, h3⟩ =>
      hk _ (List.mem_singleton_self _) i ⟨h1, h ▸ h2⟩ h3
    have hout : j < pa ∨ pa + a.data.length ≤ j := by
      have := hj _ (List.mem_singleton_self _)
      simp only [Covers] at this
      omega
    rw [readByte_writeBytes _ _ _ _ _ _ hk', readByte_putBytes_other _ _ _ _ _ _ hout hk']
  put l1 p l2 e _ j hj _ _ := by
    obtain ⟨rfl, rfl, rfl⟩ : l1 = [] ∧ p = (a, pa, k) ∧ l2 = [] := by
      cases l1 <;> simp_all
    simp only [Covers] at hj
    rw [readByte_writeBytes_key, if_pos (by omega)]

/-- Bytes read where they were written, under the same key. -/
theorem readBytes_writeBytes_same (s : State) (k pa : Nat) (bs : List Byte) :
    readBytes (writeBytes s k pa bs) k pa bs.length = bs := by
  refine List.ext_getElem (bytesOf_length _ _ _) fun i h1 h2 => ?_
  rw [← Option.some_inj, ← List.getElem?_eq_getElem h1, readBytes, bytesOf_getElem? _ _ _ _ h2, readByte_writeBytes_key,
    if_pos (by omega)]
  simp [h2]

/-- A word after a word was written under the same key. -/
theorem readWord_writeWord (s : State) (k w v x : Nat) (hx : x < 2 ^ 32) :
    readWord (writeBytes s k (4 * w) (leBytes 4 x)) k v = if v = w then BitVec.ofNat 32 x else readWord s k v := by
  split
  next h =>
    have same := readBytes_writeBytes_same s k (4 * w) (leBytes 4 x)
    rw [leBytes_length] at same
    rw [readWord, h, same, leNat_leBytes, Nat.mod_eq_of_lt (by simpa using hx)]
  next h =>
    rw [readWord, readBytes, bytesOf_congr (g := readByte s k)]
    · rfl
    · intro i h1 h2
      rw [readByte_writeBytes_key, leBytes_length, if_neg (by omega)]

/-! ### The device's writes to a fault queue -/

theorem galleyAppend_only {s t : State} {c : Ctx} {base head tail x : DWord} {lsz : Nat} {bs : List Byte}
    (e : galleyAppend s c base lsz head tail bs = .ok (t, x)) : StoreOnly s t := by
  unfold galleyAppend at e
  split at e
  · cases e
  next skip pos tail' _ =>
    dsimp only at e
    split at e
    next s1 e1 =>
      have h1 : StoreOnly s s1 := by
        cases skip with
        | none => cases e1; exact .refl s
        | some n => exact devWrite_only e1
      split at e <;> cases e
      exact h1.trans (devWrite_only ‹devWrite s1 _ _ _ = _›)
    all_goals cases e

theorem faultAppend_only {s t : State} {f : FaultEntry} {drops : Nat} (e : faultAppend s f drops = some t) : StoreOnly s t := by
  revert e
  fun_cases faultAppend s f drops
  case case4 e1 _ _ e2 =>
    rintro ⟨⟩
    exact (galleyAppend_only e1).trans (devWrite_only e2)
  all_goals exact nofun

theorem StoreOnly.overflow {s t : State} (h : StoreOnly s t) : t.overflow = s.overflow := by
  obtain ⟨_, _, _, _, _, _, rfl⟩ := h
  rfl
theorem StoreOnly.named {s t : State} (h : StoreOnly s t) : t.named = s.named := by
  obtain ⟨_, _, _, _, _, _, rfl⟩ := h
  rfl

/-! ### Compute cores -/

theorem coreOf_modCore (s : State) (n : Nat) (f : Core → Core) (k : Nat) :
    coreOf (modCore s n f) k = if k = n then f (coreOf s n) else coreOf s k := by
  simp only [coreOf, modCore, tabGet, tabFind_tabSet]
  split <;> rfl

@[simp] theorem coreOf_modCore_same (s : State) (n : Nat) (f : Core → Core) : coreOf (modCore s n f) n = f (coreOf s n) := by
  rw [coreOf_modCore, if_pos rfl]

@[simp] theorem modCore_groups (s : State) (n : Nat) (f : Core → Core) : (modCore s n f).groups = s.groups := rfl
@[simp] theorem modCore_blocks (s : State) (n : Nat) (f : Core → Core) : (modCore s n f).blocks = s.blocks := rfl
@[simp] theorem modCore_copies (s : State) (n : Nat) (f : Core → Core) : (modCore s n f).copies = s.copies := rfl
@[simp] theorem modBlock_coreOf (s : State) (b : Nat) (f : Block → Block) (k : Nat) : coreOf (modBlock s b f) k = coreOf s k := rfl

theorem becomes_modGroup {s : State} {g : Nat} {gr : Group} (h : s.groups[g]? = some gr) (f : Group → Group) :
    Becomes s (modGroup s g f) g (f gr) :=
  ⟨groupOnly_modGroup s g f, by simp [h]⟩

end Sys2Proof.Machine
end

section
/-! SUPPORT. The upkeep of the package: urgency, folds, the time base, completions of tasks, unbinds, waiting fault entries. -/

namespace Sys2Proof.Machine

/-! ### Urgency and the time base (R49, R3) -/

theorem urgent_step (s : State) (g f : Nat) (gr : Group) (fr : Frag) (hg : s.groups[g]? = some gr) (hf : gr.frag? f = some fr) :
    ∃ t, exec (.urgent g f) s = .next t ∧ (fr.passed < 256 → t = s) ∧
      (256 ≤ fr.passed → Becomes s t g { gr with frags := gr.frags.map (fun x => if x.id = f then { x with urgent := true } else x) }) := by
  have he : exec (.urgent g f) s = .next (if 256 ≤ fr.passed then modFrag s g f (fun x => { x with urgent := true }) else s) := by
    show execUrgent g f s = _
    simp [execUrgent, hg, hf]
  refine ⟨_, he, fun h => if_neg (by omega), fun h => ?_⟩
  have hb := becomes_modGroup hg (fun gr => gr.modFrag f (fun x => { x with urgent := true }))
  simp only [Group.modFrag, beq_iff_eq] at hb
  rw [if_pos h]
  simpa only [modFrag, Group.modFrag, beq_iff_eq] using hb

/-- Time passing over a group's fragments counts for those that could have issued, and for nothing else. -/
theorem passOver_frags (gr : Group) (s : State) (g n : Nat) :
    (gr.passOver s g n).frags.map (fun x => { x with passed := 0 }) = gr.frags.map (fun x => { x with passed := 0 }) := by
  simp only [Group.passOver, List.map_map]
  refine List.map_congr_left fun x _ => ?_
  simp only [Function.comp_apply]
  split <;> rfl

theorem timeBaseTick_step (s : State) : ∃ t, exec .timeBaseTick s = .next t ∧ t.time = s.time + 1 ∧
    t = { s with time := t.time, slots := t.slots, groups := t.groups } ∧ t.groups.length = s.groups.length ∧
    ∀ (g : Nat) (gr : Group), s.groups[g]? = some gr → ∃ gr' : Group, t.groups[g]? = some gr' ∧ gr' = { gr with frags := gr'.frags } ∧
      gr'.frags.map (fun x => { x with passed := 0 }) = gr.frags.map (fun x => { x with passed := 0 }) := by
  let n := clk { s with time := s.time + 1 } - clk s
  refine ⟨_, rfl, rfl, rfl, by simp, fun g gr hg => ⟨gr.passOver s g n, ?_, rfl, passOver_frags gr s g n⟩⟩
  simp [hg, n]

/-! ### Folds of exception counts (R366) -/

theorem foldHeld_foldWord_other (s : State) (k w n v : Nat) (h : v ≠ w) : foldHeld (foldWord s k w n) v = foldHeld s v := by
  simp only [foldHeld, foldWord, regOf_writeBytes, regOf_clearReg, if_neg h]

theorem readWord_foldWord (s : State) (k w n v : Nat) : readWord (foldWord s k w n) k v
    = if v = w then BitVec.ofNat 32 (min ((readWord s k w).toNat + n) (2 ^ 32 - 1)) else readWord s k v := by
  rw [foldWord, readWord_writeWord _ _ _ _ _ (by omega), readWord_clearReg]

theorem foldWord_only (s : State) (k w n : Nat) : StoreOnly s (foldWord s k w n) :=
  StoreOnly.trans (t := clearReg s w) ⟨_, _, _, _, _, _, rfl⟩ (writeBytes_only _ _ _ _)

theorem foldWords_only (k : Nat) (l : List (Nat × Bool)) : ∀ (w : Nat) (s : State), StoreOnly s (foldWords k w l s).2 := by
  induction l with
  | nil => exact fun _ s => .refl s
  | cons p l ih =>
    intro w s
    simp only [foldWords]
    split
    · exact (foldWord_only s k w p.1).trans (ih _ _)
    · exact ih _ _

/-- The words below those that a fold is for stay. -/
theorem readWord_foldWords_below (k : Nat) (l : List (Nat × Bool)) : ∀ (w v : Nat) (s : State), v < w →
    readWord (foldWords k w l s).2 k v = readWord s k v := by
  induction l with
  | nil => exact fun _ _ _ _ => rfl
  | cons p l ih =>
    intro w v s h
    simp only [foldWords]
    rw [ih _ _ _ (by omega)]
    split
    · rw [readWord_foldWord, if_neg (by omega)]
    · rfl

/-- What a fold leaves of a count that is to be folded unless its word is held, and what its word reads then. -/
theorem foldWords_getElem (k : Nat) (l : List (Nat × Bool)) : ∀ (w i : Nat) (s : State) (n : Nat) (due : Bool), l[i]? = some (n, due) →
    (foldWords k w l s).1[i]? = some (if due && !foldHeld s (w + i) then 0 else n, due && foldHeld s (w + i)) ∧
    readWord (foldWords k w l s).2 k (w + i) = if due && !foldHeld s (w + i)
      then BitVec.ofNat 32 (min ((readWord s k (w + i)).toNat + n) (2 ^ 32 - 1)) else readWord s k (w + i) := by
  induction l with
  | nil => exact fun _ _ _ _ _ h => by simp at h
  | cons p l ih =>
    intro w i s n due h
    cases i with
    | zero =>
      simp only [List.getElem?_cons_zero, Option.some.injEq] at h
      subst h
      have hgoes : (due && !(due && foldHeld s w)) = (due && !foldHeld s w) := by cases due <;> simp
      simp only [foldWords, Nat.add_zero, List.getElem?_cons_zero, hgoes, true_and]
      rw [readWord_foldWords_below _ _ _ _ _ (by omega)]
      split
      · rw [readWord_foldWord, if_pos rfl]
      · rfl
    | succ i =>
      simp only [List.getElem?_cons_succ] at h
      simp only [foldWords, List.getElem?_cons_succ]
      obtain ⟨h1, h2⟩ := ih (w + 1) i (if p.2 && !(p.2 && foldHeld s w) then foldWord s k w p.1 else s) n due h
      have hw : w + 1 + i = w + (i + 1) := by omega
      have hne : w + (i + 1) ≠ w := by omega
      rw [hw] at h1 h2
      rw [h1, h2]
      split
      · simp only [foldHeld_foldWord_other _ _ _ _ _ hne, readWord_foldWord, if_neg hne, and_self]
      · exact ⟨rfl, rfl⟩

/-- Where counts by context are looked up after those of one context are replaced, entries of nothing but defaults left out. -/
theorem find?_replaced {α : Type} (l : List (Ctx × List α)) (c : Ctx) (x : List α) (b : Bool) :
    (if b then l.filter (fun p => p.1 != c) else l.filter (fun p => p.1 != c) ++ [(c, x)]).find? (fun p => p.1 == c)
      = if b then none else some (c, x) := by
  have hnone : (l.filter (fun p => p.1 != c)).find? (fun p => p.1 == c) = none := by
    simp [List.find?_eq_none]
  split
  · exact hnone
  · rw [List.find?_append, hnone]
    simp

theorem coreCounts_setCounts (s : State) (core : Nat) (c : Ctx) (l : List Nat) (i : Nat) :
    (coreCounts (setCounts s core c l) core c).getD i 0 = l.getD i 0 := by
  simp only [coreCounts, setCounts, coreOf_modCore_same, find?_replaced]
  split
  next h =>
    have zeros : ∀ x ∈ l, x = 0 := by simpa using h
    have hl : l.getD i 0 = 0 := by
      rw [List.getD_eq_getElem?_getD]
      cases e : l[i]? with
      | none => rfl
      | some x => exact zeros x (List.mem_of_getElem? e)
    rw [hl]
    rcases i with _ | _ | _ | _ | i <;> rfl
  next => rfl

theorem coreCounts_setHeld (s : State) (core : Nat) (c d : Ctx) (l : List Bool) :
    coreCounts (setHeld s core c l) core d = coreCounts s core d := by simp [coreCounts, setHeld]

theorem heldCounts_setHeld (s : State) (core : Nat) (c : Ctx) (l : List Bool) (i : Nat) :
    (heldCounts (setHeld s core c l) core c).getD i false = l.getD i false := by
  have hif : ∀ h : List (Ctx × List Bool), (if l.any id then h ++ [(c, l)] else h) = if !l.any id then h else h ++ [(c, l)] := by
    intro h
    cases l.any id <;> rfl
  simp only [heldCounts, setHeld, coreOf_modCore_same, hif, find?_replaced]
  split
  next h =>
    have none_held : ∀ x ∈ l, x = false := by simpa using h
    have hl : l.getD i false = false := by
      rw [List.getD_eq_getElem?_getD]
      cases e : l[i]? with
      | none => rfl
      | some x => exact none_held x (List.mem_of_getElem? e)
    rw [hl]
    rcases i with _ | _ | _ | _ | i <;> rfl
  next => rfl

/-- A fold of the counts that were left behind: every one whose word is free goes to its word, the others stay. -/
theorem foldCounts_again {s : State} {core : Nat} {c : Ctx} {key : Nat} (hk : fixedAt s c (c.root.toNat + 0x1180) = .at key)
    (hs : (heldCounts s core c).length = 4) (hc : (coreCounts s core c).length = 4) :
    let w := (c.root.toNat + 0x1180) / 4
    let goes (i : Nat) : Bool := (heldCounts s core c).getD i false && !foldHeld s (w + i)
    let t := foldCounts s core c true
    t.groups = s.groups ∧ ∀ i, i < 4 →
      (coreCounts t core c).getD i 0 = (if goes i then 0 else (coreCounts s core c).getD i 0) ∧
      (heldCounts t core c).getD i false = ((heldCounts s core c).getD i false && foldHeld s (w + i)) ∧
      readWord t key (w + i) = (if goes i then BitVec.ofNat 32 (min ((readWord s key (w + i)).toNat + (coreCounts s core c).getD i 0) (2 ^ 32 - 1))
        else readWord s key (w + i)) := by
  intro w goes t
  let r := foldWords key w ((coreCounts s core c).zip (heldCounts s core c)) s
  have ht : t = setHeld (setCounts r.2 core c (r.1.map (·.1))) core c (r.1.map (·.2)) := by
    simp only [t, foldCounts, hk]
    rfl
  have hgr : r.2.groups = s.groups := by
    obtain ⟨_, _, _, _, _, _, e⟩ := foldWords_only key ((coreCounts s core c).zip (heldCounts s core c)) w s
    show (foldWords _ _ _ _).2.groups = _
    rw [e]
  refine ⟨by rw [ht]; exact hgr, fun i hi => ?_⟩
  have hl : ((coreCounts s core c).zip (heldCounts s core c))[i]? = some ((coreCounts s core c).getD i 0, (heldCounts s core c).getD i false) := by
    rw [List.getElem?_zip_eq_some]
    simp [List.getD_eq_getElem?_getD, hi, hs, hc]
  obtain ⟨h1, h2⟩ := foldWords_getElem key _ w i s _ _ hl
  have h1 : r.1[i]? = _ := h1
  rw [ht, coreCounts_setHeld, coreCounts_setCounts, heldCounts_setHeld]
  exact ⟨by simp [List.getD_eq_getElem?_getD, h1, goes], by simp [List.getD_eq_getElem?_getD, h1], h2⟩

theorem foldRetry_step (s : State) (core : Nat) (c : Ctx) (hs : List Bool) (hh : (coreOf s core).held = [(c, hs)]) :
    (2 ≤ clk s % 65536 ∨ residentOn s core c = true → exec (.foldRetry core) s = .next s) ∧
    ∀ key, clk s % 65536 < 2 → residentOn s core c = false → fixedAt s c (c.root.toNat + 0x1180) = .at key → hs.length = 4 → (coreCounts s core c).length = 4 →
    let w := (c.root.toNat + 0x1180) / 4
    let goes (i : Nat) : Bool := hs.getD i false && !foldHeld s (w + i)
    ∃ t, exec (.foldRetry core) s = .next t ∧ t.groups = s.groups ∧
      ∀ i, i < 4 → (coreCounts t core c).getD i 0 = (if goes i then 0 else (coreCounts s core c).getD i 0) ∧
        (heldCounts t core c).getD i false = (hs.getD i false && foldHeld s (w + i)) ∧
        readWord t key (w + i) = (if goes i then BitVec.ofNat 32 (min ((readWord s key (w + i)).toNat + (coreCounts s core c).getD i 0) (2 ^ 32 - 1)) else readWord s key (w + i)) := by
  have he : exec (.foldRetry core) s = .next (if clk s % 65536 < 2 then (if residentOn s core c then s else foldCounts s core c true) else s) := by
    show execFoldRetry core s = _
    simp only [execFoldRetry, hh, List.foldl_cons, List.foldl_nil]
    split <;> rfl
  have hheld : heldCounts s core c = hs := by simp [heldCounts, hh]
  refine ⟨fun h => ?_, fun key hclk hres hk hl hc => ⟨_, he, ?_⟩⟩
  · rw [he]
    rcases h with h | h
    · rw [if_neg (by omega)]
    · rw [if_pos h, ite_self]
  · rw [if_pos hclk, if_neg (by simp [hres])]
    subst hheld
    exact foldCounts_again hk hl hc

theorem foldRetry_idle (s : State) (core : Nat) (h : (coreOf s core).held = []) : exec (.foldRetry core) s = .next s := by
  show execFoldRetry core s = _
  simp [execFoldRetry, h]

/-! ### Completions (R299, R350) -/

/-- A far atomic of the device on two words that no agent holds (R226). -/
def farWrite (s : State) (k pa v : Nat) : State := writeBytes (clearReg (clearReg s (pa / 4)) (pa / 4 + 1)) k pa (leBytes 8 v)

/-- A step of a task's completion whose word is there and is not held is a far atomic; it posts nothing but for a counter of 0. -/
theorem completionStep_ok {s : State} {n : Nat} {t : Task} {va : DWord} {f : Nat → Nat} {under : Bool} {pa k : Nat}
    (hx : deviceXlat s t.ctx .atomic va = .ok pa k) (hw : cwHeld s pa = false) (hu : under = true → leNat (readBytes s k pa 8) ≠ 0) :
    completionStep s n t va f under = (farWrite s k pa (f (leNat (readBytes s k pa 8))), true) := by
  have hpost : (under && leNat (readBytes s k pa 8) == 0) = false := by
    cases under
    · rfl
    · simpa using hu rfl
  simp only [completionStep, hx, hw, hpost, Bool.false_eq_true, if_false]
  rfl

theorem farWrite_stored (s : State) (va : DWord) (k pa v : Nat) :
    Stored s (farWrite s k pa v) [({ tid := 0, va, n := 8, data := leBytes 8 v }, pa, k)] := by
  obtain ⟨kept, put⟩ := stored_writeBytes (clearReg (clearReg s (pa / 4)) (pa / 4 + 1)) { tid := 0, va, n := 8, data := leBytes 8 v } k pa
    (leBytes_length 8 v)
  exact ⟨kept, put⟩

theorem regOf_farWrite (s : State) (k pa v : Nat) :
    regOf (farWrite s k pa v) (pa / 4) = none ∧ regOf (farWrite s k pa v) (pa / 4 + 1) = none := by
  simp [farWrite, regOf_clearReg]

theorem farWrite_rest (s : State) (k pa v : Nat) :
    farWrite s k pa v = { s with mem := (farWrite s k pa v).mem, tags := (farWrite s k pa v).tags, reg := (farWrite s k pa v).reg, monitors := (farWrite s k pa v).monitors, hostLines := (farWrite s k pa v).hostLines } := by
  obtain ⟨_, _, _, _, e⟩ := writeBytes_bytesOnly (clearReg (clearReg s (pa / 4)) (pa / 4 + 1)) k pa (leBytes 8 v)
  simp only [farWrite, e]
  rfl

@[simp] theorem farWrite_tasks (s : State) (k pa v : Nat) : (farWrite s k pa v).tasks = s.tasks := by rw [farWrite_rest]

theorem stageTask_stageTask (s : State) (n : Nat) (l m : TaskLife) : stageTask (stageTask s n l) n m = stageTask s n m := by
  simp only [stageTask, modAt, List.modify_modify_eq]
  rfl

theorem taskCompletion_step (s : State) (n : Nat) (x : Task) (va : DWord) (pa k : Nat) (hn : s.tasks[n]? = some x) (hva : va ≠ 0)
    (hx : deviceXlat s x.ctx .atomic va = .ok pa k) (hw : cwHeld s pa = false) :
    let old := leNat (readBytes s k pa 8)
    let Ends (t : State) (v : Nat) : Prop := Stored s t [({ tid := 0, va, n := 8, data := leBytes 8 v }, pa, k)] ∧ regOf t (pa / 4) = none ∧ regOf t (pa / 4 + 1) = none ∧
      t = { s with tasks := s.tasks.modify n (fun x => { x with life := .complete, posted := false }), mem := t.mem, tags := t.tags, reg := t.reg, monitors := t.monitors, hostLines := t.hostLines }
    (x.life = .wordPending → x.words.getD 4 0 = va → x.words.getD 3 0 = 0 → ∃ t, exec (.taskCompletion n) s = .next t ∧ Ends t (max old (x.words.getD 5 0).toNat)) ∧
    (x.life = .donePending → x.words.getD 3 0 = va → old ≠ 0 → ∃ t, exec (.taskCompletion n) s = .next t ∧ Ends t (old - 1)) := by
  intro old Ends
  have ends : ∀ v, Ends (stageTask (farWrite s k pa v) n .complete) v := by
    intro v
    obtain ⟨h1, h2⟩ := regOf_farWrite s k pa v
    obtain ⟨kept, put⟩ := farWrite_stored s va k pa v
    refine ⟨⟨kept, put⟩, h1, h2, ?_⟩
    simp only [stageTask, modAt, farWrite_tasks]
    rw [farWrite_rest]
  refine ⟨fun hl h4 h3 => ⟨_, ?_, ends _⟩, fun hl h3 h0 => ⟨_, ?_, ends _⟩⟩
  · show execTaskCompletion n s = _
    simp only [execTaskCompletion, hn, hl, h4, if_neg hva, completionStep_ok hx hw (nofun : false = true → _), if_true, finishTask, h3,
      stageTask_stageTask]
    rfl
  · show execTaskCompletion n s = _
    simp only [execTaskCompletion, hn, hl, finishTask, h3, if_neg hva, completionStep_ok hx hw (fun _ => h0), if_true]
    rfl

/-! ### Unbinds and waiting fault entries (R287, R288, R305) -/

/-- Where no queue of a die waits for a slot, none is bound. -/
theorem bindWaiting_none {s : State} {die : Nat} (h : ∀ x ∈ s.named, x.die ≠ die) : bindWaiting s die = s := by
  have hb : bindNamed s die = s := by
    have hf : s.named.find? (fun x => x.die == die) = none := by simpa [List.find?_eq_none] using h
    simp only [bindNamed, hf]
  unfold bindWaiting
  induction s.named with
  | nil => rfl
  | cons _ _ ih => rw [List.foldl_cons, hb, ih]

theorem unbind_step (s : State) (die slot : Nat) (q : Slot) (s1 : State) (hq : (s.slots.filter (fun x => x.die == die))[slot]? = some q)
    (hnamed : ∀ x ∈ s.named, x.die ≠ die) :
    (q.isEmpty = false ∨ clk s < q.idleSince + 65536 → exec (.unbind die slot) s = .next s) ∧
    (q.recs = [] → q.head = q.tail → q.idleSince + 65536 ≤ clk s → devWrite s q.ctx (q.desc + 24) q.counters = .ok s1 →
      exec (.unbind die slot) s = .next { s1 with slots := s1.slots.filter (fun x => x.pa != q.pa) }) := by
  refine ⟨fun h => ?_, fun hr ht hc hw => ?_⟩
  · have hstay : (!q.isEmpty || decide (clk s < q.idleSince + 65536)) = true := by simpa using h
    show execUnbind die slot s = _
    simp only [execUnbind, hq, hstay, if_true]
  · have hgo : (!q.isEmpty || decide (clk s < q.idleSince + 65536)) = false := by simpa [Slot.isEmpty, hr, ht] using hc
    show execUnbind die slot s = _
    simp only [execUnbind, hq, hgo, unbindSlot, hw, Bool.false_eq_true, if_false]
    rw [bindWaiting_none]
    rw [(devWrite_only hw).named]
    exact hnamed

theorem overflowAppend_step (s : State) (die : Nat) (e : FaultEntry) (l : List FaultEntry) (s1 : State)
    (he : (s.overflow.getD die Overflow.empty).entries = e :: l)
    (ha : faultAppend s e ((s.overflow.getD die Overflow.empty).dropsOf e.ctx) = some s1) :
    exec (.overflowAppend die) s = .next { s1 with overflow := s1.overflow.modify die (fun o => { entries := l ++ (o.held.filter (stillHeld s)).take 1, held := (o.held.filter (stillHeld s)).drop 1, dropped := o.dropped.filter (fun p => p.1 != e.ctx) }) } := by
  show execOverflowAppend die s = _
  have hfirst : appendFirst s (s.overflow.getD die Overflow.empty) [] (e :: l) = some (e, s1) := by
    simp only [appendFirst, List.contains_nil, Bool.false_eq_true, if_false, ha]
  simp only [execOverflowAppend, he, hfirst, modAt]
  congr 2
  refine List.ext_getElem? fun i => ?_
  rw [List.getElem?_modify, List.getElem?_modify]
  cases ho : s1.overflow[i]? with
  | none => rfl
  | some o =>
    simp only [Option.map_eq_map, Option.map_some]
    split
    next hi =>
      subst hi
      rw [(faultAppend_only ha).overflow] at ho
      have : o.entries = e :: l := by
        rw [← he, List.getD_eq_getElem?_getD, ho]
        rfl
      simp [this]
    next => rfl

end Sys2Proof.Machine
end

section
/-! SUPPORT. The boundary of the activation buffer: which tiles have a frame after tile records change, and a raise of B. -/

namespace Sys2Proof.Machine

/-! ### Tiles with a frame (R338) -/

theorem mem_framedTiles {s : State} {core n x : Nat} {y : Tile} : (n, x, y) ∈ framedTiles s core ↔
    ∃ b : Block, s.blocks[n]? = some b ∧ b.core = core ∧ b.life = .running ∧ b.tiles[x]? = some y ∧ y.state.framed = true := by
  simp only [framedTiles, List.mem_flatMap]
  constructor
  · rintro ⟨⟨b, m⟩, hb, h⟩
    split at h
    next hc =>
      simp only [List.mem_map, List.mem_filter, Prod.mk.injEq] at h
      obtain ⟨⟨z, i⟩, ⟨hz, hf⟩, rfl, rfl, rfl⟩ := h
      simp only [Bool.and_eq_true, beq_iff_eq] at hc
      exact ⟨b, List.mem_zipIdx_iff_getElem?.mp hb, hc.1, hc.2, List.mem_zipIdx_iff_getElem?.mp hz, hf⟩
    next => simp at h
  · rintro ⟨b, hb, hc, hl, hy, hf⟩
    refine ⟨(b, n), List.mem_zipIdx_iff_getElem?.mpr hb, ?_⟩
    rw [if_pos (by simp [hc, hl])]
    exact List.mem_map.mpr ⟨(y, x), List.mem_filter.mpr ⟨List.mem_zipIdx_iff_getElem?.mpr hy, hf⟩, rfl⟩

/-- A tile that has a frame after one tile record has changed is the changed one, or had its frame before. -/
theorem framedTiles_modTile {s : State} {core n x a c : Nat} {y : Tile} {f : Tile → Tile}
    (h : (n, x, y) ∈ framedTiles (modTile s a c f) core) :
    (n = a ∧ x = c ∧ ∃ z, y = f z) ∨ ((a, c) ≠ (n, x) ∧ (n, x, y) ∈ framedTiles s core) := by
  obtain ⟨b, hb, hcore, hlife, hy, hf⟩ := mem_framedTiles.mp h
  simp only [modTile, modBlock_blocks, List.getElem?_modify] at hb
  by_cases ha : a = n
  · simp only [if_pos ha] at hb
    obtain ⟨b', hb', rfl⟩ := Option.map_eq_some_iff.mp hb
    simp only [modAt, List.getElem?_modify] at hy
    by_cases hx : c = x
    · simp only [if_pos hx] at hy
      obtain ⟨z, _, rfl⟩ := Option.map_eq_some_iff.mp hy
      exact .inl ⟨ha.symm, hx.symm, z, rfl⟩
    · simp only [if_neg hx, id_map'] at hy
      exact .inr ⟨by simp [hx], mem_framedTiles.mpr ⟨b', hb', hcore, hlife, hy, hf⟩⟩
  · simp only [if_neg ha, id_map'] at hb
    exact .inr ⟨by simp [ha], mem_framedTiles.mpr ⟨b, hb, hcore, hlife, hy, hf⟩⟩

/-- Tiles evicted have no frame; the others that have one had it before. -/
theorem framedTiles_evicted {core n x : Nat} {y : Tile} (l : List (Nat × Nat × Tile)) : ∀ s : State,
    (n, x, y) ∈ framedTiles (l.foldl (fun s t => modTile s t.1 t.2.1 Tile.evicted) s) core →
    (n, x, y) ∈ framedTiles s core ∧ ∀ t ∈ l, (t.1, t.2.1) ≠ (n, x) := by
  induction l with
  | nil => exact fun _ h => ⟨h, nofun⟩
  | cons t l ih =>
    intro s h
    obtain ⟨h1, h2⟩ := ih _ h
    rcases framedTiles_modTile h1 with ⟨_, _, z, rfl⟩ | ⟨hne, hs⟩
    · obtain ⟨_, _, _, _, _, hf⟩ := mem_framedTiles.mp h1
      exact absurd hf (by simp [Tile.evicted, TileState.framed])
    · exact ⟨hs, List.forall_mem_cons.mpr ⟨hne, h2⟩⟩

/-- Tiles moved to frames from `m` on lie there; the others that have a frame had it before. -/
theorem framedTiles_moved {core n x m : Nat} {y : Tile} (l : List ((Nat × Nat × Tile) × Nat)) (hm : ∀ p ∈ l, m ≤ p.2) : ∀ s : State,
    (n, x, y) ∈ framedTiles (l.foldl (fun s p => modTile s p.1.1 p.1.2.1 (fun t => { t with place := p.2 })) s) core →
    m ≤ y.place ∨ ((n, x, y) ∈ framedTiles s core ∧ ∀ p ∈ l, (p.1.1, p.1.2.1) ≠ (n, x)) := by
  induction l with
  | nil => exact fun _ h => .inr ⟨h, nofun⟩
  | cons p l ih =>
    intro s h
    obtain ⟨hp, hl⟩ := List.forall_mem_cons.mp hm
    rcases ih hl _ h with h1 | ⟨h1, h2⟩
    · exact .inl h1
    · rcases framedTiles_modTile h1 with ⟨_, _, z, rfl⟩ | ⟨hne, hs⟩
      · exact .inl hp
      · exact .inr ⟨hs, List.forall_mem_cons.mpr ⟨hne, h2⟩⟩

theorem mem_freeFrames {s : State} {core b p : Nat} : p ∈ freeFrames s core b ↔
    p < 96 ∧ b / 16 ≤ p ∧ ∀ t ∈ framedTiles s core, t.2.2.place ≠ p := by
  simp [freeFrames]

/-! ### Raises of the boundary (R205, R207) -/

/-- After a raise no tile of the core has a frame below the boundary: what could be evicted from the band is, the rest has moved. -/
theorem raiseTo_place {s t : State} {core b : Nat} (e : raiseTo s core b = some t) :
    ∀ p ∈ framedTiles t core, b / 16 ≤ p.2.2.place := by
  rintro ⟨n, x, y⟩ h
  by_contra hlt
  simp only [Nat.not_le] at hlt
  simp only [raiseTo] at e
  split at e
  · cases e
  next hroom =>
    cases e
    rcases framedTiles_moved (m := b / 16) _ (fun p hp => (mem_freeFrames.mp (List.of_mem_zip hp).2).2.1) _ h with h1 | ⟨h1, hstay⟩
    · omega
    · obtain ⟨hs, hev⟩ := framedTiles_evicted _ _ h1
      have hband : (n, x, y) ∈ (framedTiles s core).filter (fun t => t.2.2.place < b / 16) := by simp [hs, hlt]
      cases hevict : evictableTile s (n, x, y) with
      | true => exact hev (n, x, y) (List.mem_filter.mpr ⟨hband, hevict⟩) rfl
      | false =>
        have hmem : (n, x, y) ∈ ((framedTiles s core).filter (fun t => t.2.2.place < b / 16)).filter (fun t => !evictableTile s t) :=
          List.mem_filter.mpr ⟨hband, by simp [hevict]⟩
        obtain ⟨i, hi, hget⟩ := List.mem_iff_getElem.mp hmem
        refine hstay _ (List.mem_iff_getElem.mpr ⟨i, by simp only [List.length_zip]; omega, rfl⟩) ?_
        simp only [List.getElem_zip, hget]

/-- Changes of tile records look at no boundary and move none. -/
theorem foldl_modTile_cores {α : Type} (a c : α → Nat) (f : α → Tile → Tile) (l : List α) (k : Tab Core) : ∀ s : State,
    l.foldl (fun s p => modTile s (a p) (c p) (f p)) { s with cores := k } = { l.foldl (fun s p => modTile s (a p) (c p) (f p)) s with cores := k } := by
  induction l with
  | nil => exact fun _ => rfl
  | cons p l ih => exact fun s => ih (modTile s (a p) (c p) (f p))

/-- A raise looks at no boundary and moves none. -/
theorem raiseTo_cores (s : State) (core b : Nat) (k : Tab Core) :
    raiseTo { s with cores := k } core b = (raiseTo s core b).map (fun t => { t with cores := k }) := by
  have hframed (u : State) : framedTiles { u with cores := k } core = framedTiles u core := rfl
  have hevict : evictableTile { s with cores := k } = evictableTile s := rfl
  have hfree (u : State) : freeFrames { u with cores := k } core b = freeFrames u core b := rfl
  simp only [raiseTo, hframed, hevict, foldl_modTile_cores, hfree]
  split <;> rfl

/-- The rest of a raise: blocks alone change. -/
theorem raiseTo_rest {s t : State} {core b : Nat} (e : raiseTo s core b = some t) : t = { s with blocks := t.blocks } := by
  have hfold {α : Type} (a c : α → Nat) (f : α → Tile → Tile) (l : List α) (u : State) (hu : u = { s with blocks := u.blocks }) :
      l.foldl (fun s p => modTile s (a p) (c p) (f p)) u
        = { s with blocks := (l.foldl (fun s p => modTile s (a p) (c p) (f p)) u).blocks } := by
    induction l generalizing u with
    | nil => exact hu
    | cons p l ih => exact ih _ (by rw [hu]; rfl)
  simp only [raiseTo] at e
  split at e
  · cases e
  · cases e
    exact hfold _ _ _ _ _ (hfold _ _ _ _ _ rfl)

/-! ### The end of an interval (R205 to R207) -/

/-- A core whose interval has ended, with its counts at 0. -/
def nextInterval (s : State) (core : Nat) : State :=
  modCore s core (fun k => { k with interval := clk s / 65536, tileHits := 0, tileMisses := 0, tightHits := 0, lostMisses := 0 })

@[simp] theorem nextInterval_coreOf (s : State) (core : Nat) : coreOf (nextInterval s core) core
    = { coreOf s core with interval := clk s / 65536, tileHits := 0, tileMisses := 0, tightHits := 0, lostMisses := 0 } :=
  coreOf_modCore_same s core _

/-- What the end of an interval does that is due, for counts that can be those of sampled sets. -/
theorem abIntervalEnd_due {s : State} {core a l g : Nat} (hclk : clk s % 65536 < 2) (hint : clk s / 65536 ≠ (coreOf s core).interval)
    (hs : (coreOf s core).samples a l g = true) :
    let k := coreOf s core
    let s1 := nextInterval s core
    execAbIntervalEnd core a l g s = .next (
      if waitsAb s1 core = true then
        if k.carve + 64 ≤ abMax (residents s core) ∧ 64 * l < a then
          (raiseTo s core (k.carve + 64)).elim s1 (fun t => modCore { t with cores := s1.cores } core (fun x => { x with carve := k.carve + 64 }))
        else s1
      else if 64 ≤ k.carve ∧ abMin (residents s core) ≤ k.carve - 64 ∧ a < 32 * g then modCore s1 core (fun x => x.lower (x.carve - 64))
      else s1) := by
  intro k s1
  have htakes : ¬ (clk s % 65536 ≥ 2 ∨ clk s / 65536 = (coreOf s core).interval ∨ (coreOf s core).samples a l g = false) := by
    simp only [not_or]
    exact ⟨by omega, hint, by simpa using hs⟩
  have hraise : raiseTo s1 core (k.carve + 64) = (raiseTo s core (k.carve + 64)).map (fun t => { t with cores := s1.cores }) :=
    raiseTo_cores s core (k.carve + 64) s1.cores
  unfold execAbIntervalEnd
  rw [if_neg htakes]
  cases hr : raiseTo s core (k.carve + 64) <;> rw [hr] at hraise
  all_goals
    dsimp only [nextInterval] at hraise ⊢
    simp only [s1, nextInterval, k] at hraise
    simp only [hraise]
    rfl

theorem abIntervalEnd_step (s : State) (core a l g : Nat) (hclk : clk s % 65536 < 2) (hint : clk s / 65536 ≠ (coreOf s core).interval) :
    let k := coreOf s core
    let waits := waitsAb (modCore s core (fun k => { k with interval := clk s / 65536, tileHits := 0, tileMisses := 0, tightHits := 0, lostMisses := 0 })) core
    let up := waits = true ∧ k.carve + 64 ≤ abMax (residents s core) ∧ 64 * l < a
    let down := waits = false ∧ 64 ≤ k.carve ∧ abMin (residents s core) ≤ k.carve - 64 ∧ a < 32 * g
    (k.samples a l g = false → exec (.abIntervalEnd core a l g) s = .next s) ∧
    (k.samples a l g = true → ∃ t, exec (.abIntervalEnd core a l g) s = .next t ∧ (coreOf t core).interval = clk s / 65536 ∧ t.groups = s.groups ∧ t.mem = s.mem ∧
      (coreOf t core).carve = (if up ∧ (raiseTo s core (k.carve + 64)).isSome = true then k.carve + 64 else if down then k.carve - 64 else k.carve) ∧
      (up → (raiseTo s core (k.carve + 64)).isSome = true → ∀ p ∈ framedTiles t core, (k.carve + 64) / 16 ≤ p.2.2.place)) := by
  intro k waits up down
  refine ⟨fun h => ?_, fun h => ?_⟩
  · show execAbIntervalEnd core a l g s = _
    unfold execAbIntervalEnd
    rw [if_pos (.inr (.inr h))]
  have he : exec (.abIntervalEnd core a l g) s = _ := abIntervalEnd_due hclk hint h
  by_cases hup : up
  · have hw : waitsAb (nextInterval s core) core = true := hup.1
    cases hr : raiseTo s core (k.carve + 64) with
    | none =>
      refine ⟨nextInterval s core, by rw [he, if_pos hw, if_pos hup.2, hr]; rfl, by simp, rfl, rfl, ?_, fun _ => nofun⟩
      have hdown : ¬ down := fun hd => Bool.false_ne_true (hd.1.symm.trans hup.1)
      simp [hdown, k]
    | some u =>
      refine ⟨modCore { u with cores := (nextInterval s core).cores } core (fun x => { x with carve := k.carve + 64 }),
        by rw [he, if_pos hw, if_pos hup.2, hr]; rfl, ?_, ?_, ?_, ?_, fun _ _ p hp => raiseTo_place hr p hp⟩
      · rw [coreOf_modCore_same]
        exact congrArg Core.interval (nextInterval_coreOf s core)
      · rw [modCore_groups, raiseTo_rest hr]
      · rw [modCore_mem, raiseTo_rest hr]
      · simp [hup]
  · by_cases hdown : down
    · have hw : ¬ waitsAb (nextInterval s core) core = true := (Bool.not_eq_true _).mpr hdown.1
      refine ⟨modCore (nextInterval s core) core (fun x => x.lower (x.carve - 64)), by rw [he, if_neg hw, if_pos hdown.2],
        by simp [Core.lower], rfl, rfl, ?_, fun h => absurd h hup⟩
      simp [hup, hdown, Core.lower, k]
    · refine ⟨nextInterval s core, ?_, by simp, rfl, rfl, by simp [hup, hdown, k], fun h => absurd h hup⟩
      rw [he]
      by_cases hw : waitsAb (nextInterval s core) core = true
      · rw [if_pos hw, if_neg (fun hc => hup ⟨hw, hc⟩)]
      · rw [if_neg hw, if_neg (fun hc => hdown ⟨(Bool.not_eq_true _).mp hw, hc⟩)]

end Sys2Proof.Machine
end

section
/-! The upkeep of the package (O47). -/

open Sys2Proof.Machine in
/-- Settles O47: each event of the upkeep by the law of its own. -/
theorem upkeep : Obligations.Upkeep :=
  ⟨⟨urgent_step, foldRetry_step, foldRetry_idle, abIntervalEnd_step, timeBaseTick_step⟩,
    taskCompletion_step, unbind_step, overflowAppend_step⟩

end

section
/-! SUPPORT. What a change of an activation-buffer boundary leaves alone; a steal. -/

namespace Sys2Proof.Machine

/-! ### Changes of a boundary (R204, R205, R207) -/

/-- A block without its tile records and the places of its windows. -/
def Block.bare (b : Block) : Block := { b with tiles := [], grans := [] }

/-- What a move of a boundary may change: tile records, the places of windows, and of cores all but their deques. -/
structure Rebound (s t : State) : Prop where
  rest : t = { s with cores := t.cores, blocks := t.blocks }
  blocks : t.blocks.map Block.bare = s.blocks.map Block.bare
  deque : ∀ k, (coreOf t k).deque = (coreOf s k).deque

theorem Rebound.refl (s : State) : Rebound s s := ⟨rfl, rfl, fun _ => rfl⟩
theorem Rebound.trans {s t u : State} (a : Rebound s t) (b : Rebound t u) : Rebound s u where
  rest := by rw [b.rest, a.rest]
  blocks := b.blocks.trans a.blocks
  deque k := (b.deque k).trans (a.deque k)

/-- A block after a move of a boundary. -/
theorem Rebound.block {s t : State} (h : Rebound s t) {n : Nat} {b : Block} (hb : s.blocks[n]? = some b) :
    ∃ b', t.blocks[n]? = some b' ∧ b'.bare = b.bare := by
  have hn := congrArg (·[n]?) h.blocks
  simp only [List.getElem?_map, hb, Option.map_some] at hn
  exact Option.map_eq_some_iff.mp hn

theorem foldl_rebound {α : Type} {f : State → α → State} (h : ∀ s a, Rebound s (f s a)) (l : List α) (s : State) :
    Rebound s (l.foldl f s) := by
  induction l generalizing s with
  | nil => exact .refl s
  | cons a l ih => exact (h s a).trans (ih _)

theorem modCore_rebound (s : State) (n : Nat) {f : Core → Core} (h : ∀ k, (f k).deque = k.deque) : Rebound s (modCore s n f) where
  rest := rfl
  blocks := rfl
  deque k := by
    rw [coreOf_modCore]
    split
    next hk => rw [h, hk]
    next => rfl

theorem modBlock_rebound (s : State) (n : Nat) {f : Block → Block} (h : ∀ b, (f b).bare = b.bare) : Rebound s (modBlock s n f) where
  rest := rfl
  blocks := by
    refine List.ext_getElem? fun i => ?_
    simp only [modBlock_blocks, List.getElem?_map, List.getElem?_modify]
    cases s.blocks[i]? with
    | none => rfl
    | some b => by_cases hi : n = i <;> simp [hi, h]
  deque _ := rfl

theorem modTile_rebound (s : State) (n x : Nat) (f : Tile → Tile) : Rebound s (modTile s n x f) :=
  modBlock_rebound s n fun _ => rfl

theorem raiseTo_rebound {s t : State} {core b : Nat} (e : raiseTo s core b = some t) : Rebound s t := by
  simp only [raiseTo] at e
  split at e
  · cases e
  · cases e
    refine (foldl_rebound (fun s p => ?_) _ _).trans (foldl_rebound (fun s p => ?_) _ _)
    · exact modTile_rebound s _ _ _
    · exact modTile_rebound s _ _ _

theorem settleBoundary_rebound (s : State) (core : Nat) : Rebound s (settleBoundary s core) := by
  unfold settleBoundary
  dsimp only
  split
  · split
    · exact .refl s
    next hr => exact (raiseTo_rebound hr).trans (modCore_rebound _ _ fun _ => rfl)
  · exact modCore_rebound _ _ fun _ => rfl

theorem packBlock_rebound (m : Nat) (s : State) (blk : Nat) : Rebound s (packBlock m s blk) := by
  unfold packBlock
  split
  · exact .refl s
  · refine Rebound.trans ?_ (modBlock_rebound _ _ ?_)
    · exact modCore_rebound _ _ fun _ => rfl
    · exact fun _ => rfl

theorem lowerBound_rebound (s : State) (core : Nat) : Rebound s (lowerBound s core) := by
  refine Rebound.trans (t := packAb s core) (foldl_rebound (fun s n => ?_) _ _) (modCore_rebound _ _ fun _ => rfl)
  split
  · exact packBlock_rebound _ s n
  · exact .refl s

/-! ### Spilled fragments that return (R40) -/

theorem returnSpilled_rest (n : Nat) (s : State) (core : Nat) :
    returnSpilled n s core = { s with groups := (returnSpilled n s core).groups } := by
  induction n generalizing s with
  | zero => rfl
  | succ n ih =>
    unfold returnSpilled
    split
    · rfl
    · rw [ih]
      rfl

theorem refillSlots_rest (s : State) (core : Nat) : refillSlots s core = { s with groups := (refillSlots s core).groups } :=
  returnSpilled_rest 256 s core

/-! ### Steals (R50) -/

/-- Whether a block is on a core. -/
def OnCore (s : State) (core n : Nat) : Prop := ∃ b : Block, s.blocks[n]? = some b ∧ b.core = core

theorem Rebound.onCore {s t : State} (h : Rebound s t) {core n : Nat} : OnCore s core n → OnCore t core n := by
  rintro ⟨b, hb, hc⟩
  obtain ⟨b', hb', hbare⟩ := h.block hb
  exact ⟨b', hb', (congrArg Block.core hbare).trans hc⟩

/-- Whether the thief can reserve a block. -/
def stealFits (s : State) (thief : Nat) (b : Block) : Bool :=
  roomBesideAb s b.entry b.entry.block thief && abRoom s b.entry thief && (coreOf s thief).deque.length < 16

/-- The oldest entry of a deque moved to the thief's, before the boundaries follow. -/
def moveOldest (s : State) (thief victim blk : Nat) (l : List Nat) : State :=
  modCore (modCore (modBlock s blk (fun b => { b with core := thief })) victim (fun k => { k with deque := l })) thief
    (fun k => { k with deque := k.deque ++ [blk] })

/-- What has been stolen: the oldest `k` entries of the victim's deque. -/
structure Stolen (s t : State) (thief victim k : Nat) : Prop where
  left : (coreOf t victim).deque = (coreOf s victim).deque.drop k
  gained : (coreOf t thief).deque = (coreOf s thief).deque ++ (coreOf s victim).deque.take k
  moved : ∀ n ∈ (coreOf s victim).deque.take k, OnCore t thief n
  kept : ∀ n, OnCore s thief n → OnCore t thief n

theorem Stolen.nothing (s : State) (thief victim : Nat) : Stolen s s thief victim 0 :=
  ⟨by simp, by simp, by simp, fun _ h => h⟩

theorem Stolen.rebound {s t u : State} {thief victim k : Nat} (a : Stolen s t thief victim k) (b : Rebound t u) :
    Stolen s u thief victim k where
  left := (b.deque victim).trans a.left
  gained := (b.deque thief).trans a.gained
  moved n hn := b.onCore (a.moved n hn)
  kept n hn := b.onCore (a.kept n hn)

theorem moveOldest_stolen {s : State} {thief victim blk : Nat} {l : List Nat} {b : Block} (hne : thief ≠ victim)
    (hd : (coreOf s victim).deque = blk :: l) (hb : s.blocks[blk]? = some b) :
    Stolen s (moveOldest s thief victim blk l) thief victim 1 where
  left := by simp [moveOldest, coreOf_modCore, hd, hne.symm]
  gained := by simp [moveOldest, coreOf_modCore, hd, hne]
  moved n hn := by
    obtain rfl : n = blk := by simpa [hd] using hn
    exact ⟨{ b with core := thief }, by simp [moveOldest, hb], rfl⟩
  kept n := by
    rintro ⟨x, hx, hc⟩
    refine ⟨if blk = n then { x with core := thief } else x, ?_, by split <;> simp [hc]⟩
    simp only [moveOldest, modCore_blocks, modBlock_blocks, List.getElem?_modify, hx]
    split <;> rfl

theorem Stolen.cons {s t u : State} {thief victim k : Nat} (a : Stolen s t thief victim 1) (b : Stolen t u thief victim k) :
    Stolen s u thief victim (k + 1) where
  left := by rw [b.left, a.left, List.drop_drop, Nat.add_comm]
  gained := by rw [b.gained, a.gained, a.left, List.append_assoc, Nat.add_comm, List.take_add]
  moved n hn := by
    rw [Nat.add_comm, List.take_add, List.mem_append] at hn
    exact hn.elim (fun h => b.kept n (a.moved n h)) (fun h => b.moved n (a.left ▸ h))
  kept n hn := b.kept n (a.kept n hn)

theorem stealLoop_goes {s : State} {thief victim blk : Nat} {l : List Nat} {b : Block} (n : Nat)
    (hd : (coreOf s victim).deque = blk :: l) (hb : s.blocks[blk]? = some b) (hf : stealFits s thief b = true) :
    stealLoop thief victim (n + 1) s
      = stealLoop thief victim n (lowerBound (settleBoundary (moveOldest s thief victim blk l) thief) victim) := by
  rw [stealFits] at hf
  simp only [stealLoop, hd, hb, hf]
  rfl

theorem stealLoop_stays {s : State} {thief victim blk : Nat} {l : List Nat} {b : Block} (n : Nat)
    (hd : (coreOf s victim).deque = blk :: l) (hb : s.blocks[blk]? = some b) (hf : stealFits s thief b = false) :
    stealLoop thief victim (n + 1) s = s := by
  rw [stealFits] at hf
  simp only [stealLoop, hd, hb, hf, Bool.not_false, if_true]

theorem stealLoop_stolen {thief victim : Nat} (hne : thief ≠ victim) (n : Nat) (s : State) :
    ∃ k ≤ n, Stolen s (stealLoop thief victim n s) thief victim k ∧
      ∀ x b, (coreOf s victim).deque.head? = some x → s.blocks[x]? = some b → stealFits s thief b = true → 1 ≤ n → 1 ≤ k := by
  induction n generalizing s with
  | zero => exact ⟨0, le_rfl, .nothing s thief victim, fun _ _ _ _ _ h => h⟩
  | succ n ih =>
    cases hd : (coreOf s victim).deque with
    | nil =>
      have hstop : stealLoop thief victim (n + 1) s = s := by simp only [stealLoop, hd]
      exact ⟨0, Nat.zero_le _, by rw [hstop]; exact .nothing s thief victim, fun _ _ h => by cases h⟩
    | cons blk l =>
      cases hb : s.blocks[blk]? with
      | none =>
        have hstop : stealLoop thief victim (n + 1) s = s := by simp only [stealLoop, hd, hb]
        refine ⟨0, Nat.zero_le _, by rw [hstop]; exact .nothing s thief victim, ?_⟩
        rintro x b ⟨⟩ hx
        rw [hb] at hx
        cases hx
      | some b =>
        cases hf : stealFits s thief b with
        | true =>
          obtain ⟨k, hk, h, _⟩ := ih (lowerBound (settleBoundary (moveOldest s thief victim blk l) thief) victim)
          have hone := ((moveOldest_stolen hne hd hb).rebound (settleBoundary_rebound _ thief)).rebound (lowerBound_rebound _ victim)
          exact ⟨k + 1, by omega, by rw [stealLoop_goes n hd hb hf]; exact hone.cons h, fun _ _ _ _ _ _ => by omega⟩
        | false =>
          refine ⟨0, Nat.zero_le _, by rw [stealLoop_stays n hd hb hf]; exact .nothing s thief victim, ?_⟩
          rintro x b' ⟨⟩ hx hfits
          rw [hb] at hx
          cases hx
          rw [hf] at hfits
          cases hfits

theorem steal_step (s : State) (thief victim : Nat) (hne : thief ≠ victim) (hdie : thief / 128 = victim / 128)
    (hlen : 2 ≤ (coreOf s victim).deque.length) (hidle : coreIdle s thief = true)
    (hactive : (activeCores s (thief / 128)).contains thief = true) :
    ∃ t k, exec (.steal thief victim) s = .next t ∧ k ≤ (coreOf s victim).deque.length / 2 ∧
      (coreOf t victim).deque = (coreOf s victim).deque.drop k ∧ (coreOf t thief).deque = (coreOf s thief).deque ++ (coreOf s victim).deque.take k ∧
      (∀ n ∈ (coreOf s victim).deque.take k, ∃ b : Block, t.blocks[n]? = some b ∧ b.core = thief) ∧
      (∀ n b, (coreOf s victim).deque.head? = some n → s.blocks[n]? = some b → roomBesideAb s b.entry b.entry.block thief = true → abRoom s b.entry thief = true →
        (coreOf s thief).deque.length < 16 → 1 ≤ k) := by
  obtain ⟨k, hk, h, hfirst⟩ := stealLoop_stolen hne ((coreOf s victim).deque.length / 2) s
  generalize ht : stealLoop thief victim ((coreOf s victim).deque.length / 2) s = t at h
  have he : exec (.steal thief victim) s = .next (refillSlots t victim) := by
    show execSteal thief victim s = _
    unfold execSteal
    rw [← ht, if_neg]
    rintro (h | h | h | h | h)
    · exact hne h
    · exact h hdie
    · exact absurd hlen (Nat.not_le.mpr h)
    · exact Bool.false_ne_true (h.symm.trans hidle)
    · exact Bool.false_ne_true (h.symm.trans hactive)
  refine ⟨refillSlots t victim, k, he, hk, ?_⟩
  rw [refillSlots_rest]
  exact ⟨h.left, h.gained, h.moved, fun n b hn hb h1 h2 h3 => hfirst n b hn hb (by simp [stealFits, h1, h2, h3]) (by omega)⟩

end Sys2Proof.Machine
end

section
/-! SUPPORT. Records and slots of queues replaced, the blocks of a gang, and the dispatch of a record. -/

namespace Sys2Proof.Machine

/-! ### Records replaced (R47, R297) -/

theorem map_replaced_modify {l : List QRecord} {i : Nat} {r : QRecord} (f : QRecord → QRecord) (hd : (l.map (·.id)).Nodup)
    (hr : l[i]? = some r) : l.map (fun x => if x.id == r.id then f r else x) = l.modify i f := by
  refine List.ext_getElem? fun j => ?_
  rw [List.getElem?_map, List.getElem?_modify]
  cases hj : l[j]? with
  | none => rfl
  | some x =>
    by_cases hij : i = j
    · subst hij
      obtain rfl : r = x := Option.some_inj.mp (hr.symm.trans hj)
      simp
    · have hne : x.id ≠ r.id := fun h => hij <| by
        obtain ⟨hi, rfl⟩ := List.getElem?_eq_some_iff.mp hr
        obtain ⟨hj', rfl⟩ := List.getElem?_eq_some_iff.mp hj
        exact (hd.getElem_inj_iff (hi := by simpa using hi) (hj := by simpa using hj')).mp (by simpa using h.symm)
      simp [hij, hne]

/-- A change of the one slot of an address. -/
theorem map_slot {l : List Slot} {q : Slot} (hd : (l.map (·.pa)).Nodup) (hq : q ∈ l) (f : Slot → Slot) :
    l.map (fun x => if x.pa == q.pa then f x else x) = l.map (fun x => if x.pa = q.pa then f q else x) := by
  refine List.map_congr_left fun x hx => ?_
  by_cases h : x.pa = q.pa
  · rw [List.inj_on_of_nodup_map hd hx hq h]
    simp
  · simp [h]

theorem putRecord_slot {s : State} {q : Slot} (hd : (s.slots.map (·.pa)).Nodup) (hq : q ∈ s.slots) (r : QRecord) :
    putRecord s q.pa r = { s with slots := s.slots.map (fun x =>
      if x.pa = q.pa then { q with recs := q.recs.map (fun x => if x.id == r.id then r else x) } else x) } := by
  rw [putRecord, map_slot hd hq (fun q => { q with recs := q.recs.map (fun x => if x.id == r.id then r else x) })]

theorem priorityAging_step (s : State) (die slot idx : Nat) (q : Slot) (r : QRecord) (hslot : (s.slots.filter (fun x => x.die == die))[slot]? = some q)
    (hpas : (s.slots.map (·.pa)).Nodup) (hr : q.recs[idx]? = some r) (hids : (q.recs.map (·.id)).Nodup) :
    let n := r.waited / 65536
    (n ≤ r.aged → exec (.priorityAging die slot idx) s = .next s) ∧
    (r.aged < n → exec (.priorityAging die slot idx) s = .next { s with slots := s.slots.map (fun x => if x.pa = q.pa then { q with recs := q.recs.modify idx (fun r => { r with aged := n }) } else x) }) := by
  intro n
  have he : exec (.priorityAging die slot idx) s = .next (if r.aged < n then putRecord s q.pa { r with aged := n } else s) := by
    show execPriorityAging die slot idx s = _
    simp only [execPriorityAging, hslot, hr, n]
  have hq : q ∈ s.slots := (List.mem_filter.mp (List.mem_of_getElem? hslot)).1
  refine ⟨fun h => by rw [he, if_neg (by omega)], fun h => ?_⟩
  rw [he, if_pos h, putRecord_slot hpas hq, ← map_replaced_modify (fun r => { r with aged := n }) hids hr]

/-- The slot found under an address once the one there has been replaced. -/
theorem find?_slot_replaced {l : List Slot} {q q' : Slot} (hq : q ∈ l) (hpa : q'.pa = q.pa) :
    (l.map (fun x => if x.pa = q.pa then q' else x)).find? (fun x => x.pa == q.pa) = some q' := by
  induction l with
  | nil => cases hq
  | cons x l ih =>
    by_cases hx : x.pa = q.pa
    · simp [hx, hpa]
    · have hq' : q ∈ l := (List.mem_cons.mp hq).resolve_left fun h => hx (by rw [h])
      simpa [hx] using ih hq'

theorem modify_last {α : Type} (l : List α) (a : α) (f : α → α) : (l ++ [a]).modify l.length f = l ++ [f a] := by
  simp [List.modify_eq_take_cons_drop]

/-! ### The blocks of a gang (R44, R48, R303) -/

/-- A block of a gang as it is placed. -/
def placedBlock (c : Ctx) (t gang idx : Nat) (entryVa : DWord) (e : Entry) (m : Nat) (p : Nat × Nat) : Block :=
  { Block.start c (some t) gang idx m p.1 entryVa e p.2 with life := .deque }

/-- A block of a gang put on its core, before the core's boundary follows. -/
def addBlock (s : State) (gang core : Nat) (b : Block) (e : Entry) : State :=
  let t := { s with blocks := s.blocks ++ [b], gangs := modAt s.gangs gang (fun g => { g with blocks := g.blocks ++ [s.blocks.length] }) }
  if e.gang = 1 then modCore t core (fun k => { k with deque := k.deque ++ [s.blocks.length] }) else t

theorem addBlock_blocks (s : State) (gang core : Nat) (b : Block) (e : Entry) : (addBlock s gang core b e).blocks = s.blocks ++ [b] := by
  unfold addBlock
  dsimp only
  split <;> rfl

theorem addBlock_gangs (s : State) (gang core : Nat) (b : Block) (e : Entry) :
    (addBlock s gang core b e).gangs = s.gangs.modify gang (fun g => { g with blocks := g.blocks ++ [s.blocks.length] }) := by
  unfold addBlock
  dsimp only
  split <;> rfl

theorem addBlock_rest (s : State) (gang core : Nat) (b : Block) (e : Entry) :
    addBlock s gang core b e = { s with cores := (addBlock s gang core b e).cores, blocks := (addBlock s gang core b e).blocks, gangs := (addBlock s gang core b e).gangs } := by
  unfold addBlock
  dsimp only
  split <;> rfl

theorem placeBlocks_cons (c : Ctx) (t gang idx : Nat) (va : DWord) (e : Entry) (m : Nat) (p : Nat × Nat) (l : List (Nat × Nat)) (s : State) :
    placeBlocks c t gang idx va e m (p :: l) s
      = placeBlocks c t gang idx va e (m + 1) l (settleBoundary (addBlock s gang p.1 (placedBlock c t gang idx va e m p) e) p.1) := rfl

/-- What the placement of a gang's blocks does, for blocks `mk` by their numbers and places. -/
structure BlocksPlaced (s t : State) (gang : Nat) (l : List (Nat × Nat)) (mk : Nat → Nat × Nat → Block) : Prop where
  rest : t = { s with cores := t.cores, blocks := t.blocks, gangs := t.gangs }
  gangs : t.gangs = s.gangs.modify gang (fun g => { g with blocks := g.blocks ++ (List.range l.length).map (fun i => s.blocks.length + i) })
  blocks : t.blocks.map Block.bare = s.blocks.map Block.bare ++ l.mapIdx (fun i p => (mk i p).bare)

theorem BlocksPlaced.none (s : State) (gang : Nat) (mk : Nat → Nat × Nat → Block) : BlocksPlaced s s gang [] mk where
  rest := rfl
  gangs := by
    simp only [List.length_nil, List.range_zero, List.map_nil, List.append_nil]
    exact (List.modify_id gang s.gangs).symm
  blocks := by simp

/-- One more block before the others. -/
theorem BlocksPlaced.cons {s t u : State} {gang : Nat} {p : Nat × Nat} {l : List (Nat × Nat)} {mk : Nat → Nat × Nat → Block} {e : Entry}
    (h1 : Rebound (addBlock s gang p.1 (mk 0 p) e) t) (h2 : BlocksPlaced t u gang l (fun i => mk (i + 1))) :
    BlocksPlaced s u gang (p :: l) mk where
  rest := by rw [h2.rest, h1.rest, addBlock_rest]
  gangs := by
    have hlen : t.blocks.length = s.blocks.length + 1 := by
      simpa [addBlock_blocks] using congrArg List.length h1.blocks
    have hg : t.gangs = (addBlock s gang p.1 (mk 0 p) e).gangs := by rw [h1.rest]
    rw [h2.gangs, hg, addBlock_gangs, List.modify_modify_eq, hlen]
    congr 1
    funext g
    simp [List.range_succ_eq_map, Function.comp_def, Nat.add_assoc, Nat.add_comm 1]
  blocks := by
    rw [h2.blocks, h1.blocks, addBlock_blocks]
    simp

theorem placeBlocks_placed (c : Ctx) (t gang idx : Nat) (va : DWord) (e : Entry) (l : List (Nat × Nat)) : ∀ (m : Nat) (s : State),
    BlocksPlaced s (placeBlocks c t gang idx va e m l s) gang l (fun i => placedBlock c t gang idx va e (m + i)) := by
  induction l with
  | nil => exact fun m s => .none s gang _
  | cons p l ih =>
    intro m s
    rw [placeBlocks_cons]
    refine .cons (e := e) (settleBoundary_rebound _ p.1) ?_
    simpa only [Nat.add_assoc, Nat.add_comm 1, Nat.add_zero] using ih (m + 1) (settleBoundary (addBlock s gang p.1 (placedBlock c t gang idx va e m p) e) p.1)

/-! ### The record at the front (R47, R297) -/

theorem tableOk_of_eligible {s : State} {q : Slot} {r : QRecord} {e : Entry} (h : judge s q r = .eligible e) :
    tableOk (recordWords r.bytes) = true := by
  by_contra hn
  unfold judge at h
  rw [if_pos (.inr (.inr (by simpa using hn)))] at h
  cases h

theorem gangs_of_tableOk {ws : List DWord} (h : tableOk ws = true) : 1 ≤ shapeField ws 24 24 := by
  simp only [tableOk, Bool.and_eq_true, decide_eq_true_eq] at h
  tauto

section
variable {s : State} {die : Nat} {q : Slot} {r : QRecord} {e : Entry}

theorem dispatchSlots_one (hslots : s.slots.filter (fun x => x.die == die) = [q]) (hmode : q.mode = 0) : dispatchSlots s die = [q] := by
  have hcomm : dispatchSlots s die = (s.slots.filter (fun x => x.die == die)).filter (fun x => x.mode == 0) := by
    rw [List.filter_filter, dispatchSlots]
    simp only [Bool.and_comm]
  simp [hcomm, hslots, hmode]

theorem considerAll_eligible (hd : dispatchSlots s die = [q]) (hr : q.recs = [r]) (hj : judge s q r = .eligible e) (hp : r.page = none) :
    considerAll s die = s := by
  simp [considerAll, hd, hr, noteRecord, hj, walksDone, hp]

theorem fronts_one (hd : dispatchSlots s die = [q]) (hr : q.recs = [r]) (hj : judge s q r = .eligible e) (hs : strayTasks s die = []) :
    fronts s die = [.record q r e] := by
  simp [fronts, hd, hr, hj, hs]

/-- The task of a record that had none. -/
def newTask (q : Slot) (r : QRecord) (e : Entry) : Task :=
  { life := .placing, ctx := q.ctx, die := q.die, desc := BitVec.ofNat 64 q.pa, words := recordWords r.bytes, entry := e,
    ended := 0, seq := r.seq, aged := r.waited / 65536, posted := false }

/-- The machine with a new task for a record. -/
def withTask (s : State) (q : Slot) (r : QRecord) (e : Entry) : State :=
  { s with tasks := s.tasks ++ [newTask q r e],
           slots := s.slots.map (fun x => if x.pa = q.pa then { q with recs := [{ r with task := some s.tasks.length }] } else x) }

theorem taskOf_none (hq : q ∈ s.slots) (hd : (s.slots.map (·.pa)).Nodup) (hr : q.recs = [r]) (ht : r.task = none) :
    taskOf s q r e = (s.tasks.length, withTask s q r e) := by
  have hput := putRecord_slot (s := { s with tasks := s.tasks ++ [newTask q r e] }) (q := q) hd hq { r with task := some s.tasks.length }
  simp only [hr, List.map_cons, List.map_nil, beq_self_eq_true, if_true] at hput
  simp only [taskOf, ht]
  exact congrArg (Prod.mk s.tasks.length) hput

/-- The machine after one gang of a record's new task has been placed. -/
def firstGang (s : State) (q : Slot) (r : QRecord) (e : Entry) (cores : List Nat) : State :=
  placeGang (withTask s q r e) q.ctx s.tasks.length ((recordWords r.bytes).getD 0 0) e cores

theorem exec_dispatch_first {cores : List Nat} (hb : bindWaiting s die = s) (hc : considerAll s die = s) (hf : fronts s die = [.record q r e])
    (ht : taskOf s q r e = (s.tasks.length, withTask s q r e)) (hbusy : tasksBusy s die < 256) (hcores : cores ≠ [])
    (hp : placeable s q.ctx die e cores = true) (hq : queueHeld s q.pa none = false) :
    exec (.dispatch die cores) s = .next (
      if (placedGangs (firstGang s q r e cores) s.tasks.length).length < shapeField (recordWords r.bytes) 24 24 then firstGang s q r e cores
      else lastGang (firstGang s q r e cores) q r s.tasks.length) := by
  show execDispatch die cores s = _
  have hks : chosenCores s q.ctx die e cores = cores := by simp [chosenCores, hcores]
  have hb' : ¬ 256 ≤ tasksBusy s die := Nat.not_le.mpr hbusy
  simp only [execDispatch, hb, hc, hf, firstFront, hks, hp, ht, hq, hb', decide_false, Bool.and_false, Bool.false_eq_true, if_false, Bool.not_true]
  rfl

/-- The blocks of the record's gang, by their members and places. -/
def firstBlock (s : State) (q : Slot) (r : QRecord) (e : Entry) (m : Nat) (p : Nat × Nat) : Block :=
  placedBlock q.ctx s.tasks.length s.gangs.length 0 ((recordWords r.bytes).getD 0 0) e m p

/-- A gang of a record's task that has no block yet. -/
def noBlocks (s : State) (q : Slot) : Gang :=
  { ctx := q.ctx, task := some s.tasks.length, index := 0, blocks := [], phase := false, marks := 0, saving := none }

/-- The machine with a new task for a record and a gang of it that has no block yet. -/
def gangBegun (s : State) (q : Slot) (r : QRecord) (e : Entry) : State := { withTask s q r e with gangs := s.gangs ++ [noBlocks s q] }

theorem placedGangs_fresh {t : State} {n : Nat} (hfresh : ∀ x ∈ t.gangs, x.task ≠ some n) : placedGangs t n = [] := by
  simpa [placedGangs] using hfresh

theorem firstGang_eq (cores : List Nat) (hfresh : ∀ x ∈ s.gangs, x.task ≠ some s.tasks.length) :
    firstGang s q r e cores = placeBlocks q.ctx s.tasks.length s.gangs.length 0 ((recordWords r.bytes).getD 0 0) e 0
      (cores.zip (freeImages s q.ctx e.gang)) (gangBegun s q r e) := by
  have hidx : nextGang (withTask s q r e) s.tasks.length = 0 := by
    simp [nextGang, placedGangs_fresh (t := withTask s q r e) hfresh]
  rw [firstGang, placeGang, hidx]
  rfl

theorem firstGang_placed (cores : List Nat) (hfresh : ∀ x ∈ s.gangs, x.task ≠ some s.tasks.length) :
    BlocksPlaced (gangBegun s q r e) (firstGang s q r e cores) s.gangs.length
      (cores.zip (freeImages s q.ctx e.gang)) (firstBlock s q r e) := by
  rw [firstGang_eq cores hfresh]
  have h := placeBlocks_placed q.ctx s.tasks.length s.gangs.length 0 ((recordWords r.bytes).getD 0 0) e
    (cores.zip (freeImages s q.ctx e.gang)) 0 (gangBegun s q r e)
  simp only [Nat.zero_add] at h
  exact h

/-- What the gang of a record's new task is once it has been placed on `cores`: the gang, its blocks, and a single block's
entry in the deque of its core. -/
structure GangOn (s t : State) (q : Slot) (e : Entry) (cores : List Nat) : Prop where
  gangs : t.gangs = s.gangs ++ [{ ctx := q.ctx, task := some s.tasks.length, index := 0, blocks := (List.range e.gang).map (fun m => s.blocks.length + m), phase := false, marks := 0, saving := none }]
  length : t.blocks.length = s.blocks.length + e.gang
  block : ∀ m, m < e.gang → ∃ b : Block, t.blocks[s.blocks.length + m]? = some b ∧ b.life = .deque ∧ b.core = cores.getD m 0 ∧ b.member = m ∧ b.gangIdx = 0 ∧ b.entry = e ∧ b.ctx = q.ctx ∧
    b.task = some s.tasks.length ∧ (freeImages s q.ctx e.gang)[m]? = some b.image
  deque : e.gang = 1 → (coreOf t (cores.getD 0 0)).deque = (coreOf s (cores.getD 0 0)).deque ++ [s.blocks.length]

theorem firstGang_on {cores : List Nat} (hfresh : ∀ x ∈ s.gangs, x.task ≠ some s.tasks.length) (hlen : cores.length = e.gang)
    (himg : e.gang ≤ (freeImages s q.ctx e.gang).length) : GangOn s (firstGang s q r e cores) q e cores := by
  have hp := firstGang_placed (q := q) (r := r) (e := e) cores hfresh
  have hzip : (cores.zip (freeImages s q.ctx e.gang)).length = e.gang := by
    rw [List.length_zip, hlen]
    omega
  have hblocks : (gangBegun s q r e).blocks = s.blocks := rfl
  have hlength : (firstGang s q r e cores).blocks.length = s.blocks.length + e.gang := by
    simpa [hzip, hblocks, -List.length_zip] using congrArg List.length hp.blocks
  refine ⟨?_, hlength, fun m hm => ?_, fun h1 => ?_⟩
  · rw [hp.gangs, hzip]
    exact modify_last s.gangs (noBlocks s q) _
  · have hm' : m < (cores.zip (freeImages s q.ctx e.gang)).length := by omega
    have hget := congrArg (·[s.blocks.length + m]?) hp.blocks
    simp only [hblocks] at hget
    rw [List.getElem?_map, List.getElem?_append_right (by simp)] at hget
    simp only [List.length_map, Nat.add_sub_cancel_left, List.getElem?_mapIdx, List.getElem?_eq_getElem hm', Option.map_some] at hget
    obtain ⟨b, hb, hbare⟩ := Option.map_eq_some_iff.mp hget
    have hfield {α : Type} (f : Block → α) (hf : ∀ b, f b.bare = f b) : f b = f (firstBlock s q r e m (cores.zip (freeImages s q.ctx e.gang))[m]) := by
      rw [← hf b, hbare, hf]
    refine ⟨b, hb, hfield (·.life) fun _ => rfl, ?_, hfield (·.member) fun _ => rfl, hfield (·.gangIdx) fun _ => rfl,
      hfield (·.entry) fun _ => rfl, hfield (·.ctx) fun _ => rfl, hfield (·.task) fun _ => rfl, ?_⟩
    · have hc := hfield (·.core) fun _ => rfl
      simpa [firstBlock, placedBlock, Block.start, hlen, hm] using hc
    · have hi := hfield (·.image) fun _ => rfl
      have hmi : m < (freeImages s q.ctx e.gang).length := by omega
      rw [hi, List.getElem?_eq_getElem hmi]
      simp [firstBlock, placedBlock, Block.start]
  · obtain ⟨core, rfl⟩ := List.length_eq_one_iff.mp (hlen.trans h1)
    obtain ⟨image, l, hl⟩ := List.exists_cons_of_length_pos (show 0 < (freeImages s q.ctx e.gang).length by omega)
    rw [firstGang_eq _ hfresh, hl, List.zip_cons_cons, List.zip_nil_left, placeBlocks_cons]
    refine ((settleBoundary_rebound _ core).deque core).trans ?_
    simp only [addBlock, h1, if_true, coreOf_modCore_same]
    rfl

theorem firstGang_tasks (cores : List Nat) (hfresh : ∀ x ∈ s.gangs, x.task ≠ some s.tasks.length) :
    (firstGang s q r e cores).tasks = s.tasks ++ [newTask q r e] := by
  rw [(firstGang_placed cores hfresh).rest]
  rfl

theorem firstGang_slots (cores : List Nat) (hfresh : ∀ x ∈ s.gangs, x.task ≠ some s.tasks.length) :
    (firstGang s q r e cores).slots = (withTask s q r e).slots := by
  rw [(firstGang_placed cores hfresh).rest]
  rfl

theorem clk_firstGang (cores : List Nat) (hfresh : ∀ x ∈ s.gangs, x.task ≠ some s.tasks.length) :
    clk (firstGang s q r e cores) = clk s := by
  rw [(firstGang_placed cores hfresh).rest]
  rfl

/-- A record leaves a queue that has nothing to bring in after it. -/
theorem dropRecord_empty {t : State} {q q' : Slot} (r : QRecord) (h : slotOf t q.pa = some q') (hempty : q'.head = q'.tail) :
    dropRecord t q r = putSlot t { q' with recs := q'.recs.filter (fun x => x.id != r.id), count := q'.count - 1, idleSince := clk t, waiting := false, page := none } := by
  have hdone (x : Slot) (hx : x.head = x.tail) : refillLoop 33 t x = .done x := by rw [refillLoop, if_pos (.inr hx)]
  simp only [dropRecord, h, refill, hdone { q' with recs := q'.recs.filter (fun x => x.id != r.id), count := q'.count - 1, idleSince := clk t } hempty]

/-- The record of a task of one gang leaves its queue, which has nothing to bring in after it. -/
theorem lastGang_firstGang {cores : List Nat} (hfresh : ∀ x ∈ s.gangs, x.task ≠ some s.tasks.length) (hq : q ∈ s.slots) (hempty : q.head = q.tail) :
    lastGang (firstGang s q r e cores) q r s.tasks.length = { firstGang s q r e cores with
      tasks := s.tasks ++ [{ newTask q r e with life := .running }],
      slots := s.slots.map (fun x => if x.pa = q.pa then { q with recs := [], count := q.count - 1, idleSince := clk s, waiting := false, page := none } else x) } := by
  have hslots := firstGang_slots (q := q) (r := r) (e := e) cores hfresh
  have hfound : slotOf (firstGang s q r e cores) q.pa = some { q with recs := [{ r with task := some s.tasks.length }] } := by
    rw [slotOf, hslots]
    exact find?_slot_replaced hq rfl
  have htasks : modAt (firstGang s q r e cores).tasks s.tasks.length (fun x => { x with life := if x.life = .placing then .running else x.life, aged := r.waited / 65536 })
      = s.tasks ++ [{ newTask q r e with life := .running }] := by
    rw [firstGang_tasks cores hfresh, modAt, modify_last]
    rfl
  rw [lastGang, htasks, dropRecord_empty (t := { firstGang s q r e cores with tasks := s.tasks ++ [{ newTask q r e with life := .running }] }) r hfound hempty]
  have hclk : clk { firstGang s q r e cores with tasks := s.tasks ++ [{ newTask q r e with life := .running }] } = clk s := clk_firstGang cores hfresh
  rw [hclk]
  simp only [putSlot, hslots, withTask, List.map_map]
  congr 1
  refine List.map_congr_left fun x _ => ?_
  by_cases hx : x.pa = q.pa <;> simp [hx]

end

theorem dispatch_step (s : State) (die : Nat) (q : Slot) (r : QRecord) (e : Entry) (cores : List Nat)
    (hslots : s.slots.filter (fun x => x.die == die) = [q]) (hpas : (s.slots.map (·.pa)).Nodup)
    (hnamed : ∀ x ∈ s.named, x.die ≠ die) (hmode : q.mode = 0) (hrecs : q.recs = [r]) (hempty : q.head = q.tail) (htask : r.task = none)
    (hpage : r.page = none) (hheld : placementHeld s q.ctx = false) (hrest : restoring s q.ctx = false) (hj : judge s q r = .eligible e)
    (hstray : strayTasks s die = []) (hbusy : tasksBusy s die < 256) (hfresh : ∀ x ∈ s.gangs, x.task ≠ some s.tasks.length)
    (hcores : cores ≠ []) (hok : coresOk s q.ctx die e cores = true) (hqueue : queueHeld s q.pa none = false)
    (himg : e.gang ≤ (freeImages s q.ctx e.gang).length) :
    let ws := recordWords r.bytes
    let gangs := shapeField ws 24 24
    let n := s.blocks.length
    ∃ t, exec (.dispatch die cores) s = .next t ∧
      t.gangs = s.gangs ++ [{ ctx := q.ctx, task := some s.tasks.length, index := 0, blocks := (List.range e.gang).map (fun m => n + m), phase := false, marks := 0, saving := none }] ∧
      t.tasks = s.tasks ++ [{ life := if gangs = 1 then .running else .placing, ctx := q.ctx, die := q.die, desc := BitVec.ofNat 64 q.pa, words := ws, entry := e, ended := 0, seq := r.seq, aged := r.waited / 65536, posted := false }] ∧
      t.blocks.length = n + e.gang ∧
      (∀ m, m < e.gang → ∃ b : Block, t.blocks[n + m]? = some b ∧ b.life = .deque ∧ b.core = cores.getD m 0 ∧ b.member = m ∧ b.gangIdx = 0 ∧ b.entry = e ∧ b.ctx = q.ctx ∧
        b.task = some s.tasks.length ∧ (freeImages s q.ctx e.gang)[m]? = some b.image) ∧
      (e.gang = 1 → (coreOf t (cores.getD 0 0)).deque = (coreOf s (cores.getD 0 0)).deque ++ [n]) ∧
      (gangs = 1 → t.slots = s.slots.map (fun x => if x.pa = q.pa then { q with recs := [], count := q.count - 1, idleSince := clk s, waiting := false, page := none } else x)) ∧
      (1 < gangs → t.slots = s.slots.map (fun x => if x.pa = q.pa then { q with recs := [{ r with task := some s.tasks.length }] } else x)) := by
  intro ws gangs n
  have hq : q ∈ s.slots := (List.mem_filter.mp (hslots ▸ List.mem_singleton_self q)).1
  have hd := dispatchSlots_one hslots hmode
  have hp : placeable s q.ctx die e cores = true := by simp [placeable, ctxTakesGang, hheld, hrest, hok, himg]
  have hlen : cores.length = e.gang := by
    simp only [coresOk, Bool.and_eq_true, beq_iff_eq] at hok
    tauto
  have he := exec_dispatch_first (bindWaiting_none hnamed) (considerAll_eligible hd hrecs hj hpage) (fronts_one hd hrecs hj hstray)
    (taskOf_none hq hpas hrecs htask) hbusy hcores hp hqueue
  have hon := firstGang_on (r := r) hfresh hlen himg
  have hone : (placedGangs (firstGang s q r e cores) s.tasks.length).length = 1 := by
    simpa [placedGangs, hon.gangs, List.filter_append] using hfresh
  have hgangs : 1 ≤ gangs := gangs_of_tableOk (tableOk_of_eligible hj)
  rw [hone] at he
  by_cases hmore : 1 < gangs
  · rw [if_pos hmore] at he
    refine ⟨_, he, hon.gangs, ?_, hon.length, hon.block, hon.deque, fun h => by omega, fun _ => firstGang_slots cores hfresh⟩
    rw [firstGang_tasks cores hfresh, if_neg (by omega)]
    rfl
  · rw [if_neg hmore, lastGang_firstGang hfresh hq hempty] at he
    refine ⟨_, he, hon.gangs, ?_, hon.length, hon.block, hon.deque, fun _ => rfl, fun h => absurd h hmore⟩
    rw [if_pos (by omega)]
    rfl

end Sys2Proof.Machine
end

section
/-! SUPPORT. The start of a block: its windows, the acquire of every address, its groups. -/

namespace Sys2Proof.Machine

/-! ### Windows that a block takes (R202) -/

theorem mem_of_tabFind {α : Type} {t : Tab α} {k : Nat} {v : α} (h : tabFind t k = some v) : (k, v) ∈ t := by
  induction t with
  | nil => cases h
  | cons p t ih =>
    obtain ⟨j, w⟩ := p
    simp only [tabFind] at h
    split at h
    next hk =>
      cases h
      simp [hk]
    next => exact List.mem_cons_of_mem _ (ih h)

/-- A byte that a context left in a core's buffers. -/
def LeftOn (s : State) (core : Nat) (c : Ctx) (x : Byte) : Prop :=
  ∃ g l k, tabFind (coreOf s core).left g = some (c, l) ∧ (k, x) ∈ l

/-- A byte with which a window begins is one that its context left on the core. -/
theorem initialWin_left {s : State} {core : Nat} {c : Ctx} {sp : Space} {p : Nat × Byte} (l : List Nat) :
    ∀ i, p ∈ initialWin s core c sp i l → LeftOn s core c p.2 := by
  induction l with
  | nil => exact fun i h => absurd h (List.not_mem_nil)
  | cons g l ih =>
    intro i h
    rcases List.mem_append.mp h with h | h
    · cases hx : tabFind (coreOf s core).left (granKey sp g) with
      | none => simp [hx] at h
      | some x =>
        obtain ⟨d, t⟩ := x
        by_cases hd : d = c
        · subst hd
          simp only [hx, bne_self_eq_false, Bool.false_eq_true, if_false, List.mem_map, List.mem_filter] at h
          obtain ⟨y, ⟨hy, _⟩, rfl⟩ := h
          exact ⟨_, t, y.1, hx, hy⟩
        · simp [hx, hd] at h
    · exact ih _ h

theorem winTab_setWinTab (b : Block) (sp sp' : Space) (t : Tab Byte) : winTab (setWinTab b sp t) sp' = if sp' = sp then t else winTab b sp' := by
  cases sp <;> cases sp' <;> rfl

/-- Whether two blocks differ in their windows and the places of these alone. -/
def WindowsOnly (b y : Block) : Prop := y = { b with grans := y.grans, wb := y.wb, ab := y.ab, cb := y.cb, ls := y.ls }

theorem setWinTab_only {b y : Block} (sp : Space) (t : Tab Byte) (h : WindowsOnly b y) : WindowsOnly b (setWinTab y sp t) := by
  unfold WindowsOnly at h ⊢
  rw [h]
  cases sp <;> rfl

/-- Windows set one after another, each to what the block so far says. -/
theorem foldl_windows {P : Byte → Prop} {b : Block} (tab : Block → Space → Tab Byte) (htab : ∀ y sp, WindowsOnly b y → ∀ p ∈ tab y sp, P p.2)
    (l : List Space) : ∀ y, WindowsOnly b y → WindowsOnly b (l.foldl (fun y sp => setWinTab y sp (tab y sp)) y) ∧
      ∀ sp, (sp ∈ l ∨ ∀ p ∈ winTab y sp, P p.2) → ∀ p ∈ winTab (l.foldl (fun y sp => setWinTab y sp (tab y sp)) y) sp, P p.2 := by
  induction l with
  | nil => exact fun y hy => ⟨hy, fun sp h => h.resolve_left (List.not_mem_nil)⟩
  | cons sp1 l ih =>
    intro y hy
    obtain ⟨h1, h2⟩ := ih (setWinTab y sp1 (tab y sp1)) (setWinTab_only sp1 _ hy)
    refine ⟨h1, fun sp h => h2 sp ?_⟩
    by_cases hl : sp ∈ l
    · exact .inl hl
    · refine .inr fun p hp => ?_
      rw [winTab_setWinTab] at hp
      by_cases he : sp = sp1
      · rw [if_pos he] at hp
        exact htab y sp1 hy p hp
      · rw [if_neg he] at hp
        exact h.elim (fun h => absurd h (by simp [he, hl])) (fun h => h p hp)

theorem takeWindows_block {s : State} {blk : Nat} {b : Block} (hb : s.blocks[blk]? = some b) :
    ∃ f, takeWindows s blk = modBlock s blk f ∧ WindowsOnly b (f b) ∧ ∀ sp, ∀ p ∈ winTab (f b) sp, LeftOn s b.core b.ctx p.2 := by
  let gs := chooseGrans s b.core b
  let tab (y : Block) (sp : Space) : Tab Byte := (initialWin s y.core y.ctx sp 0 (gs.getD sp.code [])).filter (fun p => p.1 < winQuota y sp)
  have htab (y : Block) (sp : Space) (hy : WindowsOnly b y) (p : Nat × Byte) (hp : p ∈ tab y sp) : LeftOn s b.core b.ctx p.2 := by
    have hl := initialWin_left _ _ (List.mem_filter.mp hp).1
    rw [WindowsOnly] at hy
    rw [hy] at hl
    exact hl
  have h := foldl_windows tab htab spaces { b with grans := gs } rfl
  refine ⟨fun y => spaces.foldl (fun y sp => setWinTab y sp (tab y sp)) { y with grans := gs }, ?_, h.1, fun sp => h.2 sp (.inl ?_)⟩
  · simp only [takeWindows, hb]
    rfl
  · cases sp <;> simp [spaces]

/-! ### The acquire at a start (R298, R231) -/

/-- The last released value that a registered word keeps. -/
def Reg.last : Reg → Option Word
  | .owned _ l _ => some l
  | _ => none

theorem Reg.last_unplaced (r : Reg) : r.unplaced.last = r.last := by cases r <;> rfl

theorem regLast_of_sameButLines {s t : State} (h : SameButLines s t) (w : Nat) : (regOf t w).bind Reg.last = (regOf s w).bind Reg.last := by
  have hb := congrArg (fun r => Option.bind r Reg.last) (h w)
  simpa only [Option.bind_map, Function.comp_def, Reg.last_unplaced] using hb

theorem releasedUnit_eq (s : State) (key u : Nat) : releasedUnit s key u = (List.range 16).flatMap (fun i =>
    leBytes 4 (((regOf s (u * 16 + i)).bind Reg.last).getD (readWord s key (u * 16 + i))).toNat) := by
  unfold releasedUnit
  congr 1
  funext i
  rcases regOf s (u * 16 + i) with - | (_ | _ | _ | _) <;> rfl

theorem lastReleased_eq (s : State) (key w : Nat) : lastReleased s key w = ((regOf s w).bind Reg.last).elim (readWord s key w) (fun last =>
    (lineKey s w).elim last (fun k => if k = key then last
      else BitVec.ofNat 32 (leNat ((recode k key (w / 16) (releasedUnit s k (w / 16))).extract (4 * (w % 16)) (4 * (w % 16) + 4))))) := by
  unfold lastReleased
  rcases regOf s w with - | (_ | _ | _ | _)
  case some.owned => cases lineKey s w <;> rfl
  all_goals rfl

theorem lastReleased_congr {s t : State} (hmem : t.mem = s.mem) (htags : t.tags = s.tags) (hlines : SameButLines s t) (key w : Nat) :
    lastReleased t key w = lastReleased s key w := by
  have hbyte (k : Nat) : readByte t k = readByte s k := by
    funext pa
    rw [readByte, readByte, hmem, htags]
  have hword (k v : Nat) : readWord t k v = readWord s k v := by rw [readWord, readBytes, hbyte, ← readBytes, ← readWord]
  have hkey : lineKey t w = lineKey s w := by rw [lineKey, lineKey, htags]
  have hunit : releasedUnit t = releasedUnit s := by
    funext k u
    simp only [releasedUnit_eq, regLast_of_sameButLines hlines, hword]
  rw [lastReleased_eq, lastReleased_eq, regLast_of_sameButLines hlines, hword, hkey, hunit]

/-- What the acquire of a start does to the copies of its core (R298, R221, R231): those that were there go, and one that comes is at
the value last released. -/
structure Refilled (s t : State) (core : Nat) : Prop where
  rest : t = { s with xlat := t.xlat, asids := t.asids, copies := t.copies, reg := t.reg }
  lines : SameButLines s t
  copies : ∀ k ∈ t.copies, (k ∈ s.copies ∧ k.site ≠ .core core) ∨ (k.site = .core core ∧ ∃ key, k.val = lastReleased s key k.word)

section
variable {s t u : State} {core : Nat}

theorem Refilled.lastReleased (h : Refilled s t core) (key w : Nat) : lastReleased t key w = lastReleased s key w :=
  lastReleased_congr (by rw [h.rest]) (by rw [h.rest]) h.lines key w

/-- A change after which every copy is one that was there. -/
theorem Refilled.fewer (h : Refilled s t core) (hrest : u = { t with xlat := u.xlat, asids := u.asids, copies := u.copies, reg := u.reg })
    (hl : SameButLines t u) (hc : ∀ k ∈ u.copies, k ∈ t.copies) : Refilled s u core where
  rest := by rw [hrest, h.rest]
  lines w := (hl w).trans (h.lines w)
  copies k hk := h.copies k (hc k hk)

theorem foldl_refilled {α : Type} {f : State → α → State} (hf : ∀ t a, Refilled s t core → Refilled s (f t a) core) (l : List α) :
    ∀ t, Refilled s t core → Refilled s (l.foldl f t) core := by
  induction l with
  | nil => exact fun _ ht => ht
  | cons a l ih => exact fun t ht => ih _ (hf t a ht)

theorem moveLine_copies (s : State) (w : Nat) (va : DWord) : (moveLine s w va).copies = s.copies := by
  fun_cases moveLine s w va <;> rfl

theorem leaveLine_copies (s : State) (site : Site) (asid : BitVec 16) (va : DWord) (w : Nat) :
    (leaveLine s site asid va w).copies = s.copies := by
  fun_cases leaveLine s site asid va w
  all_goals simp only [moveLine_copies]

theorem Refilled.load (h : Refilled s t core) (hl : LoadOnly t u) (hc : ∀ k ∈ u.copies, k ∈ t.copies) : Refilled s u core := by
  obtain ⟨⟨_, _, hrest⟩, hlines⟩ := hl
  exact h.fewer (by rw [hrest]) hlines hc

theorem Refilled.fillCopy (h : Refilled s t core) (asid : BitVec 16) (va : DWord) (key w : Nat) :
    Refilled s (fillCopy t (.core core) asid va w (Machine.lastReleased t key w)) core := by
  have hnew : Refilled s { t with copies := { site := .core core, asid, va, word := w, val := Machine.lastReleased t key w, barred := [] } :: otherCopies t.copies (.core core) asid va w } core := by
    refine ⟨by rw [h.rest], h.lines, fun k hk => ?_⟩
    rcases List.mem_cons.mp hk with rfl | hk
    · exact .inr ⟨rfl, key, h.lastReleased key w⟩
    · exact h.copies k (List.mem_filter.mp hk).1
  exact hnew.load (leaveLine_only _ _ _ _ _) fun k hk => by rwa [Machine.fillCopy, leaveLine_copies] at hk

theorem Refilled.fillSector (h : Refilled s t core) (asid : BitVec 16) (va : DWord) (key pa : Nat) (p : Bool) :
    Refilled s (fillSector t (.core core) asid va key pa p) core := by
  unfold Machine.fillSector
  split
  · exact h
  · refine foldl_refilled (fun t i ht => ?_) _ _ (h.fewer rfl (fun _ => rfl) fun k hk => (List.mem_filter.mp hk).1)
    dsimp only
    split
    · exact ht
    · exact ht.fillCopy _ _ _ _

theorem Refilled.prefetchOne (h : Refilled s t core) (c : Ctx) (priv : Bool) (a : Agent) (home : Bool) (va : DWord) :
    Refilled s (prefetchOne t { site := .core core, ctx := c, priv, agent := a, home } va) core := by
  have hx : Refilled s (translate t (.core core) c priv .load va).2 core := by
    obtain ⟨_, _, hrest⟩ := translate_only t (.core core) c priv .load va
    exact h.fewer (by rw [hrest]) (by rw [hrest]; exact fun _ => rfl) (by rw [hrest]; exact fun _ hk => hk)
  unfold Machine.prefetchOne
  split
  · exact h
  · generalize translate t (.core core) c priv .load va = r at hx
    split
    next pa key s1 => exact hx.fillSector _ _ _ _ _
    next => exact hx

theorem acquireAll_refilled (s : State) (core : Nat) : Refilled s (acquireAll s (.core core) .pkg) core := by
  unfold acquireAll acquire
  rw [if_neg (by decide)]
  split
  next hnone => exact ⟨rfl, fun _ => rfl, fun k hk => by rw [hnone] at hk; cases hk⟩
  next l _ =>
    refine ⟨rfl, fun _ => rfl, fun k hk => .inl ?_⟩
    obtain ⟨y, hy, hyk⟩ := List.mem_filterMap.mp hk
    by_cases hsite : y.site = .core core
    · simp [hsite, Copy.acquired] at hyk
    · simp only [beq_iff_eq, hsite, if_false, Option.some.injEq] at hyk
      subst hyk
      exact ⟨hy, hsite⟩

theorem launchAcquire_refilled (s : State) (core : Nat) (c : Ctx) : Refilled s (launchAcquire s core c) core := by
  refine foldl_refilled (fun t x ht => ?_) _ _ (acquireAll_refilled s core)
  split
  · exact ht.prefetchOne _ _ _ _ _
  · exact ht

end

/-! ### The groups of a block (R298, R304, R111) -/

theorem takeSlots_length (free n : Nat) : ∀ l : List Nat, n ≤ l.length → (takeSlots free n l).length = n := by
  induction n with
  | zero => exact fun _ _ => rfl
  | succ n ih =>
    intro l hl
    have hi : (if l.length ≤ 1 then 0 else Config.freeNat .groupSlot free n % l.length) < l.length := by
      split
      · omega
      · exact Nat.mod_lt _ (by omega)
    simp only [takeSlots, List.getElem?_eq_getElem hi, List.length_cons]
    rw [ih _ (by rw [List.length_eraseIdx_of_lt hi]; omega)]

theorem freeSlots_congr {s t : State} (core : Nat) (hg : t.groups = s.groups) (hb : ∀ gr ∈ s.groups, t.blocks[gr.block]? = s.blocks[gr.block]?) :
    freeSlots t core = freeSlots s core := by
  have hhere (i : Nat) : t.groups.any (fun gr => groupHere t gr core && gr.rslot == i && gr.run.isNone && (gr.life == .live || gr.life == .stopped))
      = s.groups.any (fun gr => groupHere s gr core && gr.rslot == i && gr.run.isNone && (gr.life == .live || gr.life == .stopped)) := by
    rw [hg, Bool.eq_iff_iff, List.any_eq_true, List.any_eq_true]
    refine exists_congr fun gr => and_congr_right fun hgr => ?_
    rw [groupHere, groupHere, hb gr hgr]
  simp only [freeSlots, hhere]

/-- A group of a block as it is launched, by its id and resident-group slot. -/
def launchedGroup (blk : Nat) (b : Block) (init : Tab DWord) (p : Nat × Nat) (grant : Nat) (interlocked : Bool) (now : Nat) : Group :=
  { Group.start b.ctx blk p.1 b.core p.2 b.entry.size b.entry.vcount (firstThreads b.entry.size) grant interlocked b.entryVa now with s := init }

/-- What a launch of groups does. -/
structure Launched (s t : State) (blk : Nat) (b : Block) (init : Tab DWord) (l : List (Nat × Nat)) : Prop where
  rest : t = { s with groups := t.groups, blocks := t.blocks }
  length : t.groups.length = s.groups.length + l.length
  kept : ∀ g, g < s.groups.length → t.groups[g]? = s.groups[g]?
  group : ∀ i p, l[i]? = some p → ∃ grant interlocked now, t.groups[s.groups.length + i]? = some (launchedGroup blk b init p grant interlocked now)
  blocks : t.blocks = s.blocks.modify blk (fun b => { b with groups := b.groups ++ (List.range l.length).map (fun i => s.groups.length + i) })

theorem Launched.none (s : State) (blk : Nat) (b : Block) (init : Tab DWord) : Launched s s blk b init [] where
  rest := rfl
  length := rfl
  kept _ _ := rfl
  group _ _ := nofun
  blocks := by
    simp only [List.length_nil, List.range_zero, List.map_nil, List.append_nil]
    exact (List.modify_id blk s.blocks).symm

/-- One more group before the others. -/
theorem Launched.cons {s t : State} {blk : Nat} {b : Block} {init : Tab DWord} {p : Nat × Nat} {l : List (Nat × Nat)} {grant : Nat}
    {interlocked : Bool} {now : Nat}
    (h : Launched (modBlock { s with groups := s.groups ++ [launchedGroup blk b init p grant interlocked now] } blk
      (fun b => { b with groups := b.groups ++ [s.groups.length] })) t blk b init l) : Launched s t blk b init (p :: l) where
  rest := by
    rw [h.rest]
    rfl
  length := by
    rw [h.length]
    simp only [modBlock_groups, List.length_append, List.length_cons, List.length_nil]
    omega
  kept g hg := by
    rw [h.kept g (by simp only [modBlock_groups, List.length_append]; omega), modBlock_groups, List.getElem?_append_left hg]
  group i x hx := by
    cases i with
    | zero =>
      obtain rfl : p = x := by simpa using hx
      refine ⟨grant, interlocked, now, ?_⟩
      rw [h.kept _ (by simp)]
      simp
    | succ i =>
      obtain ⟨g1, g2, g3, hg⟩ := h.group i x (by simpa using hx)
      refine ⟨g1, g2, g3, ?_⟩
      rw [← hg]
      simp [Nat.add_assoc, Nat.add_comm 1]
  blocks := by
    rw [h.blocks, modBlock_blocks, List.modify_modify_eq]
    congr 1
    funext b
    simp [List.range_succ_eq_map, Function.comp_def, Nat.add_assoc, Nat.add_comm 1]

theorem launchGroups_launched (blk : Nat) (b : Block) (init : Tab DWord) (l : List (Nat × Nat)) : ∀ s : State,
    Launched s (launchGroups blk b init l s) blk b init l := by
  induction l with
  | nil => exact fun s => .none s blk b init
  | cons p l ih => exact fun s => .cons (ih _)

/-! ### The start -/

theorem tabGet_uniFrom (l : List DWord) : ∀ i j, tabGet 0 (uniFrom i l) j = if i ≤ j then l.getD (j - i) 0 else 0 := by
  induction l with
  | nil => simp [uniFrom]
  | cons x l ih =>
    intro i j
    have hrest : j ≠ i → tabGet 0 (uniFrom (i + 1) l) j = if i ≤ j then (x :: l).getD (j - i) 0 else 0 := fun hne => by
      rw [ih]
      by_cases hij : i ≤ j
      · rw [if_pos hij, if_pos (by omega), show j - i = j - (i + 1) + 1 by omega, List.getD_cons_succ]
      · rw [if_neg hij, if_neg (by omega)]
    rw [uniFrom]
    by_cases hji : j = i
    · subst hji
      by_cases hx : x = 0
      · rw [if_pos hx, ih, if_neg (by omega)]
        simp [hx]
      · rw [if_neg hx]
        simp [tabGet, tabFind]
    · by_cases hx : x = 0
      · rw [if_pos hx, hrest hji]
      · rw [if_neg hx, ← hrest hji]
        simp [tabGet, tabFind, hji]

/-- Each byte of a window read alone is 0 or one that its table holds. -/
theorem winRead_one {s : State} {blk : Nat} {b : Block} {sp : Space} {off : Nat} {x : Byte} (hb : s.blocks[blk]? = some b)
    (h : winRead s blk sp off 1 = [x]) : x = 0 ∨ ∃ p ∈ winTab b sp, p.2 = x := by
  have hx : winByte b sp off = x := by simpa [winRead, hb, bytesOf] using h
  rw [winByte, tabGet] at hx
  cases hf : tabFind (winTab b sp) off with
  | none => exact .inl (by simpa [hf] using hx.symm)
  | some y => exact .inr ⟨_, mem_of_tabFind hf, by simpa [hf] using hx⟩

/-- What the start of a block does. -/
structure Started (s t : State) (core blk : Nat) (b : Block) (x : Task) : Prop where
  cores : t.cores = s.cores
  length : t.groups.length = s.groups.length + b.entry.block
  copies : ∀ k ∈ t.copies, (k ∈ s.copies ∧ k.site ≠ .core core) ∨ (k.site = .core core ∧ ∃ key, k.val = lastReleased s key k.word)
  block : ∃ y : Block, t.blocks[blk]? = some y ∧ y = { b with life := .running, grans := y.grans, wb := y.wb, ab := y.ab, cb := y.cb, ls := y.ls, groups := b.groups ++ (List.range b.entry.block).map (fun i => s.groups.length + i) } ∧
    ∀ sp, ∀ p ∈ winTab y sp, LeftOn s core b.ctx p.2
  group : ∀ i, i < b.entry.block → ∃ rslot grant interlocked now,
    t.groups[s.groups.length + i]? = some (launchedGroup blk b (uniFrom 0 [x.words.getD 6 0, x.words.getD 7 0]) (i, rslot) grant interlocked now)

theorem startBlock_started {s : State} {blk : Nat} {b : Block} {x : Task} (hb : s.blocks[blk]? = some b)
    (hx : b.task.bind (fun t => s.tasks[t]?) = some x) (hfree : b.entry.block ≤ (freeSlots s b.core).length) (hnew : ∀ gr ∈ s.groups, gr.block ≠ blk) :
    Started s (startBlock s blk b) b.core blk b x := by
  let s1 := modBlock s blk (fun b => { b with life := .running })
  have hb1 : s1.blocks[blk]? = some { b with life := .running } := by simp [s1, hb]
  obtain ⟨f, htake, honly, hleft⟩ := takeWindows_block hb1
  let s2 := takeWindows s1 blk
  have hs2 : s2 = modBlock s1 blk f := htake
  have hacq : Refilled s2 (launchAcquire s2 b.core b.ctx) b.core := launchAcquire_refilled s2 b.core b.ctx
  let s3 := launchAcquire s2 b.core b.ctx
  have hblocks : s3.blocks = (s.blocks.modify blk (fun b => { b with life := .running })).modify blk f := by
    rw [show s3 = _ from hacq.rest, hs2]
    rfl
  have hgroups : s3.groups = s.groups := by
    rw [show s3 = _ from hacq.rest, hs2]
    rfl
  have hslots : freeSlots s3 b.core = freeSlots s b.core := freeSlots_congr b.core hgroups fun gr hgr => by
    rw [hblocks, List.getElem?_modify_ne _ _ (hnew gr hgr).symm, List.getElem?_modify_ne _ _ (hnew gr hgr).symm]
  have htasks : s3.tasks = s.tasks := by
    rw [show s3 = _ from hacq.rest, hs2]
    rfl
  have hargs : launchArgs s3 b = uniFrom 0 [x.words.getD 6 0, x.words.getD 7 0] := by
    rw [← htasks] at hx
    simp only [launchArgs, hx]
  let l := (List.range b.entry.block).zip (takeSlots s3.free b.entry.block (freeSlots s3 b.core))
  have htaken : (takeSlots s3.free b.entry.block (freeSlots s3 b.core)).length = b.entry.block := takeSlots_length _ _ _ (hslots ▸ hfree)
  have hlen : l.length = b.entry.block := by simp [l, htaken]
  have hl : Launched s3 (startBlock s blk b) blk b (launchArgs s3 b) l := launchGroups_launched blk b _ l s3
  have hlast (key w : Nat) : lastReleased s2 key w = lastReleased s key w :=
    lastReleased_congr (by rw [hs2]; rfl) (by rw [hs2]; rfl) (fun _ => by rw [hs2]; rfl) key w
  have hcopies : s2.copies = s.copies := by
    rw [hs2]
    rfl
  refine ⟨?_, by rw [hl.length, hgroups, hlen], fun k hk => ?_, ?_, fun i hi => ?_⟩
  · rw [hl.rest, show s3 = _ from hacq.rest, hs2]
    rfl
  · rw [hl.rest] at hk
    simpa only [hlast, hcopies] using hacq.copies k hk
  · refine ⟨{ f { b with life := .running } with groups := b.groups ++ (List.range b.entry.block).map (fun i => s.groups.length + i) }, ?_, ?_, ?_⟩
    · rw [hl.blocks, hblocks, hlen, hgroups]
      simp only [List.getElem?_modify, hb, if_true, Option.map_some, Option.map_eq_map]
      rw [honly]
    · rw [honly]
    · intro sp p hp
      exact hleft sp p (by cases sp <;> exact hp)
  · have hil : i < l.length := by omega
    obtain ⟨grant, il, now, hg⟩ := hl.group i l[i] (List.getElem?_eq_getElem hil)
    refine ⟨l[i].2, grant, il, now, ?_⟩
    rw [hgroups, hargs] at hg
    simpa [l] using hg

theorem blockStart_step (s : State) (core blk : Nat) (l : List Nat) (b : Block) (x : Task) (hgang : gangBlock s core = none)
    (hd : (coreOf s core).deque = blk :: l) (hspawn : ((coreOf s core).spawnList.head?).any (spawnFits s core) = false)
    (hb : s.blocks[blk]? = some b) (hcore : b.core = core) (hx : b.task.bind (fun t => s.tasks[t]?) = some x)
    (hfree : b.entry.block ≤ (freeSlots s core).length) (hnew : ∀ gr ∈ s.groups, gr.block ≠ blk) :
    let n := s.groups.length
    ∃ t, exec (.blockStart core) s = .next t ∧ (coreOf t core).deque = l ∧ t.groups.length = n + b.entry.block ∧
      (∀ k ∈ t.copies, (k ∈ s.copies ∧ k.site ≠ .core core) ∨ (k.site = .core core ∧ ∃ key, k.val = lastReleased s key k.word)) ∧
      (∃ y : Block, t.blocks[blk]? = some y ∧ y = { b with life := .running, grans := y.grans, wb := y.wb, ab := y.ab, cb := y.cb, ls := y.ls, groups := b.groups ++ (List.range b.entry.block).map (fun i => n + i) }) ∧
      (∀ sp off x, winRead t blk sp off 1 = [x] → x = 0 ∨ ∃ g l k, tabFind (coreOf s core).left g = some (b.ctx, l) ∧ (k, x) ∈ l) ∧
      ∀ i, i < b.entry.block → ∃ gr : Group, t.groups[n + i]? = some gr ∧ gr.life = .live ∧ gr.block = blk ∧ gr.gid = i ∧ gr.place = core ∧ gr.ctx = b.ctx ∧
        gr.size = b.entry.size ∧ gr.vcount = b.entry.vcount ∧ gr.trapQ = [] ∧ gr.handler = none ∧ gr.fmask = 0 ∧ gr.tvec = 0 ∧ gr.prog = 0 ∧
        gr.read (.s 0) = x.words.getD 6 0 ∧ gr.read (.s 1) = x.words.getD 7 0 ∧ (∀ j, 2 ≤ j → gr.read (.s j) = 0) ∧
        (∀ th j, gr.read (.v th j) = 0 ∧ gr.read (.q th j) = 0) ∧ (∀ j, gr.read (.k j) = 0) ∧
        ∃ fr, gr.frags = [fr] ∧ fr.pc = b.entryVa ∧ fr.mask = firstThreads b.entry.size ∧ fr.wait = .run ∧ fr.toks = [] := by
  subst hcore
  intro n
  let s0 := modCore s b.core (fun k => { k with deque := l })
  have he : exec (.blockStart b.core) s = .next (startBlock s0 blk b) := by
    show execBlockStart b.core s = _
    simp only [execBlockStart, hgang, hspawn, hd, hb, Bool.false_eq_true, if_false]
    rfl
  have hcore0 : coreOf s0 b.core = { coreOf s b.core with deque := l } := coreOf_modCore_same _ _ _
  have h : Started s0 (startBlock s0 blk b) b.core blk b x := startBlock_started hb hx hfree hnew
  have hlast (key w : Nat) : lastReleased s0 key w = lastReleased s key w := lastReleased_congr rfl rfl (fun _ => rfl) key w
  obtain ⟨y, hy, hyeq, hleft⟩ := h.block
  refine ⟨_, he, ?_, h.length, fun k hk => ?_, ⟨y, hy, hyeq⟩, fun sp off z hz => ?_, fun i hi => ?_⟩
  · rw [coreOf, h.cores, ← coreOf, hcore0]
  · simpa only [hlast, s0, modCore_copies] using h.copies k hk
  · rcases winRead_one hy hz with hz | ⟨p, hp, rfl⟩
    · exact .inl hz
    · have hl := hleft sp p hp
      rw [LeftOn, hcore0] at hl
      exact .inr hl
  · obtain ⟨rslot, grant, il, now, hg⟩ := h.group i hi
    refine ⟨_, hg, rfl, rfl, rfl, rfl, rfl, rfl, rfl, rfl, rfl, rfl, rfl, rfl, ?_, ?_, fun j hj => ?_, fun _ _ => ⟨rfl, rfl⟩, fun _ => rfl,
      _, rfl, rfl, rfl, rfl, rfl⟩
    · exact (tabGet_uniFrom _ 0 0).trans rfl
    · exact (tabGet_uniFrom _ 0 1).trans rfl
    · refine (tabGet_uniFrom _ 0 j).trans ?_
      rw [if_pos (Nat.zero_le j)]
      exact List.getD_eq_default _ _ (by simpa using hj)

end Sys2Proof.Machine
end

section
/-! Dispatch, block starts and steals (O46). -/

open Sys2Proof.Machine in
/-- Settles O46: the placement of a record's first gang by induction on its blocks, ageing by the slot and the record that it names,
a start by its windows, its acquire and its groups in turn, a steal by induction on what is taken. -/
theorem dispatch : Obligations.Dispatch :=
  ⟨⟨dispatch_step, priorityAging_step⟩, blockStart_step, steal_step⟩

end

section
/-! SUPPORT. The fields of a word and of its extension word (R54, R58 to R66): what a word holds says which fields it was built from. -/

namespace Sys2Proof

/-! ### Fields -/

theorem bits_lt (w lo n : Nat) : bits w lo n < 2 ^ n := Nat.mod_lt _ (by positivity)

@[simp] theorem toNat_ofNat_bits (w lo n : Nat) : (BitVec.ofNat n (bits w lo n)).toNat = bits w lo n := by
  rw [BitVec.toNat_ofNat, Nat.mod_eq_of_lt (bits_lt w lo n)]

theorem nb_lt (b : Bool) : nb b < 2 := by cases b <;> decide

theorem bitAt_eq_iff (w i : Nat) (b : Bool) : bitAt w i = b ↔ bits w i 1 = nb b := by
  have := Nat.mod_two_eq_zero_or_one (w / 2 ^ i)
  rcases this with h | h <;> cases b <;> simp [bitAt, bits, nb, h]

theorem nb_bitAt (w i : Nat) : nb (bitAt w i) = bits w i 1 := ((bitAt_eq_iff w i _).1 rfl).symm

@[simp] theorem bits_eq_toNat_iff {n : Nat} (w lo : Nat) (v : BitVec n) : bits w lo n = v.toNat ↔ BitVec.ofNat n (bits w lo n) = v := by
  rw [← BitVec.toNat_inj, toNat_ofNat_bits]

/-- A number of 32 bits. -/
def Fits (n : Nat) : Prop := n < 2 ^ 32

/-- Word 0 of a cell: its set and its major (R54). -/
structure InCell (set : Bool) (major w : Nat) : Prop where
  fits : Fits w
  set : wSet w = set
  major : wMajor w = major

theorem inCell_iff {s : Bool} {mj w : Nat} : InCell s mj w ↔ w < 2 ^ 32 ∧ bits w 31 1 = nb s ∧ bits w 24 6 = mj := by
  rw [← bitAt_eq_iff]
  exact ⟨fun h => ⟨h.fits, h.set, h.major⟩, fun ⟨h1, h2, h3⟩ => ⟨h1, h2, h3⟩⟩

theorem word_eq_iff {b s : Bool} {mj body w : Nat} (hm : mj < 64) (hb : body < 2 ^ 24) :
    body + mj * 2 ^ 24 + nb b * 2 ^ 30 + nb s * 2 ^ 31 = w ↔ InCell s mj w ∧ wW w = b ∧ bits w 0 24 = body := by
  have hnb := nb_lt b
  have hns := nb_lt s
  rw [inCell_iff, wW, bitAt_eq_iff]
  simp only [bits]
  constructor
  · rintro rfl
    refine ⟨⟨?_, ?_, ?_⟩, ?_, ?_⟩ <;> omega
  · rintro ⟨⟨h1, h2, h3⟩, h4, h5⟩
    rw [pow_zero, Nat.div_one] at h5
    omega

theorem encL_eq_iff {b : Bool} {mj body w : Nat} (hm : mj < 64) (hb : body < 2 ^ 24) :
    encL b mj body = w ↔ InCell false mj w ∧ wW w = b ∧ bits w 0 24 = body := by
  rw [← word_eq_iff hm hb]; simp [encL, nb]

theorem encS_eq_iff {b : Bool} {mj body w : Nat} (hm : mj < 64) (hb : body < 2 ^ 24) :
    encS b mj body = w ↔ InCell true mj w ∧ wW w = b ∧ bits w 0 24 = body := by
  rw [← word_eq_iff hm hb]; simp [encS, nb]

@[simp] theorem encL3_eq_iff {b : Bool} {mj vd va vb w : Nat} (hm : mj < 64) (hvd : vd < 256) (hva : va < 256) (hvb : vb < 256) :
    encL b mj (bodyL3 vd va vb) = w ↔ InCell false mj w ∧ wW w = b ∧ bits w 16 8 = vd ∧ bits w 8 8 = va ∧ bits w 0 8 = vb := by
  rw [encL_eq_iff hm (by simp only [bodyL3]; omega)]
  simp only [bits, bodyL3, pow_zero, Nat.div_one, Nat.reducePow]
  refine and_congr_right' (and_congr_right' ?_)
  omega

/-- The guard bits [31:27] of E. -/
def Ext.guardBits (x : Ext) : Nat := x.gidx + nb x.gneg * 8 + nb x.gen * 16

theorem guardQ_eq_some_iff {x : Ext} (hx : x.gidx < 8) (g : Option GuardQ) : x.guardQ = some g ↔ x.guardBits * 2 ^ 27 = gq g := by
  obtain ⟨gen, neg, idx⟩ := x
  simp only [Ext.guardQ, Ext.guardBits] at *
  cases gen <;> cases neg <;> rcases g with _ | ⟨_ | _, q⟩ <;> simp [nb, gq, ← BitVec.toNat_inj] <;> omega

theorem guardK_eq_some_iff {x : Ext} (hx : x.gidx < 8) (g : Option GuardK) : x.guardK = some g ↔ x.guardBits * 2 ^ 27 = gk g := by
  obtain ⟨gen, neg, idx⟩ := x
  simp only [Ext.guardK, Ext.guardBits] at *
  cases gen <;> cases neg <;> rcases g with _ | ⟨_ | _, q⟩ <;> simp [nb, gk, ← BitVec.toNat_inj] <;> omega

theorem ext_eq_iff {e r t m v i : Nat} {g : Nat} (hr : r < 8) (ht : t < 16) (hm : m < 16) (hv : v < 256) (hi : i < 256) (hg : g < 32) :
    g * 2 ^ 27 + ext r t m v i = e ↔ Fits e ∧ (Ext.of e).guardBits = g ∧ (Ext.of e).rnd = r ∧ (Ext.of e).ty = t ∧
      (Ext.of e).md = m ∧ (Ext.of e).vc = v ∧ (Ext.of e).imm = i := by
  simp only [Fits, Ext.of, Ext.guardBits, nb_bitAt, ext, bits, pow_zero, Nat.div_one, Nat.reducePow]
  constructor
  · rintro rfl; refine ⟨?_, ?_, ?_, ?_, ?_, ?_, ?_⟩ <;> omega
  · rintro ⟨h1, h2, h3, h4, h5, h6, h7⟩
    omega

theorem gq_eq (g : Option GuardQ) : ∃ n < 32, gq g = n * 2 ^ 27 := by
  rcases g with _ | ⟨neg, q⟩
  · exact ⟨0, by decide, rfl⟩
  · exact ⟨q.toNat + nb neg * 8 + 16, by have := nb_lt neg; omega, rfl⟩

theorem gk_eq (g : Option GuardK) : ∃ n < 32, gk g = n * 2 ^ 27 := by
  rcases g with _ | ⟨neg, q⟩
  · exact ⟨0, by decide, rfl⟩
  · exact ⟨q.toNat + nb neg * 8 + 16, by have := nb_lt neg; omega, rfl⟩

@[simp] theorem extQ_eq_iff {e r t m v i : Nat} {g : Option GuardQ} (hr : r < 8) (ht : t < 16) (hm : m < 16) (hv : v < 256) (hi : i < 256) :
    gq g + ext r t m v i = e ↔ Fits e ∧ (Ext.of e).guardQ = some g ∧ (Ext.of e).rnd = r ∧ (Ext.of e).ty = t ∧
      (Ext.of e).md = m ∧ (Ext.of e).vc = v ∧ (Ext.of e).imm = i := by
  obtain ⟨n, hn, h⟩ := gq_eq g
  rw [guardQ_eq_some_iff (bits_lt ..), h, ext_eq_iff hr ht hm hv hi hn]
  simp only [Nat.mul_right_cancel_iff (show 0 < 2 ^ 27 by decide)]

@[simp] theorem extK_eq_iff {e r t m v i : Nat} {g : Option GuardK} (hr : r < 8) (ht : t < 16) (hm : m < 16) (hv : v < 256) (hi : i < 256) :
    gk g + ext r t m v i = e ↔ Fits e ∧ (Ext.of e).guardK = some g ∧ (Ext.of e).rnd = r ∧ (Ext.of e).ty = t ∧
      (Ext.of e).md = m ∧ (Ext.of e).vc = v ∧ (Ext.of e).imm = i := by
  obtain ⟨n, hn, h⟩ := gk_eq g
  rw [guardK_eq_some_iff (bits_lt ..), h, ext_eq_iff hr ht hm hv hi hn]
  simp only [Nat.mul_right_cancel_iff (show 0 < 2 ^ 27 by decide)]

/-! ### Bounds -/
@[simp] theorem toNat8_lt (v : BitVec 8) : v.toNat < 256 := v.isLt

/-! ### Codes -/
@[simp] theorem need_eq_some (b : Bool) (u : Unit) : need b = some u ↔ b = true := by cases b <;> simp [need]

@[simp] theorem IntTy.ofCode_eq_some {n : Nat} {t : IntTy} : IntTy.ofCode n = some t ↔ n = t.code :=
  ⟨by fun_cases IntTy.ofCode n <;> rintro ⟨⟩ <;> rfl, by rintro rfl; cases t <;> rfl⟩
@[simp] theorem IntTy.code_lt (t : IntTy) : t.code < 16 := by cases t <;> decide
@[simp] theorem FTy.ofCode_eq_some {n : Nat} {t : FTy} : FTy.ofCode n = some t ↔ n = t.code :=
  ⟨by fun_cases FTy.ofCode n <;> rintro ⟨⟩ <;> rfl, by rintro rfl; cases t <;> rfl⟩
@[simp] theorem FTy.code_lt (t : FTy) : t.code < 16 := by cases t <;> decide
@[simp] theorem BTy.ofCode_eq_some {n : Nat} {t : BTy} : BTy.ofCode n = some t ↔ n = t.code :=
  ⟨by fun_cases BTy.ofCode n <;> rintro ⟨⟩ <;> rfl, by rintro rfl; cases t <;> rfl⟩
@[simp] theorem BTy.code_lt (t : BTy) : t.code < 16 := by cases t <;> decide
@[simp] theorem BfTy.ofCode_eq_some {n : Nat} {t : BfTy} : BfTy.ofCode n = some t ↔ n = t.code :=
  ⟨by fun_cases BfTy.ofCode n <;> rintro ⟨⟩ <;> rfl, by rintro rfl; cases t <;> rfl⟩
@[simp] theorem BfTy.code_lt (t : BfTy) : t.code < 16 := by cases t <;> decide
@[simp] theorem IdxTy.ofCode_eq_some {n : Nat} {t : IdxTy} : IdxTy.ofCode n = some t ↔ n = t.code :=
  ⟨by fun_cases IdxTy.ofCode n <;> rintro ⟨⟩ <;> rfl, by rintro rfl; cases t <;> rfl⟩
@[simp] theorem IdxTy.code_lt (t : IdxTy) : t.code < 16 := by cases t <;> decide
@[simp] theorem PackTy.ofCode_eq_some {n : Nat} {t : PackTy} : PackTy.ofCode n = some t ↔ n = t.code :=
  ⟨by fun_cases PackTy.ofCode n <;> rintro ⟨⟩ <;> rfl, by rintro rfl; cases t <;> rfl⟩
@[simp] theorem PackTy.code_lt (t : PackTy) : t.code < 16 := by cases t <;> decide
@[simp] theorem MatTy.ofCode_eq_some {n : Nat} {t : MatTy} : MatTy.ofCode n = some t ↔ n = t.code :=
  ⟨by fun_cases MatTy.ofCode n <;> rintro ⟨⟩ <;> rfl, by rintro rfl; cases t <;> rfl⟩
@[simp] theorem MatTy.code_lt (t : MatTy) : t.code < 16 := by cases t <;> decide
@[simp] theorem SpTy.ofCode_eq_some {n : Nat} {t : SpTy} : SpTy.ofCode n = some t ↔ n = t.code :=
  ⟨by fun_cases SpTy.ofCode n <;> rintro ⟨⟩ <;> rfl, by rintro rfl; cases t <;> rfl⟩
@[simp] theorem SpTy.code_lt (t : SpTy) : t.code < 16 := by cases t <;> decide
@[simp] theorem AtomTy.ofCode_eq_some {n : Nat} {t : AtomTy} : AtomTy.ofCode n = some t ↔ n = t.code :=
  ⟨by fun_cases AtomTy.ofCode n <;> rintro ⟨⟩ <;> rfl, by rintro rfl; cases t <;> rfl⟩
@[simp] theorem AtomTy.code_lt (t : AtomTy) : t.code < 16 := by cases t <;> decide
@[simp] theorem Rnd.ofCode_eq_some {n : Nat} {t : Rnd} : Rnd.ofCode n = some t ↔ n = t.code :=
  ⟨by fun_cases Rnd.ofCode n <;> rintro ⟨⟩ <;> rfl, by rintro rfl; cases t <;> rfl⟩
@[simp] theorem Rnd.code_lt (t : Rnd) : t.code < 8 := by cases t <;> decide
@[simp] theorem ICond.ofCode_eq_some {n : Nat} {t : ICond} : ICond.ofCode n = some t ↔ n = t.code :=
  ⟨by fun_cases ICond.ofCode n <;> rintro ⟨⟩ <;> rfl, by rintro rfl; cases t <;> rfl⟩
@[simp] theorem ICond.code_lt (t : ICond) : t.code < 16 := by cases t <;> decide
@[simp] theorem FCond.ofCode_eq_some {n : Nat} {t : FCond} : FCond.ofCode n = some t ↔ n = t.code :=
  ⟨by fun_cases FCond.ofCode n <;> rintro ⟨⟩ <;> rfl, by rintro rfl; cases t <;> rfl⟩
@[simp] theorem FCond.code_lt (t : FCond) : t.code < 16 := by cases t <;> decide
@[simp] theorem QFn.ofCode_eq_some {n : Nat} {t : QFn} : QFn.ofCode n = some t ↔ n = t.code :=
  ⟨by fun_cases QFn.ofCode n <;> rintro ⟨⟩ <;> rfl, by rintro rfl; cases t <;> rfl⟩
@[simp] theorem QFn.code_lt (t : QFn) : t.code < 8 := by cases t <;> decide
@[simp] theorem SpecialReg.ofCode_eq_some {n : Nat} {t : SpecialReg} : SpecialReg.ofCode n = some t ↔ n = t.code :=
  ⟨by fun_cases SpecialReg.ofCode n <;> rintro ⟨⟩ <;> rfl, by rintro rfl; cases t <;> rfl⟩
@[simp] theorem SpecialReg.code_lt (t : SpecialReg) : t.code < 256 := by cases t <;> decide
@[simp] theorem Seg.ofCode_eq_some {n : Nat} {t : Seg} : Seg.ofCode n = some t ↔ n = t.code :=
  ⟨by fun_cases Seg.ofCode n <;> rintro ⟨⟩ <;> rfl, by rintro rfl; cases t <;> rfl⟩
@[simp] theorem Seg.code_lt (t : Seg) : t.code < 4 := by cases t <;> decide
@[simp] theorem ShflMode.ofCode_eq_some {n : Nat} {t : ShflMode} : ShflMode.ofCode n = some t ↔ n = t.code :=
  ⟨by fun_cases ShflMode.ofCode n <;> rintro ⟨⟩ <;> rfl, by rintro rfl; cases t <;> rfl⟩
@[simp] theorem ShflMode.code_lt (t : ShflMode) : t.code < 8 := by cases t <;> decide
@[simp] theorem Order.ofCode_eq_some {n : Nat} {t : Order} : Order.ofCode n = some t ↔ n = t.code :=
  ⟨by fun_cases Order.ofCode n <;> rintro ⟨⟩ <;> rfl, by rintro rfl; cases t <;> rfl⟩
@[simp] theorem Order.code_lt (t : Order) : t.code < 4 := by cases t <;> decide
@[simp] theorem RedIntFn.ofCode_eq_some {n : Nat} {t : RedIntFn} : RedIntFn.ofCode n = some t ↔ n = t.code :=
  ⟨by fun_cases RedIntFn.ofCode n <;> rintro ⟨⟩ <;> rfl, by rintro rfl; cases t <;> rfl⟩
@[simp] theorem RedIntFn.code_lt (t : RedIntFn) : t.code < 256 := by cases t <;> decide
@[simp] theorem Count.ofCode_eq_some {n : Nat} {t : Count} : Count.ofCode n = some t ↔ n = t.code :=
  ⟨by fun_cases Count.ofCode n <;> rintro ⟨⟩ <;> rfl, by rintro rfl; cases t <;> rfl⟩
@[simp] theorem Count.code_lt (t : Count) : t.code < 4 := by cases t <;> decide
@[simp] theorem GWidth.ofCode_eq_some {n : Nat} {t : GWidth} : GWidth.ofCode n = some t ↔ n = t.code :=
  ⟨by fun_cases GWidth.ofCode n <;> rintro ⟨⟩ <;> rfl, by rintro rfl; cases t <;> rfl⟩
@[simp] theorem GWidth.code_lt (t : GWidth) : t.code < 4 := by cases t <;> decide
@[simp] theorem AtomFn.ofCode_eq_some {n : Nat} {t : AtomFn} : AtomFn.ofCode n = some t ↔ n = t.code :=
  ⟨by fun_cases AtomFn.ofCode n <;> rintro ⟨⟩ <;> rfl, by rintro rfl; cases t <;> rfl⟩
@[simp] theorem AtomFn.code_lt (t : AtomFn) : t.code < 8 := by cases t <;> decide
@[simp] theorem Chunk.ofCode_eq_some {n : Nat} {t : Chunk} : Chunk.ofCode n = some t ↔ n = t.code :=
  ⟨by fun_cases Chunk.ofCode n <;> rintro ⟨⟩ <;> rfl, by rintro rfl; cases t <;> rfl⟩
@[simp] theorem Chunk.code_lt (t : Chunk) : t.code < 8 := by cases t <;> decide
@[simp] theorem FillSpace.ofCode_eq_some {n : Nat} {t : FillSpace} : FillSpace.ofCode n = some t ↔ n = t.code :=
  ⟨by fun_cases FillSpace.ofCode n <;> rintro ⟨⟩ <;> rfl, by rintro rfl; cases t <;> rfl⟩
@[simp] theorem FillSpace.code_lt (t : FillSpace) : t.code < 4 := by cases t <;> decide
@[simp] theorem SldSz.ofCode_eq_some {n : Nat} {t : SldSz} : SldSz.ofCode n = some t ↔ n = t.code :=
  ⟨by fun_cases SldSz.ofCode n <;> rintro ⟨⟩ <;> rfl, by rintro rfl; cases t <;> rfl⟩
@[simp] theorem SldSz.code_lt (t : SldSz) : t.code < 8 := by cases t <;> decide
@[simp] theorem SstSz.ofCode_eq_some {n : Nat} {t : SstSz} : SstSz.ofCode n = some t ↔ n = t.code :=
  ⟨by fun_cases SstSz.ofCode n <;> rintro ⟨⟩ <;> rfl, by rintro rfl; cases t <;> rfl⟩
@[simp] theorem SstSz.code_lt (t : SstSz) : t.code < 8 := by cases t <;> decide
@[simp] theorem MntLevel.ofCode_eq_some {n : Nat} {t : MntLevel} : MntLevel.ofCode n = some t ↔ n = t.code :=
  ⟨by fun_cases MntLevel.ofCode n <;> rintro ⟨⟩ <;> rfl, by rintro rfl; cases t <;> rfl⟩
@[simp] theorem MntLevel.code_lt (t : MntLevel) : t.code < 8 := by cases t <;> decide
@[simp] theorem BSide.ofCode_eq_some {n : Nat} {t : BSide} : BSide.ofCode n = some t ↔ n = t.code :=
  ⟨by fun_cases BSide.ofCode n <;> rintro ⟨⟩ <;> rfl, by rintro rfl; cases t <;> rfl⟩
@[simp] theorem BSide.code_lt (t : BSide) : t.code < 16 := by cases t <;> decide
@[simp] theorem Src.vb_lt (b : Src) : b.vb < 256 := by cases b <;> simp [Src.vb]
@[simp] theorem Src.imm8_lt (b : Src) : b.imm8 < 256 := by cases b <;> simp [Src.imm8]
@[simp] theorem mdBits_lt (f s i v : Bool) : mdBits f s i v < 16 := by cases f <;> cases s <;> cases i <;> cases v <;> decide

@[simp] theorem md_eq_mdBits (e : Nat) (f s i v : Bool) : (Ext.of e).md = mdBits f s i v ↔
    (Ext.of e).f = f ∧ (Ext.of e).s = s ∧ (Ext.of e).i = i ∧ (Ext.of e).v = v := by
  have := bits_lt e 16 4
  have hf := nb_lt f
  have hs := nb_lt s
  have hi := nb_lt i
  have hv := nb_lt v
  simp only [Ext.f, Ext.s, Ext.i, Ext.v, bitAt_eq_iff, bits, Ext.of, mdBits, pow_zero, Nat.div_one, Nat.reducePow] at *
  omega

@[simp] theorem srcB_eq_some {w e : Nat} {b : Src} : srcB w (Ext.of e) = some b ↔ (Ext.of e).i = b.isImm ∧ bits w 0 8 = b.vb ∧ (Ext.of e).imm = b.imm8 := by
  have h : (Ext.of e).imm = bits e 0 8 := rfl
  cases hi : (Ext.of e).i <;> rcases b with v | v <;>
    simp [srcB, hi, h, wVb, l8, Src.isImm, Src.vb, Src.imm8, ← BitVec.toNat_inj, and_comm]

/-! ### Parts of the modifier field -/

theorem md_low_iff {e a : Nat} (s f : Bool) (ha : a < 4) : (Ext.of e).md = a + nb s * 4 + nb f * 8 ↔
    bits (Ext.of e).md 0 2 = a ∧ (Ext.of e).s = s ∧ (Ext.of e).f = f := by
  have hmd : (Ext.of e).md < 16 := bits_lt e 16 4
  have hs := nb_lt s
  have hf := nb_lt f
  simp only [Ext.s, Ext.f, bitAt_eq_iff, bits, pow_zero, Nat.div_one, Nat.reducePow]
  omega

theorem md_high_iff {e a : Nat} (v i : Bool) (ha : a < 4) : (Ext.of e).md = nb v + nb i * 2 + a * 4 ↔
    (Ext.of e).v = v ∧ (Ext.of e).i = i ∧ bits (Ext.of e).md 2 2 = a := by
  have hmd : (Ext.of e).md < 16 := bits_lt e 16 4
  have hv := nb_lt v
  have hi := nb_lt i
  simp only [Ext.v, Ext.i, bitAt_eq_iff, bits, pow_zero, Nat.div_one, Nat.reducePow]
  omega

theorem md_self (e : Nat) : (Ext.of e).md = mdBits (Ext.of e).f (Ext.of e).s (Ext.of e).i (Ext.of e).v :=
  (md_eq_mdBits e _ _ _ _).2 ⟨rfl, rfl, rfl, rfl⟩

@[simp] theorem vc_lt (e : Nat) : (Ext.of e).vc < 256 := bits_lt e 8 8
@[simp] theorem imm_lt (e : Nat) : (Ext.of e).imm < 256 := bits_lt e 0 8
@[simp] theorem rnd_lt (e : Nat) : (Ext.of e).rnd < 8 := bits_lt e 24 3

/-! ### Scopes -/
@[simp] theorem Scope.code_lt (s : Scope) : s.code < 8 := by cases s <;> simp [Scope.code]
@[simp] theorem Scope.hop_lt (s : Scope) : s.hop < 16 := by cases s <;> simp only [Scope.hop] <;> omega
@[simp] theorem scopeBits_lt (s : Scope) : scopeBits s < 256 := by
  have := s.code_lt
  have := s.hop_lt
  simp only [scopeBits]; omega

theorem Scope.ofCode_eq_some {c hop : Nat} {s : Scope} (hh : hop < 16) : Scope.ofCode c hop = some s ↔ c = s.code ∧ hop = s.hop := by
  constructor
  · fun_cases Scope.ofCode c hop <;> rintro ⟨⟩ <;> simp [Scope.code, Scope.hop]
    omega
  · rintro ⟨rfl, rfl⟩
    cases s <;> simp [Scope.ofCode, Scope.code, Scope.hop]

@[simp] theorem Ext.scope_eq_some {e : Nat} {s : Scope} : (Ext.of e).scope = some s ↔ (Ext.of e).vc = scopeBits s := by
  have hc := s.code_lt
  have hh := s.hop_lt
  have hv := vc_lt e
  rw [Ext.scope, Option.ite_none_right_eq_some, Scope.ofCode_eq_some (bits_lt ..), beq_iff_eq]
  simp only [scopeBits, bits, pow_zero, Nat.div_one, Nat.reducePow]
  omega

@[simp] theorem Ext.wideScope_eq_some {a : WideScope} {e : Nat} : (Ext.of e).wideScope = some a ↔ (Ext.of e).vc = scopeBits a.toScope := by
  rw [← Ext.scope_eq_some, Ext.wideScope]
  generalize (Ext.of e).scope = s
  rcases s with _ | s
  · simp
  · cases s <;> cases a <;> simp [WideScope.toScope]

/-! ### Operations and types -/

@[simp] theorem AtomKind.op_lt (k : AtomKind) : k.op < 16 := by cases k <;> simp [AtomKind.op]; have := AtomFn.code_lt ‹_›; omega
@[simp] theorem AtomKind.ty_lt (k : AtomKind) : k.ty < 16 := by cases k <;> simp [AtomKind.ty]
@[simp] theorem atomKind_eq_some {op ty : Nat} {k : AtomKind} : atomKind op ty = some k ↔ op = k.op ∧ ty = k.ty := by
  by_cases h8 : op = 8
  · subst h8
    cases k with
    | int f t => have := f.code_lt; simp only [atomKind, AtomKind.op]; split <;> simp <;> omega
    | fadd32 | fadd64 => simp only [atomKind, AtomKind.op, AtomKind.ty]; split <;> simp_all
  · rw [atomKind]
    · cases k <;> simp [AtomKind.op, AtomKind.ty, h8, Option.bind_eq_some_iff]
    · exact h8

theorem IntTy.ofCode_code (t : IntTy) : IntTy.ofCode t.code = some t := IntTy.ofCode_eq_some.2 rfl
theorem FTy.ofCode_code (t : FTy) : FTy.ofCode t.code = some t := FTy.ofCode_eq_some.2 rfl
theorem IntTy.ofCode_of_flt (t : FTy) : IntTy.ofCode t.code = none := by cases t <;> rfl
theorem FTy.ofCode_of_int (t : IntTy) : FTy.ofCode t.code = none := by cases t <;> rfl

theorem Rnd.code_inj {m m' : Rnd} : m.code = m'.code ↔ m = m' := by cases m <;> cases m' <;> decide

theorem mdBits_inj : ∀ f s f' s', mdBits f s false false = mdBits f' s' false false ↔ f = f' ∧ s = s' := by decide

theorem cvtPair_eq_some {s d : Nat} {m : Rnd} {f sat : Bool} {p : CvtPair} :
    cvtPair s d m f sat = some p ↔ s = p.src ∧ d = p.dst ∧ m.code = p.rnd ∧ mdBits f sat false false = p.md ∧ p.ok = true := by
  constructor
  · fun_cases cvtPair s d m f sat <;> simp_all
    all_goals (rintro rfl; simp_all [CvtPair.src, CvtPair.dst, CvtPair.rnd, CvtPair.md, CvtPair.ok])
  · rintro ⟨rfl, rfl, hm, hmd, ok⟩
    cases p <;> simp_all [CvtPair.src, CvtPair.dst, CvtPair.rnd, CvtPair.md, CvtPair.ok, Rnd.code_inj, mdBits_inj, cvtPair,
      IntTy.ofCode_code, FTy.ofCode_code, IntTy.ofCode_of_flt, FTy.ofCode_of_int]

@[simp] theorem redFn_eq_some {ty op rnd : Nat} {ftz : Bool} {f : RedFn} :
    redFn ty op rnd ftz = some f ↔ ty = f.ty ∧ op = f.op ∧ rnd = f.rnd ∧ ftz = f.ftz := by
  constructor
  · cases f <;> fun_cases redFn ty op rnd ftz <;> simp_all [RedFn.ty, RedFn.op, RedFn.rnd, RedFn.ftz]
  · rintro ⟨rfl, rfl, rfl, rfl⟩
    cases f <;> simp [redFn, RedFn.ty, RedFn.op, RedFn.rnd, RedFn.ftz, IntTy.ofCode_code, FTy.ofCode_code, IntTy.ofCode_of_flt, FTy.ofCode_of_int]

@[simp] theorem voteFn_eq_some {d : Bool} {op vd : Nat} {f : VoteFn} (h : vd < 256) :
    voteFn d op vd = some f ↔ d = f.d ∧ op = f.op ∧ vd = f.dest := by
  constructor
  · fun_cases voteFn d op vd <;> rintro ⟨⟩ <;> simp [VoteFn.d, VoteFn.op, VoteFn.dest] <;> omega
  · rintro ⟨rfl, rfl, rfl⟩
    cases f <;> simp [voteFn, VoteFn.d, VoteFn.op, VoteFn.dest] <;> omega

@[simp] theorem RowTy.of_eq_some {c vc : Nat} {t : RowTy} (h : vc < 256) : RowTy.of c vc = some t ↔ c = t.code ∧ vc = t.vc := by
  constructor
  · fun_cases RowTy.of c vc <;> rintro ⟨⟩ <;> simp_all [RowTy.code, RowTy.vc] <;> omega
  · rintro ⟨rfl, rfl⟩
    cases t <;> simp [RowTy.of, RowTy.code, RowTy.vc]

@[simp] theorem memAddr_eq_some {w e : Nat} {a : Addr} : memAddr w (Ext.of e) = some a ↔
    bits w 0 2 = a.am ∧ s6 w 2 = a.sb ∧ bits w 8 8 = a.va ∧ (Ext.of e).imm = a.disp.toNat := by
  have hva : ∀ v : BitVec 8, bits w 8 8 = v.toNat ↔ wVa w = v := bits_eq_toNat_iff w 8
  have himm : (Ext.of e).imm = a.disp.toNat ↔ BitVec.ofNat 8 (Ext.of e).imm = a.disp := bits_eq_toNat_iff e 0 _
  have ham := bits_lt w 0 2
  obtain h | h | h | h : bits w 0 2 = 0 ∨ bits w 0 2 = 1 ∨ bits w 0 2 = 2 ∨ bits w 0 2 = 3 := by omega
  all_goals
    obtain ⟨sb, idx, d⟩ := a
    cases idx <;> simp [memAddr, Addr.va, Addr.am, h, hva, himm, and_left_comm]

theorem md_eq_gMd {e : Nat} {x : GIndex} : (Ext.of e).md = gMd x ↔
    (Ext.of e).v = false ∧ (Ext.of e).i = x.signed ∧ bits (Ext.of e).md 2 2 = x.width.code := by
  rw [gMd, ← Nat.zero_add (nb x.signed * 2)]
  exact md_high_iff false _ (GWidth.code_lt _)

@[simp] theorem gIndex_eq_some {w e : Nat} {x : GIndex} : gIndex w (Ext.of e) = some x ↔
    bits w 0 2 = 2 ∧ s6 w 2 = x.sb ∧ wVa w = x.va ∧ (Ext.of e).rnd = x.sh.toNat ∧ (Ext.of e).md = gMd x ∧ (Ext.of e).imm = x.disp.toNat := by
  obtain ⟨sb, va, wd, sg, sh, d⟩ := x
  have himm : (Ext.of e).imm = d.toNat ↔ BitVec.ofNat 8 (Ext.of e).imm = d := bits_eq_toNat_iff e 0 d
  have hsh : (Ext.of e).rnd = sh.toNat ↔ BitVec.ofNat 3 (Ext.of e).rnd = sh := bits_eq_toNat_iff e 24 sh
  simp only [gIndex, himm, hsh, md_eq_gMd, Option.bind_eq_bind, Option.bind_eq_some_iff, GWidth.ofCode_eq_some, need_eq_some, Bool.and_eq_true,
    beq_iff_eq, Bool.not_eq_true', Option.pure_def, Option.some.injEq, GIndex.mk.injEq]
  constructor
  · rintro ⟨_, h, -, ⟨h2, hv⟩, hsb, hva, rfl, hi, hsh, hd⟩
    exact ⟨h2, hsb, hva, hsh, ⟨hv, hi, h⟩, hd⟩
  · rintro ⟨h2, hsb, hva, hsh, ⟨hv, hi, h⟩, hd⟩
    exact ⟨wd, h, (), ⟨h2, hv⟩, hsb, hva, rfl, hi, hsh, hd⟩

@[simp] theorem bitField_eq_reg {w e : Nat} {v : BitVec 8} : bitField w (Ext.of e) = some (.reg v) ↔
    (Ext.of e).i = false ∧ wVb w = v ∧ (Ext.of e).imm = 0 := by
  cases hi : (Ext.of e).i <;> simp [bitField, hi, and_comm]

@[simp] theorem bitField_eq_imm {w e : Nat} {p l : BitVec 8} : bitField w (Ext.of e) = some (.imm p l) ↔
    (Ext.of e).i = true ∧ wVb w = l ∧ (Ext.of e).imm = p.toNat := by
  have himm : (Ext.of e).imm = p.toNat ↔ BitVec.ofNat 8 (Ext.of e).imm = p := bits_eq_toNat_iff e 0 p
  cases hi : (Ext.of e).i <;> simp [bitField, hi, himm, and_comm]

theorem drainTy_eq_some {acc : AccTy} {ty rnd vc : Nat} {dt : DrainTy} (h : vc < 256) :
    drainTy acc ty rnd vc = some dt → ty = dt.code ∧ rnd = dt.rnd ∧ vc = dt.vc := by
  have hvc : ∀ v : BitVec 8, BitVec.ofNat 8 vc = v → vc = v.toNat := by rintro _ rfl; simp; omega
  cases dt <;> simp only [drainTy, DrainTy.code, DrainTy.rnd, DrainTy.vc] <;> split <;> simp +contextual <;> exact fun _ => hvc _

theorem drainTy_of_regOk {dt : DrainTy} {st : MatTy} {lc : Nat} : drainRegOk dt st lc = true → drainTy st.acc dt.code dt.rnd dt.vc = some dt := by
  fun_cases drainRegOk dt st lc <;> simp_all [drainTy, DrainTy.code, DrainTy.rnd, DrainTy.vc]

theorem drainTy_of_memOk {dt : DrainTy} {st : MatTy} : drainMemOk dt st = true → drainTy st.acc dt.code dt.rnd dt.vc = some dt := by
  fun_cases drainMemOk dt st <;> simp_all [drainTy, DrainTy.code, DrainTy.rnd, DrainTy.vc]

end Sys2Proof
end

section
/-! SUPPORT. The formats of the instruction words (R56, R57), and what a decoder and the encoder owe one another. -/

namespace Sys2Proof

@[simp] theorem wVd_eq (w : Nat) : wVd w = BitVec.ofNat 8 (bits w 16 8) := rfl
@[simp] theorem wVa_eq (w : Nat) : wVa w = BitVec.ofNat 8 (bits w 8 8) := rfl
@[simp] theorem wVb_eq (w : Nat) : wVb w = BitVec.ofNat 8 (bits w 0 8) := rfl
@[simp] theorem wQd_eq (w : Nat) : wQd w = BitVec.ofNat 3 (bits w 21 3) := rfl
@[simp] theorem bits_lt_of_le {w lo n m : Nat} (h : 2 ^ n ≤ m) : bits w lo n < m := (bits_lt w lo n).trans_le h
@[simp] theorem bits_mod {w lo n m : Nat} (h : 2 ^ n = m) : bits w lo n % m = bits w lo n := Nat.mod_eq_of_lt (h ▸ bits_lt w lo n)
@[simp] theorem vc_eq_toNat (e : Nat) (v : BitVec 8) : (Ext.of e).vc = v.toNat ↔ BitVec.ofNat 8 (Ext.of e).vc = v := bits_eq_toNat_iff e 8 v
@[simp] theorem imm_eq_toNat (e : Nat) (v : BitVec 8) : (Ext.of e).imm = v.toNat ↔ BitVec.ofNat 8 (Ext.of e).imm = v := bits_eq_toNat_iff e 0 v
@[simp] theorem rnd_eq_toNat (e : Nat) (v : BitVec 3) : (Ext.of e).rnd = v.toNat ↔ BitVec.ofNat 3 (Ext.of e).rnd = v := bits_eq_toNat_iff e 24 v
@[simp] theorem vc_mod (e : Nat) : (Ext.of e).vc % 256 = (Ext.of e).vc := Nat.mod_eq_of_lt (vc_lt e)
@[simp] theorem imm_mod (e : Nat) : (Ext.of e).imm % 256 = (Ext.of e).imm := Nat.mod_eq_of_lt (imm_lt e)
@[simp] theorem rnd_mod (e : Nat) : (Ext.of e).rnd % 8 = (Ext.of e).rnd := Nat.mod_eq_of_lt (rnd_lt e)

@[simp] theorem encLC_eq_iff {b : Bool} {mj qd c va vb w : Nat} (hm : mj < 64) (hqd : qd < 8) (hc : c < 16) (hva : va < 256) (hvb : vb < 256) :
    encL b mj (bodyLC qd c va vb) = w ↔ InCell false mj w ∧ wW w = b ∧ bits w 21 3 = qd ∧ wCond w = c ∧ bits w 8 8 = va ∧ bits w 0 8 = vb := by
  rw [encL_eq_iff hm (by simp only [bodyLC]; omega)]
  simp only [wCond, bits, bodyLC, pow_zero, Nat.div_one, Nat.reducePow]
  refine and_congr_right' (and_congr_right' ?_)
  omega

@[simp] theorem encLM_eq_iff {b : Bool} {mj vt va sb am w : Nat} (hm : mj < 64) (hvt : vt < 256) (hva : va < 256) (hsb : sb < 64) (ham : am < 4) :
    encL b mj (bodyLM vt va sb am) = w ↔ InCell false mj w ∧ wW w = b ∧ bits w 16 8 = vt ∧ bits w 8 8 = va ∧ bits w 2 6 = sb ∧ bits w 0 2 = am := by
  rw [encL_eq_iff hm (by simp only [bodyLM]; omega)]
  simp only [bits, bodyLM, pow_zero, Nat.div_one, Nat.reducePow]
  refine and_congr_right' (and_congr_right' ?_)
  omega

@[simp] theorem encLX_eq_iff {b : Bool} {mj va sw sc fl w : Nat} (hm : mj < 64) (hva : va < 256) (hsw : sw < 64) (hsc : sc < 64) (hfl : fl < 16) :
    encL b mj (bodyLX va sw sc fl) = w ↔ InCell false mj w ∧ wW w = b ∧ bits w 16 8 = va ∧ bits w 10 6 = sw ∧ bits w 4 6 = sc ∧ bits w 0 4 = fl := by
  rw [encL_eq_iff hm (by simp only [bodyLX]; omega)]
  simp only [bits, bodyLX, pow_zero, Nat.div_one, Nat.reducePow]
  refine and_congr_right' (and_congr_right' ?_)
  omega

@[simp] theorem encMovi_eq_iff {b : Bool} {mj vd imm w : Nat} (hm : mj < 64) (hvd : vd < 256) (hi : imm < 65536) :
    encL b mj (imm + vd * 65536) = w ↔ InCell false mj w ∧ wW w = b ∧ bits w 16 8 = vd ∧ bits w 0 16 = imm := by
  rw [encL_eq_iff hm (by omega)]
  simp only [bits, pow_zero, Nat.div_one, Nat.reducePow]
  refine and_congr_right' (and_congr_right' ?_)
  omega

@[simp] theorem encMoviw_eq_iff {b : Bool} {mj vd w : Nat} (hm : mj < 64) (hvd : vd < 256) :
    encL b mj (vd * 65536) = w ↔ InCell false mj w ∧ wW w = b ∧ bits w 16 8 = vd ∧ bits w 0 16 = 0 := by
  simpa using encMovi_eq_iff (b := b) (w := w) hm hvd (show 0 < 65536 by decide)

@[simp] theorem encBrd_eq_iff {b : Bool} {mj q neg tok off w : Nat} (hm : mj < 64) (hq : q < 8) (hn : neg < 2) (ht : tok < 16) (ho : off < 65536) :
    encL b mj (off + tok * 65536 + neg * 1048576 + q * 2097152) = w ↔
      InCell false mj w ∧ wW w = b ∧ bits w 21 3 = q ∧ bits w 20 1 = neg ∧ bits w 16 4 = tok ∧ bits w 0 16 = off := by
  rw [encL_eq_iff hm (by omega)]
  simp only [bits, pow_zero, Nat.div_one, Nat.reducePow]
  refine and_congr_right' (and_congr_right' ?_)
  omega

theorem encJoin_eq_iff {b : Bool} {mj tok w : Nat} (hm : mj < 64) (ht : tok < 16) :
    encL b mj (tok * 65536) = w ↔ InCell false mj w ∧ wW w = b ∧ bits w 20 4 = 0 ∧ bits w 16 4 = tok ∧ bits w 0 16 = 0 := by
  rw [encL_eq_iff hm (by omega)]
  simp only [bits, pow_zero, Nat.div_one, Nat.reducePow]
  refine and_congr_right' (and_congr_right' ?_)
  omega

@[simp] theorem encQop_eq_iff {b : Bool} {mj f qb qa qd w : Nat} (hm : mj < 64) (hf : f < 8) (hqb : qb < 8) (hqa : qa < 8) (hqd : qd < 8) :
    encL b mj (f * 4096 + qb * 32768 + qa * 262144 + qd * 2097152) = w ↔
      InCell false mj w ∧ wW w = b ∧ bits w 21 3 = qd ∧ bits w 18 3 = qa ∧ bits w 15 3 = qb ∧ bits w 12 3 = f ∧ bits w 0 12 = 0 := by
  rw [encL_eq_iff hm (by omega)]
  simp only [bits, pow_zero, Nat.div_one, Nat.reducePow]
  refine and_congr_right' (and_congr_right' ?_)
  omega

@[simp] theorem toNat6_lt (v : BitVec 6) : v.toNat < 64 := v.isLt
@[simp] theorem toNat4_lt (v : BitVec 4) : v.toNat < 16 := v.isLt
@[simp] theorem toNat3_lt (v : BitVec 3) : v.toNat < 8 := v.isLt
@[simp] theorem toNat2_lt (v : BitVec 2) : v.toNat < 4 := v.isLt
@[simp] theorem toNat16_lt (v : BitVec 16) : v.toNat < 65536 := v.isLt
@[simp] theorem fits_zero : Fits 0 := Nat.two_pow_pos 32
@[simp] theorem fits_toNat (v : BitVec 32) : Fits v.toNat := v.isLt
@[simp] theorem nb_le_one (b : Bool) : nb b ≤ 1 := by cases b <;> decide
@[simp] theorem bitAt_eq (w i : Nat) : bits w i 1 = nb b ↔ bitAt w i = b := (bitAt_eq_iff w i b).symm
@[simp] theorem s6_eq (w lo : Nat) : s6 w lo = BitVec.ofNat 6 (bits w lo 6) := rfl

/-- What a one-word instruction encodes to lies in `S` and decodes to it. -/
def Decodes1 {α : Type} (S : Nat → Prop) (dec : Nat → Option Instr) (mk : α → Instr) : Prop :=
  ∀ o w, (mk o).wf = true → encode (mk o) = some (w, none) → S w ∧ dec w = some (mk o)
/-- What `dec` gives for a word of `S` keeps the operand rules and encodes to that word. -/
def Encodes1 (S : Nat → Prop) (dec : Nat → Option Instr) : Prop :=
  ∀ w i, S w → dec w = some i → i.wf = true ∧ encode i = some (w, none)
/-- The same for a two-word instruction. -/
def Decodes2 {α : Type} (S : Nat → Prop) (dec : Nat → Nat → Option Instr) (mk : α → Instr) : Prop :=
  ∀ o w e, (mk o).wf = true → encode (mk o) = some (w, some e) → S w ∧ Fits e ∧ dec w e = some (mk o)
/-- The same for a decoder of two words. -/
def Encodes2 (S : Nat → Prop) (dec : Nat → Nat → Option Instr) : Prop :=
  ∀ w e i, S w → Fits e → dec w e = some i → i.wf = true ∧ encode i = some (w, some e)

@[simp] theorem Addr.am_lt (a : Addr) : a.am < 4 := by obtain ⟨_, _ | _ | _ | _, _⟩ := a <;> simp [Addr.am]
@[simp] theorem Addr.va_lt (a : Addr) : a.va < 256 := by obtain ⟨_, _ | _ | _ | _, _⟩ := a <;> simp [Addr.va]
@[simp] theorem ElemTy.code_lt (t : ElemTy) : t.code < 16 := by cases t <;> simp [ElemTy.code]
@[simp] theorem ElemTy.ofCode_eq_some {n : Nat} {t : ElemTy} : ElemTy.ofCode n = some t ↔ n = t.code := by
  constructor
  · fun_cases ElemTy.ofCode n <;> cases t <;> simp_all [ElemTy.code]
  · rintro rfl
    cases t <;> simp [ElemTy.ofCode, ElemTy.code, IntTy.ofCode_code, IntTy.ofCode_of_flt]
@[simp] theorem RedFn.ty_lt (f : RedFn) : f.ty < 16 := by cases f <;> simp [RedFn.ty]
@[simp] theorem RedFn.op_lt (f : RedFn) : f.op < 256 := by cases f <;> simp [RedFn.op]
@[simp] theorem RedFn.rnd_lt (f : RedFn) : f.rnd < 8 := by cases f <;> simp [RedFn.rnd]
@[simp] theorem VoteFn.op_lt (f : VoteFn) : f.op < 8 := by cases f <;> simp [VoteFn.op]
@[simp] theorem VoteFn.dest_lt (f : VoteFn) : f.dest < 256 := by cases f <;> simp only [VoteFn.dest] <;> omega

/-! The modifier field where it holds a code beside its flags. -/

section
variable {a : Nat} (ha : a < 4)
include ha
@[simp] theorem md_low_lt (s f : Bool) : a + nb s * 4 + nb f * 8 < 16 := by have := nb_lt s; have := nb_lt f; omega
@[simp] theorem md_seg_lt (i : Bool) : nb i * 2 + a * 4 < 16 := by have := nb_lt i; omega
@[simp] theorem md_vote_lt (v : Bool) : nb v + a * 4 < 16 := by have := nb_lt v; omega
@[simp] theorem md_order_lt (f : Bool) : a + nb f * 8 < 16 := by have := nb_lt f; omega
@[simp] theorem md_pool_lt (s : Bool) : a + nb s * 4 < 16 := by have := nb_lt s; omega
end
@[simp] theorem fl_lt (z r : Bool) : nb z * 4 + nb r * 8 < 16 := by have := nb_lt z; have := nb_lt r; omega
@[simp] theorem SpPat.bit_lt (p : SpPat) : p.bit < 16 := by cases p <;> decide
@[simp] theorem xVa_eq (w : Nat) : xVa w = BitVec.ofNat 8 (bits w 16 8) := rfl
@[simp] theorem xSw_eq (w : Nat) : xSw w = BitVec.ofNat 6 (bits w 10 6) := rfl
@[simp] theorem xSc_eq (w : Nat) : xSc w = BitVec.ofNat 6 (bits w 4 6) := rfl
@[simp] theorem bits_10_14 (w : Nat) : bits w 10 14 = 0 ↔ bits w 10 6 = 0 ∧ bits w 16 8 = 0 := by
  simp only [bits, Nat.reducePow]; omega

theorem md_seg {e a : Nat} (i : Bool) (ha : a < 4) : (Ext.of e).md = nb i * 2 + a * 4 ↔
    (Ext.of e).v = false ∧ (Ext.of e).i = i ∧ bits (Ext.of e).md 2 2 = a := by
  simpa [nb] using md_high_iff (e := e) false i ha
theorem md_vote {e a : Nat} (v : Bool) (ha : a < 4) : (Ext.of e).md = nb v + a * 4 ↔
    (Ext.of e).v = v ∧ (Ext.of e).i = false ∧ bits (Ext.of e).md 2 2 = a := by
  simpa [nb] using md_high_iff (e := e) v false ha
theorem md_order {e a : Nat} (f : Bool) (ha : a < 4) : (Ext.of e).md = a + nb f * 8 ↔
    bits (Ext.of e).md 0 2 = a ∧ (Ext.of e).s = false ∧ (Ext.of e).f = f := by
  simpa [nb] using md_low_iff (e := e) false f ha
theorem md_pool {e a : Nat} (s : Bool) (ha : a < 4) : (Ext.of e).md = a + nb s * 4 ↔
    bits (Ext.of e).md 0 2 = a ∧ (Ext.of e).s = s ∧ (Ext.of e).f = false := by
  simpa [nb] using md_low_iff (e := e) s false ha
theorem md_pat {e : Nat} (p : SpPat) : (Ext.of e).md = p.bit ↔ (Ext.of e).md ≤ 1 ∧ spPat (Ext.of e).v = p := by
  have hv : (Ext.of e).v = true ↔ (Ext.of e).md % 2 = 1 := by simp [Ext.v, bitAt]
  cases hc : (Ext.of e).v <;> cases p <;> simp [hc, spPat, SpPat.bit] at hv ⊢ <;> omega
theorem fl_eq_iff {w : Nat} (z r : Bool) : bits w 0 4 = nb z * 4 + nb r * 8 ↔ bits w 0 2 = 0 ∧ bitAt w 2 = z ∧ bitAt w 3 = r := by
  have hz := nb_lt z
  have hr := nb_lt r
  simp only [bitAt_eq_iff, bits, pow_zero, Nat.div_one, Nat.reducePow]
  omega

theorem bits_8_8 {w : Nat} {q : BitVec 3} : bits w 8 8 = q.toNat ↔ bits w 11 5 = 0 ∧ BitVec.ofNat 3 (bits w 8 3) = q := by
  have hq := q.isLt
  rw [← bits_eq_toNat_iff]
  simp only [bits, Nat.reducePow]
  omega
theorem bits_0_8 {w a : Nat} (ha : a < 16) : bits w 0 8 = a ↔ bits w 4 4 = 0 ∧ bits w 0 4 = a := by
  simp only [bits, pow_zero, Nat.div_one, Nat.reducePow]
  omega
@[simp] theorem md_lt (e : Nat) : (Ext.of e).md < 16 := bits_lt e 16 4
theorem BTy.ofCode_of_lt {n : Nat} (h : n < 12) : BTy.ofCode n = none := by
  fun_cases BTy.ofCode n <;> simp_all
theorem BSide.code_lt_12 (t : BSide) : t.code < 12 := by cases t <;> decide
theorem IntTy.code_lt_12 (t : IntTy) : t.code < 12 := by cases t <;> decide
theorem FTy.code_lt_12 (t : FTy) : t.code < 12 := by cases t <;> decide
theorem CvtPair.src_lt (p : CvtPair) : p.src < 12 := by
  cases p with
  | intInt s _ _ _ | intFlt s _ _ _ => exact s.code_lt_12
  | fltFlt s _ _ _ | fltInt s _ _ _ => exact s.code_lt_12
theorem CvtPair.dst_lt (p : CvtPair) : p.dst < 12 := by
  cases p with
  | intInt _ d _ _ | fltInt _ d _ _ => exact d.code_lt_12
  | fltFlt _ d _ _ | intFlt _ d _ _ => exact d.code_lt_12
theorem CvtPair.rnd_eq (p : CvtPair) : ∃ m : Rnd, p.rnd = m.code := by cases p <;> exact ⟨_, rfl⟩
theorem CvtPair.md_eq (p : CvtPair) : ∃ f s, p.md = mdBits f s false false := by cases p <;> exact ⟨_, _, rfl⟩
@[simp] theorem CvtPair.rnd_lt (p : CvtPair) : p.rnd < 8 := by obtain ⟨m, hm⟩ := p.rnd_eq; simp [hm]
@[simp] theorem CvtPair.md_lt (p : CvtPair) : p.md < 16 := by obtain ⟨f, s, h⟩ := p.md_eq; simp [h]
theorem st_code {e : Nat} (t : MatTy) : (Ext.of e).imm = t.code ↔ bits (Ext.of e).imm 4 4 = 0 ∧ bits (Ext.of e).imm 0 4 = t.code := by
  have h := imm_lt e
  have ht := t.code_lt
  simp only [bits, pow_zero, Nat.div_one, Nat.reducePow]
  omega
theorem md_lc {e : Nat} (lc : BitVec 2) : (Ext.of e).md = lc.toNat ↔ bits (Ext.of e).md 2 2 = 0 ∧ BitVec.ofNat 2 (bits (Ext.of e).md 0 2) = lc := by
  have h := md_lt e
  have hl := lc.isLt
  rw [← bits_eq_toNat_iff]
  simp only [bits, pow_zero, Nat.div_one, Nat.reducePow]
  omega
theorem md_four (e : Nat) : (Ext.of e).md = 4 ↔ bits (Ext.of e).md 2 2 = 1 ∧ bits (Ext.of e).md 0 2 = 0 := by
  have h := md_lt e
  simp only [bits, pow_zero, Nat.div_one, Nat.reducePow]
  omega
theorem md_eight (e : Nat) : (Ext.of e).md = 8 ↔ bits (Ext.of e).md 2 2 = 2 ∧ bits (Ext.of e).md 0 2 = 0 := by
  have h := md_lt e
  simp only [bits, pow_zero, Nat.div_one, Nat.reducePow]
  omega
@[simp] theorem fl_clr_lt (z : Bool) : nb z * 4 < 16 := by have := nb_lt z; omega
@[simp] theorem DrainTy.rnd_lt (d : DrainTy) : d.rnd < 8 := by cases d <;> simp [DrainTy.rnd]
@[simp] theorem DrainTy.code_lt (d : DrainTy) : d.code < 16 := by cases d <;> simp [DrainTy.code]
@[simp] theorem DrainTy.vc_lt (d : DrainTy) : d.vc < 256 := by cases d <;> simp [DrainTy.vc]
@[simp] theorem accCode_lt (a : AccTy) : accCode a < 16 := by cases a <;> decide
@[simp] theorem RowTy.code_lt (t : RowTy) : t.code < 16 := by cases t <;> simp [RowTy.code]
@[simp] theorem RowTy.vc_lt (t : RowTy) : t.vc < 256 := by cases t <;> simp [RowTy.vc]
@[simp] theorem gMd_lt (x : GIndex) : gMd x < 16 := by
  have := x.width.code_lt
  have := nb_lt x.signed
  simp only [gMd]; omega

/-- Word 0 of a cell of the lane set. -/
abbrev Lane (mj : Nat) : Nat → Prop := InCell false mj
theorem fl_clr {w : Nat} (z : Bool) : bits w 0 4 = nb z * 4 ↔ bits w 0 2 = 0 ∧ bitAt w 2 = z ∧ bitAt w 3 = false := by
  simpa [nb] using fl_eq_iff (w := w) z false
theorem drainMemOk_vc {dt : DrainTy} {st : MatTy} : drainMemOk dt st = true → dt.vc = 0 := by
  fun_cases drainMemOk dt st <;> simp_all [DrainTy.vc]

end Sys2Proof
end

section
/-! SUPPORT. Each decoder of the lane set and the encoder undo one another. `decX_decodes`: the format's equivalence takes what X encodes
to apart into fields, and the decoder reads these fields. `decX_encodes`: the decoder's checks give the fields of the words, and the
same equivalence puts them together. -/

namespace Sys2Proof

theorem decMov_decodes_mov : Decodes1 (Lane 1) decMov .mov := by
  intro o w _ h
  have h := Option.some.inj h
  simp at h
  obtain ⟨hw, hW, hvd, hva, h0⟩ := h
  simp [decMov, *]

theorem decMov_decodes_specialMov : Decodes1 (Lane 1) decMov .specialMov := by
  intro o w _ h
  have h := Option.some.inj h
  simp at h
  obtain ⟨hw, hW, hvd, hva, h0⟩ := h
  have hne : o.sel.code ≠ 0 := by cases o.sel <;> decide
  simp [decMov, *]
  exact ⟨_, rfl, rfl⟩

theorem decMov_encodes : Encodes1 (Lane 1) decMov := by
  intro w i hw h
  simp only [decMov, beq_iff_eq] at h
  split at h
  · obtain rfl := Option.some.inj h
    exact ⟨rfl, congrArg some (by simp [*])⟩
  · simp at h
    obtain ⟨hva, r, h0, rfl⟩ := h
    exact ⟨rfl, congrArg some (by simp [*])⟩

theorem decMovi_decodes : Decodes1 (Lane 2) decMovi .movi := by
  intro o w _ h
  have h := Option.some.inj h
  simp at h
  simp [decMovi, *]

theorem decMovi_encodes : Encodes1 (Lane 2) decMovi := by
  rintro w i hw ⟨⟩
  exact ⟨rfl, congrArg some (by simp [*])⟩

theorem decMoviw_decodes : Decodes2 (Lane 3) decMoviw .moviw := by
  intro o w e _ h
  have h := Option.some.inj h
  simp at h
  obtain ⟨⟨hw, hW, hvd, h0⟩, rfl⟩ := h
  simp [decMoviw, *]

theorem decMoviw_encodes : Encodes2 (Lane 3) decMoviw := by
  intro w e i hw he h
  simp [decMoviw] at h
  obtain ⟨h0, rfl⟩ := h
  refine ⟨rfl, congrArg some ?_⟩
  simp [*]
  exact he

theorem decIaddi_decodes : Decodes1 (Lane 4) decIaddi .iaddi := by
  intro o w _ h
  have h := Option.some.inj h
  simp at h
  simp [decIaddi, *]

theorem decIaddi_encodes : Encodes1 (Lane 4) decIaddi := by
  rintro w i hw ⟨⟩
  exact ⟨rfl, congrArg some (by simp [*])⟩

theorem decLea_decodes : Decodes2 (Lane 5) decLea .lea := by
  intro o w e _ h
  have h := Option.some.inj h
  simp at h
  obtain ⟨⟨hw, hW, hvd, hva, hvb⟩, he, hg, hr, ht, hmd, hvc, him⟩ := h
  refine ⟨hw, he, ?_⟩
  simp [decLea, Option.bind_eq_some_iff]
  exact ⟨_, hg, _, ht, by simp [*]⟩

theorem decLea_encodes : Encodes2 (Lane 5) decLea := by
  intro w e i hw he h
  simp [decLea, Option.bind_eq_some_iff] at h
  obtain ⟨g, hg, t, ht, hn, rfl⟩ := h
  exact ⟨rfl, congrArg some (by simp [*])⟩

theorem decBrd_decodes : Decodes1 (Lane 6) decBrd .brd := by
  intro o w _ h
  have h := Option.some.inj h
  simp at h
  simp [decBrd, *]

theorem decBrd_encodes : Encodes1 (Lane 6) decBrd := by
  rintro w i hw ⟨⟩
  exact ⟨rfl, congrArg some (by simp [*])⟩

theorem decJoin_decodes : Decodes1 (Lane 7) decJoin .join := by
  intro o w _ h
  have h := Option.some.inj h
  simp [encJoin_eq_iff, -encMoviw_eq_iff] at h
  simp [decJoin, *]

theorem decJoin_encodes : Encodes1 (Lane 7) decJoin := by
  intro w i hw h
  simp [decJoin] at h
  obtain ⟨h0, rfl⟩ := h
  exact ⟨rfl, congrArg some (by simp [encJoin_eq_iff, -encMoviw_eq_iff, *])⟩

/-! ### Integers -/

section
variable {mj : Nat} (hm : mj < 64)
include hm

theorem decIntSat_decodes {mk : IntSatOp → Instr} (henc : ∀ o, encode (mk o) = some (encIntSat mj o)) :
    Decodes2 (Lane mj) (decIntSat mk) mk := by
  intro o w e _ h
  simp [henc, encIntSat, hm] at h
  obtain ⟨⟨hw, hW, hvd, hva, hvb⟩, he, hg, hr, ht, ⟨hf, hs, hi, hv⟩, hvc, him⟩ := h
  refine ⟨hw, he, ?_⟩
  simp [decIntSat, Option.bind_eq_some_iff]
  exact ⟨_, hg, _, ht, _, ⟨hi, hvb, him⟩, by simp [*]⟩

theorem decIntSat_encodes {mk : IntSatOp → Instr} (hwf : ∀ o, (mk o).wf = true) (henc : ∀ o, encode (mk o) = some (encIntSat mj o)) :
    Encodes2 (Lane mj) (decIntSat mk) := by
  intro w e i hw he h
  simp [decIntSat, Option.bind_eq_some_iff] at h
  obtain ⟨g, hg, t, ht, b, hb, hn, rfl⟩ := h
  simp [encIntSat, *]

theorem decIntBin_decodes {mk : IntBinOp → Instr} (henc : ∀ o, encode (mk o) = some (encIntBin mj false o)) :
    Decodes2 (Lane mj) (decIntBin mk) mk := by
  intro o w e _ h
  simp [henc, encIntBin, hm] at h
  obtain ⟨⟨hw, hW, hvd, hva, hvb⟩, he, hg, hr, ht, ⟨hf, hs, hi, hv⟩, hvc, him⟩ := h
  refine ⟨hw, he, ?_⟩
  simp [decIntBin, Option.bind_eq_some_iff]
  exact ⟨_, hg, _, ht, _, ⟨hi, hvb, him⟩, by simp [*]⟩

theorem decIntBin_encodes {mk : IntBinOp → Instr} (hwf : ∀ o, (mk o).wf = true) (henc : ∀ o, encode (mk o) = some (encIntBin mj false o)) :
    Encodes2 (Lane mj) (decIntBin mk) := by
  intro w e i hw he h
  simp [decIntBin, Option.bind_eq_some_iff] at h
  obtain ⟨g, hg, t, ht, b, hb, hn, rfl⟩ := h
  simp [encIntBin, *]

theorem decIntCount_decodes {mk : IntCountOp → Instr} (henc : ∀ o, encode (mk o) = some (encIntCount mj o)) :
    Decodes2 (Lane mj) (decIntCount mk) mk := by
  intro o w e _ h
  simp [henc, encIntCount, hm] at h
  obtain ⟨⟨hw, hW, hvd, hva, hvb⟩, he, hg, hr, ht, hmd, hvc, him⟩ := h
  refine ⟨hw, he, ?_⟩
  simp [decIntCount, Option.bind_eq_some_iff]
  exact ⟨_, hg, _, ht, by simp [*]⟩

theorem decIntCount_encodes {mk : IntCountOp → Instr} (hwf : ∀ o, (mk o).wf = true) (henc : ∀ o, encode (mk o) = some (encIntCount mj o)) :
    Encodes2 (Lane mj) (decIntCount mk) := by
  intro w e i hw he h
  simp [decIntCount, Option.bind_eq_some_iff] at h
  obtain ⟨g, hg, t, ht, hn, rfl⟩ := h
  simp [encIntCount, *]

theorem decFBin_decodes {mk : FBinOp → Instr} (henc : ∀ o, encode (mk o) = some (encFBin mj o)) :
    Decodes2 (Lane mj) (decFBin mk) mk := by
  intro o w e _ h
  simp [henc, encFBin, hm] at h
  obtain ⟨⟨hw, hW, hvd, hva, hvb⟩, he, hg, hr, ht, ⟨hf, hs, hi, hv⟩, hvc, him⟩ := h
  refine ⟨hw, he, ?_⟩
  simp [decFBin, Option.bind_eq_some_iff]
  exact ⟨_, hg, _, ht, _, hr, by simp [*]⟩

theorem decFBin_encodes {mk : FBinOp → Instr} (hwf : ∀ o, (mk o).wf = true) (henc : ∀ o, encode (mk o) = some (encFBin mj o)) :
    Encodes2 (Lane mj) (decFBin mk) := by
  intro w e i hw he h
  simp [decFBin, Option.bind_eq_some_iff] at h
  obtain ⟨g, hg, t, ht, m, hr, hn, rfl⟩ := h
  simp [encFBin, *]

theorem decFUn_decodes {mk : FUnOp → Instr} (henc : ∀ o, encode (mk o) = some (encFUn mj o)) :
    Decodes2 (Lane mj) (decFUn mk) mk := by
  intro o w e _ h
  simp [henc, encFUn, hm] at h
  obtain ⟨⟨hw, hW, hvd, hva, hvb⟩, he, hg, hr, ht, ⟨hf, hs, hi, hv⟩, hvc, him⟩ := h
  refine ⟨hw, he, ?_⟩
  simp [decFUn, Option.bind_eq_some_iff]
  exact ⟨_, hg, _, ht, _, hr, by simp [*]⟩

theorem decFUn_encodes {mk : FUnOp → Instr} (hwf : ∀ o, (mk o).wf = true) (henc : ∀ o, encode (mk o) = some (encFUn mj o)) :
    Encodes2 (Lane mj) (decFUn mk) := by
  intro w e i hw he h
  simp [decFUn, Option.bind_eq_some_iff] at h
  obtain ⟨g, hg, t, ht, m, hr, hn, rfl⟩ := h
  simp [encFUn, *]

end

theorem decImul_decodes : Decodes2 (Lane 0x0A) decImul .imul := by
  intro o w e _ h
  have h := Option.some.inj h
  simp at h
  obtain ⟨⟨hw, hW, hvd, hva, hvb⟩, he, hg, hr, ht, ⟨hf, hs, hi, hv⟩, hvc, him⟩ := h
  refine ⟨hw, he, ?_⟩
  simp [decImul, Option.bind_eq_some_iff]
  obtain ⟨w, g, t, md, vd, va, b⟩ := o
  refine ⟨_, hg, _, ht, _, ⟨hi, hvb, him⟩, ?_⟩
  cases md <;> simp_all

theorem decImul_encodes : Encodes2 (Lane 0x0A) decImul := by
  intro w e i hw he h
  simp [decImul, Option.bind_eq_some_iff] at h
  obtain ⟨g, hg, t, ht, b, hb, hn, rfl⟩ := h
  refine ⟨rfl, congrArg some ?_⟩
  simp [*]
  cases hs : (Ext.of e).s <;> cases hv : (Ext.of e).v <;> simp_all

theorem decImad_decodes : Decodes2 (Lane 0x0B) decImad .imad := by
  intro o w e _ h
  have h := Option.some.inj h
  simp at h
  obtain ⟨⟨hw, hW, hvd, hva, hvb⟩, he, hg, hr, ht, ⟨hf, hs, hi, hv⟩, hvc, him⟩ := h
  refine ⟨hw, he, ?_⟩
  simp [decImad, Option.bind_eq_some_iff]
  exact ⟨_, hg, _, ht, _, ⟨hi, hvb, him⟩, by simp [*]⟩

theorem decImad_encodes : Encodes2 (Lane 0x0B) decImad := by
  intro w e i hw he h
  simp [decImad, Option.bind_eq_some_iff] at h
  obtain ⟨g, hg, t, ht, b, hb, hn, rfl⟩ := h
  exact ⟨rfl, congrArg some (by simp [*])⟩

theorem decIminmax_decodes {v : Bool} {mk : IntBinOp → Instr} (hmk : ∀ o, mk o = if v then .imax o else .imin o)
    (henc : ∀ o, encode (mk o) = some (encIntBin 0x0C v o)) : Decodes2 (Lane 0x0C) decIminmax mk := by
  intro o w e _ h
  simp [henc, encIntBin] at h
  obtain ⟨⟨hw, hW, hvd, hva, hvb⟩, he, hg, hr, ht, ⟨hf, hs, hi, hv⟩, hvc, him⟩ := h
  refine ⟨hw, he, ?_⟩
  simp [decIminmax, Option.bind_eq_some_iff, hmk]
  exact ⟨_, hg, _, ht, _, ⟨hi, hvb, him⟩, by simp [*]⟩

theorem decIminmax_encodes : Encodes2 (Lane 0x0C) decIminmax := by
  intro w e i hw he h
  simp [decIminmax, Option.bind_eq_some_iff] at h
  obtain ⟨g, hg, t, ht, b, hb, hn, rfl⟩ := h
  cases hv : (Ext.of e).v <;> exact ⟨rfl, congrArg some (by simp [encIntBin, *])⟩

theorem decIabs_decodes : Decodes2 (Lane 0x0D) decIabs .iabs := by
  intro o w e hwf h
  have h := Option.some.inj h
  have hsg : o.t.signed = true := hwf
  simp at h
  obtain ⟨⟨hw, hW, hvd, hva, hvb⟩, he, hg, hr, ht, ⟨hf, hs, hi, hv⟩, hvc, him⟩ := h
  refine ⟨hw, he, ?_⟩
  simp [decIabs, Option.bind_eq_some_iff]
  exact ⟨_, hg, _, ht, by simp [*]⟩

theorem decIabs_encodes : Encodes2 (Lane 0x0D) decIabs := by
  intro w e i hw he h
  simp [decIabs, Option.bind_eq_some_iff] at h
  obtain ⟨g, hg, t, ht, hn, rfl⟩ := h
  obtain ⟨⟨⟨⟨⟨⟨⟨hsg, h0⟩, hr⟩, hf⟩, hi⟩, hv⟩, hvc⟩, him⟩ := hn
  exact ⟨hsg, congrArg some (by simp [*])⟩

theorem decIcmp_decodes : Decodes2 (Lane 0x0E) decIcmp .icmp := by
  intro o w e _ h
  have h := Option.some.inj h
  simp at h
  obtain ⟨⟨hw, hW, hqd, hc, hva, hvb⟩, he, hg, hr, ht, ⟨hf, hs, hi, hv⟩, hvc, him⟩ := h
  refine ⟨hw, he, ?_⟩
  simp [decIcmp, Option.bind_eq_some_iff]
  exact ⟨_, hg, _, ht, _, hc, _, ⟨hi, hvb, him⟩, by simp [*]⟩

theorem decIcmp_encodes : Encodes2 (Lane 0x0E) decIcmp := by
  intro w e i hw he h
  simp [decIcmp, Option.bind_eq_some_iff] at h
  obtain ⟨g, hg, t, ht, c, hc, b, hb, hn, rfl⟩ := h
  exact ⟨rfl, congrArg some (by simp [*])⟩

theorem decSel_decodes : Decodes2 (Lane 0x0F) decSel .sel := by
  intro o w e _ h
  have h := Option.some.inj h
  have hty : (if o.wide then 7 else 6) < 16 := by split <;> decide
  simp [hty] at h
  obtain ⟨⟨hw, hW, hvd, hva, hvb⟩, he, hg, hr, ht, ⟨hf, hs, hi, hv⟩, hvc, him⟩ := h
  refine ⟨hw, he, ?_⟩
  simp [decSel, Option.bind_eq_some_iff]
  obtain ⟨W, g, wide, neg, qs, vd, va, b⟩ := o
  exact ⟨_, hg, by cases wide <;> simp_all, _, ⟨hi, hvb, him⟩, by cases wide <;> simp_all⟩

theorem decSel_encodes : Encodes2 (Lane 0x0F) decSel := by
  intro w e i hw he h
  simp [decSel, Option.bind_eq_some_iff] at h
  obtain ⟨g, hg, ht, b, hb, hn, rfl⟩ := h
  refine ⟨rfl, congrArg some ?_⟩
  rcases ht with ht | ht <;> simp [*]

theorem decFfma_decodes : Decodes2 (Lane 0x12) decFfma .ffma := by
  intro o w e _ h
  have h := Option.some.inj h
  simp at h
  obtain ⟨⟨hw, hW, hvd, hva, hvb⟩, he, hg, hr, ht, ⟨hf, hs, hi, hv⟩, hvc, him⟩ := h
  refine ⟨hw, he, ?_⟩
  simp [decFfma, Option.bind_eq_some_iff]
  exact ⟨_, hg, _, ht, _, hr, by simp [*]⟩

theorem decFfma_encodes : Encodes2 (Lane 0x12) decFfma := by
  intro w e i hw he h
  simp [decFfma, Option.bind_eq_some_iff] at h
  obtain ⟨g, hg, t, ht, m, hr, hn, rfl⟩ := h
  exact ⟨rfl, congrArg some (by simp [*])⟩

theorem decFminmax_decodes {v : Bool} {mk : FSelOp → Instr} (hmk : ∀ o, mk o = if v then .fmax o else .fmin o)
    (henc : ∀ o, encode (mk o) = some (encFSel v o)) : Decodes2 (Lane 0x14) decFminmax mk := by
  intro o w e _ h
  simp [henc, encFSel] at h
  obtain ⟨⟨hw, hW, hvd, hva, hvb⟩, he, hg, hr, ht, ⟨hf, hs, hi, hv⟩, hvc, him⟩ := h
  refine ⟨hw, he, ?_⟩
  simp [decFminmax, Option.bind_eq_some_iff, hmk]
  exact ⟨_, hg, _, ht, by simp [*]⟩

theorem decFminmax_encodes : Encodes2 (Lane 0x14) decFminmax := by
  intro w e i hw he h
  simp [decFminmax, Option.bind_eq_some_iff] at h
  obtain ⟨g, hg, t, ht, hn, rfl⟩ := h
  cases hv : (Ext.of e).v <;> exact ⟨rfl, congrArg some (by simp [encFSel, *])⟩

theorem decFcmp_decodes : Decodes2 (Lane 0x15) decFcmp .fcmp := by
  intro o w e _ h
  have h := Option.some.inj h
  simp at h
  obtain ⟨⟨hw, hW, hqd, hc, hva, hvb⟩, he, hg, hr, ht, ⟨hf, hs, hi, hv⟩, hvc, him⟩ := h
  refine ⟨hw, he, ?_⟩
  simp [decFcmp, Option.bind_eq_some_iff]
  exact ⟨_, hg, _, ht, _, hc, by simp [*]⟩

theorem decFcmp_encodes : Encodes2 (Lane 0x15) decFcmp := by
  intro w e i hw he h
  simp [decFcmp, Option.bind_eq_some_iff] at h
  obtain ⟨g, hg, t, ht, c, hc, hn, rfl⟩ := h
  exact ⟨rfl, congrArg some (by simp [*])⟩

theorem decFclass_decodes : Decodes2 (Lane 0x16) decFclass .fclass := by
  intro o w e _ h
  have h := Option.some.inj h
  have hc : o.mask.toNat / 256 < 4 := by omega
  have hm : o.mask.toNat / 256 * 256 + o.mask.toNat % 256 = o.mask.toNat := by omega
  simp [hc.trans, Nat.mod_lt] at h
  obtain ⟨⟨hw, hW, hqd, hc, hva, hvb⟩, he, hg, hr, ht, hmd, hvc, him⟩ := h
  refine ⟨hw, he, ?_⟩
  simp [decFclass, Option.bind_eq_some_iff]
  exact ⟨_, hg, _, ht, by simp [*]⟩

theorem decFclass_encodes : Encodes2 (Lane 0x16) decFclass := by
  intro w e i hw he h
  simp [decFclass, Option.bind_eq_some_iff] at h
  obtain ⟨g, hg, t, ht, ⟨⟨⟨⟨hc, h0⟩, hr⟩, hmd⟩, hvc⟩, rfl⟩ := h
  have him := imm_lt e
  have hmask : (wCond w * 256 + (Ext.of e).imm) % 1024 = wCond w * 256 + (Ext.of e).imm := Nat.mod_eq_of_lt (by omega)
  have hhigh : (wCond w * 256 + (Ext.of e).imm) / 256 = wCond w := by omega
  have hlow : (wCond w * 256 + (Ext.of e).imm) % 256 = (Ext.of e).imm := by omega
  exact ⟨rfl, congrArg some (by simp [hc.trans, *])⟩

theorem decLdgRow_decodes : Decodes2 (Lane 0x17) decLdgRow .ldgRow := by
  intro o w e _ h
  have h := Option.some.inj h
  simp at h
  obtain ⟨⟨hw, hW, hvd, hva, hsb, h2⟩, he, hg, hr, ht, hmd, hvc, him⟩ := h
  refine ⟨hw, he, ?_⟩
  simp [decLdgRow, Option.bind_eq_some_iff]
  exact ⟨_, hg, _, ⟨ht, hvc⟩, _, ⟨h2, hsb, hva, hr, hmd, him⟩, by simp [*]⟩

theorem decLdgRow_encodes : Encodes2 (Lane 0x17) decLdgRow := by
  intro w e i hw he h
  simp [decLdgRow, Option.bind_eq_some_iff] at h
  obtain ⟨g, hg, t, ht, x, hx, rfl⟩ := h
  exact ⟨rfl, congrArg some (by simp [*])⟩

theorem md_eq_zero (e : Nat) : (Ext.of e).md = 0 ↔
    (Ext.of e).f = false ∧ (Ext.of e).s = false ∧ (Ext.of e).i = false ∧ (Ext.of e).v = false := md_eq_mdBits e false false false false

theorem md_eq_two (e : Nat) : (Ext.of e).md = 2 ↔
    (Ext.of e).f = false ∧ (Ext.of e).s = false ∧ (Ext.of e).i = true ∧ (Ext.of e).v = false := md_eq_mdBits e false false true false

theorem decBfx_decodes : Decodes2 (Lane 0x1E) decBfx .bfx := by
  intro o w e _ h
  have h := Option.some.inj h
  cases hf : o.f <;> simp [hf, md_eq_zero, md_eq_two] at h
  all_goals
    obtain ⟨⟨hw, hW, hvd, hva, hvb⟩, he, hg, hr, ht, hmd, hvc, him⟩ := h
    refine ⟨hw, he, ?_⟩
    simp [decBfx, Option.bind_eq_some_iff]
    have hfield : bitField w (Ext.of e) = some o.f := by simp [*]
    clear hf
    exact ⟨_, hg, _, ht, _, hfield, by simp [*]⟩

theorem decBfx_encodes : Encodes2 (Lane 0x1E) decBfx := by
  intro w e i hw he h
  simp [decBfx, Option.bind_eq_some_iff] at h
  obtain ⟨g, hg, t, ht, f, hf, hn, rfl⟩ := h
  cases f <;> simp at hf <;> exact ⟨rfl, congrArg some (by simp [md_eq_zero, md_eq_two, *])⟩

theorem decBfi_decodes : Decodes2 (Lane 0x1F) decBfi .bfi := by
  intro o w e _ h
  have h := Option.some.inj h
  cases hf : o.f <;> simp [hf, md_eq_zero, md_eq_two] at h
  all_goals
    obtain ⟨⟨hw, hW, hvd, hva, hvb⟩, he, hg, hr, ht, hmd, hvc, him⟩ := h
    refine ⟨hw, he, ?_⟩
    simp [decBfi, Option.bind_eq_some_iff]
    have hfield : bitField w (Ext.of e) = some o.f := by simp [*]
    clear hf
    exact ⟨_, hg, _, ht, _, hfield, by simp [*]⟩

theorem decBfi_encodes : Encodes2 (Lane 0x1F) decBfi := by
  intro w e i hw he h
  simp [decBfi, Option.bind_eq_some_iff] at h
  obtain ⟨g, hg, t, ht, f, hf, hn, rfl⟩ := h
  cases f <;> simp at hf <;> exact ⟨rfl, congrArg some (by simp [md_eq_zero, md_eq_two, *])⟩

theorem decPack_decodes : Decodes2 (Lane 0x28) decPack .pack := by
  intro o w e hwf h
  have h := Option.some.inj h
  have hsat : (!o.sat || o.t.satOk) = true := hwf
  simp at h
  obtain ⟨⟨hw, hW, hvd, hva, hvb⟩, he, hg, hr, ht, ⟨hf, hs, hi, hv⟩, hvc, him⟩ := h
  refine ⟨hw, he, ?_⟩
  simp [decPack, Option.bind_eq_some_iff]
  exact ⟨_, hg, _, ht, by simp_all⟩

theorem decPack_encodes : Encodes2 (Lane 0x28) decPack := by
  intro w e i hw he h
  simp [decPack, Option.bind_eq_some_iff] at h
  obtain ⟨g, hg, t, ht, hn, rfl⟩ := h
  obtain ⟨⟨⟨⟨⟨⟨hr, hf⟩, hi⟩, hv⟩, hsat⟩, hvc⟩, him⟩ := hn
  exact ⟨by simpa [Instr.wf] using hsat, congrArg some (by simp [*])⟩

theorem decUnpk_decodes : Decodes2 (Lane 0x29) decUnpk .unpk := by
  intro o w e _ h
  have h := Option.some.inj h
  have hnb : nb o.h < 256 := (nb_lt o.h).trans (by decide)
  simp [hnb] at h
  obtain ⟨⟨hw, hW, hvd, hva, hvb⟩, he, hg, hr, ht, hmd, hvc, him⟩ := h
  refine ⟨hw, he, ?_⟩
  simp [decUnpk, Option.bind_eq_some_iff]
  have hh : (nb o.h == 1) = o.h := by cases o.h <;> rfl
  exact ⟨_, hg, _, ht, by simp [*]⟩

theorem decUnpk_encodes : Encodes2 (Lane 0x29) decUnpk := by
  intro w e i hw he h
  simp [decUnpk, Option.bind_eq_some_iff] at h
  obtain ⟨g, hg, t, ht, hn, rfl⟩ := h
  obtain ⟨⟨⟨⟨h0, hr⟩, hmd⟩, hvc⟩, him⟩ := hn
  refine ⟨rfl, congrArg some ?_⟩
  obtain him | him : (Ext.of e).imm = 0 ∨ (Ext.of e).imm = 1 := by omega
  all_goals simp [nb, *]

theorem decCvt_decodes : Decodes2 (Lane 0x27) decCvt .cvt := by
  rintro ⟨W, g, k, vd, va⟩ w e hwf h
  have h := Option.some.inj h
  cases k with
  | one p =>
    have hok : p.ok = true := hwf
    have hs := p.src_lt
    have hd := p.dst_lt
    simp [bits_0_8, hs.trans, hd.trans] at h
    obtain ⟨⟨hw, hW, hvd, hva, h4, h0⟩, he, hg, hr, ht, hmd, hvc, him⟩ := h
    obtain ⟨m, hm⟩ := p.rnd_eq
    obtain ⟨f, s, hfs⟩ := p.md_eq
    simp [hfs] at hmd
    have hp : cvtPair p.src p.dst m f s = some p := cvtPair_eq_some.2 ⟨rfl, rfl, hm.symm, hfs.symm, hok⟩
    have hb := BTy.ofCode_of_lt hs
    have hb' := BTy.ofCode_of_lt hd
    simp [decCvt, Option.bind_eq_some_iff, *]
    exact ⟨m, rfl, hp⟩
  | quant s d vc =>
    have hs := s.code_lt_12
    have hb := BTy.ofCode_of_lt hs
    simp [bits_0_8, hs.trans, md_eq_zero] at h
    have hd : BTy.ofCode d.code = some d := BTy.ofCode_eq_some.2 rfl
    simp [decCvt, Option.bind_eq_some_iff, *]
  | dequant s d m vc =>
    have hs := s.code_lt
    have hb := BTy.ofCode_of_lt d.code_lt_12
    simp [bits_0_8, hs.trans, md_eq_zero] at h
    have hd : BTy.ofCode s.code = some s := BTy.ofCode_eq_some.2 rfl
    simp [decCvt, Option.bind_eq_some_iff, *]

theorem decCvt_encodes : Encodes2 (Lane 0x27) decCvt := by
  intro w e i hw he h
  simp [decCvt, Option.bind_eq_some_iff] at h
  obtain ⟨g, hg, ⟨⟨⟨⟨h4, hi⟩, hv⟩, him⟩, h⟩⟩ := h
  split at h <;> simp [Option.bind_eq_some_iff] at h
  · obtain ⟨m, hm, p, hp, hvc, rfl⟩ := h
    obtain ⟨hs, hd, hrnd, hpmd, hok⟩ := cvtPair_eq_some.1 hp
    have hmd := md_self e
    rw [hi, hv, hpmd] at hmd
    have hs12 := p.src_lt
    have hd12 := p.dst_lt
    have h8 : bits w 0 8 = p.src := (bits_0_8 (hs12.trans (by decide))).2 ⟨h4, hs⟩
    exact ⟨hok, congrArg some (by simp [hs12.trans, hd12.trans, *])⟩
  · obtain ⟨s, hs, hn, rfl⟩ := h
    have h8 : bits w 0 8 = s.code := (bits_0_8 (by simp)).2 ⟨h4, hs⟩
    exact ⟨rfl, congrArg some (by simp_all [md_eq_zero, s.code_lt.trans])⟩
  · obtain ⟨d, hd, m, hm, hn, rfl⟩ := h
    rename_i s hs _
    have h8 : bits w 0 8 = s.code := (bits_0_8 s.code_lt).2 ⟨h4, BTy.ofCode_eq_some.1 hs⟩
    exact ⟨rfl, congrArg some (by simp_all [md_eq_zero, s.code_lt.trans])⟩

theorem decQset_decodes : Decodes2 (Lane 0x2A) decQset .qset := by
  rintro ⟨W, g, qd, f⟩ w e hwf h
  have h := Option.some.inj h
  cases f with
  | clr | set | nz t v =>
    simp at h
    simp [decQset, Option.bind_eq_some_iff, *]
  | bit t v n =>
    have hn : n.toNat < t.width := by simpa [Instr.wf] using hwf
    have hn' : n.toNat < 256 := n.isLt.trans (by decide)
    simp [hn'] at h
    simp [decQset, Option.bind_eq_some_iff, *]

theorem decQset_encodes : Encodes2 (Lane 0x2A) decQset := by
  intro w e i hw he h
  simp [decQset, Option.bind_eq_some_iff] at h
  obtain ⟨g, hg, hn, h⟩ := h
  split at h <;> simp [Option.bind_eq_some_iff] at h
  · obtain ⟨h0, rfl⟩ := h
    exact ⟨rfl, congrArg some (by simp [*])⟩
  · obtain ⟨h0, rfl⟩ := h
    exact ⟨rfl, congrArg some (by simp [*])⟩
  · obtain ⟨t, ht, him, rfl⟩ := h
    exact ⟨rfl, congrArg some (by simp [*])⟩
  · obtain ⟨t, ht, him, rfl⟩ := h
    have h64 : (Ext.of e).imm % 64 = (Ext.of e).imm := Nat.mod_eq_of_lt (him.trans_le (by cases t <;> decide))
    exact ⟨by simpa [Instr.wf, h64] using him, congrArg some (by simp [*])⟩

theorem decQop_decodes : Decodes1 (Lane 0x2B) decQop .qop := by
  intro o w _ h
  have h := Option.some.inj h
  simp at h
  obtain ⟨hw, hW, hqd, hqa, hqb, hf, h0⟩ := h
  refine ⟨hw, ?_⟩
  simp [decQop, Option.bind_eq_some_iff]
  exact ⟨_, hf, by simp [*]⟩

theorem decQop_encodes : Encodes1 (Lane 0x2B) decQop := by
  intro w i hw h
  simp [decQop, Option.bind_eq_some_iff] at h
  obtain ⟨f, hf, h0, rfl⟩ := h
  exact ⟨rfl, congrArg some (by simp [*])⟩

theorem decShfl_decodes : Decodes2 (Lane 0x2C) decShfl .shfl := by
  intro o w e _ h
  have h := Option.some.inj h
  have hty : (if o.wide then 7 else 6) < 16 := by split <;> decide
  simp [hty, md_seg] at h
  obtain ⟨⟨hw, hW, hvd, hva, hvb⟩, he, hg, hr, ht, ⟨hv, hi, hs⟩, hvc, him⟩ := h
  refine ⟨hw, he, ?_⟩
  simp [decShfl, Option.bind_eq_some_iff]
  obtain ⟨W, g, mode, seg, wide, vd, va, b⟩ := o
  exact ⟨_, hg, _, hr, _, hs, by cases wide <;> simp_all, _, ⟨hi, hvb, him⟩, by cases wide <;> simp_all⟩

theorem decShfl_encodes : Encodes2 (Lane 0x2C) decShfl := by
  intro w e i hw he h
  simp [decShfl, Option.bind_eq_some_iff] at h
  obtain ⟨g, hg, m, hr, sg, hs, ⟨⟨ht, hv⟩, hvc⟩, b, hb, rfl⟩ := h
  refine ⟨rfl, congrArg some ?_⟩
  rcases ht with ht | ht <;> simp [md_seg, *]

theorem decVote_decodes : Decodes2 (Lane 0x2D) decVote .vote := by
  intro o w e _ h
  have h := Option.some.inj h
  have hqa : o.qa.toNat < 256 := o.qa.isLt.trans (by decide)
  simp [md_vote, hqa, bits_8_8] at h
  obtain ⟨⟨hw, hW, hvd, hva, hvb⟩, he, hg, hr, ht, ⟨hv, hi, hs⟩, hvc, him⟩ := h
  refine ⟨hw, he, ?_⟩
  simp [decVote, Option.bind_eq_some_iff]
  exact ⟨_, hg, _, hs, _, ⟨hv, hr, hvd⟩, by simp [*]⟩

theorem decVote_encodes : Encodes2 (Lane 0x2D) decVote := by
  intro w e i hw he h
  simp [decVote, Option.bind_eq_some_iff] at h
  obtain ⟨g, hg, sg, hs, f, hf, hn, rfl⟩ := h
  have h8 : bits w 8 8 = bits w 8 3 := by simpa using bits_8_8.2 ⟨hn.2, rfl⟩
  exact ⟨rfl, congrArg some (by simp [md_vote, *])⟩

theorem decRed_decodes : Decodes2 (Lane 0x2E) decRed .red := by
  intro o w e _ h
  have h := Option.some.inj h
  simp [md_order] at h
  obtain ⟨⟨hw, hW, hvd, hva, hvb⟩, he, hg, hr, ht, ⟨ho, hs, hf⟩, hvc, him⟩ := h
  refine ⟨hw, he, ?_⟩
  simp [decRed, Option.bind_eq_some_iff]
  exact ⟨_, hg, _, ho, _, ⟨ht, him, hr, hf⟩, by simp [*]⟩

theorem decRed_encodes : Encodes2 (Lane 0x2E) decRed := by
  intro w e i hw he h
  simp [decRed, Option.bind_eq_some_iff] at h
  obtain ⟨g, hg, o, ho, f, hf, hn, rfl⟩ := h
  exact ⟨rfl, congrArg some (by simp [md_order, *])⟩

theorem decScan_decodes : Decodes2 (Lane 0x2F) decScan .scan := by
  intro o w e _ h
  have h := Option.some.inj h
  simp [md_low_iff] at h
  obtain ⟨⟨hw, hW, hvd, hva, hvb⟩, he, hg, hr, ht, ⟨ho, hs, hf⟩, hvc, him⟩ := h
  refine ⟨hw, he, ?_⟩
  simp [decScan, Option.bind_eq_some_iff]
  exact ⟨_, hg, _, ho, _, ⟨ht, him, hr, hf⟩, by simp [*]⟩

theorem decScan_encodes : Encodes2 (Lane 0x2F) decScan := by
  intro w e i hw he h
  simp [decScan, Option.bind_eq_some_iff] at h
  obtain ⟨g, hg, o, ho, f, hf, hn, rfl⟩ := h
  exact ⟨rfl, congrArg some (by simp [md_low_iff, *])⟩

section
variable {mj : Nat} (hm : mj < 64)
include hm

theorem decMem_decodes {mk : MemOp → Instr} {tile : Bool} (hwf : ∀ o, (mk o).wf = elemCountOk o.t o.c)
    (henc : ∀ o, encode (mk o) = some (encMem mj tile o)) : Decodes2 (Lane mj) (decMem mk tile) mk := by
  intro o w e hok h
  rw [hwf] at hok
  simp [henc, encMem, hm, md_order] at h
  obtain ⟨⟨hw, hW, hvd, hva, hsb, ham⟩, he, hg, hr, ht, ⟨hc, hs, hf⟩, hvc, him⟩ := h
  refine ⟨hw, he, ?_⟩
  simp [decMem, Option.bind_eq_some_iff]
  exact ⟨_, hg, _, ht, _, hc, _, ⟨ham, hsb, hva, him⟩, by simp [*]⟩

theorem decMem_encodes {mk : MemOp → Instr} {tile : Bool} (hwf : ∀ o, (mk o).wf = elemCountOk o.t o.c)
    (henc : ∀ o, encode (mk o) = some (encMem mj tile o)) : Encodes2 (Lane mj) (decMem mk tile) := by
  intro w e i hw he h
  simp [decMem, Option.bind_eq_some_iff] at h
  obtain ⟨g, hg, t, ht, c, hc, a, ha, hn, rfl⟩ := h
  simp [encMem, md_order, *]

theorem decLs_decodes {mk : LsOp → Instr} (hwf : ∀ o, (mk o).wf = elemCountOk o.t o.c)
    (henc : ∀ o, encode (mk o) = some (encLs mj o)) : Decodes2 (Lane mj) (decLs mk) mk := by
  intro o w e hok h
  rw [hwf] at hok
  simp [henc, encLs, hm, md_pool] at h
  obtain ⟨⟨hw, hW, hvd, hva, hsb, ham⟩, he, hg, hr, ht, ⟨hc, hs, hf⟩, hvc, him⟩ := h
  refine ⟨hw, he, ?_⟩
  simp [decLs, Option.bind_eq_some_iff]
  exact ⟨_, hg, _, ht, _, hc, _, ⟨ham, hsb, hva, him⟩, by simp [*]⟩

theorem decLs_encodes {mk : LsOp → Instr} (hwf : ∀ o, (mk o).wf = elemCountOk o.t o.c)
    (henc : ∀ o, encode (mk o) = some (encLs mj o)) : Encodes2 (Lane mj) (decLs mk) := by
  intro w e i hw he h
  simp [decLs, Option.bind_eq_some_iff] at h
  obtain ⟨g, hg, t, ht, c, hc, a, ha, hn, rfl⟩ := h
  simp [encLs, md_pool, *]

theorem decGather_decodes {mk : GatherOp → Instr} (henc : ∀ o, encode (mk o) = some (encGather mj o)) :
    Decodes2 (Lane mj) (decGather mk) mk := by
  intro o w e _ h
  simp [henc, encGather, hm] at h
  obtain ⟨⟨hw, hW, hvd, hva, hsb, h2⟩, he, hg, hr, ht, hmd, hvc, him⟩ := h
  refine ⟨hw, he, ?_⟩
  simp [decGather, Option.bind_eq_some_iff]
  exact ⟨_, hg, _, ht, _, ⟨h2, hsb, hva, hr, hmd, him⟩, by simp [*]⟩

theorem decGather_encodes {mk : GatherOp → Instr} (hwf : ∀ o, (mk o).wf = true) (henc : ∀ o, encode (mk o) = some (encGather mj o)) :
    Encodes2 (Lane mj) (decGather mk) := by
  intro w e i hw he h
  simp [decGather, Option.bind_eq_some_iff] at h
  obtain ⟨g, hg, t, ht, x, hx, hn, rfl⟩ := h
  simp [encGather, *]
end

theorem decAtom_decodes : Decodes2 (Lane 0x34) decAtom .atom := by
  intro o w e _ h
  have h := Option.some.inj h
  have hrel : nb o.rel < 8 := (nb_lt o.rel).trans (by decide)
  simp [hrel] at h
  obtain ⟨⟨hw, hW, hvd, hva, hsb, ham⟩, he, hg, hr, ht, hmd, hvc, him⟩ := h
  have hrel' : (nb o.rel == 1) = o.rel := by cases o.rel <;> rfl
  refine ⟨hw, he, ?_⟩
  simp [decAtom, Option.bind_eq_some_iff]
  exact ⟨_, hg, _, ⟨hmd, ht⟩, _, hvc, _, ⟨ham, hsb, hva, him⟩, by simp [*]⟩

theorem decAtom_encodes : Encodes2 (Lane 0x34) decAtom := by
  intro w e i hw he h
  simp [decAtom, Option.bind_eq_some_iff] at h
  obtain ⟨g, hg, k, hk, sc, hsc, a, ha, hr, rfl⟩ := h
  refine ⟨rfl, congrArg some ?_⟩
  obtain hr | hr : (Ext.of e).rnd = 0 ∨ (Ext.of e).rnd = 1 := by omega
  all_goals simp [nb, *]

theorem decPft_decodes : Decodes2 (Lane 0x35) decPft .pft := by
  intro o w e _ h
  have h := Option.some.inj h
  simp at h
  obtain ⟨⟨hw, hW, hvd, hva, hsb, ham⟩, he, hg, hr, ht, hmd, hvc, him⟩ := h
  refine ⟨hw, he, ?_⟩
  simp [decPft, Option.bind_eq_some_iff]
  exact ⟨_, hg, _, ⟨ham, hsb, hva, him⟩, by simp [*]⟩

theorem decPft_encodes : Encodes2 (Lane 0x35) decPft := by
  intro w e i hw he h
  simp [decPft, Option.bind_eq_some_iff] at h
  obtain ⟨g, hg, a, ha, hn, rfl⟩ := h
  exact ⟨rfl, congrArg some (by simp [*])⟩

theorem decFill_decodes : Decodes2 (Lane 0x3A) decFill .fill := by
  intro o w e _ h
  have h := Option.some.inj h
  obtain ⟨W, g, sz, sp, vt, mbar, a⟩ := o
  cases mbar <;> simp [md_order] at h
  all_goals
    obtain ⟨⟨hw, hW, hvd, hva, hsb, ham⟩, he, hg, hr, ht, ⟨hsp, hs, hf⟩, hvc, him⟩ := h
    refine ⟨hw, he, ?_⟩
    simp [decFill, Option.bind_eq_some_iff, *]

theorem decFill_encodes : Encodes2 (Lane 0x3A) decFill := by
  intro w e i hw he h
  simp [decFill, Option.bind_eq_some_iff] at h
  obtain ⟨g, hg, sz, hr, sp, hsp, a, ha, hn, rfl⟩ := h
  refine ⟨rfl, congrArg some ?_⟩
  cases hf : (Ext.of e).f <;> simp_all [md_order]

theorem decMma_decodes : Decodes2 (Lane 0x3B) decMma .mma := by
  intro o w e _ h
  have h := Option.some.inj h
  simp [fl_eq_iff] at h
  obtain ⟨⟨hw, hW, hva, hsw, hsc, hfl⟩, he, hg, hr, ht, hmd, hvc, him⟩ := h
  refine ⟨hw, he, ?_⟩
  simp [decMma, Option.bind_eq_some_iff]
  exact ⟨_, hg, _, ht, by simp [*]⟩

theorem decMma_encodes : Encodes2 (Lane 0x3B) decMma := by
  intro w e i hw he h
  simp [decMma, Option.bind_eq_some_iff] at h
  obtain ⟨g, hg, t, ht, hn, rfl⟩ := h
  exact ⟨rfl, congrArg some (by simp [fl_eq_iff, *])⟩

theorem decMmas_decodes : Decodes2 (Lane 0x3C) decMmas .mmas := by
  intro o w e _ h
  have h := Option.some.inj h
  simp [fl_eq_iff, md_pat] at h
  obtain ⟨⟨hw, hW, hva, hsw, hsc, hfl⟩, he, hg, hr, ht, hmd, hvc, him⟩ := h
  refine ⟨hw, he, ?_⟩
  simp [decMmas, Option.bind_eq_some_iff]
  exact ⟨_, hg, _, ht, by simp [*]⟩

theorem decMmas_encodes : Encodes2 (Lane 0x3C) decMmas := by
  intro w e i hw he h
  simp [decMmas, Option.bind_eq_some_iff] at h
  obtain ⟨g, hg, t, ht, hn, rfl⟩ := h
  exact ⟨rfl, congrArg some (by simp [fl_eq_iff, md_pat, *])⟩

theorem decSpk_decodes : Decodes2 (Lane 0x3D) decSpk .spk := by
  intro o w e _ h
  have h := Option.some.inj h
  simp [md_pat] at h
  obtain ⟨⟨hw, hW, hva, hsw, hsc, hfl⟩, he, hg, hr, ht, hmd, hvc, him⟩ := h
  refine ⟨hw, he, ?_⟩
  simp [decSpk, Option.bind_eq_some_iff]
  exact ⟨_, hg, _, ht, by simp [*]⟩

theorem decSpk_encodes : Encodes2 (Lane 0x3D) decSpk := by
  intro w e i hw he h
  simp [decSpk, Option.bind_eq_some_iff] at h
  obtain ⟨g, hg, t, ht, hn, rfl⟩ := h
  exact ⟨rfl, congrArg some (by simp [md_pat, *])⟩

theorem decMdrn_decodes : Decodes2 (Lane 0x3E) decMdrn .mdrn := by
  rintro ⟨W, g, dt, st, clr, lc, va, sc⟩ w e hwf h
  have hok : drainRegOk dt st lc.toNat = true := hwf
  have hdt := drainTy_of_regOk hok
  have hlt : lc.toNat < 16 := lc.isLt.trans (by decide)
  have h := Option.some.inj h
  simp [st_code, fl_clr, md_lc, hlt, st.code_lt.trans] at h
  obtain ⟨⟨hw, hW, hva, hsw, hsc, hfl⟩, he, hg, hr, ht, ⟨hmd, hlc⟩, hvc, hst⟩ := h
  have hlc' := (bits_eq_toNat_iff _ _ _).2 hlc
  simp [decMdrn, Option.bind_eq_some_iff, *]

theorem decMdrn_decodes_mem : Decodes2 (Lane 0x3E) decMdrn .mdrnMem := by
  rintro ⟨W, g, dt, st, clr, va, sc⟩ w e hwf h
  have hok : drainMemOk dt st = true := hwf
  have hdt := drainTy_of_memOk hok
  rw [drainMemOk_vc hok] at hdt
  have h := Option.some.inj h
  simp [st_code, fl_clr, md_four, st.code_lt.trans] at h
  simp [decMdrn, Option.bind_eq_some_iff, *]

theorem decMdrn_decodes_peer : Decodes2 (Lane 0x3E) decMdrn .mdrnPeer := by
  rintro ⟨W, g, ord, clr, st, sw, sc⟩ w e hwf h
  have h := Option.some.inj h
  simp [st_code, fl_eq_iff, md_eight, st.code_lt.trans] at h
  simp [decMdrn, Option.bind_eq_some_iff, *]

theorem decMdrn_encodes : Encodes2 (Lane 0x3E) decMdrn := by
  intro w e i hw he h
  simp [decMdrn, Option.bind_eq_some_iff] at h
  obtain ⟨g, hg, st, hst, ⟨hst', h02⟩, h⟩ := h
  have him := (st_code st).2 ⟨hst', hst⟩
  have him_lt : st.code < 256 := st.code_lt.trans (by decide)
  split at h <;> simp [Option.bind_eq_some_iff] at h
  · obtain ⟨dt, hdt, ⟨⟨hsw, h3⟩, hok⟩, rfl⟩ := h
    obtain ⟨ht, hr, hvc⟩ := drainTy_eq_some (vc_lt e) hdt
    generalize hlc : BitVec.ofNat 2 (bits (Ext.of e).md 0 2) = lc
    have hlt : lc.toNat < 16 := lc.isLt.trans (by decide)
    have hmd := (md_lc lc).2 ⟨‹_›, hlc⟩
    rw [(bits_eq_toNat_iff _ _ _).2 hlc] at hok
    exact ⟨hok, congrArg some (by simp [fl_clr, *])⟩
  · obtain ⟨dt, hdt, ⟨⟨⟨hsw, h3⟩, hok⟩, hlc⟩, rfl⟩ := h
    obtain ⟨ht, hr, hvc⟩ := drainTy_eq_some (vc_lt e) hdt
    rw [drainMemOk_vc hok] at hvc
    have hmd := (md_four e).2 ⟨‹_›, hlc⟩
    exact ⟨hok, congrArg some (by simp [fl_clr, *])⟩
  · obtain ⟨⟨⟨⟨⟨hva, hlc⟩, hr⟩, hvc⟩, ht⟩, rfl⟩ := h
    have hmd := (md_eight e).2 ⟨‹_›, hlc⟩
    exact ⟨rfl, congrArg some (by simp [fl_eq_iff, *])⟩

theorem decMzero_decodes : Decodes2 (Lane 0x3F) decMzero .mzero := by
  intro o w e _ h
  have h := Option.some.inj h
  have hlc : o.lc.toNat < 16 := o.lc.isLt.trans (by decide)
  simp [hlc] at h
  obtain ⟨⟨hw, hW, hva, hsw, hsc, hfl⟩, he, hg, hr, ht, hmd, hvc, him⟩ := h
  refine ⟨hw, he, ?_⟩
  simp [decMzero, Option.bind_eq_some_iff]
  exact ⟨_, hg, _, ht, by simp [*]⟩

theorem decMzero_encodes : Encodes2 (Lane 0x3F) decMzero := by
  intro w e i hw he h
  simp [decMzero, Option.bind_eq_some_iff] at h
  obtain ⟨g, hg, t, ht, hn, rfl⟩ := h
  have hmd : (Ext.of e).md % 4 = (Ext.of e).md := Nat.mod_eq_of_lt hn.1.1.2
  exact ⟨rfl, congrArg some (by simp [*])⟩

end Sys2Proof
end

section
/-! SUPPORT. Each decoder of the uniform set and the encoder undo one another: the computing forms. -/

namespace Sys2Proof

@[simp] theorem wSd_eq (w : Nat) : wSd w = BitVec.ofNat 6 (bits w 18 6) := rfl
@[simp] theorem wSa_eq (w : Nat) : wSa w = BitVec.ofNat 6 (bits w 12 6) := rfl
@[simp] theorem wSb_eq (w : Nat) : wSb w = BitVec.ofNat 6 (bits w 6 6) := rfl

@[simp] theorem encS3_eq_iff {b : Bool} {mj sd sa sb fn w : Nat} (hm : mj < 64) (hsd : sd < 64) (hsa : sa < 64) (hsb : sb < 64) (hfn : fn < 64) :
    encS b mj (bodyS3 sd sa sb fn) = w ↔ InCell true mj w ∧ wW w = b ∧ bits w 18 6 = sd ∧ bits w 12 6 = sa ∧ bits w 6 6 = sb ∧ wFn w = fn := by
  rw [encS_eq_iff hm (by simp only [bodyS3]; omega)]
  simp only [wFn, bits, bodyS3, pow_zero, Nat.div_one, Nat.reducePow]
  refine and_congr_right' (and_congr_right' ?_)
  omega

theorem encFn_eq_iff {b : Bool} {mj fn w : Nat} (hm : mj < 64) (hfn : fn < 64) :
    encS b mj fn = w ↔ InCell true mj w ∧ wW w = b ∧ bits w 18 6 = 0 ∧ bits w 12 6 = 0 ∧ bits w 6 6 = 0 ∧ wFn w = fn := by
  simpa [bodyS3] using encS3_eq_iff (b := b) (w := w) (sd := 0) (sa := 0) (sb := 0) hm (by decide) (by decide) (by decide) hfn

theorem bits_narrow_iff {w lo n a : Nat} (k : Nat) (ha : a < 2 ^ n) : bits w lo (n + k) = a ↔ bits w (lo + n) k = 0 ∧ bits w lo n = a := by
  simp only [bits, pow_add, Nat.mod_mul, Nat.div_div_eq_div_mul]
  have := Nat.mod_lt (w / 2 ^ lo) (show 0 < 2 ^ n by positivity)
  rcases Nat.eq_zero_or_pos (w / (2 ^ lo * 2 ^ n) % 2 ^ k) with h | h
  · simp [h]
  · have : 2 ^ n ≤ 2 ^ n * (w / (2 ^ lo * 2 ^ n) % 2 ^ k) := Nat.le_mul_of_pos_right _ h
    omega

theorem bits6_narrow2 {w lo : Nat} {v : BitVec 2} : bits w lo 6 = v.toNat ↔ bits w (lo + 2) 4 = 0 ∧ BitVec.ofNat 2 (bits w lo 2) = v := by
  rw [← bits_eq_toNat_iff]
  exact bits_narrow_iff 4 v.isLt

theorem bits6_narrow_lt4 {w lo a : Nat} (ha : a < 4) : bits w lo 6 = a ↔ bits w (lo + 2) 4 = 0 ∧ bits w lo 2 = a := bits_narrow_iff 4 ha

theorem bits6_narrow_lt16 {w lo a : Nat} (ha : a < 16) : bits w lo 6 = a ↔ bits w (lo + 4) 2 = 0 ∧ bits w lo 4 = a := bits_narrow_iff 2 ha

theorem bits6_narrow4 {w lo : Nat} {v : BitVec 4} : bits w lo 6 = v.toNat ↔ bits w (lo + 4) 2 = 0 ∧ BitVec.ofNat 4 (bits w lo 4) = v := by
  rw [← bits_eq_toNat_iff]
  exact bits_narrow_iff 2 v.isLt

theorem vc_narrow {e : Nat} {v : BitVec 6} : (Ext.of e).vc = v.toNat ↔ (Ext.of e).vc < 64 ∧ BitVec.ofNat 6 (Ext.of e).vc = v := by
  have hv := v.isLt
  rw [← BitVec.toNat_inj, BitVec.toNat_ofNat]
  omega

/-- Word 0 of a cell of the uniform set. -/
abbrev Uni (mj : Nat) : Nat → Prop := InCell true mj

/-! ### The integer forms -/

section
variable {mj fn : Nat} (hm : mj < 64) (hfn : fn < 64)
include hm hfn

theorem encS3_decodes {mk : SBin → Instr} {dec : Nat → Option Instr} (henc : ∀ o, encode (mk o) = some (encS3 mj fn o))
    (hdec : ∀ w, wFn w = fn → dec w = some (mk ⟨wW w, wSd w, wSa w, wSb w⟩)) : Decodes1 (Uni mj) dec mk := by
  intro o w _ h
  simp [henc, encS3, hm, hfn] at h
  simp [*]

theorem encS2_decodes {mk : SUn → Instr} {dec : Nat → Option Instr} (henc : ∀ o, encode (mk o) = some (encS2 mj fn o))
    (hdec : ∀ w, wFn w = fn → bits w 6 6 = 0 → dec w = some (mk ⟨wW w, wSd w, wSa w⟩)) : Decodes1 (Uni mj) dec mk := by
  intro o w _ h
  simp [henc, encS2, hm, hfn] at h
  simp [*]
end

section
variable {fn : Nat} (hfn : fn < 64)
include hfn

theorem encSI_decodes {mk : SImm → Instr} (henc : ∀ o, encode (mk o) = some (encSI fn o))
    (hdec : ∀ w, wFn w = fn → decIopi w = some (mk ⟨wW w, wSd w, wSa w, wSb w⟩)) : Decodes1 (Uni 1) decIopi mk := by
  intro o w _ h
  simp [henc, encSI, hfn] at h
  simp [*]

theorem encSW_decodes {mk : SWide → Instr} (henc : ∀ o, encode (mk o) = some (encSW fn o))
    (hdec : ∀ w e, wFn w = fn → bits w 6 6 = 0 → decIopw w e = some (mk ⟨wW w, wSd w, wSa w, BitVec.ofNat 32 e⟩)) :
    Decodes2 (Uni 2) decIopw mk := by
  intro o w e _ h
  simp [henc, encSW, hfn] at h
  obtain ⟨⟨hw, hW, hsd, hsa, hsb, hfn⟩, rfl⟩ := h
  simp [*]
end

theorem decIop_encodes : Encodes1 (Uni 0) decIop := by
  intro w i hw h
  simp only [decIop] at h
  split at h <;> simp at h
  case h_8 | h_15 | h_16 | h_17 =>
    obtain ⟨hz, rfl⟩ := h
    exact ⟨rfl, congrArg some (by simp [encS2, *])⟩
  all_goals
    subst h
    exact ⟨rfl, congrArg some (by simp [encS3, *])⟩

theorem decIopi_decodes_movi : Decodes1 (Uni 1) decIopi .iopiMovi := by
  intro o w _ h
  have h := Option.some.inj h
  simp at h
  simp [decIopi, *]

theorem decIopi_encodes : Encodes1 (Uni 1) decIopi := by
  intro w i hw h
  simp only [decIopi] at h
  split at h <;> simp at h
  case h_14 =>
    obtain ⟨hz, rfl⟩ := h
    exact ⟨rfl, congrArg some (by simp [*])⟩
  all_goals
    subst h
    exact ⟨rfl, congrArg some (by simp [encSI, *])⟩

theorem decIopw_decodes_movi : Decodes2 (Uni 2) decIopw .iopwMovi := by
  intro o w e _ h
  have h := Option.some.inj h
  simp at h
  obtain ⟨⟨hw, hW, hsd, hsa, hsb, hfn⟩, rfl⟩ := h
  simp [decIopw, *]

theorem decIopw_encodes : Encodes2 (Uni 2) decIopw := by
  intro w e i hw he h
  have he' : e % 4294967296 = e := Nat.mod_eq_of_lt he
  simp only [decIopw, bne_iff_ne, ite_not] at h
  simp only [Option.ite_none_right_eq_some] at h
  obtain ⟨hz, h⟩ := h
  split at h <;> simp at h
  case h_14 =>
    obtain ⟨hz, rfl⟩ := h
    exact ⟨rfl, congrArg some (by simp [*])⟩
  all_goals
    subst h
    exact ⟨rfl, congrArg some (by simp [encSW, *])⟩

/-! ### The floating forms -/

section
variable {fn : Nat} (hfn : fn < 64)
include hfn

theorem decFopBin_decodes {mk : FopBin → Instr} (henc : ∀ o, encode (mk o) = some (encFopBin fn o))
    (hdec : ∀ w e, wFn w = fn → decFop w e = decFopBin mk w (Ext.of e)) : Decodes2 (Uni 3) decFop mk := by
  intro o w e _ h
  simp [henc, encFopBin, hfn] at h
  obtain ⟨⟨hw, hW, hsd, hsa, hsb, hf⟩, he, hg, hr, ht, hmd, hvc, him⟩ := h
  refine ⟨hw, he, ?_⟩
  simp [hdec w e hf, decFopBin, Option.bind_eq_some_iff]
  exact ⟨_, hg, _, ht, _, hr, by simp [*]⟩

theorem decFopBin_encodes {mk : FopBin → Instr} (hwf : ∀ o, (mk o).wf = true) (henc : ∀ o, encode (mk o) = some (encFopBin fn o))
    {w e : Nat} {i : Instr} (hw : Uni 3 w) (hf : wFn w = fn) (he : Fits e) (h : decFopBin mk w (Ext.of e) = some i) :
    i.wf = true ∧ encode i = some (w, some e) := by
  simp [decFopBin, Option.bind_eq_some_iff] at h
  obtain ⟨g, hg, t, ht, m, hr, hn, rfl⟩ := h
  simp [encFopBin, *]

theorem decFopSel_decodes {mk : FopSel → Instr} (henc : ∀ o, encode (mk o) = some (encFopSel fn o))
    (hdec : ∀ w e, wFn w = fn → decFop w e = decFopSel mk w (Ext.of e)) : Decodes2 (Uni 3) decFop mk := by
  intro o w e _ h
  simp [henc, encFopSel, hfn] at h
  obtain ⟨⟨hw, hW, hsd, hsa, hsb, hf⟩, he, hg, hr, ht, hmd, hvc, him⟩ := h
  refine ⟨hw, he, ?_⟩
  simp [hdec w e hf, decFopSel, Option.bind_eq_some_iff]
  exact ⟨_, hg, _, ht, by simp [*]⟩

theorem decFopSel_encodes {mk : FopSel → Instr} (hwf : ∀ o, (mk o).wf = true) (henc : ∀ o, encode (mk o) = some (encFopSel fn o))
    {w e : Nat} {i : Instr} (hw : Uni 3 w) (hf : wFn w = fn) (he : Fits e) (h : decFopSel mk w (Ext.of e) = some i) :
    i.wf = true ∧ encode i = some (w, some e) := by
  simp [decFopSel, Option.bind_eq_some_iff] at h
  obtain ⟨g, hg, t, ht, hn, rfl⟩ := h
  simp [encFopSel, *]

theorem decFopUn_decodes {mk : FopUn → Instr} (henc : ∀ o, encode (mk o) = some (encFopUn fn o))
    (hdec : ∀ w e, wFn w = fn → decFop w e = decFopUn mk w (Ext.of e)) : Decodes2 (Uni 3) decFop mk := by
  intro o w e _ h
  simp [henc, encFopUn, hfn] at h
  obtain ⟨⟨hw, hW, hsd, hsa, hsb, hf⟩, he, hg, hr, ht, hmd, hvc, him⟩ := h
  refine ⟨hw, he, ?_⟩
  simp [hdec w e hf, decFopUn, Option.bind_eq_some_iff]
  exact ⟨_, hg, _, ht, _, hr, by simp [*]⟩

theorem decFopUn_encodes {mk : FopUn → Instr} (hwf : ∀ o, (mk o).wf = true) (henc : ∀ o, encode (mk o) = some (encFopUn fn o))
    {w e : Nat} {i : Instr} (hw : Uni 3 w) (hf : wFn w = fn) (he : Fits e) (h : decFopUn mk w (Ext.of e) = some i) :
    i.wf = true ∧ encode i = some (w, some e) := by
  simp [decFopUn, Option.bind_eq_some_iff] at h
  obtain ⟨g, hg, t, ht, m, hr, hn, rfl⟩ := h
  simp [encFopUn, *]
end

theorem decFopFma_decodes : Decodes2 (Uni 3) decFop .fopFfma := by
  rintro ⟨W, g, t, m, z, sd, sa, sb, sc⟩ w e _ h
  have h := Option.some.inj h
  have hsc : sc.toNat < 256 := sc.isLt.trans (by decide)
  simp [hsc, vc_narrow] at h
  simp [decFop, Option.bind_eq_some_iff, decFopFma, *]

theorem decFopCvt_decodes : Decodes2 (Uni 3) decFop .fopCvt := by
  rintro ⟨W, g, p, sd, sa⟩ w e hwf h
  have h := Option.some.inj h
  have hok : p.ok = true := hwf
  have hs := p.src_lt
  have hd := p.dst_lt
  obtain ⟨m, hm⟩ := p.rnd_eq
  obtain ⟨f, s, hfs⟩ := p.md_eq
  have hp : cvtPair p.src p.dst m f s = some p := cvtPair_eq_some.2 ⟨rfl, rfl, hm.symm, hfs.symm, hok⟩
  simp [bits6_narrow_lt16, hs.trans, hd.trans, hfs] at h
  simp [decFop, Option.bind_eq_some_iff, decFopCvt, *]
  exact ⟨m, rfl, hp⟩

theorem decFop_encodes : Encodes2 (Uni 3) decFop := by
  intro w e i hw he h
  simp only [decFop] at h
  split at h
  case h_4 =>
    simp [decFopFma, Option.bind_eq_some_iff] at h
    obtain ⟨g, hg, t, ht, m, hr, ⟨⟨⟨⟨hs, hi⟩, hv⟩, hvc⟩, him⟩, rfl⟩ := h
    have hvc' : (Ext.of e).vc % 64 = (Ext.of e).vc := Nat.mod_eq_of_lt hvc
    exact ⟨rfl, congrArg some (by simp [*])⟩
  case h_12 =>
    simp [decFopCvt, Option.bind_eq_some_iff] at h
    obtain ⟨g, hg, m, hr, p, hp, ⟨⟨⟨⟨h10, hi⟩, hv⟩, hvc⟩, him⟩, rfl⟩ := h
    obtain ⟨hs, hd, hrnd, hpmd, hok⟩ := cvtPair_eq_some.1 hp
    have hmd := md_self e
    rw [hi, hv, hpmd] at hmd
    have hs12 := p.src_lt
    have hd12 := p.dst_lt
    have h6 : bits w 6 6 = p.src := (bits6_narrow_lt16 (hs12.trans (by decide))).2 ⟨h10, hs⟩
    exact ⟨hok, congrArg some (by simp [hs12.trans, hd12.trans, *])⟩
  case h_13 => cases h
  case h_1 | h_2 | h_3 => exact decFopBin_encodes (by decide) (fun _ => rfl) (fun _ => rfl) hw ‹_› he h
  case h_5 | h_6 => exact decFopSel_encodes (by decide) (fun _ => rfl) (fun _ => rfl) hw ‹_› he h
  all_goals exact decFopUn_encodes (by decide) (fun _ => rfl) (fun _ => rfl) hw ‹_› he h

/-! ### Compares and predicates -/

theorem decCmpk_decodes_icmp : Decodes2 (Uni 4) decCmpk .cmpkIcmp := by
  rintro ⟨W, g, t, c, kd, sa, sb⟩ w e _ h
  have h := Option.some.inj h
  have hkd : kd.toNat < 64 := kd.isLt.trans (by decide)
  simp [hkd, c.code_lt.trans, bits6_narrow2] at h
  simp [decCmpk, Option.bind_eq_some_iff, *]

theorem decCmpk_decodes_fcmp : Decodes2 (Uni 4) decCmpk .cmpkFcmp := by
  rintro ⟨W, g, t, c, z, kd, sa, sb⟩ w e _ h
  have h := Option.some.inj h
  have hkd : kd.toNat < 64 := kd.isLt.trans (by decide)
  simp [hkd, c.code_lt.trans, bits6_narrow2] at h
  simp [decCmpk, Option.bind_eq_some_iff, *]

theorem decCmpk_decodes_fclass : Decodes2 (Uni 4) decCmpk .cmpkFclass := by
  rintro ⟨W, g, t, kd, sa, mask⟩ w e _ h
  have h := Option.some.inj h
  have hkd : kd.toNat < 64 := kd.isLt.trans (by decide)
  have hc : mask.toNat / 256 < 4 := by omega
  have hm : mask.toNat / 256 * 256 + mask.toNat % 256 = mask.toNat := by omega
  simp [hkd, hc, hc.trans, Nat.mod_lt, bits6_narrow_lt4] at h
  simp [decCmpk, Option.bind_eq_some_iff, *]

theorem decCmpk_encodes : Encodes2 (Uni 4) decCmpk := by
  intro w e i hw he h
  simp [decCmpk, Option.bind_eq_some_iff] at h
  obtain ⟨g, hg, ⟨⟨h20, hr⟩, hvc⟩, h⟩ := h
  have hkd : bits w 18 6 = bits w 18 2 := (bits6_narrow_lt4 (by simp)).2 ⟨h20, rfl⟩
  split at h <;> simp [Option.bind_eq_some_iff] at h
  · obtain ⟨t, ht, c, hc, hn, rfl⟩ := h
    exact ⟨rfl, congrArg some (by simp [c.code_lt.trans, *])⟩
  · obtain ⟨t, ht, c, hc, hn, rfl⟩ := h
    exact ⟨rfl, congrArg some (by simp [c.code_lt.trans, *])⟩
  · obtain ⟨t, ht, ⟨hmd, h8⟩, rfl⟩ := h
    have him := imm_lt e
    have hlt : bits w 6 2 < 4 := by simp
    have hsb : bits w 6 6 = bits w 6 2 := (bits6_narrow_lt4 hlt).2 ⟨h8, rfl⟩
    have hmask : (bits w 6 2 * 256 + (Ext.of e).imm) % 1024 = bits w 6 2 * 256 + (Ext.of e).imm := Nat.mod_eq_of_lt (by omega)
    have hhigh : (bits w 6 2 * 256 + (Ext.of e).imm) / 256 = bits w 6 2 := by omega
    have hlow : (bits w 6 2 * 256 + (Ext.of e).imm) % 256 = (Ext.of e).imm := by omega
    exact ⟨rfl, congrArg some (by simp [*])⟩

theorem decPrk_decodes_qop : Decodes1 (Uni 5) decPrk .prkQop := by
  rintro ⟨W, f, kd, ka, kb⟩ w _ h
  have h := Option.some.inj h
  have hk : ∀ k : BitVec 2, k.toNat < 64 := fun k => k.isLt.trans (by decide)
  simp [hk, f.code_lt.trans, bits6_narrow2] at h
  have h8 : f.code ≠ 8 := f.code_lt.ne
  simp [decPrk, Option.bind_eq_some_iff, *]

theorem decPrk_decodes_qset : Decodes1 (Uni 5) decPrk .prkQset := by
  rintro ⟨W, kd, f⟩ w _ h
  have h := Option.some.inj h
  have hk : ∀ k : BitVec 2, k.toNat < 64 := fun k => k.isLt.trans (by decide)
  cases f <;> simp [hk, bits6_narrow2] at h <;> simp [decPrk, Option.bind_eq_some_iff, *]

theorem decPrk_encodes : Encodes1 (Uni 5) decPrk := by
  intro w i hw h
  simp [decPrk, Option.bind_eq_some_iff] at h
  obtain ⟨h20, h⟩ := h
  have hkd : bits w 18 6 = bits w 18 2 := (bits6_narrow_lt4 (by simp)).2 ⟨h20, rfl⟩
  split at h
  · split at h <;> simp [Option.bind_eq_some_iff] at h
    · obtain ⟨h12, rfl⟩ := h
      exact ⟨rfl, congrArg some (by simp [*])⟩
    · obtain ⟨h12, rfl⟩ := h
      exact ⟨rfl, congrArg some (by simp [*])⟩
    · subst h
      exact ⟨rfl, congrArg some (by simp [*])⟩
  · simp [Option.bind_eq_some_iff] at h
    obtain ⟨f, hf, ⟨h14, h8⟩, rfl⟩ := h
    have hka : bits w 12 6 = bits w 12 2 := (bits6_narrow_lt4 (by simp)).2 ⟨h14, rfl⟩
    have hkb : bits w 6 6 = bits w 6 2 := (bits6_narrow_lt4 (by simp)).2 ⟨h8, rfl⟩
    exact ⟨rfl, congrArg some (by simp [f.code_lt.trans, *])⟩

end Sys2Proof
end

section
/-! SUPPORT. Each decoder of the uniform set and the encoder undo one another: memory, control flow, engines, queues, tiles, traps. -/

namespace Sys2Proof

@[simp] theorem toNat9_lt (v : BitVec 9) : v.toNat < 512 := v.isLt
@[simp] theorem toNat21_lt (v : BitVec 21) : v.toNat < 2097152 := v.isLt
@[simp] theorem toNat24_lt (v : BitVec 24) : v.toNat < 16777216 := v.isLt

/-! ### Word 0 of the other formats -/

section
variable {b : Bool} {mj w : Nat} (hm : mj < 64)
include hm

theorem encSld_eq_iff {st sb sz off : Nat} (hst : st < 64) (hsb : sb < 64) (hsz : sz < 8) (ho : off < 512) :
    encS b mj (off + sz * 512 + sb * 4096 + st * 262144) = w ↔
      InCell true mj w ∧ wW w = b ∧ bits w 18 6 = st ∧ bits w 12 6 = sb ∧ bits w 9 3 = sz ∧ bits w 0 9 = off := by
  rw [encS_eq_iff hm (by omega)]
  simp only [bits, pow_zero, Nat.div_one, Nat.reducePow]
  refine and_congr_right' (and_congr_right' ?_)
  omega

theorem encScope_eq_iff {m a hop c : Nat} (hmask : m < 65536) (ha : a < 2) (hh : hop < 16) (hc : c < 8) :
    encS b mj (m + a * 65536 + hop * 131072 + c * 2097152) = w ↔
      InCell true mj w ∧ wW w = b ∧ bits w 21 3 = c ∧ bits w 17 4 = hop ∧ bits w 16 1 = a ∧ bits w 0 16 = m := by
  rw [encS_eq_iff hm (by omega)]
  simp only [bits, pow_zero, Nat.div_one, Nat.reducePow]
  refine and_congr_right' (and_congr_right' ?_)
  omega

theorem encAcq_eq_iff {m hop c : Nat} (hmask : m < 65536) (hh : hop < 16) (hc : c < 8) :
    encS b mj (m + hop * 131072 + c * 2097152) = w ↔
      InCell true mj w ∧ wW w = b ∧ bits w 21 3 = c ∧ bits w 17 4 = hop ∧ bitAt w 16 = false ∧ bits w 0 16 = m := by
  simpa [bitAt_eq_iff, nb] using encScope_eq_iff (b := b) (w := w) (a := 0) hm hmask (by decide) hh hc

theorem encAcqAll_eq_iff {hop c : Nat} (hh : hop < 16) (hc : c < 8) :
    encS b mj (65536 + hop * 131072 + c * 2097152) = w ↔
      InCell true mj w ∧ wW w = b ∧ bits w 21 3 = c ∧ bits w 17 4 = hop ∧ bitAt w 16 = true ∧ bits w 0 16 = 0 := by
  simpa [bitAt_eq_iff, nb] using encScope_eq_iff (b := b) (w := w) (m := 0) (a := 1) hm (by decide) (by decide) hh hc

theorem encRel_eq_iff {hop c : Nat} (hh : hop < 16) (hc : c < 8) :
    encS b mj (hop * 131072 + c * 2097152) = w ↔
      InCell true mj w ∧ wW w = b ∧ bits w 21 3 = c ∧ bits w 17 4 = hop ∧ bits w 16 1 = 0 ∧ bits w 0 16 = 0 := by
  simpa using encScope_eq_iff (b := b) (w := w) (m := 0) (a := 0) hm (by decide) (by decide) hh hc

theorem encBrc_eq_iff {k neg off : Nat} (hk : k < 4) (hn : neg < 2) (ho : off < 2097152) :
    encS b mj (off + neg * 2097152 + k * 4194304) = w ↔
      InCell true mj w ∧ wW w = b ∧ bits w 22 2 = k ∧ bits w 21 1 = neg ∧ bits w 0 21 = off := by
  rw [encS_eq_iff hm (by omega)]
  simp only [bits, pow_zero, Nat.div_one, Nat.reducePow]
  refine and_congr_right' (and_congr_right' ?_)
  omega

theorem encBar_eq_iff {fn x : Nat} (hf : fn < 64) (hx : x < 16) :
    encS b mj (fn + x * 64) = w ↔ InCell true mj w ∧ wW w = b ∧ bits w 12 12 = 0 ∧ bits w 10 2 = 0 ∧ bits w 6 4 = x ∧ wFn w = fn := by
  rw [encS_eq_iff hm (by omega)]
  simp only [wFn, bits, pow_zero, Nat.div_one, Nat.reducePow]
  refine and_congr_right' (and_congr_right' ?_)
  omega

theorem encS_csr_eq_iff {fn csr s : Nat} (hf : fn < 64) (hc : csr < 4096) (hs : s < 64) :
    encS b mj (fn + csr * 64 + s * 262144) = w ↔ InCell true mj w ∧ wW w = b ∧ bits w 18 6 = s ∧ bits w 6 12 = csr ∧ wFn w = fn := by
  rw [encS_eq_iff hm (by omega)]
  simp only [wFn, bits, pow_zero, Nat.div_one, Nat.reducePow]
  refine and_congr_right' (and_congr_right' ?_)
  omega

theorem encCsr_eq_iff {fn : Nat} {o : CsrOp} {x : Option Nat} (hf : fn < 64) : encCsr mj fn o = (w, x) ↔
    (InCell true mj w ∧ wW w = o.w ∧ bits w 18 6 = o.s.toNat ∧ bits w 6 12 = o.csr.toNat ∧ wFn w = fn) ∧ x = none := by
  have h := encS_csr_eq_iff (b := o.w) (w := w) hm hf o.csr.isLt o.s.isLt
  rw [encCsr, Prod.mk.injEq, eq_comm (a := none)]
  exact and_congr_left' h

theorem encTrap_eq_iff {n k : Nat} (hn : n < 65536) (hk : k < 2) :
    encS b mj (n + k * 8388608) = w ↔ InCell true mj w ∧ wW w = b ∧ bits w 23 1 = k ∧ bits w 16 7 = 0 ∧ bits w 0 16 = n := by
  rw [encS_eq_iff hm (by omega)]
  simp only [bits, pow_zero, Nat.div_one, Nat.reducePow]
  refine and_congr_right' (and_congr_right' ?_)
  omega

theorem encBar0_eq_iff {x : Nat} (hx : x < 16) :
    encS b mj (x * 64) = w ↔ InCell true mj w ∧ wW w = b ∧ bits w 12 12 = 0 ∧ bits w 10 2 = 0 ∧ bits w 6 4 = x ∧ wFn w = 0 := by
  simpa using encBar_eq_iff (b := b) (w := w) (fn := 0) hm (by decide) hx

theorem encTrap0_eq_iff {n : Nat} (hn : n < 65536) :
    encS b mj n = w ↔ InCell true mj w ∧ wW w = b ∧ bitAt w 23 = false ∧ bits w 16 7 = 0 ∧ bits w 0 16 = n := by
  simpa [bitAt_eq_iff, nb] using encTrap_eq_iff (b := b) (w := w) (k := 0) hm hn (by decide)

theorem encTrap1_eq_iff {n : Nat} (hn : n < 65536) :
    encS b mj (n + 8388608) = w ↔ InCell true mj w ∧ wW w = b ∧ bitAt w 23 = true ∧ bits w 16 7 = 0 ∧ bits w 0 16 = n := by
  simpa [bitAt_eq_iff, nb] using encTrap_eq_iff (b := b) (w := w) (k := 1) hm hn (by decide)

theorem encTlbiAll_eq_iff : encS b mj 524288 = w ↔
    InCell true mj w ∧ wW w = b ∧ bits w 18 6 = 2 ∧ bits w 12 6 = 0 ∧ bits w 6 6 = 0 ∧ wFn w = 0 := by
  simpa [bodyS3] using encS3_eq_iff (b := b) (w := w) (sd := 2) (sa := 0) (sb := 0) (fn := 0) hm
end

theorem bits_6_12 (w : Nat) : bits w 6 12 = 0 ↔ bits w 12 6 = 0 ∧ bits w 6 6 = 0 := by
  simp only [bits, Nat.reducePow]; omega
theorem bits_0_12 (w : Nat) : bits w 0 12 = 0 ↔ bits w 6 6 = 0 ∧ wFn w = 0 := by
  simp only [wFn, bits, pow_zero, Nat.div_one, Nat.reducePow]; omega
theorem bits_0_17 (w : Nat) : bits w 0 17 = 0 ↔ bits w 16 1 = 0 ∧ bits w 0 16 = 0 := by
  simp only [bits, pow_zero, Nat.div_one, Nat.reducePow]; omega
theorem bits_16_8 (w : Nat) : bits w 16 8 = 0 ↔ bitAt w 23 = false ∧ bits w 16 7 = 0 := by
  simp only [bitAt, bits, Nat.reducePow, beq_eq_false_iff_ne]; omega

/-- E that holds nothing but its guard. -/
theorem gk_eq_iff {g : Option GuardK} {e : Nat} : gk g = e ↔ Fits e ∧ (Ext.of e).guardK = some g ∧ (Ext.of e).rnd = 0 ∧
    (Ext.of e).ty = 0 ∧ (Ext.of e).md = 0 ∧ (Ext.of e).vc = 0 ∧ (Ext.of e).imm = 0 := by
  simpa [ext] using extK_eq_iff (e := e) (g := g) (r := 0) (t := 0) (m := 0) (v := 0) (i := 0)

/-! ### Memory and ordering -/

theorem decSld_decodes : Decodes1 (Uni 8) decSld .sld := by
  rintro ⟨W, st, sb, sz, off⟩ w _ h
  have h := Option.some.inj h
  simp [encSld_eq_iff] at h
  simp [decSld, *]

theorem decSld_encodes : Encodes1 (Uni 8) decSld := by
  intro w i hw h
  simp [decSld] at h
  obtain ⟨z, hz, rfl⟩ := h
  exact ⟨rfl, congrArg some (by simp [encSld_eq_iff, *])⟩

theorem decSst_decodes : Decodes1 (Uni 9) decSst .sst := by
  rintro ⟨W, st, sb, sz, off⟩ w _ h
  have h := Option.some.inj h
  simp [encSld_eq_iff] at h
  simp [decSst, *]

theorem decSst_encodes : Encodes1 (Uni 9) decSst := by
  intro w i hw h
  simp [decSst] at h
  obtain ⟨z, hz, rfl⟩ := h
  exact ⟨rfl, congrArg some (by simp [encSld_eq_iff, *])⟩

theorem decSatom_decodes : Decodes2 (Uni 0x0A) decSatom .satom := by
  rintro ⟨W, g, rel, k, sc, sd, sa, sb, disp⟩ w e _ h
  have h := Option.some.inj h
  have hrel : nb rel < 8 := (nb_lt rel).trans (by decide)
  have hrel' : (nb rel == 1) = rel := by cases rel <;> rfl
  simp [hrel, k.op_lt.trans] at h
  simp [decSatom, Option.bind_eq_some_iff, *]

theorem decSatom_encodes : Encodes2 (Uni 0x0A) decSatom := by
  intro w e i hw he h
  simp [decSatom, Option.bind_eq_some_iff] at h
  obtain ⟨g, hg, k, hk, sc, hsc, hn, rfl⟩ := h
  refine ⟨rfl, congrArg some ?_⟩
  obtain hr | hr : (Ext.of e).rnd = 0 ∨ (Ext.of e).rnd = 1 := by omega
  all_goals simp [nb, k.op_lt.trans, *]

theorem scope_of_word (w : Nat) (s : Scope) : Scope.ofCode (bits w 21 3) (bits w 17 4) = some s ↔
    bits w 21 3 = s.code ∧ bits w 17 4 = s.hop := Scope.ofCode_eq_some (bits_lt ..)

@[simp] theorem Scope.ofCode_self (s : Scope) : Scope.ofCode s.code s.hop = some s := (Scope.ofCode_eq_some s.hop_lt).2 ⟨rfl, rfl⟩

theorem decAcq_decodes : Decodes1 (Uni 0x0B) decAcq .acq := by
  rintro ⟨W, sc, m⟩ w _ h
  have h := Option.some.inj h
  simp [encAcq_eq_iff] at h
  obtain ⟨hw, hW, hc, hh, h16, hm⟩ := h
  simp [decAcq, *]

theorem decAcq_decodes_all : Decodes1 (Uni 0x0B) decAcq .acqAll := by
  rintro ⟨W, sc⟩ w _ h
  have h := Option.some.inj h
  simp [encAcqAll_eq_iff] at h
  obtain ⟨hw, hW, hc, hh, h16, hm⟩ := h
  simp [decAcq, Option.bind_eq_some_iff, *]

theorem decAcq_encodes : Encodes1 (Uni 0x0B) decAcq := by
  intro w i hw h
  simp [decAcq, Option.bind_eq_some_iff, scope_of_word] at h
  obtain ⟨sc, hsc, h⟩ := h
  split at h <;> simp [Option.bind_eq_some_iff] at h
  · obtain ⟨hm, rfl⟩ := h
    exact ⟨rfl, congrArg some (by simp [encAcqAll_eq_iff, *])⟩
  · subst h
    exact ⟨rfl, congrArg some (by simp_all [encAcq_eq_iff])⟩

theorem decRel_decodes : Decodes1 (Uni 0x0C) decRel .rel := by
  rintro ⟨W, sc⟩ w _ h
  have h := Option.some.inj h
  simp [encRel_eq_iff] at h
  obtain ⟨hw, hW, hc, hh, h16, hm⟩ := h
  simp [decRel, Option.bind_eq_some_iff, bits_0_17, *]

theorem decRel_encodes : Encodes1 (Uni 0x0C) decRel := by
  intro w i hw h
  simp [decRel, Option.bind_eq_some_iff, scope_of_word, bits_0_17] at h
  obtain ⟨sc, hsc, hn, rfl⟩ := h
  exact ⟨rfl, congrArg some (by simp [encRel_eq_iff, *])⟩

theorem decMnt_decodes : Decodes2 (Uni 0x0D) decMnt .cln ∧ Decodes2 (Uni 0x0D) decMnt .inv ∧ Decodes2 (Uni 0x0D) decMnt .civ := by
  refine ⟨?_, ?_, ?_⟩ <;>
  · rintro ⟨W, g, l, sa, sb⟩ w e _ h
    have h := Option.some.inj h
    simp [encMnt] at h
    simp [decMnt, Option.bind_eq_some_iff, *]

theorem decMnt_encodes : Encodes2 (Uni 0x0D) decMnt := by
  intro w e i hw he h
  simp [decMnt, Option.bind_eq_some_iff] at h
  obtain ⟨g, hg, l, hl, hn, h⟩ := h
  split at h <;> simp at h <;> subst h <;> exact ⟨rfl, congrArg some (by simp [encMnt, *])⟩

theorem decRgn_decodes : Decodes1 (Uni 0x0E) decRgn .rgn := by
  rintro ⟨W, idx, sa, sb⟩ w _ h
  have h := Option.some.inj h
  have hidx : idx.toNat < 64 := idx.isLt.trans (by decide)
  simp [hidx, bits6_narrow4] at h
  simp [decRgn, *]

theorem decRgn_encodes : Encodes1 (Uni 0x0E) decRgn := by
  intro w i hw h
  simp [decRgn] at h
  obtain ⟨⟨hf, h22⟩, rfl⟩ := h
  have hidx : bits w 18 6 = bits w 18 4 := (bits6_narrow_lt16 (by simp)).2 ⟨h22, rfl⟩
  exact ⟨rfl, congrArg some (by simp [*])⟩

/-! ### Control flow, width regions, barriers, batches -/

/-- BRA and CALL, as `decodeUniform` reads them. -/
def decBra (mk : JumpOp → Instr) (w : Nat) : Option Instr := some (mk ⟨wW w, BitVec.ofNat 24 (bits w 0 24)⟩)
/-- BRC, as `decodeUniform` reads it. -/
def decBrc (w : Nat) : Option Instr := some (.brc ⟨wW w, BitVec.ofNat 2 (bits w 22 2), bitAt w 21, BitVec.ofNat 21 (bits w 0 21)⟩)

theorem decBra_decodes {mj : Nat} {mk : JumpOp → Instr} (hm : mj < 64) (henc : ∀ o, encode (mk o) = some (encS o.w mj o.off.toNat, none)) :
    Decodes1 (Uni mj) (decBra mk) mk := by
  intro o w _ h
  simp [henc, encS_eq_iff, hm] at h
  simp [decBra, *]

theorem decBra_encodes {mj : Nat} {mk : JumpOp → Instr} (hm : mj < 64) (hwf : ∀ o, (mk o).wf = true)
    (henc : ∀ o, encode (mk o) = some (encS o.w mj o.off.toNat, none)) :
    Encodes1 (Uni mj) (decBra mk) := by
  rintro w i hw ⟨⟩
  simp [encS_eq_iff, *]

theorem decBrc_decodes : Decodes1 (Uni 0x12) decBrc .brc := by
  rintro ⟨W, k, neg, off⟩ w _ h
  have h := Option.some.inj h
  simp [encBrc_eq_iff] at h
  simp [decBrc, *]

theorem decBrc_encodes : Encodes1 (Uni 0x12) decBrc := by
  rintro w i hw ⟨⟩
  exact ⟨rfl, congrArg some (by simp [encBrc_eq_iff, *])⟩

theorem encSrc_decodes {mj kind fn : Nat} {mk : SrcOp → Instr} {dec : Nat → Option Instr} (hm : mj < 64) (hk : kind < 64) (hfn : fn < 64)
    (henc : ∀ o, encode (mk o) = some (encSrc mj kind fn o))
    (hdec : ∀ w, bits w 18 6 = kind → bits w 6 6 = 0 → wFn w = fn → dec w = some (mk ⟨wW w, wSa w⟩)) : Decodes1 (Uni mj) dec mk := by
  intro o w _ h
  simp [henc, encSrc, hm, hk, hfn] at h
  simp [*]

theorem decBrx_encodes : Encodes1 (Uni 0x13) decBrx := by
  intro w i hw h
  simp [decBrx, Option.ite_none_left_eq_some] at h
  obtain ⟨⟨h18, h6⟩, h⟩ := h
  split at h <;> simp at h <;> subst h <;> exact ⟨rfl, congrArg some (by simp [encSrc, *])⟩

theorem decPlain_decodes {mj : Nat} {mk : WOp → Instr} (hm : mj < 64) (henc : ∀ o, encode (mk o) = some (encPlain mj o)) :
    Decodes1 (Uni mj) (decPlain mk) mk := by
  intro o w _ h
  simp [henc, encPlain, encS_eq_iff, hm] at h
  simp [decPlain, *]

theorem decPlain_encodes {mj : Nat} {mk : WOp → Instr} (hm : mj < 64) (hwf : ∀ o, (mk o).wf = true)
    (henc : ∀ o, encode (mk o) = some (encPlain mj o)) : Encodes1 (Uni mj) (decPlain mk) := by
  intro w i hw h
  simp [decPlain] at h
  obtain ⟨h0, rfl⟩ := h
  simp [encPlain, encS_eq_iff, *]

theorem decSetw_decodes_immediate : Decodes2 (Uni 0x16) decSetw .setwImmediate ∧ Decodes2 (Uni 0x16) decSetw .setwRImmediate := by
  refine ⟨?_, ?_⟩ <;>
  · rintro ⟨W, n⟩ w e hwf h
    have h := Option.some.inj h
    have hn : 1 ≤ n.toNat ∧ n.toNat ≤ 128 := by simpa [Instr.wf] using hwf
    simp [encFn_eq_iff] at h
    obtain ⟨hw, rfl⟩ := h
    simp [decSetw, Option.bind_eq_some_iff, *]

theorem decSetw_decodes_register : Decodes2 (Uni 0x16) decSetw .setwRegister ∧ Decodes2 (Uni 0x16) decSetw .setwRRegister := by
  refine ⟨?_, ?_⟩ <;>
  · rintro ⟨W, sa⟩ w e hwf h
    have h := Option.some.inj h
    simp at h
    obtain ⟨hw, rfl⟩ := h
    simp [decSetw, Option.bind_eq_some_iff, *]

theorem decSetw_encodes : Encodes2 (Uni 0x16) decSetw := by
  intro w e i hw he h
  have hmod : e % 4294967296 = e := Nat.mod_eq_of_lt he
  simp [decSetw, Option.bind_eq_some_iff] at h
  obtain ⟨⟨h18, h6⟩, h⟩ := h
  split at h <;> simp [Option.bind_eq_some_iff] at h <;> obtain ⟨hn, rfl⟩ := h
  case h_1 | h_2 => exact ⟨by simpa [Instr.wf, hmod] using hn.1, congrArg some (by simp [encFn_eq_iff, *])⟩
  all_goals exact ⟨rfl, congrArg some (by simp [*])⟩

theorem decBar_decodes : Decodes1 (Uni 0x18) decBar .bar ∧ Decodes1 (Uni 0x18) decBar .barArr ∧ Decodes1 (Uni 0x18) decBar .barWait := by
  refine ⟨?_, ?_, ?_⟩ <;>
  · rintro ⟨W, b⟩ w _ h
    have h := Option.some.inj h
    simp [encBar_eq_iff, encBar0_eq_iff] at h
    simp [decBar, *]

theorem decBar_encodes : Encodes1 (Uni 0x18) decBar := by
  intro w i hw h
  simp [decBar, Option.ite_none_left_eq_some] at h
  obtain ⟨⟨h12, h10⟩, h⟩ := h
  split at h <;> simp at h <;> subst h <;> exact ⟨rfl, congrArg some (by simp [encBar_eq_iff, encBar0_eq_iff, *])⟩

theorem decMbar_decodes_init : Decodes2 (Uni 0x1A) decMbar .mbarInit ∧ Decodes2 (Uni 0x1A) decMbar .mbarArm := by
  refine ⟨?_, ?_⟩ <;>
  · rintro ⟨W, g, sa, sb⟩ w e _ h
    have h := Option.some.inj h
    simp [gk_eq_iff] at h
    simp [decMbar, Option.bind_eq_some_iff, *]

theorem decMbar_decodes_arr : Decodes2 (Uni 0x1A) decMbar .mbarArr := by
  rintro ⟨W, g, sc, sa⟩ w e _ h
  have h := Option.some.inj h
  simp at h
  simp [decMbar, Option.bind_eq_some_iff, *]

theorem decMbar_decodes_wait : Decodes2 (Uni 0x1A) decMbar .mbarWait := by
  rintro ⟨W, g, sc, sd, sa, sb⟩ w e _ h
  have h := Option.some.inj h
  simp at h
  simp [decMbar, Option.bind_eq_some_iff, *]

theorem decMbar_encodes : Encodes2 (Uni 0x1A) decMbar := by
  intro w e i hw he h
  simp [decMbar, Option.bind_eq_some_iff] at h
  obtain ⟨g, hg, hn, h⟩ := h
  split at h <;> simp [Option.bind_eq_some_iff] at h
  case h_1 | h_2 =>
    obtain ⟨h18, rfl⟩ := h
    exact ⟨rfl, congrArg some (by simp [gk_eq_iff, *])⟩
  all_goals
    obtain ⟨sc, hsc, h⟩ := h
  · obtain ⟨h18, rfl⟩ := h
    exact ⟨rfl, congrArg some (by simp [*])⟩
  · subst h
    exact ⟨rfl, congrArg some (by simp [*])⟩

theorem decBwait_decodes_immediate : Decodes2 (Uni 0x1C) decBwait .bwaitImmediate := by
  rintro ⟨W, n⟩ w e _ h
  have h := Option.some.inj h
  have hfits : Fits n.toNat := n.isLt.trans (by decide)
  simp [encFn_eq_iff] at h
  obtain ⟨hw, rfl⟩ := h
  simp [decBwait, Option.bind_eq_some_iff, *]

theorem decBwait_decodes_register : Decodes2 (Uni 0x1C) decBwait .bwaitRegister := by
  rintro ⟨W, sa⟩ w e _ h
  have h := Option.some.inj h
  simp at h
  obtain ⟨hw, rfl⟩ := h
  simp [decBwait, Option.bind_eq_some_iff, *]

theorem decBwait_encodes : Encodes2 (Uni 0x1C) decBwait := by
  intro w e i hw he h
  simp [decBwait, Option.bind_eq_some_iff] at h
  obtain ⟨⟨h18, h6⟩, h⟩ := h
  split at h <;> simp [Option.bind_eq_some_iff] at h <;> obtain ⟨hn, rfl⟩ := h
  · have hmod : e % 65536 = e := Nat.mod_eq_of_lt hn.2
    exact ⟨rfl, congrArg some (by simp [encFn_eq_iff, *])⟩
  · exact ⟨rfl, congrArg some (by simp [*])⟩

/-! ### Engines, queues, counters, tiles -/

section
variable {mj : Nat} (hm : mj < 64)
include hm

theorem decEngine_decodes {mk : EngineOp → Instr} (henc : ∀ o, encode (mk o) = some (encEngine mj o)) :
    Decodes2 (Uni mj) (decEngine mk) mk := by
  intro o w e _ h
  simp [henc, encEngine, hm] at h
  obtain ⟨⟨hw, hW, hsd, hsa, hsb, hf⟩, he, hg, hr, ht, hmd, hvc, him⟩ := h
  refine ⟨hw, he, ?_⟩
  simp [decEngine, Option.bind_eq_some_iff]
  exact ⟨_, hg, _, hvc, by simp [bits_0_12, *]⟩

theorem decEngine_encodes {mk : EngineOp → Instr} (hwf : ∀ o, (mk o).wf = true) (henc : ∀ o, encode (mk o) = some (encEngine mj o)) :
    Encodes2 (Uni mj) (decEngine mk) := by
  intro w e i hw he h
  simp [decEngine, Option.bind_eq_some_iff, bits_0_12] at h
  obtain ⟨g, hg, sc, hsc, hn, rfl⟩ := h
  simp [encEngine, *]

theorem decQueue_decodes {mk : QueueOp → Instr} (henc : ∀ o, encode (mk o) = some (encQueue mj o)) :
    Decodes2 (Uni mj) (decQueue mk) mk := by
  intro o w e _ h
  have hlen : o.len.toNat + 1 < 256 := by have := o.len.isLt; omega
  simp [henc, encQueue, hm, hlen] at h
  obtain ⟨⟨hw, hW, hsd, hsa, hsb, hf⟩, he, hg, hr, ht, hmd, hvc, him⟩ := h
  refine ⟨hw, he, ?_⟩
  simp [decQueue, Option.bind_eq_some_iff]
  exact ⟨_, hg, _, hvc, by simp [*]⟩

theorem decQueue_encodes {mk : QueueOp → Instr} (hwf : ∀ o, (mk o).wf = true) (henc : ∀ o, encode (mk o) = some (encQueue mj o)) :
    Encodes2 (Uni mj) (decQueue mk) := by
  intro w e i hw he h
  simp [decQueue, Option.bind_eq_some_iff] at h
  obtain ⟨g, hg, sc, hsc, hn, rfl⟩ := h
  have hlen : ((Ext.of e).imm - 1) % 8 + 1 = (Ext.of e).imm := by omega
  simp [encQueue, *]

theorem decCount_decodes {mk : CountOp → Instr} (henc : ∀ o, encode (mk o) = some (encCount mj o)) :
    Decodes2 (Uni mj) (decCount mk) mk := by
  intro o w e _ h
  have hrel : nb o.rel < 8 := (nb_lt o.rel).trans (by decide)
  have hrel' : (nb o.rel == 1) = o.rel := by cases o.rel <;> rfl
  simp [henc, encCount, hm, hrel] at h
  obtain ⟨⟨hw, hW, hsd, hsa, hsb, hf⟩, he, hg, hr, ht, hmd, hvc, him⟩ := h
  refine ⟨hw, he, ?_⟩
  simp [decCount, Option.bind_eq_some_iff]
  exact ⟨_, hg, _, hvc, by simp [*]⟩

theorem decCount_encodes {mk : CountOp → Instr} (hwf : ∀ o, (mk o).wf = true) (henc : ∀ o, encode (mk o) = some (encCount mj o)) :
    Encodes2 (Uni mj) (decCount mk) := by
  intro w e i hw he h
  simp [decCount, Option.bind_eq_some_iff] at h
  obtain ⟨g, hg, sc, hsc, hn, rfl⟩ := h
  obtain hr | hr : (Ext.of e).rnd = 0 ∨ (Ext.of e).rnd = 1 := by omega
  all_goals simp [encCount, nb, *]

theorem decTile_decodes {mk : SUn → Instr} (henc : ∀ o, encode (mk o) = some (encS2 mj 0 o)) : Decodes1 (Uni mj) (decTile mk) mk :=
  encS2_decodes hm (by decide) henc fun w hf h6 => by simp [decTile, bits_0_12, *]

theorem decTile_encodes {mk : SUn → Instr} (hwf : ∀ o, (mk o).wf = true) (henc : ∀ o, encode (mk o) = some (encS2 mj 0 o)) :
    Encodes1 (Uni mj) (decTile mk) := by
  intro w i hw h
  simp [decTile, bits_0_12] at h
  obtain ⟨h0, rfl⟩ := h
  simp [encS2, *]
end

theorem decSpawn_decodes : Decodes2 (Uni 0x23) decSpawn .spawn := by
  rintro ⟨W, g, sa, sb, sc⟩ w e _ h
  have h := Option.some.inj h
  have hsc : sc.toNat < 256 := sc.isLt.trans (by decide)
  simp [hsc, vc_narrow] at h
  simp [decSpawn, Option.bind_eq_some_iff, *]

theorem decSpawn_encodes : Encodes2 (Uni 0x23) decSpawn := by
  intro w e i hw he h
  simp [decSpawn, Option.bind_eq_some_iff] at h
  obtain ⟨g, hg, hn, rfl⟩ := h
  have hvc : (Ext.of e).vc % 64 = (Ext.of e).vc := Nat.mod_eq_of_lt hn.1.2
  exact ⟨rfl, congrArg some (by simp [*])⟩

theorem decTdef_decodes : Decodes2 (Uni 0x28) decTdef .tdef := by
  rintro ⟨W, g, sd, sa, sb⟩ w e _ h
  have h := Option.some.inj h
  simp [gk_eq_iff] at h
  simp [decTdef, Option.bind_eq_some_iff, *]

theorem decTdef_encodes : Encodes2 (Uni 0x28) decTdef := by
  intro w e i hw he h
  simp [decTdef, Option.bind_eq_some_iff] at h
  obtain ⟨g, hg, hn, rfl⟩ := h
  exact ⟨rfl, congrArg some (by simp [gk_eq_iff, *])⟩

/-! ### Traps, control registers, privileged instructions -/

theorem decTrap_decodes : Decodes1 (Uni 0x2E) decTrap .trap ∧ Decodes1 (Uni 0x2E) decTrap .trapBreak := by
  refine ⟨?_, ?_⟩ <;>
  · rintro ⟨W, n⟩ w _ h
    have h := Option.some.inj h
    simp [encTrap0_eq_iff, encTrap1_eq_iff] at h
    simp [decTrap, *]

theorem decTrap_encodes : Encodes1 (Uni 0x2E) decTrap := by
  intro w i hw h
  simp [decTrap] at h
  obtain ⟨h16, rfl⟩ := h
  cases hb : bitAt w 23 <;> exact ⟨rfl, congrArg some (by simp [encTrap0_eq_iff, encTrap1_eq_iff, *])⟩

theorem decCsrr_decodes : Decodes1 (Uni 0x30) decCsrr .csrr := by
  rintro ⟨W, s, csr⟩ w _ h
  have h := Option.some.inj h
  simp [encCsr_eq_iff] at h
  simp [decCsrr, *]

theorem decCsrr_encodes : Encodes1 (Uni 0x30) decCsrr := by
  intro w i hw h
  simp [decCsrr] at h
  obtain ⟨hf, rfl⟩ := h
  exact ⟨rfl, congrArg some (by simp [encCsr_eq_iff, *])⟩

theorem decCsrw_decodes : Decodes1 (Uni 0x31) decCsrw .csrw ∧ Decodes1 (Uni 0x31) decCsrw .csrwSet ∧ Decodes1 (Uni 0x31) decCsrw .csrwClr := by
  refine ⟨?_, ?_, ?_⟩ <;>
  · rintro ⟨W, s, csr⟩ w _ h
    have h := Option.some.inj h
    simp [encCsr_eq_iff] at h
    simp [decCsrw, *]

theorem decCsrw_encodes : Encodes1 (Uni 0x31) decCsrw := by
  intro w i hw h
  simp [decCsrw] at h
  split at h <;> simp at h <;> subst h <;> exact ⟨rfl, congrArg some (by simp [encCsr_eq_iff, *])⟩

theorem decSvc_decodes : Decodes1 (Uni 0x32) decSvc .svc := by
  rintro ⟨W, n⟩ w _ h
  have h := Option.some.inj h
  simp [encTrap0_eq_iff] at h
  simp [decSvc, bits_16_8, *]

theorem decSvc_encodes : Encodes1 (Uni 0x32) decSvc := by
  intro w i hw h
  simp [decSvc, bits_16_8] at h
  obtain ⟨h0, rfl⟩ := h
  exact ⟨rfl, congrArg some (by simp [encTrap0_eq_iff, *])⟩

theorem decTlbi_decodes_page : Decodes1 (Uni 0x34) decTlbi .tlbiPage := by
  rintro ⟨W, sa, sb⟩ w _ h
  have h := Option.some.inj h
  simp at h
  simp [decTlbi, *]

theorem decTlbi_decodes_asid : Decodes1 (Uni 0x34) decTlbi .tlbiAsid :=
  encSrc_decodes (kind := 1) (fn := 0) (by decide) (by decide) (by decide) (fun _ => rfl) fun w hk h6 hf => by simp [decTlbi, *]

theorem decTlbi_decodes_all : Decodes1 (Uni 0x34) decTlbi .tlbiAll := by
  rintro ⟨W⟩ w _ h
  have h := Option.some.inj h
  simp [encTlbiAll_eq_iff] at h
  simp [decTlbi, bits_6_12, *]

theorem decTlbi_encodes : Encodes1 (Uni 0x34) decTlbi := by
  intro w i hw h
  simp [decTlbi] at h
  obtain ⟨hf, h⟩ := h
  split at h <;> simp at h
  · subst h
    exact ⟨rfl, congrArg some (by simp [*])⟩
  · obtain ⟨h6, rfl⟩ := h
    exact ⟨rfl, congrArg some (by simp [encSrc, *])⟩
  · obtain ⟨h6, rfl⟩ := h
    rw [bits_6_12] at h6
    exact ⟨rfl, congrArg some (by simp [encTlbiAll_eq_iff, *])⟩

theorem decCtxi_decodes : Decodes1 (Uni 0x35) decCtxi .ctxi :=
  encSrc_decodes (kind := 0) (fn := 0) (by decide) (by decide) (by decide) (fun _ => rfl) fun w hk h6 hf => by simp [decCtxi, bits_0_12, *]

theorem decCtxi_encodes : Encodes1 (Uni 0x35) decCtxi := by
  intro w i hw h
  simp [decCtxi, bits_0_12] at h
  obtain ⟨h0, rfl⟩ := h
  exact ⟨rfl, congrArg some (by simp [encSrc, *])⟩

theorem decKeyset_decodes_load : Decodes2 (Uni 0x36) decKeyset .keysetLoad := by
  rintro ⟨W, g, sd, sa, sb⟩ w e _ h
  have h := Option.some.inj h
  simp [gk_eq_iff] at h
  simp [decKeyset, Option.bind_eq_some_iff, *]

theorem decKeyset_decodes : Decodes2 (Uni 0x36) decKeyset .keysetGen ∧ Decodes2 (Uni 0x36) decKeyset .keysetErase := by
  refine ⟨?_, ?_⟩ <;>
  · rintro ⟨W, g, sd, sa⟩ w e _ h
    have h := Option.some.inj h
    simp at h
    simp [decKeyset, Option.bind_eq_some_iff, *]

theorem decKeyset_encodes : Encodes2 (Uni 0x36) decKeyset := by
  intro w e i hw he h
  simp [decKeyset, Option.bind_eq_some_iff] at h
  obtain ⟨g, hg, hn, h⟩ := h
  split at h <;> simp [Option.bind_eq_some_iff] at h
  · subst h
    exact ⟨rfl, congrArg some (by simp [gk_eq_iff, *])⟩
  all_goals
    obtain ⟨h6, rfl⟩ := h
    exact ⟨rfl, congrArg some (by simp [*])⟩

end Sys2Proof
end

section
/-! SUPPORT. Decoding and encoding, over all majors. -/

namespace Sys2Proof

/-- The run class of an instruction (R80, R83). -/
def runClass : Instr → Machine.Cls
  | .mov _ | .specialMov _ | .movi _ | .moviw _ | .iaddi _ | .lea _ | .brd _ | .join _ | .iadd _ | .isub _ | .imul _
  | .imad _ | .imin _ | .imax _ | .iabs _ | .icmp _ | .sel _ | .fadd _ | .fsub _ | .fmul _ | .ffma _ | .fmin _
  | .fmax _ | .fcmp _ | .fclass _ | .ldgRow _ | .shl _ | .shr _ | .sha _ | .and _ | .or _ | .xor _ | .bfx _ | .bfi _
  | .popc _ | .clz _ | .frcp _ | .fsqrt _ | .frsq _ | .fexp2 _ | .flog2 _ | .cvt _ | .pack _ | .unpk _ | .qset _
  | .qop _ | .shfl _ | .vote _ | .red _ | .scan _ | .ld _ | .st _ | .lda _ | .sta _ | .ldaTile _ | .staTile _ | .ldg _
  | .stg _ | .atom _ | .pft _ | .ldl _ | .stl _ | .fill _ | .mma _ | .mmas _ | .spk _ | .mdrn _ | .mdrnMem _
  | .mdrnPeer _ | .mzero _ => .lane
  | .exit _ | .setwImmediate _ | .setwRImmediate _ | .setwRegister _ | .setwRRegister _ | .endw _ | .bar _ | .barArr _
  | .barWait _ | .gbar _ | .mbarInit _ | .mbarArm _ | .mbarArr _ | .mbarWait _ | .spawn _ | .tdef _ | .tseal _
  | .tdrop _ | .thold _ | .tfree _ | .tfence _ | .trap _ | .trapBreak _ | .rte _ => .compute
  | .svc _ | .eret _ | .tlbiPage _ | .tlbiAsid _ | .tlbiAll _ | .ctxi _ | .keysetLoad _ | .keysetGen _
  | .keysetErase _ | .halt _ => .priv
  | _ => .both

/-- The run class of a cell (R80, R82). -/
def cellClass (set : Bool) (mj : Nat) : Machine.Cls :=
  if set = false then .lane else if mj ∈ Machine.classC then .compute else if 0x32 ≤ mj then .priv else .both

/-- The words of an instruction: of 32 bits, of the length and the run class of their cell, and decoded to it. -/
structure WordsOf (i : Instr) (w : Nat) (x : Option Nat) : Prop where
  fits : w < 2 ^ 32
  extFits : ∀ e, x = some e → e < 2 ^ 32
  length : lengthOf w = some (if x.isSome then 2 else 1)
  decodes : decode w (x.getD 0) = some i
  runClass : runClass i = cellClass (wSet w) (wMajor w)

/-- Whatever `i` encodes to are words of it. -/
def DecodesBack (i : Instr) : Prop := ∀ w x, encode i = some (w, x) → WordsOf i w x

theorem Decodes1.decodesBack {α : Type} {b : Bool} {mj : Nat} {dec : Nat → Option Instr} {mk : α → Instr} {o : α}
    (h : Decodes1 (InCell b mj) dec mk) (hcell : ∀ w, InCell b mj w → lengthOf w = some 1 ∧ decode w 0 = dec w)
    (hcls : runClass (mk o) = cellClass b mj) (hx : ∃ w, encode (mk o) = some (w, none)) (hwf : (mk o).wf = true) : DecodesBack (mk o) := by
  intro w x hw
  obtain ⟨w', hw'⟩ := hx
  obtain ⟨rfl, rfl⟩ : w' = w ∧ none = x := by simpa [hw'] using hw
  obtain ⟨hc, hd⟩ := h o w' hwf hw
  obtain ⟨hlen, hdec⟩ := hcell w' hc
  exact ⟨hc.fits, nofun, hlen, hdec.trans hd, hcls.trans (by rw [hc.set, hc.major])⟩

theorem Decodes2.decodesBack {α : Type} {b : Bool} {mj : Nat} {dec : Nat → Nat → Option Instr} {mk : α → Instr} {o : α}
    (h : Decodes2 (InCell b mj) dec mk) (hcell : ∀ w e, InCell b mj w → lengthOf w = some 2 ∧ decode w e = dec w e)
    (hcls : runClass (mk o) = cellClass b mj) (hx : ∃ w e, encode (mk o) = some (w, some e)) (hwf : (mk o).wf = true) : DecodesBack (mk o) := by
  intro w x hw
  obtain ⟨w', e, hw'⟩ := hx
  obtain ⟨rfl, rfl⟩ : w' = w ∧ some e = x := by simpa [hw'] using hw
  obtain ⟨hc, he, hd⟩ := h o w' e hwf hw
  obtain ⟨hlen, hdec⟩ := hcell w' e hc
  exact ⟨hc.fits, fun _ h => Option.some.inj h ▸ he, hlen, hdec.trans hd, hcls.trans (by rw [hc.set, hc.major])⟩

/-- The steps of the hardware are what has no word (R89). -/
theorem encode_isSome (i : Instr) : (encode i).isSome = !Machine.hardwareStep i := by
  cases i <;> rfl

/-- The majors of LDA and of STA hold a second form, which the bit F of E picks (R245). -/
def decByTile (mkTile mk : MemOp → Instr) (w e : Nat) : Option Instr :=
  if (Ext.of e).f then decMem mkTile true w e else decMem mk false w e

/-- A memory access decodes under one value of the bit F alone. -/
theorem decMem_f {mk : MemOp → Instr} {tile : Bool} {w e : Nat} {i : Instr} (h : decMem mk tile w e = some i) : (Ext.of e).f = tile := by
  simp [decMem, Option.bind_eq_some_iff] at h
  obtain ⟨_, _, _, _, _, _, _, _, hn, _⟩ := h
  simp [hn]

theorem decByTile_decodes_tile {mj : Nat} {mkTile mk : MemOp → Instr} (h : Decodes2 (Lane mj) (decMem mkTile true) mkTile) :
    Decodes2 (Lane mj) (decByTile mkTile mk) mkTile := by
  intro o w e hwf henc
  obtain ⟨hw, he, hd⟩ := h o w e hwf henc
  exact ⟨hw, he, by simp [decByTile, decMem_f hd, hd]⟩

theorem decByTile_decodes {mj : Nat} {mkTile mk : MemOp → Instr} (h : Decodes2 (Lane mj) (decMem mk false) mk) :
    Decodes2 (Lane mj) (decByTile mkTile mk) mk := by
  intro o w e hwf henc
  obtain ⟨hw, he, hd⟩ := h o w e hwf henc
  exact ⟨hw, he, by simp [decByTile, decMem_f hd, hd]⟩

theorem Decodes1.lane {α : Type} {mj : Nat} {dec : Nat → Option Instr} {mk : α → Instr} {o : α} (h : Decodes1 (Lane mj) dec mk)
    (hwf : (mk o).wf = true) (hl : laneLength mj = some 1 := by rfl)
    (hd : ∀ w, wMajor w = mj → decodeLane w 0 = dec w := by intro w hw; rw [decodeLane, hw]; rfl)
    (hcls : runClass (mk o) = cellClass false mj := by rfl)
    (hx : ∃ w, encode (mk o) = some (w, none) := by exact ⟨_, rfl⟩) : DecodesBack (mk o) :=
  h.decodesBack (fun w hc => ⟨by simp [lengthOf, hc.set, hc.major, hl], by simp [decode, hc.set, hd w hc.major]⟩) hcls hx hwf

theorem Decodes2.lane {α : Type} {mj : Nat} {dec : Nat → Nat → Option Instr} {mk : α → Instr} {o : α} (h : Decodes2 (Lane mj) dec mk)
    (hwf : (mk o).wf = true) (hl : laneLength mj = some 2 := by rfl)
    (hd : ∀ w e, wMajor w = mj → decodeLane w e = dec w e := by intro w e hw; rw [decodeLane, hw]; rfl)
    (hcls : runClass (mk o) = cellClass false mj := by rfl)
    (hx : ∃ w e, encode (mk o) = some (w, some e) := by exact ⟨_, _, rfl⟩) : DecodesBack (mk o) :=
  h.decodesBack (fun w e hc => ⟨by simp [lengthOf, hc.set, hc.major, hl], by simp [decode, hc.set, hd w e hc.major]⟩) hcls hx hwf

theorem Decodes1.uni {α : Type} {mj : Nat} {dec : Nat → Option Instr} {mk : α → Instr} {o : α} (h : Decodes1 (Uni mj) dec mk)
    (hwf : (mk o).wf = true) (hl : uniformLength mj = some 1 := by rfl)
    (hd : ∀ w, wMajor w = mj → decodeUniform w 0 = dec w := by intro w hw; rw [decodeUniform, hw]; rfl)
    (hcls : runClass (mk o) = cellClass true mj := by rfl)
    (hx : ∃ w, encode (mk o) = some (w, none) := by exact ⟨_, rfl⟩) : DecodesBack (mk o) :=
  h.decodesBack (fun w hc => ⟨by simp [lengthOf, hc.set, hc.major, hl], by simp [decode, hc.set, hd w hc.major]⟩) hcls hx hwf

theorem Decodes2.uni {α : Type} {mj : Nat} {dec : Nat → Nat → Option Instr} {mk : α → Instr} {o : α} (h : Decodes2 (Uni mj) dec mk)
    (hwf : (mk o).wf = true) (hl : uniformLength mj = some 2 := by rfl)
    (hd : ∀ w e, wMajor w = mj → decodeUniform w e = dec w e := by intro w e hw; rw [decodeUniform, hw]; rfl)
    (hcls : runClass (mk o) = cellClass true mj := by rfl)
    (hx : ∃ w e, encode (mk o) = some (w, some e) := by exact ⟨_, _, rfl⟩) : DecodesBack (mk o) :=
  h.decodesBack (fun w e hc => ⟨by simp [lengthOf, hc.set, hc.major, hl], by simp [decode, hc.set, hd w e hc.major]⟩) hcls hx hwf

/-- Every instruction that keeps the operand rules has words of its cell that decode to it: cell by cell. -/
theorem decodesBack (i : Instr) (hwf : i.wf = true) : DecodesBack i := by
  cases i with
  | mov o => exact decMov_decodes_mov.lane hwf
  | specialMov o => exact decMov_decodes_specialMov.lane hwf
  | movi o => exact decMovi_decodes.lane hwf
  | moviw o => exact decMoviw_decodes.lane hwf
  | iaddi o => exact decIaddi_decodes.lane hwf
  | lea o => exact decLea_decodes.lane hwf
  | brd o => exact decBrd_decodes.lane hwf
  | join o => exact decJoin_decodes.lane hwf
  | iadd o | isub o =>
    exact (decIntSat_decodes (by decide) fun _ => rfl).lane hwf
  | imul o => exact decImul_decodes.lane hwf
  | imad o => exact decImad_decodes.lane hwf
  | imin o =>
    exact (decIminmax_decodes (v := false) (fun _ => rfl) fun _ => rfl).lane hwf
  | imax o =>
    exact (decIminmax_decodes (v := true) (fun _ => rfl) fun _ => rfl).lane hwf
  | iabs o => exact decIabs_decodes.lane hwf
  | icmp o => exact decIcmp_decodes.lane hwf
  | sel o => exact decSel_decodes.lane hwf
  | fadd o | fsub o | fmul o =>
    exact (decFBin_decodes (by decide) fun _ => rfl).lane hwf
  | ffma o => exact decFfma_decodes.lane hwf
  | fmin o =>
    exact (decFminmax_decodes (v := false) (fun _ => rfl) fun _ => rfl).lane hwf
  | fmax o =>
    exact (decFminmax_decodes (v := true) (fun _ => rfl) fun _ => rfl).lane hwf
  | fcmp o => exact decFcmp_decodes.lane hwf
  | fclass o => exact decFclass_decodes.lane hwf
  | ldgRow o => exact decLdgRow_decodes.lane hwf
  | shl o | shr o | sha o | and o | or o | xor o =>
    exact (decIntBin_decodes (by decide) fun _ => rfl).lane hwf
  | bfx o => exact decBfx_decodes.lane hwf (hx := by obtain ⟨_, _, _, _, _, _ | _⟩ := o <;> exact ⟨_, _, rfl⟩)
  | bfi o => exact decBfi_decodes.lane hwf (hx := by obtain ⟨_, _, _, _, _, _ | _, _⟩ := o <;> exact ⟨_, _, rfl⟩)
  | popc o | clz o =>
    exact (decIntCount_decodes (by decide) fun _ => rfl).lane hwf
  | frcp o | fsqrt o | frsq o | fexp2 o | flog2 o =>
    exact (decFUn_decodes (by decide) fun _ => rfl).lane hwf
  | cvt o => exact decCvt_decodes.lane hwf (hx := by obtain ⟨_, _, _ | _ | _, _, _⟩ := o <;> exact ⟨_, _, rfl⟩)
  | pack o => exact decPack_decodes.lane hwf
  | unpk o => exact decUnpk_decodes.lane hwf
  | qset o => exact decQset_decodes.lane hwf (hx := by obtain ⟨_, _, _, _ | _ | _ | _⟩ := o <;> exact ⟨_, _, rfl⟩)
  | qop o => exact decQop_decodes.lane hwf
  | shfl o => exact decShfl_decodes.lane hwf
  | vote o => exact decVote_decodes.lane hwf
  | red o => exact decRed_decodes.lane hwf
  | scan o => exact decScan_decodes.lane hwf
  | ld o | st o =>
    exact (decMem_decodes (by decide) (fun _ => rfl) fun _ => rfl).lane hwf
  | lda o =>
    exact (decByTile_decodes (mkTile := .ldaTile) (decMem_decodes (by decide) (fun _ => rfl) fun _ => rfl)).lane hwf
  | sta o =>
    exact (decByTile_decodes (mkTile := .staTile) (decMem_decodes (by decide) (fun _ => rfl) fun _ => rfl)).lane hwf
  | ldaTile o =>
    exact (decByTile_decodes_tile (mk := .lda) (decMem_decodes (by decide) (fun _ => rfl) fun _ => rfl)).lane hwf
  | staTile o =>
    exact (decByTile_decodes_tile (mk := .sta) (decMem_decodes (by decide) (fun _ => rfl) fun _ => rfl)).lane hwf
  | ldg o | stg o =>
    exact (decGather_decodes (by decide) fun _ => rfl).lane hwf
  | atom o => exact decAtom_decodes.lane hwf
  | pft o => exact decPft_decodes.lane hwf
  | ldl o | stl o =>
    exact (decLs_decodes (by decide) (fun _ => rfl) fun _ => rfl).lane hwf
  | fill o => exact decFill_decodes.lane hwf
  | mma o => exact decMma_decodes.lane hwf
  | mmas o => exact decMmas_decodes.lane hwf
  | spk o => exact decSpk_decodes.lane hwf
  | mdrn o => exact decMdrn_decodes.lane hwf
  | mdrnMem o => exact decMdrn_decodes_mem.lane hwf
  | mdrnPeer o => exact decMdrn_decodes_peer.lane hwf
  | mzero o => exact decMzero_decodes.lane hwf
  | iopIadd o | iopIsub o | iopImul o | iopIminI64 o | iopImaxI64 o | iopIminN64 o | iopImaxN64 o | iopAnd o 
    | iopOr o | iopXor o | iopShl o | iopShr o | iopSha o =>
    exact (encS3_decodes (dec := decIop) (by decide) (by decide) (fun _ => rfl) fun w hf => by rw [decIop, hf]; rfl).uni hwf
  | iopIabs o | iopPopc o | iopClz o | iopMov o =>
    exact (encS2_decodes (dec := decIop) (by decide) (by decide) (fun _ => rfl) fun w hf h6 => by simp [decIop, hf, h6]).uni hwf
  | iopiIadd o | iopiIsub o | iopiImul o | iopiIminI64 o | iopiImaxI64 o | iopiIminN64 o | iopiImaxN64 o | iopiAnd o 
    | iopiOr o | iopiXor o | iopiShl o | iopiShr o | iopiSha o =>
    exact (encSI_decodes (by decide) (fun _ => rfl) fun w hf => by rw [decIopi, hf]; rfl).uni hwf
  | iopiMovi o => exact decIopi_decodes_movi.uni hwf
  | iopwIadd o | iopwIsub o | iopwImul o | iopwIminI64 o | iopwImaxI64 o | iopwIminN64 o | iopwImaxN64 o | iopwAnd o 
    | iopwOr o | iopwXor o | iopwShl o | iopwShr o | iopwSha o =>
    exact (encSW_decodes (by decide) (fun _ => rfl) fun w e hf h6 => by simp [decIopw, hf, h6]).uni hwf
  | iopwMovi o => exact decIopw_decodes_movi.uni hwf
  | fopFadd o | fopFsub o | fopFmul o =>
    exact (decFopBin_decodes (by decide) (fun _ => rfl) fun w e hf => by rw [decFop, hf]; rfl).uni hwf
  | fopFfma o => exact decFopFma_decodes.uni hwf
  | fopFmin o | fopFmax o =>
    exact (decFopSel_decodes (by decide) (fun _ => rfl) fun w e hf => by rw [decFop, hf]; rfl).uni hwf
  | fopFrcp o | fopFsqrt o | fopFrsq o | fopFexp2 o | fopFlog2 o =>
    exact (decFopUn_decodes (by decide) (fun _ => rfl) fun w e hf => by rw [decFop, hf]; rfl).uni hwf
  | fopCvt o => exact decFopCvt_decodes.uni hwf
  | cmpkIcmp o => exact decCmpk_decodes_icmp.uni hwf
  | cmpkFcmp o => exact decCmpk_decodes_fcmp.uni hwf
  | cmpkFclass o => exact decCmpk_decodes_fclass.uni hwf
  | prkQop o => exact decPrk_decodes_qop.uni hwf
  | prkQset o => exact decPrk_decodes_qset.uni hwf (hx := by obtain ⟨_, _, _ | _ | _⟩ := o <;> exact ⟨_, rfl⟩)
  | sld o => exact decSld_decodes.uni hwf
  | sst o => exact decSst_decodes.uni hwf
  | satom o => exact decSatom_decodes.uni hwf
  | acq o => exact decAcq_decodes.uni hwf
  | acqAll o => exact decAcq_decodes_all.uni hwf
  | rel o => exact decRel_decodes.uni hwf
  | cln o => exact decMnt_decodes.1.uni hwf
  | inv o => exact decMnt_decodes.2.1.uni hwf
  | civ o => exact decMnt_decodes.2.2.uni hwf
  | rgn o => exact decRgn_decodes.uni hwf
  | bra o | call o =>
    exact (decBra_decodes (by decide) fun _ => rfl).uni hwf
  | brc o => exact decBrc_decodes.uni hwf
  | braRegister o | callRegister o | ret o =>
    exact (encSrc_decodes (dec := decBrx) (by decide) (by decide) (by decide) (fun _ => rfl) fun w h18 h6 hf => by simp [decBrx, h18, h6, hf]).uni hwf
  | exit o | yieldSlot o | endw o | gbar o | bclose o | tfence o | rte o | eret o | halt o =>
    exact (decPlain_decodes (by decide) fun _ => rfl).uni hwf
  | setwImmediate o => exact decSetw_decodes_immediate.1.uni hwf
  | setwRImmediate o => exact decSetw_decodes_immediate.2.uni hwf
  | setwRegister o => exact decSetw_decodes_register.1.uni hwf
  | setwRRegister o => exact decSetw_decodes_register.2.uni hwf
  | bar o => exact decBar_decodes.1.uni hwf
  | barArr o => exact decBar_decodes.2.1.uni hwf
  | barWait o => exact decBar_decodes.2.2.uni hwf
  | mbarInit o => exact decMbar_decodes_init.1.uni hwf
  | mbarArm o => exact decMbar_decodes_init.2.uni hwf
  | mbarArr o => exact decMbar_decodes_arr.uni hwf
  | mbarWait o => exact decMbar_decodes_wait.uni hwf
  | bwaitImmediate o => exact decBwait_decodes_immediate.uni hwf
  | bwaitRegister o => exact decBwait_decodes_register.uni hwf
  | ecpy o | epub o | ecoll o =>
    exact (decEngine_decodes (by decide) fun _ => rfl).uni hwf
  | spawn o => exact decSpawn_decodes.uni hwf
  | enq o | deq o =>
    exact (decQueue_decodes (by decide) fun _ => rfl).uni hwf
  | cdec o | cinc o =>
    exact (decCount_decodes (by decide) fun _ => rfl).uni hwf
  | tdef o => exact decTdef_decodes.uni hwf
  | tseal o | tdrop o | thold o | tfree o =>
    exact (decTile_decodes (by decide) fun _ => rfl).uni hwf
  | trap o => exact decTrap_decodes.1.uni hwf
  | trapBreak o => exact decTrap_decodes.2.uni hwf
  | csrr o => exact decCsrr_decodes.uni hwf
  | csrw o => exact decCsrw_decodes.1.uni hwf
  | csrwSet o => exact decCsrw_decodes.2.1.uni hwf
  | csrwClr o => exact decCsrw_decodes.2.2.uni hwf
  | svc o => exact decSvc_decodes.uni hwf
  | tlbiPage o => exact decTlbi_decodes_page.uni hwf
  | tlbiAsid o => exact decTlbi_decodes_asid.uni hwf
  | tlbiAll o => exact decTlbi_decodes_all.uni hwf
  | ctxi o => exact decCtxi_decodes.uni hwf
  | keysetLoad o => exact decKeyset_decodes_load.uni hwf
  | keysetGen o => exact decKeyset_decodes.1.uni hwf
  | keysetErase o => exact decKeyset_decodes.2.uni hwf
  | _ => exact nofun

/-- What a decoded instruction owes the words it was decoded from. -/
def EncodesBack (w e : Nat) (i : Instr) : Prop :=
  i.wf = true ∧ ∃ x, encode i = some (w, x) ∧ (∀ y, x = some y → y = e) ∧ (x = none → lengthOf w = some 1)

theorem Encodes1.encodesBack {S : Nat → Prop} {dec : Nat → Option Instr} {w e : Nat} {i : Instr} (h : Encodes1 S dec) (hS : S w)
    (hlen : lengthOf w = some 1) (hd : dec w = some i) : EncodesBack w e i :=
  ⟨(h w i hS hd).1, none, (h w i hS hd).2, nofun, fun _ => hlen⟩

theorem Encodes2.encodesBack {S : Nat → Prop} {dec : Nat → Nat → Option Instr} {w e : Nat} {i : Instr} (h : Encodes2 S dec) (hS : S w)
    (he : Fits e) (hd : dec w e = some i) : EncodesBack w e i :=
  ⟨(h w e i hS he hd).1, some e, (h w e i hS he hd).2, fun _ h => (Option.some.inj h).symm, nofun⟩

theorem decByTile_encodes {mj : Nat} {mkTile mk : MemOp → Instr} (ht : Encodes2 (Lane mj) (decMem mkTile true))
    (hn : Encodes2 (Lane mj) (decMem mk false)) : Encodes2 (Lane mj) (decByTile mkTile mk) := by
  intro w e i hw he h
  rw [decByTile] at h
  split at h
  · exact ht w e i hw he h
  · exact hn w e i hw he h

theorem Encodes1.lane {mj : Nat} {dec : Nat → Option Instr} {w e : Nat} {i : Instr} (h : Encodes1 (Lane mj) dec)
    (hw : Fits w) (hset : wSet w = false) (hm : wMajor w = mj) (hd : dec w = some i) (hl : laneLength mj = some 1 := by rfl) : EncodesBack w e i :=
  h.encodesBack ⟨hw, hset, hm⟩ (by simp [lengthOf, hset, hm, hl]) hd

theorem Encodes2.lane {mj : Nat} {dec : Nat → Nat → Option Instr} {w e : Nat} {i : Instr} (h : Encodes2 (Lane mj) dec)
    (hw : Fits w) (hset : wSet w = false) (hm : wMajor w = mj) (he : Fits e) (hd : dec w e = some i) : EncodesBack w e i :=
  h.encodesBack ⟨hw, hset, hm⟩ he hd

theorem Encodes1.uni {mj : Nat} {dec : Nat → Option Instr} {w e : Nat} {i : Instr} (h : Encodes1 (Uni mj) dec)
    (hw : Fits w) (hset : wSet w = true) (hm : wMajor w = mj) (hd : dec w = some i) (hl : uniformLength mj = some 1 := by rfl) : EncodesBack w e i :=
  h.encodesBack ⟨hw, hset, hm⟩ (by simp [lengthOf, hset, hm, hl]) hd

theorem Encodes2.uni {mj : Nat} {dec : Nat → Nat → Option Instr} {w e : Nat} {i : Instr} (h : Encodes2 (Uni mj) dec)
    (hw : Fits w) (hset : wSet w = true) (hm : wMajor w = mj) (he : Fits e) (hd : dec w e = some i) : EncodesBack w e i :=
  h.encodesBack ⟨hw, hset, hm⟩ he hd

theorem decodeLane_encodesBack {w e : Nat} {i : Instr} (hw : Fits w) (he : Fits e) (hset : wSet w = false)
    (h : decodeLane w e = some i) : EncodesBack w e i := by
  unfold decodeLane at h
  split at h
  case h_1 _ hm => exact decMov_encodes.lane hw hset hm h
  case h_2 _ hm => exact decMovi_encodes.lane hw hset hm h
  case h_3 _ hm => exact decMoviw_encodes.lane hw hset hm he h
  case h_4 _ hm => exact decIaddi_encodes.lane hw hset hm h
  case h_5 _ hm => exact decLea_encodes.lane hw hset hm he h
  case h_6 _ hm => exact decBrd_encodes.lane hw hset hm h
  case h_7 _ hm => exact decJoin_encodes.lane hw hset hm h
  case h_8 _ hm | h_9 _ hm => exact (decIntSat_encodes (by decide) (fun _ => rfl) fun _ => rfl).lane hw hset hm he h
  case h_10 _ hm => exact decImul_encodes.lane hw hset hm he h
  case h_11 _ hm => exact decImad_encodes.lane hw hset hm he h
  case h_12 _ hm => exact decIminmax_encodes.lane hw hset hm he h
  case h_13 _ hm => exact decIabs_encodes.lane hw hset hm he h
  case h_14 _ hm => exact decIcmp_encodes.lane hw hset hm he h
  case h_15 _ hm => exact decSel_encodes.lane hw hset hm he h
  case h_16 _ hm | h_17 _ hm | h_19 _ hm => exact (decFBin_encodes (by decide) (fun _ => rfl) fun _ => rfl).lane hw hset hm he h
  case h_18 _ hm => exact decFfma_encodes.lane hw hset hm he h
  case h_20 _ hm => exact decFminmax_encodes.lane hw hset hm he h
  case h_21 _ hm => exact decFcmp_encodes.lane hw hset hm he h
  case h_22 _ hm => exact decFclass_encodes.lane hw hset hm he h
  case h_23 _ hm => exact decLdgRow_encodes.lane hw hset hm he h
  case h_24 _ hm | h_25 _ hm | h_26 _ hm | h_27 _ hm | h_28 _ hm | h_29 _ hm =>
    exact (decIntBin_encodes (by decide) (fun _ => rfl) fun _ => rfl).lane hw hset hm he h
  case h_30 _ hm => exact decBfx_encodes.lane hw hset hm he h
  case h_31 _ hm => exact decBfi_encodes.lane hw hset hm he h
  case h_32 _ hm | h_33 _ hm => exact (decIntCount_encodes (by decide) (fun _ => rfl) fun _ => rfl).lane hw hset hm he h
  case h_34 _ hm | h_35 _ hm | h_36 _ hm | h_37 _ hm | h_38 _ hm =>
    exact (decFUn_encodes (by decide) (fun _ => rfl) fun _ => rfl).lane hw hset hm he h
  case h_39 _ hm => exact decCvt_encodes.lane hw hset hm he h
  case h_40 _ hm => exact decPack_encodes.lane hw hset hm he h
  case h_41 _ hm => exact decUnpk_encodes.lane hw hset hm he h
  case h_42 _ hm => exact decQset_encodes.lane hw hset hm he h
  case h_43 _ hm => exact decQop_encodes.lane hw hset hm h
  case h_44 _ hm => exact decShfl_encodes.lane hw hset hm he h
  case h_45 _ hm => exact decVote_encodes.lane hw hset hm he h
  case h_46 _ hm => exact decRed_encodes.lane hw hset hm he h
  case h_47 _ hm => exact decScan_encodes.lane hw hset hm he h
  case h_48 _ hm | h_49 _ hm => exact (decMem_encodes (by decide) (fun _ => rfl) fun _ => rfl).lane hw hset hm he h
  case h_50 _ hm | h_51 _ hm => exact (decGather_encodes (by decide) (fun _ => rfl) fun _ => rfl).lane hw hset hm he h
  case h_52 _ hm => exact decAtom_encodes.lane hw hset hm he h
  case h_53 _ hm => exact decPft_encodes.lane hw hset hm he h
  case h_54 _ hm | h_55 _ hm =>
    exact (decByTile_encodes (decMem_encodes (by decide) (fun _ => rfl) fun _ => rfl) (decMem_encodes (by decide) (fun _ => rfl) fun _ => rfl)).lane hw hset hm he h
  case h_56 _ hm | h_57 _ hm => exact (decLs_encodes (by decide) (fun _ => rfl) fun _ => rfl).lane hw hset hm he h
  case h_58 _ hm => exact decFill_encodes.lane hw hset hm he h
  case h_59 _ hm => exact decMma_encodes.lane hw hset hm he h
  case h_60 _ hm => exact decMmas_encodes.lane hw hset hm he h
  case h_61 _ hm => exact decSpk_encodes.lane hw hset hm he h
  case h_62 _ hm => exact decMdrn_encodes.lane hw hset hm he h
  case h_63 _ hm => exact decMzero_encodes.lane hw hset hm he h
  case h_64 => cases h

theorem decodeUniform_encodesBack {w e : Nat} {i : Instr} (hw : Fits w) (he : Fits e) (hset : wSet w = true)
    (h : decodeUniform w e = some i) : EncodesBack w e i := by
  unfold decodeUniform at h
  split at h
  case h_1 _ hm => exact decIop_encodes.uni hw hset hm h
  case h_2 _ hm => exact decIopi_encodes.uni hw hset hm h
  case h_3 _ hm => exact decIopw_encodes.uni hw hset hm he h
  case h_4 _ hm => exact decFop_encodes.uni hw hset hm he h
  case h_5 _ hm => exact decCmpk_encodes.uni hw hset hm he h
  case h_6 _ hm => exact decPrk_encodes.uni hw hset hm h
  case h_7 _ hm => exact decSld_encodes.uni hw hset hm h
  case h_8 _ hm => exact decSst_encodes.uni hw hset hm h
  case h_9 _ hm => exact decSatom_encodes.uni hw hset hm he h
  case h_10 _ hm => exact decAcq_encodes.uni hw hset hm h
  case h_11 _ hm => exact decRel_encodes.uni hw hset hm h
  case h_12 _ hm => exact decMnt_encodes.uni hw hset hm he h
  case h_13 _ hm => exact decRgn_encodes.uni hw hset hm h
  case h_14 _ hm | h_15 _ hm => exact (decBra_encodes (by decide) (fun _ => rfl) fun _ => rfl).uni hw hset hm h
  case h_16 _ hm => exact decBrc_encodes.uni hw hset hm h
  case h_17 _ hm => exact decBrx_encodes.uni hw hset hm h
  case h_18 _ hm | h_19 _ hm | h_21 _ hm | h_23 _ hm | h_25 _ hm | h_40 _ hm | h_42 _ hm | h_46 _ hm | h_50 _ hm =>
    exact (decPlain_encodes (by decide) (fun _ => rfl) fun _ => rfl).uni hw hset hm h
  case h_20 _ hm => exact decSetw_encodes.uni hw hset hm he h
  case h_22 _ hm => exact decBar_encodes.uni hw hset hm h
  case h_24 _ hm => exact decMbar_encodes.uni hw hset hm he h
  case h_26 _ hm => exact decBwait_encodes.uni hw hset hm he h
  case h_27 _ hm | h_28 _ hm | h_29 _ hm => exact (decEngine_encodes (by decide) (fun _ => rfl) fun _ => rfl).uni hw hset hm he h
  case h_30 _ hm => exact decSpawn_encodes.uni hw hset hm he h
  case h_31 _ hm | h_32 _ hm => exact (decQueue_encodes (by decide) (fun _ => rfl) fun _ => rfl).uni hw hset hm he h
  case h_33 _ hm | h_34 _ hm => exact (decCount_encodes (by decide) (fun _ => rfl) fun _ => rfl).uni hw hset hm he h
  case h_35 _ hm => exact decTdef_encodes.uni hw hset hm he h
  case h_36 _ hm | h_37 _ hm | h_38 _ hm | h_39 _ hm =>
    exact (decTile_encodes (by decide) (fun _ => rfl) fun _ => rfl).uni hw hset hm h
  case h_41 _ hm => exact decTrap_encodes.uni hw hset hm h
  case h_43 _ hm => exact decCsrr_encodes.uni hw hset hm h
  case h_44 _ hm => exact decCsrw_encodes.uni hw hset hm h
  case h_45 _ hm => exact decSvc_encodes.uni hw hset hm h
  case h_47 _ hm => exact decTlbi_encodes.uni hw hset hm h
  case h_48 _ hm => exact decCtxi_encodes.uni hw hset hm h
  case h_49 _ hm => exact decKeyset_encodes.uni hw hset hm he h
  case h_51 => cases h

/-- A word that decodes is the one that its instruction encodes to. -/
theorem encodesBack {w e : Nat} {i : Instr} (hw : Fits w) (he : Fits e) (h : decode w e = some i) : EncodesBack w e i := by
  cases hset : wSet w <;> simp only [decode, hset, Bool.false_eq_true, if_true, if_false] at h
  · exact decodeLane_encodesBack hw he hset h
  · exact decodeUniform_encodesBack hw he hset h

end Sys2Proof
end

section
/-! Decoding and encoding agree (R54 to R66, R84 to R89). -/

open Sys2Proof Sys2Proof.Machine in
/-- Settles O54: the decoder and the encoder undo one another in every cell, and a word is missing for a hardware step alone. -/
theorem decodeAndEncodeAgree : Obligations.DecodeAndEncodeAgree := by
  unfold Obligations.DecodeAndEncodeAgree
  refine ⟨fun i hwf w x hw => ?_, fun i _ h => by simp [encode_isSome, h], fun i h => ?_, fun w e i hw he h => ?_⟩
  · have h := decodesBack i hwf w x hw
    exact ⟨h.fits, h.extFits, h.length, h.decodes⟩
  · simpa [h] using encode_isSome i
  · obtain ⟨hwf, x, henc, hx⟩ := encodesBack hw he h
    have hstep : hardwareStep i = false := by simpa [henc] using encode_isSome i
    exact ⟨hwf, hstep, x, henc, hx⟩
end

section
/-! SUPPORT. Refused words (R67 to R69, R79, R83): what raises a trap before any effect. -/

namespace Sys2Proof.Machine

/-! ### Reserved words -/

theorem reserved_refused {w : Nat} (e : Nat) (h : (wSet w = false ∧ wMajor w = 0) ∨ (wSet w = true ∧ wMajor w ∈ reservedMajors)) :
    decode w e = none ∧ lengthOf w = none := by
  obtain ⟨hs, hm⟩ | ⟨hs, hm⟩ := h
  · simp [decode, lengthOf, decodeLane, laneLength, hs, hm]
  · simp only [reservedMajors, List.mem_cons, List.not_mem_nil, or_false] at hm
    rcases hm with hm | hm | hm | hm | hm | hm | hm | hm | hm | hm | hm | hm | hm | hm <;>
      simp [decode, lengthOf, decodeUniform, uniformLength, hs, hm]

theorem lengthOf_zero_or_ones {w : Nat} (h : w = 0 ∨ w = 0xFFFFFFFF) : lengthOf w = none := by
  rcases h with rfl | rfl <;> decide

theorem fetchInstr_reserved {s s1 : State} {p : Who} {n w : Nat} {lane : Bool} {pc : DWord} (hf : fetchWord s p pc = (.word w, s1))
    (hl : lengthOf w = none) : fetchInstr s p n lane pc = (.illegal w, s1) := by
  simp [fetchInstr, hf, hl]

theorem issueFragment_reserved {s s1 : State} {c : Cx} {w : Nat} (hl : lengthOf w = none) (hg : s.groups[c.g]? = some c.gr)
    (hfr : c.gr.frag? c.f = some c.fr) (hf : fetchWord s c.who c.fr.pc = (.word w, s1)) :
    issueFragment s c.g c.f = .next (raiseFrag s1 c 1 0 (BitVec.ofNat 64 w) (some c.fr.pc)) := by
  obtain ⟨g, f, gr, fr⟩ := c
  simp only [issueFragment, hg, hfr, fetchInstr_reserved hf hl]
  rfl

theorem issueControl_reserved {s s1 : State} {cc : Nat} {c : Ctl} {w : Nat} (hl : lengthOf w = none) (hc : s.ctls[cc]? = some c)
    (hd : c.deferred = []) (hie : c.ie = false) (hw : c.wait = .run) (hf : fetchWord s (c.who cc) c.pc = (.word w, s1)) :
    issueControl s cc = .next (raiseCtl s1 cc 1 0 (BitVec.ofNat 64 w)) := by
  simp [issueControl, hc, hd, hie, hw, fetchInstr_reserved hf hl, ctlFetchFailed]

/-! ### Checks of issue -/

section
variable {i : Instr} {x : IssueInfo} {s : State} {onFrag : Cx → State → State} {onCtl : Nat → Ctl → State → State}

theorem issue_frag_illegal {c : Cx} (h : Issues s c) (hi : i.wf = false ∨ i.regsOk c.gr.vcount = false ∨ x.cls = .priv) :
    issue i x s onFrag onCtl = .next (raiseFrag s c 1 0 (wordOf i) (some c.fr.pc)) := by
  obtain ⟨g, f, gr, fr⟩ := c
  have hcheck : (!i.wf || !i.regsOk gr.vcount || x.cls == .priv) = true := by
    rcases hi with hi | hi | hi <;> simp_all
  simp only [issue, h.cur, h.group, h.frag, hcheck, if_true]

theorem issue_ctl_illegal {cc : Nat} {c : Ctl} (h : IssuesCtl s cc c) (hi : i.wf = false ∨ x.cls = .lane) :
    issue i x s onFrag onCtl = .next (raiseCtl s cc 1 0 (wordOf i)) := by
  have hcheck : (!i.wf || x.cls == .lane) = true := by rcases hi with hi | hi <;> simp [hi]
  simp only [issue, h.cur, h.ctl, hcheck, if_true]

theorem issue_ctl_access {cc : Nat} {c : Ctl} (h : IssuesCtl s cc c) (hwf : i.wf = true) (hx : x.cls = .compute) :
    issue i x s onFrag onCtl = .next (raiseCtl s cc 4 0 0) := by
  simp [issue, h.cur, h.ctl, hwf, hx]
end

/-! ### Instructions -/

/-- Every instruction goes through `issue`, in its run class. -/
theorem exec_eq_issue (i : Instr) (h : hardwareStep i = false) :
    ∃ x onFrag onCtl, (∀ s, exec i s = issue i x s onFrag onCtl) ∧ x.cls = runClass i := by
  cases i with
  | kbindWrite | ilckWrite | kpendWrite | registerWrite | interrupt | trapDelivery | homeAccess | eviction
  | monitorWake | walkRetry | switchOut | dispatch | priorityAging | blockStart | steal | urgent | timerExpiry
  | binClose | spawnedGroupStart | taskCompletion | foldRetry | unbind | overflowAppend | chunkLanding | mbarTimeout
  | peerAddLanding | gangBarrierPass | copyCommand | upload | epubCommand | ecollCommand | collectiveMatch | publish
  | recipeRun | abIntervalEnd | runRequest | preemptRequest | saveRequest | abortRequest | resumeRequest
  | unassignedRequest | drainlimExpiry | save | restore | statusWrite | doorbell | cxlMemRead | cxlMemWrite
  | registrationFlit | dataFlit | acknowledge | keyControl | rollover | portDown | scopeTableInstall
  | uncorrectableError | coldStart | warmStart | warmReset | reAdmission | timeBaseTick | thermalLimit | portUp
  | spdmRequest => exact absurd h nofun
  | sld o => exact ⟨_, _, _, fun s => (rfl : execSld o s = _), rfl⟩
  | sst o => exact ⟨_, _, _, fun s => (rfl : execSst o s = _), rfl⟩
  | acq o => exact ⟨_, _, _, fun s => (rfl : execAcq o s = _), rfl⟩
  | acqAll o => exact ⟨_, _, _, fun s => (rfl : execAcqAll o s = _), rfl⟩
  | rel o => exact ⟨_, _, _, fun s => (rfl : execRel o s = _), rfl⟩
  | rgn o => exact ⟨_, _, _, fun s => (rfl : execRgn o s = _), rfl⟩
  | bra o => exact ⟨_, _, _, fun s => (rfl : execBra o s = _), rfl⟩
  | call o => exact ⟨_, _, _, fun s => (rfl : execCall o s = _), rfl⟩
  | brc o => exact ⟨_, _, _, fun s => (rfl : execBrc o s = _), rfl⟩
  | braRegister o => exact ⟨_, _, _, fun s => (rfl : execBraRegister o s = _), rfl⟩
  | callRegister o => exact ⟨_, _, _, fun s => (rfl : execCallRegister o s = _), rfl⟩
  | ret o => exact ⟨_, _, _, fun s => (rfl : execRet o s = _), rfl⟩
  | yieldSlot o => exact ⟨_, _, _, fun s => (rfl : execYieldSlot o s = _), rfl⟩
  | bclose o => exact ⟨_, _, _, fun s => (rfl : execBclose o s = _), rfl⟩
  | bwaitImmediate o => exact ⟨_, _, _, fun s => (rfl : execBwaitImmediate o s = _), rfl⟩
  | bwaitRegister o => exact ⟨_, _, _, fun s => (rfl : execBwaitRegister o s = _), rfl⟩
  | trap o => exact ⟨_, _, _, fun s => (rfl : execTrap o s = _), rfl⟩
  | trapBreak o => exact ⟨_, _, _, fun s => (rfl : execTrapBreak o s = _), rfl⟩
  | rte o => exact ⟨_, _, _, fun s => (rfl : execRte o s = _), rfl⟩
  | _ => exact ⟨_, _, _, fun _ => rfl, rfl⟩

theorem hardwareStep_of_encode {i : Instr} {p : Nat × Option Nat} (h : encode i = some p) : hardwareStep i = false := by
  simpa [h] using encode_isSome i

theorem isEvent_eq_hardwareStep (i : Instr) : Instr.isEvent i = hardwareStep i := by
  have h := encode_isSome i
  cases he : encode i <;> simp_all [Instr.isEvent]

theorem exec_frag_illegal {i : Instr} {s : State} {c : Cx} (hi : hardwareStep i = false) (h : Issues s c)
    (hc : i.wf = false ∨ i.regsOk c.gr.vcount = false ∨ runClass i = .priv) :
    exec i s = .next (raiseFrag s c 1 0 (wordOf i) (some c.fr.pc)) := by
  obtain ⟨x, _, _, hx, hcls⟩ := exec_eq_issue i hi
  rw [hx]
  exact issue_frag_illegal h (hcls ▸ hc)

theorem exec_ctl_illegal {i : Instr} {s : State} {cc : Nat} {c : Ctl} (hi : hardwareStep i = false) (h : IssuesCtl s cc c)
    (hc : i.wf = false ∨ runClass i = .lane) : exec i s = .next (raiseCtl s cc 1 0 (wordOf i)) := by
  obtain ⟨x, _, _, hx, hcls⟩ := exec_eq_issue i hi
  rw [hx]
  exact issue_ctl_illegal h (hcls ▸ hc)

theorem exec_ctl_access {i : Instr} {s : State} {cc : Nat} {c : Ctl} (hi : hardwareStep i = false) (h : IssuesCtl s cc c)
    (hwf : i.wf = true) (hc : runClass i = .compute) : exec i s = .next (raiseCtl s cc 4 0 0) := by
  obtain ⟨x, _, _, hx, hcls⟩ := exec_eq_issue i hi
  rw [hx]
  exact issue_ctl_access h hwf (hcls.trans hc)

theorem exec_ctl_lane {i : Instr} {w : Nat} {x : Option Nat} {s : State} {cc : Nat} {c : Ctl} (he : encode i = some (w, x))
    (hw : wSet w = false) (h : IssuesCtl s cc c) : exec i s = .next (raiseCtl s cc 1 0 (wordOf i)) := by
  refine exec_ctl_illegal (hardwareStep_of_encode he) h ?_
  cases hwf : i.wf
  · exact .inl rfl
  · exact .inr ((decodesBack i hwf w x he).runClass.trans (by rw [cellClass, if_pos hw]))

theorem exec_ctl_classC {i : Instr} {w : Nat} {x : Option Nat} {s : State} {cc : Nat} {c : Ctl} (he : encode i = some (w, x))
    (hw : wSet w = true) (hm : wMajor w ∈ classC) (hwf : i.wf = true) (h : IssuesCtl s cc c) : exec i s = .next (raiseCtl s cc 4 0 0) :=
  exec_ctl_access (hardwareStep_of_encode he) h hwf ((decodesBack i hwf w x he).runClass.trans (by simp [cellClass, hw, hm]))

theorem issue_privileged {i : Instr} {s : State} {cc : Nat} {c : Ctl} {body : Nat → Ctl → State → State} (h : IssuesCtl s cc c)
    (hwf : i.wf = true) (hpv : c.pv = false) :
    issue i privInfo s noFrag (fun cc c s => privileged cc c s (body cc c)) = .next (raiseCtl s cc 2 0 0) := by
  rw [issue_ctl h hwf (by decide) (by decide)]
  simp [privileged, hpv]

end Sys2Proof.Machine
end

section
/-! Words and instructions that are refused (R67 to R69, R79, R83). -/

open Sys2Proof Sys2Proof.Machine in
/-- Settles O55: a reserved cell has no length, so its word is refused at the fetch; every instruction goes through `issue`, whose
first checks are its operands and its run class, and the run class is that of its cell. -/
theorem refusedWords : Obligations.RefusedWords := by
  unfold Obligations.RefusedWords
  refine ⟨fun w e h => reserved_refused e h, fun s c w s1 hw hg hf h => issueFragment_reserved (lengthOf_zero_or_ones hw) hg hf h,
    fun s cc c w s1 hw hc hd hie hr h => issueControl_reserved (lengthOf_zero_or_ones hw) hc hd hie hr h, fun i s hi => ?_,
    fun i w x s cc c he hw h => exec_ctl_lane he hw h, fun i w x s cc c he hw hm hwf h => exec_ctl_classC he hw hm hwf h, fun i s hi => ?_⟩
  · rw [isEvent_eq_hardwareStep] at hi
    exact ⟨fun c h hc => exec_frag_illegal hi h (by tauto), fun cc c h hc => exec_ctl_illegal hi h (.inl hc)⟩
  · rcases hi with ⟨o, rfl⟩ | ⟨o, rfl⟩ | ⟨o, rfl⟩ | ⟨o, rfl⟩ | ⟨o, rfl⟩ | ⟨o, rfl⟩ | ⟨o, rfl⟩ | ⟨o, rfl⟩ | ⟨o, rfl⟩ | ⟨o, rfl⟩ <;>
      refine ⟨fun c h => exec_frag_illegal rfl h (.inr (.inr rfl)), fun cc c h hwf hpv hsvc => ?_⟩
    on_goal 10 => exact absurd rfl (hsvc o)
    all_goals exact issue_privileged h hwf hpv
end

section
/-! Words written out from the encodings (R54 to R64, R82 to R87). -/

/-- Settles O53: the decoder is run on each word. -/
theorem decodedWords : Obligations.DecodedWords := by
  unfold Obligations.DecodedWords
  repeat' apply And.intro
  all_goals rfl
end

section
/-! SUPPORT. The schedule (R49, log 6): what a turn of a party does, and which party an urgent fragment lets wait. -/

namespace Sys2Proof.Machine

/-! ### The instruction at a pc -/

theorem fetchInstr_of_fetches {s t : State} {w : Who} {n : Nat} {lane : Bool} {pc : DWord} {i : Instr}
    (h : Fetches s w n lane pc i t) : fetchInstr s w n lane pc = (.instr i, t) := by
  obtain ⟨x, hlane, h⟩ := h
  have hset : (!wSet x && !lane) = false := by rcases hlane with h | h <;> simp [h]
  rcases h with ⟨hlen, hf, hd⟩ | ⟨e, s1, hlen, hf, h0, he, hd⟩
  · simp [fetchInstr, hf, hlen, hset, hd]
  · simp only [fetchInstr, hf, hlen, hset, h0, he, hd]
    rfl

theorem issueFragment_of_fetches {s t : State} {g f : Nat} {gr : Group} {fr : Frag} {i : Instr} (hg : s.groups[g]? = some gr)
    (hfr : gr.frag? f = some fr) (h : Fetches s (Cx.who ⟨g, f, gr, fr⟩) gr.vcount true fr.pc i t) : issueFragment s g f = exec i t := by
  simp [issueFragment, hg, hfr, fetchInstr_of_fetches h]

theorem issueControl_of_fetches {s t : State} {cc : Nat} {c : Ctl} {i : Instr} (hc : s.ctls[cc]? = some c) (hd : c.deferred = [])
    (hp : c.ie = false ∨ c.kpend &&& c.kmask = 0) (hw : c.wait = .run ∨ c.wait = .retry) (h : Fetches s (c.who cc) 0 false c.pc i t) :
    issueControl s cc = exec i t := by
  have hint : (c.ie && c.pending != 0) = false := by rcases hp with hp | hp <;> simp [hp, Ctl.pending]
  have hhalt : (c.wait == .halted) = false := by rcases hw with hw | hw <;> simp [hw]
  simp only [issueControl, hc, hd, hint, hhalt, fetchInstr_of_fetches h]
  rfl

/-! ### A turn -/

theorem turn_party {s : State} {p : Party} {l : List Sched} (ha : s.agenda = .party p :: l) (hu : goesFirst s p = none) :
    turn s = issueParty { s with agenda := l } p := by
  unfold turn; rw [ha]; simp only [hu]

theorem turn_urgent {s : State} {p u : Party} {l : List Sched} (ha : s.agenda = .party p :: l) (hu : goesFirst s p = some u) :
    turn s = issueParty s u := by
  unfold turn; rw [ha]; simp only [hu]

theorem turn_default {s : State} (ha : s.agenda = []) : turn s = defaultTurn s := by
  unfold turn; rw [ha]

theorem turn_outside {s : State} {e : Instr} {l : List Sched} (ha : s.agenda = .outside e :: l) (he : e ≠ .timeBaseTick)
    (hi : Instr.isEvent e = true) : turn s = exec e { s with agenda := l } := by
  unfold turn; rw [ha]
  split <;> simp_all

theorem turn_tick {s : State} {l : List Sched} (ha : s.agenda = .outside .timeBaseTick :: l) :
    turn s = ((urgentReady s).map (issueParty s)).getD (passTime { s with agenda := l }) := by
  unfold turn; rw [ha]
  cases urgentReady s <;> rfl

/-- The party that the agenda names, unless an urgent fragment goes first. -/
theorem step_party {s : State} {p : Party} {l : List Sched} (ha : s.agenda = .party p :: l) (hu : goesFirst s p = none) :
    step s = issueParty { s with free := s.free + 1, agenda := l } p :=
  turn_party (s := { s with free := s.free + 1 }) ha hu

/-- A party in front of the agenda issues and leaves the agenda behind it. -/
theorem step_inserted {s : State} {p : Party} (hu : goesFirst s p = none) :
    step { s with agenda := .party p :: s.agenda } = issueParty { s with free := s.free + 1 } p :=
  step_party rfl hu

theorem issueParty_frag {s : State} {g f : Nat} (hc : s.cur = .frag g f) (hd : deliverable s g = false)
    (hr : fragReady s g f false = true ∨ fragReady s g f true = true) : issueParty s (.frag g f) = fragTurn s g f := by
  have hs : { s with cur := .frag g f } = s := by rw [← hc]
  have hready : (fragReady s g f false || fragReady s g f true) = true := by simpa using hr
  simp only [issueParty, hs, hd, hready, Bool.false_eq_true, if_false, if_true]

theorem issueParty_ctl {s : State} {cc : Nat} (hc : s.cur = .control cc) (hr : ctlReady s cc false = true ∨ ctlReady s cc true = true) :
    issueParty s (.control cc) = issueControl s cc := by
  have hs : { s with cur := .control cc } = s := by rw [← hc]
  have hready : (ctlReady s cc false || ctlReady s cc true) = true := by simpa using hr
  simp only [issueParty, hs, hready, if_true]

theorem step_frag {s : State} {l : List Sched} {c : Cx} {i : Instr} {s1 s2 : State} (ha : s.agenda = .party (.frag c.g c.f) :: l)
    (hg : s.groups[c.g]? = some c.gr) (hfr : c.gr.frag? c.f = some c.fr) :
    let s0 : State := { s with free := s.free + 1, agenda := l, cur := .frag c.g c.f }
    goesFirst s (.frag c.g c.f) = none → deliverable s0 c.g = false → fragReady s0 c.g c.f false = true ∨ fragReady s0 c.g c.f true = true →
    Fetches (modCore s0 c.gr.place (fun k => { k with turn := .frag c.g c.f })) c.who c.gr.vcount true c.fr.pc i s1 →
    Fetches s0 c.who c.gr.vcount true c.fr.pc i s2 →
    step s = if heldBack c.g c.f (exec i s1) = true then exec i s2 else exec i s1 := by
  intro s0 hu hdel hready h1 h2
  have hg0 : s0.groups[c.g]? = some c.gr := hg
  have hi1 : issueFragment (giveTurn s0 c.gr.place (.frag c.g c.f)) c.g c.f = exec i s1 := issueFragment_of_fetches hg hfr h1
  have hi2 : issueFragment s0 c.g c.f = exec i s2 := issueFragment_of_fetches hg hfr h2
  calc step s = issueParty s0 (.frag c.g c.f) := step_party ha hu
    _ = fragTurn s0 c.g c.f := issueParty_frag rfl hdel hready
    _ = _ := by simp only [fragTurn, hg0, hi1, hi2]

theorem step_ctl {s : State} {l : List Sched} {cc : Nat} {c : Ctl} {i : Instr} {s1 : State} (ha : s.agenda = .party (.control cc) :: l)
    (hc : s.ctls[cc]? = some c) :
    let s0 : State := { s with free := s.free + 1, agenda := l, cur := .control cc }
    ctlEnabled s cc = true → c.stopped = false → c.wait = .run ∨ c.wait = .retry → c.deferred = [] →
    (c.ie = false ∨ c.kpend &&& c.kmask = 0) → Fetches s0 (c.who cc) 0 false c.pc i s1 → step s = exec i s1 := by
  intro s0 hen hst hw hd hp h
  have hc0 : s0.ctls[cc]? = some c := hc
  have hen0 : ctlEnabled s0 cc = true := hen
  have hready : ctlReady s0 cc false = true ∨ ctlReady s0 cc true = true := by
    rcases hw with hw | hw <;> simp [ctlReady, hc0, hen0, hst, hw, Wait.again]
  calc step s = issueParty s0 (.control cc) := step_party ha rfl
    _ = issueControl s0 cc := issueParty_ctl rfl hready
    _ = exec i s1 := issueControl_of_fetches hc hd hp hw h

/-! ### Urgent fragments -/

theorem oldestOf_mem {l : List (Nat × Frag)} {x : Nat × Frag} (h : oldestOf l = some x) : x ∈ l := by
  refine List.foldlRecOn (motive := fun b => ∀ x, b = some x → x ∈ l) l _ (fun _ h => by cases h) (fun b ih y hy x hx => ?_) x h
  cases b with
  | none => exact Option.some.inj hx ▸ hy
  | some z =>
    simp only at hx
    split at hx
    · exact Option.some.inj hx ▸ hy
    · exact ih x hx

theorem readyOn_place {s : State} {core : Nat} {p : Nat × Frag} (h : p ∈ readyOn s core) : ∃ gr, s.groups[p.1]? = some gr ∧ gr.place = core := by
  simp only [readyOn, List.mem_flatMap] at h
  obtain ⟨⟨gr, g⟩, hm, hp⟩ := h
  split at hp
  · next hcore =>
    simp at hp
    obtain ⟨x, -, rfl⟩ := hp
    exact ⟨gr, by simpa using List.mem_zipIdx_iff_getElem?.1 hm, by simpa using hcore⟩
  · cases hp

theorem urgentOn_place {s : State} {core : Nat} {u : Party} (h : urgentOn s core = some u) :
    ∃ g f gr, u = .frag g f ∧ s.groups[g]? = some gr ∧ gr.place = core := by
  simp only [urgentOn, oldestUrgent, Option.map_eq_some_iff] at h
  obtain ⟨p, hp, rfl⟩ := h
  obtain ⟨gr, hg, hcore⟩ := readyOn_place (List.mem_of_mem_filter (oldestOf_mem hp))
  exact ⟨p.1, p.2.id, gr, rfl, hg, hcore⟩

/-- An urgent fragment lets no other of its core go first. -/
theorem goesFirst_urgentOn {s : State} {core : Nat} {u : Party} (h : urgentOn s core = some u) : goesFirst s u = none := by
  obtain ⟨g, f, gr, rfl, hg, rfl⟩ := urgentOn_place h
  simp [goesFirst, hg, h]

theorem goesFirst_eq_some {s : State} {p u : Party} (h : goesFirst s p = some u) : ∃ core, urgentOn s core = some u := by
  cases p with
  | idle | control cc => cases h
  | frag g f =>
    simp only [goesFirst, Option.bind_eq_some_iff] at h
    obtain ⟨v, ⟨gr, -, hv⟩, h⟩ := h
    split at h
    · cases h
    · cases h
      exact ⟨_, hv⟩

theorem urgentReady_eq_some {s : State} {u : Party} (h : urgentReady s = some u) : ∃ core, urgentOn s core = some u := by
  obtain ⟨_, core, _, -, hu, -⟩ := List.findSome?_eq_some_iff.1 h
  exact ⟨core, hu⟩

theorem goesFirst_of_no_urgent {s : State} (p : Party) (h : urgentReady s = none) : goesFirst s p = none := by
  have hnone : ∀ gr ∈ s.groups, urgentOn s gr.place = none := fun gr hgr =>
    List.findSome?_eq_none_iff.1 h _ (List.mem_dedup.2 (List.mem_map_of_mem hgr))
  cases p with
  | idle | control cc => rfl
  | frag g f =>
    rcases hg : s.groups[g]? with _ | gr
    · simp [goesFirst, hg]
    · simp [goesFirst, hg, hnone gr (List.mem_of_getElem? hg)]

/-! ### Who issues next -/

theorem step_goesFirst {s : State} {l : List Sched} {p u : Party} (ha : s.agenda = .party p :: l) (hu : goesFirst s p = some u) :
    step s = step { s with agenda := .party u :: s.agenda } := by
  obtain ⟨core, hcore⟩ := goesFirst_eq_some hu
  rw [step_inserted (goesFirst_urgentOn hcore)]
  exact turn_urgent (s := { s with free := s.free + 1 }) ha hu

/-- A party put on the empty agenda issues. -/
theorem step_alone {s : State} {p : Party} (ha : s.agenda = []) (hu : goesFirst s p = none) :
    step { s with agenda := [.party p] } = issueParty { s with free := s.free + 1 } p := by
  rw [← step_inserted hu, ha]

theorem step_urgent {s : State} {p : Party} (ha : s.agenda = []) (hu : urgentReady { s with free := s.free + 1 } = some p) :
    step s = step { s with agenda := [.party p] } := by
  obtain ⟨core, hcore⟩ := urgentReady_eq_some hu
  rw [step_alone ha (goesFirst_urgentOn (s := s) hcore)]
  exact (turn_default (s := { s with free := s.free + 1 }) ha).trans (by rw [defaultTurn]; simp only [hu])

theorem step_goes_on {s : State} (ha : s.agenda = []) (hu : urgentReady { s with free := s.free + 1 } = none)
    (h32 : (s.free + 1) % 32 ≠ 31) (hr : ready { s with free := s.free + 1 } s.cur false = true) :
    step s = step { s with agenda := [.party s.cur] } := by
  rw [step_alone ha (goesFirst_of_no_urgent (s := s) s.cur hu)]
  refine (turn_default (s := { s with free := s.free + 1 }) ha).trans ?_
  have h256 : (s.free + 1) % 256 ≠ 255 := by omega
  rw [defaultTurn]
  simp only [hu, h256, h32, hr, if_false, if_true]

/-! ### Time -/

theorem step_tick_urgent {s : State} {l : List Sched} {u : Party} (ha : s.agenda = .outside .timeBaseTick :: l) (hu : urgentReady s = some u) :
    step s = step { s with agenda := .party u :: s.agenda } := by
  obtain ⟨core, hcore⟩ := urgentReady_eq_some hu
  have hu' : urgentReady { s with free := s.free + 1 } = some u := hu
  rw [step_inserted (goesFirst_urgentOn hcore)]
  exact (turn_tick (s := { s with free := s.free + 1 }) ha).trans (by rw [hu']; rfl)

/-- No boundary interval ends behind its first clk (R205). -/
theorem endIntervals_inside {s : State} (h : 2 ≤ clk s % 65536) : endIntervals s = s := by
  unfold endIntervals
  have hskip : ∀ core a l g, execAbIntervalEnd core a l g s = .next s := fun core a l g => by
    unfold execAbIntervalEnd
    exact if_pos (.inl h)
  induction s.cores.map (·.1) with
  | nil => rfl
  | cons core cores ih => rw [List.foldl_cons]; simp only [hskip]; exact ih

/-- Fragments of which none waits to issue again wake nothing. -/
theorem wakeTry_quiet {s : State} (l : List (Group × Nat)) (h : ∀ p ∈ l, ∀ x ∈ p.1.frags, x.wait.again = false) :
    l.foldl (fun s p => (p.1.frags.filter (·.wait.again)).foldl (wakeTry p.2) s) s = s := by
  induction l with
  | nil => rfl
  | cons p l ih =>
    have hnone : p.1.frags.filter (·.wait.again) = [] :=
      List.filter_eq_nil_iff.2 fun x hx => by simp [h p List.mem_cons_self x hx]
    rw [List.foldl_cons, hnone]
    exact ih fun q hq => h q (List.mem_cons_of_mem _ hq)

theorem passTime_quiet {s : State} (h : 2 ≤ clk s % 65536) (hq : ∀ gr ∈ s.groups, ∀ x ∈ gr.frags, x.wait.again = false) :
    passTime s = exec .timeBaseTick s := by
  rw [passTime, endIntervals_inside h]
  exact congrArg (exec .timeBaseTick) (wakeTry_quiet _ fun p hp => hq p.1 (List.fst_mem_of_mem_zipIdx hp))

theorem step_tick {s : State} {l : List Sched} (ha : s.agenda = .outside .timeBaseTick :: l) (hu : urgentReady s = none)
    (h : 2 ≤ clk s % 65536) (hq : ∀ gr ∈ s.groups, ∀ x ∈ gr.frags, x.wait.again = false) :
    step s = exec .timeBaseTick { s with free := s.free + 1, agenda := l } := by
  have hu' : urgentReady { s with free := s.free + 1 } = none := hu
  refine (turn_tick (s := { s with free := s.free + 1 }) ha).trans ?_
  rw [hu']
  exact passTime_quiet h hq

theorem step_outside {s : State} {l : List Sched} {e : Instr} (ha : s.agenda = .outside e :: l) (he : e ≠ .timeBaseTick)
    (hi : Instr.isEvent e = true) : step s = exec e { s with free := s.free + 1, agenda := l } :=
  turn_outside (s := { s with free := s.free + 1 }) ha he hi

/-! ### The word at an address -/

theorem fetchWord_xlat {s s1 : State} {w : Who} {va : DWord} {f : Fetched} (h : fetchWord s w va = (f, s1)) :
    s1 = { s with xlat := s1.xlat, asids := s1.asids } := by
  obtain ⟨x, a, ht⟩ := fetchWord_only s w va
  rw [h] at ht
  cases ht
  rfl

theorem leNat_lt (l : List Byte) : leNat l < 2 ^ (8 * l.length) := by
  induction l with
  | nil => exact Nat.one_pos
  | cons b l ih =>
    have hb := b.isLt
    rw [leNat, List.length_cons, Nat.mul_succ, Nat.pow_add]
    omega

theorem readWord_toNat (s : State) (key w : Nat) : (readWord s key w).toNat = leNat (readBytes s key (4 * w) 4) := by
  rw [readWord, BitVec.toNat_ofNat, Nat.mod_eq_of_lt]
  exact (leNat_lt _).trans_le (by simp [readBytes])

theorem loadWord_plain {s : State} {a : Option Agent} {key w : Nat} (hr : regOf s w = none)
    (htag : tabFind s.tags (aliasOf (4 * w) / 64) = none) : loadWord s a key w = (readWord s key w, false) := by
  simp only [loadWord, hr, aliasChoice, htag, ite_self]

theorem fetchWord_plain {s s1 : State} {w : Who} {va : DWord} {pa key : Nat} (hva : va.toNat % 4 = 0)
    (ht : translate s w.site w.ctx w.priv .fetch va = (.ok pa key, s1)) (hp : s.poison.contains (pa / 64) = false) (hpa : pa % 4 = 0)
    (hr : regOf s (pa / 4) = none) (htag : tabFind s.tags (aliasOf pa / 64) = none) :
    (fetchWord s w va).1 = .word (leNat (readBytes s key pa 4)) := by
  obtain ⟨x, a, h1⟩ := translate_only s w.site w.ctx w.priv .fetch va
  rw [ht] at h1
  cases h1
  have hpa4 : 4 * (pa / 4) = pa := by omega
  have hload := loadWord_plain (s := { s with xlat := x, asids := a }) (a := some w.agent) (key := key) hr (by rw [hpa4]; exact htag)
  have hva' : ¬ va.toNat % 4 ≠ 0 := by omega
  simp only [fetchWord, if_neg hva', ht, hp, Bool.false_eq_true, if_false, hload, readWord_toNat, hpa4]
  rfl

end Sys2Proof.Machine
end

section
/-! A step runs the instruction at the party's pc (R54, R70, R88, R5, R49). -/

open Sys2Proof.Machine in
/-- Settles O56: the agenda's party issues unless an urgent fragment of its core goes first, and what it issues is what the fetch
at its pc decodes to. -/
theorem stepRunsInstruction : Obligations.StepRunsInstruction :=
  ⟨fun _ _ _ _ _ _ ha hg hfr => step_frag ha hg hfr, fun _ _ _ _ _ _ ha hc => step_ctl ha hc, fun _ _ _ _ ha hu => step_goesFirst ha hu,
    fun _ _ ha hu => step_urgent ha hu, fun _ ha hu h32 hr => step_goes_on ha hu h32 hr,
    fun _ _ ha => ⟨fun _ hu => step_tick_urgent ha hu, fun hu h hq => step_tick ha hu h hq⟩,
    fun _ _ _ ha he hi => step_outside ha he hi, fun _ _ _ _ _ h => fetchWord_xlat h,
    fun _ _ _ _ _ _ hva ht hp hpa hr htag => fetchWord_plain hva ht hp hpa hr htag⟩

end

section
/-! SUPPORT. What a register read may return (R71, R73, R187) and which threads act (R59, R150). -/

namespace Sys2Proof.Machine

/-! ### Reads -/

/-- A read returns the register's value, or the one before an outstanding write of the fragment to it. -/
theorem Group.get_eq_read_or_older (gr : Group) (n f op : Nat) (key : RegKey) : gr.get n f op key = gr.read key ∨
    ∃ o ∈ gr.older, o.frag = f ∧ o.key = key ∧ gr.get n f op key = o.val := by
  unfold Group.get
  split
  · exact .inl rfl
  · generalize Config.freeNat .register n (key.salt * 8 + op) % _ = k
    rw [List.getD_eq_getElem?_getD]
    rcases hk : (List.map (·.val) (gr.older.filter (fun o => o.frag == f && o.key == key)) ++ [gr.read key])[k]? with _ | v
    · exact .inl rfl
    · have hv := List.mem_of_getElem? hk
      simp only [List.mem_append, List.mem_map, List.mem_filter, List.mem_singleton, Bool.and_eq_true, beq_iff_eq] at hv
      rcases hv with ⟨o, ⟨ho, hf, hkey⟩, rfl⟩ | rfl
      · exact .inr ⟨o, ho, hf, hkey, rfl⟩
      · exact .inl rfl

theorem Cx.get_begun (c : Cx) (n op : Nat) (key : RegKey) : (c.begun true).gr.get n c.f op key = c.gr.read key := by
  rw [Group.get_settled _ n c.f op key fun o ho h => c.begun_older o ho h.1]
  cases key <;> rfl

theorem Group.staying_uniform (gr : Group) (f : Nat) {key : RegKey} (hk : key.uniform = true) :
    ∀ o ∈ gr.staying f key, o.key = key → o.frag = f := by
  intro o ho hkey
  simp only [Group.staying, hk, if_true, List.mem_filter] at ho
  simpa [hkey] using ho.2

/-- No other fragment's outstanding write to a uniform register stands behind a fragment's write to it. -/
theorem Group.write_older_uniform (gr : Group) (f : Nat) {key : RegKey} (x : DWord) (hk : key.uniform = true) :
    ∀ o ∈ (gr.write f key x).older, o.key = key → o.frag = f := by
  intro o ho hkey
  rcases gr.write_eq f key x with h | h <;> rw [h] at ho
  · exact gr.staying_uniform f hk o ho hkey
  · rcases List.mem_append.1 ho with ho | ho
    · exact gr.staying_uniform f hk o ho hkey
    · rw [List.mem_singleton.1 ho]

theorem RegKey.real_of_uniform {key : RegKey} (h : key.uniform = true) : key.real = true := by
  cases key with
  | v t m | q t m => cases h
  | s m | k m => rfl

theorem Group.get_write_uniform (gr : Group) (n : Nat) {f f' : Nat} (op : Nat) {key : RegKey} (x : DWord) (hf : f' ≠ f)
    (hk : key.uniform = true) : (gr.write f key x).get n f' op key = key.narrow x := by
  have hreal := RegKey.real_of_uniform hk
  rw [Group.get_settled _ n f' op key fun o ho h => hf (h.1 ▸ gr.write_older_uniform f x hk o ho h.2),
    Group.read_write gr f key key x hreal hreal, if_pos rfl]

theorem Group.write_interlocked (gr : Group) (f : Nat) (key : RegKey) (x : DWord) : (gr.write f key x).interlocked = gr.interlocked := by
  rcases gr.write_eq f key x with h | h <;> rw [h] <;> cases key <;> rfl

theorem Group.write_older_interlocked (gr : Group) (f : Nat) (key : RegKey) (x : DWord) (hi : gr.interlocked = true) :
    ∀ o ∈ (gr.write f key x).older, o ∈ gr.older := by
  intro o ho
  simp only [Group.write, hi, Bool.true_or, if_true] at ho
  exact gr.staying_sub f key o ho

theorem Group.writes_older_interlocked (gr : Group) (f : Nat) (l : List (RegKey × DWord)) (hi : gr.interlocked = true) :
    ∀ o ∈ (gr.writes f l).older, o ∈ gr.older := by
  induction l generalizing gr with
  | nil => exact fun _ h => h
  | cons p l ih =>
    exact fun o ho => gr.write_older_interlocked f p.1 p.2 hi o (ih (gr.write f p.1 p.2) ((gr.write_interlocked f _ _).trans hi) o ho)

/-! ### Threads -/

theorem Cx.mem_active (c : Cx) (n th : Nat) (g : Option GuardQ) : th ∈ c.active n g ↔
    th < c.gr.size ∧ c.fr.mask.getLsbD th = true ∧ ∀ q, g = some q → c.q n 7 th q.q.toNat = !q.neg := by
  cases g with
  | none => simp [Cx.active, threadsOf]
  | some q =>
    have hguard : (c.q n 7 th q.q.toNat ^^ q.neg) = true ↔ c.q n 7 th q.q.toNat = !q.neg := by
      cases c.q n 7 th q.q.toNat <;> cases q.neg <;> decide
    simp [Cx.active, threadsOf, hguard]
    tauto

end Sys2Proof.Machine
end

section
/-! What reads return, and who acts (R71, R73, R75, R187, R150, R59). -/

open Sys2Proof.Machine in
/-- Settles O6: a read takes the register's value or one of the fragment's older values, and W = 1, an interlocked group and another
fragment's write to a uniform register each leave no older value to take. -/
theorem registersAndThreads : Obligations.RegistersAndThreads :=
  ⟨⟨Group.get_eq_read_or_older, Cx.get_begun, Group.writes_older_interlocked, fun gr n _ _ op _ x => gr.get_write_uniform n op x,
    fun gr f l key => gr.read_writes f l key⟩, fun c n g th => c.mem_active n th g⟩

end

section
/-! SUPPORT. What each operation of the model does to the control cores. `f_ctls`: `f` leaves them as they are; `legal_f`: `f` keeps
them legal. In the order of the definitions. -/

namespace Sys2Proof.Machine

/-! ### Legal control cores (R120 to R122) -/

/-- At most four trap records, bit 0 of KPEND and of KMASK 0, and no bit of KBIND outside its fields. -/
def LegalRegs (depth : Nat) (kpend kmask : BitVec 8) (kbind : DWord) : Prop :=
  depth ≤ 4 ∧ kpend.getLsbD 0 = false ∧ kmask.getLsbD 0 = false ∧ kbind &&& ~~~kbindMask = 0

@[simp] def Ctl.legal (c : Ctl) : Prop := LegalRegs c.depth c.kpend c.kmask c.kbind

/-- There are 96 control cores, and they are legal. -/
def CtlsLegal (l : List Ctl) : Prop := l.length = 96 ∧ ∀ c ∈ l, c.legal

@[simp] theorem Ctl.setS_depth (c : Ctl) (n : Nat) (x : DWord) : (c.setS n x).depth = c.depth := rfl
@[simp] theorem Ctl.setS_kpend (c : Ctl) (n : Nat) (x : DWord) : (c.setS n x).kpend = c.kpend := rfl
@[simp] theorem Ctl.setS_kmask (c : Ctl) (n : Nat) (x : DWord) : (c.setS n x).kmask = c.kmask := rfl
@[simp] theorem Ctl.setS_kbind (c : Ctl) (n : Nat) (x : DWord) : (c.setS n x).kbind = c.kbind := rfl
theorem Ctl.legal_reset : Ctl.reset.legal := by
  simp only [Ctl.legal, LegalRegs]; decide

theorem CtlsLegal.map_iff {l : List Ctl} {f : Ctl → Ctl} (hf : ∀ c : Ctl, (f c).legal ↔ c.legal) :
    CtlsLegal (l.map f) ↔ CtlsLegal l := by
  simp only [CtlsLegal, List.length_map, List.forall_mem_map, hf]

theorem CtlsLegal.modify {l : List Ctl} {f : Ctl → Ctl} {cc : Nat} (h : CtlsLegal l)
    (hf : ∀ c : Ctl, l[cc]? = some c → c.legal → (f c).legal) : CtlsLegal (l.modify cc f) := by
  refine ⟨by rw [List.length_modify, h.1], fun d hd => ?_⟩
  obtain ⟨i, hi⟩ := List.mem_iff_getElem?.mp hd
  rw [List.getElem?_modify] at hi
  obtain ⟨c, hc, rfl⟩ := Option.map_eq_some_iff.mp hi
  have hl := h.2 c (List.mem_of_getElem? hc)
  split
  · next e => exact hf c (e ▸ hc) hl
  · exact hl

/-- A change that leaves the fields of `LegalRegs` as they are. -/
theorem CtlsLegal.modify_iff {l : List Ctl} {f : Ctl → Ctl} {cc : Nat} (hf : ∀ c : Ctl, (f c).legal ↔ c.legal) :
    CtlsLegal (l.modify cc f) ↔ CtlsLegal l := by
  refine ⟨fun h => ⟨by rw [← List.length_modify, h.1], fun c hc => ?_⟩, fun h => h.modify fun c _ => (hf c).mpr⟩
  obtain ⟨i, hi⟩ := List.mem_iff_getElem?.mp hc
  have h' : (if cc = i then f c else c).legal := h.2 _ (List.mem_of_getElem? (by rw [List.getElem?_modify, hi]; rfl))
  split at h'
  · exact (hf c).mp h'
  · exact h'

@[simp] theorem legal_modify_setS {l : List Ctl} {cc : Nat} (n : Nat) (x : DWord) :
    CtlsLegal (l.modify cc (fun c => c.setS n x)) ↔ CtlsLegal l := CtlsLegal.modify_iff fun _ => .rfl

@[simp] theorem legal_modify_mk {l : List Ctl} {cc : Nat} (s : Ctl → Tab DWord) (k : Ctl → Tab Bool)
    (pc : Ctl → DWord) (ab ie pv : Ctl → Bool) (karea ktbl : Ctl → DWord) (bound stopped : Ctl → Bool) (wait : Ctl → Wait)
    (batch : Ctl → BitVec 16) (openB : Ctl → List BatchItem) (closedB : Ctl → List Batch) (deferred : Ctl → List TrapEntry)
    (queue : Ctl → Option (Nat × DWord)) (source7 : Ctl → Nat) :
    CtlsLegal (l.modify cc (fun c => .mk (s c) (k c) (pc c) c.depth (ab c) (ie c) (pv c) (karea c) (ktbl c) c.kpend c.kmask c.kbind
      (bound c) (stopped c) (wait c) (batch c) (openB c) (closedB c) (deferred c) (queue c) (source7 c))) ↔ CtlsLegal l :=
  CtlsLegal.modify_iff fun _ => .rfl

theorem getElem?_mapIdx {α : Type} (f : Nat → α → α) (n : Nat) (l : List α) (i : Nat) :
    (mapIdx f n l)[i]? = (l[i]?).map (f (n + i)) := by
  induction l generalizing n i with
  | nil => rfl
  | cons x l ih =>
    cases i with
    | zero => rfl
    | succ i => simpa [mapIdx, Nat.add_comm 1, Nat.add_assoc] using ih (n + 1) i

theorem length_mapIdx {α : Type} (f : Nat → α → α) (n : Nat) (l : List α) : (mapIdx f n l).length = l.length := by
  induction l generalizing n with
  | nil => rfl
  | cons x l ih => simp [mapIdx, ih]

theorem CtlsLegal.mapIdx {l : List Ctl} (h : CtlsLegal l) {f : Nat → Ctl → Ctl} (hf : ∀ n (c : Ctl), c.legal → (f n c).legal)
    (n : Nat) : CtlsLegal (mapIdx f n l) := by
  refine ⟨by rw [length_mapIdx, h.1], fun d hd => ?_⟩
  obtain ⟨i, hi⟩ := List.mem_iff_getElem?.mp hd
  rw [getElem?_mapIdx] at hi
  obtain ⟨c, hc, rfl⟩ := Option.map_eq_some_iff.mp hi
  exact hf _ c (h.2 c (List.mem_of_getElem? hc))

/-! ### Choices and loops -/

@[simp] theorem ctls_ite (c : Prop) [Decidable c] (s t : State) : (if c then s else t).ctls = if c then s.ctls else t.ctls :=
  apply_ite ..
@[simp] theorem legal_ite (c : Prop) [Decidable c] (l m : List Ctl) :
    CtlsLegal (if c then l else m) = if c then CtlsLegal l else CtlsLegal m := apply_ite ..

@[simp] theorem foldl_ctls {α : Type} {f : State → α → State} (hf : ∀ s a, (f s a).ctls = s.ctls) (l : List α) (s : State) :
    (l.foldl f s).ctls = s.ctls := by
  induction l generalizing s with
  | nil => rfl
  | cons a l ih => exact (ih _).trans (hf s a)

theorem Perf.ctls_of_done {p : Perf} {s : State} (e : p = .done s) : s.ctls = p.state.ctls := by rw [e, Perf.state_done]
theorem XlatOnly.ctls {s t : State} (h : XlatOnly s t) : t.ctls = s.ctls := by obtain ⟨_, _, rfl⟩ := h; rfl
theorem CopiesOnly.ctls {s t : State} (h : CopiesOnly s t) : t.ctls = s.ctls := by obtain ⟨_, rfl⟩ := h; rfl
theorem StoreOnly.ctls {s t : State} (h : StoreOnly s t) : t.ctls = s.ctls := by obtain ⟨_, _, _, _, _, _, rfl⟩ := h; rfl
theorem LoadOnly.ctls {s t : State} (h : LoadOnly s t) : t.ctls = s.ctls := by obtain ⟨⟨_, _, rfl⟩, _⟩ := h; rfl

/-- The control cores of the state in a pair that a function gives. -/
theorem ctls_of_eq_mk {α : Type} {p : α × State} {a : α} {t : State} (e : p = (a, t)) : t.ctls = p.2.ctls := by rw [e]

/-! ### Control cores one at a time -/

@[simp] theorem legal_parkCtl (s : State) (cc : Nat) (w : Wait) : CtlsLegal (parkCtl s cc w).ctls ↔ CtlsLegal s.ctls := by
  simp [parkCtl]
@[simp] theorem legal_advanceCtl (s : State) (cc n : Nat) : CtlsLegal (advanceCtl s cc n).ctls ↔ CtlsLegal s.ctls := by
  simp [advanceCtl]

/-! ### Tables -/

/-! ### Choices and loops -/

@[simp] theorem legal_foldl {α : Type} {f : State → α → State}
    (hf : ∀ s a, CtlsLegal s.ctls → CtlsLegal (f s a).ctls) (l : List α) {s : State} (h : CtlsLegal s.ctls) :
    CtlsLegal (l.foldl f s).ctls := by
  induction l generalizing s with
  | nil => exact h
  | cons a l ih => exact ih (hf s a h)

/-! ### Memory and registration -/

@[simp] theorem noteWrite_ctls (s : State) (pa n : Nat) :
    (noteWrite s pa n).ctls = s.ctls := rfl
@[simp] theorem setReg_ctls (s : State) (w : Nat) (r : Reg) :
    (setReg s w r).ctls = s.ctls := rfl
@[simp] theorem clearReg_ctls (s : State) (w : Nat) :
    (clearReg s w).ctls = s.ctls := rfl

@[simp] theorem regStore_ctls (s : State) (a : Agent) (key w : Nat) (va : DWord) :
    (regStore s a key w va).ctls = s.ctls := by
  fun_cases regStore s a key w va <;> rfl

@[simp] theorem regAtomic_ctls (s : State) (a : Agent) (near : Bool) (w : Nat) (va : DWord) :
    (regAtomic s a near w va).ctls = s.ctls := by fun_cases regAtomic s a near w va <;> rfl

@[simp] theorem moveLine_ctls (s : State) (w : Nat) (va : DWord) :
    (moveLine s w va).ctls = s.ctls := by
  fun_cases moveLine s w va <;> rfl

@[simp] theorem releaseAgent_ctls (s : State) (c : Agent) :
    (releaseAgent s c).ctls = s.ctls := by simp [releaseAgent]
@[simp] theorem settleAgent_ctls (s : State) (c : Agent) :
    (settleAgent s c).ctls = s.ctls := by simp [settleAgent]
@[simp] theorem dropWord_ctls (s : State) (site : Site) (asid : BitVec 16) (va : DWord) (w : Nat) :
    (dropWord s site asid va w).ctls = s.ctls := (dropWord_only s site asid va w).ctls

@[simp] theorem dropAt_ctls (s : State) (site : Site) (w : Nat) :
    (dropAt s site w).ctls = s.ctls := by
  fun_cases dropAt s site w <;> rfl

@[simp] theorem fillSector_ctls (s : State) (site : Site) (asid : BitVec 16) (va : DWord) (key pa : Nat) (p : Bool) :
    (fillSector s site asid va key pa p).ctls = s.ctls := (fillSector_only s site asid va key pa p).ctls

/-! ### Translation -/

@[simp] theorem fillXlat_ctls (s : State) (site : Site) (asid : BitVec 16) (es : Fills) :
    (fillXlat s site asid es).ctls = s.ctls := (fillXlat_only s site asid es).ctls
@[simp] theorem translate_ctls (s : State) (site : Site) (c : Ctx) (p : Bool) (u : Use) (va : DWord) :
    (translate s site c p u va).2.ctls = s.ctls := (translate_only s site c p u va).ctls
@[simp] theorem armMonitor_ctls (s : State) (pte : Nat) (w : Waiter) :
    (armMonitor s pte w).ctls = s.ctls := by simp [armMonitor]

/-! ### Galleys and fault queues -/

@[simp] theorem writeBytes_ctls (s : State) (k pa : Nat) (bs : List Byte) : (writeBytes s k pa bs).ctls = s.ctls :=
  (writeBytes_only s k pa bs).ctls
@[simp] theorem putWord_ctls (s : State) (k pa : Nat) (bs : List Byte) : (putWord s k pa bs).ctls = s.ctls :=
  (putWord_only s k pa bs).ctls
@[simp] theorem writePlan_ctls (s : State) (l : List (Nat × Nat)) (bs : List Byte) : (writePlan s l bs).ctls = s.ctls :=
  (writePlan_only l s bs).ctls

@[simp] theorem post_ctls (s : State) (d : Nat) (e : FaultEntry) : (post s d e).ctls = s.ctls := by
  unfold post
  dsimp only
  split
  next t e1 =>
    split at e1
    · cases e1
    · exact (faultAppend_only (t := t) e1).ctls
  next => rfl

/-! ### Ops -/

@[simp] theorem modFrag_ctls (s : State) (g f : Nat) (hh : Frag → Frag) :
    (modFrag s g f hh).ctls = s.ctls := rfl
@[simp] theorem advance_ctls (s : State) (c : Cx) (n : Nat) :
    (advance s c n).ctls = s.ctls := rfl
@[simp] theorem jump_ctls (s : State) (c : Cx) (pc : DWord) :
    (jump s c pc).ctls = s.ctls := rfl
@[simp] theorem park_ctls (s : State) (c : Cx) (w : Wait) :
    (park s c w).ctls = s.ctls := rfl
@[simp] theorem parkHome_ctls (s : State) (c : Cx) (dies : List Nat) :
    (parkHome s c dies).ctls = s.ctls := rfl
@[simp] theorem putRegs_ctls (s : State) (c : Cx) (l : List (RegKey × DWord)) :
    (putRegs s c l).ctls = s.ctls := rfl

/-- A source that is not bit 0 leaves control cores legal (R121). -/
@[simp] theorem legal_raiseSource {s : State} {src : Nat} (dest : Nat → Bool) (aux : Nat) (hs : src ≠ 0) (h : CtlsLegal s.ctls) :
    CtlsLegal (raiseSource s src dest aux).ctls := by
  refine h.mapIdx (fun cc c hc => ?_) 0
  split
  · obtain ⟨hd, hp, hm, hb⟩ := hc
    have h0 : (BitVec.ofNat 8 (2 ^ src)).getLsbD 0 = false := by
      rw [BitVec.getLsbD_ofNat, Nat.testBit_two_pow]
      simp [hs]
    exact ⟨hd, by simp only [BitVec.getLsbD_or, hp, h0, Bool.or_self], hm, hb⟩
  · exact hc

@[simp] theorem checkAccs_ctls (s : State) (w : Who) (u : Use) (accs : List Acc) :
    (checkAccs s w u accs).2.ctls = s.ctls := (checkAccs_only s w u accs).ctls
@[simp] theorem loadAccs_ctls (s : State) (w : Who) (l : List (Acc × Nat × Nat)) :
    (loadAccs s w l).2.2.ctls = s.ctls := (loadAccs_only s w l).ctls
@[simp] theorem regStores_ctls (s : State) (w : Who) (key : Nat) (va : DWord) (n k : Nat) :
    (regStores s w key va n k).ctls = s.ctls := (regStores_only s w key va n k).ctls

@[simp] theorem regAtomics_ctls (s : State) (w : Who) (near : Bool) (va : DWord) (n k : Nat) :
    (regAtomics s w near va n k).ctls = s.ctls := by
  induction k generalizing s va n with
  | zero => rfl
  | succ k ih => rw [regAtomics, ih]; simp

@[simp] theorem joinSector_ctls (s : State) (site : Site) (n : Nat) :
    (joinSector s site n).ctls = s.ctls := (joinSector_only s site n).ctls
@[simp] theorem storeAcc_ctls (s : State) (w : Who) (p : Acc × Nat × Nat) : (storeAcc s w p).2.ctls = s.ctls :=
  (storeAcc_only s w p).ctls
@[simp] theorem storeAccs_ctls (s : State) (w : Who) (l : List (Acc × Nat × Nat)) : (storeAccs s w l).2.ctls = s.ctls :=
  (storeAccs_only s w l).ctls
@[simp] theorem clearPoison_ctls (s : State) (l : List (Acc × Nat × Nat)) :
    (clearPoison s l).ctls = s.ctls := by simp [clearPoison]
@[simp] theorem atomAcc_ctls (s : State) (w : Who) (near : Bool) (f : Nat → Nat) (p : Acc × Nat × Nat) :
    (atomAcc s w near f p).2.2.ctls = s.ctls := by fun_cases atomAcc s w near f p <;> simp [*]
@[simp] theorem msiRead_ctls (s : State) (iod : Nat) :
    (msiRead s iod).ctls = s.ctls := by fun_cases msiRead s iod <;> rfl

@[simp] theorem release_ctls (s : State) (a : Agent) (sc : Scope) :
    (release s a sc).ctls = s.ctls := by
  fun_cases release s a sc <;> simp +zetaDelta

@[simp] theorem acquire_ctls (s : State) (site : Site) (asid : BitVec 16) (sc : Scope) (cover : Cover) :
    (acquire s site asid sc cover).ctls = s.ctls := by fun_cases acquire s site asid sc cover <;> rfl
@[simp] theorem acquireAll_ctls (s : State) (site : Site) (sc : Scope) :
    (acquireAll s site sc).ctls = s.ctls := by simp [acquireAll]

@[simp] theorem readChunk_ctls (s : State) (k : Chunk) :
    (readChunk s k).ctls = s.ctls := by
  fun_cases readChunk s k <;> simp +zetaDelta

@[simp] theorem readChunks_ctls (s : State) (g f : Nat) :
    (readChunks s g f).ctls = s.ctls := by simp [readChunks]
@[simp] theorem readFill_ctls (s : State) (g fill : Nat) :
    (readFill s g fill).ctls = s.ctls := by simp [readFill]
@[simp] theorem stopGroup_ctls (s : State) (g : Nat) (pc : DWord) :
    (stopGroup s g pc).ctls = s.ctls := by fun_cases stopGroup s g pc <;> simp [*]
@[simp] theorem dropChain_ctls (s : State) (id : Nat) :
    (dropChain s id).ctls = s.ctls := by fun_cases dropChain s id <;> rfl
@[simp] theorem runTrap_ctls (s : State) (r : RunInfo) (pc : DWord) :
    (runTrap s r pc).ctls = s.ctls := by fun_cases runTrap s r pc <;> simp [*]
@[simp] theorem appendTrap_ctls (s : State) (g : Nat) (e : TrapEntry) (byHandler : Bool) :
    (appendTrap s g e byHandler).ctls = s.ctls := by fun_cases appendTrap s g e byHandler <;> simp [*]
@[simp] theorem settleLate_ctls (s : State) (g : Nat) :
    (settleLate s g).ctls = s.ctls := by fun_cases settleLate s g <;> simp +zetaDelta [*]
@[simp] theorem enqueueTrap_ctls (s : State) (g : Nat) (e : TrapEntry) (byHandler : Bool) :
    (enqueueTrap s g e byHandler).ctls = s.ctls := by simp [enqueueTrap]
@[simp] theorem raiseFrag_ctls (s : State) (c : Cx) (cause : Nat) (addr aux : DWord) (rpc : Option DWord) :
    (raiseFrag s c cause addr aux rpc).ctls = s.ctls := by simp [raiseFrag]
@[simp] theorem legal_stopCtl {s : State} (cc : Nat) (h : CtlsLegal s.ctls) : CtlsLegal (stopCtl s cc).ctls :=
  legal_raiseSource _ _ (by decide) (by simp [h])

/-- A trap takes a record where fewer than four are in use (R120). -/
@[simp] theorem legal_ctlTrap {s : State} (cc cause source : Nat) (addr aux rpc : DWord) (h : CtlsLegal s.ctls) :
    CtlsLegal (ctlTrap s cc cause source addr aux rpc).ctls := by
  have entered {c : Ctl} (hc : s.ctls[cc]? = some c) (hd : ¬ 4 ≤ c.depth) {s3 : State} {f : Ctl → Ctl} (e : s3.ctls = s.ctls)
      (hf : ∀ c, (f c).depth = c.depth + 1 ∧ (f c).kpend = c.kpend ∧ (f c).kmask = c.kmask ∧ (f c).kbind = c.kbind) :
      CtlsLegal (modCtl s3 cc f).ctls := by
    rw [modCtl_ctls, e]
    refine h.modify fun d hd' ⟨_, hl⟩ => ?_
    obtain rfl : c = d := Option.some.inj (hc.symm.trans hd')
    obtain ⟨h1, h2, h3, h4⟩ := hf c
    simp only [Ctl.legal, LegalRegs, h1, h2, h3, h4]
    exact ⟨by omega, hl⟩
  fun_cases ctlTrap s cc cause source addr aux rpc
  case case1 => exact h
  case case2 | case5 => simp [h]
  case case3 c hc hd _ _ l s1 e st s2 s3 _ =>
    have e2 : s2.ctls = s.ctls := by simp +zetaDelta [ctls_of_eq_mk e]
    exact entered hc hd e2 fun _ => ⟨rfl, rfl, rfl, rfl⟩
  case case4 c hc hd _ _ l s1 e st s2 s3 _ _ _ =>
    have e2 : s2.ctls = s.ctls := by simp +zetaDelta [ctls_of_eq_mk e]
    have h3 : CtlsLegal s3.ctls := entered hc hd e2 fun _ => ⟨rfl, rfl, rfl, rfl⟩
    simp [h3]
  all_goals simp [ctls_of_eq_mk ‹checkAccs _ _ _ _ = _›, h]

@[simp] theorem legal_raiseCtl {s : State} (cc cause : Nat) (addr aux : DWord) (h : CtlsLegal s.ctls) :
    CtlsLegal (raiseCtl s cc cause addr aux).ctls := by fun_cases raiseCtl s cc cause addr aux <;> simp [*]
@[simp] theorem legal_deferCtl (s : State) (cc cause : Nat) (ipc addr aux : DWord) :
    CtlsLegal (deferCtl s cc cause ipc addr aux).ctls ↔ CtlsLegal s.ctls := by simp [deferCtl]
@[simp] theorem legal_takeDeferred {s : State} (cc : Nat) (h : CtlsLegal s.ctls) : CtlsLegal (takeDeferred s cc).ctls := by
  fun_cases takeDeferred s cc <;> simp +zetaDelta -implicitDefEqProofs [h]

@[simp] theorem queueRace_ctls (s : State) (c : Cx) (r : Option (Race × DWord)) :
    (queueRace s c r).ctls = s.ctls := by
  fun_cases queueRace s c r <;> rfl

@[simp] theorem legal_queueRaceCtl (s : State) (cc : Nat) (ipc : DWord) (r : Option (Race × DWord)) :
    CtlsLegal (queueRaceCtl s cc ipc r).ctls ↔ CtlsLegal s.ctls := by fun_cases queueRaceCtl s cc ipc r <;> simp

/-- A return frees a record (R120). -/
@[simp] theorem legal_eretCtl {s : State} (cc : Nat) (word : DWord) (h : CtlsLegal s.ctls) : CtlsLegal (eretCtl s cc word).ctls := by
  fun_cases eretCtl s cc word
  case case1 => exact h
  case case2 => simp [h]
  case case3 c hc hd r l s1 e ld x s2 =>
    have e1 : ld.2.2.ctls = s.ctls := by simp +zetaDelta [ctls_of_eq_mk e]
    have h2 : CtlsLegal s2.ctls := by
      simp only [s2, modCtl_ctls, e1]
      exact h.modify fun c _ ⟨hl, hr⟩ => ⟨(Nat.sub_le ..).trans hl, hr⟩
    simp [h2]
  all_goals simp [ctls_of_eq_mk ‹checkAccs _ _ _ _ = _›, h]

@[simp] theorem deliverTrap_ctls (s : State) (g : Nat) :
    (deliverTrap s g).ctls = s.ctls := by fun_cases deliverTrap s g <;> simp [*]
@[simp] theorem returnTrap_ctls (s : State) (c : Cx) (word : DWord) :
    (returnTrap s c word).ctls = s.ctls := by fun_cases returnTrap s c word <;> simp [*]
@[simp] theorem postGroupPage_ctls (s : State) (gr : Group) (access : Nat) (va : DWord) :
    (postGroupPage s gr access va).ctls = s.ctls := by simp [postGroupPage]

@[simp] theorem legal_parkReq {s0 s : State} (c : Cx) (req : Req) (access : DWord → Nat) (len : Nat) (pages : List (DWord × Nat))
    (dies : List Nat) (begun : Option Nat) (h0 : CtlsLegal s0.ctls) (h : CtlsLegal s.ctls) :
    CtlsLegal (parkReq s0 s c req access len pages dies begun).ctls := by
  unfold parkReq
  split <;> simp [h0, h]

@[simp] theorem waitToIssue_ctls (s : State) (c : Cx) (x : IssueInfo) :
    (waitToIssue s c x).ctls = s.ctls := by simp [waitToIssue]
@[simp] theorem started_ctls (s : State) (c : Cx) (w : Bool) :
    (started s c w).ctls = s.ctls := rfl

@[simp] theorem legal_privileged {s : State} (cc : Nat) (c : Ctl) {body : State → State} (h : CtlsLegal s.ctls)
    (hb : CtlsLegal (body s).ctls) :
    CtlsLegal (privileged cc c s body).ctls := by
  unfold privileged
  split <;> simp [h, hb]

@[simp] theorem noCtl_ctls (cc : Nat) (c : Ctl) (s : State) :
    (noCtl cc c s).ctls = s.ctls := rfl
@[simp] theorem noFrag_ctls (c : Cx) (s : State) :
    (noFrag c s).ctls = s.ctls := rfl

/-! ### Windows -/

@[simp] theorem winWrite_ctls (s : State) (blk : Nat) (sp : Space) (off : Nat) (bs : List Byte) :
    (winWrite s blk sp off bs).ctls = s.ctls := rfl
@[simp] theorem raiseAcc_ctls (s : State) (c : Cx) (cause : Nat) (a : Acc) :
    (raiseAcc s c cause a).ctls = s.ctls := by simp [raiseAcc]

/-! ### Cores and launches -/

@[simp] theorem modCore_ctls (s : State) (n : Nat) (f : Core → Core) :
    (modCore s n f).ctls = s.ctls := rfl
@[simp] theorem takeWindows_ctls (s : State) (blk : Nat) :
    (takeWindows s blk).ctls = s.ctls := by fun_cases takeWindows s blk <;> rfl

@[simp] theorem leaveWindows_ctls (s : State) (blk : Nat) :
    (leaveWindows s blk).ctls = s.ctls := by
  fun_cases leaveWindows s blk <;> rfl

/-! ### Fragments and traps -/

@[simp] theorem returnSpilled_ctls (n : Nat) (s : State) (core : Nat) :
    (returnSpilled n s core).ctls = s.ctls := by
  fun_induction returnSpilled n s core <;> simp [*]

@[simp] theorem refillSlots_ctls (s : State) (core : Nat) :
    (refillSlots s core).ctls = s.ctls := by simp [refillSlots]

@[simp] theorem mergeFamily_ctls (s : State) (g tok : Nat) (fam : List Frag) :
    (mergeFamily s g tok fam).ctls = s.ctls := by
  fun_cases mergeFamily s g tok fam <;> rfl

@[simp] theorem tryMerge_ctls (s : State) (g tok id : Nat) :
    (tryMerge s g tok id).ctls = s.ctls := by
  fun_cases tryMerge s g tok id <;> simp [*]

@[simp] theorem tryMerges_ctls (s : State) (g : Nat) (l : List (Nat × Nat)) :
    (tryMerges s g l).ctls = s.ctls := by
  fun_induction tryMerges s g l <;> simp [*]

/-! ### Accesses and requests -/

@[simp] theorem legal_actor_putS (a : Actor) (s : State) (n : Nat) (x : DWord) :
    CtlsLegal (Actor.putS a s n x).ctls ↔ CtlsLegal s.ctls := by fun_cases Actor.putS a s n x <;> simp
@[simp] theorem legal_actor_race (a : Actor) (s : State) (r : Option (Race × DWord)) :
    CtlsLegal (Actor.race a s r).ctls ↔ CtlsLegal s.ctls := by fun_cases Actor.race a s r <;> simp
@[simp] theorem Actor.dirty_ctls (a : Actor) (s : State) :
    (Actor.dirty a s).ctls = s.ctls := by fun_cases Actor.dirty a s <;> rfl
@[simp] theorem legal_unlessBarred (x : Option Acc) {s : State} {load : Perf} (h : CtlsLegal s.ctls)
    (hl : CtlsLegal load.state.ctls) : CtlsLegal (unlessBarred x s load).state.ctls := by cases x <;> simp [unlessBarred, h, hl]

@[simp] theorem legal_issueReq {s : State} (c : Cx) (len : Nat) (u : Use) (req : Req)
    {perform : State → List (Acc × Nat × Nat) → Perf} (h : CtlsLegal s.ctls)
    (hp : ∀ s l, CtlsLegal s.ctls → CtlsLegal (perform s l).state.ctls) :
    CtlsLegal (issueReq c s len u req perform).ctls := by
  unfold issueReq
  split
  · simp [h]
  · split
    · simp [h]
    · split
      all_goals
        have h1 : CtlsLegal (checkAccs s c.who u req.accs).2.ctls := by simp [h]
        rw [‹checkAccs _ _ _ _ = _›] at h1
      case h_4 l s1 _ =>
        have h2 := hp s1 l h1
        split at * <;> simp_all
      all_goals simp_all

@[simp] theorem legal_issueReqCtl {s : State} (cc : Nat) (c : Ctl) (len : Nat) (u : Use) (req : Req)
    {perform : State → List (Acc × Nat × Nat) → Perf} (h : CtlsLegal s.ctls)
    (hp : ∀ s l, CtlsLegal s.ctls → CtlsLegal (perform s l).state.ctls) :
    CtlsLegal (issueReqCtl cc c s len u req perform).ctls := by
  unfold issueReqCtl
  split
  all_goals
    have h1 : CtlsLegal (checkAccs s (c.who cc) u req.accs).2.ctls := by simp [h]
    rw [‹checkAccs _ _ _ _ = _›] at h1
  case h_5 l s1 _ =>
    have h2 := hp s1 l h1
    split at * <;> simp_all
  all_goals simp_all

/-! ### Lane memory instructions -/

@[simp] theorem legal_performLoad {s : State} (t : ElemTy) (vt : BitVec 8) (c : Cx) (l : List (Acc × Nat × Nat))
    (h : CtlsLegal s.ctls) : CtlsLegal (performLoad t vt c s l).state.ctls := legal_unlessBarred _ h (by simp [h])
@[simp] theorem legal_performStore {s : State} (a : Actor) (l : List (Acc × Nat × Nat)) (h : CtlsLegal s.ctls) :
    CtlsLegal (performStore a s l).state.ctls := by simp [performStore, h]
@[simp] theorem legal_ldBody {s : State} (o : MemOp) (c : Cx) (h : CtlsLegal s.ctls) : CtlsLegal (ldBody o c s).ctls :=
  legal_issueReq c _ _ _ h fun _ _ h => legal_performLoad _ _ c _ h

@[simp] theorem legal_stBody (o : MemOp) (c : Cx) {s : State} (h : CtlsLegal s.ctls) :
    CtlsLegal (stBody o c s).ctls := by
  fun_cases stBody o c s
  simp_all

@[simp] theorem legal_ldgBody {s : State} (o : GatherOp) (c : Cx) (h : CtlsLegal s.ctls) : CtlsLegal (ldgBody o c s).ctls :=
  legal_issueReq c _ _ _ h fun _ _ h => legal_performLoad _ _ c _ h

@[simp] theorem legal_stgBody (o : GatherOp) (c : Cx) {s : State} (h : CtlsLegal s.ctls) :
    CtlsLegal (stgBody o c s).ctls := by
  fun_cases stgBody o c s
  simp_all

@[simp] theorem atomAccs_ctls (s : State) (w : Who) (k : AtomKind) (l : List (Acc × Nat × Nat)) :
    (atomAccs s w k l).2.2.ctls = s.ctls := by
  induction l generalizing s with
  | nil => rfl
  | cons p l ih => exact (ih _).trans (atomAcc_ctls ..)

@[simp] theorem performAtom_ctls (rel : Bool) (k : AtomKind) (sc : Scope) (vt : BitVec 8) (c : Cx) {s : State}
    (l : List (Acc × Nat × Nat)) :
    (performAtom rel k sc vt c s l).state.ctls = s.ctls := by simp [performAtom]

@[simp] theorem legal_atomBody (o : AtomOp) (c : Cx) {s : State} (h : CtlsLegal s.ctls) :
    CtlsLegal (atomBody o c s).ctls := by
  fun_cases atomBody o c s
  simp_all

@[simp] theorem prefetchOne_ctls (s : State) (w : Who) (va : DWord) :
    (prefetchOne s w va).ctls = s.ctls := by
  unfold prefetchOne
  split
  · rfl
  · split <;> simp [ctls_of_eq_mk ‹_›]

@[simp] theorem pftBody_ctls (o : PftOp) (c : Cx) (s : State) :
    (pftBody o c s).ctls = s.ctls := by simp [pftBody]

@[simp] theorem coreLoad_ctls (c : Cx) (s : State) (t : ElemTy) (vt : BitVec 8) (accs : List Acc)
    (inside : Acc → Bool) (read : Acc → List Byte) :
    (coreLoad c s t vt accs inside read).ctls = s.ctls := by fun_cases coreLoad c s t vt accs inside read <;> simp [*]

@[simp] theorem coreStore_ctls (s : State) (c : Cx) (accs : List Acc) (inside : Acc → Bool) {write : State → Acc → State}
    (hw : ∀ s a, (write s a).ctls = s.ctls) :
    (coreStore c s accs inside write).ctls = s.ctls := by fun_cases coreStore c s accs inside write <;> simp [*]

@[simp] theorem ldaBody_ctls (o : MemOp) (c : Cx) (s : State) :
    (ldaBody o c s).ctls = s.ctls := by simp [ldaBody]
@[simp] theorem staBody_ctls (o : MemOp) (c : Cx) (s : State) :
    (staBody o c s).ctls = s.ctls := by simp -implicitDefEqProofs [staBody]
@[simp] theorem ldlBody_ctls (o : LsOp) (c : Cx) (s : State) :
    (ldlBody o c s).ctls = s.ctls := by simp [ldlBody]
@[simp] theorem stlBody_ctls (o : LsOp) (c : Cx) (s : State) :
    (stlBody o c s).ctls = s.ctls := by simp -implicitDefEqProofs [stlBody]

@[simp] theorem performFill_ctls (size : Nat) (sp : FillSpace) (offs : FillOffs) (c : Cx) (s : State) (l : List
    (Acc × Nat × Nat)) :
    (performFill size sp offs c s l).state.ctls = s.ctls := rfl

@[simp] theorem legal_fillBody (o : FillOp) (c : Cx) {s : State} (h : CtlsLegal s.ctls) :
    CtlsLegal (fillBody o c s).ctls := by
  fun_cases fillBody o c s
  case case3 => exact legal_issueReq c _ _ _ h fun _ _ h => by simp [h]
  all_goals simp [h]

/-! ### Uniform memory instructions -/

@[simp] theorem legal_uniReq {s : State} (a : Actor) (len : Nat) (u : Use) (req : Req)
    {perform : State → List (Acc × Nat × Nat) → Perf} (h : CtlsLegal s.ctls)
    (hp : ∀ s l, CtlsLegal s.ctls → CtlsLegal (perform s l).state.ctls) :
    CtlsLegal (uniReq a s len u req perform).ctls := by
  cases a with
  | frag c => exact legal_issueReq c len u req h hp
  | ctl cc c => exact legal_issueReqCtl cc c len u req h hp

@[simp] theorem legal_performSld {s : State} (st : BitVec 6) (sz : SldSz) (a : Actor) (l : List (Acc × Nat × Nat))
    (h : CtlsLegal s.ctls) : CtlsLegal (performSld st sz a s l).state.ctls := legal_unlessBarred _ h (by simp [h])
@[simp] theorem legal_sldBody {s : State} (o : SldOp) (a : Actor) (h : CtlsLegal s.ctls) : CtlsLegal (sldBody o a s).ctls :=
  legal_uniReq a _ _ _ h fun _ _ h => legal_performSld _ _ a _ h

@[simp] theorem legal_sstBody (o : SstOp) (a : Actor) {s : State} (h : CtlsLegal s.ctls) :
    CtlsLegal (sstBody o a s).ctls := by
  fun_cases sstBody o a s
  simp_all

@[simp] theorem relBefore_ctls (rel : Bool) (sc : Scope) (a : Actor) (s : State) :
    (relBefore rel sc a s).ctls = s.ctls := by
  simp [relBefore]

@[simp] theorem legal_performSatom {s : State} (rel : Bool) (k : AtomKind) (sc : Scope) (sd : BitVec 6) (a : Actor)
    (l : List (Acc × Nat × Nat)) (h : CtlsLegal s.ctls) : CtlsLegal (performSatom rel k sc sd a s l).state.ctls := by
  simp [performSatom, h]

@[simp] theorem legal_satomBody (o : SatomOp) (a : Actor) {s : State} (h : CtlsLegal s.ctls) :
    CtlsLegal (satomBody o a s).ctls := by
  fun_cases satomBody o a s
  simp_all

@[simp] theorem legal_guardedFrag {s : State} (g : Option GuardK) (len : Nat) {body : Cx → State → State} (c : Cx)
    (h : CtlsLegal s.ctls) (hb : CtlsLegal (body c s).ctls) :
    CtlsLegal (guardedFrag g len body c s).ctls := by
  unfold guardedFrag
  split <;> simp [h, hb]

@[simp] theorem legal_guardedCtl {s : State} (g : Option GuardK) (len : Nat) {body : Nat → Ctl → State → State} (cc : Nat)
    (c : Ctl) (h : CtlsLegal s.ctls) (hb : CtlsLegal (body cc c s).ctls) :
    CtlsLegal (guardedCtl g len body cc c s).ctls := by
  unfold guardedCtl
  split <;> simp [h, hb]

@[simp] theorem farRegs_ctls (s : State) (a : Agent) (n k : Nat) :
    (farRegs s a n k).ctls = s.ctls := by
  induction k generalizing s n with
  | zero => rfl
  | succ k ih => rw [farRegs, ih]; simp

@[simp] theorem farStore_ctls (s : State) (a : Agent) (site : Site) (key pa : Nat) (bs : List Byte) :
    (farStore s a site key pa bs).2.ctls = s.ctls := by fun_cases farStore s a site key pa bs <;> simp [*]

@[simp] theorem legal_rgnBody {s : State} (o : RgnOp) (a : Actor) (ctx : Ctx) {trap : State → DWord → State}
    {wait : State → Nat → State} {go : State → State} (ht : ∀ s x, CtlsLegal s.ctls → CtlsLegal (trap s x).ctls)
    (hw : ∀ s d, CtlsLegal s.ctls → CtlsLegal (wait s d).ctls)
    (hg : ∀ s, CtlsLegal s.ctls → CtlsLegal (go s).ctls) (h : CtlsLegal s.ctls) :
    CtlsLegal (rgnBody o a ctx trap wait go s).ctls := by
  unfold rgnBody
  dsimp only
  split
  · exact ht _ _ h
  · split
    · exact ht _ _ h
    · exact hw _ _ h
    · exact hg _ (by simp [h])

@[simp] theorem maintPage_ctls (s : State) (w : Who) (va : Nat) :
    (maintPage s w va).2.ctls = s.ctls := by
  unfold maintPage
  dsimp only
  split <;> simp

@[simp] theorem maintRange_ctls (s : State) (w : Who) (base size i n : Nat) :
    (maintRange s w base size i n).2.2.ctls = s.ctls := by
  induction n generalizing s i with
  | zero => rfl
  | succ n ih =>
    unfold maintRange
    dsimp only
    split <;> simp [ih]

@[simp] theorem cleanWords_ctls (s : State) (l : List (Nat × Nat)) :
    (cleanWords s l).ctls = s.ctls := rfl
@[simp] theorem dropCopies_ctls (s : State) (site : Site) (l : List (Nat × Nat)) :
    (dropCopies s site l).ctls = s.ctls := rfl

@[simp] theorem legal_mntBody {s : State} (o : MntOp) (a : Actor) {effect : State → Site → List (Nat × Nat) → State}
    {trap : State → DWord → State} {wait : State → List Nat → State} {go : State → State}
    (he : ∀ s x l, (effect s x l).ctls = s.ctls) (ht : ∀ s x, CtlsLegal s.ctls → CtlsLegal (trap s x).ctls)
    (hw : ∀ s d, CtlsLegal s.ctls → CtlsLegal (wait s d).ctls)
    (hg : ∀ s, CtlsLegal s.ctls → CtlsLegal (go s).ctls) (h : CtlsLegal s.ctls) :
    CtlsLegal (mntBody o a effect trap wait go s).ctls := by
  unfold mntBody
  dsimp only
  split
  · exact hg _ h
  · split
    · exact ht _ _ h
    · split
      · exact hg _ (by simp [he, h])
      · exact hw _ _ (by simp [h])

@[simp] theorem clnEffect_ctls (lvl : MntLevel) (s : State) (x : Site) (l : List (Nat × Nat)) :
    (clnEffect lvl s x l).ctls = s.ctls := by fun_cases clnEffect lvl s x l <;> rfl
@[simp] theorem invEffect_ctls (s : State) (site : Site) (l : List (Nat × Nat)) :
    (invEffect s site l).ctls = s.ctls := rfl
@[simp] theorem civEffect_ctls (lvl : MntLevel) (s : State) (site : Site) (l : List (Nat × Nat)) :
    (civEffect lvl s site l).ctls = s.ctls := by simp [civEffect]

/-! ### Tiles -/

@[simp] theorem modTile_ctls (s : State) (blk tile : Nat) (f : Tile → Tile) :
    (modTile s blk tile f).ctls = s.ctls := rfl

theorem frameRoom_ctls {s t : State} {core p : Nat} (e : frameRoom s core = some (p, t)) :
    t.ctls = s.ctls := by
  unfold frameRoom at e
  split at e
  · cases e; rfl
  · obtain ⟨x, -, e⟩ := Option.map_eq_some_iff.mp e
    cases e; rfl

theorem raiseTo_ctls {s t : State} {core b : Nat} (e : raiseTo s core b = some t) :
    t.ctls = s.ctls := by
  unfold raiseTo at e
  dsimp only at e
  split at e <;> cases e
  simp -implicitDefEqProofs

@[simp] theorem unfreeze_ctls (s : State) (w : Nat) :
    (unfreeze s w).ctls = s.ctls := by fun_cases unfreeze s w <;> rfl
@[simp] theorem removeRecord_ctls (s : State) (blk tile : Nat) :
    (removeRecord s blk tile).ctls = s.ctls := by simp [removeRecord]
@[simp] theorem putChain_ctls (s : State) (c : Chain) :
    (putChain s c).ctls = s.ctls := rfl
@[simp] theorem wakeRoot_ctls (s : State) (c : Chain) :
    (wakeRoot s c).ctls = s.ctls := rfl
@[simp] theorem failChain_ctls (s : State) (c : Chain) (cause : Nat) (addr : DWord) (aux : Nat) :
    (failChain s c cause addr aux).ctls = s.ctls := by fun_cases failChain s c cause addr aux <;> simp +zetaDelta [*]
@[simp] theorem resolved_ctls (s : State) (c : Chain) (y k : Nat) (rest : List (Nat × Nat × Nat)) :
    (resolved s c y k rest).ctls = s.ctls := by fun_cases resolved s c y k rest <;> rfl

theorem chainMove_ctls {s t : State} {c : Chain} (e : chainMove s c = some t) :
    t.ctls = s.ctls := by
  revert e
  fun_cases chainMove s c
  case case11 s1 e1 => rintro ⟨⟩; simp [frameRoom_ctls (t := s1) e1]
  all_goals rintro ⟨⟩
  all_goals simp

@[simp] theorem advanceChain_ctls (n : Nat) (s : State) (id : Nat) : (advanceChain n s id).ctls = s.ctls := by
  fun_induction advanceChain n s id
  case case4 e ih => exact ih.trans (chainMove_ctls e)
  all_goals rfl

@[simp] theorem advanceChains_ctls (s : State) (blk : Nat) :
    (advanceChains s blk).ctls = s.ctls := by simp [advanceChains]
@[simp] theorem endChain_ctls (s : State) (c : Cx) :
    (endChain s c).ctls = s.ctls := by fun_cases endChain s c <;> simp [*]

@[simp] theorem startMiss_ctls (s : State) (c : Cx) (tile : Nat) (addr : DWord) (held : List Nat) :
    (startMiss s c tile addr held).ctls = s.ctls := by
  unfold startMiss
  split <;> simp [*]

@[simp] theorem tileWrite_ctls (s : State) (blk : Nat) (a : Acc) :
    (tileWrite s blk a).ctls = s.ctls := rfl
@[simp] theorem countTiles_ctls (s : State) (core hits misses again : Nat) :
    (countTiles s core hits misses again).ctls = s.ctls := rfl
@[simp] theorem ldaTileBody_ctls (o : MemOp) (c : Cx) (s : State) :
    (ldaTileBody o c s).ctls = s.ctls := by fun_cases ldaTileBody o c s <;> simp [*]

theorem openTiles_ctls {blk core : Nat} {l : List Acc} {s t : State} (e : openTiles blk core l s = .ok t) :
    t.ctls = s.ctls := by
  revert e
  fun_induction openTiles blk core l s
  case case1 => rintro ⟨⟩; rfl
  case case2 ih => exact ih
  case case3 | case4 => exact nofun
  case case5 s1 e1 ih => exact fun e => (ih e).trans (frameRoom_ctls (t := s1) e1)

@[simp] theorem staTileBody_ctls (s : State) (o : MemOp) (c : Cx) :
    (staTileBody o c s).ctls = s.ctls := by
  unfold staTileBody
  dsimp only
  split
  · simp
  · simp
  · split
    · simp
    · simp
    · simp -implicitDefEqProofs [openTiles_ctls ‹_›]

@[simp] theorem freezeWords_ctls (l : List (Acc × Nat × Nat)) (s : State) :
    (freezeWords l s).2.2.ctls = s.ctls := by
  fun_induction freezeWords l s <;> simp [*]

@[simp] theorem defineTile_ctls (c : Cx) (sd : BitVec 6) (x : Nat) (t : Tile) (ws : List (Acc × Nat × Nat))
    (race : Option (Race × DWord)) (s : State) :
    (defineTile c sd x t ws race s).ctls = s.ctls := by
  have frozen {n : Nat} {a : Option DWord} {s1 : State} (e : freezeWords ws (release s (.group c.g) .pkg) = (n, a, s1)) :
      s1.ctls = s.ctls := by
    simpa [e] using freezeWords_ctls ws (release s (.group c.g) .pkg)
  unfold defineTile
  dsimp only
  split
  · simp
  · split
    · simp
    · split <;> simp [frozen ‹_›]

@[simp] theorem performTdef_ctls (sd : BitVec 6) (x : Nat) (c : Cx) (s : State) (l : List (Acc × Nat × Nat)) :
    (performTdef sd x c s l).state.ctls = s.ctls := by
  unfold performTdef
  dsimp only
  split
  · rfl
  next t _ =>
    have checked {r : Checked} {s1 : State} (e : checkAccs (loadAccs s c.who l).2.2 c.who .load (rangeAccs c.lowTid t) = (r, s1)) :
        s1.ctls = s.ctls := by simp [ctls_of_eq_mk e]
    split
    · rfl
    · rfl
    · rfl
    · simp [checked ‹_›]
    · split <;> simp [checked ‹_›]

@[simp] theorem legal_tileOperand {s : State} (c : Cx) (x : DWord) {body : State → State} (h : CtlsLegal s.ctls)
    (hb : CtlsLegal (body s).ctls) :
    CtlsLegal (tileOperand c s x body).ctls := by
  unfold tileOperand
  split
  · simp [h]
  · split <;> simp [h, hb]

@[simp] theorem legal_tdefBody (o : TdefOp) (c : Cx) {s : State} (h : CtlsLegal s.ctls) :
    CtlsLegal (tdefBody o c s).ctls := by simp [tdefBody, h]
@[simp] theorem tileStatus_ctls (c : Cx) (sd : BitVec 6) (s : State) (st : Nat) :
    (tileStatus c sd s st).ctls = s.ctls := rfl

@[simp] theorem legal_tsealBody {s : State} (o : SUn) (c : Cx) (h : CtlsLegal s.ctls) :
    CtlsLegal (tsealBody o c s).ctls := by
  refine legal_tileOperand _ _ h ?_
  split <;> simp [h]

@[simp] theorem dropTile_ctls (s : State) (c : Cx) (sd : BitVec 6) (tile : Nat) :
    (dropTile s c sd tile).ctls = s.ctls := by simp [dropTile]
@[simp] theorem legal_tdropBody (o : SUn) (c : Cx) {s : State} (h : CtlsLegal s.ctls) :
    CtlsLegal (tdropBody o c s).ctls := by fun_cases tdropBody o c s <;> simp [*]

@[simp] theorem legal_tholdBody {s : State} (o : SUn) (c : Cx) (h : CtlsLegal s.ctls) :
    CtlsLegal (tholdBody o c s).ctls := by
  refine legal_tileOperand _ _ h ?_
  dsimp only
  split <;> simp [h]

@[simp] theorem legal_tfreeBody (o : SUn) (c : Cx) {s : State} (h : CtlsLegal s.ctls) :
    CtlsLegal (tfreeBody o c s).ctls := by simp [tfreeBody, h]
@[simp] theorem startRun_ctls (s : State) (blk tile : Nat) (b : Block) (c : Chain) (d : Nat) (e : Entry) :
    (startRun s blk tile b c d e).ctls = s.ctls := rfl
@[simp] theorem postEntryPage_ctls (s : State) (c : Chain) (va : DWord) :
    (postEntryPage s c va).ctls = s.ctls := by fun_cases postEntryPage s c va <;> simp [*]
@[simp] theorem tryRun_ctls (s : State) (blk tile : Nat) (b : Block) (c : Chain) (d : Nat) :
    (tryRun s blk tile b c d).ctls = s.ctls := by fun_cases tryRun s blk tile b c d <;> simp [*]

/-! ### Blocks and groups -/

@[simp] theorem completeBar_ctls (s : State) (blk i : Nat) :
    (completeBar s blk i).ctls = s.ctls := by
  fun_cases completeBar s blk i
  case case4 => simp -implicitDefEqProofs
  all_goals rfl

@[simp] theorem countGang_ctls (s : State) (blk : Nat) :
    (countGang s blk).ctls = s.ctls := by fun_cases countGang s blk <;> rfl

@[simp] theorem passMember_ctls (s : State) (blk : Nat) :
    (passMember s blk).ctls = s.ctls := by
  unfold passMember
  split
  · rfl
  · simp -implicitDefEqProofs

@[simp] theorem setCounts_ctls (s : State) (core : Nat) (c : Ctx) (l : List Nat) :
    (setCounts s core c l).ctls = s.ctls := rfl
@[simp] theorem foldWord_ctls (s : State) (k w n : Nat) : (foldWord s k w n).ctls = s.ctls := (foldWord_only s k w n).ctls
@[simp] theorem foldWords_ctls (k w : Nat) (l : List (Nat × Bool)) (s : State) : (foldWords k w l s).2.ctls = s.ctls :=
  (foldWords_only k l w s).ctls
@[simp] theorem setHeld_ctls (s : State) (core : Nat) (c : Ctx) (l : List Bool) :
    (setHeld s core c l).ctls = s.ctls := rfl
@[simp] theorem foldCounts_ctls (s : State) (core : Nat) (c : Ctx) (again : Bool) :
    (foldCounts s core c again).ctls = s.ctls := by fun_cases foldCounts s core c again <;> simp +zetaDelta [*]

@[simp] theorem packBlock_ctls (m : Nat) (s : State) (blk : Nat) :
    (packBlock m s blk).ctls = s.ctls := by
  fun_cases packBlock m s blk <;> rfl

@[simp] theorem packAb_ctls (s : State) (core : Nat) :
    (packAb s core).ctls = s.ctls := by simp [packAb]
@[simp] theorem lowerBound_ctls (s : State) (core : Nat) :
    (lowerBound s core).ctls = s.ctls := by simp [lowerBound]
@[simp] theorem dropChains_ctls (s : State) (blk : Nat) :
    (dropChains s blk).ctls = s.ctls := by simp [dropChains]
@[simp] theorem removeRecords_ctls (s : State) (blk : Nat) :
    (removeRecords s blk).ctls = s.ctls := by simp [removeRecords]
@[simp] theorem gangEnded_ctls (s : State) (gang : Nat) :
    (gangEnded s gang).ctls = s.ctls := by fun_cases gangEnded s gang <;> rfl
@[simp] theorem blockEnd_ctls (s : State) (blk : Nat) :
    (blockEnd s blk).ctls = s.ctls := by fun_cases blockEnd s blk <;> simp +zetaDelta [*]
@[simp] theorem recheckBars_ctls (s : State) (blk : Nat) :
    (recheckBars s blk).ctls = s.ctls := by simp [recheckBars]
@[simp] theorem runEnd_ctls (s : State) (g : Nat) (gr : Group) (r : RunInfo) :
    (runEnd s g gr r).ctls = s.ctls := by simp [runEnd]
@[simp] theorem groupEnd_ctls (s : State) (g : Nat) :
    (groupEnd s g).ctls = s.ctls := by fun_cases groupEnd s g <;> simp +zetaDelta [*]

/-! ### Barriers and batches -/

@[simp] theorem recordArrival_ctls (s : State) (c : Cx) (i : Nat) (phase : Bool) :
    (recordArrival s c i phase).ctls = s.ctls := rfl

@[simp] theorem arriveBar_ctls (s : State) (c : Cx) (i : Nat) (phase : Bool) :
    (arriveBar s c i phase).ctls = s.ctls := by
  fun_cases arriveBar s c i phase <;> simp [*]

@[simp] theorem barArrBody_ctls (o : BarOp) (c : Cx) (s : State) :
    (barArrBody o c s).ctls = s.ctls := by simp [barArrBody]
@[simp] theorem barWaitBody_ctls (o : BarOp) (c : Cx) (s : State) :
    (barWaitBody o c s).ctls = s.ctls := by fun_cases barWaitBody o c s <;> simp [*]
@[simp] theorem barBody_ctls (o : BarOp) (c : Cx) (s : State) :
    (barBody o c s).ctls = s.ctls := by simp [barBody]

@[simp] theorem arriveGang_ctls (s : State) (c : Cx) (phase : Bool) :
    (arriveGang s c phase).ctls = s.ctls := by
  fun_cases arriveGang s c phase <;> simp [*]

@[simp] theorem gbarBody_ctls (c : Cx) (s : State) :
    (gbarBody c s).ctls = s.ctls := by simp [gbarBody]
@[simp] theorem putMbar_ctls (s : State) (blk off : Nat) (m : Mbar) :
    (putMbar s blk off m).ctls = s.ctls := rfl
@[simp] theorem queueOver_ctls (s : State) (g f : Nat) (ipc : DWord) (off : Nat) (byHandler : Bool) :
    (queueOver s g f ipc off byHandler).ctls = s.ctls := by fun_cases queueOver s g f ipc off byHandler <;> simp [*]
@[simp] theorem endWait_ctls (s : State) (g f status : Nat) (seq : BitVec 16) :
    (endWait s g f status seq).ctls = s.ctls := rfl
@[simp] theorem wakeMbar_ctls (s : State) (blk off : Nat) (m : Mbar) :
    (wakeMbar s blk off m).ctls = s.ctls := by simp [wakeMbar]
@[simp] theorem creditMbar_ctls (s : State) (blk off k g f : Nat) (ipc : DWord) (byHandler : Bool) :
    (creditMbar s blk off k g f ipc byHandler).ctls = s.ctls := by fun_cases creditMbar s blk off k g f ipc byHandler <;> simp [*]

@[simp] theorem legal_mbarChecked {s : State} (c : Cx) (off : DWord) {body : State → Mbar → State} (h : CtlsLegal s.ctls)
    (hb : ∀ m, CtlsLegal (body s m).ctls) :
    CtlsLegal (mbarChecked c s off body).ctls := by
  unfold mbarChecked
  split
  · simp [h]
  · split
    · simp [h]
    · split
      · simp [h]
      · exact hb _

@[simp] theorem mbarInitBody_ctls (o : MbarOp) (c : Cx) (s : State) :
    (mbarInitBody o c s).ctls = s.ctls := by simp -implicitDefEqProofs [mbarInitBody]
@[simp] theorem legal_mbarArmBody {s : State} (o : MbarOp) (c : Cx) (h : CtlsLegal s.ctls) :
    CtlsLegal (mbarArmBody o c s).ctls := legal_mbarChecked _ _ h (fun _ => by simp [h])
@[simp] theorem legal_mbarArrBody {s : State} (o : MbarArrOp) (c : Cx) (h : CtlsLegal s.ctls) :
    CtlsLegal (mbarArrBody o c s).ctls := legal_mbarChecked _ _ h (fun _ => by simp [h])
@[simp] theorem finishWait_ctls (o : MbarWaitOp) (c : Cx) (s : State) (status seq : Nat) :
    (finishWait o c s status seq).ctls = s.ctls := by simp [finishWait]
@[simp] theorem legal_mbarWaitBody {s : State} (o : MbarWaitOp) (c : Cx) (h : CtlsLegal s.ctls) :
    CtlsLegal (mbarWaitBody o c s).ctls := legal_mbarChecked _ _ h (fun _ => by simp [h])
@[simp] theorem legal_mbarWaitFrag (o : MbarWaitOp) (c : Cx) {s : State} (h : CtlsLegal s.ctls) :
    CtlsLegal (mbarWaitFrag o c s).ctls := by fun_cases mbarWaitFrag o c s <;> simp [*]

@[simp] theorem legal_wakeBatches (s : State) : CtlsLegal (wakeBatches s).ctls ↔ CtlsLegal s.ctls := by
  unfold wakeBatches
  rw [foldl_ctls fun s x => acquireAll_ctls s x .pkg]
  refine CtlsLegal.map_iff fun c => ?_
  split
  · split <;> exact .rfl
  · exact .rfl

@[simp] theorem bwaitFrag_ctls (c : Cx) (s : State) (n : BitVec 16) :
    (bwaitFrag c s n).ctls = s.ctls := by simp [bwaitFrag]
@[simp] theorem legal_bwaitCtl (cc : Nat) (c : Ctl) (s : State) (n : BitVec 16) (h : CtlsLegal s.ctls) :
    CtlsLegal (bwaitCtl cc c s n).ctls := by simp [bwaitCtl, h]

@[simp] theorem legal_landChunk (s : State) (k : Chunk) (bs : List Byte) :
    CtlsLegal (landChunk s k bs).ctls ↔ CtlsLegal s.ctls := by
  unfold landChunk
  split
  · exact .rfl
  · cases k.mbar <;> simp

/-! ### Queues -/

@[simp] theorem putSlot_ctls (s : State) (q : Slot) :
    (putSlot s q).ctls = s.ctls := rfl

theorem unbindSlot_ctls {s t : State} {q : Slot} (e : unbindSlot s q = some t) : t.ctls = s.ctls := by
  unfold unbindSlot at e
  split at e
  next s1 e1 =>
    cases e
    exact (devWrite_only (t := s1) e1).ctls
  next => cases e

theorem slotRoom_ctls {s t : State} {die : Nat} (e : slotRoom s die = some t) : t.ctls = s.ctls := by
  unfold slotRoom at e
  split at e
  · cases e
  · split at e
    · cases e; rfl
    · obtain ⟨q, -, e⟩ := List.exists_of_findSome?_eq_some e
      exact unbindSlot_ctls e

@[simp] theorem Poster.page_ctls (p : Poster) (c : Ctx) (access : Nat) (s : State) (va : DWord) :
    (Poster.page p c access s va).ctls = s.ctls := by simp [Poster.page]
@[simp] theorem refill_ctls (s : State) (q : Slot) (who : Poster) :
    (refill s q who).ctls = s.ctls := by fun_cases refill s q who <;> simp [*]

theorem enqueueBound_ctls {s t : State} {q : Slot} {bs r : List Byte} {st : Nat} (e : enqueueBound s q bs = .done st r t) :
    t.ctls = s.ctls := by
  unfold enqueueBound at e
  dsimp only at e
  split at e
  · cases e; rfl
  · split at e <;> cases e
    case h_1 s1 _ e1 => exact (galleyAppend_only (t := s1) e1).ctls
    all_goals rfl

theorem putDesc_ctls {s t : State} {c : Ctx} {va : DWord} {d : QDesc} (e : putDesc s c va d = some t) : t.ctls = s.ctls := by
  unfold putDesc at e
  split at e <;> cases e
  exact (devWrite_only ‹_›).ctls

theorem enqueueUnbound_ctls {s t : State} {c : Ctx} {va : DWord} {d : QDesc} {bs r : List Byte} {st : Nat}
    (e : enqueueUnbound s c va d bs = .done st r t) : t.ctls = s.ctls := by
  revert e
  fun_cases enqueueUnbound s c va d bs
  case case1 e1 _ e2 => rintro ⟨⟩; exact (putDesc_ctls e2).trans (galleyAppend_only e1).ctls
  all_goals rintro ⟨⟩
  all_goals rfl

theorem dequeueGalley_ctls {s t : State} {q : Slot} {cap st : Nat} {r : List Byte} (e : dequeueGalley s q cap = .done st r t) :
    t.ctls = s.ctls := by
  revert e
  fun_cases dequeueGalley s q cap <;> rintro ⟨⟩
  all_goals rfl

theorem dequeueBound_ctls {s t : State} {q : Slot} {cap st : Nat} {who : Poster} {r : List Byte}
    (e : dequeueBound s q cap who = .done st r t) :
    t.ctls = s.ctls := by
  unfold dequeueBound at e
  dsimp only at e
  split at e
  · split at e <;> cases e <;> simp
  · simp [dequeueGalley_ctls e]

theorem dequeueUnbound_ctls {s t : State} {c : Ctx} {va : DWord} {d : QDesc} {cap st : Nat} {r : List Byte}
    (e : dequeueUnbound s c va d cap = .done st r t) : t.ctls = s.ctls := by
  revert e
  fun_cases dequeueUnbound s c va d cap
  case case2 e1 => rintro ⟨⟩; exact putDesc_ctls e1
  all_goals rintro ⟨⟩
  all_goals rfl

@[simp] theorem bindNamed_ctls (s : State) (die : Nat) : (bindNamed s die).ctls = s.ctls := by
  fun_cases bindNamed s die
  case case8 => simp +zetaDelta [slotRoom_ctls ‹slotRoom _ _ = some _›]
  all_goals rfl

@[simp] theorem bindWaiting_ctls (s : State) (die : Nat) : (bindWaiting s die).ctls = s.ctls := by
  fun_cases bindWaiting s die
  simp_all

@[simp] theorem findQueue_ctls (s : State) (c : Ctx) (desc : DWord) (pa : Nat) (bs : List Byte) (who : Poster) :
    (findQueue s c desc pa bs who).2.ctls = s.ctls := by
  unfold findQueue
  split
  · rfl
  · split
    · rfl
    · split
      · rfl
      · dsimp only
        split
        · simp
        · split
          next e1 => simp [slotRoom_ctls e1]
          next => simp

theorem queueStart_held_ctls {enq : Bool} {len pa : Nat} {a : Actor} {s t : State} {desc : DWord} {bs : List Byte}
    (e : queueStart enq len a s desc pa bs = .held t) : t.ctls = s.ctls := by
  revert e
  fun_cases queueStart enq len a s desc pa bs <;> rintro ⟨⟩
  · rfl
  · simp +zetaDelta

theorem queueStart_go_ctls {enq : Bool} {len pa : Nat} {a : Actor} {s t : State} {desc : DWord} {bs : List Byte} {q : QFound}
    (e : queueStart enq len a s desc pa bs = .go q t) : t.ctls = s.ctls := by
  revert e
  fun_cases queueStart enq len a s desc pa bs <;> rintro ⟨⟩
  simp +zetaDelta

@[simp] theorem legal_performEnq {s : State} (sc : Scope) (sd : BitVec 6) (len : Nat) (a : Actor) (l : List (Acc × Nat × Nat))
    (h : CtlsLegal s.ctls) : CtlsLegal (performEnq sc sd len a s l).state.ctls := by
  unfold performEnq
  dsimp only
  split
  · exact h
  next e1 => simp [queueStart_held_ctls e1, h]
  next q s1 e1 =>
    have h1 : CtlsLegal s1.ctls := by simp [queueStart_go_ctls e1, h]
    split
    next e2 =>
      split at e2
      · simp [enqueueBound_ctls e2, h1]
      · simp [enqueueUnbound_ctls e2, h1]
      · cases e2; simp [h1]
    all_goals simp [h1]

@[simp] theorem legal_performDeq {s : State} (sc : Scope) (sd : BitVec 6) (len : Nat) (a : Actor) (l : List (Acc × Nat × Nat))
    (h : CtlsLegal s.ctls) : CtlsLegal (performDeq sc sd len a s l).state.ctls := by
  unfold performDeq
  dsimp only
  split
  · exact h
  next e1 => simp [queueStart_held_ctls e1, h]
  next q s2 e1 =>
    have h2 : CtlsLegal s2.ctls := by simp [queueStart_go_ctls e1, h]
    split
    next => exact h2
    next => exact h2
    next s3 e2 =>
      have h3 : CtlsLegal s3.ctls := by
        split at e2
        · rw [dequeueBound_ctls e2]; exact h2
        · rw [dequeueUnbound_ctls e2]; exact h2
        · cases e2; exact h2
      split <;> simp [h3]

@[simp] theorem legal_actor_trap {s : State} (a : Actor) (cause : Nat) (addr : DWord) (h : CtlsLegal s.ctls) :
    CtlsLegal (Actor.trap a s cause addr).ctls := by fun_cases Actor.trap a s cause addr <;> simp [*]

@[simp] theorem legal_actor_park {s0 s : State} (a : Actor) (req : Req) (access : DWord → Nat) (pages : List (DWord × Nat))
    (dies : List Nat) (h0 : CtlsLegal s0.ctls) (h : CtlsLegal s.ctls) :
    CtlsLegal (a.park s0 s req access pages dies).ctls := by
  cases a with
  | frag c => exact legal_parkReq _ _ _ _ _ _ _ h0 h
  | ctl cc c => cases pages <;> simp [Actor.park, h]

@[simp] theorem legal_waitGalley {s : State} (cc : Nat) (c : Ctl) (req : Req) (access pa : Nat) (pages : List (DWord × Nat))
    (h : CtlsLegal s.ctls) :
    CtlsLegal (waitGalley s cc c req access pa pages).ctls := by
  simp [waitGalley, h]

@[simp] theorem legal_actor_finish {s0 : State} (a : Actor) (req : Req) (access : DWord → Nat) (pa : Nat) {p : Perf}
    (h0 : CtlsLegal s0.ctls) (h : CtlsLegal p.state.ctls) : CtlsLegal (a.finish s0 req access pa p).ctls := by
  cases p <;> cases a <;> simp only [Perf.state] at h <;> simp -implicitDefEqProofs [Actor.finish, h0, h]

@[simp] theorem legal_queueAligned {s : State} (a : Actor) (desc rec : DWord) {body : State → State}
    (h : CtlsLegal s.ctls)
    (hb : CtlsLegal (body s).ctls) :
    CtlsLegal (queueAligned a desc rec s body).ctls := by
  unfold queueAligned
  split
  · simp [h]
  · split <;> simp [h, hb]

@[simp] theorem legal_queueBody {s : State} (enq : Bool) (a : Actor) (req : Req) (len : Nat)
    {perform : State → List (Acc × Nat × Nat) → Perf} (h : CtlsLegal s.ctls)
    (hp : ∀ s l, CtlsLegal s.ctls → CtlsLegal (perform s l).state.ctls) :
    CtlsLegal (queueBody enq a req len perform s).ctls := by
  have hr : CtlsLegal (checkAccs (checkAccs s a.who .load (req.accs.take 8)).2 a.who (if enq then .load else .store)
      (req.accs.drop 8)).2.ctls := by simp [h]
  unfold queueBody
  dsimp only
  generalize checkAccs (checkAccs s a.who .load (req.accs.take 8)).2 a.who (if enq then .load else .store) (req.accs.drop 8) = r at hr ⊢
  split
  case h_7 =>
    split
    · simp [hr]
    · split <;> simp [h, hr, hp]
  all_goals simp [h, hr]

@[simp] theorem legal_enqBody {s : State} (o : QueueOp) (a : Actor) (h : CtlsLegal s.ctls) :
    CtlsLegal (enqBody o a s).ctls := legal_queueAligned _ _ _ h (legal_queueBody _ _ _ _ h (fun _ _ h => legal_performEnq _ _ _ _ _ h))
@[simp] theorem legal_deqBody {s : State} (o : QueueOp) (a : Actor) (h : CtlsLegal s.ctls) :
    CtlsLegal (deqBody o a s).ctls := legal_queueAligned _ _ _ h (legal_queueBody _ _ _ _ h (fun _ _ h => legal_performDeq _ _ _ _ _ h))
@[simp] theorem postUnder_ctls (s : State) (a : Actor) (va : DWord) :
    (postUnder s a va).ctls = s.ctls := by simp [postUnder]

@[simp] theorem legal_performCount {s : State} (dec rel : Bool) (sc : Scope) (sd : BitVec 6) (amount : DWord) (a : Actor)
    (l : List (Acc × Nat × Nat)) (h : CtlsLegal s.ctls) :
    CtlsLegal (performCount dec rel sc sd amount a s l).state.ctls := by
  cases l <;> simp [performCount, h]

@[simp] theorem legal_countBody (dec : Bool) (o : CountOp) (a : Actor) {s : State} (h : CtlsLegal s.ctls) :
    CtlsLegal (countBody dec o a s).ctls := by
  fun_cases countBody dec o a s
  simp_all

@[simp] theorem setBin_ctls (s : State) (core i : Nat) (b : Option Bin) :
    (setBin s core i b).ctls = s.ctls := rfl
@[simp] theorem closeBin_ctls (s : State) (core i : Nat) :
    (closeBin s core i).ctls = s.ctls := by fun_cases closeBin s core i <;> rfl
@[simp] theorem spawnThread_ctls (s : State) (core i : Nat) (c : Ctx) (entry : DWord) (e : Entry) (args : DWord × DWord) :
    (spawnThread s core i c entry e args).ctls = s.ctls := by simp [spawnThread]
@[simp] theorem performSpawn_ctls (arg0 arg1 : DWord) (c : Cx) (s : State) (l : List (Acc × Nat × Nat)) :
    (performSpawn arg0 arg1 c s l).state.ctls = s.ctls := by fun_cases performSpawn arg0 arg1 c s l <;> simp +zetaDelta [*]
@[simp] theorem legal_spawnBody (o : SpawnOp) (c : Cx) {s : State} (h : CtlsLegal s.ctls) :
    CtlsLegal (spawnBody o c s).ctls := by simp [spawnBody, h]

/-! ### Engine commands -/

@[simp] theorem legal_joinBatch (s : State) (a : Actor) (x : BatchItem) : CtlsLegal (joinBatch s a x).ctls ↔ CtlsLegal s.ctls := by
  fun_cases joinBatch s a x <;> simp

@[simp] theorem legal_performEngine {s : State} (op : Nat) (sc : WideScope) (sd : BitVec 6) (a : Actor) (l : List (Acc × Nat × Nat))
    (h : CtlsLegal s.ctls) : CtlsLegal (performEngine op sc sd a s l).state.ctls := by
  fun_cases performEngine op sc sd a s l <;> simp +zetaDelta [h]

@[simp] theorem legal_engineBody {s : State} (op : Nat) (o : EngineOp) (a : Actor) (h : CtlsLegal s.ctls) :
    CtlsLegal (engineBody op o a s).ctls := by
  unfold engineBody
  dsimp only
  split
  · simp [h]
  · exact legal_uniReq a _ _ _ h fun _ _ h => legal_performEngine op _ _ a _ h

theorem legal_andThen {α β : Type} {x : Eng α} {f : α → State → Eng β} (hx : CtlsLegal x.state.ctls)
    (hf : ∀ y s, CtlsLegal s.ctls → CtlsLegal (f y s).state.ctls) :
    CtlsLegal (x.andThen f).state.ctls := by
  cases x with
  | ok y s => exact hf y s hx
  | _ => exact hx

@[simp] theorem require_ctls (b : Bool) (cause : Nat) (s : State) :
    (Eng.require b cause s).state.ctls = s.ctls := by
  cases b <;> rfl

@[simp] theorem legal_pieces {s : State} (c : Command) (u : Use) (k : Nat) (va : DWord) (n : Nat) (h : CtlsLegal s.ctls) :
    CtlsLegal (pieces s c u k va n).state.ctls := by
  induction k generalizing s va n with
  | zero => exact h
  | succ k ih =>
    unfold pieces
    split
    · exact h
    · dsimp only
      split
      case h_4 =>
        split
        · simp [ctls_of_eq_mk ‹_›, h]
        · exact legal_andThen (ih _ _ (by simp [ctls_of_eq_mk ‹_›, h])) (fun _ _ h => h)
      all_goals simp [ctls_of_eq_mk ‹_›, h]

@[simp] theorem legal_engRange {s : State} (c : Command) (u : Use) (va n : Nat) (h : CtlsLegal s.ctls) :
    CtlsLegal (engRange s c u va n).state.ctls := by
  unfold engRange
  split <;> simp [h]

@[simp] theorem legal_cwRange {s : State} (c : Command) (h : CtlsLegal s.ctls) :
    CtlsLegal (cwRange s c).state.ctls := by
  unfold cwRange
  split
  · exact h
  · exact legal_andThen (by simp [h]) (fun _ _ h => h)

theorem claimWords_ctls {me : Agent} {l : List (Nat × DWord)} {s t : State} (e : claimWords me l s = some t) :
    t.ctls = s.ctls := by
  revert e
  fun_induction claimWords me l s
  case case1 => rintro ⟨⟩; rfl
  case case2 ih | case3 ih | case4 ih => exact ih
  all_goals exact nofun

@[simp] theorem claimAll_ctls (c : Command) (ws : List (Nat × DWord)) (s : State) :
    (claimAll c ws s).state.ctls = s.ctls := by
  unfold claimAll
  split
  next e => exact claimWords_ctls e
  next => rfl

@[simp] theorem unclaimWords_ctls (me : Agent) (l : List (Nat × DWord)) (s : State) :
    (unclaimWords me l s).ctls = s.ctls := by
  induction l generalizing s with
  | nil => rfl
  | cons p l ih =>
    rw [unclaimWords, ih]
    split
    · split <;> rfl
    · split <;> rfl
    · rfl

@[simp] theorem putCmd_ctls (s : State) (c : Command) :
    (putCmd s c).ctls = s.ctls := rfl
@[simp] theorem legal_cmdTrap (s : State) (c : Command) (cause : Nat) (addr aux : DWord) :
    CtlsLegal (cmdTrap s c cause addr aux).ctls ↔ CtlsLegal s.ctls := by fun_cases cmdTrap s c cause addr aux <;> simp
@[simp] theorem legal_cmdRace (s : State) (c : Command) (r : Option (Race × DWord)) :
    CtlsLegal (cmdRace s c r).1.ctls ↔ CtlsLegal s.ctls := by fun_cases cmdRace s c r <;> simp
@[simp] theorem legal_landCmd (s : State) (c : Command) (status : Nat) :
    CtlsLegal (landCmd s c status).ctls ↔ CtlsLegal s.ctls := by simp [landCmd]
@[simp] theorem waitPage_ctls (s : State) (c : Command) (va : DWord) (pte code : Nat) :
    (waitPage s c va pte code).ctls = s.ctls := by simp [waitPage]

@[simp] theorem legal_finishCmd {s : State} (c : Command) (h : CtlsLegal s.ctls) : CtlsLegal (finishCmd s c).ctls := by
  have hr : CtlsLegal (engRange (putCmd s c) c .atomic c.cw 8).state.ctls := legal_engRange c _ _ _ h
  unfold finishCmd
  dsimp only
  split
  · simp [h]
  · split
    all_goals rw [‹engRange _ _ _ _ _ = _›] at hr
    case h_4 =>
      split
      · simpa using hr
      · split <;> simpa using hr
    all_goals simpa using hr

@[simp] theorem legal_refuseCmd {s : State} (c : Command) (cause : Nat) (h : CtlsLegal s.ctls) :
    CtlsLegal (refuseCmd s c cause).ctls := by simp [refuseCmd, h]

@[simp] theorem legal_engRun (c : Command) {x : Eng Command} (h : CtlsLegal x.state.ctls) :
    CtlsLegal (engRun c x).ctls := by
  cases x <;> simp_all [engRun]

@[simp] theorem legal_buildCopy {s : State} (c : Command) (src : List Piece) (claims : List (Nat × DWord))
    (dsts : List (List Piece)) (h : CtlsLegal s.ctls) :
    CtlsLegal (buildCopy s c src claims dsts).state.ctls := by
  simp [buildCopy, h]

@[simp] theorem legal_copyCommand {s : State} (c : Command) (h : CtlsLegal s.ctls) :
    CtlsLegal (copyCommand s c).state.ctls := by
  unfold copyCommand
  repeat' with_reducible refine legal_andThen ?_ (fun _ _ h => ?_)
  case refine_2.refine_2.refine_1 => split <;> simp [h]
  all_goals simp [h]

@[simp] theorem legal_dstRanges (c : Command) (l : List Nat) {s : State} (h : CtlsLegal s.ctls) :
    CtlsLegal (dstRanges c l s).state.ctls := by
  induction l generalizing s with
  | nil => exact h
  | cons va l ih =>
    exact legal_andThen (by simp [h]) (fun _ _ h => legal_andThen (ih h) (fun _ _ h => h))

@[simp] theorem legal_epubCommand {s : State} (c : Command) (h : CtlsLegal s.ctls) :
    CtlsLegal (epubCommand s c).state.ctls := by
  refine legal_andThen (by simp [h]) fun _ _ h => legal_andThen ?table fun _ _ h => legal_andThen ?source fun _ _ h =>
    legal_andThen (legal_dstRanges _ _ h) fun _ _ h => legal_andThen (legal_cwRange _ h) fun _ _ h =>
    legal_andThen ?inside fun _ _ h => legal_andThen ?apart fun _ _ h =>
    legal_andThen (by simp [h]) fun _ _ h => legal_buildCopy _ _ _ _ h
  case table =>
    split
    · exact h
    · exact legal_engRange c _ _ _ h
  case source => exact legal_engRange _ _ _ _ (by simp [h])
  case inside | apart => exact (require_ctls ..).symm ▸ h

@[simp] theorem writeOut_ctls (s : State) (out : List (Piece × List Byte)) :
    (writeOut s out).ctls = s.ctls := by simp [writeOut]
@[simp] theorem receive_ctls (s : State) (a : Agent) (w : Nat) :
    (receive s a w).ctls = s.ctls := by unfold receive; split <;> simp [*]
@[simp] theorem publishRegs_ctls (c : Command) (s : State) :
    (publishRegs c s).ctls = s.ctls := by simp [publishRegs]
@[simp] theorem wakeLine_ctls (s : State) (w : Nat) :
    (wakeLine s w).ctls = s.ctls := rfl

@[simp] theorem publishSource_ctls (c : Command) (r : State × Option (Race × DWord)) (w : Nat × DWord) :
    (publishSource c r w).1.ctls = r.1.ctls := by
  unfold publishSource
  split
  · split <;> rfl
  · split <;> rfl
  · rfl

@[simp] theorem legal_publishCmd {s : State} (c : Command) (h : CtlsLegal s.ctls) : CtlsLegal (publishCmd s c).ctls := by
  have sources (l : List (Nat × DWord)) (p : State × Option (Race × DWord)) : (l.foldl (publishSource c) p).1.ctls = p.1.ctls := by
    induction l generalizing p with
    | nil => rfl
    | cons w l ih => exact (ih _).trans (publishSource_ctls c p w)
  have raced : CtlsLegal (cmdRace ((c.src.flatMap Piece.words).foldl (publishSource c) (publishRegs c (writeOut s c.out), none)).1 c
      ((c.src.flatMap Piece.words).foldl (publishSource c) (publishRegs c (writeOut s c.out), none)).2).1.ctls := by
    simp [sources, h]
  refine legal_finishCmd _ ?_
  dsimp only
  split
  · exact raced
  · split
    · simp [raced]
    · split <;> simp [raced]

/-! ### Uploads -/

@[simp] theorem legal_sectionRanges (c : Command) (l : List (Nat × Nat)) {s : State} (h : CtlsLegal s.ctls) :
    CtlsLegal (sectionRanges c l s).state.ctls := by
  induction l generalizing s with
  | nil => exact h
  | cons p l ih =>
    exact legal_andThen (by simp [h]) (fun _ _ h => legal_andThen (ih h) (fun _ _ h => h))

@[simp] theorem buildUpload_ctls (s : State) (c : Command) (ob : List Byte) (bases : List Nat) (dsts : List (List Piece)) :
    (buildUpload s c ob bases dsts).state.ctls = s.ctls := by
  unfold buildUpload
  split <;> rfl

@[simp] theorem legal_uploadCommand {s : State} (c : Command) (h : CtlsLegal s.ctls) :
    CtlsLegal (uploadCommand s c).state.ctls := by
  unfold uploadCommand
  repeat' with_reducible refine legal_andThen ?_ (fun _ _ h => ?_)
  case refine_2.refine_2.refine_2.refine_2.refine_1 => split <;> simp [h]
  all_goals simp [h]

/-! ### Collectives -/

@[simp] theorem legal_readNoted {s : State} (c : Command) (l : List Piece) (h : CtlsLegal s.ctls) :
    CtlsLegal (readNoted s c l).2.2.ctls := by simp [readNoted, h]

@[simp] theorem legal_ecollCommand {s : State} (c : Command) (h : CtlsLegal s.ctls) :
    CtlsLegal (ecollCommand s c).state.ctls := by
  unfold ecollCommand
  repeat' with_reducible refine legal_andThen ?_ (fun _ _ h => ?_)
  all_goals simp [h]

@[simp] theorem legal_buildMember (sum : List Nat) (s0 : State) {s : State} (m : Member) (h : CtlsLegal s.ctls) :
    CtlsLegal (buildMember sum s0 s m).ctls := by
  cases m <;> simp [buildMember, h]

@[simp] theorem legal_refuseMember {s : State} (m : Member) (h : CtlsLegal s.ctls) : CtlsLegal (refuseMember s m).ctls := by
  fun_cases refuseMember s m <;> simp [*]

/-! ### Control flow -/

@[simp] theorem legal_jumpCtl (s : State) (cc : Nat) (pc : DWord) : CtlsLegal (jumpCtl s cc pc).ctls ↔ CtlsLegal s.ctls := by
  simp [jumpCtl]
@[simp] theorem callFrag_ctls (c : Cx) (s : State) (target : DWord) :
    (callFrag c s target).ctls = s.ctls := rfl
@[simp] theorem legal_callCtl (cc : Nat) (c : Ctl) (s : State) (target : DWord) :
    CtlsLegal (callCtl cc c s target).ctls ↔ CtlsLegal s.ctls := by simp [callCtl]

@[simp] theorem legal_targetFrag {s : State} (c : Cx) (n : Nat) {body : State → DWord → State} (h : CtlsLegal s.ctls)
    (hb : ∀ x, CtlsLegal (body s x).ctls) :
    CtlsLegal (targetFrag c n body s).ctls := by
  simp [targetFrag, h, hb]

@[simp] theorem legal_targetCtl {s : State} (cc : Nat) (c : Ctl) (n : Nat) {body : State → DWord → State}
    (h : CtlsLegal s.ctls) (hb : ∀ x, CtlsLegal (body s x).ctls) :
    CtlsLegal (targetCtl cc c n body s).ctls := by
  simp [targetCtl, h, hb]

@[simp] theorem exitBody_ctls (c : Cx) (s : State) :
    (exitBody c s).ctls = s.ctls := by simp [exitBody]
@[simp] theorem giveTurn_ctls (s : State) (core : Nat) (p : Party) :
    (giveTurn s core p).ctls = s.ctls := rfl
@[simp] theorem splitFrag_ctls (c : Cx) (s : State) (tok : Nat) (taken : Mask) (target : DWord) :
    (splitFrag c s tok taken target).ctls = s.ctls := by simp [splitFrag]
@[simp] theorem brdBody_ctls (o : BrdOp) (c : Cx) (s : State) :
    (brdBody o c s).ctls = s.ctls := by simp [brdBody]

@[simp] theorem joinBody_ctls (o : JoinOp) (c : Cx) (s : State) :
    (joinBody o c s).ctls = s.ctls := by
  fun_cases joinBody o c s <;> simp [*]

@[simp] theorem setwBody_ctls (s : State) (i : Instr) (restartable : Bool) (request : State → Cx → Nat) (c : Cx) :
    (setwBody i restartable request c s).ctls = s.ctls := by simp [setwBody]
@[simp] theorem endwBody_ctls (o : WOp) (c : Cx) (s : State) :
    (endwBody o c s).ctls = s.ctls := by simp [endwBody]

/-! ### Lane arithmetic -/

@[simp] theorem laneBody_ctls (len : Nat) (g : Option GuardQ) (f : Cx → Nat → Nat → LaneOut) (c : Cx) (s : State) :
    (laneBody len g f c s).ctls = s.ctls := rfl

/-! ### Cross-lane instructions -/

@[simp] theorem crossBody_ctls (g : Option GuardQ) (f : Cx → Nat → List Nat → Nat → LaneOut) (c : Cx) (s : State) :
    (crossBody g f c s).ctls = s.ctls := rfl

/-! ### Control registers -/

@[simp] theorem legal_writeKbind {s : State} (cc : Nat) (v : DWord) (h : CtlsLegal s.ctls) : CtlsLegal (writeKbind s cc v).ctls := by
  unfold writeKbind
  split
  · simp [h]
  · refine h.modify fun c _ ⟨hd, hp, hm, _⟩ => ⟨hd, hp, hm, ?_⟩
    simp [BitVec.and_assoc]

@[simp] theorem legal_writeKpend {s : State} (cc : Nat) (fn : CsrwFn) (v : DWord) (h : CtlsLegal s.ctls) :
    CtlsLegal (writeKpend s cc fn v).ctls :=
  h.modify fun c _ ⟨hd, _, hm, hb⟩ => ⟨hd, by simp, hm, hb⟩

@[simp] theorem legal_writePlain {s : State} (cc n : Nat) (fn : CsrwFn) (v : DWord) (h : CtlsLegal s.ctls) :
    CtlsLegal (writePlain s cc n fn v).ctls := by
  fun_cases writePlain s cc n fn v
  case case4 => exact h.modify fun c _ ⟨hd, hp, _, hb⟩ => ⟨hd, hp, by simp, hb⟩
  all_goals simp [h]

@[simp] theorem legal_writeIlck {s : State} (cc : Nat) (c : Ctl) (key : Nat) (fn : CsrwFn) (v : DWord)
    (h : CtlsLegal s.ctls) :
    CtlsLegal (writeIlck s cc c key fn v).ctls := by simp [writeIlck, h]

@[simp] theorem legal_atFixed {s : State} (cc : Nat) (x : Fixed) {body : Nat → State → State} (h : CtlsLegal s.ctls)
    (hb : ∀ k s, CtlsLegal s.ctls → CtlsLegal (body k s).ctls) :
    CtlsLegal (atFixed cc x s body).ctls := by
  cases x <;> simp [atFixed, h, hb]

@[simp] theorem csrrFrag_ctls (o : CsrOp) (c : Cx) (s : State) :
    (csrrFrag o c s).ctls = s.ctls := by simp [csrrFrag]

@[simp] theorem legal_csrrCtl {s : State} (o : CsrOp) (cc : Nat) (c : Ctl) (h : CtlsLegal s.ctls) : CtlsLegal (csrrCtl o cc c s).ctls := by
  have put (t : State) (h : CtlsLegal t.ctls) :
      CtlsLegal (advanceCtl (modCtl t cc (fun k => k.setS o.s.toNat (readCtl s cc c o.csr.toNat))) cc 4).ctls := by simp [h]
  unfold csrrCtl
  dsimp only
  split
  · simp [h]
  · split
    · simp [h]
    · split
      · exact legal_atFixed cc _ h fun _ t h => by simp [h]
      · exact put s h

@[simp] theorem retag_ctls (s : State) (key pa : Nat) : (retag s key pa).ctls = s.ctls := by fun_cases retag s key pa <;> rfl
@[simp] theorem csrwFrag_ctls (i : Instr) (fn : CsrwFn) (o : CsrOp) (c : Cx) (s : State) :
    (csrwFrag i fn o c s).ctls = s.ctls := by simp [csrwFrag]

@[simp] theorem legal_csrwCtl {s : State} (i : Instr) (fn : CsrwFn) (o : CsrOp) (cc : Nat) (c : Ctl)
    (h : CtlsLegal s.ctls) :
    CtlsLegal (csrwCtl i fn o cc c s).ctls := by
  have fixed : CtlsLegal (atFixed cc (ilckAt s c) s (fun k s =>
      advanceCtl (writeIlck s cc c k fn (c.sreg o.s.toNat)) cc 4)).ctls :=
    legal_atFixed cc _ h (fun _ _ h => by simp [h])
  simp [csrwCtl, h, fixed]

/-! ### Matrix instructions -/

@[simp] theorem cbWrite_ctls (s : State) (c : Cx) (off : Nat) (bs : List Byte) :
    (cbWrite s c off bs).ctls = s.ctls := by
  fun_cases cbWrite s c off bs <;> rfl

@[simp] theorem addCounts_ctls (s : State) (core : Nat) (ctx : Ctx) (counted : Bool) (l : List Nat) :
    (addCounts s core ctx counted l).ctls = s.ctls := by simp [addCounts]

@[simp] theorem matRow_ctls (t : MatTy) (z : Bool) (base : Nat) (fac : Nat → List (FVal × FVal)) (c : Cx) (tid : Nat)
    (p : State × List Nat) :
    (matRow t z base fac c tid p).1.ctls = p.1.ctls := by
  simp [matRow]

@[simp] theorem matRows_ctls (t : MatTy) (z : Bool) (base : Nat → Nat) (fac : Nat → Nat → List (FVal × FVal)) (c : Cx)
    (ts : List Nat)
    (s : State) :
    (matRows t z base fac c ts s).ctls = s.ctls := by
  have rows (p : State × List Nat) :
      (ts.foldl (fun p tid => matRow t z (base tid) (fac tid) c tid p) p).1.ctls = p.1.ctls := by
    induction ts generalizing p with
    | nil => rfl
    | cons tid ts ih => exact (ih _).trans (matRow_ctls _ _ _ _ _ _ _)
  simp [matRows, rows]

@[simp] theorem legal_matChecked {s : State} (c : Cx) (ts : List Nat) (b : Option ((Nat → DWord) × Nat)) (t : MatTy)
    (sc : Nat → DWord) (count : Nat) {body : State → State} (h : CtlsLegal s.ctls) (hb : CtlsLegal (body s).ctls) :
    CtlsLegal (matChecked c s ts b t sc count body).ctls := by
  unfold matChecked
  dsimp only
  split
  · simp [h]
  · split <;> simp [h, hb]

@[simp] theorem legal_mmaBody {s : State} (o : MmaOp) (c : Cx) (h : CtlsLegal s.ctls) :
    CtlsLegal (mmaBody o c s).ctls := legal_matChecked _ _ _ _ _ _ h (by simp [h])

@[simp] theorem legal_mmasBody {s : State} (o : MmasOp) (c : Cx) (h : CtlsLegal s.ctls) :
    CtlsLegal (mmasBody o c s).ctls := by
  refine legal_matChecked _ _ _ _ _ _ h ?_
  split <;> simp [h]

@[simp] theorem spkBody_ctls (o : SpkOp) (c : Cx) (s : State) :
    (spkBody o c s).ctls = s.ctls := by simp [spkBody]
@[simp] theorem clearRows_ctls (t : MatTy) (base : Nat → Nat) (count : Nat) (c : Cx) (ts : List Nat) (s : State) :
    (clearRows t base count c ts s).ctls = s.ctls := by simp [clearRows]
@[simp] theorem legal_mzeroBody {s : State} (o : MzeroOp) (c : Cx) (h : CtlsLegal s.ctls) :
    CtlsLegal (mzeroBody o c s).ctls := legal_matChecked _ _ _ _ _ _ h (by simp [h])
@[simp] theorem legal_mdrnBody {s : State} (o : MdrnOp) (c : Cx) (h : CtlsLegal s.ctls) :
    CtlsLegal (mdrnBody o c s).ctls := legal_matChecked _ _ _ _ _ _ h (by simp [h])

@[simp] theorem legal_performDrain {s : State} (st : MatTy) (dt : DrainTy) (clr : Bool) (bases : Tab Nat) (c : Cx)
    (l : List (Acc × Nat × Nat)) (h : CtlsLegal s.ctls) :
    CtlsLegal (performDrain st dt clr bases c s l).state.ctls := by
  unfold performDrain
  dsimp only
  split
  next e => simp [Perf.ctls_of_done e, h]
  next => simp [h]

@[simp] theorem legal_mdrnMemBody {s : State} (o : MdrnMemOp) (c : Cx) (h : CtlsLegal s.ctls) :
    CtlsLegal (mdrnMemBody o c s).ctls := by
  unfold mdrnMemBody
  dsimp only
  split
  · simp [h]
  · exact legal_matChecked _ _ _ _ _ _ h (legal_issueReq _ _ _ _ h (fun _ _ h => legal_performDrain _ _ _ _ _ _ h))

@[simp] theorem legal_mdrnPeerBody {s : State} (o : MdrnPeerOp) (c : Cx) (h : CtlsLegal s.ctls) :
    CtlsLegal (mdrnPeerBody o c s).ctls := by
  unfold mdrnPeerBody
  dsimp only
  split
  · simp [h]
  · split
    · simp [h]
    · refine legal_matChecked _ _ _ _ _ _ h ?_
      split
      · simp [h]
      · split <;> simp [h]

@[simp] theorem addRow_ctls (t : MatTy) (b : Nat) (p : State × List Nat) (row : Nat × List Byte) :
    (addRow t b p row).1.ctls = p.1.ctls := by
  simp [addRow]

@[simp] theorem endIfDrained_ctls (s : State) (blk : Nat) :
    (endIfDrained s blk).ctls = s.ctls := by fun_cases endIfDrained s blk <;> simp [*]

@[simp] theorem landAdd_ctls (s : State) (a : PeerAdd) (b : Block) :
    (landAdd s a b).ctls = s.ctls := by
  have rows (l : List (Nat × List Byte)) (p : State × List Nat) : (l.foldl (addRow a.st a.dst) p).1.ctls = p.1.ctls := by
    induction l generalizing p with
    | nil => rfl
    | cons x l ih => exact (ih _).trans (addRow_ctls _ _ _ _)
  simp [landAdd, rows]

@[simp] theorem takeTurn_ctls (s : State) (a : PeerAdd) (off : Nat) (d : TileDesc) :
    (takeTurn s a off d).ctls = s.ctls := rfl
@[simp] theorem legal_performRow {s : State} (t : RowTy) (vt : BitVec 8) (c : Cx) (l : List (Acc × Nat × Nat)) (h : CtlsLegal s.ctls) :
    CtlsLegal (performRow t vt c s l).state.ctls := legal_unlessBarred _ h (by simp [h])

@[simp] theorem legal_ldgRowBody {s : State} (o : RowOp) (c : Cx) (h : CtlsLegal s.ctls) : CtlsLegal (ldgRowBody o c s).ctls := by
  fun_cases ldgRowBody o c s
  case case1 => simp [h]
  all_goals exact legal_issueReq c _ _ _ h fun _ _ h => legal_performRow _ _ c _ h

/-! ### TFENCE -/

@[simp] theorem tfenceBody_ctls (c : Cx) (s : State) :
    (tfenceBody c s).ctls = s.ctls := by simp [tfenceBody]

/-! ### Privileged instructions -/

@[simp] theorem dropXlat_ctls (s : State) (dies : List Nat) (asid : Option (BitVec 16)) (va : Option Nat) :
    (dropXlat s dies asid va).ctls = s.ctls := rfl
@[simp] theorem evictLines_ctls (s : State) (dies : List Nat) (asid : Option (BitVec 16)) (cover : DWord → Bool) :
    (evictLines s dies asid cover).ctls = s.ctls := rfl
@[simp] theorem clearPresence_ctls (s : State) (a : Nat) :
    (clearPresence s a).ctls = s.ctls := rfl

theorem legal_fenced {s : State} (cc : Nat) {body : State → State} (h : CtlsLegal s.ctls)
    (hb : ∀ s, CtlsLegal s.ctls → CtlsLegal (body s).ctls) :
    CtlsLegal (fenced cc s body).ctls := by
  unfold fenced
  split
  · simp [h]
  · simp [hb _ (show CtlsLegal (release (parkCtl s cc .run) (.control cc) .pkg).ctls by simp [h])]

@[simp] theorem legal_tlbiPageBody {s : State} (o : PairOp) (cc : Nat) (c : Ctl) (h : CtlsLegal s.ctls) :
    CtlsLegal (tlbiPageBody o cc c s).ctls := legal_fenced cc h fun s h => by simp [h]
@[simp] theorem dropAsid_ctls (s : State) (a : BitVec 16) :
    (dropAsid s a).ctls = s.ctls := rfl
@[simp] theorem legal_tlbiAsidBody {s : State} (o : SrcOp) (cc : Nat) (c : Ctl) (h : CtlsLegal s.ctls) :
    CtlsLegal (tlbiAsidBody o cc c s).ctls := legal_fenced cc h fun s h => by simp [h]
@[simp] theorem legal_tlbiAllBody {s : State} (cc : Nat) (c : Ctl) (h : CtlsLegal s.ctls) : CtlsLegal (tlbiAllBody cc c s).ctls :=
  legal_fenced cc h fun s h => by simp [h]
@[simp] theorem setBusy_ctls (s : State) (a : Nat) (b : Bool) :
    (setBusy s a b).ctls = s.ctls := rfl

@[simp] theorem legal_ctxiBody {s : State} (o : SrcOp) (cc : Nat) (c : Ctl) (h : CtlsLegal s.ctls) : CtlsLegal (ctxiBody o cc c s).ctls := by
  unfold ctxiBody
  dsimp only
  split
  · exact legal_fenced cc h fun s h => by simp [h]
  · simp [h]

@[simp] theorem rekeyLines_ctls (old new : Nat) (s : State) (p : Nat × UnitTag) : (rekeyLines old new s p).ctls = s.ctls := by
  unfold rekeyLines
  dsimp only
  split
  · rw [foldl_ctls (by exact fun _ _ => rfl)]
  · rfl

@[simp] theorem rekeyWords_ctls (old new : Nat) (s : State) : (rekeyWords old new s).ctls = s.ctls := by
  simp [rekeyWords]
@[simp] theorem setKey_ctls (s : State) (i key : Nat) :
    (setKey s i key).ctls = s.ctls := by simp [setKey]
@[simp] theorem legal_keysetDone (sd : BitVec 6) (cc : Nat) (s : State) : CtlsLegal (keysetDone sd cc s).ctls ↔ CtlsLegal s.ctls := by
  simp [keysetDone]

@[simp] theorem legal_performKeyset (sd : BitVec 6) (i cc : Nat) (c : Ctl) {s : State} (l : List
    (Acc × Nat × Nat)) (h : CtlsLegal s.ctls) :
    CtlsLegal (performKeyset sd i cc c s l).state.ctls := by simp [performKeyset, h]

@[simp] theorem legal_keyChecked {s : State} (cc : Nat) (i : DWord) {body : State → State} (h : CtlsLegal s.ctls)
    (hb : CtlsLegal (body s).ctls) :
    CtlsLegal (keyChecked cc i s body).ctls := by
  unfold keyChecked
  split <;> simp [h, hb]

@[simp] theorem legal_keysetLoadBody {s : State} (o : KeyLoadOp) (cc : Nat) (c : Ctl) (h : CtlsLegal s.ctls) :
    CtlsLegal (keysetLoadBody o cc c s).ctls := by
  refine legal_keyChecked cc _ h ?_
  split
  · simp [h]
  · split
    · simp [h]
    · exact legal_issueReqCtl _ _ _ _ _ h (fun _ _ h => by simp [h])

@[simp] theorem legal_keysetBody {s : State} (o : KeyOp) {change : State → Nat → State} (cc : Nat) (c : Ctl)
    (h : CtlsLegal s.ctls) (hc : ∀ s i, CtlsLegal s.ctls → CtlsLegal (change s i).ctls) :
    CtlsLegal (keysetBody o change cc c s).ctls := legal_keyChecked cc _ h (legal_fenced cc h (fun _ h => by simp [hc, h]))

@[simp] theorem keyGen_ctls (s : State) (i : Nat) :
    (keyGen s i).ctls = s.ctls := by simp [keyGen]
@[simp] theorem keyErase_ctls (s : State) (i : Nat) :
    (keyErase s i).ctls = s.ctls := rfl

/-! ### Replays -/

@[simp] theorem legal_performReq (k : ReqKind) (c : Cx) {s : State} (l : List (Acc × Nat × Nat)) (h : CtlsLegal s.ctls) :
    CtlsLegal (performReq k c s l).state.ctls := by fun_cases performReq k c s l <;> simp [*]

@[simp] theorem replayChecks_ctls (s : State) (w : Who) (r : Req) :
    (replayChecks s w r).2.ctls = s.ctls := by
  fun_cases replayChecks s w r <;> simp +zetaDelta [*]

@[simp] theorem parkAgain_ctls (s : State) (g : Nat) (gr : Group) (e : LogEntry) (inner : Bool) (pages : List (DWord × Nat))
    (dies : List Nat) (begun : Option Nat) :
    (parkAgain s g gr e inner pages dies begun).ctls = s.ctls := by simp [parkAgain]

@[simp] theorem dropEntry_ctls (s : State) (g : Nat) (fr : Frag) (e : LogEntry) (addr aux : DWord) :
    (dropEntry s g fr e addr aux).ctls = s.ctls := by simp [dropEntry]

@[simp] theorem legal_replayEntry {s : State} (g : Nat) (e : LogEntry) (h : CtlsLegal s.ctls) : CtlsLegal (replayEntry s g e).ctls := by
  unfold replayEntry
  split
  · exact h
  next gr0 _ =>
    dsimp only
    split
    · simp [h]
    next fr _ =>
      have checked {w : Who} {r : Checked} {s2 : State} (e2 : replayChecks (modGroup s g (fun _ =>
          { gr0 with log := gr0.log.filter (fun x => x.id != e.id) })) w e.req = (r, s2)) : CtlsLegal s2.ctls := by
        simp [ctls_of_eq_mk e2, h]
      split
      case h_4 s2 e2 =>
        have performed {c : Cx} {l : List (Acc × Nat × Nat)} {p : Perf} (e3 : performReq e.req.kind c s2 l = p) :
            CtlsLegal p.state.ctls := e3 ▸ legal_performReq e.req.kind c l (checked e2)
        split
        all_goals have h3 := performed ‹performReq _ _ _ _ = _›; simpa using h3
      all_goals simp [checked ‹_›]

@[simp] theorem writeHead_ctls (s : State) (blk : Nat) : (writeHead s blk).ctls = s.ctls := by
  fun_cases writeHead s blk
  case case2 e => exact (devWrite_only e).ctls
  all_goals rfl

@[simp] theorem rearm_ctls (s : State) (b : Block) :
    (rearm s b).ctls = s.ctls := by
  refine foldl_ctls (fun s k => ?_) _ s
  split
  · exact foldl_ctls (fun s g => by simp) _ _
  all_goals rfl

@[simp] theorem recount_ctls (s : State) : (recount s).ctls = s.ctls := by
  refine foldl_ctls (fun s n => ?_) _ s
  split
  · rfl
  · simp

@[simp] theorem wakeFetch_ctls (s : State) (g f : Nat) :
    (wakeFetch s g f).ctls = s.ctls := by fun_cases wakeFetch s g f <;> simp [*]
@[simp] theorem wakeQueue_ctls (s : State) (pa : Nat) :
    (wakeQueue s pa).ctls = s.ctls := by fun_cases wakeQueue s pa <;> simp [*]
@[simp] theorem legal_wakeCommand {s : State} (iod n : Nat) (h : CtlsLegal s.ctls) :
    CtlsLegal (wakeCommand s iod n).ctls := by fun_cases wakeCommand s iod n <;> simp [*]
@[simp] theorem legal_wakeWaiter {s : State} (w : Waiter) (h : CtlsLegal s.ctls) : CtlsLegal (wakeWaiter s w).ctls := by
  fun_cases wakeWaiter s w <;> simp [*]
@[simp] theorem legal_raceOf {s : State} (a : Agent) (k : Race) (va : DWord) (h : CtlsLegal s.ctls) :
    CtlsLegal (raceOf s a k va).ctls := by fun_cases raceOf s a k va <;> simp +zetaDelta [*]

@[simp] theorem legal_homeWrite {s : State} (a : Agent) (w : Nat) {reg : State → State} (v : Word) (hr : (reg s).ctls = s.ctls)
    (h : CtlsLegal s.ctls) : CtlsLegal (homeWrite s a w reg v).ctls := by
  unfold homeWrite
  split <;> simp [hr, h]

/-! ### Images -/

@[simp] theorem writePart_ctls (c : Ctx) (base : DWord) (s : State) (p : Nat × List Byte) : (writePart c base s p).ctls = s.ctls := by
  fun_cases writePart c base s p
  case case1 e => exact (devWrite_only e).ctls
  all_goals rfl

@[simp] theorem writeImage_ctls (s : State) (blk : Nat) :
    (writeImage s blk).ctls = s.ctls := by fun_cases writeImage s blk <;> simp [*]

/-! ### Placement -/

@[simp] theorem settleBoundary_ctls (s : State) (core : Nat) :
    (settleBoundary s core).ctls = s.ctls := by
  unfold settleBoundary
  dsimp only
  split
  · split
    · rfl
    · simp [raiseTo_ctls ‹_›]
  · rfl

@[simp] theorem postUnfit_ctls (s : State) (q : Slot) (r : QRecord) :
    (postUnfit s q r).ctls = s.ctls := by simp [postUnfit]
@[simp] theorem putRecord_ctls (s : State) (pa : Nat) (r : QRecord) :
    (putRecord s pa r).ctls = s.ctls := rfl
@[simp] theorem walksDone_ctls (s : State) (q : Slot) (r : QRecord) :
    (walksDone s q r).ctls = s.ctls := by simp [walksDone]
@[simp] theorem noteRecord_ctls (q : Slot) (s : State) (r : QRecord) :
    (noteRecord q s r).ctls = s.ctls := by fun_cases noteRecord q s r <;> simp +zetaDelta [*]
@[simp] theorem considerAll_ctls (s : State) (die : Nat) :
    (considerAll s die).ctls = s.ctls := by simp [considerAll]

@[simp] theorem placeBlocks_ctls (c : Ctx) (t gang idx : Nat) (entryVa : DWord) (e : Entry) (m : Nat) (l : List (Nat × Nat))
    (s : State) :
    (placeBlocks c t gang idx entryVa e m l s).ctls = s.ctls := by
  induction l generalizing m s with
  | nil => rfl
  | cons p l ih => rw [placeBlocks, ih]; simp

@[simp] theorem placeGang_ctls (s : State) (c : Ctx) (t : Nat) (entryVa : DWord) (e : Entry) (cores : List Nat) :
    (placeGang s c t entryVa e cores).ctls = s.ctls := by simp [placeGang]
@[simp] theorem dropRecord_ctls (s : State) (q : Slot) (r : QRecord) :
    (dropRecord s q r).ctls = s.ctls := by fun_cases dropRecord s q r <;> simp [*]

@[simp] theorem taskOf_ctls (s : State) (q : Slot) (r : QRecord) (e : Entry) :
    (taskOf s q r e).2.ctls = s.ctls := by
  fun_cases taskOf s q r e <;> rfl

@[simp] theorem lastGang_ctls (s : State) (q : Slot) (r : QRecord) (t : Nat) :
    (lastGang s q r t).ctls = s.ctls := by simp [lastGang]
@[simp] theorem launchGroups_ctls (blk : Nat) (b : Block) (init : Tab DWord) (l : List (Nat × Nat)) (s : State) :
    (launchGroups blk b init l s).ctls = s.ctls := by fun_induction launchGroups blk b init l s <;> simp [*]

@[simp] theorem launchAcquire_ctls (s : State) (core : Nat) (c : Ctx) :
    (launchAcquire s core c).ctls = s.ctls := by
  simp [launchAcquire]

@[simp] theorem startBlock_ctls (s : State) (blk : Nat) (b : Block) :
    (startBlock s blk b).ctls = s.ctls := by simp [startBlock]

@[simp] theorem startSpawned_ctls (s : State) (core : Nat) (bin : Bin) :
    (startSpawned s core bin).ctls = s.ctls := by
  simp [startSpawned]

@[simp] theorem stealLoop_ctls (thief victim n : Nat) (s : State) :
    (stealLoop thief victim n s).ctls = s.ctls := by
  induction n generalizing s with
  | zero => rfl
  | succ n ih =>
    unfold stealLoop
    split
    · rfl
    · split
      · rfl
      · simp [ih]

@[simp] theorem postTask_ctls (s : State) (t : Task) (kind : Nat) (va : DWord) :
    (postTask s t kind va).ctls = s.ctls := by simp [postTask]

@[simp] theorem completionStep_ctls (s : State) (n : Nat) (t : Task) (va : DWord) (f : Nat → Nat) (under : Bool) :
    (completionStep s n t va f under).1.ctls = s.ctls := by
  unfold completionStep
  split
  · simp
  · rfl
  · simp
  · split <;> simp

@[simp] theorem stageTask_ctls (s : State) (n : Nat) (l : TaskLife) :
    (stageTask s n l).ctls = s.ctls := rfl
@[simp] theorem finishTask_ctls (s : State) (n : Nat) (t : Task) :
    (finishTask s n t).ctls = s.ctls := by simp [finishTask]

theorem appendFirst_ctls {s t : State} {o : Overflow} {seen : List Ctx} {l : List FaultEntry} {f : FaultEntry}
    (e : appendFirst s o seen l = some (f, t)) : t.ctls = s.ctls := by
  revert e
  fun_induction appendFirst s o seen l
  case case1 => exact nofun
  case case2 ih => exact ih
  case case3 e1 => rintro ⟨⟩; exact (faultAppend_only e1).ctls
  case case4 ih => exact ih

/-! ### Preemption -/

@[simp] theorem putRequest_ctls (s : State) (r : Request) :
    (putRequest s r).ctls = s.ctls := rfl
@[simp] theorem modGang_ctls (s : State) (g : Nat) (f : Gang → Gang) :
    (modGang s g f).ctls = s.ctls := rfl
@[simp] theorem leaveCore_ctls (fold : Bool) (s : State) (blk : Nat) (b : Block) :
    (leaveCore fold s blk b).ctls = s.ctls := by simp [leaveCore]
@[simp] theorem discardBlock_ctls (fold : Bool) (s : State) (blk : Nat) :
    (discardBlock fold s blk).ctls = s.ctls := by fun_cases discardBlock fold s blk <;> simp +zetaDelta [*]
@[simp] theorem returnGang_ctls (s : State) (g : Nat) :
    (returnGang s g).ctls = s.ctls := by fun_cases returnGang s g <;> simp [*]
@[simp] theorem startSave_ctls (s : State) (g : Nat) :
    (startSave s g).ctls = s.ctls := by fun_cases startSave s g <;> simp [*]

@[simp] theorem preemptGang_ctls (s : State) (g : Nat) : (preemptGang s g).ctls = s.ctls := by
  fun_cases preemptGang s g
  case case4 => rw [foldl_ctls (by exact fun _ _ => rfl)]
  all_goals simp

theorem parkSpawn_ctls {s t : State} {core : Nat} {b : Bin} {isOpen : Bool} (e : parkSpawn s core b isOpen = some t) :
    t.ctls = s.ctls := by
  revert e
  fun_cases parkSpawn s core b isOpen
  case case2 s1 e1 => rintro ⟨⟩; exact (devWrite_only (t := s1) e1).ctls
  all_goals exact nofun

@[simp] theorem parkBin_ctls (c : Ctx) (core : Nat) (s : State) (i : Nat) : (parkBin c core s i).ctls = s.ctls := by
  fun_cases parkBin c core s i
  case case3 e => simp [parkSpawn_ctls e]
  all_goals simp

@[simp] theorem parkList_ctls (c : Ctx) (core : Nat) (l : List Bin) (s : State) : (parkList c core l s).2.ctls = s.ctls := by
  induction l generalizing s with
  | nil => rfl
  | cons b l ih =>
    unfold parkList
    split
    next e =>
      split at e
      · exact (ih _).trans (parkSpawn_ctls e)
      · cases e
    next => exact ih s

@[simp] theorem parkCore_ctls (c : Ctx) (s : State) (core : Nat) : (parkCore c s core).ctls = s.ctls := by
  simp only [parkCore, modCore_ctls, parkList_ctls]
  exact foldl_ctls (fun _ _ => parkBin_ctls ..) _ s

@[simp] theorem parkSpawns_ctls (s : State) (c : Ctx) :
    (parkSpawns s c).ctls = s.ctls := by simp [parkSpawns]
@[simp] theorem unparkSpawn_ctls (s : State) (r : SpawnRec) :
    (unparkSpawn s r).ctls = s.ctls := by fun_cases unparkSpawn s r <;> rfl
@[simp] theorem unparkSpawns_ctls (s : State) (c : Ctx) :
    (unparkSpawns s c).ctls = s.ctls := by simp [unparkSpawns]
@[simp] theorem abortContext_ctls (s : State) (c : Ctx) :
    (abortContext s c).ctls = s.ctls := by simp [abortContext]
@[simp] theorem saveBlock_ctls (s : State) (out resumed : Bool) (blk : Nat) :
    (saveBlock out resumed s blk).ctls = s.ctls := by fun_cases saveBlock out resumed s blk <;> simp +zetaDelta [*]
@[simp] theorem regrant_ctls (s : State) (g core : Nat) :
    (regrant s g core).ctls = s.ctls := by fun_cases regrant s g core <;> simp +zetaDelta [*]
@[simp] theorem restoreGroup_ctls (core : Nat) (s : State) (p : Nat × Nat) :
    (restoreGroup core s p).ctls = s.ctls := by fun_cases restoreGroup core s p <;> simp +zetaDelta [*]

@[simp] theorem seatTiles_ctls (blk core : Nat) (s : State) :
    (seatTiles blk core s).ctls = s.ctls := by
  unfold seatTiles
  split
  · rfl
  · refine (foldl_ctls (fun s x => ?_) _ _).trans (foldl_ctls (fun s x => by simp) _ _)
    split
    · rfl
    · simp [frameRoom_ctls ‹_›]

@[simp] theorem restoreBlock_ctls (s : State) (p : Nat × Nat) : (restoreBlock s p).ctls = s.ctls := by
  unfold restoreBlock
  split
  · rfl
  · simp only [refillSlots_ctls]
    rw [foldl_ctls fun _ _ => restoreGroup_ctls ..]
    simp -implicitDefEqProofs

@[simp] theorem forgetCore_ctls (s : State) (blk : Nat) :
    (forgetCore s blk).ctls = s.ctls := rfl

@[simp] theorem noCapacity_ctls (s : State) (x : Gang) (ms : List Nat) :
    (noCapacity s x ms).ctls = s.ctls := by
  simp -implicitDefEqProofs [noCapacity]

@[simp] theorem deviceExchange_ctls (s : State) (key pa : Nat) (bs : List Byte) :
    (deviceExchange s key pa bs).ctls = s.ctls := by simp -implicitDefEqProofs [deviceExchange]

/-! ### The host -/

@[simp] theorem legal_raiseAll {s : State} {src : Nat} (hs : src ≠ 0) (h : CtlsLegal s.ctls) : CtlsLegal (raiseAll s src).ctls :=
  legal_raiseSource _ _ hs h
@[simp] theorem legal_writeBar {s : State} (iod off : Nat) (v : DWord) (h : CtlsLegal s.ctls) : CtlsLegal (writeBar s iod off v).ctls := by
  simp [writeBar, h]
@[simp] theorem postHostPage_ctls (s : State) (iod access : Nat) (va : DWord) :
    (postHostPage s iod access va).ctls = s.ctls := by simp [postHostPage]
@[simp] theorem postHostRace_ctls (s : State) (iod access : Nat) (r : Option (Race × DWord)) :
    (postHostRace s iod access r).ctls = s.ctls := by fun_cases postHostRace s iod access r <;> simp [*]
@[simp] theorem reply_ctls (s : State) (iod : Nat) (bs : List Byte) :
    (reply s iod bs).ctls = s.ctls := rfl
@[simp] theorem poisonReply_ctls (s : State) (iod : Nat) :
    (poisonReply s iod).ctls = s.ctls := rfl

@[simp] theorem stopBlock_ctls (s : State) (b : Block) : (stopBlock s b).ctls = s.ctls := by
  fun_cases stopBlock s b
  · rfl
  · rw [foldl_ctls (by exact fun _ _ => rfl), stopGroup_ctls]

/-! ### The fabric -/

@[simp] theorem modPort_ctls (s : State) (p : Nat) (f : Port → Port) :
    (modPort s p f).ctls = s.ctls := rfl
@[simp] theorem legal_wakeOffline {s : State} (h : CtlsLegal s.ctls) : CtlsLegal (wakeOffline s).ctls :=
  legal_foldl (fun _ _ h => legal_replayEntry _ _ h) _ (by simp [h])
@[simp] theorem putMirror_ctls (s : State) (key pa : Nat) (bs : List Byte) :
    (putMirror s key pa bs).ctls = s.ctls := by simp [putMirror]

/-! ### Starts and resets -/

@[simp] theorem legal_boot {s : State} (h : CtlsLegal s.ctls) : CtlsLegal (boot s).ctls := by
  fun_cases boot s
  · exact h
  · exact (CtlsLegal.map_iff (by exact fun _ => .rfl)).mpr h

@[simp] theorem legal_beginReset {s : State} (d : Nat) (h : CtlsLegal s.ctls) : CtlsLegal (beginReset s d).ctls := by
  simp [beginReset, h]

@[simp] theorem unrefill_ctls (s : State) (q : Slot) (r : QRecord) : (unrefill s q r).2.ctls = s.ctls := by
  have given {b : Prop} [Decidable b] {s1 s2 : State} {va : DWord} {bs : List Byte} (h1 : s1.ctls = s.ctls)
      (e : (if b then .ok s1 else devWrite s1 q.ctx va bs) = .ok s2) : s2.ctls = s.ctls := by
    split at e
    · cases e; exact h1
    · exact (devWrite_only e).ctls.trans h1
  fun_cases unrefill s q r
  case case2 e1 _ e2 => exact given (devWrite_only e1).ctls e2
  all_goals simp +zetaDelta

@[simp] theorem drainSlot_ctls (s : State) (q : Slot) : (drainSlot s q).ctls = s.ctls := by
  have given (l : List QRecord) : (l.foldr (fun r (p : Slot × State) => unrefill p.2 p.1 r) (q, s)).2.ctls = s.ctls := by
    induction l with
    | nil => rfl
    | cons r l ih => exact (unrefill_ctls ..).trans ih
  unfold drainSlot
  dsimp only
  split
  next e => exact (devWrite_only e).ctls.trans (given _)
  all_goals exact given _

@[simp] theorem drainSlots_ctls (s : State) (d : Nat) : (drainSlots s d).ctls = s.ctls := by simp [drainSlots]
@[simp] theorem legal_resetDie {s : State} (d : Nat) (h : CtlsLegal s.ctls) : CtlsLegal (resetDie s d).ctls :=
  h.mapIdx (fun _ c hc => by split; exacts [Ctl.legal_reset, hc]) 0
@[simp] theorem recallWords_ctls (s : State) (d : Nat) :
    (recallWords s d).ctls = s.ctls := rfl
@[simp] theorem legal_takeDown {s : State} (d : Nat) (h : CtlsLegal s.ctls) : CtlsLegal (takeDown s d).ctls :=
  legal_resetDie d (by simp [h])

/-! ### Uniform instructions -/

@[simp] theorem uniFrag_ctls (len : Nat) (g : Option GuardK) (f : UniIn → LaneOut) (c : Cx) (s : State) :
    (uniFrag len g f c s).ctls = s.ctls := by simp [uniFrag]

@[simp] theorem legal_uniCtl {s : State} (len : Nat) (g : Option GuardK) (f : UniIn → LaneOut) (cc : Nat) (c : Ctl)
    (h : CtlsLegal s.ctls) : CtlsLegal (uniCtl len g f cc c s).ctls := by
  have puts (d : Ctl) (l : List (RegKey × DWord)) : (d.puts l).legal ↔ d.legal := by
    fun_induction Ctl.puts d l
    case case1 => exact .rfl
    all_goals assumption
  unfold uniCtl
  rw [legal_advanceCtl]
  split
  · exact (CtlsLegal.modify_iff fun d => puts d _).mpr h
  · exact h

/-! ### Fetch and the schedule -/

@[simp] theorem fragFetchFailed_ctls (s : State) (c : Cx) (x : Fetch) :
    (fragFetchFailed s c x).ctls = s.ctls := by fun_cases fragFetchFailed s c x <;> simp +zetaDelta [*]
@[simp] theorem legal_ctlFetchFailed {s : State} (cc : Nat) (pc : DWord) (x : Fetch) (h : CtlsLegal s.ctls) :
    CtlsLegal (ctlFetchFailed s cc pc x).ctls := by fun_cases ctlFetchFailed s cc pc x <;> simp [*]
@[simp] theorem wakeTry_ctls (g : Nat) (s : State) (x : Frag) :
    (wakeTry g s x).ctls = s.ctls := by simp [wakeTry]

end Sys2Proof.Machine
end

section
/-! SUPPORT. Every instruction, every event and every turn of the schedule keeps the control cores legal. -/

namespace Sys2Proof.Machine

/-! ### Results that keep control cores legal -/

/-- A result whose control cores are legal where those of `s` are, if it is a next state. -/
def KeepsCtls (s : State) (r : Out) : Prop := CtlsLegal s.ctls → ∀ t, r = .next t → CtlsLegal t.ctls

theorem KeepsCtls.next {s t : State} (h : CtlsLegal s.ctls → CtlsLegal t.ctls) : KeepsCtls s (.next t) := by
  rintro hs _ ⟨⟩
  exact h hs
theorem KeepsCtls.fault {s : State} (e : Fault) : KeepsCtls s (.fault e) := fun _ _ => nofun
theorem KeepsCtls.stays (s : State) : KeepsCtls s (.next s) := .next id
theorem KeepsCtls.of_ctls {s t : State} (e : t.ctls = s.ctls) : KeepsCtls s (.next t) := .next fun h => e ▸ h
theorem KeepsCtls.of_start {s t : State} {r : Out} (e : t.ctls = s.ctls) (h : KeepsCtls t r) : KeepsCtls s r := fun hs => h (e ▸ hs)

/-! ### Instructions -/

/-- An instruction keeps control cores legal if its effects on a compute core and on a control core do. -/
theorem issue_keeps {i : Instr} {x : IssueInfo} {s : State} {onFrag : Cx → State → State} {onCtl : Nat → Ctl → State → State}
    (hf : ∀ c {s}, CtlsLegal s.ctls → CtlsLegal (onFrag c s).ctls)
    (hc : ∀ cc c {s}, CtlsLegal s.ctls → CtlsLegal (onCtl cc c s).ctls) : KeepsCtls s (issue i x s onFrag onCtl) := by
  fun_cases issue i x s onFrag onCtl
  case case1 | case2 | case6 | case7 => exact .fault _
  case case3 | case4 => exact .next fun h => by simp [h]
  case case5 => exact .next (hc _ _)
  case case8 | case9 | case10 => exact .of_ctls (raiseFrag_ctls ..)
  case case11 => exact .of_ctls (waitToIssue_ctls ..)
  case case12 => exact .next fun h => hf _ ((started_ctls ..).symm ▸ h)

/-- An instruction of compute cores alone. -/
theorem issue_frag_keeps {i : Instr} {x : IssueInfo} {s : State} {onFrag : Cx → State → State}
    (hf : ∀ c {s}, CtlsLegal s.ctls → CtlsLegal (onFrag c s).ctls) : KeepsCtls s (issue i x s onFrag noCtl) :=
  issue_keeps hf fun _ _ _ h => h

/-- A privileged instruction of control cores. -/
theorem issue_privileged_keeps {i : Instr} {x : IssueInfo} {s : State} {body : Nat → Ctl → State → State}
    (hc : ∀ cc c {s}, CtlsLegal s.ctls → CtlsLegal (body cc c s).ctls) :
    KeepsCtls s (issue i x s noFrag (fun cc c s => privileged cc c s (body cc c))) :=
  issue_keeps (fun _ _ h => h) fun cc c _ h => legal_privileged cc c h (hc cc c h)

theorem laneMemOp_keeps {i : Instr} {w : Bool} {body : Cx → State → State} {s : State}
    (hb : ∀ c {s}, CtlsLegal s.ctls → CtlsLegal (body c s).ctls) : KeepsCtls s (laneMemOp i w body s) :=
  issue_frag_keeps hb

theorem laneOp_keeps {i : Instr} {w : Bool} {len : Nat} {g : Option GuardQ} {f : Cx → Nat → Nat → LaneOut} {s : State}
    : KeepsCtls s (laneOp i w len g f s) :=
  issue_frag_keeps fun _ _ h => by simp [h]

theorem crossOp_keeps {i : Instr} {w : Bool} {g : Option GuardQ} {f : Cx → Nat → List Nat → Nat → LaneOut} {s : State}
    : KeepsCtls s (crossOp i w g f s) :=
  issue_frag_keeps fun _ _ h => by simp [h]

theorem uniOp_keeps {i : Instr} {w : Bool} {len : Nat} {g : Option GuardK} {f : UniIn → LaneOut} {s : State}
    : KeepsCtls s (uniOp i w len g f s) :=
  issue_keeps (fun _ _ h => by simp [h]) (fun _ _ _ h => by simp [h])

theorem csrwOp_keeps {i : Instr} {fn : CsrwFn} {o : CsrOp} {s : State} : KeepsCtls s (csrwOp i fn o s) :=
  issue_keeps (fun _ _ h => by simp [h]) (fun _ _ _ h => by simp [h])

theorem issue_guarded_keeps {i : Instr} {x : IssueInfo} {g : Option GuardK} {body : Cx → State → State} {s : State}
    (hb : ∀ c {s}, CtlsLegal s.ctls → CtlsLegal (body c s).ctls) :
    KeepsCtls s (issue i x s (guardedFrag g 8 body) noCtl) :=
  issue_frag_keeps fun c _ h => legal_guardedFrag g 8 c h (hb c h)

theorem bothGuarded_keeps {i : Instr} {w : Bool} {g : Option GuardK} {rel : Bool} {body : Actor → State → State} {s : State}
    (hb : ∀ a {s}, CtlsLegal s.ctls → CtlsLegal (body a s).ctls) :
    KeepsCtls s (bothGuarded i w g rel body s) :=
  issue_keeps (fun c _ h => legal_guardedFrag _ _ _ h (hb _ h)) (fun cc c _ h => legal_guardedCtl _ _ _ _ h (by
    split
    · simp [h]
    · exact hb _ h))

theorem mntOp_keeps {i : Instr} {o : MntOp} {effect : State → Site → List (Nat × Nat) → State} {s : State}
    (he : ∀ s x l, (effect s x l).ctls = s.ctls) : KeepsCtls s (mntOp i o effect s) :=
  issue_keeps
    (fun _ _ h => legal_guardedFrag _ _ _ h
      (legal_mntBody o _ he (fun _ _ h => by simp [h]) (fun _ _ h => by simp [h]) (fun _ h => by simp [h]) h))
    (fun _ _ _ h => legal_guardedCtl _ _ _ _ h
      (legal_mntBody o _ he (fun _ _ h => by simp [h]) (fun _ _ h => by simp [h]) (fun _ h => by simp [h]) h))

theorem execRgn_keeps {s : State} (o : RgnOp) : KeepsCtls s (execRgn o s) :=
  issue_keeps
    (fun _ _ h => legal_rgnBody o _ _ (fun _ _ h => by simp [h]) (fun _ _ h => by simp [h]) (fun _ h => by simp [h]) h)
    (fun _ _ _ h => legal_rgnBody o _ _ (fun _ _ h => by simp [h]) (fun _ _ h => by simp [h]) (fun _ h => by simp [h]) h)

/-! ### Events -/

theorem execRecipeRun_keeps (blk x : Nat) (s : State) : KeepsCtls s (execRecipeRun blk x s) := by
  unfold execRecipeRun
  split
  · exact .stays s
  · refine .next fun h => ?_
    split
    · split <;> simp [h]
    · simp [h]

theorem execFoldRetry_keeps (core : Nat) (s : State) : KeepsCtls s (execFoldRetry core s) := by
  unfold execFoldRetry
  split
  · refine .next fun h => legal_foldl (fun s p h => ?_) _ h
    split <;> simp [h]
  · exact .stays s

theorem execCollectiveMatch_keeps (iod n : Nat) (others : List Contribution) (s : State) :
    KeepsCtls s (execCollectiveMatch iod n others s) := by
  fun_cases execCollectiveMatch iod n others s
  case case3 => exact .next fun h => legal_foldl (fun _ _ h => by simp [h]) _ h
  case case4 => exact .next fun h => legal_foldl (fun _ _ h => by simp [h]) _ h
  all_goals exact .stays s

theorem execMonitorWake_keeps (line : Nat) (s : State) : KeepsCtls s (execMonitorWake line s) := by
  unfold execMonitorWake
  dsimp only
  split
  · exact .stays s
  · exact .next fun h => legal_foldl (fun _ _ h => by simp [h]) _
      (legal_foldl (fun _ _ h => by simp [h]) _ (by simp [h]))

theorem execHomeAccess_keeps (a : Agent) (k : HomeKind) (pa : Nat) (s : State) : KeepsCtls s (execHomeAccess a k pa s) := by
  unfold execHomeAccess
  dsimp only
  split
  · exact .stays s
  · refine .next fun h => ?_
    cases k <;> simp [h]

theorem execEviction_keeps (site : EvictedFrom) (word : Nat) (s : State) : KeepsCtls s (execEviction site word s) := by
  unfold execEviction
  refine .of_ctls ?_
  split <;> simp

theorem execDispatch_keeps (die : Nat) (cores : List Nat) (s : State) : KeepsCtls s (execDispatch die cores s) := by
  refine .of_ctls ?_
  dsimp only
  split
  · simp
  · simp
  · simp

theorem execUnbind_keeps (die slot : Nat) (s : State) : KeepsCtls s (execUnbind die slot s) := by
  fun_cases execUnbind die slot s
  case case4 e => exact .of_ctls (by simp [unbindSlot_ctls e])
  all_goals exact .stays s

theorem execOverflowAppend_keeps (die : Nat) (s : State) : KeepsCtls s (execOverflowAppend die s) := by
  fun_cases execOverflowAppend die s
  case case1 => exact .stays s
  case case2 e => 
    have kept := appendFirst_ctls e
    exact .of_ctls kept

theorem execAbIntervalEnd_keeps (core a l g : Nat) (s : State) : KeepsCtls s (execAbIntervalEnd core a l g s) := by
  unfold execAbIntervalEnd
  dsimp only
  split
  · exact .stays s
  · refine .of_ctls ?_
    split
    · split
      · split
        · simp
        next e => simp [raiseTo_ctls e]
      · simp
    · split <;> simp

theorem takeRequest_keeps (c : Ctx) (codes : Nat → Bool) {effect : State → State} (s : State)
    (he : ∀ {s}, CtlsLegal s.ctls → CtlsLegal (effect s).ctls) : KeepsCtls s (takeRequest c codes effect s) := by
  unfold takeRequest
  dsimp only
  split
  · exact .stays s
  · exact .next fun h => he (by simp [h])

theorem execRunRequest_keeps (c : Ctx) (s : State) : KeepsCtls s (execRunRequest c s) := takeRequest_keeps c _ s id

theorem execPreemptRequest_keeps (c : Ctx) (s : State) : KeepsCtls s (execPreemptRequest c s) :=
  takeRequest_keeps c _ s fun h => legal_foldl (fun _ _ h => by simp [h]) _ h

theorem execSaveRequest_keeps (c : Ctx) (s : State) : KeepsCtls s (execSaveRequest c s) :=
  takeRequest_keeps c _ s fun h => legal_foldl (fun _ _ h => by simp [h]) _ h

theorem execAbortRequest_keeps (c : Ctx) (s : State) : KeepsCtls s (execAbortRequest c s) :=
  takeRequest_keeps c _ s fun h => by simp [h]

theorem execResumeRequest_keeps (c : Ctx) (s : State) : KeepsCtls s (execResumeRequest c s) :=
  takeRequest_keeps c _ s fun h => by simp [h]

theorem execUnassignedRequest_keeps (c : Ctx) (s : State) : KeepsCtls s (execUnassignedRequest c s) := takeRequest_keeps c _ s id

theorem execDrainlimExpiry_keeps (block : Nat) (s : State) : KeepsCtls s (execDrainlimExpiry block s) := by
  fun_cases execDrainlimExpiry block s
  case case4 =>
    refine .of_ctls ((startSave_ctls ..).trans ?_)
    split
    · rfl
    · exact foldl_ctls (by exact fun _ _ => rfl) _ _
  all_goals exact .stays s

theorem execSave_keeps (gang : Nat) (s : State) : KeepsCtls s (execSave gang s) := by
  fun_cases execSave gang s
  case case4 => exact .of_ctls (foldl_ctls (by exact fun _ _ => saveBlock_ctls ..) _ _)
  all_goals exact .stays s

theorem execRestore_keeps (gang : Nat) (cores : List Nat) (s : State) : KeepsCtls s (execRestore gang cores s) := by
  fun_cases execRestore gang cores s
  case case6 s1 _ _ =>
    have h1 : s1.ctls = s.ctls := by simp -implicitDefEqProofs [s1]
    exact .next fun h => legal_foldl (fun _ _ h => by simp [h]) _ (h1 ▸ h)
  all_goals exact .of_ctls (by simp)

theorem execStatusWrite_keeps (c : Ctx) (s : State) : KeepsCtls s (execStatusWrite c s) := by
  unfold execStatusWrite
  split
  · exact .stays s
  · dsimp only
    split
    · exact .stays s
    · exact .stays s
    · split
      · exact .stays s
      · refine .of_ctls ?_
        rw [putRequest_ctls, deviceExchange_ctls]
        split <;> simp

theorem execCxlMemRead_keeps (iod off : Nat) (s : State) : KeepsCtls s (execCxlMemRead iod off s) := by
  fun_cases execCxlMemRead iod off s
  case case1 => exact .stays s
  all_goals
    have e := ctls_of_eq_mk ‹translate _ _ _ _ _ _ = _›
    exact .of_ctls (by simpa +zetaDelta using e)

theorem execCxlMemWrite_keeps (iod off : Nat) (bytes : List Byte) (s : State) : KeepsCtls s (execCxlMemWrite iod off bytes s) := by
  fun_cases execCxlMemWrite iod off bytes s
  case case1 => exact .stays s
  all_goals
    have e := ctls_of_eq_mk ‹translate _ _ _ _ _ _ = _›
    exact .of_ctls (by simpa +zetaDelta using e)

theorem execUncorrectableError_keeps (place : ErrorPlace) (s : State) : KeepsCtls s (execUncorrectableError place s) := by
  cases place with
  | core n => exact .next fun h => legal_raiseAll (by decide) (by simp [h])
  | memory pa => exact .next fun h => legal_raiseAll (by decide) h
  | sram line => exact .next fun h => legal_raiseAll (by decide) h
  | control cc => exact .next fun h => legal_raiseAll (by decide) h

theorem legal_remoteAccess {s : State} (x : Option RemoteAccess) (h : CtlsLegal s.ctls) :
    CtlsLegal (remoteAccess x s).ctls := by
  fun_cases remoteAccess x s
  case case2 x _ t e => exact execHomeAccess_keeps _ _ _ s h t e
  all_goals exact h

theorem takeFlit_keeps (type p : Nat) (f : Flit) {accept : State → State} (s : State)
    (ha : ∀ {s}, CtlsLegal s.ctls → CtlsLegal (accept s).ctls) : KeepsCtls s (takeFlit type p f accept s) := by
  unfold takeFlit
  split
  · exact .stays s
  · dsimp only
    split
    · exact .stays s
    · split
      · exact .of_ctls rfl
      · split
        · exact .next fun h => ha h
        · split
          · exact .stays s
          · exact .of_ctls rfl

theorem flitStep_keeps (type port : Nat) (f : FlitStep) (s : State) : KeepsCtls s (flitStep type port f s) := by
  cases f
  · exact takeFlit_keeps _ _ _ s (legal_remoteAccess _)
  · exact .of_ctls rfl

theorem execAcknowledge_keeps (port : Nat) (a : AckFlit) (s : State) : KeepsCtls s (execAcknowledge port a s) :=
  takeFlit_keeps 3 port a.flit s fun h => by simp [h]

theorem execKeyControl_keeps (port : Nat) (k : KeyStep) (s : State) : KeepsCtls s (execKeyControl port k s) := by
  fun_cases execKeyControl port k s
  · exact takeFlit_keeps _ _ _ s id
  all_goals exact .of_ctls (by simp)

theorem execScopeTableInstall_keeps (t : ScopeTable) (s : State) : KeepsCtls s (execScopeTableInstall t s) := by
  unfold execScopeTableInstall
  dsimp only
  split
  · exact .next fun h => legal_wakeOffline h
  · exact .next fun h => legal_wakeOffline (by simp [h])

theorem CtlsLegal.reset : CtlsLegal State.reset.ctls :=
  ⟨List.length_replicate, fun _ h => List.eq_of_mem_replicate h ▸ Ctl.legal_reset⟩

theorem execColdStart_keeps (s : State) : KeepsCtls s (execColdStart s) := .next fun _ => legal_boot .reset

theorem execGangBarrierPass_keeps (gang : Nat) (s : State) : KeepsCtls s (execGangBarrierPass gang s) := by
  fun_cases execGangBarrierPass gang s <;> exact .of_ctls (by simp)

theorem execMbarTimeout_keeps (g f : Nat) (s : State) : KeepsCtls s (execMbarTimeout g f s) := by
  fun_cases execMbarTimeout g f s <;> exact .of_ctls rfl

theorem execChunkLanding_keeps (id : Nat) (s : State) : KeepsCtls s (execChunkLanding id s) := by
  fun_cases execChunkLanding id s <;> exact .next fun h => by simp +zetaDelta [h]

theorem execCopyCommand_keeps (iod n : Nat) (s : State) : KeepsCtls s (execCopyCommand iod n s) := by
  fun_cases execCopyCommand iod n s <;> exact .next fun h => by simp [h]

theorem execEpubCommand_keeps (iod n : Nat) (s : State) : KeepsCtls s (execEpubCommand iod n s) := by
  fun_cases execEpubCommand iod n s <;> exact .next fun h => by simp [h]

theorem execPublish_keeps (iod n : Nat) (s : State) : KeepsCtls s (execPublish iod n s) := by
  fun_cases execPublish iod n s <;> exact .next fun h => by simp [h]

theorem execUpload_keeps (iod n : Nat) (s : State) : KeepsCtls s (execUpload iod n s) := by
  fun_cases execUpload iod n s <;> exact .next fun h => by simp [h]

theorem execEcollCommand_keeps (iod n : Nat) (s : State) : KeepsCtls s (execEcollCommand iod n s) := by
  fun_cases execEcollCommand iod n s <;> exact .next fun h => by simp [h]

theorem execKbindWrite_keeps (cc : Nat) (v : DWord) (s : State) : KeepsCtls s (execKbindWrite cc v s) :=
  .next (legal_writeKbind cc v)

theorem execIlckWrite_keeps (cc : Nat) (fn : CsrwFn) (v : DWord) (s : State) : KeepsCtls s (execIlckWrite cc fn v s) := by
  fun_cases execIlckWrite cc fn v s <;> exact .next fun h => by simp [h]

theorem execKpendWrite_keeps (cc : Nat) (fn : CsrwFn) (v : DWord) (s : State) : KeepsCtls s (execKpendWrite cc fn v s) :=
  .next (legal_writeKpend cc fn v)

theorem execPeerAddLanding_keeps (id : Nat) (s : State) : KeepsCtls s (execPeerAddLanding id s) := by
  fun_cases execPeerAddLanding id s <;> exact .next fun h => by simp +zetaDelta [h]

theorem execTrapDelivery_keeps (g : Nat) (s : State) : KeepsCtls s (execTrapDelivery g s) := by
  fun_cases execTrapDelivery g s <;> exact .next fun h => by simp +zetaDelta [h]

theorem legal_clearPending {s : State} (cc : Nat) (m : BitVec 8) (h : CtlsLegal s.ctls) :
    CtlsLegal (modCtl s cc (fun c => { c with kpend := c.kpend &&& m })).ctls :=
  CtlsLegal.modify h fun c _ ⟨hd, hp, hm, hb⟩ => ⟨hd, by rw [BitVec.getLsbD_and, hp, Bool.false_and], hm, hb⟩

theorem execInterrupt_keeps (cc : Nat) (s : State) : KeepsCtls s (execInterrupt cc s) := by
  fun_cases execInterrupt cc s
  case case4 =>
    refine .next fun h => ?_
    split
    · exact h
    · exact legal_ctlTrap _ _ _ _ _ _ (legal_clearPending _ _ h)
  all_goals exact .stays s

theorem execWalkRetry_keeps (g id : Nat) (s : State) : KeepsCtls s (execWalkRetry g id s) := by
  fun_cases execWalkRetry g id s <;> exact .next fun h => by simp [h]

theorem execPriorityAging_keeps (die slot idx : Nat) (s : State) : KeepsCtls s (execPriorityAging die slot idx s) := by
  fun_cases execPriorityAging die slot idx s <;> exact .of_ctls (by simp)

theorem execBlockStart_keeps (core : Nat) (s : State) : KeepsCtls s (execBlockStart core s) := by
  fun_cases execBlockStart core s <;> exact .of_ctls (by simp)

theorem execSpawnedGroupStart_keeps (core : Nat) (s : State) : KeepsCtls s (execSpawnedGroupStart core s) := by
  fun_cases execSpawnedGroupStart core s <;> exact .next fun h => by simp +zetaDelta [h]

theorem execTimerExpiry_keeps (core bin : Nat) (s : State) : KeepsCtls s (execTimerExpiry core bin s) := by
  fun_cases execTimerExpiry core bin s <;> exact .of_ctls (by simp)

theorem execBinClose_keeps (core bin : Nat) (s : State) : KeepsCtls s (execBinClose core bin s) := by
  fun_cases execBinClose core bin s <;> exact .of_ctls (by simp)

theorem execSteal_keeps (thief victim : Nat) (s : State) : KeepsCtls s (execSteal thief victim s) := by
  fun_cases execSteal thief victim s <;> exact .of_ctls (by simp)

theorem execUrgent_keeps (g f : Nat) (s : State) : KeepsCtls s (execUrgent g f s) := by
  fun_cases execUrgent g f s <;> exact .of_ctls (by simp)

theorem execTaskCompletion_keeps (n : Nat) (s : State) : KeepsCtls s (execTaskCompletion n s) := by
  fun_cases execTaskCompletion n s <;> exact .next fun h => by simp +zetaDelta [h]

theorem execSwitchOut_keeps (block : Nat) (s : State) : KeepsCtls s (execSwitchOut block s) := by
  fun_cases execSwitchOut block s <;> exact .of_ctls rfl

theorem execDoorbell_keeps (iod : Nat) (s : State) : KeepsCtls s (execDoorbell iod s) :=
  .next fun h => legal_raiseAll (by decide) h

theorem execRegisterWrite_keeps (r : RegWrite) (s : State) : KeepsCtls s (execRegisterWrite r s) := by
  cases r with
  | csr cc n fn v => exact .next fun h => by simp [h]
  | bar iod off v => exact .next fun h => by simp [h]

theorem execSpdmRequest_keeps (iod : Nat) (request : List Byte) (s : State) : KeepsCtls s (execSpdmRequest iod request s) := .of_ctls rfl

theorem execThermalLimit_keeps (entered : Bool) (s : State) : KeepsCtls s (execThermalLimit entered s) :=
  .next fun h => legal_raiseAll (by decide) h

theorem execRollover_keeps (k : NewKey) (s : State) : KeepsCtls s (execRollover k s) := by
  fun_cases execRollover k s <;> exact .of_ctls (by simp)

theorem execPortDown_keeps (port : Nat) (s : State) : KeepsCtls s (execPortDown port s) := .of_ctls rfl

theorem execPortUp_keeps (port : Nat) (s : State) : KeepsCtls s (execPortUp port s) := .next fun h =>
  legal_wakeOffline h

theorem execWarmStart_keeps (s : State) : KeepsCtls s (execWarmStart s) := .next fun _ => legal_boot .reset

theorem execWarmReset_keeps (die : Nat) (s : State) : KeepsCtls s (execWarmReset die s) := by
  fun_cases execWarmReset die s <;> exact .next fun h => by simp [h]

theorem execReAdmission_keeps (r : Retraining) (s : State) : KeepsCtls s (execReAdmission r s) := by
  fun_cases execReAdmission r s <;> exact .next fun h => by simp [h]

theorem execTimeBaseTick_keeps (s : State) : KeepsCtls s (execTimeBaseTick s) := .of_ctls rfl

/-! ### Every instruction and every event -/

theorem execSld_keeps {s : State} (o : SldOp) : KeepsCtls s (execSld o s) :=
  issue_keeps (fun _ _ h => by simp [h]) fun _ _ _ h => by simp [h]

theorem execSst_keeps {s : State} (o : SstOp) : KeepsCtls s (execSst o s) :=
  issue_keeps (fun _ _ h => by simp [h]) fun _ _ _ h => by simp [h]

theorem execAcq_keeps {s : State} (o : AcqOp) : KeepsCtls s (execAcq o s) :=
  issue_keeps (fun _ _ h => by simp [h]) fun _ _ _ h => by simp [h]

theorem execAcqAll_keeps {s : State} (o : ScopeOp) : KeepsCtls s (execAcqAll o s) :=
  issue_keeps (fun _ _ h => by simp [h]) fun _ _ _ h => by simp [h]

theorem execRel_keeps {s : State} (o : ScopeOp) : KeepsCtls s (execRel o s) :=
  issue_keeps (fun _ _ h => by simp [h]) fun _ _ _ h => by split <;> simp [h]

theorem execBra_keeps {s : State} (o : JumpOp) : KeepsCtls s (execBra o s) :=
  issue_keeps (fun _ _ h => by simp [h]) fun _ _ _ h => by simp [h]

theorem execCall_keeps {s : State} (o : JumpOp) : KeepsCtls s (execCall o s) :=
  issue_keeps (fun _ _ h => by simp [h]) fun _ _ _ h => by simp [h]

theorem execBrc_keeps {s : State} (o : BrcOp) : KeepsCtls s (execBrc o s) :=
  issue_keeps (fun _ _ h => by simp [h]) fun _ _ _ h => by simp [h]

theorem execBraRegister_keeps {s : State} (o : SrcOp) : KeepsCtls s (execBraRegister o s) :=
  issue_keeps (fun c _ h => legal_targetFrag c _ h fun _ => by simp [h]) fun cc c _ h => legal_targetCtl cc c _ h fun _ => by simp [h]

theorem execCallRegister_keeps {s : State} (o : SrcOp) : KeepsCtls s (execCallRegister o s) :=
  issue_keeps (fun c _ h => legal_targetFrag c _ h fun _ => by simp [h]) fun cc c _ h => legal_targetCtl cc c _ h fun _ => by simp [h]

theorem execRet_keeps {s : State} (o : SrcOp) : KeepsCtls s (execRet o s) :=
  issue_keeps (fun c _ h => legal_targetFrag c _ h fun _ => by simp [h]) fun cc c _ h => legal_targetCtl cc c _ h fun _ => by simp [h]

theorem execYieldSlot_keeps {s : State} (o : WOp) : KeepsCtls s (execYieldSlot o s) :=
  issue_keeps (fun _ _ h => by simp [h]) fun _ _ _ h => by simp [h]

theorem execBclose_keeps {s : State} (o : WOp) : KeepsCtls s (execBclose o s) :=
  issue_keeps (fun _ _ h => by simp [h]) fun _ _ _ h => by simp [h]

theorem execBwaitImmediate_keeps {s : State} (o : BwaitImmOp) : KeepsCtls s (execBwaitImmediate o s) :=
  issue_keeps (fun _ _ h => by simp [h]) fun _ _ _ h => by simp [h]

theorem execBwaitRegister_keeps {s : State} (o : SrcOp) : KeepsCtls s (execBwaitRegister o s) :=
  issue_keeps (fun _ _ h => by simp [h]) fun _ _ _ h => by simp [h]

theorem execTrap_keeps {s : State} (o : TrapOp) : KeepsCtls s (execTrap o s) :=
  issue_frag_keeps fun _ _ h => by simp [h]

theorem execTrapBreak_keeps {s : State} (o : TrapOp) : KeepsCtls s (execTrapBreak o s) :=
  issue_frag_keeps fun _ _ h => by simp [h]

theorem execRte_keeps {s : State} (o : WOp) : KeepsCtls s (execRte o s) :=
  issue_frag_keeps fun _ _ h => by simp [h]

theorem execCsrr_keeps {s : State} (o : CsrOp) : KeepsCtls s (execCsrr o s) :=
  issue_keeps (fun _ _ h => by simp [h]) fun _ _ _ h => by simp [h]

theorem execSvc_keeps {s : State} (o : TrapOp) : KeepsCtls s (execSvc o s) :=
  issue_keeps (fun _ _ h => h) fun _ _ _ h => by simp [h]

theorem execEret_keeps {s : State} (o : WOp) : KeepsCtls s (execEret o s) :=
  issue_privileged_keeps fun _ _ _ h => by simp [h]

theorem execTlbiPage_keeps {s : State} (o : PairOp) : KeepsCtls s (execTlbiPage o s) :=
  issue_privileged_keeps fun _ _ _ h => by simp [h]

theorem execTlbiAsid_keeps {s : State} (o : SrcOp) : KeepsCtls s (execTlbiAsid o s) :=
  issue_privileged_keeps fun _ _ _ h => by simp [h]

theorem execTlbiAll_keeps {s : State} (o : WOp) : KeepsCtls s (execTlbiAll o s) :=
  issue_privileged_keeps fun _ _ _ h => by simp [h]

theorem execCtxi_keeps {s : State} (o : SrcOp) : KeepsCtls s (execCtxi o s) :=
  issue_privileged_keeps fun _ _ _ h => by simp [h]

theorem execKeysetLoad_keeps {s : State} (o : KeyLoadOp) : KeepsCtls s (execKeysetLoad o s) :=
  issue_privileged_keeps fun _ _ _ h => by simp [h]

theorem execKeysetGen_keeps {s : State} (o : KeyOp) : KeepsCtls s (execKeysetGen o s) :=
  issue_privileged_keeps fun cc c _ h =>
    legal_guardedCtl _ _ cc c h (legal_keysetBody _ _ _ h fun _ _ h => by simp [h])

theorem execKeysetErase_keeps {s : State} (o : KeyOp) : KeepsCtls s (execKeysetErase o s) :=
  issue_privileged_keeps fun cc c _ h =>
    legal_guardedCtl _ _ cc c h (legal_keysetBody _ _ _ h fun _ _ h => by simp [h])

theorem execHalt_keeps {s : State} (o : WOp) : KeepsCtls s (execHalt o s) :=
  issue_privileged_keeps fun _ _ _ h => by simp [h]

/-- Every instruction and every event keeps the control cores legal. -/
theorem exec_keeps (i : Instr) (s : State) : KeepsCtls s (exec i s) := by
  cases i with
  | mov o | specialMov o | movi o | moviw o | iaddi o | lea o | iadd o | isub o | imul o | imad o | imin o | imax o | iabs o
  | icmp o | sel o | fadd o | fsub o | ffma o | fmul o | fmin o | fmax o | fcmp o | fclass o | shl o | shr o | sha o | and o
  | or o | xor o | bfx o | bfi o | popc o | clz o | frcp o | fsqrt o | frsq o | fexp2 o | flog2 o | cvt o | pack o | unpk o
  | qset o | qop o =>
    exact laneOp_keeps
  | brd o | join o | atom o | exit o | setwImmediate o | setwRImmediate o | setwRegister o | setwRRegister o | endw o
  | bar o | barArr o | barWait o | gbar o | mbarWait o | tseal o | tdrop o | thold o | tfree o | tfence o =>
    exact issue_frag_keeps fun _ _ hm => by simp [hm]
  | ldgRow o | ld o | st o | ldg o | stg o | pft o | lda o | sta o | ldaTile o | staTile o | ldl o | stl o | fill o | mma o
  | mmas o | spk o | mdrn o | mdrnMem o | mdrnPeer o | mzero o =>
    exact laneMemOp_keeps fun _ _ hm => by simp [hm]
  | shfl o | vote o | red o | scan o => exact crossOp_keeps
  | iopIadd o | iopIsub o | iopImul o | iopIminI64 o | iopImaxI64 o | iopIminN64 o | iopImaxN64 o | iopIabs o | iopAnd o
  | iopOr o | iopXor o | iopShl o | iopShr o | iopSha o | iopPopc o | iopClz o | iopMov o | iopiIadd o | iopiIsub o
  | iopiImul o | iopiIminI64 o | iopiImaxI64 o | iopiIminN64 o | iopiImaxN64 o | iopiAnd o | iopiOr o | iopiXor o
  | iopiShl o | iopiShr o | iopiSha o | iopiMovi o | iopwIadd o | iopwIsub o | iopwImul o | iopwIminI64 o | iopwImaxI64 o
  | iopwIminN64 o | iopwImaxN64 o | iopwAnd o | iopwOr o | iopwXor o | iopwShl o | iopwShr o | iopwSha o | iopwMovi o
  | fopFadd o | fopFsub o | fopFmul o | fopFfma o | fopFmin o | fopFmax o | fopFrcp o | fopFsqrt o | fopFrsq o | fopFexp2 o
  | fopFlog2 o | fopCvt o | cmpkIcmp o | cmpkFcmp o | cmpkFclass o | prkQop o | prkQset o =>
    exact uniOp_keeps
  | satom o | ecpy o | epub o | ecoll o | enq o | deq o | cdec o | cinc o =>
    exact bothGuarded_keeps fun _ _ hm => by simp [hm]
  | cln o | inv o | civ o => exact mntOp_keeps fun _ _ _ => by simp
  | rgn o => exact execRgn_keeps o
  | mbarInit o | mbarArm o | mbarArr o | spawn o | tdef o => exact issue_guarded_keeps fun _ _ hm => by simp [hm]
  | csrw o | csrwSet o | csrwClr o => exact csrwOp_keeps
  | sld o => exact execSld_keeps o
  | sst o => exact execSst_keeps o
  | acq o => exact execAcq_keeps o
  | acqAll o => exact execAcqAll_keeps o
  | rel o => exact execRel_keeps o
  | bra o => exact execBra_keeps o
  | call o => exact execCall_keeps o
  | brc o => exact execBrc_keeps o
  | braRegister o => exact execBraRegister_keeps o
  | callRegister o => exact execCallRegister_keeps o
  | ret o => exact execRet_keeps o
  | yieldSlot o => exact execYieldSlot_keeps o
  | bclose o => exact execBclose_keeps o
  | bwaitImmediate o => exact execBwaitImmediate_keeps o
  | bwaitRegister o => exact execBwaitRegister_keeps o
  | trap o => exact execTrap_keeps o
  | trapBreak o => exact execTrapBreak_keeps o
  | rte o => exact execRte_keeps o
  | csrr o => exact execCsrr_keeps o
  | svc o => exact execSvc_keeps o
  | eret o => exact execEret_keeps o
  | tlbiPage o => exact execTlbiPage_keeps o
  | tlbiAsid o => exact execTlbiAsid_keeps o
  | tlbiAll o => exact execTlbiAll_keeps o
  | ctxi o => exact execCtxi_keeps o
  | keysetLoad o => exact execKeysetLoad_keeps o
  | keysetGen o => exact execKeysetGen_keeps o
  | keysetErase o => exact execKeysetErase_keeps o
  | halt o => exact execHalt_keeps o
  | kbindWrite cc v => exact execKbindWrite_keeps cc v s
  | ilckWrite cc fn v => exact execIlckWrite_keeps cc fn v s
  | kpendWrite cc fn v => exact execKpendWrite_keeps cc fn v s
  | registerWrite r => exact execRegisterWrite_keeps r s
  | interrupt cc => exact execInterrupt_keeps cc s
  | trapDelivery g => exact execTrapDelivery_keeps g s
  | homeAccess a k pa => exact execHomeAccess_keeps a k pa s
  | eviction site word => exact execEviction_keeps site word s
  | monitorWake line => exact execMonitorWake_keeps line s
  | walkRetry g id => exact execWalkRetry_keeps g id s
  | switchOut block => exact execSwitchOut_keeps block s
  | dispatch die cores => exact execDispatch_keeps die cores s
  | priorityAging die slot idx => exact execPriorityAging_keeps die slot idx s
  | blockStart core => exact execBlockStart_keeps core s
  | steal thief victim => exact execSteal_keeps thief victim s
  | urgent g f => exact execUrgent_keeps g f s
  | timerExpiry core bin => exact execTimerExpiry_keeps core bin s
  | binClose core bin => exact execBinClose_keeps core bin s
  | spawnedGroupStart core => exact execSpawnedGroupStart_keeps core s
  | taskCompletion task => exact execTaskCompletion_keeps task s
  | foldRetry core => exact execFoldRetry_keeps core s
  | unbind die slot => exact execUnbind_keeps die slot s
  | overflowAppend die => exact execOverflowAppend_keeps die s
  | chunkLanding id => exact execChunkLanding_keeps id s
  | mbarTimeout g f => exact execMbarTimeout_keeps g f s
  | peerAddLanding id => exact execPeerAddLanding_keeps id s
  | gangBarrierPass gang => exact execGangBarrierPass_keeps gang s
  | copyCommand iod n => exact execCopyCommand_keeps iod n s
  | upload iod n => exact execUpload_keeps iod n s
  | epubCommand iod n => exact execEpubCommand_keeps iod n s
  | ecollCommand iod n => exact execEcollCommand_keeps iod n s
  | collectiveMatch iod n others => exact execCollectiveMatch_keeps iod n others s
  | publish iod n => exact execPublish_keeps iod n s
  | recipeRun block tile => exact execRecipeRun_keeps block tile s
  | abIntervalEnd core a l g => exact execAbIntervalEnd_keeps core a l g s
  | runRequest c => exact execRunRequest_keeps c s
  | preemptRequest c => exact execPreemptRequest_keeps c s
  | saveRequest c => exact execSaveRequest_keeps c s
  | abortRequest c => exact execAbortRequest_keeps c s
  | resumeRequest c => exact execResumeRequest_keeps c s
  | unassignedRequest c => exact execUnassignedRequest_keeps c s
  | drainlimExpiry block => exact execDrainlimExpiry_keeps block s
  | save gang => exact execSave_keeps gang s
  | restore gang cores => exact execRestore_keeps gang cores s
  | statusWrite c => exact execStatusWrite_keeps c s
  | doorbell iod => exact execDoorbell_keeps iod s
  | cxlMemRead iod off => exact execCxlMemRead_keeps iod off s
  | cxlMemWrite iod off bytes => exact execCxlMemWrite_keeps iod off bytes s
  | registrationFlit port f => exact flitStep_keeps 1 port f s
  | dataFlit port f => exact flitStep_keeps 2 port f s
  | acknowledge port a => exact execAcknowledge_keeps port a s
  | keyControl port k => exact execKeyControl_keeps port k s
  | rollover k => exact execRollover_keeps k s
  | portDown port => exact execPortDown_keeps port s
  | scopeTableInstall t => exact execScopeTableInstall_keeps t s
  | uncorrectableError place => exact execUncorrectableError_keeps place s
  | coldStart => exact execColdStart_keeps s
  | warmStart => exact execWarmStart_keeps s
  | warmReset die => exact execWarmReset_keeps die s
  | reAdmission r => exact execReAdmission_keeps r s
  | timeBaseTick => exact execTimeBaseTick_keeps s
  | thermalLimit entered => exact execThermalLimit_keeps entered s
  | portUp port => exact execPortUp_keeps port s
  | spdmRequest iod request => exact execSpdmRequest_keeps iod request s

end Sys2Proof.Machine
end

section
/-! SUPPORT. Every turn of the schedule keeps the control cores legal. -/

namespace Sys2Proof.Machine

/-! ### Turns -/

theorem issueFragment_keeps (s : State) (g f : Nat) : KeepsCtls s (issueFragment s g f) := by
  unfold issueFragment
  split
  · exact .stays s
  next gr hg =>
    split
    · exact .stays s
    next fr hf =>
      dsimp only
      have fetched := fetchInstr_only s (Cx.who { g, f, gr, fr }) gr.vcount true fr.pc
      split
      next i s1 e =>
        rw [e] at fetched
        exact .of_start fetched.ctls (exec_keeps i s1)
      next r s1 _ e =>
        rw [e] at fetched
        exact .of_ctls ((fragFetchFailed_ctls ..).trans fetched.ctls)

theorem issueControl_keeps (s : State) (cc : Nat) : KeepsCtls s (issueControl s cc) := by
  unfold issueControl
  split
  · exact .stays s
  next c hc =>
    split
    · exact .next (legal_takeDeferred cc)
    · split
      · exact execInterrupt_keeps cc s
      · split
        · exact .next fun h => by simp [h]
        · have fetched := fetchInstr_only s (c.who cc) 0 false c.pc
          split
          next i s1 e =>
            rw [e] at fetched
            exact .of_start fetched.ctls (exec_keeps i s1)
          next r s1 _ e =>
            rw [e] at fetched
            exact .next fun h => legal_ctlFetchFailed _ _ _ (fetched.ctls ▸ h)

theorem fragTurn_keeps (s : State) (g f : Nat) : KeepsCtls s (fragTurn s g f) := by
  unfold fragTurn
  dsimp only
  split
  · split
    · exact issueFragment_keeps s g f
    · exact .of_start (giveTurn_ctls ..) (issueFragment_keeps _ _ _)
  · split <;> exact issueFragment_keeps _ _ _

theorem issueParty_keeps (s : State) (p : Party) : KeepsCtls s (issueParty s p) := by
  refine .of_start (t := { s with cur := p }) rfl ?_
  unfold issueParty
  dsimp only
  split
  · exact .stays _
  · split
    · exact exec_keeps _ _
    · split
      · exact fragTurn_keeps _ _ _
      · exact .stays _
  · split
    · exact issueControl_keeps _ _
    · exact .stays _

theorem legal_endIntervals {s : State} (h : CtlsLegal s.ctls) : CtlsLegal (endIntervals s).ctls := by
  refine legal_foldl (fun s core h => ?_) _ h
  dsimp only
  split
  next t e => exact execAbIntervalEnd_keeps _ _ _ _ s h t e
  all_goals exact h

theorem passTime_keeps (s : State) : KeepsCtls s (passTime s) := fun h =>
  exec_keeps .timeBaseTick _
    (legal_foldl (fun _ _ h => legal_foldl (fun _ _ h => by simp [h]) _ h) _ (legal_endIntervals h))

theorem idleStep_keeps (s : State) : KeepsCtls s (idleStep s) := by
  unfold idleStep
  split
  · exact exec_keeps _ s
  · split
    · exact issueParty_keeps s _
    · split
      · exact passTime_keeps s
      · split
        · exact issueParty_keeps s _
        · exact passTime_keeps s

theorem defaultTurn_keeps (s : State) : KeepsCtls s (defaultTurn s) := by
  unfold defaultTurn
  split
  · exact issueParty_keeps s _
  · split
    · split
      · exact issueParty_keeps s _
      · exact idleStep_keeps s
    · split
      · split
        · exact exec_keeps _ s
        · exact passTime_keeps s
      · split
        · exact issueParty_keeps s _
        · exact idleStep_keeps s

theorem turn_keeps (s : State) : KeepsCtls s (turn s) := by
  have rest (l : List Sched) : { s with agenda := l }.ctls = s.ctls := rfl
  unfold turn
  split
  · exact defaultTurn_keeps s
  · split
    · exact issueParty_keeps s _
    · exact .of_start (rest _) (issueParty_keeps _ _)
  · split
    · exact issueParty_keeps s _
    · exact .of_start (rest _) (passTime_keeps _)
  · dsimp only
    split
    · exact .of_start (rest _) (exec_keeps _ _)
    · exact .of_ctls rfl
  · split
    · exact .of_start (rest _) (exec_keeps _ _)
    · exact .of_ctls rfl

/-- Every step keeps the control cores legal. -/
theorem step_keeps (s : State) : KeepsCtls s (step s) :=
  .of_start (t := { s with free := s.free + 1 }) rfl (turn_keeps _)

end Sys2Proof.Machine
end

section
/-! SUPPORT. Traps of control cores (R120, R121, R312). -/

namespace Sys2Proof.Machine

/-! ### One control core changed -/

theorem becomesCtl_modCtl {s : State} {cc : Nat} {c d : Ctl} (h : s.ctls[cc]? = some c) (f : Ctl → Ctl) (e : f c = d) :
    BecomesCtl s (modCtl s cc f) cc d :=
  ⟨ctlOnly_modCtl s cc f, by simp [h, e]⟩

theorem becomesCtl_advanceCtl {s : State} {cc n : Nat} {c d : Ctl} (h : s.ctls[cc]? = some c) {f : Ctl → Ctl}
    (e : { f c with pc := (f c).pc + BitVec.ofNat 64 n } = d) : BecomesCtl s (advanceCtl (modCtl s cc f) cc n) cc d := by
  rw [advanceCtl, modCtl_modCtl]
  exact becomesCtl_modCtl h _ e

/-- A change that is the same for every control core. -/
theorem modCtl_eq_const {s : State} {cc : Nat} {c : Ctl} (h : s.ctls[cc]? = some c) (f : Ctl → Ctl) :
    modCtl s cc f = modCtl s cc (fun _ => f c) := by
  simp only [modCtl, modAt]
  congr 1
  refine List.ext_getElem? fun i => ?_
  simp only [List.getElem?_modify]
  split
  · next e => subst e; simp [h]
  · rfl

/-! ### The record of a trap -/

theorem leBytes_mod (n v : Nat) : leBytes n (v % 2 ^ (8 * n)) = leBytes n v := by
  induction n generalizing v with
  | zero => rfl
  | succ n ih =>
    have e : v % 2 ^ (8 * (n + 1)) / 256 = v / 256 % 2 ^ (8 * n) := by
      rw [show 2 ^ (8 * (n + 1)) = 256 * 2 ^ (8 * n) by rw [Nat.mul_add, Nat.pow_add, Nat.mul_comm], Nat.mod_mul_right_div_self]
    have b : BitVec.ofNat 8 (v % 2 ^ (8 * (n + 1))) = BitVec.ofNat 8 v := by
      apply BitVec.eq_of_toNat_eq
      simp only [BitVec.toNat_ofNat]
      exact Nat.mod_mod_of_dvd _ (Nat.pow_dvd_pow 2 (by omega))
    rw [leBytes, leBytes, e, ih, b]

/-- The bytes of words, cut into accesses of 8 bytes. -/
theorem accs8_words (ws : List DWord) (k : Nat) (va : DWord) :
    accs8 0 (va + BitVec.ofNat 64 (8 * k)) (ws.flatMap (fun w => leBytes 8 w.toNat)) ws.length =
      (ws.zipIdx k).map (fun p => { tid := 0, va := va + BitVec.ofNat 64 (8 * p.2), n := 8, data := leBytes 8 p.1.toNat }) := by
  induction ws generalizing k with
  | nil => rfl
  | cons w ws ih =>
    have next : va + BitVec.ofNat 64 (8 * k) + 8 = va + BitVec.ofNat 64 (8 * (k + 1)) := by
      rw [BitVec.add_assoc, Nat.mul_add, BitVec.ofNat_add]
      rfl
    simp only [List.flatMap_cons, List.length_cons, accs8, List.zipIdx_cons, List.map_cons]
    rw [List.take_left' (leBytes_length ..), List.drop_left' (leBytes_length ..), next, ih]

/-- The words of a trap record (R120). -/
def trapWords (c : Ctl) (causeField : Nat) (addr aux rpc : DWord) : List DWord :=
  [rpc, BitVec.ofNat 64 c.kstate, BitVec.ofNat 64 causeField, addr, aux, c.sreg 60, c.sreg 61, c.sreg 62, c.sreg 63]
    ++ List.replicate 7 0

theorem trapRecord_eq (c : Ctl) (causeField : Nat) (addr aux rpc : DWord) :
    trapRecord c causeField addr aux rpc = (trapWords c causeField addr aux rpc).flatMap (fun w => leBytes 8 w.toNat) := by
  have zeros : List.replicate 56 (0 : Byte) = (List.replicate 7 (0 : DWord)).flatMap (fun w => leBytes 8 w.toNat) := by decide
  have ofNat (v : Nat) : leBytes 8 (BitVec.ofNat 64 v).toNat = leBytes 8 v := leBytes_mod 8 v
  simp only [trapRecord, trapWords, List.flatMap_append, List.flatMap_cons, List.flatMap_nil, ← zeros, ofNat,
    List.append_assoc, List.append_nil]

theorem recordAccs_eq (c : Ctl) (causeField : Nat) (addr aux rpc : DWord) :
    recordAccs c causeField addr aux rpc =
      accs8 0 (c.karea + BitVec.ofNat 64 (128 * c.depth)) (trapRecord c causeField addr aux rpc) 16 := by
  have h := accs8_words (trapWords c causeField addr aux rpc) 0 (c.karea + BitVec.ofNat 64 (128 * c.depth))
  rw [Nat.mul_zero, BitVec.add_zero, ← trapRecord_eq] at h
  refine Eq.trans ?_ h.symm
  simp only [recordAccs, BitVec.ofNat_add, ← BitVec.add_assoc]
  rfl

/-! ### Taking a trap -/

theorem StoreOnly.clearPoison {s t : State} (h : StoreOnly s t) (l : List (Acc × Nat × Nat)) :
    (∃ m g r c o x p, clearPoison t l = { s with mem := m, tags := g, reg := r, copies := c, monitors := o, hostLines := x, poison := p }) ∧
      (Machine.clearPoison t l).mem = t.mem ∧ (Machine.clearPoison t l).tags = t.tags := by
  obtain ⟨m, g, r, c, o, x, rfl⟩ := h
  unfold Machine.clearPoison
  split
  · exact ⟨⟨m, g, r, c, o, x, s.poison, rfl⟩, rfl, rfl⟩
  · exact ⟨⟨m, g, r, c, o, x, _, rfl⟩, rfl, rfl⟩

theorem Stored.of_start {s s1 t : State} {l : List (Acc × Nat × Nat)} (h : Stored s1 t l) (hm : s1.mem = s.mem) (ht : s1.tags = s.tags) :
    Stored s t l :=
  ⟨fun key a h1 h2 => (h.kept key a h1 h2).trans (readByte_congr hm ht key a), h.put⟩

theorem Stored.of_end {s t u : State} {l : List (Acc × Nat × Nat)} (h : Stored s t l) (hm : u.mem = t.mem) (ht : u.tags = t.tags) :
    Stored s u l :=
  ⟨fun key a h1 h2 => (readByte_congr hm ht key a).trans (h.kept key a h1 h2),
    fun l1 p l2 e hl a h1 h2 h3 => (readByte_congr hm ht _ a).trans (h.put l1 p l2 e hl a h1 h2 h3)⟩

theorem ctlTrap_enters {s : State} {cc : Nat} {c : Ctl} (cause source : Nat) (addr aux rpc : DWord) (h : s.ctls[cc]? = some c) :
    Enters s cc c cause source addr aux rpc (ctlTrap s cc cause source addr aux rpc) := by
  intro l s1 hdepth hcheck hrace
  have checked := checkAccs_only s { c.who cc with priv := true } .store (recordAccs c (cause + source * 256) addr aux rpc)
  have stores := storeAccs_stored (c.who cc) l s1 hrace
  obtain ⟨⟨m, g, r, cp, mo, ho, po, e⟩, hmem, htags⟩ := (storeAccs_only s1 (c.who cc) l).clearPoison l
  rw [hcheck] at checked
  obtain ⟨x, a, rfl⟩ := checked
  rw [recordAccs_eq] at hcheck
  have hd : ¬ 4 ≤ c.depth := by omega
  simp only [ctlTrap, h, if_neg hd, hcheck, hrace]
  refine ⟨(Stored.of_start (s := s) stores rfl rfl).of_end (by exact hmem) (by exact htags), ?_⟩
  rw [e]
  exact becomesCtl_modCtl (s := { s with xlat := x, asids := a, mem := m, tags := g, reg := r, copies := cp, monitors := mo, hostLines := ho, poison := po }) h _ rfl

theorem ctlTrap_full {s : State} {cc k : Nat} {c d : Ctl} (cause source : Nat) (addr aux rpc : DWord) (h : s.ctls[cc]? = some c)
    (hfull : 4 ≤ c.depth) (hd : s.ctls[k]? = some d) :
    ∃ d' : Ctl, (ctlTrap s cc cause source addr aux rpc).ctls[k]? = some d' ∧ d'.stopped = (d.stopped || k == cc) ∧
      d'.kpend = if k / 24 = cc / 24 ∧ k ≠ cc ∧ ctlEnabled s k = true then d.kpend ||| 0x80 else d.kpend := by
  have enabled (f : Ctl → Ctl) : ctlEnabled (modCtl s cc f) k = ctlEnabled s k := rfl
  simp only [ctlTrap, h, if_pos hfull, stopCtl, raiseSource, getElem?_mapIdx, modCtl_ctls, List.getElem?_modify, hd, enabled,
    Option.map_eq_map, Option.map_some, Nat.zero_add]
  refine ⟨_, rfl, ?_⟩
  by_cases hk : k = cc
  · subst hk
    simp
  · by_cases hdie : k / 24 = cc / 24 ∧ ctlEnabled s k = true
    · simp [hk, Ne.symm hk, hdie]
    · simp [hk, Ne.symm hk, hdie]

theorem raiseCtl_eq {s : State} {cc : Nat} {c : Ctl} (cause : Nat) (addr aux : DWord) (h : s.ctls[cc]? = some c) :
    raiseCtl s cc cause addr aux = ctlTrap s cc cause 0 addr aux c.pc := by
  simp only [raiseCtl, h]

/-! ### SVC, HALT and ERET -/

/-- A privileged instruction of control cores. -/
theorem onPriv_of {i : Instr} {body : Nat → Ctl → State → State} {P : State → Nat → Ctl → State → Prop}
    (he : ∀ s, exec i s = issue i privInfo s noFrag (fun cc c s => privileged cc c s (body cc c)))
    (hp : ∀ s cc c, s.ctls[cc]? = some c → c.pv = true → P s cc c (body cc c s)) : OnPriv i P := by
  intro s cc c h hwf
  rw [he, issue_ctl h hwf (by simp [privInfo]) (by simp [privInfo])]
  refine ⟨_, rfl, fun hpv => ?_, fun hpv => ?_⟩
  · simp [privileged, hpv]
  · rw [privileged, if_pos hpv]
    exact hp s cc c h.ctl hpv

theorem svc_step (o : TrapOp) : OnCtl (.svc o) (fun s cc c t => t = ctlTrap s cc 19 0 0 (o.n.setWidth 64) (c.pc + 4) ∧
    Enters s cc c 19 0 0 (o.n.setWidth 64) (c.pc + 4) t) := by
  intro s cc c h hwf
  refine ⟨_, ?_, rfl, ctlTrap_enters _ _ _ _ _ h.ctl⟩
  exact issue_ctl (x := privInfo) (onFrag := noFrag) (onCtl := fun cc c s => ctlTrap s cc 19 0 0 (o.n.setWidth 64) (c.pc + 4)) h hwf
    (by simp [privInfo]) (by simp [privInfo])

theorem halt_step (o : WOp) : OnPriv (.halt o) (fun s cc c t => BecomesCtl s t cc { c with wait := .halted }) :=
  onPriv_of (body := fun cc _ s => parkCtl s cc .halted) (fun _ => rfl) fun _ _ _ h _ => becomesCtl_modCtl h _ rfl

theorem eretCtl_zero {s : State} {cc : Nat} {c : Ctl} (word : DWord) (h : s.ctls[cc]? = some c) (hd : c.depth = 0) :
    eretCtl s cc word = raiseCtl s cc 1 0 word := by
  rw [raiseCtl_eq _ _ _ h]
  simp only [eretCtl, h, if_pos hd]

theorem eretCtl_returns {s s1 : State} {cc : Nat} {c : Ctl} {l : List (Acc × Nat × Nat)} (word : DWord) (h : s.ctls[cc]? = some c)
    (hd : 0 < c.depth)
    (hcheck : checkAccs s (c.who cc) .load (accs8 0 (c.karea + BitVec.ofNat 64 (128 * (c.depth - 1))) [] 9) = (.ok l, s1))
    (hrace : (loadAccs s1 (c.who cc) l).2.1 = none) :
    let t := eretCtl s cc word
    let x (i : Nat) : DWord := BitVec.ofNat 64 (leNat ((((loadAccs s1 (c.who cc) l).1.map (·.2)).getD i [])))
    SameButLines s t ∧ BecomesCtl { s with xlat := t.xlat, asids := t.asids, copies := t.copies, reg := t.reg } t cc
      { (((c.setS 60 (x 5)).setS 61 (x 6)).setS 62 (x 7)).setS 63 (x 8) with
        depth := c.depth - 1, pc := x 0, ie := (x 1).getLsbD 1, pv := (x 1).getLsbD 0, wait := .run } := by
  have checked := checkAccs_only s (c.who cc) .load (accs8 0 (c.karea + BitVec.ofNat 64 (128 * (c.depth - 1))) [] 9)
  obtain ⟨⟨cp, r, e⟩, same⟩ := loadAccs_only s1 (c.who cc) l
  rw [hcheck] at checked
  obtain ⟨x, a, rfl⟩ := checked
  have h0 : c.depth ≠ 0 := by omega
  have hk : c.krec = c.karea + BitVec.ofNat 64 (128 * (c.depth - 1)) := if_neg h0
  intro t
  have ht : t = eretCtl s cc word := rfl
  simp only [eretCtl, h, if_neg h0, hk, hcheck, hrace, queueRaceCtl] at ht
  have read (i : Nat) (d : Acc × List Byte) (hd : d.2 = []) (m : List (Acc × List Byte)) : (m.getD i d).2 = (m.map (·.2)).getD i [] := by
    rw [← hd, List.getD_map]
  rw [ht]
  simp only [read]
  refine ⟨same, ?_⟩
  rw [e]
  exact becomesCtl_modCtl (s := { s with xlat := x, asids := a, copies := cp, reg := r }) h _ rfl

theorem eret_step (o : WOp) : OnPriv (.eret o) (fun s cc c t =>
    (c.depth = 0 → t = raiseCtl s cc 1 0 (wordOf (.eret o))) ∧
    ∀ l s1, 0 < c.depth → checkAccs s (c.who cc) .load (accs8 0 (c.karea + BitVec.ofNat 64 (128 * (c.depth - 1))) [] 9) = (.ok l, s1) →
      (loadAccs s1 (c.who cc) l).2.1 = none →
      let x (i : Nat) : DWord := BitVec.ofNat 64 (leNat ((((loadAccs s1 (c.who cc) l).1.map (·.2)).getD i [])))
      SameButLines s t ∧ BecomesCtl { s with xlat := t.xlat, asids := t.asids, copies := t.copies, reg := t.reg } t cc
        { (((c.setS 60 (x 5)).setS 61 (x 6)).setS 62 (x 7)).setS 63 (x 8) with
          depth := c.depth - 1, pc := x 0, ie := (x 1).getLsbD 1, pv := (x 1).getLsbD 0, wait := .run }) :=
  onPriv_of (body := fun cc _ s => eretCtl s cc (wordOf (.eret o))) (fun _ => rfl) fun _ _ _ h _ =>
    ⟨eretCtl_zero _ h, fun _ _ hd hcheck hrace => eretCtl_returns _ h hd hcheck hrace⟩

/-! ### Interrupts (R121) -/

theorem lowestSource_eq {x : BitVec 8} {i : Nat} (h : x.getLsbD i = true) (hlow : ∀ j < i, x.getLsbD j = false) : lowestSource x = i := by
  have hi : i < 8 := BitVec.lt_of_getLsbD h
  have : (List.range 8).find? (fun j => x.getLsbD j) = some i := by
    rw [List.find?_range_eq_some]
    exact ⟨h, List.mem_range.mpr hi, fun j hj => by simp [hlow j hj]⟩
  rw [lowestSource, List.head?_filter, this, Option.getD_some]

theorem execInterrupt_stays {s : State} {cc : Nat} {c : Ctl} (h : s.ctls[cc]? = some c)
    (hno : c.stopped = true ∨ ctlEnabled s cc = false ∨ c.ie = false ∨ c.kpend &&& c.kmask = 0 ∨ c.deferred ≠ []) :
    execInterrupt cc s = .next s := by
  have : (c.stopped || !ctlEnabled s cc || !c.ie || c.pending == 0 || !c.deferred.isEmpty) = true := by
    simpa [Ctl.pending, or_assoc] using hno
  simp only [execInterrupt, h, this, if_true]

theorem execInterrupt_enters {s : State} {cc i : Nat} {c : Ctl} (h : s.ctls[cc]? = some c) (hrun : c.stopped = false)
    (hen : ctlEnabled s cc = true) (hie : c.ie = true) (hdef : c.deferred = []) (hi : (c.kpend &&& c.kmask).getLsbD i = true)
    (hlow : ∀ j < i, (c.kpend &&& c.kmask).getLsbD j = false) :
    let d := { c with kpend := c.kpend &&& ~~~(BitVec.ofNat 8 (2 ^ i)) }
    ∃ t, execInterrupt cc s = .next t ∧ Enters (modCtl s cc (fun _ => d)) cc d 20 i (BitVec.ofNat 64 i)
      (if i = 7 then BitVec.ofNat 64 c.source7 else 0) (if c.wait = .halted then c.pc + 4 else c.pc) t := by
  intro d
  have hne : (c.pending == 0) = false := by
    rw [beq_eq_false_iff_ne]
    intro e
    rw [Ctl.pending] at e
    simp [e] at hi
  have hd : (modCtl s cc (fun _ => d)).ctls[cc]? = some d := by simp [h]
  have enters := ctlTrap_enters 20 i (BitVec.ofNat 64 i) (if i = 7 then BitVec.ofNat 64 c.source7 else 0)
    (if c.wait = .halted then c.pc + 4 else c.pc) hd
  have taken : ctlTrap (modCtl s cc (fun c => { c with kpend := c.kpend &&& ~~~(BitVec.ofNat 8 (2 ^ i)) })) cc 20 i (BitVec.ofNat 64 i)
      (if i = 7 then BitVec.ofNat 64 c.source7 else 0) (if c.wait = .halted then c.pc + 4 else c.pc) =
      ctlTrap (modCtl s cc (fun _ => d)) cc 20 i (BitVec.ofNat 64 i) (if i = 7 then BitVec.ofNat 64 c.source7 else 0)
        (if c.wait = .halted then c.pc + 4 else c.pc) := by rw [modCtl_eq_const h]
  simp only [execInterrupt, h, hrun, hen, hie, hne, hdef, show lowestSource c.pending = i from lowestSource_eq hi hlow, taken,
    List.isEmpty_nil, Bool.not_true, Bool.or_self, Bool.false_eq_true, if_false]
  cases hT : (ctlTrap (modCtl s cc (fun _ => d)) cc 20 i (BitVec.ofNat 64 i) (if i = 7 then BitVec.ofNat 64 c.source7 else 0)
      (if c.wait = .halted then c.pc + 4 else c.pc)).ctls[cc]? with
  | none =>
    refine ⟨s, rfl, fun l s1 h1 h2 h3 => ?_⟩
    obtain ⟨_, _, hcc⟩ := enters l s1 h1 h2 h3
    exact absurd (hT.symm.trans hcc) nofun
  | some e =>
    refine ⟨_, rfl, fun l s1 h1 h2 h3 => ?_⟩
    obtain ⟨hstored, hbecomes⟩ := enters l s1 h1 h2 h3
    have hdepth : e.depth = c.depth + 1 := by
      have hcc := hbecomes.2
      rw [hT, Option.some.injEq] at hcc
      rw [hcc]
    have hmoved : (decide (e.depth = c.depth) && !e.stopped) = false := by simp [hdepth]
    rw [hmoved, if_neg Bool.false_ne_true]
    exact ⟨hstored, hbecomes⟩

end Sys2Proof.Machine
end

section
/-! SUPPORT. Control registers of fragments (R112 to R119, R124, R310, R25). -/

namespace Sys2Proof.Machine

/-! ### Configuration registers (R25) -/

theorem testBit_sum_pow (f : Nat → Bool) (n i : Nat) :
    (((List.range n).map (fun j => if f j then 2 ^ j else 0)).sum).testBit i = (decide (i < n) && f i) := by
  have bound (n : Nat) : ((List.range n).map (fun j => if f j then 2 ^ j else 0)).sum < 2 ^ n := by
    induction n with
    | zero => simp
    | succ n ih =>
      rw [List.range_succ, List.map_append, List.sum_append, List.map_singleton, List.sum_singleton, Nat.pow_succ]
      split <;> omega
  induction n with
  | zero => simp
  | succ n ih =>
    rw [List.range_succ, List.map_append, List.sum_append, List.map_singleton, List.sum_singleton]
    have hb := bound n
    cases hf : f n
    · rw [if_neg Bool.false_ne_true, Nat.add_zero, ih]
      by_cases hi : i = n
      · subst hi; simp [hf]
      · have : i < n + 1 ↔ i < n := by omega
        simp [this]
    · rw [if_pos rfl, Nat.add_comm, ← Nat.mul_one (2 ^ n), Nat.testBit_two_pow_mul_add _ hb, ih]
      by_cases hi : i < n
      · have : i < n + 1 := by omega
        simp [hi, this]
      · have bit : Nat.testBit 1 (i - n) = decide (i = n) := by
          rw [Bool.eq_iff_iff, Nat.testBit_one_eq_true_iff_self_eq_zero, decide_eq_true_iff]
          omega
        rw [if_neg hi, bit, Bool.eq_iff_iff]
        simp only [decide_eq_true_iff, Bool.and_eq_true]
        exact ⟨fun h => ⟨by omega, h ▸ hf⟩, fun h => by omega⟩

theorem cfgCoreWord_testBit (s : State) (d i : Nat) :
    (cfgCoreWord s d).testBit i = (decide (i < 96) && coreActive s (d * 128 + i)) :=
  testBit_sum_pow (fun i => coreActive s (d * 128 + i)) 96 i

theorem cfgReads_readCfg (s : State) (n : Nat) : CfgReads s n (readCfg s n) := by
  refine ⟨fun d hd => ⟨fun e i hi => ?_, fun e i hi => ?_, fun e => ?_, fun k hk e => ?_⟩, fun i hi e => ?_, fun i hi e => ?_⟩
  · have h1 : n < 0x108 := by omega
    have h2 : n % 2 = 0 := by omega
    have h3 : (n - 0x100) / 2 = d := by omega
    have h4 : i < 96 := by omega
    simp only [readCfg, if_pos h1, if_pos h2, h3]
    rw [BitVec.getLsbD_ofNat, Nat.testBit_mod_two_pow, cfgCoreWord_testBit]
    simp only [hi, h4, decide_true, Bool.true_and]
  · have h1 : n < 0x108 := by omega
    have h2 : ¬ n % 2 = 0 := by omega
    have h3 : (n - 0x100) / 2 = d := by omega
    have h4 : 64 + i < 96 ↔ i < 32 := by omega
    simp only [readCfg, if_pos h1, if_neg h2, h3]
    rw [BitVec.getLsbD_ofNat, Nat.testBit_div_two_pow, cfgCoreWord_testBit]
    simp only [hi, h4, decide_true, Bool.true_and, Nat.add_comm i, Nat.add_assoc]
  · have h1 : ¬ n < 0x108 := by omega
    have h2 : n < 0x10C := by omega
    have h3 : n - 0x108 = d := by omega
    simp only [readCfg, if_neg h1, if_pos h2, h3]
  · have h1 : ¬ n < 0x108 := by omega
    have h2 : ¬ n < 0x10C := by omega
    have h3 : ¬ n < 0x11C := by omega
    have h4 : ¬ n < 0x128 := by omega
    have h5 : n - 0x400 = d * 128 + k := by omega
    have h6 : (n - 0x400) / 128 * 96 + (n - 0x400) % 128 = 96 * d + k := by omega
    simp only [readCfg, if_neg h1, if_neg h2, if_neg h3, if_neg h4, h6]
    rw [h5]
  · have h1 : ¬ n < 0x108 := by omega
    have h2 : ¬ n < 0x10C := by omega
    have h3 : n < 0x11C := by omega
    have h4 : n - 0x110 = i := by omega
    simp only [readCfg, if_neg h1, if_neg h2, if_pos h3, h4]
  · have h1 : ¬ n < 0x108 := by omega
    have h2 : ¬ n < 0x10C := by omega
    have h3 : ¬ n < 0x11C := by omega
    have h4 : n < 0x128 := by omega
    have h5 : n - 0x120 = i := by omega
    simp only [readCfg, if_neg h1, if_neg h2, if_neg h3, if_pos h4, h5]

/-- A number below those of the configuration registers. -/
theorem cfgReads_of_lt {s : State} {n : Nat} (h : n < 0x100) (x : DWord) : CfgReads s n x :=
  ⟨fun d hd => ⟨fun e => by omega, fun e => by omega, fun e => by omega, fun k hk e => by omega⟩, fun i hi e => by omega,
    fun i hi e => by omega⟩

/-! ### Reads of a fragment -/

theorem readFrag_started (s : State) (c d : Cx) (w : Bool) (n : Nat) : readFrag (started s c w) d n = readFrag s d n := rfl

theorem fixedAt_started (s : State) (c : Cx) (w : Bool) (x : Ctx) (pa : Nat) : fixedAt (started s c w) x pa = fixedAt s x pa := rfl

theorem ctxWord_eq (c : Ctx) : ctxWord c = (c.asid.setWidth 64 : DWord) + (c.key.setWidth 64) <<< 16 := by
  have h1 := c.asid.isLt
  have h2 := c.key.isLt
  apply BitVec.eq_of_toNat_eq
  simp only [ctxWord, BitVec.toNat_ofNat, BitVec.toNat_add, BitVec.toNat_setWidth, BitVec.toNat_shiftLeft, Nat.shiftLeft_eq]
  omega

theorem cfgReads_readFrag (s : State) (c : Cx) (n : Nat) : CfgReads s n (readFrag s c n) := by
  by_cases h : n < 0x100
  · exact cfgReads_of_lt h _
  · have e : readFrag s c n = readCfg s n := by
      unfold readFrag
      iterate 15 rw [if_neg (by omega)]
      exact if_neg h
    rw [e]
    exact cfgReads_readCfg s n

theorem readFrag_tq {n : Nat} (s : State) (c : Cx) (h1 : 0x40 ≤ n) (h2 : n ≤ 0x45) : readFrag s c n = readTq c.gr n := by
  unfold readFrag
  iterate 15 rw [if_neg (by omega)]
  exact if_pos (by omega)

theorem readTq_idle {gr : Group} (n : Nat) (h : gr.handler = none) : readTq gr n = 0 := by simp only [readTq, h]

theorem sharedRead_same {gr : Group} (free which f : Nat) (x : DWord) (h : gr.shared = []) : gr.sharedRead free which f x = x := by
  simp only [Group.sharedRead, h, List.filter_nil]

/-- What the registers of a fragment read, by their numbers (R112 to R119). -/
def fragValues (s : State) (c : Cx) : List (Nat × DWord) := [
  (1, BitVec.ofNat 64 c.gr.gid), (2, BitVec.ofNat 64 c.gr.grant), (3, BitVec.ofNat 64 (taskNumbers s c.gr.block).1),
  (4, BitVec.ofNat 64 (taskNumbers s c.gr.block).2), (5, BitVec.ofNat 64 (c.gr.place / 128)), (6, BitVec.ofNat 64 c.gr.place),
  (7, (c.gr.ctx.asid.setWidth 64 : DWord) + (c.gr.ctx.key.setWidth 64) <<< 16), (8, s.time), (9, c.gr.batch.setWidth 64),
  (0x10, ((threadsOf c.fr.mask c.gr.size).foldl (fun x th => x ||| tabGet 0 c.gr.fflags th) 0).setWidth 64),
  (0x11, c.gr.fmask.setWidth 64), (0x12, c.gr.tvec), (0x13, c.gr.prog.setWidth 64), (0x20, BitVec.ofNat 64 Config.stepId),
  (0x21, BitVec.ofNat 64 ((if c.gr.interlocked then 2 else 0) + ilckBit s c.gr.ctx))]

theorem readFrag_values {s : State} {c : Cx} (hs : c.gr.shared = []) : ∀ p ∈ fragValues s c, readFrag s c p.1 = p.2 := by
  have numbers : blockNumbers s c.gr.block = taskNumbers s c.gr.block := by
    unfold blockNumbers taskNumbers
    cases s.blocks[c.gr.block]? <;> rfl
  have shared (which : Nat) (x : DWord) : c.gr.sharedRead s.free which c.f x = x := sharedRead_same s.free which c.f x hs
  rw [fragValues, ← ctxWord_eq, ← numbers]
  simp only [List.forall_mem_cons]
  exact ⟨rfl, rfl, rfl, rfl, rfl, rfl, rfl, rfl, rfl, rfl, shared 0 _, shared 1 _, shared 2 _, rfl, rfl, List.forall_mem_nil _⟩

/-- What the TQ registers read in a handler: the head of the trap queue and the queue's length (R310). -/
def queueValues (e : TrapEntry) (l : List TrapEntry) : List (Nat × DWord) := [
  (0x40, BitVec.ofNat 64 (e.cause + e.slot * 2 ^ 16)), (0x41, e.ipc), (0x42, e.addr), (0x43, e.aux), (0x44, e.rpc.getD 0),
  (0x45, BitVec.ofNat 64 (l.length + 1))]

theorem readFrag_queue {s : State} {c : Cx} {hd : Handler} {e : TrapEntry} {l : List TrapEntry} (hh : c.gr.handler = some hd)
    (hq : c.gr.trapQ = e :: l) : ∀ p ∈ queueValues e l, readFrag s c p.1 = p.2 := by
  have tq : ∀ p ∈ queueValues e l, readTq c.gr p.1 = p.2 := by
    simp only [queueValues, List.forall_mem_cons, readTq, hh, hq]
    exact ⟨rfl, rfl, rfl, rfl, rfl, rfl, List.forall_mem_nil _⟩
  have range : ∀ p ∈ queueValues e l, 0x40 ≤ p.1 ∧ p.1 ≤ 0x45 := by simp [queueValues]
  intro p hp
  obtain ⟨h1, h2⟩ := range p hp
  rw [readFrag_tq s c h1 h2]
  exact tq p hp

/-! ### CSRR -/

/-- A fragment of the group that issues, changed: it keeps its place. -/
theorem frag?_modFrag {gr : Group} {f : Nat} {fr : Frag} {h : Frag → Frag} (e : gr.frag? f = some fr) (hid : ∀ x, (h x).id = x.id) :
    (gr.modFrag f h).frag? f = some (h fr) := by
  simp only [Group.frag?, Group.modFrag, List.find?_map] at e ⊢
  have same : ((fun x : Frag => x.id == f) ∘ fun x => if x.id == f then h x else x) = fun x => x.id == f := by
    funext x
    simp only [Function.comp_apply]
    split
    · rw [hid]
    · rfl
  rw [same, e, Option.map_some, if_pos (List.find?_some e)]

theorem frag?_startedGroup {s : State} {c : Cx} (h : Issues s c) (w : Bool) :
    (startedGroup s c w).frag? c.f = some { c.fr with wait := .run, since := clk s, passed := 0, urgent := false } :=
  frag?_modFrag (h := fun x => { x with wait := .run, since := clk s, passed := 0, urgent := false }) h.frag fun _ => rfl

theorem waits_park {t : State} {d : Cx} {gr : Group} {fr : Frag} {w : Wait} (hg : t.groups[d.g]? = some gr)
    (hf : gr.frag? d.f = some fr) (hpc : fr.pc = d.fr.pc) (hw : w.again = true) : Actor.waits (park t d w) (.frag d) := by
  refine ⟨gr.modFrag d.f (fun fr => { fr with wait := w, since := if d.fr.wait = .run then clk t else d.fr.since }), _, ?_,
    frag?_modFrag hf fun _ => rfl, hpc, hw⟩
  simp only [park, modFrag, modGroup_groups, List.getElem?_modify, hg, if_true, Option.map_eq_map, Option.map_some]

theorem waits_parkHome {s : State} {c : Cx} (h : Issues s c) (w : Bool) (dies : List Nat) :
    Actor.waits (parkHome (started s c w) (c.begun w) dies) (.frag (c.begun w)) :=
  waits_park (gr := startedGroup s c w) (by rw [Cx.begun_g, started_group h]) (by rw [Cx.begun_f, frag?_startedGroup h])
    (by rw [Cx.begun_fr]) rfl

theorem csrrFrag_illegal {s : State} {c : Cx} {o : CsrOp} (h : fragReadable o.csr.toNat = false) :
    csrrFrag o c s = raiseFrag s c 1 0 (wordOf (.csrr o)) (some c.fr.pc) := by
  simp only [csrrFrag, h, Bool.not_false, if_true]

theorem csrrFrag_offline {s : State} {c : Cx} {o : CsrOp} {d : Nat} (hn : o.csr.toNat = 0x21)
    (h : fixedAt s c.gr.ctx (ilckPa c.gr.ctx) = .offline d) : csrrFrag o c s = parkHome s c [d] := by
  have hr : fragReadable 0x21 = true := rfl
  simp [csrrFrag, hn, hr, ilckHome, h]

theorem csrrFrag_reads {s : State} {c : Cx} {o : CsrOp} (hr : fragReadable o.csr.toNat = true)
    (h : o.csr.toNat = 0x21 → ∀ d, fixedAt s c.gr.ctx (ilckPa c.gr.ctx) ≠ .offline d) :
    csrrFrag o c s = advance (putRegs s c [(.s o.s.toNat, readFrag s c o.csr.toNat)]) c 4 := by
  have home : ilckHome s c o.csr.toNat = [] := by
    unfold ilckHome
    split
    · rfl
    next hn =>
      split
      next d e => exact absurd e (h (by omega) d)
      · rfl
      · rfl
  simp only [csrrFrag, hr, home, Bool.not_true, List.isEmpty_nil, Bool.false_eq_true, if_false]

theorem exec_csrr {s : State} {c : Cx} {o : CsrOp} (h : Issues s c) (r : Ready s c (.csrr o) (csrInfo o.w)) :
    exec (.csrr o) s = .next (csrrFrag o (c.begun o.w) (started s c o.w)) :=
  issue_frag (x := csrInfo o.w) (onFrag := csrrFrag o) (onCtl := csrrCtl o) h r (by simp [csrInfo])

/-- A CSRR that reads: one uniform register is written. -/
theorem csrr_regStep {s : State} {c : Cx} {o : CsrOp} (h : Issues s c) (hr : fragReadable o.csr.toNat = true)
    (home : o.csr.toNat = 0x21 → ∀ d, fixedAt s (c.begun o.w).gr.ctx (ilckPa (c.begun o.w).gr.ctx) ≠ .offline d) :
    ∃ gr, RegStep s (c.begun o.w) (csrrFrag o (c.begun o.w) (started s c o.w)) [(.s o.s.toNat, readFrag s (c.begun o.w) o.csr.toNat)] []
      (c.fr.pc + 4) gr := by
  have step := regStep_plain h o.w [(.s o.s.toNat, readFrag s (c.begun o.w) o.csr.toNat)] (c.fr.pc + 4) (by simp [RegKey.real])
  rw [csrrFrag_reads hr (by simpa only [fixedAt_started] using home), readFrag_started]
  simp only [advance, Cx.begun_g, Cx.begun_f, Cx.begun_fr]
  exact step

/-! ### CSRW -/

@[simp] theorem started_begun (s : State) (c : Cx) (w v : Bool) : started s (c.begun w) v = started s c v := by cases w <;> rfl
@[simp] theorem fragsAt_begun (s : State) (c : Cx) (w : Bool) (pc : DWord) : fragsAt s (c.begun w) pc = fragsAt s c pc := by cases w <;> rfl
@[simp] theorem Cx.begun_inHandler (c : Cx) (w : Bool) : (c.begun w).gr.inHandler c.fr = c.gr.inHandler c.fr := by cases w <;> rfl
@[simp] theorem Cx.begun_frags (c : Cx) (w : Bool) : (c.begun w).gr.frags = c.gr.frags := by cases w <;> rfl
@[simp] theorem startedGroup_trapQ (s : State) (c : Cx) (w : Bool) : (startedGroup s c w).trapQ = c.gr.trapQ := by cases w <;> rfl

theorem threadsOf_nodup (m : Mask) (n : Nat) : (threadsOf m n).Nodup := List.nodup_range.filter _

theorem tabGet_foldl_put {α : Type} [DecidableEq α] (d : α) (f : α → α) (l : List Nat) (hl : l.Nodup) (t : Tab α) (i : Nat) :
    tabGet d (l.foldl (fun t j => tabPut d t j (f (tabGet d t j))) t) i = if i ∈ l then f (tabGet d t i) else tabGet d t i := by
  induction l generalizing t with
  | nil => simp
  | cons j l ih =>
    obtain ⟨hj, hl⟩ := List.nodup_cons.mp hl
    rw [List.foldl_cons, ih hl, tabGet_tabPut]
    by_cases h : i = j
    · subst h; simp [hj]
    · simp [h]

/-- A change of the issuing group that leaves its fragments as they are, and the pc moved on. -/
theorem becomes_changed {s : State} {c : Cx} (h : Issues s c) (w : Bool) {f : Group → Group}
    (hf : (f (startedGroup s c w)).frags = (startedGroup s c w).frags) :
    Becomes s (advance (modGroup (started s c w) c.g f) (c.begun w) 4) c.g
      { f (startedGroup s c w) with frags := fragsAt s c (c.fr.pc + 4) } := by
  refine ⟨?_, ?_⟩
  · rw [advance, Cx.begun_g]
    exact (groupOnly_started s c w).trans ((groupOnly_modGroup _ _ _).trans (groupOnly_modGroup _ _ _))
  · rw [← startedGroup_at s c w]
    simp [advance, modFrag, Group.modFrag, started_group h, hf]

theorem csrwFrag_illegal {s : State} {c : Cx} {i : Instr} {fn : CsrwFn} {o : CsrOp}
    (h : o.csr.toNat ∉ [0x10, 0x11, 0x12, 0x13, 0x44] ∨ (o.csr.toNat = 0x44 ∧ c.gr.inHandler c.fr = false)) :
    csrwFrag i fn o c s = raiseFrag s c 1 0 (wordOf i) (some c.fr.pc) := by
  refine if_pos ?_
  rcases h with h | ⟨h, hh⟩
  · have : fragWritable o.csr.toNat = false := by
      simp only [List.mem_cons, List.not_mem_nil, or_false] at h
      simp only [fragWritable, Bool.or_eq_false_iff, Bool.and_eq_false_iff, decide_eq_false_iff_not, beq_eq_false_iff_ne]
      omega
    simp [this]
  · simp [h, hh]

/-- A CSRW of a fragment that writes. -/
theorem csrwFrag_writes {s : State} {c : Cx} {i : Instr} {fn : CsrwFn} {o : CsrOp} {n : Nat} (h : Issues s c) (hn : o.csr.toNat = n)
    (hw : fragWritable n = true) (hh : n = 0x44 → (c.begun o.w).gr.inHandler (c.begun o.w).fr = true) :
    let d := c.begun o.w
    Becomes s (csrwFrag i fn o d (started s c o.w)) d.g
      { writeFrag fn d n (d.s s.free 0 o.s.toNat) (startedGroup s c o.w) with frags := fragsAt s d (d.fr.pc + 4) } := by
  intro d
  have ok : ¬ (!fragWritable o.csr.toNat || (o.csr.toNat == 0x44 && !d.gr.inHandler d.fr)) = true := by
    rw [hn, hw]
    by_cases h44 : n = 0x44
    · simp only [hh h44, Bool.not_true, Bool.and_false, Bool.or_self, Bool.false_eq_true, not_false_eq_true, d]
    · simp [h44]
  have hg : d.g = c.g := Cx.begun_g c o.w
  rw [csrwFrag, if_neg ok, hg, started_free, hn, fragsAt_begun, Cx.begun_fr]
  refine becomes_changed h o.w ?_
  unfold writeFrag
  split
  · rfl
  · split
    · rfl
    · split
      · rfl
      · split
        · rfl
        · split <;> rfl

/-- In a group of one fragment nothing is noted of a write to a shared register. -/
theorem noteShared_alone {s : State} {c : Cx} (h : Issues s c) (w : Bool) (k : Nat) (x : DWord) (hl : (c.begun w).gr.frags.length ≤ 1)
    (hs : (c.begun w).gr.shared = []) : ((startedGroup s c w).noteShared (c.begun w).f k x).shared = [] := by
  have alone : ∀ y ∈ c.gr.frags, y.id = c.f := by
    rw [Cx.begun_frags] at hl
    have mem := List.mem_of_find?_eq_some h.frag
    have hid : c.fr.id = c.f := by simpa using List.find?_some h.frag
    match hf : c.gr.frags, hl with
    | [], _ => simp
    | [z], _ =>
      rw [hf, List.mem_singleton] at mem
      simpa [← mem] using hid
  have others : (startedGroup s c w).frags.filter (fun y => y.id != (c.begun w).f) = [] := by
    rw [List.filter_eq_nil_iff, Cx.begun_f]
    intro y hy
    obtain ⟨z, hz, rfl⟩ := List.mem_map.mp hy
    have hid := alone z hz
    simp [hid]
  have shared : (startedGroup s c w).shared = [] := hs
  simp only [Group.noteShared, others, shared, List.filter_nil, List.map_nil, List.append_nil]

theorem writeFrag_fflags (fn : CsrwFn) (c : Cx) (x : DWord) (gr : Group) : writeFrag fn c 0x10 x gr = { gr with
    fflags := (threadsOf c.fr.mask gr.size).foldl (fun t i => tabPut 0 t i (csrApply fn (tabGet 0 t i) (x.setWidth 5))) gr.fflags } := rfl
theorem writeFrag_fmask (fn : CsrwFn) (c : Cx) (x : DWord) (gr : Group) : writeFrag fn c 0x11 x gr = { gr with
    fmask := csrApply fn gr.fmask (x.setWidth 5), shared := (gr.noteShared c.f 0 (gr.fmask.setWidth 64)).shared } := rfl
theorem writeFrag_tvec (fn : CsrwFn) (c : Cx) (x : DWord) (gr : Group) : writeFrag fn c 0x12 x gr = { gr with
    tvec := csrApply fn gr.tvec x, shared := (gr.noteShared c.f 1 gr.tvec).shared } := rfl
theorem writeFrag_prog (fn : CsrwFn) (c : Cx) (x : DWord) (gr : Group) : writeFrag fn c 0x13 x gr = { gr with
    prog := csrApply fn gr.prog (x.setWidth 8), shared := (gr.noteShared c.f 2 (gr.prog.setWidth 64)).shared } := rfl
theorem writeFrag_rpc (fn : CsrwFn) (c : Cx) (x : DWord) {gr : Group} {e : TrapEntry} {l : List TrapEntry} (h : gr.trapQ = e :: l) :
    writeFrag fn c 0x44 x gr = { gr with trapQ := { e with rpc := some (csrApply fn (e.rpc.getD 0) x) } :: l } := by
  simp only [writeFrag, Nat.reduceEqDiff, if_false, h]

section
variable {s : State} {c : Cx} {i : Instr} {fn : CsrwFn} {o : CsrOp}

theorem csrw_fflags (h : Issues s c) (hn : o.csr.toNat = 0x10) :
    let d := c.begun o.w
    ∃ fl, Becomes s (csrwFrag i fn o d (started s c o.w)) d.g { d.gr with frags := fragsAt s d (d.fr.pc + 4), fflags := fl } ∧
      ∀ th, tabGet 0 fl th = if th ∈ threadsOf d.fr.mask d.gr.size then
        csrApply fn (tabGet 0 d.gr.fflags th) ((d.s s.free 0 o.s.toNat).setWidth 5) else tabGet 0 d.gr.fflags th := by
  intro d
  have e := csrwFrag_writes (i := i) (fn := fn) h hn rfl nofun
  dsimp only at e
  rw [writeFrag_fflags] at e
  exact ⟨_, e, tabGet_foldl_put 0 (fun y => csrApply fn y ((d.s s.free 0 o.s.toNat).setWidth 5)) _ (threadsOf_nodup _ _) _⟩

theorem csrw_fmask (h : Issues s c) (hn : o.csr.toNat = 0x11) :
    let d := c.begun o.w
    ∃ sh, Becomes s (csrwFrag i fn o d (started s c o.w)) d.g { d.gr with
      frags := fragsAt s d (d.fr.pc + 4), fmask := csrApply fn d.gr.fmask ((d.s s.free 0 o.s.toNat).setWidth 5), shared := sh } := by
  intro d
  have e := csrwFrag_writes (i := i) (fn := fn) h hn rfl nofun
  dsimp only at e
  rw [writeFrag_fmask] at e
  exact ⟨_, e⟩

theorem csrw_tvec (h : Issues s c) (hn : o.csr.toNat = 0x12) :
    let d := c.begun o.w
    ∃ sh, Becomes s (csrwFrag i fn o d (started s c o.w)) d.g { d.gr with
        frags := fragsAt s d (d.fr.pc + 4), tvec := csrApply fn d.gr.tvec ((d.s s.free 0 o.s.toNat).setWidth 64), shared := sh } ∧
      (d.gr.frags.length ≤ 1 → d.gr.shared = [] → sh = []) := by
  intro d
  have e := csrwFrag_writes (i := i) (fn := fn) h hn rfl nofun
  dsimp only at e
  rw [writeFrag_tvec] at e
  rw [BitVec.setWidth_eq]
  exact ⟨_, e, noteShared_alone h o.w 1 _⟩

theorem csrw_prog (h : Issues s c) (hn : o.csr.toNat = 0x13) :
    let d := c.begun o.w
    ∃ sh, Becomes s (csrwFrag i fn o d (started s c o.w)) d.g { d.gr with
      frags := fragsAt s d (d.fr.pc + 4), prog := csrApply fn d.gr.prog ((d.s s.free 0 o.s.toNat).setWidth 8), shared := sh } := by
  intro d
  have e := csrwFrag_writes (i := i) (fn := fn) h hn rfl nofun
  dsimp only at e
  rw [writeFrag_prog] at e
  exact ⟨_, e⟩

theorem csrw_rpc {e : TrapEntry} {l : List TrapEntry} (h : Issues s c) (hn : o.csr.toNat = 0x44)
    (hh : (c.begun o.w).gr.inHandler (c.begun o.w).fr = true) (hq : (c.begun o.w).gr.trapQ = e :: l) :
    let d := c.begun o.w
    Becomes s (csrwFrag i fn o d (started s c o.w)) d.g { d.gr with
      frags := fragsAt s d (d.fr.pc + 4),
      trapQ := { e with rpc := some (csrApply fn (e.rpc.getD 0) ((d.s s.free 0 o.s.toNat).setWidth 64)) } :: l } := by
  intro d
  have b := csrwFrag_writes (i := i) (fn := fn) h hn rfl fun _ => hh
  dsimp only at b
  rw [writeFrag_rpc fn _ _ (gr := startedGroup s c o.w) hq] at b
  rw [BitVec.setWidth_eq]
  exact b

end

/-- CSRW, CSRW.set and CSRW.clr of a fragment, by the function of R124. -/
theorem csrwOp_frag {i : Instr} {fn : CsrwFn} {o : CsrOp} (he : ∀ s, exec i s = csrwOp i fn o s) : OnFrag i (csrInfo o.w) (fun s c t =>
    let x := c.s s.free 0 o.s.toNat
    let f (w : Nat) (old : BitVec w) : BitVec w := csrApply fn old (x.setWidth w)
    let fr := fragsAt s c (c.fr.pc + 4)
    let n := o.csr.toNat
    (n ∉ [0x10, 0x11, 0x12, 0x13, 0x44] ∨ (n = 0x44 ∧ c.gr.inHandler c.fr = false) →
      t = raiseFrag (started s c o.w) c 1 0 (wordOf i) (some c.fr.pc)) ∧
    (n = 0x10 → ∃ fl, Becomes s t c.g { c.gr with frags := fr, fflags := fl } ∧
      ∀ th, tabGet 0 fl th = if th ∈ threadsOf c.fr.mask c.gr.size then f 5 (tabGet 0 c.gr.fflags th) else tabGet 0 c.gr.fflags th) ∧
    (n = 0x11 → ∃ sh, Becomes s t c.g { c.gr with frags := fr, fmask := f 5 c.gr.fmask, shared := sh }) ∧
    (n = 0x12 → ∃ sh, Becomes s t c.g { c.gr with frags := fr, tvec := f 64 c.gr.tvec, shared := sh } ∧
      (c.gr.frags.length ≤ 1 → c.gr.shared = [] → sh = [])) ∧
    (n = 0x13 → ∃ sh, Becomes s t c.g { c.gr with frags := fr, prog := f 8 c.gr.prog, shared := sh }) ∧
    (∀ e l, n = 0x44 → c.gr.inHandler c.fr = true → c.gr.trapQ = e :: l →
      Becomes s t c.g { c.gr with frags := fr, trapQ := { e with rpc := some (f 64 (e.rpc.getD 0)) } :: l })) := by
  intro s c h r
  refine ⟨_, (he s).trans (issue_frag (x := csrInfo o.w) h r (by simp [csrInfo])), ?_⟩
  exact ⟨fun hn => (started_begun s c o.w o.w).symm ▸ csrwFrag_illegal hn, csrw_fflags h, csrw_fmask h, csrw_tvec h, csrw_prog h,
    fun _ _ hn hh hq => csrw_rpc h hn hh hq⟩

end Sys2Proof.Machine
end

section
/-! SUPPORT. Control registers of control cores (R118 to R122, R124, R25). -/

namespace Sys2Proof.Machine

/-! ### One control core changed -/

theorem CtlOnly.trans {s t u : State} {cc : Nat} (a : CtlOnly s t cc) (b : CtlOnly t u cc) : CtlOnly s u cc where
  rest := by rw [b.rest, a.rest]
  length := b.length.trans a.length
  others := fun j hj => (b.others j hj).trans (a.others j hj)

/-- A control core changed, and changed again. -/
theorem BecomesCtl.modCtl {s t : State} {cc : Nat} {d e : Ctl} (h : BecomesCtl s t cc d) (f : Ctl → Ctl) (he : f d = e) :
    BecomesCtl s (modCtl t cc f) cc e := by
  obtain ⟨only, ctl⟩ := h
  obtain ⟨only', ctl'⟩ := becomesCtl_modCtl ctl f he
  exact ⟨only.trans only', ctl'⟩

theorem BecomesCtl.advance {s t : State} {cc : Nat} {d : Ctl} (h : BecomesCtl s t cc d) (n : Nat) :
    BecomesCtl s (advanceCtl t cc n) cc { d with pc := d.pc + BitVec.ofNat 64 n } := h.modCtl _ rfl

/-! ### CSRR (R118, R120) -/

/-- What the registers of a control core read in either mode. -/
def ctlValues (s : State) (cc : Nat) (c : Ctl) : List (Nat × DWord) := [
  (5, BitVec.ofNat 64 (cc / 24)), (7, (c.ctx.asid.setWidth 64 : DWord) + (c.ctx.key.setWidth 64) <<< 16), (8, s.time),
  (0x20, BitVec.ofNat 64 Config.stepId), (0x820, BitVec.ofNat 64 (cc / 24 * 32 + cc % 24))]

/-- What the registers of privileged mode read (R120 to R122). -/
def ctlPrivValues (c : Ctl) : List (Nat × DWord) := [
  (0x800, BitVec.ofNat 64 (c.depth * 16 + (if c.ab then 8 else 0) + (if c.ie then 2 else 0) + (if c.pv then 1 else 0))),
  (0x801, c.karea), (0x802, c.ktbl), (0x803, c.kpend.setWidth 64), (0x804, c.kmask.setWidth 64), (0x810, c.kbind),
  (0x805, if c.depth = 0 then 0 else c.karea + BitVec.ofNat 64 (128 * (c.depth - 1)))]

theorem readCtl_values (s : State) (cc : Nat) (c : Ctl) : ∀ p ∈ ctlValues s cc c,
    ctlReadable p.1 = true ∧ ctlPrivate p.1 false = false ∧ p.1 ≠ 0x21 ∧ readCtl s cc c p.1 = p.2 := by
  rw [ctlValues, ← ctxWord_eq]
  simp only [List.forall_mem_cons]
  exact ⟨⟨rfl, rfl, by decide, rfl⟩, ⟨rfl, rfl, by decide, rfl⟩, ⟨rfl, rfl, by decide, rfl⟩, ⟨rfl, rfl, by decide, rfl⟩,
    ⟨rfl, rfl, by decide, rfl⟩, List.forall_mem_nil _⟩

theorem readCtl_privValues (s : State) (cc : Nat) (c : Ctl) : ∀ p ∈ ctlPrivValues c,
    ctlReadable p.1 = true ∧ p.1 ≠ 0x21 ∧ readCtl s cc c p.1 = p.2 := by
  simp only [ctlPrivValues, List.forall_mem_cons]
  exact ⟨⟨rfl, by decide, rfl⟩, ⟨rfl, by decide, rfl⟩, ⟨rfl, by decide, rfl⟩, ⟨rfl, by decide, rfl⟩, ⟨rfl, by decide, rfl⟩,
    ⟨rfl, by decide, rfl⟩, ⟨rfl, by decide, rfl⟩, List.forall_mem_nil _⟩

theorem readCtl_cfg {n : Nat} (s : State) (cc : Nat) (c : Ctl) (h : isCfg n = true) :
    ctlReadable n = true ∧ ctlPrivate n false = false ∧ n ≠ 0x21 ∧ readCtl s cc c n = readCfg s n := by
  have range : 0x100 ≤ n ∧ n ≤ 0x5FF := by
    simp only [isCfg, Bool.or_eq_true, Bool.and_eq_true, decide_eq_true_iff] at h
    omega
  refine ⟨by simp [ctlReadable, h], ?_, by omega, ?_⟩
  · simp only [ctlPrivate, Bool.false_and, Bool.or_false, Bool.or_eq_false_iff, Bool.and_eq_false_iff, decide_eq_false_iff_not,
      beq_eq_false_iff_ne]
    omega
  · unfold readCtl
    iterate 13 rw [if_neg (by omega)]

theorem csrrCtl_illegal {s : State} {cc : Nat} {c : Ctl} {o : CsrOp} (h : ctlReadable o.csr.toNat = false) :
    csrrCtl o cc c s = raiseCtl s cc 1 0 (wordOf (.csrr o)) := by
  simp only [csrrCtl, h, Bool.not_false, if_true]

theorem csrrCtl_user {s : State} {cc : Nat} {c : Ctl} {o : CsrOp}
    (h : o.csr.toNat ∈ [0x800, 0x801, 0x802, 0x803, 0x804, 0x805, 0x810]) (hpv : c.pv = false) : csrrCtl o cc c s = raiseCtl s cc 2 0 0 := by
  have needsPriv : ∀ n ∈ [0x800, 0x801, 0x802, 0x803, 0x804, 0x805, 0x810], ctlReadable n = true ∧ ctlPrivate n false = true := by decide
  obtain ⟨hr, hp⟩ := needsPriv _ h
  simp only [csrrCtl, hr, hp, hpv, Bool.not_true, Bool.not_false, Bool.and_self, Bool.false_eq_true, if_false, if_true]

theorem csrrCtl_reads {s : State} {cc : Nat} {c : Ctl} {o : CsrOp} {v : DWord} (hc : s.ctls[cc]? = some c) (hr : ctlReadable o.csr.toNat = true)
    (hp : ctlPrivate o.csr.toNat false = false ∨ c.pv = true) (hn : o.csr.toNat ≠ 0x21) (hv : readCtl s cc c o.csr.toNat = v) :
    BecomesCtl s (csrrCtl o cc c s) cc { c.setS o.s.toNat v with pc := c.pc + 4 } := by
  subst hv
  have allowed : (ctlPrivate o.csr.toNat false && !c.pv) = false := by
    rcases hp with hp | hp <;> simp [hp]
  simp only [csrrCtl, hr, allowed, if_neg hn, Bool.not_true, Bool.false_eq_true, if_false]
  exact (becomesCtl_modCtl hc _ rfl).advance 4

theorem csrrCtl_ilck {s : State} {cc key : Nat} {c : Ctl} {o : CsrOp} (hc : s.ctls[cc]? = some c) (hn : o.csr.toNat = 0x21)
    (hk : ilckAt s c = .at key) :
    BecomesCtl s (csrrCtl o cc c s) cc { c.setS o.s.toNat (BitVec.ofNat 64 (2 + ilckBit s c.ctx)) with pc := c.pc + 4, wait := .run } := by
  have hr : ctlReadable 0x21 = true := rfl
  have hp : ctlPrivate 0x21 false = false := rfl
  simp only [csrrCtl, hn, hr, hp, hk, atFixed, Bool.not_true, Bool.false_and, Bool.false_eq_true, if_false, if_true]
  exact ((becomesCtl_modCtl (d := { c with wait := .run }) hc _ rfl).modCtl _ rfl).advance 4

theorem exec_csrr_ctl {s : State} {cc : Nat} {c : Ctl} {o : CsrOp} (h : IssuesCtl s cc c) (hw : (Instr.csrr o).wf = true) :
    exec (.csrr o) s = .next (csrrCtl o cc c s) :=
  issue_ctl (x := csrInfo o.w) (onFrag := csrrFrag o) (onCtl := csrrCtl o) h hw (by simp [csrInfo]) (by simp [csrInfo])

/-! ### What a write makes of a register (R120, R121, R122, R124) -/

/-- What a write function makes of one bit. -/
def csrBit (fn : CsrwFn) (old new : Bool) : Bool :=
  match fn with
  | .write => new
  | .set => old || new
  | .clr => old && !new

/-- KSTATE.AB after a write: CSRW.clr alone clears it. -/
def csrAb (fn : CsrwFn) (old new : Bool) : Bool :=
  match fn with
  | .clr => old && !new
  | .write | .set => old || new

theorem csrApply_ofBool (fn : CsrwFn) (a b : Bool) : (csrApply fn (BitVec.ofBool a) (BitVec.ofBool b)).getLsbD 0 = csrBit fn a b := by
  cases fn <;> cases a <;> cases b <;> rfl

section
variable {s : State} {cc : Nat} {c : Ctl} (h : s.ctls[cc]? = some c) (fn : CsrwFn) (v : DWord)
include h

theorem writeKbind_busy (hb : (tabGet { presence := 0, busy := false } s.asids (v.toNat % 2 ^ 16)).busy = true) :
    BecomesCtl s (writeKbind s cc v) cc { c with ab := true } := by
  rw [writeKbind, if_pos hb]
  exact becomesCtl_modCtl h _ rfl

theorem writeKbind_idle (hb : (tabGet { presence := 0, busy := false } s.asids (v.toNat % 2 ^ 16)).busy = false) :
    BecomesCtl s (writeKbind s cc v) cc { c with kbind := v &&& 0x00FFFFFFC3FFFFFF, bound := true } := by
  rw [writeKbind, if_neg (by rw [hb]; exact Bool.false_ne_true)]
  exact becomesCtl_modCtl h _ rfl

theorem writeKpend_becomes : BecomesCtl s (writeKpend s cc fn v) cc { c with kpend := csrApply fn c.kpend (v.setWidth 8) &&& 0xFE } :=
  becomesCtl_modCtl h _ rfl

theorem writePlain_karea : BecomesCtl s (writePlain s cc 0x801 fn v) cc { c with karea := csrApply fn c.karea (v.setWidth 64) } := by
  rw [BitVec.setWidth_eq]
  exact becomesCtl_modCtl h _ rfl

theorem writePlain_ktbl : BecomesCtl s (writePlain s cc 0x802 fn v) cc { c with ktbl := csrApply fn c.ktbl (v.setWidth 64) } := by
  rw [BitVec.setWidth_eq]
  exact becomesCtl_modCtl h _ rfl

theorem writePlain_kmask :
    BecomesCtl s (writePlain s cc 0x804 fn v) cc { c with kmask := csrApply fn c.kmask (v.setWidth 8) &&& 0xFE } :=
  becomesCtl_modCtl h _ rfl

theorem writePlain_kstate : BecomesCtl s (writePlain s cc 0x800 fn v) cc { c with
    ab := csrAb fn c.ab (v.getLsbD 3), ie := csrBit fn c.ie (v.getLsbD 1), pv := csrBit fn c.pv (v.getLsbD 0) } := by
  simp only [← csrApply_ofBool]
  cases fn <;> exact becomesCtl_modCtl h _ rfl

end

/-! ### The ilck byte (R119) -/

/-- Registration, copies, monitors and the host's interrupt words alone change. -/
def HomeOnly (s t : State) : Prop := ∃ r c m b, t = { s with reg := r, copies := c, monitors := m, bars := b }

theorem HomeOnly.refl (s : State) : HomeOnly s s := ⟨_, _, _, _, rfl⟩
theorem HomeOnly.trans {s t u : State} : HomeOnly s t → HomeOnly t u → HomeOnly s u := by
  rintro ⟨_, _, _, _, rfl⟩ ⟨_, _, _, _, rfl⟩
  exact ⟨_, _, _, _, rfl⟩

theorem releaseAgent_homeOnly (s : State) (a : Agent) : HomeOnly s (releaseAgent s a) := by
  unfold releaseAgent
  dsimp only
  split
  · exact .refl s
  · exact ⟨_, _, _, _, rfl⟩

theorem msiRead_homeOnly (s : State) (iod : Nat) : HomeOnly s (msiRead s iod) := by
  fun_cases msiRead s iod
  · exact .refl s
  · exact .refl s
  · exact ⟨_, _, _, _, rfl⟩

theorem release_homeOnly (s : State) (cc : Nat) : HomeOnly s (release s (.control cc) .pkg) :=
  ((releaseAgent_homeOnly s _).trans (msiRead_homeOnly _ 0)).trans (msiRead_homeOnly _ 1)

theorem regAtomic_homeOnly (s : State) (a : Agent) (near : Bool) (w : Nat) (va : DWord) : HomeOnly s (regAtomic s a near w va) := by
  fun_cases regAtomic s a near w va
  case case4 => exact ⟨_, _, _, _, rfl⟩
  case case5 => exact ⟨_, _, _, _, rfl⟩
  all_goals exact .refl s

theorem farRegs_homeOnly (s : State) (a : Agent) (n k : Nat) : HomeOnly s (farRegs s a n k) := by
  induction k generalizing s n with
  | zero => exact .refl s
  | succ k ih => exact (regAtomic_homeOnly s a false n 0).trans (ih _ _)

theorem dropAt_homeOnly (s : State) (site : Site) (w : Nat) : HomeOnly s (dropAt s site w) := by
  unfold dropAt
  split
  · exact .refl s
  · exact ⟨_, _, _, _, rfl⟩

theorem foldl_dropAt_homeOnly (s : State) (site : Site) (n : Nat) (l : List Nat) :
    HomeOnly s (l.foldl (fun s i => dropAt s site (n + i)) s) := by
  induction l generalizing s with
  | nil => exact .refl s
  | cons i l ih => exact (dropAt_homeOnly s site (n + i)).trans (ih _)

/-- A far store of one byte that meets no race. -/
theorem farStore_byte {s : State} {a : Agent} (site : Site) (key pa : Nat) (b : Byte) (h : farRace s a (pa / 4) 1 = none) :
    ∃ t, HomeOnly s t ∧ farStore s a site key pa [b] = (none, writeBytes t key pa [b]) := by
  have one : wordCount (pa % 4 + [b].length) = 1 := by simp only [wordCount, List.length_singleton]; omega
  refine ⟨_, (farRegs_homeOnly s a (pa / 4) 1).trans (foldl_dropAt_homeOnly _ site (pa / 4) (List.range 1)), ?_⟩
  simp only [farStore, one, h]

/-- The ilck byte after a write of bit 0. -/
def ilckByte (fn : CsrwFn) (v : DWord) (old : Byte) : Byte := (old &&& 0xFE) ||| (csrApply fn (old &&& 1) (v.setWidth 8) &&& 1)

theorem ilckByte_eq (fn : CsrwFn) (v : DWord) (old : Byte) :
    (old &&& 0xFE) ||| csrApply fn (old &&& 1) ((v &&& 1).setWidth 8) = ilckByte fn v old := by
  have bit : (v &&& 1).setWidth 8 = v.setWidth 8 &&& 1 := by rw [BitVec.setWidth_and]; rfl
  rw [ilckByte, bit]
  congr 1
  generalize v.setWidth 8 = x
  cases fn with
  | write => rfl
  | set =>
    have bits : ∀ a b m : Bool, (a && m || b && m) = ((a && m || b) && m) := by decide
    ext i hi
    simp only [csrApply, BitVec.getElem_or, BitVec.getElem_and, bits]
  | clr =>
    have bits : ∀ a b m : Bool, (a && m && !(b && m)) = (a && m && !b && m) := by decide
    ext i hi
    simp only [csrApply, BitVec.getElem_not, BitVec.getElem_and, bits]

/-- The store of the ilck byte of a control core's context. -/
def ilckStore (c : Ctl) (key : Nat) (b : Byte) : List (Acc × Nat × Nat) := [({ tid := 0, va := 0, n := 1, data := [b] }, ilckPa c.ctx, key)]

/-- A state with what a far store in release form may change taken from another state. -/
def farPart (s t : State) : State :=
  { s with copies := t.copies, mem := t.mem, tags := t.tags, reg := t.reg, monitors := t.monitors, hostLines := t.hostLines, bars := t.bars }

/-- A write of the ilck byte that meets no race. -/
theorem writeIlck_stores {s : State} {cc key : Nat} {c : Ctl} (fn : CsrwFn) (v : DWord)
    (h : farRace (release s (.control cc) .pkg) (.control cc) (ilckPa c.ctx / 4) 1 = none) :
    let t := writeIlck s cc c key fn v
    Stored s t (ilckStore c key (ilckByte fn v (readByte s key (ilckPa c.ctx)))) ∧
      t = farPart s t := by
  have released := release_homeOnly s cc
  have same : readByte (release s (.control cc) .pkg) key (ilckPa c.ctx) = readByte s key (ilckPa c.ctx) := by
    obtain ⟨r, cp, m, b, e⟩ := released
    rw [e]
    exact readByte_congr rfl rfl key _
  obtain ⟨u, hu, e⟩ := farStore_byte (.ctl cc) key (ilckPa c.ctx) (ilckByte fn v (readByte s key (ilckPa c.ctx))) h
  obtain ⟨r, cp, m, b, rfl⟩ := released.trans hu
  simp only [writeIlck, same, ilckByte_eq, e, Option.map_none, queueRaceCtl]
  refine ⟨Stored.of_start (s := s) (stored_writeBytes _ { tid := 0, va := 0, n := 1, data := _ } key (ilckPa c.ctx) rfl) rfl rfl, ?_⟩
  obtain ⟨_, _, _, _, e'⟩ := writeBytes_bytesOnly { s with reg := r, copies := cp, monitors := m, bars := b } key (ilckPa c.ctx)
    [ilckByte fn v (readByte s key (ilckPa c.ctx))]
  rw [e']
  rfl

theorem releaseAgent_modCtl (s : State) (cc : Nat) (f : Ctl → Ctl) (a : Agent) :
    releaseAgent (modCtl s cc f) a = modCtl (releaseAgent s a) cc f := by
  unfold releaseAgent
  dsimp only [modCtl_reg]
  split <;> rfl

theorem msiRead_modCtl (s : State) (cc : Nat) (f : Ctl → Ctl) (iod : Nat) : msiRead (modCtl s cc f) iod = modCtl (msiRead s iod) cc f := by
  unfold msiRead
  dsimp only [modCtl_bars, modCtl_mem]
  split
  · rfl
  · split <;> rfl

theorem release_modCtl (s : State) (cc k : Nat) (f : Ctl → Ctl) :
    release (modCtl s cc f) (.control k) .pkg = modCtl (release s (.control k) .pkg) cc f := by
  simp only [release, releaseAgent_modCtl, msiRead_modCtl]
  rfl

section
variable {s : State} {cc : Nat} {c : Ctl} {fn : CsrwFn} {v : DWord} (h : s.ctls[cc]? = some c)
include h

theorem execIlckWrite_stores {key : Nat} (hrel : ctlMayRelease s cc = true) (hk : ilckAt s c = .at key)
    (hrace : farRace (release s (.control cc) .pkg) (.control cc) (ilckPa c.ctx / 4) 1 = none) :
    ∃ t, execIlckWrite cc fn v s = .next t ∧
      Stored s t (ilckStore c key (ilckByte fn v (readByte s key (ilckPa c.ctx)))) ∧
      t = farPart s t := by
  obtain ⟨stored, e⟩ := writeIlck_stores (key := key) fn v hrace
  exact ⟨writeIlck s cc c key fn v, by simp only [execIlckWrite, h, hk, hrel, if_true], stored, e⟩

theorem execIlckWrite_stays (hno : ctlMayRelease s cc = false ∨ ∀ key, ilckAt s c ≠ .at key) : execIlckWrite cc fn v s = .next s := by
  simp only [execIlckWrite, h]
  split
  next key hk =>
    rcases hno with hno | hno
    · rw [hno, if_neg Bool.false_ne_true]
    · exact absurd hk (hno key)
  · rfl
  · rfl

end

/-! ### CSRW -/

theorem csrwCtl_illegal {s : State} {cc : Nat} {c : Ctl} {i : Instr} {fn : CsrwFn} {o : CsrOp}
    (h : o.csr.toNat ∉ [0x21, 0x800, 0x801, 0x802, 0x803, 0x804, 0x810]) : csrwCtl i fn o cc c s = raiseCtl s cc 1 0 (wordOf i) := by
  refine if_pos ?_
  simp only [List.mem_cons, List.not_mem_nil, or_false] at h
  simp only [ctlWritable, Bool.not_eq_true', Bool.or_eq_false_iff, Bool.and_eq_false_iff, decide_eq_false_iff_not, beq_eq_false_iff_ne]
  omega

theorem csrwCtl_user {s : State} {cc : Nat} {c : Ctl} {i : Instr} {fn : CsrwFn} {o : CsrOp}
    (h : o.csr.toNat ∈ [0x21, 0x800, 0x801, 0x802, 0x803, 0x804, 0x810]) (hpv : c.pv = false) : csrwCtl i fn o cc c s = raiseCtl s cc 2 0 0 := by
  have writable : ∀ n ∈ [0x21, 0x800, 0x801, 0x802, 0x803, 0x804, 0x810], ctlWritable n = true := by decide
  simp only [csrwCtl, writable _ h, hpv, Bool.not_true, Bool.not_false, Bool.false_eq_true, if_false, if_true]

section
variable {s : State} {cc : Nat} {c : Ctl} {i : Instr} {fn : CsrwFn} {o : CsrOp}

theorem csrwCtl_plain {n : Nat} (hn : o.csr.toNat = n) (hm : n ∈ [0x800, 0x801, 0x802, 0x804]) (hpv : c.pv = true) :
    csrwCtl i fn o cc c s = advanceCtl (writePlain s cc n fn (c.sreg o.s.toNat)) cc 4 := by
  have plain : ∀ n ∈ [0x800, 0x801, 0x802, 0x804], ctlWritable n = true ∧ n ≠ 0x21 ∧ n ≠ 0x803 ∧ n ≠ 0x810 := by decide
  obtain ⟨hw, h1, h2, h3⟩ := plain n hm
  simp only [csrwCtl, hn, hw, hpv, if_neg h1, if_neg h2, if_neg h3, Bool.not_true, Bool.false_eq_true, if_false]

theorem csrwCtl_kpend (hn : o.csr.toNat = 0x803) (hpv : c.pv = true) :
    csrwCtl i fn o cc c s = advanceCtl (writeKpend s cc fn (c.sreg o.s.toNat)) cc 4 := by
  have hw : ctlWritable 0x803 = true := rfl
  simp only [csrwCtl, hn, hw, hpv, Bool.not_true, Bool.false_eq_true, if_false, if_true, Nat.reduceEqDiff]

theorem csrwCtl_kbind (hn : o.csr.toNat = 0x810) (hpv : c.pv = true) :
    csrwCtl i fn o cc c s = advanceCtl (writeKbind s cc (csrApply fn c.kbind ((c.sreg o.s.toNat).setWidth 64))) cc 4 := by
  have hw : ctlWritable 0x810 = true := rfl
  rw [BitVec.setWidth_eq]
  simp only [csrwCtl, hn, hw, hpv, Bool.not_true, Bool.false_eq_true, if_false, if_true, Nat.reduceEqDiff]

theorem csrwCtl_ilck {key : Nat} (hc : s.ctls[cc]? = some c) (hn : o.csr.toNat = 0x21) (hpv : c.pv = true)
    (hrel : ctlMayRelease s cc = true) (hk : ilckAt s c = .at key)
    (hrace : farRace (release s (.control cc) .pkg) (.control cc) (ilckPa c.ctx / 4) 1 = none) :
    let t := csrwCtl i fn o cc c s
    Stored s t (ilckStore c key (ilckByte fn (c.sreg o.s.toNat) (readByte s key (ilckPa c.ctx)))) ∧
      BecomesCtl (farPart s t)
        t cc { c with pc := c.pc + 4, wait := .run } := by
  have hw : ctlWritable 0x21 = true := rfl
  obtain ⟨stored, e⟩ := writeIlck_stores (s := parkCtl s cc .run) (cc := cc) (key := key) (c := c) fn (c.sreg o.s.toNat)
    (by rw [parkCtl, release_modCtl]; exact hrace)
  have effect : csrwCtl i fn o cc c s = advanceCtl (writeIlck (parkCtl s cc .run) cc c key fn (c.sreg o.s.toNat)) cc 4 := by
    simp only [csrwCtl, hn, hw, hpv, hrel, hk, atFixed, Bool.not_true, Bool.false_eq_true, if_false, if_true]
  rw [effect]
  refine ⟨(Stored.of_start (s := s) stored rfl rfl).of_end rfl rfl, ?_⟩
  generalize writeIlck (parkCtl s cc .run) cc c key fn (c.sreg o.s.toNat) = t at e
  rw [e]
  exact BecomesCtl.advance (d := { c with wait := .run }) (becomesCtl_modCtl (s := farPart s t) hc
    (fun c => { c with wait := .run }) rfl) 4

end

/-- CSRW, CSRW.set and CSRW.clr of a control core, by the function of R124. -/
theorem csrwOp_ctl {i : Instr} {fn : CsrwFn} {o : CsrOp} (he : ∀ s, exec i s = csrwOp i fn o s) : OnCtl i (fun s cc c t =>
    let n := o.csr.toNat
    let x := c.sreg o.s.toNat
    let f (w : Nat) (old : BitVec w) : BitVec w := csrApply fn old (x.setWidth w)
    let d : Ctl := { c with pc := c.pc + 4 }
    let busy (v : DWord) : Bool := (tabGet { presence := 0, busy := false } s.asids (v.toNat % 2 ^ 16)).busy
    (n ∉ [0x21, 0x800, 0x801, 0x802, 0x803, 0x804, 0x810] → t = raiseCtl s cc 1 0 (wordOf i)) ∧
    (n ∈ [0x21, 0x800, 0x801, 0x802, 0x803, 0x804, 0x810] → c.pv = false → t = raiseCtl s cc 2 0 0) ∧
    (n = 0x801 → c.pv = true → BecomesCtl s t cc { d with karea := f 64 c.karea }) ∧
    (n = 0x802 → c.pv = true → BecomesCtl s t cc { d with ktbl := f 64 c.ktbl }) ∧
    (n = 0x803 → c.pv = true → BecomesCtl s t cc { d with kpend := f 8 c.kpend &&& 0xFE }) ∧
    (n = 0x804 → c.pv = true → BecomesCtl s t cc { d with kmask := f 8 c.kmask &&& 0xFE }) ∧
    (n = 0x810 → c.pv = true → busy (f 64 c.kbind) = true → BecomesCtl s t cc { d with ab := true }) ∧
    (n = 0x810 → c.pv = true → busy (f 64 c.kbind) = false →
      BecomesCtl s t cc { d with kbind := f 64 c.kbind &&& 0x00FFFFFFC3FFFFFF, bound := true }) ∧
    (n = 0x800 → c.pv = true → BecomesCtl s t cc { d with
      ab := csrAb fn c.ab (x.getLsbD 3), ie := csrBit fn c.ie (x.getLsbD 1), pv := csrBit fn true (x.getLsbD 0) }) ∧
    (∀ key, n = 0x21 → c.pv = true → ctlMayRelease s cc = true → ilckAt s c = .at key →
      farRace (release s (.control cc) .pkg) (.control cc) (ilckPa c.ctx / 4) 1 = none →
      Stored s t (ilckStore c key (ilckByte fn x (readByte s key (ilckPa c.ctx)))) ∧
      ∃ e, BecomesCtl (farPart s t)
        t cc { d with wait := e } ∧ (e = c.wait ∨ e = .run))) := by
  intro s cc c h hwf
  have hc := h.ctl
  refine ⟨_, (he s).trans (issue_ctl (x := csrInfo o.w) h hwf (by simp [csrInfo]) (by simp [csrInfo])), csrwCtl_illegal, csrwCtl_user,
    fun hn hpv => ?_, fun hn hpv => ?_, fun hn hpv => ?_, fun hn hpv => ?_, fun hn hpv hb => ?_, fun hn hpv hb => ?_, fun hn hpv => ?_,
    fun key hn hpv hrel hk hrace => ?_⟩
  · exact csrwCtl_plain hn (by decide) hpv ▸ (writePlain_karea hc fn _).advance 4
  · exact csrwCtl_plain hn (by decide) hpv ▸ (writePlain_ktbl hc fn _).advance 4
  · exact csrwCtl_kpend hn hpv ▸ (writeKpend_becomes hc fn _).advance 4
  · exact csrwCtl_plain hn (by decide) hpv ▸ (writePlain_kmask hc fn _).advance 4
  · exact csrwCtl_kbind hn hpv ▸ (writeKbind_busy hc _ hb).advance 4
  · exact csrwCtl_kbind hn hpv ▸ (writeKbind_idle hc _ hb).advance 4
  · have b := (writePlain_kstate hc fn (c.sreg o.s.toNat)).advance 4
    rw [hpv] at b
    exact csrwCtl_plain hn (by decide) hpv ▸ b
  · obtain ⟨stored, b⟩ := csrwCtl_ilck (i := i) (fn := fn) hc hn hpv hrel hk hrace
    exact ⟨stored, .run, b, .inr rfl⟩

end Sys2Proof.Machine
end

section
/-! Registers of control and control cores (R112 to R125, R310, R312, R379). -/

open Sys2Proof.Machine in
/-- Settles O59: what every operation does to the control cores, collected for every instruction, event and turn. -/
theorem controlCoresStayLegal : Obligations.ControlCoresStayLegal := by
  unfold Obligations.ControlCoresStayLegal
  intro legal s t hs h
  exact step_keeps s hs t h

open Sys2Proof.Machine in
/-- Settles O39: the record of a trap is what `accs8` cuts, so that `ctlTrap` is `Enters` or a stop; SVC and an interrupt are such a trap,
and ERET reads the record back. -/
theorem controlCoreTraps : Obligations.ControlCoreTraps := by
  unfold Obligations.ControlCoreTraps
  refine ⟨⟨fun s cc cause source c addr aux rpc h => ⟨ctlTrap_enters _ _ _ _ _ h, fun hfull k d hd => ctlTrap_full _ _ _ _ _ h hfull hd⟩,
    fun s cc cause c addr aux h => raiseCtl_eq _ _ _ h, svc_step, halt_step, fun s cc c h => ⟨execInterrupt_stays h,
      fun i hrun hen hie hdef hi hlow => execInterrupt_enters h hrun hen hie hdef hi hlow⟩⟩, eret_step⟩

open Sys2Proof.Machine in
/-- Settles O37: a CSRR is a step that writes one register with `readFrag`, a CSRW changes the group by `writeFrag`. -/
theorem controlRegisters : Obligations.ControlRegisters := by
  unfold Obligations.ControlRegisters
  refine ⟨fun o => ⟨fun s c h r => ⟨_, exec_csrr h r, ?illegal, ?offline, ?reads⟩, fun o s c h r => ⟨_, exec_csrr h r, ?queue⟩⟩, ?writes⟩
  case illegal => exact fun hr => (started_begun s c o.w o.w).symm ▸ csrrFrag_illegal hr
  case offline => exact fun d hn hd => csrrFrag_offline (s := started s c o.w) (c := c.begun o.w) hn hd ▸ waits_parkHome h o.w [d]
  case reads =>
    intro hr home hs
    obtain ⟨gr, step⟩ := csrr_regStep h hr home
    exact ⟨gr, _, by simpa [csrInfo] using step, cfgReads_readFrag s _ _,
      fun hh h1 h2 => (readFrag_tq s _ h1 h2).trans (readTq_idle _ hh),
      fun n v hn hv => hn ▸ readFrag_values hs (n, v) hv⟩
  case queue =>
    intro hd e l hh hq
    have values (n v) (hn : o.csr.toNat = n) (hv) : readFrag s (c.begun o.w) o.csr.toNat = v :=
      hn ▸ readFrag_queue hh hq (n, v) hv
    by_cases hr : fragReadable o.csr.toNat = true ∧ o.csr.toNat ≠ 0x21
    · obtain ⟨gr, step⟩ := csrr_regStep h hr.1 fun hn => absurd hn hr.2
      exact ⟨gr, _, fun _ _ => by simpa [csrInfo] using step, values⟩
    · exact ⟨c.gr, _, fun h1 h2 => absurd ⟨h1, h2⟩ hr, values⟩
  case writes =>
    intro mk fn hmk o
    simp only [List.mem_cons, Prod.mk.injEq, List.not_mem_nil, or_false] at hmk
    obtain ⟨rfl, rfl⟩ | ⟨rfl, rfl⟩ | ⟨rfl, rfl⟩ := hmk
    · exact csrwOp_frag (i := .csrw o) (fn := .write) fun _ => rfl
    · exact csrwOp_frag (i := .csrwSet o) (fn := .set) fun _ => rfl
    · exact csrwOp_frag (i := .csrwClr o) (fn := .clr) fun _ => rfl

open Sys2Proof.Machine in
/-- Settles O38: a CSRR of a control core reads `readCtl`; CSRW and the events write by the same functions, of which each has its lemma. -/
theorem controlCoreRegisters : Obligations.ControlCoreRegisters := by
  unfold Obligations.ControlCoreRegisters
  refine ⟨⟨fun o s cc c h hwf => ⟨_, exec_csrr_ctl h hwf, csrrCtl_illegal, csrrCtl_user, fun key hn hk => csrrCtl_ilck h.ctl hn hk,
    fun v hv => ?values, fun hn => ?config⟩, ?writes⟩, ?kbind, ?events⟩
  case values =>
    rcases hv with hv | ⟨hpv, hv⟩
    · obtain ⟨hr, hp, hn, hx⟩ := readCtl_values s cc c _ hv
      exact csrrCtl_reads h.ctl hr (.inl hp) hn hx
    · obtain ⟨hr, hn, hx⟩ := readCtl_privValues s cc c _ hv
      exact csrrCtl_reads h.ctl hr (.inr hpv) hn hx
  case config =>
    obtain ⟨hr, hp, hne, hx⟩ := readCtl_cfg s cc c hn
    exact ⟨_, cfgReads_readCfg s _, csrrCtl_reads h.ctl hr (.inl hp) hne hx⟩
  case writes =>
    intro mk fn hmk o
    simp only [List.mem_cons, Prod.mk.injEq, List.not_mem_nil, or_false] at hmk
    obtain ⟨rfl, rfl⟩ | ⟨rfl, rfl⟩ | ⟨rfl, rfl⟩ := hmk
    · exact csrwOp_ctl (i := .csrw o) (fn := .write) fun _ => rfl
    · exact csrwOp_ctl (i := .csrwSet o) (fn := .set) fun _ => rfl
    · exact csrwOp_ctl (i := .csrwClr o) (fn := .clr) fun _ => rfl
  case kbind => exact fun s cc c v h => ⟨_, rfl, writeKbind_busy h v, writeKbind_idle h v⟩
  case events =>
    intro s cc c fn v h
    cases fn
    all_goals exact ⟨⟨_, rfl, writeKpend_becomes h _ v⟩, ⟨_, rfl, writePlain_karea h _ v⟩, ⟨_, rfl, writePlain_ktbl h _ v⟩,
      ⟨_, rfl, writePlain_kmask h _ v⟩, ⟨_, rfl, writePlain_kstate h _ v⟩, fun key => execIlckWrite_stores h, execIlckWrite_stays h⟩

open Sys2Proof.Machine in
/-- Settles O60: every control core is `Ctl.reset`, and nothing else is there. -/
theorem resetState : Obligations.ResetState := by
  unfold Obligations.ResetState
  obtain ⟨hlen, hlegal⟩ := CtlsLegal.reset
  refine ⟨fun c hc => ?_, hlen, rfl, fun _ => rfl, rfl, rfl, rfl, rfl, rfl, rfl, hlegal⟩
  obtain rfl : c = Ctl.reset := List.eq_of_mem_replicate hc
  exact ⟨rfl, rfl, rfl, rfl, rfl, rfl⟩
end

section
/-! SUPPORT. The formats as ordered sets of magnitudes (R128): encodings without their sign count the magnitudes in order. -/

namespace Sys2Proof.Machine

/-! ### Sizes -/

theorem expMax_eq (t : FTy) : expMax t = 2 * fBias t + 1 := by cases t <;> rfl

theorem two_pow_width (t : FTy) : 2 ^ t.width = 2 * signWeight t := by cases t <;> rfl

theorem signWeight_eq (t : FTy) : signWeight t = 2 ^ fracBits t * (expMax t + 1) := by cases t <;> rfl

theorem two_pow_fracBits (t : FTy) : 2 ^ fracBits t = 2 * 2 ^ (fracBits t - 1) := by cases t <;> rfl

theorem two_pow_expBits (t : FTy) : 2 ^ expBits t = expMax t + 1 := by cases t <;> rfl

/-- The first encoding above the finite ones: that of the infinity. -/
def finiteEnd (t : FTy) : Nat := expMax t * 2 ^ fracBits t

theorem finiteEnd_lt (t : FTy) : finiteEnd t < signWeight t := by
  rw [finiteEnd, signWeight_eq, mul_comm]
  exact Nat.mul_lt_mul_of_pos_left (Nat.lt_succ_self _) (by positivity)

/-! ### Magnitudes -/

/-- The scale of an encoding without its sign: subnormal numbers have that of the smallest normal ones. -/
def scaleOf (t : FTy) (b : Nat) : Nat := b / 2 ^ fracBits t - 1

/-- The number that an encoding without its sign stands for, were the exponent unbounded. -/
def magnitude (t : FTy) (b : Nat) : ℚ :=
  (b - scaleOf t b * 2 ^ fracBits t : Nat) * (2 : ℚ) ^ ((scaleOf t b : Int) + (1 - fBias t - fracBits t))

/-- Within a scale, and up to the first number of the next one, magnitudes are multiples of one power of 2. -/
theorem magnitude_grid (t : FTy) {k q : Nat} (hk : k = 0 ∨ 2 ^ fracBits t ≤ q) (hq : q ≤ 2 * 2 ^ fracBits t) :
    magnitude t (k * 2 ^ fracBits t + q) = q * (2 : ℚ) ^ ((k : Int) + (1 - fBias t - fracBits t)) := by
  have pos : 0 < 2 ^ fracBits t := by positivity
  have scale : scaleOf t (k * 2 ^ fracBits t + q) = k + q / 2 ^ fracBits t - 1 := by
    rw [scaleOf, Nat.mul_comm k, Nat.mul_add_div pos]
  unfold magnitude
  rw [scale]
  generalize 2 ^ fracBits t = F at *
  obtain hlt | rfl := hq.lt_or_eq
  · have same : k + q / F - 1 = k := by
      obtain rfl | h := hk
      · have : q / F < 2 := Nat.div_lt_of_lt_mul (by omega)
        omega
      · have : q / F = 1 := Nat.div_eq_of_lt_le (by omega) (by omega)
        omega
    rw [same, Nat.add_sub_cancel_left]
  · have next : k + 2 * F / F - 1 = k + 1 := by rw [Nat.mul_div_cancel _ pos]; omega
    have rest : k * F + 2 * F - (k + 1) * F = F := by rw [Nat.add_mul]; omega
    rw [next, rest]
    push_cast
    rw [add_right_comm, zpow_add_one₀ two_ne_zero]
    ring

/-- Every encoding has a place in a scale. -/
theorem exists_grid (t : FTy) (b : Nat) :
    ∃ k q, b = k * 2 ^ fracBits t + q ∧ (k = 0 ∨ 2 ^ fracBits t ≤ q) ∧ q < 2 * 2 ^ fracBits t := by
  have pos : 0 < 2 ^ fracBits t := by positivity
  have split := Nat.div_add_mod' b (2 ^ fracBits t)
  have low := Nat.mod_lt b pos
  generalize 2 ^ fracBits t = F at *
  cases h : b / F with
  | zero => exact ⟨0, b, by omega, .inl rfl, by rw [h] at split; omega⟩
  | succ k => exact ⟨k, F + b % F, by rw [h, Nat.add_mul] at split; omega, .inr (by omega), by omega⟩

theorem magnitude_strictMono (t : FTy) : StrictMono (magnitude t) := by
  refine strictMono_nat_of_lt_succ fun b => ?_
  obtain ⟨k, q, rfl, hk, hq⟩ := exists_grid t b
  rw [add_assoc, magnitude_grid t hk hq.le, magnitude_grid t (by omega) (by omega)]
  gcongr
  exact Nat.lt_succ_self q

@[simp] theorem magnitude_zero (t : FTy) : magnitude t 0 = 0 := by simp [magnitude]

theorem magnitude_nonneg (t : FTy) (b : Nat) : 0 ≤ magnitude t b := by
  rw [← magnitude_zero t]
  exact (magnitude_strictMono t).monotone (Nat.zero_le b)

theorem magnitude_pos {t : FTy} {b : Nat} (h : 0 < b) : 0 < magnitude t b := by
  rw [← magnitude_zero t]
  exact magnitude_strictMono t h

/-- The power of 2 above the finite numbers. -/
theorem magnitude_finiteEnd (t : FTy) : magnitude t (finiteEnd t) = (2 : ℚ) ^ ((fBias t : Int) + 1) := by
  have split : finiteEnd t = 2 * fBias t * 2 ^ fracBits t + 2 ^ fracBits t := by rw [finiteEnd, expMax_eq]; ring
  rw [split, magnitude_grid t (.inr le_rfl) (by omega)]
  push_cast
  rw [← zpow_natCast, ← zpow_add₀ two_ne_zero]
  congr 1
  ring

/-- The largest finite number. -/
theorem magnitude_huge (t : FTy) :
    magnitude t (finiteEnd t - 1) = (2 : ℚ) ^ ((fBias t : Int) + 1) - (2 : ℚ) ^ ((fBias t : Int) - fracBits t) := by
  have pos : 0 < 2 ^ fracBits t := by positivity
  have bias : 0 < fBias t := by cases t <;> decide
  have split : finiteEnd t - 1 = (2 * fBias t - 1) * 2 ^ fracBits t + (2 * 2 ^ fracBits t - 1) := by
    obtain ⟨n, hn⟩ := Nat.exists_eq_add_of_lt bias
    rw [finiteEnd, expMax_eq, hn, show 2 * (0 + n + 1) - 1 = 2 * n + 1 by omega, show 2 * (0 + n + 1) + 1 = 2 * n + 1 + 2 by omega,
      Nat.add_mul (2 * n + 1)]
    omega
  rw [split, magnitude_grid t (.inr (by omega)) (by omega), Nat.cast_sub (by omega), Nat.cast_sub (by omega), sub_mul]
  push_cast
  congr 1
  · rw [← zpow_natCast, mul_assoc, ← zpow_add₀ two_ne_zero, ← zpow_one_add₀ two_ne_zero]
    congr 1
    ring
  · rw [one_mul]
    congr 1
    ring

/-! ### Encodings -/

section
variable (t : FTy) (neg : Bool) {b : Nat}

theorem signed_mod_frac : (fZero t neg + b) % 2 ^ fracBits t = b % 2 ^ fracBits t := by
  cases neg <;> simp [fZero, signWeight_eq]

theorem signed_div_frac (h : b < signWeight t) : (fZero t neg + b) / 2 ^ fracBits t % 2 ^ expBits t = b / 2 ^ fracBits t := by
  have low : b / 2 ^ fracBits t < 2 ^ expBits t := Nat.div_lt_of_lt_mul (by rwa [two_pow_expBits, ← signWeight_eq])
  cases neg
  · simp [fZero, Nat.mod_eq_of_lt low]
  · rw [fZero, if_pos rfl, signWeight_eq, ← two_pow_expBits, Nat.mul_add_div (by positivity), Nat.add_mod_left, Nat.mod_eq_of_lt low]

theorem signed_div_sign (h : b < signWeight t) : (fZero t neg + b) / signWeight t = if neg then 1 else 0 := by
  cases neg
  · simpa [fZero] using Nat.div_eq_of_lt h
  · simp [fZero, Nat.add_div_left b (Nat.zero_lt_of_lt h), Nat.div_eq_of_lt h]

theorem signed_lt (h : b < signWeight t) : fZero t neg + b < 2 ^ t.width := by
  rw [two_pow_width]
  cases neg <;> simp only [fZero, if_true, Bool.false_eq_true, if_false] <;> omega

theorem signed_mod_two : (fZero t neg + b) % 2 = b % 2 := by
  have even : signWeight t % 2 = 0 := by cases t <;> rfl
  cases neg <;> simp only [fZero, if_true, Bool.false_eq_true, if_false] <;> omega

/-- R128, for the finite numbers. -/
theorem fDecode_signed (h : b < finiteEnd t) : fDecode t (fZero t neg + b)
    = .fin neg (b - scaleOf t b * 2 ^ fracBits t) ((scaleOf t b : Int) + (1 - fBias t - fracBits t)) := by
  have hs := h.trans (finiteEnd_lt t)
  have exponent : b / 2 ^ fracBits t < expMax t := Nat.div_lt_of_lt_mul (by rwa [Nat.mul_comm])
  have split := Nat.div_add_mod' b (2 ^ fracBits t)
  have sign : ((fZero t neg + b) / signWeight t % 2 == 1) = neg := by rw [signed_div_sign t neg hs]; cases neg <;> rfl
  simp only [fDecode, sign, signed_div_frac t neg hs, signed_mod_frac, if_neg exponent.ne, scaleOf]
  cases hk : b / 2 ^ fracBits t with
  | zero => rw [hk] at split; rw [if_pos rfl]; congr 1 <;> omega
  | succ k =>
    rw [hk, Nat.add_mul] at split
    rw [if_neg (Nat.succ_ne_zero k), Nat.add_sub_cancel]
    congr 1 <;> omega

theorem rat_signed (h : b < finiteEnd t) : (fDecode t (fZero t neg + b)).rat = (if neg then -1 else 1) * magnitude t b := by
  rw [fDecode_signed t neg h]
  exact mul_assoc _ _ _

theorem isFin_signed (h : b < finiteEnd t) : (fDecode t (fZero t neg + b)).isFin = true := by rw [fDecode_signed t neg h]; rfl

theorem subnormal_signed (h : b < signWeight t) : fSubnormal t (fZero t neg + b) = (decide (0 < b) && decide (b < 2 ^ fracBits t)) := by
  rw [fSubnormal, signed_div_frac t neg h, signed_mod_frac]
  by_cases hb : b < 2 ^ fracBits t
  · rw [Nat.div_eq_of_lt hb, Nat.mod_eq_of_lt hb]
    rw [Bool.eq_iff_iff]
    simp [hb, Nat.pos_iff_ne_zero]
  · have : b / 2 ^ fracBits t ≠ 0 := (Nat.div_pos (by omega) (by positivity)).ne'
    simp [hb, this]

end

/-- An encoding is a sign and the rest. -/
theorem exists_signed {t : FTy} {p : Nat} (h : p < 2 ^ t.width) : ∃ b < signWeight t, p = fZero t (decide (signWeight t ≤ p)) + b := by
  rw [two_pow_width] at h
  by_cases hp : signWeight t ≤ p
  · exact ⟨p - signWeight t, by omega, by simp [fZero, hp]⟩
  · exact ⟨p, by omega, by simp [fZero, hp]⟩

theorem lt_finiteEnd_of_isFin {t : FTy} {neg : Bool} {b : Nat} (hb : b < signWeight t) (h : (fDecode t (fZero t neg + b)).isFin = true) :
    b < finiteEnd t := by
  have exponent : b / 2 ^ fracBits t ≠ expMax t := by
    intro he
    rw [fDecode] at h
    simp only [signed_div_frac t neg hb, he, if_true] at h
    split at h <;> cases h
  have top : b / 2 ^ fracBits t < expMax t + 1 := Nat.div_lt_of_lt_mul (by rwa [← signWeight_eq])
  exact (Nat.div_lt_iff_lt_mul (by positivity)).mp (by omega)

/-- What a format holds: the magnitudes below that of the infinity's encoding, with either sign. -/
theorem holds_iff {t : FTy} {z : ℚ} : Holds t z ↔ ∃ b < finiteEnd t, z = magnitude t b ∨ z = -magnitude t b := by
  constructor
  · rintro ⟨p, hp, hfin, rfl⟩
    obtain ⟨b, hb, e⟩ := exists_signed hp
    rw [e] at hfin ⊢
    have hlt := lt_finiteEnd_of_isFin hb hfin
    refine ⟨b, hlt, ?_⟩
    rw [rat_signed t _ hlt]
    split
    · exact .inr (neg_one_mul _)
    · exact .inl (one_mul _)
  · rintro ⟨b, hb, rfl | rfl⟩
    · exact ⟨_, signed_lt t false (hb.trans (finiteEnd_lt t)), isFin_signed t false hb, (rat_signed t false hb).trans (one_mul _)⟩
    · exact ⟨_, signed_lt t true (hb.trans (finiteEnd_lt t)), isFin_signed t true hb, (rat_signed t true hb).trans (neg_one_mul _)⟩

theorem holds_neg {t : FTy} {z : ℚ} : Holds t (-z) ↔ Holds t z := by
  simp only [holds_iff, neg_eq_iff_eq_neg, neg_neg, or_comm]

end Sys2Proof.Machine
end

section
/-! SUPPORT. Rounding (R132, R133): one of two neighbours, chosen by the mode, on integers and on the magnitudes of a format. -/

namespace Sys2Proof.Machine

/-! ### Integer grids -/

section
variable (neg : Bool) (m k : Nat)

theorem roundShift_rz : roundShift .rz neg m k = m / 2 ^ k := by simp [roundShift]

theorem roundShift_rd : roundShift .rd neg m k = if neg then roundShift .ru false m k else m / 2 ^ k := by
  cases neg <;> simp [roundShift]

theorem roundShift_ru : roundShift .ru neg m k = if neg then m / 2 ^ k else roundShift .ru false m k := by
  cases neg <;> simp [roundShift]

theorem roundShift_down : m / 2 ^ k * 2 ^ k ≤ m ∧ m < (m / 2 ^ k + 1) * 2 ^ k :=
  ⟨Nat.div_mul_le_self m _, Nat.lt_mul_of_div_lt (Nat.lt_succ_self _) (by positivity)⟩

theorem roundShift_up : m ≤ roundShift .ru false m k * 2 ^ k ∧ roundShift .ru false m k * 2 ^ k < m + 2 ^ k := by
  have split := Nat.div_add_mod' m (2 ^ k)
  have low := Nat.mod_lt m (y := 2 ^ k) (by positivity)
  simp only [roundShift, Bool.false_eq_true, if_false]
  split
  · omega
  · rw [Nat.add_mul]; omega

/-- The nearest, ties to even. -/
theorem roundShift_rn : let d := 2 * ((roundShift .rn neg m k * 2 ^ k : Nat) - m : Int).natAbs
    d ≤ 2 ^ k ∧ (d = 2 ^ k → roundShift .rn neg m k % 2 = 0) := by
  have split := Nat.div_add_mod' m (2 ^ k)
  have low := Nat.mod_lt m (y := 2 ^ k) (by positivity)
  have next := Nat.add_mul (m / 2 ^ k) 1 (2 ^ k)
  simp only [roundShift]
  split
  · omega
  split
  · omega
  split
  · omega
  obtain even | odd := Nat.mod_two_eq_zero_or_one (m / 2 ^ k)
  · rw [even, Nat.add_zero]; omega
  · rw [odd]; omega

/-- The nearest, ties away. -/
theorem roundShift_rna : let d := 2 * ((roundShift .rna neg m k * 2 ^ k : Nat) - m : Int).natAbs
    d ≤ 2 ^ k ∧ (d = 2 ^ k → m ≤ roundShift .rna neg m k * 2 ^ k) := by
  have split := Nat.div_add_mod' m (2 ^ k)
  have low := Nat.mod_lt m (y := 2 ^ k) (by positivity)
  have next := Nat.add_mul (m / 2 ^ k) 1 (2 ^ k)
  simp only [roundShift]
  split
  · omega
  split <;> omega

end

/-! ### Neighbours -/

/-- Whether a mode takes the upper one of two neighbours `lo` and `hi` of a positive number; `odd` says it of the lower one. -/
def roundsUp (md : Rnd) (a lo hi : ℚ) (odd : Bool) : Bool :=
  match md with
  | .rz | .rd => false
  | .ru => lo < a
  | .rn => lo + hi < 2 * a || (lo + hi == 2 * a && odd)
  | .rna => lo + hi ≤ 2 * a

/-- `b` is where a mode takes the positive number `a` in an ascending scale. -/
def RoundsIn (f : Nat → ℚ) (md : Rnd) (a : ℚ) (b : Nat) : Prop :=
  ∃ b0, f b0 ≤ a ∧ a < f (b0 + 1) ∧ b = b0 + (roundsUp md a (f b0) (f (b0 + 1)) (b0 % 2 == 1)).toNat

/-- The mode that rounds the magnitude of a negative number as `md` rounds the number. -/
def mirror : Rnd → Rnd
  | .rd => .ru
  | .ru => .rd
  | .rn => .rn
  | .rz => .rz
  | .rna => .rna

theorem roundsUp_exact (md : Rnd) {lo hi : ℚ} (h : lo < hi) (odd : Bool) : roundsUp md lo lo hi odd = false := by
  have ne : lo + hi ≠ 2 * lo := by linarith
  cases md <;> simp [roundsUp, ne] <;> linarith

theorem lt_of_roundsUp {md : Rnd} {a lo hi : ℚ} {odd : Bool} (hlt : lo < hi) (h : roundsUp md a lo hi odd = true) : lo < a := by
  cases md <;> simp [roundsUp] at h
  case rn =>
    obtain h | ⟨h, -⟩ := h <;> linarith
  case ru => exact h
  case rna => linarith

/-- A mode's choice does not depend on the unit. -/
theorem roundsUp_mul (md : Rnd) (a lo hi : ℚ) (odd : Bool) {u : ℚ} (hu : 0 < u) :
    roundsUp md (a * u) (lo * u) (hi * u) odd = roundsUp md a lo hi odd := by
  have twice : 2 * (a * u) = 2 * a * u := by ring
  cases md <;> simp only [roundsUp, ← add_mul, twice, mul_lt_mul_iff_left₀ hu, mul_le_mul_iff_left₀ hu]
  rw [show (((lo + hi) * u == 2 * a * u)) = (lo + hi == 2 * a) by
    rw [Bool.eq_iff_iff, beq_iff_eq, beq_iff_eq, mul_left_inj' hu.ne']]

section
variable {f : Nat → ℚ} {md : Rnd} {a : ℚ} {b c : Nat}

/-- A number of the scale is taken as it is. -/
theorem RoundsIn.exact (hf : StrictMono f) (h : RoundsIn f md (f c) b) : b = c := by
  obtain ⟨b0, hlo, hhi, rfl⟩ := h
  have h1 := hf.le_iff_le.mp hlo
  have h2 := hf.lt_iff_lt.mp hhi
  obtain rfl : b0 = c := by omega
  rw [roundsUp_exact md (hf (Nat.lt_succ_self b0))]
  rfl

/-- What is rounded reaches an even place where the number does, or where the mode takes it up to that place. -/
theorem RoundsIn.reaches (hf : StrictMono f) (h : RoundsIn f md a b) (hc : c % 2 = 0) (pos : 0 < c) :
    c ≤ b ↔ f c ≤ a ∨ roundsUp md a (f (c - 1)) (f c) true = true := by
  obtain ⟨b0, hlo, hhi, rfl⟩ := h
  have place : c - 1 + 1 = c := Nat.sub_add_cancel pos
  obtain hlt | heq | hgt : b0 < c - 1 ∨ b0 = c - 1 ∨ c ≤ b0 := by omega
  · have below : a < f (c - 1) := hhi.trans_le (hf.monotone hlt)
    have step : f (c - 1) < f c := hf (by omega)
    have no : ¬ roundsUp md a (f (c - 1)) (f c) true = true := fun hu => (lt_of_roundsUp step hu).not_gt below
    have := Bool.toNat_le (roundsUp md a (f b0) (f (b0 + 1)) (b0 % 2 == 1))
    exact iff_of_false (by omega) (not_or_intro (below.trans step).not_ge no)
  · rw [← heq] at place
    subst place
    have odd : (b0 % 2 == 1) = true := by rw [beq_iff_eq]; omega
    rw [odd, Nat.add_sub_cancel]
    cases hu : roundsUp md a (f b0) (f (b0 + 1)) true <;> simp [hhi]
  · exact iff_of_true (by omega) (.inl ((hf.monotone hgt).trans hlo))

end

/-! ### The model's rounding to a grid -/

theorem roundShift_eq (md : Rnd) (m k : Nat) : roundShift md false m k = m / 2 ^ k +
    (roundsUp md m ((m / 2 ^ k : Nat) * 2 ^ k) (((m / 2 ^ k : Nat) + 1) * 2 ^ k) (m / 2 ^ k % 2 == 1)).toNat := by
  have split : (m : ℚ) = (m / 2 ^ k : Nat) * 2 ^ k + (m % 2 ^ k : Nat) := by exact_mod_cast (Nat.div_add_mod' m (2 ^ k)).symm
  have hu : (0 : ℚ) < 2 ^ k := by positivity
  by_cases hr : m % 2 ^ k = 0
  · rw [hr, Nat.cast_zero, add_zero] at split
    simp only [roundShift, if_pos hr]
    rw [split, roundsUp_exact md (by linarith)]
    rfl
  have pos : (0 : ℚ) < (m % 2 ^ k : Nat) := by exact_mod_cast Nat.pos_of_ne_zero hr
  have half : ((m / 2 ^ k : Nat) * 2 ^ k + ((m / 2 ^ k : Nat) + 1) * 2 ^ k : ℚ) < 2 * m ↔ 2 ^ k < 2 * (m % 2 ^ k) := by
    rw [← Nat.cast_lt (α := ℚ)]
    push_cast at split ⊢
    constructor <;> intro h <;> linarith
  have tie : ((m / 2 ^ k : Nat) * 2 ^ k + ((m / 2 ^ k : Nat) + 1) * 2 ^ k : ℚ) = 2 * m ↔ 2 ^ k = 2 * (m % 2 ^ k) := by
    rw [← Nat.cast_inj (R := ℚ)]
    push_cast at split ⊢
    constructor <;> intro h <;> linarith
  have reach : ((m / 2 ^ k : Nat) * 2 ^ k + ((m / 2 ^ k : Nat) + 1) * 2 ^ k : ℚ) ≤ 2 * m ↔ 2 ^ k ≤ 2 * (m % 2 ^ k) := by
    rw [le_iff_lt_or_eq, half, tie, ← le_iff_lt_or_eq]
  have above : ((m / 2 ^ k : Nat) * 2 ^ k : ℚ) < m := by linarith
  simp only [roundShift, if_neg hr]
  cases md
  case rz => rfl
  case rd => rfl
  case ru => simp [roundsUp, above]
  case rn =>
    simp only [roundsUp, half, beq_eq_decide, tie]
    obtain h | h | h := lt_trichotomy (2 * (m % 2 ^ k)) (2 ^ k)
    · simp [h, h.not_gt, h.ne']
    · obtain even | odd := Nat.mod_two_eq_zero_or_one (m / 2 ^ k) <;> simp [*]
    · simp [h, h.not_gt]
  case rna =>
    simp only [roundsUp, reach]
    obtain h | h := lt_or_ge (2 * (m % 2 ^ k)) (2 ^ k)
    · simp [h, h.not_ge]
    · simp [h, h.not_gt]

/-- The integers in units of a power of 2. -/
def grid (g : Int) (q : Nat) : ℚ := q * (2 : ℚ) ^ g

theorem grid_strictMono (g : Int) : StrictMono (grid g) := fun _ _ h => by unfold grid; gcongr

theorem two_pow_toNat_mul {g e : Int} (h : g ≤ e) : (2 : ℚ) ^ (e - g).toNat * (2 : ℚ) ^ g = (2 : ℚ) ^ e := by
  rw [← zpow_natCast, ← zpow_add₀ two_ne_zero, Int.toNat_of_nonneg (by omega), Int.sub_add_cancel]

theorem roundGrid_rounds (md : Rnd) (m : Nat) (e g : Int) : RoundsIn (grid g) md (m * (2 : ℚ) ^ e) (roundGrid md false m e g) := by
  unfold roundGrid
  split
  next h =>
    have onGrid : (m * (2 : ℚ) ^ e : ℚ) = grid g (m * 2 ^ (e - g).toNat) := by
      rw [grid, Nat.cast_mul, mul_assoc, Nat.cast_pow, Nat.cast_ofNat, two_pow_toNat_mul h]
    have step := grid_strictMono g (Nat.lt_succ_self (m * 2 ^ (e - g).toNat))
    refine ⟨m * 2 ^ (e - g).toNat, onGrid.ge, onGrid ▸ step, ?_⟩
    rw [onGrid, roundsUp_exact md step]
    rfl
  next h =>
    have hu : (0 : ℚ) < (2 : ℚ) ^ e := by positivity
    obtain ⟨hlo, hhi⟩ := roundShift_down m (g - e).toNat
    have place (q : Nat) : grid g q = q * 2 ^ (g - e).toNat * (2 : ℚ) ^ e := by
      rw [grid, ← two_pow_toNat_mul (not_le.mp h).le, mul_assoc]
    refine ⟨m / 2 ^ (g - e).toNat, ?_, ?_, ?_⟩
    · rw [place, mul_le_mul_iff_left₀ hu]
      exact_mod_cast hlo
    · rw [place, mul_lt_mul_iff_left₀ hu]
      exact_mod_cast hhi
    · rw [place, place, roundsUp_mul _ _ _ _ _ hu, Nat.cast_succ]
      exact roundShift_eq md m _

theorem roundShift_mirror (md : Rnd) (m k : Nat) : roundShift md true m k = roundShift (mirror md) false m k := by
  cases md <;> rfl

theorem roundGrid_mirror (md : Rnd) (m : Nat) (e g : Int) : roundGrid md true m e g = roundGrid (mirror md) false m e g := by
  simp only [roundGrid, roundShift_mirror]

end Sys2Proof.Machine
end

section
/-! SUPPORT. One rounding into a format (R131 to R133): the number taken, the overflow value, and the flags. -/

namespace Sys2Proof.Machine

/-! ### The bounds of R132 and R133 -/

/-- A positive number overflows where it reaches the number above the largest finite one. -/
theorem overflows_iff {t : FTy} {md : Rnd} {a : ℚ} (ha : 0 < a) : Overflows t md a ↔
    magnitude t (finiteEnd t) ≤ a ∨ roundsUp md a (magnitude t (finiteEnd t - 1)) (magnitude t (finiteEnd t)) true = true := by
  rw [magnitude_finiteEnd, magnitude_huge]
  have unit : (0 : ℚ) < (2 : ℚ) ^ ((fBias t : Int) - fracBits t) := by positivity
  simp only [Overflows]
  generalize (2 : ℚ) ^ ((fBias t : Int) + 1) = top at *
  cases md <;> simp only [roundsUp, abs_of_pos ha, ha.not_gt, if_false, decide_eq_true_eq, Bool.false_eq_true, or_false,
    Bool.and_true, Bool.or_eq_true, beq_iff_eq, ← le_iff_lt_or_eq]
  case rn | rna => exact ⟨fun h => .inr (by linarith), fun h => by obtain h | h := h <;> linarith⟩
  case ru => exact ⟨.inr, fun h => by obtain h | h := h <;> linarith⟩

/-- A positive number is tiny unless it reaches the smallest normal number. -/
theorem tiny_iff {t : FTy} {md : Rnd} {a : ℚ} (ha : 0 < a) : Tiny t md a ↔
    let low := (2 : ℚ) ^ (1 - (fBias t : Int))
    ¬ (low ≤ a ∨ roundsUp md a (low - (2 : ℚ) ^ (-(fBias t : Int) - fracBits t)) low true = true) := by
  have unit : (0 : ℚ) < (2 : ℚ) ^ (-(fBias t : Int) - fracBits t) := by positivity
  have scale : (2 : ℚ) ^ (1 - (fBias t : Int)) * (2 : ℚ) ^ (-(fracBits t : Int) - 1) = (2 : ℚ) ^ (-(fBias t : Int) - fracBits t) := by
    rw [← zpow_add₀ two_ne_zero]
    congr 1
    ring
  simp only [Tiny, scale, not_or, not_le]
  generalize (2 : ℚ) ^ (1 - (fBias t : Int)) = low at *
  cases md <;> simp only [roundsUp, abs_of_pos ha, ha.not_gt, if_false, decide_eq_true_eq, Bool.false_eq_true, not_false_eq_true, and_true,
    Bool.and_true, Bool.or_eq_true, beq_iff_eq, ← le_iff_lt_or_eq, not_le, not_lt]
  case rn | rna => exact ⟨fun h => ⟨by linarith, by linarith⟩, fun h => by linarith [h.2]⟩
  case ru => exact ⟨fun h => ⟨by linarith, h⟩, fun h => h.2⟩

/-! ### What the model computes -/

/-- The unit in which a format rounds a number of a binade. -/
def unitOf (t : FTy) (ex : Int) : Int := max (ex - fracBits t) (1 - fBias t - fracBits t)

section
variable {m : Nat} (hm : 0 < m) (e : Int)
include hm

theorem value_pos : 0 < m * (2 : ℚ) ^ e := by positivity

theorem value_binade : (2 : ℚ) ^ ((Nat.log2 m : Int) + e) ≤ m * (2 : ℚ) ^ e ∧ m * (2 : ℚ) ^ e < (2 : ℚ) ^ ((Nat.log2 m : Int) + e + 1) := by
  have scale : (0 : ℚ) < (2 : ℚ) ^ e := by positivity
  rw [add_right_comm, zpow_add₀ two_ne_zero, zpow_add₀ two_ne_zero _ e, mul_le_mul_iff_left₀ scale, mul_lt_mul_iff_left₀ scale,
    ← Nat.cast_succ, zpow_natCast, zpow_natCast]
  exact ⟨by exact_mod_cast Nat.log2_self_le hm.ne', by exact_mod_cast Nat.lt_log2_self⟩

/-- The encoding that is put together from scale and multiple is where the mode takes the number among the magnitudes. -/
theorem bits_rounds (t : FTy) (md : Rnd) : ∃ b, RoundsIn (magnitude t) md (m * (2 : ℚ) ^ e) b ∧
    let g := unitOf t (Nat.log2 m + e)
    b = (g - (1 - fBias t - fracBits t)).toNat * 2 ^ fracBits t + roundGrid md false m e g ∧
    magnitude t b = grid g (roundGrid md false m e g) := by
  obtain ⟨binLo, binHi⟩ := value_binade hm e
  generalize hg : unitOf t (Nat.log2 m + e) = g
  dsimp only
  obtain ⟨q, lo, hi, hq⟩ := roundGrid_rounds md m e g
  have frac : ((2 ^ fracBits t : Nat) : ℚ) = (2 : ℚ) ^ (fracBits t : Int) := by rw [zpow_natCast]; norm_num
  have above : q < 2 * 2 ^ fracBits t := by
    refine (grid_strictMono g).lt_iff_lt.mp (lo.trans_lt (binHi.trans_le ?_))
    rw [grid, Nat.cast_mul, frac, Nat.cast_ofNat, ← zpow_one_add₀ two_ne_zero, ← zpow_add₀ two_ne_zero]
    exact zpow_le_zpow_right₀ one_le_two (by unfold unitOf at hg; omega)
  have below : (g - (1 - fBias t - fracBits t)).toNat = 0 ∨ 2 ^ fracBits t ≤ q := by
    refine or_iff_not_imp_left.mpr fun hk => Nat.lt_succ_iff.mp ((grid_strictMono g).lt_iff_lt.mp (lt_of_le_of_lt ?_ hi))
    refine le_trans (le_of_eq ?_) binLo
    rw [grid, frac, ← zpow_add₀ two_ne_zero]
    congr 1
    unfold unitOf at hg
    omega
  have scale : ((g - (1 - fBias t - fracBits t)).toNat : Int) + (1 - fBias t - fracBits t) = g := by
    unfold unitOf at hg
    omega
  generalize (g - (1 - fBias t - fracBits t)).toNat = k at *
  have place {q : Nat} (h1 : k = 0 ∨ 2 ^ fracBits t ≤ q) (h2 : q ≤ 2 * 2 ^ fracBits t) : magnitude t (k * 2 ^ fracBits t + q) = grid g q := by
    rw [magnitude_grid t h1 h2, scale, grid]
  have up := Bool.toNat_le (roundsUp md (m * (2 : ℚ) ^ e) (grid g q) (grid g (q + 1)) (q % 2 == 1))
  have parity : (k * 2 ^ fracBits t + q) % 2 = q % 2 := by rw [two_pow_fracBits, Nat.mul_left_comm, Nat.mul_add_mod]
  refine ⟨_, ⟨k * 2 ^ fracBits t + q, ?_, ?_, ?_⟩, rfl, ?_⟩
  · rwa [place below above.le]
  · rwa [Nat.add_assoc, place (q := q + 1) (by omega) above]
  · rw [place below above.le, Nat.add_assoc, Nat.add_assoc, place (q := q + 1) (by omega) above, parity, hq]
  · rw [hq]
    exact place (by omega) (by omega)

/-- R133: the model's test of a rounding with an unbounded exponent. -/
theorem tiny_test (t : FTy) (md : Rnd) : let ex : Int := Nat.log2 m + e
    ((decide (ex < 1 - fBias t) && !(ex + 1 == 1 - (fBias t : Int) && roundGrid md false m e (ex - fracBits t) == 2 ^ (fracBits t + 1))) = true
      ↔ Tiny t md (m * (2 : ℚ) ^ e)) := by
  intro ex
  obtain ⟨binLo, binHi⟩ := value_binade hm e
  rw [tiny_iff (value_pos hm e)]
  dsimp only
  change (2 : ℚ) ^ ex ≤ _ at binLo
  change _ < (2 : ℚ) ^ (ex + 1) at binHi
  obtain normal | edge | below : 1 - (fBias t : Int) ≤ ex ∨ ex + 1 = 1 - (fBias t : Int) ∨ ex + 1 < 1 - (fBias t : Int) := by omega
  · have reached := (zpow_le_zpow_right₀ (one_le_two (α := ℚ)) normal).trans binLo
    simp [normal.not_gt, reached]
  · have top : grid (ex - fracBits t) (2 ^ (fracBits t + 1)) = (2 : ℚ) ^ (1 - (fBias t : Int)) := by
      rw [← edge, grid, Nat.cast_pow, Nat.cast_ofNat, ← zpow_natCast, ← zpow_add₀ two_ne_zero]
      congr 1
      push_cast
      ring
    have last : grid (ex - fracBits t) (2 ^ (fracBits t + 1) - 1)
        = (2 : ℚ) ^ (1 - (fBias t : Int)) - (2 : ℚ) ^ (-(fBias t : Int) - fracBits t) := by
      rw [← top, grid, grid, Nat.cast_sub Nat.one_le_two_pow, sub_mul, Nat.cast_one, one_mul]
      congr 2
      omega
    have rounds := roundGrid_rounds md m e (ex - fracBits t)
    have reaches := rounds.reaches (grid_strictMono _) (c := 2 ^ (fracBits t + 1)) (by rw [pow_succ]; omega) (by positivity)
    have bound : roundGrid md false m e (ex - fracBits t) ≤ 2 ^ (fracBits t + 1) := by
      obtain ⟨q, lo, -, hq⟩ := rounds
      have : q < 2 ^ (fracBits t + 1) := (grid_strictMono _).lt_iff_lt.mp (lo.trans_lt (by rwa [top, ← edge]))
      have := Bool.toNat_le (roundsUp md (m * (2 : ℚ) ^ e) (grid (ex - fracBits t) q) (grid (ex - fracBits t) (q + 1)) (q % 2 == 1))
      omega
    rw [top, last] at reaches
    rw [← reaches]
    simp [edge]
    omega
  · have half : (2 : ℚ) ^ (ex + 1) ≤ (2 : ℚ) ^ (-(fBias t : Int)) := zpow_le_zpow_right₀ one_le_two (by omega)
    have unit : (2 : ℚ) ^ (-(fBias t : Int) - fracBits t) ≤ (2 : ℚ) ^ (-(fBias t : Int)) := zpow_le_zpow_right₀ one_le_two (by omega)
    have pos : (0 : ℚ) < (2 : ℚ) ^ (-(fBias t : Int) - fracBits t) := by positivity
    have low : (2 : ℚ) ^ (1 - (fBias t : Int)) = 2 * (2 : ℚ) ^ (-(fBias t : Int)) := by
      rw [sub_eq_add_neg, zpow_one_add₀ two_ne_zero]
    refine iff_of_true ?_ (not_or_intro ?_ fun hu => ?_)
    · rw [Bool.and_eq_true, decide_eq_true_eq, beq_eq_false_iff_ne.mpr below.ne]
      exact ⟨by omega, rfl⟩
    · linarith
    · have := lt_of_roundsUp (by linarith) hu
      linarith

/-- One rounding of a positive number (R131 to R133). -/
theorem roundTo_pos (t : FTy) (md : Rnd) : ∃ (b : Nat) (isExact isTiny : Bool), RoundsIn (magnitude t) md (m * (2 : ℚ) ^ e) b ∧
    (isExact = true ↔ magnitude t b = m * (2 : ℚ) ^ e) ∧ (isTiny = true ↔ Tiny t md (m * (2 : ℚ) ^ e)) ∧
    ∀ ftz, roundTo t md ftz false m e = if finiteEnd t ≤ b then (overflowTo md t false, flOF ||| flNX)
      else if (ftz && decide (0 < b) && decide (b < 2 ^ fracBits t)) = true then (0, flUF ||| flNX)
      else (b, flIf (isTiny && !isExact) flUF ||| flIf (!isExact) flNX) := by
  obtain ⟨b, rounds, hb, value⟩ := bits_rounds hm e t md
  generalize hg : unitOf t (Nat.log2 m + e) = g at *
  generalize hq : roundGrid md false m e g = q at *
  refine ⟨b, decide (g ≤ e) || q * 2 ^ (g - e).toNat == m, _, rounds, ?_, tiny_test hm e t md, fun ftz => ?_⟩
  · rw [value]
    have scale : (2 : ℚ) ^ e ≠ 0 := by positivity
    by_cases h : g ≤ e
    · simp only [h, decide_true, Bool.true_or, true_iff]
      rw [← hq, roundGrid, if_pos h, grid, Nat.cast_mul, Nat.cast_pow, Nat.cast_ofNat, mul_assoc, two_pow_toNat_mul h]
    · rw [grid, ← two_pow_toNat_mul (not_le.mp h).le, ← mul_assoc, mul_left_inj' scale]
      simp only [h, decide_false, Bool.false_or, beq_iff_eq]
      exact_mod_cast Iff.rfl
  · subst hb hq hg
    simp only [roundTo, Bool.false_eq_true, if_false, Nat.zero_add]
    rfl

end

end Sys2Proof.Machine
end

section
/-! SUPPORT. What is delivered meets the statement's own terms (R131 to R133), for positive numbers and, by their mirror, negative ones. -/

namespace Sys2Proof.Machine

/-! ### Positive numbers -/

section
variable {t : FTy} {md : Rnd} {a lo hi : ℚ} {odd even : Bool}
  (hlo : lo ≤ a) (hhi : a < hi) (gap : ∀ z, Holds t z → z ≤ lo ∨ hi ≤ z)
include hlo hhi gap

theorem takes_upper (hpos : 0 ≤ lo) (up : roundsUp md a lo hi odd = true) (he : odd = true → even = true) : Takes t md a hi even := by
  have dist : |hi - a| = hi - a := abs_of_pos (sub_pos.mpr hhi)
  cases md <;> simp only [roundsUp, Bool.false_eq_true, decide_eq_true_eq, Bool.or_eq_true, Bool.and_eq_true, beq_iff_eq] at up
  case ru => exact ⟨hhi.le, fun z hz h => (gap z hz).resolve_left fun h' => (h'.trans_lt up).not_ge h⟩
  case rn =>
    intro z hz
    rw [dist]
    obtain h | h := gap z hz
    · rw [abs_of_nonpos (by linarith)]
      obtain up | ⟨tie, ho⟩ := up
      · exact ⟨by linarith, fun _ => by linarith⟩
      · exact ⟨by linarith, fun _ => .inr (he ho)⟩
    · rw [abs_of_nonneg (by linarith)]
      exact ⟨by linarith, fun e => .inl (by linarith)⟩
  case rna =>
    intro z hz
    rw [dist, abs_of_pos (a := hi) (by linarith)]
    obtain h | h := gap z hz
    · rw [abs_of_nonpos (by linarith)]
      exact ⟨by linarith, fun e => abs_le.mpr ⟨by linarith, by linarith⟩⟩
    · rw [abs_of_nonneg (by linarith)]
      exact ⟨by linarith, fun e => by rw [abs_of_pos (by linarith)]; linarith⟩

theorem takes_lower (hpos : 0 < a) (up : roundsUp md a lo hi odd = false) (he : odd = false → even = true) : Takes t md a lo even := by
  have below : lo ≤ a ∧ ∀ z, Holds t z → z ≤ a → z ≤ lo :=
    ⟨hlo, fun z hz h => (gap z hz).resolve_right fun h' => (hhi.trans_le h').not_ge h⟩
  have dist : |lo - a| = a - lo := by rw [abs_of_nonpos (by linarith), neg_sub]
  cases md <;> simp only [roundsUp, decide_eq_false_iff_not, Bool.or_eq_false_iff, Bool.and_eq_false_iff, beq_eq_false_iff_ne, not_lt, not_le] at up
  case rd => exact below
  case rz => exact (if_pos hpos.le).mpr below
  case ru =>
    obtain rfl := le_antisymm hlo up
    exact ⟨hlo, fun z _ h => h⟩
  case rn =>
    intro z hz
    rw [dist]
    obtain h | h := gap z hz
    · rw [abs_of_nonpos (by linarith)]
      exact ⟨by linarith, fun e => .inl (by linarith)⟩
    · rw [abs_of_nonneg (by linarith)]
      obtain ⟨le, ne | ho⟩ := up
      · exact ⟨by linarith, fun e => absurd (by linarith) ne⟩
      · exact ⟨by linarith, fun _ => .inr (he ho)⟩
  case rna =>
    intro z hz
    rw [dist]
    obtain h | h := gap z hz
    · rw [abs_of_nonpos (by linarith)]
      refine ⟨by linarith, fun e => ?_⟩
      obtain rfl : z = lo := by linarith
      exact le_rfl
    · rw [abs_of_nonneg (by linarith)]
      exact ⟨by linarith, fun e => by linarith⟩

end

/-- R132: a mode's place among the magnitudes is the number it takes among all that the format holds. -/
theorem takes_of_rounds {t : FTy} {md : Rnd} {a : ℚ} {b : Nat} (ha : 0 < a) (h : RoundsIn (magnitude t) md a b) :
    Takes t md a (magnitude t b) (b % 2 == 0) := by
  obtain ⟨b0, hlo, hhi, rfl⟩ := h
  have mono := (magnitude_strictMono t).monotone
  have gap (z : ℚ) (hz : Holds t z) : z ≤ magnitude t b0 ∨ magnitude t (b0 + 1) ≤ z := by
    obtain ⟨c, -, rfl | rfl⟩ := holds_iff.mp hz
    · exact (Nat.lt_or_ge b0 c).symm.imp (fun h => mono h) fun h => mono h
    · exact .inl (by linarith [magnitude_nonneg t b0, magnitude_nonneg t c])
  cases up : roundsUp md a (magnitude t b0) (magnitude t (b0 + 1)) (b0 % 2 == 1)
  · exact takes_lower hlo hhi gap ha up fun h => by simp at h ⊢; omega
  · exact takes_upper hlo hhi gap (magnitude_nonneg t b0) up fun h => by simp at h ⊢; omega

/-- The flags of R133 that a rounding without an overflow sets. -/
theorem roundingFlags (isExact isTiny : Bool) : let fl := flIf (isTiny && !isExact) flUF ||| flIf (!isExact) flNX
    (fl.getLsbD 0 = true ↔ ¬ isExact = true) ∧ (fl.getLsbD 1 = true ↔ ¬ isExact = true ∧ isTiny = true) ∧ fl &&& 28 = 0 := by
  cases isExact <;> cases isTiny <;> decide

/-- R132, R133, for a positive number. -/
theorem delivered_pos (t : FTy) (md : Rnd) {m : Nat} (hm : 0 < m) (e : Int) : Delivered t md (m * (2 : ℚ) ^ e) (roundTo t md false false m e) := by
  obtain ⟨b, isExact, isTiny, rounds, hexact, htiny, eq⟩ := roundTo_pos hm e t md
  have ha := value_pos hm e
  have reaches := rounds.reaches (magnitude_strictMono t) (c := finiteEnd t) (by cases t <;> rfl) (by cases t <;> decide)
  rw [← overflows_iff ha] at reaches
  rw [eq false, Bool.false_and, Bool.false_and, if_neg Bool.false_ne_true]
  refine ⟨fun overflow => ?_, fun fits => ?_⟩
  · rw [if_pos (reaches.mpr overflow)]
    refine ⟨rfl, ?_⟩
    cases md <;> simp [overflowTo, ha.not_gt]
  · have hb : b < finiteEnd t := not_le.mp fun h => fits (reaches.mp h)
    have hs := hb.trans (finiteEnd_lt t)
    have plain : fZero t false + b = b := Nat.zero_add b
    have rat := rat_signed t false hb
    have lt := signed_lt t false hs
    have fin := isFin_signed t false hb
    have sign := signed_div_sign t false hs
    rw [plain] at rat lt fin sign
    rw [if_neg Bool.false_ne_true, one_mul] at rat
    obtain ⟨nx, uf, rest⟩ := roundingFlags isExact isTiny
    rw [hexact] at nx uf
    rw [htiny] at uf
    rw [if_neg hb.not_ge, if_neg ha.not_gt]
    dsimp only
    rw [rat]
    exact ⟨lt, fin, takes_of_rounds ha rounds, sign, nx, uf, rest⟩

/-! ### Negative numbers -/

section
variable {t : FTy} {md : Rnd} {a y : ℚ}

/-- Values held between two bounds, seen from the other side of 0. -/
theorem below_neg : (-y ≤ -a ∧ ∀ z, Holds t z → z ≤ -a → z ≤ -y) ↔ (a ≤ y ∧ ∀ z, Holds t z → a ≤ z → y ≤ z) := by
  refine and_congr neg_le_neg_iff ⟨fun h z hz hl => ?_, fun h z hz hl => ?_⟩
  · exact neg_le_neg_iff.mp (h (-z) (holds_neg.mpr hz) (neg_le_neg hl))
  · exact le_neg.mp (h (-z) (holds_neg.mpr hz) (le_neg.mp hl))

theorem above_neg : (-a ≤ -y ∧ ∀ z, Holds t z → -a ≤ z → -y ≤ z) ↔ (y ≤ a ∧ ∀ z, Holds t z → z ≤ a → z ≤ y) := by
  simpa only [neg_neg] using (below_neg (t := t) (a := -a) (y := -y)).symm

theorem takes_neg (ha : 0 < a) {even : Bool} (h : Takes t (mirror md) a y even) : Takes t md (-a) (-y) even := by
  have dist (u : ℚ) : |u - -a| = |-u - a| := by rw [← abs_neg (u - -a), neg_sub', neg_neg]
  cases md
  case rd => exact below_neg.mpr h
  case ru => exact above_neg.mpr h
  case rz => exact (if_neg (by linarith)).mpr (above_neg.mpr ((if_pos ha.le).mp h))
  case rn =>
    intro z hz
    obtain ⟨near, tie⟩ := h (-z) (holds_neg.mpr hz)
    rw [dist, dist, neg_neg]
    exact ⟨near, fun e => (tie e).imp_left neg_eq_iff_eq_neg.mp⟩
  case rna =>
    intro z hz
    obtain ⟨near, tie⟩ := h (-z) (holds_neg.mpr hz)
    rw [dist, dist, neg_neg, abs_neg, ← abs_neg z]
    exact ⟨near, tie⟩

theorem overflows_neg (ha : 0 < a) : Overflows t md (-a) ↔ Overflows t (mirror md) a := by
  cases md <;> simp [Overflows, mirror, ha, ha.not_gt]

theorem tiny_neg (ha : 0 < a) : Tiny t md (-a) ↔ Tiny t (mirror md) a := by
  cases md <;> simp [Tiny, mirror, ha, ha.not_gt]

/-- R132, R133, for a negative number: the sign beside what its magnitude gives in the mirrored mode. -/
theorem delivered_neg (ha : 0 < a) {r : Nat × Fl} (h : Delivered t (mirror md) a r) : Delivered t md (-a) (fZero t true + r.1, r.2) := by
  have hneg : -a < 0 := neg_lt_zero.mpr ha
  have hge : 1 ≤ expMax t * 2 ^ fracBits t := by cases t <;> decide
  obtain ⟨hover, hfits⟩ := h
  refine ⟨fun overflow => ?_, fun fits => ?_⟩
  · obtain ⟨flags, bits⟩ := hover ((overflows_neg ha).mp overflow)
    refine ⟨flags, ?_⟩
    dsimp only
    rw [bits]
    cases md <;> simp [mirror, hneg, ha.not_gt, fZero, fInf, fHuge] <;> omega
  · obtain ⟨-, fin, takes, sign, nx, uf, rest⟩ := hfits fun h => fits ((overflows_neg ha).mpr h)
    rw [if_neg ha.not_gt, Nat.div_eq_zero_iff_lt (by cases t <;> decide)] at sign
    have hb : r.1 < finiteEnd t := lt_finiteEnd_of_isFin (neg := false) sign (by rwa [fZero, if_neg Bool.false_ne_true, Nat.zero_add])
    have rat : (fDecode t (fZero t true + r.1)).rat = -(fDecode t r.1).rat := by
      have pos := rat_signed t false hb
      rw [fZero, if_neg Bool.false_ne_true, if_neg Bool.false_ne_true, Nat.zero_add, one_mul] at pos
      rw [rat_signed t true hb, if_pos rfl, neg_one_mul, pos]
    dsimp only
    rw [rat, neg_inj.ne, if_pos hneg, tiny_neg ha, signed_mod_two t true]
    exact ⟨signed_lt t true sign, isFin_signed t true hb, takes_neg ha takes, signed_div_sign t true sign, nx, uf, rest⟩

end

theorem roundTo_neg (t : FTy) (md : Rnd) (ftz : Bool) (m : Nat) (e : Int) : roundTo t md ftz true m e
    = (fZero t true + (roundTo t (mirror md) ftz false m e).1, (roundTo t (mirror md) ftz false m e).2) := by
  have overflow : overflowTo md t true = fZero t true + overflowTo (mirror md) t false := by
    cases t <;> cases md <;> rfl
  simp only [roundTo, roundGrid_mirror, overflow, fZero, if_true, Bool.false_eq_true, if_false, Nat.zero_add]
  split
  · rfl
  split <;> rfl

/-! ### Values -/

@[simp] theorem flags_or_zero (fl : Fl) : fl ||| 0 = fl := BitVec.or_zero

theorem rat_fin_eq_zero {neg : Bool} {m : Nat} {e : Int} : FVal.rat (.fin neg m e) = 0 ↔ m = 0 := by
  have scale : (2 : ℚ) ^ e ≠ 0 := by positivity
  cases neg <;> simp [FVal.rat, scale]

/-- R132, R133, for every value but 0. -/
theorem delivered_of_ne_zero (t : FTy) (md : Rnd) {v : FVal} (hfin : v.isFin = true) (hne : v.rat ≠ 0) :
    Delivered t md v.rat (deliver t md false v 0) := by
  cases v with
  | nan | inf => cases hfin
  | fin neg m e =>
    have hm := mt rat_fin_eq_zero.mpr hne
    have pos := Nat.pos_of_ne_zero hm
    rw [deliver, if_neg hm]
    dsimp only
    rw [flags_or_zero]
    cases neg
    · simpa [FVal.rat] using delivered_pos t md pos e
    · have h := delivered_neg (value_pos pos e) (delivered_pos t (mirror md) pos e)
      rw [← roundTo_neg] at h
      simpa [FVal.rat] using h

end Sys2Proof.Machine
end

section
/-! SUPPORT. Exact values: what the format delivers unchanged or flushed (R131, R133), exact operations (R169), NaNs and infinities (R130). -/

namespace Sys2Proof.Machine

/-! ### Encodings of each kind -/

theorem fInf_eq (t : FTy) (neg : Bool) : fInf t neg = fZero t neg + finiteEnd t := rfl

theorem two_pow_fracBits_le (t : FTy) : 2 ^ fracBits t ≤ finiteEnd t - 1 := by cases t <;> decide

@[simp] theorem fDecode_fInf (t : FTy) (neg : Bool) : fDecode t (fInf t neg) = .inf neg := by cases t <;> cases neg <;> decide

@[simp] theorem fDecode_fZero (t : FTy) (neg : Bool) : fDecode t (fZero t neg) = .fin neg 0 (1 - fBias t - fracBits t) := by
  have h := fDecode_signed t neg (b := 0) (by cases t <;> decide)
  simpa [scaleOf] using h

theorem isNan_signed (t : FTy) (neg : Bool) {b : Nat} (h : finiteEnd t < b) (hb : b < signWeight t) : (fDecode t (fZero t neg + b)).isNan = true := by
  have pos : 0 < 2 ^ fracBits t := by positivity
  have split := Nat.div_add_mod' b (2 ^ fracBits t)
  have exponent : b / 2 ^ fracBits t = expMax t := Nat.div_eq_of_lt_le h.le (by rwa [Nat.mul_comm, ← signWeight_eq])
  have fraction : b % 2 ^ fracBits t ≠ 0 := by
    rw [exponent] at split
    unfold finiteEnd at h
    omega
  simp only [fDecode, signed_div_frac t neg hb, exponent, signed_mod_frac, if_true, if_neg fraction]
  rfl

/-- The exact value of a finite encoding is 0 for a zero only. -/
theorem significand_pos (t : FTy) {b : Nat} (hb : 0 < b) : 0 < b - scaleOf t b * 2 ^ fracBits t := by
  have h := magnitude_pos (t := t) hb
  rw [magnitude] at h
  refine Nat.pos_of_ne_zero fun h0 => ?_
  rw [h0, Nat.cast_zero, zero_mul] at h
  exact lt_irrefl _ h

/-! ### Signs -/

/-- The mode in which a sign's magnitudes are rounded. -/
def modeFor (md : Rnd) (neg : Bool) : Rnd := if neg then mirror md else md

theorem roundTo_signed (t : FTy) (md : Rnd) (ftz neg : Bool) (m : Nat) (e : Int) : roundTo t md ftz neg m e
    = (fZero t neg + (roundTo t (modeFor md neg) ftz false m e).1, (roundTo t (modeFor md neg) ftz false m e).2) := by
  cases neg
  · simp [fZero, modeFor]
  · exact roundTo_neg t md ftz m e

/-! ### Delivery -/

/-- R133: a number of the format is rounded to itself. -/
theorem roundTo_exact {t : FTy} {md : Rnd} {m b : Nat} {e : Int} (hm : 0 < m) (hb : b < finiteEnd t) (h : m * (2 : ℚ) ^ e = magnitude t b) :
    roundTo t md false false m e = (b, 0) := by
  obtain ⟨c, isExact, isTiny, rounds, hexact, -, eq⟩ := roundTo_pos hm e t md
  rw [h] at rounds hexact
  obtain rfl := rounds.exact (magnitude_strictMono t)
  rw [eq, hexact.mpr rfl, if_neg hb.not_ge]
  simp [flIf]

theorem deliver_fDecode {t : FTy} {md : Rnd} {x : Nat} (hx : x < 2 ^ t.width) (h : (fDecode t x).isNan = false) :
    deliver t md false (fDecode t x) 0 = (x, 0) := by
  obtain ⟨b, hb, e⟩ := exists_signed hx
  generalize decide (signWeight t ≤ x) = neg at e
  subst e
  obtain hlt | rfl | hgt := lt_trichotomy b (finiteEnd t)
  · rw [fDecode_signed t neg hlt]
    obtain rfl | pos := Nat.eq_zero_or_pos b
    · simp [deliver]
    · have hm := significand_pos t pos
      rw [deliver, if_neg hm.ne', roundTo_signed, roundTo_exact hm hlt rfl]
      exact congrArg _ (flags_or_zero 0)
  · rw [← fInf_eq, fDecode_fInf]
    rfl
  · rw [isNan_signed t neg hgt hb] at h
    cases h

/-- R131: `.ftz` on the result, for a positive number. -/
theorem roundTo_ftz (t : FTy) (md : Rnd) {m : Nat} (hm : 0 < m) (e : Int) : let r := roundTo t md false false m e
    r.1 < signWeight t ∧ roundTo t md true false m e = if fSubnormal t r.1 then (0, flUF ||| flNX) else r := by
  obtain ⟨b, isExact, isTiny, -, -, -, eq⟩ := roundTo_pos hm e t md
  have plain (b : Nat) (h : b < signWeight t) : fSubnormal t b = (decide (0 < b) && decide (b < 2 ^ fracBits t)) := by
    simpa [fZero] using subnormal_signed t false h
  have bound := finiteEnd_lt t
  simp only [eq]
  split
  next h =>
    have large := two_pow_fracBits_le t
    have bits : overflowTo md t false = finiteEnd t ∨ overflowTo md t false = finiteEnd t - 1 := by
      cases md <;> simp [overflowTo, fInf, fHuge, finiteEnd]
    have lt : overflowTo md t false < signWeight t := by omega
    have no : ¬ overflowTo md t false < 2 ^ fracBits t := by omega
    refine ⟨lt, ?_⟩
    simp [plain _ lt, no]
  next h =>
    have lt : b < signWeight t := by omega
    simp [lt, plain]

/-- R131: `.ftz` on the result. -/
theorem deliver_ftz (t : FTy) (md : Rnd) {v : FVal} (hfin : v.isFin = true) : let r := deliver t md false v 0
    deliver t md true v 0 = if fSubnormal t r.1 then (fZero t (r.1 / signWeight t == 1), flUF ||| flNX) else r := by
  cases v with
  | nan | inf => cases hfin
  | fin neg m e =>
    by_cases hm : m = 0
    · have no := subnormal_signed t neg (b := 0) (by cases t <;> decide)
      rw [Nat.add_zero, decide_eq_false (lt_irrefl 0), Bool.false_and] at no
      simp [deliver, hm, no]
    · obtain ⟨lt, eq⟩ := roundTo_ftz t (modeFor md neg) (Nat.pos_of_ne_zero hm) e
      have same := subnormal_signed t neg lt
      have plain := subnormal_signed t false lt
      rw [fZero, if_neg Bool.false_ne_true, Nat.zero_add] at plain
      simp only [deliver, if_neg hm, flags_or_zero, roundTo_signed t md _ neg, signed_div_sign t neg lt, eq, same, ← plain]
      split
      · cases neg <;> rfl
      · rfl

/-! ### Exact operations -/

theorem toUnits_mul (neg : Bool) (m : Nat) {e g : Int} (h : g ≤ e) : (toUnits neg m e g : ℚ) * (2 : ℚ) ^ g = FVal.rat (.fin neg m e) := by
  cases neg <;> simp [toUnits, FVal.rat, mul_assoc, two_pow_toNat_mul h]

theorem rat_of_units (x g : Int) : FVal.rat (.fin (decide (x < 0)) x.natAbs g) = x * (2 : ℚ) ^ g := by
  rw [FVal.rat, Nat.cast_natAbs, Int.cast_abs]
  obtain h | h := lt_or_ge x 0
  · simp [h, abs_of_neg (Int.cast_lt_zero.mpr h)]
  · simp [h.not_gt, abs_of_nonneg (Int.cast_nonneg h)]

theorem addV_fin (md : Rnd) {a b : FVal} (ha : a.isFin = true) (hb : b.isFin = true) :
    (addV md a b).1.isFin = true ∧ (addV md a b).1.rat = a.rat + b.rat ∧ (addV md a b).2 = 0 := by
  match a, b, ha, hb with
  | .fin n m e, .fin n' m' e', _, _ =>
    have sum := toUnits_mul n m (min_le_left e e')
    have sum' := toUnits_mul n' m' (min_le_right e e')
    rw [← sum, ← sum', ← add_mul, ← Int.cast_add]
    simp only [addV]
    split
    next h => simp [h, FVal.isFin, FVal.rat]
    next h => exact ⟨rfl, rat_of_units _ _, rfl⟩

theorem mulV_fin {a b : FVal} (ha : a.isFin = true) (hb : b.isFin = true) :
    (mulV a b).1.isFin = true ∧ (mulV a b).1.rat = a.rat * b.rat ∧ (mulV a b).2 = 0 := by
  match a, b, ha, hb with
  | .fin n m e, .fin n' m' e', _, _ =>
    refine ⟨rfl, ?_, rfl⟩
    simp only [mulV, FVal.rat, zpow_add₀ (two_ne_zero (α := ℚ)), Nat.cast_mul]
    cases n <;> cases n' <;> simp <;> ring

theorem fmaV_fin (md : Rnd) {a b c : FVal} (ha : a.isFin = true) (hb : b.isFin = true) (hc : c.isFin = true) :
    (fmaV md a b c).1.isFin = true ∧ (fmaV md a b c).1.rat = a.rat * b.rat + c.rat ∧ (fmaV md a b c).2 = 0 := by
  obtain ⟨pfin, prat, pfl⟩ := mulV_fin ha hb
  have eq : fmaV md a b c = addV md (mulV a b).1 c := by
    unfold fmaV
    generalize mulV a b = p at pfin pfl
    match p, pfin, pfl with
    | (.fin n m e, _), _, rfl => simp
  rw [eq, ← prat]
  exact addV_fin md pfin hc

@[simp] theorem isFin_negV (a : FVal) : (negV a).isFin = a.isFin := by cases a <;> rfl
@[simp] theorem isNan_negV (a : FVal) : (negV a).isNan = a.isNan := by cases a <;> rfl
@[simp] theorem isSig_negV (a : FVal) : (negV a).isSig = a.isSig := by cases a <;> rfl

theorem rat_negV (a : FVal) : (negV a).rat = -a.rat := by
  cases a with
  | nan | inf => exact neg_zero.symm
  | fin n m e => cases n <;> simp [negV, FVal.rat]

theorem ltV_fin {a b : FVal} (ha : a.isFin = true) (hb : b.isFin = true) : ltV a b = decide (a.rat < b.rat) := by
  match a, b, ha, hb with
  | .fin n m e, .fin n' m' e', _, _ =>
    have unit : (0 : ℚ) < (2 : ℚ) ^ min e e' := by positivity
    rw [← toUnits_mul n m (min_le_left e e'), ← toUnits_mul n' m' (min_le_right e e')]
    simp only [ltV, mul_lt_mul_iff_left₀ unit, Int.cast_lt]

/-! ### NaNs and infinities -/

section
variable (md : Rnd) {a b : FVal} (h : (a.isNan || b.isNan) = true)
include h

theorem addV_nan : addV md a b = (.nan false, flIf (a.isSig || b.isSig) flNV) := by
  cases a <;> cases b <;> simp [FVal.isNan] at h <;> simp [addV, FVal.isSig]

theorem mulV_nan : mulV a b = (.nan false, flIf (a.isSig || b.isSig) flNV) := by
  cases a <;> cases b <;> simp [FVal.isNan] at h <;> simp [mulV, FVal.isSig]

end

/-! ### `.ftz` on the operands -/

section
variable {t : FTy} {ftz : Bool} {x : Nat}

@[simp] theorem fFlush_false : fFlush false t x = x := rfl

theorem fFlush_normal (h : fSubnormal t x = false) : fFlush ftz t x = x := by simp [fFlush, h]

@[simp] theorem fFlush_fInf (neg : Bool) : fFlush ftz t (fInf t neg) = fInf t neg :=
  fFlush_normal (by cases t <;> cases neg <;> decide)

@[simp] theorem fFlush_fZero (neg : Bool) : fFlush ftz t (fZero t neg) = fZero t neg :=
  fFlush_normal (by cases t <;> cases neg <;> decide)

theorem isFin_of_subnormal (h : fSubnormal t x = true) : (fDecode t x).isFin = true := by
  have zero : x / 2 ^ fracBits t % 2 ^ expBits t = 0 := by simpa using (Bool.and_eq_true_iff.mp h).1
  have exponent : 0 ≠ expMax t := by cases t <;> decide
  simp only [fDecode, zero, if_neg exponent]
  rfl

theorem not_nan_of_isFin {v : FVal} (h : v.isFin = true) : v.isNan = false ∧ v.isSig = false := by
  cases v with
  | nan | inf => cases h
  | fin => exact ⟨rfl, rfl⟩

/-- R131: only finite inputs are flushed, so that a NaN stays what it is. -/
theorem fFlush_nan : (fDecode t (fFlush ftz t x)).isNan = (fDecode t x).isNan ∧ (fDecode t (fFlush ftz t x)).isSig = (fDecode t x).isSig := by
  unfold fFlush
  split
  next h =>
    obtain ⟨nan, sig⟩ := not_nan_of_isFin (isFin_of_subnormal (Bool.and_eq_true_iff.mp h).2)
    rw [nan, sig, fDecode_fZero]
    exact ⟨rfl, rfl⟩
  · exact ⟨rfl, rfl⟩

end

/-! ### The instructions' results -/

section
variable (t : FTy) (md : Rnd)

/-- R130: a NaN operand gives the canonical NaN, a signalling one NV too. -/
theorem results_nan (ftz : Bool) {a b : Nat} (h : ((fDecode t a).isNan || (fDecode t b).isNan) = true) :
    let r := (fNaN t, if (fDecode t a).isSig || (fDecode t b).isSig then flNV else 0)
    fAdd t md ftz a b = r ∧ fSub t md ftz a b = r ∧ fMul t md ftz a b = r := by
  obtain ⟨nanA, sigA⟩ := fFlush_nan (t := t) (ftz := ftz) (x := a)
  obtain ⟨nanB, sigB⟩ := fFlush_nan (t := t) (ftz := ftz) (x := b)
  have hn : ((fDecode t (fFlush ftz t a)).isNan || (fDecode t (fFlush ftz t b)).isNan) = true := by rw [nanA, nanB, h]
  have hs := hn
  rw [← isNan_negV (fDecode t (fFlush ftz t b))] at hs
  simp only [fAdd, fSub, fMul, addV_nan md hn, addV_nan md hs, mulV_nan hn, isSig_negV, sigA, sigB]
  exact ⟨rfl, rfl, rfl⟩

theorem fAdd_unlike_infinities (ftz neg : Bool) : fAdd t md ftz (fInf t neg) (fInf t !neg) = (fNaN t, flNV) := by
  simp [fAdd, addV, deliver]

theorem fMul_infinity_zero (ftz n n' : Bool) : fMul t md ftz (fInf t n) (fZero t n') = (fNaN t, flNV) := by
  simp [fMul, mulV, deliver]

/-- R132, R133, R169: an operation that is exact is rounded once. -/
theorem delivered_of_exact {v : FVal × Fl} {x : ℚ} (h : v.1.isFin = true ∧ v.1.rat = x ∧ v.2 = 0) (hx : x ≠ 0) :
    Delivered t md x (deliver t md false v.1 v.2) := by
  obtain ⟨hfin, rfl, hfl⟩ := h
  rw [hfl]
  exact delivered_of_ne_zero t md hfin hx

/-- R132: x - x is a zero whose sign follows the mode. -/
theorem fSub_self {a : Nat} (ha : a < signWeight t) (hfin : (fDecode t a).isFin = true) :
    fSub t md false a a = (fZero t (md == .rd), 0) := by
  have plain : fZero t false + a = a := Nat.zero_add a
  rw [← plain] at hfin
  have decode := fDecode_signed t false (lt_finiteEnd_of_isFin ha hfin)
  rw [plain] at decode
  simp [fSub, decode, negV, addV, toUnits, deliver]

/-- R133: a product that is 0 has the sign of both operands' signs. -/
theorem fMul_zero {a b : Nat} (ha : a < 2 ^ t.width) (hb : b < 2 ^ t.width) (fa : (fDecode t a).isFin = true) (fb : (fDecode t b).isFin = true)
    (h : (fDecode t a).rat * (fDecode t b).rat = 0) :
    fMul t md false a b = (fZero t (decide (signWeight t ≤ a) != decide (signWeight t ≤ b)), 0) := by
  obtain ⟨a', ha', ea⟩ := exists_signed ha
  obtain ⟨b', hb', eb⟩ := exists_signed hb
  generalize decide (signWeight t ≤ a) = na at *
  generalize decide (signWeight t ≤ b) = nb at *
  subst ea eb
  rw [fMul, fFlush_false, fFlush_false]
  rw [fDecode_signed t na (lt_finiteEnd_of_isFin ha' fa), fDecode_signed t nb (lt_finiteEnd_of_isFin hb' fb)] at h ⊢
  generalize a' - scaleOf t a' * 2 ^ fracBits t = m at *
  generalize b' - scaleOf t b' * 2 ^ fracBits t = n at *
  have zero : m * n = 0 := by
    rwa [mul_eq_zero, rat_fin_eq_zero, rat_fin_eq_zero, ← Nat.mul_eq_zero] at h
  rw [mulV, deliver, if_pos zero]

end

end Sys2Proof.Machine
end

section
/-! Rounding modes, exactness before rounding, and NaN results (R130 to R133, R169). -/

open Sys2Proof.Machine in
/-- Settles O7: every result is an exact value rounded once, and one rounding takes one of the two neighbours among the magnitudes that the
format holds. -/
theorem floatingValues : Obligations.FloatingValues := by
  unfold Obligations.FloatingValues
  refine ⟨?grid, ⟨fun m _ _ => addV_fin m, fun _ _ => mulV_fin, fun m _ _ _ ha hb hc => (fmaV_fin m ha hb hc).2, fun a _ => rat_negV a,
    fun _ _ => ltV_fin⟩, ⟨fun _ _ _ => deliver_fDecode, fun t m _ => delivered_of_ne_zero t m, fun t m _ => deliver_ftz t m⟩,
    fun t m ftz _ _ => results_nan t m ftz, fAdd_unlike_infinities, fMul_infinity_zero, ?rounded, fun t m _ ha hfin _ => fSub_self t m ha hfin,
    fun t m _ _ => fMul_zero t m⟩
  case grid =>
    intro neg m k
    have down := roundShift_down m k
    have up := roundShift_up m k
    refine ⟨?_, ?_, ?_, roundShift_rn neg m k, roundShift_rna neg m k⟩
    · exact roundShift_rz neg m k ▸ down
    · rw [roundShift_rd]
      cases neg
      · exact down
      · exact up
    · rw [roundShift_ru]
      cases neg
      · exact up
      · exact down
  case rounded =>
    intro t m a b ha hb
    refine ⟨delivered_of_exact t m (addV_fin m ha hb), ?_, delivered_of_exact t m (mulV_fin ha hb),
      fun c hc => delivered_of_exact t m (fmaV_fin m ha hb hc)⟩
    have diff := addV_fin m ha ((isFin_negV _).trans hb)
    rw [rat_negV, ← sub_eq_add_neg] at diff
    exact delivered_of_exact t m diff
end

section
/-! SUPPORT. Lane instructions by the kind of their result (R126, R129, R153): what a pattern of each kind writes, and a step of the
shared form for each. -/

namespace Sys2Proof.Machine

/-! ### Destinations -/

theorem outWord_ofNat (th vd x : Nat) : outWord th vd x = wordDest th vd (BitVec.ofNat 32 x) := by
  rw [← outWord_eq, BitVec.toNat_ofNat, outWord, outWord, Nat.mod_mod]

theorem outFlt_eq (t : FTy) (th vd x : Nat) : outFlt t th vd x = fltDest t th vd x := by
  unfold outFlt fltDest
  split
  · exact outPair_eq _ _ _
  · refine congrArg (fun y => [(RegKey.v th vd, y)]) (BitVec.eq_of_toNat_eq ?_)
    rw [BitVec.toNat_ofNat, BitVec.toNat_setWidth, BitVec.toNat_ofNat]

theorem real_outFlt {n : Nat} {t : FTy} {r : BitVec 8} (h : rVal n t.width r = true) (th x : Nat) :
    ∀ p ∈ outFlt t th r.toNat x, p.1.real = true := by
  have bound := r.isLt
  intro p hp
  unfold outFlt outPair at hp
  split at hp
  next wide =>
    simp only [rVal, wide, rPair, beq_self_eq_true, if_true, Bool.and_eq_true, beq_iff_eq, decide_eq_true_eq] at h
    simp only [List.mem_cons, List.not_mem_nil, or_false] at hp
    obtain rfl | rfl := hp <;> simp only [RegKey.real, decide_eq_true_eq] <;> omega
  next =>
    obtain rfl := List.mem_singleton.mp hp
    simpa only [RegKey.real, decide_eq_true_eq] using bound

/-! ### Steps -/

section
variable {i : Instr} {w : Bool} {len : Nat} {g : Option GuardQ} {vd : BitVec 8}

/-- A lane instruction with an integer result. -/
theorem intStep {t : IntTy} {x y : Cx → Nat → Nat → Nat}
    (he : ∀ s, exec i s = laneOp i w len g (fun c n th => (outInt t th vd.toNat (x c n th), 0)) s)
    (e : ∀ c n th, x c n th = y c n th)
    (hk : ∀ k, i.regsOk k = true → rVal k t.width vd = true := by
      intro k h
      simp only [Sys2Proof.Instr.regsOk, Bool.and_eq_true, and_assoc] at h
      exact h.1) :
    LaneStep i w len g (fun c n th => (intDest t th vd.toNat (y c n th), 0)) :=
  (laneOp_step he fun _ _ th h => real_outInt (hk _ h) th _).congr (by simp only [outInt_eq, e])

/-- A lane instruction with a result in one register. -/
theorem wordStep {x : Cx → Nat → Nat → Nat} {y : Cx → Nat → Nat → Word}
    (he : ∀ s, exec i s = laneOp i w len g (fun c n th => (outWord th vd.toNat (x c n th), 0)) s)
    (e : ∀ c n th, BitVec.ofNat 32 (x c n th) = y c n th) :
    LaneStep i w len g (fun c n th => (wordDest th vd.toNat (y c n th), 0)) :=
  (laneOp_step he fun _ _ th _ => real_outWord vd th _).congr (by simp only [outWord_ofNat, e])

/-- A lane instruction with a floating result and flags. -/
theorem fltStep {t : FTy} {x : Cx → Nat → Nat → Nat} {fl : Cx → Nat → Nat → Fl}
    (he : ∀ s, exec i s = laneOp i w len g (fun c n th => (outFlt t th vd.toNat (x c n th), fl c n th)) s)
    (hk : ∀ k, i.regsOk k = true → rVal k t.width vd = true := by
      intro k h
      simp only [Sys2Proof.Instr.regsOk, Bool.and_eq_true, and_assoc] at h
      exact h.1) :
    LaneStep i w len g (fun c n th => (fltDest t th vd.toNat (x c n th), fl c n th)) :=
  (laneOp_step he fun _ _ th h => real_outFlt (hk _ h) th _).congr (by simp only [outFlt_eq])

/-- A lane instruction with a predicate result and flags. -/
theorem predStep {qd : BitVec 3} {b b' : Cx → Nat → Nat → Bool} {fl : Cx → Nat → Nat → Fl}
    (he : ∀ s, exec i s = laneOp i w len g (fun c n th => (outPred th qd.toNat (b c n th), fl c n th)) s)
    (e : ∀ c n th, b c n th = b' c n th) :
    LaneStep i w len g (fun c n th => (predDest th qd.toNat (b' c n th), fl c n th)) :=
  (laneOp_step he fun _ _ th _ => real_outPred qd th _).congr (by simp only [e]; rfl)

end

/-! ### Moves and addresses (R155, R162) -/

theorem sext64_toNat {w k : Nat} (hw : 0 < w) (x : BitVec k) : sext64 w x.toNat = (x.setWidth w).signExtend 64 := by
  rw [← BitVec.ofNat_toNat, BitVec.signExtend, toInt_eq _ _ hw]
  unfold sext64
  congr 1

theorem ofNat_toNat_mod {w : Nat} (v k : Nat) (x : BitVec w) : BitVec.ofNat v (x.toNat % 2 ^ k) = (x.setWidth k).setWidth v := by
  refine BitVec.eq_of_toNat_eq ?_
  rw [BitVec.toNat_ofNat, BitVec.toNat_setWidth, BitVec.toNat_setWidth]

/-! ### Numbers (R126, R156, R157) -/

theorem mulResult_wrap (t : IntTy) (a b : Int) : mulResult t .wrap a b = patternOf t false (a * b) := intResult_eq ..

theorem mulResult_sat (t : IntTy) (a b : Int) : mulResult t .sat a b = patternOf t true (a * b) := intResult_eq ..

theorem mulResult_hi (t : IntTy) (a b : Int) : mulResult t .hi a b = patternOf t false ((a * b) >>> t.width) := by
  rw [mulResult, wrap_eq, Int.shiftRight_eq_div_pow]
  rfl

theorem natAbs_eq_max (x : Int) : (x.natAbs : Int) = max x (-x) := by rw [Int.natCast_natAbs, abs_eq_max_neg]

end Sys2Proof.Machine
end

section
/-! Moves, short immediates and LEA (R155, R114, R28, R162). -/

open Sys2Proof.Machine in
/-- Settles O1: each writes one register, or the pair of LEA, with the bit-vector reading of what the model computes on naturals. -/
theorem movesAndAddresses : Obligations.MovesAndAddresses := by
  unfold Obligations.MovesAndAddresses
  refine ⟨⟨fun o => wordStep (fun _ => rfl) fun _ _ _ => BitVec.ofNat_toNat .., fun o => wordStep (fun _ => rfl) fun _ _ _ => BitVec.ofNat_toNat ..,
    fun o => wordStep (fun _ => rfl) fun _ _ _ => BitVec.ofNat_toNat .., fun o => wordStep (fun _ => rfl) fun _ _ _ => BitVec.ofNat_toNat ..,
    fun o => wordStep (fun _ => rfl) ?special⟩, fun o => intStep (t := .n64) (fun _ => rfl) ?lea ?pair⟩
  case special =>
    intro c n th
    cases h : o.sel <;> simp [specialValue]
  case lea =>
    intro c n th
    cases o.t <;> simp only [leaIndex, ofNat_toNat_mod, sext64_toNat, BitVec.setWidth_eq, Nat.ofNat_pos]
  case pair =>
    intro k h
    simp only [Sys2Proof.Instr.regsOk, Bool.and_eq_true, and_assoc] at h
    exact h.1
end

section
/-! Integer arithmetic (R156, R157). -/

open Sys2Proof.Machine in
/-- Settles O2: each result is the pattern of one exact integer. -/
theorem integerArithmetic : Obligations.IntegerArithmetic := by
  unfold Obligations.IntegerArithmetic
  refine ⟨fun o => intStep (fun _ => rfl) ?add, fun o => intStep (fun _ => rfl) ?sub, fun o => intStep (fun _ => rfl) ?mul,
    fun o => intStep (fun _ => rfl) ?mad, fun o => intStep (fun _ => rfl) ?min, fun o => intStep (fun _ => rfl) ?max,
    fun o => intStep (fun _ => rfl) ?abs⟩
  case add | sub | mad | min | max => exact fun _ _ _ => by simp only [intResult_eq, intVal_eq]
  case mul =>
    intro c n th
    simp only [intVal_eq]
    cases o.mode
    · exact mulResult_wrap ..
    · exact mulResult_sat ..
    · exact mulResult_hi ..
  case abs => exact fun _ _ _ => by simp only [intResult_eq, intVal_eq, natAbs_eq_max]
end


section
/-! SUPPORT. Patterns of `w` bits (R158 to R161): the model's arithmetic on naturals is that of bit vectors. -/

namespace Sys2Proof.Machine

theorem width_pos (t : IntTy) : 0 < t.width := by cases t <;> decide

theorem bfTy_width (t : BfTy) : (BfTy.intTy t).width = t.width := by cases t <;> rfl

/-! ### Operands as bit vectors (R152, R153) -/

section
variable (c : Cx) (n op th w : Nat)

theorem Cx.lane_lt (r : Nat) : c.lane n op th w r < 2 ^ w := by
  unfold Cx.lane
  split
  next h =>
    subst h
    have low := (c.v n op th r).isLt
    have high := (c.v n op th (r + 1)).isLt
    omega
  · exact Nat.mod_lt _ (by positivity)

theorem Cx.src_lt (b : Src) : c.src n op th w b < 2 ^ w := by
  cases b with
  | reg v => exact c.lane_lt ..
  | imm i => exact (wrap_eq w i.toInt).trans_lt (BitVec.isLt _)

@[simp] theorem Cx.toNat_lane (r : Nat) : (BitVec.ofNat w (c.lane n op th w r)).toNat = c.lane n op th w r := by
  rw [BitVec.toNat_ofNat, Nat.mod_eq_of_lt (c.lane_lt ..)]

@[simp] theorem Cx.toNat_src (b : Src) : (BitVec.ofNat w (c.src n op th w b)).toNat = c.src n op th w b := by
  rw [BitVec.toNat_ofNat, Nat.mod_eq_of_lt (c.src_lt ..)]

end

/-! ### Tests (R166) -/

theorem number_eq_zero (t : IntTy) {x : Nat} (hx : x < 2 ^ t.width) : number t x = 0 ↔ x = 0 := by
  have pattern : BitVec.ofNat t.width x = 0 ↔ x = 0 := by
    rw [← BitVec.toNat_inj, BitVec.toNat_ofNat, Nat.mod_eq_of_lt hx]
    rfl
  unfold number
  split
  · rw [← BitVec.toInt_zero (w := t.width), BitVec.toInt_inj]
    exact pattern
  · rw [Int.natCast_eq_zero, BitVec.toNat_ofNat, Nat.mod_eq_of_lt hx]

theorem bitAt_eq_testBit (x i : Nat) : bitAt x i = x.testBit i := by
  rw [bitAt, Nat.testBit_eq_decide_div_mod_eq, beq_eq_decide]

section
variable {w : Nat} (a : BitVec w)

/-! ### Shifts (R159) -/

theorem shlBits_toNat (n : Nat) : shlBits w a.toNat n = (a <<< (n % w)).toNat := by
  rw [shlBits, BitVec.toNat_shiftLeft, Nat.shiftLeft_eq]

theorem shrBits_toNat (n : Nat) : shrBits w a.toNat n = (a >>> (n % w)).toNat := by
  rw [shrBits, BitVec.toNat_ushiftRight, Nat.shiftRight_eq_div_pow]

theorem msb_eq_div (hw : 0 < w) : a.msb = decide (a.toNat / 2 ^ (w - 1) % 2 = 1) := by
  obtain ⟨k, rfl⟩ := Nat.exists_eq_add_of_lt hw
  rw [BitVec.msb_eq_getLsbD_last, ← BitVec.testBit_toNat, Nat.testBit_eq_decide_div_mod_eq]

theorem shaBits_toNat (hw : 0 < w) (n : Nat) : shaBits w a.toNat n = (a.sshiftRight (n % w)).toNat := by
  have sign := msb_eq_div a hw
  unfold shaBits
  split
  next h =>
    rw [BitVec.sshiftRight_eq_of_msb_true (by rw [sign, decide_eq_true h]), BitVec.toNat_not, BitVec.toNat_ushiftRight,
      BitVec.toNat_not, Nat.shiftRight_eq_div_pow]
  next h =>
    rw [BitVec.sshiftRight_eq_of_msb_false (by rw [sign, decide_eq_false h]), BitVec.toNat_ushiftRight, Nat.shiftRight_eq_div_pow]

/-! ### Bit counts (R160) -/

theorem popNat_eq (n x : Nat) : popNat n x = ((List.range n).filter (fun i => x.testBit i)).length := by
  induction n generalizing x with
  | zero => rfl
  | succ n ih =>
    have rest : (List.range n).filter ((fun i => x.testBit i) ∘ Nat.succ) = (List.range n).filter (fun i => (x / 2).testBit i) :=
      List.filter_congr fun i _ => Nat.testBit_succ x i
    rw [popNat, ih, List.range_succ_eq_map, List.filter_cons, List.filter_map, rest, Nat.testBit_zero]
    obtain h | h := Nat.mod_two_eq_zero_or_one x <;> simp [h, Nat.add_comm]

theorem popNat_toNat : popNat w a.toNat = ((List.range w).filter (fun i => a.getLsbD i)).length := popNat_eq w a.toNat

/-- The number of items in front of the first one that fails a test. -/
theorem takeWhile_range_length {p : Nat → Bool} {k n : Nat} (hn : k < n) (hp : ∀ i < k, p i = true) (hk : p k = false) :
    ((List.range n).takeWhile p).length = k := by
  obtain ⟨m, rfl⟩ := Nat.exists_eq_add_of_lt hn
  rw [Nat.add_assoc, List.range_add, List.takeWhile_append_of_pos fun i hi => hp i (List.mem_range.mp hi), List.range_succ_eq_map]
  simp [hk]

theorem clzBits_toNat : clzBits w a.toNat = ((List.range w).takeWhile (fun i => !a.getMsbD i)).length := by
  unfold clzBits
  split
  next h =>
    have all (i : Nat) (_ : i ∈ List.range w) : (!a.getMsbD i) = true := by simp [BitVec.eq_of_toNat_eq (y := 0#w) h]
    rw [List.takeWhile_eq_self_iff.mpr all, List.length_range]
  next h =>
    have top : a.toNat.log2 < w := (Nat.log2_lt h).mpr a.isLt
    refine (takeWhile_range_length (by omega) (fun i hi => ?_) ?_).symm
    · have above : a.toNat.testBit (w - 1 - i) = false := Nat.testBit_lt_two_pow ((Nat.log2_lt h).mp (by omega))
      rw [BitVec.getMsbD_eq_getLsbD, ← BitVec.testBit_toNat, above, Bool.and_false, Bool.not_false]
    · rw [BitVec.getMsbD_eq_getLsbD, ← BitVec.testBit_toNat, show w - 1 - (w - 1 - a.toNat.log2) = a.toNat.log2 by omega,
        Nat.testBit_log2 h, decide_eq_true (by omega)]
      rfl

/-! ### Bit fields (R161) -/

theorem fieldLen_eq (w p n : Nat) : fieldLen w p n = min n (w - p) := by
  unfold fieldLen
  split <;> omega

theorem bfxBits_toNat (signed : Bool) (p n : Nat) : bfxBits w signed a.toNat p n =
    (if signed then (a.extractLsb' p (min n (w - p))).signExtend w else (a.extractLsb' p (min n (w - p))).setWidth w).toNat := by
  have narrow : min n (w - p) ≤ w := by omega
  have field : a.toNat / 2 ^ p % 2 ^ min n (w - p) = (a.extractLsb' p (min n (w - p))).toNat := by
    rw [BitVec.extractLsb'_toNat, Nat.shiftRight_eq_div_pow]
  rw [bfxBits, fieldLen_eq, field]
  generalize a.extractLsb' p (min n (w - p)) = x
  generalize min n (w - p) = len at *
  have plain : (x.setWidth w).toNat = x.toNat := BitVec.toNat_setWidth_of_le narrow
  cases signed
  · simp [plain]
  · rw [if_pos rfl, BitVec.toNat_signExtend, plain]
    obtain rfl | pos := Nat.eq_zero_or_pos len
    · obtain rfl := BitVec.eq_nil x
      rfl
    · rw [msb_eq_div x pos]
      simp only [pos.ne', ne_eq, not_false_eq_true, decide_true, Bool.and_true, Bool.true_and, decide_eq_true_eq]
      split <;> rfl

theorem bfiBits_toNat (d : BitVec w) (p n : Nat) : bfiBits w a.toNat d.toNat p n =
    ((a <<< p) &&& (((BitVec.allOnes n).setWidth w) <<< p) ||| d &&& ~~~(((BitVec.allOnes n).setWidth w) <<< p)).toNat := by
  have digits : bfiBits w a.toNat d.toNat p n =
      2 ^ p * (2 ^ min n (w - p) * (d.toNat / 2 ^ (p + min n (w - p))) + a.toNat % 2 ^ min n (w - p)) + d.toNat % 2 ^ p := by
    rw [bfiBits, fieldLen_eq]
    split
    next h => rw [h, pow_zero, one_mul, Nat.mod_one, Nat.add_zero, Nat.add_zero, Nat.div_add_mod]
    next => ring
  rw [digits]
  refine Nat.eq_of_testBit_eq fun i => ?_
  rw [Nat.testBit_two_pow_mul_add _ (Nat.mod_lt _ (by positivity)), Nat.testBit_two_pow_mul_add _ (Nat.mod_lt _ (by positivity)),
    BitVec.testBit_toNat]
  simp only [Nat.testBit_mod_two_pow, Nat.testBit_div_two_pow, BitVec.testBit_toNat, BitVec.getLsbD_or, BitVec.getLsbD_and, BitVec.getLsbD_not,
    BitVec.getLsbD_shiftLeft, BitVec.getLsbD_setWidth, BitVec.getLsbD_allOnes]
  obtain high | low := le_or_gt w i
  · have outside : ¬ i - p < min n (w - p) ∨ i < p := by omega
    have beyond : w ≤ i - p - min n (w - p) + (p + min n (w - p)) ∨ i < p := by omega
    obtain h | h := lt_or_ge i p
    · simp [h, high.not_gt, BitVec.getLsbD_of_ge d i high]
    · simp [h.not_gt, outside.resolve_right h.not_gt, high.not_gt, BitVec.getLsbD_of_ge d _ (beyond.resolve_right h.not_gt)]
  · obtain h | h := lt_or_ge i p
    · simp [h, low]
    · have inside : i - p < min n (w - p) ↔ i - p < n := by omega
      have same : i - p - min n (w - p) + (p + min n (w - p)) = i ∨ i - p < n := by omega
      by_cases hn : i - p < n
      · simp [h.not_gt, low, inside, hn, show i - p < w by omega]
      · simp [h.not_gt, low, inside, hn, same.resolve_right hn]

end

end Sys2Proof.Machine
end

section
/-! Logic, shifts, bit counts and bit fields (R158 to R161). -/

open Sys2Proof.Machine in
/-- Settles O3: every pattern is the bit vector that the lemma on its operation names. -/
theorem logicShiftsAndBitFields : Obligations.LogicShiftsAndBitFields := by
  unfold Obligations.LogicShiftsAndBitFields
  refine ⟨⟨fun o => intStep (fun _ => rfl) ?and, fun o => intStep (fun _ => rfl) ?or, fun o => intStep (fun _ => rfl) ?xor,
    fun o => wordStep (fun _ => rfl) ?popc, fun o => wordStep (fun _ => rfl) ?clz, fun o => intStep (fun _ => rfl) ?bfx ?bfxReg,
    fun o => intStep (fun _ => rfl) ?bfi ?bfiReg⟩, fun o => intStep (fun _ => rfl) ?shl, fun o => intStep (fun _ => rfl) ?shr,
    fun o => intStep (fun _ => rfl) ?sha⟩
  case and | or | xor => exact fun _ _ _ => by simp only [BitVec.toNat_and, BitVec.toNat_or, BitVec.toNat_xor, Cx.toNat_lane, Cx.toNat_src]
  case popc => exact fun _ _ _ => by rw [← popNat_toNat, Cx.toNat_lane]
  case clz => exact fun _ _ _ => by rw [← clzBits_toNat, Cx.toNat_lane]
  case bfx => exact fun _ _ _ => by simp only [← bfxBits_toNat, Cx.toNat_lane]
  case bfi => exact fun _ _ _ => by simp only [← bfiBits_toNat, Cx.toNat_lane]
  case shl => exact fun _ _ _ => by simp only [← shlBits_toNat, Cx.toNat_lane]
  case shr => exact fun _ _ _ => by simp only [← shrBits_toNat, Cx.toNat_lane]
  case sha => exact fun _ _ _ => by rw [← shaBits_toNat _ (width_pos _), Cx.toNat_lane]
  case bfxReg | bfiReg =>
    intro k h
    simp only [Sys2Proof.Instr.regsOk, Bool.and_eq_true, and_assoc, ← bfTy_width] at h
    exact h.1
end

section
/-! Compares, predicates and selection (R163, R164, R166, R167). -/

open Sys2Proof.Machine in
/-- Settles O4: compares and tests by the numbers of their patterns, predicate functions by their truth tables. -/
theorem comparePredicateSelect : Obligations.ComparePredicateSelect := by
  unfold Obligations.ComparePredicateSelect
  refine ⟨fun o => predStep (fun _ => rfl) ?icmp, fun o => predStep (fun _ => rfl) ?qset, fun o => predStep (fun _ => rfl) ?qop,
    fun o => intStep (fun _ => rfl) ?sel ?selReg⟩
  case icmp =>
    intro c n th
    rw [intVal_eq, intVal_eq]
    cases o.c <;> simp [intCompare, bne, beq_eq_decide]
  case qset =>
    intro c n th
    cases o.fn with
    | clr | set => rfl
    | nz t va =>
      simp only [qsetValue, bne, beq_eq_decide, ne_eq, number_eq_zero t (c.lane_lt ..), decide_not]
    | bit t va i =>
      simp only [qsetValue, bitAt_eq_testBit, ← BitVec.testBit_toNat, Cx.toNat_lane]
  case qop =>
    intro c n th
    cases o.fn <;> cases c.q n 1 th o.qa.toNat <;> cases c.q n 2 th o.qb.toNat <;> rfl
  case sel =>
    intro c n th
    cases c.q n 3 th o.qs.toNat <;> cases o.neg <;> rfl
  case selReg =>
    intro k h
    simp only [Sys2Proof.Instr.regsOk, Bool.and_eq_true, and_assoc] at h
    cases hw : o.wide <;> simpa [hw, Sys2Proof.IntTy.width] using h.1
end

section
/-! SUPPORT. Operands, addresses and elements of memory (R5, R64 to R66, R137, R152, R153, R237, R238) as bit vectors. -/

namespace Sys2Proof.Machine

/-! ### Lists of equal pieces -/

/-- A place in pieces of `m` items put together. -/
theorem getElem?_flatMap_of_length {α β : Type} {f : α → List β} {m : Nat} (hm : 0 < m) (hf : ∀ x, (f x).length = m) (l : List α) (i : Nat) :
    (l.flatMap f)[i]? = l[i / m]?.bind (fun x => (f x)[i % m]?) := by
  induction l generalizing i with
  | nil => simp
  | cons x l ih =>
    rw [List.flatMap_cons]
    obtain low | high := lt_or_ge i m
    · rw [List.getElem?_append_left (by rw [hf]; exact low), Nat.div_eq_of_lt low, Nat.mod_eq_of_lt low]
      rfl
    · obtain ⟨j, rfl⟩ := Nat.exists_eq_add_of_le high
      rw [List.getElem?_append_right (by rw [hf]; exact high), hf, Nat.add_sub_cancel_left, ih, Nat.add_div_left _ hm, Nat.add_mod_left]
      rfl

/-! ### Bytes -/

theorem leBytes_getElem? {n i : Nat} (v : Nat) (h : i < n) : (leBytes n v)[i]? = some (BitVec.ofNat 8 (v / 2 ^ (8 * i))) := by
  induction n generalizing v i with
  | zero => omega
  | succ n ih =>
    cases i with
    | zero => simp [leBytes]
    | succ i =>
      rw [leBytes, List.getElem?_cons_succ, ih _ (by omega), Nat.div_div_eq_div_mul, Nat.mul_succ, Nat.pow_add, Nat.mul_comm]

theorem leBytes_leNat (bs : List Byte) : leBytes bs.length (leNat bs) = bs := by
  induction bs with
  | nil => rfl
  | cons b bs ih =>
    have low : BitVec.ofNat 8 (leNat (b :: bs)) = b := BitVec.eq_of_toNat_eq (by
      rw [BitVec.toNat_ofNat, leNat, Nat.add_mul_mod_self_left, Nat.mod_eq_of_lt b.isLt])
    have rest : leNat (b :: bs) / 256 = leNat bs := by
      have := b.isLt
      rw [leNat]
      omega
    rw [List.length_cons, leBytes, low, rest, ih]

theorem ofNat_div_toNat {w : Nat} (k s : Nat) (x : BitVec w) : BitVec.ofNat k (x.toNat / 2 ^ s) = (x >>> s).setWidth k := by
  refine BitVec.eq_of_toNat_eq ?_
  rw [BitVec.toNat_ofNat, BitVec.toNat_setWidth, BitVec.toNat_ushiftRight, Nat.shiftRight_eq_div_pow]

/-! ### Operands -/

section
variable (c : Cx) (n op th : Nat)

theorem Cx.lane_narrow {w : Nat} (h : w ≤ 32) (r : Nat) : c.lane n op th w r = ((c.v n op th r).setWidth w).toNat := by
  rw [Cx.lane, if_neg (by omega), BitVec.toNat_setWidth]

theorem Cx.lane_wide (r : Nat) : c.lane n op th 64 r = ((c.v n op th (r + 1)) ++ (c.v n op th r)).toNat := by
  rw [Cx.lane, if_pos rfl, BitVec.toNat_append, ← Nat.shiftLeft_add_eq_or_of_lt (BitVec.isLt _), Nat.shiftLeft_eq, Nat.add_comm]

/-- Bytes 0 and 1 of the register give a bit field's position and length. -/
theorem Cx.bitField_reg (r : BitVec 8) : c.bitField n th (.reg r)
    = (((c.v n 2 th r.toNat).setWidth 8).toNat, (((c.v n 2 th r.toNat) >>> 8).setWidth 8).toNat) := by
  rw [Cx.bitField, ← ofNat_div_toNat, BitVec.toNat_ofNat, BitVec.toNat_setWidth]
  rfl

theorem Cx.storeData_getElem? (vt : Nat) {k i : Nat} (h : i < k) :
    (c.storeData n th vt k)[i]? = some (((c.v n 2 th (vt + i / 4)) >>> (8 * (i % 4))).setWidth 8) := by
  have word : i / 4 < wordCount k := by
    unfold wordCount
    omega
  rw [Cx.storeData, List.getElem?_take_of_lt h, getElem?_flatMap_of_length (by decide) (leBytes_length 4), Cx.regs, List.getElem?_map,
    List.getElem?_range word, Option.map_some, Option.bind_some, leBytes_getElem? _ (Nat.mod_lt _ (by decide)), ofNat_div_toNat]

/-! ### Addresses -/

theorem sext64_mod {w k : Nat} (hw : 0 < w) (x : BitVec k) : sext64 w (x.toNat % 2 ^ w) = (x.setWidth w).signExtend 64 := by
  rw [← BitVec.toNat_setWidth, sext64_toNat hw, BitVec.setWidth_eq]

theorem signExtend_mul_ofNat {w : Nat} (x : BitVec w) (size : Nat) :
    x.signExtend 64 * BitVec.ofNat 64 size = BitVec.ofInt 64 (x.toInt * size) := by
  rw [BitVec.ofInt_mul, BitVec.ofInt_natCast]
  rfl

end

theorem loadOut_wide {t : ElemTy} {bs : List Byte} {i : Nat} (ht : 32 ≤ t.width) (hi : i < bs.length / 4) (th vt : Nat) :
    (loadOut t th vt bs)[i]? = some (.v th (vt + i), BitVec.ofNat 64 (leNat ((bs.drop (4 * i)).take 4))) := by
  rw [loadOut.eq_def, if_neg ht.not_gt, List.getElem?_map, List.getElem?_range hi, Option.map_some]

end Sys2Proof.Machine
end

section
/-! Operands, addresses and elements of memory (R5, R64 to R66, R126, R129, R152, R153, R237, R238). -/

open Sys2Proof.Machine in
/-- Settles O5: the model's remainders and quotients by powers of 2 are cuts, shifts and extensions of bit vectors. -/
theorem operandsAndElements : Obligations.OperandsAndElements := by
  unfold Obligations.OperandsAndElements
  refine ⟨⟨fun c n op th _ r h => c.lane_narrow n op th h r, fun c n op th r => c.lane_wide n op th r, fun _ _ _ _ _ _ => rfl,
    fun _ _ _ _ _ _ => wrap_eq .., fun _ _ _ _ => rfl, fun _ _ _ _ => wrap_eq .., fun c n th r => c.bitField_reg n th r,
    fun _ _ _ _ _ => rfl, outInt_eq, outFlt_eq⟩, ⟨?addr, ?gaddr⟩, ?int, ?flt, fun t th vt bs i => loadOut_wide (th := th) (vt := vt),
    fun c n th vt k i h => c.storeData_getElem? n th vt h, leBytes_leNat, leNat_leBytes⟩
  case addr =>
    intro c n th size a
    rw [Cx.addr, signExtend_mul_ofNat]
    cases ha : a.idx
    case pair v => simp only [Cx.index, Cx.lane_wide, BitVec.ofNat_toNat, BitVec.setWidth_eq]
    all_goals rfl
  case gaddr =>
    intro c n th size x
    simp only [Cx.gaddr, signExtend_mul_ofNat]
    cases x.width <;> cases x.signed <;>
      simp only [ofNat_toNat_mod, sext64_mod, BitVec.setWidth_eq, Nat.ofNat_pos, if_true, Bool.false_eq_true, if_false]
  case int =>
    intro t th vt bs h
    exact (if_pos h).trans (outInt_eq ..)
  case flt =>
    intro t th vt bs h
    exact (if_pos h).trans (outFlt_eq ..)
end

section
/-! SUPPORT. Numbers known only up to the next multiple of a fine unit (R169): every mode rounds them as any other number between the
same two multiples. -/

namespace Sys2Proof.Machine

/-! ### Between two multiples of a unit -/

/-- `x` lies strictly between two consecutive multiples of a power of 2. -/
def Inside (q : Nat) (e : Int) (x : ℚ) : Prop := grid e q < x ∧ x < grid e (q + 1)

/-- `p` does not. -/
def Apart (q : Nat) (e : Int) (p : ℚ) : Prop := p ≤ grid e q ∨ grid e (q + 1) ≤ p

/-- A multiple of a finer unit that is large compared with `n` is not passed by any multiple `n` of a power of 2. -/
theorem apart_grid {n q : Nat} (h : n ≤ q) (j e : Int) : Apart q e (grid j n) := by
  obtain hje | hje := le_or_gt e j
  · have fine : grid j n = grid e (n * 2 ^ (j - e).toNat) := by
      rw [grid, grid, Nat.cast_mul, Nat.cast_pow, Nat.cast_ofNat, mul_assoc, two_pow_toNat_mul hje]
    rw [fine]
    exact (le_or_gt (n * 2 ^ (j - e).toNat) q).imp (fun h => (grid_strictMono e).monotone h) fun h => (grid_strictMono e).monotone h
  · refine .inl ?_
    unfold grid
    gcongr
    exact one_le_two

theorem grid_nonneg (e : Int) (q : Nat) : 0 ≤ grid e q := by
  unfold grid
  positivity

/-- The middle of two neighbours is a multiple of half their unit. -/
theorem grid_middle (j : Int) (n : Nat) : (grid j n + grid j (n + 1)) / 2 = grid (j - 1) (2 * n + 1) := by
  have half : (2 : ℚ) ^ j = 2 * (2 : ℚ) ^ (j - 1) := by rw [← zpow_one_add₀ two_ne_zero, add_sub_cancel]
  simp only [grid, half]
  push_cast
  ring

section
variable {q : Nat} {e : Int} {x y p lo hi : ℚ}

theorem Inside.pos (h : Inside q e x) : 0 < x := (grid_nonneg e q).trans_lt h.1

theorem Inside.le_iff (h : Inside q e x) (hp : Apart q e p) : p ≤ x ↔ p ≤ grid e q :=
  ⟨fun hpx => hp.resolve_right fun hq => (h.2.trans_le hq).not_ge hpx, fun hp => hp.trans h.1.le⟩

theorem Inside.lt_iff (h : Inside q e x) (hp : Apart q e p) : p < x ↔ p ≤ grid e q :=
  ⟨fun hpx => (h.le_iff hp).mp hpx.le, fun hp => hp.trans_lt h.1⟩

theorem Inside.ne (h : Inside q e x) (hp : Apart q e p) : p ≠ x := by
  rintro rfl
  exact lt_irrefl _ ((h.lt_iff hp).mpr ((h.le_iff hp).mp le_rfl))

theorem Inside.roundsUp_eq (hx : Inside q e x) (hy : Inside q e y) (hlo : Apart q e lo) (mid : Apart q e ((lo + hi) / 2)) (md : Rnd) (odd : Bool) :
    roundsUp md x lo hi odd = roundsUp md y lo hi odd := by
  have twice (z : ℚ) : (lo + hi < 2 * z ↔ (lo + hi) / 2 < z) ∧
      (lo + hi ≤ 2 * z ↔ (lo + hi) / 2 ≤ z) ∧ (lo + hi = 2 * z ↔ (lo + hi) / 2 = z) := by
    refine ⟨?_, ?_, ?_⟩ <;> constructor <;> intro h <;> linarith
  cases md <;> simp only [roundsUp, beq_eq_decide, twice, hx.lt_iff, hx.le_iff, hy.lt_iff, hy.le_iff, hlo, mid, hx.ne mid, hy.ne mid]

end

/-! ### What a format tells apart -/

section
variable {t : FTy} {q : Nat} (hq : 4 * 2 ^ fracBits t ≤ q) (e : Int)
include hq

theorem apart_magnitude (b : Nat) : Apart q e (magnitude t b) ∧ Apart q e ((magnitude t b + magnitude t (b + 1)) / 2) := by
  obtain ⟨k, r, rfl, hk, hr⟩ := exists_grid t b
  have low := magnitude_grid t hk hr.le
  have high := magnitude_grid t (k := k) (q := r + 1) (by omega) (by omega)
  rw [← Nat.add_assoc] at high
  rw [low, high]
  exact ⟨apart_grid (by omega) _ e, (grid_middle _ r).symm ▸ apart_grid (by omega) _ e⟩

variable {e} {md : Rnd} {x y : ℚ} (hx : Inside q e x) (hy : Inside q e y)
include hx hy

theorem roundsIn_inside {b : Nat} (h : RoundsIn (magnitude t) md x b) : RoundsIn (magnitude t) md y b := by
  obtain ⟨b0, lo, hi, rfl⟩ := h
  obtain ⟨place, middle⟩ := apart_magnitude hq e b0
  obtain ⟨next, -⟩ := apart_magnitude hq e (b0 + 1)
  refine ⟨b0, (hy.le_iff place).mpr ((hx.le_iff place).mp lo), ?_, by rw [hx.roundsUp_eq hy place middle]⟩
  rw [← not_le, hy.le_iff next, ← hx.le_iff next, not_le]
  exact hi

theorem overflows_inside : Overflows t md x ↔ Overflows t md y := by
  have place : finiteEnd t - 1 + 1 = finiteEnd t := Nat.sub_add_cancel (by cases t <;> decide)
  obtain ⟨last, middle⟩ := apart_magnitude hq e (finiteEnd t - 1)
  obtain ⟨top, -⟩ := apart_magnitude hq e (finiteEnd t)
  rw [place] at middle
  rw [overflows_iff hx.pos, overflows_iff hy.pos, hx.roundsUp_eq hy last middle, hx.le_iff top, hy.le_iff top]

theorem tiny_inside : Tiny t md x ↔ Tiny t md y := by
  have pos : 0 < 2 ^ fracBits t := by positivity
  obtain ⟨n, hn⟩ : ∃ n, n + 1 = 2 * 2 ^ fracBits t := ⟨_, Nat.sub_add_cancel (by omega)⟩
  have low : grid (-fBias t - fracBits t) (n + 1) = (2 : ℚ) ^ (1 - (fBias t : Int)) := by
    rw [grid, hn, Nat.cast_mul, Nat.cast_pow, Nat.cast_ofNat, ← zpow_natCast, ← zpow_one_add₀ two_ne_zero, ← zpow_add₀ two_ne_zero]
    congr 1
    ring
  have last : grid (-fBias t - fracBits t) (n + 1) - (2 : ℚ) ^ (-(fBias t : Int) - fracBits t) = grid (-fBias t - fracBits t) n := by
    rw [grid, grid, Nat.cast_succ]
    ring
  have place := apart_grid (q := q) (n := n + 1) (by omega) (-fBias t - fracBits t) e
  have before := apart_grid (q := q) (n := n) (by omega) (-fBias t - fracBits t) e
  have middle := apart_grid (q := q) (n := 2 * n + 1) (by omega) (-fBias t - fracBits t - 1) e
  rw [← grid_middle] at middle
  rw [tiny_iff hx.pos, tiny_iff hy.pos]
  simp only [← low, last, hx.roundsUp_eq hy before middle, hx.le_iff place, hy.le_iff place]

end

/-! ### One rounding -/

theorem rat_of_lt {t : FTy} {b : Nat} (hb : b < finiteEnd t) : (fDecode t b).rat = magnitude t b := by
  simpa [fZero] using rat_signed t false hb

theorem inside_middle (q : Nat) (e : Int) : Inside q e ((2 * q + 1 : Nat) * (2 : ℚ) ^ (e - 1)) := by
  have middle := grid_middle e q
  have step := grid_strictMono e (Nat.lt_succ_self q)
  change Inside q e (grid (e - 1) (2 * q + 1))
  rw [← middle]
  constructor <;> linarith

section
variable {t : FTy} {q : Nat} {e : Int} {x : ℚ}

/-- R169: rounding the odd multiple of half the unit rounds every number beside it. -/
theorem delivered_inside (hq : 4 * 2 ^ fracBits t ≤ q) (hx : Inside q e x) (md : Rnd) :
    Delivered t md x (roundTo t md false false (2 * q + 1) (e - 1)) := by
  have hm := inside_middle q e
  have odd : 0 < 2 * q + 1 := Nat.succ_pos _
  obtain ⟨b, isExact, isTiny, rounds, -, -, eq⟩ := roundTo_pos odd (e - 1) t md
  have reaches := rounds.reaches (magnitude_strictMono t) (c := finiteEnd t) (by cases t <;> rfl) (by cases t <;> decide)
  rw [← overflows_iff hm.pos] at reaches
  obtain ⟨overflowing, fitting⟩ := delivered_pos t md odd (e - 1)
  refine ⟨fun h => ?_, fun h => ?_⟩
  · simpa only [hx.pos.not_gt, hm.pos.not_gt] using overflowing ((overflows_inside hq hm hx).mpr h)
  · have fits := mt (overflows_inside hq hm hx).mp h
    have hb : b < finiteEnd t := not_le.mp (mt reaches.mp fits)
    have bits : (roundTo t md false false (2 * q + 1) (e - 1)).1 = b := by
      rw [eq false, if_neg hb.not_ge]
      rfl
    have differs {z : ℚ} (hz : Inside q e z) : magnitude t b ≠ z := hz.ne (apart_magnitude hq e b).1
    obtain ⟨lt, fin, -, sign, nx, uf, rest⟩ := fitting fits
    rw [bits, rat_of_lt hb] at *
    rw [if_neg hm.pos.not_gt] at sign
    rw [if_neg hx.pos.not_gt]
    simp only [ne_eq, differs hm, tiny_inside hq hm hx] at nx uf
    simp only [ne_eq, differs hx]
    exact ⟨lt, fin, takes_of_rounds hx.pos (roundsIn_inside hq hm hx rounds), sign, nx, uf, rest⟩

end

/-! ### Values with a sticky bit -/

theorem four_units_le (t : FTy) : 4 * 2 ^ fracBits t ≤ 2 ^ 54 := by cases t <;> decide

section
variable {q : Nat} {e : Int} {x : ℚ} {inexact : Bool}

/-- A number that `sticky` stands for: the multiple itself, or one above it and below the next. -/
def StickyFor (q : Nat) (e : Int) (inexact : Bool) (x : ℚ) : Prop := if inexact then Inside q e x else x = grid e q

theorem StickyFor.pos (h : StickyFor q e inexact x) (hq : 0 < q) : 0 < x := by
  cases inexact
  · obtain rfl : x = grid e q := h
    unfold grid
    positivity
  · exact Inside.pos h

/-- R169: what `sticky` gives is the exact number rounded once. -/
theorem delivered_sticky (t : FTy) (md : Rnd) (hq : 2 ^ 54 ≤ q) (h : StickyFor q e inexact x) :
    Delivered t md x (deliver t md false (sticky false q e inexact) 0) ∧
    Delivered t md (-x) (deliver t md false (sticky true q e inexact) 0) := by
  have fine := (four_units_le t).trans hq
  have pos := h.pos (by omega)
  have single (m : Nat) (e : Int) (hm : 0 < m) (h : ∀ md, Delivered t md x (roundTo t md false false m e)) :
      Delivered t md x (deliver t md false (.fin false m e) 0) ∧ Delivered t md (-x) (deliver t md false (.fin true m e) 0) := by
    simp only [deliver, if_neg hm.ne', flags_or_zero]
    exact ⟨h md, roundTo_neg t md false m e ▸ delivered_neg pos (h (mirror md))⟩
  cases inexact
  · obtain rfl : x = grid e q := h
    exact single q e (by omega) fun md => delivered_pos t md (by omega) e
  · exact single (2 * q + 1) (e - 1) (by omega) (delivered_inside fine h)

end

/-! ### Reciprocals -/

/-- A quotient cut down to an integer number of units. -/
theorem stickyFor_div (a : Nat) {m : Nat} (hm : 0 < m) (e : Int) : StickyFor (a / m) e (a % m != 0) (a / m * (2 : ℚ) ^ e) := by
  have scale : (0 : ℚ) < (2 : ℚ) ^ e := by positivity
  have hm' : (0 : ℚ) < m := by exact_mod_cast hm
  have split := Nat.div_add_mod' a m
  unfold StickyFor Inside grid
  by_cases h : a % m = 0
  · simp only [h, bne_self_eq_false, Bool.false_eq_true, if_false, mul_left_inj' scale.ne']
    rw [div_eq_iff hm'.ne']
    rw [h, Nat.add_zero] at split
    exact_mod_cast split.symm
  · have low := Nat.mod_lt a hm
    rw [if_pos (bne_iff_ne.mpr h), mul_lt_mul_iff_left₀ scale, mul_lt_mul_iff_left₀ scale, lt_div_iff₀ hm', div_lt_iff₀ hm']
    exact ⟨by exact_mod_cast (show a / m * m < a by omega), by exact_mod_cast (show a < (a / m + 1) * m by rw [Nat.add_mul]; omega)⟩

theorem stickyFor_rcp {m : Nat} (hm : 0 < m) (k : Nat) (e : Int) :
    StickyFor (2 ^ k / m) (-(k : Int) - e) (2 ^ k % m != 0) (1 / (m * (2 : ℚ) ^ e)) := by
  have value : ((2 ^ k : Nat) / m * (2 : ℚ) ^ (-(k : Int) - e) : ℚ) = 1 / (m * (2 : ℚ) ^ e) := by
    rw [zpow_sub₀ two_ne_zero, zpow_neg, zpow_natCast, Nat.cast_pow, Nat.cast_ofNat]
    field_simp
  exact value ▸ stickyFor_div (2 ^ k) hm (-(k : Int) - e)

theorem le_two_pow_div {m k : Nat} (hm : 0 < m) (hk : m.log2 + 55 ≤ k) : 2 ^ 54 ≤ 2 ^ k / m := by
  rw [Nat.le_div_iff_mul_le hm]
  calc 2 ^ 54 * m ≤ 2 ^ 54 * 2 ^ (m.log2 + 1) := Nat.mul_le_mul_left _ Nat.lt_log2_self.le
    _ = 2 ^ (m.log2 + 55) := by rw [← pow_add]; congr 1; omega
    _ ≤ 2 ^ k := Nat.pow_le_pow_right (by decide) hk

/-- R169: 1 / a. -/
theorem delivered_rcp (t : FTy) (md : Rnd) {v : FVal} (hfin : v.isFin = true) (hne : v.rat ≠ 0) :
    Delivered t md (1 / v.rat) (deliver t md false (rcpV v).1 (rcpV v).2) := by
  cases v with
  | nan | inf => cases hfin
  | fin neg m e =>
    have hm := mt rat_fin_eq_zero.mpr hne
    have pos := Nat.pos_of_ne_zero hm
    simp only [rcpV, if_neg hm]
    generalize hk : m.log2 + 64 = k
    obtain ⟨plus, minus⟩ := delivered_sticky t md (le_two_pow_div (k := k) pos (by omega)) (stickyFor_rcp pos k e)
    cases neg
    · simpa only [FVal.rat, Bool.false_eq_true, if_false, one_mul] using plus
    · simpa only [FVal.rat, if_true, neg_mul, one_mul, one_div, inv_neg] using minus

/-! ### Roots -/

theorem isqrtBits_spec (m n r : Nat) (lo : r * r ≤ m) (hi : m < (r + 2 ^ n) * (r + 2 ^ n)) :
    isqrtBits m n r * isqrtBits m n r ≤ m ∧ m < (isqrtBits m n r + 1) * (isqrtBits m n r + 1) := by
  induction n generalizing r with
  | zero => exact ⟨lo, hi⟩
  | succ n ih =>
    rw [isqrtBits]
    split
    next h => exact ih _ h (by rwa [Nat.add_assoc, ← Nat.two_mul, ← pow_succ'])
    next h => exact ih _ lo (not_le.mp h)

theorem isqrt_spec (m : Nat) : isqrt m * isqrt m ≤ m ∧ m < (isqrt m + 1) * (isqrt m + 1) := by
  refine isqrtBits_spec m _ 0 (Nat.zero_le m) (Nat.lt_log2_self.trans_le ?_)
  rw [Nat.zero_add, ← pow_add]
  exact Nat.pow_le_pow_right (by decide) (by omega)

theorem le_isqrt {a m : Nat} (h : a * a ≤ m) : a ≤ isqrt m := by
  have hi := (isqrt_spec m).2
  by_contra hlt
  have := Nat.mul_le_mul (show isqrt m + 1 ≤ a by omega) (show isqrt m + 1 ≤ a by omega)
  omega

/-- A root cut down to an integer number of units: the root of `M` squares of the unit. -/
theorem deliveredRoot_sticky (t : FTy) (md : Rnd) {r : Nat} {e : Int} {M : ℚ} (large : 2 ^ 54 ≤ r) (lo : (r * r : ℚ) ≤ M)
    (hi : M < (r + 1) * (r + 1)) {inexact : Bool} (hin : inexact = true ↔ (r * r : ℚ) ≠ M) :
    DeliveredRoot t md (M * ((2 : ℚ) ^ e * (2 : ℚ) ^ e)) (deliver t md false (sticky false r e inexact) 0) := by
  have scale : (0 : ℚ) < (2 : ℚ) ^ e := by positivity
  have square : (0 : ℚ) < (2 : ℚ) ^ e * (2 : ℚ) ^ e := by positivity
  have below : grid e r * grid e r = r * r * ((2 : ℚ) ^ e * (2 : ℚ) ^ e) := by unfold grid; ring
  have above : grid e (r + 1) * grid e (r + 1) = (r + 1) * (r + 1) * ((2 : ℚ) ^ e * (2 : ℚ) ^ e) := by
    unfold grid
    push_cast
    ring
  have hiSq : M * ((2 : ℚ) ^ e * (2 : ℚ) ^ e) < grid e (r + 1) * grid e (r + 1) := by rwa [above, mul_lt_mul_iff_left₀ square]
  have hr : (0 : ℚ) < r := by exact_mod_cast (show 0 < r by omega)
  have positive : 0 < grid e r := mul_pos hr scale
  refine ⟨fun x hx root => (delivered_sticky t md large ?_).1, fun irrational => ?_⟩
  · unfold StickyFor
    split
    next h =>
      have loSq : grid e r * grid e r < x * x := by
        rw [root, below, mul_lt_mul_iff_left₀ square]
        exact lt_of_le_of_ne lo (hin.mp h)
      rw [← root] at hiSq
      exact ⟨lt_of_mul_self_lt_mul_self₀ hx.le loSq, lt_of_mul_self_lt_mul_self₀ (grid_nonneg ..) hiSq⟩
    next h =>
      rw [hin, not_not] at h
      rw [← h, ← below] at root
      exact (mul_self_inj hx.le positive.le).mp root
  · have ne : (r * r : ℚ) ≠ M := fun h => irrational (grid e r) (by rw [below, h])
    refine ⟨grid e r, grid e (r + 1), positive, ?_, positive.trans (grid_strictMono e (Nat.lt_succ_self r)), hiSq, fun x hlo hhi => ?_⟩
    · rw [below, mul_lt_mul_iff_left₀ square]
      exact lt_of_le_of_ne lo ne
    · rw [hin.mpr ne]
      exact (delivered_sticky t md large (show StickyFor r e true x from ⟨hlo, hhi⟩)).1

/-- The significand of a number at an even exponent. -/
def evenSignificand (m : Nat) (e : Int) : Nat := if e % 2 = 0 then m else 2 * m

/-- Half of that exponent. -/
def halfExponent (e : Int) : Int := (if e % 2 = 0 then e else e - 1) / 2

theorem evenSignificand_spec (m : Nat) (e : Int) :
    (m * (2 : ℚ) ^ e : ℚ) = evenSignificand m e * ((2 : ℚ) ^ halfExponent e * (2 : ℚ) ^ halfExponent e) := by
  unfold evenSignificand halfExponent
  rw [← zpow_add₀ two_ne_zero]
  split
  · congr 2
    omega
  · rw [Nat.cast_mul, Nat.cast_ofNat, mul_comm (2 : ℚ), mul_assoc, ← zpow_one_add₀ two_ne_zero]
    congr 2
    omega

theorem evenSignificand_pos {m : Nat} (hm : 0 < m) (e : Int) : 0 < evenSignificand m e := by
  unfold evenSignificand
  split <;> omega

section
variable {m : Nat} (hm : 0 < m) (e : Int)
include hm

theorem sqrtV_pos : sqrtV (.fin false m e) = (let M := evenSignificand m e * 2 ^ 128
    sticky false (isqrt M) (halfExponent e - 64) (isqrt M * isqrt M != M), 0) := if_neg hm.ne'

theorem rsqV_pos : rsqV (.fin false m e) = (let M := evenSignificand m e; let k := M.log2 / 2 + 66
    let r := isqrt (2 ^ (2 * k) / M)
    sticky false r (-(k : Int) - halfExponent e) (r * r * M != 2 ^ (2 * k)), 0) := if_neg hm.ne'

/-- R169: the square root. -/
theorem deliveredRoot_sqrt (t : FTy) (md : Rnd) : DeliveredRoot t md (m * (2 : ℚ) ^ e)
    (deliver t md false (sqrtV (.fin false m e)).1 (sqrtV (.fin false m e)).2) := by
  have pos := evenSignificand_pos hm e
  have value : (m * (2 : ℚ) ^ e : ℚ) = (evenSignificand m e * 2 ^ 128 : Nat)
      * ((2 : ℚ) ^ (halfExponent e - 64) * (2 : ℚ) ^ (halfExponent e - 64)) := by
    rw [evenSignificand_spec, zpow_sub₀ two_ne_zero]
    push_cast
    ring
  rw [sqrtV_pos hm, value]
  generalize hM : evenSignificand m e * 2 ^ 128 = M
  obtain ⟨lo, hi⟩ := isqrt_spec M
  refine deliveredRoot_sticky t md (le_isqrt (by omega)) (by exact_mod_cast lo) (by exact_mod_cast hi) ?_
  rw [bne_iff_ne, ne_eq, ne_eq]
  exact_mod_cast Iff.rfl

/-- R169: the reciprocal of the square root. -/
theorem deliveredRoot_rsq (t : FTy) (md : Rnd) : DeliveredRoot t md (1 / (m * (2 : ℚ) ^ e))
    (deliver t md false (rsqV (.fin false m e)).1 (rsqV (.fin false m e)).2) := by
  have pos := evenSignificand_pos hm e
  rw [rsqV_pos hm, evenSignificand_spec]
  dsimp only
  generalize evenSignificand m e = M at *
  generalize hk : M.log2 / 2 + 66 = k
  have hM : (0 : ℚ) < M := by exact_mod_cast pos
  have value : 1 / (M * ((2 : ℚ) ^ halfExponent e * (2 : ℚ) ^ halfExponent e))
      = ((2 ^ (2 * k) : Nat) / M : ℚ) * ((2 : ℚ) ^ (-(k : Int) - halfExponent e) * (2 : ℚ) ^ (-(k : Int) - halfExponent e)) := by
    rw [zpow_sub₀ two_ne_zero, zpow_neg, zpow_natCast]
    push_cast
    field_simp
    ring
  rw [value]
  have large : 2 ^ 54 ≤ isqrt (2 ^ (2 * k) / M) := le_isqrt (by
    rw [Nat.le_div_iff_mul_le pos, ← pow_add]
    calc 2 ^ (54 + 54) * M ≤ 2 ^ (54 + 54) * 2 ^ (M.log2 + 1) := Nat.mul_le_mul_left _ Nat.lt_log2_self.le
      _ = 2 ^ (54 + 54 + (M.log2 + 1)) := (pow_add ..).symm
      _ ≤ 2 ^ (2 * k) := Nat.pow_le_pow_right (by decide) (by omega))
  generalize 2 ^ (2 * k) = N at *
  obtain ⟨lo, hi⟩ := isqrt_spec (N / M)
  rw [Nat.le_div_iff_mul_le pos] at lo
  rw [Nat.div_lt_iff_lt_mul pos] at hi
  generalize isqrt (N / M) = r at *
  refine deliveredRoot_sticky t md large ?_ ?_ ?_
  · rw [le_div_iff₀ hM]
    exact_mod_cast lo
  · rw [div_lt_iff₀ hM]
    exact_mod_cast hi
  · rw [bne_iff_ne, ne_eq, ne_eq, eq_div_iff hM.ne']
    exact_mod_cast Iff.rfl

end

end Sys2Proof.Machine
end

section
/-! SUPPORT. Floating instructions on special inputs, under `.ftz`, and their choices and compares (R131, R164, R165, R169, R170). -/

namespace Sys2Proof.Machine

/-! ### The number 1 -/

/-- The encoding of 1. -/
def fOne (t : FTy) : Nat := fBias t * 2 ^ fracBits t

theorem fOne_lt (t : FTy) : fOne t < finiteEnd t := by
  rw [finiteEnd, expMax_eq]
  exact Nat.mul_lt_mul_of_pos_right (by omega) (by positivity)

theorem magnitude_fOne (t : FTy) : magnitude t (fOne t) = 1 := by
  have split : fOne t = (fBias t - 1) * 2 ^ fracBits t + 2 ^ fracBits t := by
    have bias : 1 ≤ fBias t := by cases t <;> decide
    rw [fOne, ← Nat.succ_mul, Nat.succ_eq_add_one, Nat.sub_add_cancel bias]
  have bias : ((fBias t - 1 : Nat) : Int) = fBias t - 1 := by cases t <;> rfl
  rw [split, magnitude_grid t (.inr le_rfl) (by omega), Nat.cast_pow, Nat.cast_ofNat, ← zpow_natCast, ← zpow_add₀ two_ne_zero, bias]
  ring_nf
  rfl

theorem fDecode_fOne (t : FTy) : fDecode t (fOne t) = .fin false (2 ^ fracBits t) (-fracBits t) := by cases t <;> decide

/-! ### `.ftz` on the result (R131) -/

/-- Only a rounding to a finite number can be subnormal, and of the flags it sets UF and NX alone. -/
theorem subnormal_flags (t : FTy) (md : Rnd) {v : FVal} (hfin : v.isFin = true) (hne : v.rat ≠ 0)
    (hsub : fSubnormal t (deliver t md false v 0).1 = true) : (deliver t md false v 0).2 ||| (flUF ||| flNX) = flUF ||| flNX := by
  have absorb : ∀ fl : Fl, fl &&& 28 = 0 → fl ||| (flUF ||| flNX) = flUF ||| flNX := by decide
  obtain ⟨overflowing, fitting⟩ := delivered_of_ne_zero t md hfin hne
  by_cases h : Overflows t md v.rat
  · have large (n : Bool) : fSubnormal t (fInf t n) = false ∧ fSubnormal t (fHuge t n) = false := by cases t <;> cases n <;> decide
    rw [(overflowing h).2] at hsub
    cases md <;> simp [large, apply_ite (fSubnormal t)] at hsub
  · obtain ⟨-, -, -, -, -, -, rest⟩ := fitting h
    exact absorb _ rest

/-- R131: `.ftz` flushes a subnormal result, whatever flags came with the value. -/
theorem deliver_ftz_flags (t : FTy) (md : Rnd) (v : FVal) (fl : Fl) : let r := deliver t md false v fl
    deliver t md true v fl = if fSubnormal t r.1 then (fZero t (r.1 / signWeight t == 1), r.2 ||| flUF ||| flNX) else r := by
  cases v with
  | nan =>
    have no : fSubnormal t (fNaN t) = false := by cases t <;> decide
    simp [deliver, no]
  | inf n =>
    have no : fSubnormal t (fInf t n) = false := by cases t <;> cases n <;> decide
    simp [deliver, no]
  | fin n m e =>
    by_cases hm : m = 0
    · have no : fSubnormal t (fZero t n) = false := by cases t <;> cases n <;> decide
      simp [deliver, hm, no]
    · have base := deliver_ftz t md (v := .fin n m e) rfl
      have flags := subnormal_flags t md (v := .fin n m e) rfl (mt rat_fin_eq_zero.mp hm)
      simp only [deliver, if_neg hm, flags_or_zero, Prod.mk.eta] at base flags ⊢
      rw [base]
      split
      next h =>
        rw [← flags h]
        exact congrArg (Prod.mk _) (by ac_rfl)
      next h => rfl

/-! ### Unary functions on special inputs (R169) -/

section
variable (t : FTy) (md : Rnd) (ftz : Bool)

theorem fUnary_nan (f : FUn) {a : Nat} (h : (fDecode t a).isNan = true) :
    fUnary f t md ftz a = (fNaN t, if (fDecode t a).isSig then flNV else 0) := by
  obtain ⟨nan, sig⟩ := fFlush_nan (t := t) (ftz := ftz) (x := a)
  rw [← sig]
  rw [← nan] at h
  unfold fUnary
  generalize fDecode t (fFlush ftz t a) = v at *
  cases v with
  | nan s => cases f <;> rfl
  | inf | fin => cases h

theorem fUnary_infinity (n : Bool) :
    fUnary .rcp t md ftz (fInf t n) = (fZero t n, 0) ∧ fUnary .sqrt t md ftz (fInf t n) = (if n then (fNaN t, flNV) else (fInf t n, 0)) ∧
    fUnary .rsq t md ftz (fInf t n) = (if n then (fNaN t, flNV) else (fZero t n, 0)) ∧
    fUnary .exp2 t md ftz (fInf t n) = (if n then fZero t false else fInf t n, 0) ∧
    fUnary .log2 t md ftz (fInf t n) = (if n then (fNaN t, flNV) else (fInf t n, 0)) := by
  cases n <;> simp [fUnary, rcpV, sqrtV, rsqV, exp2V, log2V, deliver]

theorem deliver_one : deliver t md ftz (.fin false 1 0) 0 = (fOne t, 0) := by
  have one : roundTo t md false false 1 0 = (fOne t, 0) := roundTo_exact Nat.one_pos (fOne_lt t) (by rw [magnitude_fOne]; norm_num)
  have plain : deliver t md false (.fin false 1 0) 0 = (fOne t, 0) := by simp [deliver, one]
  cases ftz
  · exact plain
  · have no : fSubnormal t (fOne t) = false := by cases t <;> decide
    simpa only [plain, no, Bool.false_eq_true, if_false] using deliver_ftz t md (v := .fin false 1 0) rfl

theorem fUnary_zero (n : Bool) :
    fUnary .rcp t md ftz (fZero t n) = (fInf t n, flDZ) ∧ fUnary .sqrt t md ftz (fZero t n) = (fZero t n, 0) ∧
    fUnary .rsq t md ftz (fZero t n) = (fInf t n, flDZ) ∧ fUnary .exp2 t md ftz (fZero t n) = (fOne t, 0) ∧
    fUnary .log2 t md ftz (fZero t n) = (fInf t true, flDZ) := by
  refine ⟨?rcp, ?sqrt, ?rsq, ?exp2, ?log2⟩
  case exp2 => simpa [fUnary, exp2V] using deliver_one t md ftz
  all_goals simp [fUnary, rcpV, sqrtV, rsqV, log2V, deliver]

theorem fUnary_log2_one : fUnary .log2 t md ftz (fOne t) = (fZero t false, 0) := by
  have normal : fFlush ftz t (fOne t) = fOne t := fFlush_normal (by cases t <;> decide)
  simp [fUnary, normal, fDecode_fOne, log2V, deliver]

end

/-! ### Finite values by their sign -/

theorem exists_neg {v : FVal} (hfin : v.isFin = true) (h : v.rat < 0) : ∃ m e, v = .fin true m e ∧ 0 < m := by
  cases v with
  | nan | inf => cases hfin
  | fin n m e =>
    have pos := Nat.pos_of_ne_zero (mt rat_fin_eq_zero.mpr h.ne)
    cases n
    · exact absurd h (not_lt.mpr (by simpa [FVal.rat] using (value_pos pos e).le))
    · exact ⟨m, e, rfl, pos⟩

theorem exists_pos {v : FVal} (hfin : v.isFin = true) (h : 0 < v.rat) : ∃ m e, v = .fin false m e ∧ 0 < m := by
  obtain ⟨m, e, hv, hm⟩ := exists_neg ((isFin_negV v).trans hfin) (by rw [rat_negV]; exact neg_lt_zero.mpr h)
  cases v with
  | nan | inf => cases hfin
  | fin n =>
    cases n
    · exact ⟨_, _, rfl, by cases hv; exact hm⟩
    · cases hv

/-! ### FMIN and FMAX (R170) -/

theorem fInf_lt (t : FTy) (n : Bool) : fInf t n < 2 ^ t.width := signed_lt t n (finiteEnd_lt t)

section
variable {t : FTy} {a b : Nat}

/-- `a` is the lesser of the two, or they are the same encoding. -/
def SelectsFirst (t : FTy) (a b : Nat) : Prop := minKeyLt t b a = false ∧ (minKeyLt t a b = true ∨ a = b)

theorem not_sig_of_not_nan {v : FVal} (h : v.isNan = false) : v.isSig = false := by
  cases v with
  | nan => cases h
  | inf | fin => rfl

theorem fFlush_lt (ftz : Bool) (h : a < 2 ^ t.width) : fFlush ftz t a < 2 ^ t.width := by
  unfold fFlush
  split
  · exact signed_lt t _ (b := 0) (by cases t <;> decide)
  · exact h

variable (ha : a < 2 ^ t.width) (hb : b < 2 ^ t.width)
include ha hb

theorem fSelect_numbers (na : (fDecode t a).isNan = false) (nb : (fDecode t b).isNan = false) (mx : Bool) :
    fSelect mx t false a b = (if (if mx then minKeyLt t a b else minKeyLt t b a) then b else a, 0) := by
  simp only [fSelect, fFlush_false, Nat.mod_eq_of_lt ha, Nat.mod_eq_of_lt hb, na, nb, not_sig_of_not_nan, Bool.or_self, Bool.and_self,
    Bool.false_eq_true, if_false, flIf]
  cases mx <;> rfl

theorem fSelect_of_first (na : (fDecode t a).isNan = false) (nb : (fDecode t b).isNan = false) (h : SelectsFirst t a b) :
    fSelect false t false a b = (a, 0) ∧ fSelect true t false a b = (b, 0) ∧
    fSelect false t false b a = (a, 0) ∧ fSelect true t false b a = (b, 0) := by
  obtain ⟨no, lt | rfl⟩ := h
  · simp [fSelect_numbers ha hb na nb, fSelect_numbers hb ha nb na, no, lt]
  · simp [fSelect_numbers ha ha na na]

/-- R170: beside one NaN the other input is chosen. -/
theorem fSelect_nan_left (na : (fDecode t a).isNan = true) (mx : Bool) : fSelect mx t false a b
    = (if (fDecode t b).isNan then fNaN t else b, if (fDecode t a).isSig || (fDecode t b).isSig then flNV else 0) := by
  simp only [fSelect, fFlush_false, Nat.mod_eq_of_lt ha, Nat.mod_eq_of_lt hb, na, Bool.true_and, if_true, flIf]
  split <;> rfl

theorem fSelect_nan_right (na : (fDecode t a).isNan = false) (nb : (fDecode t b).isNan = true) (mx : Bool) : fSelect mx t false a b
    = (a, if (fDecode t b).isSig then flNV else 0) := by
  simp only [fSelect, fFlush_false, Nat.mod_eq_of_lt ha, Nat.mod_eq_of_lt hb, na, nb, not_sig_of_not_nan na, Bool.false_and,
    Bool.false_or, Bool.false_eq_true, if_true, if_false, flIf]

/-! #### The order of the encodings -/

omit hb in
theorem sign_eq : a / signWeight t % 2 = if signWeight t ≤ a then 1 else 0 := by
  rw [two_pow_width] at ha
  split
  next h => rw [Nat.div_eq_of_lt_le (k := 1) (by omega) (by omega)]
  next h => rw [Nat.div_eq_of_lt (not_le.mp h)]

theorem minKeyLt_iff : minKeyLt t a b = true ↔ ltV (fDecode t a) (fDecode t b) = true ∨
    ltV (fDecode t b) (fDecode t a) = false ∧ signWeight t ≤ a ∧ b < signWeight t := by
  have sa : (a / signWeight t % 2 == 1) = true ↔ signWeight t ≤ a := by
    rw [sign_eq ha]
    split <;> simp_all
  have sb : (b / signWeight t % 2 == 0) = true ↔ b < signWeight t := by
    rw [sign_eq hb]
    split <;> simp_all
  simp only [minKeyLt, Bool.or_eq_true, Bool.and_eq_true, sa, sb, Bool.not_eq_true', and_assoc]

theorem minKeyLt_fin (fa : (fDecode t a).isFin = true) (fb : (fDecode t b).isFin = true) : minKeyLt t a b = true ↔
    (fDecode t a).rat < (fDecode t b).rat ∨ (fDecode t a).rat = (fDecode t b).rat ∧ signWeight t ≤ a ∧ b < signWeight t := by
  rw [minKeyLt_iff ha hb, ltV_fin fa fb, ltV_fin fb fa, decide_eq_true_iff, decide_eq_false_iff_not, not_lt]
  constructor
  · rintro (h | ⟨h, hs⟩)
    · exact .inl h
    · exact h.lt_or_eq.imp_right fun e => ⟨e, hs⟩
  · exact Or.imp_right fun ⟨e, hs⟩ => ⟨e.le, hs⟩

/-- Two finite encodings of one sign and one number are the same. -/
theorem eq_of_rat_eq (fa : (fDecode t a).isFin = true) (fb : (fDecode t b).isFin = true) (e : (fDecode t a).rat = (fDecode t b).rat)
    (sign : signWeight t ≤ a ↔ signWeight t ≤ b) : a = b := by
  obtain ⟨x, hx, ea⟩ := exists_signed ha
  obtain ⟨y, hy, eb⟩ := exists_signed hb
  rw [← decide_eq_decide.mpr sign] at eb
  generalize decide (signWeight t ≤ a) = neg at ea eb
  subst ea eb
  have hx := lt_finiteEnd_of_isFin hx fa
  have hy := lt_finiteEnd_of_isFin hy fb
  rw [rat_signed t neg hx, rat_signed t neg hy] at e
  have unit : (if neg then -1 else 1 : ℚ) ≠ 0 := by cases neg <;> norm_num
  rw [(magnitude_strictMono t).injective (mul_left_cancel₀ unit e)]

theorem selectsFirst_of_selectsLess (fa : (fDecode t a).isFin = true) (fb : (fDecode t b).isFin = true) (h : selectsLess t a b) :
    SelectsFirst t a b := by
  rw [SelectsFirst, ← Bool.not_eq_true, minKeyLt_fin hb ha fb fa, minKeyLt_fin ha hb fa fb]
  obtain lt | ⟨eq, neg⟩ := h
  · exact ⟨not_or_intro lt.not_gt fun h => lt.ne' h.1, .inl (.inl lt)⟩
  · refine ⟨not_or_intro eq.le.not_gt fun h => h.2.2.not_ge neg, ?_⟩
    by_cases hs : b < signWeight t
    · exact .inl (.inr ⟨eq, neg, hs⟩)
    · exact .inr (eq_of_rat_eq ha hb fa fb eq (iff_of_true neg (not_lt.mp hs)))

omit hb in
theorem eq_fInf {n : Bool} (h : fDecode t a = .inf n) : a = fInf t n := by
  obtain ⟨x, hx, e⟩ := exists_signed ha
  generalize decide (signWeight t ≤ a) = neg at e
  subst e
  obtain hlt | rfl | hgt := lt_trichotomy x (finiteEnd t)
  · rw [fDecode_signed t neg hlt] at h
    cases h
  · rw [← fInf_eq, fDecode_fInf] at h
    cases h
    rfl
  · have nan := isNan_signed t neg hgt hx
    rw [h] at nan
    cases nan

omit hb in
/-- R170: the infinities are the ends of the order. -/
theorem selectsFirst_infinity (na : (fDecode t a).isNan = false) : SelectsFirst t (fInf t true) a ∧ SelectsFirst t a (fInf t false) := by
  have low : ¬ fInf t true < signWeight t := by cases t <;> decide
  have high : ¬ signWeight t ≤ fInf t false := by cases t <;> decide
  rw [SelectsFirst, SelectsFirst, ← Bool.not_eq_true, ← Bool.not_eq_true, minKeyLt_iff ha (fInf_lt t true), minKeyLt_iff (fInf_lt t true) ha,
    minKeyLt_iff ha (fInf_lt t false), minKeyLt_iff (fInf_lt t false) ha, fDecode_fInf, fDecode_fInf]
  cases h : fDecode t a with
  | nan =>
    rw [h] at na
    cases na
  | inf n =>
    rw [eq_fInf ha h]
    cases n <;> simp [ltV, low, high]
  | fin => simp [ltV, low, high]

end

/-! ### FCLASS and FCMP (R164, R165) -/

/-- A nonzero finite encoding is subnormal when its number is below the smallest normal one. -/
theorem subnormal_iff {t : FTy} {x : Nat} (hx : x < 2 ^ t.width) (hfin : (fDecode t x).isFin = true) (hne : (fDecode t x).rat ≠ 0) :
    fSubnormal t x = true ↔ |(fDecode t x).rat| < (2 : ℚ) ^ (1 - (fBias t : Int)) := by
  obtain ⟨b, hb, e⟩ := exists_signed hx
  generalize decide (signWeight t ≤ x) = neg at e
  subst e
  have lt := lt_finiteEnd_of_isFin hb hfin
  have pos : 0 < b := by
    refine Nat.pos_of_ne_zero fun h => hne ?_
    rw [rat_signed t neg lt, h, magnitude_zero, mul_zero]
  have normal : magnitude t (2 ^ fracBits t) = (2 : ℚ) ^ (1 - (fBias t : Int)) := by
    have h := magnitude_grid t (k := 0) (q := 2 ^ fracBits t) (.inl rfl) (by omega)
    rw [Nat.zero_mul, Nat.zero_add, Nat.cast_pow, Nat.cast_ofNat, ← zpow_natCast, ← zpow_add₀ two_ne_zero] at h
    rw [h]
    congr 1
    push_cast
    ring
  have abs : |(fDecode t (fZero t neg + b)).rat| = magnitude t b := by
    rw [rat_signed t neg lt]
    cases neg <;> simp [abs_of_nonneg (magnitude_nonneg t b)]
  rw [abs, ← normal, (magnitude_strictMono t).lt_iff_lt, subnormal_signed t neg hb, decide_eq_true pos, Bool.true_and, decide_eq_true_iff]

theorem fDecode_sign {t : FTy} {x : Nat} {neg : Bool} (h : (∃ m e, fDecode t x = .fin neg m e) ∨ fDecode t x = .inf neg) :
    (x / signWeight t % 2 == 1) = neg := by
  obtain ⟨m, e, h⟩ | h := h
  · unfold fDecode at h
    dsimp only at h
    split at h <;> split at h <;> cases h <;> rfl
  · unfold fDecode at h
    dsimp only at h
    split at h <;> split at h <;> cases h
    rfl

theorem fCompare_fin (t : FTy) {a b : Nat} (fa : (fDecode t a).isFin = true) (fb : (fDecode t b).isFin = true) :
    let x := (fDecode t a).rat
    let y := (fDecode t b).rat
    fCompare .eq t false a b = (decide (x = y), 0) ∧ fCompare .lt t false a b = (decide (x < y), 0) ∧
    fCompare .le t false a b = (decide (x ≤ y), 0) ∧ fCompare .un t false a b = (false, 0) := by
  obtain ⟨na, sa⟩ := not_nan_of_isFin fa
  obtain ⟨nb, sb⟩ := not_nan_of_isFin fb
  simp only [fCompare, fFlush_false, na, sa, nb, sb, ltV_fin fa fb, ltV_fin fb fa]
  obtain h | h | h := lt_trichotomy (fDecode t a).rat (fDecode t b).rat
  · simp [h, h.ne, h.le, h.not_gt, flIf]
  · simp [h, flIf]
  · simp [h, h.ne', h.not_ge, h.not_gt, flIf]

theorem fCompare_nan (t : FTy) (ftz : Bool) {a b : Nat} (h : ((fDecode t a).isNan || (fDecode t b).isNan) = true) :
    (fCompare .un t ftz a b).1 = true ∧ (fCompare .ord t ftz a b).1 = false ∧ (fCompare .eq t ftz a b).1 = false ∧
    (fCompare .ne t ftz a b).1 = true ∧ (fCompare .lt t ftz a b).1 = false ∧ (fCompare .geu t ftz a b).1 = true := by
  rw [← (fFlush_nan (ftz := ftz)).1, ← (fFlush_nan (ftz := ftz) (x := b)).1] at h
  simp [fCompare, h]

end Sys2Proof.Machine
end

section
/-! The lane floating-point instructions, their special inputs, choices and compares (R164, R165, R168 to R170). -/

open Sys2Proof.Machine in
/-- Settles O8: each instruction writes and flags what its function gives; these deliver an exact value rounded once, the reciprocal and
the roots by a value that no mode tells from them; the infinities end the order of FMIN and FMAX. -/
theorem floatingInstructions : Obligations.FloatingInstructions := by
  unfold Obligations.FloatingInstructions
  refine ⟨⟨fun o => fltStep (fun _ => rfl), fun o => fltStep (fun _ => rfl), fun o => fltStep (fun _ => rfl), fun o => fltStep (fun _ => rfl),
    fun o => fltStep (fun _ => rfl), fun o => fltStep (fun _ => rfl), ?unary⟩, ⟨?special, ?negative, ?exact, ?ftz⟩,
    ⟨?selectFtz, fun t a b ha hb => ⟨?selectFin, ?selectInf, fun mx na => fSelect_nan_left ha hb na mx,
      fun mx na nb => fSelect_nan_right ha hb na nb mx⟩⟩,
    ?classBit, fun o => predStep (fun _ => rfl) (fun _ _ _ => rfl), fun o => predStep (fun _ => rfl) (fun _ _ _ => rfl),
    fun t a b fa fb => fCompare_fin t fa fb, fun t ftz a b h => fCompare_nan t ftz h⟩
  case unary =>
    intro mk f h o
    simp only [List.mem_cons, List.not_mem_nil, or_false, Prod.mk.injEq] at h
    obtain ⟨rfl, rfl⟩ | ⟨rfl, rfl⟩ | ⟨rfl, rfl⟩ | ⟨rfl, rfl⟩ | ⟨rfl, rfl⟩ := h <;> exact fltStep (fun _ => rfl)
  case special =>
    intro t m ftz
    obtain ⟨-, psqrt, prsq, pexp2, plog2⟩ := fUnary_infinity t m ftz false
    obtain ⟨-, msqrt, mrsq, mexp2, mlog2⟩ := fUnary_infinity t m ftz true
    refine ⟨fun n => ⟨(fUnary_infinity t m ftz n).1, fUnary_zero t m ftz n⟩, ?_, ?_, prsq, mexp2,
      fUnary_log2_one t m ftz, fun f a => fUnary_nan t m ftz f⟩
    · simpa using ⟨msqrt, mrsq, mlog2⟩
    · simpa using ⟨psqrt, pexp2, plog2⟩
  case negative =>
    intro t m a fin neg f hf
    obtain ⟨k, e, h, hk⟩ := exists_neg fin neg
    simp only [List.mem_cons, List.not_mem_nil, or_false] at hf
    obtain rfl | rfl | rfl := hf <;> simp [fUnary, h, hk.ne', sqrtV, rsqV, log2V, deliver]
  case exact =>
    refine fun t m a fin => ⟨delivered_rcp t m fin, fun pos => ?_⟩
    obtain ⟨k, e, h, hk⟩ := exists_pos fin pos
    have value : (fDecode t a).rat = k * (2 : ℚ) ^ e := by simp [h, FVal.rat]
    rw [value, fUnary, fUnary, fFlush_false, h]
    exact ⟨deliveredRoot_sqrt hk e t m, deliveredRoot_rsq hk e t m⟩
  case ftz => exact fun f t m a => deliver_ftz_flags t m _ _
  case selectFtz =>
    intro t mx a b
    simp only [fSelect, fFlush_false, Nat.mod_eq_of_lt (fFlush_lt true (Nat.mod_lt _ (Nat.two_pow_pos _)))]
  case selectFin =>
    intro fa fb
    have na := (not_nan_of_isFin fa).1
    have nb := (not_nan_of_isFin fb).1
    refine ⟨fun h => ?_, fun h => ?_, ?_⟩
    · obtain ⟨h1, h2, -⟩ := fSelect_of_first ha hb na nb (selectsFirst_of_selectsLess ha hb fa fb h)
      exact .inl ⟨h1, h2⟩
    · obtain ⟨-, -, h1, h2⟩ := fSelect_of_first hb ha nb na (selectsFirst_of_selectsLess hb ha fb fa h)
      exact .inl ⟨h1, h2⟩
    · rintro rfl mx
      rw [fSelect_numbers ha ha na na, ite_self]
  case selectInf =>
    intro na
    obtain ⟨bottom, top⟩ := selectsFirst_infinity ha na
    obtain ⟨h1, h2, h3, h4⟩ := fSelect_of_first (fInf_lt t true) ha (by rw [fDecode_fInf]; rfl) na bottom
    obtain ⟨g1, g2, g3, g4⟩ := fSelect_of_first ha (fInf_lt t false) na (by rw [fDecode_fInf]; rfl) top
    exact ⟨h3, g2, g1, h4, h1, g4, g3, h2⟩
  case classBit =>
    intro t x hx
    have sign {neg : Bool} := fDecode_sign (t := t) (x := x) (neg := neg)
    have subnormal := subnormal_iff hx
    unfold fClassBit
    generalize fDecode t x = v at *
    cases v with
    | nan => rfl
    | inf neg => simp [sign (.inr rfl)]
    | fin neg m e =>
      simp only [sign (.inl ⟨m, e, rfl⟩), rat_fin_eq_zero]
      split
      next => rfl
      next h => simp only [← subnormal rfl (mt rat_fin_eq_zero.mp h)]
end

section
/-! SUPPORT. Packed elements (R137, R175): registers as lists of elements, the first lowest. -/

namespace Sys2Proof.Machine

/-! ### Elements put together -/

theorem packList_digit (e : Nat) {l : List Nat} {j x : Nat} (h : l[j]? = some x) : packList e l / 2 ^ (e * j) % 2 ^ e = x % 2 ^ e := by
  induction l generalizing j with
  | nil => cases h
  | cons y l ih =>
    have low : y % 2 ^ e < 2 ^ e := Nat.mod_lt _ (by positivity)
    cases j with
    | zero =>
      obtain rfl : y = x := by simpa using h
      rw [packList, Nat.mul_zero, pow_zero, Nat.div_one, Nat.add_mul_mod_self_left, Nat.mod_mod]
    | succ j =>
      rw [packList, Nat.mul_succ, Nat.add_comm (e * j), pow_add, ← Nat.div_div_eq_div_mul, Nat.add_mul_div_left _ _ (by positivity),
        Nat.div_eq_of_lt low, Nat.zero_add]
      exact ih h

theorem packList_lt (e : Nat) (l : List Nat) : packList e l < 2 ^ (e * l.length) := by
  induction l with
  | nil => exact Nat.one_pos
  | cons y l ih =>
    have low : y % 2 ^ e < 2 ^ e := Nat.mod_lt _ (by positivity)
    rw [packList, List.length_cons, Nat.mul_succ, Nat.add_comm (e * l.length), pow_add]
    calc y % 2 ^ e + 2 ^ e * packList e l < 2 ^ e * (packList e l + 1) := by rw [Nat.mul_succ]; omega
      _ ≤ 2 ^ e * 2 ^ (e * l.length) := Nat.mul_le_mul_left _ ih

theorem packed_toNat {w : Nat} (x : BitVec w) (e i : Nat) : packed x.toNat e i = (x.extractLsb' (e * i) e).toNat := by
  rw [packed, BitVec.extractLsb'_toNat, Nat.shiftRight_eq_div_pow]

/-! ### PACK and UNPK (R175) -/

theorem packBits_cases (t : PackTy) : packBits t = 16 ∨ packBits t = 8 ∨ packBits t = 4 := by cases t <;> simp [packBits]

theorem toInt_extract {w : Nat} (hw : 0 < w) (y : BitVec w) : (if 2 ^ (w - 1) ≤ y.toNat then (y.toNat : Int) - 2 ^ w else y.toNat) = y.toInt := by
  have h := toInt_eq w y.toNat hw
  rw [BitVec.ofNat_toNat, BitVec.setWidth_eq, Nat.mod_eq_of_lt y.isLt] at h
  exact h.symm

/-- R175: the low half, or the nearest number of the type. -/
theorem packElem_toNat (t : PackTy) (sat : Bool) (y : BitVec (2 * packBits t)) : packElem t sat y.toNat % 2 ^ packBits t =
    if sat = false then y.toNat % 2 ^ packBits t
    else if packSigned t then (BitVec.ofInt (packBits t) (max (-(2 ^ (packBits t - 1))) (min y.toInt (2 ^ (packBits t - 1) - 1)))).toNat
    else min y.toNat (2 ^ packBits t - 1) := by
  have pos : 0 < 2 ^ packBits t := by positivity
  have wide : 0 < 2 * packBits t := by have := packBits_cases t; omega
  unfold packElem
  cases sat
  · simp
  · cases packSigned t
    · simp only [Bool.not_true, Bool.false_eq_true, if_false]
      exact Nat.mod_eq_of_lt (by omega)
    · simp only [Bool.not_true, Bool.false_eq_true, if_false, if_true, toInt_extract wide, wrap_eq]
      exact Nat.mod_eq_of_lt (BitVec.isLt _)

theorem packWord_digit (t : PackTy) (sat : Bool) (a b : Word) {i : Nat} (h : i < 32 / packBits t) :
    packWord t sat a.toNat b.toNat / 2 ^ (packBits t * i) % 2 ^ packBits t = packElem t sat
      ((if i < 16 / packBits t then a else b).extractLsb' (2 * packBits t * (i % (16 / packBits t))) (2 * packBits t)).toNat % 2 ^ packBits t := by
  have place : ((List.range (32 / packBits t)).map (fun i =>
      packElem t sat (packed (if i < 16 / packBits t then a.toNat else b.toNat) (2 * packBits t)
      (i % (16 / packBits t)))))[i]? = some (packElem t sat
        ((if i < 16 / packBits t then a else b).extractLsb' (2 * packBits t * (i % (16 / packBits t))) (2 * packBits t)).toNat) := by
    rw [List.getElem?_map, List.getElem?_range h, Option.map_some, ← apply_ite BitVec.toNat, packed_toNat]
  exact packList_digit _ place

/-- A widened element: sign-extended or zero-extended. -/
theorem widened_eq (signed : Bool) {e : Nat} (y : BitVec e) :
    (if (signed && decide (2 ^ (e - 1) ≤ y.toNat)) = true then y.toNat + (2 ^ (2 * e) - 2 ^ e) else y.toNat)
      = if signed then (y.signExtend (2 * e)).toNat else y.toNat := by
  have plain : (y.setWidth (2 * e)).toNat = y.toNat := BitVec.toNat_setWidth_of_le (by omega)
  cases signed
  · simp
  · rw [if_pos rfl, BitVec.toNat_signExtend, plain, BitVec.msb_eq_decide, Bool.true_and]
    split <;> rfl

theorem unpackWord_digit (t : PackTy) (h : Nat) (a : Word) {j : Nat} (hj : j < 16 / packBits t) :
    let y := a.extractLsb' (packBits t * (h * (16 / packBits t) + j)) (packBits t)
    unpackWord t h a.toNat / 2 ^ (2 * packBits t * j) % 2 ^ (2 * packBits t) =
      if packSigned t then (y.signExtend (2 * packBits t)).toNat else y.toNat := by
  intro y
  have narrow : y.toNat < 2 ^ (2 * packBits t) := y.isLt.trans_le (Nat.pow_le_pow_right (by decide) (by omega))
  have bound : (if packSigned t then (y.signExtend (2 * packBits t)).toNat else y.toNat) < 2 ^ (2 * packBits t) := by
    split
    · exact BitVec.isLt _
    · exact narrow
  rw [← Nat.mod_eq_of_lt bound]
  refine packList_digit _ ?_
  rw [List.getElem?_map, List.getElem?_range hj, Option.map_some]
  dsimp only
  rw [packed_toNat, widened_eq]

/-- Whole halves are put together as they are. -/
theorem packWord_halves {t : PackTy} (h : packBits t = 16) (a b : Word) :
    packWord t false a.toNat b.toNat = (b.setWidth 16 ++ a.setWidth 16).toNat := by
  have parts : packWord t false a.toNat b.toNat = b.toNat % 2 ^ 16 * 2 ^ 16 + a.toNat % 2 ^ 16 := by
    simp [packWord, h, packList, packElem, packed, List.range_succ]
    omega
  rw [parts, BitVec.toNat_append, ← Nat.shiftLeft_add_eq_or_of_lt (BitVec.isLt _), Nat.shiftLeft_eq, BitVec.toNat_setWidth, BitVec.toNat_setWidth]

theorem unpackWord_halves {t : PackTy} (h : packBits t = 16) (unsigned : packSigned t = false) (a : Word) :
    unpackWord t 0 a.toNat = (a.setWidth 16).toNat ∧ unpackWord t 1 a.toNat = (a >>> 16).toNat := by
  have bound := a.isLt
  constructor <;> simp [unpackWord, h, unsigned, packList, packed, List.range_succ, Nat.shiftRight_eq_div_pow] <;> omega

/-! ### Register groups (R137) -/

theorem unpackRegs_eq (c : Cx) (n op th va k : Nat) {e : Nat} (he : e ≤ 32) (pos : 0 < e) :
    unpackRegs e (c.regs n op th va k) = (List.range (k * (32 / e))).map (fun i => (((c.v n op th (va + i / (32 / e))) >>> (e * (i % (32 / e)))).setWidth e).toNat) := by
  have per : 0 < 32 / e := Nat.div_pos he pos
  refine List.ext_getElem? fun i => ?_
  rw [unpackRegs, getElem?_flatMap_of_length per (by simp), List.getElem?_map, Cx.regs, List.getElem?_map]
  obtain low | high := lt_or_ge i (k * (32 / e))
  · rw [List.getElem?_range low, List.getElem?_range ((Nat.div_lt_iff_lt_mul per).mpr low), Option.map_some, Option.bind_some,
      List.getElem?_map, List.getElem?_range (Nat.mod_lt _ per), Option.map_some, Option.map_some, packed, ← ofNat_div_toNat, BitVec.toNat_ofNat]
  · rw [List.getElem?_eq_none (by simpa using (Nat.le_div_iff_mul_le per).mpr high), List.getElem?_eq_none (by simpa using high)]
    rfl

theorem chunksOf_eq {α : Type} {m : Nat} (hm : 0 < m) {k n : Nat} {l : List α} (hl : l.length = m * k) (hn : k ≤ n) :
    chunksOf m n l = (List.range k).map (fun i => (l.drop (m * i)).take m) := by
  induction k generalizing n l with
  | zero =>
    obtain rfl := List.eq_nil_of_length_eq_zero hl
    cases n <;> rfl
  | succ k ih =>
    obtain ⟨n, rfl⟩ := Nat.exists_eq_add_of_le' (show 1 ≤ n by omega)
    have full : l.isEmpty = false := by
      rw [List.isEmpty_eq_false_iff, ← List.length_pos_iff, hl]
      positivity
    have rest : (l.drop m).length = m * k := by rw [List.length_drop, hl, Nat.mul_succ, Nat.add_sub_cancel]
    rw [chunksOf, full, if_neg Bool.false_ne_true, ih rest (by omega), List.range_succ_eq_map, List.map_cons, List.map_map]
    simp [Function.comp_def, Nat.mul_succ, Nat.add_comm]

section
variable {e m k : Nat} (he : e * m = 32) (th base : Nat) {els : List Nat} (hl : els.length = m * k)

include he in
theorem perRegister : 0 < m ∧ 32 / e = m :=
  ⟨Nat.pos_of_mul_pos_left (he ▸ (by decide : 0 < 32)),
    Nat.div_eq_of_eq_mul_right (Nat.pos_of_mul_pos_right (he ▸ (by decide : 0 < 32))) he.symm⟩

include he hl

/-- Full registers of elements. -/
theorem outPacked_eq : outPacked e th base els =
    (List.range k).map (fun i => (.v th (base + i), BitVec.ofNat 64 (packList e ((els.drop (m * i)).take m)))) := by
  obtain ⟨pos, per⟩ := perRegister he
  have chunks := chunksOf_eq pos hl (show k ≤ els.length by rw [hl]; exact Nat.le_mul_of_pos_left k pos)
  rw [outPacked, per, chunks, List.length_map, List.length_map, List.length_range]
  refine List.map_congr_left fun i hi => ?_
  rw [List.getD_eq_getElem?_getD, List.getElem?_map, List.getElem?_map, List.getElem?_range (List.mem_range.mp hi)]
  rfl

theorem packs_outPacked : Packs e th base els (outPacked e th base els) := by
  obtain ⟨pos, per⟩ := perRegister he
  have count : els.length * e / 32 = k := by rw [hl, Nat.mul_right_comm, Nat.mul_comm m, he, Nat.mul_div_cancel_left _ (by decide)]
  rw [outPacked_eq he th base hl]
  refine ⟨by rw [count, List.map_map]; rfl, fun i x hx => ?_⟩
  rw [per]
  have low : i < m * k := hl ▸ (List.getElem?_eq_some_iff.mp hx).1
  have digit := packList_digit e (l := (els.drop (m * (i / m))).take m) (j := i % m) (x := x)
    (by rw [List.getElem?_take_of_lt (Nat.mod_lt _ pos), List.getElem?_drop, Nat.div_add_mod, hx])
  have short : ((els.drop (m * (i / m))).take m).length ≤ m := by rw [List.length_take]; exact min_le_left ..
  have bound := (packList_lt e ((els.drop (m * (i / m))).take m)).trans_le
    (Nat.pow_le_pow_right (by decide) ((Nat.mul_le_mul_left e short).trans_eq he))
  refine ⟨_, List.mem_map.mpr ⟨i / m, List.mem_range.mpr (Nat.div_lt_of_lt_mul low), rfl⟩, ?_⟩
  rw [BitVec.toNat_ofNat, Nat.mod_eq_of_lt (bound.trans (by decide))]
  exact ⟨bound, digit⟩

theorem real_outPacked (hb : base + k ≤ 256) : ∀ p ∈ outPacked e th base els, p.1.real = true := by
  rw [outPacked_eq he th base hl]
  intro p hp
  obtain ⟨i, hi, rfl⟩ := List.mem_map.mp hp
  have hi := List.mem_range.mp hi
  simp only [RegKey.real, decide_eq_true_eq]
  omega

end

end Sys2Proof.Machine
end

section
/-! SUPPORT. Conversions of one value (R133, R134, R173). -/

namespace Sys2Proof.Machine

/-! ### Integer to floating -/

/-- No format flushes an integer: none is below its smallest normal number. -/
theorem roundTo_integer (t : FTy) (md : Rnd) (ftz neg : Bool) {m : Nat} (hm : 0 < m) :
    roundTo t md ftz neg m 0 = roundTo t md false neg m 0 := by
  rw [roundTo_signed, roundTo_signed t md false]
  obtain ⟨b, isExact, isTiny, ⟨b0, -, hi, hb⟩, -, -, eq⟩ := roundTo_pos hm 0 t (modeFor md neg)
  have normal : 2 ^ fracBits t ≤ fOne t := Nat.le_mul_of_pos_left _ (by cases t <;> decide)
  have one : (1 : ℚ) ≤ m := by exact_mod_cast hm
  have reached : fOne t < b0 + 1 := by
    rw [zpow_zero, mul_one] at hi
    refine (magnitude_strictMono t).lt_iff_lt.mp (lt_of_le_of_lt ?_ hi)
    rwa [magnitude_fOne]
  have large : ¬ b < 2 ^ fracBits t := by omega
  rw [eq ftz, eq false, decide_eq_false large, Bool.and_false, Bool.and_false]

theorem delivered_intFlt (s : IntTy) (d : FTy) (m : Rnd) (ftz : Bool) {x : Nat} (h : number s x ≠ 0) :
    Delivered d m (number s x) (cvtResult (.intFlt s d m ftz) x) := by
  have pos := Int.natAbs_pos.mpr h
  have value := rat_of_units (number s x) 0
  rw [zpow_zero, mul_one] at value
  have exact := delivered_of_ne_zero d m (v := .fin (decide (number s x < 0)) (number s x).natAbs 0) rfl
    (by rw [value]; exact_mod_cast h)
  rw [value, deliver, if_neg pos.ne'] at exact
  dsimp only at exact
  rw [flags_or_zero] at exact
  simp only [cvtResult, cvtIntFlt, intVal_eq, if_neg h, roundTo_integer d m ftz _ pos]
  exact exact

/-! ### Floating to floating -/

theorem fltFlt_fin (s d : FTy) (m : Rnd) {x : Nat} (fin : (fDecode s x).isFin = true) :
    cvtResult (.fltFlt s d m false) x = deliver d m false (fDecode s x) 0 := by
  simp only [cvtResult, cvtFltFlt, fFlush_false, (not_nan_of_isFin fin).2]
  rfl

theorem fltFlt_zero (s d : FTy) (m : Rnd) {x : Nat} (hx : x < 2 ^ s.width) (fin : (fDecode s x).isFin = true) (zero : (fDecode s x).rat = 0) :
    cvtResult (.fltFlt s d m false) x = (fZero d (signWeight s ≤ x), 0) := by
  rw [fltFlt_fin s d m fin]
  cases h : fDecode s x with
  | nan | inf => rw [h] at fin; cases fin
  | fin neg k e =>
    rw [h] at zero
    have sign := fDecode_sign (.inl ⟨k, e, h⟩)
    rw [sign_eq hx] at sign
    rw [deliver, if_pos (rat_fin_eq_zero.mp zero), ← sign]
    by_cases hs : signWeight s ≤ x <;> simp [hs]

theorem fltFlt_nan (s d : FTy) (m : Rnd) (ftz : Bool) {x : Nat} (nan : (fDecode s x).isNan = true) :
    cvtResult (.fltFlt s d m ftz) x = (fNaN d, if (fDecode s x).isSig then flNV else 0) := by
  obtain ⟨n, sig⟩ := fFlush_nan (t := s) (ftz := ftz) (x := x)
  rw [← n] at nan
  rw [cvtResult, cvtFltFlt, sig]
  cases h : fDecode s (fFlush ftz s x) with
  | nan => rfl
  | inf | fin => rw [h] at nan; cases nan

/-! ### Floating to integer: the integer taken -/

/-- Two integers within a half of one number are one, or the number is in the middle. -/
theorem halfway {x : ℚ} {n n' : Int} (near : |(n : ℚ) - x| ≤ 1 / 2) (near' : |(n' : ℚ) - x| ≤ 1 / 2) (lt : n < n') :
    n' = n + 1 ∧ x = n + 1 / 2 := by
  have one : (n : ℚ) + 1 ≤ n' := by exact_mod_cast lt
  have low := (abs_le.mp near).1
  have high := (abs_le.mp near').2
  exact ⟨by exact_mod_cast (show (n' : ℚ) = n + 1 by linarith), by linarith⟩

/-- In the middle, both neighbours cannot be even, and the one nearer to 0 is not taken for the one away from it. -/
theorem takesInt_le {m : Rnd} {x : ℚ} {n n' : Int} (h : TakesInt m x n) (h' : TakesInt m x n') : n' ≤ n := by
  cases m <;> simp only [TakesInt] at h h'
  case rd | ru | rz => rw [h, h']
  case rn =>
    by_contra! lt
    obtain ⟨rfl, rfl⟩ := halfway h.1 h'.1 lt
    have even := h.2 (by norm_num)
    have even' := h'.2 (by push_cast; norm_num)
    omega
  case rna =>
    by_contra! lt
    obtain ⟨rfl, rfl⟩ := halfway h.1 h'.1 lt
    have away := h.2 (by norm_num)
    have away' := h'.2 (by push_cast; norm_num)
    obtain neg | pos := lt_or_ge n 0
    · have : (n : ℚ) + 1 ≤ 0 := by exact_mod_cast neg
      rw [abs_of_neg (by linarith), abs_of_nonpos (by push_cast; exact this)] at away'
      push_cast at away'
      linarith
    · have : (0 : ℚ) ≤ n := by exact_mod_cast pos
      rw [abs_of_nonneg (by linarith), abs_of_nonneg this] at away
      linarith

theorem takesInt_unique {m : Rnd} {x : ℚ} {n n' : Int} (h : TakesInt m x n) (h' : TakesInt m x n') : n = n' :=
  le_antisymm (takesInt_le h' h) (takesInt_le h h')

/-- The place of a positive number on the grid of the integers is the integer taken. -/
theorem takesInt_of_rounds {m : Rnd} {a : ℚ} {q : Nat} (ha : 0 ≤ a) (h : RoundsIn (grid 0) m a q) : TakesInt m a q := by
  obtain ⟨b, lo, hi, rfl⟩ := h
  simp only [grid, zpow_zero, mul_one, Nat.cast_succ] at lo hi ⊢
  have floor : ⌊a⌋ = b := Int.floor_eq_iff.mpr ⟨by exact_mod_cast lo, by exact_mod_cast hi⟩
  cases m <;> simp only [TakesInt, roundsUp, Bool.toNat_false, Nat.add_zero, if_pos ha, floor]
  case ru =>
    by_cases h : (b : ℚ) < a
    · rw [decide_eq_true h]
      exact (Int.ceil_eq_iff.mpr ⟨by simpa using h, by simpa using hi.le⟩).symm
    · obtain rfl := le_antisymm (not_lt.mp h) lo
      simp
  case rn =>
    cases up : (decide ((b : ℚ) + (b + 1) < 2 * a) || ((b : ℚ) + (b + 1) == 2 * a && b % 2 == 1))
    · simp only [Bool.or_eq_false_iff, decide_eq_false_iff_not, not_lt, Bool.and_eq_false_iff, beq_eq_false_iff_ne] at up
      rw [Bool.toNat_false, Nat.add_zero, Int.cast_natCast, abs_of_nonpos (by linarith)]
      exact ⟨by linarith [up.1], fun tie => by have := up.2.resolve_left (fun h => h (by linarith)); omega⟩
    · simp only [Bool.or_eq_true, decide_eq_true_eq, Bool.and_eq_true, beq_iff_eq] at up
      rw [Bool.toNat_true, Int.cast_natCast, Nat.cast_succ, abs_of_pos (by linarith)]
      refine ⟨by obtain h | h := up <;> linarith [h], fun tie => ?_⟩
      have := (up.resolve_left (by linarith)).2
      omega
  case rna =>
    cases up : decide ((b : ℚ) + (b + 1) ≤ 2 * a)
    · rw [decide_eq_false_iff_not, not_le] at up
      rw [Bool.toNat_false, Nat.add_zero, Int.cast_natCast, abs_of_nonpos (by linarith)]
      exact ⟨by linarith, fun tie => by linarith⟩
    · rw [decide_eq_true_iff] at up
      rw [Bool.toNat_true, Int.cast_natCast, Nat.cast_succ, abs_of_pos (a := _ - a) (by linarith), abs_of_nonneg ha, abs_of_nonneg (by positivity)]
      exact ⟨by linarith, fun tie => by linarith⟩

/-- A mode takes the mirror image of what its mirror takes. -/
theorem takesInt_neg {m : Rnd} {a : ℚ} {n : Int} (ha : 0 ≤ a) (h : TakesInt (mirror m) a n) : TakesInt m (-a) (-n) := by
  have dist : |((-n : Int) : ℚ) - -a| = |(n : ℚ) - a| := by rw [← abs_neg, Int.cast_neg]; congr 1; ring
  cases m <;> simp only [TakesInt, mirror] at h ⊢
  case rd => rw [h, Int.floor_neg]
  case ru => rw [h, Int.ceil_neg]
  case rz =>
    rw [if_pos ha] at h
    obtain rfl | pos := ha.eq_or_lt
    · simp [h]
    · rw [if_neg (by linarith), h, Int.ceil_neg]
  case rn =>
    rw [dist]
    exact ⟨h.1, fun tie => by have := h.2 tie; omega⟩
  case rna =>
    rw [dist, abs_neg, Int.cast_neg, abs_neg]
    exact h

/-! ### Floating to integer: the result -/

section
variable (m : Rnd) (neg : Bool) (k : Nat) (e : Int)

/-- The integer that the model takes for a number, and whether it is the number. -/
def roundedInt : Int := if neg then -(roundGrid m neg k e 0 : Int) else roundGrid m neg k e 0

theorem takesInt_roundedInt : TakesInt m (FVal.rat (.fin neg k e)) (roundedInt m neg k e) := by
  have pos : (0 : ℚ) ≤ k * (2 : ℚ) ^ e := by positivity
  cases neg
  · simpa [roundedInt, FVal.rat] using takesInt_of_rounds pos (roundGrid_rounds m k e 0)
  · simpa [roundedInt, FVal.rat, roundGrid_mirror] using takesInt_neg pos (takesInt_of_rounds pos (roundGrid_rounds (mirror m) k e 0))

theorem roundedInt_exact : ((decide (0 ≤ e) || roundGrid m neg k e 0 * 2 ^ (-e).toNat == k) = true) ↔
    (roundedInt m neg k e : ℚ) = FVal.rat (.fin neg k e) := by
  have sign : (roundedInt m neg k e : ℚ) = FVal.rat (.fin neg k e) ↔ (roundGrid m neg k e 0 : ℚ) = k * (2 : ℚ) ^ e := by
    cases neg <;> simp [roundedInt, FVal.rat]
  rw [sign]
  obtain whole | part := le_or_gt 0 e
  · have value : (roundGrid m neg k e 0 : ℚ) = k * (2 : ℚ) ^ e := by
      have scale := two_pow_toNat_mul whole
      rw [zpow_zero, mul_one] at scale
      rw [roundGrid, if_pos whole, Nat.cast_mul, Nat.cast_pow, Nat.cast_ofNat, scale]
    simp [whole, value]
  · have scale := two_pow_toNat_mul part.le
    rw [zero_sub, zpow_zero] at scale
    rw [decide_eq_false part.not_ge, Bool.false_or, beq_iff_eq, ← Nat.cast_inj (R := ℚ), Nat.cast_mul, Nat.cast_pow, Nat.cast_ofNat]
    constructor <;> intro h
    · rw [← h, mul_assoc, scale, mul_one]
    · rw [h, mul_assoc, mul_comm ((2 : ℚ) ^ e), scale, mul_one]

end

theorem fltInt_fin (s : FTy) (d : IntTy) (m : Rnd) {x : Nat} {n : Int} (fin : (fDecode s x).isFin = true) (h : TakesInt m (fDecode s x).rat n) :
    cvtResult (.fltInt s d m false) x = if n < lowest d then ((BitVec.ofInt d.width (lowest d)).toNat, flNV)
      else if highest d < n then ((BitVec.ofInt d.width (highest d)).toNat, flNV)
      else ((BitVec.ofInt d.width n).toNat, if (n : ℚ) = (fDecode s x).rat then 0 else flNX) := by
  simp only [cvtResult, cvtFltInt, fFlush_false]
  cases hv : fDecode s x with
  | nan | inf => rw [hv] at fin; cases fin
  | fin neg k e =>
    rw [hv] at h
    obtain rfl := takesInt_unique h (takesInt_roundedInt m neg k e)
    have flag (b : Bool) : flIf (!b) flNX = if b = true then 0 else flNX := by cases b <;> rfl
    simp only [wrap_eq, ← roundedInt_exact, flag]
    rfl

theorem fltInt_nan (s : FTy) (d : IntTy) (m : Rnd) (ftz : Bool) {x : Nat} (nan : (fDecode s x).isNan = true) :
    cvtResult (.fltInt s d m ftz) x = (0, flNV) := by
  rw [← (fFlush_nan (ftz := ftz)).1] at nan
  rw [cvtResult, cvtFltInt]
  cases h : fDecode s (fFlush ftz s x) with
  | nan => rfl
  | inf | fin => rw [h] at nan; cases nan

theorem fltInt_infinity (s : FTy) (d : IntTy) (m : Rnd) (ftz n : Bool) :
    cvtResult (.fltInt s d m ftz) (fInf s n) = ((BitVec.ofInt d.width (if n then lowest d else highest d)).toNat, flNV) := by
  simp only [cvtResult, cvtFltInt, fFlush_fInf, fDecode_fInf, wrap_eq]
  rfl

end Sys2Proof.Machine
end

section
/-! SUPPORT. Block formats (R138 to R141): the exponents of a block, its elements nearest to the values, and the flags. -/

namespace Sys2Proof.Machine

/-! ### Nearest multiples -/

/-- The nearest multiple with ties to even is as near as any other, and no other is as near unless it is the even one. -/
theorem grid_nearest {g : Int} {a : ℚ} {q : Nat} (h : RoundsIn (grid g) .rn a q) (n : Nat) :
    |a - grid g q| ≤ |a - grid g n| ∧ (|a - grid g n| = |a - grid g q| → n = q ∨ q % 2 = 0) := by
  obtain ⟨b, lo, hi, rfl⟩ := h
  have mono := (grid_strictMono g).monotone
  have inj := (grid_strictMono g).injective
  cases up : roundsUp .rn a (grid g b) (grid g (b + 1)) (b % 2 == 1) <;>
    simp only [roundsUp, Bool.or_eq_false_iff, decide_eq_false_iff_not, not_lt, Bool.and_eq_false_iff, beq_eq_false_iff_ne, Bool.or_eq_true,
      decide_eq_true_eq, Bool.and_eq_true, beq_iff_eq] at up
  · rw [Bool.toNat_false, Nat.add_zero, abs_of_nonneg (a := a - grid g b) (by linarith)]
    obtain le | gt := le_or_gt n b
    · have := mono le
      rw [abs_of_nonneg (by linarith)]
      exact ⟨by linarith, fun e => .inl (inj (by linarith))⟩
    · have := mono (Nat.succ_le_of_lt gt)
      rw [Nat.succ_eq_add_one] at this
      rw [abs_of_nonpos (by linarith)]
      exact ⟨by linarith, fun e => .inr (by have := up.2.resolve_left (fun h => h (by linarith)); omega)⟩
  · rw [Bool.toNat_true, abs_of_nonpos (a := a - grid g (b + 1)) (by linarith)]
    obtain le | gt := le_or_gt n b
    · have := mono le
      rw [abs_of_nonneg (by linarith)]
      refine ⟨by obtain h | h := up <;> linarith [h], fun e => .inr ?_⟩
      have := (up.resolve_left (by linarith)).2
      omega
    · have := mono (Nat.succ_le_of_lt gt)
      rw [Nat.succ_eq_add_one] at this
      rw [abs_of_nonpos (by linarith)]
      exact ⟨by linarith, fun e => .inl (inj (by linarith))⟩

/-- So is the greatest multiple that there is, where the nearest one is above it. -/
theorem grid_nearest_min {g : Int} {a : ℚ} {q : Nat} (h : RoundsIn (grid g) .rn a q) {n top : Nat} (hn : n ≤ top) :
    |a - grid g (min q top)| ≤ |a - grid g n| ∧ (|a - grid g n| = |a - grid g (min q top)| → n = min q top ∨ min q top % 2 = 0) := by
  obtain le | gt := le_or_gt q top
  · rw [min_eq_left le]
    exact grid_nearest h n
  · rw [min_eq_right gt.le]
    obtain ⟨b, lo, -, hq⟩ := h
    have up := Bool.toNat_le (roundsUp .rn a (grid g b) (grid g (b + 1)) (b % 2 == 1))
    have above := ((grid_strictMono g).monotone (show top ≤ b by omega)).trans lo
    have below := (grid_strictMono g).monotone hn
    rw [abs_of_nonneg (by linarith), abs_of_nonneg (by linarith)]
    exact ⟨by linarith, fun e => .inl ((grid_strictMono g).injective (by linarith))⟩

/-! ### One element at one exponent -/

/-- The magnitude of an element of a block with exponent `E`. -/
def blockMag (t : BTy) (E n : Nat) : ℚ := grid ((E : Int) - 127 - bFrac t) n

section
variable (t : BTy) (m : Nat) (e : Int) (E : Nat)

theorem quantAt_le : quantAt t m e E ≤ bMax t := min_le_right ..

theorem quantAt_nearest {n : Nat} (hn : n ≤ bMax t) : let a := m * (2 : ℚ) ^ e; let q := quantAt t m e E
    |a - blockMag t E q| ≤ |a - blockMag t E n| ∧ (|a - blockMag t E n| = |a - blockMag t E q| → n = q ∨ q % 2 = 0) :=
  grid_nearest_min (roundGrid_rounds .rn m e _) hn

theorem quantErr_mul (q : Nat) {g : Int} (hg : g ≤ e) (hE : g ≤ (E : Int) - 127 - bFrac t) :
    (quantErr t m e q E g : ℚ) * (2 : ℚ) ^ g = |m * (2 : ℚ) ^ e - blockMag t E q| := by
  have unit : (0 : ℚ) < (2 : ℚ) ^ g := by positivity
  have value := toUnits_mul false m hg
  have mag := toUnits_mul false q hE
  simp only [FVal.rat, Bool.false_eq_true, if_false, one_mul] at value mag
  rw [blockMag, grid, ← value, ← mag, ← sub_mul, abs_mul, abs_of_pos unit, quantErr, Nat.cast_natAbs, Int.cast_abs, Int.cast_sub]

end

/-! ### One element -/

section
variable (t : BTy) (e0 e1 : Nat) (n : Bool) (m : Nat) (e : Int)

/-- The unit in which the two errors are compared. -/
def errUnit : Int := min e (min ((e0 : Int) - 127 - bFrac t) ((e1 : Int) - 127 - bFrac t))

/-- Whether an element takes the second exponent. -/
def takesSecond : Bool :=
  e1 != 255 && quantErr t m e (quantAt t m e e1) e1 (errUnit t e0 e1 e) < quantErr t m e (quantAt t m e e0) e0 (errUnit t e0 e1 e)

/-- The exponent that an element takes. -/
def takenExp : Nat := if takesSecond t e0 e1 m e then e1 else e0

theorem takesSecond_iff : takesSecond t e0 e1 m e = true ↔ e1 ≠ 255 ∧
    |m * (2 : ℚ) ^ e - blockMag t e1 (quantAt t m e e1)| < |m * (2 : ℚ) ^ e - blockMag t e0 (quantAt t m e e0)| := by
  have unit : (0 : ℚ) < (2 : ℚ) ^ errUnit t e0 e1 e := by positivity
  rw [← quantErr_mul t m e e1 _ (g := errUnit t e0 e1 e) (min_le_left ..) ((min_le_right ..).trans (min_le_right ..)),
    ← quantErr_mul t m e e0 _ (g := errUnit t e0 e1 e) (min_le_left ..) ((min_le_right ..).trans (min_le_left ..)),
    mul_lt_mul_iff_left₀ unit, Nat.cast_lt]
  simp [takesSecond]

theorem quantElem_fin : quantElem t e0 e1 (.fin n m e)
    = (blockElem t (takesSecond t e0 e1 m e) n (quantAt t m e (takenExp t e0 e1 m e)),
      { nan := false, sig := false, ov := m != 0 && 254 < Nat.log2 m + e + 127, uf := m != 0 && quantAt t m e (takenExp t e0 e1 m e) == 0,
        nx := quantErr t m e (quantAt t m e (takenExp t e0 e1 m e)) (takenExp t e0 e1 m e) (errUnit t e0 e1 e) != 0,
        sat := bMax t < roundGrid .rn false m e ((takenExp t e0 e1 m e : Int) - 127 - bFrac t) }) := by
  unfold takenExp
  cases h : takesSecond t e0 e1 m e <;> unfold takesSecond errUnit at h <;> simp only [quantElem, h] <;> rfl

theorem abs_rat_fin : |FVal.rat (.fin n m e)| = m * (2 : ℚ) ^ e := by
  have pos : (0 : ℚ) ≤ m * (2 : ℚ) ^ e := by positivity
  cases n <;> simp [FVal.rat, abs_of_nonneg pos]

/-- R140: each element is the nearer of the nearest ones at the two exponents. -/
theorem taken_nearest : let a := m * (2 : ℚ) ^ e; let E := takenExp t e0 e1 m e; let q := quantAt t m e E
    (∀ n ≤ bMax t, |a - blockMag t E q| ≤ |a - blockMag t e0 n| ∧ (|a - blockMag t E n| = |a - blockMag t E q| → n = q ∨ q % 2 = 0)) ∧
    (∀ n ≤ bMax t, e1 ≠ 255 → |a - blockMag t E q| ≤ |a - blockMag t e1 n|) ∧
    (takesSecond t e0 e1 m e = true → ∀ n ≤ bMax t, |a - blockMag t E q| < |a - blockMag t e0 n|) := by
  intro a E q
  have first (n : Nat) (hn : n ≤ bMax t) := (quantAt_nearest t m e e0 hn).1
  have second (n : Nat) (hn : n ≤ bMax t) := (quantAt_nearest t m e e1 hn).1
  have tie (n : Nat) (hn : n ≤ bMax t) := (quantAt_nearest t m e E hn).2
  have choice := takesSecond_iff t e0 e1 m e
  cases h : takesSecond t e0 e1 m e
  · have taken : E = e0 := by simp [E, takenExp, h]
    have least : e1 ≠ 255 → |a - blockMag t e0 (quantAt t m e e0)| ≤ |a - blockMag t e1 (quantAt t m e e1)| := by
      simpa [h] using choice
    refine ⟨fun n hn => ⟨?_, tie n hn⟩, fun n hn ne => ?_, fun h => by cases h⟩
    · simpa only [q, taken] using first n hn
    · simpa only [q, taken] using (least ne).trans (second n hn)
  · have taken : E = e1 := by simp [E, takenExp, h]
    obtain ⟨-, less⟩ := choice.mp h
    refine ⟨fun n hn => ⟨?_, tie n hn⟩, fun n hn _ => ?_, fun _ n hn => ?_⟩
    · simpa only [q, taken] using less.le.trans (first n hn)
    · simpa only [q, taken] using second n hn
    · simpa only [q, taken] using less.trans_le (first n hn)

theorem taken_exact : let E := takenExp t e0 e1 m e
    quantErr t m e (quantAt t m e E) E (errUnit t e0 e1 e) = 0 ↔ blockMag t E (quantAt t m e E) = m * (2 : ℚ) ^ e := by
  intro E
  have unit : (2 : ℚ) ^ errUnit t e0 e1 e ≠ 0 := by positivity
  have coarse : errUnit t e0 e1 e ≤ (E : Int) - 127 - bFrac t := by
    unfold E takenExp errUnit
    split
    · exact (min_le_right ..).trans (min_le_right ..)
    · exact (min_le_right ..).trans (min_le_left ..)
  rw [← Nat.cast_eq_zero (R := ℚ), ← mul_left_inj' unit, quantErr_mul t m e E _ (g := errUnit t e0 e1 e) (min_le_left ..) coarse,
    zero_mul, abs_eq_zero, sub_eq_zero, eq_comm]

end

/-! ### The fields of an element (R138) -/

section
variable (t : BTy) (sel sg : Bool) {m : Nat} (hm : m ≤ bMax t)
include hm

theorem blockElem_mod : blockElem t sel sg m % 2 ^ bMagBits t = m := by
  cases t <;> cases sel <;> cases sg <;> simp [blockElem, bMagBits, bMax] at hm ⊢ <;> omega

theorem blockElem_sign : (blockElem t sel sg m / 2 ^ bMagBits t % 2 == 1) = sg := by
  rw [beq_eq_decide]
  cases t <;> cases sel <;> cases sg <;> simp [blockElem, bMagBits, bMax] at hm ⊢ <;> omega

theorem blockElem_sel : blockElem t sel sg m / 2 ^ (bMagBits t + 1) % 2 = if sel then 1 else 0 := by
  cases t <;> cases sel <;> cases sg <;> simp [blockElem, bMagBits, bMax] at hm ⊢ <;> omega

theorem blockVal_blockElem (e0 e1 : Nat) (h : (if sel then e1 else e0) ≠ 255) :
    blockVal t e0 e1 (blockElem t sel sg m) = .fin sg m (((if sel then e1 else e0 : Nat) : Int) - 127 - bFrac t) := by
  have exponent : (if blockElem t sel sg m / 2 ^ (bMagBits t + 1) % 2 = 1 then e1 else e0) = if sel then e1 else e0 := by
    rw [blockElem_sel t sel sg hm]
    cases sel <;> rfl
  simp only [blockVal, exponent, if_neg h, blockElem_sign t sel sg hm, blockElem_mod t sel sg hm]

end

/-! ### The exponents of a block (R140) -/

/-- `o` is the greatest of the numbers with a property, or none where there are none. -/
def IsTop (o : Option Int) (p : Int → Prop) : Prop := (∀ j, p j → ∃ k, o = some k ∧ j ≤ k) ∧ ∀ k, o = some k → p k

theorem isTop_maxOpt {o : Option Int} {p : Int → Prop} (h : IsTop o p) (o' : Option Int) : IsTop (maxOpt o o') (fun j => p j ∨ o' = some j) := by
  obtain ⟨bound, reached⟩ := h
  cases o with
  | none =>
    refine ⟨fun j hj => ?_, fun k hk => .inr hk⟩
    obtain hj | rfl := hj
    · obtain ⟨k, hk, -⟩ := bound j hj
      cases hk
    · exact ⟨j, rfl, le_rfl⟩
  | some a =>
    cases o' with
    | none => exact ⟨fun j hj => bound j (hj.resolve_right (by simp)), fun k hk => .inl (reached k hk)⟩
    | some b =>
      refine ⟨fun j hj => ⟨max a b, rfl, ?_⟩, fun k hk => ?_⟩
      · obtain hj | hj := hj
        · obtain ⟨k, hk, le⟩ := bound j hj
          cases hk
          exact le.trans (le_max_left ..)
        · cases hj
          exact le_max_right ..
      · cases hk
        obtain h | h := max_choice a b <;> rw [h]
        · exact .inl (reached a rfl)
        · exact .inr rfl

/-- The greatest scale of a block's values. -/
def blockTop (xs : List FVal) : Option Int := xs.foldl (fun a x => maxOpt a (topOf x)) none

theorem isTop_blockTop (xs : List FVal) : IsTop (blockTop xs) (fun j => ∃ x ∈ xs, topOf x = some j) := by
  induction xs using List.reverseRecOn with
  | nil => exact ⟨fun j ⟨x, hx, _⟩ => (List.not_mem_nil hx).elim, fun k hk => by cases hk⟩
  | append_singleton xs x ih =>
    have h := isTop_maxOpt ih (topOf x)
    rw [blockTop, List.foldl_append]
    change IsTop (maxOpt (blockTop xs) (topOf x)) _
    simpa only [List.mem_append, List.mem_singleton, or_and_right, exists_or, exists_eq_left] using h

section
variable (t : BTy) {xs : List FVal}

theorem firstExp_none (h : ∀ x ∈ xs, topOf x = none) : (quantise t xs).2.1 = 0 := by
  have none : blockTop xs = none := by
    cases hk : blockTop xs with
    | none => rfl
    | some k =>
      obtain ⟨x, hx, e⟩ := (isTop_blockTop xs).2 k hk
      rw [h x hx] at e
      cases e
  unfold blockTop at none
  simp only [quantise, none]

theorem firstExp_some {k : Int} (h : ∃ x ∈ xs, topOf x = some k) (le : ∀ x ∈ xs, ∀ j, topOf x = some j → j ≤ k) :
    ((quantise t xs).2.1 : Int) = max 0 (min (k + 127) 254) := by
  obtain ⟨bound, reached⟩ := isTop_blockTop xs
  obtain ⟨j, hj, kj⟩ := bound k h
  obtain ⟨x, hx, e⟩ := reached j hj
  obtain rfl := le_antisymm kj (le x hx j e)
  unfold blockTop at hj
  simp only [quantise, hj]
  exact Int.toNat_of_nonneg (le_max_left ..)

theorem firstExp_le (xs : List FVal) : (quantise t xs).2.1 ≤ 254 := by
  cases h : blockTop xs <;> unfold blockTop at h <;> simp only [quantise, h] <;> omega

end

/-! ### The scale of a value -/

theorem topOf_spec {x : FVal} {j : Int} (h : topOf x = some j) :
    (∃ n, x = .inf n ∧ j = 128) ∨ (2 : ℚ) ^ j ≤ |x.rat| ∧ |x.rat| < (2 : ℚ) ^ (j + 1) := by
  cases x with
  | nan => cases h
  | inf n => exact .inl ⟨n, rfl, by cases h; rfl⟩
  | fin n m e =>
    rw [topOf] at h
    split at h
    next => cases h
    next hm =>
      cases h
      rw [abs_rat_fin]
      exact .inr (value_binade (Nat.pos_of_ne_zero hm) e)

theorem topOf_none {x : FVal} : topOf x = none ↔ x.rat = 0 ∧ ∀ n, x ≠ .inf n := by
  cases x with
  | nan => simp [topOf, FVal.rat]
  | inf n => simp [topOf]
  | fin n m e => simp [topOf, rat_fin_eq_zero]

theorem topOf_le {x : FVal} {j k : Int} (h : topOf x = some j) (fin : ∀ n, x ≠ .inf n) (lt : |x.rat| < (2 : ℚ) ^ (k + 1)) : j ≤ k := by
  obtain ⟨n, rfl, -⟩ | ⟨lo, -⟩ := topOf_spec h
  · exact absurd rfl (fin n)
  · have := (zpow_lt_zpow_iff_right₀ one_lt_two).mp (lo.trans_lt lt)
    omega

/-- The scale of a number between two consecutive powers of 2. -/
theorem topOf_eq {x : FVal} {k : Int} (fin : ∀ n, x ≠ .inf n) (le : (2 : ℚ) ^ k ≤ |x.rat|) (lt : |x.rat| < (2 : ℚ) ^ (k + 1)) :
    topOf x = some k := by
  have pos : (0 : ℚ) < (2 : ℚ) ^ k := by positivity
  cases h : topOf x with
  | none =>
    rw [(topOf_none.mp h).1, abs_zero] at le
    exact absurd le pos.not_ge
  | some j =>
    obtain ⟨n, rfl, -⟩ | ⟨-, hi⟩ := topOf_spec h
    · exact absurd rfl (fin n)
    · have := (zpow_lt_zpow_iff_right₀ one_lt_two).mp (le.trans_lt hi)
      rw [le_antisymm (topOf_le h fin lt) (show k ≤ j by omega)]

/-! ### A block -/

section
variable (t : BTy) (xs : List FVal)

theorem quantise_getElem? (i : Nat) : (quantise t xs).1[i]?
    = xs[i]?.map (fun x => (quantElem t (quantise t xs).2.1 (quantise t xs).2.2.1 x).1) := by
  rw [← List.getElem?_map]
  simp only [quantise, List.map_map]
  rfl

theorem quantise_infos : (quantise t xs).2.2.2 = xs.map (fun x => (quantElem t (quantise t xs).2.1 (quantise t xs).2.2.1 x).2) := by
  simp only [quantise, List.map_map]
  rfl

theorem secondExp_nan (h : xs.any FVal.isNan = true) : (quantise t xs).2.2.1 = 255 := if_pos h

theorem secondExp_step (h : xs.any FVal.isNan = false) : (quantise t xs).2.2.1 = (quantise t xs).2.1 - bStep t := if_neg (by simp [h])

end

/-! ### The flags of a block (R141) -/

theorem quantFlags_bits (l : List QuantInfo) :
    (quantFlags l).getLsbD 4 = l.any (·.sig) ∧ (quantFlags l).getLsbD 3 = false ∧ (quantFlags l).getLsbD 2 = l.any (·.ov) ∧
    (quantFlags l).getLsbD 1 = l.any (·.uf) ∧ (quantFlags l).getLsbD 0 = (l.any (·.uf) || l.any (·.nx)) := by
  unfold quantFlags
  generalize l.any (·.sig) = sig
  generalize l.any (·.ov) = ov
  generalize l.any (·.uf) = uf
  generalize l.any (·.nx) = nx
  revert sig ov uf nx
  decide

section
variable (t : BTy) (e0 e1 : Nat) (x : FVal)

theorem quantElem_sig : (quantElem t e0 e1 x).2.sig = true ↔ x = .nan true := by
  cases x <;> simp [quantElem]

theorem quantElem_ov (small : |x.rat| < (2 : ℚ) ^ (128 : Int)) : (quantElem t e0 e1 x).2.ov = true ↔ ∃ n, x = .inf n := by
  cases x with
  | nan | inf => simp [quantElem]
  | fin n m e =>
    rw [quantElem_fin]
    simp only [Bool.and_eq_true, bne_iff_ne, decide_eq_true_eq, reduceCtorEq, exists_false, iff_false, not_and, not_lt]
    intro hm
    have := topOf_le (x := .fin n m e) (if_neg hm) (by simp) (k := 127) small
    omega

theorem quantElem_uf : (quantElem t e0 e1 x).2.uf = true ↔ x.rat ≠ 0 ∧ (quantElem t e0 e1 x).1 % 2 ^ bMagBits t = 0 := by
  cases x with
  | nan | inf => simp [quantElem, FVal.rat]
  | fin n m e =>
    rw [quantElem_fin]
    simp only [blockElem_mod t _ n (quantAt_le ..), ne_eq, rat_fin_eq_zero, Bool.and_eq_true, bne_iff_ne, beq_iff_eq]

theorem takenExp_ne (first : e0 ≠ 255) (m : Nat) (e : Int) : takenExp t e0 e1 m e ≠ 255 := by
  unfold takenExp
  split
  next h => exact ((takesSecond_iff ..).mp h).1
  next => exact first

theorem blockVal_quantElem (first : e0 ≠ 255) (n : Bool) (m : Nat) (e : Int) :
    (blockVal t e0 e1 (quantElem t e0 e1 (.fin n m e)).1).rat
      = (if n then -1 else 1) * blockMag t (takenExp t e0 e1 m e) (quantAt t m e (takenExp t e0 e1 m e)) := by
  rw [quantElem_fin, blockVal_blockElem t _ n (quantAt_le ..) e0 e1 (takenExp_ne t e0 e1 first m e)]
  exact mul_assoc _ _ _

theorem quantElem_nx (first : e0 ≠ 255) : (quantElem t e0 e1 x).2.nx = true ↔
    x.isFin = true ∧ (blockVal t e0 e1 (quantElem t e0 e1 x).1).rat ≠ x.rat := by
  cases x with
  | nan | inf => simp [quantElem, FVal.isFin]
  | fin n m e =>
    have sign : (if n then -1 else 1 : ℚ) ≠ 0 := by cases n <;> norm_num
    have exact := taken_exact t e0 e1 m e
    dsimp only at exact
    rw [blockVal_quantElem t e0 e1 first, quantElem_fin, FVal.rat, mul_assoc, ne_eq, mul_right_inj' sign, ← exact]
    simp [FVal.isFin]

/-- An element that is 0 for a number that is not is not exact. -/
theorem inexact_of_uf (h : (quantElem t e0 e1 x).2.uf = true) (first : e0 ≠ 255) : (quantElem t e0 e1 x).2.nx = true := by
  rw [quantElem_nx t e0 e1 x first]
  obtain ⟨ne, zero⟩ := (quantElem_uf ..).mp h
  cases x with
  | nan | inf => exact absurd rfl ne
  | fin n m e =>
    rw [quantElem_fin, blockElem_mod t _ n (quantAt_le ..)] at zero
    refine ⟨rfl, fun e => ne ?_⟩
    rw [← e, blockVal_quantElem t e0 e1 first, zero, blockMag, grid, Nat.cast_zero, zero_mul, mul_zero]

end

section
variable (t : BTy) {xs : List FVal}

theorem quantise_getD {i : Nat} {x : FVal} (h : xs[i]? = some x) :
    (quantise t xs).1.getD i 0 = (quantElem t (quantise t xs).2.1 (quantise t xs).2.2.1 x).1 := by
  rw [List.getD_eq_getElem?_getD, quantise_getElem?, h]
  rfl

theorem any_infos (p : QuantInfo → Bool) : (quantise t xs).2.2.2.any p = true ↔
    ∃ (i : Nat) (x : FVal), xs[i]? = some x ∧ p (quantElem t (quantise t xs).2.1 (quantise t xs).2.2.1 x).2 = true := by
  rw [quantise_infos, List.any_map, List.any_eq_true]
  simp only [List.mem_iff_getElem?, Function.comp_apply]
  exact ⟨fun ⟨x, ⟨i, hi⟩, h⟩ => ⟨i, x, hi, h⟩, fun ⟨i, x, hi, h⟩ => ⟨x, ⟨i, hi⟩, h⟩⟩

end

end Sys2Proof.Machine
end

section
/-! SUPPORT. CVT on registers (R137, R172 to R174). -/

namespace Sys2Proof.Machine

/-! ### Register groups -/

theorem side_registers (s : BSide) : (BSide.fty s).width * (32 / (BSide.fty s).width) = 32 := by cases s <;> rfl

theorem block_registers (b : BTy) : bBits b * (32 / bBits b) = 32 := by cases b <;> rfl

theorem fltGroup_eq (c : Cx) (n th va : Nat) (s : BSide) :
    let w := (BSide.fty s).width
    c.fltGroup n th (BSide.fty s) va
      = (List.range 32).map (fun i => (((c.v n 1 th (va + i / (32 / w))) >>> (w * (i % (32 / w)))).setWidth w).toNat) := by
  rw [Cx.fltGroup, unpackRegs_eq c n 1 th va _ (by cases s <;> decide) (by cases s <;> decide), side_registers]

theorem blockGroup_eq (c : Cx) (n th va : Nat) (b : BTy) :
    let w := bBits b
    unpackRegs w (c.regs n 1 th va w)
      = (List.range 32).map (fun i => (((c.v n 1 th (va + i / (32 / w))) >>> (w * (i % (32 / w)))).setWidth w).toNat) := by
  intro w
  rw [unpackRegs_eq c n 1 th va _ (by cases b <;> decide) (by cases b <;> decide), block_registers]

theorem foldl_or_getLsbD {α : Type} (l : List (α × Fl)) (j : Nat) :
    (l.foldl (fun (f : Fl) r => f ||| r.2) 0).getLsbD j = true ↔ ∃ r ∈ l, r.2.getLsbD j = true := by
  induction l using List.reverseRecOn with
  | nil => simp
  | append_singleton l r ih =>
    rw [List.foldl_append]
    simp only [List.foldl_cons, List.foldl_nil, BitVec.getLsbD_or, Bool.or_eq_true, ih, List.mem_append, List.mem_singleton, or_and_right, exists_or,
      exists_eq_left]

/-! ### The parts of CVT -/

section
variable (o : CvtOp) (c : Cx) (n th : Nat)

theorem cvtThread_one {p : CvtPair} (h : o.kind = .one p) :
    let r := cvtResult p (c.lane n 1 th (cvtSrcWidth p) o.va.toNat)
    cvtThread o c n th = (cvtOut p th o.vd.toNat r.1, r.2) := by
  simp only [cvtThread, h]

/-- The block that a quantisation reads. -/
def cvtBlock (s : BSide) (d : BTy) : List Nat × Nat × Nat × List QuantInfo :=
  quantise d ((c.fltGroup n th (BSide.fty s) o.va.toNat).map (fDecode (BSide.fty s)))

theorem cvtThread_quant {s : BSide} {d : BTy} {vc : BitVec 8} (h : o.kind = .quant s d vc) :
    let r := cvtBlock o c n th s d
    cvtThread o c n th = (outPacked (bBits d) th o.vd.toNat r.1 ++ outWord th vc.toNat (r.2.1 + 256 * r.2.2.1), quantFlags r.2.2.2) := by
  simp only [cvtThread, h]
  rfl

/-- The values that a block conversion to a floating type delivers. -/
def cvtValues (b : BTy) (d : BSide) (m : Rnd) (vc : BitVec 8) : List (Nat × Fl) :=
  let e := (c.v n 3 th vc.toNat).toNat
  (unpackRegs (bBits b) (c.regs n 1 th o.va.toNat (bBits b))).map
    (fun x => deliver (BSide.fty d) m false (blockVal b (e % 256) (e / 256 % 256) x) 0)

theorem cvtThread_dequant {b : BTy} {d : BSide} {m : Rnd} {vc : BitVec 8} (h : o.kind = .dequant b d m vc) :
    let rs := cvtValues o c n th b d m vc
    cvtThread o c n th = (outPacked (BSide.fty d).width th o.vd.toNat (rs.map (·.1)), rs.foldl (fun f r => f ||| r.2) 0) := by
  simp only [cvtThread, h]
  rfl

theorem quantise_length (t : BTy) (xs : List FVal) : (quantise t xs).1.length = xs.length := by
  simp only [quantise, List.length_map]

theorem cvtBlock_length (s : BSide) (d : BTy) : (cvtBlock o c n th s d).1.length = 32 := by
  rw [cvtBlock, quantise_length, fltGroup_eq, List.length_map, List.length_map, List.length_range]

theorem cvtValues_length (b : BTy) (d : BSide) (m : Rnd) (vc : BitVec 8) : (cvtValues o c n th b d m vc).length = 32 := by
  rw [cvtValues, List.length_map, blockGroup_eq, List.length_map, List.length_range]

/-- An aligned register group ends below the last register. -/
theorem rGroup_top {k : Nat} {r : BitVec 8} (hk : k = 4 ∨ k = 8 ∨ k = 16 ∨ k = 32) {count : Nat} (h : rGroup count r k k = true) :
    r.toNat + k ≤ 256 := by
  have := r.isLt
  simp only [rGroup, Bool.and_eq_true, beq_iff_eq, decide_eq_true_eq] at h
  obtain rfl | rfl | rfl | rfl := hk <;> omega

theorem real_cvtThread {count : Nat} (h : (Instr.cvt o).regsOk count = true) : ∀ p ∈ (cvtThread o c n th).1, p.1.real = true := by
  cases hk : o.kind with
  | one p =>
    rw [cvtThread_one o c n th hk]
    simp only [Sys2Proof.Instr.regsOk, hk, Bool.and_eq_true] at h
    cases p
    case intInt | fltInt => exact real_outInt h.2 th _
    case intFlt | fltFlt => exact real_outFlt h.2 th _
  | quant s d vc =>
    rw [cvtThread_quant o c n th hk]
    simp only [Sys2Proof.Instr.regsOk, hk, Bool.and_eq_true] at h
    obtain ⟨⟨⟨-, group⟩, -⟩, -⟩ := h
    have top := rGroup_top (by cases d <;> simp [BTy.elemRegs]) group
    intro p hp
    obtain hp | hp := List.mem_append.mp hp
    · exact real_outPacked (block_registers d) th _ (by rw [cvtBlock_length]; cases d <;> rfl) top p hp
    · exact real_outWord vc th _ p hp
  | dequant b d m vc =>
    rw [cvtThread_dequant o c n th hk]
    simp only [Sys2Proof.Instr.regsOk, hk, Bool.and_eq_true] at h
    obtain ⟨⟨-, group⟩, -⟩ := h
    have top := rGroup_top (by cases d <;> simp [BSide.regs]) group
    exact real_outPacked (side_registers d) th _ (by rw [List.length_map, cvtValues_length]; cases d <;> rfl) top

end

section
variable (o : CvtOp) (c : Cx) (n th : Nat)

theorem cvtThread_quant_packs {s : BSide} {d : BTy} {vc : BitVec 8} (h : o.kind = .quant s d vc) :
    let r := cvtBlock o c n th s d
    ∃ out, cvtThread o c n th = (out ++ wordDest th vc.toNat (BitVec.ofNat 32 (r.2.1 + 256 * r.2.2.1)), quantFlags r.2.2.2) ∧
      Packs (bBits d) th o.vd.toNat r.1 out := by
  have full : (cvtBlock o c n th s d).1.length = 32 / bBits d * bBits d := by rw [cvtBlock_length]; cases d <;> rfl
  exact ⟨_, (cvtThread_quant o c n th h).trans (by rw [outWord_ofNat]), packs_outPacked (block_registers d) th _ full⟩

theorem cvtBlock_eq (s : BSide) (d : BTy) :
    let w := (BSide.fty s).width
    cvtBlock o c n th s d = quantise d ((List.range 32).map (fun i => fDecode (BSide.fty s)
      (((c.v n 1 th (o.va.toNat + i / (32 / w))) >>> (w * (i % (32 / w)))).setWidth w).toNat)) := by
  rw [cvtBlock, fltGroup_eq, List.map_map]
  rfl

theorem cvtThread_dequant_packs {b : BTy} {d : BSide} {m : Rnd} {vc : BitVec 8} (h : o.kind = .dequant b d m vc) :
    let rs := cvtValues o c n th b d m vc
    ∃ out fl, cvtThread o c n th = (out, fl) ∧ Packs (BSide.fty d).width th o.vd.toNat (rs.map (·.1)) out ∧
      ∀ j, fl.getLsbD j = true ↔ ∃ r ∈ rs, r.2.getLsbD j = true := by
  have full : ((cvtValues o c n th b d m vc).map (·.1)).length = 32 / (BSide.fty d).width * (BSide.fty d).width := by
    rw [List.length_map, cvtValues_length]
    cases d <;> rfl
  exact ⟨_, _, cvtThread_dequant o c n th h, packs_outPacked (side_registers d) th _ full, foldl_or_getLsbD _⟩

theorem cvtValues_eq (b : BTy) (d : BSide) (m : Rnd) (vc : BitVec 8) :
    let w := bBits b
    let e := c.v n 3 th vc.toNat
    cvtValues o c n th b d m vc = (List.range 32).map (fun i => deliver (BSide.fty d) m false
      (blockVal b (e.setWidth 8).toNat ((e >>> 8).setWidth 8).toNat
      (((c.v n 1 th (o.va.toNat + i / (32 / w))) >>> (w * (i % (32 / w)))).setWidth w).toNat) 0) := by
  intro w e
  have high : ((e >>> 8).setWidth 8).toNat = e.toNat / 256 % 256 := by
    rw [← ofNat_div_toNat, BitVec.toNat_ofNat]
    rfl
  rw [cvtValues, blockGroup_eq, List.map_map, high, BitVec.toNat_setWidth]
  rfl

end

/-! ### The exponents and elements of a block -/

section
variable (t : BTy) {xs : List FVal}

theorem firstExp_infinity (h : ∃ n, .inf n ∈ xs) (small : ∀ x ∈ xs, |x.rat| < (2 : ℚ) ^ (128 : Int)) : (quantise t xs).2.1 = 254 := by
  obtain ⟨n, hn⟩ := h
  have le : ∀ x ∈ xs, ∀ j, topOf x = some j → j ≤ 128 := by
    intro x hx j hj
    obtain ⟨-, -, rfl⟩ | ⟨lo, -⟩ := topOf_spec hj
    · exact le_rfl
    · exact ((zpow_lt_zpow_iff_right₀ one_lt_two).mp (lo.trans_lt (small x hx))).le
  have first := firstExp_some t ⟨_, hn, rfl⟩ le
  exact_mod_cast first

theorem firstExp_scale {k : Int} (fin : ∀ x ∈ xs, ∀ n, x ≠ .inf n) (reached : ∃ x ∈ xs, (2 : ℚ) ^ k ≤ |x.rat|)
    (bound : ∀ x ∈ xs, |x.rat| < (2 : ℚ) ^ (k + 1)) : ((quantise t xs).2.1 : Int) = max 0 (min (k + 127) 254) := by
  obtain ⟨x, hx, le⟩ := reached
  exact firstExp_some t ⟨x, hx, topOf_eq (fin x hx) le (bound x hx)⟩ fun y hy j hj => topOf_le hj (fin y hy) (bound y hy)

/-- R140: an element of a block, from the exponents of the block and the value. -/
theorem quantElem_nearest (e0 e1 : Nat) (x : FVal) : ∃ sel sg m, (quantElem t e0 e1 x).1 = blockElem t sel sg m ∧ m ≤ bMax t ∧
    (x.isNan = true → sel = true ∧ sg = false ∧ m = 0) ∧ (∀ n, x = .inf n → sel = false ∧ sg = n ∧ m = bMax t) ∧
    (x.isFin = true →
      let a := |x.rat|
      let E := if sel then e1 else e0
      (∀ neg mm e, x = .fin neg mm e → sg = neg) ∧ (e1 = 255 → sel = false) ∧
      (∀ m' ≤ bMax t, |a - blockMag t E m| ≤ |a - blockMag t e0 m'| ∧
        (|a - blockMag t E m'| = |a - blockMag t E m| → m' = m ∨ m % 2 = 0)) ∧
      (∀ m' ≤ bMax t, e1 ≠ 255 → |a - blockMag t E m| ≤ |a - blockMag t e1 m'|) ∧
      (sel = true → ∀ m' ≤ bMax t, |a - blockMag t E m| < |a - blockMag t e0 m'|)) := by
  cases x with
  | nan sig => exact ⟨true, false, 0, rfl, Nat.zero_le _, fun _ => ⟨rfl, rfl, rfl⟩, nofun, nofun⟩
  | inf n => exact ⟨false, n, bMax t, rfl, le_rfl, nofun, fun k hk => ⟨rfl, FVal.inf.inj hk, rfl⟩, nofun⟩
  | fin neg k e =>
    obtain ⟨nearest, second, strict⟩ := taken_nearest t e0 e1 k e
    refine ⟨takesSecond t e0 e1 k e, neg, _, congrArg Prod.fst (quantElem_fin t e0 e1 neg k e), quantAt_le .., nofun, nofun, fun _ => ?_⟩
    rw [abs_rat_fin]
    refine ⟨fun n k' e' h => (FVal.fin.inj h).1, fun none => ?_, nearest, second, strict⟩
    simp [takesSecond, none]

theorem quantise_elements {i : Nat} {x : FVal} (h : xs[i]? = some x) :
    (quantise t xs).1[i]? = some (quantElem t (quantise t xs).2.1 (quantise t xs).2.2.1 x).1 := by
  rw [quantise_getElem?, h]
  rfl

/-! ### The flags of a block -/

theorem firstExp_ne (xs : List FVal) : (quantise t xs).2.1 ≠ 255 := by
  have := firstExp_le t xs
  omega

theorem mem_iff_exists_getElem? {p : FVal → Prop} : (∃ (i : Nat) (x : FVal), xs[i]? = some x ∧ p x) ↔ ∃ x ∈ xs, p x := by
  simp only [List.mem_iff_getElem?]
  exact ⟨fun ⟨i, x, hi, h⟩ => ⟨x, ⟨i, hi⟩, h⟩, fun ⟨x, ⟨i, hi⟩, h⟩ => ⟨i, x, hi, h⟩⟩

theorem any_sig : (quantise t xs).2.2.2.any (·.sig) = true ↔ .nan true ∈ xs := by
  rw [any_infos]
  simp only [quantElem_sig]
  rw [mem_iff_exists_getElem?]
  simp

theorem any_ov (small : ∀ x ∈ xs, |x.rat| < (2 : ℚ) ^ (128 : Int)) : (quantise t xs).2.2.2.any (·.ov) = true ↔ ∃ n, .inf n ∈ xs := by
  rw [any_infos, mem_iff_exists_getElem?]
  constructor
  · rintro ⟨x, hx, h⟩
    obtain ⟨n, rfl⟩ := (quantElem_ov _ _ _ x (small x hx)).mp h
    exact ⟨n, hx⟩
  · rintro ⟨n, hn⟩
    exact ⟨_, hn, (quantElem_ov _ _ _ _ (small _ hn)).mpr ⟨n, rfl⟩⟩

theorem any_uf : (quantise t xs).2.2.2.any (·.uf) = true ↔
    ∃ (i : Nat) (x : FVal), xs[i]? = some x ∧ x.rat ≠ 0 ∧ (quantise t xs).1.getD i 0 % 2 ^ bMagBits t = 0 := by
  rw [any_infos]
  refine exists_congr fun i => exists_congr fun x => and_congr_right fun hx => ?_
  rw [quantise_getD t hx, quantElem_uf]

theorem any_nx : (quantise t xs).2.2.2.any (·.nx) = true ↔ ∃ (i : Nat) (x : FVal), xs[i]? = some x ∧ x.isFin = true ∧
    (blockVal t (quantise t xs).2.1 (quantise t xs).2.2.1 ((quantise t xs).1.getD i 0)).rat ≠ x.rat := by
  rw [any_infos]
  refine exists_congr fun i => exists_congr fun x => and_congr_right fun hx => ?_
  rw [quantise_getD t hx, quantElem_nx _ _ _ _ (firstExp_ne t xs)]

/-- Underflow adds nothing to inexactness. -/
theorem any_uf_or_nx : ((quantise t xs).2.2.2.any (·.uf) || (quantise t xs).2.2.2.any (·.nx)) = (quantise t xs).2.2.2.any (·.nx) := by
  rw [Bool.or_eq_right_iff_imp, any_infos, any_infos]
  exact fun ⟨i, x, hx, h⟩ => ⟨i, x, hx, inexact_of_uf t _ _ x h (firstExp_ne t xs)⟩

end

/-! ### Conversions of one value (R133, R173) -/

theorem intInt_eq (s d : IntTy) (m : Rnd) (sat : Bool) (x : Nat) : cvtResult (.intInt s d m sat) x = (patternOf d sat (number s x), 0) := by
  rw [← intVal_eq, ← intResult_eq]
  rfl

theorem intFlt_zero {s : IntTy} (d : FTy) (m : Rnd) (ftz : Bool) {x : Nat} (h : number s x = 0) : cvtResult (.intFlt s d m ftz) x = (0, 0) := by
  simp only [cvtResult, cvtIntFlt, intVal_eq, if_pos h]

theorem fltFlt_infinity (s d : FTy) (m : Rnd) (n : Bool) : cvtResult (.fltFlt s d m false) (fInf s n) = (fInf d n, 0) := by
  simp only [cvtResult, cvtFltFlt, fDecode_fInf, fFlush_false]
  rfl

end Sys2Proof.Machine
end

section
/-! Conversions, packing and unpacking (R133, R134, R137, R140, R141, R172 to R175). -/

open Sys2Proof.Machine in
/-- Settles O9: one value is rounded once, to a number of the format or to the one integer that the mode takes; an element of a block is the nearer of the
nearest ones at two exponents; packed elements are digits. -/
theorem conversions : Obligations.Conversions := by
  unfold Obligations.Conversions
  refine ⟨fun o => laneOp_step (fun _ => rfl) fun c n th => real_cvtThread o c n th, ?one, ?quant, ?dequant,
    intInt_eq, fun s d m ftz x => ⟨intFlt_zero d m ftz, delivered_intFlt s d m ftz⟩, ?fltFlt, fltFlt_infinity, fun _ _ _ _ => rfl,
    fun s d m x n => fltInt_fin s d m, fun _ _ _ _ => rfl, ?block, fun s d m ftz x => fltFlt_nan s d m ftz, fun s d m ftz x => fltInt_nan s d m ftz,
    fltInt_infinity, fun o => wordStep (fun _ => rfl) fun _ _ _ => rfl, fun o => wordStep (fun _ => rfl) fun _ _ _ => rfl,
    fun t => packWord_halves, ?pack, fun t h a j _ => unpackWord_digit t h a, fun t => unpackWord_halves⟩
  case one =>
    intro o c n th p h
    rw [cvtThread_one o c n th h]
    cases p
    case intInt | fltInt => exact congrArg (·, _) (outInt_eq ..)
    case intFlt | fltFlt => exact congrArg (·, _) (outFlt_eq ..)
  case quant =>
    intro o c n th s d vc h
    have packs := cvtThread_quant_packs o c n th h
    rw [cvtBlock_eq] at packs
    exact packs
  case dequant =>
    intro o c n th b d m vc h
    obtain ⟨out, fl, eq, packs, flags⟩ := cvtThread_dequant_packs o c n th h
    rw [cvtValues_eq] at packs flags
    rw [List.map_map] at packs
    refine ⟨out, fl, eq, packs, fun j => (flags j).trans ?_⟩
    simp only [List.mem_map, List.mem_range, exists_exists_and_eq_and]
  case fltFlt =>
    intro s d m x hx fin
    refine ⟨fun ne => ?_, fltFlt_zero s d m hx fin⟩
    rw [fltFlt_fin s d m fin]
    exact delivered_of_ne_zero d m fin ne
  case block =>
    intro t xs
    refine ⟨secondExp_nan t xs, secondExp_step t xs, fun h => firstExp_none t fun x hx => topOf_none.mpr (h x hx), firstExp_infinity t,
      fun k => firstExp_scale t, quantise_length t xs, fun i x hx => ?_, fun small => ?_⟩
    · rw [quantise_elements t hx]
      obtain ⟨sel, sg, m, eq, rest⟩ := quantElem_nearest t (quantise t xs).2.1 (quantise t xs).2.2.1 x
      exact ⟨sel, sg, m, congrArg some eq, rest⟩
    · obtain ⟨sig, none, ov, uf, nx⟩ := quantFlags_bits (quantise t xs).2.2.2
      rw [sig, ov, uf, nx, any_uf_or_nx]
      exact ⟨any_sig t, none, any_ov t small, any_uf t, any_nx t⟩
  case pack =>
    intro t sat a b i hi
    exact (packWord_digit t sat a b hi).trans (packElem_toNat t sat _)
end
